-- ==== Sys2Proof/Word.lean ====
section
/-! DEFINITION. The words of the Carquin C4: 64-bit payloads with a 4-bit type tag (spec 03_values R24). -/
namespace Sys2Proof

/-- A 64-bit payload (R24). -/
abbrev Word := BitVec 64
/-- One byte of memory. -/
abbrev Byte := BitVec 8
/-- One bit per lane of a group (R47: 32 lanes). -/
abbrev Mask := BitVec 32

/-- The tags of Table 3.1, in code order; codes 14 and 15 are reserved and can only stand in memory. -/
inductive Tag where
  | raw | int | f64 | f32 | f16 | bf16 | bool | nil | sym | ref | hnd | fwd | pend | link | res14 | res15
  deriving DecidableEq, Repr

/-- The code of a tag (Table 3.1). -/
def Tag.code : Tag → Nat
  | .raw => 0 | .int => 1 | .f64 => 2 | .f32 => 3 | .f16 => 4 | .bf16 => 5 | .bool => 6 | .nil => 7
  | .sym => 8 | .ref => 9 | .hnd => 10 | .fwd => 11 | .pend => 12 | .link => 13 | .res14 => 14 | .res15 => 15

/-- The tag of a code; codes above 15 do not occur (a tag is 4 bits). -/
def Tag.ofCode : Nat → Tag
  | 0 => .raw | 1 => .int | 2 => .f64 | 3 => .f32 | 4 => .f16 | 5 => .bf16 | 6 => .bool | 7 => .nil
  | 8 => .sym | 9 => .ref | 10 => .hnd | 11 => .fwd | 12 => .pend | 13 => .link | 14 => .res14 | _ => .res15

/-- A lane value or memory word: tag and payload (R24). -/
structure Val where
  tag : Tag
  pay : Word
  deriving DecidableEq, Repr

/-- The value nil, which every vector and g register holds at a group's start (R54). -/
def Val.nil : Val := ⟨.nil, 0⟩
/-- A raw value. -/
def Val.raw (w : Word) : Val := ⟨.raw, w⟩
/-- An int value from a two's complement word. -/
def Val.int (w : Word) : Val := ⟨.int, w⟩
/-- An int value from an integer, modulo 2^64. -/
def Val.ofInt (i : Int) : Val := ⟨.int, BitVec.ofInt 64 i⟩
/-- A bool value (Table 3.1: bit 0). -/
def Val.bool (b : Bool) : Val := ⟨.bool, if b then 1 else 0⟩

end Sys2Proof
end

