-- ==== Sys2Proof/Syntax.lean ====
section
/-! DEFINITION. The syntax of the machine: one constructor per row of the opcode table. Instructions of group code and of the tile stream carry their decoded fields (spec 07_encoding); the events of the table (steps of the device that no word encodes) carry the numbers that name their subject. -/
namespace Sys2Proof

/-- The counter an instruction of version 1 raises (Table 7.2). -/
inductive Ctr where
  | ld | st | cp | sy
  deriving DecidableEq, Repr

/-- Scheduling control (R75): version 1 counted, version 2 interlocked. -/
inductive Sched where
  | counted (pace : BitVec 4) (yield : Bool) (cnt : Option Ctr) (lastA lastB lastC : Bool)
  | interlocked (yield : Bool)
  deriving DecidableEq, Repr

/-- The guard (R83): unguarded, or a predicate, inverted when neg is set. -/
inductive Guard where
  | always
  | on (neg : Bool) (p : Fin 24)
  deriving DecidableEq, Repr

/-- What every guarded group-code word carries beside its operands: scheduling, guard, and IXSEL (R71). -/
structure Ctl where
  sched : Sched
  guard : Guard
  ix : BitVec 3
  deriving DecidableEq, Repr

/-- What an instruction that must be unguarded carries: scheduling and IXSEL (Table 9.1, PRED 31). -/
structure UCtl where
  sched : Sched
  ix : BitVec 3
  deriving DecidableEq, Repr

/-- The special operands of Table 7.4, in code order from 384. -/
inductive Special where
  | lane | path | grp | blkx | blky | blkz | idx | gridx | gridy | gridz | ncount | recbase | node | depth
  | core | clock | zero | nil | true | false
  deriving DecidableEq, Repr

/-- A field that may name a vector register only, direct or indexed (R84). -/
inductive Vec where
  | v (n : Fin 320)
  | ix (base : Fin 320)
  deriving DecidableEq, Repr

/-- A field that may name a vector register, direct or indexed, or a g register. -/
inductive Reg where
  | v (n : Fin 320)
  | ix (base : Fin 320)
  | g (n : Fin 64)
  deriving DecidableEq, Repr

/-- A value source: vector, g or special operand (R84). -/
inductive Src where
  | v (n : Fin 320)
  | ix (base : Fin 320)
  | g (n : Fin 64)
  | sp (k : Special)
  deriving DecidableEq, Repr

/-- A predicate number (R87). -/
abbrev Pred := Fin 24

/-- An immediate of TYPE 0 (R90): ITAG 1 int, 3 f32, 6 bool. -/
inductive GImm where
  | int (imm : BitVec 32)
  | f32 (imm : BitVec 32)
  | bool (b : Bool)
  deriving DecidableEq, Repr

/-- Operand B of an R/I opcode of TYPE 0. -/
inductive GSrc where
  | reg (s : Src)
  | imm (i : GImm)
  deriving DecidableEq, Repr

/-- Operand B of a typed R/I opcode: IMM32 becomes an operand by the TYPE (R90). -/
inductive TSrc where
  | reg (s : Src)
  | imm (i : BitVec 32)
  deriving DecidableEq, Repr

/-- Rounding modes (Table 3.4). -/
inductive Rnd where
  | rne | rtz | rup | rdn
  deriving DecidableEq, Repr

/-- The type codes 1 to 19 of Table 3.7. -/
inductive Ty where
  | i32 | i64 | n32 | n64 | f64 | f32 | f16 | bf16 | e4m3 | e2m1 | e8m0 | b8 | b16 | b32 | b64
  | f16x4 | bf16x4 | i8 | i16
  deriving DecidableEq, Repr

/-- TYPE I/N of Table 13.1. -/
inductive ITy where
  | i32 | i64 | n32 | n64
  deriving DecidableEq, Repr
/-- TYPE of IABS and INEG. -/
inductive STy where
  | i32 | i64
  deriving DecidableEq, Repr
/-- TYPE B of Table 13.1. -/
inductive BTy where
  | b32 | b64
  deriving DecidableEq, Repr
/-- TYPE F of Table 13.3: the scalar float formats. -/
inductive FTy where
  | f64 | f32 | f16 | bf16
  deriving DecidableEq, Repr
/-- TYPE F or P of Table 13.3: scalar, or four packed 16-bit elements. -/
inductive PTy where
  | one (f : FTy)
  | f16x4
  | bf16x4
  deriving DecidableEq, Repr
/-- TYPE T of Table 13.3. -/
inductive TTy where
  | f32 | f16 | bf16
  deriving DecidableEq, Repr
/-- The packed formats of CVTPK and CVTXP. -/
inductive QTy where
  | e4m3 | e2m1
  deriving DecidableEq, Repr

/-- Conditions of ICMP (R154). -/
inductive ICond where
  | eq | ne | lt | le | gt | ge
  deriving DecidableEq, Repr
/-- Conditions of FCMP (R171). -/
inductive FCond where
  | eq | ne | lt | le | gt | ge | un | or
  deriving DecidableEq, Repr

/-- Address spaces (Table 15.1). -/
inductive Space where
  | glb | lan | spd | cls | chp
  deriving DecidableEq, Repr
/-- Ordering modifiers (R92). -/
inductive Ord where
  | none | acq | rel | ar | sc
  deriving DecidableEq, Repr

/-- Atomic operations (Table 15.4). -/
inductive AtomOp where
  | add | min | max | and | or | xor | exch | cas | fadd | fmin | fmax
  deriving DecidableEq, Repr
/-- Operand C of ATOM (R190). -/
inductive AtomC where
  | none
  | cas (c : Src)
  | stat (p : Pred)
  deriving DecidableEq, Repr

/-- Operations of GRED and GSCAN (R261). -/
inductive RedOp where
  | add | min | max | and | or | xor
  deriving DecidableEq, Repr
/-- The forms of VOTE (R259). -/
inductive VoteForm where
  | any (d a : Pred)
  | all (d a : Pred)
  | ballot (d : Reg) (a : Pred)
  | uni (d : Pred) (a : Src)
  deriving DecidableEq, Repr
/-- SHFL modes (R260). -/
inductive ShflMode where
  | idx | up | down | xor
  deriving DecidableEq, Repr
/-- Operand B of SHFL: a register, or IMM32[4:0]. -/
inductive ShflB where
  | reg (s : Src)
  | imm (b : BitVec 5)
  deriving DecidableEq, Repr
/-- Size of NALLOC: a register, or IMM32 in bytes (R234). -/
inductive NSize where
  | reg (s : Src)
  | imm (i : BitVec 32)
  deriving DecidableEq, Repr
/-- What BOX makes (R144): a value of a TYPE, or of the tag that SUB names. -/
inductive BoxForm where
  | ofType (t : Ty)
  | ofTag (t : Tag)
  deriving DecidableEq, Repr
/-- What MOVI writes (R160). -/
inductive MovImm where
  | gen (i : GImm)
  | typed (t : Ty) (i : BitVec 32)
  deriving DecidableEq, Repr
/-- Fields HINFO reads (R290). -/
inductive HField where
  | base | fmt | rows | cols | rstride | sbase | sstride | perm
  deriving DecidableEq, Repr
/-- Completion of an engine command (R318). -/
inductive Comp where
  | none
  | token (tk : Fin 8)
  | bar (addr : Src) (cls : Bool)
  deriving DecidableEq, Repr
/-- Space of a CPYG index list (Table 27.1, ISP). -/
inductive ISpace where
  | glb | spd | chp
  deriving DecidableEq, Repr

/-- The system registers of Table 9.4. -/
inductive SysReg where
  | clock | allot | pstack | cnt | tok
  | x (n : Fin 8)
  | fcause | faddr | tcode | trapvec | dispatch
  | hop | hsa | hsb | hsc | hdst | hres | hpc
  | nbase | ntop | nlimit
  | idempc | savebase | savebudget
  | energy | budget | gcmode
  deriving DecidableEq, Repr

/-- The wait of a TLOAD (R298): barrier WBAR, with SELF. -/
structure TWait where
  bar : Fin 16
  self : Bool
  deriving DecidableEq, Repr

/-- The steps of a tile base (Table 25.6). -/
structure TStep where
  rowBase : BitVec 10
  colBase : BitVec 10
  rstep : BitVec 8
  cstep : BitVec 8
  rlvl : BitVec 2
  clvl : BitVec 2
  deriving DecidableEq, Repr

/-- What a translation miss, a record or a wait belongs to. -/
inductive AgentId where
  | path (blk grp : Nat) (slot : Bool)
  | stream (blk : Nat)
  | engine (cmd : Nat)
  | caller (node : Nat)
  | packet (queue index : Nat)
  deriving DecidableEq, Repr

/-- A debug session as the host opens it (R404, R406, R413). -/
structure SessionSpec where
  part : Nat
  queues : List Nat
  stops : Bool
  tracing : Bool
  profiling : Bool
  breaks : List (Nat × BitVec 56)
  deriving DecidableEq, Repr

/-- A flit of CPYR bytes from a peer (R317, R324, R396): the physical die and the Span port it arrives at, sender, command, match
tag, address, bytes, the receiving partition. -/
structure Flit where
  die : Nat
  port : Nat
  srcDev : Nat
  srcPart : Nat
  cmd : Nat
  mtag : BitVec 32
  va : Nat
  bytes : List Byte
  part : Nat
  deriving DecidableEq, Repr

/-- A request of a function for the binding of a queue (R344, R393). -/
structure BindAsk where
  fn : Nat
  q : Nat
  deriving DecidableEq, Repr
/-- A doorbell page of a function (R393). -/
structure Bell where
  fn : Nat
  page : Nat
  deriving DecidableEq, Repr
/-- A physical address that a function accesses from the host (R386). -/
structure HostAt where
  fn : Nat
  pa : Nat
  deriving DecidableEq, Repr
/-- The bytes that the host reads, and whether it keeps the lines of device memory that hold them (R222). -/
structure HostLen where
  n : Nat
  cached : Bool
  deriving DecidableEq, Repr
/-- What the supply finds at boot: the tagged regions of the four dies (R31), the cores that failed, and the repair list of HBM
pseudo-channels, each by stack and number (R401). -/
structure PowerSpec where
  regions : List Nat
  failed : List Nat
  repairs : List (Nat × Nat)
  deriving DecidableEq, Repr

/-- What the software that holds physical function 0 states when it sets up a partition (R384, R369). -/
structure PartSpec where
  id : Nat
  dies : List Nat
  fqcb : Nat
  trcb : Nat
  deriving DecidableEq, Repr

/-- The registers without a behaviour of their own (R7, REGISTER_WRITE), and two requests at physical function 0's mailbox: the
device's number (R395), and a report of a partition's fault queue (R369). -/
inductive CtlReg where
  | devNo
  | faultQueue (part : Nat)
  | firewall (die f : Nat)
  | dietab
  | spanBind (part n : Nat)
  | binlo (cp n : Nat)
  | binhi (cp n : Nat)
  | binas (cp n : Nat)
  | bincnt (cp n k : Nat)
  | lcrtot (cp k : Nat)
  | evsel (part n : Nat)
  | evcnt (part n : Nat)
  deriving DecidableEq, Repr

/-- What a live-migration request does (R397): begins a round with a log ring, begins the final round, or ends the migration,
its package for the destination device. -/
inductive MigReq where
  | round (ring entries : Nat)
  | final (ring entries : Nat)
  | stop (dest : Nat)
  deriving DecidableEq, Repr

/-- The steps of a relocation (R389). -/
inductive RelocStep where
  | preCopy | stop | finalCopy | rewrite | resume
  deriving DecidableEq, Repr

/-- One instruction or event of the machine: one constructor per row of the opcode table, in its order. -/
inductive Instr where
  | nop (c : Ctl)
  | bra (c : Ctl) (t j : BitVec 24)
  | brx (c : Ctl) (a : Reg) (j : BitVec 24)
  | call (c : Ctl) (d : Vec) (t : BitVec 24)
  | callx (c : Ctl) (d : Vec) (a : Reg)
  | ret (c : UCtl) (a : Reg)
  | exit (c : Ctl)
  | trap (c : Ctl) (code : BitVec 32)
  | tret (c : UCtl)
  | yield (c : UCtl)
  | brk (c : Ctl) (code : BitVec 32)
  | cwait (c : UCtl) (ld st cp sy : BitVec 6)
  | twait (c : UCtl) (mask : BitVec 8)
  | mfs (c : Ctl) (d : Reg) (r : SysReg)
  | mts (c : Ctl) (a : Reg) (r : SysReg)
  | idem (c : UCtl)
  | idend (c : UCtl)
  | svdone (c : UCtl)
  | tlbiAll (c : Ctl)
  | tlbiPage (c : Ctl) (a : Reg)
  | trig (c : Ctl) (line : BitVec 6)
  | mark (c : Ctl) (a : Reg) (cls : BitVec 8)
  | add (c : Ctl) (r : Rnd) (d : Reg) (a : Src) (b : GSrc)
  | sub (c : Ctl) (r : Rnd) (d : Reg) (a : Src) (b : GSrc)
  | mul (c : Ctl) (r : Rnd) (d : Reg) (a : Src) (b : GSrc)
  | div (c : Ctl) (r : Rnd) (d : Reg) (a : Src) (b : GSrc)
  | fldiv (c : Ctl) (d : Reg) (a : Src) (b : GSrc)
  | mod (c : Ctl) (d : Reg) (a : Src) (b : GSrc)
  | neg (c : Ctl) (d : Reg) (a : Src)
  | abs (c : Ctl) (d : Reg) (a : Src)
  | min (c : Ctl) (d : Reg) (a : Src) (b : GSrc)
  | max (c : Ctl) (d : Reg) (a : Src) (b : GSrc)
  | fma (c : Ctl) (r : Rnd) (d : Reg) (a : Src) (b : GSrc) (k : Src)
  | eq (c : Ctl) (d : Pred) (a : Src) (b : GSrc)
  | ne (c : Ctl) (d : Pred) (a : Src) (b : GSrc)
  | lt (c : Ctl) (d : Pred) (a : Src) (b : GSrc)
  | le (c : Ctl) (d : Pred) (a : Src) (b : GSrc)
  | truth (c : Ctl) (d : Pred) (a : Src)
  | hash (c : Ctl) (d : Reg) (a : Src)
  | and (c : Ctl) (d : Reg) (a : Src) (b : GSrc)
  | or (c : Ctl) (d : Reg) (a : Src) (b : GSrc)
  | xor (c : Ctl) (d : Reg) (a : Src) (b : GSrc)
  | shl (c : Ctl) (d : Reg) (a : Src) (b : GSrc)
  | shr (c : Ctl) (d : Reg) (a : Src) (b : GSrc)
  | demotionExpiry (blk grp : Nat) (slot : Bool)
  | iadd (c : Ctl) (ty : ITy) (sat : Bool) (d : Reg) (a : Src) (b : TSrc)
  | isub (c : Ctl) (ty : ITy) (sat : Bool) (d : Reg) (a : Src) (b : TSrc)
  | imul (c : Ctl) (ty : ITy) (sat : Bool) (d : Reg) (a : Src) (b : TSrc)
  | imulh (c : Ctl) (ty : ITy) (d : Reg) (a : Src) (b : TSrc)
  | imad (c : Ctl) (ty : ITy) (sat : Bool) (d : Reg) (a : Src) (b : TSrc) (k : Src)
  | idiv (c : Ctl) (ty : ITy) (d : Reg) (a : Src) (b : TSrc)
  | irem (c : Ctl) (ty : ITy) (d : Reg) (a : Src) (b : TSrc)
  | imin (c : Ctl) (ty : ITy) (d : Reg) (a : Src) (b : TSrc)
  | imax (c : Ctl) (ty : ITy) (d : Reg) (a : Src) (b : TSrc)
  | iabs (c : Ctl) (ty : STy) (sat : Bool) (d : Reg) (a : Src)
  | ineg (c : Ctl) (ty : STy) (sat : Bool) (d : Reg) (a : Src)
  | icmp (c : Ctl) (ty : ITy) (cond : ICond) (d : Pred) (a : Src) (b : TSrc)
  | band (c : Ctl) (ty : BTy) (d : Reg) (a : Src) (b : TSrc)
  | bor (c : Ctl) (ty : BTy) (d : Reg) (a : Src) (b : TSrc)
  | bxor (c : Ctl) (ty : BTy) (d : Reg) (a : Src) (b : TSrc)
  | bnot (c : Ctl) (ty : BTy) (d : Reg) (a : Src)
  | bshl (c : Ctl) (ty : BTy) (d : Reg) (a : Src) (b : TSrc)
  | bshr (c : Ctl) (ty : BTy) (d : Reg) (a : Src) (b : TSrc)
  | bsar (c : Ctl) (ty : BTy) (d : Reg) (a : Src) (b : TSrc)
  | brol (c : Ctl) (ty : BTy) (d : Reg) (a : Src) (b : TSrc)
  | popc (c : Ctl) (ty : BTy) (d : Reg) (a : Src)
  | clz (c : Ctl) (ty : BTy) (d : Reg) (a : Src)
  | ctz (c : Ctl) (ty : BTy) (d : Reg) (a : Src)
  | brev (c : Ctl) (ty : BTy) (d : Reg) (a : Src)
  | bfx (c : Ctl) (ty : ITy) (d : Reg) (a : Src) (b : TSrc)
  | bfi (c : Ctl) (ty : BTy) (d : Reg) (a : Src) (b : TSrc) (k : Src)
  | sel (c : Ctl) (d : Reg) (a : Src) (b : GSrc) (p : Pred)
  | mov (c : Ctl) (d : Reg) (a : Src)
  | movi (c : Ctl) (d : Reg) (i : MovImm)
  | lea (c : Ctl) (sh : BitVec 3) (d : Reg) (a : Src) (b : TSrc)
  | plop (c : Ctl) (lut : BitVec 8) (d a b k : Pred)
  | pbool (c : Ctl) (d : Reg) (a : Pred)
  | fadd (c : Ctl) (ty : PTy) (r : Rnd) (d : Reg) (a : Src) (b : TSrc)
  | fsub (c : Ctl) (ty : PTy) (r : Rnd) (d : Reg) (a : Src) (b : TSrc)
  | fmul (c : Ctl) (ty : PTy) (r : Rnd) (d : Reg) (a : Src) (b : TSrc)
  | ffma (c : Ctl) (ty : PTy) (r : Rnd) (d : Reg) (a : Src) (b : TSrc) (k : Src)
  | fdiv (c : Ctl) (ty : FTy) (r : Rnd) (d : Reg) (a : Src) (b : TSrc)
  | fsqrt (c : Ctl) (ty : FTy) (r : Rnd) (d : Reg) (a : Src)
  | frcp (c : Ctl) (ty : FTy) (r : Rnd) (d : Reg) (a : Src)
  | frsq (c : Ctl) (ty : FTy) (r : Rnd) (d : Reg) (a : Src)
  | fmin (c : Ctl) (ty : PTy) (d : Reg) (a : Src) (b : TSrc)
  | fmax (c : Ctl) (ty : PTy) (d : Reg) (a : Src) (b : TSrc)
  | fabs (c : Ctl) (ty : PTy) (d : Reg) (a : Src)
  | fneg (c : Ctl) (ty : PTy) (d : Reg) (a : Src)
  | fcmp (c : Ctl) (ty : FTy) (cond : FCond) (d : Pred) (a : Src) (b : TSrc)
  | fexp2 (c : Ctl) (ty : TTy) (d : Reg) (a : Src)
  | flog2 (c : Ctl) (ty : TTy) (d : Reg) (a : Src)
  | fsin (c : Ctl) (ty : TTy) (d : Reg) (a : Src)
  | fcos (c : Ctl) (ty : TTy) (d : Reg) (a : Src)
  | ftanh (c : Ctl) (ty : TTy) (d : Reg) (a : Src)
  | frnd (c : Ctl) (ty : FTy) (r : Rnd) (d : Reg) (a : Src)
  | fclass (c : Ctl) (ty : FTy) (d : Reg) (a : Src)
  | fscale (c : Ctl) (ty : FTy) (r : Rnd) (d : Reg) (a : Src) (b : TSrc)
  | cvt (c : Ctl) (dst src : Ty) (sat : Bool) (r : Rnd) (d : Reg) (a : Src)
  | cvtpk (c : Ctl) (ty : QTy) (d : Reg) (a : Vec) (b : Src)
  | cvtxp (c : Ctl) (ty : QTy) (d : Vec) (a b : Src)
  | box (c : Ctl) (f : BoxForm) (d : Reg) (a : Src)
  | unbox (c : Ctl) (d : Reg) (a : Src)
  | tagof (c : Ctl) (d : Reg) (a : Src)
  | tagset (c : Ctl) (t : Tag) (d : Reg) (a : Src)
  | tagchk (c : Ctl) (d : Pred) (a : Src) (mask : BitVec 16)
  | ld (c : Ctl) (ty : Ty) (sp : Space) (o : Ord) (heal obj : Bool) (d : Reg) (a : Src) (off : BitVec 24)
  | st (c : Ctl) (ty : Ty) (sp : Space) (o : Ord) (obj : Bool) (a b : Src) (off : BitVec 24)
  | atom (c : Ctl) (op : AtomOp) (ty : Ty) (sp : Space) (o : Ord) (obj : Bool) (d : Reg) (a b : Src) (k : AtomC)
      (off : BitVec 24)
  | red (c : Ctl) (op : AtomOp) (ty : Ty) (sp : Space) (o : Ord) (obj : Bool) (a b : Src) (off : BitVec 24)
  | casw (c : Ctl) (sp : Space) (o : Ord) (obj : Bool) (pen : Option Pred) (d : Vec) (a : Src) (b k : Vec)
      (off : BitVec 24)
  | fence (c : Ctl) (o : Ord)
  | pref (c : Ctl) (l2 : Bool) (a : Src) (off : BitVec 24)
  | storeRegistration (k : Nat)
  | nalloc (c : Ctl) (sz : NSize) (d : Reg) (p : Pred)
  | hdrld (c : Ctl) (o : Ord) (obj : Bool) (pen : Option Pred) (d : Reg) (a : Src) (off : BitVec 24)
  | fwdcas (c : Ctl) (o : Ord) (pen : Option Pred) (d : Reg) (a b k : Src) (off : BitVec 24)
  | refchk (c : Ctl) (d : Pred) (a : Src)
  | barinit (c : Ctl) (cls : Bool) (a b k : Src) (off : BitVec 24)
  | bararr (c : Ctl) (cls : Bool) (d : Reg) (a b : Src) (off : BitVec 24)
  | bartx (c : Ctl) (cls : Bool) (d : Reg) (a b : Src) (off : BitVec 24)
  | bwait (c : Ctl) (cls : Bool) (texp : BitVec 5) (d : Reg) (a b : Src)
  | btest (c : Ctl) (cls : Bool) (d : Reg) (a b : Src) (p : Pred)
  | waitTimeout (blk grp : Nat) (slot : Bool)
  | waitRetest (blk grp : Nat) (slot : Bool)
  | pinit (c : Ctl) (a : Src) (off : BitVec 24)
  | pfill (c : Ctl) (a b : Src) (off : BitVec 24)
  | peq (c : Ctl) (d : Reg) (a b : Src) (p : Pred)
  | pwait (c : Ctl) (texp : BitVec 5) (d : Vec) (a : Src)
  | pget (c : Ctl) (d : Vec) (a : Src) (p : Pred)
  | proot (c : Ctl) (d : Reg) (a : Src)
  | vote (c : Ctl) (f : VoteForm)
  | shfl (c : Ctl) (m : ShflMode) (d : Reg) (a : Src) (b : ShflB) (pv : Option Pred)
  | gred (c : Ctl) (op : RedOp) (ty : Ty) (d : Reg) (a : Src)
  | gscan (c : Ctl) (op : RedOp) (excl : Bool) (ty : Ty) (d : Reg) (a : Src)
  | mtch (c : Ctl) (payOnly : Bool) (d : Reg) (a : Src)
  | elect (c : Ctl) (d : Pred)
  | seal (c : Ctl) (sp : Space) (o : Ord) (d : Reg) (a : Src) (off : BitVec 24)
  | unseal (c : Ctl) (a : Src)
  | hinfo (c : Ctl) (f : HField) (d : Reg) (a : Src)
  | tclaim (acc : Bool) (first count : BitVec 10)
  | trel (acc : Bool) (first count : BitVec 10)
  | tload (slot : Fin 48) (hw : BitVec 10) (st : TStep) (roleB : Bool) (w : Option TWait)
  | tmma (acc : Fin 8) (a b : Fin 48)
  | tstore (acc : Fin 8) (hw : BitVec 10) (st : TStep)
  | tzero (acc : Fin 8)
  | tarr (b : Fin 16)
  | tbwt (b : Fin 16) (self : Bool)
  | tloop (count : BitVec 24)
  | tendl
  | tstop
  | tchk (off : BitVec 19)
  | cpy (c : Ctl) (ss ds : Space) (k : Comp) (a b n : Src) (doff : BitVec 24)
  | cpym (c : Ctl) (ss : Space) (k : Comp) (a b : Src) (geo : Vec) (doff : BitVec 24)
  | cpyg (c : Ctl) (ss ds : Space) (isp : ISpace) (k : Comp) (a b : Src) (geo : Vec) (doff : BitVec 24)
  | cpyr (c : Ctl) (ss : Space) (tk : Option (Fin 8)) (peer a b n : Src) (doff : BitVec 24)
  | nmatch (c : Ctl) (ss : Space) (d : Reg) (a b k : Src)
  | nunmatch (c : Ctl) (d : Reg) (a : Src)
  | engineLanding (cmd k : Nat)
  | engineCommandComplete (cmd : Nat)
  | engineCommandFailure (cmd : Nat) (fwdAtPeer : Bool)
  | spanFlitReceive (f : Flit)
  | matchTemplateCommit (node slot : Nat)
  | spanPortDown (die port : Nat)
  | ralloc (c : Ctl) (d : Reg) (a : Src) (p : Pred)
  | rcommit (c : Ctl) (a : Src)
  | rdone (c : Ctl)
  | rflush (c : Ctl) (d : Reg) (a : Src)
  | rcard (c : Ctl) (tk : Option (Fin 8)) (d : Reg) (a b n : Src)
  | nodeLaunch (node core : Nat)
  | nodeTimerExpiry (node : Nat)
  | cardLaunch (node core : Nat)
  | cardComplete (card : Nat)
  | queueBind (ask : BindAsk) (aspace qcb : Nat)
  | queueKick (bell : Bell) (w : Word)
  | queueCheck (q : Nat)
  | signalStore (q i : Nat)
  | signalAdd (q i : Nat)
  | signalPfill (q i : Nat)
  | signalCommit (q i : Nat)
  | signalTlbi (q i : Nat)
  | waitv (q i : Nat)
  | waitvPoll (q i : Nat)
  | rcbset (q i : Nat)
  | copy (q i : Nat)
  | launch (q i : Nat)
  | graphBind (q i : Nat)
  | graphUnbind (q i : Nat)
  | card (q i : Nat)
  | marker (q i : Nat)
  | packetComplete (q i : Nat)
  | blockAdmission (launch : Nat)
  | blockPlacement (launch : Nat) (weights : List (Nat × Nat))
  | energyWindowStart
  | groupResourceRelease (blk grp : Nat)
  | blockEnd (blk : Nat)
  | corePowerGate (core : Nat)
  | tileEnginePowerGate (core : Nat)
  | coreWake (core : Nat)
  | thermalThrottle (die : Nat) (on : Bool)
  | thermalShutdown (die : Nat)
  | powerOn (k : PowerSpec)
  | translationMiss (who : AgentId) (aspace va : Nat) (write fetch : Bool)
  | mappingStep (part rec : Nat)
  | resolveObserved (who : AgentId)
  | faultRecordWrite (part : Nat)
  | kill (blk : Nat) (cause : BitVec 8)
  | preemption (blk : Nat)
  | cooperativeSave (blk grp : Nat)
  | saveBudgetExpiry (blk grp : Nat)
  | forcedFullSave (blk grp : Nat)
  | discard (blk : Nat)
  | resume (blk : Nat) (cores : List Nat)
  | coreRetirement (core : Nat) (canSave : Bool)
  | clusterReclaim (core : Nat)
  | tenantSwitch (tenant : Nat) (cores : List Nat)
  | hostGrant (core line : Nat) (exclusive : Bool)
  | hostSnoopSnpData (core line : Nat)
  | hostSnoopSnpInv (core line : Nat)
  | hostSnoopSnpCur (core line : Nat)
  | hostMemRead (at_ : HostAt) (len : HostLen)
  | hostMemWrite (at_ : HostAt) (bytes : List Byte)
  | firewallDrop (die f addr : Nat)
  | relocation (st : RelocStep) (part p q : Nat)
  | liveMigrationRound (part : Nat) (r : MigReq)
  | bootRomCheck
  | recoveryImage (image sig : List Byte) (version : Nat)
  | attestationRequest (nonce : List Byte)
  | tdispLock (vf : Nat)
  | stopInterface (vf : Nat)
  | dieLoss (die : Nat)
  | hbmFailure (die base size : Nat)
  | linkLaneRetrain (die f : Nat)
  | spanLaneLoss (die port : Nat)
  | sessionOpen (s : SessionSpec)
  | debugStopRequest (launch blk grp lane : Nat)
  | pcBreakpoint (blk grp : Nat) (slot : Bool)
  | debugRelease (blk grp : Nat) (slot : Bool)
  | triggerPulse (line : BitVec 6)
  | triggerPinIn (pin : Fin 4)
  | cueWrite (die : Nat) (w : Word)
  | cueAPulse (die : Nat)
  | cueBPulse (die : Nat) (sameClockAsA : Bool)
  | registerWrite (r : CtlReg) (w : Word)
  | instructionCompletion (blk grp k : Nat)
  | tmmaCompletion (core : Nat)
  | startInterface (vf : Nat)
  | addressSpaceCreate (id part root : Nat)
  | addressSpaceDestroy (id : Nat)
  | partitionSetup (p : PartSpec)
  | tenantRcbInstall (part : Nat) (aspace addr target : Nat)
  | migrationPackageImport (part dev : Nat) (package sig : List Byte) (s : SessionSpec)
  deriving DecidableEq, Repr

end Sys2Proof
end

