-- ==== Sys2Proof/Machine/State.lean ====
section
/-! DEFINITION. The state of the machine as plain data, the reasons a step can stop, and the state after reset. Every piece of state the spec gives the device is a field; INVENTORY.md lists each with its rule. -/
namespace Sys2Proof.Machine

/-- Sparse data by key: strictly rising keys, no entry equal to the default an unlisted key reads as. -/
abbrev Store (α : Type) := List (Nat × α)
/-- Bytes by address, in the same canonical form (unlisted bytes read 0, DESIGN CHOICE, log entry 1). -/
abbrev Memory := List Host.Cell

/-- The mode of a path (R52 MODE, R70). -/
inductive Mode where
  | user | runtime
  deriving DecidableEq, Repr

/-- Kinds of a path entry (R52); a join entry is a constructor of its own. -/
inductive PathKind where
  | normal | handler | replay
  deriving DecidableEq, Repr

/-- What a path of kind replay repeats: its fetch, its instruction (R63), or only the dispatch reads and
the split of a class already raised (R133). -/
inductive Replay where
  | fetch | instr | raise
  deriving DecidableEq, Repr

/-- The spin state of a slot (R64, R65): spin PC, count, demotion, and what the current iteration did. -/
structure Spin where
  pc : Option (BitVec 56)
  count : Nat
  demoted : Bool
  since : Nat
  changed : Bool
  sectors : List Nat
  judged : List Nat
  deriving DecidableEq, Repr

/-- The cleared spin state (R55). -/
def Spin.clear : Spin := ⟨none, 0, false, 0, false, [], []⟩

/-- A lane raised to a handler class (R58): class, the tags of its index (R131), and its staging values
(Table 11.7). -/
structure Raise where
  lane : Nat
  cls : Nat
  tagA : Nat
  tagB : Nat
  s0 : Val
  s1 : Val
  s2 : Val
  deriving DecidableEq, Repr

/-- What a memory instruction has of a lane whose access has performed: the values read, the bit of its
predicate, the class it raises, whether its barrier step (R239) is still to be done, and the address met. -/
structure LaneOut where
  lane : Nat
  vals : List Val
  bit : Option Bool
  raise : Option Raise
  todo : Bool
  addr : Nat
  deriving DecidableEq, Repr

/-- The interface registers of an instruction: hop, hsa, hsb, hsc and hdst as KIND and NUM (R137); whether its access is a
write, and whether it is a fetch; all 0 for a fault that arose in the fetch. -/
structure Face where
  hop : Word
  hsa : Word
  hsb : Word
  hsc : Word
  dst : Nat × Nat
  write : Bool
  fetch : Bool
  deriving DecidableEq, Repr

/-- What a path that replays has still to do (R63, R133, R239): the Active set of the first issue, the
partial-completion mask, the lanes whose record was resolved unmappable with the number of its 64 KiB page (`noFetch`: that of the
fetch), what the finished lanes have, the lanes that stopped with their cause and address, whether the instruction has taken the
self-invalidation of its barrier (R242), the interface of an instruction whose split alone is still to be made, and, of a fetch,
whether the instruction has issued before. -/
structure Redo where
  what : Replay
  active : Mask
  pmask : Mask
  bad : List (Mask × Nat)
  noFetch : Bool := false
  acq : Bool := false
  got : List LaneOut
  raises : List Raise
  stop : Option (Mask × BitVec 8 × Word)
  face : Option Face := none
  again : Bool := false
  deriving DecidableEq, Repr

/-- A lane of a BWAIT: the object's scratchpad address, the phase given, whether a wait-unit entry serves it. -/
structure BarLane where
  lane : Nat
  obj : Nat
  phase : BitVec 32
  registered : Bool
  deriving DecidableEq, Repr

/-- A pending BWAIT (R252): undecided lanes, decided statuses, limit, destination as the operand number decoded at the
issue (R84). -/
structure BarWait where
  ctl : Ctl
  lanes : List BarLane
  status : List (Nat × Nat)
  deadline : Option Nat
  active : Mask
  d : Nat
  deriving DecidableEq, Repr

/-- A pending PWAIT (R275): the first register of its pair and its interface words as decoded at the issue (R84), undecided
lanes with the address of their cell, decided lanes with status, value and cell. -/
structure PromWait where
  ctl : Ctl
  num : Nat
  face : Face
  lanes : List (Nat × Nat)
  status : List (Nat × Nat × Val × Nat)
  deadline : Option Nat
  active : Mask
  deriving DecidableEq, Repr

/-- What a path waits for (R50). -/
inductive Wait where
  | none
  | counters (ld st cp sy : Nat)
  | tokens (mask : BitVec 8)
  | bar (w : BarWait)
  | prom (w : PromWait)
  | records (recs : List (Nat × Mask))
  | room
  deriving DecidableEq, Repr

/-- A register as the interlock names it (R80). -/
inductive RegName where
  | v (n : Nat)
  | g (n : Nat)
  | p (n : Nat)
  deriving DecidableEq, Repr

/-- A path (Table 5.2, path entry), with the slot state of R50 and its debug state (R406, R407): held, held by BRK,
a stop (its cause, and a lane it was asked of) that takes effect before the next issue, and released at its breakpoint; `cands`
are the clocks in which it has been a candidate without issuing (R358). `owes` are the registers that an
instruction it has issued and not finished will write, `owes2` whether that is one of version 2 (R80), `owesCtr` the counter
that instruction has raised (R79). -/
structure Path where
  pc : BitVec 56
  joinPc : BitVec 56
  mask : Mask
  kind : PathKind
  hl : Bool
  mode : Mode
  joinNo : Option Nat
  frame : Option Nat
  redo : Option Redo
  wait : Wait
  spin : Spin
  held : Bool
  heldBrk : Bool
  stopReq : Option (Nat × Nat)
  pass : Bool
  nextAt : Nat
  cands : Nat
  owes : List RegName
  owes2 : Bool
  owesCtr : Option Ctr
  deriving DecidableEq, Repr

/-- A join entry (Table 5.2, kind 3), with a stop that an arrived path was asked for (R407). -/
structure Join where
  no : Nat
  pc : BitVec 56
  joinPc : BitVec 56
  mask : Mask
  arrived : Mask
  hl : Bool
  mode : Mode
  hj : Bool
  outer : Option Nat
  frame : Option Nat
  stopReq : Option (Nat × Nat)
  deriving DecidableEq, Repr

/-- An entry of the path stack (R51). -/
inductive StackItem where
  | path (p : Path)
  | join (j : Join)
  deriving DecidableEq, Repr

/-- A handler frame (R135, R137, R366): its split's join number, whether it is a trap frame, and the
interface registers. -/
structure Frame where
  joinNo : Nat
  trap : Bool
  cause : Word
  faddr : Word
  tcode : Word
  hop : Word
  hsa : Word
  hsb : Word
  hsc : Word
  hdst : Word
  hres : Word
  hpc : Word
  deriving DecidableEq, Repr

/-- One register write of an instruction. -/
inductive RegWrite where
  | v (n lane : Nat) (x : Val)
  | g (n : Nat) (x : Val)
  | p (n lane : Nat) (b : Bool)
  deriving DecidableEq, Repr

/-- Register results an instruction has not yet written (R78 to R81): the clock they are due (none for the variable
class), the writes, the counter to lower, the mask of the path that issued it, whether it is of version 2. -/
structure Completion where
  due : Option Nat
  writes : List RegWrite
  cnt : Option Ctr
  mask : Mask
  v2 : Bool
  deriving DecidableEq, Repr

/-- The life of a group: `stopped` by a pre-emption, `saving` in its save handler, `forced` when a forced full save is
due. -/
inductive GroupSt where
  | none | running | stopped | saving | forced | restoring | saved | discarded | ended
  deriving DecidableEq, Repr

/-- The state of a group: its block, hard partition, core and partition of the core; registers, path table, frames, counters, tokens and system registers
(R47, R50, R54, Table 9.4). While it is being saved: the clock of the handler's first issue, the frozen time since, where
its image is, the paths that have left the slots and the stack entries beneath the handler's (R376 to R378). `fused` holds
the masks of the joins that have fused since the turn began (R202). -/
structure Group where
  blk : Nat
  grp : Nat
  pid : Nat
  core : Nat
  part : Nat
  st : GroupSt
  all : Mask
  present : Mask
  allot : Nat
  v : Store Val
  g : Store Val
  p : Store Mask
  x : Store Word
  slot0 : Option Path
  slot1 : Option Path
  stack : List StackItem
  frames : Store Frame
  ld : Nat
  stc : Nat
  cp : Nat
  sy : Nat
  busy : BitVec 8
  tokFault : Store (BitVec 8 × Word)
  pend : List Completion
  fcause : Word
  faddr : Word
  tcode : Word
  trapvec : Word
  dispatch : Word
  nbase : Word
  ntop : Word
  nlimit : Word
  idempc : Word
  idemMask : Mask
  idemMode : Mode
  savebase : Word
  savebudget : Word
  gcmode : Word
  depth : List Nat
  lanBase : Nat
  lanSize : Nat
  age : Nat
  saveFrom : Option Nat
  saveFrozen : Nat
  saveAt : Option Word
  saved0 : Option Path
  saved1 : Option Path
  under : List StackItem
  image : Nat
  fused : List Mask
  deriving DecidableEq, Repr

/-- No group: what `State.grp` holds while no path issues. -/
def Group.empty : Group where
  blk := 0
  grp := 0
  pid := 0
  core := 0
  part := 0
  st := .none
  all := 0
  present := 0
  allot := 1
  v := []
  g := []
  p := []
  x := []
  slot0 := none
  slot1 := none
  stack := []
  frames := []
  ld := 0
  stc := 0
  cp := 0
  sy := 0
  busy := 0
  tokFault := []
  pend := []
  fcause := 0
  faddr := 0
  tcode := 0
  trapvec := 0
  dispatch := 0
  nbase := 0
  ntop := 0
  nlimit := 0
  idempc := 0
  idemMask := 0
  idemMode := .user
  savebase := 0
  savebudget := 20000
  gcmode := 0
  depth := []
  lanBase := 0
  lanSize := 0x10000
  age := 0
  saveFrom := none
  saveFrozen := 0
  saveAt := none
  saved0 := none
  saved1 := none
  under := []
  image := 0
  fused := []

/-- A declared resource set: what a launch descriptor and a node descriptor share (Table 29.1, R354). -/
structure Spec where
  entry : Nat
  ts : Nat
  allot : Nat
  slots : Nat
  accs : Nat
  lanw : Nat
  spd : Nat
  bars : List (Nat × Nat)
  rcb : Nat
  deriving DecidableEq, Repr

/-- The effective region-control values of a launch (R351, R352): the chain of blocks from its own up with
the caps and budget of each, and each field taken through the inherit bits. -/
structure Eff where
  chain : List Nat
  levels : List (Nat × Nat × Nat × Nat)
  job : Nat
  tenant : Nat
  prio : Nat
  fdom : Nat
  trapvec : Word
  saveh : Word
  dispatch : Word
  savebase : Word
  savebudget : Nat
  hdrpart : Nat
  coll : Bool
  pin : Bool
  lend : Bool
  capcores : Nat
  chpwin : Nat
  est : Nat
  ebudget : Nat
  jbudget : Nat
  deriving DecidableEq, Repr

/-- What a block came from: a block of a grid, or a node or card launch (R49, R330, R340). -/
inductive Origin where
  | grid (launch num x y z : Nat)
  | node (id ncount recbase first : Nat) (card : Option Nat)
  deriving DecidableEq, Repr

/-- Element formats a slot can hold (R281). -/
inductive TileFmt where
  | e4m3 | e2m1 | bf16
  deriving DecidableEq, Repr

/-- A loaded operand slot (R292, Table 25.7): elements row by row, row scales, tile scale, block scales. -/
structure TileData where
  fmt : TileFmt
  roleB : Bool
  elems : List (BitVec 16)
  sa : List (BitVec 32)
  sb : BitVec 32
  es : List Byte
  deriving DecidableEq, Repr

/-- What a tile stream waits for. -/
inductive StreamWait where
  | none
  | bar (b : Nat) (self : Bool)
  | records (recs : List Nat)
  | room
  deriving DecidableEq, Repr

/-- Bytes of a word of memory (space and number as `Home.key` gives them) that stand in the window of a numbered barrier
(R226). -/
structure StreamWord where
  bar : Nat
  sp : Nat
  word : Nat
  bytes : BitVec 8
  deriving DecidableEq, Repr

/-- The tile stream of a block (R292, R293, R296, R302, R304): PC, phases, loops, slots and accumulators (listed when
claimed), checksum counts, what it waits for, whether the wait of its TLOAD is over, the words its TSTORE has written,
and the access (address, write, fetch) that was resolved unmappable. Of an instruction that waits for pages: the record it has
copied and the bytes it has read, by space and address (R289, R298); of a TMMA, when it first asked for the engine (R291). For
R226: the barrier of the last wait, the paths (barrier, group, lanes) that have arrived since the stream's arrival there, what
they have written since, and what the loaded slots were read from. -/
structure Stream where
  pc : BitVec 56
  stopped : Bool
  q : Store (BitVec 32)
  loops : List (BitVec 56 × Nat × Nat)
  slots : Store (Option TileData)
  accs : Store (Option (List (BitVec 32)))
  rerun : Nat
  fail : Nat
  facc : Nat
  wait : StreamWait
  waited : Bool
  written : List Nat
  bad : Option (Nat × Bool × Bool)
  copied : Option (List Word)
  kept : List (Nat × Nat × Byte)
  asked : Option Nat
  lastBar : Option Nat
  arrived : List (Nat × Nat × Mask)
  late : List StreamWord
  loads : List (Nat × StreamWord)
  deriving DecidableEq, Repr

/-- A fault record (Table 33.3), before its clock and index are set; `act` and `again` are the active mask of the path concerned
and whether it replays, which the trace record of its write names (Table 37.1). -/
structure FaultRec where
  kind : Nat
  cause : BitVec 8
  die : Nat
  flags : BitVec 8
  core : Nat
  grp : Nat
  slot : Nat
  pc : Nat
  faddr : Word
  mask : Mask
  pmask : Mask
  aspace : Nat
  queue : Nat
  block : Nat
  act : Mask := 0
  again : Bool := false
  deriving DecidableEq, Repr

/-- The life of a block: `saving` and `dropping` until its save or discard is complete, `held` when saved, `restart` when
discarded. -/
inductive BlockSt where
  | running | saving | dropping | held | restart | ended
  deriving DecidableEq, Repr

/-- A block (R47): origin, resources, cores, scratchpad base on each core, what is left of its energy estimate (R360),
tile stream, and its place in the order in which blocks have been placed (R361). -/
structure Block where
  id : Nat
  origin : Origin
  pid : Nat
  aspace : Nat
  queue : Nat
  spec : Spec
  eff : Eff
  gx : Nat
  gy : Nat
  gz : Nat
  lanes : Nat
  cores : List Nat
  spdBase : List (Nat × Nat)
  est : Nat
  stream : Option Stream
  st : BlockSt
  killRec : Option FaultRec
  frozenAt : Option Nat
  heldOn : List Nat
  heldSpd : Memory
  heldTags : Store Tag
  order : Nat
  deriving DecidableEq, Repr

/-- A grid launch in progress (R354, R356): blocks admitted, placed and ended, the rotation's pointer, its energy window,
the estimates of the blocks admitted and not yet placed, and the window in which its next block was refused (R360). -/
structure Launch where
  id : Nat
  queue : Nat
  pkt : Nat
  pid : Nat
  aspace : Nat
  spec : Spec
  eff : Eff
  gx : Nat
  gy : Nat
  gz : Nat
  lanes : Nat
  allowed : Nat
  placed : Nat
  ended : Nat
  pointer : Nat
  halted : Bool
  win : Nat
  ests : List Nat
  refused : Option Nat
  deriving DecidableEq, Repr

/-- A region control block as installed (Table 31.4). -/
structure Rcb where
  pid : Nat
  addr : Nat
  parent : Nat
  level : Nat
  prio : Nat
  fdom : Nat
  inherit : BitVec 32
  ebudget : Nat
  share : Nat
  shareint : Nat
  trapvec : Word
  saveh : Word
  dispatch : Word
  savebase : Word
  savebudget : Nat
  hdrpart : Nat
  flags : BitVec 8
  capnodes : Nat
  capcores : Nat
  caprun : Nat
  chpwin : Nat
  est : Nat
  deriving DecidableEq, Repr

/-- The part of a job's energy account that belongs to a region block of the launch level (R352, R360): charge in the window
and estimates not yet charged. -/
structure SubAccount where
  rcb : Nat
  charge : Nat
  pending : Nat
  deriving DecidableEq, Repr

/-- The energy account of a job (R359, R360): charge in the window, estimates not yet charged, blocks of
the window, the mean energy per block of the window before, whether its issue clocks are withheld, and its launches' parts. -/
structure Job where
  pid : Nat
  rcb : Nat
  charge : Nat
  pending : Nat
  blocks : Nat
  mean : Option Nat
  withheld : Bool
  subs : List SubAccount
  deriving DecidableEq, Repr

/-- What the work of a region block of a job has done on a core since its energy was last counted there: issued lane cycles and tile-engine clocks (R359). -/
structure Work where
  core : Nat
  pid : Nat
  rcb : Nat
  own : Nat
  n : Nat
  deriving DecidableEq, Repr

/-- A chip-scratchpad window that firmware has allotted: its job, die, first byte and size (R179, R390). -/
structure ChpWin where
  pid : Nat
  job : Nat
  die : Nat
  base : Nat
  size : Nat
  deriving DecidableEq, Repr

/-- The states of a queue slot (Table 29.2). -/
inductive SlotSt where
  | free | reserved | committed | void | launched | done
  deriving DecidableEq, Repr

/-- A record that the Caller or a packet is writing into a reserved slot (R342): who, and the words. -/
structure Emit where
  who : AgentId
  words : List Val
  deriving DecidableEq, Repr

/-- A queue slot's record: state, depth, commit clock, reserving group, the record that a match emission or a
packet is writing to it, and the block of the launch that has taken it (R334, R337). -/
structure QSlot where
  st : SlotSt
  depth : Nat
  clock : Nat
  owner : Option (Nat × Nat)
  emit : Option Emit
  launch : Nat
  deriving DecidableEq, Repr

/-- The free slot. -/
def QSlot.free : QSlot := ⟨.free, 0, 0, none, none, 0⟩

/-- A batch card (R339-R341). -/
structure Card where
  id : Nat
  node : Nat
  base : Nat
  count : Nat
  dealt : Nat
  depth : Nat
  token : Option (Nat × Nat × Nat)
  dropped : Bool
  deriving DecidableEq, Repr

/-- A node context bound to a descriptor (R326, R328), with the window in which its next launch was refused (R360). -/
structure Node where
  id : Nat
  pid : Nat
  aspace : Nat
  queue : Nat
  spec : Spec
  eff : Eff
  qbase : Nat
  qcap : Nat
  rsize : Nat
  thresh : Nat
  maxdepth : Nat
  timer : Nat
  strict : Bool
  slots : Store QSlot
  alloc : Nat
  launch : Nat
  release : Nat
  flush : Bool
  timedOut : Bool
  pointer : Nat
  win : Nat
  refused : Option Nat
  unbind : Option (Nat × Nat)
  deriving DecidableEq, Repr

/-- An entry of a die's match table (R321, R324): full tag, partition and job, counts, node, template; the number of
its completion among others, and the slot its emission has reserved. -/
structure MatchEntry where
  tag : Nat
  pid : Nat
  job : Nat
  exp : Nat
  count : Nat
  node : Nat
  tmpl : List Val
  done : Option Nat
  slot : Option Nat
  deriving DecidableEq, Repr

/-- Where a packet that has started stands (R346): its effect is in progress or over, it has completed, or its access
has failed. -/
inductive PacketSt where
  | running | effected | done | failed
  deriving DecidableEq, Repr

/-- A packet that has started: its index, its eight words, records committed so far and the slot reserved for the next
(CARD, SIGNAL), and the clock of the next poll (WAITV). -/
structure Packet where
  idx : Nat
  words : List Word
  st : PacketSt
  count : Nat
  slot : Option Nat
  poll : Nat
  deriving DecidableEq, Repr

/-- A hardware queue with the copies firmware made at its bind (Table 31.1, R344, R345), and where its control block stands in
physical memory. -/
structure Queue where
  id : Nat
  pid : Nat
  aspace : Nat
  qcb : Nat
  pa : Nat
  ring : Nat
  log2n : Nat
  die : Nat
  vec : Nat
  rcb : Nat
  widx : Nat
  sidx : Nat
  cidx : Nat
  state : Nat
  err : Nat
  packets : List Packet
  deriving DecidableEq, Repr

/-- A place bytes stand: an address of a space, as the issuing group's core forms it. -/
structure Loc where
  sp : Space
  a : Nat
  deriving DecidableEq, Repr

/-- The source of a range of an engine command: a place, or row k of a gather, read when it is reached. -/
inductive SrcRef where
  | at (l : Loc)
  | row (k off : Nat)
  deriving DecidableEq, Repr

/-- A range of bytes an engine command has still to land: source, destination, length, the barrier that counts them
(object and the address given), and the destination addresses that overlap the source (R313). -/
structure Range where
  src : SrcRef
  dst : Loc
  len : Nat
  bar : Option (Nat × Nat)
  over_ : Option (Nat × Nat)
  deriving DecidableEq, Repr

/-- The gather list of a CPYG: list address, source base, row bytes (R316). -/
structure Gather where
  list : Loc
  base : Loc
  rb : Nat
  deriving DecidableEq, Repr

/-- An engine command in flight (R311-R320): the group or the packet that issued it, its front end's core, what is
still to land, its token, the peer with match tag and address of a CPYR, how it failed (cause, address, write), and the words it
has read on pages of MT 2, which it accesses once (R314). -/
structure Cmd where
  id : Nat
  owner : Option (Nat × Nat)
  packet : Option (Nat × Nat)
  core : Nat
  pid : Nat
  aspace : Nat
  user : Bool
  pc : Nat
  lane : Nat
  todo : List Range
  gather : Option Gather
  token : Option Nat
  peer : Option (Nat × BitVec 32 × Nat)
  failed : Option (BitVec 8 × Nat × Bool)
  once : List (Nat × Val)
  deriving DecidableEq, Repr

/-- A waiter entry of a die's promise pool (R276): path, lanes, next entry; `root` is the word whose list
holds it. -/
structure Waiter where
  die : Nat
  idx : Nat
  root : Nat
  blk : Nat
  grp : Nat
  slot : Bool
  mask : Mask
  next : Option (Nat × Nat)
  deriving DecidableEq, Repr

/-- A store that has performed and is not yet registered (R188, R208): its group, core and the lanes of the paths that
it is ordered before (R202), its word by physical word number, the byte lanes, the new payload bits and tag, and whether its
path has read the word it makes (R205). A store to a scratchpad that has issued and not yet performed at its bank (R206, R209)
stands here too; its word has the number that `bankKey` gives it. -/
structure PendStore where
  blk : Nat
  grp : Nat
  core : Nat
  mask : Mask
  word : Nat
  bytes : BitVec 8
  data : Word
  tag : Option Tag
  read : Bool
  deriving DecidableEq, Repr

/-- A load that performs ahead of its issue (R206): its group, the lanes whose paths it can serve, the space and number of
its word (those of `Home.key`). -/
structure Ahead where
  blk : Nat
  grp : Nat
  mask : Mask
  sp : Nat
  word : Nat
  deriving DecidableEq, Repr
/-- The same with the value it has read, and the lanes of paths that have since accessed its word or acquired (R202). -/
structure Early where
  load : Ahead
  val : Val
  passed : Mask
  deriving DecidableEq, Repr

/-- A header word in a core's header partition (R243), with the address it was reached by, the log2 of its page's size, and
whether its core has self-invalidated since it was read (R242). -/
structure HdrEntry where
  core : Nat
  word : Nat
  aspace : Nat
  va : Nat
  size : Nat
  val : Val
  clean : Bool
  deriving DecidableEq, Repr

/-- A pointer entry that a die's walkers keep (R183): the lowest address bit its level is indexed by, the address bits from
there up, the entry. -/
structure PtrEntry where
  die : Nat
  aspace : Nat
  bit : Nat
  base : Nat
  entry : Word
  deriving DecidableEq, Repr

/-- A sealed handle entry (R285): generation, the record as eight words, the sealing address space. -/
structure HEntry where
  sealed : Bool
  gen : BitVec 16
  words : List Word
  aspace : Nat
  deriving DecidableEq, Repr

/-- A free entry of generation 0. -/
def HEntry.free : HEntry := ⟨false, 0, [], 0⟩

/-- A TLB entry (R183): core, address space, page base, log2 of the page size, leaf. -/
structure TlbEntry where
  core : Nat
  aspace : Nat
  base : Nat
  size : Nat
  leaf : Word
  deriving DecidableEq, Repr

/-- An address space (R384): partition and page-table root (none when unbound, R428). -/
structure Aspace where
  id : Nat
  pid : Nat
  root : Option Nat
  deriving DecidableEq, Repr

/-- A hard partition (R384): its logical dies, fault-queue and trace control blocks, the counts WIDX and LOST of each, which only
the device writes (R369, R405), handle table, stopped state. -/
structure Partition where
  id : Nat
  dies : List Nat
  fqcb : Nat
  trcb : Nat
  fqWidx : Nat
  fqLost : Nat
  trWidx : Nat
  trLost : Nat
  handles : Store HEntry
  stopped : Bool
  lastCore : Option Nat
  deriving DecidableEq, Repr

/-- A record of kind 1 that is not yet resolved (R371): its number in the model, its partition, the record,
who waits for it, its index in the ring once there was room for it, what RESOLVE was observed to hold. -/
structure PendRec where
  uid : Nat
  part : Nat
  record : FaultRec
  who : AgentId
  idx : Option Nat
  res : Nat
  deriving DecidableEq, Repr

/-- Line states of host memory in an L1 (Table 17.2). -/
inductive LineSt where
  | i | s | e | m
  deriving DecidableEq, Repr

/-- TDISP states of an interface (R394). -/
inductive TdispSt where
  | unlocked | locked | run | error
  deriving DecidableEq, Repr

/-- A virtual function (R393): the tenant region block it serves and its TDISP state. -/
structure Vf where
  id : Nat
  pid : Nat
  tenant : Nat
  st : TdispSt
  deriving DecidableEq, Repr

/-- A debug session (R404): what it enables and whether capture is on. -/
structure Session where
  spec : SessionSpec
  capture : Bool
  suspended : Bool
  deriving DecidableEq, Repr

/-- The units of a core's partition (Table 1.1, R12): the clock of its last issue and the issues in that clock, the clock of
its memory port's last instruction, and when its f64 unit and its special-function unit are free. -/
structure Units where
  clock : Nat
  issues : Nat
  port : Option Nat
  f64 : Nat
  sfu : Nat
  deriving DecidableEq, Repr

/-- A partition that has issued nothing. -/
def Units.idle : Units := ⟨0, 0, none, 0, 0⟩

/-- The tile engine of a core (R18, R299, R303): the TMMA that occupies it, until when, and its power. -/
structure Tile where
  gated : Bool
  lastUse : Nat
  busyUntil : Nat
  blk : Nat
  acc : Nat
  before : Option (List (BitVec 32))
  after : List (BitVec 32)
  active : Bool
  reran : Bool
  pc : BitVec 56
  deriving DecidableEq, Repr

/-- An idle, gated tile engine. -/
def Tile.off : Tile := ⟨true, 0, 0, 0, 0, none, [], false, false, 0⟩

/-- The requests of a core's L1 over CXL.cache (Table 17.2). -/
inductive CacheReq where
  | rdShared | rdOwn | dirtyEvict | cleanEvict
  deriving DecidableEq, Repr

/-- What the device has sent across its boundary: interrupts of a function, host read data, requests and data of CXL.cache,
back-invalidations, replies, the addresses of a fault queue, package pins, flits to a peer with the port they leave by and their
sender, and what becomes of a peer's bytes. -/
inductive Out where
  | interrupt (fn vec : Nat)
  | hostData (pa : Nat) (bytes : List Byte)
  | line (core line : Nat) (bytes : List Byte)
  | cache (r : CacheReq) (core line : Nat) (bytes : List Byte)
  | backInv (line : Nat)
  | refuse (what : Nat)
  | report (digest : BitVec 512) (sig : List Byte)
  | package (part dest : Nat) (bytes : List Byte) (sig : List Byte)
  | pin (n : Nat)
  | faultQueue (part block ring : Nat)
  | span (die port srcPart cmd peer : Nat) (mtag : BitVec 32) (va : Nat) (bytes : List Byte)
  | spanReply (dev part cmd : Nat) (cause : Option (BitVec 8))
  | event (what : Nat)
  deriving DecidableEq, Repr

/-- A flit that has left by a Span port and is not acknowledged, or waits for one (R395): its number, the port by which it went,
the physical die it came from, its sender, peer, match tag, address and bytes. -/
structure SentFlit where
  no : Nat
  port : Option (Nat × Nat)
  die : Nat
  part : Nat
  cmd : Nat
  peer : Nat
  mtag : BitVec 32
  va : Nat
  bytes : List Byte
  deriving DecidableEq, Repr

/-- An entry of firmware's security log (R385, R396). -/
inductive SecEntry where
  | drop (die f count addr : Nat)
  | span (dev part va : Nat)
  deriving DecidableEq, Repr

/-- A live migration in progress (R397, R398). -/
structure Migration where
  pid : Nat
  ring : Nat
  entries : Nat
  used : Nat
  dirty : List Nat
  lost : Bool
  final : Bool
  deriving DecidableEq, Repr

/-- A relocation in progress (R389): partition, from, to, last step done. -/
structure Reloc where
  pid : Nat
  p : Nat
  q : Nat
  done : RelocStep
  deriving DecidableEq, Repr

/-- A chip-scratchpad window with its bytes and tags, by offset. -/
structure HeldWin where
  win : ChpWin
  bytes : List (Nat × Byte)
  tags : List (Nat × Tag)
  deriving DecidableEq, Repr
/-- The lane-cycle bins and totals of a die's partitions (Table 37.2), by key from 0. -/
structure HeldCounts where
  lo : Store Word
  hi : Store Word
  as_ : Store Word
  cnt : Store Word
  tot : Store Word
  deriving DecidableEq, Repr
/-- The state of a partition that a migration package carries (R397, R389 step 3): held blocks with their groups and launches,
handle table, node contexts and cards, match table, waiter entries, chip-scratchpad windows; WIDX and LOST of its two rings and the
pending records of kind 1, which move with the ring; its debug sessions, and their counters: those of each die, and the event
counters (R413). -/
structure Held where
  blocks : List Block
  groups : List Group
  launches : List Launch
  handles : Store HEntry
  nodes : List Node
  cards : List Card
  matchTab : List MatchEntry
  waiters : List Waiter
  wins : List HeldWin
  rings : Nat × Nat × Nat × Nat
  recs : List PendRec
  sessions : List Session
  counts : List HeldCounts
  evsel : Store Word
  evcnt : Store Word
  deriving DecidableEq, Repr, Inhabited

/-- Where the bring-up stands (R399, R403). -/
inductive Boot where
  | off | recovery | up
  deriving DecidableEq, Repr

/-- The firmware slot (R399): image, signature and security version. -/
structure Image where
  bytes : List Byte
  sig : List Byte
  version : Nat
  deriving DecidableEq, Repr

/-- Device-wide state that firmware, the security domain and debug reach; `rounds` are the queues (die, queue, packet) that the
lanes of the command cores parse, `flits` the flits that no peer's port has acknowledged (R395), `cueAt` and `pulsed` the clock after
the A pulse that began a sequencer's count and the clock after a line's last pulse (R411, R412), `served` the queue after the last that each took (R350). -/
structure Device where
  boot : Boot
  regions : List Nat
  image : Option Image
  minVersion : Nat
  dietab : Word
  firewall : Store Word
  fwLogged : List (Nat × Nat)
  span : Store Word
  ports : Store Nat
  links : Store Nat
  lostDies : List Nat
  hotDies : List Nat
  retired : List Nat
  retiredPages : List (Nat × Nat)
  spareMap : List (Nat × Nat)
  gated : List Nat
  idleSince : Store Nat
  wakes : List (Nat × Nat)
  vfs : List Vf
  sessions : List Session
  binlo : Store Word
  binhi : Store Word
  binas : Store Word
  bincnt : Store Word
  lcrtot : Store Word
  evsel : Store Word
  evcnt : Store Word
  cue : Store Word
  cueCount : Store Nat
  cueAt : Store Nat
  pulsed : Store Nat
  lines : List (Nat × Nat)
  sources : List (Nat × Nat)
  pinIn : List (Nat × Nat)
  stopIn : List (Nat × Nat)
  stopNext : List Nat
  captureIn : List (Nat × Bool)
  pinOut : List (Nat × Nat)
  security : List SecEntry
  migration : List Migration
  reloc : List Reloc
  devNo : Nat
  hdm : List Nat
  window : Nat
  slices : List (Nat × Nat × Bool)
  rounds : List (Nat × Nat × Nat)
  served : Store Nat
  flits : List SentFlit
  deriving DecidableEq, Repr

/-- The device after reset (R7 resets; log entries 2 and 3 for values the spec does not give). -/
def Device.reset : Device where
  boot := .off
  regions := []
  image := none
  minVersion := 0
  dietab := 0xB3A29180
  firewall := []
  fwLogged := []
  span := []
  ports := []
  links := []
  lostDies := []
  hotDies := []
  retired := []
  retiredPages := []
  spareMap := []
  gated := []
  idleSince := []
  wakes := []
  vfs := []
  sessions := []
  binlo := []
  binhi := []
  binas := []
  bincnt := []
  lcrtot := []
  evsel := []
  evcnt := []
  cue := []
  cueCount := []
  cueAt := []
  pulsed := []
  lines := []
  sources := []
  pinIn := []
  stopIn := []
  stopNext := []
  captureIn := []
  pinOut := []
  security := []
  migration := []
  reloc := []
  devNo := 0
  hdm := [0, 1, 2, 3]
  window := 0
  slices := []
  rounds := []
  served := []
  flits := []

/-- The choices of one step that no rule fixes (R426, R67, R186, R183): the clocks that pass, the event that
takes place or else which candidate issues, whether the issuing core has lost its clean cached lines, its fetched
code and its translations, the lines of its L1 that it evicts (R220), the loads that perform ahead of their issue, whether the
scratchpad stores of its instruction perform later (R206), the flits that are acknowledged (R395), the lanes that did not perform
because a lane stopped first, whether a tile checksum mismatches, the energy that the meters count on cores (core, µJ), and on the
copy engines, links and memory for the command of the event (R359) (DESIGN CHOICE, log entry 14). -/
structure Turn where
  event : Option Instr
  pick : Nat
  wait : Nat
  drop : Bool
  lose : List Nat
  ahead : List Ahead
  late : Bool
  acked : List Nat
  heldLanes : Mask
  tileErr : Bool
  energy : List (Nat × Nat)
  links : Nat
  deriving DecidableEq, Repr

/-- The choices of a step for which the plan names none. -/
def Turn.plain : Turn := ⟨none, 0, 1, false, [], [], false, [], 0, false, [], 0⟩

/-- Which agent issues: no one, the path in a slot of `State.grp`, or the tile stream of a block. -/
inductive Who where
  | idle
  | path (slot : Bool)
  | stream (blk : Nat)
  deriving DecidableEq, Repr

/-- The state of the machine. `grp` is the group whose path issues, held apart from the other groups; `written` are the
scratchpad words that stores have reached since the barrier waits on them were last tested (R252). -/
structure State where
  now : Nat
  turn : Turn
  plan : List Turn
  freeCtr : Nat
  uid : Nat
  rotor : Nat
  mem : Memory
  tags : Store Tag
  spd : Memory
  spdTags : Store Tag
  chp : Memory
  chpTags : Store Tag
  written : List Nat
  stores : List PendStore
  l1 : Store (Option Val)
  icopies : Store (Option Word)
  own : Store Nat
  hostLines : Store LineSt
  hostReqs : List (Nat × Nat)
  hostHeld : List Nat
  early : List Early
  hdr : List HdrEntry
  ptrs : List PtrEntry
  tlb : List TlbEntry
  aspaces : List Aspace
  parts : List Partition
  who : Who
  grp : Group
  groups : List Group
  blocks : List Block
  launches : List Launch
  rcbs : List Rcb
  jobs : List Job
  wins : List ChpWin
  queues : List Queue
  nodes : List Node
  cards : List Card
  matchTab : List MatchEntry
  unmatched : List (Nat × Nat × Nat)
  cmds : List Cmd
  waiters : List Waiter
  recs : List PendRec
  tiles : Store Tile
  units : Store Units
  work : List Work
  outs : List Out
  dev : Device
  deriving DecidableEq, Repr

/-- The machine right after reset: nothing bound, nothing resident, memory unlisted, every clock 0 (R12). -/
def State.reset : State where
  now := 0
  turn := Turn.plain
  plan := []
  freeCtr := 0
  uid := 1
  rotor := 0
  mem := []
  tags := []
  spd := []
  spdTags := []
  chp := []
  chpTags := []
  written := []
  stores := []
  l1 := []
  icopies := []
  own := []
  hostLines := []
  hostReqs := []
  hostHeld := []
  early := []
  hdr := []
  ptrs := []
  tlb := []
  aspaces := []
  parts := []
  who := .idle
  grp := Group.empty
  groups := []
  blocks := []
  launches := []
  rcbs := []
  jobs := []
  wins := []
  queues := []
  nodes := []
  cards := []
  matchTab := []
  unmatched := []
  cmds := []
  waiters := []
  recs := []
  tiles := []
  units := []
  work := []
  outs := []
  dev := Device.reset

/-- The reasons a step stops with a fault: there is none. Every fault of the spec is delivered as a next state, by a
trap, a record, a replay or a kill (R364). -/
inductive Fault where
  deriving DecidableEq, Repr

/-- Why a step has no meaning. -/
inductive Refusal where
  /-- Raised by an arm of `exec` for an instruction that has no meaning yet. Safe. -/
  | notModelled (mnemonic : String)
  deriving DecidableEq, Repr

end Sys2Proof.Machine
end

