-- ==== Sys2Proof/Config.lean ====
section
/-! DEFINITION. What an implementation fixes, and the free values: results the spec leaves open. A free value is an opaque constant, so nothing can be proved about which value it is. -/
namespace Sys2Proof.Config

/-- A free 64-bit value: the n-th value the spec leaves undefined in a run (DESIGN CHOICE, log entry 5). -/
opaque freeWord : Nat → BitVec 64
/-- A free byte, for bytes the spec leaves undefined (R313, DESIGN CHOICE, log entry 5). -/
opaque freeByte : Nat → BitVec 8
/-- The correctly rounded result of a function of R172 on an operand that the model's enclosures do not
decide: the function's number, the format's number, the operand (DEDUCED, log entry 6). -/
opaque undecided : Nat → Nat → BitVec 32 → BitVec 32
/-- The digest the ROM and attestation use (SHA3-512, R399, R400); its value is not modelled (DESIGN CHOICE, log entry 7). -/
opaque sha3 : List (BitVec 8) → BitVec 512
/-- Whether a signature verifies (ML-DSA-87, R399, R397): key, digest, signature (DESIGN CHOICE, log entry 7). -/
opaque verifies : BitVec 512 → BitVec 512 → List (BitVec 8) → Bool
/-- The signature the device's identity key makes over a digest (R400, DESIGN CHOICE, log entry 7). -/
opaque sign : BitVec 512 → List (BitVec 8)
/-- The vendor key fused in the device (R399, DESIGN CHOICE, log entry 7). -/
opaque vendorKey : BitVec 512
/-- The identity key of another device by its device number (R397, DESIGN CHOICE, log entry 7). -/
opaque peerKey : Nat → BitVec 512
/-- The ROM's code, as attestation measures it (R400, DESIGN CHOICE, log entry 7). -/
opaque rom : List (BitVec 8)
/-- A migration package: held state as firmware encrypts it for a destination device (R397, DESIGN CHOICE, log entry 7). -/
opaque pack : Machine.Held → Nat → List (BitVec 8)
/-- The held state that firmware finds in a package (R397, DESIGN CHOICE, log entry 7). -/
opaque unpack : List (BitVec 8) → Machine.Held
/-- Whether the device has the event of an event counter's number (R413, DESIGN CHOICE, log entry 7). -/
opaque hasEvent : BitVec 16 → Bool

/-- How many events of a number a partition has in a step: event, partition, number of the free value (R413; DESIGN CHOICE, log entry
31). -/
opaque events : BitVec 16 → Nat → Nat → Nat
/-- Where the dispatcher puts the lane windows of a group (R177): the n-th group's LANBASE / 256 (DESIGN CHOICE, log entry 12). -/
opaque lanBase : Nat → BitVec 47

end Sys2Proof.Config
end

