-- ==== Sys2Proof/WellFormed.lean ====
section
/-! DEFINITION. Well-formed instructions: the limits on fields that the types of Syntax do not already state, so that every well-formed instruction of group code or of the tile stream has a word (spec 07_encoding R88, R98 and the encoding tables of each chapter). Events carry numbers without limits and are well formed. -/
namespace Sys2Proof

/-- Whether a register is named through the index register (R84, bit 9). -/
def Vec.indexed : Vec → Bool
  | .v _ => false
  | .ix _ => true
/-- The same for a destination or v/g field. -/
def Reg.indexed : Reg → Bool
  | .ix _ => true
  | .v _ | .g _ => false
/-- The same for a source. -/
def Src.indexed : Src → Bool
  | .ix _ => true
  | .v _ | .g _ | .sp _ => false
/-- The same for operand B of a generic opcode. -/
def GSrc.indexed : GSrc → Bool
  | .reg s => s.indexed
  | .imm _ => false
/-- The same for operand B of a typed opcode. -/
def TSrc.indexed : TSrc → Bool
  | .reg s => s.indexed
  | .imm _ => false
/-- The same for the size of NALLOC. -/
def NSize.indexed : NSize → Bool
  | .reg s => s.indexed
  | .imm _ => false
/-- The same for operand B of SHFL. -/
def ShflB.indexed : ShflB → Bool
  | .reg s => s.indexed
  | .imm _ => false
/-- The same for operand C of ATOM. -/
def AtomC.indexed : AtomC → Bool
  | .cas s => s.indexed
  | .none | .stat _ => false
/-- The same for the barrier address of an engine command. -/
def Comp.indexed : Comp → Bool
  | .bar s _ => s.indexed
  | .none | .token _ => false

/-- IXSEL is zero unless some field is indexed (R84). -/
def Ctl.ok (c : Ctl) (indexed : Bool) : Bool := c.ix == 0 || indexed
/-- The same for an unguarded instruction. -/
def UCtl.ok (c : UCtl) (indexed : Bool) : Bool := c.ix == 0 || indexed

/-- Width in bits of a type (Table 3.7). -/
def Ty.width : Ty → Nat
  | .i32 | .n32 | .f32 | .b32 => 32
  | .i64 | .n64 | .f64 | .b64 | .f16x4 | .bf16x4 => 64
  | .f16 | .bf16 | .b16 | .i16 => 16
  | .e4m3 | .e8m0 | .b8 | .i8 => 8
  | .e2m1 => 4

/-- Codes 5 to 11 of Table 3.7. -/
def Ty.isFloat : Ty → Bool
  | .f64 | .f32 | .f16 | .bf16 | .e4m3 | .e2m1 | .e8m0 => true
  | .i32 | .i64 | .n32 | .n64 | .b8 | .b16 | .b32 | .b64 | .f16x4 | .bf16x4 | .i8 | .i16 => false
/-- The .b types. -/
def Ty.isBits : Ty → Bool
  | .b8 | .b16 | .b32 | .b64 => true
  | .i32 | .i64 | .n32 | .n64 | .f64 | .f32 | .f16 | .bf16 | .e4m3 | .e2m1 | .e8m0 | .f16x4 | .bf16x4
  | .i8 | .i16 => false
/-- The packed 16-bit types. -/
def Ty.isX4 : Ty → Bool
  | .f16x4 | .bf16x4 => true
  | .i32 | .i64 | .n32 | .n64 | .f64 | .f32 | .f16 | .bf16 | .e4m3 | .e2m1 | .e8m0 | .b8 | .b16 | .b32 | .b64
  | .i8 | .i16 => false

/-- Types of MOVI in form I (R160): codes 1–8 and 12–19. -/
def Ty.moviOk (t : Ty) : Bool := !(t == .e4m3 || t == .e2m1 || t == .e8m0)
/-- Type pairs of CVT (R139; SAT with a .b side is read as not accepted, DEDUCED, log entry 21). -/
def cvtOk (dst src : Ty) (sat : Bool) : Bool :=
  !dst.isX4 && !src.isX4 &&
  !((dst.isFloat && src.isBits) || (dst.isBits && src.isFloat)) &&
  !(sat && (dst.isFloat || src.isFloat || dst.isBits || src.isBits))
/-- Types of BOX (Table 11.11). -/
def Ty.boxOk : Ty → Bool
  | .i32 | .i64 | .n32 | .f64 | .f32 | .f16 | .bf16 | .i8 | .i16 => true
  | .n64 | .e4m3 | .e2m1 | .e8m0 | .b8 | .b16 | .b32 | .b64 | .f16x4 | .bf16x4 => false
/-- Tags SUB may name in BOX: 1 to 13 (R144). -/
def Tag.boxOk (t : Tag) : Bool := 1 ≤ t.code && t.code ≤ 13
/-- Tags TAGSET may name: 0 to 13 (R146). -/
def Tag.setOk (t : Tag) : Bool := t.code ≤ 13

/-- ORD of a load: 0, 1, 4 (Table 15.3). -/
def Ord.loadOk : Ord → Bool
  | .none | .acq | .sc => true
  | .rel | .ar => false
/-- ORD of a store: 0, 2, 4. -/
def Ord.storeOk : Ord → Bool
  | .none | .rel | .sc => true
  | .acq | .ar => false
/-- ORD of RED: 0, 2. -/
def Ord.redOk : Ord → Bool
  | .none | .rel => true
  | .acq | .ar | .sc => false
/-- ORD of SEAL: 0, 1. -/
def Ord.sealOk : Ord → Bool
  | .none | .acq => true
  | .rel | .ar | .sc => false

/-- Types of an atomic operation (Table 15.4). -/
def AtomOp.tyOk : AtomOp → Ty → Bool
  | .add, t | .min, t | .max, t => t == .i32 || t == .i64 || t == .n32 || t == .n64
  | .and, t | .or, t | .xor, t | .exch, t | .cas, t => t == .b32 || t == .b64
  | .fadd, t | .fmin, t | .fmax, t => t == .f32 || t == .f64
/-- The operations that accept STAT (R190). -/
def AtomOp.isFloat : AtomOp → Bool
  | .fadd | .fmin | .fmax => true
  | .add | .min | .max | .and | .or | .xor | .exch | .cas => false
/-- Operand C of ATOM (R190). -/
def AtomOp.cOk : AtomOp → AtomC → Bool
  | op, .none => op != .cas
  | op, .cas _ => op == .cas
  | op, .stat _ => op.isFloat
/-- RED takes neither .exch nor .cas (Table 15.3). -/
def AtomOp.redOk (op : AtomOp) : Bool := op != .exch && op != .cas
/-- Types of GRED and GSCAN (R261). -/
def RedOp.tyOk : RedOp → Ty → Bool
  | .add, t | .min, t | .max, t =>
    t == .i32 || t == .i64 || t == .n32 || t == .n64 || t == .f32 || t == .f64
  | .and, t | .or, t | .xor, t => t == .b32 || t == .b64

/-- Spaces 0, 2 and 4. -/
def Space.noCore : Space → Bool
  | .glb | .spd | .chp => true
  | .lan | .cls => false
/-- Spaces 0, 2, 3 and 4. -/
def Space.noLan (s : Space) : Bool := s != .lan
/-- OBJ needs SPACE 0 (Table 15.3). -/
def objOk (obj : Bool) (s : Space) : Bool := !obj || s == .glb

/-- Sizes of NALLOC (R234): a multiple of 16 from 16 to 1,048,576. -/
def sizeOk (n : Nat) : Bool := n % 16 == 0 && 16 ≤ n && n ≤ 1048576
def NSize.ok : NSize → Bool
  | .reg _ => true
  | .imm i => sizeOk i.toNat

/-- First and count of TCLAIM and TREL (Table 25.6). -/
def claimOk (acc : Bool) (first count : BitVec 10) : Bool :=
  if acc then first.toNat ≤ 7 && 1 ≤ count.toNat && count.toNat ≤ 8
  else first.toNat ≤ 47 && 1 ≤ count.toNat && count.toNat ≤ 48

/-- CPYM has no BSP (Table 27.1): its barrier is an offset. -/
def Comp.noCls : Comp → Bool
  | .bar _ cls => !cls
  | .none | .token _ => true

/-- Registers a runtime path may write by MTS (Table 9.4). A write to one of the others takes 0x01 (R115), the interface
registers sys.hop to sys.hpc outside a handler included, for which Table 9.4 also names 0x05 (DESIGN CHOICE, log entry 72). -/
def SysReg.writable : SysReg → Bool
  | .clock | .allot | .pstack | .cnt | .tok | .hop | .hsa | .hsb | .hsc | .hdst | .hpc | .energy | .budget => false
  | .x _ | .fcause | .faddr | .tcode | .trapvec | .dispatch | .hres | .nbase | .ntop | .nlimit | .idempc
  | .savebase | .savebudget | .gcmode => true
/-- Registers that are RO at user level and RW at runtime level (Table 9.4). -/
def SysReg.userReadOnly : SysReg → Bool
  | .fcause | .faddr | .tcode | .nbase | .ntop | .nlimit | .idempc | .savebudget | .gcmode => true
  | .clock | .allot | .pstack | .cnt | .tok | .x _ | .trapvec | .dispatch | .hop | .hsa | .hsb | .hsc | .hdst | .hres
  | .hpc | .savebase | .energy | .budget => false
/-- Registers whose user access is "—" (Table 9.4). -/
def SysReg.runtimeOnly : SysReg → Bool
  | .trapvec | .dispatch | .savebase => true
  | .clock | .allot | .pstack | .cnt | .tok | .x _ | .fcause | .faddr | .tcode | .hop | .hsa | .hsb | .hsc | .hdst
  | .hres | .hpc | .nbase | .ntop | .nlimit | .idempc | .savebudget | .energy | .budget | .gcmode => false

/-- A guarded BRA names a join (R101). -/
def braOk (g : Guard) (j : BitVec 24) : Bool :=
  match g with
  | .always => true
  | .on _ _ => j != 0

def VoteForm.indexed : VoteForm → Bool
  | .ballot d _ => d.indexed
  | .uni _ a => a.indexed
  | .any _ _ | .all _ _ => false
def MovImm.ok : MovImm → Bool
  | .gen _ => true
  | .typed t _ => t.moviOk
def BoxForm.ok : BoxForm → Bool
  | .ofType t => t.boxOk
  | .ofTag t => t.boxOk

/-- The limits an instruction's fields obey beyond their types. -/
def Instr.wf : Instr → Bool
  | .nop c | .exit c | .trap c _ | .brk c _ | .tlbiAll c | .trig c _ | .elect c _ | .rdone c => c.ok false
  | .bra c _ j => c.ok false && braOk c.guard j
  | .brx c a j => c.ok a.indexed && j != 0
  | .call c d _ => c.ok d.indexed
  | .callx c d a => c.ok (d.indexed || a.indexed)
  | .ret c a => c.ok a.indexed
  | .tret c | .yield c | .cwait c _ _ _ _ | .idem c | .idend c | .svdone c => c.ok false
  | .twait c m => c.ok false && m != 0
  | .mfs c d _ => c.ok d.indexed
  | .mts c a r => c.ok a.indexed && r.writable
  | .tlbiPage c a | .mark c a _ => c.ok a.indexed
  | .add c _ d a b | .sub c _ d a b | .mul c _ d a b | .div c _ d a b => c.ok (d.indexed || a.indexed || b.indexed)
  | .fldiv c d a b | .mod c d a b | .min c d a b | .max c d a b | .and c d a b | .or c d a b | .xor c d a b
  | .shl c d a b | .shr c d a b => c.ok (d.indexed || a.indexed || b.indexed)
  | .neg c d a | .abs c d a | .hash c d a | .mov c d a | .unbox c d a | .tagof c d a => c.ok (d.indexed || a.indexed)
  | .fma c _ d a b k => c.ok (d.indexed || a.indexed || b.indexed || k.indexed)
  | .eq c _ a b | .ne c _ a b | .lt c _ a b | .le c _ a b => c.ok (a.indexed || b.indexed)
  | .truth c _ a | .tagchk c _ a _ | .refchk c _ a => c.ok a.indexed
  | .iadd c _ _ d a b | .isub c _ _ d a b | .imul c _ _ d a b => c.ok (d.indexed || a.indexed || b.indexed)
  | .imulh c _ d a b | .idiv c _ d a b | .irem c _ d a b | .imin c _ d a b | .imax c _ d a b | .bfx c _ d a b =>
    c.ok (d.indexed || a.indexed || b.indexed)
  | .imad c _ _ d a b k => c.ok (d.indexed || a.indexed || b.indexed || k.indexed)
  | .iabs c _ _ d a | .ineg c _ _ d a => c.ok (d.indexed || a.indexed)
  | .icmp c _ _ _ a b => c.ok (a.indexed || b.indexed)
  | .band c _ d a b | .bor c _ d a b | .bxor c _ d a b | .bshl c _ d a b | .bshr c _ d a b | .bsar c _ d a b
  | .brol c _ d a b => c.ok (d.indexed || a.indexed || b.indexed)
  | .bnot c _ d a | .popc c _ d a | .clz c _ d a | .ctz c _ d a | .brev c _ d a => c.ok (d.indexed || a.indexed)
  | .bfi c _ d a b k => c.ok (d.indexed || a.indexed || b.indexed || k.indexed)
  | .sel c d a b _ => c.ok (d.indexed || a.indexed || b.indexed)
  | .movi c d i => c.ok d.indexed && i.ok
  | .lea c _ d a b => c.ok (d.indexed || a.indexed || b.indexed)
  | .plop c _ _ _ _ _ => c.ok false
  | .pbool c d _ => c.ok d.indexed
  | .fadd c _ _ d a b | .fsub c _ _ d a b | .fmul c _ _ d a b => c.ok (d.indexed || a.indexed || b.indexed)
  | .fdiv c _ _ d a b | .fscale c _ _ d a b => c.ok (d.indexed || a.indexed || b.indexed)
  | .ffma c _ _ d a b k => c.ok (d.indexed || a.indexed || b.indexed || k.indexed)
  | .fsqrt c _ _ d a | .frcp c _ _ d a | .frsq c _ _ d a | .frnd c _ _ d a => c.ok (d.indexed || a.indexed)
  | .fmin c _ d a b | .fmax c _ d a b => c.ok (d.indexed || a.indexed || b.indexed)
  | .fabs c _ d a | .fneg c _ d a => c.ok (d.indexed || a.indexed)
  | .fcmp c _ _ _ a b => c.ok (a.indexed || b.indexed)
  | .fexp2 c _ d a | .flog2 c _ d a | .fsin c _ d a | .fcos c _ d a | .ftanh c _ d a => c.ok (d.indexed || a.indexed)
  | .fclass c _ d a => c.ok (d.indexed || a.indexed)
  | .cvt c dst src sat _ d a => c.ok (d.indexed || a.indexed) && cvtOk dst src sat
  | .cvtpk c _ d a b => c.ok (d.indexed || a.indexed || b.indexed)
  | .cvtxp c _ d a b => c.ok (d.indexed || a.indexed || b.indexed)
  | .box c f d a => c.ok (d.indexed || a.indexed) && f.ok
  | .tagset c t d a => c.ok (d.indexed || a.indexed) && t.setOk
  | .ld c ty sp o heal obj d a _ =>
    c.ok (d.indexed || a.indexed) && ty != .e2m1 && o.loadOk && (!heal || ty.width == 64) && objOk obj sp
  | .st c ty sp o obj a b _ => c.ok (a.indexed || b.indexed) && ty != .e2m1 && o.storeOk && objOk obj sp
  | .atom c op ty sp _ obj d a b k _ =>
    c.ok (d.indexed || a.indexed || b.indexed || k.indexed) && op.tyOk ty && op.cOk k && objOk obj sp
  | .red c op ty sp o obj a b _ =>
    c.ok (a.indexed || b.indexed) && op.tyOk ty && op.redOk && o.redOk && objOk obj sp
  | .casw c sp _ obj _ d a b k _ =>
    c.ok (d.indexed || a.indexed || b.indexed || k.indexed) && sp.noLan && objOk obj sp
  | .fence c o => c.ok false && o != .none
  | .pref c _ a _ => c.ok a.indexed
  | .nalloc c sz d _ => c.ok (d.indexed || sz.indexed) && sz.ok
  | .hdrld c o _ _ d a _ => c.ok (d.indexed || a.indexed) && o.loadOk
  | .fwdcas c _ _ d a b k _ => c.ok (d.indexed || a.indexed || b.indexed || k.indexed)
  | .barinit c _ a b k _ => c.ok (a.indexed || b.indexed || k.indexed)
  | .bararr c _ d a b _ | .bartx c _ d a b _ => c.ok (d.indexed || a.indexed || b.indexed)
  | .bwait c _ _ d a b => c.ok (d.indexed || a.indexed || b.indexed)
  | .btest c _ d a b _ => c.ok (d.indexed || a.indexed || b.indexed)
  | .pinit c a _ => c.ok a.indexed
  | .pfill c a b _ => c.ok (a.indexed || b.indexed)
  | .peq c d a b _ => c.ok (d.indexed || a.indexed || b.indexed)
  | .pwait c _ d a => c.ok (d.indexed || a.indexed)
  | .pget c d a _ => c.ok (d.indexed || a.indexed)
  | .proot c d a => c.ok (d.indexed || a.indexed)
  | .vote c f => c.ok f.indexed
  | .shfl c _ d a b _ => c.ok (d.indexed || a.indexed || b.indexed)
  | .gred c op ty d a => c.ok (d.indexed || a.indexed) && op.tyOk ty
  | .gscan c op _ ty d a => c.ok (d.indexed || a.indexed) && op.tyOk ty
  | .mtch c _ d a => c.ok (d.indexed || a.indexed)
  | .seal c sp o d a _ => c.ok (d.indexed || a.indexed) && sp.noCore && o.sealOk
  | .unseal c a => c.ok a.indexed
  | .hinfo c _ d a => c.ok (d.indexed || a.indexed)
  | .tclaim acc first count | .trel acc first count => claimOk acc first count
  | .tload _ _ _ _ _ | .tmma _ _ _ | .tstore _ _ _ | .tzero _ | .tarr _ | .tbwt _ _ | .tendl | .tstop => true
  | .tloop n => n != 0
  | .tchk off => off.toNat % 8 == 0
  | .cpy c ss ds k a b n _ =>
    c.ok (k.indexed || a.indexed || b.indexed || n.indexed) && ss.noLan && ds.noLan
  | .cpym c ss k a b geo _ =>
    c.ok (k.indexed || a.indexed || b.indexed || geo.indexed) && ss.noCore && k.noCls
  | .cpyg c ss ds _ k a b geo _ =>
    c.ok (k.indexed || a.indexed || b.indexed || geo.indexed) && ss.noCore && ds.noLan
  | .cpyr c ss _ peer a b n _ =>
    c.ok (peer.indexed || a.indexed || b.indexed || n.indexed) && ss.noCore
  | .nmatch c ss d a b k => c.ok (d.indexed || a.indexed || b.indexed || k.indexed) && ss.noCore
  | .nunmatch c d a => c.ok (d.indexed || a.indexed)
  | .ralloc c d a _ => c.ok (d.indexed || a.indexed)
  | .rcommit c a => c.ok a.indexed
  | .rflush c d a => c.ok (d.indexed || a.indexed)
  | .rcard c _ d a b n => c.ok (d.indexed || a.indexed || b.indexed || n.indexed)
  | .demotionExpiry _ _ _ | .storeRegistration _ | .waitTimeout _ _ _ | .waitRetest _ _ _ | .engineLanding _ _
  | .engineCommandComplete _ | .engineCommandFailure _ _ | .spanFlitReceive _ | .matchTemplateCommit _ _
  | .spanPortDown _ _ | .nodeLaunch _ _ | .nodeTimerExpiry _ | .cardLaunch _ _ | .cardComplete _ | .queueBind _ _ _
  | .queueKick _ _ | .queueCheck _ | .signalStore _ _ | .signalAdd _ _ | .signalPfill _ _ | .signalCommit _ _
  | .signalTlbi _ _ | .waitv _ _ | .waitvPoll _ _ | .rcbset _ _ | .copy _ _ | .launch _ _ | .graphBind _ _
  | .graphUnbind _ _ | .card _ _ | .marker _ _ | .packetComplete _ _ | .blockAdmission _ | .blockPlacement _ _
  | .energyWindowStart | .groupResourceRelease _ _ | .blockEnd _ | .corePowerGate _ | .tileEnginePowerGate _
  | .coreWake _ | .thermalThrottle _ _ | .thermalShutdown _ | .powerOn _ | .translationMiss _ _ _ _ _
  | .mappingStep _ _ | .resolveObserved _ | .faultRecordWrite _ | .kill _ _ | .preemption _ | .cooperativeSave _ _
  | .saveBudgetExpiry _ _ | .forcedFullSave _ _ | .discard _ | .resume _ _ | .coreRetirement _ _ | .clusterReclaim _
  | .tenantSwitch _ _ | .hostGrant _ _ _ | .hostSnoopSnpData _ _ | .hostSnoopSnpInv _ _ | .hostSnoopSnpCur _ _
  | .hostMemRead _ _ | .hostMemWrite _ _ | .firewallDrop _ _ _ | .relocation _ _ _ _ | .liveMigrationRound _ _
  | .bootRomCheck | .recoveryImage _ _ _ | .attestationRequest _ | .tdispLock _ | .stopInterface _ | .dieLoss _
  | .hbmFailure _ _ _ | .linkLaneRetrain _ _ | .spanLaneLoss _ _ | .sessionOpen _ | .debugStopRequest _ _ _ _
  | .pcBreakpoint _ _ _ | .debugRelease _ _ _ | .triggerPulse _ | .triggerPinIn _ | .cueWrite _ _ | .cueAPulse _
  | .cueBPulse _ _ | .registerWrite _ _ | .instructionCompletion _ _ _ | .tmmaCompletion _ | .startInterface _
  | .addressSpaceCreate _ _ _ | .addressSpaceDestroy _ | .partitionSetup _ | .tenantRcbInstall _ _ _ _
  | .migrationPackageImport _ _ _ _ _ => true

end Sys2Proof
end

