-- ==== Sys2Proof/Decode.lean ====
section
/-! DEFINITION. The decoder of 128-bit instruction words, total and rejecting by name, and the encoder (spec 07_encoding R71-R99 and the encoding tables of each chapter). Conditions that give 0x01 are decided before the operands that give 0x03, as the rows of Table 7.12 stand. -/
namespace Sys2Proof

/-- Why a word is no instruction: the faults of Table 7.12 that the word alone decides. -/
inductive Reject where
  /-- 0x01: an illegal instruction. -/
  | illegalInstruction
  /-- 0x03: an operand number or kind the field does not take. -/
  | illegalOperand
  /-- 0x11: a tile-stream opcode in group code, or the reverse. -/
  | illegalContext
  deriving DecidableEq, Repr

/-- The cause code of a rejection (Table 7.12). -/
def Reject.cause : Reject → BitVec 8
  | .illegalInstruction => 0x01
  | .illegalOperand => 0x03
  | .illegalContext => 0x11

/-- The fields of Table 7.1; `sched` is bits 127:112. -/
structure Fields where
  sched : BitVec 16
  pneg : BitVec 1
  pred : BitVec 5
  opc : BitVec 10
  d : BitVec 10
  a : BitVec 10
  b : BitVec 10
  c : BitVec 10
  ix : BitVec 3
  ty : BitVec 5
  mod : BitVec 48
  deriving DecidableEq, Repr

/-- The fields of a word (R71). -/
def Fields.ofWord (w : BitVec 128) : Fields where
  sched := w.extractLsb' 112 16
  pneg := w.extractLsb' 111 1
  pred := w.extractLsb' 106 5
  opc := w.extractLsb' 96 10
  d := w.extractLsb' 86 10
  a := w.extractLsb' 76 10
  b := w.extractLsb' 66 10
  c := w.extractLsb' 56 10
  ix := w.extractLsb' 53 3
  ty := w.extractLsb' 48 5
  mod := w.extractLsb' 0 48

/-- The word of its fields. -/
def Fields.toWord (f : Fields) : BitVec 128 :=
  f.sched ++ f.pneg ++ f.pred ++ f.opc ++ f.d ++ f.a ++ f.b ++ f.c ++ f.ix ++ f.ty ++ f.mod

/-- MOD in formats R and I (Table 7.5). -/
structure ModR where
  imm : BitVec 1
  z : BitVec 1
  rnd : BitVec 2
  itag : BitVec 4
  sub : BitVec 8
  imm32 : BitVec 32
  deriving DecidableEq, Repr
def ModR.of (m : BitVec 48) : ModR :=
  ⟨m.extractLsb' 47 1, m.extractLsb' 46 1, m.extractLsb' 44 2, m.extractLsb' 40 4, m.extractLsb' 32 8,
   m.extractLsb' 0 32⟩
def ModR.bits (m : ModR) : BitVec 48 := m.imm ++ m.z ++ m.rnd ++ m.itag ++ m.sub ++ m.imm32

/-- MOD in format M (Table 7.7). -/
structure ModM where
  space : BitVec 3
  ord : BitVec 3
  heal : BitVec 1
  obj : BitVec 1
  sub : BitVec 8
  z : BitVec 8
  off : BitVec 24
  deriving DecidableEq, Repr
def ModM.of (m : BitVec 48) : ModM :=
  ⟨m.extractLsb' 45 3, m.extractLsb' 42 3, m.extractLsb' 41 1, m.extractLsb' 40 1, m.extractLsb' 32 8,
   m.extractLsb' 24 8, m.extractLsb' 0 24⟩
def ModM.bits (m : ModM) : BitVec 48 := m.space ++ m.ord ++ m.heal ++ m.obj ++ m.sub ++ m.z ++ m.off

/-- MOD in format W (Table 7.8). -/
structure ModW where
  z : BitVec 8
  sub : BitVec 8
  arg : BitVec 24
  z2 : BitVec 3
  texp : BitVec 5
  deriving DecidableEq, Repr
def ModW.of (m : BitVec 48) : ModW :=
  ⟨m.extractLsb' 40 8, m.extractLsb' 32 8, m.extractLsb' 8 24, m.extractLsb' 5 3, m.extractLsb' 0 5⟩
def ModW.bits (m : ModW) : BitVec 48 := m.z ++ m.sub ++ m.arg ++ m.z2 ++ m.texp

/-- MOD in format S (Table 7.9). -/
structure ModS where
  z : BitVec 8
  sub : BitVec 8
  z2 : BitVec 16
  sreg : BitVec 16
  deriving DecidableEq, Repr
def ModS.of (m : BitVec 48) : ModS :=
  ⟨m.extractLsb' 40 8, m.extractLsb' 32 8, m.extractLsb' 16 16, m.extractLsb' 0 16⟩
def ModS.bits (m : ModS) : BitVec 48 := m.z ++ m.sub ++ m.z2 ++ m.sreg

/-- MOD in format E (Table 7.10). -/
structure ModE where
  ss : BitVec 3
  ds : BitVec 3
  comp : BitVec 2
  sub : BitVec 8
  z : BitVec 3
  token : BitVec 3
  z2 : BitVec 2
  doff : BitVec 24
  deriving DecidableEq, Repr
def ModE.of (m : BitVec 48) : ModE :=
  ⟨m.extractLsb' 45 3, m.extractLsb' 42 3, m.extractLsb' 40 2, m.extractLsb' 32 8, m.extractLsb' 29 3,
   m.extractLsb' 26 3, m.extractLsb' 24 2, m.extractLsb' 0 24⟩
def ModE.bits (m : ModE) : BitVec 48 :=
  m.ss ++ m.ds ++ m.comp ++ m.sub ++ m.z ++ m.token ++ m.z2 ++ m.doff

/-! ### Codes of the fields -/

def Ctr.code : Ctr → BitVec 3
  | .ld => 1 | .st => 2 | .cp => 3 | .sy => 4
def Ty.code : Ty → BitVec 5
  | .i32 => 1 | .i64 => 2 | .n32 => 3 | .n64 => 4 | .f64 => 5 | .f32 => 6 | .f16 => 7 | .bf16 => 8 | .e4m3 => 9
  | .e2m1 => 10 | .e8m0 => 11 | .b8 => 12 | .b16 => 13 | .b32 => 14 | .b64 => 15 | .f16x4 => 16 | .bf16x4 => 17
  | .i8 => 18 | .i16 => 19
/-- The type of a code (Table 3.7); 0 and 20 to 31 name none. -/
def Ty.ofCode (c : BitVec 5) : Option Ty :=
  match c.toNat with
  | 1 => some .i32 | 2 => some .i64 | 3 => some .n32 | 4 => some .n64 | 5 => some .f64 | 6 => some .f32
  | 7 => some .f16 | 8 => some .bf16 | 9 => some .e4m3 | 10 => some .e2m1 | 11 => some .e8m0 | 12 => some .b8
  | 13 => some .b16 | 14 => some .b32 | 15 => some .b64 | 16 => some .f16x4 | 17 => some .bf16x4 | 18 => some .i8
  | 19 => some .i16 | _ => none
def ITy.ty : ITy → Ty
  | .i32 => .i32 | .i64 => .i64 | .n32 => .n32 | .n64 => .n64
def ITy.of : Ty → Option ITy
  | .i32 => some .i32 | .i64 => some .i64 | .n32 => some .n32 | .n64 => some .n64
  | .f64 | .f32 | .f16 | .bf16 | .e4m3 | .e2m1 | .e8m0 | .b8 | .b16 | .b32 | .b64 | .f16x4 | .bf16x4 | .i8 | .i16 => none
def STy.ty : STy → Ty
  | .i32 => .i32 | .i64 => .i64
def STy.of : Ty → Option STy
  | .i32 => some .i32 | .i64 => some .i64
  | .n32 | .n64 | .f64 | .f32 | .f16 | .bf16 | .e4m3 | .e2m1 | .e8m0 | .b8 | .b16 | .b32 | .b64 | .f16x4 | .bf16x4
  | .i8 | .i16 => none
def BTy.ty : BTy → Ty
  | .b32 => .b32 | .b64 => .b64
def BTy.of : Ty → Option BTy
  | .b32 => some .b32 | .b64 => some .b64
  | .i32 | .i64 | .n32 | .n64 | .f64 | .f32 | .f16 | .bf16 | .e4m3 | .e2m1 | .e8m0 | .b8 | .b16 | .f16x4 | .bf16x4
  | .i8 | .i16 => none
def FTy.ty : FTy → Ty
  | .f64 => .f64 | .f32 => .f32 | .f16 => .f16 | .bf16 => .bf16
def FTy.of : Ty → Option FTy
  | .f64 => some .f64 | .f32 => some .f32 | .f16 => some .f16 | .bf16 => some .bf16
  | .i32 | .i64 | .n32 | .n64 | .e4m3 | .e2m1 | .e8m0 | .b8 | .b16 | .b32 | .b64 | .f16x4 | .bf16x4 | .i8 | .i16 => none
def PTy.ty : PTy → Ty
  | .one f => f.ty | .f16x4 => .f16x4 | .bf16x4 => .bf16x4
def PTy.of : Ty → Option PTy
  | .f64 => some (.one .f64) | .f32 => some (.one .f32) | .f16 => some (.one .f16) | .bf16 => some (.one .bf16)
  | .f16x4 => some .f16x4 | .bf16x4 => some .bf16x4
  | .i32 | .i64 | .n32 | .n64 | .e4m3 | .e2m1 | .e8m0 | .b8 | .b16 | .b32 | .b64 | .i8 | .i16 => none
def TTy.ty : TTy → Ty
  | .f32 => .f32 | .f16 => .f16 | .bf16 => .bf16
def TTy.of : Ty → Option TTy
  | .f32 => some .f32 | .f16 => some .f16 | .bf16 => some .bf16
  | .f64 | .i32 | .i64 | .n32 | .n64 | .e4m3 | .e2m1 | .e8m0 | .b8 | .b16 | .b32 | .b64 | .f16x4 | .bf16x4 | .i8
  | .i16 => none
def QTy.ty : QTy → Ty
  | .e4m3 => .e4m3 | .e2m1 => .e2m1
def QTy.of : Ty → Option QTy
  | .e4m3 => some .e4m3 | .e2m1 => some .e2m1
  | .f64 | .f32 | .f16 | .bf16 | .i32 | .i64 | .n32 | .n64 | .e8m0 | .b8 | .b16 | .b32 | .b64 | .f16x4 | .bf16x4
  | .i8 | .i16 => none

def Rnd.code : Rnd → BitVec 2
  | .rne => 0 | .rtz => 1 | .rup => 2 | .rdn => 3
/-- The rounding mode of a code (Table 3.4). -/
def Rnd.ofCode (c : BitVec 2) : Rnd :=
  match c.toNat with
  | 0 => .rne | 1 => .rtz | 2 => .rup | _ => .rdn
def ICond.code : ICond → BitVec 8
  | .eq => 0 | .ne => 1 | .lt => 2 | .le => 3 | .gt => 4 | .ge => 5
def ICond.ofCode (c : BitVec 8) : Option ICond :=
  match c.toNat with
  | 0 => some .eq | 1 => some .ne | 2 => some .lt | 3 => some .le | 4 => some .gt | 5 => some .ge | _ => none
def FCond.code : FCond → BitVec 8
  | .eq => 0 | .ne => 1 | .lt => 2 | .le => 3 | .gt => 4 | .ge => 5 | .un => 6 | .or => 7
def FCond.ofCode (c : BitVec 8) : Option FCond :=
  match c.toNat with
  | 0 => some .eq | 1 => some .ne | 2 => some .lt | 3 => some .le | 4 => some .gt | 5 => some .ge | 6 => some .un
  | 7 => some .or | _ => none
def Space.code : Space → BitVec 3
  | .glb => 0 | .lan => 1 | .spd => 2 | .cls => 3 | .chp => 4
def Space.ofCode (c : BitVec 3) : Option Space :=
  match c.toNat with
  | 0 => some .glb | 1 => some .lan | 2 => some .spd | 3 => some .cls | 4 => some .chp | _ => none
def Ord.code : Ord → BitVec 3
  | .none => 0 | .acq => 1 | .rel => 2 | .ar => 3 | .sc => 4
def Ord.ofCode (c : BitVec 3) : Option Ord :=
  match c.toNat with
  | 0 => some .none | 1 => some .acq | 2 => some .rel | 3 => some .ar | 4 => some .sc | _ => Option.none
def AtomOp.code : AtomOp → BitVec 5
  | .add => 0 | .min => 1 | .max => 2 | .and => 3 | .or => 4 | .xor => 5 | .exch => 6 | .cas => 7 | .fadd => 8
  | .fmin => 9 | .fmax => 10
def AtomOp.ofCode (c : BitVec 5) : Option AtomOp :=
  match c.toNat with
  | 0 => some .add | 1 => some .min | 2 => some .max | 3 => some .and | 4 => some .or | 5 => some .xor
  | 6 => some .exch | 7 => some .cas | 8 => some .fadd | 9 => some .fmin | 10 => some .fmax | _ => none
def RedOp.code : RedOp → BitVec 3
  | .add => 0 | .min => 1 | .max => 2 | .and => 3 | .or => 4 | .xor => 5
def RedOp.ofCode (c : BitVec 3) : Option RedOp :=
  match c.toNat with
  | 0 => some .add | 1 => some .min | 2 => some .max | 3 => some .and | 4 => some .or | 5 => some .xor | _ => none
def ShflMode.code : ShflMode → BitVec 2
  | .idx => 0 | .up => 1 | .down => 2 | .xor => 3
def ShflMode.ofCode (c : BitVec 2) : ShflMode :=
  match c.toNat with
  | 0 => .idx | 1 => .up | 2 => .down | _ => .xor
def HField.code : HField → BitVec 8
  | .base => 0 | .fmt => 1 | .rows => 2 | .cols => 3 | .rstride => 4 | .sbase => 5 | .sstride => 6 | .perm => 7
def HField.ofCode (c : BitVec 8) : Option HField :=
  match c.toNat with
  | 0 => some .base | 1 => some .fmt | 2 => some .rows | 3 => some .cols | 4 => some .rstride | 5 => some .sbase
  | 6 => some .sstride | 7 => some .perm | _ => none
def ISpace.code : ISpace → BitVec 2
  | .glb => 0 | .spd => 1 | .chp => 2
def ISpace.ofCode (c : BitVec 2) : Option ISpace :=
  match c.toNat with
  | 0 => some .glb | 1 => some .spd | 2 => some .chp | _ => none
def SysReg.code : SysReg → BitVec 16
  | .clock => 0 | .allot => 1 | .pstack => 2 | .cnt => 3 | .tok => 4
  | .x n => BitVec.ofNat 16 (8 + n.val)
  | .fcause => 0x10 | .faddr => 0x11 | .tcode => 0x12 | .trapvec => 0x13 | .dispatch => 0x14
  | .hop => 0x20 | .hsa => 0x21 | .hsb => 0x22 | .hsc => 0x23 | .hdst => 0x24 | .hres => 0x25 | .hpc => 0x26
  | .nbase => 0x30 | .ntop => 0x31 | .nlimit => 0x32
  | .idempc => 0x40 | .savebase => 0x41 | .savebudget => 0x42
  | .energy => 0x50 | .budget => 0x51 | .gcmode => 0x60
/-- The system register of a number (Table 9.4). -/
def SysReg.ofCode (c : BitVec 16) : Option SysReg :=
  match c.toNat with
  | 0 => some .clock | 1 => some .allot | 2 => some .pstack | 3 => some .cnt | 4 => some .tok
  | 8 => some (.x 0) | 9 => some (.x 1) | 10 => some (.x 2) | 11 => some (.x 3) | 12 => some (.x 4)
  | 13 => some (.x 5) | 14 => some (.x 6) | 15 => some (.x 7)
  | 0x10 => some .fcause | 0x11 => some .faddr | 0x12 => some .tcode | 0x13 => some .trapvec
  | 0x14 => some .dispatch | 0x20 => some .hop | 0x21 => some .hsa | 0x22 => some .hsb | 0x23 => some .hsc
  | 0x24 => some .hdst | 0x25 => some .hres | 0x26 => some .hpc | 0x30 => some .nbase | 0x31 => some .ntop
  | 0x32 => some .nlimit | 0x40 => some .idempc | 0x41 => some .savebase | 0x42 => some .savebudget
  | 0x50 => some .energy | 0x51 => some .budget | 0x60 => some .gcmode | _ => none
def Special.code : Special → Nat
  | .lane => 384 | .path => 385 | .grp => 386 | .blkx => 387 | .blky => 388 | .blkz => 389 | .idx => 390
  | .gridx => 391 | .gridy => 392 | .gridz => 393 | .ncount => 394 | .recbase => 395 | .node => 396 | .depth => 397
  | .core => 398 | .clock => 399 | .zero => 400 | .nil => 401 | .true => 402 | .false => 403
/-- The special operand of a number (Table 7.4). -/
def Special.ofCode : Nat → Option Special
  | 384 => some .lane | 385 => some .path | 386 => some .grp | 387 => some .blkx | 388 => some .blky
  | 389 => some .blkz | 390 => some .idx | 391 => some .gridx | 392 => some .gridy | 393 => some .gridz
  | 394 => some .ncount | 395 => some .recbase | 396 => some .node | 397 => some .depth | 398 => some .core
  | 399 => some .clock | 400 => some .zero | 401 => some .nil | 402 => some .true | 403 => some .false
  | _ => none

/-! ### Operand fields (R84 to R87) -/

/-- Bit 9 of a field: the indexed mark. -/
def ixBit (f : BitVec 10) : Bool := f.getLsbD 9
/-- Bits 8:0 of a field. -/
def base (f : BitVec 10) : Nat := f.toNat % 512
/-- A field from its indexed mark and base. -/
def field (ix : Bool) (n : Nat) : BitVec 10 := BitVec.ofNat 10 (if ix then 512 + n else n)

def Vec.enc : Vec → BitVec 10
  | .v n => field false n.val
  | .ix n => field true n.val
/-- A field that names a vector register (R84). -/
def Vec.dec (f : BitVec 10) : Except Reject Vec :=
  if h : base f < 320 then .ok (if ixBit f then .ix ⟨base f, h⟩ else .v ⟨base f, h⟩) else .error .illegalOperand
def Reg.enc : Reg → BitVec 10
  | .v n => field false n.val
  | .ix n => field true n.val
  | .g n => field false (320 + n.val)
/-- A field that names a vector register or a g register (R84, R85). -/
def Reg.dec (f : BitVec 10) : Except Reject Reg :=
  if h : base f < 320 then .ok (if ixBit f then .ix ⟨base f, h⟩ else .v ⟨base f, h⟩)
  else if h : base f - 320 < 64 then if ixBit f then .error .illegalOperand else .ok (.g ⟨base f - 320, h⟩)
  else .error .illegalOperand
def Src.enc : Src → BitVec 10
  | .v n => field false n.val
  | .ix n => field true n.val
  | .g n => field false (320 + n.val)
  | .sp k => field false k.code
/-- A value source (R84). -/
def Src.dec (f : BitVec 10) : Except Reject Src :=
  if h : base f < 320 then .ok (if ixBit f then .ix ⟨base f, h⟩ else .v ⟨base f, h⟩)
  else if ixBit f then .error .illegalOperand
  else if h : base f - 320 < 64 then .ok (.g ⟨base f - 320, h⟩)
  else match Special.ofCode (base f) with
    | some k => .ok (.sp k)
    | none => .error .illegalOperand
def Pred.enc (p : Pred) : BitVec 10 := field false p.val
/-- A predicate field (R87). -/
def Pred.dec (f : BitVec 10) : Except Reject Pred :=
  if h : base f < 24 then .ok ⟨base f, h⟩ else .error .illegalOperand

/-- What a field of a word may name, for the checks that give 0x01: nothing, a predicate, or a register that
may be indexed. -/
inductive OpK where
  | none | pred | val
  deriving DecidableEq, Repr
def OpK.ok : OpK → BitVec 10 → Bool
  | .none, f => f == 0
  | .pred, f => !ixBit f
  | .val, _ => true

/-! ### Scheduling and guard (R74, R75, R83) -/

def Sched.enc : Sched → BitVec 16
  | .counted pace y cnt la lb lc =>
    1#2 ++ pace ++ BitVec.ofBool y ++ (match cnt with | some k => k.code | none => 0#3) ++ BitVec.ofBool la ++
      BitVec.ofBool lb ++ BitVec.ofBool lc ++ 0#3
  | .interlocked y => 2#2 ++ 0#4 ++ BitVec.ofBool y ++ 0#9
/-- The counter of a CNT code: 5 to 7 are illegal (Table 7.2). -/
def cntOf (c : BitVec 3) : Except Reject (Option Ctr) :=
  match c.toNat with
  | 0 => .ok none
  | 1 => .ok (some .ld)
  | 2 => .ok (some .st)
  | 3 => .ok (some .cp)
  | 4 => .ok (some .sy)
  | _ => .error .illegalInstruction
def Sched.dec (s : BitVec 16) : Except Reject Sched :=
  match (s.extractLsb' 14 2).toNat with
  | 1 =>
    if s.extractLsb' 0 3 = 0 then
      match cntOf (s.extractLsb' 6 3) with
      | .ok cnt =>
        .ok (.counted (s.extractLsb' 10 4) (s.getLsbD 9) cnt (s.getLsbD 5) (s.getLsbD 4) (s.getLsbD 3))
      | .error e => .error e
    else .error .illegalInstruction
  | 2 =>
    if s.extractLsb' 10 4 = 0 ∧ s.extractLsb' 0 9 = 0 then .ok (.interlocked (s.getLsbD 9))
    else .error .illegalInstruction
  | _ => .error .illegalInstruction
def Guard.neg : Guard → BitVec 1
  | .always => 0
  | .on n _ => BitVec.ofBool n
def Guard.pred : Guard → BitVec 5
  | .always => 31
  | .on _ p => BitVec.ofNat 5 p.val
def Guard.dec (pneg : BitVec 1) (pred : BitVec 5) : Except Reject Guard :=
  if h : pred.toNat < 24 then .ok (.on (pneg == 1) ⟨pred.toNat, h⟩)
  else if pred = 31 ∧ pneg = 0 then .ok .always
  else .error .illegalInstruction

/-- 0x01 unless c. -/
def must (c : Bool) : Except Reject Unit := if c then .ok () else .error .illegalInstruction
/-- 0x01 where a code names nothing. -/
def known {α : Type} : Option α → Except Reject α
  | some a => .ok a
  | none => .error .illegalInstruction

/-- The control part of a group-code word, after the checks of its fields' kinds (R84, R88). -/
def Fields.ctl (f : Fields) (kd ka kb kc : OpK) : Except Reject Ctl := do
  let s ← Sched.dec f.sched
  let g ← Guard.dec f.pneg f.pred
  must (kd.ok f.d && ka.ok f.a && kb.ok f.b && kc.ok f.c)
  must (f.ix == 0 || ixBit f.d || ixBit f.a || ixBit f.b || ixBit f.c)
  .ok ⟨s, g, f.ix⟩
/-- The same where the word must be unguarded (Table 9.1, PRED 31). -/
def Fields.uctl (f : Fields) (kd ka kb kc : OpK) : Except Reject UCtl := do
  let c ← f.ctl kd ka kb kc
  must (c.guard == .always)
  .ok ⟨c.sched, c.ix⟩

/-- Format of a word of TYPE and operands in R or I (R89). -/
inductive RForm where
  | r | i | ri
  deriving DecidableEq, Repr
def RForm.ok : RForm → BitVec 1 → Bool
  | .r, b => b == 0
  | .i, b => b == 1
  | .ri, _ => true

/-- ITAG and IMM32 of an immediate of TYPE 0 (R90). -/
def genImmOk (itag : BitVec 4) (imm : BitVec 32) : Bool :=
  itag == 1 || itag == 3 || (itag == 6 && (imm == 0 || imm == 1))
/-- ITAG zero, any IMM32. -/
def plainImmOk (itag : BitVec 4) (_ : BitVec 32) : Bool := itag == 0

/-- The control part of a word of format R or I, after every check of Table 7.5. -/
def Fields.ri (f : Fields) (form : RForm) (kd ka kb kc : OpK) (rnd : Bool)
    (immOk : BitVec 4 → BitVec 32 → Bool) : Except Reject Ctl := do
  let m := ModR.of f.mod
  must (form.ok m.imm && m.z == 0 && (rnd || m.rnd == 0))
  if m.imm = 1 then
    must (immOk m.itag m.imm32)
    f.ctl kd ka .none kc
  else
    must (m.itag == 0 && m.imm32 == 0)
    f.ctl kd ka kb kc

/-- Form R with no rounding, no SUB and no TYPE, as NOP. -/
def Fields.plainR (f : Fields) (kd ka kb kc : OpK) : Except Reject Ctl := do
  must (f.ty == 0 && (ModR.of f.mod).sub == 0)
  f.ri .r kd ka kb kc false plainImmOk

/-- The immediate of TYPE 0 (R90), once ITAG is known good. -/
def GImm.of (itag : BitVec 4) (imm : BitVec 32) : GImm :=
  match itag.toNat with
  | 1 => .int imm
  | 3 => .f32 imm
  | _ => .bool (imm == 1)
def GImm.itag : GImm → BitVec 4
  | .int _ => 1 | .f32 _ => 3 | .bool _ => 6
def GImm.bits : GImm → BitVec 32
  | .int i => i | .f32 i => i | .bool b => if b then 1 else 0

/-- Operand B of a generic opcode. -/
def Fields.gsrc (f : Fields) : Except Reject GSrc :=
  let m := ModR.of f.mod
  if m.imm = 1 then .ok (.imm (.of m.itag m.imm32)) else
    match Src.dec f.b with
    | .ok s => .ok (.reg s)
    | .error e => .error e
/-- Operand B of a typed opcode. -/
def Fields.tsrc (f : Fields) : Except Reject TSrc :=
  let m := ModR.of f.mod
  if m.imm = 1 then .ok (.imm m.imm32) else
    match Src.dec f.b with
    | .ok s => .ok (.reg s)
    | .error e => .error e

/-! ### Shapes of group-code words -/

/-- The format W word of a control instruction that takes ARG (R93). -/
def Fields.wait (f : Fields) : Except Reject (UCtl × BitVec 24) := do
  let m := ModW.of f.mod
  must (f.ty == 0 && m.z == 0 && m.sub == 0 && m.z2 == 0 && m.texp == 0)
  let c ← f.uctl .none .none .none .none
  .ok (c, m.arg)
/-- The control part of a format S word (R94). -/
def Fields.sys (f : Fields) (kd ka : OpK) : Except Reject Ctl := do
  let m := ModS.of f.mod
  must (f.ty == 0 && m.z == 0 && m.z2 == 0)
  f.ctl kd ka .none .none

/-- Control instructions, 0x000 to 0x00C (Table 9.1). -/
def decControl (f : Fields) : Except Reject Instr :=
  let toff : BitVec 24 := f.mod.extractLsb' 24 24
  let joff : BitVec 24 := f.mod.extractLsb' 0 24
  match f.opc.toNat with
  | 0x000 => do let c ← f.plainR .none .none .none .none; .ok (.nop c)
  | 0x001 => do
    must (f.ty == 0)
    let c ← f.ctl .none .none .none .none
    must (braOk c.guard joff)
    .ok (.bra c toff joff)
  | 0x002 => do
    must (f.ty == 0 && toff == 0 && joff != 0)
    let c ← f.ctl .none .val .none .none
    let a ← Reg.dec f.a
    .ok (.brx c a joff)
  | 0x003 => do
    must (f.ty == 0 && joff == 0)
    let c ← f.ctl .val .none .none .none
    let d ← Vec.dec f.d
    .ok (.call c d toff)
  | 0x004 => do
    must (f.ty == 0 && toff == 0 && joff == 0)
    let c ← f.ctl .val .val .none .none
    let d ← Vec.dec f.d
    let a ← Reg.dec f.a
    .ok (.callx c d a)
  | 0x005 => do
    let c ← f.plainR .none .val .none .none
    must (c.guard == .always)
    let a ← Reg.dec f.a
    .ok (.ret ⟨c.sched, c.ix⟩ a)
  | 0x006 => do let c ← f.plainR .none .none .none .none; .ok (.exit c)
  | 0x007 => do
    must (f.ty == 0 && (ModR.of f.mod).sub == 0)
    let c ← f.ri .i .none .none .none .none false plainImmOk
    .ok (.trap c (ModR.of f.mod).imm32)
  | 0x008 => do
    let c ← f.plainR .none .none .none .none
    must (c.guard == .always)
    .ok (.tret ⟨c.sched, c.ix⟩)
  | 0x009 => do
    let c ← f.plainR .none .none .none .none
    must (c.guard == .always)
    .ok (.yield ⟨c.sched, c.ix⟩)
  | 0x00A => do
    must (f.ty == 0 && (ModR.of f.mod).sub == 0)
    let c ← f.ri .i .none .none .none .none false plainImmOk
    .ok (.brk c (ModR.of f.mod).imm32)
  | 0x00B => do
    let (c, g) ← f.wait
    .ok (.cwait c (g.extractLsb' 0 6) (g.extractLsb' 6 6) (g.extractLsb' 12 6) (g.extractLsb' 18 6))
  | 0x00C => do
    let (c, g) ← f.wait
    must (g.extractLsb' 8 16 == (0#16) && g.extractLsb' 0 8 != (0#8))
    .ok (.twait c (g.extractLsb' 0 8))
  | _ => .error .illegalInstruction

/-- System instructions, 0x020 to 0x027 (Table 9.1). `user` is the path's mode: an MTS to a register that is
RO there is no instruction (R115). -/
def decSystem (user : Bool) (f : Fields) : Except Reject Instr :=
  let m := ModS.of f.mod
  match f.opc.toNat with
  | 0x020 => do
    must (m.sub == 0)
    let c ← f.sys .val .none
    let r ← known (SysReg.ofCode m.sreg)
    let d ← Reg.dec f.d
    .ok (.mfs c d r)
  | 0x021 => do
    must (m.sub == 0)
    let c ← f.sys .none .val
    let r ← known (SysReg.ofCode m.sreg)
    must (r.writable && !(user && r.userReadOnly))
    let a ← Reg.dec f.a
    .ok (.mts c a r)
  | 0x022 => do
    must (m.sub == 0 && m.sreg == 0 && f.ty == 0 && m.z == 0 && m.z2 == 0)
    let c ← f.uctl .none .none .none .none
    .ok (.idem c)
  | 0x023 => do
    must (m.sub == 0 && m.sreg == 0 && f.ty == 0 && m.z == 0 && m.z2 == 0)
    let c ← f.uctl .none .none .none .none
    .ok (.idend c)
  | 0x024 => do
    must (m.sub == 0 && m.sreg == 0 && f.ty == 0 && m.z == 0 && m.z2 == 0)
    let c ← f.uctl .none .none .none .none
    .ok (.svdone c)
  | 0x025 => do
    must (m.sreg == 0 && (m.sub == 0 || m.sub == 1))
    if m.sub = 0 then
      let c ← f.sys .none .none
      .ok (.tlbiAll c)
    else
      let c ← f.sys .none .val
      let a ← Reg.dec f.a
      .ok (.tlbiPage c a)
  | 0x026 => do
    must (m.sreg == 0 && m.sub.extractLsb' 6 2 == (0#2))
    let c ← f.sys .none .none
    .ok (.trig c (m.sub.extractLsb' 0 6))
  | 0x027 => do
    must (m.sreg == 0)
    let c ← f.sys .none .val
    let a ← Reg.dec f.a
    .ok (.mark c a m.sub)
  | _ => .error .illegalInstruction

/-- A generic opcode with a value destination and two sources (Table 11.1). -/
def decGen2 (f : Fields) (rnd : Bool) (mk : Ctl → Rnd → Reg → Src → GSrc → Instr) : Except Reject Instr := do
  must (f.ty == 0 && (ModR.of f.mod).sub == 0)
  let c ← f.ri .ri .val .val .val .none rnd genImmOk
  let d ← Reg.dec f.d
  let a ← Src.dec f.a
  let b ← f.gsrc
  .ok (mk c (.ofCode (ModR.of f.mod).rnd) d a b)
/-- A generic comparison. -/
def decGenP (f : Fields) (mk : Ctl → Pred → Src → GSrc → Instr) : Except Reject Instr := do
  must (f.ty == 0 && (ModR.of f.mod).sub == 0)
  let c ← f.ri .ri .pred .val .val .none false genImmOk
  let d ← Pred.dec f.d
  let a ← Src.dec f.a
  let b ← f.gsrc
  .ok (mk c d a b)
/-- An opcode of TYPE 0 and form R with one source. -/
def decPlain1 (f : Fields) (mk : Ctl → Reg → Src → Instr) : Except Reject Instr := do
  let c ← f.plainR .val .val .none .none
  let d ← Reg.dec f.d
  let a ← Src.dec f.a
  .ok (mk c d a)

/-- Generic opcodes, 0x040 to 0x055 (Table 11.1). -/
def decGeneric (f : Fields) : Except Reject Instr :=
  match f.opc.toNat with
  | 0x040 => decGen2 f true .add
  | 0x041 => decGen2 f true .sub
  | 0x042 => decGen2 f true .mul
  | 0x043 => decGen2 f true .div
  | 0x044 => decGen2 f false fun c _ => .fldiv c
  | 0x045 => decGen2 f false fun c _ => .mod c
  | 0x046 => decPlain1 f .neg
  | 0x047 => decPlain1 f .abs
  | 0x048 => decGen2 f false fun c _ => .min c
  | 0x049 => decGen2 f false fun c _ => .max c
  | 0x04A => do
    must (f.ty == 0 && (ModR.of f.mod).sub == 0)
    let c ← f.ri .ri .val .val .val .val true genImmOk
    let d ← Reg.dec f.d
    let a ← Src.dec f.a
    let b ← f.gsrc
    let k ← Src.dec f.c
    .ok (.fma c (.ofCode (ModR.of f.mod).rnd) d a b k)
  | 0x04B => decGenP f .eq
  | 0x04C => decGenP f .ne
  | 0x04D => decGenP f .lt
  | 0x04E => decGenP f .le
  | 0x04F => do
    let c ← f.plainR .pred .val .none .none
    let d ← Pred.dec f.d
    let a ← Src.dec f.a
    .ok (.truth c d a)
  | 0x050 => decPlain1 f .hash
  | 0x051 => decGen2 f false fun c _ => .and c
  | 0x052 => decGen2 f false fun c _ => .or c
  | 0x053 => decGen2 f false fun c _ => .xor c
  | 0x054 => decGen2 f false fun c _ => .shl c
  | 0x055 => decGen2 f false fun c _ => .shr c
  | _ => .error .illegalInstruction

/-- The type of a word, where it must be of a family. -/
def Fields.type {α : Type} (f : Fields) (of : Ty → Option α) : Except Reject α :=
  match Ty.ofCode f.ty with
  | some t => known (of t)
  | none => .error .illegalInstruction

/-- A typed opcode with two sources; `sub` says which SUB it takes, `rnd` whether it rounds. -/
def decTy2 {α : Type} (f : Fields) (of : Ty → Option α) (sub : BitVec 8 → Bool) (rnd : Bool)
    (mk : Ctl → α → BitVec 8 → Rnd → Reg → Src → TSrc → Instr) : Except Reject Instr := do
  let t ← f.type of
  let m := ModR.of f.mod
  must (sub m.sub)
  let c ← f.ri .ri .val .val .val .none rnd plainImmOk
  let d ← Reg.dec f.d
  let a ← Src.dec f.a
  let b ← f.tsrc
  .ok (mk c t m.sub (.ofCode m.rnd) d a b)
/-- A typed opcode with three sources. -/
def decTy3 {α : Type} (f : Fields) (of : Ty → Option α) (sub : BitVec 8 → Bool) (rnd : Bool)
    (mk : Ctl → α → BitVec 8 → Rnd → Reg → Src → TSrc → Src → Instr) : Except Reject Instr := do
  let t ← f.type of
  let m := ModR.of f.mod
  must (sub m.sub)
  let c ← f.ri .ri .val .val .val .val rnd plainImmOk
  let d ← Reg.dec f.d
  let a ← Src.dec f.a
  let b ← f.tsrc
  let k ← Src.dec f.c
  .ok (mk c t m.sub (.ofCode m.rnd) d a b k)
/-- A typed opcode with one source. -/
def decTy1 {α : Type} (f : Fields) (of : Ty → Option α) (sub : BitVec 8 → Bool) (rnd : Bool)
    (mk : Ctl → α → BitVec 8 → Rnd → Reg → Src → Instr) : Except Reject Instr := do
  let t ← f.type of
  let m := ModR.of f.mod
  must (sub m.sub)
  let c ← f.ri .r .val .val .none .none rnd plainImmOk
  let d ← Reg.dec f.d
  let a ← Src.dec f.a
  .ok (mk c t m.sub (.ofCode m.rnd) d a)

/-- SUB zero. -/
def subZero (s : BitVec 8) : Bool := s == 0
/-- SUB bit 0 SAT, others zero. -/
def subSat (s : BitVec 8) : Bool := s == 0 || s == 1
/-- SAT of SUB. -/
def satOf (s : BitVec 8) : Bool := s == 1

/-- Typed integer, bit and predicate opcodes, 0x100 to 0x11F (Table 13.1). -/
def decTyped (f : Fields) : Except Reject Instr :=
  match f.opc.toNat with
  | 0x100 => decTy2 f ITy.of subSat false fun c t s _ => .iadd c t (satOf s)
  | 0x101 => decTy2 f ITy.of subSat false fun c t s _ => .isub c t (satOf s)
  | 0x102 => decTy2 f ITy.of subSat false fun c t s _ => .imul c t (satOf s)
  | 0x103 => decTy2 f ITy.of subZero false fun c t _ _ => .imulh c t
  | 0x104 => decTy3 f ITy.of subSat false fun c t s _ => .imad c t (satOf s)
  | 0x105 => decTy2 f ITy.of subZero false fun c t _ _ => .idiv c t
  | 0x106 => decTy2 f ITy.of subZero false fun c t _ _ => .irem c t
  | 0x107 => decTy2 f ITy.of subZero false fun c t _ _ => .imin c t
  | 0x108 => decTy2 f ITy.of subZero false fun c t _ _ => .imax c t
  | 0x109 => decTy1 f STy.of subSat false fun c t s _ => .iabs c t (satOf s)
  | 0x10A => decTy1 f STy.of subSat false fun c t s _ => .ineg c t (satOf s)
  | 0x10B => do
    let t ← f.type ITy.of
    let k ← known (ICond.ofCode (ModR.of f.mod).sub)
    let c ← f.ri .ri .pred .val .val .none false plainImmOk
    let d ← Pred.dec f.d
    let a ← Src.dec f.a
    let b ← f.tsrc
    .ok (.icmp c t k d a b)
  | 0x10C => decTy2 f BTy.of subZero false fun c t _ _ => .band c t
  | 0x10D => decTy2 f BTy.of subZero false fun c t _ _ => .bor c t
  | 0x10E => decTy2 f BTy.of subZero false fun c t _ _ => .bxor c t
  | 0x10F => decTy1 f BTy.of subZero false fun c t _ _ => .bnot c t
  | 0x110 => decTy2 f BTy.of subZero false fun c t _ _ => .bshl c t
  | 0x111 => decTy2 f BTy.of subZero false fun c t _ _ => .bshr c t
  | 0x112 => decTy2 f BTy.of subZero false fun c t _ _ => .bsar c t
  | 0x113 => decTy2 f BTy.of subZero false fun c t _ _ => .brol c t
  | 0x114 => decTy1 f BTy.of subZero false fun c t _ _ => .popc c t
  | 0x115 => decTy1 f BTy.of subZero false fun c t _ _ => .clz c t
  | 0x116 => decTy1 f BTy.of subZero false fun c t _ _ => .ctz c t
  | 0x117 => decTy1 f BTy.of subZero false fun c t _ _ => .brev c t
  | 0x118 => decTy2 f ITy.of subZero false fun c t _ _ => .bfx c t
  | 0x119 => decTy3 f BTy.of subZero false fun c t _ _ => .bfi c t
  | 0x11A => do
    must (f.ty == 0 && (ModR.of f.mod).sub == 0)
    let c ← f.ri .ri .val .val .val .pred false genImmOk
    let d ← Reg.dec f.d
    let a ← Src.dec f.a
    let b ← f.gsrc
    let p ← Pred.dec f.c
    .ok (.sel c d a b p)
  | 0x11B => decPlain1 f .mov
  | 0x11C => do
    let m := ModR.of f.mod
    must (m.sub == 0)
    if f.ty = 0 then
      let c ← f.ri .i .val .none .none .none false genImmOk
      let d ← Reg.dec f.d
      .ok (.movi c d (.gen (.of m.itag m.imm32)))
    else
      let t ← f.type some
      must t.moviOk
      let c ← f.ri .i .val .none .none .none false plainImmOk
      let d ← Reg.dec f.d
      .ok (.movi c d (.typed t m.imm32))
  | 0x11D =>
    decTy2 f (fun t => if t == .b64 then some () else none) (fun s => s.extractLsb' 3 5 == (0#5)) false
      fun c _ s _ => .lea c (s.extractLsb' 0 3)
  | 0x11E => do
    must (f.ty == 0)
    let c ← f.ri .r .pred .pred .pred .pred false plainImmOk
    let d ← Pred.dec f.d
    let a ← Pred.dec f.a
    let b ← Pred.dec f.b
    let k ← Pred.dec f.c
    .ok (.plop c (ModR.of f.mod).sub d a b k)
  | 0x11F => do
    let c ← f.plainR .val .pred .none .none
    let d ← Reg.dec f.d
    let a ← Pred.dec f.a
    .ok (.pbool c d a)
  | _ => .error .illegalInstruction

/-- Float opcodes, 0x180 to 0x194 (Table 13.3). -/
def decFloat (f : Fields) : Except Reject Instr :=
  match f.opc.toNat with
  | 0x180 => decTy2 f PTy.of subZero true fun c t _ r => .fadd c t r
  | 0x181 => decTy2 f PTy.of subZero true fun c t _ r => .fsub c t r
  | 0x182 => decTy2 f PTy.of subZero true fun c t _ r => .fmul c t r
  | 0x183 => decTy3 f PTy.of subZero true fun c t _ r => .ffma c t r
  | 0x184 => decTy2 f FTy.of subZero true fun c t _ r => .fdiv c t r
  | 0x185 => decTy1 f FTy.of subZero true fun c t _ r => .fsqrt c t r
  | 0x186 => decTy1 f FTy.of subZero true fun c t _ r => .frcp c t r
  | 0x187 => decTy1 f FTy.of subZero true fun c t _ r => .frsq c t r
  | 0x188 => decTy2 f PTy.of subZero false fun c t _ _ => .fmin c t
  | 0x189 => decTy2 f PTy.of subZero false fun c t _ _ => .fmax c t
  | 0x18A => decTy1 f PTy.of subZero false fun c t _ _ => .fabs c t
  | 0x18B => decTy1 f PTy.of subZero false fun c t _ _ => .fneg c t
  | 0x18C => do
    let t ← f.type FTy.of
    let k ← known (FCond.ofCode (ModR.of f.mod).sub)
    let c ← f.ri .ri .pred .val .val .none false plainImmOk
    let d ← Pred.dec f.d
    let a ← Src.dec f.a
    let b ← f.tsrc
    .ok (.fcmp c t k d a b)
  | 0x18D => decTy1 f TTy.of subZero false fun c t _ _ => .fexp2 c t
  | 0x18E => decTy1 f TTy.of subZero false fun c t _ _ => .flog2 c t
  | 0x18F => decTy1 f TTy.of subZero false fun c t _ _ => .fsin c t
  | 0x190 => decTy1 f TTy.of subZero false fun c t _ _ => .fcos c t
  | 0x191 => decTy1 f TTy.of subZero false fun c t _ _ => .ftanh c t
  | 0x192 => decTy1 f FTy.of subZero true fun c t _ r => .frnd c t r
  | 0x193 => decTy1 f FTy.of subZero false fun c t _ _ => .fclass c t
  | 0x194 => decTy2 f FTy.of subZero true fun c t _ r => .fscale c t r
  | _ => .error .illegalInstruction

/-- Conversions and tag opcodes, 0x200 to 0x207 (Tables 11.9 and 11.11). -/
def decConvert (f : Fields) : Except Reject Instr :=
  let m := ModR.of f.mod
  match f.opc.toNat with
  | 0x200 => do
    let dst ← f.type some
    let src ← known (Ty.ofCode (m.sub.extractLsb' 0 5))
    let sat := m.sub.getLsbD 5
    must (m.sub.extractLsb' 6 2 == (0#2) && cvtOk dst src sat)
    let c ← f.ri .r .val .val .none .none true plainImmOk
    let d ← Reg.dec f.d
    let a ← Src.dec f.a
    .ok (.cvt c dst src sat (.ofCode m.rnd) d a)
  | 0x201 => do
    let t ← f.type QTy.of
    must (m.sub == 0)
    let c ← f.ri .r .val .val .val .none false plainImmOk
    let d ← Reg.dec f.d
    let a ← Vec.dec f.a
    let b ← Src.dec f.b
    .ok (.cvtpk c t d a b)
  | 0x202 => do
    let t ← f.type QTy.of
    must (m.sub == 0)
    let c ← f.ri .r .val .val .val .none false plainImmOk
    let d ← Vec.dec f.d
    let a ← Src.dec f.a
    let b ← Src.dec f.b
    .ok (.cvtxp c t d a b)
  | 0x203 => do
    let form ←
      if f.ty = 0 then do
        must (1 ≤ m.sub.toNat && m.sub.toNat ≤ 13)
        Except.ok (BoxForm.ofTag (.ofCode m.sub.toNat))
      else do
        let t ← f.type some
        must (t.boxOk && m.sub == 0)
        Except.ok (BoxForm.ofType t)
    let c ← f.ri .r .val .val .none .none false plainImmOk
    let d ← Reg.dec f.d
    let a ← Src.dec f.a
    .ok (.box c form d a)
  | 0x204 => decPlain1 f .unbox
  | 0x205 => decPlain1 f .tagof
  | 0x206 => do
    must (f.ty == 0 && m.sub.toNat ≤ 13)
    let c ← f.ri .r .val .val .none .none false plainImmOk
    let d ← Reg.dec f.d
    let a ← Src.dec f.a
    .ok (.tagset c (.ofCode m.sub.toNat) d a)
  | 0x207 => do
    must (f.ty == 0 && m.sub == 0)
    let c ← f.ri .i .pred .val .none .none false fun t i => t == 0 && i.extractLsb' 16 16 == (0#16)
    let d ← Pred.dec f.d
    let a ← Src.dec f.a
    .ok (.tagchk c d a (m.imm32.extractLsb' 0 16))
  | _ => .error .illegalInstruction

/-- PEN and P of CASW, HDRLD and FWDCAS: P is zero when PEN is 0 (DEDUCED, log entry 20). -/
def penOf (sub : BitVec 8) : Except Reject (Option Pred) :=
  if sub.getLsbD 7 then
    if h : (sub.extractLsb' 0 5).toNat < 24 then
      if sub.extractLsb' 5 2 = (0#2) then .ok (some ⟨(sub.extractLsb' 0 5).toNat, h⟩) else .error .illegalInstruction
    else .error .illegalInstruction
  else if sub = 0 then .ok none else .error .illegalInstruction
def penBits : Option Pred → BitVec 8
  | none => 0
  | some p => BitVec.ofNat 8 (128 + p.val)

/-- SPACE and ORD of a format M word with bits 31:24 zero, and its control part (Table 7.7). -/
def Fields.mem (f : Fields) (kd ka kb kc : OpK) : Except Reject (Ctl × Space × Ord) := do
  let m := ModM.of f.mod
  must (m.z == 0)
  let sp ← known (Space.ofCode m.space)
  let o ← known (Ord.ofCode m.ord)
  let c ← f.ctl kd ka kb kc
  .ok (c, sp, o)

/-- TYPE .b64. -/
def Fields.b64 (f : Fields) : Except Reject Unit := must (f.ty == 15)

/-- Memory instructions, 0x240 to 0x246 (Table 15.3). -/
def decMemory (f : Fields) : Except Reject Instr :=
  let m := ModM.of f.mod
  let obj := m.obj == 1
  match f.opc.toNat with
  | 0x240 => do
    let t ← f.type some
    let (c, sp, o) ← f.mem .val .val .none .none
    must (t != .e2m1 && o.loadOk && (m.heal == 0 || t.width == 64) && objOk obj sp && m.sub == 0)
    let d ← Reg.dec f.d
    let a ← Src.dec f.a
    .ok (.ld c t sp o (m.heal == 1) obj d a m.off)
  | 0x241 => do
    let t ← f.type some
    let (c, sp, o) ← f.mem .none .val .val .none
    must (t != .e2m1 && o.storeOk && m.heal == 0 && objOk obj sp && m.sub == 0)
    let a ← Src.dec f.a
    let b ← Src.dec f.b
    .ok (.st c t sp o obj a b m.off)
  | 0x242 => do
    let t ← f.type some
    let op ← known (AtomOp.ofCode (m.sub.extractLsb' 0 5))
    let stat := m.sub.getLsbD 7
    must (m.sub.extractLsb' 5 2 == (0#2) && op.tyOk t && (!stat || op.isFloat))
    let (c, sp, o) ← f.mem .val .val .val (if stat then .pred else if op == .cas then .val else .none)
    must (m.heal == 0 && objOk obj sp)
    let d ← Reg.dec f.d
    let a ← Src.dec f.a
    let b ← Src.dec f.b
    if stat then
      let p ← Pred.dec f.c
      .ok (.atom c op t sp o obj d a b (.stat p) m.off)
    else if op == .cas then
      let k ← Src.dec f.c
      .ok (.atom c op t sp o obj d a b (.cas k) m.off)
    else .ok (.atom c op t sp o obj d a b .none m.off)
  | 0x243 => do
    let t ← f.type some
    let op ← known (AtomOp.ofCode (m.sub.extractLsb' 0 5))
    must (m.sub.extractLsb' 5 3 == (0#3) && op.tyOk t && op.redOk)
    let (c, sp, o) ← f.mem .none .val .val .none
    must (m.heal == 0 && objOk obj sp && o.redOk)
    let a ← Src.dec f.a
    let b ← Src.dec f.b
    .ok (.red c op t sp o obj a b m.off)
  | 0x244 => do
    f.b64
    let pen ← penOf m.sub
    let (c, sp, o) ← f.mem .val .val .val .val
    must (m.heal == 0 && objOk obj sp && sp.noLan)
    let d ← Vec.dec f.d
    let a ← Src.dec f.a
    let b ← Vec.dec f.b
    let k ← Vec.dec f.c
    .ok (.casw c sp o obj pen d a b k m.off)
  | 0x245 => do
    let (c, sp, o) ← f.mem .none .none .none .none
    must (f.ty == 0 && sp == .glb && o != .none && m.heal == 0 && !obj && m.sub == 0 && m.off == 0)
    .ok (.fence c o)
  | 0x246 => do
    let (c, sp, o) ← f.mem .none .val .none .none
    must (f.ty == 0 && sp == .glb && o == .none && m.heal == 0 && !obj && (m.sub == 0 || m.sub == 1))
    let a ← Src.dec f.a
    .ok (.pref c (m.sub == 1) a m.off)
  | _ => .error .illegalInstruction

/-- Object instructions, 0x2C0 to 0x2C3 (Table 19.3). -/
def decObjects (f : Fields) : Except Reject Instr :=
  match f.opc.toNat with
  | 0x2C0 => do
    let m := ModR.of f.mod
    must (f.ty == 0 && m.sub == 0)
    let c ← f.ri .ri .val .none .val .pred false fun t i => t == 0 && sizeOk i.toNat
    let d ← Reg.dec f.d
    let b ← f.tsrc
    let p ← Pred.dec f.c
    .ok (.nalloc c (match b with | .reg s => .reg s | .imm i => .imm i) d p)
  | 0x2C1 => do
    let m := ModM.of f.mod
    f.b64
    let pen ← penOf m.sub
    let (c, sp, o) ← f.mem .val .val .none .none
    must (sp == .glb && m.heal == 0 && o.loadOk)
    let d ← Reg.dec f.d
    let a ← Src.dec f.a
    .ok (.hdrld c o (m.obj == 1) pen d a m.off)
  | 0x2C2 => do
    let m := ModM.of f.mod
    f.b64
    let pen ← penOf m.sub
    let (c, sp, o) ← f.mem .val .val .val .val
    must (sp == .glb && m.heal == 0 && m.obj == 0)
    let d ← Reg.dec f.d
    let a ← Src.dec f.a
    let b ← Src.dec f.b
    let k ← Src.dec f.c
    .ok (.fwdcas c o pen d a b k m.off)
  | 0x2C3 => do
    let c ← f.plainR .pred .val .none .none
    let d ← Pred.dec f.d
    let a ← Src.dec f.a
    .ok (.refchk c d a)
  | _ => .error .illegalInstruction

/-- The control part of a format M word of barriers and promises: no TYPE, ORD, HEAL, OBJ or SUB. -/
def Fields.memPlain (f : Fields) (kd ka kb kc : OpK) : Except Reject (Ctl × Space) := do
  let m := ModM.of f.mod
  let (c, sp, o) ← f.mem kd ka kb kc
  must (f.ty == 0 && o == .none && m.heal == 0 && m.obj == 0 && m.sub == 0)
  .ok (c, sp)
/-- The control part of a format W word of barriers and promises: no ARG. -/
def Fields.waitPlain (f : Fields) (kd ka kb kc : OpK) : Except Reject Ctl := do
  let m := ModW.of f.mod
  must (f.ty == 0 && m.z == 0 && m.arg == 0 && m.z2 == 0)
  f.ctl kd ka kb kc
/-- SPACE 2 or 3. -/
def clsOf (sp : Space) : Except Reject Bool :=
  match sp with
  | .spd => .ok false
  | .cls => .ok true
  | .glb | .lan | .chp => .error .illegalInstruction
/-- SUB 2 or 3 as a space (Table 21.2). -/
def clsOfSub (s : BitVec 8) : Except Reject Bool :=
  match s.toNat with
  | 2 => .ok false
  | 3 => .ok true
  | _ => .error .illegalInstruction

/-- Barriers and promises, 0x300 to 0x30A (Tables 21.2 and 23.4). -/
def decSync (f : Fields) : Except Reject Instr :=
  let m := ModM.of f.mod
  let w := ModW.of f.mod
  match f.opc.toNat with
  | 0x300 => do
    let (c, sp) ← f.memPlain .none .val .val .val
    let cls ← clsOf sp
    let a ← Src.dec f.a
    let b ← Src.dec f.b
    let k ← Src.dec f.c
    .ok (.barinit c cls a b k m.off)
  | 0x301 => do
    let (c, sp) ← f.memPlain .val .val .val .none
    let cls ← clsOf sp
    let d ← Reg.dec f.d
    let a ← Src.dec f.a
    let b ← Src.dec f.b
    .ok (.bararr c cls d a b m.off)
  | 0x302 => do
    let (c, sp) ← f.memPlain .val .val .val .none
    let cls ← clsOf sp
    let d ← Reg.dec f.d
    let a ← Src.dec f.a
    let b ← Src.dec f.b
    .ok (.bartx c cls d a b m.off)
  | 0x303 => do
    let c ← f.waitPlain .val .val .val .none
    let cls ← clsOfSub w.sub
    let d ← Reg.dec f.d
    let a ← Src.dec f.a
    let b ← Src.dec f.b
    .ok (.bwait c cls w.texp d a b)
  | 0x304 => do
    let c ← f.waitPlain .val .val .val .pred
    let cls ← clsOfSub w.sub
    must (w.texp == 0)
    let d ← Reg.dec f.d
    let a ← Src.dec f.a
    let b ← Src.dec f.b
    let p ← Pred.dec f.c
    .ok (.btest c cls d a b p)
  | 0x305 => do
    let (c, sp) ← f.memPlain .none .val .none .none
    must (sp == .glb)
    let a ← Src.dec f.a
    .ok (.pinit c a m.off)
  | 0x306 => do
    let (c, sp) ← f.memPlain .none .val .val .none
    must (sp == .glb)
    let a ← Src.dec f.a
    let b ← Src.dec f.b
    .ok (.pfill c a b m.off)
  | 0x307 => do
    let c ← f.plainR .val .val .val .pred
    let d ← Reg.dec f.d
    let a ← Src.dec f.a
    let b ← Src.dec f.b
    let p ← Pred.dec f.c
    .ok (.peq c d a b p)
  | 0x308 => do
    let c ← f.waitPlain .val .val .none .none
    must (w.sub == 0)
    let d ← Vec.dec f.d
    let a ← Src.dec f.a
    .ok (.pwait c w.texp d a)
  | 0x309 => do
    let c ← f.waitPlain .val .val .none .pred
    must (w.sub == 0 && w.texp == 0)
    let d ← Vec.dec f.d
    let a ← Src.dec f.a
    let p ← Pred.dec f.c
    .ok (.pget c d a p)
  | 0x30A => decPlain1 f .proot
  | _ => .error .illegalInstruction

/-- Group operations, 0x340 to 0x345 (Table 21.4). -/
def decGroup (f : Fields) : Except Reject Instr :=
  let m := ModR.of f.mod
  match f.opc.toNat with
  | 0x340 => do
    must (f.ty == 0)
    match m.sub.toNat with
    | 0 => do
      let c ← f.ri .r .pred .pred .none .none false plainImmOk
      let d ← Pred.dec f.d
      let a ← Pred.dec f.a
      .ok (.vote c (.any d a))
    | 1 => do
      let c ← f.ri .r .pred .pred .none .none false plainImmOk
      let d ← Pred.dec f.d
      let a ← Pred.dec f.a
      .ok (.vote c (.all d a))
    | 2 => do
      let c ← f.ri .r .val .pred .none .none false plainImmOk
      let d ← Reg.dec f.d
      let a ← Pred.dec f.a
      .ok (.vote c (.ballot d a))
    | 3 => do
      let c ← f.ri .r .pred .val .none .none false plainImmOk
      let d ← Pred.dec f.d
      let a ← Src.dec f.a
      .ok (.vote c (.uni d a))
    | _ => .error .illegalInstruction
  | 0x341 => do
    let pv := m.sub.getLsbD 7
    must (f.ty == 0 && m.sub.extractLsb' 2 5 == (0#5))
    let c ← f.ri .ri .val .val .val (if pv then .pred else .none) false
      fun t i => t == 0 && i.extractLsb' 5 27 == (0#27)
    let d ← Reg.dec f.d
    let a ← Src.dec f.a
    let b ← f.tsrc
    let b' : ShflB := match b with | .reg s => .reg s | .imm i => .imm (i.extractLsb' 0 5)
    if pv then
      let p ← Pred.dec f.c
      .ok (.shfl c (.ofCode (m.sub.extractLsb' 0 2)) d a b' (some p))
    else .ok (.shfl c (.ofCode (m.sub.extractLsb' 0 2)) d a b' none)
  | 0x342 => do
    let t ← f.type some
    let op ← known (RedOp.ofCode (m.sub.extractLsb' 0 3))
    must (m.sub.extractLsb' 3 5 == (0#5) && op.tyOk t)
    let c ← f.ri .r .val .val .none .none false plainImmOk
    let d ← Reg.dec f.d
    let a ← Src.dec f.a
    .ok (.gred c op t d a)
  | 0x343 => do
    let t ← f.type some
    let op ← known (RedOp.ofCode (m.sub.extractLsb' 0 3))
    must (m.sub.extractLsb' 4 4 == (0#4) && op.tyOk t)
    let c ← f.ri .r .val .val .none .none false plainImmOk
    let d ← Reg.dec f.d
    let a ← Src.dec f.a
    .ok (.gscan c op (m.sub.getLsbD 3) t d a)
  | 0x344 => do
    must (f.ty == 0 && (m.sub == 0 || m.sub == 1))
    let c ← f.ri .r .val .val .none .none false plainImmOk
    let d ← Reg.dec f.d
    let a ← Src.dec f.a
    .ok (.mtch c (m.sub == 1) d a)
  | 0x345 => do
    let c ← f.plainR .pred .none .none .none
    let d ← Pred.dec f.d
    .ok (.elect c d)
  | _ => .error .illegalInstruction

/-- Handle instructions, 0x380 to 0x382 (Table 25.4). -/
def decHandles (f : Fields) : Except Reject Instr :=
  match f.opc.toNat with
  | 0x380 => do
    let m := ModM.of f.mod
    let (c, sp, o) ← f.mem .val .val .none .none
    must (f.ty == 0 && sp.noCore && o.sealOk && m.heal == 0 && m.obj == 0 && m.sub == 0)
    let d ← Reg.dec f.d
    let a ← Src.dec f.a
    .ok (.seal c sp o d a m.off)
  | 0x381 => do
    let c ← f.plainR .none .val .none .none
    let a ← Src.dec f.a
    .ok (.unseal c a)
  | 0x382 => do
    must (f.ty == 0)
    let k ← known (HField.ofCode (ModR.of f.mod).sub)
    let c ← f.ri .r .val .val .none .none false plainImmOk
    let d ← Reg.dec f.d
    let a ← Src.dec f.a
    .ok (.hinfo c k d a)
  | _ => .error .illegalInstruction

/-- The token of a format E word whose COMP is 0 or 1. -/
def tokenOf (m : ModE) : Except Reject (Option (Fin 8)) :=
  match m.comp.toNat with
  | 0 => if m.token = 0 then .ok none else .error .illegalInstruction
  | 1 => .ok (some ⟨m.token.toNat, m.token.isLt⟩)
  | _ => .error .illegalInstruction
/-- Spaces and zero bits of a format E word (Table 7.10). -/
def ModE.spaces (m : ModE) : Except Reject (Space × Space) := do
  must (m.z == 0 && m.z2 == 0)
  let ss ← known (Space.ofCode m.ss)
  let ds ← known (Space.ofCode m.ds)
  .ok (ss, ds)
/-- COMP, TOKEN and BSP of CPY, CPYM and CPYG: BSP is zero unless COMP is 2 (DEDUCED, log entry 20). -/
def compOk (m : ModE) (bsp : Bool) : Bool :=
  match m.comp.toNat with
  | 0 => m.token == 0 && !bsp
  | 1 => !bsp
  | 2 => m.token == 0
  | _ => false
/-- The kind of field D under COMP. -/
def compKind (m : ModE) : OpK := if m.comp == 2 then .val else .none
def compOf (m : ModE) (bsp : Bool) (d : BitVec 10) : Except Reject Comp :=
  match m.comp.toNat with
  | 1 => .ok (.token ⟨m.token.toNat, m.token.isLt⟩)
  | 2 =>
    match Src.dec d with
    | .ok s => .ok (.bar s bsp)
    | .error e => .error e
  | _ => .ok .none

/-- The parts of a record or match word that have no DOFF and no DSPACE. -/
def Fields.record (f : Fields) (ka kb kc : OpK) (kd : OpK) (comp : Bool) : Except Reject (Ctl × Space × Option (Fin 8)) := do
  let m := ModE.of f.mod
  must (f.ty == 0 && m.sub == 0 && m.doff == 0 && (comp || m.comp == 0))
  let (ss, ds) ← m.spaces
  must (ds == .glb)
  let tk ← tokenOf m
  let c ← f.ctl kd ka kb kc
  .ok (c, ss, tk)

/-- Engine, record and match instructions, 0x3C0 to 0x3CA (Tables 27.1 and 29.3). -/
def decEngine (f : Fields) : Except Reject Instr :=
  let m := ModE.of f.mod
  match f.opc.toNat with
  | 0x3C0 => do
    let (ss, ds) ← m.spaces
    let bsp := m.sub.getLsbD 0
    must (f.ty == 0 && ss.noLan && ds.noLan && m.sub.extractLsb' 1 7 == (0#7) && compOk m bsp)
    let c ← f.ctl (compKind m) .val .val .val
    let k ← compOf m bsp f.d
    let a ← Src.dec f.a
    let b ← Src.dec f.b
    let n ← Src.dec f.c
    .ok (.cpy c ss ds k a b n m.doff)
  | 0x3C1 => do
    let (ss, ds) ← m.spaces
    must (f.ty == 0 && ss.noCore && ds == .cls && m.sub == 0 && compOk m false)
    let c ← f.ctl (compKind m) .val .val .val
    let k ← compOf m false f.d
    let a ← Src.dec f.a
    let b ← Src.dec f.b
    let n ← Vec.dec f.c
    .ok (.cpym c ss k a b n m.doff)
  | 0x3C2 => do
    let (ss, ds) ← m.spaces
    let bsp := m.sub.getLsbD 0
    let isp ← known (ISpace.ofCode (m.sub.extractLsb' 1 2))
    must (f.ty == 0 && ss.noCore && ds.noLan && m.sub.extractLsb' 3 5 == (0#5) && compOk m bsp)
    let c ← f.ctl (compKind m) .val .val .val
    let k ← compOf m bsp f.d
    let a ← Src.dec f.a
    let b ← Src.dec f.b
    let n ← Vec.dec f.c
    .ok (.cpyg c ss ds isp k a b n m.doff)
  | 0x3C3 => do
    let (ss, ds) ← m.spaces
    must (f.ty == 0 && ss.noCore && ds == .glb && m.sub == 0)
    let tk ← tokenOf m
    let c ← f.ctl .val .val .val .val
    let d ← Src.dec f.d
    let a ← Src.dec f.a
    let b ← Src.dec f.b
    let n ← Src.dec f.c
    .ok (.cpyr c ss tk d a b n m.doff)
  | 0x3C4 => do
    let (c, ss, _) ← f.record .val .none .pred .val false
    must (ss == .glb)
    let d ← Reg.dec f.d
    let a ← Src.dec f.a
    let p ← Pred.dec f.c
    .ok (.ralloc c d a p)
  | 0x3C5 => do
    let (c, ss, _) ← f.record .val .none .none .none false
    must (ss == .glb)
    let a ← Src.dec f.a
    .ok (.rcommit c a)
  | 0x3C6 => do
    let (c, ss, _) ← f.record .none .none .none .none false
    must (ss == .glb)
    .ok (.rdone c)
  | 0x3C7 => do
    let (c, ss, _) ← f.record .val .none .none .val false
    must (ss == .glb)
    let d ← Reg.dec f.d
    let a ← Src.dec f.a
    .ok (.rflush c d a)
  | 0x3C8 => do
    let (c, ss, tk) ← f.record .val .val .val .val true
    must (ss == .glb)
    let d ← Reg.dec f.d
    let a ← Src.dec f.a
    let b ← Src.dec f.b
    let n ← Src.dec f.c
    .ok (.rcard c tk d a b n)
  | 0x3C9 => do
    let (c, ss, _) ← f.record .val .val .val .val false
    must ss.noCore
    let d ← Reg.dec f.d
    let a ← Src.dec f.a
    let b ← Src.dec f.b
    let n ← Src.dec f.c
    .ok (.nmatch c ss d a b n)
  | 0x3CA => do
    let (c, ss, _) ← f.record .val .none .none .val false
    must (ss == .glb)
    let d ← Reg.dec f.d
    let a ← Src.dec f.a
    .ok (.nunmatch c d a)
  | _ => .error .illegalInstruction

/-! ### The tile stream (R96, Table 25.6) -/

/-- A number below n, or 0x01 (R96). -/
def num (n : Nat) (f : BitVec 10) : Except Reject (Fin n) :=
  if h : f.toNat < n then .ok ⟨f.toNat, h⟩ else .error .illegalInstruction
/-- The steps of TLOAD and TSTORE. -/
def tstepOf (f : Fields) : TStep :=
  ⟨f.b, f.c, f.mod.extractLsb' 40 8, f.mod.extractLsb' 32 8, f.mod.extractLsb' 30 2, f.mod.extractLsb' 28 2⟩
def TStep.bits (s : TStep) (low : BitVec 28) : BitVec 48 := s.rstep ++ s.cstep ++ s.rlvl ++ s.clvl ++ low

/-- The tile-stream opcodes 0x390 to 0x39B. -/
def decTile (f : Fields) : Except Reject Instr := do
  must (f.sched == 0x8000 && f.pneg == 0 && f.pred == 31 && f.ix == 0 && f.ty == 0)
  match f.opc.toNat with
  | 0x390 => do
    must (f.b == 0 && f.c == 0 && f.mod.extractLsb' 1 47 == (0#47) && claimOk (f.mod.getLsbD 0) f.d f.a)
    .ok (.tclaim (f.mod.getLsbD 0) f.d f.a)
  | 0x391 => do
    must (f.b == 0 && f.c == 0 && f.mod.extractLsb' 1 47 == (0#47) && claimOk (f.mod.getLsbD 0) f.d f.a)
    .ok (.trel (f.mod.getLsbD 0) f.d f.a)
  | 0x392 => do
    let d ← num 48 f.d
    must (f.mod.extractLsb' 0 21 == (0#21))
    if f.mod.getLsbD 26 then
      .ok (.tload d f.a (tstepOf f) (f.mod.getLsbD 27)
        (some ⟨⟨(f.mod.extractLsb' 21 4).toNat, (f.mod.extractLsb' 21 4).isLt⟩, f.mod.getLsbD 25⟩))
    else do
      must (f.mod.extractLsb' 21 5 == (0#5))
      .ok (.tload d f.a (tstepOf f) (f.mod.getLsbD 27) none)
  | 0x393 => do
    must (f.c == 0 && f.mod == 0)
    let d ← num 8 f.d
    let a ← num 48 f.a
    let b ← num 48 f.b
    .ok (.tmma d a b)
  | 0x394 => do
    must (f.mod.extractLsb' 0 28 == (0#28))
    let d ← num 8 f.d
    .ok (.tstore d f.a (tstepOf f))
  | 0x395 => do
    must (f.a == 0 && f.b == 0 && f.c == 0 && f.mod == 0)
    let d ← num 8 f.d
    .ok (.tzero d)
  | 0x396 => do
    must (f.a == 0 && f.b == 0 && f.c == 0 && f.mod == 0)
    let d ← num 16 f.d
    .ok (.tarr d)
  | 0x397 => do
    must (f.a == 0 && f.b == 0 && f.c == 0 && f.mod.extractLsb' 1 47 == (0#47))
    let d ← num 16 f.d
    .ok (.tbwt d (f.mod.getLsbD 0))
  | 0x398 => do
    must (f.d == 0 && f.a == 0 && f.b == 0 && f.c == 0 && f.mod.extractLsb' 24 24 == (0#24) &&
      f.mod.extractLsb' 0 24 != (0#24))
    .ok (.tloop (f.mod.extractLsb' 0 24))
  | 0x399 => do
    must (f.d == 0 && f.a == 0 && f.b == 0 && f.c == 0 && f.mod == 0)
    .ok .tendl
  | 0x39A => do
    must (f.d == 0 && f.a == 0 && f.b == 0 && f.c == 0 && f.mod == 0)
    .ok .tstop
  | 0x39B => do
    must (f.d == 0 && f.a == 0 && f.b == 0 && f.c == 0 && f.mod.extractLsb' 19 29 == (0#29) &&
      (f.mod.extractLsb' 0 19).toNat % 8 == 0)
    .ok (.tchk (f.mod.extractLsb' 0 19))
  | _ => .error .illegalInstruction

/-! ### The decoder -/

/-- The families of Table 7.11. -/
inductive Family where
  | control | system | generic | typed | float | convert | memory | objects | sync | group | handles | tile | engine
  deriving DecidableEq, Repr

/-- The family of an opcode; none when it is reserved (R97). -/
def familyOf (opc : Nat) : Option Family :=
  if opc ≤ 0x00C then some .control
  else if 0x020 ≤ opc ∧ opc ≤ 0x027 then some .system
  else if 0x040 ≤ opc ∧ opc ≤ 0x055 then some .generic
  else if 0x100 ≤ opc ∧ opc ≤ 0x11F then some .typed
  else if 0x180 ≤ opc ∧ opc ≤ 0x194 then some .float
  else if 0x200 ≤ opc ∧ opc ≤ 0x207 then some .convert
  else if 0x240 ≤ opc ∧ opc ≤ 0x246 then some .memory
  else if 0x2C0 ≤ opc ∧ opc ≤ 0x2C3 then some .objects
  else if 0x300 ≤ opc ∧ opc ≤ 0x30A then some .sync
  else if 0x340 ≤ opc ∧ opc ≤ 0x345 then some .group
  else if 0x380 ≤ opc ∧ opc ≤ 0x382 then some .handles
  else if 0x390 ≤ opc ∧ opc ≤ 0x39B then some .tile
  else if 0x3C0 ≤ opc ∧ opc ≤ 0x3CA then some .engine
  else none

/-- The decoder of a family. -/
def Family.decode (user : Bool) : Family → Fields → Except Reject Instr
  | .control, f => decControl f
  | .system, f => decSystem user f
  | .generic, f => decGeneric f
  | .typed, f => decTyped f
  | .float, f => decFloat f
  | .convert, f => decConvert f
  | .memory, f => decMemory f
  | .objects, f => decObjects f
  | .sync, f => decSync f
  | .group, f => decGroup f
  | .handles, f => decHandles f
  | .tile, f => decTile f
  | .engine, f => decEngine f

/-- Decoding of fields in the order of Table 7.12 (R98, R99): `stream` says whether the tile sequencer fetched
the word, `user` whether the fetching path runs in user mode. -/
def decodeFields (stream user : Bool) (f : Fields) : Except Reject Instr :=
  if f.sched.extractLsb' 14 2 = (0#2) ∨ f.sched.extractLsb' 14 2 = (3#2) then .error .illegalInstruction
  else
    match familyOf f.opc.toNat with
    | none => .error .illegalInstruction
    | some fam => if (fam == .tile) != stream then .error .illegalContext else fam.decode user f

/-- Decoding of a word. -/
def decode (stream user : Bool) (w : BitVec 128) : Except Reject Instr := decodeFields stream user (Fields.ofWord w)

/-! ### The encoder -/

/-- A group-code word. -/
def cw (c : Ctl) (opc : BitVec 10) (d a b k : BitVec 10) (ty : BitVec 5) (mod : BitVec 48) : Fields :=
  ⟨c.sched.enc, c.guard.neg, c.guard.pred, opc, d, a, b, k, c.ix, ty, mod⟩
/-- An unguarded group-code word. -/
def uw (c : UCtl) (opc : BitVec 10) (d a b k : BitVec 10) (ty : BitVec 5) (mod : BitVec 48) : Fields :=
  cw ⟨c.sched, .always, c.ix⟩ opc d a b k ty mod
/-- A tile-stream word. -/
def tw (opc : BitVec 10) (d a b k : BitVec 10) (mod : BitVec 48) : Fields :=
  ⟨0x8000, 0, 31, opc, d, a, b, k, 0, 0, mod⟩
/-- MOD of form R. -/
def mr (rnd : BitVec 2) (sub : BitVec 8) : BitVec 48 := ModR.bits ⟨0, 0, rnd, 0, sub, 0⟩
/-- MOD of form I. -/
def mi (rnd : BitVec 2) (itag : BitVec 4) (sub : BitVec 8) (imm : BitVec 32) : BitVec 48 :=
  ModR.bits ⟨1, 0, rnd, itag, sub, imm⟩
/-- MOD of format M. -/
def mm (sp : Space) (o : Ord) (heal obj : Bool) (sub : BitVec 8) (off : BitVec 24) : BitVec 48 :=
  ModM.bits ⟨sp.code, o.code, BitVec.ofBool heal, BitVec.ofBool obj, sub, 0, off⟩
/-- MOD of format W. -/
def mw (sub : BitVec 8) (arg : BitVec 24) (texp : BitVec 5) : BitVec 48 := ModW.bits ⟨0, sub, arg, 0, texp⟩
/-- MOD of format S. -/
def ms (sub : BitVec 8) (sreg : BitVec 16) : BitVec 48 := ModS.bits ⟨0, sub, 0, sreg⟩
/-- MOD of format J. -/
def mj (t j : BitVec 24) : BitVec 48 := t ++ j
/-- MOD of format E. -/
def me (ss ds : Space) (comp : BitVec 2) (sub : BitVec 8) (token : BitVec 3) (doff : BitVec 24) : BitVec 48 :=
  ModE.bits ⟨ss.code, ds.code, comp, sub, 0, token, 0, doff⟩

/-- Field B of a generic opcode. -/
def GSrc.enc : GSrc → BitVec 10
  | .reg s => s.enc
  | .imm _ => 0
/-- MOD of a generic opcode with operand B. -/
def GSrc.mod (b : GSrc) (rnd : BitVec 2) : BitVec 48 :=
  match b with
  | .reg _ => mr rnd 0
  | .imm i => mi rnd i.itag 0 i.bits
def TSrc.enc : TSrc → BitVec 10
  | .reg s => s.enc
  | .imm _ => 0
/-- MOD of a typed opcode with operand B. -/
def TSrc.mod (b : TSrc) (rnd : BitVec 2) (sub : BitVec 8) : BitVec 48 :=
  match b with
  | .reg _ => mr rnd sub
  | .imm i => mi rnd 0 sub i
def boolBit (b : Bool) : BitVec 8 := if b then 1 else 0
def Comp.code : Comp → BitVec 2
  | .none => 0 | .token _ => 1 | .bar _ _ => 2
def Comp.tok : Comp → BitVec 3
  | .token t => BitVec.ofNat 3 t.val
  | .none | .bar _ _ => 0
def Comp.field : Comp → BitVec 10
  | .bar s _ => s.enc
  | .none | .token _ => 0
def Comp.bsp : Comp → BitVec 8
  | .bar _ cls => boolBit cls
  | .none | .token _ => 0
def tokCode : Option (Fin 8) → BitVec 2
  | none => 0 | some _ => 1
def tokBits : Option (Fin 8) → BitVec 3
  | none => 0
  | some t => BitVec.ofNat 3 t.val
def clsSpace (cls : Bool) : Space := if cls then .cls else .spd
def clsSub (cls : Bool) : BitVec 8 := if cls then 3 else 2
def AtomC.enc : AtomC → BitVec 10
  | .none => 0 | .cas s => s.enc | .stat p => Pred.enc p
def AtomC.statBit : AtomC → BitVec 8
  | .stat _ => 128
  | .none | .cas _ => 0
def NSize.src : NSize → TSrc
  | .reg s => .reg s | .imm i => .imm i
def ShflB.src : ShflB → TSrc
  | .reg s => .reg s | .imm i => .imm (i.setWidth 32)
def predOr : Option Pred → BitVec 10
  | none => 0 | some p => Pred.enc p
def TWait.low (roleB : Bool) : Option TWait → BitVec 28
  | none => BitVec.ofBool roleB ++ 0#27
  | some w => BitVec.ofBool roleB ++ 1#1 ++ BitVec.ofBool w.self ++ BitVec.ofNat 4 w.bar.val ++ 0#21

/-- A typed word with two sources. -/
def tw2 (c : Ctl) (opc : BitVec 10) (ty : Ty) (rnd : Rnd) (sub : BitVec 8) (d : Reg) (a : Src) (b : TSrc) : Fields :=
  cw c opc d.enc a.enc b.enc 0 ty.code (b.mod rnd.code sub)
/-- A typed word with three sources. -/
def tw3 (c : Ctl) (opc : BitVec 10) (ty : Ty) (rnd : Rnd) (sub : BitVec 8) (d : Reg) (a : Src) (b : TSrc) (k : Src) :
    Fields :=
  cw c opc d.enc a.enc b.enc k.enc ty.code (b.mod rnd.code sub)
/-- A typed word with one source. -/
def tw1 (c : Ctl) (opc : BitVec 10) (ty : Ty) (rnd : Rnd) (sub : BitVec 8) (d : Reg) (a : Src) : Fields :=
  cw c opc d.enc a.enc 0 0 ty.code (mr rnd.code sub)
/-- A generic word with two sources. -/
def gw2 (c : Ctl) (opc : BitVec 10) (rnd : Rnd) (d : BitVec 10) (a : Src) (b : GSrc) : Fields :=
  cw c opc d a.enc b.enc 0 0 (b.mod rnd.code)
/-- A word of TYPE 0 and form R. -/
def pw (c : Ctl) (opc : BitVec 10) (d a b k : BitVec 10) : Fields := cw c opc d a b k 0 (mr 0 0)

/-- The fields of an instruction's word; none for an event, which has no word. -/
def encodeFields : Instr → Option Fields
  | .nop c => some (pw c 0x000 0 0 0 0)
  | .bra c t j => some (cw c 0x001 0 0 0 0 0 (mj t j))
  | .brx c a j => some (cw c 0x002 0 a.enc 0 0 0 (mj 0 j))
  | .call c d t => some (cw c 0x003 d.enc 0 0 0 0 (mj t 0))
  | .callx c d a => some (cw c 0x004 d.enc a.enc 0 0 0 (mj 0 0))
  | .ret c a => some (uw c 0x005 0 a.enc 0 0 0 (mr 0 0))
  | .exit c => some (pw c 0x006 0 0 0 0)
  | .trap c k => some (cw c 0x007 0 0 0 0 0 (mi 0 0 0 k))
  | .tret c => some (uw c 0x008 0 0 0 0 0 (mr 0 0))
  | .yield c => some (uw c 0x009 0 0 0 0 0 (mr 0 0))
  | .brk c k => some (cw c 0x00A 0 0 0 0 0 (mi 0 0 0 k))
  | .cwait c l s p y => some (uw c 0x00B 0 0 0 0 0 (mw 0 (y ++ p ++ s ++ l) 0))
  | .twait c m => some (uw c 0x00C 0 0 0 0 0 (mw 0 (0#16 ++ m) 0))
  | .mfs c d r => some (cw c 0x020 d.enc 0 0 0 0 (ms 0 r.code))
  | .mts c a r => some (cw c 0x021 0 a.enc 0 0 0 (ms 0 r.code))
  | .idem c => some (uw c 0x022 0 0 0 0 0 (ms 0 0))
  | .idend c => some (uw c 0x023 0 0 0 0 0 (ms 0 0))
  | .svdone c => some (uw c 0x024 0 0 0 0 0 (ms 0 0))
  | .tlbiAll c => some (cw c 0x025 0 0 0 0 0 (ms 0 0))
  | .tlbiPage c a => some (cw c 0x025 0 a.enc 0 0 0 (ms 1 0))
  | .trig c l => some (cw c 0x026 0 0 0 0 0 (ms (l.setWidth 8) 0))
  | .mark c a k => some (cw c 0x027 0 a.enc 0 0 0 (ms k 0))
  | .add c r d a b => some (gw2 c 0x040 r d.enc a b)
  | .sub c r d a b => some (gw2 c 0x041 r d.enc a b)
  | .mul c r d a b => some (gw2 c 0x042 r d.enc a b)
  | .div c r d a b => some (gw2 c 0x043 r d.enc a b)
  | .fldiv c d a b => some (gw2 c 0x044 .rne d.enc a b)
  | .mod c d a b => some (gw2 c 0x045 .rne d.enc a b)
  | .neg c d a => some (pw c 0x046 d.enc a.enc 0 0)
  | .abs c d a => some (pw c 0x047 d.enc a.enc 0 0)
  | .min c d a b => some (gw2 c 0x048 .rne d.enc a b)
  | .max c d a b => some (gw2 c 0x049 .rne d.enc a b)
  | .fma c r d a b k => some (cw c 0x04A d.enc a.enc b.enc k.enc 0 (b.mod r.code))
  | .eq c d a b => some (gw2 c 0x04B .rne (Pred.enc d) a b)
  | .ne c d a b => some (gw2 c 0x04C .rne (Pred.enc d) a b)
  | .lt c d a b => some (gw2 c 0x04D .rne (Pred.enc d) a b)
  | .le c d a b => some (gw2 c 0x04E .rne (Pred.enc d) a b)
  | .truth c d a => some (pw c 0x04F (Pred.enc d) a.enc 0 0)
  | .hash c d a => some (pw c 0x050 d.enc a.enc 0 0)
  | .and c d a b => some (gw2 c 0x051 .rne d.enc a b)
  | .or c d a b => some (gw2 c 0x052 .rne d.enc a b)
  | .xor c d a b => some (gw2 c 0x053 .rne d.enc a b)
  | .shl c d a b => some (gw2 c 0x054 .rne d.enc a b)
  | .shr c d a b => some (gw2 c 0x055 .rne d.enc a b)
  | .iadd c t s d a b => some (tw2 c 0x100 t.ty .rne (boolBit s) d a b)
  | .isub c t s d a b => some (tw2 c 0x101 t.ty .rne (boolBit s) d a b)
  | .imul c t s d a b => some (tw2 c 0x102 t.ty .rne (boolBit s) d a b)
  | .imulh c t d a b => some (tw2 c 0x103 t.ty .rne 0 d a b)
  | .imad c t s d a b k => some (tw3 c 0x104 t.ty .rne (boolBit s) d a b k)
  | .idiv c t d a b => some (tw2 c 0x105 t.ty .rne 0 d a b)
  | .irem c t d a b => some (tw2 c 0x106 t.ty .rne 0 d a b)
  | .imin c t d a b => some (tw2 c 0x107 t.ty .rne 0 d a b)
  | .imax c t d a b => some (tw2 c 0x108 t.ty .rne 0 d a b)
  | .iabs c t s d a => some (tw1 c 0x109 t.ty .rne (boolBit s) d a)
  | .ineg c t s d a => some (tw1 c 0x10A t.ty .rne (boolBit s) d a)
  | .icmp c t k d a b => some (cw c 0x10B (Pred.enc d) a.enc b.enc 0 t.ty.code (b.mod 0 k.code))
  | .band c t d a b => some (tw2 c 0x10C t.ty .rne 0 d a b)
  | .bor c t d a b => some (tw2 c 0x10D t.ty .rne 0 d a b)
  | .bxor c t d a b => some (tw2 c 0x10E t.ty .rne 0 d a b)
  | .bnot c t d a => some (tw1 c 0x10F t.ty .rne 0 d a)
  | .bshl c t d a b => some (tw2 c 0x110 t.ty .rne 0 d a b)
  | .bshr c t d a b => some (tw2 c 0x111 t.ty .rne 0 d a b)
  | .bsar c t d a b => some (tw2 c 0x112 t.ty .rne 0 d a b)
  | .brol c t d a b => some (tw2 c 0x113 t.ty .rne 0 d a b)
  | .popc c t d a => some (tw1 c 0x114 t.ty .rne 0 d a)
  | .clz c t d a => some (tw1 c 0x115 t.ty .rne 0 d a)
  | .ctz c t d a => some (tw1 c 0x116 t.ty .rne 0 d a)
  | .brev c t d a => some (tw1 c 0x117 t.ty .rne 0 d a)
  | .bfx c t d a b => some (tw2 c 0x118 t.ty .rne 0 d a b)
  | .bfi c t d a b k => some (tw3 c 0x119 t.ty .rne 0 d a b k)
  | .sel c d a b p => some (cw c 0x11A d.enc a.enc b.enc (Pred.enc p) 0 (b.mod 0))
  | .mov c d a => some (pw c 0x11B d.enc a.enc 0 0)
  | .movi c d (.gen i) => some (cw c 0x11C d.enc 0 0 0 0 (mi 0 i.itag 0 i.bits))
  | .movi c d (.typed t i) => some (cw c 0x11C d.enc 0 0 0 t.code (mi 0 0 0 i))
  | .lea c s d a b => some (tw2 c 0x11D .b64 .rne (s.setWidth 8) d a b)
  | .plop c l d a b k =>
    some (cw c 0x11E (Pred.enc d) (Pred.enc a) (Pred.enc b) (Pred.enc k) 0 (mr 0 l))
  | .pbool c d a => some (pw c 0x11F d.enc (Pred.enc a) 0 0)
  | .fadd c t r d a b => some (tw2 c 0x180 t.ty r 0 d a b)
  | .fsub c t r d a b => some (tw2 c 0x181 t.ty r 0 d a b)
  | .fmul c t r d a b => some (tw2 c 0x182 t.ty r 0 d a b)
  | .ffma c t r d a b k => some (tw3 c 0x183 t.ty r 0 d a b k)
  | .fdiv c t r d a b => some (tw2 c 0x184 t.ty r 0 d a b)
  | .fsqrt c t r d a => some (tw1 c 0x185 t.ty r 0 d a)
  | .frcp c t r d a => some (tw1 c 0x186 t.ty r 0 d a)
  | .frsq c t r d a => some (tw1 c 0x187 t.ty r 0 d a)
  | .fmin c t d a b => some (tw2 c 0x188 t.ty .rne 0 d a b)
  | .fmax c t d a b => some (tw2 c 0x189 t.ty .rne 0 d a b)
  | .fabs c t d a => some (tw1 c 0x18A t.ty .rne 0 d a)
  | .fneg c t d a => some (tw1 c 0x18B t.ty .rne 0 d a)
  | .fcmp c t k d a b => some (cw c 0x18C (Pred.enc d) a.enc b.enc 0 t.ty.code (b.mod 0 k.code))
  | .fexp2 c t d a => some (tw1 c 0x18D t.ty .rne 0 d a)
  | .flog2 c t d a => some (tw1 c 0x18E t.ty .rne 0 d a)
  | .fsin c t d a => some (tw1 c 0x18F t.ty .rne 0 d a)
  | .fcos c t d a => some (tw1 c 0x190 t.ty .rne 0 d a)
  | .ftanh c t d a => some (tw1 c 0x191 t.ty .rne 0 d a)
  | .frnd c t r d a => some (tw1 c 0x192 t.ty r 0 d a)
  | .fclass c t d a => some (tw1 c 0x193 t.ty .rne 0 d a)
  | .fscale c t r d a b => some (tw2 c 0x194 t.ty r 0 d a b)
  | .cvt c dst src sat r d a =>
    some (tw1 c 0x200 dst r (0#2 ++ BitVec.ofBool sat ++ src.code) d a)
  | .cvtpk c t d a b => some (cw c 0x201 d.enc a.enc b.enc 0 t.ty.code (mr 0 0))
  | .cvtxp c t d a b => some (cw c 0x202 d.enc a.enc b.enc 0 t.ty.code (mr 0 0))
  | .box c (.ofType t) d a => some (tw1 c 0x203 t .rne 0 d a)
  | .box c (.ofTag t) d a => some (cw c 0x203 d.enc a.enc 0 0 0 (mr 0 (BitVec.ofNat 8 t.code)))
  | .unbox c d a => some (pw c 0x204 d.enc a.enc 0 0)
  | .tagof c d a => some (pw c 0x205 d.enc a.enc 0 0)
  | .tagset c t d a => some (cw c 0x206 d.enc a.enc 0 0 0 (mr 0 (BitVec.ofNat 8 t.code)))
  | .tagchk c d a m => some (cw c 0x207 (Pred.enc d) a.enc 0 0 0 (mi 0 0 0 (m.setWidth 32)))
  | .ld c t sp o h ob d a off => some (cw c 0x240 d.enc a.enc 0 0 t.code (mm sp o h ob 0 off))
  | .st c t sp o ob a b off => some (cw c 0x241 0 a.enc b.enc 0 t.code (mm sp o false ob 0 off))
  | .atom c op t sp o ob d a b k off =>
    some (cw c 0x242 d.enc a.enc b.enc k.enc t.code (mm sp o false ob (k.statBit ||| op.code.setWidth 8) off))
  | .red c op t sp o ob a b off =>
    some (cw c 0x243 0 a.enc b.enc 0 t.code (mm sp o false ob (op.code.setWidth 8) off))
  | .casw c sp o ob pen d a b k off =>
    some (cw c 0x244 d.enc a.enc b.enc k.enc 15 (mm sp o false ob (penBits pen) off))
  | .fence c o => some (cw c 0x245 0 0 0 0 0 (mm .glb o false false 0 0))
  | .pref c l2 a off => some (cw c 0x246 0 a.enc 0 0 0 (mm .glb .none false false (boolBit l2) off))
  | .nalloc c sz d p => some (cw c 0x2C0 d.enc 0 sz.src.enc (Pred.enc p) 0 (sz.src.mod 0 0))
  | .hdrld c o ob pen d a off => some (cw c 0x2C1 d.enc a.enc 0 0 15 (mm .glb o false ob (penBits pen) off))
  | .fwdcas c o pen d a b k off =>
    some (cw c 0x2C2 d.enc a.enc b.enc k.enc 15 (mm .glb o false false (penBits pen) off))
  | .refchk c d a => some (pw c 0x2C3 (Pred.enc d) a.enc 0 0)
  | .barinit c cls a b k off => some (cw c 0x300 0 a.enc b.enc k.enc 0 (mm (clsSpace cls) .none false false 0 off))
  | .bararr c cls d a b off => some (cw c 0x301 d.enc a.enc b.enc 0 0 (mm (clsSpace cls) .none false false 0 off))
  | .bartx c cls d a b off => some (cw c 0x302 d.enc a.enc b.enc 0 0 (mm (clsSpace cls) .none false false 0 off))
  | .bwait c cls t d a b => some (cw c 0x303 d.enc a.enc b.enc 0 0 (mw (clsSub cls) 0 t))
  | .btest c cls d a b p => some (cw c 0x304 d.enc a.enc b.enc (Pred.enc p) 0 (mw (clsSub cls) 0 0))
  | .pinit c a off => some (cw c 0x305 0 a.enc 0 0 0 (mm .glb .none false false 0 off))
  | .pfill c a b off => some (cw c 0x306 0 a.enc b.enc 0 0 (mm .glb .none false false 0 off))
  | .peq c d a b p => some (pw c 0x307 d.enc a.enc b.enc (Pred.enc p))
  | .pwait c t d a => some (cw c 0x308 d.enc a.enc 0 0 0 (mw 0 0 t))
  | .pget c d a p => some (cw c 0x309 d.enc a.enc 0 (Pred.enc p) 0 (mw 0 0 0))
  | .proot c d a => some (pw c 0x30A d.enc a.enc 0 0)
  | .vote c (.any d a) => some (cw c 0x340 (Pred.enc d) (Pred.enc a) 0 0 0 (mr 0 0))
  | .vote c (.all d a) => some (cw c 0x340 (Pred.enc d) (Pred.enc a) 0 0 0 (mr 0 1))
  | .vote c (.ballot d a) => some (cw c 0x340 d.enc (Pred.enc a) 0 0 0 (mr 0 2))
  | .vote c (.uni d a) => some (cw c 0x340 (Pred.enc d) a.enc 0 0 0 (mr 0 3))
  | .shfl c m d a b pv =>
    some (cw c 0x341 d.enc a.enc b.src.enc (predOr pv) 0
      (b.src.mod 0 (BitVec.ofBool pv.isSome ++ 0#5 ++ m.code)))
  | .gred c op t d a => some (tw1 c 0x342 t .rne (0#5 ++ op.code) d a)
  | .gscan c op ex t d a => some (tw1 c 0x343 t .rne (0#4 ++ BitVec.ofBool ex ++ op.code) d a)
  | .mtch c po d a => some (cw c 0x344 d.enc a.enc 0 0 0 (mr 0 (boolBit po)))
  | .elect c d => some (pw c 0x345 (Pred.enc d) 0 0 0)
  | .seal c sp o d a off => some (cw c 0x380 d.enc a.enc 0 0 0 (mm sp o false false 0 off))
  | .unseal c a => some (pw c 0x381 0 a.enc 0 0)
  | .hinfo c k d a => some (cw c 0x382 d.enc a.enc 0 0 0 (mr 0 k.code))
  | .tclaim acc first n => some (tw 0x390 first n 0 0 (if acc then 1 else 0))
  | .trel acc first n => some (tw 0x391 first n 0 0 (if acc then 1 else 0))
  | .tload d hw s rb w =>
    some (tw 0x392 (BitVec.ofNat 10 d.val) hw s.rowBase s.colBase (s.bits (TWait.low rb w)))
  | .tmma d a b => some (tw 0x393 (BitVec.ofNat 10 d.val) (BitVec.ofNat 10 a.val) (BitVec.ofNat 10 b.val) 0 0)
  | .tstore d hw s => some (tw 0x394 (BitVec.ofNat 10 d.val) hw s.rowBase s.colBase (s.bits 0))
  | .tzero d => some (tw 0x395 (BitVec.ofNat 10 d.val) 0 0 0 0)
  | .tarr b => some (tw 0x396 (BitVec.ofNat 10 b.val) 0 0 0 0)
  | .tbwt b self => some (tw 0x397 (BitVec.ofNat 10 b.val) 0 0 0 (if self then 1 else 0))
  | .tloop n => some (tw 0x398 0 0 0 0 (n.setWidth 48))
  | .tendl => some (tw 0x399 0 0 0 0 0)
  | .tstop => some (tw 0x39A 0 0 0 0 0)
  | .tchk off => some (tw 0x39B 0 0 0 0 (off.setWidth 48))
  | .cpy c ss ds k a b n off => some (cw c 0x3C0 k.field a.enc b.enc n.enc 0 (me ss ds k.code k.bsp k.tok off))
  | .cpym c ss k a b n off => some (cw c 0x3C1 k.field a.enc b.enc n.enc 0 (me ss .cls k.code 0 k.tok off))
  | .cpyg c ss ds isp k a b n off =>
    some (cw c 0x3C2 k.field a.enc b.enc n.enc 0
      (me ss ds k.code (k.bsp ||| (0#5 ++ isp.code ++ 0#1)) k.tok off))
  | .cpyr c ss tk p a b n off =>
    some (cw c 0x3C3 p.enc a.enc b.enc n.enc 0 (me ss .glb (tokCode tk) 0 (tokBits tk) off))
  | .ralloc c d a p => some (cw c 0x3C4 d.enc a.enc 0 (Pred.enc p) 0 (me .glb .glb 0 0 0 0))
  | .rcommit c a => some (cw c 0x3C5 0 a.enc 0 0 0 (me .glb .glb 0 0 0 0))
  | .rdone c => some (cw c 0x3C6 0 0 0 0 0 (me .glb .glb 0 0 0 0))
  | .rflush c d a => some (cw c 0x3C7 d.enc a.enc 0 0 0 (me .glb .glb 0 0 0 0))
  | .rcard c tk d a b n =>
    some (cw c 0x3C8 d.enc a.enc b.enc n.enc 0 (me .glb .glb (tokCode tk) 0 (tokBits tk) 0))
  | .nmatch c ss d a b n => some (cw c 0x3C9 d.enc a.enc b.enc n.enc 0 (me ss .glb 0 0 0 0))
  | .nunmatch c d a => some (cw c 0x3CA d.enc a.enc 0 0 0 (me .glb .glb 0 0 0 0))
  | .demotionExpiry _ _ _ | .storeRegistration _ | .waitTimeout _ _ _ | .waitRetest _ _ _ | .engineLanding _ _
  | .engineCommandComplete _ | .engineCommandFailure _ _ | .spanFlitReceive _ | .matchTemplateCommit _ _
  | .spanPortDown _ _ | .nodeLaunch _ _ | .nodeTimerExpiry _ | .cardLaunch _ _ | .cardComplete _ | .queueBind _ _ _
  | .queueKick _ _ | .queueCheck _ | .signalStore _ _ | .signalAdd _ _ | .signalPfill _ _ | .signalCommit _ _
  | .signalTlbi _ _ | .waitv _ _ | .waitvPoll _ _ | .rcbset _ _ | .copy _ _ | .launch _ _ | .graphBind _ _
  | .graphUnbind _ _ | .card _ _ | .marker _ _ | .packetComplete _ _ | .blockAdmission _ | .blockPlacement _ _
  | .energyWindowStart | .groupResourceRelease _ _ | .blockEnd _ | .corePowerGate _ | .tileEnginePowerGate _
  | .coreWake _ | .thermalThrottle _ _ | .thermalShutdown _ | .powerOn _ | .translationMiss _ _ _ _ _
  | .mappingStep _ _ | .resolveObserved _ | .faultRecordWrite _ | .kill _ _ | .preemption _ | .cooperativeSave _ _
  | .saveBudgetExpiry _ _ | .forcedFullSave _ _ | .discard _ | .resume _ _ | .coreRetirement _ _ | .clusterReclaim _
  | .tenantSwitch _ _ | .hostGrant _ _ _ | .hostSnoopSnpData _ _ | .hostSnoopSnpInv _ _ | .hostSnoopSnpCur _ _
  | .hostMemRead _ _ | .hostMemWrite _ _ | .firewallDrop _ _ _ | .relocation _ _ _ _ | .liveMigrationRound _ _
  | .bootRomCheck | .recoveryImage _ _ _ | .attestationRequest _ | .tdispLock _ | .stopInterface _ | .dieLoss _
  | .hbmFailure _ _ _ | .linkLaneRetrain _ _ | .spanLaneLoss _ _ | .sessionOpen _ | .debugStopRequest _ _ _ _
  | .pcBreakpoint _ _ _ | .debugRelease _ _ _ | .triggerPulse _ | .triggerPinIn _ | .cueWrite _ _ | .cueAPulse _
  | .cueBPulse _ _ | .registerWrite _ _ | .instructionCompletion _ _ _ | .tmmaCompletion _ | .startInterface _
  | .addressSpaceCreate _ _ _ | .addressSpaceDestroy _ | .partitionSetup _ | .tenantRcbInstall _ _ _ _
  | .migrationPackageImport _ _ _ _ _ => none

/-- The word of an instruction. -/
def encode (i : Instr) : Option (BitVec 128) := (encodeFields i).map Fields.toWord

/-- Whether an instruction is one of the tile stream. -/
def Instr.inStream (i : Instr) : Bool :=
  match encodeFields i with
  | some f => familyOf f.opc.toNat == some .tile
  | none => false

/-- The 16 bytes at an instruction's address, lowest first (R72). -/
def wordBytes (w : BitVec 128) : List Byte := (List.range 16).map fun k => w.extractLsb' (8 * k) 8
/-- The word of 16 bytes, lowest address first. -/
def bytesWord (l : List Byte) : BitVec 128 := BitVec.ofNat 128 (l.foldr (fun b n => b.toNat + 256 * n) 0)

/-- The instruction of a word given by its bits, through the bytes it takes in memory: read as group code, and
as the tile stream where its opcode is one of the tile stream. -/
def decodeTableWord (nbits w : Nat) : Option Instr :=
  let word := bytesWord (wordBytes (BitVec.ofNat 128 (w % 2 ^ nbits)))
  match decode false false word with
  | .ok i => some i
  | .error .illegalContext =>
    match decode true false word with
    | .ok i => some i
    | .error _ => none
  | .error _ => none

end Sys2Proof
end

