-- ==== Sys2Proof/Machine/Store.lean ====
section
/-! DEFINITION. Sparse stores and memory in canonical form, bytes and words of memory, and lane masks. -/
namespace Sys2Proof.Machine

/-- What a store holds at a key; `d` where nothing is listed. -/
def sget {α : Type} (d : α) : Store α → Nat → α
  | [], _ => d
  | (k, x) :: r, n => if k = n then x else sget d r n

/-- A store without its entries at a key. -/
def sdel {α : Type} : Store α → Nat → Store α
  | [], _ => []
  | (k, y) :: r, n => if k = n then sdel r n else (k, y) :: sdel r n

/-- Writing a key, keeping the canonical form: writing the default removes the entry. Every older entry at the key
goes, so that a read after a write gives the value written whatever the list. -/
def sput {α : Type} [DecidableEq α] (d : α) : Store α → Nat → α → Store α
  | [], n, x => if x = d then [] else [(n, x)]
  | (k, y) :: r, n, x =>
    if k = n then sput d r n x
    else if n < k then if x = d then (k, y) :: sdel r n else (n, x) :: (k, y) :: sdel r n
    else (k, y) :: sput d r n x

/-- The canonical form above a bound: rising keys, no default listed. -/
def swfFrom {α : Type} [DecidableEq α] (d : α) (lo : Nat) : Store α → Bool
  | [] => true
  | (k, x) :: r => decide (lo ≤ k) && !decide (x = d) && swfFrom d (k + 1) r

/-- The canonical form of a store. -/
def swf {α : Type} [DecidableEq α] (d : α) (s : Store α) : Bool := swfFrom d 0 s

/-- Memory in canonical form: rising addresses, no byte listed that an unlisted one reads as (DESIGN CHOICE, log entry 1). -/
def Memory.wf (m : Memory) : Bool := swf (0 : Byte) m

/-- The byte at an address; an unlisted one reads 0 (DESIGN CHOICE, log entry 1). -/
def rdByte (m : Memory) (a : Nat) : Byte := sget 0 m a
/-- Writing one byte. -/
def wrByte (m : Memory) (a : Nat) (b : Byte) : Memory := sput 0 m a b

/-- n bytes from an address upward. -/
def rdBytes (m : Memory) (a n : Nat) : List Byte := (List.range n).map fun k => rdByte m (a + k)
/-- Bytes from an address upward. -/
def wrBytes : Memory → Nat → List Byte → Memory
  | m, _, [] => m
  | m, a, b :: r => wrBytes (wrByte m a b) (a + 1) r

/-- The number of bytes read lowest first (R2: little-endian). -/
def leNat : List Byte → Nat
  | [] => 0
  | b :: r => b.toNat + 256 * leNat r
/-- n bytes of a number, lowest first. -/
def leBytes : Nat → Nat → List Byte
  | 0, _ => []
  | n + 1, x => BitVec.ofNat 8 x :: leBytes n (x / 256)

/-- The 64 bits at byte address 8w. -/
def rdWord (m : Memory) (w : Nat) : Word := BitVec.ofNat 64 (leNat (rdBytes m (8 * w) 8))
/-- Writing the 64 bits at byte address 8w. -/
def wrWord (m : Memory) (w : Nat) (x : Word) : Memory := wrBytes m (8 * w) (leBytes 8 x.toNat)
/-- A number of n bytes at an address. -/
def rdNat (m : Memory) (a n : Nat) : Nat := leNat (rdBytes m a n)
/-- Writing a number of n bytes at an address. -/
def wrNat (m : Memory) (a n x : Nat) : Memory := wrBytes m a (leBytes n x)

/-- A word with the bytes of `lanes` replaced by those of `x`. -/
def mergeBytes (old x : Word) (lanes : BitVec 8) : Word :=
  (List.range 8).foldl (fun w k =>
    if lanes.getLsbD k then
      (w &&& ~~~((0xFF : Word) <<< (8 * k))) ||| (x &&& ((0xFF : Word) <<< (8 * k)))
    else w) old

/-- The field of `n` bits from bit `lo`. -/
def fld (x : Word) (lo n : Nat) : Nat := (x.toNat / 2 ^ lo) % 2 ^ n
/-- x with the field of `n` bits from bit `lo` set to v. -/
def setFld (x : Word) (lo n v : Nat) : Word :=
  BitVec.ofNat 64 (x.toNat - fld x lo n * 2 ^ lo + (v % 2 ^ n) * 2 ^ lo)

/-- The lanes of a mask in ascending order. -/
def lanes (m : Mask) : List Nat := (List.range 32).filter fun l => m.getLsbD l
/-- The mask of one lane. -/
def laneBit (l : Nat) : Mask := (1 : Mask) <<< l
/-- The mask of a list of lanes. -/
def maskOf (ls : List Nat) : Mask := ls.foldl (fun m l => m ||| laneBit l) 0
/-- The lowest-numbered lane of a mask. -/
def lowest (m : Mask) : Option Nat := (lanes m).head?
/-- A mask with the bit of lane l set to b. -/
def setLane (m : Mask) (l : Nat) (b : Bool) : Mask := if b then m ||| laneBit l else m &&& ~~~(laneBit l)

/-- The entry of a key in a list with rising keys, where every key listed has a meaning. -/
def keyGet {α : Type} (l : Store α) (k : Nat) : Option α := (l.find? fun e => e.1 == k).map Prod.snd
/-- Setting the entry of a key. -/
def keySet {α : Type} : Store α → Nat → α → Store α
  | [], k, x => [(k, x)]
  | (n, y) :: r, k, x => if k < n then (k, x) :: (n, y) :: r else if k = n then (k, x) :: r else (n, y) :: keySet r k x
/-- Removing the keys of a range. -/
def keyDrop {α : Type} (l : Store α) (lo n : Nat) : Store α := l.filter fun e => e.1 < lo || lo + n ≤ e.1

/-- Replacing the elements of a list that satisfy p. -/
def updWhere {α : Type} (l : List α) (p : α → Bool) (f : α → α) : List α := l.map fun x => if p x then f x else x
/-- The element at an index, and the list without it. -/
def takeAt {α : Type} : List α → Nat → Option (α × List α)
  | [], _ => none
  | x :: r, 0 => some (x, r)
  | x :: r, n + 1 =>
    match takeAt r n with
    | some (y, r') => some (y, x :: r')
    | none => none
/-- The lowest number below n that no element of l names: one of the first l.length + 1 is free. -/
def lowestFree (l : List Nat) (n : Nat) : Option Nat := (List.range (min n (l.length + 1))).find? fun k => !l.contains k

end Sys2Proof.Machine
end

