-- ==== Sys2Proof/Machine/PathTable.lean ====
section
/-! DEFINITION. Registers of a group, pending register writes (R78 to R81), and the path table: splits, arrival, fusion, exit, frames (R50 to R62, R135). Every operation here acts on one group. -/
namespace Sys2Proof.Machine

/-! ### Registers -/

/-- Lane l of vector register n (R24); every lane reads nil at group start (R54). -/
def Group.vr (g : Group) (n l : Nat) : Val := sget Val.nil g.v (32 * n + l)
/-- g register n (R86). -/
def Group.gr (g : Group) (n : Nat) : Val := sget Val.nil g.g n
/-- Predicate n as a mask (R87). -/
def Group.pr (g : Group) (n : Nat) : Mask := sget 0 g.p n
/-- Index register n (R118). -/
def Group.xr (g : Group) (n : Nat) : Word := sget 0 g.x n

/-- One register write. -/
def Group.wr (g : Group) : RegWrite → Group
  | .v n l x => { g with v := sput Val.nil g.v (32 * n + l) x }
  | .g n x => { g with g := sput Val.nil g.g n x }
  | .p n l b => { g with p := sput 0 g.p n (setLane (g.pr n) l b) }
/-- Register writes in order. -/
def Group.wrs : Group → List RegWrite → Group
  | g, [] => g
  | g, w :: r => (g.wr w).wrs r
/-- Whether a write leaves payload and tag as they were (R65). -/
def Group.same (g : Group) : RegWrite → Bool
  | .v n l x => g.vr n l == x
  | .g n x => g.gr n == x
  | .p n l b => (g.pr n).getLsbD l == b

/-- The counter of a name (R79). -/
def Group.ctr (g : Group) : Ctr → Nat
  | .ld => g.ld
  | .st => g.stc
  | .cp => g.cp
  | .sy => g.sy
/-- Setting a counter. -/
def Group.setCtr (g : Group) (c : Ctr) (n : Nat) : Group :=
  match c with
  | .ld => { g with ld := n }
  | .st => { g with stc := n }
  | .cp => { g with cp := n }
  | .sy => { g with sy := n }
/-- Raising a counter, when an instruction names one. -/
def Group.raiseCtr (g : Group) : Option Ctr → Group
  | some c => g.setCtr c (g.ctr c + 1)
  | none => g
/-- Lowering a counter, when an instruction names one. -/
def Group.lowerCtr (g : Group) : Option Ctr → Group
  | some c => g.setCtr c (g.ctr c - 1)
  | none => g

/-! ### Pending register writes (R78 to R81) -/

/-- A completion takes effect: its registers are written and its counter lowered. -/
def Group.finish (g : Group) (k : Completion) : Group := (g.wrs k.writes).lowerCtr k.cnt
/-- Completions stand in the order of their clocks, those of the variable class last. -/
def insDue (k : Completion) : List Completion → List Completion
  | [] => [k]
  | x :: r =>
    match k.due, x.due with
    | some a, some b => if a < b then k :: x :: r else x :: insDue k r
    | some _, none => k :: x :: r
    | none, _ => x :: insDue k r
/-- Every completion of a list that satisfies p takes effect, in order; the others stay. -/
def Group.finishWhere (g : Group) (p : Completion → Bool) : Group :=
  (g.pend.filter p).foldl Group.finish { g with pend := g.pend.filter fun k => !p k }
/-- Completions due by clock `now` take effect (R78). -/
def Group.settle (g : Group) (now : Nat) : Group :=
  g.finishWhere fun k => match k.due with | some d => d ≤ now | none => false
/-- The fixed-latency writes issued by a path that held one of the lanes of m take effect (R81) (DEDUCED, log entry 28). -/
def Group.flushFixed (g : Group) (m : Mask) : Group :=
  g.finishWhere fun k => k.due.isSome && (k.mask &&& m) != 0
/-- Every pending write takes effect (R81, a save). -/
def Group.flushAll (g : Group) : Group := g.finishWhere fun _ => true

/-- The register a write goes to. -/
def RegWrite.reg : RegWrite → RegName
  | .v n _ _ => .v n
  | .g n _ => .g n
  | .p n _ _ => .p n
/-- Whether a completion writes one of the registers. -/
def Completion.touches (k : Completion) (rs : List RegName) : Bool := k.writes.any fun w => rs.contains w.reg

/-! ### Slots, stack and frames -/

/-- The path in a slot. -/
def Group.slot (g : Group) (b : Bool) : Option Path := if b then g.slot1 else g.slot0
/-- Setting a slot. -/
def Group.setSlot (g : Group) (b : Bool) (p : Option Path) : Group :=
  if b then { g with slot1 := p } else { g with slot0 := p }
/-- Changing the path in a slot, when there is one. -/
def Group.modSlot (g : Group) (b : Bool) (f : Path → Path) : Group := g.setSlot b ((g.slot b).map f)

/-- Entries in use: sys.pstack.DEPTH (R53). -/
def Group.pdepth (g : Group) : Nat := g.stack.length + g.under.length
/-- The join entry with number n (R52). -/
def findJoin (n : Nat) : List StackItem → Option Join
  | [] => none
  | .join j :: r => if j.no = n then some j else findJoin n r
  | .path _ :: r => findJoin n r
/-- Replacing (or, with none, removing) the join entry with number n. -/
def putJoin (n : Nat) (j : Option Join) : List StackItem → List StackItem
  | [] => []
  | .join k :: r =>
    if k.no = n then match j with | some j => .join j :: r | none => r
    else .join k :: putJoin n j r
  | .path p :: r => .path p :: putJoin n j r
/-- The numbers of the live join entries. -/
def joinNos : List StackItem → List Nat
  | [] => []
  | .join j :: r => j.no :: joinNos r
  | .path _ :: r => joinNos r
/-- The most recently pushed path entry, and the stack without it (R61). -/
def takePath : List StackItem → Option (Path × List StackItem)
  | [] => none
  | .path p :: r => some (p, r)
  | .join j :: r =>
    match takePath r with
    | some (p, r') => some (p, .join j :: r')
    | none => none

/-- The frames that a join entry's split created are released (R135). -/
def Group.dropFrames (g : Group) (n : Nat) : Group :=
  { g with frames := g.frames.filter fun e => e.2.joinNo != n }
/-- The frame that a path names. -/
def Group.frameOf (g : Group) (p : Path) : Option Frame :=
  match p.frame with
  | some k => (g.frames.find? fun e => e.1 == k).map Prod.snd
  | none => none
/-- Changing frame k. -/
def Group.modFrame (g : Group) (k : Nat) (f : Frame → Frame) : Group :=
  { g with frames := g.frames.map fun e => if e.1 = k then (e.1, f e.2) else e }
/-- The frame indexes that are free. -/
def Group.freeFrames (g : Group) : List Nat := (List.range 8).filter fun k => !(g.frames.map Prod.fst).contains k
/-- A frame table with frame k added, in index order. -/
def addFrame (k : Nat) (f : Frame) : Store Frame → Store Frame
  | [] => [(k, f)]
  | (n, x) :: r => if k < n then (k, f) :: (n, x) :: r else (n, x) :: addFrame k f r

/-- A path that a split or a fusion makes: spin cleared, nothing waiting, free to issue at clock `at_`. The issue gap (R76) and
the yield's idle clock (R77) of the instruction that split or arrived hold back none of its children and no fused path
(DESIGN CHOICE, log entry 69). -/
def Path.fresh (pc joinPc : BitVec 56) (mask : Mask) (h : Bool) (mode : Mode) (joinNo frame : Option Nat) (at_ : Nat) :
    Path where
  pc := pc
  joinPc := joinPc
  mask := mask
  kind := if h then .handler else .normal
  hl := h
  mode := mode
  joinNo := joinNo
  frame := frame
  redo := none
  wait := .none
  spin := Spin.clear
  held := false
  heldBrk := false
  stopReq := none
  pass := false
  nextAt := at_
  cands := 0
  owes := []
  owes2 := false
  owesCtr := none

/-- R61: a slot left empty takes the most recently pushed path entry. -/
def Group.fill (g : Group) (b : Bool) : Group :=
  match g.slot b with
  | some _ => g
  | none =>
    match takePath g.stack with
    | some (p, r) => { g with stack := r }.setSlot b (some { p with spin := Spin.clear })
    | none => g

/-- The path a join entry fuses into (R60); it may issue at the next clock (DESIGN CHOICE, log entry 69). -/
def Join.fused (j : Join) (at_ : Nat) : Path :=
  { Path.fresh j.pc j.joinPc j.mask j.hl j.mode j.outer j.frame at_ with stopReq := j.stopReq }

/-- The arrival of another path ends a demotion, with its count (R66); a path that is not demoted keeps its count. -/
def Path.undemote (p : Path) : Path :=
  if p.spin.demoted then { p with spin := { p.spin with demoted := false, count := 0 } } else p

/-- R60, R61: what follows when the path in a slot may stand at its join: it arrives and parks, its join entry
fuses when it is complete, the fused path may arrive in turn, an empty slot is filled. -/
def Group.resolve (now : Nat) : Nat → Bool → Group → Group
  | 0, _, g => g
  | fuel + 1, b, g =>
    match g.slot b with
    | none => g.fill b
    | some p =>
      match p.joinNo with
      | none => g
      | some n =>
        if p.pc = p.joinPc then
          match findJoin n g.stack with
          | none => g
          | some j =>
            let j := { j with arrived := j.arrived ||| p.mask, stopReq := p.stopReq <|> j.stopReq }
            let g := (g.flushFixed p.mask).modSlot (!b) Path.undemote
            if j.arrived = j.mask then
              resolve now fuel b
                (({ g with stack := putJoin n none g.stack, fused := j.mask :: g.fused }.dropFrames n).setSlot b (some (j.fused now)))
            else ({ g with stack := putJoin n (some j) g.stack }.setSlot b none).fill b
        else g

/-- Arrival with enough fuel for every join entry. -/
def Group.arrive (g : Group) (now : Nat) (b : Bool) : Group := g.resolve now (g.stack.length + 1) b

/-- A child of a split (R55): where, which lanes, and for a handler or trap child its mode and new frame. -/
structure Child where
  pc : BitVec 56
  mask : Mask
  handler : Option (Mode × Frame)
  deriving DecidableEq, Repr

/-- Giving each handler child its frame index (R135). -/
def assignFrames : List Child → List Nat → List (Child × Option Nat)
  | [], _ => []
  | c :: r, free =>
    match c.handler, free with
    | some _, k :: free' => (c, some k) :: assignFrames r free'
    | some _, [] => (c, none) :: assignFrames r []
    | none, _ => (c, none) :: assignFrames r free

/-- Placing live children: the splitting slot, the other slot when empty, then the stack, the earliest on top
(R55). -/
def Group.place (g : Group) (b : Bool) (live : List Path) : Group :=
  match live with
  | [] => g.setSlot b none
  | p :: r =>
    let g := g.setSlot b (some p)
    match g.slot (!b), r with
    | none, q :: r' => { g.setSlot (!b) (some q) with stack := r'.map .path ++ g.stack }
    | _, _ => { g with stack := r.map .path ++ g.stack }

/-- A stop that was asked of a path that splits holds one child: the one with the lane it was asked of, else the first
(R406, R407). -/
def giveStop (r : Option (Nat × Nat)) (ps : List Path) : List Path :=
  match r, ps with
  | some (_, l), p :: rest =>
    if ps.any fun q => q.mask.getLsbD l then ps.map fun q => if q.mask.getLsbD l then { q with stopReq := r } else q
    else { p with stopReq := r } :: rest
  | _, _ => ps

/-- Slots a split may use (R55). -/
def Group.slotsAvail (g : Group) (b : Bool) : Nat := if (g.slot (!b)).isNone then 2 else 1

/-- R55: the split of the path in slot b into children that share the join address j; none when it finds no
room on the stack or no frame (R135), and then nothing changes. -/
def Group.split (g : Group) (now : Nat) (b : Bool) (p : Path) (j : BitVec 56) (cs : List Child) : Option Group :=
  let live := cs.filter fun c => c.pc != j
  let push := 1 + (live.length - g.slotsAvail b)
  let need := (cs.filter fun c => c.handler.isSome).length
  if 64 < g.pdepth + push ∨ g.freeFrames.length < need then none
  else
    match lowestFree (joinNos (g.stack ++ g.under)) 64 with
    | none => none
    | some n =>
      let g := g.flushFixed p.mask
      let hj := p.hl || cs.any fun c => c.handler.isSome
      let done := cs.foldl (fun m c => if c.pc = j then m ||| c.mask else m) 0
      let e : Join :=
        { no := n, pc := j, joinPc := p.joinPc, mask := p.mask, arrived := done, hl := p.hl, mode := p.mode, hj := hj,
          outer := p.joinNo, frame := p.frame, stopReq := none }
      let framed := assignFrames cs g.freeFrames
      let frames := framed.foldl (fun fs c =>
        match c.1.handler, c.2 with
        | some (_, f), some k => addFrame k { f with joinNo := n } fs
        | _, _ => fs) g.frames
      let mk (c : Child × Option Nat) : Path :=
        match c.1.handler with
        | some (m, _) => Path.fresh c.1.pc j c.1.mask true m (some n) c.2 now
        | none => Path.fresh c.1.pc j c.1.mask p.hl p.mode (some n) p.frame now
      let g := { g with stack := .join e :: g.stack, frames := frames }
      let g := if done = (0 : Mask) then g else g.modSlot (!b) Path.undemote
      let g := g.place b (giveStop p.stopReq ((framed.filter fun c => c.1.pc != j).map mk))
      if e.arrived = e.mask then
        some ((({ g with stack := putJoin n none g.stack }.dropFrames n).setSlot b
          (some { e.fused now with stopReq := p.stopReq })).arrive now b)
      else some g

/-- Table 9.2, RET: no join entry; each child keeps the join of the path, and a set at that join arrives, which ends the
other slot's demotion (R66). The children may issue at the next clock (DESIGN CHOICE, log entry 69). -/
def Group.splitRet (g : Group) (now : Nat) (b : Bool) (p : Path) (cs : List (BitVec 56 × Mask)) : Option Group :=
  let atJoin (c : BitVec 56 × Mask) : Bool := p.joinNo.isSome && c.1 == p.joinPc
  let live := cs.filter fun c => !atJoin c
  let push := live.length - g.slotsAvail b
  if 64 < g.pdepth + push then none
  else
    let g := g.flushFixed p.mask
    let mk (c : BitVec 56 × Mask) : Path :=
      { p with pc := c.1, mask := c.2, spin := Spin.clear, nextAt := now, cands := 0, owes := [], owes2 := false, owesCtr := none, stopReq := none }
    let here := (cs.filter atJoin).map mk
    let g := if here.isEmpty then g else g.modSlot (!b) Path.undemote
    match live with
    | [] => some ((g.place b (giveStop p.stopReq here)).arrive now b)
    | _ =>
      let g := match p.joinNo, here with
        | some n, q :: _ =>
          match findJoin n g.stack with
          | some j => { g with stack := putJoin n (some { j with arrived := j.arrived ||| q.mask }) g.stack }
          | none => g
        | _, _ => g
      some (g.place b (giveStop p.stopReq (live.map mk)))

/-- Lanes leave a join entry's masks (R62). -/
def leaveItem (m : Mask) : StackItem → StackItem
  | .join j => .join { j with mask := j.mask &&& ~~~m, arrived := j.arrived &&& ~~~m }
  | .path p => .path p

/-- R62: the first join entry, from the top, that is empty or complete. -/
def firstDone : List StackItem → Option Join
  | [] => none
  | .join j :: r => if j.mask = 0 ∨ j.arrived = j.mask then some j else firstDone r
  | .path _ :: r => firstDone r

/-- R62: checking the join entries until nothing changes. -/
def Group.sweep (now : Nat) : Nat → Bool → Group → Group
  | 0, b, g => g.fill b
  | fuel + 1, b, g =>
    match firstDone g.stack with
    | none => g.fill b
    | some j =>
      let g := { g with stack := putJoin j.no none g.stack, fused := j.mask :: g.fused }.dropFrames j.no
      if j.mask = 0 then sweep now fuel b g
      else
        match g.slot b with
        | some _ => sweep now fuel b g
        | none => sweep now fuel b ((g.setSlot b (some (j.fused now))).arrive now b)

/-- R62: the lanes of m leave the path in slot b, which goes on at `next` with the others, or frees its slot. -/
def Group.exitLanes (g : Group) (now : Nat) (b : Bool) (m : Mask) (next : BitVec 56) : Group :=
  match g.slot b with
  | none => g
  | some p =>
    let g := { g with stack := g.stack.map (leaveItem m), under := g.under.map (leaveItem m), present := g.present &&& ~~~m }
    if g.present = (0 : Mask) then
      { g with st := .ended, slot0 := none, slot1 := none, stack := [], under := [], frames := [] }
    else if p.mask &&& ~~~m = (0 : Mask) then
      ((g.flushFixed p.mask).setSlot b none).sweep now (g.stack.length + 1) b
    else (g.setSlot b (some { p with mask := p.mask &&& ~~~m, pc := next })).arrive now b

/-! ### The path stack as memory shows it (Table 5.2) -/

/-- Bits of a kind byte. -/
def kindByte (kind : Nat) (hl hj : Bool) (mode : Mode) : Nat :=
  kind + (if hl then 4 else 0) + (if hj then 8 else 0) + (match mode with | .runtime => 16 | .user => 0)
/-- A join number with bit 7 for none. -/
def noByte : Option Nat → Nat
  | some n => n
  | none => 128
/-- The frame byte of a path entry: index and FV. -/
def fvByte : Option Nat → Nat
  | some k => 128 + k
  | none => 0
/-- The kind code of a path. -/
def PathKind.code : PathKind → Nat
  | .normal => 0
  | .handler => 1
  | .replay => 2
/-- The partial-completion mask of a path (Table 5.2, +20). -/
def Path.pmask (p : Path) : Mask :=
  match p.redo with
  | some r => r.pmask
  | none => 0
/-- The 32 bytes of a path entry. -/
def Path.bytes (p : Path) : List Byte :=
  leBytes 8 p.pc.toNat ++ leBytes 8 p.joinPc.toNat ++ leBytes 4 p.mask.toNat ++ leBytes 4 p.pmask.toNat ++
    leBytes 4 (kindByte p.kind.code p.hl false p.mode + 256 * noByte p.joinNo + 65536 * fvByte p.frame) ++ leBytes 4 0
/-- The 32 bytes of a join entry. -/
def Join.bytes (j : Join) : List Byte :=
  leBytes 8 j.pc.toNat ++ leBytes 8 j.joinPc.toNat ++ leBytes 4 j.mask.toNat ++ leBytes 4 j.arrived.toNat ++
    leBytes 4 (kindByte 3 j.hl j.hj j.mode + 256 * noByte j.outer + 65536 * j.no + 16777216 * fvByte j.frame) ++
    leBytes 4 0
def StackItem.bytes : StackItem → List Byte
  | .path p => p.bytes
  | .join j => j.bytes
/-- The bytes of the path stack, entry 0 (the first pushed) first; entry e lies in lane e/2 (R51) (DEDUCED, log entry 23). -/
def Group.stackBytes (g : Group) : List Byte := ((g.stack ++ g.under).reverse.map StackItem.bytes).flatten

end Sys2Proof.Machine
end

