-- ==== Sys2Proof/Machine/Mem.lean ====
section
/-! DEFINITION. Memory of the device: physical words with their tags, registration of writes (R208), cached copies (R196, R214), host lines (R220), page tables and translation (R181 to R183, R387). -/
namespace Sys2Proof.Machine

/-! ### Physical addresses (R387, Table 35.2) -/

/-- What a physical address lies in. -/
inductive PaKind where
  | hbm (die : Nat)
  | doorbell (q : Nat)
  | host
  | unassigned
  deriving DecidableEq, Repr
/-- Table 35.2. -/
def rangeOf (pa : Nat) : PaKind :=
  if pa < 0x10000000000 then .hbm (pa / 0x4000000000)
  else if 0x4000000000000 ≤ pa ∧ pa < 0x4000010000000 then .doorbell ((pa - 0x4000000000000) / 0x10000)
  else if 0x8000000000000 ≤ pa ∧ pa < 0x10000000000000 then .host
  else .unassigned
/-- Whether a word lies in its die's tagged region (R31), which starts at the die's first byte (DEDUCED, log entry 8). -/
def State.inTagged (s : State) (w : Nat) : Bool :=
  match rangeOf (8 * w) with
  | .hbm d => (8 * w) % 0x4000000000 + 8 ≤ s.dev.regions.getD d 0
  | _ => false
/-- The physical die of a logical die (R388). -/
def State.physDie (s : State) (d : Nat) : Nat := fld s.dev.dietab (8 * d) 2
/-- The logical die whose physical die is p (R388): one that is in use and belongs to a partition, where there is one. -/
def State.logDie (s : State) (p : Nat) : Nat :=
  let ds := (List.range 4).filter fun d => s.physDie d == p && s.dev.dietab.getLsbD (8 * d + 7)
  match ds.find? fun d => s.parts.any fun k => k.dies.contains d with
  | some d => d
  | none => ds.headD p
/-- The key of physical die a's firewall register toward die f (R385). -/
def linkKey (a f : Nat) : Nat := a * 4 + f
/-- A link carries traffic only while OPEN is 1 at both its ends (R385). -/
def State.linkOpen (s : State) (a f : Nat) : Bool :=
  (sget 0 s.dev.firewall (linkKey a f)).getLsbD 0 && (sget 0 s.dev.firewall (linkKey f a)).getLsbD 0
/-- Whether an access of an agent of a physical die to a physical address crosses no closed link (R16, R385). -/
def State.reachesFrom (s : State) (pdie pa : Nat) : Bool :=
  match rangeOf pa with
  | .hbm d => d == pdie || s.linkOpen pdie d
  | .doorbell _ | .host | .unassigned => true
/-- The same for an agent of a core, or of the die of a core number. -/
def State.reaches (s : State) (core pa : Nat) : Bool := s.reachesFrom (s.physDie (core / 72)) pa
/-- The log's entry of a register in this window counts one more drop. -/
def bumpDrop (die f : Nat) : List SecEntry → List SecEntry
  | [] => []
  | .drop d g n a :: r => if d = die ∧ g = f then .drop d g (n + 1) a :: r else .drop d g n a :: bumpDrop die f r
  | e :: r => e :: bumpDrop die f r
/-- A closed link of physical die `die` toward die f drops a flit: DROPS counts it, and the security log has one entry per
window (R385). -/
def State.countDrop (s : State) (die f addr : Nat) : State :=
  let w := sget 0 s.dev.firewall (linkKey die f)
  let fw := sput 0 s.dev.firewall (linkKey die f) (setFld w 32 32 (min (2 ^ 32 - 1) (fld w 32 32 + 1)))
  let d := { s.dev with firewall := fw }
  if d.fwLogged.contains (die, f) then
    { s with dev := { d with security := (bumpDrop die f d.security.reverse).reverse } }
  else { s with dev := { d with security := d.security ++ [.drop die f 1 addr], fwLogged := d.fwLogged ++ [(die, f)] } }
/-- An access from a physical die that a closed link drops. -/
def State.dropFrom (s : State) (pdie pa : Nat) : State :=
  match rangeOf pa with
  | .hbm d => if s.reachesFrom pdie pa then s else s.countDrop pdie d pa
  | .doorbell _ | .host | .unassigned => s
/-- Whether a byte lies in its die's tag storage, one sixteenth of its tagged region, which no access reaches (R19, R31); it
stands at the top of the die's memory (DESIGN CHOICE, log entry 8). -/
def State.inTagStore (s : State) (pa : Nat) : Bool :=
  match rangeOf pa with
  | .hbm d => 0x4000000000 - s.dev.regions.getD d 0 / 16 ≤ pa % 0x4000000000
  | .doorbell _ | .host | .unassigned => false
/-- Whether n bytes touch a page that a failure has retired (R401; DEDUCED, log entry 65). -/
def State.inRetired (s : State) (pa n : Nat) : Bool := s.dev.retiredPages.any fun e => e.1 < pa + n && pa < e.1 + e.2
/-- The partition with an id. -/
def State.part? (s : State) (id : Nat) : Option Partition := s.parts.find? fun p => p.id == id
/-- Changing a partition. -/
def State.modPart (s : State) (id : Nat) (f : Partition → Partition) : State :=
  { s with parts := updWhere s.parts (fun p => p.id == id) f }
/-- The address space with an id. -/
def State.aspace? (s : State) (id : Nat) : Option Aspace := s.aspaces.find? fun a => a.id == id
/-- Whether a physical die belongs to a partition (R384). -/
def State.ownsDie (s : State) (part pdie : Nat) : Bool :=
  match s.part? part with
  | some p => p.dies.any fun d => s.physDie d == pdie
  | none => false

/-! ### Groups -/

/-- Changing the groups that satisfy p, the issuing one included. -/
def State.modGroups (s : State) (p : Group → Bool) (f : Group → Group) : State :=
  { s with grp := if p s.grp then f s.grp else s.grp, groups := updWhere s.groups p f }
/-- Whether a group is group `grp` of block `blk`. -/
def Group.is (g : Group) (blk grp : Nat) : Bool := g.blk == blk && g.grp == grp && g.st != .none
/-- Every group, the issuing one first. -/
def State.allGroups (s : State) : List Group := if s.grp.st == .none then s.groups else s.grp :: s.groups
/-- A group by block and number. -/
def State.grp? (s : State) (blk grp : Nat) : Option Group := s.allGroups.find? fun g => g.is blk grp
/-- Changing one group. -/
def State.modGrp (s : State) (blk grp : Nat) (f : Group → Group) : State := s.modGroups (fun g => g.is blk grp) f

/-! ### Registered words -/

/-- Who writes: the core, block, group and lanes of a path. -/
structure Writer where
  core : Nat
  blk : Nat
  grp : Nat
  mask : Mask
  deriving DecidableEq, Repr

/-- The last registered value of a physical word. -/
def State.peek (s : State) (w : Nat) : Val := ⟨sget .raw s.tags w, rdWord s.mem w⟩
/-- The key of a core's copy of a word or line. -/
def l1Key (core w : Nat) : Nat := core * 2 ^ 49 + w

/-! ### Lines of host memory (R220, Table 17.2) -/

/-- The line of a word of host memory that a core holds (R220). -/
def State.lineSt (s : State) (core w : Nat) : LineSt := sget .i s.hostLines (l1Key core (w / 16))
/-- The state of a line at a core. -/
def State.hostLine (s : State) (core line : Nat) : LineSt := sget .i s.hostLines (l1Key core line)
/-- Setting a line state (DEDUCED, log entry 24). -/
def State.setLine (s : State) (core line : Nat) (st : LineSt) : State :=
  { s with hostLines := sput .i s.hostLines (l1Key core line) st }
/-- Whether a word lies in host memory. -/
def isHost (w : Nat) : Bool := rangeOf (8 * w) == .host
/-- The bytes of a line of 128 bytes. -/
def State.lineBytes (s : State) (line : Nat) : List Byte := rdBytes s.mem (128 * line) 128
/-- What the device sends. -/
def State.emit (s : State) (o : Out) : State := { s with outs := s.outs ++ [o] }
/-- A core owns no word of a line any more. -/
def State.disownLine (s : State) (core line : Nat) : State :=
  { s with own := s.own.filter fun e => !(e.1 / 16 == line && e.2 == core + 1) }
/-- A core's copies of a line's words are gone. -/
def State.dropLine (s : State) (core line : Nat) : State :=
  { s with l1 := s.l1.filter fun e => !(e.1 / 2 ^ 49 == core && e.1 % 2 ^ 49 / 16 == line) }
/-- Host snoop SnpData: the data of an M line is returned, and the line is S. -/
def State.snoopData (s : State) (core line : Nat) : State :=
  match s.hostLine core line with
  | .i => s
  | .s => s
  | .e => (s.disownLine core line).setLine core line .s
  | .m => ((s.emit (.line core line (s.lineBytes line))).disownLine core line).setLine core line .s
/-- Host snoop SnpInv: the data of an M line is returned, and the line is I. -/
def State.snoopInv (s : State) (core line : Nat) : State :=
  let s := if s.hostLine core line = .m then s.emit (.line core line (s.lineBytes line)) else s
  if s.hostLine core line = .i then s else ((s.disownLine core line).dropLine core line).setLine core line .i
/-- The cores other than one that hold a line. -/
def State.otherHolders (s : State) (core line : Nat) : List Nat :=
  (s.hostLines.filter fun e => e.1 % 2 ^ 49 == line && e.1 / 2 ^ 49 != core).map fun e => e.1 / 2 ^ 49
/-- The cores that hold a line of host memory. -/
def State.lineHolders (s : State) (line : Nat) : List Nat :=
  (s.hostLines.filter fun e => e.1 % 2 ^ 49 == line).map fun e => e.1 / 2 ^ 49
/-- A load of an absent line: RdShared goes out, the host snoops a core that holds the line in E or M, and grants S. -/
def State.askShared (s : State) (core line : Nat) : State :=
  let s := s.emit (.cache .rdShared core line [])
  let s := (s.otherHolders core line).foldl (fun s c => s.snoopData c line) s
  { s.setLine core line .s with hostReqs := s.hostReqs ++ [(core, line)] }
/-- A write to a line that is absent or S: RdOwn goes out, the host snoops every other core that holds the line, and the
grant makes it M; the write is registered at that grant, for which a release waits (R220; the grant is part of the step that
needs it: DEDUCED, log entry 24). -/
def State.askOwn (s : State) (core line : Nat) : State :=
  match s.hostLine core line with
  | .m => s
  | .e => s.setLine core line .m
  | .i | .s =>
    let s := s.emit (.cache .rdOwn core line [])
    let s := (s.otherHolders core line).foldl (fun s c => s.snoopInv c line) s
    { s.setLine core line .m with hostReqs := s.hostReqs.filter fun e => e != (core, line) }
/-- An atomic takes the line it acts on: one in E or M is owned already; for one that is absent or S, RdOwn goes out whether or not
memory will change, and the line is M after the grant (Table 17.2 names memory-changing atomics only: DESIGN CHOICE, log entry 24). -/
def State.ownLine (s : State) (core line : Nat) : State :=
  match s.hostLine core line with
  | .m | .e => s
  | .i | .s => s.askOwn core line
/-- A write by no path of the device reaches host memory: the host first snoops every core that holds the line (R220, R221). -/
def State.snoopAll (s : State) (line : Nat) : State := (s.lineHolders line).foldl (fun s c => s.snoopInv c line) s
/-- A core's L1 evicts a line: a host line goes back with DirtyEvict and its data, or CleanEvict (Table 17.2); what it owns of
device memory is owned by nobody. -/
def State.evictLine (s : State) (core line : Nat) : State :=
  let s :=
    if isHost (16 * line) then
      match s.hostLine core line with
      | .i => s
      | .m => s.emit (.cache .dirtyEvict core line (s.lineBytes line))
      | .s | .e => s.emit (.cache .cleanEvict core line [])
    else s
  ((s.disownLine core line).dropLine core line).setLine core line .i

/-! ### What the L1 holds (R14, R15) -/

/-- The header partition of a core, in units of 32 KiB: that of the work placed there (R15, R355). -/
def State.hdrPart (s : State) (core : Nat) : Nat :=
  ((s.blocks.find? fun b => b.cores.contains core && b.st != .held && b.st != .restart && b.st != .ended).map fun b =>
    b.eff.hdrpart).getD 0

/-- The lines of the L1 that a core has words of. -/
def State.l1Lines (s : State) (core : Nat) : List Nat :=
  ((s.l1.filter fun e => e.1 / 2 ^ 49 == core).map fun e => e.1 % 2 ^ 49 / 16).eraseDups
/-- R14, R15: the data part of the L1 holds 256 KiB less the header partition; a line above that is evicted, never that of the
word just filled (DESIGN CHOICE which, log entry 17). -/
def State.fitL1 (s : State) (core w : Nat) : State :=
  let size := 2048 - s.hdrPart core * 256
  if (s.l1.filter fun e => e.1 / 2 ^ 49 == core).length ≤ size then s
  else
    let ls := s.l1Lines core
    ((ls.filter fun l => l != w / 16).take (ls.length - size)).foldl (fun s l => s.evictLine core l) s

/-! ### A write is registered (R208) -/

/-- R66: a write that is registered in a sector ends the demotion of other agents' paths that loaded it in their last judged
iteration. Sectors are numbered by physical address / 64. A store of another agent counts when it is registered, the moment
at which it becomes visible to the path (R208; DESIGN CHOICE, log entry 26). -/
def State.wakeSector (s : State) (sector : Nat) (by_ : Option Writer) : State :=
  let hit (g : Group) (p : Path) : Path :=
    let own := match by_ with
      | some w => w.blk == g.blk && w.grp == g.grp && (w.mask &&& p.mask) != 0
      | none => false
    if p.spin.demoted && p.spin.judged.contains sector && !own then p.undemote else p
  s.modGroups (fun g => g.st != .none) fun g => { g with slot0 := g.slot0.map (hit g), slot1 := g.slot1.map (hit g) }

/-- The index of a page of a physical die from the start of its partition's memory (R397): its logical dies in
order. -/
def State.pageIndex (s : State) (p : Partition) (pdie page : Nat) : Nat :=
  (p.dies.findIdx fun d => s.physDie d == pdie) * 2 ^ 22 + page % 2 ^ 22
/-- R397, R398: the first write to a page of a migrating partition in a round appends an entry to the ring, or sets
LOGLOST. -/
def State.markDirty (s : State) (w : Nat) : State :=
  match rangeOf (8 * w) with
  | .host | .doorbell _ | .unassigned => s
  | .hbm d =>
    match s.dev.migration.find? fun m => s.ownsDie m.pid d, s.parts.find? fun p => s.ownsDie p.id d with
    | some m, some p =>
      let page := 8 * w / 0x10000
      if !m.dirty.contains page then
        let put (n : Migration) : State :=
          { s with dev := { s.dev with migration := updWhere s.dev.migration (fun k => k.pid == m.pid) fun _ => n } }
        if m.lost || m.entries ≤ m.used then put { m with dirty := m.dirty ++ [page], lost := true }
        else
          { put { m with dirty := m.dirty ++ [page], used := m.used + 1 } with
            mem := wrWord s.mem ((m.ring + 8 * m.used) / 8) (BitVec.ofNat 64 (s.pageIndex p d page)) }
      else s
    | _, _ => s

/-- A line of device memory that the host caches is taken back before a write to it is registered (R222, Table 35.5). -/
def State.backInvalidate (s : State) (w : Nat) : State :=
  if s.hostHeld.contains (w / 16) then
    { s with hostHeld := s.hostHeld.filter fun l => l != w / 16, outs := s.outs ++ [.backInv (w / 16)] }
  else s
/-- The value of a word that only the device writes, and its bytes that are so: WIDX and LOST of a partition's two rings (R7, R369,
R405), and STATUS of a queue control block (Table 31.2). -/
def State.readOnly (s : State) (w : Nat) : Option (Nat × BitVec 8) :=
  (s.parts.findSome? fun p =>
    if 8 * w = p.fqcb + 24 then some (p.fqWidx, 0xFF)
    else if 8 * w = p.fqcb + 40 then some (p.fqLost, 0xFF)
    else if 8 * w = p.trcb + 24 then some (p.trWidx, 0xFF)
    else if 8 * w = p.trcb + 40 then some (p.trLost, 0xFF)
    else none) <|>
  s.queues.findSome? fun k => if 8 * w = k.pa + 56 then some (k.state + 256 * k.err, 0x0F) else none
/-- What a write of x leaves in a word: its own value in the bytes that only the device writes. -/
def State.stays (s : State) (w : Nat) (x : Val) : Val :=
  match s.readOnly w with
  | some (n, m) => .raw (mergeBytes x.pay (BitVec.ofNat 64 n) m)
  | none => x
/-- A write is registered (R208): memory and tag take the value, the copy of the word's owner is recalled and, where
the writer caches it, the writer's core owns the word; other clean copies stay as they are (R214). A writer that does not
cache it keeps no copy. What no path writes to host memory first takes its line from the cores that hold it (R220). -/
def State.regMem (s : State) (by_ : Option Writer) (cached : Bool) (w : Nat) (x : Val) : State :=
  let x := s.stays w x
  let s := if by_.isNone && isHost w then s.snoopAll (w / 16) else s
  let old := sget 0 s.own w
  let l1 := if old = 0 then s.l1 else sput none s.l1 (l1Key (old - 1) w) none
  let s := { s with
    mem := wrWord s.mem w x.pay
    tags := if s.inTagged w then sput .raw s.tags w x.tag else s.tags }
  let s := match cached, by_ with
    | true, some c =>
      { s with
        own := sput 0 s.own w (c.core + 1), l1 := sput none l1 (l1Key c.core w) (some x)
        hdr := s.hdr.filter fun e => !(e.core == c.core && e.word == w) }.fitL1 c.core w
    | false, some c =>
      { s with
        own := sput 0 s.own w 0, l1 := sput none l1 (l1Key c.core w) none
        hdr := s.hdr.filter fun e => !(e.core == c.core && e.word == w) }
    | _, none => { s with own := sput 0 s.own w 0, l1 := l1 }
  ((s.wakeSector (w / 8) by_).markDirty w).backInvalidate w
/-- The same for a writer that caches, or an agent that is no path. -/
def State.regWord (s : State) (by_ : Option Writer) (w : Nat) (x : Val) : State := s.regMem by_ true w x
/-- A core's header entry of a word goes where it is older than the word as it stands (R189, R205). -/
def State.freshHeader (s : State) (core w : Nat) : State :=
  { s with hdr := s.hdr.filter fun e => !(e.core == core && e.word == w && e.val != s.peek w) }
/-- A core takes ownership of a word without changing it (R191): the other owner's copy is recalled. -/
def State.takeOwn (s : State) (core w : Nat) : State :=
  let old := sget 0 s.own w
  let l1 := if old = 0 then s.l1 else sput none s.l1 (l1Key (old - 1) w) none
  ({ s with own := sput 0 s.own w (core + 1), l1 := sput none l1 (l1Key core w) (some (s.peek w)) }.freshHeader core w).fitL1 core w
/-- A word that firmware rewrites in place: no core keeps a copy of it (R389). -/
def State.putFirm (s : State) (w : Nat) (x : Word) : State :=
  if rdWord s.mem w = x then s
  else
    { s with
      mem := wrWord s.mem w x, own := sput 0 s.own w 0, l1 := s.l1.filter fun e => e.1 % 2 ^ 49 != w
      hdr := s.hdr.filter fun e => e.word != w }
/-- A core drops the copies of a word that it does not own, after an access that goes past its L1 (R199, R205). -/
def State.dropCopy (s : State) (core w : Nat) : State :=
  if sget 0 s.own w = core + 1 then s else { s with l1 := sput none s.l1 (l1Key core w) none }.freshHeader core w

/-- Merging a pending store into a word. -/
def PendStore.onto (p : PendStore) (x : Val) : Val :=
  ⟨match p.tag with | some t => t | none => x.tag, mergeBytes x.pay p.data p.bytes⟩
/-- The writer of a pending store. -/
def PendStore.writer (p : PendStore) : Writer := ⟨p.core, p.blk, p.grp, p.mask⟩

/-- Whether a pending store is ordered before an agent's accesses in program order: its mask holds the lanes of every path
that follows it (R202). -/
def PendStore.before (p : PendStore) (me : Writer) : Bool :=
  p.blk == me.blk && p.grp == me.grp && (p.mask &&& me.mask) != 0
/-- Whether a pending store writes a part of its word. -/
def PendStore.part (p : PendStore) : Bool := p.bytes != 0xFF
/-- What a fusion of lanes of a group does to a pending store: it is ordered before the fused path where one of the paths made it
(R202). -/
def PendStore.widen (g : Group) (m : Mask) (p : PendStore) : PendStore :=
  if p.blk = g.blk ∧ p.grp = g.grp ∧ (p.mask &&& m) ≠ 0 then { p with mask := p.mask ||| m } else p
/-- What it does to a load that performed ahead: it serves the fused path no more where one of the paths has accessed its word or
acquired since (R202, R205, R215). -/
def Early.narrow (g : Group) (m : Mask) (e : Early) : Early :=
  if e.load.blk = g.blk ∧ e.load.grp = g.grp ∧ (e.passed &&& m) ≠ 0 then
    { e with load := { e.load with mask := e.load.mask &&& ~~~m }, passed := e.passed ||| m }
  else e
/-- R202: the pending stores of the paths that fuse at a join, and their accesses, are ordered before the fused path. -/
def State.orderStores (s : State) : State :=
  let each {α : Type} (f : Group → Mask → α → α) (l : List α) : List α :=
    s.allGroups.foldl (fun l g => g.fused.reverse.foldl (fun l m => l.map (f g m)) l) l
  { s with
    stores := each PendStore.widen s.stores, early := (each Early.narrow s.early).filter fun e => e.load.mask != 0
    grp := { s.grp with fused := [] }
    groups := s.groups.map fun g => if g.fused.isEmpty then g else { g with fused := [] } }

/-! ### Scratchpads -/

/-- The flat number of a scratchpad byte of a core. -/
def spdFlat (core off : Nat) : Nat := core * 0x80000 + off
/-- A word of the core scratchpads. -/
def State.spdWord (s : State) (w : Nat) : Val := ⟨sget .raw s.spdTags w, rdWord s.spd w⟩
/-- Writing a word of the core scratchpads: registered at its bank (R209). -/
def State.setSpd (s : State) (w : Nat) (x : Val) : State :=
  { s with spd := wrWord s.spd w x.pay, spdTags := sput .raw s.spdTags w x.tag }
/-- A word of the chip scratchpads. -/
def State.chpWord (s : State) (w : Nat) : Val := ⟨sget .raw s.chpTags w, rdWord s.chp w⟩
/-- Writing a word of the chip scratchpads. -/
def State.setChp (s : State) (w : Nat) (x : Val) : State :=
  { s with chp := wrWord s.chp w x.pay, chpTags := sput .raw s.chpTags w x.tag }
/-- A store with a range of keys removed. -/
def dropRange {α : Type} (l : Store α) (lo n : Nat) : Store α := l.filter fun e => e.1 < lo || lo + n ≤ e.1
/-- A range of keys of a store, renumbered from 0. -/
def cutRange {α : Type} (l : Store α) (lo n : Nat) : Store α :=
  (l.filter fun e => lo ≤ e.1 && e.1 < lo + n).map fun e => (e.1 - lo, e.2)
/-- What a cut range holds stands at a range of keys. -/
def pasteRange {α : Type} [DecidableEq α] (dflt : α) (l : Store α) (lo n : Nat) (cut : Store α) : Store α :=
  (cut.filter fun e => e.1 < n).foldl (fun m e => sput dflt m (lo + e.1) e.2) (dropRange l lo n)
/-- A range of scratchpad bytes reads raw 0 (R427). -/
def State.clearSpd (s : State) (lo n : Nat) : State :=
  { s with spd := dropRange s.spd lo n, spdTags := dropRange s.spdTags (lo / 8) (n / 8) }

/-- Words of memory that are not .glb: every one is tagged. -/
inductive Bank where
  | spd | chp
  deriving DecidableEq, Repr
def State.bankWord (s : State) (b : Bank) (w : Nat) : Val :=
  match b with
  | .spd => s.spdWord w
  | .chp => s.chpWord w
def State.setBank (s : State) (b : Bank) (w : Nat) (x : Val) : State :=
  match b with
  | .spd => s.setSpd w x
  | .chp => s.setChp w x
/-- The number of a scratchpad word among the stores on their way, apart from those of physical memory. -/
def bankKey (b : Bank) (w : Nat) : Nat :=
  match b with
  | .spd => 2 ^ 60 + w
  | .chp => 2 ^ 61 + w
/-- The scratchpad word of such a number. -/
def keyBank (k : Nat) : Option (Bank × Nat) :=
  if k < 2 ^ 60 then none else if k < 2 ^ 61 then some (.spd, k - 2 ^ 60) else some (.chp, k - 2 ^ 61)
/-- Sectors of the scratchpads, numbered apart from those of physical memory (R65). -/
def bankSector (b : Bank) (w : Nat) : Nat :=
  match b with
  | .spd => 2 ^ 60 + w / 8
  | .chp => 2 ^ 61 + w / 8
/-- A write to a bank by an agent (R209, R66). -/
def State.putBank (s : State) (by_ : Option Writer) (b : Bank) (w : Nat) (x : Val) : State :=
  (s.setBank b w x).wakeSector (bankSector b w) by_
/-- Bytes of a bank written by an agent that is no path; each word touched takes tag raw. -/
def State.putBankBytes (s : State) (b : Bank) : Nat → List Byte → State
  | _, [] => s
  | a, x :: r =>
    let w := a / 8
    let v := s.bankWord b w
    let s := s.putBank none b w ⟨.raw, mergeBytes v.pay (BitVec.ofNat 64 (x.toNat * 2 ^ (8 * (a % 8)))) (1#8 <<< (a % 8))⟩
    s.putBankBytes b (a + 1) r
/-- The flat number of a chip-scratchpad byte of a die. -/
def chpFlat (die off : Nat) : Nat := die * 0x2000000 + off
/-- The chip-scratchpad window of a job on a die (R179, R390). -/
def State.chpWin (s : State) (pid job die : Nat) : Option ChpWin :=
  s.wins.find? fun w => w.pid == pid && w.job == job && w.die == die

/-! ### Registration -/

/-- One pending store reaches its home, a host line by its grant (Table 17.2), a scratchpad word its bank (R209). What it meets there
it overwrites: the stored tag was checked when the store performed (R29) and is not checked again, so that a word that another path
has made pend since then loses its list with its waiters left (DESIGN CHOICE, log entry 80). A link that has closed since drops it;
the ends that firmware closes wait for the stores that cross (log entry 27). -/
def State.regOne (s : State) (p : PendStore) : State :=
  match keyBank p.word with
  | some (b, w) =>
    let s := s.putBank (some p.writer) b w (p.onto (s.bankWord b w))
    match b with
    | .spd => { s with written := s.written ++ [w] }
    | .chp => s
  | none =>
    if !s.reaches p.core (8 * p.word) then s.dropFrom (s.physDie (p.core / 72)) (8 * p.word)
    else
      let s := if isHost p.word then s.askOwn p.core (p.word / 16) else s
      s.regWord (some p.writer) p.word (p.onto (s.peek p.word))
/-- Whether a pending store of another path makes a word that its path has read: nothing comes between that word and the write
it was read over (R205). -/
def PendStore.pins (q p : PendStore) : Bool := q.read && q.word == p.word && !q.before p.writer
/-- One pending store is registered, after the stores whose word their own path has read. -/
def State.regStore (s : State) (p : PendStore) : State :=
  ((s.stores.filter fun q => q.pins p) ++ [p]).foldl State.regOne { s with stores := s.stores.filter fun q => !q.pins p }

/-- Every pending store that satisfies q is registered, in the order in which they performed; those whose word their own path
has read come first. -/
def State.drain (s : State) (q : PendStore → Bool) : State :=
  let now := s.stores.filter q
  ((now.filter PendStore.read) ++ now.filter fun p => !p.read).foldl State.regStore
    { s with stores := s.stores.filter fun p => !q p }
/-- R196: a release waits until the group's unacknowledged-store count is zero. -/
def State.drainGroup (s : State) (blk grp : Nat) : State := s.drain fun p => p.blk == blk && p.grp == grp
/-- Stores of a block are registered (R368, R375). -/
def State.drainBlock (s : State) (blk : Nat) : State := s.drain fun p => p.blk == blk
/-- The stores that would cross a link are registered before one of its ends closes (R385; DEDUCED, log entry 27). -/
def State.drainAcross (s : State) (ends : List (Nat × Nat)) : State :=
  s.drain fun p =>
    match rangeOf (8 * p.word) with
    | .hbm d => let f := s.physDie (p.core / 72); ends.any fun e => e == (f, d) || e == (d, f)
    | .doorbell _ | .host | .unassigned => false
/-- Before a word's home slice acts on it for an agent, the stores that come before are registered: the agent's own (R205),
and those whose word their path has read (DEDUCED, log entry 13). -/
def State.drainFor (s : State) (me : Option Writer) (w : Nat) : State :=
  s.drain fun p => p.word == w && (p.read || (match me with | some m => p.before m | none => false))
/-- A group's unacknowledged-store count (R188). -/
def State.unacked (s : State) (blk grp : Nat) : Nat :=
  (s.stores.filter fun p => p.blk == blk && p.grp == grp).length

/-! ### Cached copies -/

/-- R196: the core self-invalidates every word it does not own; host lines in state S are dropped (R220), and the header words that
are kept were read before it (R243). -/
def State.acquire (s : State) (core : Nat) : State :=
  let mine (k : Nat) : Bool := k / 2 ^ 49 == core
  let keep (k : Nat) : Bool :=
    let w := k % 2 ^ 49
    if isHost w then s.lineSt core w == .e || s.lineSt core w == .m else sget 0 s.own w == core + 1
  { s with
    l1 := s.l1.filter fun e => !mine e.1 || keep e.1
    hdr := (s.hdr.filter fun e => e.core != core || e.val.tag == .fwd).map fun e => if e.core = core then { e with clean := true } else e
    hostLines := s.hostLines.filter fun e => !mine e.1 || e.2 != .s }

/-- Copies and translations a core may lose at any time (R183, R214): host lines in S by an eviction (Table 17.2) (DEDUCED, log
entry 17). -/
def State.evict (s : State) (core : Nat) : State :=
  let shared := (s.hostLines.filter fun e => e.1 / 2 ^ 49 == core && e.2 == .s).map fun e => e.1 % 2 ^ 49
  let s := (shared.foldl (fun s l => s.evictLine core l) s).acquire core
  { s with
    hdr := s.hdr.filter fun e => e.core != core, tlb := s.tlb.filter fun e => e.core != core
    icopies := s.icopies.filter fun e => e.1 / 2 ^ 49 != core, ptrs := s.ptrs.filter fun e => e.die != core / 72 }

/-- Filling the absent words of a sector from registered memory. -/
def State.fillSector (s : State) (core w : Nat) : State :=
  let base := w - w % 8
  let s := if isHost w && s.lineSt core w == .i then s.askShared core (w / 16) else s
  let s := (List.range 8).foldl (fun s k =>
    match sget none s.l1 (l1Key core (base + k)) with
    | some _ => s
    | none =>
      { s with
        l1 := sput none s.l1 (l1Key core (base + k)) (some (s.peek (base + k)))
        hdr := s.hdr.filter fun e => !(e.core == core && e.word == base + k) }) s
  s.fitL1 core w

/-- A path's own pending stores to a word, in order (R202, R205). -/
def State.ownStores (s : State) (me : Writer) (w : Nat) : List PendStore := s.stores.filter fun p => p.word == w && p.before me
/-- Whether the last of them writes a part of the word, so that the word they make depends on the write before them. -/
def State.merges (s : State) (me : Writer) (w : Nat) : Bool :=
  match (s.ownStores me w).getLast? with
  | some p => p.part
  | none => false
/-- A word under the pending stores of a path, which bytes that only the device writes do not take (R7). -/
def State.under (s : State) (me : Writer) (w : Nat) (x : Val) : Val :=
  match s.ownStores me w with
  | [] => x
  | ps => s.stays w (ps.foldl (fun x p => p.onto x) x)
/-- The word a path reads (R205, R214): the copy its core holds, or memory, with the path's own pending stores. A store of a
part of the word stands over the last registered value (R32, R203). -/
def State.seen (s : State) (me : Writer) (w : Nat) : Val :=
  s.under me w (if s.merges me w then s.peek w else (sget none s.l1 (l1Key me.core w)).getD (s.peek w))
/-- A path reads a word that its pending stores merge into: no other write comes between them and the value they are read over
(R205). -/
def State.pin (s : State) (me : Writer) (w : Nat) : State :=
  if s.merges me w then
    let s := s.drain fun q => q.read && q.word == w && !q.before me
    { s with stores := updWhere s.stores (fun p => p.word == w && p.before me) fun p => { p with read := true } }
  else s

/-- A cached load of a word fills its sector (DEDUCED, log entry 16). -/
def State.loadWord (s : State) (me : Writer) (w : Nat) : Val × State :=
  let s := (s.fillSector me.core w).pin me w
  (s.seen me w, s)

/-! ### Loads that perform ahead of their issue (R206) -/

/-- The lanes of m of a group lose the loads that satisfy q; what performed before their access or acquire serves no path that
they come to be ordered before either (R202). -/
def State.loseEarly (s : State) (blk grp : Nat) (m : Mask) (q : Ahead → Bool) : State :=
  let cut (e : Early) : Early :=
    if e.load.blk = blk ∧ e.load.grp = grp ∧ q e.load then
      { e with load := { e.load with mask := e.load.mask &&& ~~~m }, passed := e.passed ||| m }
    else e
  { s with early := (s.early.map cut).filter fun e => e.load.mask != 0 }
/-- A path accesses the n words from w: loads of them that performed ahead serve it no more (R205). -/
def State.passWords (s : State) (me : Writer) (sp w n : Nat) : State :=
  s.loseEarly me.blk me.grp me.mask fun e => e.sp == sp && w ≤ e.word && e.word < w + n
/-- The value that a load of a word by a path has read ahead of its issue. -/
def State.earlyVal (s : State) (me : Writer) (sp w : Nat) : Option Val :=
  (s.early.find? fun e =>
    e.load.blk == me.blk && e.load.grp == me.grp && e.load.sp == sp && e.load.word == w && (me.mask &&& ~~~e.load.mask) == 0).map
    Early.val
/-- The paths of a group with lanes of m act as an acquire does: no later load of theirs has performed yet. -/
def State.renew (s : State) (blk grp : Nat) (m : Mask) : State := s.loseEarly blk grp m fun _ => true
/-- R196 for a path of a group: its core self-invalidates, and no later load of the path has performed yet. -/
def State.acquireFor (s : State) (core blk grp : Nat) (m : Mask) : State := (s.acquire core).renew blk grp m

/-! ### Page tables (R181, R182) -/

def pteV (e : Word) : Bool := e.getLsbD 0
def pteLeaf (e : Word) : Bool := e.getLsbD 1
def pteU (e : Word) : Bool := e.getLsbD 56
def pteW (e : Word) : Bool := e.getLsbD 57
def pteX (e : Word) : Bool := e.getLsbD 58
def pteMT (e : Word) : Nat := fld e 59 2
def pteTag (e : Word) : Bool := e.getLsbD 61
def pteCond (e : Word) : Bool := e.getLsbD 62
/-- ADDR of an entry, bits 51:13. -/
def pteAddr (e : Word) : Nat := fld e 13 39 * 2 ^ 13
/-- Table 15.2: bits that must be zero in every entry. -/
def pteZero (e : Word) : Bool := !e.getLsbD 63 && fld e 52 4 == 0 && fld e 2 11 == 0

/-- The outcome of a walk, before permission (R182 steps 1 and 2); `dropped` where a closed link drops the read of a table at
a physical address (R385). -/
inductive Walk where
  | missing
  | malformed
  | leaf (pte : Word) (size : Nat)
  | dropped (pa : Nat)
  deriving DecidableEq, Repr

/-- Whether a leaf is well formed for its level, range, partition and address space (R182, R31, R387). -/
def State.leafOk (s : State) (a : Aspace) (e : Word) (size : Nat) : Bool :=
  let pa := pteAddr e
  let last := pa + 2 ^ size - 1
  pteZero e && pa % 2 ^ size == 0 && pteMT e != 3 &&
  !(pteTag e && pteMT e != 0) && !(pteCond e && !pteTag e) &&
  (!pteTag e || (s.inTagged (pa / 8) && s.inTagged (last / 8))) && !s.inTagStore last && !s.inRetired pa (2 ^ size) &&
  (match rangeOf pa, rangeOf last with
   | .hbm d, .hbm d' => d == d' && s.ownsDie a.pid d && (pteMT e == 0 || pteMT e == 2)
   | .doorbell q, .doorbell q' =>
     q == q' && pteMT e == 2 && s.queues.any fun k => k.id == q && k.aspace == a.id
   | .host, .host => pteMT e == 1
   | _, _ => false)

/-- A pointer entry that the walkers of a die keep (R183). -/
def State.keptPtr (s : State) (die aspace bit va : Nat) : Option Word :=
  (s.ptrs.find? fun e => e.die == die && e.aspace == aspace && e.bit == bit && e.base == va / 2 ^ bit).map PtrEntry.entry
/-- The walk from a table at one of the levels left; each level is the lowest VA bit it is indexed by. A walker of a die
(`die`; none for firmware, that of the die on which the table stands, which reads no memory outside the partition's own dies: R391)
uses the pointer entries it keeps; those it follows come with the outcome. -/
def State.walkFrom (s : State) (die : Option Nat) (a : Aspace) (va : Nat) : List Nat → Nat → Walk × List PtrEntry
  | [], _ => (.malformed, [])
  | bit :: below, table =>
    let at_ := table + 8 * (va / 2 ^ bit % 1024)
    let step (e : Word) : Walk × List PtrEntry :=
      if !pteV e then (.missing, [])
      else if pteLeaf e then
        (if bit = 46 then .malformed else if s.leafOk a e bit then .leaf e bit else .malformed, [])
      else if below.isEmpty || !pteZero e || fld e 56 7 != 0 then (.malformed, [])
      else
        let (r, ps) := s.walkFrom die a va below (pteAddr e)
        match die with
        | some d => (r, ⟨d, a.id, bit, va / 2 ^ bit, e⟩ :: ps)
        | none => (r, ps)
    match die.bind fun d => s.keptPtr d a.id bit va with
    | some e => step e
    | none =>
      let open_ := match die, rangeOf at_ with
        | some d, _ => s.reachesFrom (s.physDie d) at_
        | none, .hbm d => s.ownsDie a.pid d
        | none, _ => false
      if open_ then step (rdWord s.mem (at_ / 8)) else (.dropped at_, [])

/-- The walk of an address space by an agent (R181, R428: no bound root is unmappable). -/
def State.walkBy (s : State) (die : Option Nat) (aspace va : Nat) : Walk × List PtrEntry :=
  match s.aspace? aspace with
  | none => (.malformed, [])
  | some a =>
    match a.root with
    | none => (.malformed, [])
    | some root => s.walkFrom die a va [46, 36, 26, 16] root
/-- The walk that firmware makes. -/
def State.walk (s : State) (aspace va : Nat) : Walk := (s.walkBy none aspace va).1

/-- A translation enters the TLB of a core: 2,048 entries in sets of 8 (R14, R183); the set is the page number modulo 256, and
its oldest entry leaves (DESIGN CHOICE, log entry 17). -/
def State.fillTlb (s : State) (n : TlbEntry) : State :=
  let same (e : TlbEntry) : Bool := e.core == n.core && e.base % 256 == n.base % 256
  let old := match ((s.tlb.filter same).drop 7).head? with
    | some x => s.tlb.erase x
    | none => s.tlb
  { s with tlb := n :: old }
/-- The walkers of a die keep the pointer entries that a walk followed (R183). -/
def State.keepPtrs (s : State) (ps : List PtrEntry) : State :=
  { s with ptrs := ps.foldl (fun l p => if l.contains p then l else p :: l) s.ptrs }
/-- Translation by a die's walkers for an agent with no TLB of its own. -/
def State.walkDie (s : State) (die aspace va : Nat) : Walk × State :=
  let (r, ps) := s.walkBy (some die) aspace va
  let s := s.keepPtrs ps
  match r with
  | .dropped pa => (r, s.dropFrom (s.physDie die) pa)
  | .missing | .malformed | .leaf .. => (r, s)
/-- Translation through a core's TLB and its die's walkers (R183). -/
def State.translate (s : State) (core aspace va : Nat) : Walk × State :=
  match s.tlb.find? fun e => e.core == core && e.aspace == aspace && e.base == va / 2 ^ e.size with
  | some e => (.leaf e.leaf e.size, s)
  | none =>
    match s.walkDie (core / 72) aspace va with
    | (.leaf pte size, s) => (.leaf pte size, s.fillTlb ⟨core, aspace, va / 2 ^ size, size, pte⟩)
    | r => r

/-- The physical address of a leaf and a virtual address (R182 step 4). -/
def leafPA (pte : Word) (size va : Nat) : Nat := pteAddr pte + va % 2 ^ size

/-- R119: an invalidation of an address space, whole or at one address, in every TLB and walker. The header words of the pages
it covers go with it (R243). -/
def State.tlbi (s : State) (aspace : Nat) (va : Option Nat) : State :=
  let hit (a base size : Nat) : Bool := a == aspace && (match va with | some v => base == v / 2 ^ size | none => true)
  { s with
    hdr := s.hdr.filter fun e => !hit e.aspace (e.va / 2 ^ e.size) e.size
    tlb := s.tlb.filter fun e => !hit e.aspace e.base e.size
    ptrs := s.ptrs.filter fun e => !hit e.aspace e.base e.bit }

/-- What an access needs of a leaf. -/
inductive Need where
  | read | write | fetch
  deriving DecidableEq, Repr
/-- R182 step 3: a refused access; `user` is a user-mode agent outside .lan. -/
def refused (pte : Word) (need : Need) (user : Bool) : Bool :=
  (user && !pteU pte) || (match need with | .read => false | .write => !pteW pte | .fetch => !pteX pte)

/-! ### Physical bytes, as firmware and the host reach them -/

/-- Registered bytes at a physical address. -/
def State.physBytes (s : State) (pa n : Nat) : List Byte := rdBytes s.mem pa n
/-- A registered number at a physical address. -/
def State.physNat (s : State) (pa n : Nat) : Nat := rdNat s.mem pa n

/-- Bytes registered at a physical address by an agent that is no path: each word touched takes tag raw, as a
landing of raw words (R222). -/
def State.putBytes (s : State) : Nat → List Byte → State
  | _, [] => s
  | pa, b :: r =>
    let w := pa / 8
    let s := s.drainFor none w
    let x := s.peek w
    let s := s.regWord none w ⟨.raw, mergeBytes x.pay (BitVec.ofNat 64 (b.toNat * 2 ^ (8 * (pa % 8)))) (1#8 <<< (pa % 8))⟩
    s.putBytes (pa + 1) r
/-- A number of n bytes registered at a physical address. -/
def State.putNat (s : State) (pa n x : Nat) : State := s.putBytes pa (leBytes n x)

end Sys2Proof.Machine
end

