-- ==== Sys2Proof/Machine/Operands.lean ====
section
/-! DEFINITION. Every operand form: which fields an instruction uses, effective register numbers (R84), register bounds, special operands (R68, R69, R85), immediates (R90), and the reads of a lane. -/
namespace Sys2Proof

/-! ### Which fields an instruction uses -/

/-- A source field: a value operand, a run of vector registers, a predicate, or the immediate. -/
inductive Opnd where
  | src (s : Src)
  | run (v : Vec) (len : Nat)
  | pred (p : Pred)
  | imm (bits : BitVec 32)
  deriving DecidableEq, Repr
/-- A destination field: none, a value, a run of vector registers (a pair has length 2), a predicate. -/
inductive Dst where
  | none
  | val (r : Reg)
  | run (v : Vec) (len : Nat)
  | pred (p : Pred)
  deriving DecidableEq, Repr
/-- The fields of an instruction; `extra` are fields read in D's place (engine commands) and predicates named in
MOD. -/
structure Uses where
  d : Dst := .none
  a : Option Opnd := none
  b : Option Opnd := none
  c : Option Opnd := none
  extra : List Opnd := []
  also : List Pred := []
  deriving DecidableEq, Repr

/-- A v/g field as a source. -/
def Reg.src : Reg → Src
  | .v n => .v n
  | .ix n => .ix n
  | .g n => .g n
def GSrc.opnd : GSrc → Opnd
  | .reg s => .src s
  | .imm i => .imm i.bits
def TSrc.opnd : TSrc → Opnd
  | .reg s => .src s
  | .imm i => .imm i
def predList : Option Pred → List Pred
  | some p => [p]
  | none => []
/-- The fields of two-source shapes. -/
def uses2 (d : Reg) (a : Src) (b : Opnd) : Uses := { d := .val d, a := some (.src a), b := some b }
def uses1 (d : Reg) (a : Src) : Uses := { d := .val d, a := some (.src a) }
def usesP (d : Pred) (a : Src) (b : Opnd) : Uses := { d := .pred d, a := some (.src a), b := some b }
def Comp.extra : Comp → List Opnd
  | .bar s _ => [.src s]
  | .none | .token _ => []
/-- Elements of a packed register: 8 of E4M3, 16 of E2M1 (R141). -/
def QTy.count : QTy → Nat
  | .e4m3 => 8
  | .e2m1 => 16

/-! ### Scheduling control and tags -/

/-- Table 7.13. -/
def gapOf (pace : BitVec 4) : Nat := [0, 1, 2, 3, 4, 5, 6, 7, 8, 10, 12, 16, 20, 24, 32, 48].getD pace.toNat 0
/-- The counter an instruction names. -/
def Sched.cnt : Sched → Option Ctr
  | .counted _ _ c _ _ _ => c
  | .interlocked _ => none
/-- The yield flag. -/
def Sched.yields : Sched → Bool
  | .counted _ y _ _ _ _ => y
  | .interlocked y => y
/-- The issue gap (R76). -/
def Sched.gap : Sched → Nat
  | .counted p _ _ _ _ _ => gapOf p
  | .interlocked _ => 0
/-- Whether the instruction is of version 2. -/
def Sched.v2 : Sched → Bool
  | .counted .. => false
  | .interlocked _ => true
/-- Tags int and raw (R115, R310 and others). -/
def Val.isNum (x : Val) : Bool := x.tag == .int || x.tag == .raw

end Sys2Proof

namespace Sys2Proof.Machine

/-- The fields each instruction of group code uses; events and the tile stream use no registers. -/
def usesOf : Instr → Uses
  | .brx _ a _ | .ret _ a => { a := some (.src a.src) }
  | .call _ d _ => { d := .run d 1 }
  | .callx _ d a => { d := .run d 1, a := some (.src a.src) }
  | .mfs _ d _ => { d := .val d }
  | .mts _ a _ | .tlbiPage _ a | .mark _ a _ => { a := some (.src a.src) }
  | .add _ _ d a b | .sub _ _ d a b | .mul _ _ d a b | .div _ _ d a b => uses2 d a b.opnd
  | .fldiv _ d a b | .mod _ d a b | .min _ d a b | .max _ d a b | .and _ d a b | .or _ d a b | .xor _ d a b
  | .shl _ d a b | .shr _ d a b => uses2 d a b.opnd
  | .neg _ d a | .abs _ d a | .hash _ d a | .mov _ d a | .unbox _ d a | .tagof _ d a => uses1 d a
  | .fma _ _ d a b k => { uses2 d a b.opnd with c := some (.src k) }
  | .eq _ d a b | .ne _ d a b | .lt _ d a b | .le _ d a b => usesP d a b.opnd
  | .truth _ d a | .tagchk _ d a _ | .refchk _ d a => { d := .pred d, a := some (.src a) }
  | .iadd _ _ _ d a b | .isub _ _ _ d a b | .imul _ _ _ d a b => uses2 d a b.opnd
  | .imulh _ _ d a b | .idiv _ _ d a b | .irem _ _ d a b | .imin _ _ d a b | .imax _ _ d a b | .bfx _ _ d a b =>
    uses2 d a b.opnd
  | .imad _ _ _ d a b k => { uses2 d a b.opnd with c := some (.src k) }
  | .iabs _ _ _ d a | .ineg _ _ _ d a => uses1 d a
  | .icmp _ _ _ d a b => usesP d a b.opnd
  | .band _ _ d a b | .bor _ _ d a b | .bxor _ _ d a b | .bshl _ _ d a b | .bshr _ _ d a b | .bsar _ _ d a b
  | .brol _ _ d a b => uses2 d a b.opnd
  | .bnot _ _ d a | .popc _ _ d a | .clz _ _ d a | .ctz _ _ d a | .brev _ _ d a => uses1 d a
  | .bfi _ _ d a b k => { uses2 d a b.opnd with c := some (.src k) }
  | .sel _ d a b p => { uses2 d a b.opnd with c := some (.pred p) }
  | .movi _ d (.gen i) => { d := .val d, b := some (.imm i.bits) }
  | .movi _ d (.typed _ i) => { d := .val d, b := some (.imm i) }
  | .lea _ _ d a b => uses2 d a b.opnd
  | .plop _ _ d a b k => { d := .pred d, a := some (.pred a), b := some (.pred b), c := some (.pred k) }
  | .pbool _ d a => { d := .val d, a := some (.pred a) }
  | .fadd _ _ _ d a b | .fsub _ _ _ d a b | .fmul _ _ _ d a b => uses2 d a b.opnd
  | .fdiv _ _ _ d a b | .fscale _ _ _ d a b => uses2 d a b.opnd
  | .ffma _ _ _ d a b k => { uses2 d a b.opnd with c := some (.src k) }
  | .fsqrt _ _ _ d a | .frcp _ _ _ d a | .frsq _ _ _ d a | .frnd _ _ _ d a => uses1 d a
  | .fmin _ _ d a b | .fmax _ _ d a b => uses2 d a b.opnd
  | .fabs _ _ d a | .fneg _ _ d a => uses1 d a
  | .fcmp _ _ _ d a b => usesP d a b.opnd
  | .fexp2 _ _ d a | .flog2 _ _ d a | .fsin _ _ d a | .fcos _ _ d a | .ftanh _ _ d a => uses1 d a
  | .fclass _ _ d a => uses1 d a
  | .cvt _ _ _ _ _ d a => uses1 d a
  | .cvtpk _ t d a b => { d := .val d, a := some (.run a t.count), b := some (.src b) }
  | .cvtxp _ t d a b => { d := .run d t.count, a := some (.src a), b := some (.src b) }
  | .box _ _ d a | .tagset _ _ d a => uses1 d a
  | .ld _ _ _ _ _ _ d a _ => uses1 d a
  | .st _ _ _ _ _ a b _ => { a := some (.src a), b := some (.src b) }
  | .atom _ _ _ _ _ _ d a b (.cas k) _ => { uses2 d a (.src b) with c := some (.src k) }
  | .atom _ _ _ _ _ _ d a b (.stat p) _ => { uses2 d a (.src b) with c := some (.pred p), also := [p] }
  | .atom _ _ _ _ _ _ d a b .none _ => uses2 d a (.src b)
  | .red _ _ _ _ _ _ a b _ => { a := some (.src a), b := some (.src b) }
  | .casw _ _ _ _ pen d a b k _ =>
    { d := .run d 2, a := some (.src a), b := some (.run b 2), c := some (.run k 2), also := predList pen }
  | .pref _ _ a _ => { a := some (.src a) }
  | .nalloc _ (.reg s) d p => { d := .val d, b := some (.src s), c := some (.pred p), also := [p] }
  | .nalloc _ (.imm i) d p => { d := .val d, b := some (.imm i), c := some (.pred p), also := [p] }
  | .hdrld _ _ _ pen d a _ => { uses1 d a with also := predList pen }
  | .fwdcas _ _ pen d a b k _ => { uses2 d a (.src b) with c := some (.src k), also := predList pen }
  | .barinit _ _ a b k _ => { a := some (.src a), b := some (.src b), c := some (.src k) }
  | .bararr _ _ d a b _ | .bartx _ _ d a b _ => uses2 d a (.src b)
  | .bwait _ _ _ d a b => uses2 d a (.src b)
  | .btest _ _ d a b p => { uses2 d a (.src b) with c := some (.pred p), also := [p] }
  | .pinit _ a _ => { a := some (.src a) }
  | .pfill _ a b _ => { a := some (.src a), b := some (.src b) }
  | .peq _ d a b p => { uses2 d a (.src b) with c := some (.pred p), also := [p] }
  | .pwait _ _ d a => { d := .run d 2, a := some (.src a) }
  | .pget _ d a p => { d := .run d 2, a := some (.src a), c := some (.pred p), also := [p] }
  | .proot _ d a => uses1 d a
  | .vote _ (.any d a) | .vote _ (.all d a) => { d := .pred d, a := some (.pred a) }
  | .vote _ (.ballot d a) => { d := .val d, a := some (.pred a) }
  | .vote _ (.uni d a) => { d := .pred d, a := some (.src a) }
  | .shfl _ _ d a (.reg s) pv => { uses2 d a (.src s) with c := pv.map .pred, also := predList pv }
  | .shfl _ _ d a (.imm i) pv => { uses2 d a (.imm (i.setWidth 32)) with c := pv.map .pred, also := predList pv }
  | .gred _ _ _ d a | .gscan _ _ _ _ d a | .mtch _ _ d a => uses1 d a
  | .elect _ d => { d := .pred d }
  | .seal _ _ _ d a _ => uses1 d a
  | .unseal _ a => { a := some (.src a) }
  | .hinfo _ _ d a => uses1 d a
  | .cpy _ _ _ k a b n _ => { a := some (.src a), b := some (.src b), c := some (.src n), extra := k.extra }
  | .cpym _ _ k a b n _ => { a := some (.src a), b := some (.src b), c := some (.run n 2), extra := k.extra }
  | .cpyg _ _ _ _ k a b n _ => { a := some (.src a), b := some (.src b), c := some (.run n 2), extra := k.extra }
  | .cpyr _ _ _ p a b n _ => { a := some (.src a), b := some (.src b), c := some (.src n), extra := [.src p] }
  | .nmatch _ _ d a b n => { uses2 d a (.src b) with c := some (.src n) }
  | .nunmatch _ d a => uses1 d a
  | .ralloc _ d a p => { uses1 d a with c := some (.pred p), also := [p] }
  | .rcommit _ a => { a := some (.src a) }
  | .rflush _ d a => uses1 d a
  | .rcard _ _ d a b n => { uses2 d a (.src b) with c := some (.src n) }
  | _ => {}

/-! ### Effective numbers (R84) -/

/-- The effective number of a field with base n: n, or n + x[IXSEL] when indexed; none when below 0. -/
def effNum (g : Group) (ix : BitVec 3) (indexed : Bool) (n : Nat) : Option Nat :=
  if indexed then
    let k := (n : Int) + (g.xr ix.toNat).toInt
    if k < 0 then none else some k.toNat
  else some n
/-- Whether a run of registers from a field lies in the allotment (R84). -/
def runOk (g : Group) (ix : BitVec 3) (indexed : Bool) (n len : Nat) : Bool :=
  match effNum g ix indexed n with
  | some k => k + len ≤ 16 * g.allot
  | none => false
/-- The number of a vector field; 0 where R84 has already refused it. -/
def vecNum (g : Group) (ix : BitVec 3) (v : Vec) : Nat :=
  match v with
  | .v n => n.val
  | .ix n => (effNum g ix true n.val).getD 0
/-- The operand number of a source (R137: 0 to 403). -/
def srcNum (g : Group) (ix : BitVec 3) (s : Src) : Nat :=
  match s with
  | .v n => n.val
  | .ix n => (effNum g ix true n.val).getD 0
  | .g n => 320 + n.val
  | .sp k => k.code
def regNum (g : Group) (ix : BitVec 3) (r : Reg) : Nat := srcNum g ix r.src

/-- R84: no vector register of the field at or beyond 16 x ALLOT. -/
def srcOk (g : Group) (ix : BitVec 3) : Src → Bool
  | .v n => runOk g ix false n.val 1
  | .ix n => runOk g ix true n.val 1
  | .g _ | .sp _ => true
def vecOk (g : Group) (ix : BitVec 3) (len : Nat) : Vec → Bool
  | .v n => runOk g ix false n.val len
  | .ix n => runOk g ix true n.val len
def opndOk (g : Group) (ix : BitVec 3) : Opnd → Bool
  | .src s => srcOk g ix s
  | .run v len => vecOk g ix len v
  | .pred _ | .imm _ => true
def optOk (g : Group) (ix : BitVec 3) : Option Opnd → Bool
  | some o => opndOk g ix o
  | none => true
def dstOk (g : Group) (ix : BitVec 3) : Dst → Bool
  | .val r => srcOk g ix r.src
  | .run v len => vecOk g ix len v
  | .none | .pred _ => true
/-- The last row of Table 7.12 for a whole word. -/
def usesOk (u : Uses) (g : Group) (ix : BitVec 3) : Bool :=
  dstOk g ix u.d && optOk g ix u.a && optOk g ix u.b && optOk g ix u.c && u.extra.all (opndOk g ix)

/-! ### Registers an instruction touches (R80) -/

def srcNames (g : Group) (ix : BitVec 3) (s : Src) : List RegName :=
  match s with
  | .v _ | .ix _ => [.v (srcNum g ix s)]
  | .g n => [.g n.val]
  | .sp _ => []
def runNames (g : Group) (ix : BitVec 3) (v : Vec) (len : Nat) : List RegName :=
  (List.range len).map fun k => .v (vecNum g ix v + k)
def opndNames (g : Group) (ix : BitVec 3) : Opnd → List RegName
  | .src s => srcNames g ix s
  | .run v len => runNames g ix v len
  | .pred p => [.p p.val]
  | .imm _ => []
def dstNames (g : Group) (ix : BitVec 3) : Dst → List RegName
  | .none => []
  | .val r => srcNames g ix r.src
  | .run v len => runNames g ix v len
  | .pred p => [.p p.val]
def guardNames : Guard → List RegName
  | .always => []
  | .on _ p => [.p p.val]
/-- Every register a word reads or writes, its guard included. -/
def usesNames (u : Uses) (g : Group) (ix : BitVec 3) (gd : Guard) : List RegName :=
  guardNames gd ++ dstNames g ix u.d ++ (u.a.toList ++ u.b.toList ++ u.c.toList ++ u.extra).flatMap (opndNames g ix) ++
    u.also.map fun p => .p p.val

/-- Every register a word reads: its guard and its source fields, but for the predicates it writes. -/
def readNames (u : Uses) (g : Group) (ix : BitVec 3) (gd : Guard) : List RegName :=
  guardNames gd ++ ((u.a.toList ++ u.b.toList ++ u.c.toList ++ u.extra).flatMap (opndNames g ix)).filter fun r =>
    !(u.also.map fun p => RegName.p p.val).contains r
/-- Every register a word writes. -/
def writeNames (u : Uses) (g : Group) (ix : BitVec 3) : List RegName := dstNames g ix u.d ++ u.also.map fun p => .p p.val

/-! ### Interface words of an instruction (R137, Table 11.8) -/

/-- Opcodes of format R or I (R97). -/
def isRI (opc : Nat) : Bool :=
  opc == 0 || (0x005 ≤ opc && opc ≤ 0x00A) || (0x040 ≤ opc && opc ≤ 0x207) || opc == 0x2C0 || opc == 0x2C3 ||
    opc == 0x307 || opc == 0x30A || (0x340 ≤ opc && opc ≤ 0x345) || opc == 0x381 || opc == 0x382
/-- Opcodes of format J or T, which have no SUB. -/
def noSub (opc : Nat) : Bool := (0x001 ≤ opc && opc ≤ 0x004) || (0x390 ≤ opc && opc ≤ 0x39B)
/-- sys.hop of a word. -/
def hopOf (f : Fields) : Word :=
  let opc := f.opc.toNat
  let m := ModR.of f.mod
  BitVec.ofNat 64 ((if noSub opc then 0 else m.sub.toNat) * 2 ^ 32 +
    (if isRI opc then m.rnd.toNat * 2 ^ 18 + m.imm.toNat * 2 ^ 17 else 0) + f.ty.toNat * 2 ^ 12 + opc)
/-- sys.hsa, sys.hsb or sys.hsc of a field. -/
def hsOf (g : Group) (ix : BitVec 3) : Option Opnd → Word
  | none => 0
  | some (.src s) => BitVec.ofNat 64 (1024 + srcNum g ix s)
  | some (.run v _) => BitVec.ofNat 64 (1024 + vecNum g ix v)
  | some (.pred p) => BitVec.ofNat 64 (1024 + p.val)
  | some (.imm i) => BitVec.ofNat 64 (i.toNat * 2 ^ 32 + 2048 + 1024)
/-- sys.hsb: in form I it holds IMM32, whatever the instruction makes of it (Table 11.8). USED stands with IMMF in every form-I word,
also where the opcode has no operand B (TRAP, BRK, TAGCHK): R89 puts IMM32 in the place of operand B (DESIGN CHOICE, log entry 82). -/
def hsbOf (g : Group) (f : Fields) (o : Option Opnd) : Word :=
  let m := ModR.of f.mod
  if isRI f.opc.toNat && m.imm == 1 then BitVec.ofNat 64 (m.imm32.toNat * 2 ^ 32 + 2048 + 1024) else hsOf g f.ix o
/-- KIND and NUM of a destination (Table 11.8). -/
def hdstOf (g : Group) (ix : BitVec 3) : Dst → Nat × Nat
  | .none => (0, 0)
  | .val r => (1, regNum g ix r)
  | .run v len => (if len = 2 then 3 else 1, vecNum g ix v)
  | .pred p => (2, p.val)
/-- sys.hdst. -/
def hdstWord (d : Nat × Nat) : Word := BitVec.ofNat 64 (d.1 * 1024 + d.2)

/-! ### Reading a lane -/

/-- The block with an id. -/
def State.blk? (s : State) (id : Nat) : Option Block := s.blocks.find? fun b => b.id == id
/-- Changing a block. -/
def State.modBlk (s : State) (id : Nat) (f : Block → Block) : State :=
  { s with blocks := updWhere s.blocks (fun b => b.id == id) f }

/-- The value of a special operand (R68, R69, R85) for lane l of the issuing group. -/
def special (s : State) (slot : Bool) (l : Nat) (k : Special) : Val :=
  let g := s.grp
  let int (n : Nat) : Val := .int (BitVec.ofNat 64 n)
  let blk := s.blk? g.blk
  let org := blk.map Block.origin
  match k with
  | .lane => int l
  | .path => int (if slot then 1 else 0)
  | .grp => int g.grp
  | .blkx => match org with | some (.grid _ _ x _ _) => int x | _ => int 0
  | .blky => match org with | some (.grid _ _ _ y _) => int y | _ => int 0
  | .blkz => match org with | some (.grid _ _ _ _ z) => int z | _ => int 0
  | .idx => int (32 * g.grp + l)
  | .gridx => match org with | some (.grid ..) => int ((blk.map Block.gx).getD 1) | _ => int 1
  | .gridy => match org with | some (.grid ..) => int ((blk.map Block.gy).getD 1) | _ => int 1
  | .gridz => match org with | some (.grid ..) => int ((blk.map Block.gz).getD 1) | _ => int 1
  | .ncount => match org with | some (.node _ n _ _ _) => int n | _ => int 0
  | .recbase => match org with | some (.node _ _ r _ _) => int r | _ => int 0
  | .node => match org with | some (.node id _ _ _ _) => int id | _ => .ofInt (-1)
  | .depth => match org with | some (.node ..) => int (g.depth.getD l 0) | _ => int 0
  | .core => int g.core
  | .clock => int s.now
  | .zero => int 0
  | .nil => .nil
  | .true => .bool true
  | .false => .bool false

/-- A value source in lane l. -/
def rdSrc (s : State) (slot : Bool) (ix : BitVec 3) (o : Src) (l : Nat) : Val :=
  match o with
  | .v n => s.grp.vr n.val l
  | .ix _ => s.grp.vr (srcNum s.grp ix o) l
  | .g n => s.grp.gr n.val
  | .sp k => special s slot l k
/-- Lane l of register `k` of a run. -/
def rdRun (s : State) (ix : BitVec 3) (v : Vec) (k l : Nat) : Val := s.grp.vr (vecNum s.grp ix v + k) l
/-- Bit l of a predicate. -/
def rdPred (s : State) (p : Pred) (l : Nat) : Bool := (s.grp.pr p.val).getLsbD l

/-- The Active set of a guard over a mask (R83). -/
def activeOf (g : Group) (gd : Guard) (m : Mask) : Mask :=
  match gd with
  | .always => m
  | .on neg p => if neg then m &&& ~~~(g.pr p.val) else m &&& g.pr p.val

/-! ### Writing results -/

/-- The writes of a value destination: one per lane, or for a g register that of the lowest lane of Active (R86). -/
def wrReg (g : Group) (ix : BitVec 3) (d : Reg) (vals : List (Nat × Val)) : List RegWrite :=
  match d with
  | .g n =>
    match vals with
    | (_, x) :: _ => [.g n.val x]
    | [] => []
  | .v _ | .ix _ => vals.map fun e => .v (regNum g ix d) e.1 e.2
/-- The writes of a destination by its operand number (R137): a vector register, or a g register from 320. -/
def wrNum (n : Nat) (vals : List (Nat × Val)) : List RegWrite :=
  if n < 320 then vals.map fun e => .v n e.1 e.2
  else
    match vals with
    | (_, x) :: _ => [.g (n - 320) x]
    | [] => []
/-- Values in the lanes that keep them: a g register takes that of the lowest Active lane only (R86). -/
def keepFor (d : Reg) (act : Mask) (vals : List (Nat × Val)) : List (Nat × Val) :=
  match d with
  | .g _ => vals.filter fun e => some e.1 == lowest act
  | .v _ | .ix _ => vals

/-- The writes of register k of a run. -/
def wrRun (g : Group) (ix : BitVec 3) (d : Vec) (k : Nat) (vals : List (Nat × Val)) : List RegWrite :=
  vals.map fun e => .v (vecNum g ix d + k) e.1 e.2
/-- The writes of a predicate. -/
def wrPred (p : Pred) (bits : List (Nat × Bool)) : List RegWrite := bits.map fun e => .p p.val e.1 e.2

end Sys2Proof.Machine
end

