-- ==== Sys2Proof/Machine/Rings.lean ====
section
/-! DEFINITION. The two rings of a hard partition: fault records (R369, R370) and trace records (R405); debug sessions, holds and freezes (R404, R406 to R408), trigger lines (R411, R412) and lane-cycle counts (R409, R410). -/
namespace Sys2Proof.Machine

/-! ### Control blocks of rings (Table 33.2) -/

/-- Fields of a fault queue control block (Table 33.2). -/
def State.fqBase (s : State) (q : Nat) : Nat := s.physNat q 8
def State.fqSize (s : State) (q : Nat) : Nat := 2 ^ s.physNat (q + 8) 1
def State.fqVec (s : State) (q : Nat) : Nat := s.physNat (q + 16) 2
def State.fqRidx (s : State) (q : Nat) : Nat := s.physNat (q + 32) 8
/-- A ring with WIDX records written is full. -/
def State.fqFull (s : State) (q widx : Nat) : Bool :=
  (widx + 2 ^ 64 - s.fqRidx q) % 2 ^ 64 == s.fqSize q
/-- Where record i of a ring stands. -/
def State.ringSlot (s : State) (q i : Nat) : Nat := s.fqBase q + 64 * (i % s.fqSize q)
/-- Whether a record at an address lies in the HBM of the partition's own dies: a ring whose BASE says otherwise has no room there,
for nothing of another partition is written or read (R369, R391; DESIGN CHOICE, log entry 81). -/
def State.ringOwn (s : State) (part a : Nat) : Bool :=
  match rangeOf a, rangeOf (a + 63) with
  | .hbm d, .hbm d' => d == d' && s.ownsDie part d
  | _, _ => false
/-- Whether a ring with WIDX records written has room for the next one of an agent of a die: it is not full, the record would stand
in the partition's own memory, and no closed link lies between (R385). -/
def State.ringRoom (s : State) (part die q widx : Nat) : Bool :=
  !s.fqFull q widx && s.ringOwn part (s.ringSlot q widx) && s.reachesFrom (s.physDie die) (s.ringSlot q widx)
/-- A record that finds its ring behind a closed link is a dropped flit (R385). -/
def State.ringDrop (s : State) (part die q widx : Nat) : State :=
  if s.ringOwn part (s.ringSlot q widx) then s.dropFrom (s.physDie die) (s.ringSlot q widx) else s

/-- A request that firmware refuses returns an error to its requester and changes nothing. -/
def State.refuse (s : State) (what : Nat) : State := s.emit (.refuse what)
/-- An interrupt of a vector of a function, 0xFFFF for none (R393). -/
def State.raiseVec (s : State) (fn v : Nat) : State := if v = 0xFFFF then s else s.emit (.interrupt fn v)

/-- BLOCK of a record: linear number, or the node id (Table 33.3). -/
def Block.recNo (b : Block) : Nat :=
  match b.origin with
  | .grid _ num _ _ _ => num
  | .node id _ _ _ _ => id

/-! ### Trace records (R404, R405) -/

/-- The launch a block came from. -/
def Block.launch? (b : Block) : Option Nat :=
  match b.origin with
  | .grid l _ _ _ _ => some l
  | .node .. => none

/-- The launch of a block as a debug session names it: the grid launch, or a node or card launch by its block's number
(R406; DESIGN CHOICE, log entry 30). -/
def Block.launchNo (b : Block) : Nat := b.launch?.getD b.id

/-- A trace record (Table 37.1), before its clock is set. -/
structure TraceRec where
  kind : Nat
  cls : Nat
  die : Nat
  slot : Nat
  core : Nat
  grp : Nat
  flags : Nat
  pc : Nat
  value : Word
  mask : Mask
  block : Nat
  queue : Nat
  deriving DecidableEq, Repr

/-- The 64 bytes of a trace record. -/
def TraceRec.bytes (r : TraceRec) (clock : Nat) : List Byte :=
  leBytes 1 r.kind ++ leBytes 1 r.cls ++ leBytes 1 r.die ++ leBytes 1 r.slot ++ leBytes 2 r.core ++ leBytes 1 r.grp ++
    leBytes 1 r.flags ++ leBytes 8 r.pc ++ leBytes 8 r.value.toNat ++ leBytes 4 r.mask.toNat ++ leBytes 4 0 ++
    leBytes 8 r.block ++ leBytes 8 clock ++ leBytes 2 r.queue ++ leBytes 14 0

/-- Sessions attached to the launches of a queue (R404). A suspension stops their counting alone (R413). -/
def State.sessionsOf (s : State) (part queue : Nat) : List Session :=
  s.dev.sessions.filter fun k => k.spec.part == part && k.spec.queues.contains queue
/-- Debug stops are enabled for a launch. -/
def State.stopsOn (s : State) (part queue : Nat) : Bool := (s.sessionsOf part queue).any fun k => k.spec.stops
/-- Tracing is enabled for a launch and capture is on. -/
def State.tracing (s : State) (part queue : Nat) : Bool :=
  (s.sessionsOf part queue).any fun k => k.spec.tracing && k.capture
/-- Capture is on in a partition. -/
def State.capturing (s : State) (part : Nat) : Bool :=
  s.dev.sessions.any fun k => k.spec.part == part && k.capture

/-- A trace record is written with a release, or dropped and counted when the ring has no room for it (R405). -/
def State.trace (s : State) (part : Nat) (r : TraceRec) : State :=
  match s.part? part with
  | none => s
  | some p =>
    let q := p.trcb
    let i := p.trWidx
    if !s.capturing part then s
    else if !s.ringRoom part r.die q i then
      ((s.ringDrop part r.die q i).modPart part fun p => { p with trLost := p.trLost + 1 }).putNat (q + 40) 8 (p.trLost + 1)
    else
      let idle := i == s.fqRidx q
      let vec := s.fqVec q
      let s := s.putBytes (s.ringSlot q i) (r.bytes s.now)
      let s := (s.modPart part fun p => { p with trWidx := i + 1 }).putNat (q + 24) 8 (i + 1)
      if idle then s.raiseVec 0 vec else s

/-- A trace record about the path in a slot. -/
def State.pathTrace (s : State) (g : Group) (p : Path) (slot : Bool) (kind cls flags : Nat) (value : Word) : TraceRec :=
  let b := s.blk? g.blk
  { kind := kind, cls := cls, die := g.core / 72, slot := if slot then 1 else 0, core := g.core, grp := g.grp,
    flags := flags + (if p.hl then 1 else 0) + (if p.kind = .replay then 2 else 0), pc := p.pc.toNat, value := value,
    mask := p.mask, block := (b.map Block.recNo).getD 0, queue := (b.map Block.queue).getD 0 }

/-! ### Trigger lines (R411, R412) -/

/-- The cue sequencer of a die (Table 37.3): state, action, N, lines. -/
def State.cue (s : State) (die : Nat) : Word := sget 0x10000 s.dev.cue die
/-- Setting dbg.cue. -/
def State.setCue (s : State) (die : Nat) (w : Word) : State :=
  { s with dev := { s.dev with cue := sput 0x10000 s.dev.cue die w } }
/-- Capture starts or freezes in every session (R411, R412). -/
def State.setCapture (s : State) (on : Bool) : State :=
  { s with dev := { s.dev with sessions := s.dev.sessions.map fun k => { k with capture := on } } }
/-- A pulse on line A of a die's sequencer. -/
def State.cueA (s : State) (die : Nat) : State :=
  let w := s.cue die
  if fld w 34 2 = 1 then
    let s := s.setCue die (setFld w 34 2 2)
    { s with dev := { s.dev with cueCount := sput 0 s.dev.cueCount die 0, cueAt := sput 0 s.dev.cueAt die (s.now + 1) } }
  else s
/-- A pulse on line B of a die's sequencer. -/
def State.cueB (s : State) (die : Nat) : State :=
  let w := s.cue die
  if fld w 34 2 = 2 then
    let n := sget 0 s.dev.cueCount die + 1
    let s := { s with dev := { s.dev with cueCount := sput 0 s.dev.cueCount die n } }
    if max 1 (fld w 16 16) ≤ n then (s.setCue die (setFld w 34 2 3)).setCapture (fld w 32 1 == 0) else s
  else s
/-- A pulse of a line at the cue sequencers: a B pulse in the clock of the A pulse that began the count is not counted. -/
def State.cuePulse (s : State) (line : Nat) : State :=
  (List.range 4).foldl (fun s d =>
    let w := s.cue d
    let s' := if fld w 0 6 = line then s.cueA d else s
    if fld w 8 6 = line && fld w 34 2 == 2 && sget 0 s.dev.cueAt d != s.now + 1 then s'.cueB d else s') s

/-- The fields that a record of an agent of a core has in common with every record about it: no path is named. -/
def coreTrace (die core queue : Nat) : TraceRec where
  kind := 0
  cls := 0
  die := die
  slot := 0xFF
  core := core
  grp := 0
  flags := 0
  pc := 0
  value := 0
  mask := 0
  block := 0
  queue := queue

/-- A stop is requested for the path in a slot: it takes effect before the path's next issue (R406, R407). -/
def Path.askStop (cause lane : Nat) (p : Path) : Path :=
  if p.held then p else { p with stopReq := some (p.stopReq.getD (cause, lane)) }

/-- Whether a line has pulsed in this clock: a second source of it in the clock makes no second pulse (R411). -/
def State.hasPulsed (s : State) (line : Nat) : Bool := sget 0 s.dev.pulsed line == s.now + 1
/-- A pulse on a trigger line by what `by_` describes: a record of kind 5 in each partition the line is routed for, and its
sinks; a source of a partition drives only lines that are routed for it, a package pin or a sequencer any line (`from_` none); the
sequencers that it fires pulse their own lines in turn, each at most once. A line that the crossbar does not route goes nowhere (R120).
A core's stop input holds exactly one path (R406): the one that would issue next on the core (DESIGN CHOICE, log entry 30). -/
def State.pulseN : Nat → State → Option Nat → Nat → TraceRec → State
  | 0, s, _, _, _ => s
  | n + 1, s, from_, line, by_ =>
    let parts := (s.dev.lines.filter fun e => e.1 == line).map Prod.snd
    if parts.isEmpty || s.hasPulsed line || (match from_ with | some p => !parts.contains p | none => false) then s
    else
      let s := { s with dev := { s.dev with pulsed := sput 0 s.dev.pulsed line (s.now + 1) } }
      let s := parts.foldl (fun s p => s.trace p { by_ with kind := 5, cls := line, value := 0 }) s
      let cores := (s.dev.stopIn.filter fun e => e.1 == line && !s.dev.stopNext.contains e.2).map Prod.snd
      let s := { s with dev := { s.dev with stopNext := s.dev.stopNext ++ cores.eraseDups } }
      let armed := (List.range 4).filter fun d => fld (s.cue d) 34 2 == 2
      let s := s.cuePulse line
      let fired := armed.filter fun d => fld (s.cue d) 34 2 == 3
      let s := s.dev.captureIn.foldl (fun s e => if e.1 = line then s.setCapture e.2 else s) s
      let s := { s with outs := s.outs ++ ((s.dev.pinOut.filter fun e => e.1 == line).map fun e => Out.pin e.2) }
      fired.foldl (fun s d =>
        (s.dev.sources.filter fun e => e.1 == 5).foldl (fun s e => State.pulseN n s none e.2 (coreTrace d 0xFFFF 0)) s) s
/-- A pulse by a source of a partition, or of none: four sequencers can fire after it. -/
def State.pulse (s : State) (from_ : Option Nat) (line : Nat) (by_ : TraceRec) : State := State.pulseN 5 s from_ line by_

/-- A pulse of a source that the crossbar routes to lines: 1 stop and release records, 2 fault-record writes,
3 queue stops, 4 MARKER packets, 5 the cue sequencer (R411). -/
def State.pulseSrc (s : State) (from_ : Option Nat) (src : Nat) (by_ : TraceRec) : State :=
  (s.dev.sources.filter fun e => e.1 == src).foldl (fun s e => s.pulse from_ e.2 by_) s
/-- What a fault record says of its agent, as a trace record (Tables 33.3, 37.1): of a path, its active mask and whether it
replays. -/
def FaultRec.traceOf (r : FaultRec) : TraceRec :=
  { coreTrace r.die r.core r.queue with
    slot := r.slot, grp := r.grp, flags := (if r.flags.getLsbD 1 then 1 else 0) + (if r.again then 2 else 0), pc := r.pc,
    mask := r.act, block := r.block }

/-! ### Fault records (R369, R370) -/

/-- The 64 bytes of a record (Table 33.3). -/
def FaultRec.bytes (r : FaultRec) (clock : Nat) : List Byte :=
  leBytes 1 r.kind ++ leBytes 1 r.cause.toNat ++ leBytes 1 r.die ++ leBytes 1 r.flags.toNat ++ leBytes 2 r.core ++
    leBytes 1 r.grp ++ leBytes 1 r.slot ++ leBytes 8 r.pc ++ leBytes 8 r.faddr.toNat ++ leBytes 4 r.mask.toNat ++
    leBytes 4 r.pmask.toNat ++ leBytes 4 r.aspace ++ leBytes 2 r.queue ++ leBytes 2 0 ++ leBytes 8 r.block ++
    leBytes 8 clock ++ leBytes 4 0 ++ leBytes 4 0

/-- A record is written at WIDX and WIDX advances as a release; the vector is raised when WIDX leaves RIDX. -/
def State.ringWrite (s : State) (p : Partition) (r : FaultRec) : State :=
  let q := p.fqcb
  let i := p.fqWidx
  let idle := i == s.fqRidx q
  let vec := s.fqVec q
  let s := s.putBytes (s.ringSlot q i) (r.bytes s.now)
  let s := (s.modPart p.id fun p => { p with fqWidx := i + 1 }).putNat (q + 24) 8 (i + 1)
  let s := if idle then s.raiseVec 0 vec else s
  s.pulseSrc (some p.id) 2 r.traceOf

/-- A record of a kind other than 1: dropped, and counted in LOST, when the ring has no room for it (R369). -/
def State.record (s : State) (part : Nat) (r : FaultRec) : State :=
  match s.part? part with
  | none => s
  | some p =>
    if !s.ringRoom part r.die p.fqcb p.fqWidx then
      ((s.ringDrop part r.die p.fqcb p.fqWidx).modPart part fun p => { p with fqLost := p.fqLost + 1 }).putNat (p.fqcb + 40) 8 (p.fqLost + 1)
    else s.ringWrite p r

/-- The records of kind 1 that wait for room are written, oldest first, while there is room. -/
def State.flushRecs (part : Nat) : List PendRec → State → List PendRec × State
  | [], s => ([], s)
  | r :: rest, s =>
    match s.part? part with
    | none => (r :: rest, s)
    | some p =>
      if r.part = part ∧ r.idx = none ∧ s.ringRoom part r.record.die p.fqcb p.fqWidx then
        let (l, s') := flushRecs part rest (s.ringWrite p r.record)
        ({ r with idx := some p.fqWidx } :: l, s')
      else
        let (l, s') := flushRecs part rest s
        (r :: l, s')
/-- R369: records of kind 1 wait for room, in their order. -/
def State.recordRoom (s : State) (part : Nat) : State :=
  let (l, s') := State.flushRecs part s.recs s
  { s' with recs := l }

/-- A record of kind 1 of an agent, and its number. -/
def State.recordMiss (s : State) (part : Nat) (r : FaultRec) (who : AgentId) : Nat × State :=
  let uid := s.uid
  let k : PendRec := ⟨uid, part, r, who, none, 0⟩
  let s := { s with uid := uid + 1, recs := s.recs ++ [k] }
  (uid, s.recordRoom part)

/-- FLAGS of a record (Table 33.3). -/
def recFlags (stream handler write fetch undelivered : Bool) : BitVec 8 :=
  BitVec.ofNat 8 ((if stream then 1 else 0) + (if handler then 2 else 0) + (if write then 4 else 0) +
    (if fetch then 8 else 0) + (if undelivered then 16 else 0))

/-- A record about a path of a group. -/
def State.pathRec (s : State) (g : Group) (p : Path) (slot : Bool) (kind : Nat) (cause flags : BitVec 8) (faddr : Word)
    (mask : Mask) : FaultRec :=
  let b := s.blk? g.blk
  { kind := kind, cause := cause, die := g.core / 72, flags := flags, core := g.core, grp := g.grp,
    slot := if slot then 1 else 0, pc := p.pc.toNat, faddr := faddr, mask := mask, pmask := p.pmask,
    aspace := (b.map Block.aspace).getD 0, queue := (b.map Block.queue).getD 0, block := (b.map Block.recNo).getD 0
    act := p.mask, again := p.kind == .replay }

/-! ### Holds and freezes (R406 to R408) -/

/-- Whether two blocks belong to one launch. -/
def sameLaunch (a b : Block) : Bool :=
  a.id == b.id || (match a.launch?, b.launch? with | some x, some y => x == y | _, _ => false)
/-- Whether a group holds a path. -/
def Group.anyHeld (g : Group) : Bool :=
  [g.slot0, g.slot1, g.saved0, g.saved1].any fun p => match p with | some p => p.held | none => false
/-- The launch of a block is frozen from now, if it is not yet. -/
def State.freeze (s : State) (b : Block) : State :=
  { s with blocks := updWhere s.blocks (sameLaunch b) fun k => { k with frozenAt := some (k.frozenAt.getD s.now) } }
/-- A limit falls later by the frozen time. -/
def Wait.later (dt : Nat) : Wait → Wait
  | .bar w => .bar { w with deadline := w.deadline.map (· + dt) }
  | .prom w => .prom { w with deadline := w.deadline.map (· + dt) }
  | w => w
/-- A group thaws at clock `now` after a freeze from `t`: its limits fall later, and its save budget did not count from the
freeze, or from the handler's first issue in it (R378, R408). -/
def Group.thaw (t now : Nat) (g : Group) : Group :=
  let f (p : Path) : Path := { p with wait := p.wait.later (now - t) }
  let held := match g.saveFrom with | some c => now - max t c | none => 0
  { g with slot0 := g.slot0.map f, slot1 := g.slot1.map f, saveFrozen := g.saveFrozen + held }
/-- The launch of a block thaws when no path of it is held. -/
def State.thaw (s : State) (b : Block) : State :=
  let bs := s.blocks.filter (sameLaunch b)
  if s.allGroups.any fun g => bs.any (fun k => k.id == g.blk) && g.anyHeld then s
  else
    let s := bs.foldl (fun s k =>
      match k.frozenAt with
      | some t => s.modGroups (fun g => g.blk == k.id && g.st != .none) (Group.thaw t s.now)
      | none => s) s
    { s with blocks := updWhere s.blocks (sameLaunch b) fun k => { k with frozenAt := none } }

/-- A hold takes effect: the path is held, a record of kind 2 is written, the launch is frozen. -/
def State.hold (s : State) (blk grp : Nat) (slot : Bool) (cause : Nat) (value : Word) (brk : Bool) : State :=
  match s.grp? blk grp with
  | none => s
  | some g =>
    match g.slot slot with
    | none => s
    | some p =>
      if p.held then s
      else
        let s := s.modGrp blk grp fun g =>
          g.modSlot slot fun p => { p with held := true, heldBrk := brk, stopReq := none }
        let r := s.pathTrace g p slot 2 cause 0 value
        let s := (s.trace g.pid r).pulseSrc (some g.pid) 1 r
        match s.blk? blk with
        | some b => s.freeze b
        | none => s

/-- The held path of a slot, or the one that has left the slot for a save (R407), with whether it has. -/
def Group.heldIn (g : Group) (b : Bool) : Option (Path × Bool) :=
  match g.slot b, (if b then g.saved1 else g.saved0) with
  | some p, q => if p.held then some (p, false) else q.bind fun q => if q.held then some (q, true) else none
  | none, q => q.bind fun q => if q.held then some (q, true) else none
/-- Changing a path that has left its slot. -/
def Group.modSaved (g : Group) (b : Bool) (f : Path → Path) : Group :=
  if b then { g with saved1 := g.saved1.map f } else { g with saved0 := g.saved0.map f }

/-- The release of a held path: a record of kind 3; it resumes at its PC, or at PC + 16 after a BRK; a saved path does
so when its group resumes. -/
def State.unhold (s : State) (blk grp : Nat) (slot : Bool) (flags : Nat) : State :=
  match s.grp? blk grp with
  | none => s
  | some g =>
    match g.heldIn slot with
    | none => s
    | some (p, away) =>
        let r := s.pathTrace g p slot 3 0 flags 0
        let s := (s.trace g.pid r).pulseSrc (some g.pid) 1 r
        let free (q : Path) : Path := { q with held := false, heldBrk := away && q.heldBrk, pass := !q.heldBrk }
        let s := s.modGrp blk grp fun g =>
          let g := if away then g.modSaved slot free else g.modSlot slot free
          if p.heldBrk && !away then (g.modSlot slot fun q => { q with pc := q.pc + 16 }).arrive s.now slot else g
        match s.blk? blk with
        | some b => s.thaw b
        | none => s

/-- The holds of paths of a group, each with its slot, end with a record of kind 3. -/
def State.endHoldsOf (s : State) (g : Group) (flags : Nat) (ps : List (Bool × Option Path)) : State :=
  ps.foldl (fun s e =>
    match e.2 with
    | some p =>
      if p.held then
        let r := s.pathTrace g p e.1 3 0 flags 0
        (s.trace g.pid r).pulseSrc (some g.pid) 1 r
      else s
    | none => s) s
/-- Every hold of a block ends (R407: kill, discard), those of paths that have left their slots for a save among them. -/
def State.endHolds (s : State) (id flags : Nat) : State :=
  (s.allGroups.filter fun g => g.blk == id && g.st != .none).foldl (fun s g =>
    s.endHoldsOf g flags [(false, g.slot0), (true, g.slot1), (false, g.saved0), (true, g.saved1)]) s

/-! ### Lane-cycle counts (R409, R410) -/

/-- Lanes in a mask. -/
def popMask (m : Mask) : Nat := (lanes m).length
/-- Adding to a counter of 48 bits that saturates. -/
def addSat (c : Store Word) (k n : Nat) : Store Word :=
  sput 0 c k (BitVec.ofNat 64 (min (2 ^ 48 - 1) ((sget 0 c k).toNat + n)))
/-- The five classes of an issue: active, masked, predicated off, absent, idle. -/
def Group.laneClasses (g : Group) (p : Path) (act : Mask) : List Nat :=
  let active := popMask act
  let off := popMask (p.mask &&& ~~~act)
  let masked := popMask (g.present &&& ~~~p.mask)
  let absent := popMask (~~~g.all)
  [active, masked, off, absent, 32 - active - off - masked - absent]
/-- The idle lane-cycles of a partition's empty slots in the dt clocks that end now. -/
def State.idleSlots (s : State) (cp dt : Nat) : Nat :=
  let u := sget Units.idle s.units cp
  64 * dt - (if u.clock + dt = s.now then 32 * u.issues else 0)
/-- The slots in which nothing issues, over the dt clocks that end now: in every partition of the dies of a profiled hard
partition each clock has two slots of 32 lane-cycles, and the issues of the first of these clocks took theirs
(DEDUCED, log entry 29). -/
def State.countIdle (s : State) (dt : Nat) : State :=
  let on := s.parts.filter fun p => s.dev.sessions.any fun k => k.spec.part == p.id && k.spec.profiling && !k.suspended
  let cps := on.flatMap fun p => p.dies.flatMap fun d => (List.range 576).map fun k => 576 * d + k
  { s with dev := { s.dev with lcrtot := cps.foldl (fun c cp => addSat c (5 * cp + 4) (s.idleSlots cp dt)) s.dev.lcrtot } }
/-- The event counters of partitions with a session that is not suspended: which events a number names, and how many of
them a step brings, is free (R413; DESIGN CHOICE, log entry 31). -/
def State.countEvents (s : State) : State :=
  let on := s.parts.filter fun p => s.dev.sessions.any fun k => k.spec.part == p.id && !k.suspended
  let counts (k : Nat) : Bool := fld (sget 0 s.dev.evsel k) 0 16 != 0 && !(sget 0 s.dev.evcnt k).getLsbD 63
  match on.flatMap fun p => ((List.range 8).map fun n => 8 * p.id + n).filter counts with
  | [] => s
  | ks =>
    let more (k : Nat) : Nat := Config.events (BitVec.ofNat 16 (fld (sget 0 s.dev.evsel k) 0 16)) (k / 8) s.freeCtr
    let add (t : Store Word) (k : Nat) : Store Word :=
      sput 0 t k (setFld (sget 0 t k) 0 48 (min (2 ^ 48 - 1) (fld (sget 0 t k) 0 48 + more k)))
    { s with freeCtr := s.freeCtr + 1, dev := { s.dev with evcnt := ks.foldl add s.dev.evcnt } }
/-- An issue is counted in the partition's totals and in every enabled bin it matches, under a profiling session of its hard
partition. -/
def State.countIssue (s : State) (p : Path) (act : Mask) : State :=
  match s.blk? s.grp.blk with
  | none => s
  | some b =>
    if !(s.dev.sessions.any fun k => k.spec.part == b.pid && k.spec.profiling && !k.suspended) then s
    else
      let cp := 8 * s.grp.core + s.grp.part
      let cls := s.grp.laneClasses p act
      let hit (n : Nat) : Bool :=
        let lo := sget 0 s.dev.binlo (16 * cp + n)
        let hi := sget 0 s.dev.binhi (16 * cp + n)
        let as_ := sget 0 s.dev.binas (16 * cp + n)
        lo.getLsbD 63 && fld lo 4 52 ≤ fld (p.pc.setWidth 64) 4 52 && fld (p.pc.setWidth 64) 4 52 ≤ fld hi 4 52 &&
          fld as_ 0 32 == b.aspace
      let add (base : Nat) (c : Store Word) : Store Word :=
        (List.range 5).foldl (fun c k => addSat c (base + k) (cls.getD k 0)) c
      let bins := (List.range 16).filter hit
      { s with dev := { s.dev with
          lcrtot := add (5 * cp) s.dev.lcrtot
          bincnt := bins.foldl (fun c n => add (5 * (16 * cp + n)) c) s.dev.bincnt } }

end Sys2Proof.Machine
end

