-- ==== Sys2Proof/Machine/Ops.lean ====
section
/-! DEFINITION. Operations every meaning shares: where an access in .glb or .lan lands (R182, R51), the end and the kill of groups (R334, R368), taking an exception and returning from it (R365, R58, R138), missing translations (R371), issue, results and the move to the next instruction. -/
namespace Sys2Proof.Machine

/-! ### Waiter entries (R276) -/

/-- The waiter list a pend word names: die, index and W (Table 23.2). -/
def pendHead (x : Word) : Option (Nat × Nat) := if x.getLsbD 33 then some (fld x 50 2, fld x 34 16) else none
/-- A pend payload with its list replaced. -/
def pendWith (x : Word) (h : Option (Nat × Nat)) : Word :=
  match h with
  | some (d, i) => setFld (setFld (setFld x 50 2 d) 34 16 i) 33 1 1
  | none => setFld (setFld (setFld x 50 2 0) 34 16 0) 33 1 0

/-- One waiter entry leaves its list and is freed (R277). -/
def State.freeWaiter (s : State) (w : Waiter) : State :=
  let x := s.peek w.root
  let s :=
    if x.tag == .pend && pendHead x.pay == some (w.die, w.idx) then
      s.regWord none w.root ⟨.pend, pendWith x.pay w.next⟩
    else { s with waiters := updWhere s.waiters (fun k => k.next == some (w.die, w.idx)) fun k => { k with next := w.next } }
  { s with waiters := s.waiters.filter fun k => !(k.die == w.die && k.idx == w.idx) }
/-- The entries of the waiters that satisfy q are freed, each as its list stands when it goes. -/
def State.freeWaiters (s : State) (q : Waiter → Bool) : State :=
  (s.waiters.filter q).foldl (fun s w =>
    match s.waiters.find? fun k => k.die == w.die && k.idx == w.idx with
    | some k => s.freeWaiter k
    | none => s) s

/-! ### Energy accounts (R359, R360) -/

/-- The region block that effective values are those of. -/
def Eff.own (e : Eff) : Nat := e.chain.headD 0
/-- Charge and estimates of a launch-level account. -/
def addSub (own charge more less : Nat) : List SubAccount → List SubAccount
  | [] => [⟨own, charge, more - less⟩]
  | x :: r =>
    if x.rcb = own then { x with charge := x.charge + charge, pending := x.pending + more - less } :: r
    else x :: addSub own charge more less r
/-- A job's account is charged, and its estimates rise and fall. -/
def Job.adjust (j : Job) (own charge more less : Nat) : Job :=
  { j with
    charge := j.charge + charge, pending := j.pending + more - less
    subs := if own = j.rcb then j.subs else addSub own charge more less j.subs }
/-- The same for the account of work of a region block of a job. -/
def State.account (s : State) (pid job own charge more less : Nat) : State :=
  { s with jobs := updWhere s.jobs (fun j => j.pid == pid && j.rcb == job) fun j => j.adjust own charge more less }
/-- What is charged is no longer estimated: the estimates of the account's blocks fall by it, the first block's first. -/
def takeEst (pid job own : Nat) : Nat → List Block → List Block
  | _, [] => []
  | e, b :: r =>
    if b.pid = pid ∧ b.eff.job = job ∧ b.eff.own = own then
      { b with est := b.est - e } :: takeEst pid job own (e - b.est) r
    else b :: takeEst pid job own e r
/-- Energy is charged to the work of a region block of a job (R359; DESIGN CHOICE, log entry 32). -/
def State.charge (s : State) (pid job own e : Nat) : State :=
  let was := (s.blocks.map Block.est).sum
  let s := { s with blocks := takeEst pid job own e s.blocks }
  s.account pid job own e 0 (was - (s.blocks.map Block.est).sum)

/-! ### The end of a group and the kill of a block (R334, R368) -/

/-- R334: the slots a group holds reserved become void. -/
def State.voidReserved (s : State) (blk grp : Nat) : State :=
  let void (e : Nat × QSlot) : Nat × QSlot :=
    if e.2.st = .reserved ∧ e.2.owner = some (blk, grp) then (e.1, { e.2 with st := .void, owner := none }) else e
  { s with nodes := s.nodes.map fun n => { n with slots := n.slots.map void } }

/-- Whether an agent is a path or the stream of a block. -/
def ofBlock (w : AgentId) (id : Nat) : Bool :=
  match w with
  | .path b _ _ | .stream b => b == id
  | .engine _ | .caller _ | .packet _ _ => false
/-- A group stops for good: no path, nothing waiting (R368 step 1). -/
def Group.stop (g : Group) : Group :=
  { g with
    st := .ended, present := 0, slot0 := none, slot1 := none, saved0 := none, saved1 := none, stack := [], under := []
    frames := [], pend := [] }

/-- R368 steps 1 and 2: the block's groups and stream stop, waits end, reservations become void, and the record
waits for the engines and stores (BLOCK_END). -/
def State.stopBlock (s : State) (id : Nat) (r : FaultRec) : State :=
  match s.blk? id with
  | none => s
  | some b =>
    if b.killRec.isSome || b.st == .ended then s
    else
      let gs := (s.allGroups.filter fun g => g.blk == id && g.st != .none).map Group.grp
      let s := s.freeWaiters fun w => w.blk == id
      let s := gs.foldl (fun s n => s.voidReserved id n) s
      let s := { s with recs := s.recs.filter fun k => !ofBlock k.who id }
      let s := s.endHolds id 4
      let s := s.modGroups (fun g => g.blk == id && g.st != .none) Group.stop
      let s := s.modBlk id fun b => { b with killRec := some r, stream := b.stream.map fun t => { t with stopped := true, wait := .none } }
      s.thaw b

/-- A record of kind 2 that names no path. -/
def blockRec (b : Block) (cause : BitVec 8) : FaultRec :=
  let core := b.cores.headD 0
  { kind := 2, cause := cause, die := core / 72, flags := 0, core := core, grp := 0, slot := 0xFF, pc := 0, faddr := 0,
    mask := 0, pmask := 0, aspace := b.aspace, queue := b.queue, block := b.recNo }

/-- Launches place no further block, and the estimates of those that were admitted and not placed count no more (R360). -/
def State.haltLaunches (s : State) (ls : List Nat) : State :=
  let gone := s.launches.filter fun l => ls.contains l.id
  let s := gone.foldl (fun s l => s.account l.pid l.eff.job l.eff.own 0 0 l.ests.sum) s
  { s with launches := updWhere s.launches (fun l => ls.contains l.id) fun l => { l with halted := true, ests := [] } }
/-- R368: a block is killed, with every running block of its job in the same fault domain. -/
def State.killBlock (s : State) (id : Nat) (r : FaultRec) : State :=
  match s.blk? id with
  | none => s
  | some b =>
    let s1 := s.stopBlock id r
    if b.eff.fdom = 0 then s1
    else
      let mates := s.blocks.filter fun k =>
        k.pid == b.pid && k.eff.job == b.eff.job && k.eff.fdom == b.eff.fdom && k.st != .ended
      let s2 := mates.foldl (fun s k => s.stopBlock k.id (blockRec k 0x0D)) s1
      s2.haltLaunches ((b :: mates).filterMap Block.launch?)

/-! ### The issuing path -/

/-- The issuing path and its slot. -/
def State.cur (s : State) : Option (Bool × Path) :=
  match s.who with
  | .path b => (s.grp.slot b).map fun p => (b, p)
  | .idle | .stream _ => none
/-- R196 for the issuing path: its core self-invalidates. -/
def State.acquireMe (s : State) (p : Path) : State := s.acquireFor s.grp.core s.grp.blk s.grp.grp p.mask
/-- Changing the issuing group. -/
def State.setGrp (s : State) (f : Group → Group) : State := { s with grp := f s.grp }
/-- Whether the issuing path runs in user mode. -/
def Path.user (p : Path) : Bool := p.mode == .user
/-- Who the issuing path is, as a writer. -/
def State.me (s : State) (p : Path) : Writer := ⟨s.grp.core, s.grp.blk, s.grp.grp, p.mask⟩

/-- The path in a slot goes on at pc + 16 and may arrive (R60). -/
def Group.next (g : Group) (now : Nat) (b : Bool) : Group :=
  let go (p : Path) : Path :=
    { p with
      pc := p.pc + 16, wait := .none, redo := none, kind := if p.hl then .handler else .normal, owes := [], owes2 := false
      owesCtr := none }
  (g.modSlot b go).arrive now b
/-- The issuing path goes on at pc + 16. -/
def State.next (s : State) (b : Bool) : State := s.setGrp fun g => g.next (s.now + 1) b

/-! ### Where an access in .glb or .lan lands -/

/-- A bound queue. -/
def State.queue? (s : State) (q : Nat) : Option Queue := s.queues.find? fun k => k.id == q
/-- A read of n bytes at an offset of a queue's doorbell page: offset 0 holds WIDX, the rest reads 0. -/
def State.doorbell (s : State) (q off n : Nat) : Nat :=
  match s.queue? q with
  | some k => if off < 8 then k.widx / 2 ^ (8 * off) % 2 ^ (8 * n) else 0
  | none => 0
/-- The address space of the issuing group. -/
def State.myAspace (s : State) : Nat := ((s.blk? s.grp.blk).map Block.aspace).getD 0
/-- Where a lane's access lands: physical memory through a leaf, byte k of a group's path stack (R51), or a byte of a
scratchpad. -/
inductive Home where
  | glb (pa : Nat) (pte : Word)
  | stack (g : Nat × Nat) (pa k : Nat)
  | bank (b : Bank) (a : Nat)
  deriving DecidableEq, Repr
/-- What looking for it finds. -/
inductive Found where
  | home (h : Home)
  | missing
  | fault (cause : BitVec 8)
  deriving DecidableEq, Repr
/-- The byte of the path stack that a virtual address names, when it lies in the group's stack area (R51, R177). -/
def stackByte (g : Group) (va : Nat) : Option Nat :=
  if va < g.lanBase ∨ g.lanBase + 32 * g.lanSize ≤ va then none
  else
    let k := va - g.lanBase
    let o := k / 256 * 8 + k % 8
    let l := k % 256 / 8
    if g.lanSize ≤ o + 64 then some (64 * l + (o + 64 - g.lanSize)) else none
/-- The group of an address space whose stack area holds a virtual address, and the byte of its stack; the issuing group is
looked at first (R51, R177). -/
def State.stackAt (s : State) (aspace va : Nat) : Option ((Nat × Nat) × Nat) :=
  s.allGroups.findSome? fun g =>
    if g.st == .ended || ((s.blk? g.blk).map Block.aspace).getD 0 != aspace then none
    else (stackByte g va).map fun k => ((g.blk, g.grp), k)
/-- Where an access of an address space lands that translation has admitted: in physical memory, or in a stack area, which only reads
that may reach it do (R51, R177). -/
def State.onStack (s : State) (aspace va pa : Nat) (pte : Word) (may : Bool) : Found :=
  match s.stackAt aspace va with
  | none => .home (.glb pa pte)
  | some (g, k) => if may then .home (.stack g pa k) else .fault 0x05
/-- Where a .glb or .lan access of the issuing path lands (R182, R177, R51); a request that a closed link drops takes 0x05
(R385) (DEDUCED, log entry 27). -/
def State.locateGlb (s : State) (p : Path) (lan : Bool) (need : Need) (va : Nat) : Found × State :=
  match s.translate s.grp.core s.myAspace va with
  | (.missing, s) => (.missing, s)
  | (.malformed, s) => (.fault 0x06, s)
  | (.dropped _, s) => (.fault 0x05, s)
  | (.leaf pte size, s) =>
    let pa := leafPA pte size va
    if refused pte need (p.user && !lan) || (lan && !pteTag pte) then (.fault 0x05, s)
    else if !s.reaches s.grp.core pa then (.fault 0x05, s.dropFrom (s.physDie (s.grp.core / 72)) pa)
    else (s.onStack s.myAspace va pa pte (!p.user && need != .write), s)
/-- The word of a group's path stack that holds byte k. An entry beyond DEPTH, which holds no entry, reads 0 (DESIGN CHOICE,
log entry 23). -/
def State.stackWord (s : State) (g : Nat × Nat) (k : Nat) : Val :=
  match s.grp? g.1 g.2 with
  | some x => .raw (BitVec.ofNat 64 (leNat ((x.stackBytes.drop (k / 8 * 8)).take 8)))
  | none => .raw 0
/-- The word that a load of the issuing path reads: what it has read ahead of its issue (R206), else the word as it stands
now (R187, R205, R209). On a page of MT 2 the access goes to its target with no cache, after the path's own stores. -/
def State.readHome (s : State) (me : Writer) (h : Home) : Val × State :=
  match h with
  | .glb pa pte =>
    if pteMT pte = 2 then
      match rangeOf pa with
      | .doorbell q => (.raw (BitVec.ofNat 64 (s.doorbell q (pa % 0x10000 / 8 * 8) 8)), s)
      | _ =>
        let s := (s.drainFor (some me) (pa / 8)).dropCopy me.core (pa / 8)
        (s.peek (pa / 8), s)
    else
      match s.earlyVal me 0 (pa / 8) with
      | some x => (x, s)
      | none => s.loadWord me (pa / 8)
  | .stack g _ k => (s.stackWord g k, s)
  | .bank b a =>
    match s.earlyVal me (match b with | .spd => 2 | .chp => 3) (a / 8) with
    | some x => (x, s)
    | none =>
      let s := s.drainFor (some me) (bankKey b (a / 8))
      (s.bankWord b (a / 8), s)

/-! ### Frames and staging (R135 to R137) -/

/-- The interface of a fault that arose in the fetch. -/
def Face.none : Face := ⟨0, 0, 0, 0, (0, 0), false, true⟩
/-- Instructions whose access is a write (Table 33.3, WRITE). -/
def isWriter : Instr → Bool
  | .st .. | .atom .. | .red .. | .casw .. | .fwdcas .. | .pinit .. | .pfill .. | .peq .. | .barinit .. | .bararr ..
  | .bartx .. => true
  | _ => false
/-- Instructions whose destination is a status and a value, of which only the value is left to a handler (R275). -/
def isPair : Instr → Bool
  | .pwait .. | .pget .. => true
  | _ => false
/-- The second register of a pair, as a value operand. -/
def hdstSecond (d : Nat × Nat) : Nat × Nat := (1, d.2 + 1)
/-- The interface of an instruction as the issuing group stands (DEDUCED, log entry 22). -/
def faceOf (s : State) (i : Instr) : Face :=
  match encodeFields i with
  | none => .none
  | some f =>
    let u := usesOf i
    ⟨hopOf f, hsOf s.grp f.ix u.a, hsbOf s.grp f u.b, hsOf s.grp f.ix u.c,
      if isPair i then hdstSecond (hdstOf s.grp f.ix u.d) else hdstOf s.grp f.ix u.d, isWriter i, false⟩

/-- A frame; REG is the staging base, NONE is set in a trap frame and where there is no destination. -/
def Face.frame (k : Face) (trap : Bool) (cause faddr tcode : Word) (sbase : Nat) (pc : BitVec 56) : Frame where
  joinNo := 0
  trap := trap
  cause := cause
  faddr := faddr
  tcode := tcode
  hop := k.hop
  hsa := k.hsa
  hsb := k.hsb
  hsc := k.hsc
  hdst := hdstWord k.dst
  hres := BitVec.ofNat 64 ((if trap || k.dst.1 == 0 then 0x8000 else 0) + sbase)
  hpc := pc.setWidth 64

/-- The code address of a register that holds bits 55:4. -/
def codeAddr (w : Word) : BitVec 56 := (w.setWidth 56) &&& ~~~(0xF : BitVec 56)

/-! ### Taking an exception (R364 to R367) -/

/-- The numbers of the records that the saved paths of a group wait for. -/
def Group.savedRecs (g : Group) : List Nat :=
  [g.saved0, g.saved1].flatMap fun p =>
    match p.map Path.wait with
    | some (.records l) => l.map Prod.fst
    | _ => []
/-- A save handler or restore path stops: its writes take effect, its waiter entries and records go, a hold of it ends with a
record of kind 3 and a thaw (R407, R408), and its group is in another state. -/
def State.leaveHandler (s : State) (blk grp : Nat) (st : GroupSt) : State :=
  let s := match s.grp? blk grp with
    | some g => s.endHoldsOf g 0 [(false, g.slot0), (true, g.slot1)]
    | none => s
  let s := (s.freeWaiters fun w => w.blk == blk && w.grp == grp).renew blk grp 0xFFFFFFFF
  let keep := ((s.grp? blk grp).map Group.savedRecs).getD []
  let own (w : AgentId) : Bool := w == .path blk grp false || w == .path blk grp true
  let s := { s with recs := s.recs.filter fun k => !own k.who || keep.contains k.uid }
  let s := s.modGrp blk grp fun g =>
    { g.flushAll with st := st, slot0 := none, slot1 := none, stack := [], ld := 0, stc := 0, cp := 0, sy := 0 }
  match s.blk? blk with
  | some b => s.thaw b
  | none => s

/-- Whether a fault is that of a write access: the instruction's access is a write, and the address is that of its data. -/
def Face.writes (k : Face) (p : Path) (cause : BitVec 8) (faddr : Word) : Bool :=
  k.write && faddr != p.pc.setWidth 64 &&
    (cause == 0x03 || cause == 0x04 || cause == 0x05 || cause == 0x06 || cause == 0x08 || cause == 0x09)
/-- The same interface where the fault is that of a read of a dispatch entry. -/
def Face.reads (k : Face) : Face := { k with write := false }

/-- What a cause does to the issuing path when no trap is taken: a kill, or for a path of a save handler the forced full
save with a record of kind 9 (R59, R379, R381). -/
def State.handlerFault (s : State) (b : Bool) (p : Path) (k : Face) (cause : BitVec 8) (faddr : Word) : State :=
  let r := s.pathRec s.grp p b 2 0x0D (recFlags false true (k.writes p cause faddr) k.fetch false) faddr p.mask
  if s.grp.st == .saving then (s.record s.grp.pid { r with kind := 9 }).leaveHandler s.grp.blk s.grp.grp .forced
  else s.killBlock s.grp.blk r

/-- TAKING AN EXCEPTION: the runtime trap (R365) of the issuing path for the lanes T, or the kill that stands in
its place. `again` is the dispatch step of a generic opcode, where the other lanes execute the opcode anew. -/
def State.takeTrap (s : State) (k : Face) (cause : BitVec 8) (faddr tcode : Word) (T : Mask) (again : Bool) : State :=
  match s.cur with
  | none => s
  | some (b, p) =>
    if p.hl then s.handlerFault b p k cause faddr
    else
      let h := p.hl
      let kill (undelivered : Bool) : State :=
        s.killBlock s.grp.blk
          (s.pathRec s.grp p b 2 cause (recFlags false h (k.writes p cause faddr) k.fetch undelivered) faddr T)
      let vec := codeAddr s.grp.trapvec
      if vec = (0 : BitVec 56) then kill false
      else
        let frame := k.frame true (cause.setWidth 64) faddr tcode 0 p.pc
        let rest := p.mask &&& ~~~T
        let here := if again then p.pc else p.pc + 16
        let cs := ⟨vec, T, some (.runtime, frame)⟩ :: (if rest = (0 : Mask) then [] else [⟨here, rest, none⟩])
        match s.grp.split (s.now + 1) b p (p.pc + 16) cs with
        | none => kill true
        | some g => { s with grp := { g with fcause := cause.setWidth 64, faddr := faddr, tcode := tcode } }

/-- A fault of the issuing path at its instruction, for the lanes T (R365). -/
def State.trap (s : State) (i : Instr) (cause : BitVec 8) (faddr : Word) (T : Mask) : State :=
  s.takeTrap (faceOf s i) cause faddr 0 T false
/-- A fault whose address is that of the instruction, for the whole path (R99). -/
def State.trapHere (s : State) (i : Instr) (cause : BitVec 8) : State :=
  match s.cur with
  | none => s
  | some (_, p) => s.trap i cause (p.pc.setWidth 64) p.mask

/-! ### Returning from an exception (R59, R138) -/

/-- The result a handler returns (R138). -/
def Group.handlerResult (g : Group) (p : Path) (f : Frame) : List RegWrite :=
  let reg := fld f.hres 0 9
  let kind := fld f.hdst 10 2
  let num := fld f.hdst 0 10
  if f.hres.getLsbD 15 then []
  else
    match kind with
    | 1 =>
      if num < 320 then (lanes p.mask).map fun l => .v num l (g.vr reg l)
      else match lowest p.mask with
        | some l => [.g (num - 320) (g.vr reg l)]
        | none => []
    | 2 => (lanes p.mask).map fun l => .p num l (g.vr reg l == Val.bool true)
    | 3 => (lanes p.mask).flatMap fun l => [.v num l (g.vr reg l), .v (num + 1) l (g.vr (reg + 1) l)]
    | _ => []

/-- The registers that a TRET of a path reads and those it writes, by its frame (R138). -/
def Group.retNames (g : Group) (p : Path) : List RegName × List RegName :=
  match g.frameOf p with
  | none => ([], [])
  | some f =>
    let reg := fld f.hres 0 9
    let num := fld f.hdst 0 10
    if f.hres.getLsbD 15 then ([], [])
    else
      match fld f.hdst 10 2 with
      | 1 => ([.v reg], [if num < 320 then .v num else .g (num - 320)])
      | 2 => ([.v reg], [.p num])
      | 3 => ([.v reg, .v (reg + 1)], [.v num, .v (num + 1)])
      | _ => ([], [])

/-- RETURNING FROM AN EXCEPTION: TRET of the path in slot b (R59, R138); none where it is an illegal context. -/
def Group.ret (g : Group) (now : Nat) (b : Bool) : Option Group :=
  match g.slot b with
  | none => none
  | some p =>
    match p.joinNo with
    | none => none
    | some n =>
      match findJoin n g.stack with
      | none => none
      | some j =>
        if p.kind = .handler ∧ j.hj then
          let g := g.flushFixed p.mask
          let g := match g.frameOf p with
            | some f => g.wrs (g.handlerResult p f)
            | none => g
          some ((g.modSlot b fun p => { p with pc := p.joinPc }).arrive now b)
        else none

/-! ### Missing translations (R371) -/

/-- One record for each distinct missing 64 KiB page: page, lowest address, lanes, whether a write. -/
def addMiss (l : List (Nat × Nat × Mask × Bool)) (va lane : Nat) (write : Bool) : List (Nat × Nat × Mask × Bool) :=
  match l with
  | [] => [(va / 0x10000, va, laneBit lane, write)]
  | (pg, a, m, w) :: r =>
    if pg = va / 0x10000 then (pg, a, m ||| laneBit lane, w || write) :: r else (pg, a, m, w) :: addMiss r va lane write

/-- The records of a path's missing pages. -/
def State.missAll (b : Bool) (p : Path) (fetch : Bool) : List (Nat × Nat × Mask × Bool) → State → List (Nat × Mask) × State
  | [], s => ([], s)
  | (_, va, m, w) :: r, s =>
    let rec_ := s.pathRec s.grp p b 1 0 (recFlags false p.hl w fetch false) (BitVec.ofNat 64 va) m
    let (uid, s) := s.recordMiss s.grp.pid rec_ (.path s.grp.blk s.grp.grp b)
    let (l, s) := State.missAll b p fetch r s
    ((uid, m) :: l, s)

/-- The issuing path goes to kind replay and waits for its records (R63). -/
def State.replay (s : State) (b : Bool) (redo : Redo) (miss : List (Nat × Nat × Mask × Bool)) (fetch : Bool) : State :=
  match s.grp.slot b with
  | none => s
  | some p =>
    let p := { p with kind := .replay, redo := some redo }
    let (l, s) := State.missAll b p fetch miss s
    s.setGrp fun g => g.setSlot b (some { p with wait := .records l })

/-! ### Classes raised after an instruction (R58, R131 to R134) -/

/-- A dispatch entry as read. -/
inductive Entry where
  | word (w : Word)
  | missing (va : Nat)
  | fault (cause : BitVec 8) (va : Nat)
  deriving DecidableEq, Repr

/-- The virtual address of an entry (R131, R133), modulo 2^64 as every address (R185). -/
def entryVA (g : Group) (cls tagA tagB : Nat) : Nat :=
  ((g.dispatch.toNat / 8 * 8) + 8 * (cls * 256 + tagA * 16 + tagB)) % 2 ^ 64

/-- Reading a dispatch entry: an ordinary 8-byte .glb load by the issuing path, tags ignored (R133, R185). -/
def State.readEntry (s : State) (p : Path) (va : Nat) : Entry × State :=
  if 2 ^ 56 ≤ va then (.fault 0x05 va, s)
  else
    match s.locateGlb p false .read va with
    | (.missing, s) => (.missing va, s)
    | (.fault c, s) => (.fault c va, s)
    | (.home h, s) =>
      let (x, s) := s.readHome (s.me p) h
      (.word x.pay, s)

/-- A class with its entry: handler address, mode, staging base; or the fault its lanes take. -/
inductive Target where
  | go (addr : BitVec 56) (mode : Mode) (sbase : Nat)
  | fault (cause : BitVec 8) (faddr : Word)
  deriving DecidableEq, Repr

/-- R132: the entry of a lane. -/
def entryTarget (g : Group) (p : Path) (e : Entry) : Target :=
  match e with
  | .word w =>
    let addr := codeAddr w
    let sbase := fld w 56 8
    if addr = (0 : BitVec 56) ∨ fld w 1 3 ≠ 0 then .fault 0x0C (p.pc.setWidth 64)
    else if 16 * g.allot ≤ sbase + 3 then .fault 0x02 (p.pc.setWidth 64)
    else .go addr (if w.getLsbD 0 then .runtime else .user) sbase
  | .missing va => .fault 0x06 (BitVec.ofNat 64 va)
  | .fault c va => .fault c (BitVec.ofNat 64 va)

/-- Lanes, each with the number of a 64 KiB page whose record for them was resolved unmappable (R371). -/
abbrev Dead := List (Mask × Nat)
/-- Whether the record of a lane for the page of an address was resolved unmappable: the lane stops there with 0x06, though the page
may have become valid since (R371 step 4). -/
def Dead.at (d : Dead) (l va : Nat) : Bool := d.any fun e => e.1.getLsbD l && e.2 == va / 0x10000
/-- What the instruction of a path that replays has of such pages. -/
def Path.dead (p : Path) : Dead := match p.redo with | some r => r.bad | none => []

/-- Reading the entries of every lane concerned; one whose page was resolved unmappable is not read again. -/
def State.readEntries (p : Path) (dead : Dead) : List Raise → State → List (Raise × Entry) × State
  | [], s => ([], s)
  | r :: rs, s =>
    let va := entryVA s.grp r.cls r.tagA r.tagB
    let (e, s) := if dead.at r.lane va then (.fault 0x06 va, s) else s.readEntry p va
    let (l, s) := State.readEntries p dead rs s
    ((r, e) :: l, s)

/-- A raised lane sorted to its entry. -/
structure Sorted where
  raise : Raise
  idx : Nat
  target : Target
  deriving DecidableEq, Repr
/-- Inserting by entry index, then lane. -/
def insSorted (x : Sorted) : List Sorted → List Sorted
  | [] => [x]
  | y :: r => if x.idx < y.idx then x :: y :: r else y :: insSorted x r

/-- A handler child in the making: address, mode, staging base, lanes with their staging. -/
structure HChild where
  addr : BitVec 56
  mode : Mode
  sbase : Nat
  lanes : List Sorted
  deriving DecidableEq, Repr

/-- R134: lanes of one ADDR form one child, whose RT and SBASE are those of the lowest index; a lane that differs
takes 0x0C. -/
def addLane (pc : Word) (x : Sorted) : List HChild → List HChild × Option (Nat × BitVec 8 × Word)
  | [] =>
    match x.target with
    | .go a m b => ([⟨a, m, b, [x]⟩], none)
    | .fault c f => ([], some (x.raise.lane, c, f))
  | h :: r =>
    match x.target with
    | .go a m b =>
      if h.addr = a then
        if h.mode = m ∧ h.sbase = b then ({ h with lanes := h.lanes ++ [x] } :: r, none)
        else (h :: r, some (x.raise.lane, 0x0C, pc))
      else
        let (r', e) := addLane pc x r
        (h :: r', e)
    | .fault c f => (h :: r, some (x.raise.lane, c, f))

/-- The handler children of sorted lanes, and the lanes that fail with their causes. -/
def sortLanes (pc : Word) : List Sorted → List HChild → List (Nat × BitVec 8 × Word) →
    List HChild × List (Nat × BitVec 8 × Word)
  | [], hs, bad => (hs, bad)
  | x :: r, hs, bad =>
    match addLane pc x hs with
    | (hs', some e) => sortLanes pc r hs' (bad ++ [e])
    | (hs', none) => sortLanes pc r hs' bad

/-- The lowest-numbered failing lane. -/
def lowestBad : List (Nat × BitVec 8 × Word) → Option (Nat × BitVec 8 × Word)
  | [] => none
  | x :: r =>
    match lowestBad r with
    | some y => if y.1 < x.1 then some y else some x
    | none => some x

/-- Staging of a handler child's lanes (Table 11.7). -/
def HChild.staging (h : HChild) : List RegWrite :=
  h.lanes.flatMap fun x =>
    [.v h.sbase x.raise.lane x.raise.s0, .v (h.sbase + 1) x.raise.lane x.raise.s1,
     .v (h.sbase + 2) x.raise.lane x.raise.s2, .v (h.sbase + 3) x.raise.lane (.int (BitVec.ofNat 64 x.idx))]
/-- A handler child of a split. -/
def HChild.child (h : HChild) (k : Face) (pc : BitVec 56) : Child :=
  ⟨h.addr, maskOf (h.lanes.map fun x => x.raise.lane), some (h.mode, k.frame false 0 0 0 h.sbase pc)⟩

/-- Raised lanes with their entries, or the pages their entries miss (R133, R371). -/
def State.dispatch (s : State) (p : Path) (dead : Dead) (rs : List Raise) :
    (List (Nat × Nat × Mask × Bool) × List HChild × List (Nat × BitVec 8 × Word)) × State :=
  let (es, s) := State.readEntries p dead rs s
  let miss := es.foldl (fun l e => match e.2 with 
    | .missing va => addMiss l va e.1.lane false
    | .word _ | .fault _ _ => l) []
  let sorted := es.foldl (fun l e =>
    insSorted ⟨e.1, e.1.cls * 256 + e.1.tagA * 16 + e.1.tagB, entryTarget s.grp p e.2⟩ l) []
  let (hs, bad) := sortLanes (p.pc.setWidth 64) sorted [] []
  ((miss, hs, bad), s)

/-- Lanes that stopped, each with the one cause and address. -/
def stopped : Option (Mask × BitVec 8 × Word) → List (Nat × BitVec 8 × Word)
  | some (m, c, f) => (lanes m).map fun l => (l, c, f)
  | none => []

/-- Whether a pending completion holds results of the instruction that a path has issued and not finished. -/
def Path.made (p : Path) (k : Completion) : Bool := k.mask == p.mask && k.writes.all fun w => p.owes.contains w.reg
/-- The counter of a path's instruction stands again, though its results are pending or written: lanes that are still to be sent to
their handlers are not done (R79). `live` are the lanes that are neither raised nor stopped. -/
def Group.owe (g : Group) (p : Path) (live : Mask) : Group :=
  if live = 0 then g.raiseCtr p.owesCtr
  else
    match p.owesCtr, (g.pend.filter fun k => k.cnt == p.owesCtr && p.made k).getLast? with
    | some _, some k => { g with pend := insDue { k with cnt := none } (g.pend.erase k) }
    | _, _ => g
/-- The lanes have been sent: the counter falls with the results that are still pending, or at once (R79). -/
def Group.paid (g : Group) (p : Path) : Group :=
  match p.owesCtr, (g.pend.filter fun k => k.cnt.isNone && p.made k).getLast? with
  | some c, some k => { g with pend := insDue { k with cnt := some c } (g.pend.erase k) }
  | c, _ => g.lowerCtr c
/-- What a path that replays only the split of raised classes holds (R133). -/
def Path.raising (p : Path) : Option Redo :=
  match p.redo with
  | some r => if r.what = Replay.raise then some r else none
  | none => none

/-- R58: the lanes raised by an instruction that has executed go to their handlers; those whose entries fail, and
the lanes that stopped (R186 step 3), go to one trap child; the others go on past the instruction (DEDUCED, log entry 52). Where
the split finds no room and no lane has failed, the raised lanes take 0x0B and the others go on: the instruction has performed for
every lane, and the spec does not say which lanes the trap takes (DESIGN CHOICE, log entry 83). -/
def State.raiseClasses (s : State) (b : Bool) (k : Face) (act : Mask) (dead : Dead) (rs : List Raise)
    (stop : Option (Mask × BitVec 8 × Word)) : State :=
  match rs, stop with
  | [], none => s.next b
  | [], some (T, c, f) => s.takeTrap k c f 0 T false
  | _ :: _, _ =>
    match s.grp.slot b with
    | none => s
    | some p =>
      match s.dispatch p dead rs with
      | ((miss@(_ :: _), _, _), s) =>
        let live := act &&& ~~~(maskOf (rs.map Raise.lane) ||| ((stop.map Prod.fst).getD 0))
        let s := if p.raising.isSome then s else s.setGrp fun g => g.owe p live
        s.replay b
          { what := .raise, active := act, pmask := p.mask &&& ~~~maskOf (rs.map Raise.lane), bad := dead, got := [], raises := rs
            stop := stop, face := some k }
          miss false
      | (([], hs, entries), s) =>
        let s := if p.raising.isSome then s.setGrp fun g => g.paid p else s
        let bad := entries ++ stopped stop
        let T := maskOf (bad.map Prod.fst)
        let all := maskOf (rs.map Raise.lane) ||| T
        let rest := p.mask &&& ~~~all
        let past : List Child := if rest = (0 : Mask) then [] else [⟨p.pc + 16, rest, none⟩]
        let vec := codeAddr s.grp.trapvec
        match lowestBad bad with
        | none =>
          let cs := hs.map (fun h => h.child k p.pc) ++ past
          match ((s.grp.flushFixed p.mask).wrs (hs.flatMap HChild.staging)).split (s.now + 1) b p (p.pc + 16) cs with
          | some g => { s with grp := g }
          | none => s.takeTrap k 0x0B (p.pc.setWidth 64) 0 all false
        | some (l, cause, faddr) =>
          let face := if entries.any fun e => e.1 == l then k.reads else k
          if p.hl then s.handlerFault b p face cause faddr
          else
            let kill (u : Bool) : State :=
              s.killBlock s.grp.blk
                (s.pathRec s.grp p b 2 cause (recFlags false false (face.writes p cause faddr) false u) faddr T)
            if vec = (0 : BitVec 56) then kill false
            else
              let frame := k.frame true (cause.setWidth 64) faddr 0 0 p.pc
              let cs := hs.map (fun h => h.child k p.pc) ++ [⟨vec, T, some (.runtime, frame)⟩] ++ past
              match ((s.grp.flushFixed p.mask).wrs (hs.flatMap HChild.staging)).split (s.now + 1) b p (p.pc + 16) cs with
              | some g => { s with grp := { g with fcause := cause.setWidth 64, faddr := faddr, tcode := 0 } }
              | none => kill true

/-! ### Issue and results -/

/-- Latency classes (Table 7.3). -/
inductive Lat where
  | fixed (n : Nat)
  | variable
  deriving DecidableEq, Repr
def Lat.alu : Lat := .fixed 4
def Lat.f64 : Lat := .fixed 8
def Lat.sfu : Lat := .fixed 16


/-- The fault an instruction of runtime level takes in user mode (R119, R233, R270; MFS and MTS by register). -/
def modeFault : Instr → Option (BitVec 8)
  | .tlbiAll _ | .tlbiPage _ _ | .fwdcas .. | .proot .. => some 0x05
  | .mfs _ _ r => if r.runtimeOnly then some 0x05 else none
  | .mts _ _ r => if r.runtimeOnly then some 0x05 else if r.userReadOnly then some 0x01 else none
  | _ => none

/-- Whether an issue must wait for a pending write (R80): one of version 2 for any write to a register it touches, one of
version 1 for a write of a version 2 instruction to a register it reads. -/
def Completion.blocks (k : Completion) (touched read : List RegName) (v2 : Bool) : Bool :=
  (v2 && k.touches touched) || (k.v2 && k.touches read)
/-- The clock at which the pending writes that satisfy q are due. -/
def Group.dueOf (g : Group) (q : Completion → Bool) : Nat :=
  g.pend.foldl (fun m k => if q k then max m (k.due.getD 0) else m) 0
/-- R80: whether the instruction that the other slot's path has issued and not finished still owes a write that the issue
must wait for. -/
def Group.siblingOwes (g : Group) (b : Bool) (touched read : List RegName) (v2 : Bool) : Bool :=
  match g.slot (!b) with
  | some q =>
    (q.redo.isSome || q.wait != .none) &&
      ((v2 && q.owes.any fun r => touched.contains r) || (q.owes2 && q.owes.any fun r => read.contains r))
  | none => false

/-- R79: a held issue waits for the counter to fall: the oldest pending completion of the variable class ends, for it can end at any
time; one of a fixed latency ends when it is due. -/
def Group.lowerFirst (g : Group) (c : Option Ctr) : Group :=
  match g.pend.find? (fun (k : Completion) => k.cnt == c && k.due.isNone) with
  | some k => { g with pend := g.pend.erase k }.finish k
  | none => g

/-- Whether a counter is at its limit for a new issue (R79). -/
def Group.ctrFull (g : Group) (c : Option Ctr) : Bool :=
  match c with
  | some c => g.ctr c == 63
  | none => false

/-! ### The units of a partition (Table 1.1, R12) -/

/-- The unit that an instruction occupies. -/
inductive FUnit where
  | alu | port | f64 | sfu
  deriving DecidableEq, Repr
/-- Whether every source of a generic opcode is f64 in every lane, so that the f64 family executes it (R124). -/
def State.allF64 (s : State) (b : Bool) (ix : BitVec 3) (act : Mask) (a : Src) (y : Option GSrc) (z : Option Src) : Bool :=
  let is (o : Src) : Bool := (lanes act).all fun l => (rdSrc s b ix o l).tag == .f64
  act != 0 && is a && (match y with | some (.reg o) => is o | some (.imm (.f32 _)) => true | some (.imm _) => false | none => true) &&
    (match z with | some o => is o | none => true)
/-- The unit of an instruction with an Active set: the f64 unit and the special-function unit serve the classes of Table 7.3,
the memory port the memory instructions of format M, FENCE among them (R184; DEDUCED, log entry 70). -/
def State.unitOf (s : State) (i : Instr) (b : Bool) (ix : BitVec 3) (act : Mask) : FUnit :=
  let gen (k : Bool) : FUnit := if k then .f64 else .alu
  match i with
  | .add _ _ _ a y | .sub _ _ _ a y | .mul _ _ _ a y => gen (s.allF64 b ix act a (some y) none)
  | .min _ _ a y | .max _ _ a y => gen (s.allF64 b ix act a (some y) none)
  | .eq _ _ a y | .ne _ _ a y | .lt _ _ a y | .le _ _ a y => gen (s.allF64 b ix act a (some y) none)
  | .fma _ _ _ a y z => gen (s.allF64 b ix act a (some y) (some z))
  | .neg _ _ a | .abs _ _ a | .hash _ _ a => gen (s.allF64 b ix act a none none)
  | .truth _ _ a => gen (s.allF64 b ix act a none none)
  | .fadd _ t .. | .fsub _ t .. | .fmul _ t .. => gen (t == .one .f64)
  | .ffma _ t .. => gen (t == .one .f64)
  | .fmin _ t .. | .fmax _ t .. => gen (t == .one .f64)
  | .fabs _ t .. | .fneg _ t .. => gen (t == .one .f64)
  | .fcmp _ t .. => gen (t == .f64)
  | .frnd _ t .. => gen (t == .f64)
  | .fclass _ t .. => gen (t == .f64)
  | .fscale _ t .. => gen (t == .f64)
  | .cvt _ f t .. => gen (f == .f64 || t == .f64)
  | .div .. | .fldiv .. | .mod .. | .idiv .. | .irem .. | .fdiv .. | .fsqrt .. | .frcp .. | .frsq .. => .sfu
  | .fexp2 .. | .flog2 .. | .fsin .. | .fcos .. | .ftanh .. | .cvtpk .. | .cvtxp .. => .sfu
  | .ld .. | .st .. | .atom .. | .red .. | .casw .. | .pref .. | .hdrld .. | .fwdcas .. => .port
  | .fence .. | .barinit .. | .bararr .. | .bartx .. | .pinit .. | .pfill .. | .seal .. => .port
  | _ => .alu
/-- The key of the partition of the issuing group. -/
def Group.unitKey (g : Group) : Nat := 8 * g.core + g.part
/-- The units of the issuing group's partition. -/
def State.myUnits (s : State) : Units := sget Units.idle s.units s.grp.unitKey
/-- The clock before which a unit takes no instruction: two issues per clock and partition, one instruction per clock at the
memory port, two clocks for f64 and four for a special function, whatever its lanes (DEDUCED, log entry 70). -/
def Units.until_ (x : Units) (now : Nat) (u : FUnit) : Option Nat :=
  if x.clock = now ∧ 2 ≤ x.issues then some (now + 1)
  else
    match u with
    | .alu => none
    | .port => if x.port = some now then some (now + 1) else none
    | .f64 => if now < x.f64 then some x.f64 else none
    | .sfu => if now < x.sfu then some x.sfu else none
/-- The same after an issue. -/
def Units.used (x : Units) (now : Nat) (u : FUnit) : Units where
  clock := now
  issues := if x.clock = now then x.issues + 1 else 1
  port := if u = .port then some now else x.port
  f64 := if u = .f64 then now + 2 else x.f64
  sfu := if u = .sfu then now + 4 else x.sfu
/-- The issuing group's partition issues to a unit. -/
def State.useUnit (s : State) (u : FUnit) : State :=
  { s with units := sput Units.idle s.units s.grp.unitKey (s.myUnits.used s.now u) }
/-- Lane cycles or tile-engine clocks on a core (R359). -/
def addWork (x : Work) : List Work → List Work
  | [] => [x]
  | w :: r =>
    if w.core = x.core ∧ w.pid = x.pid ∧ w.rcb = x.rcb ∧ w.own = x.own then { w with n := w.n + x.n } :: r else w :: addWork x r
/-- The same for the job of a block. -/
def State.worked (s : State) (blk core n : Nat) : State :=
  match s.blk? blk with
  | some b => { s with work := addWork ⟨core, b.pid, b.eff.job, b.eff.own, n⟩ s.work }
  | none => s

/-! ### The issue -/

/-- Whether an issue of a path is its instruction's first: it neither replays nor goes on after a wait. -/
def Path.first (p : Path) : Bool := p.redo.isNone && p.wait == .none
/-- Whether a step of a path issues its instruction to a unit, first or in a replay: the end of a wait is no issue. -/
def Path.issues (p : Path) : Bool := p.wait == .none
/-- The Active set of an issue (R83, R63): that of the first issue for a replay. -/
def Path.activeFor (p : Path) (g : Group) (gd : Guard) : Mask :=
  match p.redo with
  | some r => r.active
  | none => activeOf g gd p.mask

/-- The registers that an instruction of a path reads: its fields, and for a TRET those of its handler's result (R80). -/
def readBy (i : Instr) (g : Group) (ix : BitVec 3) (gd : Guard) (p : Path) : List RegName :=
  readNames (usesOf i) g ix gd ++ (match i with | .tret _ => (g.retNames p).1 | _ => [])
/-- The registers that it reads or writes. -/
def touchedBy (i : Instr) (g : Group) (ix : BitVec 3) (gd : Guard) (p : Path) : List RegName :=
  usesNames (usesOf i) g ix gd ++ (match i with | .tret _ => (g.retNames p).1 ++ (g.retNames p).2 | _ => [])

/-- R12, R79, R80: the clock before which an issue is held, when it is held. -/
def State.holdFor (s : State) (i : Instr) (sc : Sched) (gd : Guard) (ix : BitVec 3) (b : Bool) (p : Path) : Option Nat :=
  let all := touchedBy i s.grp ix gd p
  let rd := readBy i s.grp ix gd p
  let due := s.grp.dueOf fun k => k.blocks all rd sc.v2
  if p.first && s.grp.ctrFull sc.cnt then some (s.now + 1)
  else if s.now < due then some due
  else if s.grp.siblingOwes b all rd sc.v2 then some (s.now + 1)
  else if p.issues then s.myUnits.until_ s.now (s.unitOf i b ix (p.activeFor s.grp gd))
  else none

/-- What an issue gives the effect of its instruction: the path, its Active set, and the state the effect starts in. -/
structure Issue where
  path : Path
  act : Mask
  state : State
  deriving DecidableEq, Repr

/-- The save budget counts from the first issue of the handler (R378). -/
def Group.startBudget (g : Group) (now : Nat) : Group :=
  if g.st = .saving ∧ g.saveFrom = none then { g with saveFrom := some now, saveFrozen := 0 } else g

/-- The issue of an instruction that nothing holds: pending writes that are due, the Active set (R83), the next clock
the path may issue in (R76, R77), the interlocked registers (R80), the counter (R79), the unit (R12). The idle clock of a
yield comes on top of the gap (DESIGN CHOICE, log entry 69). -/
def State.issued (s : State) (i : Instr) (sc : Sched) (gd : Guard) (ix : BitVec 3) (b : Bool) (p : Path) : Issue :=
  let s := s.setGrp fun g => g.settle s.now
  let all := touchedBy i s.grp ix gd p
  let rd := readBy i s.grp ix gd p
  let s := s.setGrp fun g => g.finishWhere fun k => k.blocks all rd sc.v2
  let act := p.activeFor s.grp gd
  let at_ := s.now + 1 + sc.gap + (if sc.yields then 1 else 0)
  let q := { p with
    nextAt := at_, cands := 0, wait := .none, pass := false, owes := writeNames (usesOf i) s.grp ix, owes2 := sc.v2
    owesCtr := sc.cnt }
  let s := if p.issues then ((s.countIssue q act).useUnit (s.unitOf i b ix act)).worked s.grp.blk s.grp.core (popMask act) else s
  let s := s.setGrp fun g =>
    let g := if p.first then g.raiseCtr sc.cnt else g
    let g := if sc.yields then g.modSlot (!b) Path.undemote else g
    (g.setSlot b (some q)).startBudget s.now
  ⟨q, act, s⟩

/-- The issue of an instruction by the issuing path: pending writes that are due, the checks of Table 7.12 that
need the group, the interlock, the counter, the unit and the gap; then its own effect, given slot, path and Active set. A
fault of a path that has issued the instruction before lowers its counter (R79). -/
def issueAs (i : Instr) (sc : Sched) (gd : Guard) (ix : BitVec 3) (s : State)
    (body : Bool → Path → Mask → State → State) : State :=
  match s.cur with
  | none => s
  | some (b, p) =>
    let r := s.issued i sc gd ix b p
    let s := s.setGrp fun g => g.settle s.now
    let fault (c : BitVec 8) : State := (if p.first then s else s.setGrp fun g => g.lowerCtr sc.cnt).trapHere i c
    match (if p.user then modeFault i else none) with
    | some c => fault c
    | none =>
      if !usesOk (usesOf i) s.grp ix then fault 0x02
      else
        match s.holdFor i sc gd ix b p with
        | some at_ =>
          s.setGrp fun g =>
            (if p.first && g.ctrFull sc.cnt then g.lowerFirst sc.cnt else g).modSlot b fun p => { p with nextAt := at_ }
        | none => body b r.path r.act r.state

/-- Issue of a guarded instruction. -/
def issue (i : Instr) (c : Ctl) (s : State) (body : Bool → Path → Mask → State → State) : State :=
  issueAs i c.sched c.guard c.ix s body
/-- Issue of an instruction that must be unguarded. -/
def issueU (i : Instr) (c : UCtl) (s : State) (body : Bool → Path → Mask → State → State) : State :=
  issueAs i c.sched .always c.ix s body

/-- R65: the current iteration has changed state. -/
def State.changed (s : State) (b : Bool) : State :=
  s.setGrp fun g => g.modSlot b fun p => { p with spin := { p.spin with changed := true } }
/-- R65: the current iteration has loaded from a sector. -/
def State.loaded (s : State) (b : Bool) (sector : Nat) : State :=
  s.setGrp fun g => g.modSlot b fun p =>
    if p.spin.sectors.contains sector then p else { p with spin := { p.spin with sectors := sector :: p.spin.sectors } }

/-- The clock at which results of a latency class are due. -/
def Lat.dueAt (lat : Lat) (now : Nat) : Option Nat :=
  match lat with
  | .fixed n => some (now + n)
  | .variable => none
/-- The results that the replayed instruction of a slot's path has had before and that are still pending. -/
def Group.parts (g : Group) (b : Bool) : List Completion :=
  match g.slot b with
  | some p => if p.redo.isSome then g.pend.filter fun k => k.cnt.isNone && k.due.isNone && p.made k else []
  | none => []
/-- Results of the path in slot b: they stay pending until their latency ends, and the counter is lowered then (R78, R79,
DEDUCED, log entry 9); what the instruction had before a replay ends with them. `act` are the lanes that no fault has stopped and no
handler has taken: with none, and nothing pending, the counter is lowered at once. -/
def Group.retire (g : Group) (b : Bool) (sc : Sched) (due : Option Nat) (act : Mask) (ws : List RegWrite) : Group :=
  let ps := g.parts b
  let g := { g with pend := g.pend.filter fun k => !ps.contains k }
  let ws := ps.flatMap Completion.writes ++ ws
  let over_ := act == 0 && ps.isEmpty
  let g := if over_ then g.lowerCtr sc.cnt else g
  let c := if over_ then none else sc.cnt
  if ws.isEmpty && c.isNone then g
  else { g with pend := insDue ⟨due, ws, c, ((g.slot b).map Path.mask).getD act, sc.v2⟩ g.pend }
/-- Results of the issuing path (R78, R79). -/
def State.retire (s : State) (b : Bool) (sc : Sched) (lat : Lat) (act : Mask) (ws : List RegWrite) : State :=
  let s := if ws.all s.grp.same then s else s.changed b
  s.setGrp fun g => g.retire b sc (lat.dueAt s.now) act ws

/-- Partial results of a replayed instruction: its counter stays raised (R79). -/
def State.retirePart (s : State) (b : Bool) (sc : Sched) (lat : Lat) (act : Mask) (ws : List RegWrite) : State :=
  if ws.isEmpty then s
  else
    let s := if ws.all s.grp.same then s else s.changed b
    s.setGrp fun g =>
      { g with pend := insDue ⟨lat.dueAt s.now, ws, none, ((g.slot b).map Path.mask).getD act, sc.v2⟩ g.pend }

/-- A fault for the whole path after issue: the counter is lowered and the trap is taken (R79). -/
def State.trapPath (s : State) (i : Instr) (sc : Sched) (cause : BitVec 8) (faddr : Word) (T : Mask) : State :=
  (s.setGrp fun g => g.lowerCtr sc.cnt).trap i cause faddr T

/-- An instruction that writes no register has ended: its counter is lowered (R79). -/
def State.spend (s : State) (sc : Sched) : State := s.setGrp fun g => g.lowerCtr sc.cnt

/-- Results and the next instruction. -/
def State.finish (s : State) (b : Bool) (sc : Sched) (lat : Lat) (act : Mask) (ws : List RegWrite) : State :=
  (s.retire b sc lat act ws).next b


/-- The lanes of a mask with a value each. -/
def perLane {α : Type} (m : Mask) (f : Nat → α) : List (Nat × α) := (lanes m).map fun l => (l, f l)

/-- The n-th free value of a run (DESIGN CHOICE, log entry 5). -/
def State.free (s : State) : Word × State := (Config.freeWord s.freeCtr, { s with freeCtr := s.freeCtr + 1 })

end Sys2Proof.Machine
end

