-- ==== Sys2Proof/Machine/Flags.lean ====
section
/-! DEFINITION. Every condition the integer instructions compute: ranges, wrapping and saturation (R152), overflow (R125), comparisons (R128, R154). The machine keeps no flag register: conditions go to predicates or raise a class. -/
namespace Sys2Proof

/-- Width w of a typed integer or bit instruction (R152). -/
def ITy.w : ITy → Nat
  | .i32 | .n32 => 32
  | .i64 | .n64 => 64
def BTy.w : BTy → Nat
  | .b32 => 32
  | .b64 => 64
/-- Signed types. -/
def ITy.signed : ITy → Bool
  | .i32 | .i64 => true
  | .n32 | .n64 => false
def STy.ity : STy → ITy
  | .i32 => .i32
  | .i64 => .i64

end Sys2Proof

namespace Sys2Proof.Machine

/-- The low w bits of a word as an unsigned number. -/
def unsOf (w : Nat) (x : Word) : Nat := x.toNat % 2 ^ w
/-- A number below 2^w read as two's complement. -/
def sgnNat (w n : Nat) : Int := if 2 ^ (w - 1) ≤ n then (n : Int) - 2 ^ w else n
/-- The low w bits of a word as two's complement. -/
def sgnOf (w : Nat) (x : Word) : Int := sgnNat w (unsOf w x)

/-- Val(v) of R152. -/
def valOf (t : ITy) (x : Word) : Int := if t.signed then sgnOf t.w x else (unsOf t.w x : Int)
/-- Lo of R152. -/
def loOf (t : ITy) : Int := if t.signed then -(2 ^ (t.w - 1) : Int) else 0
/-- Hi of R152. -/
def hiOf (t : ITy) : Int := if t.signed then 2 ^ (t.w - 1) - 1 else 2 ^ t.w - 1
/-- Put(e) of R152: bits above w are copies of bit w-1 for .i32 and zero for every other type. -/
def putInt (t : ITy) (e : Int) : Val :=
  let n := (e % 2 ^ t.w).toNat
  match t with
  | .i32 => .raw (BitVec.ofInt 64 (sgnNat 32 n))
  | .i64 | .n32 | .n64 => .raw (BitVec.ofNat 64 n)
/-- Put of a bit instruction. -/
def putBits (t : BTy) (n : Nat) : Val := .raw (BitVec.ofNat 64 (n % 2 ^ t.w))
/-- Saturation (R152). -/
def clamp (lo hi e : Int) : Int := min (max e lo) hi
/-- The arithmetic result of R152: saturated when asked, then Put. -/
def arith (t : ITy) (sat : Bool) (e : Int) : Val := putInt t (if sat then clamp (loOf t) (hiOf t) e else e)

/-- The int payload range (R35). -/
def intLo : Int := -(2 ^ 63)
def intHi : Int := 2 ^ 63 - 1
/-- R125: the condition of the class int-overflow. -/
def intOverflow (e : Int) : Bool := e < intLo || intHi < e

/-- R154: the truth of a condition. -/
def icond (c : ICond) (x y : Int) : Bool :=
  match c with
  | .eq => x == y
  | .ne => x != y
  | .lt => x < y
  | .le => x ≤ y
  | .gt => y < x
  | .ge => y ≤ x

/-- Truncating division (R153). -/
def truncDiv (x y : Int) : Int := x.tdiv y
/-- IDIV of R153. -/
def idivOf (t : ITy) (x y : Int) : Int :=
  if y = 0 then (if t.signed then -1 else 2 ^ t.w - 1) else truncDiv x y
/-- IREM of R153. -/
def iremOf (x y : Int) : Int := if y = 0 then x else x - y * truncDiv x y

/-- The bits of a number below 2^w, lowest first. -/
def bitsOf (w n : Nat) : List Bool := (List.range w).map fun k => n.testBit k
/-- The number of a list of bits, lowest first. -/
def natOfBits : List Bool → Nat
  | [] => 0
  | b :: r => (if b then 1 else 0) + 2 * natOfBits r

/-- R156. -/
def popcOf (w n : Nat) : Nat := ((bitsOf w n).filter id).length
def clzOf (w n : Nat) : Nat := ((bitsOf w n).reverse.takeWhile fun b => !b).length
def ctzOf (w n : Nat) : Nat := ((bitsOf w n).takeWhile fun b => !b).length
def brevOf (w n : Nat) : Nat := natOfBits (bitsOf w n).reverse

/-- R155: shifts of a number below 2^w by an unsigned 64-bit count. -/
def bshlOf (w a n : Nat) : Nat := if n < w then a * 2 ^ n % 2 ^ w else 0
def bshrOf (w a n : Nat) : Nat := if n < w then a / 2 ^ n else 0
def bsarOf (w a n : Nat) : Nat :=
  let k := if n < w then n else w - 1
  (sgnNat w a / 2 ^ k % 2 ^ w).toNat
def brolOf (w a n : Nat) : Nat :=
  let k := n % w
  (a * 2 ^ k % 2 ^ w) + a / 2 ^ (w - k)

/-- R157: the extracted field. -/
def bfxOf (t : ITy) (a pos len : Nat) : Int :=
  let L := min len t.w
  let bit (j : Nat) : Bool := if j < t.w then a.testBit j else t.signed && a.testBit (t.w - 1)
  let f := natOfBits ((List.range L).map fun k => bit (pos + k))
  if L = 0 then 0 else if t.signed then sgnNat L f else f
/-- R158: the insertion. -/
def bfiOf (w a c pos len : Nat) : Nat :=
  natOfBits ((List.range w).map fun j => if pos ≤ j && j < pos + len then c.testBit (j - pos) else a.testBit j)

/-- R162: the bit of a table of three predicates. -/
def lutBit (lut : BitVec 8) (a b c : Bool) : Bool :=
  lut.getLsbD ((if a then 4 else 0) + (if b then 2 else 0) + (if c then 1 else 0))

/-- R129: the mixing function of HASH. -/
def mix (z : Word) : Word :=
  let z := (z ^^^ (z >>> 30)) * 0xBF58476D1CE4E5B9
  let z := (z ^^^ (z >>> 27)) * 0x94D049BB133111EB
  z ^^^ (z >>> 31)

end Sys2Proof.Machine
end

