-- ==== Sys2Proof/Machine/Float.lean ====
section
/-! DEFINITION. Float formats and arithmetic: exact values, one rounding (R36 to R41), the operations of R126, R127, R140, R165 to R175, and the functions of R172 by enclosures. -/
namespace Sys2Proof.Machine

/-! ### Formats and values -/

/-- A float format: exponent and mantissa widths, and whether it has infinity (Table 3.3). E8M0 has no mantissa. -/
structure Fmt where
  eb : Nat
  mb : Nat
  inf : Bool
  no : Nat
  deriving DecidableEq, Repr

def fmtF64 : Fmt := ⟨11, 52, true, 5⟩
def fmtF32 : Fmt := ⟨8, 23, true, 6⟩
def fmtF16 : Fmt := ⟨5, 10, true, 7⟩
def fmtBf16 : Fmt := ⟨8, 7, true, 8⟩
def fmtE4m3 : Fmt := ⟨4, 3, false, 9⟩
def fmtE2m1 : Fmt := ⟨2, 1, false, 10⟩
def fmtE8m0 : Fmt := ⟨8, 0, false, 11⟩

/-- The bias of a format. -/
def Fmt.bias (f : Fmt) : Int := 2 ^ (f.eb - 1) - 1
/-- Width in bits. -/
def Fmt.width (f : Fmt) : Nat := if f.no = 11 then 8 else 1 + f.eb + f.mb
/-- The magnitude code of infinity, in a format that has it. -/
def Fmt.infCode (f : Fmt) : Nat := (2 ^ f.eb - 1) * 2 ^ f.mb
/-- The magnitude code of the largest finite value. -/
def Fmt.topCode (f : Fmt) : Nat := if f.inf then f.infCode - 1 else if f.no = 9 then 0x7E else 7
/-- The default NaN (R38); E2M1 has none and takes +0 (Table 3.6). -/
def Fmt.nan (f : Fmt) : Nat :=
  if f.inf then f.infCode + 2 ^ (f.mb - 1) else if f.no = 9 then 0x7F else if f.no = 11 then 0xFF else 0
/-- A code with a sign. -/
def Fmt.signed (f : Fmt) (neg : Bool) (code : Nat) : Nat := (if neg then 2 ^ (f.eb + f.mb) else 0) + code

/-- The value of a code: NaN (quiet or not), infinity, or the exact value ±m × 2^e. -/
inductive FVal where
  | nan (quiet : Bool)
  | inf (neg : Bool)
  | fin (neg : Bool) (m : Nat) (e : Int)
  deriving DecidableEq, Repr

/-- Decoding a code (R36). -/
def Fmt.decode (f : Fmt) (bits : Nat) : FVal :=
  if f.no = 11 then
    let b := bits % 256
    if b = 0xFF then .nan true else .fin false 1 ((b : Int) - 127)
  else
    let neg := bits.testBit (f.eb + f.mb)
    let ef := bits / 2 ^ f.mb % 2 ^ f.eb
    let m := bits % 2 ^ f.mb
    if f.inf && ef = 2 ^ f.eb - 1 then
      if m = 0 then .inf neg else .nan (m.testBit (f.mb - 1))
    else if f.no = 9 ∧ ef = 15 ∧ m = 7 then .nan true
    else if ef = 0 then .fin neg m (1 - f.bias - f.mb)
    else .fin neg (m + 2 ^ f.mb) ((ef : Int) - f.bias - f.mb)

/-- Whether the magnitude's rounding goes up: the kept part q, the remainder r of 2^s (Table 3.4). -/
def roundsUp (r : Rnd) (neg : Bool) (q rem s : Nat) : Bool :=
  match r with
  | .rne => 2 ^ s < 2 * rem || (2 * rem == 2 ^ s && q % 2 == 1)
  | .rtz => false
  | .rup => !neg && rem != 0
  | .rdn => neg && rem != 0
/-- The magnitude m × 2^e rounded to a multiple of 2^q, as that multiple. -/
def roundTo (r : Rnd) (neg : Bool) (m : Nat) (e q : Int) : Nat :=
  if q ≤ e then m * 2 ^ (e - q).toNat
  else
    let s := (q - e).toNat
    let k := m / 2 ^ s
    if roundsUp r neg k (m % 2 ^ s) s then k + 1 else k

/-- Table 3.5: the code of an overflow. -/
def Fmt.overflow (f : Fmt) (r : Rnd) (neg : Bool) : Nat :=
  if !f.inf then f.topCode
  else
    match r with
    | .rne => f.infCode
    | .rtz => f.topCode
    | .rup => if neg then f.topCode else f.infCode
    | .rdn => if neg then f.infCode else f.topCode

/-- The conversion of a positive finite value into E8M0 (R41). -/
def e8m0Of (r : Rnd) (neg : Bool) (m : Nat) (e : Int) : Nat :=
  if neg ∨ m = 0 then 0xFF
  else
    let n := Nat.log2 m
    let k : Int := e + n
    let up :=
      if m = 2 ^ n then false
      else
        match r with
        | .rup => true
        | .rne => 3 * 2 ^ n < 2 * m || (2 * m == 3 * 2 ^ n && (k + 127) % 2 == 1)
        | .rtz | .rdn => false
    let k := if up then k + 1 else k
    if k < -127 then 0 else if 127 < k then 0xFE else (k + 127).toNat

/-- The exact value ±m × 2^e rounded once to a format (R39 to R41). -/
def Fmt.round (f : Fmt) (r : Rnd) (neg : Bool) (m : Nat) (e : Int) : Nat :=
  if f.no = 11 then e8m0Of r neg m e
  else if m = 0 then f.signed neg 0
  else
    let q : Int := max (e + Nat.log2 m) (1 - f.bias) - f.mb
    let k := roundTo r neg m e q
    let code := if k < 2 ^ f.mb then k else ((q + f.mb + f.bias).toNat) * 2 ^ f.mb + (k - 2 ^ f.mb)
    f.signed neg (if f.topCode < code then f.overflow r neg else code)
/-- The same for a value strictly between m × 2^e and (m + 1) × 2^e when `sticky` is set: it is stood for by the
middle, which lies on no rounding boundary when m has more bits than the format. -/
def Fmt.roundS (f : Fmt) (r : Rnd) (neg : Bool) (m : Nat) (e : Int) (sticky : Bool) : Nat :=
  if sticky then f.round r neg (2 * m + 1) (e - 1) else f.round r neg m e
/-- ±∞, or what stands for it (Table 3.6). -/
def Fmt.infOf (f : Fmt) (neg : Bool) : Nat :=
  if f.no = 11 then 0xFF else f.signed neg (if f.inf then f.infCode else f.topCode)
/-- Rounding any value into a format. -/
def Fmt.put (f : Fmt) (r : Rnd) (x : FVal) : Nat :=
  match x with
  | .nan _ => f.nan
  | .inf neg => f.infOf neg
  | .fin neg m e => f.round r neg m e

/-! ### Exact operations -/

def FVal.isNan : FVal → Bool
  | .nan _ => true
  | .inf _ | .fin .. => false
def FVal.isZero : FVal → Bool
  | .fin _ m _ => m == 0
  | .nan _ | .inf _ => false
def FVal.neg : FVal → Bool
  | .nan _ => false
  | .inf n => n
  | .fin n _ _ => n
/-- The signed integer of ±m × 2^e at scale 2^q, q ≤ e. -/
def scaled (neg : Bool) (m : Nat) (e q : Int) : Int :=
  let n : Int := m * 2 ^ (e - q).toNat
  if neg then -n else n
/-- Comparing two finite values. -/
def cmpFin (n1 : Bool) (m1 : Nat) (e1 : Int) (n2 : Bool) (m2 : Nat) (e2 : Int) : Int :=
  let q := min e1 e2
  scaled n1 m1 e1 q - scaled n2 m2 e2 q
/-- The order of two values that are no NaN: below, equal or above zero. -/
def FVal.cmp : FVal → FVal → Int
  | .inf a, .inf b => if a == b then 0 else if a then -1 else 1
  | .inf a, _ => if a then -1 else 1
  | _, .inf b => if b then 1 else -1
  | .fin n1 m1 e1, .fin n2 m2 e2 => cmpFin n1 m1 e1 n2 m2 e2
  | .nan _, _ | .fin .., .nan _ => 0
/-- An exact sum. R40: an exact zero sum of operands of opposite sign is +0, −0 under .rdn. -/
def FVal.add (r : Rnd) : FVal → FVal → FVal
  | .nan _, _ | _, .nan _ => .nan true
  | .inf a, .inf b => if a == b then .inf a else .nan true
  | .inf a, .fin .. => .inf a
  | .fin .., .inf b => .inf b
  | .fin n1 m1 e1, .fin n2 m2 e2 =>
    let q := min e1 e2
    let t := scaled n1 m1 e1 q + scaled n2 m2 e2 q
    if t = 0 then .fin (if n1 == n2 then n1 else r == .rdn) 0 q else .fin (t < 0) t.natAbs q
/-- The value with its sign inverted. -/
def FVal.flip : FVal → FVal
  | .nan q => .nan q
  | .inf n => .inf !n
  | .fin n m e => .fin (!n) m e
/-- An exact product. -/
def FVal.mul : FVal → FVal → FVal
  | .nan _, _ | _, .nan _ => .nan true
  | .inf a, .inf b => .inf (a != b)
  | .inf a, .fin n m _ | .fin n m _, .inf a => if m = 0 then .nan true else .inf (a != n)
  | .fin n1 m1 e1, .fin n2 m2 e2 => .fin (n1 != n2) (m1 * m2) (e1 + e2)

/-- A quotient rounded once (R167). -/
def Fmt.div (f : Fmt) (r : Rnd) (a b : FVal) : Nat :=
  match a, b with
  | .nan _, _ | _, .nan _ | .inf _, .inf _ => f.nan
  | .inf n, .fin k _ _ => f.infOf (n != k)
  | .fin n _ _, .inf k => f.signed (n != k) 0
  | .fin n m e, .fin k m' e' =>
    if m' = 0 then if m = 0 then f.nan else f.infOf (n != k)
    else
      let s := 80 + Nat.log2 m'
      let q := m * 2 ^ s / m'
      f.roundS r (n != k) q (e - e' - s) (m * 2 ^ s % m' != 0)

/-- floor(sqrt n) by bits from `k` down. -/
def isqrtBits : Nat → Nat → Nat → Nat
  | 0, _, acc => acc
  | k + 1, n, acc =>
    let c := acc + 2 ^ k
    isqrtBits k n (if c * c ≤ n then c else acc)
/-- floor(sqrt n) for n below 2^256. -/
def isqrt (n : Nat) : Nat := isqrtBits 128 n 0
/-- A square root rounded once (R167). -/
def Fmt.sqrt (f : Fmt) (r : Rnd) (a : FVal) : Nat :=
  match a with
  | .nan _ => f.nan
  | .inf n => if n then f.nan else f.infOf false
  | .fin n m e =>
    if m = 0 then f.signed n 0
    else if n then f.nan
    else
      let s : Nat := if e % 2 = 0 then 140 else 141
      let x := m * 2 ^ s
      let q := isqrt x
      f.roundS r false q ((e - s) / 2) (q * q != x)
/-- 1 / sqrt a, rounded once (R168). -/
def Fmt.rsqrt (f : Fmt) (r : Rnd) (a : FVal) : Nat :=
  match a with
  | .nan _ => f.nan
  | .inf n => if n then f.nan else f.signed false 0
  | .fin n m e =>
    if m = 0 then f.infOf n
    else if n then f.nan
    else
      let s : Nat := if e % 2 = 0 then 220 else 221
      let x := 2 ^ s / m
      let q := isqrt x
      f.roundS r false q ((-e - s) / 2) (q * q * m != 2 ^ s)

/-- The floor of ±m × 2^e. -/
def floorFin (neg : Bool) (m : Nat) (e : Int) : Int :=
  if 0 ≤ e then scaled neg m e 0 else (if neg then -(m : Int) else m) / 2 ^ (-e).toNat
/-- The floor of the quotient of two finite values, b ≠ 0. -/
def floorQuot (n1 : Bool) (m1 : Nat) (e1 : Int) (n2 : Bool) (m2 : Nat) (e2 : Int) : Int :=
  let q := min e1 e2
  let x := scaled n1 m1 e1 q
  let y := scaled n2 m2 e2 q
  if y < 0 then (-x) / (-y) else x / y

/-- FLDIV in a float family (R127, Table 11.3). -/
def Fmt.fldiv (f : Fmt) (a b : FVal) : Nat :=
  match a, b with
  | .nan _, _ | _, .nan _ | .inf _, .inf _ => f.nan
  | .inf n, .fin k _ _ => f.infOf (n != k)
  | .fin n m _, .inf k =>
    if m = 0 then f.signed (n != k) 0 else if n == k then f.signed false 0 else f.round .rne true 1 0
  | .fin n m e, .fin k m' e' =>
    if m' = 0 then if m = 0 then f.nan else f.infOf (n != k)
    else
      let q := floorQuot n m e k m' e'
      if q = 0 then f.signed (n != k) 0 else f.round .rne (q < 0) q.natAbs 0
/-- MOD in a float family (R127, Table 11.3). -/
def Fmt.fmod (f : Fmt) (a b : FVal) : Nat :=
  match a, b with
  | .nan _, _ | _, .nan _ | .inf _, _ => f.nan
  | .fin n m e, .inf k => if m = 0 ∨ n == k then f.put .rne (.fin n m e) else f.infOf k
  | .fin n m e, .fin k m' e' =>
    if m' = 0 then f.nan
    else
      let q := min e e'
      let x := scaled n m e q
      let y := scaled k m' e' q
      let t := x - y * floorQuot n m e k m' e'
      if t = 0 then f.signed k 0 else f.round .rne (t < 0) t.natAbs q

/-- minimumNumber or maximumNumber, returning the code chosen (R126, R169). -/
def Fmt.minmax (f : Fmt) (wantMax : Bool) (x y : Nat) : Nat :=
  let a := f.decode x
  let b := f.decode y
  if a.isNan && b.isNan then f.nan
  else if a.isNan then y
  else if b.isNan then x
  else
    let c := a.cmp b
    let less := if c = 0 then a.neg && !b.neg else c < 0
    if less != wantMax then x else y

/-- The rounding of a value to an integer (R174, R140). -/
def roundInt (r : Rnd) (neg : Bool) (m : Nat) (e : Int) : Int :=
  let k : Int := roundTo r neg m e 0
  if neg then -k else k
/-- FRND (R174). -/
def Fmt.rnd (f : Fmt) (r : Rnd) (x : Nat) : Nat :=
  match f.decode x with
  | .nan _ => f.nan
  | .inf n => f.infOf n
  | .fin n m e => if m = 0 then f.signed n 0 else f.round .rne n (roundTo r n m e 0) 0
/-- FSCALE (R173). -/
def Fmt.scale (f : Fmt) (r : Rnd) (x : Nat) (n : Int) : Nat :=
  match f.decode x with
  | .nan _ => f.nan
  | .inf s => f.infOf s
  | .fin s m e => f.round r s m (e + clamp (-4200) 4200 n)
/-- FCLASS (R175): 2^k. -/
def Fmt.cls (f : Fmt) (x : Nat) : Nat :=
  match f.decode x with
  | .nan q => if q then 2 ^ 9 else 2 ^ 8
  | .inf n => if n then 1 else 2 ^ 7
  | .fin n m _ =>
    if m = 0 then if n then 2 ^ 3 else 2 ^ 4
    else if m < 2 ^ f.mb then if n then 2 ^ 2 else 2 ^ 5
    else if n then 2 else 2 ^ 6
/-- FCMP (R171). -/
def fcond (c : FCond) (a b : FVal) : Bool :=
  let un := a.isNan || b.isNan
  let d := a.cmp b
  match c with
  | .eq => !un && d == 0
  | .ne => un || d != 0
  | .lt => !un && d < 0
  | .le => !un && d ≤ 0
  | .gt => !un && 0 < d
  | .ge => !un && 0 ≤ d
  | .un => un
  | .or => !un

/-! ### The functions of R172, by enclosures in fixed point -/

/-- Fraction bits of the enclosures. -/
def fxP : Nat := 320
def fxOne : Nat := 2 ^ fxP
/-- floor(ln 2 × 2^320). -/
def fxLn2 : Nat := 0xB17217F7D1CF79ABC9E3B39803F2F6AF40F343267298B62D8A0D175B8BAAFA2BE7B876206DEBAC98
/-- floor(π/2 × 2^512). -/
def fxHalfPi : Nat :=
  0x1921FB54442D18469898CC51701B839A252049C1114CF98E804177D4C76273644A29410F31C6809BBDF2A33679A748636605614DBE4BE286E9FC26ADADAA3848B
/-- Slack, in units of 2^-320, that covers the truncations of a series. -/
def fxSlack : Nat := 2 ^ 16

/-- The exponential series from term k with the running term t, `n` terms. -/
def expTerms : Nat → Nat → Nat → Nat → Nat
  | 0, _, _, _ => 0
  | n + 1, y, k, t => t + expTerms n y (k + 1) (t * y / fxOne / (k + 1))
/-- An enclosure of e^y for y in [0, 1) in fixed point. -/
def expFx (y : Nat) : Nat × Nat :=
  let x := expTerms 96 y 0 fxOne
  (x, x + fxSlack)
/-- The series of atanh: Σ t^(2k+1) / (2k+1). -/
def atanhTerms : Nat → Nat → Nat → Nat → Nat
  | 0, _, _, _ => 0
  | n + 1, t2, k, p => p / (2 * k + 1) + atanhTerms n t2 (k + 1) (p * t2 / fxOne)
/-- Alternating series of sine (k = 1) or cosine (k = 0): Σ (−1)^i r^(k+2i) / (k+2i)!. -/
def trigTerms : Nat → Nat → Nat → Nat → Int
  | 0, _, _, _ => 0
  | n + 1, r2, k, t => (t : Int) - trigTerms n r2 (k + 2) (t * r2 / fxOne / ((k + 1) * (k + 2)))
def sinFx (r : Nat) : Int := trigTerms 64 (r * r / fxOne) 1 r
def cosFx (r : Nat) : Int := trigTerms 64 (r * r / fxOne) 0 fxOne

/-- A value enclosed by lo and hi in units of 2^e: the code both ends round to, if they agree. -/
def Fmt.enclosed (f : Fmt) (lo hi : Int) (e : Int) : Option Nat :=
  let at_ (x : Int) : Nat := f.round .rne (x < 0) x.natAbs e
  if (lo < 0 ∧ 0 < hi) ∨ lo = 0 ∨ hi = 0 then none
  else if at_ lo = at_ hi then some (at_ lo) else none

/-- 2^x for ±m × 2^e. -/
def exp2Of (f : Fmt) (neg : Bool) (m : Nat) (e : Int) : Option Nat :=
  let x := floorFin neg m e
  if 0 ≤ e ∨ m % 2 ^ (-e).toNat = 0 then some (f.round .rne false 1 (clamp (-4200) 4200 x))
  else
    let big := clamp (-4200) 4200 x
    -- the fraction in fixed point, exact when e ≥ -320
    let frac := ((if neg then -(m : Int) else m) * 2 ^ (fxP - (-e).toNat) - x * fxOne).toNat
    let (lo, hi) := expFx (frac * fxLn2 / fxOne)
    f.enclosed lo hi (big - fxP)
/-- log2 x for m × 2^e, m > 0. -/
def log2Of (f : Fmt) (m : Nat) (e : Int) : Option Nat :=
  let n := Nat.log2 m
  let k : Int := e + n
  if m = 2 ^ n then some (f.round .rne (k < 0) k.natAbs 0)
  else
    let z := m * fxOne / 2 ^ n
    let t := (z - fxOne) * fxOne / (z + fxOne)
    let s := 2 * atanhTerms 120 (t * t / fxOne) 0 t
    let lo := s * fxOne / (fxLn2 + 1)
    let hi := (s + fxSlack) * fxOne / fxLn2 + 1
    f.enclosed (k * fxOne + lo) (k * fxOne + hi) (-fxP)
/-- sin or cos of ±m × 2^e. -/
def trigOf (f : Fmt) (cos : Bool) (neg : Bool) (m : Nat) (e : Int) : Option Nat :=
  -- |x| in units of 2^-512, exact when e ≥ -512
  let x := m * 2 ^ (e + 512).toNat
  let k := x / fxHalfPi
  let r := (x - k * fxHalfPi) / 2 ^ 192
  let q := (k + (if cos then 1 else 0)) % 4
  let v := if q % 2 = 0 then sinFx r else cosFx r
  let v := if decide (2 ≤ q) != (neg && !cos) then -v else v
  f.enclosed (v - fxSlack) (v + fxSlack) (-fxP)
/-- tanh of ±m × 2^e, m > 0. -/
def tanhOf (f : Fmt) (neg : Bool) (m : Nat) (e : Int) : Option Nat :=
  let out (lo hi : Int) : Option Nat := if neg then f.enclosed (-hi) (-lo) (-fxP) else f.enclosed lo hi (-fxP)
  if 0 < e + Nat.log2 m - 6 then out (fxOne - 1) fxOne
  else
    let y := 2 * m * 2 ^ (e + fxP).toNat
    let k := y / fxLn2
    let (lo, hi) := expFx (y - k * fxLn2)
    -- e^(2x) between a and b; ln 2 is cut short by less than one unit, k times
    let a := (lo - fxSlack) * 2 ^ k
    let b := hi * 2 ^ k
    let t (v : Nat) : Int := ((v : Int) - fxOne) * fxOne / ((v : Int) + fxOne)
    out (t a) (t b + 1)

/-- The functions of R172. -/
inductive Fun where
  | exp2 | log2 | sin | cos | tanh
  deriving DecidableEq, Repr
def Fun.no : Fun → Nat
  | .exp2 => 0
  | .log2 => 1
  | .sin => 2
  | .cos => 3
  | .tanh => 4

/-- The correctly rounded result (R172, Table 13.4); a result that the enclosure does not decide is the free value
of log entry 6 (DEDUCED). -/
def Fmt.fn (f : Fmt) (g : Fun) (x : Nat) : Nat :=
  let free (o : Option Nat) : Nat :=
    o.getD ((Config.undecided g.no f.no (BitVec.ofNat 32 x)).toNat % 2 ^ f.width)
  let one (neg : Bool) : Nat := f.round .rne neg 1 0
  match g, f.decode x with
  | _, .nan _ => f.nan
  | .exp2, .inf n => if n then f.signed false 0 else f.infOf false
  | .exp2, .fin n m e => if m = 0 then one false else free (exp2Of f n m e)
  | .log2, .inf n => if n then f.nan else f.infOf false
  | .log2, .fin n m e => if m = 0 then f.infOf true else if n then f.nan else free (log2Of f m e)
  | .sin, .inf _ | .cos, .inf _ => f.nan
  | .sin, .fin n m e => if m = 0 then f.signed n 0 else free (trigOf f false n m e)
  | .cos, .fin n m e => if m = 0 then one false else free (trigOf f true n m e)
  | .tanh, .inf n => one n
  | .tanh, .fin n m e => if m = 0 then f.signed n 0 else free (tanhOf f n m e)

/-! ### Types as formats -/

/-- The format of a float type. -/
def fmtOf : Ty → Option Fmt
  | .f64 => some fmtF64
  | .f32 => some fmtF32
  | .f16 => some fmtF16
  | .bf16 => some fmtBf16
  | .e4m3 => some fmtE4m3
  | .e2m1 => some fmtE2m1
  | .e8m0 => some fmtE8m0
  | .i32 | .i64 | .n32 | .n64 | .b8 | .b16 | .b32 | .b64 | .f16x4 | .bf16x4 | .i8 | .i16 => none

end Sys2Proof.Machine

namespace Sys2Proof

/-- The format of a scalar float type. -/
def FTy.fmt : FTy → Machine.Fmt
  | .f64 => Machine.fmtF64
  | .f32 => Machine.fmtF32
  | .f16 => Machine.fmtF16
  | .bf16 => Machine.fmtBf16
/-- Its tag. -/
def FTy.tag : FTy → Tag
  | .f64 => .f64
  | .f32 => .f32
  | .f16 => .f16
  | .bf16 => .bf16
def TTy.fty : TTy → FTy
  | .f32 => .f32
  | .f16 => .f16
  | .bf16 => .bf16
/-- The format of an element of a type of F or P. -/
def PTy.fmt : PTy → Machine.Fmt
  | .one f => f.fmt
  | .f16x4 => Machine.fmtF16
  | .bf16x4 => Machine.fmtBf16

end Sys2Proof
end

