-- ==== Sys2Proof/Machine/Convert.lean ====
section
/-! DEFINITION. Conversions and tags (spec 11_generic R139 to R147). -/
namespace Sys2Proof.Machine

/-! ### CVT (R140) -/

/-- Whether a type is read as two's complement. -/
def signedTy : Ty → Bool
  | .i32 | .i64 | .i8 | .i16 => true
  | .n32 | .n64 | .f64 | .f32 | .f16 | .bf16 | .e4m3 | .e2m1 | .e8m0 | .b8 | .b16 | .b32 | .b64 | .f16x4 | .bf16x4 =>
    false
/-- The integer of a payload read as an integer or .b type. -/
def intOfTy (t : Ty) (x : Word) : Int :=
  let n := x.toNat % 2 ^ t.width
  if signedTy t then sgnNat t.width n else n
/-- The range of an integer type. -/
def tyLo (t : Ty) : Int := if signedTy t then -(2 ^ (t.width - 1)) else 0
def tyHi (t : Ty) : Int := if signedTy t then 2 ^ (t.width - 1) - 1 else 2 ^ t.width - 1

/-- Table 3.2: the low bits of a payload widened and tagged for a type. -/
def widen (t : Ty) (n : Nat) : Val :=
  let w := n % 2 ^ t.width
  match t with
  | .i8 | .i16 | .i32 | .i64 => .ofInt (sgnNat t.width w)
  | .n32 => .int (BitVec.ofNat 64 w)
  | .n64 | .b8 | .b16 | .b32 | .b64 | .e4m3 | .e2m1 | .e8m0 | .f16x4 | .bf16x4 => .raw (BitVec.ofNat 64 w)
  | .f64 => ⟨.f64, BitVec.ofNat 64 w⟩
  | .f32 => ⟨.f32, BitVec.ofNat 64 w⟩
  | .f16 => ⟨.f16, BitVec.ofNat 64 w⟩
  | .bf16 => ⟨.bf16, BitVec.ofNat 64 w⟩

/-- A float value as an integer of a type: rounded, then saturated; a NaN gives 0 (Table 11.10). -/
def floatToInt (t : Ty) (r : Rnd) (x : FVal) : Int :=
  match x with
  | .nan _ => 0
  | .inf n => if n then tyLo t else tyHi t
  | .fin n m e => clamp (tyLo t) (tyHi t) (roundInt r n m e)
/-- An integer as a finite value. -/
def intVal (x : Int) : FVal := .fin (x < 0) x.natAbs 0

/-- The result of CVT (Table 11.10). -/
def cvtOf (dst src : Ty) (sat : Bool) (r : Rnd) (x : Word) : Val :=
  match fmtOf dst, fmtOf src with
  | some f, some g => widen dst (f.put r (g.decode (x.toNat % 2 ^ src.width)))
  | some f, none => widen dst (f.put r (intVal (intOfTy src x)))
  | none, some g => widen dst (floatToInt dst r (g.decode (x.toNat % 2 ^ src.width)) % 2 ^ 64).toNat
  | none, none =>
    let n := intOfTy src x
    widen dst ((if sat then clamp (tyLo dst) (tyHi dst) n else n) % 2 ^ 64).toNat
/-- The latency of CVT (R78). -/
def cvtLat (dst src : Ty) : Lat := if dst = .f64 ∨ src = .f64 then .f64 else .alu

/-- CVT (R140). -/
def execCvt (c : Ctl) (dst src : Ty) (sat : Bool) (r : Rnd) (d : Reg) (a : Src) (s : State) :
    Host.Outcome State Fault Refusal :=
  .next (issue (.cvt c dst src sat r d a) c s fun slot _ act s =>
    s.finish slot c.sched (cvtLat dst src) act
      (wrReg s.grp c.ix d (perLane act fun l => cvtOf dst src sat r (rdSrc s slot c.ix a l).pay)))

/-! ### Packing (R141, R142) -/

/-- The element format of a packed type. -/
def qFmt : QTy → Fmt
  | .e4m3 => fmtE4m3
  | .e2m1 => fmtE2m1
/-- The scale of CVTPK and CVTXP. -/
def qScale (t : QTy) (b : Word) : FVal :=
  match t with
  | .e4m3 => fmtF32.decode (fld b 0 32)
  | .e2m1 => fmtE8m0.decode (fld b 0 8)
/-- Element q ÷ s converted .rne into a packed format, rounded once from the exact quotient (R141). -/
def qPut (t : QTy) (x s : FVal) : Nat :=
  match x, s with
  | .fin n m e, .fin k m' e' =>
    if m' = 0 ∨ m = 0 then (qFmt t).put .rne (match m, m' with | 0, 0 => .nan true | 0, _ => .fin (n != k) 0 0 | _, _ => .inf (n != k))
    else (qFmt t).div .rne (.fin n m e) (.fin k m' e')
  | .nan _, _ | _, .nan _ | .inf _, .inf _ => (qFmt t).nan
  | .inf n, .fin k _ _ => (qFmt t).put .rne (.inf (n != k))
  | .fin n _ _, .inf k => (qFmt t).put .rne (.fin (n != k) 0 0)
/-- Elements packed lowest first (R43). -/
def packElems (w : Nat) : List Nat → Nat
  | [] => 0
  | e :: r => e % 2 ^ w + 2 ^ w * packElems w r

/-- CVTPK: quantises a run of binary32 registers by a scale (R141). -/
def execCvtpk (c : Ctl) (ty : QTy) (d : Reg) (a : Vec) (b : Src) (s : State) : Host.Outcome State Fault Refusal :=
  .next (issue (.cvtpk c ty d a b) c s fun slot _ act s =>
    s.finish slot c.sched .sfu act (wrReg s.grp c.ix d (perLane act fun l =>
      let sc := qScale ty (rdSrc s slot c.ix b l).pay
      let es := (List.range ty.count).map fun k => qPut ty (fmtF32.decode (fld (rdRun s c.ix a k l).pay 0 32)) sc
      .raw (BitVec.ofNat 64 (packElems (qFmt ty).width es)))))

/-- CVTXP: decodes packed elements into a run of registers (R142). -/
def execCvtxp (c : Ctl) (ty : QTy) (d : Vec) (a b : Src) (s : State) : Host.Outcome State Fault Refusal :=
  .next (issue (.cvtxp c ty d a b) c s fun slot _ act s =>
    let w := (qFmt ty).width
    let one (k l : Nat) : Val :=
      let x := (qFmt ty).decode (fld (rdSrc s slot c.ix a l).pay (w * k) w)
      ⟨.f32, BitVec.ofNat 64 (fmtF32.put .rne (x.mul (qScale ty (rdSrc s slot c.ix b l).pay)))⟩
    s.finish slot c.sched .sfu act
      ((List.range ty.count).flatMap fun k => wrRun s.grp c.ix d k (perLane act fun l => one k l)))

/-! ### Tags (R143 to R147) -/

/-- A payload under a tag, canonical by R25; bool takes payload ≠ 0 (R144, R146). -/
def canon (t : Tag) (x : Word) : Val :=
  match t with
  | .bool => .bool (x != 0)
  | .nil => .nil
  | .f32 | .sym => ⟨t, BitVec.ofNat 64 (fld x 0 32)⟩
  | .f16 | .bf16 => ⟨t, BitVec.ofNat 64 (fld x 0 16)⟩
  | .ref => ⟨.ref, BitVec.ofNat 64 (fld x 4 52 * 16)⟩
  | .hnd => ⟨.hnd, BitVec.ofNat 64 (fld x 0 32)⟩
  | .raw | .int | .f64 | .fwd | .pend | .link | .res14 | .res15 => ⟨t, x⟩

/-- An instruction with a value result that takes the tag-forge fault, when `forge` says so, for every Active
lane (R144, R146). -/
def tagOp (i : Instr) (c : Ctl) (d : Reg) (a : Src) (forge : Path → Bool) (f : Val → Val) (s : State) : State :=
  issue i c s fun slot p act s =>
    if forge p && act != 0 then s.trapPath i c.sched 0x07 (p.pc.setWidth 64) act
    else s.finish slot c.sched .alu act (wrReg s.grp c.ix d (perLane act fun l => f (rdSrc s slot c.ix a l)))

/-- Whether BOX names a protected or memory-only tag (R144). -/
def boxForges : BoxForm → Bool
  | .ofType _ => false
  | .ofTag t => 9 ≤ t.code
/-- The value BOX makes (R144). -/
def boxVal (f : BoxForm) (x : Val) : Val :=
  match f with
  | .ofType t => widen t x.pay.toNat
  | .ofTag t => canon t x.pay

/-- BOX (R144). -/
def execBox (c : Ctl) (f : BoxForm) (d : Reg) (a : Src) (s : State) : Host.Outcome State Fault Refusal :=
  .next (tagOp (.box c f d a) c d a (fun _ => boxForges f) (boxVal f) s)

/-- UNBOX (R145). -/
def execUnbox (c : Ctl) (d : Reg) (a : Src) (s : State) : Host.Outcome State Fault Refusal :=
  .next (tagOp (.unbox c d a) c d a (fun _ => false) (fun x => .raw x.pay) s)

/-- TAGOF (R145). -/
def execTagof (c : Ctl) (d : Reg) (a : Src) (s : State) : Host.Outcome State Fault Refusal :=
  .next (tagOp (.tagof c d a) c d a (fun _ => false) (fun x => .int (BitVec.ofNat 64 x.tag.code)) s)

/-- Whether TAGSET takes the tag-forge fault: ref in user mode, hnd, fwd, pend and link in every mode (R146). -/
def tagForges (t : Tag) (p : Path) : Bool := (t == .ref && p.user) || 10 ≤ t.code

/-- TAGSET (R146). -/
def execTagset (c : Ctl) (t : Tag) (d : Reg) (a : Src) (s : State) : Host.Outcome State Fault Refusal :=
  .next (tagOp (.tagset c t d a) c d a (tagForges t) (fun x => canon t x.pay) s)

/-- TAGCHK: bit l takes the bit of the mask that the tag of A numbers (R147). -/
def execTagchk (c : Ctl) (d : Pred) (a : Src) (mask : BitVec 16) (s : State) : Host.Outcome State Fault Refusal :=
  .next (issue (.tagchk c d a mask) c s fun slot _ act s =>
    s.finish slot c.sched .alu act
      (wrPred d (perLane act fun l => mask.getLsbD (rdSrc s slot c.ix a l).tag.code)))

end Sys2Proof.Machine
end

