-- ==== Sys2Proof/Machine/Generic.lean ====
section
/-! DEFINITION. The generic opcodes (spec 11_generic R122 to R130): families, results, the type split of R57. -/
namespace Sys2Proof.Machine

/-! ### Opcodes and families (R124) -/

/-- The generic opcodes, in the order of their opcodes from 0x040. -/
inductive GOp where
  | add | sub | mul | div | fldiv | mod | neg | abs | min | max | fma | eq | ne | lt | le | truth | hash
  | and | or | xor | shl | shr
  deriving DecidableEq, Repr
/-- The dispatch class of an opcode: OPC − 0x040 (Table 11.5). -/
def GOp.cls : GOp → Nat
  | .add => 0 | .sub => 1 | .mul => 2 | .div => 3 | .fldiv => 4 | .mod => 5 | .neg => 6 | .abs => 7 | .min => 8
  | .max => 9 | .fma => 10 | .eq => 11 | .ne => 12 | .lt => 13 | .le => 14 | .truth => 15 | .hash => 16 | .and => 17
  | .or => 18 | .xor => 19 | .shl => 20 | .shr => 21
def GOp.unary : GOp → Bool
  | .neg | .abs | .truth | .hash => true
  | .add | .sub | .mul | .div | .fldiv | .mod | .min | .max | .fma | .eq | .ne | .lt | .le | .and | .or | .xor | .shl
  | .shr => false

/-- The hardware families, in the order of R57. -/
inductive Fam where
  | int | f64 | f32 | half
  deriving DecidableEq, Repr

/-- The family and the format of a float tag. -/
def floatFam : Tag → Option (Fam × Fmt)
  | .f64 => some (.f64, fmtF64)
  | .f32 => some (.f32, fmtF32)
  | .f16 => some (.half, fmtF16)
  | .bf16 => some (.half, fmtBf16)
  | .raw | .int | .bool | .nil | .sym | .ref | .hnd | .fwd | .pend | .link | .res14 | .res15 => none
/-- The numeric tags (R124). -/
def numeric (t : Tag) : Bool :=
  t == .int || t == .f64 || t == .f32 || t == .f16 || t == .bf16 || t == .bool
/-- Tags whose equal pairs EQ and NE compare in the int family (Table 11.2). -/
def eqTag (t : Tag) : Bool :=
  t == .int || t == .bool || t == .nil || t == .sym || t == .raw || t == .hnd || t == .ref

/-- The family of a pair of equal tags: int, or the float family. -/
def pairFam (a b : Tag) : Option Fam :=
  if a = b then if a = .int then some .int else (floatFam a).map Prod.fst else none
/-- R124: the family of a lane, or none for a lane of the dispatch table. -/
def famOf (op : GOp) (a b c : Tag) : Option Fam :=
  match op with
  | .add | .sub | .mul | .div | .fldiv | .mod | .min | .max | .lt | .le => pairFam a b
  | .neg | .abs => pairFam a a
  | .fma => if b = c then pairFam a b else none
  | .eq | .ne =>
    if a = b then if eqTag a then some .int else (floatFam a).map Prod.fst
    else if numeric a && numeric b then none else some .int
  | .truth => if a = .int ∨ a = .bool ∨ a = .nil then some .int else (floatFam a).map Prod.fst
  | .hash => if a = .int ∨ a = .bool then some .int else (floatFam a).map Prod.fst
  | .and | .or | .xor => if a = b ∧ (a = .int ∨ a = .bool) then some .int else none
  | .shl | .shr => if a = .int ∧ b = .int then some .int else none

/-! ### Results -/

/-- The exact int result e of R125; none is LaneHandler(int-overflow). -/
def intOp (op : GOp) (x y z : Int) : Option Int :=
  match op with
  | .add => some (x + y)
  | .sub => some (x - y)
  | .mul => some (x * y)
  | .fma => some (x * y + z)
  | .neg => some (-x)
  | .abs => some x.natAbs
  | .min => some (min x y)
  | .max => some (max x y)
  | .fldiv => if y = 0 then none else some (floorQuot (x < 0) x.natAbs 0 (y < 0) y.natAbs 0)
  | .mod => if y = 0 then none else some (x - y * floorQuot (x < 0) x.natAbs 0 (y < 0) y.natAbs 0)
  | .shl => if y < 0 ∨ (64 ≤ y ∧ x ≠ 0) then none else some (if x = 0 then 0 else x * 2 ^ y.toNat)
  | .shr => if y < 0 then none else some (if 64 ≤ y then (if x < 0 then -1 else 0) else x / 2 ^ y.toNat)
  | .div | .eq | .ne | .lt | .le | .truth | .hash | .and | .or | .xor => none
/-- DIV of two ints: the quotient rounded to binary64 (R125). -/
def intDiv (r : Rnd) (x y : Int) : Nat :=
  if x = 0 then 0 else fmtF64.div r (.fin (x < 0) x.natAbs 0) (.fin (y < 0) y.natAbs 0)

/-- The bitwise operation of AND, OR and XOR. -/
def bitOp (op : GOp) (x y : Word) : Word :=
  match op with
  | .and => x &&& y
  | .or => x ||| y
  | _ => x ^^^ y

/-- HASH of a float code (R129). -/
def hashFloat (f : Fmt) (x : Nat) : Word :=
  match f.decode x with
  | .nan _ => mix 0x7FF8000000000000
  | .inf n => mix (BitVec.ofNat 64 (fmtF64.infOf n))
  | .fin n m e =>
    let k := floorFin n m e
    let whole := 0 ≤ e || m % 2 ^ (-e).toNat == 0
    if whole && intLo ≤ k && k ≤ intHi then mix (BitVec.ofInt 64 k)
    else mix (BitVec.ofNat 64 (fmtF64.round .rne n m e))

/-- The value a value opcode writes in the int family; none raises int-overflow (R125, R129). -/
def intResult (op : GOp) (r : Rnd) (a b c : Val) : Option Val :=
  match op with
  | .div => if b.pay = 0 then none else some ⟨.f64, BitVec.ofNat 64 (intDiv r a.pay.toInt b.pay.toInt)⟩
  | .and | .or | .xor => some ⟨a.tag, bitOp op a.pay b.pay⟩
  | .hash => some (.int (mix a.pay))
  | _ =>
    match intOp op a.pay.toInt b.pay.toInt c.pay.toInt with
    | some e => if intOverflow e then none else some (.ofInt e)
    | none => none
/-- The value a value opcode writes in a float family (R126, R127, R129). -/
def floatResult (op : GOp) (r : Rnd) (t : Tag) (f : Fmt) (a b c : Nat) : Val :=
  let x := f.decode a
  let y := f.decode b
  let out (n : Nat) : Val := ⟨t, BitVec.ofNat 64 n⟩
  match op with
  | .add => out (f.put r (x.add r y))
  | .sub => out (f.put r (x.add r y.flip))
  | .mul => out (f.put r (x.mul y))
  | .div => out (f.div r x y)
  | .fma => out (f.put r ((x.mul y).add r (f.decode c)))
  | .fldiv => out (f.fldiv x y)
  | .mod => out (f.fmod x y)
  | .neg => out (f.put .rne x.flip)
  | .abs => out (if x.neg then f.put .rne x.flip else f.put .rne x)
  | .min => out (f.minmax false a b)
  | .max => out (f.minmax true a b)
  | .hash => .int (hashFloat f a)
  | .eq | .ne | .lt | .le | .truth | .and | .or | .xor | .shl | .shr => out f.nan
/-- The payload of a float operand: the field of its tag (R25). -/
def floatPay (f : Fmt) (x : Val) : Nat := x.pay.toNat % 2 ^ f.width
/-- The value a value opcode writes in a lane of a hardware family. -/
def genResult (op : GOp) (r : Rnd) (a b c : Val) : Option Val :=
  match floatFam a.tag with
  | some (_, f) => some (floatResult op r a.tag f (floatPay f a) (floatPay f b) (floatPay f c))
  | none => intResult op r a b c

/-- The bit a comparison or TRUTH sets in a lane of a hardware family (Table 11.4). -/
def genBit (op : GOp) (a b : Val) : Bool :=
  match floatFam a.tag with
  | some (_, f) =>
    let x := f.decode (floatPay f a)
    let y := f.decode (floatPay f b)
    let same := a.tag == b.tag
    match op with
    | .eq => same && fcond .eq x y
    | .ne => !same || fcond .ne x y
    | .lt => fcond .lt x y
    | .le => fcond .le x y
    | _ => !x.isZero
  | none =>
    match op with
    | .eq => a.tag == b.tag && a.pay == b.pay
    | .ne => !(a.tag == b.tag && a.pay == b.pay)
    | .lt => a.pay.toInt < b.pay.toInt
    | .le => a.pay.toInt ≤ b.pay.toInt
    | _ => a.tag != .nil && a.pay != 0

/-! ### Condemned pages (R239, R128) -/

/-- What the translation of a ref's target gives. -/
inductive Cond where
  | missing
  | malformed
  | page (condemned : Bool) (pa : Nat) (size : Nat)
  | dropped
  deriving DecidableEq, Repr
/-- The translation of a ref's target as a read, permissions left aside (R239); a walk that a closed link stops refuses. -/
def State.condOf (s : State) (core aspace va : Nat) : Cond × State :=
  match s.translate core aspace va with
  | (.missing, s) => (.missing, s)
  | (.malformed, s) => (.malformed, s)
  | (.dropped _, s) => (.dropped, s)
  | (.leaf pte size, s) => (.page (pteCond pte) (leafPA pte size va) size, s)

/-- What EQ or NE finds of the targets of two refs. -/
structure RefScan where
  miss : List (Nat × Nat × Mask × Bool)
  bad : List (Nat × BitVec 8 × Nat)
  cond : List Nat
  deriving DecidableEq, Repr
/-- The targets of lane l's refs; one that is malformed, or whose record was resolved unmappable, gives the lane 0x06. -/
def State.scanRefs (s : State) (dead : Dead) (l : Nat) (r : RefScan) : List Nat → RefScan × State
  | [] => (r, s)
  | va :: rest =>
    match (if dead.at l va then (.malformed, s) else s.condOf s.grp.core s.myAspace va) with
    | (.missing, s) => s.scanRefs dead l { r with miss := addMiss r.miss va l false } rest
    | (.malformed, s) => s.scanRefs dead l { r with bad := r.bad ++ [(l, 0x06, va)] } rest
    | (.dropped, s) => s.scanRefs dead l { r with bad := r.bad ++ [(l, 0x05, va)] } rest
    | (.page c _ _, s) => s.scanRefs dead l (if c then { r with cond := r.cond ++ [l] } else r) rest
/-- The lanes of EQ or NE that compare two refs with different payloads (Table 11.4). -/
def State.scanAll (op : GOp) (dead : Dead) : List (Nat × Val × Val × Val) → RefScan → State → RefScan × State
  | [], r, s => (r, s)
  | (l, a, b, _) :: rest, r, s =>
    if (op = .eq ∨ op = .ne) ∧ a.tag = .ref ∧ b.tag = .ref ∧ a.pay ≠ b.pay then
      let (r, s) := s.scanRefs dead l r [a.pay.toNat, b.pay.toNat]
      State.scanAll op dead rest r s
    else State.scanAll op dead rest r s

/-! ### Execution -/

/-- The operand an immediate of TYPE 0 makes (R90). -/
def gimmVal : GImm → Val
  | .int i => .int (i.signExtend 64)
  | .f32 i => ⟨.f32, i.setWidth 64⟩
  | .bool b => .bool b
/-- R123: an f32 immediate is widened exactly in a lane whose A is f64. -/
def gimmFor (t : Tag) (i : GImm) : Val :=
  match t, i with
  | .f64, .f32 x => ⟨.f64, BitVec.ofNat 64 (fmtF64.put .rne (fmtF32.decode x.toNat))⟩
  | _, i => gimmVal i

/-- A destination: a value or a predicate. -/
inductive GDst where
  | val (d : Reg)
  | pred (d : Pred)
  deriving DecidableEq, Repr

/-- The operands of the Active lanes: A, B (or the immediate), C. An operand that an opcode does not have is nil, and so is what a
raised lane's staging holds for it: Table 11.7 does not say what v[SBASE+1] holds for NEG, ABS, TRUTH and HASH (R136; DESIGN CHOICE,
log entry 84). -/
def genOperands (s : State) (slot : Bool) (ix : BitVec 3) (a : Src) (b : Option GSrc) (k : Option Src) (act : Mask) :
    List (Nat × Val × Val × Val) :=
  perLane act fun l =>
    let x := rdSrc s slot ix a l
    let y := match b with
      | some (.reg r) => rdSrc s slot ix r l
      | some (.imm i) => gimmFor x.tag i
      | none => Val.nil
    let z := match k with
      | some r => rdSrc s slot ix r l
      | none => Val.nil
    (x, y, z)

/-- A lane raised with its operands in staging (Table 11.7). -/
def genRaise (op : GOp) (cls : Nat) (e : Nat × Val × Val × Val) : Raise where
  lane := e.1
  cls := cls
  tagA := e.2.1.tag.code
  tagB := if op.unary then 0 else e.2.2.1.tag.code
  s0 := e.2.1
  s1 := e.2.2.1
  s2 := e.2.2.2

/-- The latency of a family (R78). -/
def genLat (op : GOp) (f : Option Fam) : Lat :=
  if op = .div ∨ op = .fldiv ∨ op = .mod then .sfu else if f = some .f64 then .f64 else .alu

/-- R57: the lanes of a type split. -/
def typeSplit (i : Instr) (sc : Sched) (op : GOp) (b : Bool) (p : Path) (act : Mask)
    (ops : List (Nat × Val × Val × Val)) (fam : Nat × Val × Val × Val → Option Fam) (s : State) : State :=
  let dead := p.dead
  let rs := (ops.filter fun e => (fam e).isNone).map (genRaise op op.cls)
  match s.dispatch p dead rs with
  | ((miss@(_ :: _), _, _), s) =>
    s.replay b { what := .instr, active := act, pmask := p.mask &&& ~~~act, bad := dead, got := [], raises := [], stop := none }
      miss false
  | (([], hs, bad), s) =>
    let k := faceOf s i
    match lowestBad bad with
    | some (_, cause, faddr) => (s.spend sc).takeTrap k cause faddr 0 (maskOf (bad.map Prod.fst)) true
    | none =>
      let nt := p.mask &&& ~~~act
      let at_ (f : Fam) : Mask := maskOf ((ops.filter fun e => fam e == some f).map Prod.fst)
      let fams := ([Fam.int, .f64, .f32, .half].map at_).filter fun m => m != 0
      let fs : List Child :=
        match fams with
        | m :: r => ⟨p.pc, m ||| nt, none⟩ :: r.map fun m => ⟨p.pc, m, none⟩
        | [] => []
      let past : List Child := if fams.isEmpty && nt != 0 then [⟨p.pc + 16, nt, none⟩] else []
      let cs := fs ++ hs.map (fun h => h.child k p.pc) ++ past
      match ((s.grp.flushFixed p.mask).wrs (hs.flatMap HChild.staging)).split (s.now + 1) b p (p.pc + 16) cs with
      | some g => ({ s with grp := g }).spend sc
      | none => s.trapPath i sc 0x0B (p.pc.setWidth 64) act

/-- The execution of a generic opcode for lanes of one family: results, int-overflow (R125) and the barrier class of
EQ and NE (R128). -/
def genRun (i : Instr) (c : Ctl) (op : GOp) (r : Rnd) (d : GDst) (b : Bool) (p : Path) (act : Mask)
    (ops : List (Nat × Val × Val × Val)) (f : Option Fam) (s : State) : State :=
  let dead := p.dead
  let (scan, s) := State.scanAll op dead ops ⟨[], [], []⟩ s
  match scan.miss with
  | miss@(_ :: _) =>
    s.replay b { what := .instr, active := act, pmask := p.mask &&& ~~~act, bad := dead, got := [], raises := [], stop := none }
      miss false
  | [] =>
    let bad := scan.bad
    let T := maskOf (bad.map Prod.fst)
    let stop : Option (Mask × BitVec 8 × Word) :=
      match lowestBad (bad.map fun e => (e.1, e.2.1, BitVec.ofNat 64 e.2.2)) with
      | some (_, cause, faddr) => some (T, cause, faddr)
      | none => none
    let good := ops.filter fun e => !T.getLsbD e.1
    let hot (e : Nat × Val × Val × Val) : Bool := scan.cond.contains e.1
    let barrier := (good.filter hot).map (genRaise op 50)
    match d with
    | .pred q =>
      let ws := wrPred q ((good.filter fun e => !hot e).map fun e => (e.1, genBit op e.2.1 e.2.2.1))
      (s.retire b c.sched (genLat op f) (act &&& ~~~(maskOf (barrier.map Raise.lane) ||| T)) ws).raiseClasses b (faceOf s i) act dead barrier stop
    | .val q =>
      let out := good.map fun e => (e, genResult op r e.2.1 e.2.2.1 e.2.2.2)
      let vals := out.filterMap fun e => e.2.map fun x => (e.1.1, x)
      let big := (out.filter fun e => e.2.isNone).map fun e => genRaise op 48 e.1
      (s.retire b c.sched (genLat op f) (act &&& ~~~(maskOf (big.map Raise.lane) ||| T))
        (wrReg s.grp c.ix q (keepFor q act vals))).raiseClasses b (faceOf s i) act dead big stop

/-- A generic opcode (R57, R122 to R130). -/
def generic (i : Instr) (c : Ctl) (op : GOp) (r : Rnd) (d : GDst) (a : Src) (b : Option GSrc) (k : Option Src)
    (s : State) : State :=
  issue i c s fun slot p act s =>
    let ops := genOperands s slot c.ix a b k act
    let fam (e : Nat × Val × Val × Val) : Option Fam := famOf op e.2.1.tag e.2.2.1.tag e.2.2.2.tag
    match ops with
    | [] => genRun i c op r d slot p act [] none s
    | e :: _ =>
      if (fam e).isSome && ops.all fun x => fam x == fam e then genRun i c op r d slot p act ops (fam e) s
      else typeSplit i c.sched op slot p act ops fam s

/-- A two-source opcode with a value result. -/
def generic2 (i : Instr) (c : Ctl) (op : GOp) (r : Rnd) (d : Reg) (a : Src) (b : GSrc) (s : State) : State :=
  generic i c op r (.val d) a (some b) none s
/-- A one-source opcode with a value result. -/
def generic1 (i : Instr) (c : Ctl) (op : GOp) (d : Reg) (a : Src) (s : State) : State :=
  generic i c op .rne (.val d) a none none s
/-- A comparison. -/
def genericP (i : Instr) (c : Ctl) (op : GOp) (d : Pred) (a : Src) (b : GSrc) (s : State) : State :=
  generic i c op .rne (.pred d) a (some b) none s

/-! ### The opcodes -/

/-- ADD (R125, R126). -/
def execAdd (c : Ctl) (r : Rnd) (d : Reg) (a : Src) (b : GSrc) (s : State) : Host.Outcome State Fault Refusal :=
  .next (generic2 (.add c r d a b) c .add r d a b s)

/-- SUB (R125, R126). -/
def execSub (c : Ctl) (r : Rnd) (d : Reg) (a : Src) (b : GSrc) (s : State) : Host.Outcome State Fault Refusal :=
  .next (generic2 (.sub c r d a b) c .sub r d a b s)

/-- MUL (R125, R126). -/
def execMul (c : Ctl) (r : Rnd) (d : Reg) (a : Src) (b : GSrc) (s : State) : Host.Outcome State Fault Refusal :=
  .next (generic2 (.mul c r d a b) c .mul r d a b s)

/-- DIV: int operands give f64 (R125, R126). -/
def execDiv (c : Ctl) (r : Rnd) (d : Reg) (a : Src) (b : GSrc) (s : State) : Host.Outcome State Fault Refusal :=
  .next (generic2 (.div c r d a b) c .div r d a b s)

/-- FLDIV: the floor of the quotient (R125, R127). -/
def execFldiv (c : Ctl) (d : Reg) (a : Src) (b : GSrc) (s : State) : Host.Outcome State Fault Refusal :=
  .next (generic2 (.fldiv c d a b) c .fldiv .rne d a b s)

/-- MOD: the remainder of FLDIV (R125, R127). -/
def execMod (c : Ctl) (d : Reg) (a : Src) (b : GSrc) (s : State) : Host.Outcome State Fault Refusal :=
  .next (generic2 (.mod c d a b) c .mod .rne d a b s)

/-- NEG (R125, R126). -/
def execNeg (c : Ctl) (d : Reg) (a : Src) (s : State) : Host.Outcome State Fault Refusal :=
  .next (generic1 (.neg c d a) c .neg d a s)

/-- ABS (R125, R126). -/
def execAbs (c : Ctl) (d : Reg) (a : Src) (s : State) : Host.Outcome State Fault Refusal :=
  .next (generic1 (.abs c d a) c .abs d a s)

/-- MIN (R125, R126). -/
def execMin (c : Ctl) (d : Reg) (a : Src) (b : GSrc) (s : State) : Host.Outcome State Fault Refusal :=
  .next (generic2 (.min c d a b) c .min .rne d a b s)

/-- MAX (R125, R126). -/
def execMax (c : Ctl) (d : Reg) (a : Src) (b : GSrc) (s : State) : Host.Outcome State Fault Refusal :=
  .next (generic2 (.max c d a b) c .max .rne d a b s)

/-- FMA (R125, R126). -/
def execFma (c : Ctl) (r : Rnd) (d : Reg) (a : Src) (b : GSrc) (k : Src) (s : State) : Host.Outcome State Fault Refusal :=
  .next (generic (.fma c r d a b k) c .fma r (.val d) a (some b) (some k) s)

/-- EQ (R128). -/
def execEq (c : Ctl) (d : Pred) (a : Src) (b : GSrc) (s : State) : Host.Outcome State Fault Refusal :=
  .next (genericP (.eq c d a b) c .eq d a b s)

/-- NE (R128). -/
def execNe (c : Ctl) (d : Pred) (a : Src) (b : GSrc) (s : State) : Host.Outcome State Fault Refusal :=
  .next (genericP (.ne c d a b) c .ne d a b s)

/-- LT (R128). -/
def execLt (c : Ctl) (d : Pred) (a : Src) (b : GSrc) (s : State) : Host.Outcome State Fault Refusal :=
  .next (genericP (.lt c d a b) c .lt d a b s)

/-- LE (R128). -/
def execLe (c : Ctl) (d : Pred) (a : Src) (b : GSrc) (s : State) : Host.Outcome State Fault Refusal :=
  .next (genericP (.le c d a b) c .le d a b s)

/-- TRUTH (R128). -/
def execTruth (c : Ctl) (d : Pred) (a : Src) (s : State) : Host.Outcome State Fault Refusal :=
  .next (generic (.truth c d a) c .truth .rne (.pred d) a none none s)

/-- HASH (R129). -/
def execHash (c : Ctl) (d : Reg) (a : Src) (s : State) : Host.Outcome State Fault Refusal :=
  .next (generic1 (.hash c d a) c .hash d a s)

/-- AND of two ints or two bools (R125). -/
def execAnd (c : Ctl) (d : Reg) (a : Src) (b : GSrc) (s : State) : Host.Outcome State Fault Refusal :=
  .next (generic2 (.and c d a b) c .and .rne d a b s)

/-- OR of two ints or two bools (R125). -/
def execOr (c : Ctl) (d : Reg) (a : Src) (b : GSrc) (s : State) : Host.Outcome State Fault Refusal :=
  .next (generic2 (.or c d a b) c .or .rne d a b s)

/-- XOR of two ints or two bools (R125). -/
def execXor (c : Ctl) (d : Reg) (a : Src) (b : GSrc) (s : State) : Host.Outcome State Fault Refusal :=
  .next (generic2 (.xor c d a b) c .xor .rne d a b s)

/-- SHL of an int (R125). -/
def execShl (c : Ctl) (d : Reg) (a : Src) (b : GSrc) (s : State) : Host.Outcome State Fault Refusal :=
  .next (generic2 (.shl c d a b) c .shl .rne d a b s)

/-- SHR of an int (R125). -/
def execShr (c : Ctl) (d : Reg) (a : Src) (b : GSrc) (s : State) : Host.Outcome State Fault Refusal :=
  .next (generic2 (.shr c d a b) c .shr .rne d a b s)

end Sys2Proof.Machine
end

