-- ==== Sys2Proof/Machine/Kick.lean ====
section
/-! DEFINITION. Queues as the doorbell window and firmware reach them: control blocks, kicks and stops (spec 31_scheduling R343 to R345). -/
namespace Sys2Proof.Machine

/-- Changing a queue. -/
def State.modQueue (s : State) (q : Nat) (f : Queue → Queue) : State :=
  { s with queues := updWhere s.queues (fun k => k.id == q) f }

/-- The physical address that an address space maps an address to, as firmware walks it; none where the walk finds
no leaf. -/
def State.firmPA (s : State) (aspace va : Nat) : Option Nat :=
  match s.walk aspace va with
  | .leaf pte size => some (leafPA pte size va)
  | .missing | .malformed | .dropped _ => none
/-- A number that firmware writes at an address of an address space. -/
def State.firmPut (s : State) (aspace va n x : Nat) : State :=
  match s.firmPA aspace va with
  | some pa => s.putNat pa n x
  | none => s

/-- The device fields of the queue's control block take the values firmware holds, where the block stands now (Tables 31.1, 31.2). -/
def State.showQueue (s : State) (q : Nat) : State :=
  match s.queue? q with
  | none => s
  | some k =>
    let s := s.modQueue q fun x => { x with pa := (s.firmPA k.aspace k.qcb).getD x.pa }
    let s := s.firmPut k.aspace (k.qcb + 32) 8 k.widx
    let s := s.firmPut k.aspace (k.qcb + 40) 8 k.sidx
    let s := s.firmPut k.aspace (k.qcb + 48) 8 k.cidx
    s.firmPut k.aspace (k.qcb + 56) 4 (k.state + 256 * k.err)

/-- A packet of a queue that has started. -/
def Queue.packet? (k : Queue) (i : Nat) : Option Packet := k.packets.find? fun p => p.idx == i
/-- Changing a started packet. -/
def State.modPacket (s : State) (q i : Nat) (f : Packet → Packet) : State :=
  s.modQueue q fun k => { k with packets := updWhere k.packets (fun p => p.idx == i) f }

/-- R345: a queue stops with an ERR code; it starts no further packet. -/
def State.stopQueue (s : State) (q err : Nat) : State :=
  match s.queue? q with
  | none => s
  | some k =>
    let s := s.modQueue q fun k => { k with state := 2, err := err }
    (s.showQueue q).pulseSrc (some k.pid) 3 (coreTrace k.die 0xFFFF q)

/-- R343: a write of W to the kick register of a queue. -/
def State.kick (s : State) (q : Nat) (w : Word) : State :=
  match s.queue? q with
  | none => s
  | some k =>
    if k.state ≠ 1 ∨ w.toNat ≤ k.widx then s
    else if 2 ^ k.log2n < w.toNat - k.cidx then s.stopQueue q 2
    else (s.modQueue q fun k => { k with widx := w.toNat }).showQueue q

end Sys2Proof.Machine
end

