-- ==== Sys2Proof/Machine/Waits.lean ====
section
/-! DEFINITION. Barrier objects (R245, R246), the wait unit (R255), and how a path that waits on barriers is tested and goes on (R251, R252). -/
namespace Sys2Proof.Machine

/-! ### The end of a wait -/

/-- The results of a path that has waited: as `State.retire`, for a group that need not be the issuing one. -/
def Group.retireWait (g : Group) (b : Bool) (sc : Sched) (act : Mask) (ws : List RegWrite) : Group :=
  let g := if ws.all g.same then g
    else g.modSlot b fun p => { p with spin := { p.spin with changed := true } }
  g.retire b sc none act ws
/-- A path that has waited goes on past its instruction. -/
def Group.wake (g : Group) (now : Nat) (b : Bool) : Group :=
  g.next now b

/-- The clock at which a limit passes for a wait that starts now: 2^(e+5) clocks, none for e = 31 (R250); while its
launch is frozen the limit counts from the freeze, and falls later with the others at the thaw (R408). -/
def State.deadline (s : State) (blk : Nat) (e : BitVec 5) : Option Nat :=
  if e = 31 then none
  else
    let from_ := match (s.blk? blk).bind Block.frozenAt with | some t => t | none => s.now
    some (from_ + 2 ^ (e.toNat + 5))
/-- Whether a limit has passed: never while the launch is frozen. -/
def State.expired (s : State) (blk : Nat) (d : Option Nat) : Bool :=
  match d with
  | some t => t ≤ s.now && ((s.blk? blk).bind Block.frozenAt).isNone
  | none => false

/-! ### Barrier objects -/

/-- The fields of a barrier object (Table 21.1). -/
structure BarObj where
  pena : Nat
  expa : Nat
  phase : Nat
  penb : Nat
  expb : Nat
  deriving DecidableEq, Repr

/-- The object at a flat scratchpad address, when it is valid (R246). -/
def State.barAt (s : State) (a : Nat) : Option BarObj :=
  let x := s.spdWord (a / 8)
  let y := s.spdWord (a / 8 + 1)
  let o : BarObj := ⟨fld x.pay 48 16, fld x.pay 32 16, fld x.pay 0 32, fld y.pay 32 32, fld y.pay 0 32⟩
  if x.tag = .raw ∧ y.tag = .raw ∧ 1 ≤ o.expa ∧ o.pena ≤ o.expa ∧ o.expb < 2 ^ 31 then some o else none
/-- The two words of an object. -/
def BarObj.words (o : BarObj) : Val × Val :=
  (.raw (BitVec.ofNat 64 (o.pena * 2 ^ 48 + o.expa * 2 ^ 32 + o.phase)), .raw (BitVec.ofNat 64 (o.penb * 2 ^ 32 + o.expb)))

/-! ### Waiting on barriers -/

/-- A decided lane among the others, in lane order. -/
def insStatus {α : Type} (l : Nat) (x : α) : List (Nat × α) → List (Nat × α)
  | [] => [(l, x)]
  | (k, y) :: r => if l < k then (l, x) :: (k, y) :: r else (k, y) :: insStatus l x r

/-- The test of a lane: 2 for an invalid object, 0 for a phase that differs, none while undecided (R252). -/
def State.barTest (s : State) (l : BarLane) : Option Nat :=
  match s.barAt l.obj with
  | none => some 2
  | some o => if o.phase = l.phase.toNat then none else some 0

/-- A wait with the lanes that `f` decides decided. -/
def BarWait.decide (w : BarWait) (f : BarLane → Option Nat) : BarWait :=
  { w with
    lanes := w.lanes.filter fun l => (f l).isNone
    status := w.lanes.foldl (fun st l => match f l with | some x => insStatus l.lane x st | none => st) w.status }

/-- A path's barrier wait after a test: it goes on waiting, or ends with its statuses, and acquires when a lane has
status 0 (R252). -/
def State.putBar (s : State) (blk grp : Nat) (b : Bool) (w : BarWait) : State :=
  match w.lanes with
  | _ :: _ => s.modGrp blk grp fun g => g.modSlot b fun p => { p with wait := .bar w }
  | [] =>
    match s.grp? blk grp with
    | none => s
    | some g =>
      let ws := wrNum w.d (w.status.map fun e => (e.1, Val.ofInt e.2))
      let s := s.modGrp blk grp fun g => (g.retireWait b w.ctl.sched w.active ws).wake (s.now + 1) b
      if w.status.any fun e => e.2 == 0 then s.acquireFor g.core blk grp ((g.slot b).map Path.mask |>.getD 0) else s

/-- A change of the barrier waits of every path, the lanes decided by `f`. -/
def State.decideBars (s : State) (f : BarLane → Option Nat) : State :=
  s.allGroups.foldl (fun s g =>
    let one (b : Bool) (s : State) : State :=
      match g.slot b with
      | some p =>
        match p.wait with
        | .bar w => if w.lanes.any fun l => (f l).isSome then s.putBar g.blk g.grp b (w.decide f) else s
        | _ => s
      | none => s
    one true (one false s)) s

/-- R252: a write to a word of a registered object tests it again. -/
def State.testBars (s : State) (w : Nat) : State :=
  s.decideBars fun l => if l.registered && l.obj / 8 ≤ w && w ≤ l.obj / 8 + 1 then s.barTest l else none
/-- The stores that have reached a scratchpad test the objects whose words they wrote (R252). -/
def State.testWritten (s : State) : State := s.written.eraseDups.foldl State.testBars { s with written := [] }
/-- R249, R251: a BARINIT of an object ends every wait registered on it with status 3. -/
def State.abandonBars (s : State) (a : Nat) : State :=
  s.decideBars fun l => if l.registered && l.obj == a then some 3 else none

/-- A write to a word of a scratchpad bank, with the tests it causes. -/
def State.bankWrite (s : State) (by_ : Option Writer) (b : Bank) (w : Nat) (x : Val) : State :=
  match b with
  | .spd => (s.putBank by_ .spd w x).testBars w
  | .chp => s.putBank by_ .chp w x

/-- Before an agent acts on the words of an object at their bank, the stores that come before are registered (R205, R246). -/
def State.drainObj (s : State) (me : Option Writer) (a : Nat) : State :=
  (s.drainFor me (bankKey .spd (a / 8))).drainFor me (bankKey .spd (a / 8 + 1))
/-- Both words of an object are written at once (R246). -/
def State.putObj (s : State) (by_ : Option Writer) (a : Nat) (x y : Val) : State :=
  ((s.putBank by_ .spd (a / 8) x).putBank by_ .spd (a / 8 + 1) y).testBars (a / 8)

/-- Update of R246: an arrival or none, bytes added, bytes subtracted. -/
def State.barUpdate (s : State) (by_ : Option Writer) (a : Nat) (arr : Bool) (add sub : Nat) : Int × State :=
  match s.barAt a with
  | none => (-2, s)
  | some o =>
    if arr && o.pena == 0 then (-1, s)
    else
      let pena := if arr then o.pena - 1 else o.pena
      let penb := (o.penb + add + 2 ^ 32 - sub % 2 ^ 32) % 2 ^ 32
      let n : BarObj :=
        if pena = 0 ∧ penb = 0 then { o with phase := (o.phase + 1) % 2 ^ 32, pena := o.expa, penb := o.expb }
        else { o with pena := pena, penb := penb }
      let (x, y) := n.words
      (o.phase, if n = o then s else s.putObj by_ a x y)

/-- BARINIT's effect on an object (R249). -/
def State.barInit (s : State) (by_ : Option Writer) (a arrivals bytes : Nat) : State :=
  let (x, y) := BarObj.words ⟨arrivals, arrivals, 0, bytes, bytes⟩
  (s.abandonBars a).putObj by_ a x y

/-! ### The window of a numbered barrier (R226, R304) -/

/-- The first byte of a block's allocation on a core. -/
def Block.spdOn (b : Block) (core : Nat) : Option Nat := (b.spdBase.find? fun e => e.1 == core).map Prod.snd
/-- The object of numbered barrier n, when the block declares it. -/
def Block.barrier (b : Block) (core n : Nat) : Option Nat :=
  match b.spec.bars[n]?, b.spdOn core with
  | some (off, count), some x => if count = 0 then none else some (spdFlat core (x + off))
  | _, _ => none
/-- The slot's contents where group code wrote its bytes in a race (R226): free values (DEDUCED, log entry 19). -/
def TileData.raced (d : TileData) (n : Nat) : TileData :=
  let w := match d.fmt with | .bf16 => 16 | .e4m3 => 8 | .e2m1 => 4
  let fw (k : Nat) : Word := Config.freeWord (n + k)
  { d with
    elems := d.elems.zipIdx.map fun e => BitVec.ofNat 16 ((fw e.2).toNat % 2 ^ w)
    sa := d.sa.zipIdx.map fun e => (fw (0x10000 + e.2)).setWidth 32
    sb := (fw 0x18000).setWidth 32
    es := d.es.zipIdx.map fun e => (fw (0x20000 + e.2)).setWidth 8 }
/-- Changing the stream of a block. -/
def State.modStream (s : State) (id : Nat) (f : Stream → Stream) : State :=
  s.modBlk id fun b => { b with stream := b.stream.map f }
/-- A path has arrived at an object: where it is a numbered barrier of a block with a stream, what it writes from now on lies in
the barrier's window. -/
def State.arrivedAt (s : State) (me : Writer) (obj : Nat) : State :=
  match s.blk? me.blk with
  | none => s
  | some b =>
    if b.stream.isNone then s
    else
      let ns := (List.range 16).filter fun n => b.barrier (b.cores.headD 0) n == some obj
      if ns.isEmpty then s
      else s.modStream me.blk fun t => { t with arrived := ns.map (fun n => (n, me.grp, me.mask)) ++ t.arrived }
/-- Whether two entries name a byte in common. -/
def StreamWord.meets (x y : StreamWord) : Bool :=
  x.bar == y.bar && x.sp == y.sp && x.word == y.word && (x.bytes &&& y.bytes) != 0
/-- A slot takes free values. -/
def State.spoilSlot (s : State) (id slot : Nat) : State :=
  let n := s.freeCtr
  { s.modStream id fun t => { t with slots := t.slots.map fun e => if e.1 = slot then (e.1, e.2.map fun d => d.raced n) else e } with
    freeCtr := n + 0x30000 }
/-- A path has written bytes of a word: in the window of a barrier at which its lanes have arrived, a slot loaded from them is
undefined from now on, and so is one that will be (R226) (DEDUCED, log entry 19). -/
def State.lateWrite (s : State) (me : Writer) (sp word : Nat) (bytes : BitVec 8) : State :=
  match (s.blk? me.blk).bind Block.stream with
  | none => s
  | some t =>
    let ns := ((t.arrived.filter fun e => e.2.1 == me.grp && (e.2.2 &&& me.mask) != 0).map Prod.fst).eraseDups
    if ns.isEmpty then s
    else
      let ws := ns.map fun n => (⟨n, sp, word, bytes⟩ : StreamWord)
      let hit := ((t.loads.filter fun e => ws.any e.2.meets).map Prod.fst).eraseDups
      hit.foldl (fun s k => s.spoilSlot me.blk k) (s.modStream me.blk fun t => { t with late := ws ++ t.late })
/-- The stream arrives at a barrier: its window starts anew. -/
def Stream.closeWindow (n : Nat) (t : Stream) : Stream :=
  { t with
    arrived := t.arrived.filter fun e => e.1 != n, late := t.late.filter fun e => e.bar != n
    loads := t.loads.filter fun e => e.2.bar != n }

/-! ### The wait unit (R255) -/

/-- Whether a group holds its place on a core: an ended group does until its stores are registered and it has been released
(R105), a saved or discarded one does not. -/
def Group.resident (g : Group) : Bool := g.st != .none && g.st != .saved && g.st != .discarded

/-- Distinct objects in use by a path's wait. -/
def BarWait.objs (w : BarWait) : List Nat := ((w.lanes.filter BarLane.registered).map BarLane.obj).eraseDups
/-- Entries of a core beyond the two reserved for each resident group that are in use. -/
def State.sharedUsed (s : State) (core : Nat) : Nat :=
  ((s.allGroups.filter fun g => g.core == core && g.resident).map fun g =>
    let one (p : Option Path) : Nat :=
      match p.map Path.wait with
      | some (.bar w) => w.objs.length - 1
      | _ => 0
    one g.slot0 + one g.slot1).sum
/-- Entries beyond the reserve that are free. -/
def State.sharedFree (s : State) (core : Nat) : Nat :=
  let groups := (s.allGroups.filter fun g => g.core == core && g.resident).length
  512 - 2 * groups - s.sharedUsed core
/-- The objects that get an entry: the first from the reserve of the path's slot, the others from the shared ones. -/
def grantObjs (free : Nat) (objs : List Nat) : List Nat := objs.take (1 + free)

end Sys2Proof.Machine
end

