-- ==== Sys2Proof/Machine/Access.lean ====
section
/-! DEFINITION. How every memory instruction reaches memory: addresses and the order of checks (R185, R186), where an access lands, the read barrier (R239 to R243), replay and stops (R63, R186), and ordering (R196, R227). -/
namespace Sys2Proof.Machine

/-! ### Where an access lands -/

/-- The block of the issuing group. -/
def State.myBlk (s : State) : Option Block := s.blk? s.grp.blk
/-- The block's scratchpad declaration. -/
def State.mySpd (s : State) : Nat := (s.myBlk.map fun b => b.spec.spd).getD 0
/-- The job's chip-scratchpad window on the group's die. -/
def State.myWin (s : State) : Option ChpWin := s.myBlk.bind fun b => s.chpWin b.pid b.eff.job (s.grp.core / 72)

/-- R177. -/
def lanAddr (base l o : Nat) : Nat := base + (o / 8) * 256 + l * 8 + o % 8
/-- The core that a .cls address names (R178). -/
def clsCore (core a : Nat) : Nat := core - core % 8 + a / 2 ^ 19 % 8

/-- R185: the range check of a space, then the data address. -/
def State.rangeOk (s : State) (sp : Space) (a : Nat) : Bool :=
  match sp with
  | .glb => a < 2 ^ 56
  | .lan => a < s.grp.lanSize
  | .spd => a < s.mySpd
  | .cls =>
    a / 2 ^ 22 == 0 && a % 2 ^ 19 < s.mySpd &&
      (match s.myBlk with | some b => (b.spdOn (clsCore s.grp.core a)).isSome | none => false)
  | .chp => match s.myWin with | some w => a < w.size | none => false
/-- The data address of a lane: virtual for .glb and .lan, the offset itself elsewhere. -/
def State.dataAddr (s : State) (sp : Space) (l a : Nat) : Nat :=
  match sp with
  | .lan => lanAddr s.grp.lanBase l a
  | .glb | .spd | .cls | .chp => a

/-- Where an access of the issuing path lands (R182, R177, R51, R178, R179). -/
def State.locate (s : State) (p : Path) (sp : Space) (need : Need) (va : Nat) : Found × State :=
  let bankAt (b : Bank) (a : Option Nat) : Found :=
    match a with
    | some a => .home (.bank b a)
    | none => .fault 0x05
  match sp with
  | .spd => (bankAt .spd ((s.myBlk.bind fun b => b.spdOn s.grp.core).map fun x => spdFlat s.grp.core (x + va)), s)
  | .cls =>
    let core := clsCore s.grp.core va
    (bankAt .spd ((s.myBlk.bind fun b => b.spdOn core).map fun x => spdFlat core (x + va % 2 ^ 19)), s)
  | .chp => (bankAt .chp (s.myWin.map fun w => chpFlat w.die (w.base + va)), s)
  | .glb => s.locateGlb p false need va
  | .lan => s.locateGlb p true need va

/-- The sector of a home (R65). -/
def Home.sector : Home → Nat
  | .glb pa _ => pa / 64
  | .stack g _ k => 2 ^ 62 + (g.1 * 128 + g.2) * 32 + k / 64
  | .bank b a => bankSector b (a / 8)
/-- Whether an access through this home sees tags (R30, R425). -/
def Home.tagged : Home → Bool
  | .glb _ pte => pteTag pte
  | .stack .. | .bank _ _ => true
/-- The byte offset of a home in its word. -/
def Home.off : Home → Nat
  | .glb pa _ => pa % 8
  | .stack _ _ k => k % 8
  | .bank _ a => a % 8
/-- What tells two words of one instruction apart (R189). -/
def Home.key : Home → Nat × Nat
  | .glb pa _ => (0, pa / 8)
  | .stack g _ k => (1, (g.1 * 128 + g.2) * 256 + k / 8)
  | .bank .spd a => (2, a / 8)
  | .bank .chp a => (3, a / 8)
/-- The home k words further on, in the same page or bank. -/
def Home.plus (h : Home) (k : Nat) : Home :=
  match h with
  | .glb pa pte => .glb (pa + 8 * k) pte
  | .stack g pa o => .stack g (pa + 8 * k) (o + 8 * k)
  | .bank b a => .bank b (a + 8 * k)

/-! ### Words -/

/-- The word as the path's own pending stores leave it, over its registered value: what the checks of a store meet
(R29). -/
def State.storeSees (s : State) (me : Writer) (h : Home) : Val :=
  match h with
  | .glb pa _ => s.under me (pa / 8) (s.peek (pa / 8))
  | .stack .. => .raw 0
  | .bank b a => s.under me (bankKey b (a / 8)) (s.bankWord b (a / 8))
/-- Whether the word has a stored tag (R31, R425). -/
def State.storesTag (s : State) (h : Home) : Bool :=
  match h with
  | .glb pa _ => s.inTagged (pa / 8)
  | .stack .. => false
  | .bank _ _ => true

/-- R29, R191, R425: the fault a write meets in a stored tag. -/
def tagFault (t : Tag) (fwdToo : Bool) : Option (BitVec 8) :=
  match t with
  | .pend | .link => some 0x08
  | .fwd => if fwdToo then some 0x08 else none
  | .res14 | .res15 => some 0x03
  | .raw | .int | .f64 | .f32 | .f16 | .bf16 | .bool | .nil | .sym | .ref | .hnd => none
/-- Tags that a raw page does not take (R33). -/
def boundTag (x : Val) : Bool := x.tag == .ref || x.tag == .hnd

/-- The path's own stores to the word of a home are registered (R205). -/
def State.settleOwn (s : State) (me : Writer) (h : Home) : State :=
  match h with
  | .glb pa _ => s.drainFor (some me) (pa / 8)
  | .stack .. => s
  | .bank b a => s.drainFor (some me) (bankKey b (a / 8))
/-- The bytes of its word that n bytes at a home lie in. -/
def Home.bytes (h : Home) (n : Nat) : BitVec 8 := BitVec.ofNat 8 ((2 ^ min n 8 - 1) * 2 ^ h.off)
/-- A path has written n bytes at a home: what R226 asks of it. -/
def State.lateWrites (s : State) (me : Writer) (h : Home) (n : Nat) : State :=
  (List.range (max 1 (n / 8))).foldl (fun s j =>
    let k := h.plus j
    s.lateWrite me k.key.1 k.key.2 (k.bytes n)) s

/-- A store of n bytes of a value performs (R188, R32, R33, R209, R199). One to a scratchpad is registered at its bank now, after the
path's own to the word, or on its way there where the turn says so (R206). A kick takes a store of 8 bytes: the spec does not say
what a narrower one does to a kick register, and here it does nothing (R343; DESIGN CHOICE, log entry 85). -/
def State.storeHome (s : State) (me : Writer) (h : Home) (n : Nat) (x : Val) : State :=
  let sh := 8 * h.off
  let bytes : BitVec 8 := BitVec.ofNat 8 ((2 ^ n - 1) * 2 ^ h.off)
  let data : Word := BitVec.ofNat 64 (x.pay.toNat % 2 ^ (8 * n) * 2 ^ sh)
  let tag : Tag := if n = 8 ∧ h.tagged then x.tag else .raw
  let later (s : State) (w : Nat) : State :=
    { s with stores := s.stores ++ [⟨me.blk, me.grp, me.core, me.mask, w, bytes, data, some tag, false⟩] }
  let s := s.lateWrites me h n
  match h with
  | .glb pa pte =>
    if pteMT pte = 2 then
      match rangeOf pa with
      | .doorbell q => if n = 8 ∧ pa % 0x10000 = 0 then s.kick q x.pay else s
      | _ =>
        -- the access goes to its target at once, after the path's own stores to the word (R189, R199)
        let s := s.drainFor (some me) (pa / 8)
        s.regMem (some me) false (pa / 8) ⟨tag, mergeBytes (s.peek (pa / 8)).pay data bytes⟩
    else later s (pa / 8)
  | .stack .. => s
  | .bank b a =>
    let k := bankKey b (a / 8)
    if s.turn.late then later s k
    else
      let s := s.drainFor (some me) k
      s.bankWrite (some me) b (a / 8) ⟨tag, mergeBytes (s.bankWord b (a / 8)).pay data bytes⟩

/-- The word at its home, the stores that come before registered (DEDUCED, log entry 13); the core then owns it, a host word by
its line (R191, Table 17.2). -/
def State.atHome (s : State) (me : Writer) (h : Home) : Val × State :=
  match h with
  | .glb pa _ =>
    let s := s.drainFor (some me) (pa / 8)
    let s := if isHost (pa / 8) then s.ownLine me.core (pa / 128) else s
    let s := s.takeOwn me.core (pa / 8)
    (s.peek (pa / 8), s)
  | .stack .. => (.raw 0, s)
  | .bank b a =>
    let s := s.drainFor (some me) (bankKey b (a / 8))
    (s.bankWord b (a / 8), s)
/-- A word written at its home by a path, n bytes of it from the home's on (Table 17.2, R226). -/
def State.putHome (s : State) (me : Writer) (h : Home) (n : Nat) (x : Val) : State :=
  let s := s.lateWrites me h n
  match h with
  | .glb pa _ =>
    let s := if isHost (pa / 8) then s.askOwn me.core (pa / 128) else s
    s.regWord (some me) (pa / 8) x
  | .stack .. => s
  | .bank b a => s.bankWrite (some me) b (a / 8) x
/-- Whether a home is a non-cacheable page (R191). -/
def Home.uncached : Home → Bool
  | .glb _ pte => pteMT pte == 2
  | .stack .. | .bank _ _ => false

/-- A load's view of a word (R34). -/
def viewOf (t : Ty) (h : Home) (x : Val) : Val :=
  if t.width = 64 ∧ h.tagged then x else widen t (x.pay.toNat / 2 ^ (8 * h.off))

/-! ### The read barrier (R239, R242) -/

/-- What the barrier makes of a ref; `dead` where the record for a page it reaches was resolved unmappable (R371). -/
inductive Barred where
  | val (v : Val) (moved : Bool)
  | raised (v : Val)
  | missing (va : Nat)
  | bad (cause : BitVec 8) (va : Nat)
  | dead (va : Nat)
  deriving DecidableEq, Repr

/-- The 56 address bits of a ref. -/
def refVA (v : Val) : Nat := fld v.pay 0 56

/-- A header word enters a core's header partition, of 4,096 words for each 32 KiB; with none it stands in the data part alone
(R243). Which entries leave a full partition is not given: the core's oldest do (DESIGN CHOICE, log entry 17). -/
def State.keepHeader (s : State) (e : HdrEntry) : State :=
  let n := 4096 * s.hdrPart e.core
  if n = 0 then s
  else
    let mine := s.hdr.filter fun x => x.core == e.core
    let old := mine.take (mine.length + 1 - n)
    { s with hdr := (s.hdr.filter fun x => !old.contains x) ++ [e] }
/-- A header word as the barrier, the redirection of .obj and HDRLD read it: from the core's header entries, or from the L1 and
memory; and whether the core's other copies may be older than it: those of a word read from memory, or of an entry read since the
core's last self-invalidation (R242, R243; DEDUCED, log entry 24). -/
def State.header (s : State) (p : Path) (va pa size : Nat) : Val × Bool × State :=
  let me := s.me p
  let w := pa / 8
  let own := !(s.ownStores me w).isEmpty
  match (if own || s.hdrPart me.core == 0 then none else s.hdr.find? fun e => e.core == me.core && e.word == w) with
  | some e => (e.val, !e.clean, s)
  | none =>
    let (h, s) := s.loadWord me w
    let s := s.passWords me 0 w 1
    (h, true, if own then s else s.keepHeader ⟨me.core, w, s.myAspace, va, size, h, false⟩)

/-- The barrier step for a value; `acq` tells whether the instruction has already taken its self-invalidation, which a forwarded
header read from memory asks for, or one that the core's other copies may be older than. A forwarded header is an acquire event in
any case: no later load of the path has performed yet (R242). -/
def State.bar (s : State) (p : Path) (dead : Dead) (l : Nat) (acq : Bool) (v : Val) : Barred × Bool × State :=
  if v.tag ≠ .ref ∨ (!p.user && s.grp.gcmode.getLsbD 1) then (.val v false, acq, s)
  else if dead.at l (refVA v) then (.dead (refVA v), acq, s)
  else
    match s.condOf s.grp.core s.myAspace (refVA v) with
    | (.missing, s) => (.missing (refVA v), acq, s)
    | (.malformed, s) => (.bad 0x06 (refVA v), acq, s)
    | (.dropped, s) => (.bad 0x05 (refVA v), acq, s)
    | (.page false _ _, s) => (.val v false, acq, s)
    | (.page true pa size, s) =>
      if !s.reaches s.grp.core pa then (.bad 0x05 (refVA v), acq, s.dropFrom (s.physDie (s.grp.core / 72)) pa)
      else
        let (h, fresh, s) := s.header p (refVA v) pa size
        if h.tag ≠ .fwd then (.raised v, acq, s)
        else
          let take := fresh && !acq
          let s := if take then s.acquireMe p else s.renew s.grp.blk s.grp.grp p.mask
          let acq := acq || take
          let n : Val := canon .ref h.pay
          if dead.at l (refVA n) then (.dead (refVA n), acq, s)
          else
          match s.condOf s.grp.core s.myAspace (refVA n) with
          | (.missing, s) => (.missing (refVA n), acq, s)
          | (.malformed, s) => (.bad 0x06 (refVA n), acq, s)
          | (.dropped, s) => (.bad 0x05 (refVA n), acq, s)
          | (.page c _ _, s) => (if c then .raised n else .val n true, acq, s)

/-! ### The shape of a memory instruction -/

/-- What one lane's access gives: it performed, or it stops with a cause at its data address or, for the word
checks of a load, its word's. -/
inductive LaneRes where
  | ok (o : LaneOut)
  | stop (cause : BitVec 8) (faddr : Nat)
  deriving DecidableEq, Repr

/-- A lane that performed with nothing raised. -/
def LaneOut.of (l a : Nat) (vals : List Val) (bit : Option Bool) : LaneOut := ⟨l, vals, bit, none, false, a⟩
/-- A lane raised to a class by the word it met. -/
def LaneOut.up (l a : Nat) (r : Raise) : LaneOut := ⟨l, [], none, some r, false, a⟩

/-- A memory instruction: its space, alignment, base redirection, offset, ordering, what it needs of a page, whether the values it
returns pass the barrier, whether it heals, whether a stop keeps every later lane from performing (R271), a check of its operands
after step 1, what one lane does, and the register writes of the lanes that are done. -/
structure MemOp where
  sp : Space
  align : Nat
  obj : Bool
  off : BitVec 24
  ord : Ord
  need : Need
  barrier : Bool
  heal : Bool
  ordered : Bool
  base : Nat → Val
  base2 : Option (Nat → Val)
  check : Nat → Option (BitVec 8)
  one : Writer → Nat → Nat → Home → State → LaneRes × State
  out : List LaneOut → List RegWrite

/-! ### Step 1 (R185, R186) -/

/-- What step 1 finds of a lane; `dead` where the record for the page of its base was resolved unmappable, which stops it at step 3
(R371). -/
inductive Formed where
  | at (va : Nat)
  | raised (r : Raise)
  | missing (va : Nat)
  | fault (cause : BitVec 8) (faddr : Word)
  | dead (va : Nat)
  deriving DecidableEq, Repr

/-- The address of a lane from its base. -/
def State.form (s : State) (k : MemOp) (l : Nat) (b : Val) : Formed :=
  let a := (b.pay + k.off.signExtend 64).toNat
  if !s.rangeOk k.sp a then .fault 0x05 (BitVec.ofNat 64 a)
  else if a % k.align ≠ 0 then .fault 0x04 (BitVec.ofNat 64 a)
  else .at (s.dataAddr k.sp l a)

/-- Step 1 of a lane, the base redirection of .obj included (R239, R240). -/
def State.formLane (s : State) (p : Path) (k : MemOp) (dead : Dead) (acq : Bool) (l : Nat) : Formed × Bool × State :=
  let b := k.base l
  let pc : Word := p.pc.setWidth 64
  if k.obj then
    if b.tag ≠ .ref then (.fault 0x03 pc, acq, s)
    else
      match s.bar p dead l acq b with
      | (.val v _, acq, s) => (s.form k l v, acq, s)
      | (.raised v, acq, s) =>
        let off := k.off.signExtend 64
        (.raised ⟨l, 50, 9, 0, .int (v.pay + off), v, .int off⟩, acq, s)
      | (.missing va, acq, s) => (.missing va, acq, s)
      | (.bad c va, acq, s) => (.fault c (BitVec.ofNat 64 va), acq, s)
      | (.dead va, acq, s) => (.dead va, acq, s)
  else if b.tag = .raw ∨ b.tag = .int ∨ b.tag = .ref then (s.form k l b, acq, s)
  else (.fault 0x03 pc, acq, s)

/-- Step 1 of the second address of a lane, for an instruction that has one (R271). -/
def State.form2 (s : State) (p : Path) (k : MemOp) (l : Nat) (f : Formed) : Formed :=
  match f, k.base2 with
  | .at va, some base =>
    let b := base l
    if b.tag = .raw ∨ b.tag = .int ∨ b.tag = .ref then
      match s.form k l b with
      | .at _ => .at va
      | g => g
    else .fault 0x03 (p.pc.setWidth 64)
  | _, _ => f

/-- Step 1 of every lane. -/
def State.formAll (p : Path) (k : MemOp) (dead : Dead) : List Nat → Bool → State → List (Nat × Formed) × Bool × State
  | [], acq, s => ([], acq, s)
  | l :: r, acq, s =>
    let (f, acq, s) := s.formLane p k dead acq l
    let f := s.form2 p k l f
    let (fs, acq, s) := State.formAll p k dead r acq s
    ((l, f) :: fs, acq, s)

/-! ### Steps 2 and 3 -/

/-- A lane with its address, what its translation found, the address of a fault, and the addresses that miss. -/
structure Lane where
  l : Nat
  va : Nat
  found : Found
  fva : Nat
  misses : List Nat
  deriving DecidableEq, Repr

/-- Step 2 of one lane; at an address whose record was resolved unmappable it stops (R371). Of a PEQ lane whose cells both fail, A's
failure is the one reported: the spec does not say which (R271; DESIGN CHOICE, log entry 89). -/
def State.locateLane (s : State) (p : Path) (k : MemOp) (dead : Dead) (l va : Nat) : Lane × State :=
  let find (s : State) (a : Nat) : Found × State := if dead.at l a then (.fault 0x06, s) else s.locate p k.sp k.need a
  let (f, s) := find s va
  match k.base2 with
  | none => (⟨l, va, f, va, if f = .missing then [va] else []⟩, s)
  | some base =>
    let vb := ((base l).pay + k.off.signExtend 64).toNat
    let (g, s) := find s vb
    let ms := (if f = .missing then [va] else []) ++ (if g = .missing then [vb] else [])
    match f, g with
    | .missing, _ | _, .missing => (⟨l, va, .missing, va, ms⟩, s)
    | .fault c, _ => (⟨l, va, .fault c, va, ms⟩, s)
    | .home _, .fault c => (⟨l, va, .fault c, vb, ms⟩, s)
    | .home h, .home _ => (⟨l, va, .home h, va, ms⟩, s)

/-- Step 2: every lane translates. -/
def State.locateAll (p : Path) (k : MemOp) (dead : Dead) : List (Nat × Nat) → State → List Lane × State
  | [], s => ([], s)
  | (l, va) :: r, s =>
    let (x, s) := s.locateLane p k dead l va
    let (ls, s) := State.locateAll p k dead r s
    (x :: ls, s)

/-- What step 3 has of an instruction: the lanes done, the words on which a lane stopped or was held, the stops. -/
structure Ran where
  done : List LaneOut
  words : List (Nat × Nat)
  stops : List (Nat × BitVec 8 × Nat)
  deriving DecidableEq, Repr

/-- The access of a lane that has performed: loads ahead of it serve its path no more (R206). -/
def State.accessed (s : State) (me : Writer) (k : MemOp) (h : Home) : State := s.passWords me h.key.1 h.key.2 (max 1 (k.align / 8))

/-- Step 3: the lanes perform in ascending order; a lane that stops or is held holds later lanes of its word. -/
def State.runLanes (me : Writer) (k : MemOp) (held : Mask) : List Lane → Ran → State → Ran × State
  | [], r, s => (r, s)
  | x :: xs, r, s =>
    if k.ordered && !r.stops.isEmpty then (r, s)
    else
    match x.found with
    | .missing => State.runLanes me k held xs r s
    | .fault c => State.runLanes me k held xs { r with stops := r.stops ++ [(x.l, c, x.fva)] } s
    | .home h =>
      if r.words.contains h.key then State.runLanes me k held xs r s
      else if held.getLsbD x.l then State.runLanes me k held xs { r with words := h.key :: r.words } s
      else
        match k.one me x.l x.va h s with
        | (.ok o, s) => State.runLanes me k held xs { r with done := r.done ++ [o] } (s.accessed me k h)
        | (.stop c f, s) =>
          State.runLanes me k held xs { r with words := h.key :: r.words, stops := r.stops ++ [(x.l, c, f)] } s

/-- Step 3 with the lanes that the turn leaves unperformed when a lane stops: never one whose word a stopping lane
touches (DESIGN CHOICE, log entry 18). `stops` are lanes that stop before they have an address. -/
def State.perform (me : Writer) (k : MemOp) (stops : List (Nat × BitVec 8 × Nat)) (ls : List Lane) (s : State) : Ran × State :=
  let (r, s') := State.runLanes me k 0 ls ⟨[], [], stops⟩ s
  if r.stops.isEmpty || k.ordered then (r, s')
  else
    let free (x : Lane) : Bool := match x.found with | .home h => !r.words.contains h.key | .missing | .fault _ => false
    let held := s.turn.heldLanes &&& maskOf ((ls.filter free).map Lane.l)
    if held = (0 : Mask) then (r, s') else State.runLanes me k held ls ⟨[], [], stops⟩ s

/-! ### The barrier on returned values, and healing (R240, R241) -/

/-- R241: a forwarded ref is written back while the word still holds the ref read. -/
def State.healWord (s : State) (p : Path) (b : Bool) (sp : Space) (va : Nat) (old new : Val) : State :=
  match s.locate p sp .read va with
  | (.home h, s) =>
    let ok := match h with | .glb _ pte => pteW pte | .stack .. => false | .bank _ _ => true
    if !ok then s
    else
      let (m, s) := s.atHome (s.me p) h
      if m = old then (s.putHome (s.me p) h 8 new).changed b else s
  | (_, s) => s

/-- What the barrier leaves of a lane: done, raised, or still to do with the page that is missing, bad or resolved unmappable. -/
inductive Passed where
  | done (o : LaneOut)
  | missing (va : Nat)
  | bad (cause : BitVec 8) (va : Nat)
  deriving DecidableEq, Repr

/-- The barrier over the values of a lane; a pair is raised as one (R195). -/
def State.barVals (p : Path) (b : Bool) (k : MemOp) (dead : Dead) (o : LaneOut) : List Val → List Val → Bool → State → Passed × Bool × State
  | [], got, acq, s => (.done { o with vals := got, todo := false }, acq, s)
  | v :: r, got, acq, s =>
    match s.bar p dead o.lane acq v with
    | (.val n moved, acq, s) =>
      let s := if moved && k.heal then s.healWord p b k.sp o.addr v n else s
      State.barVals p b k dead o r (got ++ [n]) acq s
    | (.raised n, acq, s) =>
      let up : Raise := match o.vals with
        | [x, y] => ⟨o.lane, 50, 9, 0, .int (BitVec.ofNat 64 o.addr), x, y⟩
        | _ => ⟨o.lane, 50, 9, 0, .int (BitVec.ofNat 64 o.addr), n, Val.nil⟩
      (.done { o with vals := [], raise := some up, todo := false }, acq, s)
    | (.missing va, acq, s) => (.missing va, acq, s)
    | (.bad c va, acq, s) => (.bad c va, acq, s)
    | (.dead va, acq, s) => (.bad 0x06 va, acq, s)

/-- What the barrier step makes of the lanes that have performed, and whether the instruction has taken its
self-invalidation. -/
structure Swept where
  done : List LaneOut
  todo : List LaneOut
  miss : List (Nat × Nat × Mask × Bool)
  stops : List (Nat × BitVec 8 × Nat)
  acq : Bool
  deriving DecidableEq, Repr

/-- The barrier step of every lane that has performed. -/
def State.sweepBar (p : Path) (b : Bool) (k : MemOp) (dead : Dead) : List LaneOut → Bool → Swept → State → Swept × State
  | [], acq, w, s => ({ w with acq := acq }, s)
  | o :: r, acq, w, s =>
    if !k.barrier || o.raise.isSome then State.sweepBar p b k dead r acq { w with done := w.done ++ [o] } s
    else
      let keep : LaneOut := { o with todo := true }
      match State.barVals p b k dead o o.vals [] acq s with
      | (.done o, acq, s) => State.sweepBar p b k dead r acq { w with done := w.done ++ [o] } s
      | (.missing va, acq, s) =>
        State.sweepBar p b k dead r acq { w with todo := w.todo ++ [keep], miss := addMiss w.miss va o.lane false } s
      | (.bad c va, acq, s) =>
        State.sweepBar p b k dead r acq { w with todo := w.todo ++ [keep], stops := w.stops ++ [(o.lane, c, va)] } s

/-! ### The whole instruction -/

/-- R196, R227: the release wait, made once before the first lane performs. -/
def State.before (s : State) (p : Path) (o : Ord) : State :=
  match o with
  | .none | .acq => s
  | .rel | .ar => s.drainGroup s.grp.blk s.grp.grp
  | .sc => (s.drainGroup s.grp.blk s.grp.grp).acquireMe p
/-- R196, R227: the acquire action, after the last lane. -/
def State.after (s : State) (p : Path) (o : Ord) : State :=
  match o with
  | .none | .rel => s
  | .acq | .ar => s.acquireMe p
  | .sc => (s.drainGroup s.grp.blk s.grp.grp).acquireMe p

/-- The lowest-numbered lane that stopped. -/
def stopOf (T : Mask) (stops : List (Nat × BitVec 8 × Nat)) : Option (Mask × BitVec 8 × Word) :=
  match lowestBad (stops.map fun e => (e.1, e.2.1, BitVec.ofNat 64 e.2.2)) with
  | some (_, c, f) => some (T, c, f)
  | none => none

/-- R186: a memory instruction of the issuing path (DEDUCED, log entry 25). -/
def State.memory (s : State) (i : Instr) (sc : Sched) (b : Bool) (p : Path) (act : Mask) (k : MemOp) : State :=
  let me := s.me p
  let dead := p.dead
  let got := (p.redo.map Redo.got).getD []
  let ups := (p.redo.map Redo.raises).getD []
  let over_ := (p.redo.map Redo.pmask).getD (p.mask &&& ~~~act)
  let s := if act ≠ 0 ∧ p.redo.isNone then s.before p k.ord else s
  let todo := act &&& ~~~over_
  let fresh := (lanes todo).filter fun l => !(got.any fun o => o.lane == l)
  let (fs, acq, s) := State.formAll p k dead fresh ((p.redo.map Redo.acq).getD false) s
  let redo (done : Mask) (got : List LaneOut) (ups : List Raise) (acq : Bool) : Redo :=
    { what := .instr, active := act, pmask := over_ ||| done, bad := dead, acq := acq, got := got, raises := ups, stop := none }
  let miss1 := fs.foldl (fun m e => match e.2 with | .missing va => addMiss m va e.1 false | _ => m) []
  if !miss1.isEmpty then s.replay b (redo 0 got ups acq) miss1 false
  else
    let bad1 := fs.filterMap fun e => match e.2 with | .fault c f => some (e.1, c, f) | _ => none
    match lowestBad bad1 with
    | some (_, c, f) => s.trapPath i sc c f todo
    | none =>
      match fresh.findSome? k.check with
      | some c => s.trapPath i sc c (p.pc.setWidth 64) todo
      | none =>
      let up1 := fs.filterMap fun e => match e.2 with | .raised r => some r | _ => none
      let (ls, s) := State.locateAll p k dead (fs.filterMap fun e => match e.2 with | .at va => some (e.1, va) | _ => none) s
      let gone := fs.filterMap fun e => match e.2 with | .dead va => some (e.1, (0x06 : BitVec 8), va) | _ => none
      let (ran, s) := State.perform me k gone ls s
      let miss2 := ls.foldl (fun m x =>
        x.misses.foldl (fun m va => addMiss m va x.l (k.need == .write)) m) []
      let (sw, s) := State.sweepBar p b k dead (got ++ ran.done) acq ⟨[], [], miss2, [], acq⟩ s
      let done := maskOf (sw.done.map LaneOut.lane) ||| maskOf (up1.map Raise.lane)
      let ups := ups ++ up1 ++ sw.done.filterMap LaneOut.raise
      let ws := k.out (sw.done.filter fun o => o.raise.isNone || o.bit.isSome)
      match sw.miss with
      | _ :: _ => (s.retirePart b sc .variable done ws).replay b (redo done sw.todo ups sw.acq) sw.miss false
      | [] =>
        let stop := stopOf (todo &&& ~~~done) (ran.stops ++ sw.stops)
        let s := if act ≠ 0 ∧ stop.isNone then s.after p k.ord else s
        let live := act &&& ~~~(maskOf (ups.map Raise.lane) ||| (todo &&& ~~~done))
        (s.retire b sc .variable live ws).raiseClasses b (faceOf s i) act dead ups stop

end Sys2Proof.Machine
end

