-- ==== Sys2Proof/Machine/MemInstr.lean ====
section
/-! DEFINITION. The memory instructions LD, ST, ATOM, RED, CASW, FENCE and PREF, and the registration of a store (spec 15_memory R187 to R198, spec 17_model R208). -/
namespace Sys2Proof.Machine

/-- The base operand of each lane. -/
def baseOf (s : State) (b : Bool) (c : Ctl) (a : Src) (l : Nat) : Val := rdSrc s b c.ix a l
/-- The results of the lanes that have any. -/
def outVals (k : Nat) (os : List LaneOut) : List (Nat × Val) := os.filterMap fun o => o.vals[k]?.map fun x => (o.lane, x)
/-- The predicate bits of the lanes that have one. -/
def outBits (os : List LaneOut) : List (Nat × Bool) := os.filterMap fun o => o.bit.map fun x => (o.lane, x)
/-- The writes of a value destination by the lanes done. -/
def outReg (g : Group) (ix : BitVec 3) (d : Reg) (act : Mask) (os : List LaneOut) : List RegWrite :=
  wrReg g ix d (keepFor d act (outVals 0 os))
/-- The writes of a predicate that an instruction may name. -/
def outPred (q : Option Pred) (os : List LaneOut) : List RegWrite :=
  match q with
  | some p => wrPred p (outBits os)
  | none => []
/-- The address of the 8-byte word that holds a byte (R201). -/
def wordOf (va : Nat) : Nat := va - va % 8

/-! ### Loads and stores -/

/-- What an ordinary load meets in a word (R28): the class it raises, a stop, or nothing. -/
def loadMeets (l va : Nat) (x : Val) : Option LaneRes :=
  let up (cls : Nat) : LaneRes :=
    .ok (.up l va ⟨l, cls, x.tag.code, 0, .int (BitVec.ofNat 64 (wordOf va)), Val.nil, Val.nil⟩)
  match x.tag with
  | .pend | .link => some (up 49)
  | .fwd => some (up 50)
  | .res14 | .res15 => some (.stop 0x03 (wordOf va))
  | .raw | .int | .f64 | .f32 | .f16 | .bf16 | .bool | .nil | .sym | .ref | .hnd => none

/-- One lane of LD (R187, R28, R34). -/
def ldOne (ty : Ty) (b : Bool) (me : Writer) (l va : Nat) (h : Home) (s : State) : LaneRes × State :=
  let (x, s) := s.readHome me h
  let s := s.loaded b h.sector
  match (if h.tagged then loadMeets l va x else none) with
  | some r => (r, s)
  | none => (.ok (.of l va [viewOf ty h x] none), s)

/-- The lanes of LD: operands, checks, access and results. -/
def ldOp (c : Ctl) (ty : Ty) (sp : Space) (o : Ord) (heal obj : Bool) (d : Reg) (a : Src) (off : BitVec 24)
    (b : Bool) (p : Path) (act : Mask) (s : State) :
    MemOp :=
  { sp := sp, align := ty.width / 8, obj := obj, off := off, ord := o, need := .read, barrier := ty.width == 64,
    heal := heal || (!p.user && s.grp.gcmode.getLsbD 2 && ty.width == 64), base := baseOf s b c a, base2 := none, ordered := false,
    check := fun _ => none, one := ldOne ty b, out := outReg s.grp c.ix d act }

/-- LD (R187). -/
def execLd (c : Ctl) (ty : Ty) (sp : Space) (o : Ord) (heal obj : Bool) (d : Reg) (a : Src) (off : BitVec 24) (s : State) :
    Host.Outcome State Fault Refusal :=
  .next (issue (.ld c ty sp o heal obj d a off) c s fun b p act s =>
    s.memory (.ld c ty sp o heal obj d a off) c.sched b p act (ldOp c ty sp o heal obj d a off b p act s))

/-- One lane of ST of n bytes (R188, R29, R33, R425). -/
def stOne (n : Nat) (b user : Bool) (x : Nat → Val) (me : Writer) (l va : Nat) (h : Home) (s : State) : LaneRes × State :=
  let stored := if s.storesTag h then tagFault (s.storeSees me h).tag user else none
  match stored with
  | some c => (.stop c va, s)
  | none =>
    if n = 8 ∧ !h.tagged ∧ boundTag (x l) then (.stop 0x08 va, s)
    else (.ok (.of l va [] none), (s.storeHome me h n (x l)).changed b)

/-- The lanes of ST: operands, checks, access and results. -/
def stOp (c : Ctl) (ty : Ty) (sp : Space) (o : Ord) (obj : Bool) (a v : Src) (off : BitVec 24) (b : Bool)
    (p : Path) (s : State) :
    MemOp :=
  { sp := sp, align := ty.width / 8, obj := obj, off := off, ord := o, need := .write, barrier := false, heal := false,
    base := baseOf s b c a, base2 := none, ordered := false, check := fun _ => none,
    one := stOne (ty.width / 8) b p.user fun l => rdSrc s b c.ix v l, out := fun _ => [] }

/-- ST (R188). -/
def execSt (c : Ctl) (ty : Ty) (sp : Space) (o : Ord) (obj : Bool) (a v : Src) (off : BitVec 24) (s : State) :
    Host.Outcome State Fault Refusal :=
  .next (issue (.st c ty sp o obj a v off) c s fun b p act s =>
    s.memory (.st c ty sp o obj a v off) c.sched b p act (stOp c ty sp o obj a v off b p s))

/-! ### Atomics and reductions -/

/-- Whether a type of an atomic is signed. -/
def atomSigned (ty : Ty) : Bool := ty == .i32 || ty == .i64
/-- Table 15.4 on the w bits m, b and c, for every operation. -/
def atomBits (op : AtomOp) (ty : Ty) (m b c : Nat) : Nat :=
  let w := ty.width
  let less : Bool := if atomSigned ty then sgnNat w m ≤ sgnNat w b else m ≤ b
  match op with
  | .add => (m + b) % 2 ^ w
  | .min => if less then m else b
  | .max => if less then b else m
  | .and => m &&& b
  | .or => m ||| b
  | .xor => m ^^^ b
  | .exch => b
  | .cas => if m = b then c else m
  | .fadd =>
    match fmtOf ty with
    | some f => f.put .rne ((f.decode m).add .rne (f.decode b))
    | none => m
  | .fmin =>
    match fmtOf ty with
    | some f => f.minmax false m b
    | none => m
  | .fmax =>
    match fmtOf ty with
    | some f => f.minmax true m b
    | none => m
/-- A signalling NaN. -/
def FVal.signals : FVal → Bool
  | .nan q => !q
  | .inf _ | .fin .. => false
/-- The invalid flag of R193. -/
def atomInvalid (op : AtomOp) (ty : Ty) (m b : Nat) : Bool :=
  match fmtOf ty with
  | none => false
  | some f =>
    let x := f.decode m
    let y := f.decode b
    let opposite := match op, x, y with
      | .fadd, .inf p, .inf q => p != q
      | _, _, _ => false
    op.isFloat && (x.signals || y.signals || opposite)

/-- The new word of R191: exch and cas of 64 bits move tag and payload. -/
def atomNew (op : AtomOp) (ty : Ty) (h : Home) (m b c : Val) : Val :=
  let w := ty.width
  let part (x : Word) : Nat := x.toNat % 2 ^ w
  match w, op with
  | 64, .exch => b
  | 64, .cas => if (if h.tagged then m == b else m.pay == b.pay) then c else m
  | _, _ =>
    let old := m.pay.toNat / 2 ^ (8 * h.off) % 2 ^ w
    let new := atomBits op ty old (part b.pay) (part c.pay)
    ⟨if w = 64 then (widen ty 0).tag else .raw, setFld m.pay (8 * h.off) w new⟩

/-- One lane of ATOM or RED (R191). -/
def atomOne (op : AtomOp) (ty : Ty) (returns : Bool) (b user : Bool) (y z : Nat → Val) (me : Writer) (l va : Nat) (h : Home)
    (s : State) : LaneRes × State :=
  if h.uncached then (.stop 0x05 va, s)
  else
    let (w, s) := s.atHome me h
    let s := s.loaded b h.sector
    let m : Val := if h.tagged then w else .raw w.pay
    match tagFault m.tag true with
    | some c => (.stop c va, s)
    | none =>
      let n := atomNew op ty h m (y l) (z l)
      let n' : Val := if h.tagged then n else .raw n.pay
      let bound := !h.tagged && boundTag n
      let stored := if s.storesTag h && !h.tagged && (bound || n' != m) then tagFault w.tag user else none
      let old := m.pay.toNat / 2 ^ (8 * h.off) % 2 ^ ty.width
      let inv := atomInvalid op ty old ((y l).pay.toNat % 2 ^ ty.width)
      let out := LaneOut.of l va (if returns then [viewOf ty h m] else []) (some inv)
      match stored with
      | some c => (.stop c va, s)
      | none =>
        if bound then (.stop 0x08 va, s)
        else if n' = m then (.ok out, s)
        else (.ok out, (s.putHome me h (ty.width / 8) n').changed b)

/-- The new value of a compare-and-swap, and the predicate of STAT. -/
def atomVal (s : State) (b : Bool) (c : Ctl) (k : AtomC) (l : Nat) : Val :=
  match k with
  | .cas x => rdSrc s b c.ix x l
  | .none | .stat _ => Val.nil
def atomPred : AtomC → Option Pred
  | .stat p => some p
  | .none | .cas _ => none

/-- The lanes of ATOM: operands, checks, access and results. -/
def atomOp (c : Ctl) (op : AtomOp) (ty : Ty) (sp : Space) (o : Ord) (obj : Bool) (d : Reg) (a v : Src)
    (k : AtomC) (off : BitVec 24) (b : Bool) (p : Path) (act : Mask) (s : State) :
    MemOp :=
  { sp := sp, align := ty.width / 8, obj := obj, off := off, ord := o, need := .write, barrier := ty.width == 64,
    heal := false, base := baseOf s b c a, base2 := none, ordered := false, check := fun _ => none,
    one := atomOne op ty true b p.user (fun l => rdSrc s b c.ix v l) (atomVal s b c k),
    out := fun os => outReg s.grp c.ix d act os ++ outPred (atomPred k) os }

/-- ATOM (R191, R194). -/
def execAtom (c : Ctl) (op : AtomOp) (ty : Ty) (sp : Space) (o : Ord) (obj : Bool) (d : Reg) (a v : Src) (k : AtomC)
    (off : BitVec 24) (s : State) : Host.Outcome State Fault Refusal :=
  .next (issue (.atom c op ty sp o obj d a v k off) c s fun b p act s =>
    s.memory (.atom c op ty sp o obj d a v k off) c.sched b p act (atomOp c op ty sp o obj d a v k off b p act s))

/-- The lanes of RED: operands, checks, access and results. -/
def redOp (c : Ctl) (op : AtomOp) (ty : Ty) (sp : Space) (o : Ord) (obj : Bool) (a v : Src) (off : BitVec 24)
    (b : Bool) (p : Path) (s : State) :
    MemOp :=
  { sp := sp, align := ty.width / 8, obj := obj, off := off, ord := o, need := .write, barrier := false, heal := false,
    base := baseOf s b c a, base2 := none, ordered := false, check := fun _ => none,
    one := atomOne op ty false b p.user (fun l => rdSrc s b c.ix v l) (fun _ => Val.nil), out := fun _ => [] }

/-- RED (R191, R194). -/
def execRed (c : Ctl) (op : AtomOp) (ty : Ty) (sp : Space) (o : Ord) (obj : Bool) (a v : Src) (off : BitVec 24) (s : State) :
    Host.Outcome State Fault Refusal :=
  .next (issue (.red c op ty sp o obj a v off) c s fun b p act s =>
    s.memory (.red c op ty sp o obj a v off) c.sched b p act (redOp c op ty sp o obj a v off b p s))

/-! ### Compare-and-swap of two words -/

/-- The fault that either word of a pair gives: a special tag before a reserved one (R195). -/
def pairFault (t u : Tag) (fwdToo : Bool) : Option (BitVec 8) :=
  let a := tagFault t fwdToo
  let b := tagFault u fwdToo
  if a = some 0x08 ∨ b = some 0x08 then some 0x08 else a <|> b
/-- One lane of CASW (R195). One that writes back the pair it read changes no memory (R65). -/
def caswOne (b user : Bool) (x0 x1 y0 y1 : Nat → Val) (me : Writer) (l va : Nat) (h : Home) (s : State) : LaneRes × State :=
  if h.uncached then (.stop 0x05 va, s)
  else
    let (w0, s) := s.atHome me h
    let (w1, s) := s.atHome me (h.plus 1)
    let s := s.loaded b h.sector
    let m0 : Val := if h.tagged then w0 else .raw w0.pay
    let m1 : Val := if h.tagged then w1 else .raw w1.pay
    match pairFault m0.tag m1.tag true with
    | some c => (.stop c va, s)
    | none =>
      let same (m x : Val) : Bool := if h.tagged then m == x else m.pay == x.pay
      let ok := same m0 (x0 l) && same m1 (x1 l)
      let out := LaneOut.of l va [m0, m1] (some ok)
      if !ok then (.ok out, s)
      else
        match (if s.storesTag h && !h.tagged then pairFault w0.tag w1.tag user else none) with
        | some c => (.stop c va, s)
        | none =>
          if !h.tagged && (boundTag (y0 l) || boundTag (y1 l)) then (.stop 0x08 va, s)
          else
            let put (y : Val) : Val := if h.tagged then y else .raw y.pay
            if put (y0 l) = m0 ∧ put (y1 l) = m1 then (.ok out, s)
            else (.ok out, ((s.putHome me h 8 (put (y0 l))).putHome me (h.plus 1) 8 (put (y1 l))).changed b)

/-- The lanes of CASW: operands, checks, access and results. -/
def caswOp (c : Ctl) (sp : Space) (o : Ord) (obj : Bool) (pen : Option Pred) (d : Vec) (a : Src) (x y : Vec)
    (off : BitVec 24) (b : Bool) (p : Path) (s : State) :
    MemOp :=
  { sp := sp, align := 16, obj := obj, off := off, ord := o, need := .write, barrier := true, heal := false,
    base := baseOf s b c a, base2 := none, ordered := false, check := fun _ => none,
    one := caswOne b p.user (fun l => rdRun s c.ix x 0 l) (fun l => rdRun s c.ix x 1 l) (fun l => rdRun s c.ix y 0 l)
      (fun l => rdRun s c.ix y 1 l),
    out := fun os => wrRun s.grp c.ix d 0 (outVals 0 os) ++ wrRun s.grp c.ix d 1 (outVals 1 os) ++ outPred pen os }

/-- CASW (R195). -/
def execCasw (c : Ctl) (sp : Space) (o : Ord) (obj : Bool) (pen : Option Pred) (d : Vec) (a : Src) (x y : Vec) (off : BitVec 24)
    (s : State) : Host.Outcome State Fault Refusal :=
  .next (issue (.casw c sp o obj pen d a x y off) c s fun b p act s =>
    s.memory (.casw c sp o obj pen d a x y off) c.sched b p act (caswOp c sp o obj pen d a x y off b p s))

/-! ### Fences, prefetch, registration -/

/-- FENCE (R197). -/
def execFence (c : Ctl) (o : Ord) (s : State) : Host.Outcome State Fault Refusal :=
  .next (issue (.fence c o) c s fun b p act s =>
    let s := s.spend c.sched
    let s := if act = (0 : Mask) then s
      else match o with
        | .none => s
        | .acq => s.acquireMe p
        | .rel => s.drainGroup s.grp.blk s.grp.grp
        | .ar | .sc => (s.drainGroup s.grp.blk s.grp.grp).acquireMe p
    s.next b)

/-- The line at an address is filled into the core's L1; whatever fails is dropped (R198). -/
def State.prefetch (s : State) (p : Path) (l2 : Bool) (va : Nat) : State :=
  if 2 ^ 56 ≤ va then s
  else
    match s.translate s.grp.core s.myAspace va with
    | (.leaf pte size, s) =>
      let pa := leafPA pte size va
      if l2 || refused pte .read p.user || pteMT pte == 2 then s
      else if !s.reaches s.grp.core pa then s.dropFrom (s.physDie (s.grp.core / 72)) pa
      else
        let line := pa / 128
        (s.fillSector s.grp.core (16 * line)).fillSector s.grp.core (16 * line + 8)
    | (_, s) => s

/-- PREF (R198). -/
def execPref (c : Ctl) (l2 : Bool) (a : Src) (off : BitVec 24) (s : State) : Host.Outcome State Fault Refusal :=
  .next (issue (.pref c l2 a off) c s fun b p act s =>
    let s := s.spend c.sched
    let one (s : State) (l : Nat) : State :=
      let x := rdSrc s b c.ix a l
      if x.tag = .raw ∨ x.tag = .int ∨ x.tag = .ref then s.prefetch p l2 (x.pay + off.signExtend 64).toNat else s
    ((lanes act).foldl one s).next b)

/-- STORE_REGISTRATION: the k-th store that has performed is registered, after earlier stores of its path to the same
word (R208, R205). -/
def execStoreRegistration (k : Nat) (s : State) : Host.Outcome State Fault Refusal :=
  .next <|
    match s.stores[k]? with
    | none => s
    | some x =>
      let same (y : PendStore) : Bool := y.word == x.word && y.before x.writer
      let now := (s.stores.take (k + 1)).filter same
      now.foldl State.regStore { s with stores := (s.stores.take (k + 1)).filter (fun y => !same y) ++ s.stores.drop (k + 1) }

end Sys2Proof.Machine
end

