-- ==== Sys2Proof/Machine/Barriers.lean ====
section
/-! DEFINITION. The barrier instructions and the two events of waits (spec 21_sync R248 to R255). -/
namespace Sys2Proof.Machine

/-- The shape of an access by a base, for the checks of step 1 alone. -/
def MemOp.plain (sp : Space) (align : Nat) (off : BitVec 24) (base : Nat → Val) : MemOp where
  sp := sp
  align := align
  obj := false
  off := off
  ord := .none
  need := .write
  barrier := false
  heal := false
  base := base
  base2 := none
  ordered := false
  check := fun _ => none
  one := fun _ _ _ _ s => (.stop 0x05 0, s)
  out := fun _ => []
/-- Space 2 or 3. -/
def barSpace (cls : Bool) : Space := if cls then .cls else .spd

/-- The objects of the lanes: flat scratchpad addresses, or the fault of the lowest failing lane (R249). -/
def State.barAddrs (s : State) (p : Path) (k : MemOp) (act : Mask) : (BitVec 8 × Word) ⊕ List (Nat × Nat) :=
  let (fs, _, _) := State.formAll p k [] (lanes act) false s
  match lowestBad (fs.filterMap fun e => match e.2 with | .fault c f => some (e.1, c, f) | _ => none) with
  | some (_, c, f) => .inl (c, f)
  | none => .inr (fs.filterMap fun e =>
      match e.2 with
      | .at va => match (s.locate p k.sp .write va).1 with | .home (.bank _ a) => some (e.1, a) | _ => none
      | _ => none)

/-- A count operand in range (R249). -/
def countOk (lo hi : Nat) (x : Val) : Bool := x.isNum && lo ≤ x.pay.toNat && x.pay.toNat ≤ hi

/-- A path has written both words of an object (R226). -/
def State.lateObj (s : State) (me : Writer) (a : Nat) : State := (s.lateWrite me 2 (a / 8) 0xFF).lateWrite me 2 (a / 8 + 1) 0xFF
/-- A barrier update by each lane in turn; the values it returns. -/
def State.barLanes (b : Bool) (me : Writer) (arr : Bool) (bytes : Nat → Nat) : List (Nat × Nat) → State →
    List (Nat × Val) × State
  | [], s => ([], s)
  | (l, a) :: r, s =>
    let s := s.drainObj (some me) a
    let (x, s') := s.barUpdate (some me) a arr (bytes l) 0
    let s' := (if s'.spd = s.spd then s' else (s'.changed b).lateObj me a).passWords me 2 (a / 8) 2
    let s' := if arr && 0 ≤ x then s'.arrivedAt me a else s'
    let (vs, s'') := State.barLanes b me arr bytes r s'
    ((l, Val.ofInt x) :: vs, s'')

/-- BARINIT (R249). -/
def execBarinit (c : Ctl) (cls : Bool) (a x y : Src) (off : BitVec 24) (s : State) : Host.Outcome State Fault Refusal :=
  .next (issue (.barinit c cls a x y off) c s fun b p act s =>
    let i := Instr.barinit c cls a x y off
    match s.barAddrs p (MemOp.plain (barSpace cls) 16 off (baseOf s b c a)) act with
    | .inl (cause, f) => s.trapPath i c.sched cause f act
    | .inr as =>
      let n (l : Nat) : Val := rdSrc s b c.ix x l
      let m (l : Nat) : Val := rdSrc s b c.ix y l
      if (lanes act).any fun l => !(countOk 1 65535 (n l) && countOk 0 (2 ^ 31 - 1) (m l)) then
        s.trapPath i c.sched 0x03 (p.pc.setWidth 64) act
      else
        let one (t : State) (e : Nat × Nat) : State :=
          let t := t.drainObj (some (s.me p)) e.2
          let t' := (t.barInit (some (s.me p)) e.2 (n e.1).pay.toNat (m e.1).pay.toNat).passWords (s.me p) 2 (e.2 / 8) 2
          if t'.spd = t.spd ∧ t'.spdTags = t.spdTags then t' else (t'.changed b).lateObj (s.me p) e.2
        ((as.foldl one s).spend c.sched).next b)

/-- BARARR and BARTX: the checks, then the updates (R249). -/
def barUpdates (i : Instr) (c : Ctl) (cls : Bool) (arr : Bool) (d : Reg) (a x : Src) (off : BitVec 24) (s : State) : State :=
  issue i c s fun b p act s =>
    match s.barAddrs p (MemOp.plain (barSpace cls) 16 off (baseOf s b c a)) act with
    | .inl (cause, f) => s.trapPath i c.sched cause f act
    | .inr as =>
      let n (l : Nat) : Val := rdSrc s b c.ix x l
      if (lanes act).any fun l => !countOk 0 (2 ^ 31 - 1) (n l) then s.trapPath i c.sched 0x03 (p.pc.setWidth 64) act
      else
        let s := if arr && act != 0 then s.drainGroup s.grp.blk s.grp.grp else s
        let (vs, s) := State.barLanes b (s.me p) arr (fun l => (n l).pay.toNat) as s
        s.finish b c.sched .variable act (wrReg s.grp c.ix d vs)

/-- BARARR (R249): a release. -/
def execBararr (c : Ctl) (cls : Bool) (d : Reg) (a x : Src) (off : BitVec 24) (s : State) :
    Host.Outcome State Fault Refusal :=
  .next (barUpdates (.bararr c cls d a x off) c cls true d a x off s)
/-- BARTX (R249). -/
def execBartx (c : Ctl) (cls : Bool) (d : Reg) (a x : Src) (off : BitVec 24) (s : State) :
    Host.Outcome State Fault Refusal :=
  .next (barUpdates (.bartx c cls d a x off) c cls false d a x off s)

/-! ### Waits -/

/-- The lanes of a wait: status 2, or an object with the phase given (R252). -/
def State.barTargets (s : State) (b : Bool) (p : Path) (c : Ctl) (cls : Bool) (a q : Src) (act : Mask) :
    List (Nat × Option BarLane) :=
  perLane act fun l =>
    let x := rdSrc s b c.ix a l
    if !x.isNum then none
    else
      match s.barAddrs p (MemOp.plain (barSpace cls) 16 0 fun _ => x) (laneBit l) with
      | .inr [(_, o)] => some ⟨l, o, (rdSrc s b c.ix q l).pay.setWidth 32, false⟩
      | _ => none
/-- The words a wait reads, its own stores to them registered, and their sectors (R65, R205). -/
def State.loadedObjs (s : State) (b : Bool) (p : Path) (ts : List (Nat × Option BarLane)) : State :=
  ts.foldl (fun s e =>
    match e.2 with
    | some t => ((s.drainObj (some (s.me p)) t.obj).loaded b (bankSector .spd (t.obj / 8))).passWords (s.me p) 2 (t.obj / 8) 2
    | none => s) s

/-- BWAIT (R252): each lane is tested; the undecided ones are registered and the path waits. -/
def execBwait (c : Ctl) (cls : Bool) (texp : BitVec 5) (d : Reg) (a q : Src) (s : State) :
    Host.Outcome State Fault Refusal :=
  .next (issue (.bwait c cls texp d a q) c s fun b p act s =>
    let ts := s.barTargets b p c cls a q act
    let s := s.loadedObjs b p ts
    let test (e : Nat × Option BarLane) : Option Nat := match e.2 with | some t => s.barTest t | none => some 2
    let open_ := (ts.filter fun e => (test e).isNone).filterMap Prod.snd
    let done := ts.filterMap fun e => (test e).map fun x => (e.1, x)
    if open_.isEmpty ∨ texp = 0 then
      let st := ts.map fun e => (e.1, (test e).getD 1)
      let s' := s.retire b c.sched .variable act (wrReg s.grp c.ix d (st.map fun e => (e.1, Val.ofInt e.2)))
      (if st.any fun e => e.2 == 0 then s'.acquireMe p else s').next b
    else
      let ok := grantObjs (s.sharedFree s.grp.core) (open_.map BarLane.obj).eraseDups
      let w : BarWait :=
        { ctl := c, lanes := open_.map fun t => { t with registered := ok.contains t.obj }, status := done,
          deadline := s.deadline s.grp.blk texp, active := act, d := regNum s.grp c.ix d }
      s.setGrp fun g => g.modSlot b fun p => { p with wait := .bar w })

/-- BTEST (R253): one test of each lane. -/
def execBtest (c : Ctl) (cls : Bool) (d : Reg) (a q : Src) (r : Pred) (s : State) : Host.Outcome State Fault Refusal :=
  .next (issue (.btest c cls d a q r) c s fun b p act s =>
    let ts := s.barTargets b p c cls a q act
    let s := s.loadedObjs b p ts
    let val (e : Nat × Option BarLane) : Nat × Val :=
      (e.1, match e.2.bind fun t => s.barAt t.obj with | some o => Val.ofInt o.phase | none => Val.ofInt (-2))
    let bit (e : Nat × Option BarLane) : Nat × Bool :=
      (e.1, match e.2 with | some t => s.barTest t == some 0 | none => false)
    let bits := ts.map bit
    let s' := s.retire b c.sched .variable act (wrReg s.grp c.ix d (ts.map val) ++ wrPred r bits)
    (if bits.any Prod.snd then s'.acquireMe p else s').next b)

/-- The lanes of a path whose objects have no wait-unit entry are tested again (R255). -/
def State.retest (s : State) (blk grp : Nat) (slot : Bool) : State :=
  match (s.grp? blk grp).bind fun g => g.slot slot with
  | none => s
  | some p =>
    match p.wait with
    | .bar w => s.putBar blk grp slot (w.decide fun l => if l.registered then none else s.barTest l)
    | _ => s
/-- WAIT_RETEST: such a test; every 32 clocks each path has one (R255, log entry 14). -/
def execWaitRetest (blk grp : Nat) (slot : Bool) (s : State) : Host.Outcome State Fault Refusal :=
  .next (s.retest blk grp slot)

end Sys2Proof.Machine
end

