-- ==== Sys2Proof/Machine/Control.lean ====
section
/-! DEFINITION. The control instructions (spec 09_control R100 to R109). -/
namespace Sys2Proof.Machine

/-! ### Transfers -/

/-- PC + 16 × offset (R95, R101). -/
def target (pc : BitVec 56) (off : BitVec 24) : BitVec 56 := pc + ((off.signExtend 56) <<< 4)

/-- R64: the spin state after a backward branch at an address; the demotion clock starts whenever the count reaches 4, and the sectors
of the last judged iteration stay while none is judged (R66) (DEDUCED, log entry 26). -/
def Spin.backward (sp : Spin) (now : Nat) (a : BitVec 56) : Spin :=
  if sp.pc = some a then
    let still := !sp.changed && sp.sectors.length ≤ 8
    let n := if still then min 4 (sp.count + 1) else 0
    let fresh := n = 4 ∧ (sp.count ≠ 4 ∨ !sp.demoted)
    { sp with count := n, demoted := sp.demoted || n == 4, since := if fresh then now else sp.since, changed := false,
              sectors := [], judged := sp.sectors }
  else { sp with pc := some a, count := 0, changed := false, sectors := [] }

/-- The whole path moves to an address (R56, R64). -/
def Path.jump (p : Path) (now : Nat) (t : BitVec 56) : Path :=
  let spin := if t ≤ p.pc then p.spin.backward now p.pc else p.spin
  { p with pc := t, spin := spin, kind := if p.hl then .handler else .normal, owes := [], owes2 := false, owesCtr := none }
/-- The issuing path moves to an address, and may arrive there. -/
def State.jump (s : State) (b : Bool) (t : BitVec 56) : State :=
  s.setGrp fun g => (g.modSlot b fun p => p.jump s.now t).arrive (s.now + 1) b

/-- The split of the issuing path, or the path-stack-overflow fault for the lanes of T (R55). `base` is the state
before the instruction wrote anything. -/
def State.splitOr (s base : State) (i : Instr) (sc : Sched) (b : Bool) (p : Path) (j : BitVec 56) (cs : List Child)
    (T : Mask) : State :=
  match s.grp.split (s.now + 1) b p j cs with
  | some g => { s with grp := g }
  | none => base.trapPath i sc 0x0B (p.pc.setWidth 64) T

/-- Lanes by equal target, in ascending order of address (R102). -/
def insTarget (t : BitVec 56) (m : Mask) : List (BitVec 56 × Mask) → List (BitVec 56 × Mask)
  | [] => [(t, m)]
  | (u, k) :: r =>
    if t = u then (u, k ||| m) :: r
    else if t < u then (t, m) :: (u, k) :: r
    else (u, k) :: insTarget t m r

/-- R102: the first failing lane, with cause and address. -/
def targetFault (pc : BitVec 56) : List (Nat × Val) → Option (BitVec 8 × Word)
  | [] => none
  | (_, x) :: r =>
    if !x.isNum then some (0x03, pc.setWidth 64)
    else if fld x.pay 0 4 ≠ 0 ∨ fld x.pay 56 8 ≠ 0 then some (0x04, x.pay)
    else targetFault pc r

/-- R102: the sets of lanes, guard-false lanes at PC + 16. -/
def targetSets (p : Path) (act : Mask) (ts : List (Nat × Val)) : List (BitVec 56 × Mask) :=
  let g := ts.foldl (fun l e => insTarget (e.2.pay.setWidth 56) (laneBit e.1) l) []
  let nt := p.mask &&& ~~~act
  if nt = (0 : Mask) then g else insTarget (p.pc + 16) nt g

/-- A set of lanes as a child. -/
def asChild (e : BitVec 56 × Mask) : Child := ⟨e.1, e.2, none⟩

/-- The link writes of a call: int (PC + 16) for each Active lane. -/
def linkWrites (s : State) (c : Ctl) (d : Vec) (p : Path) (act : Mask) : List RegWrite :=
  wrRun s.grp c.ix d 0 (perLane act fun _ => Val.int ((p.pc + 16).setWidth 64))

/-- An indirect transfer: its targets are checked, then the lanes divide; `link` are the registers it writes. -/
def indirect (i : Instr) (sc : Sched) (ix : BitVec 3) (a : Reg) (link : State → Path → Mask → List RegWrite)
    (split : State → State → Bool → Path → Mask → List (BitVec 56 × Mask) → State) (b : Bool) (p : Path) (act : Mask)
    (s : State) : State :=
  let ts := perLane act fun l => rdSrc s b ix a.src l
  match targetFault p.pc ts with
  | some (cause, addr) => s.trapPath i sc cause addr act
  | none =>
    let s' := s.retire b sc .alu act (link s p act)
    match targetSets p act ts with
    | [(t, _)] => if t = p.pc + 16 then s'.next b else s'.jump b t
    | [] => s'.next b
    | sets => split s s' b p act sets

/-- BRA: a vote of the path's lanes (R56, R101). -/
def execBra (c : Ctl) (t j : BitVec 24) (s : State) : Host.Outcome State Fault Refusal :=
  .next (issue (.bra c t j) c s fun b p act s =>
    let tgt := target p.pc t
    let nt := p.mask &&& ~~~act
    if tgt = p.pc + 16 ∨ act = (0 : Mask) then (s.spend c.sched).next b
    else if nt = (0 : Mask) then (s.spend c.sched).jump b tgt
    else
      let cs := insTarget tgt act [(p.pc + 16, nt)]
      (s.spend c.sched).splitOr s (.bra c t j) c.sched b p (target p.pc j) (cs.map asChild) act)

/-- BRX: a branch to per-lane addresses (R102). -/
def execBrx (c : Ctl) (a : Reg) (j : BitVec 24) (s : State) : Host.Outcome State Fault Refusal :=
  .next (issue (.brx c a j) c s (indirect (.brx c a j) c.sched c.ix a (fun _ _ _ => [])
    fun s s' b p act sets => s'.splitOr s (.brx c a j) c.sched b p (target p.pc j) (sets.map asChild) act))

/-- CALL: a call of an encoded address (R103). -/
def execCall (c : Ctl) (d : Vec) (t : BitVec 24) (s : State) : Host.Outcome State Fault Refusal :=
  .next (issue (.call c d t) c s fun b p act s =>
    let nt := p.mask &&& ~~~act
    let s' := s.retire b c.sched .alu act (linkWrites s c d p act)
    if act = (0 : Mask) then s'.next b
    else if nt = (0 : Mask) then s'.jump b (target p.pc t)
    else s'.splitOr s (.call c d t) c.sched b p (p.pc + 16)
      [⟨target p.pc t, act, none⟩, ⟨p.pc + 16, nt, none⟩] act)

/-- CALLX: a call of per-lane addresses (R102). -/
def execCallx (c : Ctl) (d : Vec) (a : Reg) (s : State) : Host.Outcome State Fault Refusal :=
  .next (issue (.callx c d a) c s (indirect (.callx c d a) c.sched c.ix a (fun s p act => linkWrites s c d p act)
    fun s s' b p act sets => s'.splitOr s (.callx c d a) c.sched b p (p.pc + 16) (sets.map asChild) act))

/-- RET: a return to the addresses of a link; no join entry is pushed (R102, Table 9.2). -/
def execRet (c : UCtl) (a : Reg) (s : State) : Host.Outcome State Fault Refusal :=
  .next (issueU (.ret c a) c s (indirect (.ret c a) c.sched c.ix a (fun _ _ _ => [])
    fun s s' b p act sets =>
      match s'.grp.splitRet (s.now + 1) b p sets with
      | some g => { s' with grp := g }
      | none => s.trapPath (.ret c a) c.sched 0x0B (p.pc.setWidth 64) act))

/-! ### The end of lanes, traps and handlers -/

/-- What follows the end of the issuing group's last lane: its reservations become void (R334). -/
def State.afterExit (s : State) : State :=
  if s.grp.st = .ended then s.voidReserved s.grp.blk s.grp.grp else s

/-- EXIT: the Active lanes end (R62, R105); in a save handler it brings the forced full save (R379). -/
def execExit (c : Ctl) (s : State) : Host.Outcome State Fault Refusal :=
  .next (issue (.exit c) c s fun b p act s =>
    let s := s.spend c.sched
    if act = (0 : Mask) then s.next b
    else if s.grp.st = .saving then s.leaveHandler s.grp.blk s.grp.grp .forced
    else (s.setGrp fun g => g.exitLanes (s.now + 1) b act (p.pc + 16)).afterExit)

/-- TRAP: the Active lanes enter the runtime with a code (R106). -/
def execTrap (c : Ctl) (code : BitVec 32) (s : State) : Host.Outcome State Fault Refusal :=
  .next (issue (.trap c code) c s fun b p act s =>
    let s := s.spend c.sched
    if act = (0 : Mask) then s.next b
    else s.takeTrap (faceOf s (.trap c code)) 0x00 (p.pc.setWidth 64) (code.setWidth 64) act false)

/-- TRET: the return from a handler path (R59, R107, R138). -/
def execTret (c : UCtl) (s : State) : Host.Outcome State Fault Refusal :=
  .next (issueU (.tret c) c s fun b p act s =>
    let s := s.spend c.sched
    match s.grp.ret (s.now + 1) b with
    | some g => { s with grp := g }
    | none => s.trap (.tret c) 0x11 (p.pc.setWidth 64) act)

/-- YIELD: the path gives way for one clock (R77, R109). -/
def execYield (c : UCtl) (s : State) : Host.Outcome State Fault Refusal :=
  .next (issueU (.yield c) c s fun b _ _ s =>
    let s := s.spend c.sched
    let at_ := s.now + 2 + c.sched.gap
    (s.setGrp fun g =>
      (g.modSlot (!b) Path.undemote).modSlot b fun p => { p with nextAt := at_ }).next b)

/-- BRK: holds the path when debug stops are enabled for its launch (R108, R406). -/
def execBrk (c : Ctl) (code : BitVec 32) (s : State) : Host.Outcome State Fault Refusal :=
  .next (issue (.brk c code) c s fun b _ act s =>
    let s := s.spend c.sched
    let on := match s.blk? s.grp.blk with
      | some k => s.stopsOn k.pid k.queue
      | none => false
    if act = (0 : Mask) ∨ !on then s.next b
    else s.hold s.grp.blk s.grp.grp b 0 (code.setWidth 64) true)

/-- NOP: nothing but the PC changes (R109). -/
def execNop (c : Ctl) (s : State) : Host.Outcome State Fault Refusal :=
  .next (issue (.nop c) c s fun b _ _ s => (s.spend c.sched).next b)

end Sys2Proof.Machine
end

