-- ==== Sys2Proof/Machine/Fetch.lean ====
section
/-! DEFINITION. What a step does before the effect of an instruction: the turn of the plan, the candidates and their order (R358), the fetch (R72, R73), decoding and its faults (R98, R99). -/
namespace Sys2Proof.Machine

/-! ### The turn -/

/-- A load performs ahead of its issue: its path reads the word its core holds, or memory, or the bank of a scratchpad, unless a
store of its group to the word is still on its way or a link to the word is closed (R206; DESIGN CHOICE, log entry 71). -/
def State.loadAhead (s : State) (a : Ahead) : State :=
  match s.grp? a.blk a.grp with
  | none => s
  | some g =>
    let found : Option (Nat × Val) :=
      match a.sp with
      | 0 =>
        if !s.reaches g.core (8 * a.word) then none
        else some (a.word, (sget none s.l1 (l1Key g.core a.word)).getD (s.peek a.word))
      | 2 => some (bankKey .spd a.word, s.spdWord a.word)
      | 3 => some (bankKey .chp a.word, s.chpWord a.word)
      | _ => none
    match found with
    | some (k, v) =>
      if s.stores.any fun p => p.word == k && p.blk == a.blk && p.grp == a.grp then s
      else { s with early := s.early ++ [⟨a, v, 0⟩] }
    | none => s

/-! ### The instruction of a candidate (R358, R72) -/

/-- Half an instruction: the copy the core has fetched, or memory with every store that has performed (R73, DEDUCED, log entry
11). -/
def State.fetchHalf (s : State) (core w : Nat) : Word × State :=
  match sget none s.icopies (l1Key core w) with
  | some x => (x, s)
  | none =>
    let x := match s.stores.filter fun p => p.word == w with
      | [] => (s.peek w).pay
      | ps => (s.stays w (ps.foldl (fun x p => p.onto x) (s.peek w))).pay
    (x, { s with icopies := sput none s.icopies (l1Key core w) (some x) })

/-- The instruction word at a physical address. -/
def State.fetchWord (s : State) (core pa : Nat) : BitVec 128 × State :=
  let (lo, s) := s.fetchHalf core (pa / 8)
  let (hi, s) := s.fetchHalf core (pa / 8 + 1)
  (hi ++ lo, s)

/-- The instruction that a path would issue next, with what its issue is held by, where its core has the translation. -/
def State.peekInstr (s : State) (g : Group) (p : Path) : Option (Instr × Sched × Guard × BitVec 3) :=
  let va := p.pc.toNat
  match s.tlb.find? fun e => e.core == g.core && e.aspace == ((s.blk? g.blk).map Block.aspace).getD 0 && e.base == va / 2 ^ e.size with
  | none => none
  | some e =>
    let w := (s.fetchWord g.core (leafPA e.leaf e.size va)).1
    let f := Fields.ofWord w
    match decode false p.user w, Sched.dec f.sched, Guard.dec f.pneg f.pred with
    | .ok i, .ok sc, .ok gd => some (i, sc, gd, f.ix)
    | _, _, _ => none

/-! ### Candidates (R50, R358) -/

/-- A path that may issue, with the order of R358: its class, then its group's age. -/
structure Cand where
  blk : Nat
  grp : Nat
  slot : Bool
  core : Nat
  part : Nat
  rank : Nat
  age : Nat
  deriving DecidableEq, Repr

/-- Whether a path waits for something that only another agent or an event ends (R50). -/
def Wait.blocks (w : Wait) (g : Group) : Bool :=
  match w with
  | .none | .room => false
  | .counters l t c y =>
    -- register results that are pending can end at any time (R78)
    let open_ (k : Ctr) : Nat := (g.pend.filter fun e => e.cnt == some k).length
    !(g.ld - open_ .ld ≤ l && g.stc - open_ .st ≤ t && g.cp - open_ .cp ≤ c && g.sy - open_ .sy ≤ y)
  | .tokens m => (g.busy &&& m) != 0
  | .bar _ | .prom _ | .records _ => true

/-- Whether the job of a block has its issue clocks withheld (R360). -/
def State.withheldBlk (s : State) (b : Block) : Bool := s.jobs.any fun j => j.pid == b.pid && j.rcb == b.eff.job && j.withheld
/-- The same for the job of a group. -/
def State.withheld (s : State) (g : Group) : Bool :=
  match s.blk? g.blk with
  | some b => s.withheldBlk b
  | none => false

/-- Whether a path of a group may run: in a save only the save handler's lanes do (R376). -/
def Group.runs (g : Group) : Bool := g.st == .running || g.st == .saving || g.st == .restoring

/-- Whether the path in a slot is a candidate at clock `now`. -/
def Group.eligible (g : Group) (now : Nat) (p : Path) : Bool :=
  g.runs && !p.held && p.nextAt ≤ now && !p.wait.blocks g

/-- The class of R358. -/
def Path.rank (p : Path) : Nat := if p.spin.demoted then 2 else if 32 ≤ p.cands then 0 else 1
/-- Whether every core of a block is awake (R361). -/
def State.awake (s : State) (blk : Nat) : Bool :=
  match s.blk? blk with
  | some b => b.cores.all fun c => !s.dev.gated.contains c
  | none => true
/-- Whether a partition may issue once more in this clock (R358). -/
def State.mayIssue (s : State) (g : Group) : Bool :=
  let x := sget Units.idle s.units g.unitKey
  x.clock != s.now || x.issues < 2
/-- Whether nothing that could hold an issue of a group is pending: no result, no counter at its limit, no instruction of the other
slot under way, no busy unit. -/
def State.free_ (s : State) (now : Nat) (g : Group) (b : Bool) : Bool :=
  let x := sget Units.idle s.units g.unitKey
  g.pend.isEmpty && g.ld != 63 && g.stc != 63 && g.cp != 63 && g.sy != 63 && x.port != some now && x.f64 ≤ now && x.sfu ≤ now &&
    (match g.slot (!b) with | some q => q.owes.isEmpty | none => true)
/-- The clock from which, seen at clock `now`, the interlocks and the unit of a path's next instruction are ready (R358): those of
R79 and R80, and the units of R12. A path whose instruction is still to be translated, or is not legal, is ready; a counter at its
limit is no bar while a result that can end at any time holds it. -/
def State.readyFrom (s : State) (now : Nat) (g : Group) (b : Bool) (p : Path) : Nat :=
  if s.free_ now g b || p.raising.isSome then now
  else
    match s.peekInstr g p with
    | none => now
    | some (i, sc, gd, ix) =>
      let t : State := { s with now := now, grp := g.settle now }
      match t.holdFor i sc gd ix b p with
      | none => now
      | some at_ =>
        if p.first && t.grp.ctrFull sc.cnt && t.grp.pend.any fun k => k.cnt == sc.cnt && k.due.isNone then now else at_
/-- Whether the path in a slot of a group is a candidate. -/
def State.isCand (s : State) (g : Group) (b : Bool) (p : Path) : Bool :=
  g.eligible s.now p && !s.withheld g && s.awake g.blk && s.mayIssue g && s.readyFrom s.now g b p ≤ s.now

/-- The candidate of one slot. -/
def State.candOf (s : State) (g : Group) (b : Bool) : List Cand :=
  match g.slot b with
  | some p => if s.isCand g b p then [⟨g.blk, g.grp, b, g.core, g.part, p.rank, g.age⟩] else []
  | none => []

/-- The clocks of the last dt in which a path was a candidate, from the first in which its gap had elapsed and its interlocks and
unit were ready, are counted for it (R358). -/
def State.countCands (s : State) (dt : Nat) : State :=
  let one (g : Group) (b : Bool) (p : Path) : Path :=
    if s.isCand g b p then
      { p with cands := p.cands + min dt (s.now + 1 - max p.nextAt (s.readyFrom (s.now + 1 - dt) g b p)) }
    else p
  let all (g : Group) : Group := { g with slot0 := g.slot0.map (one g false), slot1 := g.slot1.map (one g true) }
  { s with grp := all s.grp, groups := s.groups.map all }
/-- Flits that a peer's port has acknowledged are sent no more (R395). -/
def State.acknowledge (s : State) (ns : List Nat) : State :=
  if ns.isEmpty then s else { s with dev := { s.dev with flits := s.dev.flits.filter fun f => !ns.contains f.no } }
/-- A step begins: the clocks that pass (R426; DESIGN CHOICE, log entry 10) and what is counted in them (R358, R410, R413); the
stores and accesses of paths that have fused are ordered (R202), the flits of the turn are acknowledged (R395), and its loads
perform (R206). -/
def State.tick (s : State) : State :=
  let t := s.plan.headD Turn.plain
  let s := { s with turn := t, plan := s.plan.tail, now := s.now + t.wait }.orderStores.acknowledge t.acked
  ((t.ahead.foldl State.loadAhead s).countCands t.wait).countIdle t.wait |>.countEvents

/-- Adding a candidate to the best of its partition: the list keeps, per partition, those of least class and age. -/
def addCand (c : Cand) : List (List Cand) → List (List Cand)
  | [] => [[c]]
  | [] :: r => addCand c r
  | (x :: xs) :: r =>
    if x.core = c.core ∧ x.part = c.part then
      if c.rank < x.rank ∨ (c.rank = x.rank ∧ c.age < x.age) then [c] :: r
      else if c.rank = x.rank ∧ c.age = x.age then (x :: xs ++ [c]) :: r
      else (x :: xs) :: r
    else (x :: xs) :: addCand c r

/-- The candidates that the order of R358 takes first, one per partition; ties go by the rotating pointer
(DESIGN CHOICE, log entry 15). -/
def State.firstCands (s : State) : List Cand :=
  let all := s.allGroups.flatMap fun g => s.candOf g false ++ s.candOf g true
  (all.foldl (fun l c => addCand c l) []).filterMap fun l => l[(s.rotor + s.now) % l.length]?

/-- Blocks whose tile stream may issue. -/
def State.streamCands (s : State) : List Nat :=
  (s.blocks.filter fun b =>
    b.st == .running && b.killRec.isNone && s.awake b.id && !s.withheldBlk b &&
      (match b.stream with
       | some t => !t.stopped && (match t.wait with | .records _ => false | .none | .bar _ _ | .room => true)
       | none => false)).map Block.id

/-- Who issues: the plan picks among the partitions' first candidates and the tile streams. -/
def State.choose (s : State) : Option (Cand ⊕ Nat) :=
  let all : List (Cand ⊕ Nat) := s.firstCands.map Sum.inl ++ s.streamCands.map Sum.inr
  all[s.turn.pick % all.length]?

/-- A group taken out of a list. -/
def takeGroup (blk grp : Nat) : List Group → Option (Group × List Group)
  | [] => none
  | g :: r =>
    if g.is blk grp then some (g, r)
    else match takeGroup blk grp r with
      | some (x, r') => some (x, g :: r')
      | none => none

/-- The group of an agent becomes the issuing group. -/
def State.focus (s : State) (blk grp : Nat) : State :=
  if s.grp.is blk grp then s
  else match takeGroup blk grp s.groups with
    | some (g, r) => { s with grp := g, groups := if s.grp.st == .none then r else s.grp :: r }
    | none => s

/-! ### Fetch (R72, R73) -/

/-- Where a fetch finds its word. -/
inductive Code where
  | word (w : BitVec 128)
  | missing
  | fault (cause : BitVec 8)
  deriving DecidableEq, Repr
/-- The fetch of a word by a core for a path or a stream (R72); a request that a closed link drops takes 0x05 (R385). -/
def State.fetchAt (s : State) (core aspace va : Nat) (user : Bool) : Code × State :=
  match s.translate core aspace va with
  | (.missing, s) => (.missing, s)
  | (.malformed, s) => (.fault 0x06, s)
  | (.dropped _, s) => (.fault 0x05, s)
  | (.leaf pte size, s) =>
    let pa := leafPA pte size va
    if refused pte .fetch user then (.fault 0x05, s)
    else if !s.reaches core pa then (.fault 0x05, s.dropFrom (s.physDie (core / 72)) pa)
    else
      let (w, s) := s.fetchWord core pa
      (.word w, s)

/-- What the fetch of a step gives: the step is over, or an instruction to execute. -/
inductive Fetched where
  | done (s : State)
  | instr (i : Instr) (s : State)
  deriving DecidableEq, Repr

/-- The interface of a word that is no legal instruction: its fields only (R365). -/
def faceOfWord (w : BitVec 128) : Face := { Face.none with hop := hopOf (Fields.ofWord w), fetch := false }

/-- The first fetch of a path that replays its fetch, and the end of that replay (R63): an instruction that has issued before goes on
after its wait. -/
def Path.fetched (p : Path) : Path :=
  match p.redo with
  | some r =>
    if r.what = .fetch then
      { p with redo := none, kind := if p.hl then .handler else .normal, wait := if r.again then .room else p.wait }
    else p
  | none => p

/-- The lanes that a fetch resolved unmappable stops (R371): those whose instruction, or whose split, is still to be
done. -/
def Redo.left (r : Redo) (p : Path) : Mask :=
  p.mask &&& ~~~r.pmask
/-- The fetch of a path whose record was resolved unmappable. -/
def Path.noFetch (p : Path) : Option Redo :=
  match p.redo with
  | some r => if r.noFetch then some r else none
  | none => none

/-- A fault of the fetch of the issuing path, for the lanes of m. A path that has issued its instruction before lowers the
counter it raised (R79). -/
def State.fetchFault (s : State) (p : Path) (cause : BitVec 8) (m : Mask) : State :=
  (if p.first then s else s.setGrp fun g => g.lowerCtr p.owesCtr).takeTrap .none cause (p.pc.setWidth 64) 0 m false

/-- The fetch of the issuing path. One that has only the split of raised classes left to do fetches nothing (R133). -/
def State.fetchPath (s : State) (b : Bool) (p : Path) : Fetched :=
  match s.blk? s.grp.blk with
  | none => .done s
  | some blk =>
  match p.raising with
  | some r => .done (s.raiseClasses b (r.face.getD .none) r.active r.bad r.raises r.stop)
  | none =>
   match p.noFetch with
   | some r => .done (s.fetchFault p 0x06 (r.left p))
   | none =>
    match s.fetchAt s.grp.core blk.aspace p.pc.toNat p.user with
    | (.missing, s) =>
      let redo := p.redo.getD
        { what := .fetch, active := p.mask, pmask := 0, bad := [], got := [], raises := [], stop := none, again := !p.first }
      .done (s.replay b redo [(p.pc.toNat / 0x10000, p.pc.toNat, p.mask, false)] true)
    | (.fault c, s) => .done (s.fetchFault p c p.mask)
    | (.word w, s) =>
      let s := s.setGrp fun g => g.modSlot b Path.fetched
      match decode false p.user w with
      | .ok i => .instr i s
      | .error e =>
        let s := if p.fetched.first then s else s.setGrp fun g => g.lowerCtr p.owesCtr
        .done (s.takeTrap (faceOfWord w) e.cause (p.pc.setWidth 64) 0 p.mask false)

/-! ### The tile stream's faults (R306) -/

/-- A record of a stream. -/
def Block.streamRec (b : Block) (kind : Nat) (cause : BitVec 8) (pc : Nat) (faddr : Word) (write fetch : Bool) : FaultRec :=
  let core := b.cores.headD 0
  { kind := kind, cause := cause, die := core / 72, flags := recFlags true false write fetch false, core := core, grp := 0,
    slot := 0xFF, pc := pc, faddr := faddr, mask := 0, pmask := 0, aspace := b.aspace, queue := b.queue, block := b.recNo }

/-- A fault of the stream kills its block with a record of kind 5; FADDR is the address that failed, or 0. -/
def State.streamFault (s : State) (id : Nat) (cause : BitVec 8) (faddr : Nat) (write fetch : Bool) : State :=
  match s.blk? id with
  | none => s
  | some b =>
    match b.stream with
    | none => s
    | some t => s.killBlock id (b.streamRec 5 cause t.pc.toNat (BitVec.ofNat 64 faddr) write fetch)

/-- The pages a stream misses: a record each, and the stream waits (R371). -/
def State.streamMiss (s : State) (id : Nat) (fetch : Bool) (pages : List (Nat × Bool)) : State :=
  match s.blk? id with
  | none => s
  | some b =>
    match b.stream with
    | none => s
    | some t =>
      let step (acc : List Nat × State) (pg : Nat × Bool) : List Nat × State :=
        let (uid, s) := acc.2.recordMiss b.pid (b.streamRec 1 0 t.pc.toNat (BitVec.ofNat 64 pg.1) pg.2 fetch) (.stream id)
        (acc.1 ++ [uid], s)
      let (uids, s) := pages.foldl step ([], s)
      s.modBlk id fun b => { b with stream := b.stream.map fun t => { t with wait := .records uids } }

/-- The fetch of a block's tile stream. -/
def State.fetchStream (s : State) (id : Nat) : Fetched :=
  match s.blk? id with
  | none => .done s
  | some blk =>
    match blk.stream with
    | none => .done s
    | some t =>
      let core := blk.cores.headD 0
      match t.bad with
      | some (va, write, fetch) => .done (s.streamFault id 0x06 va write fetch)
      | none =>
        match s.fetchAt core blk.aspace t.pc.toNat true with
        | (.missing, s) => .done (s.streamMiss id true [(t.pc.toNat, false)])
        | (.fault c, s) => .done (s.streamFault id c t.pc.toNat false true)
        | (.word w, s) =>
          match decode true true w with
          | .ok i => .instr i s
          | .error e => .done (s.streamFault id e.cause 0 false false)

/-! ### What a step issues -/

/-- Whether a path stands at a breakpoint of a session that it has not been released at (R406). -/
def State.atBreak (s : State) (b : Block) (p : Path) : Bool :=
  !p.pass && (s.sessionsOf b.pid b.queue).any fun k => k.spec.breaks.any fun e => e.1 == b.launchNo && e.2 == p.pc
/-- A stop that takes effect before the issuing path's next issue: one that was asked for, a breakpoint of a session at its
address, or a pulse at its core's stop input (R406). -/
def State.stopHere (s : State) (b : Block) (p : Path) : Option Nat :=
  match p.stopReq with
  | some (c, _) => some c
  | none =>
    if s.atBreak b p then some 1
    else if s.dev.stopNext.contains s.grp.core then some 2
    else none

/-- The fetch of whoever issues; a hold takes effect after a wait or a replay (R407). -/
def State.fetchWho (s : State) : Fetched :=
  match s.who with
  | .idle => .done s
  | .path b =>
    match s.grp.slot b with
    | some p =>
      match (if p.redo.isSome || p.wait != .none then none else (s.blk? s.grp.blk).bind fun k => s.stopHere k p) with
      | some c =>
        let s := if c = 2 then { s with dev := { s.dev with stopNext := s.dev.stopNext.filter fun k => k != s.grp.core } } else s
        .done (s.hold s.grp.blk s.grp.grp b c 0 false)
      | none => s.fetchPath b p
    | none => .done s
  | .stream id => s.fetchStream id

/-- What the turn takes from the caches of a core: its clean copies, or lines that its L1 evicts (R183, R214, R220). -/
def State.turnLoss (s : State) (core : Nat) : State :=
  let s := if s.turn.drop then s.evict core else s
  s.turn.lose.foldl (fun s l => s.evictLine core l) s
/-- Who issues, with the issuing group in place and what the turn takes from its core's caches gone. -/
def State.select (s : State) : State :=
  match s.choose with
  | none => { s with who := .idle }
  | some (.inl c) =>
    let s := { s.focus c.blk c.grp with who := .path c.slot }
    s.turnLoss c.core
  | some (.inr id) =>
    let s := { s with who := .stream id }
    match s.blk? id with
    | some b => s.turnLoss (b.cores.headD 0)
    | none => s

/-- Whether an instruction is an event: a step of the device that no word of group code or stream encodes. -/
def isEvent (i : Instr) : Bool := (encodeFields i).isNone

/-- What a step that has begun executes: the event of its turn, or what the chosen agent fetches (DESIGN CHOICE, log entry
49). -/
def State.fetch (s : State) : Fetched :=
  match s.turn.event with
  | some e => if isEvent e then .instr e { s with who := .idle } else (s.select).fetchWho
  | none => (s.select).fetchWho

end Sys2Proof.Machine
end

