-- ==== Sys2Proof/Machine/Debug.lean ====
section
/-! DEFINITION. Debug sessions, stops, triggers, the cue sequencer, and registers without a behaviour of their own (spec 37_debug R404 to R413, R7, R385, R388, R396, R410). -/
namespace Sys2Proof.Machine

/-- SESSION_OPEN: a session on the launches of some queues of a partition, capture on (R404); at most 8 breakpoints
(R406). -/
def execSessionOpen (k : SessionSpec) (s : State) : Host.Outcome State Fault Refusal :=
  .next <|
    let known (q : Nat) : Bool := s.queues.any fun x => x.id == q && x.pid == k.part
    if (s.part? k.part).isNone ∨ !k.queues.all known ∨ 8 < k.breaks.length then s.refuse k.part
    else { s with dev := { s.dev with sessions := s.dev.sessions ++ [⟨k, true, false⟩] } }

/-- A stop is asked of one path of a group: the one whose mask holds a lane. In a save, the handler's path, which stands in a slot,
comes before the saved path of the lane (R406: exactly one path; DESIGN CHOICE, log entry 30). -/
def Group.askLane (cause lane : Nat) (g : Group) : Group :=
  let has (p : Path) : Bool := p.mask.getLsbD lane
  let hasIt (x : StackItem) : Bool := match x with | .path p => has p | .join _ => false
  let ask (p : Path) : Path := if has p then p.askStop cause lane else p
  let askIt (x : StackItem) : StackItem := match x with | .path p => .path (ask p) | .join j => .join j
  if (g.slot0.any has || g.slot1.any has) || g.stack.any hasIt then
    { g with slot0 := g.slot0.map ask, slot1 := g.slot1.map ask, stack := g.stack.map askIt }
  else { g with saved0 := g.saved0.map ask, saved1 := g.saved1.map ask, under := g.under.map askIt }

/-- DEBUG_STOP_REQUEST: the path of a group whose mask holds a lane is asked to stop; the hold takes effect before its
next issue (R406, R407). -/
def execDebugStopRequest (launch blk grp lane : Nat) (s : State) : Host.Outcome State Fault Refusal :=
  .next <|
    match s.blk? blk with
    | none => s
    | some b =>
      if b.launchNo ≠ launch ∨ !s.stopsOn b.pid b.queue then s
      else
        s.modGrp blk grp (Group.askLane 3 lane)

/-- PC_BREAKPOINT: a path that stands at a breakpoint of a session is held before its next issue (R406). -/
def execPcBreakpoint (blk grp : Nat) (slot : Bool) (s : State) : Host.Outcome State Fault Refusal :=
  .next <|
    match s.blk? blk, (s.grp? blk grp).bind fun g => if g.runs then g.slot slot else none with
    | some b, some p =>
      if p.held ∨ p.redo.isSome ∨ p.wait ≠ .none then s
      else
        if s.atBreak b p then s.hold blk grp slot 1 0 false else s
    | _, _ => s

/-- DEBUG_RELEASE: a held path is released (R406 to R408). -/
def execDebugRelease (blk grp : Nat) (slot : Bool) (s : State) : Host.Outcome State Fault Refusal := .next (s.unhold blk grp slot 0)

/-- TRIGGER_PULSE: a pulse on a line (R411). -/
def execTriggerPulse (line : BitVec 6) (s : State) : Host.Outcome State Fault Refusal := .next (s.pulse none line.toNat (coreTrace 0 0xFFFF 0))
/-- TRIGGER_PIN_IN: a package pin pulses the lines it is routed to (R411). -/
def execTriggerPinIn (pin : Fin 4) (s : State) : Host.Outcome State Fault Refusal :=
  .next ((s.dev.pinIn.filter fun e => e.1 == pin.val).foldl (fun s e => s.pulse none e.2 (coreTrace 0 0xFFFF 0)) s)

/-- The bits of dbg.cue that are written (Table 37.3). -/
def cueMask : Word := 0x0000000DFFFF3F3F
/-- CUE_WRITE: the whole register is replaced (R412). -/
def execCueWrite (die : Nat) (w : Word) (s : State) : Host.Outcome State Fault Refusal :=
  .next <|
    let s := s.setCue die (w &&& cueMask)
    { s with dev := { s.dev with cueCount := sput 0 s.dev.cueCount die 0, cueAt := sput 0 s.dev.cueAt die 0 } }
/-- CUE_A_PULSE (R412). -/
def execCueAPulse (die : Nat) (s : State) : Host.Outcome State Fault Refusal := .next (s.cueA die)
/-- CUE_B_PULSE; one in the clock of the A pulse that moved the sequencer to COUNTING is not counted (R412): the clock tells, and
the flag of the event decides nothing (DEDUCED, log entry 66). -/
def execCueBPulse (die : Nat) (_sameClockAsA : Bool) (s : State) : Host.Outcome State Fault Refusal :=
  .next <|
    if sget 0 s.dev.cueAt die = s.now + 1 then s
    else
      let s' := s.cueB die
      if fld (s.cue die) 34 2 = 2 ∧ fld (s'.cue die) 34 2 = 3 then s'.pulseSrc none 5 (coreTrace die 0xFFFF 0) else s'

/-! ### Registers (R7) -/

/-- A write under an access map: the bits of `rw` take w, the bits of `w1c` are cleared where w is 1. -/
def regWrite (rw w1c old w : Word) : Word := (old &&& ~~~rw &&& ~~~(w1c &&& w)) ||| (w &&& rw)
/-- A counter of 48 bits, written 1 to clear. -/
def countMask : Word := 0x0000FFFFFFFFFFFF

/-- Whether a request stands at physical function 0's mailbox, which alone is exposed before the bring-up is over (R399). -/
def isMailbox : CtlReg → Bool
  | .devNo | .faultQueue _ => true
  | .firewall _ _ | .dietab | .spanBind _ _ | .binlo _ _ | .binhi _ _ | .binas _ _ | .bincnt _ _ _ | .lcrtot _ _ | .evsel _ _
  | .evcnt _ _ => false
/-- The addresses of a partition's fault queue, on request (R369). -/
def State.reportQueue (s : State) (part : Nat) : State :=
  match s.part? part with
  | some p => s.emit (.faultQueue part p.fqcb (s.fqBase p.fqcb))
  | none => s.refuse part
/-- Whether a write of a link end's register closes the end: it is open and not locked. -/
def State.closesEnd (s : State) (die f : Nat) (w : Word) : Bool :=
  let old := sget 0 s.dev.firewall (linkKey die f)
  old.getLsbD 0 && !old.getLsbD 1 && !w.getLsbD 0
/-- Before a register is written: a link end that the write closes waits for the stores that cross (R385; log entry 27). -/
def State.beforeWrite (s : State) (r : CtlReg) (w : Word) : State :=
  match r with
  | .firewall die f => if s.closesEnd die f w then s.drainAcross [(die, f)] else s
  | .devNo | .faultQueue _ | .dietab | .spanBind _ _ | .binlo _ _ | .binhi _ _ | .binas _ _ | .bincnt _ _ _ | .lcrtot _ _
  | .evsel _ _ | .evcnt _ _ => s
/-- REGISTER_WRITE: firmware or the security domain writes a register by its access codes (Tables 35.1, 35.3, 35.6, 37.2,
37.4); physical function 0's mailbox takes the device number (R395), or is asked for a fault queue (R369). -/
def execRegisterWrite (r : CtlReg) (w : Word) (s : State) : Host.Outcome State Fault Refusal :=
  .next <|
    if s.dev.boot ≠ .up ∧ !isMailbox r then s else
    let s := s.beforeWrite r w
    let upd (st : Store Word) (d : Word) (k : Nat) (rw w1c : Word) : Store Word := sput d st k (regWrite rw w1c (sget d st k) w)
    let d := s.dev
    let d := match r with
      | .devNo => { d with devNo := fld w 0 16 }
      | .faultQueue _ => d
      | .firewall die f =>
        let old := sget 0 d.firewall (linkKey die f)
        if die = f ∨ 4 ≤ die ∨ 4 ≤ f ∨ old.getLsbD 1 then d
        else { d with firewall := upd d.firewall 0 (linkKey die f) 3 0 }
      | .dietab => { d with dietab := regWrite 0xB3B3B3B3 0 d.dietab w }
      | .spanBind part n => if 256 ≤ n then d else { d with span := upd d.span 0 (part * 256 + n) 0x8003FFFFFFFFFFFF 0 }
      | .binlo cp n => if 16 ≤ n then d else { d with binlo := upd d.binlo 0 (16 * cp + n) 0x80FFFFFFFFFFFFF0 0 }
      | .binhi cp n => if 16 ≤ n then d else { d with binhi := upd d.binhi 0 (16 * cp + n) 0x00FFFFFFFFFFFFF0 0 }
      | .binas cp n => if 16 ≤ n then d else { d with binas := upd d.binas 0 (16 * cp + n) 0xFFFFFFFF 0 }
      | .bincnt cp n k => if 16 ≤ n ∨ 5 ≤ k then d else { d with bincnt := upd d.bincnt 0 (5 * (16 * cp + n) + k) 0 countMask }
      | .lcrtot cp k => if 5 ≤ k then d else { d with lcrtot := upd d.lcrtot 0 (5 * cp + k) 0 countMask }
      | .evsel part n =>
        if 8 ≤ n then d
        else
          let e : BitVec 16 := w.setWidth 16
          let absent := e != 0 && !Config.hasEvent e
          { d with
            evsel := upd d.evsel 0 (8 * part + n) 0xFFFF 0
            evcnt := sput 0 d.evcnt (8 * part + n) (setFld (sget 0 d.evcnt (8 * part + n)) 63 1 (if absent then 1 else 0)) }
      | .evcnt part n => if 8 ≤ n then d else { d with evcnt := upd d.evcnt 0 (8 * part + n) 0 countMask }
    match r with
    | .faultQueue part => s.reportQueue part
    | .devNo | .firewall _ _ | .dietab | .spanBind _ _ | .binlo _ _ | .binhi _ _ | .binas _ _ | .bincnt _ _ _ | .lcrtot _ _
    | .evsel _ _ | .evcnt _ _ => { s with dev := d }

end Sys2Proof.Machine
end

