-- ==== Sys2Proof/Machine/Handles.lean ====
section
/-! DEFINITION. Tensor records, the handle table, and SEAL, UNSEAL and HINFO (spec 25_tiles R280 to R290). -/
namespace Sys2Proof.Machine

/-! ### Tensor records -/

/-- The fields of a record (Tables 25.1, 25.2). -/
structure Tensor where
  base : Nat
  fmt : Nat
  skind : Nat
  flags : Nat
  rows : Nat
  cols : Nat
  rstride : Nat
  sbase : Nat
  sstride : Nat
  perm : Nat
  zeros : Bool
  deriving DecidableEq, Repr

/-- The record of eight words. -/
def Tensor.of (ws : List Word) : Tensor :=
  let w (k : Nat) : Word := ws.getD k 0
  { base := (w 0).toNat, fmt := fld (w 1) 0 8, skind := fld (w 1) 8 8, flags := fld (w 1) 16 16, rows := fld (w 2) 0 32,
    cols := fld (w 2) 32 32, rstride := (w 3).toNat, sbase := (w 4).toNat, sstride := fld (w 5) 0 32, perm := (w 6).toNat,
    zeros := fld (w 1) 32 32 == 0 && fld (w 5) 32 32 == 0 && w 7 == 0 }
def Tensor.sspace (t : Tensor) : Nat := t.flags / 32 % 8
def Tensor.space (t : Tensor) : Nat := t.flags / 4 % 8
def Tensor.out (t : Tensor) : Bool := t.flags.testBit 1
def Tensor.roleB (t : Tensor) : Bool := t.flags.testBit 0
/-- K of a format (R281). -/
def tileK (fmt : Nat) : Nat := if fmt = 9 then 128 else if fmt = 10 then 256 else 64
/-- The bits of an element (Table 3.7). -/
def elemBits (fmt : Nat) : Nat := if fmt = 6 then 32 else if fmt = 8 then 16 else if fmt = 9 then 8 else 4
/-- Rows and columns of a tile (R281). -/
def Tensor.tile (t : Tensor) : Nat × Nat :=
  if t.out then (128, 128) else if t.roleB then (tileK t.fmt, 128) else (128, tileK t.fmt)
/-- Bytes of a row of elements. -/
def Tensor.rowBytes (t : Tensor) : Nat := (t.cols * elemBits t.fmt + 7) / 8
/-- The scale array: rows, bytes of a row, bytes of a scale (Table 25.3). -/
def Tensor.scales (t : Tensor) : Nat × Nat × Nat :=
  match t.skind with
  | 1 => (t.rows, 4 * (t.cols / 128), 4)
  | 2 => (t.rows / 128, 4 * (t.cols / 128), 4)
  | _ => if t.roleB then (t.rows / 32, t.cols, 1) else (t.rows, t.cols / 32, 1)

/-- Codes of a space a record may name. -/
def spaceOk (n : Nat) : Bool := n == 0 || n == 2 || n == 4
/-- SKIND allowed by R282. -/
def Tensor.skindOk (t : Tensor) : Bool :=
  if t.out || t.fmt == 8 then t.skind == 0
  else if t.fmt = 9 then t.skind == 0 || t.skind == 2 || (t.skind == 1 && !t.roleB)
  else t.skind == 3
/-- R283. -/
def Tensor.permOk (t : Tensor) : Bool := t.perm == 0 || (!t.out && !t.roleB && (t.fmt == 9 || t.fmt == 8))

/-- The first check of Table 25.5 that fails, in row order. -/
def Tensor.status (t : Tensor) : Option Nat :=
  let (tr, tc) := t.tile
  let (srows, sbytes, ssize) := t.scales
  let top := 2 ^ 56
  let checks : List (Nat × Bool) :=
    [(1, t.zeros && t.flags / 256 == 0),
     (2, spaceOk t.space && spaceOk t.sspace),
     (3, (if t.out then t.fmt == 6 || t.fmt == 8 else t.fmt == 8 || t.fmt == 9 || t.fmt == 10) && !(t.out && t.roleB)),
     (4, t.skindOk),
     (5, t.rows != 0 && t.cols != 0 && t.rows % tr == 0 && t.cols % tc == 0),
     (6, t.base % 128 == 0 && (if t.skind = 0 then t.sbase == 0 else t.sbase % 128 == 0) && t.perm % 128 == 0 &&
       t.base + (t.rows - 1) * t.rstride + t.rowBytes ≤ top &&
       (t.skind == 0 || t.sbase + (srows - 1) * t.sstride + sbytes ≤ top) && (t.perm == 0 || t.perm + 4 * t.cols ≤ top)),
     (7, t.rstride % 128 == 0 && t.rowBytes ≤ t.rstride &&
       (if t.skind = 0 then t.sstride == 0 else sbytes ≤ t.sstride && t.sstride % ssize == 0)),
     (8, t.permOk)]
  (checks.find? fun c => !c.2).map Prod.fst

/-! ### The handle table (R285, R286) -/

/-- Entry n of a partition's handle table. -/
def State.hentry (s : State) (pid n : Nat) : HEntry :=
  match s.part? pid with
  | some p => sget HEntry.free p.handles n
  | none => HEntry.free
/-- Setting entry n. -/
def State.setHentry (s : State) (pid n : Nat) (e : HEntry) : State :=
  s.modPart pid fun p => { p with handles := sput HEntry.free p.handles n e }
/-- The lowest free entry. -/
def State.freeHandle (s : State) (pid : Nat) : Option Nat :=
  match s.part? pid with
  | some p => lowestFree ((p.handles.filter fun e => e.2.sealed).map Prod.fst) 65536
  | none => none
/-- The entry of a handle that is valid for an address space (R286). -/
def State.handle? (s : State) (pid aspace : Nat) (h : Val) : Option (Nat × HEntry) :=
  let n := fld h.pay 0 16
  let e := s.hentry pid n
  if h.tag = .hnd ∧ e.sealed ∧ e.gen.toNat = fld h.pay 16 16 ∧ e.aspace = aspace then some (n, e) else none
/-- The payload of a handle (R288). -/
def handleOf (gen : BitVec 16) (n : Nat) : Val := ⟨.hnd, BitVec.ofNat 64 (gen.toNat * 2 ^ 16 + n)⟩

/-! ### The instructions -/

/-- The eight words of a record, read as ordinary loads (R288, R28). -/
def sealWords (b : Bool) (me : Writer) (l va : Nat) (h : Home) : List Nat → List Word → State → (LaneRes ⊕ List Word) × State
  | [], ws, s => (.inr ws, s)
  | k :: ks, ws, s =>
    let hk := h.plus k
    let (x, s) := s.readHome me hk
    let s := s.loaded b hk.sector
    match (if hk.tagged then loadMeets l (va + 8 * k) x else none) with
    | some r => (.inl r, s)
    | none => sealWords b me l va h ks (ws ++ [x.pay]) s

/-- One lane of SEAL (R288). -/
def sealOne (b : Bool) (pid aspace : Nat) (me : Writer) (l va : Nat) (h : Home) (s : State) : LaneRes × State :=
  match sealWords b me l va h (List.range 8) [] s with
  | (.inl r, s) => (r, s)
  | (.inr ws, s) =>
    match (Tensor.of ws).status with
    | some k => (.ok (.of l va [Val.ofInt k] none), s)
    | none =>
      match s.freeHandle pid with
      | none => (.ok (.of l va [Val.ofInt 9] none), s)
      | some n =>
        let gen := (s.hentry pid n).gen
        (.ok (.of l va [handleOf gen n] none), (s.setHentry pid n ⟨true, gen, ws, aspace⟩).changed b)

/-- The lanes of SEAL: operands, checks, access and results. -/
def sealOp (c : Ctl) (sp : Space) (o : Ord) (d : Reg) (a : Src) (off : BitVec 24) (b : Bool) (act : Mask)
    (s : State) :
    MemOp :=
  { sp := sp, align := 64, obj := false, off := off, ord := o, need := .read, barrier := false, heal := false,
    ordered := true, base := baseOf s b c a, base2 := none, check := fun _ => none,
    one := sealOne b ((s.myBlk.map Block.pid).getD 0) s.myAspace, out := outReg s.grp c.ix d act }

/-- SEAL (R288). -/
def execSeal (c : Ctl) (sp : Space) (o : Ord) (d : Reg) (a : Src) (off : BitVec 24) (s : State) :
    Host.Outcome State Fault Refusal :=
  .next (issue (.seal c sp o d a off) c s fun b p act s =>
    s.memory (.seal c sp o d a off) c.sched b p act (sealOp c sp o d a off b act s))

/-- UNSEAL's lanes in ascending order: those done, and whether one met an invalid handle (R289). -/
def State.unsealLanes (pid aspace : Nat) : List (Nat × Val) → List Nat → State → (List Nat × Bool) × State
  | [], done, s => ((done, false), s)
  | (l, h) :: r, done, s =>
    match s.handle? pid aspace h with
    | none => ((done, true), s)
    | some (n, e) => State.unsealLanes pid aspace r (done ++ [l]) (s.setHentry pid n ⟨false, e.gen + 1, [], 0⟩)

/-- UNSEAL (R289). -/
def execUnseal (c : Ctl) (a : Src) (s : State) : Host.Outcome State Fault Refusal :=
  .next (issue (.unseal c a) c s fun b p act s =>
    let hs := perLane act fun l => rdSrc s b c.ix a l
    let ((done, bad), s) := State.unsealLanes ((s.myBlk.map Block.pid).getD 0) s.myAspace hs [] s
    let s := if done.isEmpty then s else s.changed b
    if bad then s.trapPath (.unseal c a) c.sched 0x10 (p.pc.setWidth 64) (act &&& ~~~(maskOf done))
    else (s.spend c.sched).next b)

/-- The field of a record that HINFO reads (R290). -/
def hinfoField (f : HField) (t : Tensor) : Nat :=
  match f with
  | .base => t.base
  | .fmt => t.fmt + 2 ^ 8 * t.skind + 2 ^ 16 * t.flags
  | .rows => t.rows
  | .cols => t.cols
  | .rstride => t.rstride
  | .sbase => t.sbase
  | .sstride => t.sstride
  | .perm => t.perm

/-- HINFO (R290). -/
def execHinfo (c : Ctl) (f : HField) (d : Reg) (a : Src) (s : State) : Host.Outcome State Fault Refusal :=
  .next (issue (.hinfo c f d a) c s fun b p act s =>
    let hs := perLane act fun l =>
      (s.handle? ((s.myBlk.map Block.pid).getD 0) s.myAspace (rdSrc s b c.ix a l)).map fun e => Tensor.of e.2.words
    if hs.any fun e => e.2.isNone then s.trapPath (.hinfo c f d a) c.sched 0x10 (p.pc.setWidth 64) act
    else
      let vals := hs.filterMap fun e => e.2.map fun t => (e.1, Val.raw (BitVec.ofNat 64 (hinfoField f t)))
      s.finish b c.sched .variable act (wrReg s.grp c.ix d vals))

end Sys2Proof.Machine
end

