-- ==== Sys2Proof/Machine/Promises.lean ====
section
/-! DEFINITION. Promise cells: Find, the promise instructions, waiters and the limit of a wait (spec 23_promises R263 to R279). -/
namespace Sys2Proof.Machine

/-! ### Find (R266) -/

/-- What Find ends in: a root, or Broken, each the number of a physical word; or `dropped` where a closed link drops the
message of a hop (R385). -/
inductive Root where
  | root (w : Nat)
  | broken (w : Nat)
  | dropped
  deriving DecidableEq, Repr

/-- PARENT of a link payload, as a word number (Table 23.3). -/
def linkParent (x : Word) : Nat := fld x 3 49
/-- A link payload. -/
def linkTo (w : Nat) : Val := ⟨.link, BitVec.ofNat 64 (8 * w)⟩
/-- Tags 0 to 10: a filled cell (Table 23.1). -/
def filledTag (t : Tag) : Bool := t.code ≤ 10
/-- Whether a physical word is tagged local memory of a partition. -/
def State.cellWord (s : State) (pid w : Nat) : Bool :=
  s.inTagged w && (match rangeOf (8 * w) with | .hbm d => s.ownsDie pid d | _ => false)

/-- The physical die of a word of local memory. -/
def wordDie (w : Nat) : Nat := 8 * w / 0x4000000000
/-- Find from word c for an agent, whose own stores to the words come first (R205): `prev` is the link just left, `seen` the
links visited. Fuel is the hops left; a hop goes from the home slice of the link to that of its parent. -/
def State.find (me : Option Writer) (pid : Nat) : Nat → Nat → Option Nat → List Nat → State → Root × State
  | 0, c, _, _, s => (.broken c, s)
  | fuel + 1, c, prev, seen, s =>
    let s := s.drainFor me c
    let w := s.peek c
    if w.tag = .pend then (.root c, s)
    else if filledTag w.tag then (.root c, seen.foldl (fun s x => s.regWord none x w) s)
    else if w.tag ≠ .link || !s.cellWord pid (linkParent w.pay) then (.broken c, s)
    else if !s.reachesFrom (wordDie c) (8 * linkParent w.pay) then (.dropped, s.dropFrom (wordDie c) (8 * linkParent w.pay))
    else
      let s := match prev with
        | some q => s.regWord none q (linkTo (linkParent w.pay))
        | none => s
      State.find me pid fuel (linkParent w.pay) (some c) (seen ++ [c]) s
/-- Find: hops 0 to 64. -/
def State.findRoot (s : State) (me : Option Writer) (pid c : Nat) : Root × State := State.find me pid 65 c none [] s

/-! ### The end of a promise wait (R275) -/

/-- A path acts while another agent issues: the change that its group and slot undergo. -/
def State.asPath (s : State) (blk grp : Nat) (b : Bool) (f : State → State) : State :=
  let who := s.who
  let had := s.grp.st != .none
  let (ob, og) := (s.grp.blk, s.grp.grp)
  let s' := f { s.focus blk grp with who := .path b }
  { (if had then s'.focus ob og else s') with who := who }

/-- The shape under which the values of a promise wait pass the read barrier. -/
def promOp : MemOp := { MemOp.plain .glb 8 0 (fun _ => Val.nil) with barrier := true, need := .read }

/-- The values of the lanes with status 0 pass the barrier; the results are written and the path goes on, or waits
for the pages of the barrier (R275, R239). `num` is the first register of the pair. -/
def State.promValues (s : State) (k : Face) (c : Ctl) (b : Bool) (p : Path) (act : Mask) (dead : Dead) (num : Nat) (ws0 : List RegWrite)
    (os : List LaneOut) (ups : List Raise) : State :=
  let acq := (p.redo.map Redo.acq).getD false
  let (sw, s) := State.sweepBar p b promOp dead os acq ⟨[], [], [], [], acq⟩ s
  let ups := ups ++ sw.done.filterMap LaneOut.raise
  let ws := ws0 ++ wrNum (num + 1) (outVals 0 sw.done)
  match sw.miss with
  | _ :: _ =>
    let left := maskOf (sw.todo.map LaneOut.lane)
    (s.retirePart b c.sched .variable act ws).replay b
      { what := .instr, active := act, pmask := p.mask &&& ~~~left, bad := dead, acq := sw.acq, got := sw.todo, raises := ups
        stop := none, face := some k }
      sw.miss false
  | [] =>
    let T := maskOf (sw.stops.map Prod.fst)
    let live := act &&& ~~~(maskOf (ups.map Raise.lane) ||| T)
    (s.retire b c.sched .variable live ws).raiseClasses b k act dead ups (stopOf T sw.stops)

/-- A wait or a read whose lanes all have a status: status words, values, predicate bits (R275). -/
def State.promDone (s : State) (k : Face) (c : Ctl) (b : Bool) (p : Path) (act : Mask) (num : Nat) (q : Option Pred)
    (st : List (Nat × Nat × Val × Nat)) : State :=
  let s := if st.any fun e => e.2.1 == 0 then s.acquireMe p else s
  let bad := st.filter fun e => e.2.1 != 0
  let ws := wrNum num (st.map fun e => (e.1, Val.ofInt e.2.1)) ++ wrNum (num + 1) (bad.map fun e => (e.1, Val.nil)) ++
    (match q with | some q => wrPred q (st.map fun e => (e.1, e.2.1 == 0)) | none => [])
  let os := (st.filter fun e => e.2.1 == 0).map fun e => LaneOut.of e.1 e.2.2.2 [e.2.2.1] none
  s.promValues k c b p act [] num ws os []

/-- A path's promise wait after some of its lanes were decided: it goes on waiting, or ends (DEDUCED, log entry 34). -/
def State.putProm (s : State) (blk grp : Nat) (b : Bool) (w : PromWait) : State :=
  match w.lanes with
  | _ :: _ => s.modGrp blk grp fun g => g.modSlot b fun p => { p with wait := .prom w }
  | [] =>
    s.asPath blk grp b fun s =>
      match s.cur with
      | none => s
      | some (b, p) =>
        let p := { p with wait := .none }
        (s.setGrp fun g => g.setSlot b (some p)).promDone w.face w.ctl b p w.active w.num none w.status

/-- The lanes of a mask get a status and a value. -/
def PromWait.decide (w : PromWait) (m : Mask) (st : Nat) (v : Val) : PromWait :=
  { w with
    lanes := w.lanes.filter fun l => !m.getLsbD l.1
    status := w.lanes.foldl (fun t l => if m.getLsbD l.1 then insStatus l.1 (st, v, l.2) t else t) w.status }
/-- The lanes of one waiter entry get a status and a value (R276). -/
def State.wakeEntry (st : Nat) (v : Val) (s : State) (e : Waiter) : State :=
  match (s.grp? e.blk e.grp).bind fun g => g.slot e.slot with
  | none => s
  | some p =>
    match p.wait with
    | .prom w => s.putProm e.blk e.grp e.slot (w.decide e.mask st v)
    | _ => s
/-- The entries of a root's list are freed and its waiters get a status and a value. The word itself is being
overwritten by the caller. -/
def State.wakeAll (s : State) (root st : Nat) (v : Val) : State :=
  let es := s.waiters.filter fun e => e.root == root
  es.foldl (State.wakeEntry st v) { s with waiters := s.waiters.filter fun e => !(e.root == root) }

/-- R272, R222, R314: an overwritten pend word with waiters ends them with status 3. -/
def State.abandon (s : State) (w : Nat) : State :=
  if s.waiters.any fun e => e.root == w then s.wakeAll w 3 Val.nil else s

/-! ### Registering (R276, R277) -/

/-- The logical die whose slice is home to a physical word (R16, R388). -/
def State.homeDie (s : State) (w : Nat) : Nat := s.logDie (8 * w / 0x4000000000 % 4)
/-- An entry for a path on a root; none when the pool is full. The spec does not say which free entry of the pool it takes, nor
where in the list it stands: here the lowest free index, at the head, which WHEAD then names (R276; DESIGN CHOICE, log entry 87). -/
def State.register (s : State) (b : Bool) (root : Nat) (m : Mask) : Option State :=
  let die := s.homeDie root
  let used := (s.waiters.filter fun e => e.die == die).map Waiter.idx
  match lowestFree used 65536 with
  | none => none
  | some i =>
    let x := s.peek root
    let e : Waiter :=
      { die := die, idx := i, root := root, blk := s.grp.blk, grp := s.grp.grp, slot := b, mask := m, next := pendHead x.pay }
    some ({ s with waiters := e :: s.waiters }.regWord none root ⟨.pend, pendWith x.pay (some (die, i))⟩)

/-- The lanes grouped by root, ascending. -/
def byRoot (r l : Nat) : List (Nat × List Nat) → List (Nat × List Nat)
  | [] => [(r, [l])]
  | (q, ls) :: t => if q = r then (q, ls ++ [l]) :: t else (q, ls) :: byRoot r l t

/-- Registering the undecided lanes of a path; the lanes that got no entry (R277). Where several get none, sys.faddr is left with the
cell of the first lane of the last root that got none: the spec does not say whose (DESIGN CHOICE, log entry 88). -/
def State.registerAll (b : Bool) (va : Nat → Nat) : List (Nat × List Nat) → State → List Nat × State
  | [], s => ([], s)
  | (r, ls) :: t, s =>
    match s.register b r (maskOf ls) with
    | some s => State.registerAll b va t s
    | none =>
      let s := s.setGrp fun g => { g with fcause := 0x0A, faddr := BitVec.ofNat 64 (va (ls.headD 0)) }
      let (bad, s) := State.registerAll b va t s
      (ls ++ bad, s)

/-! ### PINIT, PFILL, PEQ, PROOT -/

/-- The physical word of a cell, or the fault of R271. -/
def cellOf (h : Home) : BitVec 8 ⊕ Nat :=
  match h with
  | .glb pa pte => if pteMT pte ≠ 0 then .inl 0x05 else if !pteTag pte then .inl 0x08 else .inr (pa / 8)
  | .stack _ pa _ => .inr (pa / 8)
  | .bank _ _ => .inl 0x05

/-- The partition of the issuing group. -/
def State.pid (s : State) : Nat := (s.myBlk.map Block.pid).getD 0

/-- A word of a promise written by a path (R226). -/
def State.putCell (s : State) (me : Writer) (w : Nat) (x : Val) : State := (s.lateWrite me 0 w 0xFF).regWord (some me) w x
/-- One lane of PINIT (R272). -/
def pinitOne (b user : Bool) (me : Writer) (l va : Nat) (h : Home) (s : State) : LaneRes × State :=
  match cellOf h with
  | .inl c => (.stop c va, s)
  | .inr w =>
    let (x, s) := s.atHome me h
    let stop := match x.tag with
      | .pend | .link => none
      | t => tagFault t user
    match stop with
    | some c => (.stop c va, s)
    | none =>
      let s := s.abandon w
      let s := if s.peek w = ⟨.pend, 0⟩ then s else s.changed b
      (.ok (.of l va [] none), s.putCell me w ⟨.pend, 0⟩)

/-- The lanes of PINIT: operands, checks, access and results. -/
def pinitOp (c : Ctl) (a : Src) (off : BitVec 24) (b : Bool) (p : Path) (s : State) :
    MemOp :=
  { sp := .glb, align := 8, obj := false, off := off, ord := .none, need := .write, barrier := false, heal := false,
    ordered := true, base := baseOf s b c a, base2 := none, check := fun _ => none, one := pinitOne b p.user,
    out := fun _ => [] }

/-- PINIT (R272). -/
def execPinit (c : Ctl) (a : Src) (off : BitVec 24) (s : State) : Host.Outcome State Fault Refusal :=
  .next (issue (.pinit c a off) c s fun b p act s =>
    s.memory (.pinit c a off) c.sched b p act (pinitOp c a off b p s))

/-- A pend root takes a value and its waiters wake (R273, R276). -/
def State.fillRoot (s : State) (me : Writer) (r : Nat) (v : Val) : State := (s.putCell me r v).wakeAll r 0 v

/-- One lane of PFILL (R273). -/
def pfillOne (b : Bool) (x : Nat → Val) (me : Writer) (l va : Nat) (h : Home) (s : State) : LaneRes × State :=
  match cellOf h with
  | .inl c => (.stop c va, s)
  | .inr w =>
    match s.findRoot (some me) s.pid w with
    | (.broken _, s) => (.stop 0x03 va, s)
    | (.dropped, s) => (.stop 0x05 va, s)
    | (.root r, s) =>
      let m := s.peek r
      if m.tag = .pend then (.ok (.of l va [] none), (s.fillRoot me r (x l)).changed b)
      else if m = x l then (.ok (.of l va [] none), s)
      else (.stop 0x09 va, s)

/-- The lanes of PFILL: operands, checks, access and results. -/
def pfillOp (c : Ctl) (a x : Src) (off : BitVec 24) (b : Bool) (s : State) :
    MemOp :=
  { sp := .glb, align := 8, obj := false, off := off, ord := .rel, need := .write, barrier := false, heal := false,
    ordered := true, base := baseOf s b c a, base2 := none, check := fun _ => none,
    one := pfillOne b fun l => rdSrc s b c.ix x l, out := fun _ => [] }

/-- PFILL (R273): a release. -/
def execPfill (c : Ctl) (a x : Src) (off : BitVec 24) (s : State) : Host.Outcome State Fault Refusal :=
  .next (issue (.pfill c a x off) c s fun b p act s =>
    s.memory (.pfill c a x off) c.sched b p act (pfillOp c a x off b s))

/-- RANK of a pend payload. -/
def pendRank (x : Word) : Nat := fld x 58 6
/-- The child and the root of a union by rank (R274): ranks, then addresses. -/
def unionOrder (ra rb : Nat) (xa xb : Word) : Nat × Nat :=
  if pendRank xa < pendRank xb then (ra, rb)
  else if pendRank xb < pendRank xa then (rb, ra)
  else if ra < rb then (rb, ra) else (ra, rb)
/-- The last entry of a root's list. -/
def State.lastEntry (s : State) (root : Nat) : Option Waiter := s.waiters.find? fun e => e.root == root && e.next.isNone
/-- R274: two pend roots become one class. -/
def State.union (s : State) (me : Writer) (ra rb : Nat) : State :=
  let (child, root) := unionOrder ra rb (s.peek ra).pay (s.peek rb).pay
  let xc := (s.peek child).pay
  let xr := (s.peek root).pay
  let rank := if pendRank xc = pendRank xr then pendRank xr + 1 else pendRank xr
  let last := s.lastEntry root
  let head := match last with
    | some _ => pendHead xr
    | none => pendHead xc
  let join (e : Waiter) : Waiter :=
    let e := if some (e.die, e.idx) = last.map (fun k => (k.die, k.idx)) then { e with next := pendHead xc } else e
    if e.root = child then { e with root := root } else e
  let s := { s with waiters := s.waiters.map join }
  (s.putCell me root ⟨.pend, setFld (pendWith xr head) 58 6 rank⟩).putCell me child (linkTo root)

/-- The value of a class for D of PEQ, and whether it is filled. -/
def classOut (x : Val) : Val × Bool := if x.tag = .pend then (Val.nil, false) else (x, true)

/-- One lane of PEQ (R274). -/
def peqOne (b : Bool) (p : Path) (y : Nat → Val) (me : Writer) (l va : Nat) (h : Home) (s : State) : LaneRes × State :=
  let vb := (y l).pay.toNat
  match s.locate p .glb .write vb with
  | (.home hb, s) =>
    match cellOf h, cellOf hb with
    | .inl c, _ => (.stop c va, s)
    | _, .inl c => (.stop c vb, s)
    | .inr wa, .inr wb =>
      let (fa, s) := s.findRoot (some me) s.pid wa
      let (fb, s) := s.findRoot (some me) s.pid wb
      match fa, fb with
      | .broken _, _ => (.stop 0x03 va, s)
      | .dropped, _ => (.stop 0x05 va, s)
      | .root _, .broken _ => (.stop 0x03 vb, s)
      | .root _, .dropped => (.stop 0x05 vb, s)
      | .root ra, .root rb =>
          let xa := s.peek ra
          let xb := s.peek rb
          let out (s : State) (r : Nat) : LaneRes × State :=
            let (v, f) := classOut (s.peek r)
            (.ok (.of l va [v] (some f)), s)
          if ra = rb then out s ra
          else if xa.tag = .pend ∧ xb.tag = .pend then
            let s := (s.union me ra rb).changed b
            (.ok (.of l va [Val.nil] (some false)), s)
          else if xa.tag = .pend then out ((s.fillRoot me ra xb).changed b) rb
          else if xb.tag = .pend then out ((s.fillRoot me rb xa).changed b) ra
          else if xa = xb then out s ra
          else (.stop 0x09 va, s)
  | (.fault c, s) => (.stop c vb, s)
  | (.missing, s) => (.stop 0x06 vb, s)

/-- The lanes of PEQ: operands, checks, access and results. -/
def peqOp (c : Ctl) (d : Reg) (a y : Src) (q : Pred) (b : Bool) (p : Path) (act : Mask) (s : State) :
    MemOp :=
  { sp := .glb, align := 8, obj := false, off := 0, ord := .ar, need := .write, barrier := true, heal := false,
    ordered := true, base := baseOf s b c a, base2 := some (baseOf s b c y), check := fun _ => none,
    one := peqOne b p fun l => rdSrc s b c.ix y l,
    out := fun os => outReg s.grp c.ix d act os ++ wrPred q (outBits os) }

/-- PEQ (R274): a release before, an acquire after. -/
def execPeq (c : Ctl) (d : Reg) (a y : Src) (q : Pred) (s : State) : Host.Outcome State Fault Refusal :=
  .next (issue (.peq c d a y q) c s fun b p act s =>
    s.memory (.peq c d a y q) c.sched b p act (peqOp c d a y q b p act s))

/-- One lane of PROOT (R278). -/
def prootOne (me : Writer) (l va : Nat) (h : Home) (s : State) : LaneRes × State :=
  match cellOf h with
  | .inl c => (.stop c va, s)
  | .inr w =>
    match s.findRoot (some me) s.pid w with
    | (.dropped, s) => (.stop 0x05 va, s)
    | (.root r, s) => (.ok (.of l va [.raw (BitVec.ofNat 64 (8 * r))] none), s)
    | (.broken r, s) => (.ok (.of l va [.raw (BitVec.ofNat 64 (8 * r + 1))] none), s)

/-- The lanes of PROOT: operands, checks, access and results. -/
def prootOp (c : Ctl) (d : Reg) (a : Src) (b : Bool) (act : Mask) (s : State) :
    MemOp :=
  { sp := .glb, align := 8, obj := false, off := 0, ord := .none, need := .read, barrier := false, heal := false,
    ordered := true, base := baseOf s b c a, base2 := none, check := fun _ => none, one := prootOne,
    out := outReg s.grp c.ix d act }

/-- PROOT (R278). -/
def execProot (c : Ctl) (d : Reg) (a : Src) (s : State) : Host.Outcome State Fault Refusal :=
  .next (issue (.proot c d a) c s fun b p act s =>
    s.memory (.proot c d a) c.sched b p act (prootOp c d a b act s))

/-! ### PWAIT and PGET -/

/-- What one lane of a read of a class finds (R275): status 2, a page that misses, the value, or an unfilled root. -/
inductive Cell where
  | bad
  | missing (va : Nat)
  | filled (v : Val)
  | unfilled (root : Nat)
  deriving DecidableEq, Repr

/-- R275 for one lane. The reads of a cell by PGET, PWAIT and PROOT, which its home slices make, count as no loads of its sector
(R65; DESIGN CHOICE, log entry 78). -/
def State.cellAt (s : State) (p : Path) (dead : Dead) (l : Nat) (x : Val) : Cell × State :=
  let va := x.pay.toNat
  if !x.isNum || 2 ^ 56 ≤ va || va % 8 != 0 then (.bad, s)
  else
    match (if dead.at l va then (.fault 0x06, s) else s.locate p .glb .read va) with
    | (.missing, s) => (.missing va, s)
    | (.fault _, s) => (.bad, s)
    | (.home (.stack g pa k), s) => (.filled (s.readHome (s.me p) (.stack g pa k)).1, s)
    | (.home h, s) =>
      match cellOf h with
      | .inl _ => (.bad, s)
      | .inr w =>
        match s.findRoot (some (s.me p)) s.pid w with
        | (.broken _, s) | (.dropped, s) => (.bad, s)
        | (.root r, s) => (if (s.peek r).tag = .pend then .unfilled r else .filled (s.peek r), s)

/-- R275 for every lane. -/
def State.cellsAt (p : Path) (dead : Dead) : List (Nat × Val) → State → List (Nat × Nat × Cell) × State
  | [], s => ([], s)
  | (l, x) :: r, s =>
    let (k, s) := s.cellAt p dead l x
    let (ks, s) := State.cellsAt p dead r s
    ((l, x.pay.toNat, k) :: ks, s)

/-- The status of a lane whose class is not waited for. -/
def Cell.status : Cell → Nat × Val
  | .bad => (2, Val.nil)
  | .filled v => (0, v)
  | .missing _ | .unfilled _ => (1, Val.nil)

/-- PWAIT and PGET: the reads of every lane; then the wait, or the results (R275). Whether a lane whose cell is found in a pass that
meets a missing page has completed then, R63 does not say of these instructions: here no lane has, PMASK leaves it out, and the replay
decides every lane anew (DESIGN CHOICE, log entry 34). -/
def promRead (i : Instr) (c : Ctl) (d : Vec) (a : Src) (q : Option Pred) (wait : Option (BitVec 5)) (s : State) : State :=
  issue i c s fun b p act s =>
    let dead := p.dead
    let k := ((p.redo.bind Redo.face).getD (faceOf s i))
    match (p.redo.map Redo.got).getD [] with
    | got@(_ :: _) => s.promValues k c b p act dead (k.dst.2 - 1) [] got ((p.redo.map Redo.raises).getD [])
    | [] =>
      let num := vecNum s.grp c.ix d
      let (ks, s) := State.cellsAt p dead (perLane act fun l => rdSrc s b c.ix a l) s
      let miss := ks.foldl (fun m e => match e.2.2 with | .missing va => addMiss m va e.1 false | _ => m) []
      match miss with
      | _ :: _ =>
        s.replay b
          { what := .instr, active := act, pmask := p.mask &&& ~~~act, bad := dead, got := [], raises := [], stop := none }
          miss false
      | [] =>
        let all := ks.map fun e => (e.1, e.2.2.status.1, e.2.2.status.2, e.2.1)
        let open_ := ks.filterMap fun e => match e.2.2 with | .unfilled r => some (e.1, e.2.1, r) | _ => none
        match wait, open_ with
        | none, _ | some 0, _ | _, [] => s.promDone k c b p act num q all
        | some e, _ =>
          let vaOf (l : Nat) : Nat := ((open_.find? fun k => k.1 == l).map fun k => k.2.1).getD 0
          let (none_, s) := State.registerAll b vaOf (open_.foldl (fun t k => byRoot k.2.2 k.1 t) []) s
          let st := all.filterMap fun k =>
            if open_.any fun o => o.1 == k.1 then
              if none_.contains k.1 then some (k.1, 2, Val.nil, k.2.2.2) else none
            else some k
          let left := (open_.filter fun k => !none_.contains k.1).map fun k => (k.1, k.2.1)
          match left with
          | [] => s.promDone k c b p act num q st
          | _ :: _ =>
            let w : PromWait :=
              { ctl := c, num := num, face := k, lanes := left, status := st, deadline := s.deadline s.grp.blk e, active := act }
            s.setGrp fun g => g.modSlot b fun p => { p with wait := .prom w }

/-- PWAIT (R275). -/
def execPwait (c : Ctl) (texp : BitVec 5) (d : Vec) (a : Src) (s : State) : Host.Outcome State Fault Refusal :=
  .next (promRead (.pwait c texp d a) c d a none (some texp) s)
/-- PGET (R275). -/
def execPget (c : Ctl) (d : Vec) (a : Src) (q : Pred) (s : State) : Host.Outcome State Fault Refusal :=
  .next (promRead (.pget c d a q) c d a (some q) none s)

/-! ### The limit of a wait -/

/-- The undecided lanes of a wait whose limit has passed get status 1 (R250, R252, R275, R277). -/
def State.timeout (s : State) (blk grp : Nat) (slot : Bool) : State :=
  match (s.grp? blk grp).bind fun g => g.slot slot with
  | none => s
  | some p =>
    match p.wait with
    | .bar w => if s.expired blk w.deadline then s.putBar blk grp slot (w.decide fun _ => some 1) else s
    | .prom w =>
      if s.expired blk w.deadline then
        let s := s.freeWaiters fun e => e.blk == blk && e.grp == grp && e.slot == slot
        s.putProm blk grp slot (w.decide 0xFFFFFFFF 1 Val.nil)
      else s
    | _ => s
/-- WAIT_TIMEOUT: a wait ends at its limit, which every step looks for as well. -/
def execWaitTimeout (blk grp : Nat) (slot : Bool) (s : State) : Host.Outcome State Fault Refusal :=
  .next (s.timeout blk grp slot)

end Sys2Proof.Machine
end

