-- ==== Sys2Proof/Machine/Tiles.lean ====
section
/-! DEFINITION. The tile stream: claims, loops, loads, products, stores, checksums and numbered barriers (spec 25_tiles R291 to R307). -/
namespace Sys2Proof.Machine

/-! ### The issuing stream -/

/-- The issuing stream with its block. -/
def State.curStream (s : State) : Option (Block × Stream) :=
  match s.who with
  | .stream id => (s.blk? id).bind fun b => b.stream.map fun t => (b, t)
  | .idle | .path _ => none
/-- The stream goes on at an address. -/
def State.streamAt (s : State) (id : Nat) (pc : BitVec 56) : State :=
  s.modStream id fun t =>
    { t with pc := pc, wait := .none, waited := false, written := [], copied := none, kept := [], asked := none }
/-- What an instruction does to the issuing stream, with its block and core. -/
def onStream (s : State) (f : Block → Stream → Nat → State → State) : State :=
  match s.curStream with
  | some (b, t) => f b t (b.cores.headD 0) s
  | none => s
/-- An instruction that ends at pc + 16 after a change. -/
def State.streamNext (s : State) (b : Block) (t : Stream) (f : Stream → Stream) : State :=
  (s.modStream b.id f).streamAt b.id (t.pc + 16)
/-- A fault that names no address. -/
def State.streamBad (s : State) (b : Block) (cause : BitVec 8) : State := s.streamFault b.id cause 0 false false

/-- The tile engine of a core. -/
def State.tile (s : State) (core : Nat) : Tile := sget Tile.off s.tiles core
def State.setTile (s : State) (core : Nat) (t : Tile) : State := { s with tiles := sput Tile.off s.tiles core t }
/-- Whether a TMMA of a block runs. -/
def State.busyFor (s : State) (b : Block) (core : Nat) : Bool := (s.tile core).active && (s.tile core).blk == b.id
/-- Whether a TMMA of a block runs into an accumulator of a range. -/
def State.busyAcc (s : State) (b : Block) (core lo n : Nat) : Bool :=
  s.busyFor b core && lo ≤ (s.tile core).acc && (s.tile core).acc < lo + n

/-! ### Memory of the stream (R298) -/

/-- Where an access of the stream lands: its own allocation for .spd and .chp, a user-mode access for .glb. -/
def State.streamHome (s : State) (b : Block) (core space a : Nat) (need : Need) : Found :=
  if space = 2 then
    match b.spdOn core with
    | some x => if a < b.spec.spd then .home (.bank .spd (spdFlat core (x + a))) else .fault 0x05
    | none => .fault 0x05
  else if space = 4 then
    match s.chpWin b.pid b.eff.job (core / 72) with
    | some w => if a < w.size then .home (.bank .chp (chpFlat w.die (w.base + a))) else .fault 0x05
    | none => .fault 0x05
  else if 2 ^ 56 ≤ a then .fault 0x05
  else
    match (s.translate core b.aspace a).1 with
    | .missing => .missing
    | .malformed => .fault 0x06
    | .dropped _ => .fault 0x05
    | .leaf pte size =>
      if refused pte need true || !s.reaches core (leafPA pte size a) then .fault 0x05
      else s.onStack b.aspace a (leafPA pte size a) pte false

/-- The registered word of a home. -/
def State.homeWord (s : State) (h : Home) : Val :=
  match h with
  | .glb pa pte =>
    match pteMT pte, rangeOf pa with
    | 2, .doorbell q => .raw (BitVec.ofNat 64 (s.doorbell q (pa % 0x10000 / 8 * 8) 8))
    | _, _ => s.peek (pa / 8)
  | .stack g _ k => s.stackWord g k
  | .bank b a => s.bankWord b (a / 8)
/-- The registered byte of a home. -/
def State.homeByte (s : State) (h : Home) : Byte := BitVec.ofNat 8 ((s.homeWord h).pay.toNat / 2 ^ (8 * h.off))

/-- An access through a core's TLB leaves its translation there, and one that a closed link drops is counted (R183, R385). -/
def State.touch (s : State) (core aspace va : Nat) : State :=
  match s.translate core aspace va with
  | (.leaf pte size, s) => s.dropFrom (s.physDie (core / 72)) (leafPA pte size va)
  | (.missing, s) | (.malformed, s) | (.dropped _, s) => s

/-- The bytes read at a list of addresses, the addresses that miss, the first that fails, and the bytes by address. -/
structure Reads where
  bytes : List Byte
  miss : List Nat
  fail : Option (BitVec 8 × Nat)
  got : List (Nat × Byte)
  deriving DecidableEq, Repr
/-- Adding a missing address, one per 64 KiB page. -/
def addPage (va : Nat) (l : List Nat) : List Nat := if l.any fun a => a / 0x10000 == va / 0x10000 then l else l ++ [va]
/-- A byte that the stream's instruction has read before it waited for a page (R298). -/
def Block.keptByte (b : Block) (space a : Nat) : Option Byte :=
  b.stream.bind fun t => (t.kept.find? fun e => e.1 == space && e.2.1 == a).map fun e => e.2.2
/-- Reading the bytes at a list of addresses of a space: only those that are still to be read. -/
def State.streamReads (s : State) (b : Block) (core space : Nat) (as : List Nat) : Reads :=
  as.foldl (fun r a =>
    match b.keptByte space a with
    | some x => { r with bytes := r.bytes ++ [x] }
    | none =>
      match s.streamHome b core space a .read with
      | .home h => { r with bytes := r.bytes ++ [s.homeByte h], got := (a, s.homeByte h) :: r.got }
      | .missing => { r with miss := addPage a r.miss }
      | .fault c => match r.fail with | some _ => r | none => { r with fail := some (c, a) }) ⟨[], [], none, []⟩
/-- The pages of a list of addresses of a space are touched by the stream's core. -/
def State.touchAll (s : State) (core aspace space : Nat) (as : List Nat) : State :=
  if space = 2 ∨ space = 4 then s
  else (as.foldl (fun l a => addPage a l) []).foldl (fun s a => s.touch core aspace a) s
/-- The addresses of n bytes. -/
def span (a n : Nat) : List Nat := (List.range n).map fun k => a + k
/-- 32-bit numbers of a list of bytes. -/
def words32 : List Byte → List Nat
  | a :: b :: c :: d :: r => leNat [a, b, c, d] :: words32 r
  | _ => []

/-- Reads of the stream, each a space and its addresses, and what follows: the pages are waited for, with the record `rec_` and
what has been read kept, the fault is taken, or `f` goes on with the bytes of each, which later reads of the instruction that wait
for pages do not repeat (R298). -/
def State.withReads (s : State) (b : Block) (core : Nat) (rec_ : List Word) (ps : List (Nat × List Nat))
    (f : List (List Byte) → State → State) : State :=
  let rs := ps.map fun e => (e.1, s.streamReads b core e.1 e.2)
  let s := ps.foldl (fun s e => s.touchAll core b.aspace e.1 e.2) s
  match rs.foldl (fun l r => r.2.miss.foldl (fun l a => addPage a l) l) [], rs.findSome? fun r => r.2.fail with
  | va :: vs, _ =>
    let kept := rs.flatMap fun r => r.2.got.map fun e => (r.1, e.1, e.2)
    (s.modStream b.id fun t => { t with copied := some rec_, kept := kept ++ t.kept }).streamMiss b.id false
      ((va :: vs).map fun a => (a, false))
  | [], some (c, a) => s.streamFault b.id c a false false
  | [], none =>
    let kept := rs.flatMap fun r => r.2.got.map fun e => (r.1, e.1, e.2)
    f (rs.map fun r => r.2.bytes) (s.modStream b.id fun t => { t with kept := kept ++ t.kept })

/-! ### Claims and loops (R295, R296) -/

/-- TCLAIM (R295). -/
def execTclaim (acc : Bool) (first count : BitVec 10) (s : State) : Host.Outcome State Fault Refusal :=
  .next (onStream s fun b t _ s =>
    let lo := first.toNat
    let n := count.toNat
    if (if acc then b.spec.accs else b.spec.slots) < lo + n then s.streamBad b 0x11
    else
      s.streamNext b t fun t =>
        if acc then { t with accs := (span lo n).foldl (fun a k => if (keyGet a k).isSome then a else keySet a k none) t.accs }
        else { t with slots := (span lo n).foldl (fun a k => if (keyGet a k).isSome then a else keySet a k none) t.slots })

/-- TREL (R295). -/
def execTrel (acc : Bool) (first count : BitVec 10) (s : State) : Host.Outcome State Fault Refusal :=
  .next (onStream s fun b t core s =>
    let lo := first.toNat
    let n := count.toNat
    if (if acc then b.spec.accs else b.spec.slots) < lo + n then s.streamBad b 0x11
    else if (acc && s.busyAcc b core lo n) || (!acc && s.busyFor b core) then s
    else
      s.streamNext b t fun t =>
        if acc then { t with accs := keyDrop t.accs lo n }
        else { t with slots := keyDrop t.slots lo n, loads := t.loads.filter fun e => e.1 < lo || lo + n ≤ e.1 })

/-- TLOOP (R296). -/
def execTloop (count : BitVec 24) (s : State) : Host.Outcome State Fault Refusal :=
  .next (onStream s fun b t _ s =>
    if 4 ≤ t.loops.length then s.streamBad b 0x11
    else s.streamNext b t fun t => { t with loops := t.loops ++ [(t.pc + 16, count.toNat, 0)] })

/-- TENDL (R296). -/
def execTendl (s : State) : Host.Outcome State Fault Refusal :=
  .next (onStream s fun b t _ s =>
    match t.loops.getLast? with
    | none => s.streamBad b 0x11
    | some (start, count, i) =>
      let outer := t.loops.dropLast
      if i + 1 < count then
        (s.modStream b.id fun t => { t with loops := outer ++ [(start, count, i + 1)] }).streamAt b.id start
      else s.streamNext b t fun t => { t with loops := outer })

/-- TSTOP (R297). -/
def execTstop (s : State) : Host.Outcome State Fault Refusal :=
  .next (onStream s fun b _ core s =>
    if s.busyFor b core then s
    else s.modStream b.id fun t =>
      { t with
        stopped := true, slots := [], accs := [], loops := [], wait := .none, waited := false, arrived := [], late := [], loads := [] })

/-! ### Numbered barriers (R304, R307) -/

/-- Whether a group of a block is still alive. -/
def State.groupsLive (s : State) (id : Nat) : Bool :=
  s.allGroups.any fun g => g.blk == id && g.st != .none && g.st != .ended

/-- TBWT's wait (R304): `done` when the phase has been passed; the stream waits otherwise, and faults when every group
has ended (R307). -/
def State.tbwt (s : State) (b : Block) (t : Stream) (core n : Nat) (self : Bool) (done : State → State) : State :=
  match b.barrier core n with
  | none => s.streamBad b 0x11
  | some a =>
    match s.barAt a with
    | none => s.streamBad b 0x11
    | some o =>
      let q := (sget 0 t.q n).toNat
      if o.phase ≠ q ∨ (self ∧ o.pena = 1 ∧ o.penb = 0) then
        done (s.modStream b.id fun t => { t with q := sput 0 t.q n (BitVec.ofNat 32 o.phase), lastBar := some n })
      else if s.groupsLive b.id then s.modStream b.id fun t => { t with wait := .bar n self }
      else s.streamBad b 0x11

/-- TBWT (R304). -/
def execTbwt (n : Fin 16) (self : Bool) (s : State) : Host.Outcome State Fault Refusal :=
  .next (onStream s fun b t core s => s.tbwt b t core n.val self fun s => s.streamNext b t id)

/-- TARR (R304): the bytes of earlier instructions are registered when they perform. -/
def execTarr (n : Fin 16) (s : State) : Host.Outcome State Fault Refusal :=
  .next (onStream s fun b t core s =>
    match b.barrier core n.val with
    | none => s.streamBad b 0x11
    | some a =>
      let (r, s) := s.barUpdate none a true 0 0
      if r < 0 then s.streamBad b 0x11 else s.streamNext b t (Stream.closeWindow n.val))

/-! ### Loads (R298) -/

/-- n[L] (R296). -/
def Stream.index (t : Stream) (lvl : BitVec 2) : Int := ((t.loops[lvl.toNat]?).map fun e => (e.2.2 : Int)).getD 0
/-- The row and column tile of a TLOAD or TSTORE. -/
def Stream.tileAt (t : Stream) (st : TStep) : Int × Int :=
  (st.rowBase.toNat + st.rstep.toInt * t.index st.rlvl, st.colBase.toNat + st.cstep.toInt * t.index st.clvl)
/-- Whether a tile lies in a record. -/
def Tensor.inside (R : Tensor) (r c : Int) (tr tc : Nat) : Bool :=
  0 ≤ r && 0 ≤ c && (r + 1) * tr ≤ R.rows && (c + 1) * tc ≤ R.cols

/-- The words of the record that handle word n names: a fault of the address, 0x10, or the record (R294, R298); an instruction
that has copied it before keeps its copy (R289). -/
def State.streamWords (s : State) (b : Block) (core n : Nat) : (BitVec 8 × Nat) ⊕ List Word :=
  match b.stream.bind Stream.copied with
  | some ws => .inr ws
  | none =>
    match s.streamHome b core 2 (8 * n) .read with
    | .home h =>
      match s.handle? b.pid b.aspace (s.homeWord h) with
      | some (_, e) => .inr e.words
      | none => .inl (0x10, 0)
    | .missing => .inl (0x06, 8 * n)
    | .fault c => .inl (c, 8 * n)

/-- The bytes that hold element (i, col), and the element's bits within them. -/
def Tensor.elemAddrs (R : Tensor) (i col : Nat) : List Nat :=
  let a := R.base + i * R.rstride + col * elemBits R.fmt / 8
  span a (if R.fmt = 8 then 2 else 1)
/-- The elements of the bytes read, one per column listed. -/
def elemsOf (fmt : Nat) : List Nat → List Byte → List (BitVec 16)
  | [], _ => []
  | col :: cs, bs =>
    if fmt = 8 then
      match bs with
      | x :: y :: r => BitVec.ofNat 16 (leNat [x, y]) :: elemsOf fmt cs r
      | _ => []
    else
      match bs with
      | x :: r =>
        let v := x.toNat
        BitVec.ofNat 16 (if fmt = 9 then v else if col % 2 = 0 then v % 16 else v / 16) :: elemsOf fmt cs r
      | [] => []

/-- The addresses of the scales that a tile captures (Table 25.7). -/
def Tensor.scaleAddrs (R : Tensor) (r c : Nat) : List Nat :=
  match R.fmt, R.roleB, R.skind with
  | 9, false, 1 => (List.range 128).flatMap fun i => span (R.sbase + (r * 128 + i) * R.sstride + 4 * c) 4
  | 9, _, 2 => span (R.sbase + r * R.sstride + 4 * c) 4
  | 10, false, _ => (List.range 128).flatMap fun i => span (R.sbase + (r * 128 + i) * R.sstride + 8 * c) 8
  | 10, true, _ => (List.range 8).flatMap fun q => span (R.sbase + (8 * r + q) * R.sstride + 128 * c) 128
  | _, _, _ => []

/-- FP32 1.0. -/
def oneF32 : BitVec 32 := 0x3F800000
/-- The format of a loaded slot. -/
def tileFmt (fmt : Nat) : TileFmt := if fmt = 9 then .e4m3 else if fmt = 10 then .e2m1 else .bf16
/-- A loaded slot: its elements and scales (R298, Table 25.7). -/
def Tensor.load (R : Tensor) (elems : List (BitVec 16)) (sc : List Byte) : TileData :=
  let fs : List (BitVec 32) := (words32 sc).map (BitVec.ofNat 32)
  let sa : List (BitVec 32) :=
    if R.fmt = 9 ∧ !R.roleB then
      if R.skind = 1 then fs else List.replicate 128 (if R.skind = 2 then fs.headD 0 else oneF32)
    else []
  let sb : BitVec 32 := if R.fmt = 9 ∧ R.roleB ∧ R.skind = 2 then fs.headD 0 else oneF32
  { fmt := tileFmt R.fmt, roleB := R.roleB, elems := elems, sa := sa, sb := sb, es := if R.fmt = 10 then sc else [] }
/-- The bytes of a space at a list of addresses, in the window of barrier n. -/
def State.windowWords (s : State) (b : Block) (core n space : Nat) (as : List Nat) : List StreamWord :=
  as.filterMap fun a =>
    match s.streamHome b core space a .read with
    | .home h => some ⟨n, h.key.1, h.key.2, h.bytes 1⟩
    | .missing | .fault _ => none
/-- A slot is loaded from the bytes of some places: its contents are undefined when group code has written one of them in the
window of the barrier that the load follows (R226) (DEDUCED, log entry 19). -/
def State.loadSlot (s : State) (b : Block) (t : Stream) (core slot : Nat) (ps : List (Nat × List Nat)) (d : TileData) : State :=
  let ws := match t.lastBar with
    | some n => ps.flatMap fun (e : Nat × List Nat) => s.windowWords b core n e.1 e.2
    | none => []
  let s := s.streamNext b t fun t =>
    { t with
      slots := keySet t.slots slot (some d), loads := (t.loads.filter fun e => e.1 != slot) ++ ws.map fun w => (slot, w) }
  if ws.any fun w => t.late.any w.meets then s.spoilSlot b.id slot else s
/-- TLOAD once its wait is over (R298). -/
def State.tload (s : State) (b : Block) (t : Stream) (core slot hw : Nat) (st : TStep) (roleB : Bool) : State :=
  match s.streamWords b core hw with
  | .inl (c, a) => s.streamFault b.id c a false false
  | .inr rec_ =>
    let R := Tensor.of rec_
    let (tr, tc) := R.tile
    let (r, c) := t.tileAt st
    if R.out || R.roleB != roleB || !R.inside r c tr tc then s.streamBad b 0x10
    else
      let (r, c) := (r.toNat, c.toNat)
      let direct := (List.range tc).map fun k => c * tc + k
      let perm := if !roleB && R.perm != 0 then direct.flatMap fun k => span (R.perm + 4 * k) 4 else []
      s.withReads b core rec_ [(R.sspace, perm)] fun pb s =>
        let cols := if perm.isEmpty then direct else words32 (pb.headD [])
        if cols.any fun k => R.cols ≤ k then s.streamBad b 0x10
        else
          let rows := (List.range tr).map fun i => r * tr + i
          let ps := [(R.space, rows.flatMap fun i => cols.flatMap fun k => R.elemAddrs i k), (R.sspace, R.scaleAddrs r c)]
          s.withReads b core rec_ ps fun bs s =>
            let d := R.load (elemsOf R.fmt (rows.flatMap fun _ => cols) (bs.headD [])) (bs.getD 1 [])
            s.loadSlot b t core slot ((R.sspace, perm) :: ps) d

/-- TLOAD (R298). -/
def execTload (slot : Fin 48) (hw : BitVec 10) (st : TStep) (roleB : Bool) (w : Option TWait) (s : State) :
    Host.Outcome State Fault Refusal :=
  .next (onStream s fun b t core s =>
    if (keyGet t.slots slot.val).isNone then s.streamBad b 0x11
    else
      let go (s : State) : State := s.tload b t core slot.val hw.toNat st roleB
      match w with
      | some w =>
        if t.waited then go s
        else s.tbwt b t core w.bar.val w.self fun s => go (s.modStream b.id fun t => { t with waited := true, wait := .none })
      | none => go s)

/-! ### Products (R299) -/

/-- An addition step: rounded once to binary32, an exact zero sum +0. -/
def tileAdd (a b : Nat) : Nat :=
  let x := (fmtF32.decode a).add .rne (fmtF32.decode b)
  if x.isZero then 0 else fmtF32.put .rne x
/-- A product step, rounded to binary32. -/
def tileMul (a b : Nat) : Nat := fmtF32.put .rne ((fmtF32.decode a).mul (fmtF32.decode b))
/-- An exact fixed-point sum of products; a NaN operand makes it a NaN. -/
def exactDot (f : Fmt) (xs : List (Nat × Nat)) : FVal :=
  xs.foldl (fun t e => t.add .rne ((f.decode e.1).mul (f.decode e.2))) (.fin false 0 0)

/-- Element (i, k) of a slot with n columns. -/
def TileData.at (d : TileData) (n i k : Nat) : Nat := ((d.elems.getD (n * i + k) 0)).toNat
/-- The pairs a_(i,k), b_(k,j) for k in a range. -/
def dotPairs (a b : TileData) (kk i j lo n : Nat) : List (Nat × Nat) :=
  (List.range n).map fun k => (a.at kk i (lo + k), b.at 128 (lo + k) j)

/-- One level of the .bf16 sum: neighbours added. -/
def pairSums : List Nat → List Nat
  | x :: y :: r => tileAdd x y :: pairSums r
  | l => l

/-- The new value of accumulator element (i, j). -/
def mmaElem (a b : TileData) (i j c : Nat) : Nat :=
  match a.fmt with
  | .e4m3 =>
    let t := fmtF32.put .rne (exactDot fmtE4m3 (dotPairs a b 128 i j 0 128))
    let u := tileMul t (a.sa.getD i 0).toNat
    tileAdd c (tileMul u b.sb.toNat)
  | .e2m1 =>
    (List.range 8).foldl (fun x q =>
      let ea := (a.es.getD (8 * i + q) 0).toNat
      let eb := (b.es.getD (128 * q + j) 0).toNat
      let sum := exactDot fmtE2m1 (dotPairs a b 256 i j (32 * q) 32)
      let y := if ea = 0xFF ∨ eb = 0xFF then fmtF32.nan
        else fmtF32.put .rne (sum.mul (.fin false 1 ((ea : Int) + eb - 254)))
      tileAdd x y) c
  | .bf16 =>
    let ps := (dotPairs a b 64 i j 0 64).map fun e => fmtF32.put .rne ((fmtBf16.decode e.1).mul (fmtBf16.decode e.2))
    let s6 := (List.range 6).foldl (fun l _ => pairSums l) ps
    tileAdd c (s6.headD 0)

/-- The whole product. -/
def mmaAll (a b : TileData) (acc : List (BitVec 32)) : List (BitVec 32) :=
  (List.range 128).flatMap fun i => (List.range 128).map fun j =>
    BitVec.ofNat 32 (mmaElem a b i j ((acc.getD (128 * i + j) 0).toNat))

/-- An accumulator's values, free where it has not been written (R300). -/
def State.accVals (s : State) (v : Option (List (BitVec 32))) : List (BitVec 32) × State :=
  match v with
  | some l => (l, s)
  | none => ((List.range 16384).map fun k => (Config.freeWord (s.freeCtr + k)).setWidth 32,
      { s with freeCtr := s.freeCtr + 16384 })

/-- Whether the stream of another block of the core asked for the engine first (R291): at an earlier clock, or at the same one
with a lower block number (DEDUCED, log entry 35). -/
def State.askedBefore (s : State) (b : Block) (core at_ : Nat) : Bool :=
  s.blocks.any fun k =>
    k.id != b.id && k.st == .running && k.killRec.isNone && k.cores.headD 0 == core &&
      (match k.stream.bind Stream.asked with
       | some t => t < at_ || (t == at_ && k.id < b.id)
       | none => false)
/-- TMMA (R299): it occupies the engine for 64 clocks, after the power ramp of a gated one (DEDUCED, log entry 35). -/
def execTmma (acc : Fin 8) (x y : Fin 48) (s : State) : Host.Outcome State Fault Refusal :=
  .next (onStream s fun b t core s =>
    match keyGet t.accs acc.val, keyGet t.slots x.val, keyGet t.slots y.val with
    | some v, some (some dx), some (some dy) =>
      if dx.roleB || !dy.roleB || dx.fmt != dy.fmt then s.streamBad b 0x11
      else if (s.tile core).active || s.askedBefore b core (t.asked.getD s.now) then
        s.modStream b.id fun t => { t with asked := some (t.asked.getD s.now) }
      else
        let e := s.tile core
        let (c, s) := (s.worked b.id core 64).accVals v
        let start := if e.gated then s.now + 3400 else s.now
        let s := s.setTile core
          { e with gated := false, busyUntil := start + 64, blk := b.id, acc := acc.val, before := some c,
                   after := mmaAll dx dy c, active := true, reran := false, pc := t.pc }
        s.streamNext b t fun t => { t with accs := keySet t.accs acc.val (some c) }
    | _, _, _ => s.streamBad b 0x11)

/-- TZERO (R300). -/
def execTzero (acc : Fin 8) (s : State) : Host.Outcome State Fault Refusal :=
  .next (onStream s fun b t core s =>
    if (keyGet t.accs acc.val).isNone then s.streamBad b 0x11
    else if s.busyAcc b core acc.val 1 then s
    else s.streamNext b t fun t => { t with accs := keySet t.accs acc.val (some (List.replicate 16384 0)) })

/-- Saturation at 65,535 (Table 25.8). -/
def sat16 (n : Nat) : Nat := min 65535 n

/-- The TMMA of a core whose 64 clocks are over ends, or, where the turn says that its checksums mismatch, runs once more; after
a second mismatch the accumulator keeps what the rerun left, a free value, and a record of kind 4 is written (R18, R303). -/
def State.tmmaDone (s : State) (core : Nat) : State :=
  let e := s.tile core
  if !e.active || s.now < e.busyUntil then s
  else
    let done (v : List (BitVec 32)) (s : State) : State :=
      (s.modStream e.blk fun t =>
        if (keyGet t.accs e.acc).isSome then { t with accs := keySet t.accs e.acc (some v) } else t).setTile core
        { e with active := false, lastUse := e.busyUntil, before := none, after := [] }
    if !s.turn.tileErr then done e.after s
    else if !e.reran then
      ((s.modStream e.blk fun t => { t with rerun := sat16 (t.rerun + 1) }).worked e.blk core 64).setTile core
        { e with reran := true, busyUntil := e.busyUntil + 64 }
    else
      let (v, s) := s.accVals none
      let s := done v s
      let s := s.modStream e.blk fun t =>
        { t with fail := sat16 (t.fail + 1), facc := if t.fail = 0 then e.acc else t.facc }
      match s.blk? e.blk with
      | some b => s.record b.pid (b.streamRec 4 0x0F e.pc.toNat 0 false false)
      | none => s
/-- TMMA_COMPLETION: the TMMA of a core ends at its clock, for which every step looks as well. -/
def execTmmaCompletion (core : Nat) (s : State) : Host.Outcome State Fault Refusal := .next (s.tmmaDone core)

/-! ### Stores (R301, R302) -/

/-- The stores that come before at the home of a word are registered (R205). -/
def State.settleWord (s : State) (h : Home) : State :=
  match h with
  | .glb pa _ => s.drainFor none (pa / 8)
  | .stack .. | .bank .. => s
/-- A word landed at its home by an agent that is no path: a pend word's waiters end (R272); a word of a doorbell page
is a kick (R343). -/
def State.land (s : State) (h : Home) (x : Val) : State :=
  match h with
  | .glb pa pte =>
    match pteMT pte, rangeOf pa with
    | 2, .doorbell q => if pa % 0x10000 < 8 then s.kick q x.pay else s
    | _, _ => ((s.drainFor none (pa / 8)).abandon (pa / 8)).regWord none (pa / 8) x
  | .stack .. => s
  | .bank b a => s.bankWrite none b (a / 8) x
/-- A word written by the stream: tag raw. -/
def State.landRaw (s : State) (h : Home) (x : Word) : State := s.land h (.raw x)

/-- Who lands a word (R314, R425): a tile stream or a command of a user-mode path or of a peer, a command of a runtime-mode path,
or the Caller or command core. -/
inductive Lander where
  | user | runtime | device
  deriving DecidableEq, Repr

/-- Tags that a raw destination does not take (R314). -/
def guarded (t : Tag) : Bool := t == .ref || t == .hnd || t == .fwd || t == .pend || t == .link
/-- Tags 14 and 15. -/
def Tag.reserved (t : Tag) : Bool := t == .res14 || t == .res15

/-- Whether a home lies in a doorbell page (R343). -/
def Home.isBell (h : Home) : Bool :=
  match h with
  | .glb pa pte => pteMT pte == 2 && (match rangeOf pa with | .doorbell _ => true | _ => false)
  | .stack .. | .bank .. => false
/-- A word, whole or by the bytes of a mask, is landed at its home, or fails with a cause (R314, R425). The home slice acts on the
word as the stores that come before leave it, in one read-modify-write. A kick takes a whole word: a narrower write to a doorbell
page, of which R343 does not say what it does, does nothing (DESIGN CHOICE, log entry 85). -/
def State.landWord (s : State) (who : Lander) (h : Home) (whole : Bool) (x : Val) (bytes : BitVec 8) : (BitVec 8) ⊕ State :=
  let s := s.settleWord h
  let old := s.homeWord h
  let stored := if s.storesTag h then old.tag else .raw
  let fwdFails := match who with | .user => true | .runtime => false | .device => !h.tagged
  if stored == .fwd && fwdFails then .inl 0x08
  else if !h.tagged ∧ (stored = .pend ∨ stored = .link) then .inl 0x08
  else if !h.tagged ∧ Tag.reserved stored then .inl 0x03
  else if !whole && h.isBell then .inr s
  else if whole then
    if h.tagged then .inr (s.land h x)
    else if guarded x.tag then .inl 0x08
    else .inr (s.land h (.raw x.pay))
  else .inr (s.land h (.raw (mergeBytes old.pay x.pay bytes)))


/-- The words of an output tile, each with its address. -/
def Tensor.outWords (R : Tensor) (r c : Nat) (acc : List (BitVec 32)) : List (Nat × Word) :=
  let per := if R.fmt = 8 then 4 else 2
  let size := if R.fmt = 8 then 2 else 4
  (List.range 128).flatMap fun i => (List.range (128 / per)).map fun k =>
    let val (e : Nat) : Nat :=
      let x := (acc.getD (128 * i + per * k + e) 0).toNat
      if R.fmt = 8 then fmtBf16.put .rne (fmtF32.decode x) else x
    let pay := (List.range per).foldl (fun w e => w + val e * 2 ^ (8 * size * e)) 0
    (R.base + (128 * r + i) * R.rstride + 128 * c * size + 8 * k, BitVec.ofNat 64 pay)

/-- What a TSTORE has done: the words written, the pages that miss, the fault that stopped it. -/
structure Stored where
  written : List Nat
  miss : List Nat
  fail : Option (BitVec 8 × Nat)
  deriving DecidableEq, Repr

/-- The words of a TSTORE in turn; those written before a replay are left alone. -/
def State.storeWords (b : Block) (core space : Nat) : List ((Nat × Word) × Nat) → Stored → State → Stored × State
  | [], r, s => (r, s)
  | ((a, x), n) :: rest, r, s =>
    if r.fail.isSome || r.written.contains n then State.storeWords b core space rest r s
    else
      match s.streamHome b core space a .write with
      | .missing => State.storeWords b core space rest { r with miss := addPage a r.miss } s
      | .fault c => State.storeWords b core space rest { r with fail := some (c, a) } s
      | .home h =>
        match s.landWord .user h true (.raw x) 0xFF with
        | .inl c => State.storeWords b core space rest { r with fail := some (c, a) } s
        | .inr s => State.storeWords b core space rest { r with written := n :: r.written } s

/-- TSTORE (R301). -/
def execTstore (acc : Fin 8) (hw : BitVec 10) (st : TStep) (s : State) : Host.Outcome State Fault Refusal :=
  .next (onStream s fun b t core s =>
    match keyGet t.accs acc.val with
    | none => s.streamBad b 0x11
    | some v =>
      if s.busyAcc b core acc.val 1 then s
      else
        match s.streamWords b core hw.toNat with
        | .inl (c, a) => s.streamFault b.id c a false false
        | .inr rec_ =>
          let R := Tensor.of rec_
          let (r, c) := t.tileAt st
          if !R.out || !R.inside r c 128 128 then s.streamBad b 0x10
          else
            let (vals, s) := s.accVals v
            let s := s.modStream b.id fun t => { t with accs := keySet t.accs acc.val (some vals) }
            let ws := R.outWords r.toNat c.toNat vals
            let (d, s) := State.storeWords b core R.space ws.zipIdx ⟨t.written, [], none⟩ s
            let s := s.touchAll core b.aspace R.space (ws.map Prod.fst)
            match d.fail, d.miss with
            | some (cause, a), _ => s.streamFault b.id cause a true false
            | none, va :: vs =>
              (s.modStream b.id fun t => { t with written := d.written, copied := some rec_ }).streamMiss b.id false
                ((va :: vs).map fun a => (a, true))
            | none, [] => s.streamNext b t id)

/-- The checksum status word (Table 25.8). -/
def Stream.checksum (t : Stream) : Word :=
  BitVec.ofNat 64 (t.rerun * 2 ^ 32 + t.fail * 2 ^ 16 + t.facc * 2 ^ 5 + (if t.fail = 0 then 0 else 1))

/-- TCHK (R302): its word is written whatever tag stands there, fwd, pend and link included, for R302 states no tag check; R27 does
not name TCHK among the writers that overwrite such a word (DESIGN CHOICE, log entry 86). -/
def execTchk (off : BitVec 19) (s : State) : Host.Outcome State Fault Refusal :=
  .next (onStream s fun b t core s =>
    if s.busyFor b core then s
    else
      match s.streamHome b core 2 off.toNat .write with
      | .home h => (s.landRaw h t.checksum).streamNext b t fun t => { t with rerun := 0, fail := 0, facc := 0 }
      | .missing => s.streamFault b.id 0x06 off.toNat true false
      | .fault c => s.streamFault b.id c off.toNat true false)

end Sys2Proof.Machine
end

