-- ==== Sys2Proof/Machine/Nodes.lean ====
section
/-! DEFINITION. Node contexts, their queues and their slots (spec 29_stages R326 to R331), match emissions (R324, R342), agents that are no path: their translations, misses and landings (R314, R371). -/
namespace Sys2Proof.Machine

/-! ### Agents that are no path -/

/-- Where an access of the Caller, the command core or a peer's bytes lands, by way of a logical die: its walkers translate, and
a request that a closed link drops is refused (R22, R385). `user` tells a user-mode access, as a peer's bytes are (R182, R396). -/
def State.devHome (s : State) (die aspace va : Nat) (need : Need) (user : Bool := false) : Found :=
  if 2 ^ 56 ≤ va then .fault 0x05
  else
    match (s.walkBy (some die) aspace va).1 with
    | .missing => .missing
    | .malformed => .fault 0x06
    | .dropped _ => .fault 0x05
    | .leaf pte size =>
      if refused pte need user || !s.reachesFrom (s.physDie die) (leafPA pte size va) then .fault 0x05
      else s.onStack aspace va (leafPA pte size va) pte (!user && need != .write)
/-- What such an access leaves: the pointer entries its walker keeps, and the count of a request that is dropped (R183, R385). -/
def State.touchDie (s : State) (die aspace va : Nat) : State :=
  match s.walkDie die aspace va with
  | (.leaf pte size, s) => s.dropFrom (s.physDie die) (leafPA pte size va)
  | (.missing, s) | (.malformed, s) | (.dropped _, s) => s
/-- The same for accesses at a list of addresses, one for each page. -/
def State.touchDies (s : State) (die aspace : Nat) (as : List Nat) : State :=
  (as.foldl (fun l a => addPage a l) []).foldl (fun s a => s.touchDie die aspace a) s
/-- The word of a home as an access through it sees it (R425). -/
def State.viewWord (s : State) (h : Home) : Val :=
  let x := s.homeWord h
  if h.tagged then x else .raw x.pay

/-- Whether an agent that is no path may go on (R371): its records are all resolved, or one of them is unmappable. -/
inductive Ready where
  | waits
  | dead (va : Nat) (write : Bool)
  | go
  deriving DecidableEq, Repr
/-- The state of an agent's records whose address satisfies q; records that are resolved are dropped. -/
def State.ready (s : State) (who : AgentId) (q : Nat → Bool) : Ready × State :=
  let mine (k : PendRec) : Bool := k.who == who && q k.record.faddr.toNat
  if s.recs.any fun k => mine k && k.res == 0 then (.waits, s)
  else
    let r := match s.recs.find? fun k => mine k && k.res == 2 with
      | some k => Ready.dead k.record.faddr.toNat (k.record.flags.getLsbD 2)
      | none => .go
    (r, { s with recs := s.recs.filter fun k => !mine k })
/-- A record of kind 1 of an agent that is no path, unless it has one for the page. -/
def State.missFor (s : State) (who : AgentId) (part : Nat) (r : FaultRec) : State :=
  if s.recs.any fun k => k.who == who && k.record.faddr.toNat / 0x10000 == r.faddr.toNat / 0x10000 then s
  else (s.recordMiss part r who).2

/-! ### Nodes and slots -/

/-- A bound node context. -/
def State.node? (s : State) (id : Nat) : Option Node := s.nodes.find? fun n => n.id == id
/-- Changing a node. -/
def State.modNode (s : State) (id : Nat) (f : Node → Node) : State := { s with nodes := updWhere s.nodes (fun n => n.id == id) f }
/-- The node that an id names for a block's job (R335). -/
def State.jobNode (s : State) (b : Block) (x : Nat) : Option Node :=
  match s.node? x with
  | some n => if n.pid = b.pid ∧ n.eff.job = b.eff.job then some n else none
  | none => none

/-- A slot of the queue. -/
def Node.slot (n : Node) (k : Nat) : QSlot := sget QSlot.free n.slots k
def Node.setSlot (n : Node) (k : Nat) (q : QSlot) : Node := { n with slots := sput QSlot.free n.slots k q }
/-- The address of slot k. -/
def Node.slotVA (n : Node) (k : Nat) : Nat := n.qbase + k * n.rsize
/-- R328. -/
def Node.full (n : Node) : Bool := n.release + n.qcap ≤ n.alloc
/-- The slot at the allocation position becomes reserved. -/
def Node.reserve (n : Node) (depth : Nat) (owner : Option (Nat × Nat)) (emit : Option Emit) : Nat × Node :=
  let k := n.alloc % n.qcap
  (k, { n.setSlot k ⟨.reserved, depth, 0, owner, emit, 0⟩ with alloc := n.alloc + 1 })
/-- A reserved slot becomes committed at a clock. -/
def Node.commit (n : Node) (k now : Nat) : Node :=
  n.setSlot k { n.slot k with st := .committed, clock := now, owner := none, emit := none }

/-- The launch position passes the void slots it stands on: each becomes done (R329). -/
def Node.passVoids : Nat → Node → Node
  | 0, n => n
  | f + 1, n =>
    let k := n.launch % n.qcap
    if n.launch < n.alloc ∧ (n.slot k).st = .void then
      Node.passVoids f { n.setSlot k { n.slot k with st := .done } with launch := n.launch + 1 }
    else n
/-- The release position passes done slots: each becomes free (R337). -/
def Node.passDone : Nat → Node → Node
  | 0, n => n
  | f + 1, n =>
    let k := n.release % n.qcap
    if n.release < n.launch ∧ (n.slot k).st = .done then
      Node.passDone f { n.setSlot k QSlot.free with release := n.release + 1 }
    else n
/-- Both positions advance as far as they can. -/
def Node.tidy (n : Node) : Node := Node.passDone n.qcap (Node.passVoids n.qcap n)

/-- The length of the run of committed slots from slot k on, at most f (R329). -/
def Node.runFrom (n : Node) : Nat → Nat → Nat
  | 0, _ => 0
  | f + 1, k => if (n.slot k).st = .committed then n.runFrom f (k + 1) + 1 else 0
/-- The length of the ready run (R329). -/
def Node.run (n : Node) : Nat :=
  let k := n.launch % n.qcap
  n.runFrom (min (n.qcap - k) (n.alloc - n.launch)) k

/-! ### Match emissions (R324, R342) -/

/-- The oldest complete entry of a node's job and number that has no slot yet. -/
def oldestHeld (n : Node) : List MatchEntry → Option MatchEntry
  | [] => none
  | e :: r =>
    let rest := oldestHeld n r
    match e.done with
    | some k =>
      if e.node = n.id ∧ e.pid = n.pid ∧ e.job = n.eff.job ∧ e.slot = none then
        match rest with
        | some x => if x.done.getD k < k then some x else some e
        | none => some e
      else rest
    | none => rest
/-- R335, R324: freed slots go to the node's held emissions, oldest first. -/
def State.emitHeld (id : Nat) : Nat → State → State
  | 0, s => s
  | f + 1, s =>
    match s.node? id with
    | none => s
    | some n =>
      match oldestHeld n s.matchTab with
      | none => s
      | some e =>
        if n.full then s
        else
          let (k, n') := n.reserve 0 none (some ⟨.caller id, e.tmpl.take (n.rsize / 8)⟩)
          State.emitHeld id f
            { s.modNode id fun _ => n' with
              matchTab := updWhere s.matchTab (fun x => x.tag == e.tag) fun x => { x with slot := some k } }
/-- A node's positions advance, and the slots freed go to its held emissions. -/
def State.settleNode (s : State) (id : Nat) : State := State.emitHeld id s.matchTab.length (s.modNode id Node.tidy)
/-- Changing a node, and settling it. -/
def State.onNode (s : State) (id : Nat) (f : Node → Node) : State := (s.modNode id f).settleNode id

/-- A record of the Caller or of the command core about a node. -/
def Node.recOf (n : Node) (kind : Nat) (cause : BitVec 8) (pc va : Nat) : FaultRec where
  kind := kind
  cause := cause
  die := n.id / 256
  flags := recFlags false false true false false
  core := 0xFFFF
  grp := 0
  slot := 0xFF
  pc := pc
  faddr := BitVec.ofNat 64 va
  mask := 0
  pmask := 0
  aspace := n.aspace
  queue := n.queue
  block := n.id

/-- What writing a record into its slot came to. -/
inductive Emitted where
  | waits
  | failed (cause : BitVec 8) (va : Nat)
  | written
  deriving DecidableEq, Repr

/-- The homes of the words of a record, the first that misses, the first that is refused. -/
def State.wordHomes (s : State) (die aspace : Nat) : List (Nat × Val) → List (Nat × Home × Val) × Option Nat × Option (BitVec 8 × Nat)
  | [] => ([], none, none)
  | (va, x) :: r =>
    let (hs, m, f) := s.wordHomes die aspace r
    match s.devHome die aspace va .write with
    | .home h => ((va, h, x) :: hs, m, f)
    | .missing => (hs, some va, f)
    | .fault c => (hs, m, some (c, va))
/-- Words landed in turn until one fails (DEDUCED, log entry 39). -/
def State.landAll (who : Lander) : List (Nat × Home × Val) → State → Option (BitVec 8 × Nat) × State
  | [], s => (none, s)
  | (va, h, x) :: r, s =>
    if Tag.reserved x.tag then (some (0x03, va), s)
    else
      match s.landWord who h true x 0xFF with
      | .inl c => (some (c, va), s)
      | .inr s => State.landAll who r s

/-- The words of a record are written into slot k of a node by an agent of a die (R342). -/
def State.writeRecord (s : State) (die : Nat) (n : Node) (k pc : Nat) (e : Emit) : Emitted × State :=
  let base := n.slotVA k
  let ws := e.words.zipIdx.map fun x => (base + 8 * x.2, x.1)
  let page (a : Nat) : Bool := base / 0x10000 ≤ a / 0x10000 && a / 0x10000 ≤ (base + n.rsize - 1) / 0x10000
  match s.ready e.who page with
  | (.waits, s) => (.waits, s)
  | (.dead va _, s) => (.failed 0x06 va, s)
  | (.go, s) =>
    let (homes, s) := (s.wordHomes die n.aspace ws, s.touchDies die n.aspace (ws.map Prod.fst))
    match homes with
    | (_, some va, _) => (.waits, s.missFor e.who n.pid (n.recOf 1 0 pc va))
    | (_, none, some (c, va)) => (.failed c va, s)
    | (hs, none, none) =>
      match State.landAll .device hs s with
      | (some (c, va), s) => (.failed c va, s)
      | (none, s) => (.written, s)

/-- MATCH_TEMPLATE_COMMIT: the template of a match emission is written and its slot becomes committed; a template that
cannot be written makes the slot void, with a record of kind 7 (R342). -/
def execMatchTemplateCommit (node slot : Nat) (s : State) : Host.Outcome State Fault Refusal :=
  .next <|
    match s.node? node with
    | none => s
    | some n =>
      match (n.slot slot).st, (n.slot slot).emit with
      | .reserved, some e =>
        if e.who ≠ .caller node then s
        else
          let free (s : State) : State :=
            { s with matchTab := s.matchTab.filter fun x => !(x.node == node && x.slot == some slot) }
          match s.writeRecord (node / 256) n slot 0 e with
          | (.waits, s) => s
          | (.written, s) => (free s).onNode node fun n => n.commit slot s.now
          | (.failed c va, s) =>
            (free (s.record n.pid (n.recOf 7 c 0 va))).onNode node fun n =>
              n.setSlot slot { n.slot slot with st := .void, emit := none }
      | _, _ => s

end Sys2Proof.Machine
end

