-- ==== Sys2Proof/Machine/Engines.lean ====
section
/-! DEFINITION. Copy engines: issue of the copy instructions (R309 to R312), landings, completion and failure (R313 to R320), arrivals from peers (R317, R324, R396), and the match table (R321 to R325). -/
namespace Sys2Proof.Machine

/-! ### Ranges -/

/-- A place n bytes on. -/
def Loc.plus (l : Loc) (n : Nat) : Loc := { l with a := l.a + n }
/-- A source n bytes on. -/
def SrcRef.plus (r : SrcRef) (n : Nat) : SrcRef :=
  match r with
  | .at l => .at (l.plus n)
  | .row k o => .row k (o + n)
/-- n bytes of a range from byte lo on. -/
def Range.sub (r : Range) (lo n : Nat) : Range := { r with src := r.src.plus lo, dst := r.dst.plus lo, len := n }
/-- The address at which the pieces of a range are aligned: of its destination, or for a CPYR of its source. -/
def Range.anchor (r : Range) (bySrc : Bool) : Nat :=
  match bySrc, r.src with
  | true, .at l => l.a
  | _, _ => r.dst.a
/-- Piece k of the pieces of u aligned bytes that a list of ranges has, and what is left without it. -/
def pickPiece (bySrc : Bool) (u : Nat) : Nat → List Range → Option (Range × List Range)
  | _, [] => none
  | k, r :: rs =>
    let a := r.anchor bySrc % u
    let n := (a + r.len + u - 1) / u
    if k < n then
      let lo := if k = 0 then 0 else u * k - a
      let hi := min r.len (u * (k + 1) - a)
      let rest := (if lo = 0 then [] else [r.sub 0 lo]) ++ (if hi = r.len then [] else [r.sub hi (r.len - hi)])
      some (r.sub lo (hi - lo), rest ++ rs)
    else
      match pickPiece bySrc u (k - n) rs with
      | some (x, l) => some (x, r :: l)
      | none => none

/-! ### Memory of a command -/

/-- A command in flight. -/
def State.cmd? (s : State) (id : Nat) : Option Cmd := s.cmds.find? fun c => c.id == id
/-- Changing a command. -/
def State.modCmd (s : State) (id : Nat) (f : Cmd → Cmd) : State := { s with cmds := updWhere s.cmds (fun c => c.id == id) f }
/-- The block of a command's group. -/
def State.cmdBlk (s : State) (c : Cmd) : Option Block := c.owner.bind fun o => s.blk? o.1
/-- Who lands its words. -/
def Cmd.lander (c : Cmd) : Lander := if c.packet.isSome then .device else if c.user then .user else .runtime

/-- Whether an address lies in its space for a command (R185). -/
def State.cmdRange (s : State) (c : Cmd) (l : Loc) : Bool :=
  match l.sp, s.cmdBlk c with
  | .glb, _ => l.a < 2 ^ 56
  | .spd, some b => l.a < b.spec.spd && (b.spdOn c.core).isSome
  | .cls, some b => l.a / 2 ^ 22 == 0 && l.a % 2 ^ 19 < b.spec.spd && (b.spdOn (clsCore c.core l.a)).isSome
  | .chp, some b => match s.chpWin b.pid b.eff.job (c.core / 72) with | some w => l.a < w.size | none => false
  | .lan, _ | .spd, none | .cls, none | .chp, none => false
/-- The logical die of a command's engine, or of its queue's command core. -/
def State.cmdDie (s : State) (c : Cmd) : Nat :=
  match c.packet with
  | some q => ((s.queue? q.1).map Queue.die).getD 0
  | none => c.core / 72
/-- Where an access of a command lands (R182, R178, R179, R51). -/
def State.cmdHome (s : State) (c : Cmd) (l : Loc) (need : Need) : Found :=
  if !s.cmdRange c l then .fault 0x05
  else
    match l.sp, s.cmdBlk c with
    | .spd, some b => .home (.bank .spd (spdFlat c.core ((b.spdOn c.core).getD 0 + l.a)))
    | .cls, some b =>
      let k := clsCore c.core l.a
      .home (.bank .spd (spdFlat k ((b.spdOn k).getD 0 + l.a % 2 ^ 19)))
    | .chp, some b =>
      match s.chpWin b.pid b.eff.job (c.core / 72) with
      | some w => .home (.bank .chp (chpFlat w.die (w.base + l.a)))
      | none => .fault 0x05
    | _, _ =>
      if c.packet.isSome then s.devHome (s.cmdDie c) c.aspace l.a need
      else
        match (s.translate c.core c.aspace l.a).1 with
        | .missing => .missing
        | .malformed => .fault 0x06
        | .dropped _ => .fault 0x05
        | .leaf pte size =>
          if refused pte need c.user || !s.reaches c.core (leafPA pte size l.a) then .fault 0x05
          else s.onStack c.aspace l.a (leafPA pte size l.a) pte (!c.user && need != .write)
/-- What such an access leaves in the TLB, the walkers and the firewall's count (R183, R385). -/
def State.cmdTouch (s : State) (c : Cmd) (l : Loc) : State :=
  match l.sp with
  | .glb => if c.packet.isSome then s.touchDie (s.cmdDie c) c.aspace l.a else s.touch c.core c.aspace l.a
  | .lan | .spd | .cls | .chp => s

/-- Words read by a command, each with its address. -/
inductive Got where
  | ok (ws : List (Nat × Val))
  | miss (va : Nat)
  | fail (cause : BitVec 8) (va : Nat)
  deriving DecidableEq, Repr
/-- A word that a command reads, at an aligned address: one of a page of MT 2 is accessed once (R314). -/
def State.cmdWord (s : State) (c : Cmd) (h : Home) (a : Nat) : Val :=
  match (if h.uncached then c.once.find? fun e => e.1 == a else none) with
  | some e => e.2
  | none => s.viewWord h
/-- The words that hold n bytes of a place, as they stand (R314: no barrier, no class). -/
def State.cmdWords (s : State) (c : Cmd) (l : Loc) (n : Nat) : Got :=
  ((List.range ((l.a % 8 + n + 7) / 8)).map fun k => l.a - l.a % 8 + 8 * k).foldr (fun w g =>
    match s.cmdHome c { l with a := max w l.a } .read, g with
    | .home h, .ok ws => .ok ((w, s.cmdWord c h w) :: ws)
    | .missing, _ => .miss (max w l.a)
    | .fault _, .miss va => .miss va
    | .fault z, _ => .fail z (max w l.a)
    | .home _, g => g) (.ok [])
/-- The words of pages of MT 2 that a command has read are kept for it: a word that feeds two destination words, or several
receivers, is not read again (R314). -/
def State.keepOnce (s : State) (c : Cmd) (l : Loc) (ws : List (Nat × Val)) : State :=
  let far (e : Nat × Val) : Bool :=
    match s.cmdHome c { l with a := max e.1 l.a } .read with
    | .home h => h.uncached && !(c.once.any fun k => k.1 == e.1)
    | .missing | .fault _ => false
  match ws.filter far with
  | [] => s
  | ks => s.modCmd c.id fun c => { c with once := c.once ++ ks }
/-- Byte a of the words read. -/
def byteAt (ws : List (Nat × Val)) (a : Nat) : Byte :=
  match ws.find? fun e => e.1 == a - a % 8 with
  | some e => BitVec.ofNat 8 (e.2.pay.toNat / 2 ^ (8 * (a % 8)))
  | none => 0

/-! ### Failure, misses, completion (R318, R319) -/

/-- The record of a command (Table 33.3) (DEDUCED, log entry 53). -/
def State.cmdRec (s : State) (c : Cmd) (kind : Nat) (cause : BitVec 8) (va : Nat) (write : Bool) : FaultRec :=
  let b := s.cmdBlk c
  { kind := kind, cause := cause, die := s.cmdDie c, flags := recFlags false false write false false, core := c.core,
    grp := (c.owner.map Prod.snd).getD 0, slot := 0xFF, pc := c.pc, faddr := BitVec.ofNat 64 va,
    mask := if c.packet.isSome then 0 else laneBit c.lane, pmask := 0, aspace := c.aspace,
    queue := match b, c.packet with | some b, _ => b.queue | none, some q => q.1 | none, none => 0
    block := (b.map Block.recNo).getD 0 }
/-- A command has failed: no further byte lands; the record follows (ENGINE_COMMAND_FAILURE). -/
def State.cmdFail (s : State) (c : Cmd) (cause : BitVec 8) (va : Nat) (write : Bool) : State :=
  s.modCmd c.id fun c => { c with todo := [], failed := some (cause, va, write) }
/-- Who a command is, as an agent that waits for a page. -/
def Cmd.agent (c : Cmd) : AgentId :=
  match c.packet with
  | some q => .packet q.1 q.2
  | none => .engine c.id
/-- A command meets a missing page (R319): a record, and it waits. -/
def State.cmdMiss (s : State) (c : Cmd) (va : Nat) (write : Bool) : State := s.missFor c.agent c.pid (s.cmdRec c 1 0 va write)

/-- A command has ended: its token is complete when no other command names it; a failure stays pending with the token,
the first one only (R318, R319). Its flits are acknowledged (R395). -/
def State.endCmd (s : State) (c : Cmd) (fault : Option (BitVec 8 × Nat)) : State :=
  let cmds := s.cmds.filter fun k => k.id != c.id
  let s := { s with
    cmds := cmds, recs := s.recs.filter fun k => k.who != c.agent
    dev := { s.dev with flits := s.dev.flits.filter fun f => f.cmd != c.id } }
  match c.owner, c.token with
  | some (blk, grp), some t =>
    let left := (cmds.any fun k => k.owner == some (blk, grp) && k.token == some t) ||
      s.cards.any fun k => k.token == some (blk, grp, t)
    s.modGrp blk grp fun g =>
      let g := match fault with
        | some (z, va) => if (keyGet g.tokFault t).isSome then g
          else { g with tokFault := keySet g.tokFault t (z, BitVec.ofNat 64 va) }
        | none => g
      if left then g else { g with busy := g.busy &&& ~~~((1 : BitVec 8) <<< t) }
  | _, _ => s

/-- Bytes that have landed are subtracted from the barrier (R318). -/
def State.countLanded (s : State) (c : Cmd) (x : Range) (n : Nat) : State :=
  match x.bar with
  | none => s
  | some (obj, given) =>
    let (r, s) := s.barUpdate none obj false 0 n
    if r = -2 then s.cmdFail c 0x03 given true else s

/-! ### Arrivals (R317, R324, R396) -/

/-- The Span ports of each physical die (Table 1.5). -/
def portCount (die : Nat) : Nat := [4, 5, 5, 4].getD die 0
/-- The key of a port. -/
def portKey (die port : Nat) : Nat := die * 64 + port
/-- Whether a Span port carries traffic (R395, R402, R403). -/
def State.portUp (s : State) (die port : Nat) : Bool :=
  s.dev.boot == .up && port < portCount die && !s.dev.lostDies.contains die && sget 8 s.dev.ports (portKey die port) != 0
/-- The ports that a partition's traffic may use from a physical die: those of its own dies, over an open link where the port is
another die's (R22, R384). -/
def State.portsFor (s : State) (part pdie : Nat) : List (Nat × Nat) :=
  ((List.range 4).flatMap fun d => (List.range (portCount d)).map fun k => (d, k)).filter fun e =>
    s.portUp e.1 e.2 && s.ownsDie part e.1 && (e.1 == pdie || s.linkOpen pdie e.1)
/-- The address space bound to a sender's traffic in a partition (Table 35.6). -/
def State.spanSpace (s : State) (part srcDev srcPart : Nat) : Option Nat :=
  ((List.range 256).find? fun n =>
    let e := sget 0 s.dev.span (part * 256 + n)
    e.getLsbD 63 && fld e 48 2 == srcPart && fld e 32 16 == srcDev).map fun n => fld (sget 0 s.dev.span (part * 256 + n)) 0 32

/-- Bytes of a command that name no entry: one record of kind 6 for the command (R324). -/
def State.unmatchedBytes (s : State) (f : Flit) (aspace : Nat) : State :=
  let key := (f.srcDev, f.srcPart, f.cmd)
  if s.unmatched.contains key then s
  else
    let r : FaultRec :=
      { kind := 6, cause := 0x12, die := f.mtag.toNat / 2 ^ 30, flags := 0, core := 0xFFFF, grp := 0, slot := 0xFF, pc := 0,
        faddr := BitVec.ofNat 64 f.va, mask := 0, pmask := 0, aspace := aspace, queue := 0, block := 0 }
    { s with unmatched := s.unmatched ++ [key] }.record f.part r
/-- Registered bytes of one flit are counted at one moment to the entry that their tag names; an entry whose count is
reached is complete and emits (R324). -/
def State.countFlit (s : State) (f : Flit) (aspace n : Nat) : State :=
  if f.mtag = 0 ∨ n = 0 then s
  else
    match s.matchTab.find? fun e => e.tag == f.mtag.toNat && e.pid == f.part && e.done.isNone with
    | none => s.unmatchedBytes f aspace
    | some e =>
      let full := e.exp ≤ e.count + n
      let e' := { e with count := e.count + n, done := if full then some s.uid else none }
      let s := { s with uid := s.uid + 1, matchTab := updWhere s.matchTab (fun x => x.tag == e.tag) fun _ => e' }
      if full then State.emitHeld e.node s.matchTab.length s else s

/-- What became of arriving bytes. -/
inductive Arrival where
  | waits
  | landed
  | failed (cause : BitVec 8)
  deriving DecidableEq, Repr

/-- The words that n bytes at an address touch: the address of the first byte in the word, the number of bytes in it. -/
def wordsOf (va n : Nat) : List (Nat × Nat) :=
  (List.range ((va % 8 + n + 7) / 8)).map fun k =>
    let a := max va (va - va % 8 + 8 * k)
    (a, min (va + n) (va - va % 8 + 8 * k + 8) - a)
/-- The bytes of a word at byte offset off, with their mask. -/
def packBytes (off : Nat) (bs : List Byte) : Word × BitVec 8 :=
  (BitVec.ofNat 64 (leNat bs * 2 ^ (8 * off)), BitVec.ofNat 8 ((2 ^ bs.length - 1) * 2 ^ off))
/-- Arriving bytes land word by word as words from raw memory, until one is not taken. -/
def State.landFlit (f : Flit) : List (Nat × Nat × Home) → State → Option (BitVec 8) × Nat × State
  | [], s => (none, 0, s)
  | (a, n, h) :: r, s =>
    let (w, m) := packBytes (a % 8) ((f.bytes.drop (a - f.va)).take n)
    match s.landWord .user h (n == 8) (.raw w) m with
    | .inl c => (some c, 0, s)
    | .inr s =>
      let (c, k, s) := State.landFlit f r s
      (c, k + n, s)
/-- The security log takes an entry (R396). -/
def State.logSecurity (s : State) (e : SecEntry) : State := { s with dev := { s.dev with security := s.dev.security ++ [e] } }

/-- The agent under which the bytes of a peer wait for a page; command numbers start at 1. -/
def spanAgent (part : Nat) : AgentId := .packet 4096 part
/-- A flit arrives at a partition (R317, R396). A flit carries no mode: its bytes land as a user-mode access does, so that no peer
reaches a page with U = 0 or a path stack (R182; DEDUCED, log entry 67). -/
def State.spanArrive (s : State) (f : Flit) : Arrival × State :=
  let held := match s.part? f.part with | some p => p.stopped | none => false
  let final := s.dev.migration.any fun m => m.pid == f.part && m.final
  if held && final then (.failed 0x12, s)
  else if held then (.waits, s)
  else
    match s.spanSpace f.part f.srcDev f.srcPart with
    | none => (.failed 0x12, s.logSecurity (.span f.srcDev f.srcPart f.va))
    | some aspace =>
      let refuse (s : State) : Arrival × State := (.failed 0x12, s.logSecurity (.span f.srcDev f.srcPart f.va))
      let own (x : Nat) : Bool := f.va / 0x10000 ≤ x / 0x10000 && x / 0x10000 ≤ (f.va + f.bytes.length) / 0x10000
      match s.ready (spanAgent f.part) own with
      | (.waits, s) => (.waits, s)
      | (.dead _ _, s) => refuse s
      | (.go, s) =>
        let die := s.logDie f.die
        let hs := (wordsOf f.va f.bytes.length).map fun w => (w, s.devHome die aspace w.1 .write true)
        let s := s.touchDies die aspace (hs.map fun e => e.1.1)
        match hs.find? fun e => e.2 == .missing with
        | some (w, _) =>
          let r : FaultRec :=
            { kind := 1, cause := 0, die := die, flags := recFlags false false true false false, core := 0xFFFF, grp := 0,
              slot := 0xFF, pc := 0, faddr := BitVec.ofNat 64 w.1, mask := 0, pmask := 0, aspace := aspace, queue := 0, block := 0 }
          (.waits, s.missFor (spanAgent f.part) f.part r)
        | none =>
          let homes := hs.filterMap fun e => match e.2 with | .home h => some (e.1.1, e.1.2, h) | .missing | .fault _ => none
          if homes.length < hs.length then refuse s
          else
            let (z, n, s) := State.landFlit f homes s
            let s := s.countFlit f aspace n
            (match z with | some c => .failed c | none => .landed, s)

/-- SPAN_FLIT_RECEIVE: bytes from a peer device at a port of one of the partition's own dies (R317, R324, R384, R396); the sender
hears that they are registered, or why they are not taken (R319) (DEDUCED, log entry 67). -/
def execSpanFlitReceive (f : Flit) (s : State) : Host.Outcome State Fault Refusal :=
  .next <|
    if (s.part? f.part).isNone ∨ f.srcDev = s.dev.devNo ∨ !s.ownsDie f.part f.die ∨ !s.portUp f.die f.port then s
    else
      match s.spanArrive f with
      | (.waits, s) => s
      | (.landed, s) => s.emit (.spanReply f.srcDev f.srcPart f.cmd none)
      | (.failed c, s) => s.emit (.spanReply f.srcDev f.srcPart f.cmd (some c))

/-- A flit that has no port goes out by one that its partition may use, which the plan picks; with none it waits (R395). -/
def State.sendFlit (s : State) (f : SentFlit) : State :=
  let ports := s.portsFor f.part f.die
  match ports[s.turn.pick % ports.length]? with
  | none => s
  | some (d, k) =>
    let s := s.emit (.span d k f.part f.cmd f.peer f.mtag f.va f.bytes)
    { s with dev := { s.dev with flits := updWhere s.dev.flits (fun x => x.no == f.no) fun x => { x with port := some (d, k) } } }
/-- Every flit that has no port. -/
def State.sendFlits (s : State) : State := (s.dev.flits.filter fun f => f.port.isNone).foldl State.sendFlit s
/-- SPAN_PORT_DOWN: every flit that left by the port and is not acknowledged is sent again by another port (R395). -/
def execSpanPortDown (die port : Nat) (s : State) : Host.Outcome State Fault Refusal :=
  .next <|
    if portCount die ≤ port then s
    else
      let back (f : SentFlit) : SentFlit := if f.port = some (die, port) then { f with port := none } else f
      State.sendFlits { s with dev := { s.dev with
        ports := sput 8 s.dev.ports (portKey die port) 0, flits := s.dev.flits.map back } }

/-! ### Landings -/

/-- The bytes that overlap the source are free values (R313). -/
def freeBytes (x : Range) (ctr : Nat) (bs : List Byte) : List Byte :=
  match x.over_ with
  | none => bs
  | some (lo, hi) => bs.zipIdx.map fun e => if lo ≤ x.dst.a + e.2 ∧ x.dst.a + e.2 < hi then Config.freeByte (ctr + e.2) else e.1

/-- Whether some destination bytes of a range lie in its overlap, and whether some lie outside. -/
def Range.overlaps (x : Range) : Bool :=
  match x.over_ with
  | some (lo, hi) => lo < x.dst.a + x.len && x.dst.a < hi
  | none => false
def Range.outside (x : Range) : Bool :=
  match x.over_ with
  | some (lo, hi) => x.dst.a < lo || hi < x.dst.a + x.len
  | none => true
/-- R313: a piece that leaves undefined bytes in the overlap lands after the pieces of its range with bytes outside it, so that
their source is as it was (DEDUCED, log entry 40). -/
def Range.held (x : Range) (rest : List Range) : Bool := x.overlaps && rest.any fun r => r.over_ == x.over_ && r.outside

/-- A piece of a CPYR is sent: to this device's own partition, or out over a Span port of one of the partition's own dies (R22,
R317, R384); with no port it waits. The plan picks the port (DEDUCED, log entry 40). A flit that has gone out is kept until its port
acknowledges it (R395). -/
def State.sendPiece (s : State) (c : Cmd) (x : Range) (peer : Nat) (mtag : BitVec 32) (bs : List Byte) (done : State → State) :
    State :=
  if peer ≠ s.dev.devNo then
    let die := s.physDie (c.core / 72)
    if (s.portsFor c.pid die).isEmpty then s
    else
      let f : SentFlit :=
        { no := s.uid, port := none, die := die, part := c.pid, cmd := c.id, peer := peer, mtag := mtag, va := x.dst.a, bytes := bs }
      done (State.sendFlit { s with uid := s.uid + 1, dev := { s.dev with flits := s.dev.flits ++ [f] } } f)
  else
    match s.parts.find? fun p => (s.spanSpace p.id s.dev.devNo c.pid).isSome with
    | none => (s.logSecurity (.span s.dev.devNo c.pid x.dst.a)).cmdFail c 0x12 x.dst.a true
    | some p =>
      match s.spanArrive ⟨s.physDie (p.dies.headD 0), 0, s.dev.devNo, c.pid, c.id, mtag, x.dst.a, bs, p.id⟩ with
      | (.waits, s) => s
      | (.landed, s) => done s
      | (.failed z, s) => s.cmdFail c (if z = 0x08 then 0x08 else 0x12) x.dst.a true

/-- The failing address of a command for an address of its source: of a CPYR, the remote address at which the byte would land
(R319). -/
def Cmd.failAt (c : Cmd) (x : Range) (va : Nat) : Nat :=
  match c.peer, x.src with
  | some _, .at l => x.dst.a + va - l.a
  | _, _ => va
/-- The word that a whole destination word takes. Where bytes of it lie in the overlap of the ranges, they are free values, which
make no ref, handle, forward, promise or link: such a word is raw, and one of another tag is canonical (R313, R25, R26; DESIGN
CHOICE, log entry 40). -/
def wholeWord (x : Range) (t : Tag) (w : Word) : Val :=
  if !x.overlaps then ⟨t, w⟩ else if guarded t then .raw w else canon t w

/-- A piece of a command whose source is known moves (R313, R314, R317). -/
def State.movePiece (s : State) (c : Cmd) (x : Range) (src : Loc) (rest : List Range) : State :=
  let got := s.cmdWords c src x.len
  let s := (s.cmdTouch c src).cmdTouch c (src.plus (x.len - 1))
  match got with
  | .miss va => s.cmdMiss c va false
  | .fail z va => s.cmdFail c z (c.failAt x va) false
  | .ok ws =>
    let s := s.keepOnce c src ws
    let done (s : State) : State := s.modCmd c.id fun c => { c with todo := rest }
    let bs := (List.range x.len).map fun k => byteAt ws (src.a + k)
    match c.peer with
    | some (peer, mtag, _) =>
      let inside := ws.filter fun e => src.a ≤ e.1 && e.1 + 8 ≤ src.a + x.len
      match inside.find? fun e => guarded e.2.tag || Tag.reserved e.2.tag with
      | some (a, v) => s.cmdFail c (if guarded v.tag then 0x08 else 0x03) (c.failAt x a) false
      | none => s.sendPiece c x peer mtag bs done
    | none =>
      let at_ := s.cmdHome c x.dst .write
      let s := s.cmdTouch c x.dst
      match at_ with
      | .missing => s.cmdMiss c x.dst.a true
      | .fault z => s.cmdFail c z x.dst.a true
      | .home h =>
        let whole := x.len == 8 && x.dst.a % 8 == 0 && src.a % 8 == 0
        let tag : Tag := match ws with | e :: _ => e.2.tag | [] => .raw
        if whole && Tag.reserved tag then s.cmdFail c 0x03 src.a false
        else
          let (w, m) := packBytes (x.dst.a % 8) (freeBytes x s.freeCtr bs)
          let s := if x.over_.isSome then { s with freeCtr := s.freeCtr + x.len } else s
          match s.landWord c.lander h whole (if whole then wholeWord x tag w else .raw w) m with
          | .inl z => s.cmdFail c z x.dst.a true
          | .inr s => (done s).countLanded c x x.len

/-- ENGINE_LANDING: a command moves its piece k: a destination word, or 256 bytes of a CPYR; a row of a gather is
reached, and its entry read, by the first of its pieces (R313 to R317). -/
def execEngineLanding (cmd k : Nat) (s : State) : Host.Outcome State Fault Refusal :=
  .next <|
    match s.cmd? cmd with
    | none => s
    | some c =>
      if c.failed.isSome then s
      else
        match pickPiece c.peer.isSome (if c.peer.isSome then 256 else 8) k c.todo with
        | none => s
        | some (x, rest) =>
          if x.held rest then s
          else match s.ready c.agent fun _ => true with
          | (.waits, s) => s
          | (.dead va w, s) => s.cmdFail c 0x06 (c.failAt x va) w
          | (.go, s) =>
            match x.src, c.gather with
            | .at l, _ => s.movePiece c x l rest
            | .row _ _, none => s
            | .row r off, some g =>
              match s.cmdWords c (g.list.plus (4 * r)) 4 with
              | .miss va => s.cmdMiss c va false
              | .fail z va => s.cmdFail c z va false
              | .ok ws =>
                let s := s.keepOnce c (g.list.plus (4 * r)) ws
                let e := leNat ((List.range 4).map fun j => byteAt ws (g.list.a + 4 * r + j))
                let row : Loc := { g.base with a := (g.base.a + e * g.rb) % 2 ^ 64 }
                if !s.cmdRange c row || !s.cmdRange c (row.plus (g.rb - 1)) then s.cmdFail c 0x05 row.a false
                else
                  let known (y : Range) : Range :=
                    match y.src with
                    | .row r' o => if r' = r then { y with src := .at (row.plus o) } else y
                    | .at _ => y
                  (s.modCmd c.id fun c => { c with todo := c.todo.map known }).movePiece c x (row.plus off) (rest.map known)

/-- ENGINE_COMMAND_COMPLETE: every byte has landed; of a CPYR, every byte is registered on the peer (R317, R318). -/
def execEngineCommandComplete (cmd : Nat) (s : State) : Host.Outcome State Fault Refusal :=
  .next <|
    match s.cmd? cmd with
    | none => s
    | some c =>
      let noPeer := match c.peer with | some (p, _, _) => p == 0xFFFF | none => false
      if c.todo.isEmpty && c.failed.isNone && !noPeer then s.endCmd c none else s

/-- ENGINE_COMMAND_FAILURE: a command that has failed writes its record and ends; the peer of a CPYR may refuse the
bytes, or hold a word tagged fwd (R319). The command of a packet stops its queue (R346). -/
def execEngineCommandFailure (cmd : Nat) (fwdAtPeer : Bool) (s : State) : Host.Outcome State Fault Refusal :=
  .next <|
    match s.cmd? cmd with
    | none => s
    | some c =>
      let how : Option (BitVec 8 × Nat × Bool) :=
        match c.failed, c.peer with
        | some f, _ => some f
        | none, some (p, _, va) => if p = s.dev.devNo then none else some (if fwdAtPeer then 0x08 else 0x12, va, true)
        | none, none => none
      match how with
      | none => s
      | some (z, va, w) =>
        match c.packet with
        | some (q, n) =>
          let s := (s.record c.pid (s.cmdRec c 8 z va w)).endCmd c none
          (s.modPacket q n fun p => { p with st := .failed }).stopQueue q 4
        | none => (s.record c.pid (s.cmdRec c 3 z va w)).endCmd c (some (z, va))

/-! ### Issue (R311, R312) -/

/-- What a lane of a copy instruction asks for. -/
structure Ask where
  todo : List Range
  gather : Option Gather
  peer : Option (Nat × BitVec 32 × Nat)
  deriving DecidableEq, Repr

/-- A check of issue that fails: cause and sys.faddr. -/
abbrev Bad := Option (BitVec 8 × Word)
/-- The first check that fails (DEDUCED, log entry 36). -/
def firstBad (l : List Bad) : Bad := l.findSome? id
/-- A condition that must hold. -/
def must (ok : Bool) (cause : BitVec 8) (faddr : Word) : Bad := if ok then none else some (cause, faddr)
/-- R185 on the first and the last byte of a range. -/
def State.rangeBad (s : State) (sp : Space) (a n : Nat) : Bad :=
  if n = 0 then none
  else firstBad [must (s.rangeOk sp a) 0x05 (BitVec.ofNat 64 a),
    must (s.rangeOk sp (a + n - 1)) 0x05 (BitVec.ofNat 64 (a + n - 1))]
/-- Step 4 of R311: the block has a part on every core that a .cls range reaches; the address is the range's first on that
core. -/
def State.coresBad (s : State) (sp : Space) (a n : Nat) : Bad :=
  match sp with
  | .cls =>
    if n = 0 then none
    else
      let one (k : Nat) : Bad :=
        let at_ := max a ((a / 2 ^ 19 + k) * 2 ^ 19)
        must (match s.myBlk with | some b => (b.spdOn (clsCore s.grp.core at_)).isSome | none => false) 0x05 (BitVec.ofNat 64 at_)
      firstBad ((List.range (min 8 ((a + n - 1) / 2 ^ 19 - a / 2 ^ 19 + 1))).map one)
  | .glb | .lan | .spd | .chp => none
/-- The barrier address of COMP 2: its check, and the object (R311). -/
def State.barBad (s : State) (p : Path) (sp : Space) (a : Nat) : Bad × Option (Nat × Nat) :=
  match firstBad [must (s.rangeOk sp a) 0x05 (BitVec.ofNat 64 a), must (a % 16 == 0) 0x04 (BitVec.ofNat 64 a)] with
  | some f => (some f, none)
  | none =>
    match (s.locate p sp .write a).1 with
    | .home (.bank _ x) => (none, some (x, a))
    | _ => (some (0x05, BitVec.ofNat 64 a), none)
/-- Whether every operand is tagged int or raw (R310). -/
def allNum (l : List Val) : Bool := l.all Val.isNum
/-- An address with a signed offset. -/
def atOff (v : Val) (off : BitVec 24) : Nat := (v.pay + off.signExtend 64).toNat
/-- A .spd address as the .cls address of the same byte (DEDUCED, log entry 41). -/
def normLoc (core : Nat) (l : Loc) : Loc :=
  match l.sp with
  | .spd => ⟨.cls, core % 8 * 2 ^ 19 + l.a⟩
  | .glb | .lan | .cls | .chp => l
/-- The destination addresses of a range that overlap its source (R313). -/
def overlapOf (core : Nat) (src dst : Loc) (n : Nat) : Option (Nat × Nat) :=
  let a := normLoc core src
  let b := normLoc core dst
  if a.sp ≠ b.sp then none
  else
    let lo := max a.a b.a
    let hi := min (a.a + n) (b.a + n)
    if lo < hi then some (lo - b.a + dst.a, hi - b.a + dst.a) else none
/-- A range from a place to a place, none when it is empty. -/
def rangeOf2 (core : Nat) (src dst : Loc) (n : Nat) (bar : Option (Nat × Nat)) : List Range :=
  if n = 0 then [] else [⟨.at src, dst, n, bar, overlapOf core src dst n⟩]

/-- One command is issued; one that has nothing to move completes at once (R313). -/
def State.issueCmd (s : State) (p : Path) (token : Option Nat) (l : Nat) (k : Ask) : State :=
  if k.todo.isEmpty then s
  else
    let c : Cmd :=
      { id := s.uid, owner := some (s.grp.blk, s.grp.grp), packet := none, core := s.grp.core, pid := s.pid,
        aspace := s.myAspace, user := p.user, pc := p.pc.toNat, lane := l, todo := k.todo, gather := k.gather, token := token,
        peer := k.peer, failed := none, once := [] }
    { s with uid := s.uid + 1, cmds := s.cmds ++ [c] }.setGrp fun g =>
      match token with
      | some t => { g with busy := g.busy ||| ((1 : BitVec 8) <<< t) }
      | none => g

/-- The issue of a copy instruction: the checks of every lane, the wait of a release, then the commands in lane order
(R311, R312). -/
def copyIssue (i : Instr) (c : Ctl) (token : Option (Fin 8)) (plan : State → Bool → Path → Nat → (BitVec 8 × Word) ⊕ Ask)
    (s : State) : State :=
  issue i c s fun b p act s =>
    let ps := perLane act (plan s b p)
    match ps.findSome? fun e => match e.2 with | .inl f => some f | .inr _ => none with
    | some (z, f) => s.trapPath i c.sched z f act
    | none =>
      let s := if act = (0 : Mask) then s else (s.drainGroup s.grp.blk s.grp.grp).changed b
      let s := ps.foldl (fun s e =>
        match e.2 with
        | .inl _ => s
        | .inr k => s.issueCmd p (token.map Fin.val) e.1 k) s
      (s.spend c.sched).next b

/-- The token of a completion (R318). -/
def compToken : Comp → Option (Fin 8)
  | .token t => some t
  | .none | .bar _ _ => Option.none
/-- The barrier operand of a completion. -/
def compBar (s : State) (b : Bool) (ix : BitVec 3) (l : Nat) : Comp → List Val
  | .bar a _ => [rdSrc s b ix a l]
  | .none | .token _ => []
/-- The barrier of a completion that names one object per command. -/
def State.compObj (s : State) (p : Path) (k : Comp) (d : List Val) : Bad × Option (Nat × Nat) :=
  match k, d with
  | .bar _ cls, v :: _ => s.barBad p (barSpace cls) v.pay.toNat
  | _, _ => (none, none)

/-- A lane of CPY (R313). -/
def cpyPlan (c : Ctl) (ss ds : Space) (k : Comp) (a x n : Src) (doff : BitVec 24) (s : State) (b : Bool) (p : Path) (l : Nat) :
    (BitVec 8 × Word) ⊕ Ask :=
  let pc : Word := p.pc.setWidth 64
  let rd (o : Src) : Val := rdSrc s b c.ix o l
  let d := compBar s b c.ix l k
  let len := (rd n).pay.toNat
  let src := (rd a).pay.toNat
  let dst := atOff (rd x) doff
  let (bad, obj) := s.compObj p k d
  match firstBad [must (allNum ([rd a, rd x, rd n] ++ d) && len < 2 ^ 31) 0x03 pc, s.rangeBad ss src len,
      s.rangeBad ds dst len, bad, s.coresBad ss src len, s.coresBad ds dst len] with
  | some f => .inl f
  | none => .inr ⟨rangeOf2 s.grp.core ⟨ss, src⟩ ⟨ds, dst⟩ len obj, none, none⟩
/-- CPY (R311, R313). -/
def execCpy (c : Ctl) (ss ds : Space) (k : Comp) (a x n : Src) (doff : BitVec 24) (s : State) : Host.Outcome State Fault Refusal :=
  .next (copyIssue (.cpy c ss ds k a x n doff) c (compToken k) (cpyPlan c ss ds k a x n doff) s)

/-- A lane of CPYM (R315) (DEDUCED, log entry 37). -/
def cpymPlan (c : Ctl) (ss : Space) (k : Comp) (a x : Src) (geo : Vec) (doff : BitVec 24) (s : State) (b : Bool) (p : Path) (l : Nat) :
    (BitVec 8 × Word) ⊕ Ask :=
  let pc : Word := p.pc.setWidth 64
  let rd (o : Src) : Val := rdSrc s b c.ix o l
  let d := compBar s b c.ix l k
  let g0 := rdRun s c.ix geo 0 l
  let g1 := rdRun s c.ix geo 1 l
  let lc := fld g0.pay 32 32
  let ls := fld g0.pay 0 32
  let str := fld g1.pay 32 32
  let mask := fld g1.pay 0 8
  let src := (rd a).pay.toNat
  let dst := atOff (rd x) doff
  let cores := (List.range 8).filter fun i => mask / 2 ^ i % 2 == 1
  let core (i : Nat) : Nat := s.grp.core - s.grp.core % 8 + i
  let part (i : Nat) : Option Nat := s.myBlk.bind fun blk => blk.spdOn (core i)
  let w (n : Nat) : Word := BitVec.ofNat 64 n
  let ranges : List Bad :=
    s.rangeBad ss src lc :: cores.map (fun i => s.rangeBad ss (src + lc + i * str) ls) ++
      cores.flatMap fun i => if lc + ls = 0 then [] else
        [must (dst < s.mySpd) 0x05 (w (i * 2 ^ 19 + dst)), must (dst + lc + ls ≤ s.mySpd) 0x05 (w (i * 2 ^ 19 + dst + lc + ls - 1))]
  let bars : List Bad := d.map fun v =>
    firstBad [must (v.pay.toNat < s.mySpd) 0x05 v.pay, must (v.pay.toNat % 16 == 0) 0x04 v.pay]
  let parts : List Bad := cores.map (fun i => must (part i).isSome 0x05 (w (i * 2 ^ 19 + dst))) ++
    s.coresBad ss src lc :: cores.map fun i => s.coresBad ss (src + lc + i * str) ls
  match firstBad (must (allNum ([rd a, rd x, g0, g1] ++ d) && lc < 2 ^ 31 && ls < 2 ^ 31 && lc + ls < 2 ^ 31 && mask != 0 &&
      fld g1.pay 8 24 == 0) 0x03 pc :: ranges ++ bars ++ parts) with
  | some f => .inl f
  | none =>
    let one (i : Nat) : List Range :=
      let obj := d.head?.map fun v => (spdFlat (core i) ((part i).getD 0 + v.pay.toNat), v.pay.toNat)
      let at_ (o : Nat) : Loc := ⟨.cls, i * 2 ^ 19 + o⟩
      rangeOf2 s.grp.core ⟨ss, src⟩ (at_ dst) lc obj ++
        rangeOf2 s.grp.core ⟨ss, src + lc + i * str⟩ (at_ (dst + lc)) ls obj
    .inr ⟨cores.flatMap one, none, none⟩
/-- CPYM (R311, R315). -/
def execCpym (c : Ctl) (ss : Space) (k : Comp) (a x : Src) (geo : Vec) (doff : BitVec 24) (s : State) :
    Host.Outcome State Fault Refusal :=
  .next (copyIssue (.cpym c ss k a x geo doff) c (compToken k) (cpymPlan c ss k a x geo doff) s)

/-- The space of an index list. -/
def ISpace.space : ISpace → Space
  | .glb => .glb
  | .spd => .spd
  | .chp => .chp
/-- A lane of CPYG (R316) (DEDUCED, log entry 38). -/
def cpygPlan (c : Ctl) (ss ds : Space) (isp : ISpace) (k : Comp) (a x : Src) (geo : Vec) (doff : BitVec 24) (s : State) (b : Bool)
    (p : Path) (l : Nat) : (BitVec 8 × Word) ⊕ Ask :=
  let pc : Word := p.pc.setWidth 64
  let rd (o : Src) : Val := rdSrc s b c.ix o l
  let d := compBar s b c.ix l k
  let g0 := rdRun s c.ix geo 0 l
  let g1 := rdRun s c.ix geo 1 l
  let list := g0.pay.toNat
  let rb := fld g1.pay 32 32
  let n := fld g1.pay 0 32
  let src := (rd a).pay.toNat
  let dst := atOff (rd x) doff
  let (bad, obj) := s.compObj p k d
  match firstBad [must (allNum ([rd a, rd x, g0, g1] ++ d) && 1 ≤ rb && rb ≤ 2 ^ 20 && 1 ≤ n && n ≤ 65536 && rb * n < 2 ^ 31)
      0x03 pc, must (list % 4 == 0) 0x04 g0.pay, s.rangeBad (ISpace.space isp) list (4 * n), s.rangeBad ds dst (rb * n), bad,
      s.coresBad ds dst (rb * n)] with
  | some f => .inl f
  | none =>
    let row (j : Nat) : Range := ⟨.row j 0, ⟨ds, dst + j * rb⟩, rb, obj, none⟩
    .inr ⟨(List.range n).map row, some ⟨⟨ISpace.space isp, list⟩, ⟨ss, src⟩, rb⟩, none⟩
/-- CPYG (R311, R316). -/
def execCpyg (c : Ctl) (ss ds : Space) (isp : ISpace) (k : Comp) (a x : Src) (geo : Vec) (doff : BitVec 24) (s : State) :
    Host.Outcome State Fault Refusal :=
  .next (copyIssue (.cpyg c ss ds isp k a x geo doff) c (compToken k) (cpygPlan c ss ds isp k a x geo doff) s)

/-- A lane of CPYR (R317). -/
def cpyrPlan (c : Ctl) (ss : Space) (peer a x n : Src) (doff : BitVec 24) (s : State) (b : Bool) (p : Path) (l : Nat) :
    (BitVec 8 × Word) ⊕ Ask :=
  let pc : Word := p.pc.setWidth 64
  let rd (o : Src) : Val := rdSrc s b c.ix o l
  let len := (rd n).pay.toNat
  let src := (rd a).pay.toNat
  let dst := atOff (rd x) doff
  let dev := (rd peer).pay
  match firstBad [must (allNum [rd peer, rd a, rd x, rd n] && len < 2 ^ 31 && fld dev 16 16 == 0) 0x03 pc,
      s.rangeBad ss src len] with
  | some f => .inl f
  | none =>
    .inr ⟨if len = 0 then [] else [⟨.at ⟨ss, src⟩, ⟨.glb, dst⟩, len, none, none⟩], none,
      some (fld dev 0 16, BitVec.ofNat 32 (fld dev 32 32), dst)⟩
/-- CPYR (R311, R317). -/
def execCpyr (c : Ctl) (ss : Space) (tk : Option (Fin 8)) (peer a x n : Src) (doff : BitVec 24) (s : State) :
    Host.Outcome State Fault Refusal :=
  .next (copyIssue (.cpyr c ss tk peer a x n doff) c tk (cpyrPlan c ss peer a x n doff) s)

/-! ### The match table -/

/-- The words of a template, or the page that misses, or the fault (R322, R371); the path's own stores to them are registered first, so
that each is a word that some write left (R205, R214). -/
def State.template (s : State) (p : Path) (dead : Dead) (sp : Space) (l va n : Nat) : Got × State :=
  ((List.range (n / 8)).map fun k => va + 8 * k).foldr (fun a (r : Got × State) =>
    let (g, s) := r
    let at_ := s.dataAddr sp l a
    match (if !s.rangeOk sp a then .fault 0x05 else if dead.at l at_ then .fault 0x06 else (s.locate p sp .read at_).1), g with
    | .home h, .ok ws =>
      let s := s.settleOwn (s.me p) h
      (.ok ((a, s.viewWord h) :: ws), s)
    | .home _, g => (g, s)
    | .missing, _ => (.miss a, s)
    | .fault _, .miss w => (.miss w, s)
    | .fault z, _ => (.fail z a, s)) (.ok [], s)
/-- The templates of lanes, each with its node, address and length. -/
def State.templates (p : Path) (dead : Dead) (sp : Space) : List (Nat × Option Node × Nat) → State → List (Nat × Got) × State
  | [], s => ([], s)
  | (l, n, va) :: r, s =>
    let (g, s) := match n with
      | some n => s.template p dead sp l va n.rsize
      | none => (.ok [], s)
    let (gs, s) := State.templates p dead sp r s
    ((l, g) :: gs, s)

/-- A lane of NMATCH once it has its template: the status, and the entry when one is installed (R322). -/
def State.install (s : State) (b : Block) (die tag : Nat) (node : Option Node) (exp : Nat) (ws : List (Nat × Val)) : Int × State :=
  let full := die * 2 ^ 30 + tag
  match node with
  | none => (-3, s)
  | some n =>
    if ws.any fun e => e.2.tag == .fwd || e.2.tag == .pend || e.2.tag == .link || Tag.reserved e.2.tag then (-4, s)
    else if s.matchTab.any fun e => e.tag == full then (-2, s)
    else if 4096 ≤ (s.matchTab.filter fun e => e.tag / 2 ^ 30 == die).length then (-1, s)
    else (full, { s with matchTab := s.matchTab ++ [⟨full, b.pid, b.eff.job, exp, 0, n.id, ws.map Prod.snd, none, none⟩] })

/-- The lanes of NMATCH in turn. -/
def State.installAll (b : Block) (die : Nat) : List (Nat × Nat × Option Node × Nat × List (Nat × Val)) → State →
    List (Nat × Val) × State
  | [], s => ([], s)
  | (l, tag, n, exp, ws) :: r, s =>
    let (x, s) := s.install b die tag n exp ws
    let (vs, s) := State.installAll b die r s
    ((l, Val.ofInt x) :: vs, s)

/-- NMATCH (R322) (DEDUCED, log entry 42). -/
def execNmatch (c : Ctl) (ss : Space) (d : Reg) (a x t : Src) (s : State) : Host.Outcome State Fault Refusal :=
  .next (issue (.nmatch c ss d a x t) c s fun b p act s =>
    let i := Instr.nmatch c ss d a x t
    let pc : Word := p.pc.setWidth 64
    let dead := p.dead
    let rd (o : Src) (l : Nat) : Val := rdSrc s b c.ix o l
    let die := s.grp.core / 72
    match s.myBlk with
    | none => s
    | some blk =>
      let bad1 (l : Nat) : Bad :=
        must (allNum [rd a l, rd x l] && (rd a l).pay.toNat < 2 ^ 30 && (rd a l).pay != 0 && (rd x l).pay.toNat < 2 ^ 40 &&
          fld (rd x l).pay 0 32 != 0) 0x03 pc
      let va (l : Nat) : Nat := (rd t l).pay.toNat
      let bad2 (l : Nat) : Bad :=
        firstBad [must (rd t l).isNum 0x03 pc, must (s.rangeOk ss (va l)) 0x05 (rd t l).pay, must (va l % 8 == 0) 0x04 (rd t l).pay]
      match firstBad ((lanes act).map bad1 ++ (lanes act).map bad2) with
      | some (z, f) => s.trapPath i c.sched z f act
      | none =>
        let node (l : Nat) : Option Node := s.jobNode blk (die * 256 + fld (rd x l).pay 32 8)
        let (got, s) := State.templates p dead ss ((lanes act).map fun l => (l, node l, va l)) s
        let s := match ss with
          | .glb => s.touchAll s.grp.core s.myAspace 0 ((lanes act).map va)
          | .lan | .spd | .cls | .chp => s
        let miss := got.foldl (fun m e =>
          match e.2 with
          | .miss y => addMiss m (s.dataAddr ss e.1 y) e.1 false
          | .ok _ | .fail _ _ => m) []
        let bad := got.findSome? fun e =>
          match e.2 with
          | .fail z y => some (z, BitVec.ofNat 64 (s.dataAddr ss e.1 y))
          | .miss _ | .ok _ => none
        match miss, bad with
        | _ :: _, _ =>
          s.replay b
            { what := .instr, active := act, pmask := p.mask &&& ~~~act, bad := dead, got := [], raises := [], stop := none }
            miss false
        | [], some (z, f) => s.trapPath i c.sched z f act
        | [], none =>
          let ls := got.map fun e =>
            (e.1, (rd a e.1).pay.toNat, node e.1, fld (rd x e.1).pay 0 32,
              match e.2 with | .ok ws => ws | .miss _ | .fail _ _ => [])
          let n := s.matchTab.length
          let (vs, s) := State.installAll blk die ls s
          let s := if s.matchTab.length = n then s else s.changed b
          s.finish b c.sched .variable act (wrReg s.grp c.ix d (keepFor d act vs)))

/-- The lanes of NUNMATCH in turn (R323). -/
def State.removeAll (pid : Nat) : List (Nat × Nat) → State → List (Nat × Val) × State
  | [], s => ([], s)
  | (l, tag) :: r, s =>
    match s.matchTab.find? fun e => e.tag == tag && e.pid == pid && e.done.isNone with
    | some e =>
      let (vs, s) := State.removeAll pid r { s with matchTab := s.matchTab.filter fun x => x.tag != tag }
      ((l, Val.ofInt e.count) :: vs, s)
    | none =>
      let (vs, s) := State.removeAll pid r s
      ((l, Val.ofInt (-1)) :: vs, s)

/-- NUNMATCH (R323) (DEDUCED, log entry 43). -/
def execNunmatch (c : Ctl) (d : Reg) (a : Src) (s : State) : Host.Outcome State Fault Refusal :=
  .next (issue (.nunmatch c d a) c s fun b p act s =>
    let rd (l : Nat) : Val := rdSrc s b c.ix a l
    if (lanes act).any fun l => !(rd l).isNum then s.trapPath (.nunmatch c d a) c.sched 0x03 (p.pc.setWidth 64) act
    else
      let n := s.matchTab.length
      let (vs, s) := State.removeAll s.pid (perLane act fun l => (rd l).pay.toNat) s
      let s := if s.matchTab.length = n then s else s.changed b
      s.finish b c.sched .variable act (wrReg s.grp c.ix d (keepFor d act vs)))

end Sys2Proof.Machine
end

