-- ==== Sys2Proof/Machine/Stages.lean ====
section
/-! DEFINITION. The record instructions and batch cards (spec 29_stages R333 to R341). -/
namespace Sys2Proof.Machine

/-! ### What the record instructions share -/

/-- R334: inside an idempotent region the whole path takes 0x11. -/
def outsideRegion (i : Instr) (sc : Sched) (s : State) (p : Path) (f : State → State) : State :=
  if s.grp.idempc.getLsbD 0 then s.trapPath i sc 0x11 (p.pc.setWidth 64) p.mask else f s
/-- An operand whose tag must be int or raw in every Active lane. -/
def numLanes (i : Instr) (sc : Sched) (s : State) (p : Path) (act : Mask) (ok : Nat → Bool) (f : State → State) : State :=
  if (lanes act).all ok then f s else s.trapPath i sc 0x03 (p.pc.setWidth 64) act

/-- What an instruction that acts lane by lane has come to: status values, and the lanes that a strict node stopped. -/
structure Acted where
  vals : List (Nat × Int)
  stop : List Nat
  deriving DecidableEq, Repr

/-- The results of an instruction that acts lane by lane, and the fault 0x0E of the lanes that did not act (R335, R79). -/
def State.endActed (s : State) (i : Instr) (c : Ctl) (b : Bool) (p : Path) (act : Mask) (d : Reg) (q : Option Pred)
    (r : Acted) : State :=
  let stop : Option (Mask × BitVec 8 × Word) :=
    if r.stop.isEmpty then none else some (maskOf r.stop, 0x0E, p.pc.setWidth 64)
  let vals := r.vals.map fun e => (e.1, Val.ofInt e.2)
  let bits := match q with | some q => wrPred q (r.vals.map fun e => (e.1, decide (0 ≤ e.2))) | none => []
  let s := if r.vals.any fun e => 0 ≤ e.2 then s.changed b else s
  (s.retire b c.sched .variable (act &&& ~~~maskOf r.stop) (wrReg s.grp c.ix d (keepFor d act vals) ++ bits)).raiseClasses b (faceOf s i) act [] [] stop

/-! ### RALLOC, RCOMMIT -/

/-- The lanes of RALLOC in turn, each with its node id and its depth plus 1 (R335). A reservation of a slot that has been freed
synchronises with its RDONE (R337, Table 17.3). -/
def State.rallocLanes (blk : Block) (grp : Nat) (me : Writer) : List (Nat × Nat × Nat) → State → Acted × State
  | [], s => (⟨[], []⟩, s)
  | (l, id, d) :: r, s =>
    let go (st : Int) (s : State) : Acted × State :=
      let (a, s) := State.rallocLanes blk grp me r s
      (⟨(l, st) :: a.vals, a.stop⟩, s)
    match s.jobNode blk id with
    | none => go (-3) s
    | some n =>
      if n.maxdepth < d then
        if n.strict then (⟨[], l :: r.map Prod.fst⟩, s) else go (-2) s
      else
        let s := s.settleNode id
        match s.node? id with
        | none => go (-3) s
        | some n =>
          if n.full then go (-1) s
          else
            let (k, n') := n.reserve d (some (blk.id, grp)) none
            let s := if n.qcap ≤ n.alloc then s.acquireFor me.core me.blk me.grp me.mask else s
            go (n.slotVA k) (s.modNode id fun _ => n')

/-- RALLOC (R335). -/
def execRalloc (c : Ctl) (d : Reg) (a : Src) (q : Pred) (s : State) : Host.Outcome State Fault Refusal :=
  .next (issue (.ralloc c d a q) c s fun b p act s =>
    let i := Instr.ralloc c d a q
    let rd (l : Nat) : Val := rdSrc s b c.ix a l
    outsideRegion i c.sched s p fun s =>
      numLanes i c.sched s p act (fun l => (rd l).isNum) fun s =>
        match s.myBlk with
        | none => s
        | some blk =>
          let ls := (lanes act).map fun l => (l, (rd l).pay.toNat, (special s b l .depth).pay.toNat + 1)
          let (r, s) := State.rallocLanes blk s.grp.grp (s.me p) ls s
          s.endActed i c b p act d (some q) r)

/-- The slot that an address names, reserved by a group (R336). -/
def State.reservedSlot (s : State) (blk grp va : Nat) : Option (Nat × Nat) :=
  s.nodes.findSome? fun n =>
    let k := (va - n.qbase) / n.rsize
    if n.qbase ≤ va ∧ k < n.qcap ∧ n.slotVA k = va ∧ (n.slot k).st = .reserved ∧ (n.slot k).owner = some (blk, grp) then some (n.id, k)
    else none

/-- RCOMMIT (R336). -/
def execRcommit (c : Ctl) (a : Src) (s : State) : Host.Outcome State Fault Refusal :=
  .next (issue (.rcommit c a) c s fun b p act s =>
    let i := Instr.rcommit c a
    outsideRegion i c.sched s p fun s =>
      let rd (l : Nat) : Val := rdSrc s b c.ix a l
      let slots := (lanes act).map fun l => (rd l, s.reservedSlot s.grp.blk s.grp.grp (rd l).pay.toNat)
      if !(slots.all fun e => e.1.isNum && e.2.isSome) || !decide (slots.map Prod.snd).Nodup then
        s.trapPath i c.sched 0x03 (p.pc.setWidth 64) act
      else
        let s := s.drainGroup s.grp.blk s.grp.grp
        let s := slots.foldl (fun s e =>
          match e.2 with
          | some (id, k) => s.onNode id fun n => n.commit k s.now
          | none => s) s
        let s := if act = (0 : Mask) then s else s.changed b
        (s.spend c.sched).next b)

/-! ### RDONE, RFLUSH -/

/-- The slots of some lanes of a node launch become done where they are still launched by its block (R334, R337). -/
def State.slotsDone (s : State) (blk id first : Nat) (ls : List Nat) : State :=
  s.onNode id fun n => ls.foldl (fun n l =>
    let k := first + l
    if (n.slot k).st = .launched ∧ (n.slot k).launch = blk then n.setSlot k { n.slot k with st := .done } else n) n

/-- RDONE (R337). -/
def execRdone (c : Ctl) (s : State) : Host.Outcome State Fault Refusal :=
  .next (issue (.rdone c) c s fun b p act s =>
    let i := Instr.rdone c
    outsideRegion i c.sched s p fun s =>
      match s.myBlk.map Block.origin with
      | some (.node id _ _ first card) =>
        let s := s.drainGroup s.grp.blk s.grp.grp
        let frees (n : Node) (l : Nat) : Bool :=
          (n.slot (first + l)).st == .launched && (n.slot (first + l)).launch == s.grp.blk
        let some_ := card.isNone && (match s.node? id with | some n => (lanes act).any (frees n) | none => false)
        let s := if some_ then (s.slotsDone s.grp.blk id first (lanes act)).changed b else s
        (s.spend c.sched).next b
      | _ => s.trapPath i c.sched 0x11 (p.pc.setWidth 64) p.mask)

/-- The lanes of RFLUSH in turn (R338). -/
def State.rflushLanes (blk : Block) : List (Nat × Nat) → State → List (Nat × Int) × State
  | [], s => ([], s)
  | (l, id) :: r, s =>
    let s := s.settleNode id
    let (st, s) : Int × State :=
      match s.jobNode blk id with
      | none => (-3, s)
      | some n => if n.run = 0 then (0, s) else (n.run, s.modNode id fun n => { n with flush := true })
    let (vs, s) := State.rflushLanes blk r s
    ((l, st) :: vs, s)

/-- RFLUSH (R338). -/
def execRflush (c : Ctl) (d : Reg) (a : Src) (s : State) : Host.Outcome State Fault Refusal :=
  .next (issue (.rflush c d a) c s fun b p act s =>
    let i := Instr.rflush c d a
    let rd (l : Nat) : Val := rdSrc s b c.ix a l
    numLanes i c.sched s p act (fun l => (rd l).isNum) fun s =>
      match s.myBlk with
      | none => s
      | some blk =>
        let (vs, s) := State.rflushLanes blk (perLane act fun l => (rd l).pay.toNat) s
        let s := if vs.any fun e => 0 < e.2 then s.changed b else s
        s.finish b c.sched .variable act (wrReg s.grp c.ix d (keepFor d act (vs.map fun e => (e.1, Val.ofInt e.2)))))

/-! ### Batch cards -/

/-- A card with records that have not been dealt (R339, R340) (DEDUCED, log entry 44). -/
def Card.pending (k : Card) : Bool := !k.dropped && k.dealt < k.count
/-- The lanes of RCARD in turn: node id, base, count, depth plus 1 (R339). -/
def State.rcardLanes (blk : Block) (token : Option (Nat × Nat × Nat)) : List (Nat × Nat × Nat × Nat × Nat) → State → Acted × State
  | [], s => (⟨[], []⟩, s)
  | (l, id, base, n, d) :: r, s =>
    let go (st : Int) (s : State) : Acted × State :=
      let (a, s) := State.rcardLanes blk token r s
      (⟨(l, st) :: a.vals, a.stop⟩, s)
    match s.jobNode blk id with
    | none => go (-3) s
    | some k =>
      if k.maxdepth < d then
        if k.strict then (⟨[], l :: r.map Prod.fst⟩, s) else go (-2) s
      else if 16 ≤ (s.cards.filter fun x => x.node == id && x.pending).length then go (-1) s
      else
        let card : Card := { id := s.uid, node := id, base := base, count := n, dealt := 0, depth := d, token := token, dropped := false }
        go 0 { s with uid := s.uid + 1, cards := s.cards ++ [card] }

/-- RCARD (R339). -/
def execRcard (c : Ctl) (tk : Option (Fin 8)) (d : Reg) (a x n : Src) (s : State) : Host.Outcome State Fault Refusal :=
  .next (issue (.rcard c tk d a x n) c s fun b p act s =>
    let i := Instr.rcard c tk d a x n
    let rd (o : Src) (l : Nat) : Val := rdSrc s b c.ix o l
    outsideRegion i c.sched s p fun s =>
      numLanes i c.sched s p act (fun l => allNum [rd a l, rd x l, rd n l]) fun s =>
        match s.myBlk with
        | none => s
        | some blk =>
          let bad (l : Nat) : Bad :=
            let cnt := (rd n l).pay.toNat
            let va := (rd x l).pay.toNat
            firstBad [must (1 ≤ cnt && cnt ≤ 65535) 0x03 (p.pc.setWidth 64),
              match s.jobNode blk (rd a l).pay.toNat with
              | none => none
              | some k =>
                firstBad [s.rangeBad .glb va (cnt * k.rsize), must (va % 16 == 0) 0x04 (rd x l).pay]]
          match (lanes act).findSome? bad with
          | some (z, f) => s.trapPath i c.sched z f act
          | none =>
            let s := if act = (0 : Mask) then s else s.drainGroup s.grp.blk s.grp.grp
            let token := tk.map fun t => (s.grp.blk, s.grp.grp, t.val)
            let ls := (lanes act).map fun l =>
              (l, (rd a l).pay.toNat, (rd x l).pay.toNat, (rd n l).pay.toNat, (special s b l .depth).pay.toNat + 1)
            let (r, s) := State.rcardLanes blk token ls s
            let queued := r.vals.any fun e => e.2 == 0
            let s := match tk with
              | some t => if queued then s.setGrp fun g => { g with busy := g.busy ||| ((1 : BitVec 8) <<< t.val) } else s
              | none => s
            s.endActed i c b p act d none r)

/-- A token is complete when neither a command nor a card names it any more; a pending fault is kept, the first only. -/
def State.endToken (s : State) (blk grp t : Nat) (fault : Option (BitVec 8 × Word)) : State :=
  let left := (s.cmds.any fun k => k.owner == some (blk, grp) && k.token == some t) ||
    s.cards.any fun k => k.token == some (blk, grp, t)
  s.modGrp blk grp fun g =>
    let g := match fault with
      | some f => if (keyGet g.tokFault t).isSome then g else { g with tokFault := keySet g.tokFault t f }
      | none => g
    if left then g else { g with busy := g.busy &&& ~~~((1 : BitVec 8) <<< t) }

/-- Whether a launch of a card is still running, its stores included (R341). -/
def State.cardRuns (s : State) (card : Nat) : Bool :=
  s.blocks.any fun b => match b.origin with | .node _ _ _ _ k => k == some card | .grid .. => false

/-- CARD_COMPLETE: every record has been dealt, or the node is unbound, and every launch of the card has ended with its
stores registered (R341). -/
def execCardComplete (card : Nat) (s : State) : Host.Outcome State Fault Refusal :=
  .next <|
    match s.cards.find? fun k => k.id == card with
    | none => s
    | some k =>
      if k.pending || s.cardRuns card then s
      else
        let s := { s with cards := s.cards.filter fun x => x.id != card }
        match k.token with
        | some (blk, grp, t) => s.endToken blk grp t (if k.dropped then some (0x11, 0) else none)
        | none => s

/-- NODE_TIMER_EXPIRY: the record at the launch position has waited TIMER clocks (R330). -/
def execNodeTimerExpiry (node : Nat) (s : State) : Host.Outcome State Fault Refusal :=
  .next <|
    let s := s.settleNode node
    match s.node? node with
    | none => s
    | some n =>
      if n.timer ≠ 0 ∧ 0 < n.run ∧ (n.slot (n.launch % n.qcap)).clock + n.timer ≤ s.now then
        s.modNode node fun n => { n with timedOut := true }
      else s

end Sys2Proof.Machine
end

