-- ==== Sys2Proof/Machine/Regions.lean ====
section
/-! DEFINITION. Region control blocks, their effective values, caps and budgets (spec 31_scheduling R351 to R353, R359, R360), and the descriptors of launches and nodes (R326, R354). -/
namespace Sys2Proof.Machine

/-! ### Region control blocks (Table 31.4) -/

/-- A number of n bytes at an offset of a list of words. -/
def fieldOf (ws : List Word) (off n : Nat) : Nat := (ws.getD (off / 8) 0).toNat / 2 ^ (8 * (off % 8)) % 2 ^ (8 * n)

/-- The fields of a block of 256 bytes, when they are well formed; SHARE and SHAREINT hold at the tenant level only. -/
def parseRcb (pid addr : Nat) (ws : List Word) : Option Rcb :=
  let f := fieldOf ws
  let level := f 8 1
  let r : Rcb :=
    { pid := pid, addr := addr, parent := f 0 8, level := level, prio := f 9 1, fdom := f 10 2,
      inherit := BitVec.ofNat 32 (f 12 4), ebudget := f 16 8, share := f 24 2, shareint := f 26 2, trapvec := BitVec.ofNat 64 (f 32 8),
      saveh := BitVec.ofNat 64 (f 40 8), dispatch := BitVec.ofNat 64 (f 48 8), savebase := BitVec.ofNat 64 (f 56 8),
      savebudget := f 64 4, hdrpart := f 68 1, flags := BitVec.ofNat 8 (f 69 1), capnodes := f 70 2, capcores := f 72 2,
      caprun := f 74 2, chpwin := f 76 4, est := f 80 8 }
  let vecOk (x : Nat) : Bool := x % 16 == 0 && x < 2 ^ 56
  if level ≤ 3 && r.prio ≤ 15 && f 12 4 < 2 ^ 14 && f 28 4 == 0 && vecOk (f 32 8) && vecOk (f 40 8) && r.hdrpart ≤ 2 && f 69 1 < 8 &&
      r.chpwin % 4096 == 0 && (level == 1 || r.share == 0) && (level != 1 || r.shareint != 0) && (level != 0 || (r.parent == 0 && f 12 4 == 0)) &&
      (ws.drop 11).all (fun w => w == 0) then some r
  else none

/-- An installed block. -/
def State.rcb? (s : State) (pid addr : Nat) : Option Rcb := s.rcbs.find? fun r => r.pid == pid && r.addr == addr
/-- The chain from a block up to its partition's, own block first. -/
def State.chainFrom (s : State) (pid : Nat) : Nat → Nat → Option (List Rcb)
  | 0, _ => none
  | f + 1, addr =>
    match s.rcb? pid addr with
    | none => none
    | some r => if r.level = 0 then some [r] else (s.chainFrom pid f r.parent).map fun l => r :: l
/-- A chain has at most four levels. -/
def State.chain (s : State) (pid addr : Nat) : Option (List Rcb) := s.chainFrom pid 4 addr

/-- R352: the effective value of a field of inherit bit i. -/
def inherited {α : Type} (d : α) (i : Nat) (f : Rcb → α) : List Rcb → α
  | [] => d
  | r :: rest => if r.inherit.getLsbD i && !rest.isEmpty then inherited d i f rest else f r
/-- The block of a level in a chain. -/
def atLevel (n : Nat) (c : List Rcb) : Option Rcb := c.find? fun r => r.level == n
/-- The job of a chain: its block of the job level, or the block itself above that level. -/
def jobOf (c : List Rcb) : Nat :=
  match atLevel 2 c, c with
  | some r, _ => r.addr
  | none, r :: _ => r.addr
  | none, [] => 0
/-- The tenant of a chain: its block of the tenant level, 0 for none. -/
def tenantOf (c : List Rcb) : Nat := ((atLevel 1 c).map Rcb.addr).getD 0

/-- The caps and the budget of each level of a chain: block, CAPCORES, CAPRUN, EBUDGET (R352). -/
def levelsOf : List Rcb → List (Nat × Nat × Nat × Nat)
  | [] => []
  | r :: rest =>
    (r.addr, inherited 0 11 Rcb.capcores (r :: rest), inherited 0 11 Rcb.caprun (r :: rest), inherited 0 2 Rcb.ebudget (r :: rest)) ::
      levelsOf rest
/-- The effective values of a chain. -/
def Eff.ofChain (c : List Rcb) : Eff :=
  let fl := inherited 0 10 Rcb.flags c
  let budget := inherited 0 8 Rcb.savebudget c
  { chain := c.map Rcb.addr, job := jobOf c, tenant := tenantOf c, prio := inherited 0 0 Rcb.prio c, fdom := inherited 0 1 Rcb.fdom c,
    trapvec := inherited 0 4 Rcb.trapvec c, saveh := inherited 0 5 Rcb.saveh c, dispatch := inherited 0 6 Rcb.dispatch c,
    savebase := inherited 0 7 Rcb.savebase c, savebudget := if budget = 0 then 20000 else budget,
    hdrpart := inherited 0 9 Rcb.hdrpart c, coll := fl.getLsbD 0, pin := fl.getLsbD 1, lend := fl.getLsbD 2,
    capcores := inherited 0 11 Rcb.capcores c, chpwin := inherited 0 12 Rcb.chpwin c, est := inherited 0 13 Rcb.est c,
    ebudget := inherited 0 2 Rcb.ebudget c,
    jbudget := inherited 0 2 Rcb.ebudget (c.dropWhile fun r => r.addr != jobOf c), levels := levelsOf c }
/-- The effective values of an installed block. -/
def State.eff? (s : State) (pid addr : Nat) : Option Eff := (s.chain pid addr).map Eff.ofChain
/-- The effective values of the block that a descriptor of a queue names: 0 names the queue's. -/
def State.effFor (s : State) (k : Queue) (addr : Nat) : Option Eff := s.eff? k.pid (if addr = 0 then k.rcb else addr)

/-- Effective values for work of a job whose block need not be their own job's. -/
def State.inJob (s : State) (pid job : Nat) (e : Eff) : Eff :=
  { e with job := job, jbudget := ((s.eff? pid job).map Eff.ebudget).getD e.jbudget }
/-- The job's account, made when it is first needed. -/
def State.withJob (s : State) (pid job : Nat) : State :=
  if s.jobs.any fun j => j.pid == pid && j.rcb == job then s
  else { s with jobs := s.jobs ++ [⟨pid, job, 0, 0, 0, none, false, []⟩] }
/-- A job's account. -/
def State.job? (s : State) (pid job : Nat) : Option Job := s.jobs.find? fun j => j.pid == pid && j.rcb == job
/-- Changing a job's account. -/
def State.modJob (s : State) (pid job : Nat) (f : Job → Job) : State :=
  { s with jobs := updWhere s.jobs (fun j => j.pid == pid && j.rcb == job) f }

/-- Whether work with effective values e lies under a block of its partition. -/
def Eff.under (e : Eff) (addr : Nat) : Bool := e.chain.contains addr
/-- Blocks that occupy cores under a block. -/
def State.blocksUnder (s : State) (pid addr : Nat) : List Block :=
  s.blocks.filter fun b => b.pid == pid && b.eff.under addr && !b.cores.isEmpty

/-! ### Admission (R360) -/

/-- The module limit in µJ per window. -/
def moduleLimit : Nat := 3600000
/-- Whether a job lies under a block. -/
def State.jobUnder (s : State) (j : Job) (pid addr : Nat) : Bool :=
  j.pid == pid && (match s.eff? pid j.rcb with | some e => e.under addr | none => j.rcb == addr)
/-- Charge plus estimates not yet charged of all jobs. -/
def spentOf (l : List Job) : Nat := (l.map fun j => j.charge + j.pending).sum
/-- The same of the work under a block, of the launch level too (R352). -/
def State.spentUnder (s : State) (pid addr : Nat) : Nat :=
  (s.jobs.map fun j =>
    if s.jobUnder j pid addr then j.charge + j.pending
    else if j.pid = pid then ((j.subs.filter fun x => x.rcb == addr).map fun x => x.charge + x.pending).sum
    else 0).sum
/-- R360: whether an estimate is admitted at every level and within the module limit. -/
def State.admits (s : State) (pid : Nat) (e : Eff) (est : Nat) : Bool :=
  let level (l : Nat × Nat × Nat × Nat) : Bool :=
    l.2.2.2 == 0 || s.spentUnder pid l.1 + est ≤ l.2.2.2
  e.levels.all level && spentOf s.jobs + est ≤ moduleLimit
/-- The estimate of a block: the job's mean of the window before, or EST in the first window of its launch. -/
def State.estimate (s : State) (pid : Nat) (e : Eff) (win : Nat) : Nat :=
  if win < s.dev.window then ((s.job? pid e.job).bind Job.mean).getD e.est else e.est

/-! ### Descriptors (Table 29.1, R354) -/

/-- Where BARS of a descriptor stands, and the fields both layouts share; `tileOk` and the other limits of the table. -/
def parseSpec (ws : List Word) : Option Spec :=
  let f := fieldOf ws
  let bars := (List.range 16).map fun i => (16 * f (64 + 4 * i) 2, f (66 + 4 * i) 2)
  let used := (bars.filter fun b => b.2 != 0).map Prod.fst
  let c : Spec :=
    { entry := f 0 8, ts := f 8 8, allot := f 48 1, slots := f 49 1, accs := f 50 1, lanw := f 51 1 * 0x10000, spd := f 52 4,
      bars := bars, rcb := f 40 8 }
  if c.entry % 16 == 0 && c.entry < 2 ^ 56 && c.ts % 16 == 0 && c.ts < 2 ^ 56 && 1 ≤ c.allot && c.allot ≤ 20 && c.slots ≤ 48 && c.accs ≤ 8 &&
      (c.ts != 0 || (c.slots == 0 && c.accs == 0)) && 1 ≤ f 51 1 && f 51 1 ≤ 16 && c.spd % 1024 == 0 && c.spd ≤ 0x80000 &&
      f 56 8 == 0 && used.all (fun o => o + 16 ≤ c.spd) && decide used.Nodup then some c
  else none
/-- Whether a block declares what one core must hold whole (R256, R291). -/
def Spec.oneCore (c : Spec) : Bool := c.ts != 0 || c.bars.any fun b => b.2 != 0
/-- The most groups of an allotment a core holds (R13). -/
def Spec.perCore (c : Spec) : Nat := min 128 (8 * min 16 (768 / (16 * c.allot)))
/-- R354: whether a block of n groups could ever be placed. -/
def Spec.fits (c : Spec) (n : Nat) : Bool := n ≤ (if c.oneCore then c.perCore else min 128 (8 * c.perCore))

/-- A launch descriptor: resources, grid, lanes. -/
def parseLaunch (ws : List Word) : Option (Spec × Nat × Nat × Nat × Nat) :=
  let f := fieldOf ws
  match parseSpec ws with
  | none => none
  | some c =>
    let (gx, gy, gz, n) := (f 16 4, f 20 2, f 22 2, f 24 2)
    if 1 ≤ gx && 1 ≤ gy && 1 ≤ gz && 1 ≤ n && n ≤ 4096 && f 26 6 == 0 && f 32 8 == 0 && c.fits ((n + 31) / 32) then some (c, gx, gy, gz, n)
    else none

/-- A node descriptor, before its context is bound. -/
def parseNode (id : Nat) (k : Queue) (eff : Eff) (ws : List Word) : Option Node :=
  let f := fieldOf ws
  match parseSpec ws with
  | none => none
  | some c =>
    let n : Node :=
      { id := id, pid := k.pid, aspace := k.aspace, queue := k.id, spec := c, eff := eff, qbase := f 16 8, qcap := f 24 4,
        rsize := f 28 2, thresh := f 30 1, maxdepth := f 31 1, timer := f 32 4, strict := f 36 2 % 2 == 1, slots := [], alloc := 0,
        launch := 0, release := 0, flush := false, timedOut := false, pointer := 0, win := 0, refused := none, unbind := none }
    if n.qbase % 128 == 0 && 1 ≤ n.qcap && n.qcap ≤ 65536 && 16 ≤ n.rsize && n.rsize ≤ 256 && n.rsize % 16 == 0 && 1 ≤ n.thresh &&
        n.thresh ≤ 32 && f 36 2 < 2 && f 38 2 == 0 && n.qbase + n.qcap * n.rsize ≤ 2 ^ 56 && c.fits 1 then some n
    else none

end Sys2Proof.Machine
end

