-- ==== Sys2Proof/Machine/Packets.lean ====
section
/-! DEFINITION. Queues and packets of the command core (spec 31_scheduling R343 to R350), and the error state of an interface (R394). -/
namespace Sys2Proof.Machine

/-! ### Interfaces (R393, R394) -/

/-- The tenant of a queue: that of its region control block. -/
def State.queueTenant (s : State) (k : Queue) : Nat := ((s.chain k.pid k.rcb).map tenantOf).getD 0
/-- The interface that serves a tenant. -/
def State.vfFor (s : State) (pid tenant : Nat) : Option Vf := s.dev.vfs.find? fun v => v.pid == pid && v.tenant == tenant
/-- An interface by number. -/
def State.vf? (s : State) (id : Nat) : Option Vf := s.dev.vfs.find? fun v => v.id == id
/-- The function that a queue's interrupts and doorbell page belong to: that of its tenant, physical function 0 where it has none
(R393). -/
def State.queueFn (s : State) (k : Queue) : Nat := ((s.vfFor k.pid (s.queueTenant k)).map Vf.id).getD 0
/-- Setting an interface's state. -/
def State.setVf (s : State) (id : Nat) (st : TdispSt) : State :=
  { s with dev := { s.dev with vfs := updWhere s.dev.vfs (fun v => v.id == id) fun v => { v with st := st } } }
/-- Whether firmware refuses configuration changes of a tenant's interface. -/
def State.frozenVf (s : State) (pid tenant : Nat) : Bool :=
  match s.vfFor pid tenant with
  | some v => v.st == .locked || v.st == .run
  | none => false
/-- An interface enters ERROR: its queues stop with ERR 1 and its tenant's running blocks are killed with 0x05. -/
def State.vfError (s : State) (v : Vf) : State :=
  let s := s.setVf v.id .error
  let qs := s.queues.filter fun k => k.pid == v.pid && s.queueTenant k == v.tenant && k.state == 1
  let s := qs.foldl (fun s k => s.stopQueue k.id 1) s
  (s.blocks.filter fun b => b.pid == v.pid && b.eff.tenant == v.tenant && b.st != .ended).foldl
    (fun s b => s.killBlock b.id (blockRec b 0x05)) s

/-! ### Binding and checking a queue (R344) -/

/-- n words at an address of an address space, as firmware reads them. -/
def State.firmWords (s : State) (aspace va n : Nat) : Option (List Word) :=
  ((List.range n).map fun j => s.firmPA aspace (va + 8 * j)).foldr (fun p l =>
    match p, l with
    | some pa, some ws => some (rdWord s.mem (pa / 8) :: ws)
    | _, _ => none) (some [])
/-- The privileged fields of a control block (Table 31.1). -/
def qcbFields (ws : List Word) : Nat × Nat × Nat × Nat × Nat × Nat :=
  let f := fieldOf ws
  (f 0 8, f 8 1, f 9 1, f 10 2, f 12 4, f 16 8)
/-- The copies of the privileged fields. -/
def Queue.copies (k : Queue) : Nat × Nat × Nat × Nat × Nat × Nat := (k.ring, k.log2n, k.die, k.vec, k.aspace, k.rcb)

/-- Whether memory holds the copies that the command core made of a queue's privileged fields. -/
def State.sameCopies (s : State) (k : Queue) : Bool :=
  match s.firmWords k.aspace k.qcb 3 with
  | some ws => decide (qcbFields ws = k.copies)
  | none => false
/-- Whether the interface of a bound queue's tenant is frozen. -/
def State.frozenQueue (s : State) (q : Nat) : Bool :=
  match s.queue? q with
  | some k => s.frozenVf k.pid (s.queueTenant k)
  | none => false
/-- A request by a function to change a queue's binding (R393, R394): refused unless it is physical function 0 or the function of
the tenant; in RUN, one through the interface's own function puts it into ERROR. -/
def State.byFunction (s : State) (fn pid tenant what : Nat) (go : State → State) : State :=
  if fn = 0 then go s
  else
    match s.vf? fn with
    | none => s.refuse what
    | some v =>
      if v.pid ≠ pid ∨ v.tenant ≠ tenant then s.refuse what
      else if v.st = .run then (s.vfError v).refuse what
      else go s

/-- The interface in RUN that asks for a rebind of one of its own queues, whatever the new control block says (R394). -/
def State.ownRebind (s : State) (fn q : Nat) : Option Vf :=
  match s.vf? fn, s.queue? q with
  | some v, some k => if fn ≠ 0 ∧ v.st = .run ∧ v.pid = k.pid ∧ v.tenant = s.queueTenant k then some v else none
  | _, _ => none

/-- QUEUE_BIND: at the request of a function the command core copies the privileged fields and the queue runs, its counts at 0.
A queue that is bound is checked first, and one whose control block differs from the copies stops with ERR 1 (R344)
(DEDUCED, log entry 46). -/
def execQueueBind (ask : BindAsk) (aspace qcb : Nat) (s : State) : Host.Outcome State Fault Refusal :=
  .next <|
    let q := ask.q
    match s.ownRebind ask.fn q, s.aspace? aspace, s.firmWords aspace qcb 16 with
    | some v, _, _ => (s.vfError v).refuse q
    | none, some a, some ws =>
      let (ring, log2n, die, vec, as_, rcb) := qcbFields ws
      let busy := match s.queue? q with
        | some k => k.packets.any fun p => p.st == .running || p.st == .effected
        | none => false
      let differs := match s.queue? q with
        | some k => !s.sameCopies k
        | none => false
      let dies := ((s.part? a.pid).map Partition.dies).getD []
      let foreign := s.queues.any fun k => k.id == q && k.pid != a.pid
      match s.chain a.pid rcb with
      | none => s.refuse q
      | some c =>
       s.byFunction ask.fn a.pid (tenantOf c) q fun s =>
        if 4096 ≤ q || qcb % 128 != 0 || ring % 64 != 0 || log2n < 4 || 16 < log2n || !dies.contains die || as_ != aspace ||
            a.root.isNone || busy || foreign || fieldOf ws 24 8 != 0 || fieldOf ws 60 4 != 0 || (ws.drop 8).any (fun w => w != 0) ||
            s.frozenVf a.pid (tenantOf c) || s.frozenQueue q then
          s.refuse q
        else if differs then s.stopQueue q 1
        else
          let k : Queue :=
            { id := q, pid := a.pid, aspace := aspace, qcb := qcb, ring := ring, log2n := log2n, die := die, vec := vec, rcb := rcb,
              widx := 0, sidx := 0, cidx := 0, state := 1, err := 0, packets := [], pa := (s.firmPA aspace qcb).getD 0 }
          ({ s with queues := (s.queues.filter fun (x : Queue) => x.id != q) ++ [k] }.withJob a.pid (jobOf c)).showQueue q
    | none, _, _ => s.refuse q

/-- The queue behind a doorbell page of a function: BAR 0 of a virtual function maps the pages of its tenant's queues in ascending
queue number (R393); physical function 0 names a queue by its page of the doorbell window. -/
def State.doorbellQueue (s : State) (fn page : Nat) : Option Nat :=
  if fn = 0 then some page
  else
    let qs := (s.queues.filter fun k => s.queueFn k == fn).map Queue.id
    qs.find? fun q => (qs.filter fun x => x < q).length == page
/-- QUEUE_KICK: a host write of W to the kick register of a function's doorbell page (R343, R386); nothing is exposed before the
bring-up is over (R399). -/
def execQueueKick (bell : Bell) (w : Word) (s : State) : Host.Outcome State Fault Refusal :=
  .next <|
    match (if s.dev.boot = .up then s.doorbellQueue bell.fn bell.page else none) with
    | some q => s.kick q w
    | none => s

/-- Memory is compared with the copies of a queue; a mismatch stops the queue with ERR 1 and puts a running interface
into ERROR (R344, R394). -/
def State.checkQueue (s : State) (q : Nat) : State :=
  match s.queue? q with
  | none => s
  | some k =>
    if s.sameCopies k then s
    else
      let s := if k.state = 1 then s.stopQueue q 1 else s
      match s.vfFor k.pid (s.queueTenant k) with
      | some v => if v.st = .run then s.vfError v else s
      | none => s
/-- QUEUE_CHECK: a queue is checked; every 2^24 clocks each of them is (R344, log entry 14). -/
def execQueueCheck (q : Nat) (s : State) : Host.Outcome State Fault Refusal := .next (s.checkQueue q)

/-! ### Starting a packet (R346, R347) -/

/-- A word of a packet. -/
def pkWord (ws : List Word) (k : Nat) : Nat := (ws.getD k 0).toNat
/-- TYPE. -/
def pkType (ws : List Word) : Nat := pkWord ws 0 % 256
/-- BAR and IRQ. -/
def pkBar (ws : List Word) : Bool := (ws.getD 0 0).getLsbD 8
def pkIrq (ws : List Word) : Bool := (ws.getD 0 0).getLsbD 9
/-- Whether a packet is well formed (R346, Table 31.3); `top` tells whether its queue is a partition-level one
(DEDUCED, log entry 45). -/
def packetOk (top : Bool) (ws : List Word) : Bool :=
  let a := pkWord ws 3
  let b := pkWord ws 4
  let c := pkWord ws 5
  let word (x : Nat) : Bool := x % 8 == 0
  pkWord ws 0 < 2 ^ 10 && pkWord ws 1 % 8 == 0 && pkWord ws 1 < 2 ^ 56 && pkWord ws 2 == 0 &&
  (match pkType ws with
   | 1 => (match c with
       | 0 | 1 | 2 | 3 => word a
       | 4 => top
       | _ => false)
   | 2 => c ≤ 2 && word a
   | 3 => a % 256 == 0 && b % 256 == 0 && c == 0
   | 4 => c < 2 ^ 31
   | 5 => a % 128 == 0 && b == 0 && c == 0
   | 6 => a % 128 == 0 && fld (ws.getD 4 0) 10 22 == 0 && fld (ws.getD 4 0) 33 31 == 0 && word c
   | 7 => a < 1024 && b % 16 == 0 && 1 ≤ c && c ≤ 65535
   | 8 => b == 0 && c == 0
   | _ => false)

/-- The address of packet i. -/
def Queue.packetVA (k : Queue) (i : Nat) : Nat := k.ring + 64 * (i % 2 ^ k.log2n)
/-- A record about a packet. -/
def Queue.recOf (k : Queue) (i kind : Nat) (cause : BitVec 8) (va : Nat) (write : Bool) : FaultRec where
  kind := kind
  cause := cause
  die := k.die
  flags := recFlags false false write false false
  core := 0xFFFF
  grp := 0
  slot := 0xFF
  pc := k.packetVA i
  faddr := BitVec.ofNat 64 va
  mask := 0
  pmask := 0
  aspace := k.aspace
  queue := k.id
  block := 0
/-- A packet's access fails: ERR 4 and a record of kind 8 (R346). -/
def State.packetFail (s : State) (k : Queue) (i : Nat) (cause : BitVec 8) (va : Nat) (write : Bool) : State :=
  let s := s.record k.pid (k.recOf i 8 cause va write)
  (s.modPacket k.id i fun p => { p with st := .failed }).stopQueue k.id 4

/-- n words read for a packet: a missing page is waited for, a refused one fails it, or `f` goes on. -/
def State.packetReads (s : State) (k : Queue) (i va n : Nat) (f : List Val → State → State) : State :=
  let page (a : Nat) : Bool := va / 0x10000 ≤ a / 0x10000 && a / 0x10000 ≤ (va + 8 * n - 1) / 0x10000
  match s.ready (.packet k.id i) page with
  | (.waits, s) => s
  | (.dead a w, s) => s.packetFail k i 0x06 a w
  | (.go, s) =>
    let hs := (List.range n).map fun j => (va + 8 * j, s.devHome k.die k.aspace (va + 8 * j) .read)
    let s := s.touchDies k.die k.aspace (hs.map Prod.fst)
    match hs.find? fun e => e.2 == .missing, hs.findSome? fun e => match e.2 with | .fault c => some (e.1, c) | .home _ | .missing => none with
    | some (a, _), _ => s.missFor (.packet k.id i) k.pid (k.recOf i 1 0 a false)
    | none, some (a, c) => s.packetFail k i c a false
    | none, none => f (hs.filterMap fun e => match e.2 with | .home h => some (s.viewWord h) | .missing | .fault _ => none) s
/-- The home of a word that a packet writes or reads. -/
def State.packetHome (s : State) (k : Queue) (i va : Nat) (need : Need) (f : Home → State → State) : State :=
  let write := match need with | .write => true | .read | .fetch => false
  match s.ready (.packet k.id i) fun a => a / 0x10000 == va / 0x10000 with
  | (.waits, s) => s
  | (.dead a w, s) => s.packetFail k i 0x06 a w
  | (.go, s) =>
    let at_ := s.devHome k.die k.aspace va need
    let s := s.touchDie k.die k.aspace va
    match at_ with
    | .missing => s.missFor (.packet k.id i) k.pid (k.recOf i 1 0 va write)
    | .fault c => s.packetFail k i c va write
    | .home h => f h s

/-- Whether a queue is a partition-level one. -/
def State.topQueue (s : State) (k : Queue) : Bool := match s.rcb? k.pid k.rcb with | some r => r.level == 0 | none => false
/-- Whether a queue has a packet to start. -/
def State.hasPacket (s : State) (k : Queue) : Bool :=
  k.state == 1 && k.sidx < k.widx && (match s.part? k.pid with | some p => !p.stopped | none => false)
/-- The type of the packet that a queue could start now: a lane reads it, and nothing blocks the queue (R347, R350). -/
def State.nextType (s : State) (k : Queue) : Option Nat :=
  if !s.hasPacket k then none
  else
    let ws := (List.range 8).foldr (fun j l =>
      match s.devHome k.die k.aspace (k.packetVA k.sidx + 8 * j) .read, l with
      | .home h, some ws => some ((s.viewWord h).pay :: ws)
      | _, _ => none) (some [])
    match ws with
    | none => none
    | some ws => if !packetOk (s.topQueue k) ws || (pkBar ws && k.cidx != k.sidx) then none else some (pkType ws)

/-! ### The lanes of a command core (R350) -/

/-- The effective priority of a queue's region block. -/
def State.queuePrio (s : State) (k : Queue) : Nat := ((s.eff? k.pid k.rcb).map Eff.prio).getD 0
/-- The queues a command core serves, in order of priority, then round robin from the one after the last that was taken. -/
def State.insServed (s : State) (k : Queue) : List Queue → List Queue
  | [] => [k]
  | x :: r =>
    let turn (q : Queue) : Nat := (q.id + 4096 - sget 0 s.dev.served k.die) % 4096
    if s.queuePrio x < s.queuePrio k ∨ (s.queuePrio x = s.queuePrio k ∧ turn k < turn x) then k :: x :: r else x :: s.insServed k r
/-- The queues whose packets the lanes of a die have still to execute, each with its packet's type. -/
def State.laneTypes (s : State) (die : Nat) : List (Nat × Nat) :=
  (s.dev.rounds.filter fun e => e.1 == die).filterMap fun e =>
    match s.queue? e.2.1 with
    | some k => if k.die = die ∧ k.sidx = e.2.2 then (s.nextType k).map fun t => (k.id, t) else none
    | none => none
/-- The 32 lanes of a die take a queue each with a packet to start, when those they had have been executed. -/
def State.takeLanes (s : State) (die : Nat) : State :=
  if !(s.laneTypes die).isEmpty then s
  else
    let qs := ((s.queues.filter fun k => k.die == die && (s.nextType k).isSome).foldl (fun l k => s.insServed k l) []).take 32
    { s with dev := { s.dev with
        rounds := s.dev.rounds.filter (fun e => e.1 != die) ++ qs.map fun k => (die, k.id, k.sidx)
        served := match qs.getLast? with | some k => sput 0 s.dev.served die (k.id + 1) | none => s.dev.served } }
/-- Whether a queue's packet of a type is executed now: a lane of its die has taken it, and none holds a packet of a type that goes
before. -/
def State.laneTurn (s : State) (k : Queue) (t : Nat) : Bool :=
  let l := s.laneTypes k.die
  (l.any fun e => e.1 == k.id) && l.all fun e => t ≤ e.2

/-- The first packet of a queue that has not started starts, if it may; it must be of the kind that `sel` selects. -/
def State.startPacket (s : State) (k : Queue) (i : Nat) (sel : List Word → Bool) (f : Queue → Packet → State → State) : State :=
  if !s.hasPacket k || i != k.sidx then s
  else
    s.packetReads k i (k.packetVA i) 8 fun vs s =>
      let ws := vs.map Val.pay
      let s := s.takeLanes k.die
      if !packetOk (s.topQueue k) ws then s.stopQueue k.id 3
      else if !sel ws || (pkBar ws && k.cidx != i) || !s.laneTurn k (pkType ws) then s
      else
        let p : Packet := ⟨i, ws, .running, 0, none, 0⟩
        let s := (s.modQueue k.id fun k => { k with sidx := i + 1, packets := k.packets ++ [p] }).showQueue k.id
        match s.queue? k.id with
        | some k => f k p s
        | none => s
/-- What an event does to a packet: the packet starts, or one that runs goes on. -/
def onPacket (q i : Nat) (sel : List Word → Bool) (f : Queue → Packet → State → State) (s : State) : State :=
  match s.queue? q with
  | none => s
  | some k =>
    match k.packet? i with
    | some p => if p.st = .running ∧ sel p.words then f k p s else s
    | none => s.startPacket k i sel f
/-- The effect of a packet is over. -/
def State.effected (s : State) (k : Queue) (i : Nat) : State := s.modPacket k.id i fun p => { p with st := .effected }

/-- Packets of a type, and SIGNAL packets of an operation. -/
def ofType (t : Nat) (ws : List Word) : Bool := pkType ws == t
def signalOp (op : Nat) (ws : List Word) : Bool := pkType ws == 1 && pkWord ws 5 == op

/-! ### SIGNAL (Table 31.3) -/

/-- SIGNAL with OP 0: raw value stored. It meets a stored fwd as a runtime-mode store where the page is tagged (DESIGN CHOICE, log
entry 76); through a raw leaf it is no path's store, and takes the fault (R425). -/
def execSignalStore (q i : Nat) (s : State) : Host.Outcome State Fault Refusal :=
  .next (onPacket q i (signalOp 0) (fun k p s =>
    let va := pkWord p.words 3
    s.packetHome k i va .write fun h s =>
      match (if s.storesTag h then tagFault (s.homeWord h).tag (!h.tagged) else none) with
      | some c => s.packetFail k i c va true
      | none => (s.land h (.raw (p.words.getD 4 0))).effected k i) s)

/-- An atomic addition by the command core, as ATOM .n64 .add does (R191): the cause it fails with, or the state. -/
def State.devAdd (s : State) (h : Home) (x : Word) : (BitVec 8) ⊕ State :=
  if h.uncached then .inl 0x05
  else
    let s := match h with
      | .glb pa _ => s.drainFor none (pa / 8)
      | .stack .. | .bank .. => s
    let w := s.homeWord h
    let m : Val := if h.tagged then w else .raw w.pay
    match tagFault m.tag true with
    | some c => .inl c
    | none =>
      let n := atomNew .add .n64 h m (.int x) Val.nil
      let n : Val := if h.tagged then n else .raw n.pay
      if n = m then .inr s
      else
        match (if s.storesTag h && !h.tagged then tagFault w.tag true else none) with
        | some c => .inl c
        | none => .inr (s.land h n)

/-- SIGNAL with OP 1: an addition. -/
def execSignalAdd (q i : Nat) (s : State) : Host.Outcome State Fault Refusal :=
  .next (onPacket q i (signalOp 1) (fun k p s =>
    let va := pkWord p.words 3
    s.packetHome k i va .write fun h s =>
      match s.devAdd h (p.words.getD 4 0) with
      | .inl c => s.packetFail k i c va true
      | .inr s => s.effected k i) s)

/-- SIGNAL with OP 2: a promise is filled with an int value (R273). -/
def execSignalPfill (q i : Nat) (s : State) : Host.Outcome State Fault Refusal :=
  .next (onPacket q i (signalOp 2) (fun k p s =>
    let va := pkWord p.words 3
    let v : Val := .int (p.words.getD 4 0)
    s.packetHome k i va .write fun h s =>
      match cellOf h with
      | .inl c => s.packetFail k i c va true
      | .inr w =>
        match s.findRoot none k.pid w with
        | (.broken _, s) => s.packetFail k i 0x03 va true
        | (.dropped, s) => s.packetFail k i 0x05 va true
        | (.root r, s) =>
          if (s.peek r).tag = .pend then ((s.regWord none r v).wakeAll r 0 v).effected k i
          else if s.peek r = v then s.effected k i
          else s.packetFail k i 0x09 va true) s)

/-- SIGNAL with OP 4: a TLB invalidation (R119). -/
def execSignalTlbi (q i : Nat) (s : State) : Host.Outcome State Fault Refusal :=
  .next (onPacket q i (signalOp 4) (fun k p s =>
    let va := pkWord p.words 3
    (s.tlbi k.aspace (if va = 0 then none else some va)).effected k i) s)

/-! ### Records by packets (R342) -/

/-- A node bound to a queue's job. -/
def State.queueNode (s : State) (k : Queue) (id : Nat) : Option Node :=
  match s.node? id, s.chain k.pid k.rcb with
  | some n, some c => if n.pid = k.pid ∧ n.eff.job = jobOf c then some n else none
  | _, _ => none
/-- The next record of a packet: a slot is reserved with the record read from the array, then it is written and
committed; `total` records in all. -/
def State.packetRecord (s : State) (k : Queue) (p : Packet) (id base total : Nat) : State :=
  match s.queueNode k id with
  | none => (s.modPacket k.id p.idx fun p => { p with st := .failed }).stopQueue k.id 3
  | some n =>
    let write (slot : Nat) (e : Emit) (s : State) : State :=
      match s.writeRecord k.die n slot (k.packetVA p.idx) e with
      | (.waits, s) => s.modPacket k.id p.idx fun p => { p with slot := some slot }
      | (.written, s) =>
        let s := s.onNode id fun n => n.commit slot s.now
        let s := s.modPacket k.id p.idx fun p => { p with slot := none, count := p.count + 1 }
        if p.count + 1 = total then s.effected k p.idx else s
      | (.failed c va, s) =>
        (s.onNode id fun n => n.setSlot slot { n.slot slot with st := .void, emit := none }).packetFail k p.idx c va true
    match p.slot with
    | some slot =>
      match (n.slot slot).emit with
      | some e => write slot e s
      | none => s
    | none =>
      s.packetReads k p.idx (base + p.count * n.rsize) (n.rsize / 8) fun vs s =>
        let s := s.settleNode id
        match s.node? id with
        | none => s
        | some n =>
          if n.full then s
          else
            let e : Emit := ⟨.packet k.id p.idx, vs⟩
            let (slot, n') := n.reserve 0 none (some e)
            write slot e (s.modNode id fun _ => n')

/-- SIGNAL with OP 3: a record is committed to a node from the template at the address. -/
def execSignalCommit (q i : Nat) (s : State) : Host.Outcome State Fault Refusal :=
  .next (onPacket q i (signalOp 3) (fun k p s => s.packetRecord k p (pkWord p.words 4 % 1024) (pkWord p.words 3) 1) s)
/-- CARD: the records of an array are committed in turn at depth 0. -/
def execCard (q i : Nat) (s : State) : Host.Outcome State Fault Refusal :=
  .next (onPacket q i (ofType 7) (fun k p s => s.packetRecord k p (pkWord p.words 3) (pkWord p.words 4) (pkWord p.words 5)) s)

/-! ### WAITV, RCBSET, COPY, MARKER -/

/-- COND of a WAITV. -/
def condHolds (cond x v : Nat) : Bool := if cond = 0 then v ≤ x else if cond = 1 then x == v else x != v
/-- A read of a WAITV's word; the next is 256 clocks later. -/
def State.waitvRead (s : State) (k : Queue) (p : Packet) : State :=
  s.packetHome k p.idx (pkWord p.words 3) .read fun h s =>
    if condHolds (pkWord p.words 5) (s.homeWord h).pay.toNat (pkWord p.words 4) then s.effected k p.idx
    else s.modPacket k.id p.idx fun p => { p with poll := s.now + 256 }
/-- WAITV: its first read. -/
def execWaitv (q i : Nat) (s : State) : Host.Outcome State Fault Refusal :=
  .next (onPacket q i (ofType 2) (fun k p s => if p.poll = 0 then s.waitvRead k p else s) s)
/-- WAITV_POLL: a later read. -/
def execWaitvPoll (q i : Nat) (s : State) : Host.Outcome State Fault Refusal :=
  .next <|
    match s.queue? q with
    | none => s
    | some k =>
      match k.packet? i with
      | some p => if p.st = .running ∧ pkType p.words = 2 ∧ p.poll ≠ 0 ∧ p.poll ≤ s.now then s.waitvRead k p else s
      | none => s

/-- Whether RCBSET may install a block: its parent is the queue's block or a descendant, its level follows its parent's,
and the children's SHARE values fit (R351). -/
def State.rcbOk (s : State) (k : Queue) (r : Rcb) : Bool :=
  match s.rcb? k.pid r.parent, s.chain k.pid r.parent with
  | some up, some c =>
    let shares := ((s.rcbs.filter fun x => x.pid == k.pid && x.parent == r.parent && x.addr != r.addr && x.level != 0).map Rcb.share).sum
    (c.map Rcb.addr).contains k.rcb && r.level == up.level + 1 && r.addr != r.parent && shares + r.share ≤ up.share
  | _, _ => false
/-- RCBSET (R351, R352). -/
def execRcbset (q i : Nat) (s : State) : Host.Outcome State Fault Refusal :=
  .next (onPacket q i (ofType 3) (fun k p s =>
    s.packetReads k i (pkWord p.words 3) 32 fun vs s =>
      match parseRcb k.pid (pkWord p.words 4) (vs.map Val.pay) with
      | some r =>
        if s.rcbOk k r then
          { s with rcbs := (s.rcbs.filter fun (x : Rcb) => !(x.pid == k.pid && x.addr == r.addr)) ++ [r] }.effected k i
        else (s.modPacket q i fun p => { p with st := .failed }).stopQueue q 6
      | none => (s.modPacket q i fun p => { p with st := .failed }).stopQueue q 6) s)

/-- COPY: a command of the command core moves the bytes (R313, R314). -/
def execCopy (q i : Nat) (s : State) : Host.Outcome State Fault Refusal :=
  .next (onPacket q i (ofType 4) (fun k p s =>
    if s.cmds.any fun c => c.packet == some (q, i) then s
    else
      let rs := rangeOf2 0 ⟨.glb, pkWord p.words 3⟩ ⟨.glb, pkWord p.words 4⟩ (pkWord p.words 5) none
      if rs.isEmpty || p.count != 0 then s.effected k i
      else
        let c : Cmd :=
          { id := s.uid, owner := none, packet := some (q, i), core := 0xFFFF, pid := k.pid, aspace := k.aspace, user := false,
            pc := k.packetVA i, lane := 0, todo := rs, gather := none, token := none, peer := none, failed := none, once := [] }
        { s with uid := s.uid + 1, cmds := s.cmds ++ [c] }.modPacket q i fun p => { p with count := 1 }) s)

/-- MARKER: a trace marker of class 255 when tracing is enabled, and a pulse of its source (R411). -/
def execMarker (q i : Nat) (s : State) : Host.Outcome State Fault Refusal :=
  .next (onPacket q i (ofType 8) (fun k p s =>
    let r : TraceRec :=
      { kind := 1, cls := 255, die := k.die, slot := 0xFF, core := 0xFFFF, grp := 0, flags := 0, pc := 0, value := p.words.getD 3 0,
        mask := 0, block := 0, queue := q }
    let s := if s.tracing k.pid q then s.trace k.pid r else s
    (s.pulseSrc (some k.pid) 4 (coreTrace k.die 0xFFFF k.id)).effected k i) s)

/-! ### LAUNCH and GRAPH -/

/-- The core at which a rotation of a partition starts (R356). -/
def State.firstPointer (s : State) (pid : Nat) : Nat :=
  match (s.part? pid).bind Partition.lastCore with
  | some c => c + 1
  | none => 0

/-- LAUNCH: the descriptor is read and the launch admitted to the dispatcher; one that could never be placed stops the
queue with ERR 5 (R354). -/
def execLaunch (q i : Nat) (s : State) : Host.Outcome State Fault Refusal :=
  .next (onPacket q i (ofType 5) (fun k p s =>
    if s.launches.any fun l => l.queue == q && l.pkt == i then s
    else
      s.packetReads k i (pkWord p.words 3) 16 fun vs s =>
        let refused (s : State) : State := (s.modPacket q i fun p => { p with st := .failed }).stopQueue q 5
        match parseLaunch (vs.map Val.pay) with
        | none => refused s
        | some (c, gx, gy, gz, n) =>
          match s.effFor k c.rcb with
          | none => refused s
          | some e =>
            let l : Launch :=
              { id := s.uid, queue := q, pkt := i, pid := k.pid, aspace := k.aspace, spec := c, eff := e, gx := gx, gy := gy, gz := gz,
                lanes := n, allowed := 0, placed := 0, ended := 0, pointer := s.firstPointer k.pid, halted := false,
                win := s.dev.window, ests := [], refused := none }
            { s with uid := s.uid + 1, launches := s.launches ++ [l] }.withJob k.pid e.job) s)

/-- Whether one more node of a chain on a die keeps to the caps (R349). -/
def State.nodeCapOk (s : State) (pid die : Nat) (e : Eff) : Bool :=
  e.chain.all fun addr =>
    match s.chain pid addr with
    | some c =>
      let cap := inherited 0 11 Rcb.capnodes c
      cap == 0 || (s.nodes.filter fun n => n.pid == pid && n.id / 256 == die && n.eff.under addr).length + 1 ≤ cap
    | none => true

/-- GRAPH with OP 0: a node context is bound to a descriptor, with a status (R349) (DEDUCED, log entry 47). -/
def execGraphBind (q i : Nat) (s : State) : Host.Outcome State Fault Refusal :=
  .next (onPacket q i (fun ws => ofType 6 ws && fld (ws.getD 4 0) 32 1 == 0) (fun k p s =>
    let id := pkWord p.words 4 % 1024
    let dies := ((s.part? k.pid).map Partition.dies).getD []
    s.packetReads k i (pkWord p.words 3) 16 fun vs s =>
      s.packetHome k i (pkWord p.words 5) .write fun h s =>
        let ws := vs.map Val.pay
        let end_ (st : Int) (s : State) : State :=
          match s.landWord .device h true (.ofInt st) 0xFF with
          | .inl c => s.packetFail k i c (pkWord p.words 5) true
          | .inr s => s.effected k i
        if !dies.contains (id / 256) then end_ (-3) s
        else if (s.node? id).isSome then end_ (-1) s
        else
          match s.effFor k (fieldOf ws 40 8), s.chain k.pid k.rcb with
          | some e, some c =>
            let e := s.inJob k.pid (jobOf c) e
            match parseNode id k e ws with
            | none => end_ (-2) s
            | some n =>
              if !s.nodeCapOk k.pid (id / 256) e then end_ (-3) s
              else
                let n := { n with pointer := s.firstPointer k.pid, win := s.dev.window }
                end_ 0 (({ s with nodes := s.nodes ++ [n] }.withJob k.pid e.job).settleNode id)
          | _, _ => end_ (-2) s) s)

/-- GRAPH with OP 1: the node takes no further launch; when its running launches have ended it is unbound, and its cards lose
their undealt records. Its match entries stay until their job ends: a complete one emits when the job binds the node again (R349,
R341, R324) (DEDUCED, log entry 47). -/
def execGraphUnbind (q i : Nat) (s : State) : Host.Outcome State Fault Refusal :=
  .next (onPacket q i (fun ws => ofType 6 ws && fld (ws.getD 4 0) 32 1 == 1) (fun k p s =>
    let id := pkWord p.words 4 % 1024
    let end_ (st : Int) (f : State → State) (s : State) : State :=
      s.packetHome k i (pkWord p.words 5) .write fun h s =>
        match (f s).landWord .device h true (.ofInt st) 0xFF with
        | .inl c => s.packetFail k i c (pkWord p.words 5) true
        | .inr s => s.effected k i
    let dies := ((s.part? k.pid).map Partition.dies).getD []
    match s.queueNode k id with
    | none => end_ (if dies.contains (id / 256) then -1 else -3) (fun s => s) s
    | some _ =>
      let s := s.modNode id fun n => { n with unbind := some (q, i) }
      if s.blocks.any fun b => match b.origin with | .node n _ _ _ _ => n == id | .grid .. => false then s
      else
        end_ 0 (fun s =>
          { s with
            nodes := s.nodes.filter fun n => n.id != id
            matchTab := updWhere s.matchTab (fun e => e.node == id) fun e => { e with slot := none }
            cards := s.cards.map fun c => if c.node == id && c.pending then { c with dropped := true } else c }) s) s)

/-! ### Completion (R346 to R348) -/

/-- Whether the effect of a packet is over: for COPY and LAUNCH, when nothing of them runs any more. -/
def State.packetOver (s : State) (q : Nat) (p : Packet) : Bool :=
  p.st == .effected ||
  (p.st == .running &&
    (match pkType p.words with
     | 4 => p.count != 0 && !(s.cmds.any fun c => c.packet == some (q, p.idx))
     | 5 => s.launches.any fun l => l.queue == q && l.pkt == p.idx && l.ended == l.placed && (l.halted || l.placed == l.gx * l.gy * l.gz)
     | _ => false))

/-- CIDX advances over completed packets (R347). -/
def Queue.advance : Nat → Queue → Queue
  | 0, k => k
  | f + 1, k =>
    match k.packet? k.cidx with
    | some p =>
      if p.st = .done then
        Queue.advance f { k with cidx := k.cidx + 1, packets := k.packets.filter fun x => x.idx != k.cidx }
      else k
    | none => k

/-- PACKET_COMPLETE: the addition at SIGADDR after every effect of the packet, the interrupt, and CIDX (R346 to R348). -/
def execPacketComplete (q i : Nat) (s : State) : Host.Outcome State Fault Refusal :=
  .next <|
    match s.queue? q with
    | none => s
    | some k =>
      match k.packet? i with
      | none => s
      | some p =>
        if !s.packetOver q p then s
        else
          let end_ (s : State) : State :=
            let s := { s with launches := s.launches.filter fun l => !(l.queue == q && l.pkt == i) }
            let s := s.modPacket q i fun p => { p with st := .done }
            let s := (s.modQueue q fun k => Queue.advance k.packets.length k).showQueue q
            if pkIrq p.words then s.raiseVec (s.queueFn k) k.vec else s
          let sig := pkWord p.words 1
          if sig = 0 then end_ s
          else
            s.packetHome k i sig .write fun h s =>
              match s.devAdd h 1 with
              | .inl c => s.packetFail k i c sig true
              | .inr s => end_ s

end Sys2Proof.Machine
end

