-- ==== Sys2Proof/Machine/Setup.lean ====
section
/-! DEFINITION. How an instruction is placed where the next step fetches it: a partition, an address space with an identity page, and a block with one group (or a tile stream), as a launch would leave them (DESIGN CHOICE, log entry 4). -/
namespace Sys2Proof.Machine

/-- The largest declared resource set. -/
def Spec.full (entry ts : Nat) : Spec where
  entry := entry
  ts := ts
  allot := 20
  slots := 48
  accs := 8
  lanw := 0x10000
  spd := 0x80000
  bars := []
  rcb := 0

/-- The effective values of a launch that names no region control block. -/
def Eff.plain : Eff where
  chain := []
  levels := []
  job := 0
  tenant := 0
  prio := 0
  fdom := 0
  trapvec := 0
  saveh := 0
  dispatch := 0
  savebase := 0
  savebudget := 20000
  hdrpart := 0
  coll := false
  pin := false
  lend := false
  capcores := 288
  chpwin := 0
  est := 0
  ebudget := 0
  jbudget := 0

/-- A tile stream at its entry (R292, R296, R302, R304). -/
def Stream.start (pc : BitVec 56) : Stream where
  pc := pc
  stopped := false
  q := []
  loops := []
  slots := []
  accs := []
  rerun := 0
  fail := 0
  facc := 0
  wait := .none
  waited := false
  written := []
  bad := none
  copied := none
  kept := []
  asked := none
  lastBar := none
  arrived := []
  late := []
  loads := []

/-- A group at its start with one path (R54). -/
def Group.start (blk grp pid core part allot : Nat) (mask : Mask) (pc : BitVec 56) (mode : Mode) (now : Nat) : Group :=
  { Group.empty with
    blk := blk, grp := grp, pid := pid, core := core, part := part, st := .running, all := mask, present := mask, allot := allot,
    slot0 := some (Path.fresh pc 0 mask false mode none none now), age := now }

/-- Where `withFetchWord` puts the root table, the table below it and the instruction. -/
def placeRoot : Nat := 0x20000
def placeCode : Nat := 0x40000
/-- A page-table entry that names the table at an address: V. -/
def pteTable (pa : Nat) : Word := BitVec.ofNat 64 (pa + 1)
/-- A leaf of 64 GiB at physical 0: V, LEAF, U, W, X. -/
def pteIdentity : Word := 0x0700000000000003

/-- The block that `withFetchWord` makes. -/
def placeBlock (stream : Bool) : Block where
  id := 1
  origin := .grid 1 0 0 0 0
  pid := 1
  aspace := 1
  queue := 0
  spec := Spec.full placeCode placeCode
  eff := Eff.plain
  gx := 1
  gy := 1
  gz := 1
  lanes := 32
  cores := [0]
  spdBase := [(0, 0)]
  est := 0
  stream := if stream then some (Stream.start (BitVec.ofNat 56 placeCode)) else none
  st := .running
  killRec := none
  frozenAt := none
  heldOn := []
  heldSpd := []
  heldTags := []
  order := 0

/-- s with the instruction w stored where the next step fetches it. -/
def placeWord (s : State) (nbits w : Nat) : State :=
  let word := BitVec.ofNat 128 (w % 2 ^ nbits)
  let op := (word >>> 96).toNat % 1024
  let stream := 0x390 ≤ op && op ≤ 0x39B
  let mem := wrWord (wrWord s.mem (placeRoot / 8) (pteTable (placeRoot + 0x2000))) ((placeRoot + 0x2000) / 8) pteIdentity
  { s with
    mem := wrBytes mem placeCode (wordBytes word)
    plan := []
    tlb := []
    icopies := []
    stores := []
    jobs := []
    units := []
    early := []
    hdr := []
    ptrs := []
    dev := { s.dev with boot := .up, gated := s.dev.gated.filter fun c => c != 0 }
    parts := [{
      id := 1, dies := [0], fqcb := 0x10000, trcb := 0x10040, fqWidx := 0, fqLost := 0, trWidx := 0, trLost := 0, handles := []
      stopped := false, lastCore := none }]
    aspaces := [⟨1, 1, some placeRoot⟩]
    who := if stream then .stream 1 else .path false
    grp := if stream then Group.empty
      else Group.start 1 0 1 0 0 20 0xFFFFFFFF (BitVec.ofNat 56 placeCode) .user s.now
    groups := []
    blocks := [placeBlock stream] }

end Sys2Proof.Machine
end

