-- ==== Sys2Proof/Machine/Scheduling.lean ====
section
/-! DEFINITION. The dispatcher and the Caller's launches (spec 31_scheduling R353 to R357, 29_stages R330, R340), the end of groups and blocks (R105, R307, R334, R368), energy windows and power gating (R359 to R361, R403). -/
namespace Sys2Proof.Machine

/-! ### What is free on a core (R355) -/

/-- The groups resident on a core. -/
def State.onCore (s : State) (core : Nat) : List Group := s.allGroups.filter fun g => g.core == core && g.resident
/-- The blocks that hold resources of a core. -/
def State.coreBlocks (s : State) (core : Nat) : List Block := s.blocks.filter fun b => b.cores.contains core
/-- Free registers per lane of each partition of a core, and the groups it holds (R13). -/
def State.coreParts (s : State) (core : Nat) : List (Nat × Nat) :=
  let gs := s.onCore core
  (List.range 8).map fun p =>
    let here := gs.filter fun g => g.part == p
    (768 - (here.map fun g => 16 * g.allot).sum, here.length)
/-- The first address at which n bytes are free among the allocations, lowest first; fuel is one more than their
number. -/
def firstFit (size : Nat) (used : List (Nat × Nat)) : Nat → Nat → Nat → Option Nat
  | 0, _, _ => none
  | f + 1, a, n =>
    match used.find? fun u => u.1 < a + n && a < u.1 + u.2 with
    | some u => firstFit size used f (u.1 + u.2) n
    | none => if a + n ≤ size then some a else none
/-- Where a block's scratchpad allocation would lie on a core. -/
def State.spdPlace (s : State) (core n : Nat) : Option Nat :=
  if n = 0 then some 0
  else
    let used := (s.coreBlocks core).filterMap fun b => (b.spdOn core).map fun a => (a, b.spec.spd)
    firstFit 0x80000 (used.filter fun u => u.2 != 0) (used.length + 1) 0 n

/-- The partition with the most free registers that can take a group, lowest number first on a tie (R355). -/
def pickPart (need : Nat) (ps : List (Nat × Nat)) : Option Nat :=
  ps.zipIdx.foldl (fun best e =>
    if e.1.1 < need ∨ 16 ≤ e.1.2 then best
    else
      match best with
      | some k => if (ps.getD k (0, 0)).1 < e.1.1 then some e.2 else best
      | none => some e.2) none
/-- The partitions that n groups of an allotment go to in turn; fewer when the core is full. -/
def fillParts (need : Nat) : Nat → List (Nat × Nat) → List Nat
  | 0, _ => []
  | n + 1, ps =>
    match pickPart need ps with
    | none => []
    | some k =>
      let e := ps.getD k (0, 0)
      k :: fillParts need n (ps.set k (e.1 - need, e.2 + 1))

/-- The partitions that up to n groups of a block would take on a core, none when the core cannot take any (R355). -/
def State.fitCore (s : State) (c : Spec) (e : Eff) (core n : Nat) : List Nat :=
  let gs := s.onCore core
  let bs := s.coreBlocks core
  let n := min n (min (128 - gs.length) (s.sharedFree core / 2))
  let hdrOk := gs.isEmpty || bs.all fun b => b.eff.hdrpart == e.hdrpart
  let tileOk := (bs.map fun b => b.spec.slots).sum + c.slots ≤ 48 && (bs.map fun b => b.spec.accs).sum + c.accs ≤ 8
  if hdrOk && (!c.oneCore || tileOk) && (s.spdPlace core c.spd).isSome then fillParts (16 * c.allot) n (s.coreParts core) else []

/-! ### The rotation and the caps (R356, R352) -/

/-- The cores that work under a block occupies. -/
def State.coresUnder (s : State) (pid addr : Nat) : List Nat := ((s.blocksUnder pid addr).flatMap Block.cores).eraseDups
/-- Whether some cores, taken together with those occupied, keep to CAPCORES at every level. -/
def State.coreCapOk (s : State) (pid : Nat) (e : Eff) (cores : List Nat) : Bool :=
  e.levels.all fun l => l.2.1 == 0 || (s.coresUnder pid l.1 ++ cores).eraseDups.length ≤ l.2.1
/-- Launches that run under a block: grid launches with a block placed and not all ended, node and card launches. -/
def State.runningUnder (s : State) (pid addr : Nat) : Nat :=
  (s.launches.filter fun l => l.pid == pid && l.eff.under addr && l.placed != 0 && !(l.ended == l.placed && (l.halted || l.placed == l.gx * l.gy * l.gz))).length +
    (s.blocks.filter fun b => b.pid == pid && b.eff.under addr && b.launch?.isNone).length
/-- Whether one more launch keeps to CAPRUN at every level. -/
def State.runCapOk (s : State) (pid : Nat) (e : Eff) : Bool :=
  e.levels.all fun l => l.2.2.1 == 0 || s.runningUnder pid l.1 + 1 ≤ l.2.2.1
/-- Whether two cores lie in one cluster (R11). -/
def sameCluster (c d : Nat) : Bool := c / 72 == d / 72 && c % 72 / 8 == d % 72 / 8
/-- Whether the tenant of a core's slice lends its cluster: its effective LEND is set and it has no block there (R362). -/
def State.lent (s : State) (pid owner core : Nat) : Bool :=
  (match s.eff? pid owner with | some e => e.lend | none => false) &&
    !(s.blocks.any fun b => b.pid == pid && b.eff.tenant == owner && b.cores.any (sameCluster core))
/-- Whether a core is in a tenant's slice, or lent to it (R383, R362). -/
def State.sliceOk (s : State) (pid tenant core : Nat) : Bool :=
  match s.dev.slices.find? fun e => e.1 == core with
  | some (_, t, pending) => !pending && (t == tenant || s.lent pid t core)
  | none => true
/-- The cores that a partition and the caps allow, in ascending order. -/
def State.rotation (s : State) (pid : Nat) (e : Eff) : List Nat :=
  match s.part? pid with
  | none => []
  | some p =>
    (List.range 288).filter fun c =>
      p.dies.contains (c / 72) && !s.dev.retired.contains c && !s.dev.lostDies.contains (s.physDie (c / 72)) && s.sliceOk pid e.tenant c &&
        s.coreCapOk pid e [c]
/-- The window: the core at the pointer and the 7 after it. -/
def windowOf (pointer : Nat) (rot : List Nat) : List Nat :=
  ((rot.filter fun c => pointer ≤ c) ++ rot.filter fun c => c < pointer).take 8
/-- The entry of least weight, the first on a tie. -/
def leastBy {α : Type} (w : α → Nat) : List α → Option α
  | [] => none
  | x :: r =>
    match leastBy w r with
    | some y => if w y < w x then some y else some x
    | none => some x
/-- A core's thermal weight as the sensors give it. -/
def weightOf (ws : List (Nat × Nat)) (c : Nat) : Nat := ((ws.find? fun e => e.1 == c).map Prod.snd).getD 0

/-- Cores in order of weight. -/
def insWeight (w : Nat → Nat) (c : Nat) : List Nat → List Nat
  | [] => [c]
  | d :: r => if w c < w d then c :: d :: r else d :: insWeight w c r
/-- The sum of the m greatest numbers of a list. -/
def bestSum : Nat → List Nat → Nat
  | 0, _ => 0
  | m + 1, l => let x := l.foldl max 0; x + bestSum m (l.erase x)
/-- m cores of a list filled in its order with n groups (R357): a core is taken where the best of those after it hold the
rest. -/
def State.fillCores (s : State) (c : Spec) (e : Eff) : List Nat → Nat → Nat → Option (List (Nat × List Nat))
  | _, 0, _ => some []
  | [], _ + 1, _ => none
  | core :: r, n + 1, m =>
    let ps := s.fitCore c e core (n + 1)
    let rest := bestSum (m - 1) (r.map fun d => (s.fitCore c e d (n + 1)).length)
    if m ≠ 0 ∧ !ps.isEmpty ∧ n + 1 ≤ ps.length + rest then
      (s.fillCores c e r (n + 1 - ps.length) (m - 1)).map fun l => (core, ps) :: l
    else s.fillCores c e r (n + 1) m
/-- The cores of a cluster, in order of weight, filled with n groups: as few of them as hold the groups (R357). -/
def State.fillCluster (s : State) (c : Spec) (e : Eff) (cores : List Nat) (n : Nat) : Option (List (Nat × List Nat)) :=
  let caps := cores.map fun d => (s.fitCore c e d n).length
  ((List.range 9).find? fun m => n ≤ bestSum m caps).bind fun m => s.fillCores c e cores n m

/-- A placement: the core that decides it, and the partitions of each core used. -/
structure Place where
  decides : Nat
  cores : List (Nat × List Nat)
  deriving DecidableEq, Repr

/-- The placement of a block of n groups by a rotation (R356, R357). -/
def State.placeFor (s : State) (pid : Nat) (c : Spec) (e : Eff) (n pointer : Nat) (ws : List (Nat × Nat)) : Option Place :=
  let rot := s.rotation pid e
  let win := windowOf pointer rot
  let w := weightOf ws
  if n ≤ c.perCore then
    let can := win.filter fun k => (s.fitCore c e k n).length == n
    (leastBy w can).map fun k => ⟨k, [(k, s.fitCore c e k n)]⟩
  else
    let plan (k : Nat) : Option (List (Nat × List Nat)) :=
      let cores := (rot.filter fun d => d / 72 == k / 72 && d % 72 / 8 == k % 72 / 8).foldl (fun l d => insWeight w d l) []
      match s.fillCluster c e cores n with
      | some p => if s.coreCapOk pid e (p.map Prod.fst) then some p else none
      | none => none
    let can := win.filter fun k => (plan k).isSome
    (leastBy w can).bind fun k => (plan k).map fun p => ⟨k, p⟩

/-! ### Chip-scratchpad windows (R179, R390) -/

/-- The window of a job on a die, allotted when it has none: cleared to raw 0. Windows of jobs with no block placed give
way when the die has no room (DEDUCED, log entry 33). -/
def State.withWindow (s : State) (pid : Nat) (e : Eff) (die : Nat) : Option State :=
  if e.chpwin = 0 ∨ (s.chpWin pid e.job die).isSome then some s
  else
    let try_ (s : State) : Option State :=
      let used := (s.wins.filter fun w => w.die == die).map fun w => (w.base, w.size)
      match firstFit 0x2000000 used (used.length + 1) 0 e.chpwin with
      | none => none
      | some a =>
        let lo := chpFlat die a
        some { s with
          wins := s.wins ++ [⟨pid, e.job, die, a, e.chpwin⟩]
          chp := dropRange s.chp lo e.chpwin
          chpTags := dropRange s.chpTags (lo / 8) (e.chpwin / 8) }
    match try_ s with
    | some s => some s
    | none =>
      try_ { s with wins := s.wins.filter fun w =>
        w.die != die || s.blocks.any fun b => b.pid == w.pid && b.eff.job == w.job }

/-! ### Starting a block (R49, R54, R256, R293, R376, R427) -/

/-- Save-image indexes in use by a job. -/
def State.images (s : State) (pid job : Nat) : List Nat :=
  s.allGroups.filterMap fun g =>
    match s.blk? g.blk with
    | some b => if b.pid = pid ∧ b.eff.job = job ∧ g.st ≠ .none then some g.image else none
    | none => none
/-- The n lowest free indexes below a limit. -/
def lowestImages (used : List Nat) (limit : Nat) : Nat → List Nat
  | 0 => []
  | n + 1 =>
    match lowestFree used limit with
    | some i => i :: lowestImages (i :: used) limit n
    | none => []
/-- The save image of index n (R376). -/
def imageBase (e : Eff) (n : Nat) : Word := (e.savebase + BitVec.ofNat 64 (n * 0x20000)) &&& 0x00FFFFFFFFFFF000

/-- The mask of group g of a block of n lanes (R48). -/
def groupMask (n g : Nat) : Mask := maskOf ((List.range 32).filter fun l => 32 * g + l < n)
/-- A group as it starts on a core (R54, Table 33.5). -/
def newGroup (b : Block) (g core part image uid now : Nat) (depth : List Nat) : Group :=
  let m := groupMask b.lanes g
  { Group.start b.id g b.pid core part b.spec.allot m (BitVec.ofNat 56 b.spec.entry) (if b.eff.coll then .runtime else .user) now with
    trapvec := b.eff.trapvec, dispatch := b.eff.dispatch, savebase := imageBase b.eff image,
    savebudget := BitVec.ofNat 64 b.eff.savebudget, gcmode := if b.eff.coll then 1 else 0, lanBase := 256 * (Config.lanBase uid).toNat, lanSize := b.spec.lanw,
    depth := depth, image := image }

/-- A block's allocation on each of its cores reads raw 0, its numbered barriers are initialised, and its cores take its
code afresh (R427, R256, R73). -/
def State.initSpd (s : State) (b : Block) : State :=
  b.spdBase.foldl (fun s e =>
    let lo := spdFlat e.1 e.2
    let s := s.clearSpd lo b.spec.spd
    let s := b.spec.bars.foldl (fun s k =>
      if k.2 = 0 then s
      else
        let (x, y) := BarObj.words ⟨k.2, k.2, 0, 0, 0⟩
        (s.setSpd ((lo + k.1) / 8) x).setSpd ((lo + k.1) / 8 + 1) y) s
    let s := s.acquire e.1
    { s with icopies := s.icopies.filter fun k => k.1 / 2 ^ 49 != e.1 }) s
/-- The core and partition of each group of a placement, in ascending group number. -/
def placesOf (p : Place) : List (Nat × Nat) := p.cores.flatMap fun e => e.2.map fun k => (e.1, k)

/-- A block starts at a placement: its allocation, barriers, groups and tile stream; none when no save image or no
window is free. -/
def State.startBlock (s : State) (b : Block) (p : Place) (depth : List Nat) : Option State :=
  let places := placesOf p
  let limit := if b.eff.capcores = 0 then 36864 else 128 * b.eff.capcores
  let imgs := lowestImages (s.images b.pid b.eff.job) limit places.length
  if imgs.length < places.length then none
  else
    match s.withWindow b.pid b.eff (p.decides / 72) with
    | none => none
    | some s =>
      let b : Block :=
        { b with
          cores := p.cores.map Prod.fst, order := s.uid
          frozenAt := (s.blocks.find? (sameLaunch b)).bind Block.frozenAt
          spdBase := p.cores.map fun e => (e.1, (s.spdPlace e.1 b.spec.spd).getD 0)
          stream := if b.spec.ts = 0 then none else some (Stream.start (BitVec.ofNat 56 b.spec.ts)) }
      let gs := (places.zip imgs).zipIdx.map fun e => newGroup b e.2 e.1.1.1 e.1.1.2 e.1.2 (s.uid + e.2) s.now depth
      let s := s.initSpd b
      let s := { s with uid := s.uid + places.length, blocks := s.blocks ++ [b], groups := s.groups ++ gs }
      some (s.modPart b.pid fun k => { k with lastCore := some p.decides })

/-- A block in the making. -/
def newBlock (id : Nat) (o : Origin) (pid aspace queue : Nat) (c : Spec) (e : Eff) (gx gy gz lanes est : Nat) : Block where
  id := id
  origin := o
  pid := pid
  aspace := aspace
  queue := queue
  spec := c
  eff := e
  gx := gx
  gy := gy
  gz := gz
  lanes := lanes
  cores := []
  spdBase := []
  est := est
  stream := none
  st := .running
  killRec := none
  frozenAt := none
  heldOn := []
  heldSpd := []
  heldTags := []
  order := 0

/-- Whether a partition's work may be placed. -/
def State.placing (s : State) (pid : Nat) : Bool := match s.part? pid with | some p => !p.stopped | none => false
/-- A launch with an id. -/
def State.modLaunch (s : State) (id : Nat) (f : Launch → Launch) : State :=
  { s with launches := updWhere s.launches (fun l => l.id == id) f }

/-- BLOCK_ADMISSION: the planner admits the next block of a launch, or makes it wait for the next window (R360). -/
def execBlockAdmission (launch : Nat) (s : State) : Host.Outcome State Fault Refusal :=
  .next <|
    match s.launches.find? fun l => l.id == launch with
    | none => s
    | some l =>
      let est := s.estimate l.pid l.eff l.win
      if l.halted || l.gx * l.gy * l.gz ≤ l.allowed || l.refused == some s.dev.window then s
      else if !s.admits l.pid l.eff est then s.modLaunch launch fun l => { l with refused := some s.dev.window }
      else
        (s.modLaunch launch fun l => { l with allowed := l.allowed + 1, ests := l.ests ++ [est] }).account l.pid l.eff.job l.eff.own 0 est 0

/-- BLOCK_PLACEMENT: the dispatcher places the next block of a launch (R49, R354 to R357). -/
def execBlockPlacement (launch : Nat) (weights : List (Nat × Nat)) (s : State) : Host.Outcome State Fault Refusal :=
  .next <|
    match s.launches.find? fun l => l.id == launch with
    | none => s
    | some l =>
      let n := l.placed
      if l.halted || l.allowed ≤ n || !s.placing l.pid || (n == 0 && !s.runCapOk l.pid l.eff) then s
      else
        match s.placeFor l.pid l.spec l.eff ((l.lanes + 31) / 32) l.pointer weights with
        | none => s
        | some p =>
          let o : Origin := .grid launch n (n % l.gx) (n / l.gx % l.gy) (n / (l.gx * l.gy))
          let b := newBlock s.uid o l.pid l.aspace l.queue l.spec l.eff l.gx l.gy l.gz l.lanes (l.ests.headD 0)
          match { s with uid := s.uid + 1 }.startBlock b p [] with
          | none => s
          | some s => s.modLaunch launch fun l => { l with placed := n + 1, pointer := p.decides + 1, ests := l.ests.drop 1 }

/-! ### Node and card launches (R330, R340) -/

/-- The effective values of a node's launch as they stand at its admission, for the node's job. -/
def State.nodeEff (s : State) (n : Node) : Eff :=
  match s.eff? n.pid (n.eff.chain.headD 0) with
  | some e => s.inJob n.pid n.eff.job e
  | none => n.eff
/-- Whether the dispatcher has a place on a core of a node's window for a launch of it (R330, R356). -/
def State.nodePlace (s : State) (n : Node) (core : Nat) : Bool :=
  let e := s.nodeEff n
  s.placing n.pid && (windowOf n.pointer (s.rotation n.pid e)).contains core && !(s.fitCore n.spec e core 1).isEmpty && s.runCapOk n.pid e
/-- Whether the planner admits a launch of a node in this window (R360). -/
def State.nodeAdmits (s : State) (n : Node) : Bool :=
  let e := s.nodeEff n
  n.refused != some s.dev.window && s.admits n.pid e (s.estimate n.pid e n.win)
/-- A launch of a node on a core of its window, admitted by the planner: the block of one group over `count` records. -/
def State.launchNode (s : State) (n : Node) (core : Nat) (count recbase first : Nat) (card : Option Nat) (depth : List Nat) :
    Option State :=
  let e := s.nodeEff n
  let est := s.estimate n.pid e n.win
  let parts := s.fitCore n.spec e core 1
  if !s.nodePlace n core || !s.nodeAdmits n then none
  else
    let b := newBlock s.uid (.node n.id count recbase first card) n.pid n.aspace n.queue n.spec e 1 1 1 count est
    ({ s with uid := s.uid + 1 }.startBlock b ⟨core, [(core, parts)]⟩ depth).map fun (s : State) =>
      (s.account n.pid e.job e.own 0 est 0).modNode n.id fun n => { n with pointer := core + 1 }
/-- A launch that the planner does not admit waits for the next window (R360). -/
def State.refuseNode (s : State) (n : Node) (core : Nat) : State :=
  if s.nodePlace n core && !s.nodeAdmits n then s.modNode n.id fun n => { n with refused := some s.dev.window } else s

/-- Whether a node has a card with records to deal. -/
def State.cardOf (s : State) (id : Nat) : Option Card := s.cards.find? fun k => k.node == id && k.pending

/-- Whether a node is eligible (R330). -/
def State.nodeReady (s : State) (n : Node) : Bool :=
  let run := n.run
  let at_ := n.launch % n.qcap
  let full := 32 ≤ run || at_ + run == n.qcap || n.thresh ≤ run
  let due := n.timer != 0 && (n.slot at_).clock + n.timer ≤ s.now
  n.unbind.isNone && (s.cardOf n.id).isNone && run != 0 && (full || n.timedOut || due || n.flush)
/-- Whether node m of a die is served before node n: by region priority, then the commit clock of the record at the launch
position, then the node id (R330). -/
def State.nodeBefore (s : State) (m n : Node) : Bool :=
  let p (k : Node) : Nat := (s.nodeEff k).prio
  let t (k : Node) : Nat := (k.slot (k.launch % k.qcap)).clock
  p n < p m || (p n == p m && (t m < t n || (t m == t n && m.id < n.id)))
/-- Whether an eligible node of the same die that could be launched now is served before: each as it stands once its launch position
has passed the void slots (R329, R330) (DEDUCED, log entry 49). -/
def State.nodeWaits (s : State) (n : Node) : Bool :=
  (s.nodes.map Node.tidy).any fun m =>
    m.id / 256 == n.id / 256 && m.id != n.id && s.nodeReady m && s.nodeBefore m n && s.nodeAdmits m &&
      (windowOf m.pointer (s.rotation m.pid (s.nodeEff m))).any (s.nodePlace m)

/-- NODE_LAUNCH: a launch over the first records of the ready run (R330, R331). -/
def execNodeLaunch (node core : Nat) (s : State) : Host.Outcome State Fault Refusal :=
  .next <|
    let s := s.settleNode node
    match s.node? node with
    | none => s
    | some n =>
      let at_ := n.launch % n.qcap
      if !s.nodeReady n || s.nodeWaits n then s
      else
        let count := min 32 n.run
        let blk := s.uid
        let depth := (List.range count).map fun i => (n.slot (at_ + i)).depth
        match s.launchNode n core count (n.slotVA at_) at_ none depth with
        | none => s.refuseNode n core
        | some s =>
          s.modNode node fun n =>
            let n := (List.range count).foldl (fun n i =>
              n.setSlot (at_ + i) { n.slot (at_ + i) with st := .launched, launch := blk }) n
            { n with launch := n.launch + count, flush := false, timedOut := false }

/-- CARD_LAUNCH: a chunk of the first pending card of a node (R340). -/
def execCardLaunch (node core : Nat) (s : State) : Host.Outcome State Fault Refusal :=
  .next <|
    match s.node? node, s.cardOf node with
    | some n, some k =>
      if n.unbind.isSome then s
      else
        let running := s.blocks.filter fun b => match b.origin with | .node id _ _ _ _ => id == node | .grid .. => false
        let m := max 1 (running.flatMap Block.cores).eraseDups.length
        let r := k.count - k.dealt
        let count := min 32 (max 1 ((r + 2 * m - 1) / (2 * m)))
        match s.launchNode n core count (k.base + k.dealt * n.rsize) 0 (some k.id) (List.replicate count k.depth) with
        | none => s.refuseNode n core
        | some s => { s with cards := updWhere s.cards (fun c => c.id == k.id) fun c => { c with dealt := c.dealt + count } }
    | _, _ => s

/-! ### The end of groups and blocks -/

/-- Cores that hold no resident group any more are idle from now (R361). -/
def State.nowIdle (s : State) (cores : List Nat) : State :=
  cores.foldl (fun s c =>
    if (s.onCore c).isEmpty then { s with dev := { s.dev with idleSince := sput 0 s.dev.idleSince c s.now } } else s) s
/-- A group leaves the machine. -/
def State.dropGroups (s : State) (q : Group → Bool) : State :=
  { s with grp := if q s.grp then Group.empty else s.grp, groups := s.groups.filter fun g => !q g }
/-- R334: the launched slots of a launch become done. -/
def State.releaseSlots (s : State) (b : Block) : State :=
  match b.origin with
  | .node id n _ first none => s.slotsDone b.id id first (List.range n)
  | .node _ _ _ _ (some _) | .grid .. => s

/-- GROUP_RESOURCE_RELEASE: an ended group whose stores are registered gives up what is its alone (R105). -/
def execGroupResourceRelease (blk grp : Nat) (s : State) : Host.Outcome State Fault Refusal :=
  .next <|
    match s.grp? blk grp, s.blk? blk with
    | some g, some b =>
      if g.st ≠ .ended ∨ b.killRec.isSome ∨ s.unacked blk grp ≠ 0 then s
      else ((s.releaseSlots b).dropGroups fun k => k.is blk grp).nowIdle [g.core]
    | _, _ => s

/-- Whether a command of a block is in flight. -/
def State.cmdsOf (s : State) (blk : Nat) : Bool := s.cmds.any fun c => match c.owner with | some o => o.1 == blk | none => false
/-- The block's resources are freed, and its launch counts it (R105, R334, R368). -/
def State.freeBlock (s : State) (b : Block) : State :=
  let s := s.releaseSlots b
  let s := s.freeWaiters fun w => w.blk == b.id
  let s := s.dropGroups fun g => g.blk == b.id && g.st != .none
  let s := { s with blocks := s.blocks.filter fun k => k.id != b.id, recs := s.recs.filter fun k => !ofBlock k.who b.id }
  let s := (s.account b.pid b.eff.job b.eff.own 0 0 b.est).modJob b.pid b.eff.job fun j => { j with blocks := j.blocks + 1 }
  let s := match b.launch? with
    | some l => s.modLaunch l fun l => { l with ended := l.ended + 1 }
    | none => s
  s.nowIdle b.cores

/-- BLOCK_END: every group has ended and the stream has stopped; of a killed block, its commands are over, its stores are
registered and its record is written (R307, R368). -/
def execBlockEnd (blk : Nat) (s : State) : Host.Outcome State Fault Refusal :=
  .next <|
    match s.blk? blk with
    | none => s
    | some b =>
      let streamDone := match b.stream with | some t => t.stopped | none => true
      if s.cmdsOf blk || !streamDone || b.cores.any (fun c => s.busyFor b c) then s
      else
        match b.killRec with
        | some r => ((s.drainBlock blk).record b.pid r).freeBlock b
        | none =>
          if (s.allGroups.any fun g => g.blk == blk && g.st != .none) || s.stores.any (fun p => p.blk == blk) then s
          else s.freeBlock b

/-! ### Energy, gating and temperature -/

/-- Clocks of an energy window: 1 ms. -/
def windowClocks : Nat := 1700000
/-- A job's account as a window starts: its charge returns to 0 and its mean per block is kept for the estimates. -/
def Job.renew (hot : Bool) (j : Job) : Job :=
  { j with
    charge := 0, blocks := 0, mean := if j.blocks = 0 then j.mean else some (j.charge / j.blocks), withheld := hot && j.withheld
    subs := j.subs.map fun x => { x with charge := 0 } }
/-- The energy window that holds the clock has started (R359, R360): accounts are renewed, and issue clocks withheld for the module
limit are given back. -/
def State.startWindow (s : State) : State :=
  let w := s.now / windowClocks
  if w ≤ s.dev.window then s
  else { s with dev := { s.dev with window := w, fwLogged := [] }, jobs := s.jobs.map (Job.renew !s.dev.hotDies.isEmpty) }
/-- ENERGY_WINDOW_START (R359, R360); a window also starts by its clock (log entry 14). -/
def execEnergyWindowStart (s : State) : Host.Outcome State Fault Refusal := .next s.startWindow

/-- A path whose demotion clock has run 1,024 clocks is not demoted any more (R66). -/
def Path.expire (now : Nat) (p : Path) : Path := if p.spin.demoted ∧ p.spin.since + 1024 ≤ now then p.undemote else p
/-- DEMOTION_EXPIRY (R66); a demotion also ends by its clock (log entry 14). -/
def execDemotionExpiry (blk grp : Nat) (slot : Bool) (s : State) : Host.Outcome State Fault Refusal :=
  .next (s.modGrp blk grp fun g => g.modSlot slot (Path.expire s.now))

/-- A core with no resident group for 20 µs is gated (R361). -/
def State.gateCore (s : State) (core : Nat) : State :=
  if core < 288 && sget 0 s.dev.idleSince core + 34000 ≤ s.now && (s.onCore core).isEmpty && !s.dev.gated.contains core then
    { s with dev := { s.dev with gated := s.dev.gated ++ [core] } }
  else s
/-- A tile engine that has run no TMMA for 5 µs is gated (R361, R299). -/
def State.gateTile (s : State) (core : Nat) : State :=
  let e := s.tile core
  if e.active || e.gated || s.now < e.lastUse + 8500 then s else s.setTile core { e with gated := true }
/-- The cores whose 20 µs, and the engines whose 5 µs, end in the clocks of this step are gated. -/
def State.gateIdle (s : State) : State :=
  let ends (t : Nat) : Bool := t + 34000 ≤ s.now && s.now < t + 34000 + s.turn.wait
  let s := if ends 0 || s.dev.idleSince.any fun e => ends e.2 then (List.range 288).foldl State.gateCore s else s
  (s.tiles.map Prod.fst).foldl State.gateTile s
/-- CORE_POWER_GATE; a core is also gated by its clock (R361, log entry 14). -/
def execCorePowerGate (core : Nat) (s : State) : Host.Outcome State Fault Refusal := .next (s.gateCore core)
/-- TILE_ENGINE_POWER_GATE; an engine is also gated by its clock (R361, log entry 14). -/
def execTileEnginePowerGate (core : Nat) (s : State) : Host.Outcome State Fault Refusal := .next (s.gateTile core)

/-- The place in the order of placement of the oldest block placed on a core. -/
def State.oldestOn (s : State) (core : Nat) : Option Nat := leastBy id ((s.coreBlocks core).map Block.order)
/-- CORE_WAKE: a gated core with a block placed on it wakes: at most 4 per die in any 1 µs, in the order of their
blocks' placement (R361). -/
def execCoreWake (core : Nat) (s : State) : Host.Outcome State Fault Refusal :=
  .next <|
    match s.oldestOn core with
    | none => s
    | some b =>
      let recent := s.dev.wakes.filter fun w => w.1 / 72 == core / 72 && s.now < w.2 + 1700
      let sooner := s.dev.gated.any fun c =>
        c / 72 == core / 72 && (match s.oldestOn c with | some k => k < b | none => false)
      if !s.dev.gated.contains core || 4 ≤ recent.length || sooner then s
      else
        { s with dev := { s.dev with
            gated := s.dev.gated.filter fun c => c != core
            wakes := (s.dev.wakes.filter fun w => s.now < w.2 + 1700) ++ [(core, s.now)] } }

/-- Whether a job has its issue clocks withheld. -/
def State.jobWithheld (s : State) (b : Block) : Bool := s.jobs.any fun j => j.pid == b.pid && j.rcb == b.eff.job && j.withheld
/-- The jobs of the lowest priority among those that run and are not withheld yet have their issue clocks withheld (R360). -/
def State.withhold (s : State) : State :=
  match leastBy (fun (b : Block) => b.eff.prio) (s.blocks.filter fun b => b.st == .running && !s.jobWithheld b) with
  | none => s
  | some b =>
    { s with jobs := s.jobs.map fun j =>
        if s.blocks.any fun k => k.st == .running && k.pid == j.pid && k.eff.job == j.rcb && k.eff.prio == b.eff.prio then { j with withheld := true } else j }
/-- THERMAL_THROTTLE: a die reaches its throttle point, or stands there still, or leaves it (R403). -/
def execThermalThrottle (die : Nat) (on : Bool) (s : State) : Host.Outcome State Fault Refusal :=
  .next <|
    let hot := s.dev.hotDies.filter fun d => d != die
    if on then { s with dev := { s.dev with hotDies := hot ++ [die] } }.withhold
    else
      let s := { s with dev := { s.dev with hotDies := hot } }
      if hot.isEmpty then { s with jobs := s.jobs.map fun j => { j with withheld := false } } else s

/-- THERMAL_SHUTDOWN: firmware stops every partition, kills its blocks and reports the event (R403); the cause of these
records is a free value (DESIGN CHOICE, log entry 50). -/
def execThermalShutdown (die : Nat) (s : State) : Host.Outcome State Fault Refusal :=
  .next <|
    let (w, s) := s.free
    let cause : BitVec 8 := w.setWidth 8
    let s := s.blocks.foldl (fun s b => s.killBlock b.id (blockRec b cause)) s
    State.emit { s with parts := s.parts.map fun p => { p with stopped := true } } (.event die)

end Sys2Proof.Machine
end

