-- ==== Sys2Proof/Machine/System.lean ====
section
/-! DEFINITION. Counted and token waits, idempotent regions, system registers, TLBI, TRIG and MARK (spec 09_control R110 to R121). -/
namespace Sys2Proof.Machine

/-! ### Waits -/

/-- Whether every counter is at or below its limit (R110). -/
def Group.within (g : Group) (ld st cp sy : Nat) : Bool := g.ld ≤ ld && g.stc ≤ st && g.cp ≤ cp && g.sy ≤ sy
/-- Whether a completion's counter is above its limit. -/
def Group.over (g : Group) (ld st cp sy : Nat) (k : Completion) : Bool :=
  match k.cnt with
  | some .ld => ld < g.ld
  | some .st => st < g.stc
  | some .cp => cp < g.cp
  | some .sy => sy < g.sy
  | none => false
/-- Completions of the variable class end, oldest first, until the limits hold (DEDUCED, log entry 9). -/
def Group.reduce (g : Group) (ld st cp sy : Nat) : Group :=
  (g.pend.filter fun k => k.due.isNone).foldl (fun g k =>
    if g.over ld st cp sy k then { g with pend := g.pend.erase k }.finish k else g) g

/-- CWAIT: the path waits for the group's counters (R110). A CWAIT of version 1 that names a counter has raised it, and lowers it
when it ends, so one that limits its own counter to 0 waits on itself (R79; DESIGN CHOICE, log entry 75). -/
def execCwait (c : UCtl) (ld st cp sy : BitVec 6) (s : State) : Host.Outcome State Fault Refusal :=
  .next (issueU (.cwait c ld st cp sy) c s fun b _ _ s =>
    let (l, t, k, y) := (ld.toNat, st.toNat, cp.toNat, sy.toNat)
    let g := s.grp.reduce l t k y
    let s := { s with grp := g }
    if g.within l t k y then (s.spend c.sched).next b
    else
      match (g.pend.find? fun e => g.over l t k y e).bind Completion.due with
      | some due => s.setGrp fun g => g.modSlot b fun p => { p with nextAt := due, wait := .room }
      | none => s.setGrp fun g => g.modSlot b fun p => { p with wait := .counters l t k y })

/-- The pending fault of the lowest token of a mask (R319). -/
def tokFaultOf (m : BitVec 8) (l : Store (BitVec 8 × Word)) : Option (Nat × BitVec 8 × Word) :=
  ((List.range 8).filter fun k => m.getLsbD k).findSome? fun k =>
    (l.find? fun e => e.1 == k).map fun e => (k, e.2.1, e.2.2)

/-- TWAIT: the path waits for tokens; the end of the wait is an acquire; a pending fault is then taken (R111,
R319). -/
def execTwait (c : UCtl) (mask : BitVec 8) (s : State) : Host.Outcome State Fault Refusal :=
  .next (issueU (.twait c mask) c s fun b p act s =>
    if s.grp.busy &&& mask = (0 : BitVec 8) then
      let s := (s.spend c.sched).acquireMe p
      match tokFaultOf mask s.grp.tokFault with
      | some (k, cause, addr) =>
        let s := s.setGrp fun g => { g with tokFault := g.tokFault.filter fun e => e.1 != k }
        s.trap (.twait c mask) cause addr act
      | none => s.next b
    else s.setGrp fun g => g.modSlot b fun p => { p with wait := .tokens mask })

/-! ### Idempotent regions (R112, R113) -/

/-- R112: a single path. -/
def Group.single (g : Group) (b : Bool) : Bool := (g.slot (!b)).isNone && g.pdepth == 0

/-- IDEM: an idempotent region begins (R112). -/
def execIdem (c : UCtl) (s : State) : Host.Outcome State Fault Refusal :=
  .next (issueU (.idem c) c s fun b p act s =>
    let s := s.spend c.sched
    if s.grp.single b then
      (s.setGrp fun g =>
        { g with idempc := p.pc.setWidth 64 ||| 1, idemMask := g.present, idemMode := p.mode }).next b
    else s.trap (.idem c) 0x11 (p.pc.setWidth 64) act)

/-- IDEND: it ends (R112). -/
def execIdend (c : UCtl) (s : State) : Host.Outcome State Fault Refusal :=
  .next (issueU (.idend c) c s fun b p act s =>
    let s := s.spend c.sched
    if s.grp.single b then (s.setGrp fun g => { g with idempc := g.idempc &&& ~~~(1 : Word) }).next b
    else s.trap (.idend c) 0x11 (p.pc.setWidth 64) act)

/-! ### System registers (R115 to R118, R137, R366) -/

/-- The trap frame of a path (R366). -/
def Group.trapFrame (g : Group) (p : Path) : Option Frame :=
  match g.frameOf p with
  | some f => if f.trap then some f else none
  | none => none
/-- The job of the issuing group. -/
def State.job (s : State) : Option Job :=
  match s.blk? s.grp.blk with
  | some b => s.jobs.find? fun j => j.pid == b.pid && j.rcb == b.eff.job
  | none => none

/-- The value of a system register for a path of the issuing group (Table 9.4). -/
def readSys (s : State) (p : Path) (r : SysReg) : Word :=
  let g := s.grp
  let frame (f : Frame → Word) : Word := match g.frameOf p with | some k => f k | none => 0
  let copy (f : Frame → Word) (w : Word) : Word := match g.trapFrame p with | some k => f k | none => w
  match r with
  | .clock => BitVec.ofNat 64 s.now
  | .allot => BitVec.ofNat 64 g.allot
  | .pstack => BitVec.ofNat 64 g.pdepth
  | .cnt => BitVec.ofNat 64 (g.ld + 2 ^ 6 * g.stc + 2 ^ 12 * g.cp + 2 ^ 18 * g.sy)
  | .tok => g.busy.setWidth 64
  | .x n => g.xr n.val
  | .fcause => copy Frame.cause g.fcause
  | .faddr => copy Frame.faddr g.faddr
  | .tcode => copy Frame.tcode g.tcode
  | .trapvec => g.trapvec
  | .dispatch => g.dispatch
  | .hop => frame Frame.hop
  | .hsa => frame Frame.hsa
  | .hsb => frame Frame.hsb
  | .hsc => frame Frame.hsc
  | .hdst => frame Frame.hdst
  | .hres => frame Frame.hres
  | .hpc => frame Frame.hpc
  | .nbase => g.nbase
  | .ntop => g.ntop
  | .nlimit => g.nlimit
  | .idempc => g.idempc
  | .savebase => g.savebase
  | .savebudget => g.savebudget
  | .energy => BitVec.ofNat 64 ((s.job.map Job.charge).getD 0)
  | .budget => BitVec.ofNat 64 (((s.blk? g.blk).map fun b => b.eff.jbudget).getD 0)
  | .gcmode => g.gcmode

/-- Bits of a register that MTS writes (Tables 9.5, 19.2, 19.4, 33.5; R6). Bits 2:0 of sys.dispatch are kept as written and read
back, and dropped where an entry is read (R133; DESIGN CHOICE, log entry 72). -/
def sysMask : SysReg → Word
  | .fcause => 0xFF
  | .tcode => 0xFFFFFFFF
  | .trapvec | .nbase | .ntop | .nlimit => 0x00FFFFFFFFFFFFF0
  | .idempc => 0x00FFFFFFFFFFFFF1
  | .savebase => 0x00FFFFFFFFFFF000
  | .savebudget => 0xFFFFFFFF
  | .gcmode => 0x6
  | .hres => 0x81FF
  | .x _ | .faddr | .dispatch => 0xFFFFFFFFFFFFFFFF
  | .clock | .allot | .pstack | .cnt | .tok | .hop | .hsa | .hsb | .hsc | .hdst | .hpc | .energy | .budget => 0

/-- Writing a system register of the issuing group from a path. -/
def writeSys (g : Group) (p : Path) (r : SysReg) (w : Word) : Group :=
  let x := w &&& sysMask r
  let copy (f : Frame → Frame) (g' : Group) : Group :=
    match g.trapFrame p, p.frame with
    | some _, some k => g.modFrame k f
    | _, _ => g'
  match r with
  | .x n => { g with x := sput 0 g.x n.val x }
  | .fcause => copy (fun f => { f with cause := x }) { g with fcause := x }
  | .faddr => copy (fun f => { f with faddr := x }) { g with faddr := x }
  | .tcode => copy (fun f => { f with tcode := x }) { g with tcode := x }
  | .trapvec => { g with trapvec := x }
  | .dispatch => { g with dispatch := x }
  | .hres =>
    match p.frame with
    | some k => g.modFrame k fun f => { f with hres := x }
    | none => g
  | .nbase => { g with nbase := x }
  | .ntop => { g with ntop := x }
  | .nlimit => { g with nlimit := x }
  | .idempc => { g with idempc := x }
  | .savebase => { g with savebase := x }
  | .savebudget => { g with savebudget := x }
  | .gcmode => { g with gcmode := x ||| (g.gcmode &&& 1) }
  | .clock | .allot | .pstack | .cnt | .tok | .hop | .hsa | .hsb | .hsc | .hdst | .hpc | .energy | .budget => g

/-- MFS: reads a system register into D, tag int (R115). -/
def execMfs (c : Ctl) (d : Reg) (r : SysReg) (s : State) : Host.Outcome State Fault Refusal :=
  .next (issue (.mfs c d r) c s fun b p act s =>
    let x := Val.int (readSys s p r)
    s.finish b c.sched .variable act (wrReg s.grp c.ix d (perLane act fun _ => x)))

/-- The fault of an MTS of sys.hres: outside a handler, or a register beyond the allotment (R137). -/
def hresFault (g : Group) (p : Path) (r : SysReg) (w : Word) : Option (BitVec 8) :=
  if r = .hres then
    match g.frameOf p with
    | none => some 0x05
    | some f =>
      let pair := if fld f.hdst 10 2 = 3 then 1 else 0
      if 16 * g.allot ≤ fld w 0 9 + pair then some 0x02 else none
  else none

/-- MTS: writes a system register from the lowest lane of Active (R115); it takes effect at once (R78). -/
def execMts (c : Ctl) (a : Reg) (r : SysReg) (s : State) : Host.Outcome State Fault Refusal :=
  .next (issue (.mts c a r) c s fun b p act s =>
    match lowest act with
    | none => (s.spend c.sched).next b
    | some l =>
      let x := rdSrc s b c.ix a.src l
      if !x.isNum then s.trapPath (.mts c a r) c.sched 0x03 (p.pc.setWidth 64) act
      else
        match hresFault s.grp p r x.pay with
        | some cause => s.trapPath (.mts c a r) c.sched cause (p.pc.setWidth 64) act
        | none =>
          let s' := s.setGrp fun g => writeSys g p r x.pay
          let s' := if s'.grp = s.grp then s' else s'.changed b
          (s'.spend c.sched).next b)

/-! ### Translation, triggers and markers -/

/-- TLBI of the whole address space (R119). -/
def execTlbiAll (c : Ctl) (s : State) : Host.Outcome State Fault Refusal :=
  .next (issue (.tlbiAll c) c s fun b _ act s =>
    let s := s.spend c.sched
    let s := if act = (0 : Mask) then s
      else match s.blk? s.grp.blk with
        | some k => s.tlbi k.aspace none
        | none => s
    s.next b)

/-- TLBI of the entry that maps one address (R119). The tag of its operand and bits 63:56 are ignored (DESIGN CHOICE, log entry
74). -/
def execTlbiPage (c : Ctl) (a : Reg) (s : State) : Host.Outcome State Fault Refusal :=
  .next (issue (.tlbiPage c a) c s fun b _ act s =>
    let s := s.spend c.sched
    let s := match lowest act, s.blk? s.grp.blk with
      | some l, some k => s.tlbi k.aspace (some (fld (rdSrc s b c.ix a.src l).pay 0 56))
      | _, _ => s
    s.next b)

/-- TRIG: a pulse of a trigger line (R120, R411). -/
def execTrig (c : Ctl) (line : BitVec 6) (s : State) : Host.Outcome State Fault Refusal :=
  .next (issue (.trig c line) c s fun b p act s =>
    let s := s.spend c.sched
    let s := if act = (0 : Mask) then s else s.pulse (some s.grp.pid) line.toNat (s.pathTrace s.grp p b 5 0 0 0)
    s.next b)

/-- MARK: a marker record when tracing is enabled for the launch (R121, Table 37.1). -/
def execMark (c : Ctl) (a : Reg) (cls : BitVec 8) (s : State) : Host.Outcome State Fault Refusal :=
  .next (issue (.mark c a cls) c s fun b p act s =>
    let s := s.spend c.sched
    let s := match lowest act, s.blk? s.grp.blk with
      | some l, some k =>
        if s.tracing k.pid k.queue then
          s.trace k.pid (s.pathTrace s.grp p b 1 cls.toNat 0 (rdSrc s b c.ix a.src l).pay)
        else s
      | _, _ => s
    s.next b)

end Sys2Proof.Machine
end

