-- ==== Sys2Proof/Machine/Preempt.lean ====
section
/-! DEFINITION. Pre-emption: stopping a block, saves, save images, discards and resumes (spec 33_faults R373 to R381, R308, R407; SVDONE, R114), retirement, lent clusters and tenant switches (R362, R382, R383, R390). -/
namespace Sys2Proof.Machine

/-! ### Stopping a block (R373, R374) -/

/-- A pending wait ends without writing, its PC at the wait; a replay stays as it is. -/
def Path.halt (p : Path) : Path :=
  match p.wait with
  | .none | .records _ => p
  | .room => { p with wait := .none }
  | .counters .. | .tokens _ | .bar _ | .prom _ =>
    { p with wait := .none, redo := none, kind := if p.hl then .handler else .normal }
/-- A group stops at an instruction boundary: what is in progress completes, so its counters are 0. -/
def Group.halt (st : GroupSt) (g : Group) : Group :=
  { g.flushAll with st := st, slot0 := g.flushAll.slot0.map Path.halt, slot1 := g.flushAll.slot1.map Path.halt, ld := 0, stc := 0, cp := 0, sy := 0 }
/-- Whether a group still has lanes to run. -/
def Group.live (g : Group) : Bool := g.st != .none && g.st != .ended
/-- The groups of a block that still have lanes to run. -/
def State.liveGroups (s : State) (id : Nat) : List Group := s.allGroups.filter fun g => g.blk == id && g.live
/-- Whether a block runs a tile stream. -/
def Block.streams (b : Block) : Bool := match b.stream with | some t => !t.stopped | none => false
/-- The stream as a save keeps it: a TLOAD in progress is abandoned, and goes on after its wait where that was over (R308). -/
def Stream.halt (t : Stream) : Stream := { t with wait := .none, copied := none, kept := [], asked := none }
/-- Whether the stream stands at an instruction boundary: no TMMA runs, and no TSTORE has written a part. -/
def State.streamIdle (s : State) (b : Block) : Bool :=
  !(b.cores.any fun c => s.busyFor b c) && (match b.stream with | some t => t.written.isEmpty | none => true)

/-- The bytes of a block's allocation, core k of its cores from key k * 2^19 on. -/
def State.takeSpd (s : State) (b : Block) : Memory × Store Tag :=
  b.spdBase.zipIdx.foldl (fun m e =>
    let lo := spdFlat e.1.1 e.1.2
    let n := b.spec.spd
    (m.1 ++ (cutRange s.spd lo n).map (fun k => (e.2 * 0x80000 + k.1, k.2)),
     m.2 ++ (cutRange s.spdTags (lo / 8) (n / 8)).map fun k => (e.2 * 0x10000 + k.1, k.2))) ([], [])

/-- R380: when every group's save is complete, the block's scratchpad is held, and its cores are free. -/
def State.finishSave (s : State) (id : Nat) : State :=
  match s.blk? id with
  | none => s
  | some b =>
    if b.st ≠ .saving ∨ !s.streamIdle b ∨ (s.liveGroups id).any (fun g => g.st != .saved) then s
    else
      let s := s.drainBlock id
      let (m, t) := s.takeSpd b
      (s.modBlk id fun b => { b with st := .held, heldOn := b.cores, heldSpd := m, heldTags := t, cores := [], spdBase := [] }).nowIdle b.cores

/-- No load of a block's groups has performed ahead of its issue any more: they stop, or go on elsewhere (R215, R224, R229). -/
def State.noEarly (s : State) (id : Nat) : State := { s with early := s.early.filter fun e => e.load.blk != id }
/-- R373, R374: a block is stopped, to be discarded when all its groups are in idempotent regions and it runs no stream,
else to be saved; `forced` makes its saves forced ones (R382). A block that is being restored is stopped after that
(DEDUCED, log entry 54). -/
def State.preempt (s : State) (forced : Bool) (id : Nat) : State :=
  match s.blk? id with
  | none => s
  | some b =>
    let gs := s.liveGroups id
    if b.st ≠ .running ∨ b.killRec.isSome ∨ !s.streamIdle b ∨ gs.any (fun g => g.st != .running) then s
    else
      let drop := !b.streams && !gs.isEmpty && gs.all fun g => g.idempc.getLsbD 0
      let s := s.freeWaiters fun w => w.blk == id
      let s := { s.noEarly id with recs := s.recs.filter fun (k : PendRec) => k.who != AgentId.stream id }
      let s := s.modGroups (fun g => g.blk == id && g.live) (Group.halt (if forced then .forced else .stopped))
      let s := s.modBlk id fun b => { b with st := if drop then .dropping else .saving, stream := b.stream.map Stream.halt }
      s.finishSave id

/-- PREEMPTION (R373, R374). -/
def execPreemption (blk : Nat) (s : State) : Host.Outcome State Fault Refusal := .next (s.preempt false blk)

/-! ### Save images (Table 33.4) -/

/-- Bytes as words. -/
def bytesWords : List Byte → List Word
  | a :: b :: c :: d :: e :: f :: g :: h :: r => BitVec.ofNat 64 (leNat [a, b, c, d, e, f, g, h]) :: bytesWords r
  | _ => []
/-- A word of zeros. -/
def zeros (n : Nat) : List Word := List.replicate n 0
/-- Up to 16 tags as nibbles, the first lowest. -/
def packTags (ts : List Tag) : Word := BitVec.ofNat 64 (ts.foldr (fun t n => t.code + 16 * n) 0)
/-- The tag in nibble k of a word. -/
def tagAt (w : Word) (k : Nat) : Tag := Tag.ofCode (fld w (4 * k) 4)
/-- Tags 0 to n - 1 as words of 16. -/
def tagWords (n : Nat) (f : Nat → Tag) : List Word :=
  (List.range (n / 16)).map fun j => packTags ((List.range 16).map fun i => f (16 * j + i))

/-- A slot: the entry of its path, or bit 3 of +24 for an empty one. -/
def slotWords : Option Path → List Word
  | some p => bytesWords p.bytes
  | none => [0, 0, 0, 8]
/-- Frame k. -/
def frameWords (g : Group) (k : Nat) : List Word :=
  match g.frames.find? fun e => e.1 == k with
  | some (_, f) =>
    [BitVec.ofNat 64 (f.joinNo + 128), f.cause, f.faddr, f.tcode, f.hop, f.hsa, f.hsb, f.hsc, f.hdst, f.hres, f.hpc] ++ zeros 5
  | none => zeros 16
/-- The words of vector register k: 32 payloads, then the tags. -/
def vecWords (g : Group) (k : Nat) : List Word :=
  (List.range 32).map (fun l => (g.vr k l).pay) ++ tagWords 32 fun l => (g.vr k l).tag

/-- Word 0 of an image. -/
def imageHead (full tile : Bool) (allot : Nat) : Word :=
  BitVec.ofNat 64 (1 + (if full then 256 else 0) + (if tile then 512 else 0) + allot * 65536)
/-- The fields up to +0x1FFF. -/
def imageFields (g : Group) (full tile : Bool) : List Word :=
  let fault (k : Nat) : BitVec 8 × Word := ((g.tokFault.find? fun e => e.1 == k).map Prod.snd).getD (0, 0)
  let faults := (List.range 8).filter fun k => g.tokFault.any fun e => e.1 == k
  let mask (k : Nat) : Nat := (g.pr k).toNat
  [imageHead full tile g.allot,
   BitVec.ofNat 64 (g.busy.toNat + 256 * (faults.map fun k => 2 ^ k).sum),
   g.present.setWidth 64, g.idempc,
   g.fcause, g.faddr, g.tcode, g.trapvec, g.dispatch, g.nbase, g.ntop, g.nlimit, g.savebudget, g.gcmode, 0, 0] ++
  (List.range 8).flatMap (fun k => [(fault k).1.setWidth 64, (fault k).2]) ++
  slotWords g.slot0 ++ slotWords g.slot1 ++ [BitVec.ofNat 64 g.pdepth] ++ zeros 23 ++
  (List.range 8).flatMap (frameWords g) ++
  (List.range 12).map (fun k => BitVec.ofNat 64 (mask (2 * k) + 2 ^ 32 * mask (2 * k + 1))) ++ zeros 4 ++
  (List.range 8).map g.xr ++ zeros 8 ++
  (List.range 64).map (fun k => (g.gr k).pay) ++ tagWords 64 (fun k => (g.gr k).tag) ++ zeros 732

/-- Words at a virtual address of a block's address space, written by the save from a die; a word whose page does not take it is
lost, for the runtime must map the area (DEDUCED, log entry 55). -/
def State.putImage (s : State) (die aspace : Nat) : Nat → List Word → State
  | _, [] => s
  | va, x :: r =>
    let s := match s.devHome die aspace va .write with
      | .home h => s.landRaw h x
      | .missing | .fault _ => s
    s.putImage die aspace (va + 8) r
/-- Words read back; one whose page cannot be read is a free value. -/
def State.getImage (s : State) (die aspace va n : Nat) : List Word × State :=
  ((List.range n).map fun k =>
    match s.devHome die aspace (va + 8 * k) .read with
    | .home h => (s.homeWord h).pay
    | .missing | .fault _ => Config.freeWord (s.freeCtr + k), { s with freeCtr := s.freeCtr + n })

/-- The slot state that an entry gives for lanes of a group, with what the machine kept of the saved path (its replay, its
records, its hold). -/
def slotPath (now : Nat) (all : Mask) (old : Option Path) (ws : List Word) : Option Path :=
  let w (k : Nat) : Word := ws.getD k 0
  let kind := fld (w 3) 0 2
  if (w 3).getLsbD 3 ∨ kind = 3 then none
  else
    let mask : Mask := (w 2).setWidth 32 &&& all
    let no := if (w 3).getLsbD 15 then none else some (fld (w 3) 8 6)
    let fr := if (w 3).getLsbD 23 then some (fld (w 3) 16 3) else none
    let p := Path.fresh (codeAddr (w 0)) (codeAddr (w 1)) mask (kind == 1 || (w 3).getLsbD 2) (if (w 3).getLsbD 4 then .runtime else .user) no fr now
    let redo : Redo := ((old.bind Path.redo).getD { what := .instr, active := mask, pmask := 0, bad := [], got := [], raises := [], stop := none })
    let p := if kind = 2 then
        { p with kind := .replay, redo := some { redo with pmask := BitVec.ofNat 32 (fld (w 2) 32 32) }, wait := (old.map Path.wait).getD .none }
      else { p with kind := if kind = 1 then .handler else .normal }
    some { p with held := (old.map Path.held).getD false, heldBrk := (old.map Path.heldBrk).getD false,
                  stopReq := old.bind Path.stopReq, pass := (old.map Path.pass).getD false }
/-- A frame that an image gives, its reserved bits 0 (R6); whether it is a trap frame the machine has kept. -/
def imageFrame (g : Group) (k : Nat) (ws : List Word) : Store Frame :=
  let w (i : Nat) : Word := ws.getD i 0
  if (w 0).getLsbD 7 then
    let trap := match g.frames.find? fun e => e.1 == k with | some (_, f) => f.trap | none => false
    let hs : Word := 0xFFFFFFFF00000FFF
    [(k, ⟨fld (w 0) 0 6, trap, w 1 &&& sysMask .fcause, w 2, w 3 &&& sysMask .tcode, w 4 &&& 0x000000FF000FF3FF, w 5 &&& hs, w 6 &&& hs,
      w 7 &&& hs, w 8 &&& 0xFFF, w 9 &&& sysMask .hres, w 10 &&& 0x00FFFFFFFFFFFFF0⟩)]
  else []
/-- A register's value from an image: canonical (R25), and raw where the image names a tag that no register holds (R27; DESIGN
CHOICE, log entry 55). -/
def loadVal (t : Tag) (x : Word) : Val :=
  match t with
  | .fwd | .pend | .link | .res14 | .res15 => .raw x
  | .raw | .int | .f64 | .f32 | .f16 | .bf16 | .bool | .nil | .sym | .ref | .hnd => canon t x
/-- A register's lanes as an image holds them. -/
def Group.loadVec (g : Group) (k : Nat) (ws : List Word) : Group :=
  g.wrs ((List.range 32).map fun l => .v k l (loadVal (tagAt (ws.getD (32 + l / 16) 0) (l % 16)) (ws.getD l 0)))
/-- A group with the fields up to +0x1FFF and v0 to v(n-1) of an image, running again from its slots (R381). A token whose card
has completed meanwhile is complete, with the fault that is pending with it (R341). -/
def Group.load (g : Group) (now n : Nat) (ws : List Word) : Group :=
  let w (k : Nat) : Word := ws.getD k 0
  let cut (k m : Nat) : List Word := (ws.drop k).take m
  let tf := (List.range 8).filterMap fun k =>
    if (w 1).getLsbD (8 + k) then some (k, ((w (16 + 2 * k)).setWidth 8, w (17 + 2 * k)))
    else if (w 1).getLsbD k then (keyGet g.tokFault k).map fun f => (k, f)
    else none
  let g := { g with
    st := .running, pend := [], ld := 0, stc := 0, cp := 0, sy := 0, saveFrom := none, saveFrozen := 0, saveAt := none
    saved0 := none, saved1 := none, stack := g.under, under := []
    slot0 := slotPath now g.all g.saved0 (cut 32 4), slot1 := slotPath now g.all g.saved1 (cut 36 4)
    frames := (List.range 8).flatMap fun k => imageFrame g k (cut (64 + 16 * k) 16)
    busy := (w 1).setWidth 8 &&& g.busy, tokFault := tf, present := (w 2).setWidth 32 &&& g.all, idempc := w 3 &&& sysMask .idempc
    fcause := w 4 &&& sysMask .fcause, faddr := w 5, tcode := w 6 &&& sysMask .tcode, trapvec := w 7 &&& sysMask .trapvec
    dispatch := w 8, nbase := w 9 &&& sysMask .nbase, ntop := w 10 &&& sysMask .ntop, nlimit := w 11 &&& sysMask .nlimit
    savebudget := w 12 &&& sysMask .savebudget, gcmode := w 13 &&& 7 }
  let ps := (List.range 24).flatMap fun k =>
    let m : Mask := BitVec.ofNat 32 (fld (w (192 + k / 2)) (32 * (k % 2)) 32)
    (List.range 32).map fun l => RegWrite.p k l ((m &&& g.all).getLsbD l)
  let gs := (List.range 64).map fun k => RegWrite.g k (loadVal (tagAt (w (288 + k / 16)) (k % 16)) (w (224 + k)))
  let xs := (List.range 8).foldl (fun x k => sput 0 x k (w (208 + k))) g.x
  let g := { g with x := xs }.wrs (ps ++ gs)
  (List.range n).foldl (fun g k => g.loadVec k (cut (1024 + 34 * k) 34)) g

/-! ### Saving (R376 to R380) -/

/-- Whether a command of a group is in flight (R320). -/
def State.groupCmds (s : State) (blk grp : Nat) : Bool := s.cmds.any fun c => c.owner == some (blk, grp)
/-- The fields up to +0x1FFF and v0 to v7 are written, and the paths leave the slots. -/
def State.saveFields (s : State) (b : Block) (g : Group) (full : Bool) : State :=
  let die := g.core / 72
  let s := (s.putImage die b.aspace g.savebase.toNat (imageFields g full b.stream.isSome)).putImage die b.aspace
    (g.savebase.toNat + 0x2000) ((List.range (min 8 (16 * g.allot))).flatMap (vecWords g))
  s.modGrp b.id g.grp fun g =>
    { g with saveAt := some g.savebase, saved0 := g.slot0, saved1 := g.slot1, slot0 := none, slot1 := none,
             under := g.stack, stack := [], saveFrom := none, saveFrozen := 0 }

/-- FORCED_FULL_SAVE (R379): v8 and above are written and FULL is set, once the group's commands have completed and its
stores are registered. -/
def execForcedFullSave (blk grp : Nat) (s : State) : Host.Outcome State Fault Refusal :=
  .next <|
    match s.grp? blk grp, s.blk? blk with
    | some g, some b =>
      if g.st ≠ .forced ∨ b.st ≠ .saving ∨ b.killRec.isSome ∨ s.groupCmds blk grp then s
      else
        let s := s.drainGroup blk grp
        let s := match g.saveAt with | some _ => s | none => s.saveFields b g true
        let base := (g.saveAt.getD g.savebase).toNat
        let rest := (List.range (16 * g.allot - 8)).flatMap fun k => vecWords g (k + 8)
        let die := g.core / 72
        let s := (s.putImage die b.aspace (base + 0x2000 + 272 * 8) rest).putImage die b.aspace base
          [imageHead true b.stream.isSome g.allot]
        (s.modGrp blk grp fun g => { g with st := .saved }).finishSave blk
    | _, _ => s

/-- COOPERATIVE_SAVE (R377): the drain, the fields and v0 to v7, and the save handler's path; a BUDGET or a SAVEH of 0
makes it a forced full save. -/
def execCooperativeSave (blk grp : Nat) (s : State) : Host.Outcome State Fault Refusal :=
  match s.grp? blk grp, s.blk? blk with
  | some g, some b =>
    if g.st ≠ .stopped ∨ b.st ≠ .saving ∨ b.killRec.isSome ∨ s.groupCmds blk grp then .next s
    else
      let h := codeAddr b.eff.saveh
      if fld g.savebudget 0 32 = 0 ∨ h = (0 : BitVec 56) then
        execForcedFullSave blk grp (s.modGrp blk grp fun g => { g with st := .forced })
      else
        let s := (s.drainGroup blk grp).saveFields b g false
        .next (s.modGrp blk grp fun g =>
          { g with st := .saving, slot0 := some (Path.fresh h 0 g.present true .runtime none none s.now) })
  | _, _ => .next s

/-- The end of a save handler that has run past its budget, frozen time not counted (R378, R379). -/
def State.overBudget (s : State) (blk grp : Nat) : State :=
  match s.grp? blk grp with
  | none => s
  | some g =>
    let frozen := ((s.blk? blk).bind Block.frozenAt).isSome
    match g.saveFrom with
    | none => s
    | some t =>
      if g.st ≠ .saving ∨ frozen ∨ s.now ≤ t + g.saveFrozen + fld g.savebudget 0 32 then s
      else s.leaveHandler blk grp .forced
/-- SAVE_BUDGET_EXPIRY (R378, R379); a budget also runs out by the clock (log entry 14). -/
def execSaveBudgetExpiry (blk grp : Nat) (s : State) : Host.Outcome State Fault Refusal := .next (s.overBudget blk grp)

/-! ### Records of a path or a stream (R371, R372) -/

/-- A path whose records are all resolved is eligible again; lanes whose record was resolved unmappable are kept with its page
(DEDUCED, log entry 56). -/
def State.settlePath (s : State) (blk grp : Nat) (b : Bool) : State :=
  match (s.grp? blk grp).bind fun g => g.slot b with
  | none => s
  | some p =>
    match p.wait with
    | .records l =>
      let of_ (uid : Nat) : Option PendRec := s.recs.find? fun k => k.uid == uid
      let open_ := l.any fun e => match of_ e.1 with | some k => k.res == 0 | none => false
      if open_ then s
      else
        let dead (fetch : Bool) : Dead := l.filterMap fun e =>
          match of_ e.1 with
          | some k => if k.res = 2 ∧ k.record.flags.getLsbD 3 = fetch then some (e.2, k.record.faddr.toNat / 0x10000) else none
          | none => none
        let uids := l.map Prod.fst
        let s := { s with recs := s.recs.filter fun k => !uids.contains k.uid }
        s.modGrp blk grp fun g => g.modSlot b fun p =>
          { p with wait := .none,
                   redo := p.redo.map fun r => { r with bad := r.bad ++ dead false, noFetch := r.noFetch || !(dead true).isEmpty } }
    | _ => s
/-- A stream whose records are all resolved goes on; one that was resolved unmappable is its fault. -/
def State.settleStream (s : State) (id : Nat) : State :=
  match (s.blk? id).bind Block.stream with
  | none => s
  | some t =>
    match t.wait with
    | .records l =>
      let mine := s.recs.filter fun k => l.contains k.uid
      if mine.any fun k => k.res == 0 then s
      else
        let bad := (mine.find? fun k => k.res == 2).map fun k =>
          (k.record.faddr.toNat, k.record.flags.getLsbD 2, k.record.flags.getLsbD 3)
        let s := { s with recs := s.recs.filter fun k => !l.contains k.uid }
        s.modStream id fun t => { t with wait := .none, bad := bad }
    | _ => s

/-! ### Resuming (R381, R372, R229) -/

/-- A group goes on after a load: a path that was released at its BRK passes it, and paths whose records are resolved are
eligible. -/
def State.goOn (s : State) (blk grp : Nat) : State :=
  let pass (b : Bool) (s : State) : State :=
    match (s.grp? blk grp).bind fun g => g.slot b with
    | some p =>
      if p.heldBrk && !p.held then
        s.modGrp blk grp fun g => (g.modSlot b fun p => { p with heldBrk := false, pc := p.pc + 16 }).arrive s.now b
      else s.settlePath blk grp b
    | none => s
  pass true (pass false s)
/-- The load of an image: the whole of it, or what the hardware loads after a restore path. -/
def State.loadGroup (s : State) (b : Block) (g : Group) (all : Bool) : State :=
  let n := if all then 16 * g.allot else min 8 (16 * g.allot)
  let (ws, s) := s.getImage (g.core / 72) b.aspace (g.saveAt.getD g.savebase).toNat (1024 + 34 * n)
  (s.modGrp b.id g.grp fun g => g.load s.now n ws).goOn b.id g.grp

/-- SVDONE (R114): it ends the save, or the restore, of the group once the commands of the handler have completed
(DEDUCED, log entry 57). -/
def execSvdone (c : UCtl) (s : State) : Host.Outcome State Fault Refusal :=
  .next (issueU (.svdone c) c s fun b p act s =>
    let s := s.spend c.sched
    let id := s.grp.blk
    let n := s.grp.grp
    if p.joinNo.isSome || !(s.grp.st == .saving || s.grp.st == .restoring) then s.trap (.svdone c) 0x11 (p.pc.setWidth 64) act
    else if s.groupCmds id n then s.setGrp fun g => g.modSlot b fun p => { p with wait := .room }
    else
      let s := s.drainGroup id n
      if s.grp.st = .saving then (s.leaveHandler id n .saved).finishSave id
      else
        let s := s.leaveHandler id n .restoring
        match s.blk? id with
        | some k => s.loadGroup k s.grp false
        | none => s)

/-- Every register reads nil, every predicate and index register 0. -/
def Group.blank (g : Group) : Group := { g with v := [], g := [], p := [], x := [], pend := [], ld := 0, stc := 0, cp := 0, sy := 0 }
/-- R113, Table 9.3: a group as it restarts at its idempotent region. Where a runtime MTS has set sys.idempc.IN and no IDEM has
been executed, lanes and mode are those of the last IDEM, or no lane and user mode (DESIGN CHOICE, log entry 73). -/
def Group.restart (now : Nat) (g : Group) : Group :=
  { g.blank with
    st := .running, present := g.idemMask, busy := 0, tokFault := [], stack := [], under := [], frames := []
    slot0 := some (Path.fresh (codeAddr g.idempc) 0 g.idemMask false g.idemMode none none now), slot1 := none
    saved0 := none, saved1 := none, saveAt := none, saveFrom := none, saveFrozen := 0 }
/-- A saved group as its restore starts: the restore path, with every register nil (R381). -/
def Group.restoring (saveh : Word) (now : Nat) (g : Group) : Group :=
  { g.blank with
    st := .restoring, stack := [], slot1 := none
    slot0 := some (Path.fresh (codeAddr saveh + 16) 0 g.present true .runtime none none now) }

/-- The rotation pointer of a block's launch or node. -/
def State.pointerOf (s : State) (b : Block) : Nat :=
  match b.origin with
  | .grid l _ _ _ _ => ((s.launches.find? fun k => k.id == l).map Launch.pointer).getD 0
  | .node id _ _ _ _ => ((s.node? id).map Node.pointer).getD 0
/-- Moving that pointer. -/
def State.movePointer (s : State) (b : Block) (n : Nat) : State :=
  match b.origin with
  | .grid l _ _ _ _ => s.modLaunch l fun k => { k with pointer := n }
  | .node id _ _ _ _ => s.modNode id fun k => { k with pointer := n }

/-- The partitions of the groups of a saved block on each chosen core: the groups that shared a part of its scratchpad allocation
stay together, in the order of the cores they left (DEDUCED, log entry 58). -/
def State.heldPlace (s : State) (b : Block) (cores : List Nat) : Option (List (Nat × List (Nat × Nat))) :=
  if cores.length ≠ b.heldOn.length then none
  else
    (cores.zip b.heldOn).foldr (fun e acc =>
      match acc with
      | none => none
      | some l =>
        let gs := (s.liveGroups b.id).filter fun g => g.core == e.2
        let ps := s.fitCore b.spec b.eff e.1 gs.length
        if ps.length < gs.length ∨ (s.spdPlace e.1 b.spec.spd).isNone then none
        else some ((e.1, (gs.map Group.grp).zip ps) :: l)) (some [])
/-- A number among others, in ascending order. -/
def insNat (x : Nat) : List Nat → List Nat
  | [] => [x]
  | y :: r => if x ≤ y then x :: y :: r else y :: insNat x r
/-- Numbers dealt to the partitions of cores in turn. -/
def dealTo : List Nat → List (Nat × List Nat) → List (Nat × List (Nat × Nat))
  | _, [] => []
  | gs, (c, ps) :: r => (c, (gs.take ps.length).zip ps) :: dealTo (gs.drop ps.length) r
/-- The partitions of the groups of a block that restarts: one core that holds them all, or as few cores of the cluster as hold
them, filled in ascending group number (R356, R357). -/
def State.restartPlace (s : State) (b : Block) (cores : List Nat) : Option (List (Nat × List (Nat × Nat))) :=
  let gs := ((s.liveGroups b.id).map Group.grp).foldl (fun l n => insNat n l) []
  let n := gs.length
  let usable := (s.rotation b.pid b.eff).filter (sameCluster (cores.headD 0))
  let caps := usable.map fun d => (s.fitCore b.spec b.eff d n).length
  let m := if n ≤ b.spec.perCore then some 1 else (List.range 9).find? fun m => n ≤ bestSum m caps
  if m ≠ some cores.length then none
  else
    match s.fillCores b.spec b.eff cores n cores.length with
    | some l => if l.length = cores.length then some (dealTo gs l) else none
    | none => none
/-- The partitions of the groups on each chosen core; none when the dispatcher may not place the block there (R355 to R357,
R375, R381). -/
def State.resumePlace (s : State) (b : Block) (cores : List Nat) : Option (List (Nat × List (Nat × Nat))) :=
  let rot := s.rotation b.pid b.eff
  let c := cores.headD 0
  let old := b.heldOn.headD 0
  let ok := !cores.isEmpty && decide cores.Nodup && cores.all rot.contains && cores.all (sameCluster c) &&
    (windowOf (s.pointerOf b) rot).contains c && s.coreCapOk b.pid b.eff cores && (!b.eff.pin || c / 72 == old / 72) && s.placing b.pid
  if !ok then none
  else if b.st = .restart then s.restartPlace b cores
  else s.heldPlace b cores

/-- The bytes that a block held return to its allocation on core k of its cores. -/
def State.giveSpd (s : State) (b : Block) : State :=
  b.spdBase.zipIdx.foldl (fun s e =>
    let lo := spdFlat e.1.1 e.1.2
    let n := b.spec.spd
    let s := s.clearSpd lo n
    { s with
      spd := (cutRange b.heldSpd (e.2 * 0x80000) n).foldl (fun m k => sput 0 m (lo + k.1) k.2) s.spd
      spdTags := (cutRange b.heldTags (e.2 * 0x10000) (n / 8)).foldl (fun m k => sput .raw m (lo / 8 + k.1) k.2) s.spdTags }) s

/-- RESUME (R381): a saved block is restored on the chosen cores, or a discarded one restarts there (R375). -/
def execResume (blk : Nat) (cores : List Nat) (s : State) : Host.Outcome State Fault Refusal :=
  .next <|
    match s.blk? blk with
    | none => s
    | some b =>
      if (b.st ≠ .held ∧ b.st ≠ .restart) ∨ b.killRec.isSome then s
      else
        match s.resumePlace b cores, s.withWindow b.pid b.eff (cores.headD 0 / 72) with
        | some pl, some s =>
          let old := b.st
          let b : Block := { b with
            cores := cores, spdBase := cores.map fun c => (c, (s.spdPlace c b.spec.spd).getD 0), st := .running, order := s.uid }
          let s := { s with uid := s.uid + 1 }
          let s := s.modBlk blk fun _ => { b with heldOn := [], heldSpd := [], heldTags := [] }
          let s := if old = .held then s.giveSpd b else s.initSpd b
          let s := cores.foldl (fun s c =>
            let s := s.acquire c
            { s with icopies := s.icopies.filter fun k => k.1 / 2 ^ 49 != c }) (s.noEarly blk)
          let s := (s.movePointer b (cores.headD 0 + 1)).modPart b.pid fun k => { k with lastCore := some (cores.headD 0) }
          pl.foldl (fun s e => e.2.foldl (fun s k =>
            let s := s.modGrp blk k.1 fun g => { g with core := e.1, part := k.2, age := s.now }
            match s.grp? blk k.1 with
            | none => s
            | some g =>
              if old = .restart then s.modGrp blk k.1 (Group.restart s.now)
              else
                let (head, s) := s.getImage (g.core / 72) b.aspace (g.saveAt.getD g.savebase).toNat 1
                if (head.headD 0).getLsbD 8 then s.loadGroup b g true
                else s.modGrp blk k.1 (Group.restoring b.eff.saveh s.now)) s) s
        | _, _ => s

/-! ### Discarding (R375) -/

/-- DISCARD (R375, R372, R407): once its commands have completed, the block's stores are registered and its allocation is
dropped; it waits to be placed again. -/
def execDiscard (blk : Nat) (s : State) : Host.Outcome State Fault Refusal :=
  .next <|
    match s.blk? blk with
    | none => s
    | some b =>
      if b.st ≠ .dropping ∨ b.killRec.isSome ∨ s.cmdsOf blk then s
      else
        let s := s.drainBlock blk
        let s := s.endHolds blk 0
        let s := { s with recs := s.recs.filter fun k => !ofBlock k.who blk }
        let s := s.modGroups (fun g => g.blk == blk && g.live) fun g =>
          { g with st := .discarded, slot0 := none, slot1 := none, stack := [], frames := [] }
        let s := s.modBlk blk fun b => { b with st := .restart, heldOn := b.cores, cores := [], spdBase := [] }
        (s.thaw b).nowIdle b.cores

/-! ### Retired cores, lent clusters and slices (R382, R362, R383, R390) -/

/-- A save that has begun becomes a forced one. -/
def State.forceSaves (s : State) (id : Nat) : State :=
  (s.liveGroups id).foldl (fun s g =>
    if g.st = .saving then s.leaveHandler id g.grp .forced
    else if g.st = .stopped then s.modGrp id g.grp fun g => { g with st := .forced }
    else s) s
/-- Table 35.4: a core that holds no block is scrubbed; its L1 gives back the host lines it holds (R220). -/
def State.scrub (s : State) (core : Nat) : State :=
  let mine {α : Type} (e : Nat × α) : Bool := e.1 / 2 ^ 49 == core
  let s := s.clearSpd (spdFlat core 0) 0x80000
  let lines := ((s.hostLines.filter mine).map fun e => e.1 % 2 ^ 49).eraseDups
  let s := lines.foldl (fun s l => s.evictLine core l) s
  { s with
    l1 := s.l1.filter fun e => !mine e
    hdr := s.hdr.filter fun e => e.core != core
    icopies := s.icopies.filter fun e => !mine e
    hostLines := s.hostLines.filter fun e => !mine e
    own := s.own.filter fun e => e.2 != core + 1
    tlb := s.tlb.filter fun e => e.core != core
    tiles := sput Tile.off s.tiles core { s.tile core with blk := 0, acc := 0, before := none, after := [], reran := false, pc := 0 } }

/-- The spares of a die in use (Table 35.7). -/
def State.sparesUsed (s : State) (die : Nat) : Nat := (s.dev.spareMap.filter fun e => e.1 < 288 && e.1 / 72 == die).length
/-- CORE_RETIREMENT (R382): the blocks of a core are pre-empted with forced full saves, or, where it cannot complete
one, killed with records of kind 10. When the retired core holds no block any more, a spare of its die takes its number
(R401, R11) (DEDUCED, log entry 59). -/
def execCoreRetirement (core : Nat) (canSave : Bool) (s : State) : Host.Outcome State Fault Refusal :=
  .next <|
    let bs := s.coreBlocks core
    let used := s.sparesUsed (core / 72)
    if 288 ≤ core then s
    else if s.dev.retired.contains core && bs.isEmpty then
      if 4 ≤ used then s
      else
        let s := s.scrub core
        { s with dev := { s.dev with retired := s.dev.retired.filter fun c => c != core, spareMap := s.dev.spareMap ++ [(core, used)] } }
    else
      let s := { s with dev := { s.dev with retired := if s.dev.retired.contains core then s.dev.retired else s.dev.retired ++ [core] } }
      if canSave then bs.foldl (fun s b => (s.preempt true b.id).forceSaves b.id) s
      else
        let s := { s with stores := s.stores.filter fun p => p.core != core && !(bs.any fun b => b.id == p.blk) }
        let r (b : Block) : FaultRec := { blockRec b 0x00 with kind := 10, core := core, die := core / 72 }
        -- each of them gets its own record, before one of them can stop another as its mate (R368)
        let s := bs.foldl (fun s b => s.killBlock b.id (r b)) (bs.foldl (fun s b => s.stopBlock b.id (r b)) s)
        s.clearSpd (spdFlat core 0) 0x80000

/-- CLUSTER_RECLAIM (R362): the tenant whose slice a lent cluster lies in needs it; the blocks of others are pre-empted. -/
def execClusterReclaim (core : Nat) (s : State) : Host.Outcome State Fault Refusal :=
  .next <|
    match s.dev.slices.find? fun e => e.1 == core with
    | none => s
    | some (_, owner, _) =>
      let bs := s.blocks.filter fun b => b.eff.tenant != owner && b.cores.any (sameCluster core)
      bs.foldl (fun s b => s.preempt false b.id) s

/-- TENANT_SWITCH (R383, R390): the slice of other tenants on some cores ends. Their blocks are pre-empted and nothing is
placed there until every save and discard is complete; the step that finds it complete scrubs the cores and gives them
to the next tenant (DESIGN CHOICE, log entry 51). -/
def execTenantSwitch (tenant : Nat) (cores : List Nat) (s : State) : Host.Outcome State Fault Refusal :=
  .next <|
    let begun := cores.all fun c => s.dev.slices.any fun e => e.1 == c && e.2.1 == tenant && e.2.2
    let others := s.blocks.filter fun b => b.eff.tenant != tenant && b.cores.any cores.contains
    let set_ (pending : Bool) (s : State) : State :=
      { s with dev := { s.dev with slices :=
          (s.dev.slices.filter fun e => !cores.contains e.1) ++ cores.map fun c => (c, tenant, pending) } }
    if begun && others.isEmpty then
      set_ false (cores.foldl (fun s c => if (s.coreBlocks c).isEmpty then s.scrub c else s) s)
    else others.foldl (fun s b => s.preempt false b.id) (set_ true s)

end Sys2Proof.Machine
end

