-- ==== Sys2Proof/Machine/Faults.lean ====
section
/-! DEFINITION. Missing translations and their resolution, fault records, kills, and the end of a pending register write (spec 33_faults R364 to R372, R79). -/
namespace Sys2Proof.Machine

/-! ### Missing translations (R371) -/

/-- TRANSLATION_MISS: an agent's access to a page that is not mapped writes its record; a path or a stream waits and
repeats its instruction, another agent waits (R371) (DEDUCED, log entry 60). -/
def execTranslationMiss (who : AgentId) (aspace va : Nat) (write fetch : Bool) (s : State) : Host.Outcome State Fault Refusal :=
  .next <|
    if s.walk aspace va ≠ .missing then s
    else
      match who with
      | .path blk grp b =>
        match s.grp? blk grp, s.blk? blk with
        | some g, some k =>
          match g.slot b with
          | some p =>
            if k.aspace ≠ aspace ∨ !g.runs ∨ p.redo.isSome ∨ p.wait ≠ .none ∨ p.held then s
            else
              (s.focus blk grp).replay b
                { what := .fetch, active := p.mask, pmask := 0, bad := [], got := [], raises := [], stop := none }
                [(va / 0x10000, va, p.mask, write)] fetch
          | none => s
        | _, _ => s
      | .stream id =>
        match s.blk? id with
        | some k =>
          match k.stream with
          | some t => if k.aspace ≠ aspace ∨ t.stopped ∨ t.wait ≠ .none then s else s.streamMiss id fetch [(va, write)]
          | none => s
        | none => s
      | .engine n =>
        match s.cmds.find? fun c => c.id == n with
        | some c => if c.aspace ≠ aspace ∨ c.failed.isSome then s else s.cmdMiss c va write
        | none => s
      | .caller n =>
        match s.node? n with
        | some k => if k.aspace ≠ aspace then s else s.missFor who k.pid (k.recOf 1 0 0 va)
        | none => s
      | .packet q i =>
        match s.queue? q with
        | some k => if k.aspace ≠ aspace ∨ (k.packet? i).isNone then s else s.missFor who k.pid (k.recOf i 1 0 va write)
        | none => s

/-- The physical address of RESOLVE of record i of a partition's ring, where the record stands in its own memory (R391). -/
def State.resolvePA (s : State) (p : Partition) (i : Nat) : Option Nat :=
  let a := s.ringSlot p.fqcb i
  if s.ringOwn p.id a then some (a + 56) else none
/-- RESOLVE of record i. -/
def State.resolveOf (s : State) (p : Partition) (i : Nat) : Nat := ((s.resolvePA p i).map fun a => s.physNat a 4).getD 0

/-- MAPPING_STEP: firmware walks a record's page again. A valid leaf resolves every pending record of the page and
address space, those whose RESOLVE is still 0; otherwise the partition's pager is raised (R371). -/
def execMappingStep (part rec_ : Nat) (s : State) : Host.Outcome State Fault Refusal :=
  .next <|
    match s.part? part, s.recs.find? fun k => k.uid == rec_ && k.part == part with
    | some p, some r =>
      if r.idx.isNone ∨ r.res ≠ 0 then s
      else if s.walk r.record.aspace r.record.faddr.toNat = .missing then s.raiseVec 0 (s.fqVec p.fqcb)
      else
        let same (k : PendRec) : Bool :=
          k.part == part && k.record.aspace == r.record.aspace && k.record.faddr.toNat / 0x10000 == r.record.faddr.toNat / 0x10000 &&
            k.res == 0 && (match k.idx with | some i => s.resolveOf p i == 0 | none => false)
        (((s.recs.filter same).filterMap PendRec.idx).filterMap (s.resolvePA p)).foldl (fun s a => s.putNat a 4 1) s
    | _, _ => s

/-- RESOLVE as the device reads it in the records of an agent. -/
def State.observe (s : State) (who : AgentId) : State :=
  { s with recs := s.recs.map fun k =>
      if k.who = who then
        match s.part? k.part, k.idx with
        | some p, some i =>
          let r := s.resolveOf p i
          { k with res := if r = 1 ∨ r = 2 then r else k.res }
        | _, _ => k
      else k }
/-- RESOLVE_OBSERVED: the device observes the RESOLVE of an agent's records; once all are resolved, the agent goes on
(R371, R372). -/
def execResolveObserved (who : AgentId) (s : State) : Host.Outcome State Fault Refusal :=
  .next <|
    let s := s.observe who
    match who with
    | .path blk grp b => s.settlePath blk grp b
    | .stream id => s.settleStream id
    | .engine _ | .caller _ | .packet _ _ => s

/-- FAULT_RECORD_WRITE: records of kind 1 that waited for room are written while there is room; a record of another kind
is written, or dropped, where it arises (R369, R370). -/
def execFaultRecordWrite (part : Nat) (s : State) : Host.Outcome State Fault Refusal := .next (s.recordRoom part)

/-- KILL: a block is killed (R368); BLOCK_END writes its record and frees its resources. -/
def execKill (blk : Nat) (cause : BitVec 8) (s : State) : Host.Outcome State Fault Refusal :=
  .next <|
    match s.blk? blk with
    | some b => s.killBlock blk (blockRec b cause)
    | none => s

/-! ### The end of an instruction's latency (R78, R79) -/

/-- INSTRUCTION_COMPLETION: the k-th pending result of a group takes effect and its counter falls: one of the variable
class at any time, one of a fixed latency when it is due. -/
def execInstructionCompletion (blk grp k : Nat) (s : State) : Host.Outcome State Fault Refusal :=
  .next <|
    s.modGrp blk grp fun g =>
      match takeAt g.pend k with
      | none => g
      | some (c, rest) =>
        match c.due with
        | some t => if t ≤ s.now then { g with pend := rest }.finish c else g
        | none => { g with pend := rest }.finish c

end Sys2Proof.Machine
end

