-- ==== Sys2Proof/Machine/Firmware.lean ====
section
/-! DEFINITION. What firmware does for physical function 0 and the security domain: bring-up and images (R399, R403), attestation (R400), interfaces (R394), partitions, address spaces and region blocks (R384, R369, R351, R428), relocation and migration (R389, R397), failed parts (R401, R402). -/
namespace Sys2Proof.Machine

/-! ### Bring-up, images, attestation -/

/-- R31: a tagged region is a multiple of 64 MiB up to 240 GiB, and fits its die with its tag storage. The firmware's reservation,
whose size the spec does not give, is taken as 0 (DESIGN CHOICE, log entry 77). -/
def regionOk (n : Nat) : Bool := n % 0x4000000 == 0 && n ≤ 0x3C00000000 && n + n / 16 ≤ 0x4000000000
/-- Parts replaced at boot: the k-th of each kind takes spare k of its die or stack while there is one (Table 35.7). -/
def spareAt (kind : Nat → Nat) (limit : Nat) : List Nat → List Nat → List (Nat × Nat)
  | _, [] => []
  | before, x :: r =>
    let k := (before.filter fun y => kind y == kind x).length
    (if k < limit then [(x, k)] else []) ++ spareAt kind limit (before ++ [x]) r
/-- The key of a pseudo-channel of a stack in the spare map. -/
def hbmKey (e : Nat × Nat) : Nat := 0x20000 + e.1 * 256 + e.2
/-- POWER_ON: the supply is on and every register is at its reset value; the ROM check is next, and HBM, die links, host link and
Span ports serve nothing before it is over (R403). Failed cores take the spares of their die, or are retired, and the
pseudo-channels of the repair list the spares of their stack (R401). What the device keeps without power is its image slot, its
fused values and its device number. -/
def execPowerOn (k : PowerSpec) (s : State) : Host.Outcome State Fault Refusal :=
  .next <|
    let cores := spareAt (· / 72) 4 [] k.failed
    let channels := spareAt (fun c => (c - 0x20000) / 256) 2 [] (k.repairs.map hbmKey)
    if k.regions.length ≠ 4 ∨ !k.regions.all regionOk ∨ !k.failed.all (· < 288) ∨ !decide k.failed.Nodup ∨
        !(k.repairs.all fun e => e.1 < 16 && e.2 < 256) ∨ !decide k.repairs.Nodup ∨ channels.length ≠ k.repairs.length then s.refuse 0
    else
      { State.reset with
        turn := s.turn, plan := s.plan, freeCtr := s.freeCtr, uid := s.uid, outs := s.outs
        dev := { Device.reset with
          regions := k.regions, image := s.dev.image, minVersion := s.dev.minVersion, devNo := s.dev.devNo, lostDies := s.dev.lostDies
          spareMap := cores ++ channels, retired := k.failed.filter fun c => !(cores.any fun e => e.1 == c) } }

/-- The ROM's check of an image (R399). -/
def State.imageOk (s : State) (i : Image) : Bool :=
  Config.verifies Config.vendorKey (Config.sha3 i.bytes) i.sig && s.dev.minVersion ≤ i.version
/-- BOOT_ROM_CHECK (R399). -/
def execBootRomCheck (s : State) : Host.Outcome State Fault Refusal :=
  .next <|
    if s.dev.boot ≠ .off then s
    else
      let ok := match s.dev.image with | some i => s.imageOk i | none => false
      { s with dev := { s.dev with boot := if ok then .up else .recovery } }
/-- RECOVERY_IMAGE: an accepted image is written to the slot, and it runs (R399) (DEDUCED, log entry 63). -/
def execRecoveryImage (image sig : List Byte) (version : Nat) (s : State) : Host.Outcome State Fault Refusal :=
  .next <|
    let i : Image := ⟨image, sig, version⟩
    if s.dev.boot ≠ .recovery then s.refuse 0
    else if s.imageOk i then { s with dev := { s.dev with image := some i, boot := .up } }
    else s.refuse 0

/-- The code of a TDISP state in a report. -/
def TdispSt.code : TdispSt → Nat
  | .unlocked => 0
  | .locked => 1
  | .run => 2
  | .error => 3
/-- What a report measures (R400). -/
def State.measured (s : State) : List Byte :=
  let image := match s.dev.image with | some i => i.bytes ++ leBytes 8 i.version | none => []
  Config.rom ++ image ++ leBytes 8 s.dev.dietab.toNat ++
    (List.range 16).flatMap (fun k => leBytes 8 (sget 0 s.dev.firewall k).toNat) ++
    s.dev.vfs.flatMap (fun v => leBytes 1 v.id ++ leBytes 1 v.st.code) ++
    s.dev.spareMap.flatMap fun e => leBytes 4 e.1 ++ leBytes 4 e.2
/-- ATTESTATION_REQUEST: a report over the nonce, signed over its digest (R400). -/
def execAttestationRequest (nonce : List Byte) (s : State) : Host.Outcome State Fault Refusal :=
  .next <|
    if s.dev.boot ≠ .up then s.refuse 0
    else
      let d := Config.sha3 (nonce ++ s.measured)
      s.emit (.report d (Config.sign d))

/-! ### Interfaces (R393, R394) -/

/-- TDISP_LOCK (R394). -/
def execTdispLock (vf : Nat) (s : State) : Host.Outcome State Fault Refusal :=
  .next <|
    match s.vf? vf with
    | some v => if v.st = .unlocked then s.setVf vf .locked else s.refuse vf
    | none => s.refuse vf
/-- START_INTERFACE (R394). -/
def execStartInterface (vf : Nat) (s : State) : Host.Outcome State Fault Refusal :=
  .next <|
    match s.vf? vf with
    | some v => if v.st = .locked then s.setVf vf .run else s.refuse vf
    | none => s.refuse vf
/-- STOP_INTERFACE: it waits for the tenant's blocks to be gone, scrubs, and returns the interface to CONFIG_UNLOCKED
(R394, R390). -/
def execStopInterface (vf : Nat) (s : State) : Host.Outcome State Fault Refusal :=
  .next <|
    match s.vf? vf, (s.vf? vf).bind fun v => s.part? v.pid with
    | some v, some p =>
      if s.blocks.any fun b => b.pid == v.pid && b.eff.tenant == v.tenant then s
      else
        let cores := (List.range 288).filter fun c => p.dies.contains (c / 72) && (s.coreBlocks c).isEmpty
        (cores.foldl State.scrub s).setVf vf .unlocked
    | _, _ => s.refuse vf

/-! ### Partitions, address spaces, region blocks -/

/-- The ends of the links between dies of two lists. -/
def endsOf (as bs : List Nat) : List (Nat × Nat) := as.flatMap fun a => (bs.filter fun b => b != a).map fun b => (a, b)
/-- Opening or closing some link ends; a locked end stays as it is, and what crosses is registered before a link closes. -/
def State.setEnds (s : State) (open_ : Bool) (es : List (Nat × Nat)) : State :=
  let s := if open_ then s else s.drainAcross es
  { s with dev := { s.dev with firewall := es.foldl (fun fw e =>
      let w := sget 0 fw (linkKey e.1 e.2)
      if w.getLsbD 1 then fw else sput 0 fw (linkKey e.1 e.2) (setFld w 0 1 (if open_ then 1 else 0))) s.dev.firewall } }
/-- Whether an end is locked at the other value than wanted. -/
def State.stuckEnd (s : State) (open_ : Bool) (e : Nat × Nat) : Bool :=
  let w := sget 0 s.dev.firewall (linkKey e.1 e.2)
  w.getLsbD 1 && w.getLsbD 0 != open_
/-- The dies of a partition, as physical dies. -/
def State.pdies (s : State) (p : Partition) : List Nat := p.dies.map s.physDie
/-- The dies that no partition holds. -/
def State.freeDie (s : State) (pdie : Nat) : Bool :=
  pdie < 4 && !s.dev.lostDies.contains pdie && !(s.parts.any fun p => (s.pdies p).contains pdie)

/-- PARTITION_SETUP: the links between the partition's dies open and its other links close, and firmware binds the control
blocks of its two rings, the device fields at their reset values (R384, R385, R369, R405). -/
def execPartitionSetup (k : PartSpec) (s : State) : Host.Outcome State Fault Refusal :=
  .next <|
    let ds := k.dies.map s.physDie
    let blockOk (a : Nat) : Bool := a % 64 == 0 && (match rangeOf a with | .hbm d => ds.contains d | _ => false)
    if s.dev.boot ≠ .up ∨ 4 ≤ k.id ∨ (s.part? k.id).isSome ∨ k.dies.isEmpty ∨ !decide k.dies.Nodup ∨ !(k.dies.all fun d => d < 4) ∨
        !ds.all s.freeDie ∨ !decide ds.Nodup ∨ !blockOk k.fqcb ∨ !blockOk k.trcb ∨ (endsOf ds ds).any (s.stuckEnd true) then
      s.refuse k.id
    else
      let others := (List.range 4).filter fun d => !ds.contains d
      let s := ((s.setEnds true (endsOf ds ds)).setEnds false (endsOf ds others)).setEnds false (endsOf others ds)
      let bind (s : State) (a : Nat) : State := ((s.putNat (a + 24) 8 0).putNat (a + 32) 8 0).putNat (a + 40) 8 0
      let s := bind (bind s k.fqcb) k.trcb
      let tab := k.dies.foldl (fun t d => setFld (setFld t (8 * d + 4) 2 k.id) (8 * d + 7) 1 1) s.dev.dietab
      { s with
        dev := { s.dev with dietab := tab }
        parts := s.parts ++ [{
          id := k.id, dies := k.dies, fqcb := k.fqcb, trcb := k.trcb, fqWidx := 0, fqLost := 0, trWidx := 0, trLost := 0
          handles := [], stopped := false, lastCore := none }] }

/-- ADDRESS_SPACE_CREATE: the root must lie in the partition's own HBM, and the identifier is unique on the device (R384,
R285). -/
def execAddressSpaceCreate (id part root : Nat) (s : State) : Host.Outcome State Fault Refusal :=
  .next <|
    let own := match rangeOf root with | .hbm d => s.ownsDie part d | _ => false
    if id = 0 ∨ 2 ^ 32 ≤ id ∨ (s.aspace? id).isSome ∨ root % 8192 ≠ 0 ∨ !own then s.refuse id
    else { s with aspaces := s.aspaces ++ [⟨id, part, some root⟩] }
/-- ADDRESS_SPACE_DESTROY: its translations are invalidated and its handles freed (R428, R286). -/
def execAddressSpaceDestroy (id : Nat) (s : State) : Host.Outcome State Fault Refusal :=
  .next <|
    match s.aspace? id with
    | none => s.refuse id
    | some a =>
      let s := { s.tlbi id none with aspaces := s.aspaces.filter fun x => x.id != id }
      s.modPart a.pid fun p =>
        { p with handles := p.handles.map fun e =>
            if e.2.sealed ∧ e.2.aspace = id then (e.1, ⟨false, e.2.gen + 1, [], 0⟩) else e }

/-- Enabled cores of a partition. -/
def State.enabledCores (s : State) (p : Partition) : Nat :=
  ((List.range 288).filter fun c => p.dies.contains (c / 72) && !s.dev.retired.contains c).length
/-- The lowest virtual function that serves no tenant (R393). -/
def State.newVf (s : State) : Option Nat := ((List.range 255).map (· + 1)).find? fun n => (s.vf? n).isNone
/-- TENANT_RCB_INSTALL: firmware installs a block of the partition or the tenant level from memory; a tenant's SHARE values
must fit the partition's enabled cores (R351, R353). A new tenant gets a virtual function (R393) (DEDUCED, log entry 48). -/
def execTenantRcbInstall (part : Nat) (aspace addr target : Nat) (s : State) : Host.Outcome State Fault Refusal :=
  .next <|
    match s.part? part, s.firmWords aspace addr 32 with
    | some p, some ws =>
      match parseRcb part target ws with
      | none => s.refuse target
      | some r =>
        let mates := s.rcbs.filter fun (x : Rcb) => x.pid == part && x.level == r.level && x.addr != target
        let rank := match r.level with
          | 0 => mates.isEmpty
          | 1 => (match s.rcb? part r.parent with | some up => up.level == 0 | none => false) &&
              (mates.map Rcb.share).sum + r.share ≤ s.enabledCores p
          | _ => false
        let other := match s.rcb? part target with | some x => x.level != r.level | none => false
        let space := match s.aspace? aspace with | some a => a.pid == part | none => false
        if target % 256 ≠ 0 ∨ addr % 256 ≠ 0 ∨ !rank ∨ other = true ∨ !space ∨ s.frozenVf part target then s.refuse target
        else
          let s := { s with rcbs := (s.rcbs.filter fun (x : Rcb) => !(x.pid == part && x.addr == target)) ++ [r] }
          if r.level = 0 ∨ (s.vfFor part target).isSome then s
          else
            match s.newVf with
            | some n => { s with dev := { s.dev with vfs := s.dev.vfs ++ [⟨n, part, target, .unlocked⟩] } }
            | none => s
    | _, _ => s.refuse target

/-! ### Relocation (R389) -/

/-- An address of physical die p moved to die q. -/
def movePA (p q a : Nat) : Nat := if rangeOf a = .hbm p then a % 0x4000000000 + q * 0x4000000000 else a
/-- Keys of a range moved to a range of the same length. -/
def copyRange {α : Type} (l : Store α) (lo dst n : Nat) : Store α :=
  let moved := (cutRange l lo n).map fun e => (dst + e.1, e.2)
  let rest := dropRange l dst n
  (rest.filter fun e => e.1 < dst) ++ moved ++ rest.filter fun e => dst ≤ e.1
/-- Firmware copies a die's memory and tag storage. -/
def State.copyDie (s : State) (p q : Nat) : State :=
  let n := 0x4000000000
  { s with mem := copyRange s.mem (p * n) (q * n) n, tags := copyRange s.tags (p * n / 8) (q * n / 8) (n / 8) }

/-- The ends that a relocation changes: both of the P-Q link, Q's toward the partition's other dies, theirs toward P and
Q, and P's. -/
def State.relocEnds (s : State) (k : Partition) (p q : Nat) : List (Nat × Nat) :=
  let rest := (s.pdies k).filter fun d => d != p
  [(p, q), (q, p)] ++ rest.flatMap fun d => [(q, d), (d, q), (d, p), (p, d)]

/-- Pointers and leaves of a table and of the tables below it, moved (R389 step 4), where they stand in memory that `own` tells to be
the partition's (R391); the first number counts the levels left. -/
def State.moveTables (own : Nat → Bool) (p q : Nat) : Nat → Nat → State → State
  | 0, _, s => s
  | n + 1, table, s =>
    if !own table then s
    else
      (List.range 1024).foldl (fun s k =>
        let w := (table + 8 * k) / 8
        let e := rdWord s.mem w
        if !pteV e then s
        else
          let a := movePA p q (pteAddr e)
          let s := s.putFirm w (setFld e 13 39 (a / 2 ^ 13))
          if pteLeaf e then s else State.moveTables own p q n a s) s
/-- The link words of the partition's memory, their PARENT moved. -/
def State.moveLinks (s : State) (k : Partition) (p q : Nat) : State :=
  let links := s.tags.filter fun e =>
    e.2 == .link && (match rangeOf (8 * e.1) with | .hbm d => d == q || s.ownsDie k.id d | _ => false)
  links.foldl (fun s e =>
    let x := rdWord s.mem e.1
    s.putFirm e.1 (setFld x 0 52 (movePA p q (fld x 0 52)))) s
/-- A control block of a ring that has moved, with its BASE. -/
def State.moveRing (s : State) (p q a : Nat) : State := s.putNat a 8 (movePA p q (s.physNat a 8))

/-- R389 step 4. -/
def State.rewrite (s : State) (k : Partition) (p q : Nat) : State :=
  let mine := s.aspaces.filter fun a => a.pid == k.id
  let roots := mine.filterMap Aspace.root
  let own (a : Nat) : Bool := match rangeOf a with | .hbm d => d == q || s.ownsDie k.id d | _ => false
  let s := roots.foldl (fun s r => State.moveTables own p q 4 (movePA p q r) s) s
  let s := s.moveLinks k p q
  let s := (s.moveRing p q (movePA p q k.fqcb)).moveRing p q (movePA p q k.trcb)
  let ids := mine.map Aspace.id
  let onP (w : Nat) : Bool := rangeOf (8 * w) == .hbm p
  { s with
    aspaces := updWhere s.aspaces (fun a => a.pid == k.id) fun a => { a with root := a.root.map (movePA p q) }
    parts := updWhere s.parts (fun x => x.id == k.id) fun x => { x with fqcb := movePA p q x.fqcb, trcb := movePA p q x.trcb }
    tlb := s.tlb.filter fun e => !ids.contains e.aspace
    ptrs := s.ptrs.filter fun e => !ids.contains e.aspace
    hdr := s.hdr.filter fun e => !onP e.word
    early := s.early.filter fun e => !onP e.load.word
    hostHeld := s.hostHeld.map fun l => movePA p q (128 * l) / 128
    l1 := s.l1.filter fun e => !onP (e.1 % 2 ^ 49)
    icopies := s.icopies.filter fun e => !onP (e.1 % 2 ^ 49)
    own := s.own.filter fun e => !onP e.1
    waiters := s.waiters.map fun w => { w with root := movePA p q (8 * w.root) / 8 }
    queues := updWhere s.queues (fun x => x.pid == k.id) fun x => { x with pa := movePA p q x.pa }
    dev := { s.dev with
      regions := s.dev.regions.set q (s.dev.regions.getD p 0)
      hdm := s.dev.hdm.map fun d => if d = p then q else if d = q then p else d } }

/-- Whether a partition has come to rest: no block runs or is being saved, no command is in flight, no emission is
under way (R389 step 2). -/
def State.atRest (s : State) (pid : Nat) : Bool :=
  !(s.blocks.any fun b => b.pid == pid && b.st != .held && b.st != .restart) && !(s.cmds.any fun c => c.pid == pid) &&
    !(s.matchTab.any fun e => e.pid == pid && e.slot.isSome)
/-- A partition's queues start nothing more, its blocks are pre-empted, its counters stand still. -/
def State.stopPart (s : State) (pid : Nat) (on : Bool) : State :=
  let s := s.modPart pid fun p => { p with stopped := on }
  let s := { s with dev := { s.dev with sessions := updWhere s.dev.sessions (fun k => k.spec.part == pid) fun k => { k with suspended := on } } }
  if on then (s.blocks.filter fun b => b.pid == pid).foldl (fun s b => s.preempt false b.id) s else s
/-- Whether a relocation is in progress and a step is its last. -/
def State.relocAt (s : State) (part p q : Nat) (st : RelocStep) : Bool :=
  s.dev.reloc.any fun r => r.pid == part && r.p == p && r.q == q && r.done == st
/-- The relocation of a partition ends. -/
def State.endReloc (s : State) (part : Nat) : State :=
  { s with dev := { s.dev with reloc := s.dev.reloc.filter fun r => r.pid != part } }
/-- The step just done. -/
def State.setReloc (s : State) (r : Reloc) : State :=
  { s with dev := { s.dev with reloc := s.dev.reloc.filter (fun x => x.pid != r.pid) ++ [r] } }

/-- RELOCATION: one step of the five (R389) (DEDUCED, log entry 64). -/
def execRelocation (st : RelocStep) (part p q : Nat) (s : State) : Host.Outcome State Fault Refusal :=
  .next <|
    match s.part? part with
    | none => s.refuse part
    | some k =>
      let rest := (s.pdies k).filter fun d => d != p
      let go (s : State) : State := s.setReloc ⟨part, p, q, st⟩
      match st with
      | .preCopy =>
        let migrating := s.dev.migration.any fun m => m.pid == part
        let other := s.dev.reloc.any fun r => (r.pid == part || r.q == q) && !(r.pid == part && r.p == p && r.q == q)
        let locked := (s.relocEnds k p q).any fun e => (sget 0 s.dev.firewall (linkKey e.1 e.2)).getLsbD 1
        let again := s.relocAt part p q .preCopy
        let later := s.dev.reloc.any fun r => r.pid == part && !again
        if !(s.pdies k).contains p ∨ !s.freeDie q ∨ migrating = true ∨ locked ∨ other ∨ later then s.refuse part
        else go ((s.setEnds true [(p, q), (q, p)]).copyDie p q)
      | .stop => if s.relocAt part p q .preCopy then go (s.stopPart part true) else s.refuse part
      | .finalCopy =>
        if !s.relocAt part p q .stop then s.refuse part
        else if !s.atRest part then (s.blocks.filter fun b => b.pid == part).foldl (fun s b => s.preempt false b.id) s
        else go ((s.drain fun d => rangeOf (8 * d.word) == .hbm p).copyDie p q)
      | .rewrite => if s.relocAt part p q .finalCopy then go (s.rewrite k p q) else s.refuse part
      | .resume =>
        if !s.relocAt part p q .rewrite then s.refuse part
        else
          let die := (k.dies.find? fun d => s.physDie d == p).getD p
          let s := { s with dev := { s.dev with dietab := setFld s.dev.dietab (8 * die) 2 q } }
          let all := List.range 4
          let s := (s.setEnds false (endsOf [p] all)).setEnds false (endsOf (q :: rest) [p])
          let s := (s.setEnds true (endsOf [q] rest)).setEnds true (endsOf rest [q])
          (s.stopPart part false).endReloc part

/-! ### Live migration (R397, R398) -/

/-- The lane-cycle counters of a die. -/
def State.dieCounts (s : State) (die : Nat) : HeldCounts where
  lo := cutRange s.dev.binlo (9216 * die) 9216
  hi := cutRange s.dev.binhi (9216 * die) 9216
  as_ := cutRange s.dev.binas (9216 * die) 9216
  cnt := cutRange s.dev.bincnt (46080 * die) 46080
  tot := cutRange s.dev.lcrtot (2880 * die) 2880
/-- They become those of a die. -/
def State.giveCounts (s : State) (die : Nat) (c : HeldCounts) : State :=
  { s with dev := { s.dev with
      binlo := pasteRange 0 s.dev.binlo (9216 * die) 9216 c.lo
      binhi := pasteRange 0 s.dev.binhi (9216 * die) 9216 c.hi
      binas := pasteRange 0 s.dev.binas (9216 * die) 9216 c.as_
      bincnt := pasteRange 0 s.dev.bincnt (46080 * die) 46080 c.cnt
      lcrtot := pasteRange 0 s.dev.lcrtot (2880 * die) 2880 c.tot } }
/-- An event counter resumes from its carried count where the event exists here, and is unavailable where it does not (R413). -/
def State.giveEvent (s : State) (part n : Nat) (h : Held) : State :=
  let ev : BitVec 16 := (sget 0 h.evsel n).setWidth 16
  let cnt : Word := if ev = 0 ∨ Config.hasEvent ev then BitVec.ofNat 64 (fld (sget 0 h.evcnt n) 0 48) else 0x8000000000000000
  { s with dev := { s.dev with
      evsel := sput 0 s.dev.evsel (8 * part + n) (ev.setWidth 64)
      evcnt := sput 0 s.dev.evcnt (8 * part + n) cnt } }
/-- What a package of a partition carries. -/
def State.heldState (s : State) (part : Nat) : Held :=
  let bs := s.blocks.filter fun b => b.pid == part
  let ns := s.nodes.filter fun n => n.pid == part
  { blocks := bs, groups := s.allGroups.filter fun g => bs.any fun b => b.id == g.blk
    launches := s.launches.filter fun l => l.pid == part
    handles := ((s.part? part).map Partition.handles).getD []
    nodes := ns, cards := s.cards.filter fun c => ns.any fun n => n.id == c.node
    matchTab := s.matchTab.filter fun e => e.pid == part
    waiters := s.waiters.filter fun w => bs.any fun b => b.id == w.blk
    wins := (s.wins.filter fun w => w.pid == part).map fun w =>
      let lo := chpFlat w.die w.base
      ⟨w, cutRange s.chp lo w.size, cutRange s.chpTags (lo / 8) (w.size / 8)⟩
    rings := match s.part? part with | some p => (p.fqWidx, p.fqLost, p.trWidx, p.trLost) | none => (0, 0, 0, 0)
    recs := s.recs.filter fun k => k.part == part
    sessions := s.dev.sessions.filter fun k => k.spec.part == part
    counts := (((s.part? part).map Partition.dies).getD []).map s.dieCounts
    evsel := cutRange s.dev.evsel (8 * part) 8
    evcnt := cutRange s.dev.evcnt (8 * part) 8 }
/-- A window that a package carries is allotted on its die, with what it holds. -/
def State.putWin (s : State) (part : Nat) (h : HeldWin) : State :=
  let used := (s.wins.filter fun w => w.die == h.win.die).map fun w => (w.base, w.size)
  match firstFit 0x2000000 used (used.length + 1) 0 h.win.size with
  | none => s
  | some a =>
    let lo := chpFlat h.win.die a
    { s with
      wins := s.wins ++ [{ h.win with pid := part, base := a }]
      chp := pasteRange 0 s.chp lo h.win.size h.bytes
      chpTags := pasteRange .raw s.chpTags (lo / 8) (h.win.size / 8) h.tags }
/-- The counts of both rings of a partition, which move with the rings, as the device holds them and memory shows them (R389, R397). -/
def State.giveRings (s : State) (part : Nat) (r : Nat × Nat × Nat × Nat) : State :=
  match s.part? part with
  | none => s
  | some p =>
    let s := s.modPart part fun p => { p with fqWidx := r.1, fqLost := r.2.1, trWidx := r.2.2.1, trLost := r.2.2.2 }
    (((s.putNat (p.fqcb + 24) 8 r.1).putNat (p.fqcb + 40) 8 r.2.1).putNat (p.trcb + 24) 8 r.2.2.1).putNat (p.trcb + 40) 8 r.2.2.2
/-- A path whose records have got other numbers. -/
def Path.shiftRecs (off : Nat) (p : Path) : Path :=
  match p.wait with
  | .records l => { p with wait := .records (l.map fun e => (off + e.1, e.2)) }
  | _ => p
/-- An agent of a block under another number. -/
def AgentId.shift (off : Nat) : AgentId → AgentId
  | .path b g s => .path (off + b) g s
  | .stream b => .stream (off + b)
  | .engine n => .engine n
  | .caller n => .caller n
  | .packet q i => .packet q i
/-- The sessions of a package go on with what they enable, on the queues that the destination names for them (R413). -/
def Session.moved (off part : Nat) (queues : List Nat) (k : Session) : Session :=
  { k with
    suspended := false
    spec := { k.spec with part := part, queues := queues, breaks := k.spec.breaks.map fun e => (off + e.1, e.2) } }
/-- The held state of a package becomes that of a partition: its blocks wait to be resumed, under numbers of this device
(DEDUCED, log entry 64). -/
def State.giveHeld (s : State) (part : Nat) (queues : List Nat) (h : Held) : State :=
  let off := s.uid
  let origin (o : Origin) : Origin :=
    match o with
    | .grid l num x y z => .grid (off + l) num x y z
    | .node id n rb first card => .node id n rb first (card.map (off + ·))
  let slot (q : QSlot) : QSlot := { q with launch := off + q.launch, owner := q.owner.map fun o => (off + o.1, o.2), emit := none }
  let top := ((h.blocks.map Block.id) ++ (h.launches.map Launch.id) ++ (h.cards.map Card.id) ++ h.recs.map PendRec.uid).foldl max 0
  let bs : List Block := h.blocks.map fun b =>
    { b with
      id := off + b.id, pid := part, origin := origin b.origin, st := if b.st = .restart then .restart else .held,
      cores := [], spdBase := [], killRec := none }
  let gs : List Group := h.groups.map fun g =>
    { g with
      blk := off + g.blk, pid := part, st := if g.st = .discarded ∨ g.st = .ended then g.st else .saved
      slot0 := g.slot0.map (Path.shiftRecs off), slot1 := g.slot1.map (Path.shiftRecs off)
      saved0 := g.saved0.map (Path.shiftRecs off), saved1 := g.saved1.map (Path.shiftRecs off) }
  let ls : List Launch := h.launches.map fun l => { l with id := off + l.id, pid := part }
  let ns : List Node := h.nodes.map fun n => { n with pid := part, slots := n.slots.map fun e => (e.1, slot e.2) }
  let cs : List Card := h.cards.map fun c =>
    { c with id := off + c.id, token := c.token.map fun t => (off + t.1, t.2) }
  let es : List MatchEntry := h.matchTab.map fun e => { e with pid := part, slot := none }
  let ws : List Waiter := h.waiters.map fun w => { w with blk := off + w.blk }
  let rs : List PendRec := h.recs.map fun k => { k with uid := off + k.uid, part := part, who := Machine.AgentId.shift off k.who }
  let s : State :=
    { s with
      uid := off + top + 1
      blocks := s.blocks ++ bs
      groups := s.groups ++ gs
      launches := s.launches ++ ls
      nodes := (s.nodes.filter fun n => !(ns.any fun m => m.id == n.id)) ++ ns
      cards := s.cards ++ cs
      matchTab := (s.matchTab.filter fun e => !(es.any fun m => m.tag == e.tag)) ++ es
      waiters := s.waiters ++ ws
      recs := s.recs ++ rs
      dev := { s.dev with sessions := s.dev.sessions ++ h.sessions.map (Session.moved off part queues) } }
  let s := (s.modPart part fun p => { p with handles := h.handles }).giveRings part h.rings
  h.wins.foldl (fun s w => s.putWin part w) s

/-- LIVE_MIGRATION_ROUND: a round begins with its log ring in host memory, or the final round, which stops the partition,
or the migration ends: after a final round the held state leaves as a package, and the partition stays stopped, its Span bytes
refused and its host writes held (R397). -/
def execLiveMigrationRound (part : Nat) (r : MigReq) (s : State) : Host.Outcome State Fault Refusal :=
  .next <|
    let busy := s.dev.reloc.any fun x => x.pid == part
    let others := s.dev.migration.filter fun m => m.pid != part
    let begin_ (ring entries : Nat) (final : Bool) (s : State) : State :=
      { s with dev := { s.dev with migration := others ++ [⟨part, ring, entries, 0, [], false, final⟩] } }
    let ringOk (ring entries : Nat) : Bool := ring % 8 == 0 && entries != 0 && rangeOf ring == .host && rangeOf (ring + 8 * entries - 1) == .host
    if (s.part? part).isNone ∨ busy then s.refuse part
    else
      match r with
      | .round ring entries =>
        let ended := s.dev.migration.any fun m => m.pid == part && m.final
        if ringOk ring entries && !ended then begin_ ring entries false s else s.refuse part
      | .final ring entries => if ringOk ring entries then (begin_ ring entries true s).stopPart part true else s.refuse part
      | .stop dest =>
        match s.dev.migration.find? fun m => m.pid == part with
        | none => s.refuse part
        | some m =>
          let done (s : State) : State := { s with dev := { s.dev with migration := others } }
          if !m.final then done s
          else if !s.atRest part then (s.blocks.filter fun b => b.pid == part).foldl (fun s b => s.preempt false b.id) s
          else
            let bs := Config.pack (s.heldState part) dest
            s.emit (.package part dest bs (Config.sign (Config.sha3 bs)))

/-- MIGRATION_PACKAGE_IMPORT: the destination checks the signature before it imports the held state (R397); the sessions of the package
go on there, on the queues of `k`, with the bins and counters that it carries (R413; log entry 64). -/
def execMigrationPackageImport (part dev : Nat) (package sig : List Byte) (k : SessionSpec) (s : State) :
    Host.Outcome State Fault Refusal :=
  .next <|
    if (s.part? part).isNone ∨ !Config.verifies (Config.peerKey dev) (Config.sha3 package) sig then s.refuse part
    else
      let h := Config.unpack package
      let dies := ((s.part? part).map Partition.dies).getD []
      let s := s.giveHeld part k.queues h
      let s := (dies.zip h.counts).foldl (fun s e => s.giveCounts e.1 e.2) s
      (List.range 8).foldl (fun s n => s.giveEvent part n h) s

/-! ### Failed parts (R401, R402) -/

/-- A partition is lost with everything that belongs to it. -/
def State.losePart (s : State) (pid : Nat) : State :=
  let bs := (s.blocks.filter fun b => b.pid == pid).map Block.id
  let qs := (s.queues.filter fun k => k.pid == pid).map Queue.id
  let ns := (s.nodes.filter fun n => n.pid == pid).map Node.id
  let cores := ((s.blocks.filter fun b => b.pid == pid).flatMap Block.cores).eraseDups
  let gone (g : Group) : Bool := bs.contains g.blk && g.st != .none
  let s := (s.dropGroups gone).nowIdle cores
  let off (w : AgentId) : Bool := match w with
    | .path b _ _ | .stream b => bs.contains b
    | .caller n => ns.contains n
    | .packet q _ => qs.contains q
    | .engine n => s.cmds.any fun c => c.id == n && c.pid == pid
  { s with
    who := .idle
    recs := s.recs.filter fun k => k.part != pid && !off k.who
    blocks := s.blocks.filter fun b => b.pid != pid
    launches := s.launches.filter fun l => l.pid != pid
    rcbs := s.rcbs.filter fun r => r.pid != pid
    jobs := s.jobs.filter fun j => j.pid != pid
    wins := s.wins.filter fun w => w.pid != pid
    queues := s.queues.filter fun k => k.pid != pid
    nodes := s.nodes.filter fun n => n.pid != pid
    cards := s.cards.filter fun c => !ns.contains c.node
    matchTab := s.matchTab.filter fun e => e.pid != pid
    cmds := s.cmds.filter fun c => c.pid != pid
    waiters := s.waiters.filter fun w => !bs.contains w.blk
    stores := s.stores.filter fun p => !bs.contains p.blk
    aspaces := s.aspaces.filter fun a => a.pid != pid
    tlb := s.tlb.filter fun e => !(s.aspaces.any fun a => a.id == e.aspace && a.pid == pid)
    parts := s.parts.filter fun p => p.id != pid
    early := s.early.filter fun e => !bs.contains e.load.blk
    work := s.work.filter fun w => w.pid != pid
    ptrs := s.ptrs.filter fun e => !(s.aspaces.any fun a => a.id == e.aspace && a.pid == pid)
    dev := { s.dev with
      flits := s.dev.flits.filter fun f => f.part != pid
      reloc := s.dev.reloc.filter fun r => r.pid != pid
      migration := s.dev.migration.filter fun m => m.pid != pid
      sessions := s.dev.sessions.filter fun k => k.spec.part != pid
      vfs := s.dev.vfs.filter fun v => v.pid != pid } }

/-- Every end toward a die closes and locks; one that is locked already is read only until reset (R7). -/
def State.lockToward (s : State) (die : Nat) : State :=
  { s with dev := { s.dev with firewall := ((List.range 4).filter fun d => d != die).foldl (fun fw d =>
      let w := sget 0 fw (linkKey d die)
      if w.getLsbD 1 then fw else sput 0 fw (linkKey d die) (setFld w 0 2 2)) s.dev.firewall } }
/-- A partition that is moving to a die that is lost stays where it is, and runs on (R402): what step 4 has rewritten points back,
for its memory still stands on its own die. -/
def State.backOut (s : State) (r : Reloc) : State :=
  match s.part? r.pid with
  | none => s.endReloc r.pid
  | some k =>
    let s := if r.done = .rewrite then s.rewrite k r.q r.p else s
    (if r.done = .preCopy then s else s.stopPart r.pid false).endReloc r.pid
/-- DIE_LOSS: the partition on a die is lost, every firewall toward the die closes and locks, its Span ports are lost, and
the host link retrains on the other of dies 0 and 3 (R402) (DEDUCED, log entry 65). -/
def execDieLoss (die : Nat) (s : State) : Host.Outcome State Fault Refusal :=
  .next <|
    if 4 ≤ die ∨ s.dev.lostDies.contains die then s
    else
      let s := (s.parts.filter fun p => (s.pdies p).contains die).foldl (fun s p => s.losePart p.id) s
      let s := (s.dev.reloc.filter fun r => r.q == die).foldl State.backOut s
      let s := s.lockToward die
      let ports := (List.range (portCount die)).foldl (fun t k => sput 8 t (portKey die k) 0) s.dev.ports
      let links := if die = 0 ∨ die = 3 then sput 2 s.dev.links 16 (sget 2 s.dev.links 16 - 1) else s.dev.links
      { s with dev := { s.dev with lostDies := s.dev.lostDies ++ [die], ports := ports, links := links } }

/-- HBM_FAILURE: a pseudo-channel that fails while running retires its pages: no leaf maps them any more, and firmware invalidates
the translations to them (R401) (DEDUCED, log entry 65). -/
def execHbmFailure (die base size : Nat) (s : State) : Host.Outcome State Fault Refusal :=
  .next <|
    let lo := die * 0x4000000000 + base
    { s with
      tlb := s.tlb.filter fun e => !(pteAddr e.leaf < lo + size && lo < pteAddr e.leaf + 2 ^ e.size)
      dev := { s.dev with retiredPages := s.dev.retiredPages ++ [(lo, size)] } }
/-- LINK_LANE_RETRAIN: a die link takes a spare lane, of two; the spare map records it (R401). -/
def execLinkLaneRetrain (die f : Nat) (s : State) : Host.Outcome State Fault Refusal :=
  .next <|
    let k := linkKey (min die f) (max die f)
    let left := sget 2 s.dev.links k
    if die = f ∨ 4 ≤ die ∨ 4 ≤ f ∨ left = 0 then s
    else { s with dev := { s.dev with links := sput 2 s.dev.links k (left - 1), spareMap := s.dev.spareMap ++ [(0x10000 + k, left)] } }
/-- SPAN_LANE_LOSS: a port of 8 lanes goes on with 4 (R401). -/
def execSpanLaneLoss (die port : Nat) (s : State) : Host.Outcome State Fault Refusal :=
  .next <|
    if portCount die ≤ port ∨ sget 8 s.dev.ports (portKey die port) = 0 then s
    else { s with dev := { s.dev with ports := sput 8 s.dev.ports (portKey die port) 4 } }

end Sys2Proof.Machine
end

