-- ==== Sys2Proof/Machine/GroupOps.lean ====
section
/-! DEFINITION. The group operations VOTE, SHFL, GRED, GSCAN, MATCH and ELECT (spec 21_sync R257 to R262). -/
namespace Sys2Proof.Machine

/-- VOTE (R259). -/
def execVote (c : Ctl) (f : VoteForm) (s : State) : Host.Outcome State Fault Refusal :=
  .next (issue (.vote c f) c s fun b _ act s =>
    let all (d : Pred) (x : Bool) : List RegWrite := wrPred d (perLane act fun _ => x)
    let ws := match f with
      | .any d a => all d ((s.grp.pr a.val &&& act) != 0)
      | .all d a => all d ((s.grp.pr a.val &&& act) == act)
      | .ballot d a => wrReg s.grp c.ix d (perLane act fun _ => .raw ((s.grp.pr a.val &&& act).setWidth 64))
      | .uni d a =>
        let xs := perLane act fun l => rdSrc s b c.ix a l
        all d (xs.all fun x => xs.all fun y => x.2 == y.2)
    s.finish b c.sched .variable act ws)

/-- The source lane of SHFL (R260): none when it is below 0. -/
def shflFrom (m : ShflMode) (l n : Nat) : Option Nat :=
  match m with
  | .idx => some n
  | .up => if n ≤ l then some (l - n) else none
  | .down => some (l + n)
  | .xor => some (l ^^^ n)

/-- SHFL (R260). -/
def execShfl (c : Ctl) (m : ShflMode) (d : Reg) (a : Src) (x : ShflB) (pv : Option Pred) (s : State) :
    Host.Outcome State Fault Refusal :=
  .next (issue (.shfl c m d a x pv) c s fun b _ act s =>
    let n (l : Nat) : Nat := match x with
      | .reg r => (rdSrc s b c.ix r l).pay.toNat
      | .imm i => i.toNat
    let from_ (l : Nat) : Option Nat := (shflFrom m l (n l)).filter fun k => k < 32 && act.getLsbD k
    let vals := perLane act fun l => rdSrc s b c.ix a ((from_ l).getD l)
    let bits := match pv with
      | some q => wrPred q (perLane act fun l => (from_ l).isSome)
      | none => []
    s.finish b c.sched .variable act (wrReg s.grp c.ix d vals ++ bits))

/-! ### Reductions -/

/-- A step of GRED or GSCAN is that of the atomic of the same name (R261). -/
def redStep (op : RedOp) (ty : Ty) : AtomOp :=
  match op, ty.isFloat with
  | .add, false => .add
  | .min, false => .min
  | .max, false => .max
  | .add, true => .fadd
  | .min, true => .fmin
  | .max, true => .fmax
  | .and, _ => .and
  | .or, _ => .or
  | .xor, _ => .xor
/-- The identity of R261 as w bits. -/
def redIdentity (op : RedOp) (ty : Ty) : Nat :=
  let w := ty.width
  match op, fmtOf ty with
  | .add, some f => f.signed true 0
  | .min, some f => f.infOf false
  | .max, some f => f.infOf true
  | .add, none | .or, _ | .xor, _ => 0
  | .min, none => if atomSigned ty then 2 ^ (w - 1) - 1 else 2 ^ w - 1
  | .max, none => if atomSigned ty then 2 ^ (w - 1) else 0
  | .and, _ => 2 ^ w - 1
/-- The result of w bits: Put for integers, the format's tag for floats (R261, R152). -/
def redOut (ty : Ty) (n : Nat) : Val :=
  match ty with
  | .f32 => ⟨.f32, BitVec.ofNat 64 n⟩
  | .f64 => ⟨.f64, BitVec.ofNat 64 n⟩
  | .i32 => .raw (BitVec.ofInt 64 (sgnNat 32 n))
  | _ => .raw (BitVec.ofNat 64 n)
/-- The values before and after each lane's step, in ascending lane order. -/
def redRun (op : AtomOp) (ty : Ty) : Nat → List (Nat × Nat) → List (Nat × Nat × Nat)
  | _, [] => []
  | r, (l, x) :: xs =>
    let r' := atomBits op ty r x x
    (l, r, r') :: redRun op ty r' xs
/-- The operand of a lane as w bits. -/
def redIn (s : State) (b : Bool) (c : Ctl) (ty : Ty) (a : Src) (act : Mask) : List (Nat × Nat) :=
  perLane act fun l => (rdSrc s b c.ix a l).pay.toNat % 2 ^ ty.width

/-- GRED (R261). -/
def execGred (c : Ctl) (op : RedOp) (ty : Ty) (d : Reg) (a : Src) (s : State) : Host.Outcome State Fault Refusal :=
  .next (issue (.gred c op ty d a) c s fun b _ act s =>
    let run := redRun (redStep op ty) ty (redIdentity op ty) (redIn s b c ty a act)
    let r := ((run.getLast?).map fun e => e.2.2).getD 0
    s.finish b c.sched .variable act (wrReg s.grp c.ix d (perLane act fun _ => redOut ty r)))

/-- GSCAN (R261). -/
def execGscan (c : Ctl) (op : RedOp) (excl : Bool) (ty : Ty) (d : Reg) (a : Src) (s : State) :
    Host.Outcome State Fault Refusal :=
  .next (issue (.gscan c op excl ty d a) c s fun b _ act s =>
    let run := redRun (redStep op ty) ty (redIdentity op ty) (redIn s b c ty a act)
    s.finish b c.sched .variable act
      (wrReg s.grp c.ix d (run.map fun e => (e.1, redOut ty (if excl then e.2.1 else e.2.2)))))

/-- MATCH (R262). -/
def execMtch (c : Ctl) (payOnly : Bool) (d : Reg) (a : Src) (s : State) : Host.Outcome State Fault Refusal :=
  .next (issue (.mtch c payOnly d a) c s fun b _ act s =>
    let xs := perLane act fun l => rdSrc s b c.ix a l
    let same (x y : Val) : Bool := if payOnly then x.pay == y.pay else x == y
    let mask (x : Val) : Mask := maskOf ((xs.filter fun e => same e.2 x).map Prod.fst)
    s.finish b c.sched .variable act (wrReg s.grp c.ix d (xs.map fun e => (e.1, .raw ((mask e.2).setWidth 64)))))

/-- ELECT (R262). -/
def execElect (c : Ctl) (d : Pred) (s : State) : Host.Outcome State Fault Refusal :=
  .next (issue (.elect c d) c s fun b _ act s =>
    s.finish b c.sched .variable act (wrPred d (perLane act fun l => lowest act == some l)))

end Sys2Proof.Machine
end

