-- ==== Sys2Proof/Machine/Hosts.lean ====
section
/-! DEFINITION. The host link and the die links: CXL.cache grants and snoops (R220, R392), CXL.mem accesses (R221, R222, R386), and flits that a closed firewall drops (R385). -/
namespace Sys2Proof.Machine

/-! ### Lines of host memory (Table 17.2) -/

/-- HOST_GRANT: the host grants a line to a core: S, or E where it grants that; a grant of E or M registers the stores
that wait for it, and the line is M (R220). -/
def execHostGrant (core line : Nat) (exclusive : Bool) (s : State) : Host.Outcome State Fault Refusal :=
  .next <|
    let asked := s.hostReqs.contains (core, line)
    let s := { s with hostReqs := s.hostReqs.filter fun e => e != (core, line) }
    let alone := !(s.hostLines.any fun e => e.1 % 2 ^ 49 == line && e.1 / 2 ^ 49 != core)
    let s := if asked && exclusive && alone && s.hostLine core line == .s then s.setLine core line .e else s
    if exclusive && isHost (16 * line) then s.drain fun p => p.core == core && p.word / 16 == line else s

/-- HOST_SNOOP_SNPDATA: the data of an M line is returned, and the line is S (R220). -/
def execHostSnoopSnpData (core line : Nat) (s : State) : Host.Outcome State Fault Refusal :=
  .next <|
    s.snoopData core line
/-- HOST_SNOOP_SNPINV: the data of an M line is returned, and the line is I (R220). -/
def execHostSnoopSnpInv (core line : Nat) (s : State) : Host.Outcome State Fault Refusal :=
  .next (s.snoopInv core line)
/-- HOST_SNOOP_SNPCUR: the data is returned and the line's state is unchanged (R392). -/
def execHostSnoopSnpCur (core line : Nat) (s : State) : Host.Outcome State Fault Refusal :=
  .next (if s.hostLine core line = .i then s else s.emit (.line core line (s.lineBytes line)))

/-! ### CXL.mem (R222) -/

/-- The physical address behind a host address: the decoder of each 256 GiB window (R389 step 4). -/
def State.hostPA (s : State) (a : Nat) : Nat :=
  if a < 0x10000000000 then (s.dev.hdm.getD (a / 0x4000000000) (a / 0x4000000000)) * 0x4000000000 + a % 0x4000000000 else a
/-- Whether requests of a function for an address are held at the ports: while its partition is being relocated, from the stop to
the resume (R389 steps 2 and 5), and in the final round of its migration (R397), in which physical function 0 still reads what it
copies (DEDUCED, log entry 64). -/
def State.heldAtPort (s : State) (fn pa : Nat) (write : Bool) : Bool :=
  match rangeOf pa with
  | .hbm d =>
    (s.dev.reloc.any fun r => r.done != .preCopy && (s.ownsDie r.pid d || d == r.p || d == r.q)) ||
      (s.dev.migration.any fun m => m.final && s.ownsDie m.pid d && (write || fn != 0))
  | .doorbell _ | .host | .unassigned => false
/-- Whether n bytes lie in one part of the map that accesses of a function reach once the device is up (R386, R399): a virtual
function reaches the dies of its tenant's partition, physical function 0 any die. -/
def State.hostRange (s : State) (fn pa n : Nat) : Bool :=
  s.dev.boot == .up &&
  (match rangeOf pa, rangeOf (pa + n - 1) with
   | .hbm d, .hbm d' =>
     d == d' && !s.dev.lostDies.contains d && !s.inTagStore (pa + n - 1) && !s.inRetired pa n &&
       (fn == 0 || (match s.vf? fn with | some v => s.ownsDie v.pid d | none => false))
   | .host, .host => fn == 0 || (s.vf? fn).isSome
   | _, _ => false)

/-- The L1 that owns a word gives it back (R222). -/
def State.recall (s : State) (w : Nat) : State :=
  match sget 0 s.own w with
  | 0 => s
  | c + 1 => { s with own := sput 0 s.own w 0, l1 := sput none s.l1 (l1Key c w) none }

/-- Before the host reads a word: of host memory, the L1s that hold its line are snooped; of device memory, its owner is
recalled. -/
def State.hostReads (s : State) (w : Nat) : State :=
  if isHost w then (s.lineHolders (w / 16)).foldl (fun s c => s.snoopData c (w / 16)) s else s.recall w
/-- Before the host writes a word: of host memory, no L1 holds its line; of device memory, its owner is recalled, and the host
gives back the line it may keep. -/
def State.hostWrites (s : State) (w : Nat) : State :=
  if isHost w then (s.lineHolders (w / 16)).foldl (fun s c => s.snoopInv c (w / 16)) s
  else { s.recall w with hostHeld := s.hostHeld.filter fun l => l != w / 16 }

/-- HOST_MEM_READ by a function: the last registered bytes, after the recall of their words (R222); a host agent's read of host
memory sees the device's registered writes (R221). The host may keep the lines of device memory that it reads, until they are
invalidated (DEDUCED, log entry 61). -/
def execHostMemRead (at_ : HostAt) (len : HostLen) (s : State) : Host.Outcome State Fault Refusal :=
  .next <|
    let a := s.hostPA at_.pa
    if len.n = 0 ∨ !s.hostRange at_.fn a len.n then s.refuse at_.pa
    else if s.heldAtPort at_.fn a false then s
    else
      let ws := (wordsOf a len.n).map fun w => w.1 / 8
      let s := ws.foldl State.hostReads s
      let ls := if len.cached ∧ !isHost (a / 8) then ((ws.map fun w => w / 16).eraseDups).filter fun l => !s.hostHeld.contains l else []
      { s with hostHeld := s.hostHeld ++ ls }.emit (.hostData at_.pa (s.physBytes a len.n))

/-- A word, or some of its bytes, as a runtime-mode landing of raw words: one read-modify-write at its home (R222). -/
def State.hostWord (s : State) (a : Nat) (bs : List Byte) : State :=
  let w := a / 8
  let s := (s.hostWrites w).drainFor none w
  let (x, m) := packBytes (a % 8) bs
  s.land (.glb (8 * w) 0) (.raw (mergeBytes (s.peek w).pay x m))
/-- HOST_MEM_WRITE by a function (R222), or a host agent's write to host memory (R221). -/
def execHostMemWrite (at_ : HostAt) (bytes : List Byte) (s : State) : Host.Outcome State Fault Refusal :=
  .next <|
    let a := s.hostPA at_.pa
    if bytes.isEmpty ∨ !s.hostRange at_.fn a bytes.length then s.refuse at_.pa
    else if s.heldAtPort at_.fn a true then s
    else (wordsOf a bytes.length).foldl (fun s w => s.hostWord w.1 ((bytes.drop (w.1 - a)).take w.2)) s

/-! ### Firewalls (R385) -/

/-- FIREWALL_DROP: a flit that would cross a closed link is dropped and counted; the security log has one entry per window
(R385). The access that sends one takes 0x05 and is counted where it arises; this event is for the flits that no access of the
model sends (DEDUCED, log entry 62). -/
def execFirewallDrop (die f addr : Nat) (s : State) : Host.Outcome State Fault Refusal :=
  .next (if die = f ∨ 4 ≤ die ∨ 4 ≤ f ∨ s.linkOpen die f then s else s.countDrop die f addr)

end Sys2Proof.Machine
end

