-- ==== Sys2Proof/Machine/Objects.lean ====
section
/-! DEFINITION. Objects: NALLOC, HDRLD, FWDCAS and REFCHK (spec 19_objects R232 to R237). -/
namespace Sys2Proof.Machine

/-! ### NALLOC -/

/-- The size operand of a lane. -/
def nsizeVal (s : State) (b : Bool) (c : Ctl) (z : NSize) (l : Nat) : Val :=
  match z with
  | .reg x => rdSrc s b c.ix x l
  | .imm i => .int (i.setWidth 64)
/-- A size that R234 accepts. -/
def nsizeOk (x : Val) : Bool := x.isNum && sizeOk x.pay.toNat

/-- R234: the lanes served in ascending order; the values, and the next free byte. -/
def nallocRun (limit : Nat) : List (Nat × Nat) → Nat → Bool → List (Nat × Option Nat) × Nat
  | [], top, _ => ([], top)
  | (l, n) :: r, top, full =>
    if !full && top + n ≤ limit then
      let (vs, t) := nallocRun limit r (top + n) false
      ((l, some top) :: vs, t)
    else
      let (vs, t) := nallocRun limit r top true
      ((l, none) :: vs, t)

/-- NALLOC (R234). -/
def execNalloc (c : Ctl) (z : NSize) (d : Reg) (q : Pred) (s : State) : Host.Outcome State Fault Refusal :=
  .next (issue (.nalloc c z d q) c s fun b p act s =>
    let xs := perLane act (nsizeVal s b c z)
    if xs.any fun e => !nsizeOk e.2 then s.trapPath (.nalloc c z d q) c.sched 0x03 (p.pc.setWidth 64) act
    else
      let g := s.grp
      let top := g.ntop.toNat
      let (vs, top') := nallocRun g.nlimit.toNat (xs.map fun e => (e.1, e.2.pay.toNat)) top
        (top < g.nbase.toNat || g.nlimit.toNat < top)
      let val (e : Nat × Option Nat) : Nat × Val :=
        (e.1, match e.2 with | some a => canon .ref (BitVec.ofNat 64 a) | none => Val.nil)
      let s := if act = (0 : Mask) then s else s.setGrp fun g => { g with ntop := BitVec.ofNat 64 (top' / 16 * 16) }
      s.finish b c.sched .variable act
        (wrReg g c.ix d (vs.map val) ++ wrPred q (vs.map fun e => (e.1, e.2.isSome))))

/-! ### Headers -/

/-- The log2 of the size of the page that an address of the issuing group's space lies in, as just translated. -/
def State.pageSize (s : State) (va : Nat) : Nat :=
  match (s.translate s.grp.core s.myAspace va).1 with
  | .leaf _ size => size
  | .missing | .malformed | .dropped _ => 16
/-- The word that HDRLD reads: a header word by the header partition (R242, R243), unless it was read ahead. -/
def State.readHeader (s : State) (p : Path) (va : Nat) (h : Home) : Val × State :=
  match h with
  | .glb pa pte =>
    if pteMT pte = 2 ∨ (s.earlyVal (s.me p) 0 (pa / 8)).isSome then s.readHome (s.me p) h
    else
      let (x, _, s) := s.header p va pa (s.pageSize va)
      (x, s)
  | .stack .. | .bank .. => s.readHome (s.me p) h
/-- One lane of HDRLD (R235). -/
def hdrOne (b : Bool) (p : Path) (_me : Writer) (l va : Nat) (h : Home) (s : State) : LaneRes × State :=
  let (x, s) := s.readHeader p va h
  let s := s.loaded b h.sector
  if h.tagged && x.tag == .fwd then (.ok (.of l va [canon .ref x.pay] (some true)), s)
  else
    match (if h.tagged then loadMeets l va x else none) with
    | some r => (r, s)
    | none => (.ok (.of l va [viewOf .b64 h x] (some false)), s)

/-- The lanes of HDRLD: operands, checks, access and results. -/
def hdrldOp (c : Ctl) (o : Ord) (obj : Bool) (pen : Option Pred) (d : Reg) (a : Src) (off : BitVec 24)
    (b : Bool) (p : Path) (act : Mask) (s : State) :
    MemOp :=
  { sp := .glb, align := 16, obj := obj, off := off, ord := o, need := .read, barrier := false, heal := false,
    base := baseOf s b c a, base2 := none, ordered := false, check := fun _ => none, one := hdrOne b p,
    out := fun os => outReg s.grp c.ix d act os ++ outPred pen os }

/-- HDRLD (R235). -/
def execHdrld (c : Ctl) (o : Ord) (obj : Bool) (pen : Option Pred) (d : Reg) (a : Src) (off : BitVec 24) (s : State) :
    Host.Outcome State Fault Refusal :=
  .next (issue (.hdrld c o obj pen d a off) c s fun b p act s =>
    s.memory (.hdrld c o obj pen d a off) c.sched b p act (hdrldOp c o obj pen d a off b p act s))

/-- One lane of FWDCAS (R236). -/
def fwdcasOne (b : Bool) (x y : Nat → Val) (me : Writer) (l va : Nat) (h : Home) (s : State) : LaneRes × State :=
  if !h.tagged then (.stop 0x08 va, s)
  else
    let (m, s) := s.atHome me h
    let s := s.loaded b h.sector
    match tagFault m.tag false with
    | some c => (.stop c va, s)
    | none =>
      let ok := m.tag != .fwd && m == x l
      let out := LaneOut.of l va [if m.tag = .fwd then canon .ref m.pay else m] (some ok)
      if ok then (.ok out, (s.putHome me h 8 ⟨.fwd, (y l).pay⟩).changed b) else (.ok out, s)

/-- The lanes of FWDCAS: operands, checks, access and results. -/
def fwdcasOp (c : Ctl) (o : Ord) (pen : Option Pred) (d : Reg) (a x y : Src) (off : BitVec 24) (b : Bool)
    (act : Mask) (s : State) :
    MemOp :=
  { sp := .glb, align := 16, obj := false, off := off, ord := o, need := .write, barrier := false, heal := false,
    base := baseOf s b c a, base2 := none, ordered := false,
    check := fun l => if (rdSrc s b c.ix y l).tag = .ref then none else some 0x03,
    one := fwdcasOne b (fun l => rdSrc s b c.ix x l) (fun l => rdSrc s b c.ix y l),
    out := fun os => outReg s.grp c.ix d act os ++ outPred pen os }

/-- FWDCAS (R236). -/
def execFwdcas (c : Ctl) (o : Ord) (pen : Option Pred) (d : Reg) (a x y : Src) (off : BitVec 24) (s : State) :
    Host.Outcome State Fault Refusal :=
  .next (issue (.fwdcas c o pen d a x y off) c s fun b p act s =>
    s.memory (.fwdcas c o pen d a x y off) c.sched b p act (fwdcasOp c o pen d a x y off b act s))

/-! ### REFCHK -/

/-- The condemned bits of the lanes' refs, and the pages that miss (R237); one that is unmappable, or whose record was resolved so,
gives 0. -/
def State.refScan (dead : Dead) : List (Nat × Val) → List (Nat × Bool) × List (Nat × Nat × Mask × Bool) → State →
    (List (Nat × Bool) × List (Nat × Nat × Mask × Bool)) × State
  | [], r, s => (r, s)
  | (l, x) :: xs, (bits, miss), s =>
    if x.tag ≠ .ref then State.refScan dead xs (bits ++ [(l, false)], miss) s
    else
      match (if dead.at l (refVA x) then (.malformed, s) else s.condOf s.grp.core s.myAspace (refVA x)) with
      | (.missing, s) => State.refScan dead xs (bits, addMiss miss (refVA x) l false) s
      | (.malformed, s) | (.dropped, s) => State.refScan dead xs (bits ++ [(l, false)], miss) s
      | (.page k _ _, s) => State.refScan dead xs (bits ++ [(l, k)], miss) s

/-- REFCHK (R237); a replay scans only the lanes that have no bit yet (R63). -/
def execRefchk (c : Ctl) (d : Pred) (a : Src) (s : State) : Host.Outcome State Fault Refusal :=
  .next (issue (.refchk c d a) c s fun b p act s =>
    let dead := p.dead
    let over_ := (p.redo.map Redo.pmask).getD (p.mask &&& ~~~act)
    let ((bits, miss), s) := State.refScan dead (perLane (act &&& ~~~over_) fun l => rdSrc s b c.ix a l) ([], []) s
    match miss with
    | [] => s.finish b c.sched .variable act (wrPred d bits)
    | _ :: _ =>
      (s.retirePart b c.sched .variable act (wrPred d bits)).replay b
        { what := .instr, active := act, pmask := over_ ||| maskOf (bits.map Prod.fst), bad := dead, got := [], raises := [], stop := none }
        miss false)

end Sys2Proof.Machine
end

