-- ==== Sys2Proof/Machine/Typed.lean ====
section
/-! DEFINITION. The typed integer, bit, predicate and float instructions (spec 13_typed R148 to R175). -/
namespace Sys2Proof.Machine

/-! ### Operands -/

/-- The operand IMM32 becomes for a TYPE (R90); E4M3, E2M1 and E8M0 are no immediate types. A NaN becomes
the default NaN (DEDUCED, log entry 68). -/
def timmVal (t : Ty) (i : BitVec 32) : Val :=
  let f (tag : Tag) (k : Fmt) : Val := ⟨tag, BitVec.ofNat 64 (k.put .rne (fmtF32.decode i.toNat))⟩
  let x4 (k : Fmt) : Val :=
    let e := k.put .rne (fmtF32.decode i.toNat)
    .raw (BitVec.ofNat 64 (e + 2 ^ 16 * e + 2 ^ 32 * e + 2 ^ 48 * e))
  match t with
  | .i32 | .i64 | .i8 | .i16 => .int (i.signExtend 64)
  | .n32 => .int (i.setWidth 64)
  | .n64 | .b8 | .b16 | .b32 | .b64 | .e4m3 | .e2m1 | .e8m0 => .raw (i.setWidth 64)
  | .f64 => f .f64 fmtF64
  | .f32 => f .f32 fmtF32
  | .f16 => f .f16 fmtF16
  | .bf16 => f .bf16 fmtBf16
  | .f16x4 => x4 fmtF16
  | .bf16x4 => x4 fmtBf16
/-- Operand B of a typed opcode in lane l. -/
def rdT (s : State) (slot : Bool) (ix : BitVec 3) (t : Ty) (b : TSrc) (l : Nat) : Val :=
  match b with
  | .reg r => rdSrc s slot ix r l
  | .imm i => timmVal t i
/-- Operand B of SEL: the immediate is made with TYPE 0 (R159). -/
def rdG (s : State) (slot : Bool) (ix : BitVec 3) (b : GSrc) (l : Nat) : Val :=
  match b with
  | .reg r => rdSrc s slot ix r l
  | .imm (.int i) => .int (i.signExtend 64)
  | .imm (.f32 i) => ⟨.f32, i.setWidth 64⟩
  | .imm (.bool k) => .bool k

/-! ### The two shapes -/

/-- A typed instruction with a value result: f gives each Active lane's value; writes, then the next instruction
(R149). -/
def typedV (i : Instr) (c : Ctl) (lat : Lat) (d : Reg) (f : State → Bool → Nat → Val) (s : State) : State :=
  issue i c s fun slot _ act s =>
    s.finish slot c.sched lat act (wrReg s.grp c.ix d (perLane act fun l => f s slot l))
/-- A typed instruction with a predicate result. -/
def typedP (i : Instr) (c : Ctl) (lat : Lat) (d : Pred) (f : State → Bool → Nat → Bool) (s : State) : State :=
  issue i c s fun slot _ act s =>
    s.finish slot c.sched lat act (wrPred d (perLane act fun l => f s slot l))

/-- Integer arithmetic of A and B (R152). -/
def int2 (i : Instr) (c : Ctl) (lat : Lat) (t : ITy) (sat : Bool) (d : Reg) (a : Src) (b : TSrc) (f : Int → Int → Int)
    (s : State) : State :=
  typedV i c lat d (fun s slot l =>
    arith t sat (f (valOf t (rdSrc s slot c.ix a l).pay) (valOf t (rdT s slot c.ix t.ty b l).pay))) s
/-- Bit operations of A and B (R155). -/
def bits2 (i : Instr) (c : Ctl) (t : BTy) (d : Reg) (a : Src) (b : TSrc) (f : Nat → Nat → Nat) (s : State) : State :=
  typedV i c .alu d (fun s slot l =>
    putBits t (f (unsOf t.w (rdSrc s slot c.ix a l).pay) (rdT s slot c.ix t.ty b l).pay.toNat)) s
/-- Bit operations of A. -/
def bits1 (i : Instr) (c : Ctl) (t : BTy) (d : Reg) (a : Src) (f : Nat → Nat) (s : State) : State :=
  typedV i c .alu d (fun s slot l => putBits t (f (unsOf t.w (rdSrc s slot c.ix a l).pay))) s

/-! ### Float shapes (R165) -/

/-- Element k of a packed word. -/
def elem16 (x : Word) (k : Nat) : Nat := fld x (16 * k) 16
/-- A result of a type of F or P: the scalar tagged, or four elements packed under tag raw. -/
def floatOut (t : PTy) (f : Nat → Nat) : Val :=
  match t with
  | .one k => ⟨k.tag, BitVec.ofNat 64 (f 0)⟩
  | .f16x4 | .bf16x4 => .raw (BitVec.ofNat 64 (f 0 + 2 ^ 16 * f 1 + 2 ^ 32 * f 2 + 2 ^ 48 * f 3))
/-- Element k of a source of a type of F or P. -/
def floatIn (t : PTy) (x : Val) (k : Nat) : Nat :=
  match t with
  | .one f => x.pay.toNat % 2 ^ f.fmt.width
  | .f16x4 | .bf16x4 => elem16 x.pay k
/-- The latency of a format (R78). -/
def fLat : FTy → Lat
  | .f64 => .f64
  | .f32 | .f16 | .bf16 => .alu
def pLat : PTy → Lat
  | .one f => fLat f
  | .f16x4 | .bf16x4 => .alu

/-- A float instruction of A and B: f is applied to the codes of each element. -/
def float2 (i : Instr) (c : Ctl) (lat : Lat) (t : PTy) (d : Reg) (a : Src) (b : TSrc) (f : Nat → Nat → Nat) (s : State) :
    State :=
  typedV i c lat d (fun s slot l =>
    let x := rdSrc s slot c.ix a l
    let y := rdT s slot c.ix t.ty b l
    floatOut t fun k => f (floatIn t x k) (floatIn t y k)) s
/-- A float instruction of A. -/
def float1 (i : Instr) (c : Ctl) (lat : Lat) (t : PTy) (d : Reg) (a : Src) (f : Nat → Nat) (s : State) : State :=
  typedV i c lat d (fun s slot l =>
    let x := rdSrc s slot c.ix a l
    floatOut t fun k => f (floatIn t x k)) s

/-- FABS: the sign bit is cleared and every other bit passes through (R170). -/
def fabsCode (f : Fmt) (x : Nat) : Nat := x % 2 ^ (f.width - 1)
/-- FNEG: the sign bit is inverted (R170). -/
def fnegCode (f : Fmt) (x : Nat) : Nat := (x + 2 ^ (f.width - 1)) % 2 ^ f.width
/-- FRCP: 1 / a (R168). -/
def rcpCode (f : Fmt) (r : Rnd) (x : Nat) : Nat := f.div r (.fin false 1 0) (f.decode x)

/-! ### Integer and bit instructions -/

/-- IADD (R152). -/
def execIadd (c : Ctl) (ty : ITy) (sat : Bool) (d : Reg) (a : Src) (b : TSrc) (s : State) : Host.Outcome State Fault Refusal :=
  .next (int2 (.iadd c ty sat d a b) c .alu ty sat d a b (fun x y => x + y) s)

/-- ISUB (R152). -/
def execIsub (c : Ctl) (ty : ITy) (sat : Bool) (d : Reg) (a : Src) (b : TSrc) (s : State) : Host.Outcome State Fault Refusal :=
  .next (int2 (.isub c ty sat d a b) c .alu ty sat d a b (fun x y => x - y) s)

/-- IMUL (R152). -/
def execImul (c : Ctl) (ty : ITy) (sat : Bool) (d : Reg) (a : Src) (b : TSrc) (s : State) : Host.Outcome State Fault Refusal :=
  .next (int2 (.imul c ty sat d a b) c .alu ty sat d a b (fun x y => x * y) s)

/-- IMULH: the upper half of the product (R152). -/
def execImulh (c : Ctl) (ty : ITy) (d : Reg) (a : Src) (b : TSrc) (s : State) : Host.Outcome State Fault Refusal :=
  .next (int2 (.imulh c ty d a b) c .alu ty false d a b (fun x y => x * y / 2 ^ ty.w) s)

/-- IMAD: wrapped or saturated once (R152). -/
def execImad (c : Ctl) (ty : ITy) (sat : Bool) (d : Reg) (a : Src) (b : TSrc) (k : Src) (s : State) : Host.Outcome State Fault Refusal :=
  .next (typedV (.imad c ty sat d a b k) c .alu d (fun s slot l =>
    arith ty sat (valOf ty (rdSrc s slot c.ix a l).pay * valOf ty (rdT s slot c.ix ty.ty b l).pay +
      valOf ty (rdSrc s slot c.ix k l).pay)) s)

/-- IDIV (R153). -/
def execIdiv (c : Ctl) (ty : ITy) (d : Reg) (a : Src) (b : TSrc) (s : State) : Host.Outcome State Fault Refusal :=
  .next (int2 (.idiv c ty d a b) c .sfu ty false d a b (idivOf ty) s)

/-- IREM (R153). -/
def execIrem (c : Ctl) (ty : ITy) (d : Reg) (a : Src) (b : TSrc) (s : State) : Host.Outcome State Fault Refusal :=
  .next (int2 (.irem c ty d a b) c .sfu ty false d a b iremOf s)

/-- IMIN (R152). -/
def execImin (c : Ctl) (ty : ITy) (d : Reg) (a : Src) (b : TSrc) (s : State) : Host.Outcome State Fault Refusal :=
  .next (int2 (.imin c ty d a b) c .alu ty false d a b (fun x y => min x y) s)

/-- IMAX (R152). -/
def execImax (c : Ctl) (ty : ITy) (d : Reg) (a : Src) (b : TSrc) (s : State) : Host.Outcome State Fault Refusal :=
  .next (int2 (.imax c ty d a b) c .alu ty false d a b (fun x y => max x y) s)

/-- IABS (R152). -/
def execIabs (c : Ctl) (ty : STy) (sat : Bool) (d : Reg) (a : Src) (s : State) : Host.Outcome State Fault Refusal :=
  .next (typedV (.iabs c ty sat d a) c .alu d (fun s slot l =>
    arith ty.ity sat (valOf ty.ity (rdSrc s slot c.ix a l).pay).natAbs) s)

/-- INEG (R152). -/
def execIneg (c : Ctl) (ty : STy) (sat : Bool) (d : Reg) (a : Src) (s : State) : Host.Outcome State Fault Refusal :=
  .next (typedV (.ineg c ty sat d a) c .alu d (fun s slot l =>
    arith ty.ity sat (-(valOf ty.ity (rdSrc s slot c.ix a l).pay))) s)

/-- ICMP (R154). -/
def execIcmp (c : Ctl) (ty : ITy) (cond : ICond) (d : Pred) (a : Src) (b : TSrc) (s : State) : Host.Outcome State Fault Refusal :=
  .next (typedP (.icmp c ty cond d a b) c .alu d (fun s slot l =>
    icond cond (valOf ty (rdSrc s slot c.ix a l).pay) (valOf ty (rdT s slot c.ix ty.ty b l).pay)) s)

/-- BAND (R155). -/
def execBand (c : Ctl) (ty : BTy) (d : Reg) (a : Src) (b : TSrc) (s : State) : Host.Outcome State Fault Refusal :=
  .next (bits2 (.band c ty d a b) c ty d a b (fun x y => x &&& (y % 2 ^ ty.w)) s)

/-- BOR (R155). -/
def execBor (c : Ctl) (ty : BTy) (d : Reg) (a : Src) (b : TSrc) (s : State) : Host.Outcome State Fault Refusal :=
  .next (bits2 (.bor c ty d a b) c ty d a b (fun x y => x ||| (y % 2 ^ ty.w)) s)

/-- BXOR (R155). -/
def execBxor (c : Ctl) (ty : BTy) (d : Reg) (a : Src) (b : TSrc) (s : State) : Host.Outcome State Fault Refusal :=
  .next (bits2 (.bxor c ty d a b) c ty d a b (fun x y => x ^^^ (y % 2 ^ ty.w)) s)

/-- BNOT (R155). -/
def execBnot (c : Ctl) (ty : BTy) (d : Reg) (a : Src) (s : State) : Host.Outcome State Fault Refusal :=
  .next (bits1 (.bnot c ty d a) c ty d a (fun x => 2 ^ ty.w - 1 - x) s)

/-- BSHL (R155). -/
def execBshl (c : Ctl) (ty : BTy) (d : Reg) (a : Src) (b : TSrc) (s : State) : Host.Outcome State Fault Refusal :=
  .next (bits2 (.bshl c ty d a b) c ty d a b (bshlOf ty.w) s)

/-- BSHR (R155). -/
def execBshr (c : Ctl) (ty : BTy) (d : Reg) (a : Src) (b : TSrc) (s : State) : Host.Outcome State Fault Refusal :=
  .next (bits2 (.bshr c ty d a b) c ty d a b (bshrOf ty.w) s)

/-- BSAR (R155). -/
def execBsar (c : Ctl) (ty : BTy) (d : Reg) (a : Src) (b : TSrc) (s : State) : Host.Outcome State Fault Refusal :=
  .next (bits2 (.bsar c ty d a b) c ty d a b (bsarOf ty.w) s)

/-- BROL (R155). -/
def execBrol (c : Ctl) (ty : BTy) (d : Reg) (a : Src) (b : TSrc) (s : State) : Host.Outcome State Fault Refusal :=
  .next (bits2 (.brol c ty d a b) c ty d a b (brolOf ty.w) s)

/-- POPC (R156). -/
def execPopc (c : Ctl) (ty : BTy) (d : Reg) (a : Src) (s : State) : Host.Outcome State Fault Refusal :=
  .next (bits1 (.popc c ty d a) c ty d a (popcOf ty.w) s)

/-- CLZ (R156). -/
def execClz (c : Ctl) (ty : BTy) (d : Reg) (a : Src) (s : State) : Host.Outcome State Fault Refusal :=
  .next (bits1 (.clz c ty d a) c ty d a (clzOf ty.w) s)

/-- CTZ (R156). -/
def execCtz (c : Ctl) (ty : BTy) (d : Reg) (a : Src) (s : State) : Host.Outcome State Fault Refusal :=
  .next (bits1 (.ctz c ty d a) c ty d a (ctzOf ty.w) s)

/-- BREV (R156). -/
def execBrev (c : Ctl) (ty : BTy) (d : Reg) (a : Src) (s : State) : Host.Outcome State Fault Refusal :=
  .next (bits1 (.brev c ty d a) c ty d a (brevOf ty.w) s)

/-- BFX (R157). -/
def execBfx (c : Ctl) (ty : ITy) (d : Reg) (a : Src) (b : TSrc) (s : State) : Host.Outcome State Fault Refusal :=
  .next (typedV (.bfx c ty d a b) c .alu d (fun s slot l =>
    let y := (rdT s slot c.ix ty.ty b l).pay
    putInt ty (bfxOf ty (unsOf ty.w (rdSrc s slot c.ix a l).pay) (fld y 0 8) (fld y 8 8))) s)

/-- BFI (R158). -/
def execBfi (c : Ctl) (ty : BTy) (d : Reg) (a : Src) (b : TSrc) (k : Src) (s : State) : Host.Outcome State Fault Refusal :=
  .next (typedV (.bfi c ty d a b k) c .alu d (fun s slot l =>
    let y := (rdT s slot c.ix ty.ty b l).pay
    putBits ty (bfiOf ty.w (unsOf ty.w (rdSrc s slot c.ix a l).pay) (unsOf ty.w (rdSrc s slot c.ix k l).pay)
      (fld y 0 8) (fld y 8 8))) s)

/-! ### Moves, selects, addresses and predicates -/

/-- SEL copies tag and payload (R159). -/
def execSel (c : Ctl) (d : Reg) (a : Src) (b : GSrc) (p : Pred) (s : State) : Host.Outcome State Fault Refusal :=
  .next (typedV (.sel c d a b p) c .alu d (fun s slot l =>
    if rdPred s p l then rdSrc s slot c.ix a l else rdG s slot c.ix b l) s)

/-- MOV copies tag and payload (R159). -/
def execMov (c : Ctl) (d : Reg) (a : Src) (s : State) : Host.Outcome State Fault Refusal :=
  .next (typedV (.mov c d a) c .alu d (fun s slot l => rdSrc s slot c.ix a l) s)

/-- The operand MOVI writes (R160). -/
def movImm : MovImm → Val
  | .gen (.int i) => .int (i.signExtend 64)
  | .gen (.f32 i) => ⟨.f32, i.setWidth 64⟩
  | .gen (.bool k) => .bool k
  | .typed t i => timmVal t i

/-- MOVI (R160). -/
def execMovi (c : Ctl) (d : Reg) (i : MovImm) (s : State) : Host.Outcome State Fault Refusal :=
  .next (typedV (.movi c d i) c .alu d (fun _ _ _ => movImm i) s)

/-- LEA (R161): its immediate is sign-extended. -/
def execLea (c : Ctl) (sh : BitVec 3) (d : Reg) (a : Src) (b : TSrc) (s : State) : Host.Outcome State Fault Refusal :=
  .next (typedV (.lea c sh d a b) c .alu d (fun s slot l =>
    let y : Word := match b with
      | .reg r => (rdSrc s slot c.ix r l).pay
      | .imm i => i.signExtend 64
    .raw ((rdSrc s slot c.ix a l).pay + y <<< sh.toNat)) s)

/-- PLOP: any function of three predicates (R162). -/
def execPlop (c : Ctl) (lut : BitVec 8) (d a b k : Pred) (s : State) : Host.Outcome State Fault Refusal :=
  .next (typedP (.plop c lut d a b k) c .alu d (fun s _ l =>
    lutBit lut (rdPred s a l) (rdPred s b l) (rdPred s k l)) s)

/-- PBOOL (R163). -/
def execPbool (c : Ctl) (d : Reg) (a : Pred) (s : State) : Host.Outcome State Fault Refusal :=
  .next (typedV (.pbool c d a) c .alu d (fun s _ l => .bool (rdPred s a l)) s)

/-! ### Float instructions -/

/-- FADD (R167). -/
def execFadd (c : Ctl) (ty : PTy) (r : Rnd) (d : Reg) (a : Src) (b : TSrc) (s : State) : Host.Outcome State Fault Refusal :=
  .next (float2 (.fadd c ty r d a b) c (pLat ty) ty d a b
    (fun x y => ty.fmt.put r ((ty.fmt.decode x).add r (ty.fmt.decode y))) s)

/-- FSUB (R167). -/
def execFsub (c : Ctl) (ty : PTy) (r : Rnd) (d : Reg) (a : Src) (b : TSrc) (s : State) : Host.Outcome State Fault Refusal :=
  .next (float2 (.fsub c ty r d a b) c (pLat ty) ty d a b
    (fun x y => ty.fmt.put r ((ty.fmt.decode x).add r (ty.fmt.decode y).flip)) s)

/-- FMUL (R167). -/
def execFmul (c : Ctl) (ty : PTy) (r : Rnd) (d : Reg) (a : Src) (b : TSrc) (s : State) : Host.Outcome State Fault Refusal :=
  .next (float2 (.fmul c ty r d a b) c (pLat ty) ty d a b
    (fun x y => ty.fmt.put r ((ty.fmt.decode x).mul (ty.fmt.decode y))) s)

/-- FFMA: rounded once (R167). -/
def execFfma (c : Ctl) (ty : PTy) (r : Rnd) (d : Reg) (a : Src) (b : TSrc) (k : Src) (s : State) : Host.Outcome State Fault Refusal :=
  .next (typedV (.ffma c ty r d a b k) c (pLat ty) d (fun s slot l =>
    let x := rdSrc s slot c.ix a l
    let y := rdT s slot c.ix ty.ty b l
    let z := rdSrc s slot c.ix k l
    floatOut ty fun e => ty.fmt.put r
      (((ty.fmt.decode (floatIn ty x e)).mul (ty.fmt.decode (floatIn ty y e))).add r (ty.fmt.decode (floatIn ty z e)))) s)

/-- FDIV (R167). -/
def execFdiv (c : Ctl) (ty : FTy) (r : Rnd) (d : Reg) (a : Src) (b : TSrc) (s : State) : Host.Outcome State Fault Refusal :=
  .next (float2 (.fdiv c ty r d a b) c .sfu (.one ty) d a b
    (fun x y => ty.fmt.div r (ty.fmt.decode x) (ty.fmt.decode y)) s)

/-- FSQRT (R167). -/
def execFsqrt (c : Ctl) (ty : FTy) (r : Rnd) (d : Reg) (a : Src) (s : State) : Host.Outcome State Fault Refusal :=
  .next (float1 (.fsqrt c ty r d a) c .sfu (.one ty) d a (fun x => ty.fmt.sqrt r (ty.fmt.decode x)) s)

/-- FRCP (R168). -/
def execFrcp (c : Ctl) (ty : FTy) (r : Rnd) (d : Reg) (a : Src) (s : State) : Host.Outcome State Fault Refusal :=
  .next (float1 (.frcp c ty r d a) c .sfu (.one ty) d a (rcpCode ty.fmt r) s)

/-- FRSQ (R168). -/
def execFrsq (c : Ctl) (ty : FTy) (r : Rnd) (d : Reg) (a : Src) (s : State) : Host.Outcome State Fault Refusal :=
  .next (float1 (.frsq c ty r d a) c .sfu (.one ty) d a (fun x => ty.fmt.rsqrt r (ty.fmt.decode x)) s)

/-- FMIN (R169). -/
def execFmin (c : Ctl) (ty : PTy) (d : Reg) (a : Src) (b : TSrc) (s : State) : Host.Outcome State Fault Refusal :=
  .next (float2 (.fmin c ty d a b) c (pLat ty) ty d a b (ty.fmt.minmax false) s)

/-- FMAX (R169). -/
def execFmax (c : Ctl) (ty : PTy) (d : Reg) (a : Src) (b : TSrc) (s : State) : Host.Outcome State Fault Refusal :=
  .next (float2 (.fmax c ty d a b) c (pLat ty) ty d a b (ty.fmt.minmax true) s)

/-- FABS (R170). -/
def execFabs (c : Ctl) (ty : PTy) (d : Reg) (a : Src) (s : State) : Host.Outcome State Fault Refusal :=
  .next (float1 (.fabs c ty d a) c (pLat ty) ty d a (fabsCode ty.fmt) s)

/-- FNEG (R170). -/
def execFneg (c : Ctl) (ty : PTy) (d : Reg) (a : Src) (s : State) : Host.Outcome State Fault Refusal :=
  .next (float1 (.fneg c ty d a) c (pLat ty) ty d a (fnegCode ty.fmt) s)

/-- FCMP (R171). -/
def execFcmp (c : Ctl) (ty : FTy) (cond : FCond) (d : Pred) (a : Src) (b : TSrc) (s : State) : Host.Outcome State Fault Refusal :=
  .next (typedP (.fcmp c ty cond d a b) c (fLat ty) d (fun s slot l =>
    fcond cond (ty.fmt.decode (floatIn (.one ty) (rdSrc s slot c.ix a l) 0))
      (ty.fmt.decode (floatIn (.one ty) (rdT s slot c.ix ty.ty b l) 0))) s)

/-- FEXP2 (R172). -/
def execFexp2 (c : Ctl) (ty : TTy) (d : Reg) (a : Src) (s : State) : Host.Outcome State Fault Refusal :=
  .next (float1 (.fexp2 c ty d a) c .sfu (.one ty.fty) d a (ty.fty.fmt.fn .exp2) s)

/-- FLOG2 (R172). -/
def execFlog2 (c : Ctl) (ty : TTy) (d : Reg) (a : Src) (s : State) : Host.Outcome State Fault Refusal :=
  .next (float1 (.flog2 c ty d a) c .sfu (.one ty.fty) d a (ty.fty.fmt.fn .log2) s)

/-- FSIN (R172). -/
def execFsin (c : Ctl) (ty : TTy) (d : Reg) (a : Src) (s : State) : Host.Outcome State Fault Refusal :=
  .next (float1 (.fsin c ty d a) c .sfu (.one ty.fty) d a (ty.fty.fmt.fn .sin) s)

/-- FCOS (R172). -/
def execFcos (c : Ctl) (ty : TTy) (d : Reg) (a : Src) (s : State) : Host.Outcome State Fault Refusal :=
  .next (float1 (.fcos c ty d a) c .sfu (.one ty.fty) d a (ty.fty.fmt.fn .cos) s)

/-- FTANH (R172). -/
def execFtanh (c : Ctl) (ty : TTy) (d : Reg) (a : Src) (s : State) : Host.Outcome State Fault Refusal :=
  .next (float1 (.ftanh c ty d a) c .sfu (.one ty.fty) d a (ty.fty.fmt.fn .tanh) s)

/-- FRND (R174). -/
def execFrnd (c : Ctl) (ty : FTy) (r : Rnd) (d : Reg) (a : Src) (s : State) : Host.Outcome State Fault Refusal :=
  .next (float1 (.frnd c ty r d a) c (fLat ty) (.one ty) d a (ty.fmt.rnd r) s)

/-- FCLASS (R175). -/
def execFclass (c : Ctl) (ty : FTy) (d : Reg) (a : Src) (s : State) : Host.Outcome State Fault Refusal :=
  .next (typedV (.fclass c ty d a) c (fLat ty) d (fun s slot l =>
    .int (BitVec.ofNat 64 (ty.fmt.cls (floatIn (.one ty) (rdSrc s slot c.ix a l) 0)))) s)

/-- FSCALE: its immediate is a signed integer (R173). -/
def execFscale (c : Ctl) (ty : FTy) (r : Rnd) (d : Reg) (a : Src) (b : TSrc) (s : State) : Host.Outcome State Fault Refusal :=
  .next (typedV (.fscale c ty r d a b) c (fLat ty) d (fun s slot l =>
    let n := match b with
      | .reg k => (rdSrc s slot c.ix k l).pay.toInt
      | .imm i => i.toInt
    floatOut (.one ty) fun e => ty.fmt.scale r (floatIn (.one ty) (rdSrc s slot c.ix a l) e) n) s)

end Sys2Proof.Machine
end

