-- ==== Sys2Proof/Machine/Dispatch.lean ====
section
/-! DEFINITION. The dispatch of every instruction to its meaning: one arm per constructor of Instr. -/
namespace Sys2Proof.Machine

/-- The meaning of an instruction or event at a state. -/
def exec (i : Instr) (s : State) : Host.Outcome State Fault Refusal :=
  match i with
  | .nop c => Sys2Proof.Machine.execNop c s
  | .bra c t j => Sys2Proof.Machine.execBra c t j s
  | .brx c a j => Sys2Proof.Machine.execBrx c a j s
  | .call c d t => Sys2Proof.Machine.execCall c d t s
  | .callx c d a => Sys2Proof.Machine.execCallx c d a s
  | .ret c a => Sys2Proof.Machine.execRet c a s
  | .exit c => Sys2Proof.Machine.execExit c s
  | .trap c code => Sys2Proof.Machine.execTrap c code s
  | .tret c => Sys2Proof.Machine.execTret c s
  | .yield c => Sys2Proof.Machine.execYield c s
  | .brk c code => Sys2Proof.Machine.execBrk c code s
  | .cwait c ld st cp sy => Sys2Proof.Machine.execCwait c ld st cp sy s
  | .twait c mask => Sys2Proof.Machine.execTwait c mask s
  | .mfs c d r => Sys2Proof.Machine.execMfs c d r s
  | .mts c a r => Sys2Proof.Machine.execMts c a r s
  | .idem c => Sys2Proof.Machine.execIdem c s
  | .idend c => Sys2Proof.Machine.execIdend c s
  | .svdone c => Sys2Proof.Machine.execSvdone c s
  | .tlbiAll c => Sys2Proof.Machine.execTlbiAll c s
  | .tlbiPage c a => Sys2Proof.Machine.execTlbiPage c a s
  | .trig c line => Sys2Proof.Machine.execTrig c line s
  | .mark c a cls => Sys2Proof.Machine.execMark c a cls s
  | .add c r d a b => Sys2Proof.Machine.execAdd c r d a b s
  | .sub c r d a b => Sys2Proof.Machine.execSub c r d a b s
  | .mul c r d a b => Sys2Proof.Machine.execMul c r d a b s
  | .div c r d a b => Sys2Proof.Machine.execDiv c r d a b s
  | .fldiv c d a b => Sys2Proof.Machine.execFldiv c d a b s
  | .mod c d a b => Sys2Proof.Machine.execMod c d a b s
  | .neg c d a => Sys2Proof.Machine.execNeg c d a s
  | .abs c d a => Sys2Proof.Machine.execAbs c d a s
  | .min c d a b => Sys2Proof.Machine.execMin c d a b s
  | .max c d a b => Sys2Proof.Machine.execMax c d a b s
  | .fma c r d a b k => Sys2Proof.Machine.execFma c r d a b k s
  | .eq c d a b => Sys2Proof.Machine.execEq c d a b s
  | .ne c d a b => Sys2Proof.Machine.execNe c d a b s
  | .lt c d a b => Sys2Proof.Machine.execLt c d a b s
  | .le c d a b => Sys2Proof.Machine.execLe c d a b s
  | .truth c d a => Sys2Proof.Machine.execTruth c d a s
  | .hash c d a => Sys2Proof.Machine.execHash c d a s
  | .and c d a b => Sys2Proof.Machine.execAnd c d a b s
  | .or c d a b => Sys2Proof.Machine.execOr c d a b s
  | .xor c d a b => Sys2Proof.Machine.execXor c d a b s
  | .shl c d a b => Sys2Proof.Machine.execShl c d a b s
  | .shr c d a b => Sys2Proof.Machine.execShr c d a b s
  | .demotionExpiry blk grp slot => Sys2Proof.Machine.execDemotionExpiry blk grp slot s
  | .iadd c ty sat d a b => Sys2Proof.Machine.execIadd c ty sat d a b s
  | .isub c ty sat d a b => Sys2Proof.Machine.execIsub c ty sat d a b s
  | .imul c ty sat d a b => Sys2Proof.Machine.execImul c ty sat d a b s
  | .imulh c ty d a b => Sys2Proof.Machine.execImulh c ty d a b s
  | .imad c ty sat d a b k => Sys2Proof.Machine.execImad c ty sat d a b k s
  | .idiv c ty d a b => Sys2Proof.Machine.execIdiv c ty d a b s
  | .irem c ty d a b => Sys2Proof.Machine.execIrem c ty d a b s
  | .imin c ty d a b => Sys2Proof.Machine.execImin c ty d a b s
  | .imax c ty d a b => Sys2Proof.Machine.execImax c ty d a b s
  | .iabs c ty sat d a => Sys2Proof.Machine.execIabs c ty sat d a s
  | .ineg c ty sat d a => Sys2Proof.Machine.execIneg c ty sat d a s
  | .icmp c ty cond d a b => Sys2Proof.Machine.execIcmp c ty cond d a b s
  | .band c ty d a b => Sys2Proof.Machine.execBand c ty d a b s
  | .bor c ty d a b => Sys2Proof.Machine.execBor c ty d a b s
  | .bxor c ty d a b => Sys2Proof.Machine.execBxor c ty d a b s
  | .bnot c ty d a => Sys2Proof.Machine.execBnot c ty d a s
  | .bshl c ty d a b => Sys2Proof.Machine.execBshl c ty d a b s
  | .bshr c ty d a b => Sys2Proof.Machine.execBshr c ty d a b s
  | .bsar c ty d a b => Sys2Proof.Machine.execBsar c ty d a b s
  | .brol c ty d a b => Sys2Proof.Machine.execBrol c ty d a b s
  | .popc c ty d a => Sys2Proof.Machine.execPopc c ty d a s
  | .clz c ty d a => Sys2Proof.Machine.execClz c ty d a s
  | .ctz c ty d a => Sys2Proof.Machine.execCtz c ty d a s
  | .brev c ty d a => Sys2Proof.Machine.execBrev c ty d a s
  | .bfx c ty d a b => Sys2Proof.Machine.execBfx c ty d a b s
  | .bfi c ty d a b k => Sys2Proof.Machine.execBfi c ty d a b k s
  | .sel c d a b p => Sys2Proof.Machine.execSel c d a b p s
  | .mov c d a => Sys2Proof.Machine.execMov c d a s
  | .movi c d ii => Sys2Proof.Machine.execMovi c d ii s
  | .lea c sh d a b => Sys2Proof.Machine.execLea c sh d a b s
  | .plop c lut d a b k => Sys2Proof.Machine.execPlop c lut d a b k s
  | .pbool c d a => Sys2Proof.Machine.execPbool c d a s
  | .fadd c ty r d a b => Sys2Proof.Machine.execFadd c ty r d a b s
  | .fsub c ty r d a b => Sys2Proof.Machine.execFsub c ty r d a b s
  | .fmul c ty r d a b => Sys2Proof.Machine.execFmul c ty r d a b s
  | .ffma c ty r d a b k => Sys2Proof.Machine.execFfma c ty r d a b k s
  | .fdiv c ty r d a b => Sys2Proof.Machine.execFdiv c ty r d a b s
  | .fsqrt c ty r d a => Sys2Proof.Machine.execFsqrt c ty r d a s
  | .frcp c ty r d a => Sys2Proof.Machine.execFrcp c ty r d a s
  | .frsq c ty r d a => Sys2Proof.Machine.execFrsq c ty r d a s
  | .fmin c ty d a b => Sys2Proof.Machine.execFmin c ty d a b s
  | .fmax c ty d a b => Sys2Proof.Machine.execFmax c ty d a b s
  | .fabs c ty d a => Sys2Proof.Machine.execFabs c ty d a s
  | .fneg c ty d a => Sys2Proof.Machine.execFneg c ty d a s
  | .fcmp c ty cond d a b => Sys2Proof.Machine.execFcmp c ty cond d a b s
  | .fexp2 c ty d a => Sys2Proof.Machine.execFexp2 c ty d a s
  | .flog2 c ty d a => Sys2Proof.Machine.execFlog2 c ty d a s
  | .fsin c ty d a => Sys2Proof.Machine.execFsin c ty d a s
  | .fcos c ty d a => Sys2Proof.Machine.execFcos c ty d a s
  | .ftanh c ty d a => Sys2Proof.Machine.execFtanh c ty d a s
  | .frnd c ty r d a => Sys2Proof.Machine.execFrnd c ty r d a s
  | .fclass c ty d a => Sys2Proof.Machine.execFclass c ty d a s
  | .fscale c ty r d a b => Sys2Proof.Machine.execFscale c ty r d a b s
  | .cvt c dst src sat r d a => Sys2Proof.Machine.execCvt c dst src sat r d a s
  | .cvtpk c ty d a b => Sys2Proof.Machine.execCvtpk c ty d a b s
  | .cvtxp c ty d a b => Sys2Proof.Machine.execCvtxp c ty d a b s
  | .box c f d a => Sys2Proof.Machine.execBox c f d a s
  | .unbox c d a => Sys2Proof.Machine.execUnbox c d a s
  | .tagof c d a => Sys2Proof.Machine.execTagof c d a s
  | .tagset c t d a => Sys2Proof.Machine.execTagset c t d a s
  | .tagchk c d a mask => Sys2Proof.Machine.execTagchk c d a mask s
  | .ld c ty sp o heal obj d a off => Sys2Proof.Machine.execLd c ty sp o heal obj d a off s
  | .st c ty sp o obj a b off => Sys2Proof.Machine.execSt c ty sp o obj a b off s
  | .atom c op ty sp o obj d a b k off => Sys2Proof.Machine.execAtom c op ty sp o obj d a b k off s
  | .red c op ty sp o obj a b off => Sys2Proof.Machine.execRed c op ty sp o obj a b off s
  | .casw c sp o obj pen d a b k off => Sys2Proof.Machine.execCasw c sp o obj pen d a b k off s
  | .fence c o => Sys2Proof.Machine.execFence c o s
  | .pref c l2 a off => Sys2Proof.Machine.execPref c l2 a off s
  | .storeRegistration k => Sys2Proof.Machine.execStoreRegistration k s
  | .nalloc c sz d p => Sys2Proof.Machine.execNalloc c sz d p s
  | .hdrld c o obj pen d a off => Sys2Proof.Machine.execHdrld c o obj pen d a off s
  | .fwdcas c o pen d a b k off => Sys2Proof.Machine.execFwdcas c o pen d a b k off s
  | .refchk c d a => Sys2Proof.Machine.execRefchk c d a s
  | .barinit c cls a b k off => Sys2Proof.Machine.execBarinit c cls a b k off s
  | .bararr c cls d a b off => Sys2Proof.Machine.execBararr c cls d a b off s
  | .bartx c cls d a b off => Sys2Proof.Machine.execBartx c cls d a b off s
  | .bwait c cls texp d a b => Sys2Proof.Machine.execBwait c cls texp d a b s
  | .btest c cls d a b p => Sys2Proof.Machine.execBtest c cls d a b p s
  | .waitTimeout blk grp slot => Sys2Proof.Machine.execWaitTimeout blk grp slot s
  | .waitRetest blk grp slot => Sys2Proof.Machine.execWaitRetest blk grp slot s
  | .pinit c a off => Sys2Proof.Machine.execPinit c a off s
  | .pfill c a b off => Sys2Proof.Machine.execPfill c a b off s
  | .peq c d a b p => Sys2Proof.Machine.execPeq c d a b p s
  | .pwait c texp d a => Sys2Proof.Machine.execPwait c texp d a s
  | .pget c d a p => Sys2Proof.Machine.execPget c d a p s
  | .proot c d a => Sys2Proof.Machine.execProot c d a s
  | .vote c f => Sys2Proof.Machine.execVote c f s
  | .shfl c m d a b pv => Sys2Proof.Machine.execShfl c m d a b pv s
  | .gred c op ty d a => Sys2Proof.Machine.execGred c op ty d a s
  | .gscan c op excl ty d a => Sys2Proof.Machine.execGscan c op excl ty d a s
  | .mtch c payOnly d a => Sys2Proof.Machine.execMtch c payOnly d a s
  | .elect c d => Sys2Proof.Machine.execElect c d s
  | .seal c sp o d a off => Sys2Proof.Machine.execSeal c sp o d a off s
  | .unseal c a => Sys2Proof.Machine.execUnseal c a s
  | .hinfo c f d a => Sys2Proof.Machine.execHinfo c f d a s
  | .tclaim acc first count => Sys2Proof.Machine.execTclaim acc first count s
  | .trel acc first count => Sys2Proof.Machine.execTrel acc first count s
  | .tload slot hw st roleB w => Sys2Proof.Machine.execTload slot hw st roleB w s
  | .tmma acc a b => Sys2Proof.Machine.execTmma acc a b s
  | .tstore acc hw st => Sys2Proof.Machine.execTstore acc hw st s
  | .tzero acc => Sys2Proof.Machine.execTzero acc s
  | .tarr b => Sys2Proof.Machine.execTarr b s
  | .tbwt b self => Sys2Proof.Machine.execTbwt b self s
  | .tloop count => Sys2Proof.Machine.execTloop count s
  | .tendl => Sys2Proof.Machine.execTendl s
  | .tstop => Sys2Proof.Machine.execTstop s
  | .tchk off => Sys2Proof.Machine.execTchk off s
  | .cpy c ss ds k a b n doff => Sys2Proof.Machine.execCpy c ss ds k a b n doff s
  | .cpym c ss k a b geo doff => Sys2Proof.Machine.execCpym c ss k a b geo doff s
  | .cpyg c ss ds isp k a b geo doff => Sys2Proof.Machine.execCpyg c ss ds isp k a b geo doff s
  | .cpyr c ss tk peer a b n doff => Sys2Proof.Machine.execCpyr c ss tk peer a b n doff s
  | .nmatch c ss d a b k => Sys2Proof.Machine.execNmatch c ss d a b k s
  | .nunmatch c d a => Sys2Proof.Machine.execNunmatch c d a s
  | .engineLanding cmd k => Sys2Proof.Machine.execEngineLanding cmd k s
  | .engineCommandComplete cmd => Sys2Proof.Machine.execEngineCommandComplete cmd s
  | .engineCommandFailure cmd fwdAtPeer => Sys2Proof.Machine.execEngineCommandFailure cmd fwdAtPeer s
  | .spanFlitReceive f => Sys2Proof.Machine.execSpanFlitReceive f s
  | .matchTemplateCommit node slot => Sys2Proof.Machine.execMatchTemplateCommit node slot s
  | .spanPortDown die port => Sys2Proof.Machine.execSpanPortDown die port s
  | .ralloc c d a p => Sys2Proof.Machine.execRalloc c d a p s
  | .rcommit c a => Sys2Proof.Machine.execRcommit c a s
  | .rdone c => Sys2Proof.Machine.execRdone c s
  | .rflush c d a => Sys2Proof.Machine.execRflush c d a s
  | .rcard c tk d a b n => Sys2Proof.Machine.execRcard c tk d a b n s
  | .nodeLaunch node core => Sys2Proof.Machine.execNodeLaunch node core s
  | .nodeTimerExpiry node => Sys2Proof.Machine.execNodeTimerExpiry node s
  | .cardLaunch node core => Sys2Proof.Machine.execCardLaunch node core s
  | .cardComplete card => Sys2Proof.Machine.execCardComplete card s
  | .queueBind ask aspace qcb => Sys2Proof.Machine.execQueueBind ask aspace qcb s
  | .queueKick bell w => Sys2Proof.Machine.execQueueKick bell w s
  | .queueCheck q => Sys2Proof.Machine.execQueueCheck q s
  | .signalStore q ii => Sys2Proof.Machine.execSignalStore q ii s
  | .signalAdd q ii => Sys2Proof.Machine.execSignalAdd q ii s
  | .signalPfill q ii => Sys2Proof.Machine.execSignalPfill q ii s
  | .signalCommit q ii => Sys2Proof.Machine.execSignalCommit q ii s
  | .signalTlbi q ii => Sys2Proof.Machine.execSignalTlbi q ii s
  | .waitv q ii => Sys2Proof.Machine.execWaitv q ii s
  | .waitvPoll q ii => Sys2Proof.Machine.execWaitvPoll q ii s
  | .rcbset q ii => Sys2Proof.Machine.execRcbset q ii s
  | .copy q ii => Sys2Proof.Machine.execCopy q ii s
  | .launch q ii => Sys2Proof.Machine.execLaunch q ii s
  | .graphBind q ii => Sys2Proof.Machine.execGraphBind q ii s
  | .graphUnbind q ii => Sys2Proof.Machine.execGraphUnbind q ii s
  | .card q ii => Sys2Proof.Machine.execCard q ii s
  | .marker q ii => Sys2Proof.Machine.execMarker q ii s
  | .packetComplete q ii => Sys2Proof.Machine.execPacketComplete q ii s
  | .blockAdmission launch => Sys2Proof.Machine.execBlockAdmission launch s
  | .blockPlacement launch weights => Sys2Proof.Machine.execBlockPlacement launch weights s
  | .energyWindowStart => Sys2Proof.Machine.execEnergyWindowStart s
  | .groupResourceRelease blk grp => Sys2Proof.Machine.execGroupResourceRelease blk grp s
  | .blockEnd blk => Sys2Proof.Machine.execBlockEnd blk s
  | .corePowerGate core => Sys2Proof.Machine.execCorePowerGate core s
  | .tileEnginePowerGate core => Sys2Proof.Machine.execTileEnginePowerGate core s
  | .coreWake core => Sys2Proof.Machine.execCoreWake core s
  | .thermalThrottle die on => Sys2Proof.Machine.execThermalThrottle die on s
  | .thermalShutdown die => Sys2Proof.Machine.execThermalShutdown die s
  | .powerOn k => Sys2Proof.Machine.execPowerOn k s
  | .translationMiss who aspace va write fetch => Sys2Proof.Machine.execTranslationMiss who aspace va write fetch s
  | .mappingStep part rec => Sys2Proof.Machine.execMappingStep part rec s
  | .resolveObserved who => Sys2Proof.Machine.execResolveObserved who s
  | .faultRecordWrite part => Sys2Proof.Machine.execFaultRecordWrite part s
  | .kill blk cause => Sys2Proof.Machine.execKill blk cause s
  | .preemption blk => Sys2Proof.Machine.execPreemption blk s
  | .cooperativeSave blk grp => Sys2Proof.Machine.execCooperativeSave blk grp s
  | .saveBudgetExpiry blk grp => Sys2Proof.Machine.execSaveBudgetExpiry blk grp s
  | .forcedFullSave blk grp => Sys2Proof.Machine.execForcedFullSave blk grp s
  | .discard blk => Sys2Proof.Machine.execDiscard blk s
  | .resume blk cores => Sys2Proof.Machine.execResume blk cores s
  | .coreRetirement core canSave => Sys2Proof.Machine.execCoreRetirement core canSave s
  | .clusterReclaim core => Sys2Proof.Machine.execClusterReclaim core s
  | .tenantSwitch tenant cores => Sys2Proof.Machine.execTenantSwitch tenant cores s
  | .hostGrant core line exclusive => Sys2Proof.Machine.execHostGrant core line exclusive s
  | .hostSnoopSnpData core line => Sys2Proof.Machine.execHostSnoopSnpData core line s
  | .hostSnoopSnpInv core line => Sys2Proof.Machine.execHostSnoopSnpInv core line s
  | .hostSnoopSnpCur core line => Sys2Proof.Machine.execHostSnoopSnpCur core line s
  | .hostMemRead at_ len => Sys2Proof.Machine.execHostMemRead at_ len s
  | .hostMemWrite at_ bytes => Sys2Proof.Machine.execHostMemWrite at_ bytes s
  | .firewallDrop die f addr => Sys2Proof.Machine.execFirewallDrop die f addr s
  | .relocation st part p q => Sys2Proof.Machine.execRelocation st part p q s
  | .liveMigrationRound part r => Sys2Proof.Machine.execLiveMigrationRound part r s
  | .bootRomCheck => Sys2Proof.Machine.execBootRomCheck s
  | .recoveryImage image sig version => Sys2Proof.Machine.execRecoveryImage image sig version s
  | .attestationRequest nonce => Sys2Proof.Machine.execAttestationRequest nonce s
  | .tdispLock vf => Sys2Proof.Machine.execTdispLock vf s
  | .stopInterface vf => Sys2Proof.Machine.execStopInterface vf s
  | .dieLoss die => Sys2Proof.Machine.execDieLoss die s
  | .hbmFailure die base size => Sys2Proof.Machine.execHbmFailure die base size s
  | .linkLaneRetrain die f => Sys2Proof.Machine.execLinkLaneRetrain die f s
  | .spanLaneLoss die port => Sys2Proof.Machine.execSpanLaneLoss die port s
  | .sessionOpen ss => Sys2Proof.Machine.execSessionOpen ss s
  | .debugStopRequest launch blk grp lane => Sys2Proof.Machine.execDebugStopRequest launch blk grp lane s
  | .pcBreakpoint blk grp slot => Sys2Proof.Machine.execPcBreakpoint blk grp slot s
  | .debugRelease blk grp slot => Sys2Proof.Machine.execDebugRelease blk grp slot s
  | .triggerPulse line => Sys2Proof.Machine.execTriggerPulse line s
  | .triggerPinIn pin => Sys2Proof.Machine.execTriggerPinIn pin s
  | .cueWrite die w => Sys2Proof.Machine.execCueWrite die w s
  | .cueAPulse die => Sys2Proof.Machine.execCueAPulse die s
  | .cueBPulse die sameClockAsA => Sys2Proof.Machine.execCueBPulse die sameClockAsA s
  | .registerWrite r w => Sys2Proof.Machine.execRegisterWrite r w s
  | .instructionCompletion blk grp k => Sys2Proof.Machine.execInstructionCompletion blk grp k s
  | .tmmaCompletion core => Sys2Proof.Machine.execTmmaCompletion core s
  | .startInterface vf => Sys2Proof.Machine.execStartInterface vf s
  | .addressSpaceCreate id part root => Sys2Proof.Machine.execAddressSpaceCreate id part root s
  | .addressSpaceDestroy id => Sys2Proof.Machine.execAddressSpaceDestroy id s
  | .partitionSetup p => Sys2Proof.Machine.execPartitionSetup p s
  | .tenantRcbInstall part aspace addr target => Sys2Proof.Machine.execTenantRcbInstall part aspace addr target s
  | .migrationPackageImport part dev package sig ss => Sys2Proof.Machine.execMigrationPackageImport part dev package sig ss s

end Sys2Proof.Machine
end

