-- ==== Sys2Proof/Machine/Timers.lean ====
section
/-! DEFINITION. What the clock brings about at the start of every step, whatever the plan names: barrier waits that stores have reached (R252), limits of waits (R250), the end of demotions (R66), re-tests (R255), tile engines (R18), power gates (R361), save budgets (R378), queue checks (R344), energy windows and meters (R359, R360), the end of jobs (R325), and flits that wait for a port (R395). -/
namespace Sys2Proof.Machine

/-- Whether a multiple of n clocks lies in the clocks of this step. -/
def State.ticks (s : State) (n : Nat) : Bool := (s.now - s.turn.wait) / n != s.now / n

/-! ### Energy (R359, R360) -/

/-- The energy of a core is shared among the work done there since it was last counted, in proportion to lane cycles and
tile-engine clocks; what the division leaves goes to the first (DESIGN CHOICE, log entry 32). -/
def State.meterCore (s : State) (core e : Nat) : State :=
  let ws := s.work.filter fun w => w.core == core
  let total := (ws.map Work.n).sum
  let shares := ws.map fun w => (w, e * w.n / total)
  let left := e - (shares.map Prod.snd).sum
  let s := shares.foldl (fun s x => s.charge x.1.pid x.1.rcb x.1.own x.2) s
  let s := match ws with
    | w :: _ => s.charge w.pid w.rcb w.own left
    | [] => s
  { s with work := s.work.filter fun w => w.core != core }
/-- The partition, job and region block of the issuer of a command. -/
def State.cmdPayer (s : State) (c : Cmd) : Option (Nat × Nat × Nat) :=
  match c.owner, c.packet with
  | some (blk, _), _ => (s.blk? blk).map fun b => (b.pid, b.eff.job, b.eff.own)
  | none, some (q, _) =>
    match s.queue? q with
    | some k => (s.chain k.pid k.rcb).map fun l => (k.pid, jobOf l, k.rcb)
    | none => none
  | none, none => none
/-- Copy, link and memory energy of the command whose piece moves in this step. -/
def State.meterLinks (s : State) : State :=
  match s.turn.event with
  | some (.engineLanding cmd _) =>
    match (s.cmd? cmd).bind s.cmdPayer with
    | some (pid, job, own) => s.charge pid job own s.turn.links
    | none => s
  | _ => s
/-- The meters of the step; where the running work has charged the module limit, issue clocks are withheld from the lowest
priority that still has them (R23, R360). -/
def State.meter (s : State) : State :=
  if s.turn.energy.isEmpty && s.turn.links == 0 then s
  else
    let s := (s.turn.energy.foldl (fun s e => s.meterCore e.1 e.2) s).meterLinks
    if moduleLimit ≤ (s.jobs.map Job.charge).sum then s.withhold else s

/-! ### Jobs that have ended (R325) -/

/-- Whether a job has ended: none of its queues runs, and no block, launch, node context or card of it is left (DESIGN CHOICE, log
entry 79). -/
def State.jobEnded (s : State) (pid job : Nat) : Bool :=
  !((s.queues.any fun k => k.pid == pid && k.state == 1 && (s.chain k.pid k.rcb).map jobOf == some job) ||
    (s.blocks.any fun b => b.pid == pid && b.eff.job == job) || (s.launches.any fun l => l.pid == pid && l.eff.job == job) ||
    (s.nodes.any fun n => n.pid == pid && n.eff.job == job))
/-- The match entries of jobs that have ended are freed without emitting. -/
def State.endJobs (s : State) : State :=
  { s with matchTab := s.matchTab.filter fun e => !s.jobEnded e.pid e.job }

/-! ### Waits, engines, queues -/

/-- Every slot of every group, in the order of the groups. -/
def State.overSlots (s : State) (f : State → Nat → Nat → Bool → State) : State :=
  s.allGroups.foldl (fun s g => f (f s g.blk g.grp false) g.blk g.grp true) s
/-- The demotions that have run their 1,024 clocks end (R66). -/
def State.endDemotions (s : State) : State :=
  let all (g : Group) : Group := (g.modSlot false (Path.expire s.now)).modSlot true (Path.expire s.now)
  { s with grp := all s.grp, groups := s.groups.map all }
/-- The tile engines whose clocks are over end their TMMA, and a rerun whose clocks are over too (R18, R303). -/
def State.endTmmas (s : State) : State :=
  (s.tiles.map Prod.fst).foldl (fun s c => (s.tmmaDone c).tmmaDone c) s

/-- What the clocks of a step bring about before anything else takes place in it. -/
def State.timers (s : State) : State :=
  let s := (s.testWritten.startWindow.meter).endDemotions.endTmmas.gateIdle
  let s := s.overSlots State.timeout
  let s := if s.ticks 32 then s.overSlots State.retest else s
  let s := s.allGroups.foldl (fun s g => s.overBudget g.blk g.grp) s
  let s := if s.ticks (2 ^ 24) then (s.queues.map Queue.id).foldl State.checkQueue s else s
  (s.endJobs).sendFlits

end Sys2Proof.Machine
end

