-- ==== Sys2Proof/Machine/Step.lean ====
section
/-! DEFINITION. One step of the machine: an event of the plan, or one issue of one agent. -/
namespace Sys2Proof.Machine

/-- One step: clocks pass, what they bring about takes place, then an event or an issue. -/
def step (s : State) : Host.Outcome State Fault Refusal :=
  match s.tick.timers.fetch with
  | .done s => .next s
  | .instr i s => exec i s

/-- The state in which the next step fetches and runs the instruction of a table word (DESIGN CHOICE, log entry 4). -/
def State.withFetchWord (s : State) (nbits w : Nat) : State := placeWord s nbits w

end Sys2Proof.Machine
end

