-- ==== Sys2Proof/Safety.lean ====
section
/-! DEFINITION. What claims speak of: the invariant that every step keeps, when an instruction issues, what it completes with, and the parts of the state that a frame leaves alone. -/
namespace Sys2Proof.Machine

/-- The memory of the device keeps its canonical form. -/
def State.memOk (s : State) : Bool := Memory.wf s.mem

end Sys2Proof.Machine

namespace Sys2Proof.Machine.Claim

/-! ### When an instruction issues -/

/-- The issuing group once the results due by now have taken effect (R78). -/
def dueGrp (s : State) : Group := s.grp.settle s.now
/-- The state with that group. -/
def dueState (s : State) : State := s.setGrp fun g => g.settle s.now

/-- Path p of slot b issues i for the first time and nothing holds it: no replay and no wait, a mode that may run i,
registers inside the allotment (R84), no interlock, no counter at its limit and no busy unit (R12, R79, R80). -/
abbrev IssuesAs (i : Instr) (sc : Sched) (gd : Guard) (ix : BitVec 3) (s : State) (b : Bool) (p : Path) : Prop :=
  s.cur = some (b, p) ∧ p.redo = none ∧ p.wait = .none ∧ (p.user = true → modeFault i = none) ∧
    usesOk (usesOf i) (dueGrp s) ix = true ∧
    (dueState s).holdFor i sc gd ix b p = none
/-- The same for an instruction that may be guarded. -/
abbrev Issues (i : Instr) (c : Ctl) (s : State) (b : Bool) (p : Path) : Prop := IssuesAs i c.sched c.guard c.ix s b p
/-- The same for an instruction that must be unguarded. -/
abbrev IssuesU (i : Instr) (c : UCtl) (s : State) (b : Bool) (p : Path) : Prop := IssuesAs i c.sched .always c.ix s b p

/-- What the issue of a guarded instruction gives its effect. -/
abbrev issuedOf (i : Instr) (c : Ctl) (s : State) (b : Bool) (p : Path) : Issue := s.issued i c.sched c.guard c.ix b p
/-- What the issue of an unguarded instruction gives its effect. -/
abbrev issuedU (i : Instr) (c : UCtl) (s : State) (b : Bool) (p : Path) : Issue := s.issued i c.sched .always c.ix b p

/-! ### What an instruction completes with -/

/-- Register writes that give vector register n, or g register n, the value f l, and change nothing else of a group:
in a vector register the lanes of act, in a g register the value of the lowest lane of act (R86). -/
def WritesReg (d : Reg) (n : Nat) (act : Mask) (f : Nat → Val) (ws : List RegWrite) : Prop :=
  ∀ g : Group,
    match d with
    | .g _ =>
      g.wrs ws = match lowest act with
        | some l => { g with g := sput Val.nil g.g (n - 320) (f l) }
        | none => g
    | .v _ | .ix _ =>
      g.wrs ws = { g with v := (g.wrs ws).v } ∧
        ∀ k l, l < 32 → (g.wrs ws).vr k l = if k = n ∧ act.getLsbD l then f l else g.vr k l
/-- Register writes that set bit l of predicate n to f l for the lanes of act, and change nothing else of a group. -/
def WritesPred (n : Nat) (act : Mask) (f : Nat → Bool) (ws : List RegWrite) : Prop :=
  ∀ g : Group, g.wrs ws = { g with p := (g.wrs ws).p } ∧
    ∀ q l, l < 32 → ((g.wrs ws).pr q).getLsbD l = if q = n ∧ act.getLsbD l then f l else (g.pr q).getLsbD l

/-- i completes: it writes f of each Active lane to D and the path goes on at the next instruction. -/
def GivesVal (i : Instr) (c : Ctl) (lat : Lat) (d : Reg) (s : State) (b : Bool) (p : Path) (f : State → Nat → Val) : Prop :=
  let r := issuedOf i c s b p
  ∃ ws, exec i s = .next (r.state.finish b c.sched lat r.act ws) ∧
    WritesReg d (regNum r.state.grp c.ix d) r.act (f r.state) ws
/-- i completes: it writes f of each Active lane to predicate D and the path goes on at the next instruction. -/
def GivesBit (i : Instr) (c : Ctl) (lat : Lat) (d : Pred) (s : State) (b : Bool) (p : Path) (f : State → Nat → Bool) : Prop :=
  let r := issuedOf i c s b p
  ∃ ws, exec i s = .next (r.state.finish b c.sched lat r.act ws) ∧ WritesPred d.val r.act (f r.state) ws

/-! ### Integers as bit vectors -/

/-- The low bits of a word that a type keeps: sign-extended for .i32, zero-extended otherwise. -/
def keep (t : ITy) (x : Word) : Word :=
  match t with
  | .i32 => (x.setWidth 32).signExtend 64
  | .n32 => (x.setWidth 32).setWidth 64
  | .i64 | .n64 => x
/-- The number a type reads in a word. -/
def number (t : ITy) (x : Word) : Int :=
  match t with
  | .i32 => (x.setWidth 32).toInt
  | .n32 => (x.setWidth 32).toNat
  | .i64 => x.toInt
  | .n64 => x.toNat
/-- The least and the greatest number of a type. -/
def least (t : ITy) : Int :=
  match t with
  | .i32 => -2147483648
  | .i64 => -9223372036854775808
  | .n32 | .n64 => 0
def greatest (t : ITy) : Int :=
  match t with
  | .i32 => 2147483647
  | .n32 => 4294967295
  | .i64 => 9223372036854775807
  | .n64 => 18446744073709551615
/-- A number as a result: bounded to the type's range when saturating, else modulo 2 to the width. -/
def fitInt (t : ITy) (sat : Bool) (e : Int) : Val :=
  if sat then
    if e < least t then .raw (BitVec.ofInt 64 (least t))
    else if greatest t < e then .raw (BitVec.ofInt 64 (greatest t))
    else .raw (BitVec.ofInt 64 e)
  else .raw (keep t (BitVec.ofInt 64 e))

/-! ### Bits -/

/-- An operation on the w bits a bit instruction reads; the bits above them are zero. -/
def onBits (t : BTy) (f : (w : Nat) → BitVec w → BitVec w) (x : Word) : Word :=
  match t with
  | .b32 => (f 32 (x.setWidth 32)).setWidth 64
  | .b64 => f 64 x
/-- Bit j of the w bits of a word. -/
def bitAt (w : Nat) (x : Word) (j : Nat) : Bool := decide (j < w) && x.getLsbD j
/-- Bit j of the w bits of a word, read beyond them as a signed or an unsigned type is extended. -/
def bitExt (t : ITy) (x : Word) (j : Nat) : Bool :=
  if j < t.w then x.getLsbD j else t.signed && x.getLsbD (t.w - 1)

/-! ### Floats -/

/-- The rational number m × 2^e. -/
def ratOf (m : Nat) (e : Int) : ℚ := m * (2 : ℚ) ^ e
/-- A value is finite, with a sign and a magnitude. -/
def FiniteIs (v : FVal) (neg : Bool) (x : ℚ) : Prop := ∃ m e, v = .fin neg m e ∧ x = ratOf m e
/-- The signed number of a sign and a magnitude. -/
def signedBy (neg : Bool) (x : ℚ) : ℚ := if neg then -x else x
/-- A code is a magnitude with a sign, rounded once: the format's rounding of the exact m × 2^e, or of the middle of an
interval of more than 60 bits around the magnitude. `is`, `below` and `above` say of a number that it is the magnitude,
or lies below or above it. -/
def RoundedOnce (f : Fmt) (r : Rnd) (neg : Bool) (is below above : ℚ → Prop) (code : Nat) : Prop :=
  (∃ m e, code = f.round r neg m e ∧ is (ratOf m e)) ∨
    ∃ m e, code = f.round r neg (2 * m + 1) (e - 1) ∧ 2 ^ 60 ≤ m ∧ below (ratOf m e) ∧ above (ratOf (m + 1) e)
/-- The same for a rational magnitude. -/
def RoundedTo (f : Fmt) (r : Rnd) (neg : Bool) (x : ℚ) (code : Nat) : Prop :=
  RoundedOnce f r neg (fun y => y = x) (fun y => y < x) (fun y => x < y) code
/-- The magnitude of code c of a format, its exponents without an upper bound (R36, R37). -/
def gridVal (f : Fmt) (c : Nat) : ℚ :=
  if c < 2 ^ f.mb then ratOf c (1 - f.bias - f.mb)
  else ratOf (c % 2 ^ f.mb + 2 ^ f.mb) ((c / 2 ^ f.mb : Nat) - f.bias - f.mb)
/-- A positive magnitude rounds to that of code c (Table 3.4): nearest, a tie to the even code, or directed. -/
def RoundsTo (f : Fmt) (r : Rnd) (neg : Bool) (x : ℚ) (c : Nat) : Prop :=
  match r, neg with
  | .rtz, _ | .rup, true | .rdn, false => gridVal f c ≤ x ∧ x < gridVal f (c + 1)
  | .rup, false | .rdn, true => x ≤ gridVal f c ∧ ∀ k, k < c → gridVal f k < x
  | .rne, _ => ∀ k, k ≠ c → |x - gridVal f c| < |x - gridVal f k| ∨ |x - gridVal f c| = |x - gridVal f k| ∧ c % 2 = 0
/-- The code of a positive magnitude rounded once, its overflow as in Table 3.5, or Table 3.6 in a format without infinity. -/
def CodeIs (f : Fmt) (r : Rnd) (neg : Bool) (x : ℚ) (code : Nat) : Prop :=
  let spill : Nat := if f.inf = true ∧ (r = .rne ∨ r = .rup ∧ neg = false ∨ r = .rdn ∧ neg = true) then f.infCode else f.topCode
  ∃ c, RoundsTo f r neg x c ∧ code = f.signed neg (if f.topCode < c then spill else c)
/-- A value in a format: the default NaN, an infinity, or a finite value rounded once. -/
def PutIs (f : Fmt) (r : Rnd) (v : FVal) (code : Nat) : Prop :=
  (v.isNan = true → code = f.nan) ∧ (∀ n, v = .inf n → code = f.infOf n) ∧
    ∀ n x, FiniteIs v n x → RoundedTo f r n x code
/-- The exact sum of two values; the sign of an exact zero sum of opposite signs is that of R40. -/
def SumIs (r : Rnd) (a b v : FVal) : Prop :=
  (a.isNan = true ∨ b.isNan = true → v.isNan = true) ∧
  (∀ n m, a = .inf n → b = .inf m → if n = m then v = .inf n else v.isNan = true) ∧
  (∀ n m x, a = .inf n → FiniteIs b m x → v = .inf n) ∧ (∀ n m x, FiniteIs a m x → b = .inf n → v = .inf n) ∧
  ∀ n x m y, FiniteIs a n x → FiniteIs b m y →
    let t := signedBy n x + signedBy m y
    FiniteIs v (if t = 0 then (if n = m then n else decide (r = .rdn)) else decide (t < 0)) |t|
/-- The exact product of two values. -/
def ProductIs (a b v : FVal) : Prop :=
  (a.isNan = true ∨ b.isNan = true → v.isNan = true) ∧
  (∀ n m, a = .inf n → b = .inf m → v = .inf (n != m)) ∧
  (∀ n m x, a = .inf n ∧ FiniteIs b m x ∨ FiniteIs a m x ∧ b = .inf n → if x = 0 then v.isNan = true else v = .inf (n != m)) ∧
  ∀ n x m y, FiniteIs a n x → FiniteIs b m y → FiniteIs v (n != m) (x * y)
/-- The quotient of two values as a code (R167). -/
def QuotientIs (f : Fmt) (r : Rnd) (a b : FVal) (code : Nat) : Prop :=
  (a.isNan = true ∨ b.isNan = true → code = f.nan) ∧ (∀ n m, a = .inf n → b = .inf m → code = f.nan) ∧
  (∀ n m x, a = .inf n → FiniteIs b m x → code = f.infOf (n != m)) ∧
  (∀ n m x, FiniteIs a n x → b = .inf m → code = f.signed (n != m) 0) ∧
  ∀ n x m y, FiniteIs a n x → FiniteIs b m y →
    (y = 0 → x = 0 → code = f.nan) ∧ (y = 0 → x ≠ 0 → code = f.infOf (n != m)) ∧
      (y ≠ 0 → RoundedTo f r (n != m) (x / y) code)
/-- The square root of a value as a code (R167). -/
def RootIs (f : Fmt) (r : Rnd) (a : FVal) (code : Nat) : Prop :=
  (a.isNan = true → code = f.nan) ∧ (a = .inf false → code = f.infOf false) ∧ (a = .inf true → code = f.nan) ∧
  ∀ n x, FiniteIs a n x →
    (x = 0 → code = f.signed n 0) ∧ (x ≠ 0 → n = true → code = f.nan) ∧
      (x ≠ 0 → n = false → RoundedOnce f r false (fun y => y * y = x) (fun y => y * y < x) (fun y => x < y * y) code)
/-- The reciprocal of the square root of a value as a code (R168). -/
def InverseRootIs (f : Fmt) (r : Rnd) (a : FVal) (code : Nat) : Prop :=
  (a.isNan = true → code = f.nan) ∧ (a = .inf false → code = f.signed false 0) ∧ (a = .inf true → code = f.nan) ∧
  ∀ n x, FiniteIs a n x →
    (x = 0 → code = f.infOf n) ∧ (x ≠ 0 → n = true → code = f.nan) ∧
      (x ≠ 0 → n = false →
        RoundedOnce f r false (fun y => y * y * x = 1) (fun y => y * y * x < 1) (fun y => 1 < y * y * x) code)
/-- The order of two values; none when one is a NaN, and -0 equals +0. -/
def orderOf (a b : FVal) : Option Ordering :=
  match a, b with
  | .nan _, _ | _, .nan _ => none
  | .inf n, .inf m => some (if n = m then .eq else if n then .lt else .gt)
  | .inf n, .fin .. => some (if n then .lt else .gt)
  | .fin .., .inf m => some (if m then .gt else .lt)
  | .fin n k e, .fin m j d => some (compare (signedBy n (ratOf k e)) (signedBy m (ratOf j d)))
/-- The truth of a quiet comparison (Table of R171). -/
def quietly (c : FCond) (o : Option Ordering) : Bool :=
  match c with
  | .eq => o == some .eq
  | .ne => o != some .eq
  | .lt => o == some .lt
  | .le => o == some .lt || o == some .eq
  | .gt => o == some .gt
  | .ge => o == some .gt || o == some .eq
  | .un => o.isNone
  | .or => o.isSome
/-- The order of R169, where -0 lies below +0. -/
def belowOf (a b : FVal) : Bool := orderOf a b == some .lt || (orderOf a b == some .eq && a.neg && !b.neg)
/-- minimumNumber of two codes (R169). -/
def MinIs (f : Fmt) (x y code : Nat) : Prop :=
  let a := f.decode x
  let b := f.decode y
  (a.isNan = true → b.isNan = true → code = f.nan) ∧ (a.isNan = true → b.isNan = false → code = y) ∧
    (a.isNan = false → b.isNan = true → code = x) ∧ (belowOf a b = true → code = x) ∧ (belowOf b a = true → code = y) ∧
    (a.isNan = false → b.isNan = false → belowOf a b = false → belowOf b a = false → code = x ∨ code = y)
/-- maximumNumber of two codes (R169). -/
def MaxIs (f : Fmt) (x y code : Nat) : Prop :=
  let a := f.decode x
  let b := f.decode y
  (a.isNan = true → b.isNan = true → code = f.nan) ∧ (a.isNan = true → b.isNan = false → code = y) ∧
    (a.isNan = false → b.isNan = true → code = x) ∧ (belowOf a b = true → code = y) ∧ (belowOf b a = true → code = x) ∧
    (a.isNan = false → b.isNan = false → belowOf a b = false → belowOf b a = false → code = x ∨ code = y)
/-- A magnitude rounded to a whole number (R174). -/
def WholeIs (r : Rnd) (neg : Bool) (x : ℚ) (k : Nat) : Prop :=
  match r with
  | .rtz => (k : ℚ) ≤ x ∧ x < k + 1
  | .rup => if neg then (k : ℚ) ≤ x ∧ x < k + 1 else x ≤ k ∧ (k : ℚ) < x + 1
  | .rdn => if neg then x ≤ k ∧ (k : ℚ) < x + 1 else (k : ℚ) ≤ x ∧ x < k + 1
  | .rne => |x - k| ≤ 1 / 2 ∧ (|x - k| = 1 / 2 → k % 2 = 0)
/-- The class of a code (R175). -/
def ClassIs (f : Fmt) (v : FVal) (k : Nat) : Prop :=
  (v = .inf true → k = 0) ∧ (v = .inf false → k = 7) ∧ (v = .nan false → k = 8) ∧ (v = .nan true → k = 9) ∧
  ∀ n x, FiniteIs v n x →
    (x = 0 → k = if n then 3 else 4) ∧
    (0 < x → x < ratOf 1 (1 - f.bias) → k = if n then 2 else 5) ∧ (ratOf 1 (1 - f.bias) ≤ x → k = if n then 1 else 6)
/-- Element k of an operand of a float type. -/
def elem (t : PTy) (x : Val) (k : Nat) : FVal := t.fmt.decode (floatIn t x k)

/-! ### Generic operands -/

/-- Operand B of a generic opcode in lane l, whose immediate takes the tag that A asks for (R123). -/
def rdB (s : State) (slot : Bool) (ix : BitVec 3) (a : Src) (b : GSrc) (l : Nat) : Val :=
  match b with
  | .reg r => rdSrc s slot ix r l
  | .imm i => gimmFor (rdSrc s slot ix a l).tag i
/-- The float format of a tag, in a family. -/
def tagFmt (F : Fam) (t : Tag) (f : Fmt) : Prop := floatFam t = some (F, f)
/-- The int of R125: an exact number inside the range of R35. -/
def intFits (e : Int) : Prop := -2 ^ 63 ≤ e ∧ e ≤ 2 ^ 63 - 1
/-- FLDIV and MOD of two finite floats, the second not zero (R127). -/
def FloorDivIs (f : Fmt) (n : Bool) (x : ℚ) (m : Bool) (y : ℚ) (code : Nat) : Prop :=
  let q := ⌊signedBy n x / signedBy m y⌋
  (q = 0 → code = f.signed (n != m) 0) ∧ (q ≠ 0 → RoundedTo f .rne (decide (q < 0)) |(q : ℚ)| code)
def FloorModIs (f : Fmt) (n : Bool) (x : ℚ) (m : Bool) (y : ℚ) (code : Nat) : Prop :=
  let t := signedBy n x - signedBy m y * (⌊signedBy n x / signedBy m y⌋ : ℚ)
  (t = 0 → code = f.signed m 0) ∧ (t ≠ 0 → RoundedTo f .rne (decide (t < 0)) |t| code)

/-! ### Memory instructions with one Active lane -/

/-- Where the only Active lane l of a memory instruction reaches, when nothing raises, misses or faults on the way (steps 1 and 2
of R186): its address, its home, whether the base barrier has already acquired, and the state in which it performs. -/
def oneLane (k : MemOp) (r : Issue) (l : Nat) : Option (Nat × Home × Bool × State) :=
  if l < 32 ∧ r.act = laneBit l ∧ k.check l = none then
    match (r.state.before r.path k.ord).formLane r.path k [] false l with
    | (.at va, acq, t) =>
      match t.form2 r.path k l (.at va) with
      | .at _ =>
        match t.locateLane r.path k [] l va with
        | (⟨_, _, .home h, _, []⟩, t) => some (va, h, acq, t)
        | _ => none
      | _ => none
    | _ => none
  else none
/-- The byte of physical memory that a path reads: its core's copy or memory, under its own stores (R205, R214). -/
def byteSeen (t : State) (me : Writer) (a : Nat) : Byte :=
  BitVec.ofNat 8 ((t.seen me (a / 8)).pay.toNat / 2 ^ (8 * (a % 8)))

/-- What the only Active lane of a memory instruction comes to when nothing raises, misses, stops or faults: its values after the
read barrier, and the state in which the instruction completes (R186, R239). -/
def performs (k : MemOp) (r : Issue) (z : Bool) (l : Nat) : Option (LaneOut × State) :=
  match oneLane k r l with
  | some (va, h, acq, t) =>
    match k.one (r.state.me r.path) l va h t with
    | (.ok o, t) =>
      let t := t.accessed (r.state.me r.path) k h
      if o.raise.isSome || o.lane != l then none
      else if k.barrier then
        match State.barVals r.path z k [] o o.vals [] acq t with
        | (.done o, _, t) => if o.raise.isSome then none else some (o, t)
        | _ => none
      else some (o, t)
    | _ => none
  | none => none

/-! ### Frames -/

/-- Whether an instruction only computes registers: it has no access to memory, no fault and no class of its own. -/
def registerOnly : Instr → Option Ctl
  | .iadd c .. | .isub c .. | .imul c .. | .imulh c .. | .imad c .. | .imin c .. | .imax c .. | .iabs c .. | .ineg c .. => some c
  | .idiv c .. | .irem c .. | .icmp c .. => some c
  | .band c .. | .bor c .. | .bxor c .. | .bnot c .. | .bshl c .. | .bshr c .. | .bsar c .. | .brol c .. => some c
  | .popc c .. | .clz c .. | .ctz c .. | .brev c .. | .bfx c .. | .bfi c .. => some c
  | .mov c .. | .movi c .. | .sel c .. | .lea c .. | .plop c .. | .pbool c .. | .mfs c .. => some c
  | .fadd c .. | .fsub c .. | .fmul c .. | .ffma c .. | .fdiv c .. | .fsqrt c .. | .frcp c .. | .frsq c .. => some c
  | .fmin c .. | .fmax c .. | .fabs c .. | .fneg c .. | .fcmp c .. | .frnd c .. | .fscale c .. | .fclass c .. => some c
  | .fexp2 c .. | .flog2 c .. | .fsin c .. | .fcos c .. | .ftanh c .. => some c
  | .cvt c .. | .cvtpk c .. | .cvtxp c .. | .unbox c .. | .tagof c .. | .tagchk c .. => some c
  | .vote c .. | .shfl c .. | .mtch c .. | .elect c .. | .gred c .. | .gscan c .. => some c
  | _ => none
/-- The registers an instruction writes. -/
def written (i : Instr) (s : State) (ix : BitVec 3) : List RegName :=
  dstNames (dueGrp s) ix (usesOf i).d ++ (usesOf i).also.map fun p => .p p.val
/-- A register write goes to one of the 32 lanes. -/
def inLane : RegWrite → Prop
  | .v _ l _ | .p _ l _ => l < 32
  | .g _ _ => True
/-- No result of an earlier instruction is pending for a register: every pending write goes to a lane of another one. -/
def quiet (g : Group) (r : RegName) : Prop := ∀ k ∈ g.pend, ∀ w ∈ k.writes, w.reg ≠ r ∧ inLane w
/-- A group keeps its registers but for those of ds and those for which an earlier result was pending, and its system
registers; its counters, its pending results, its paths and the clocks of a save handler's budget may change. -/
def KeepsRegs (ds : List RegName) (g h : Group) : Prop :=
  (∀ n l, l < 32 → .v n ∉ ds → quiet g (.v n) → h.vr n l = g.vr n l) ∧
    (∀ n, .g n ∉ ds → quiet g (.g n) → h.gr n = g.gr n) ∧ (∀ n, .p n ∉ ds → quiet g (.p n) → h.pr n = g.pr n) ∧
    h = { g with v := h.v, g := h.g, p := h.p, pend := h.pend, ld := h.ld, stc := h.stc, cp := h.cp, sy := h.sy,
                 slot0 := h.slot0, slot1 := h.slot1, stack := h.stack, frames := h.frames, fused := h.fused,
                 saveFrom := h.saveFrom, saveFrozen := h.saveFrozen }

/-! ### Packets -/

/-- Packet i of queue q has started and runs: k and p are the queue and the packet, of the type that sel selects. -/
def Running (s : State) (q i : Nat) (sel : List Word → Bool) (k : Queue) (p : Packet) : Prop :=
  s.queue? q = some k ∧ k.packet? i = some p ∧ p.st = .running ∧ sel p.words = true
/-- The n words that a packet reads at an address are vs, and it goes on in state u: no page is missing, none refuses. -/
def Finds (s : State) (k : Queue) (i va n : Nat) (vs : List Val) (u : State) : Prop :=
  ∀ f : List Val → State → State, s.packetReads k i va n f = f vs u
/-- The word that a packet reaches at an address is h, and it goes on in state u. -/
def Reaches (s : State) (k : Queue) (i va : Nat) (need : Need) (h : Home) (u : State) : Prop :=
  ∀ f : Home → State → State, s.packetHome k i va need f = f h u

end Sys2Proof.Machine.Claim
end

