-- ==== Sys2Proof/Certificates/Slice0/Obligations.lean ====
section
/-! DEFINITION. What is claimed of the machine, from the numbered rules of spec/. A statement that an instruction completes names the register writes it makes; when a write of the variable class or of a version 2 word takes effect is the model's reading (DEDUCED, log entry 9). A statement that holds a choice of the model names its log entry. -/
open Sys2Proof Sys2Proof.Machine Sys2Proof.Machine.Claim

/-- R152: IADD, ISUB, IMUL, IMAD, IABS, INEG, IMIN and IMAX complete with the exact result, bounded to the range of the
type when saturating and modulo 2 to the width otherwise; IMULH with the upper half of the exact product. -/
def Obligations.IntegerArithmetic : Prop :=
  ∀ (c : Ctl) (ty : ITy) (sy : STy) (sat : Bool) (d : Reg) (a : Src) (b : TSrc) (k : Src) (s : State) (z : Bool) (p : Machine.Path),
    let x (t : State) (l : Nat) := number ty (rdSrc t z c.ix a l).pay
    let y (t : State) (l : Nat) := number ty (rdT t z c.ix ty.ty b l).pay
    let v (t : State) (l : Nat) := number ty (rdSrc t z c.ix k l).pay
    let x' (t : State) (l : Nat) := number sy.ity (rdSrc t z c.ix a l).pay
    (Issues (.iadd c ty sat d a b) c s z p →
      GivesVal (.iadd c ty sat d a b) c .alu d s z p fun t l => fitInt ty sat (x t l + y t l)) ∧
    (Issues (.isub c ty sat d a b) c s z p →
      GivesVal (.isub c ty sat d a b) c .alu d s z p fun t l => fitInt ty sat (x t l - y t l)) ∧
    (Issues (.imul c ty sat d a b) c s z p →
      GivesVal (.imul c ty sat d a b) c .alu d s z p fun t l => fitInt ty sat (x t l * y t l)) ∧
    (Issues (.imad c ty sat d a b k) c s z p →
      GivesVal (.imad c ty sat d a b k) c .alu d s z p fun t l => fitInt ty sat (x t l * y t l + v t l)) ∧
    (Issues (.imulh c ty d a b) c s z p →
      GivesVal (.imulh c ty d a b) c .alu d s z p fun t l => fitInt ty false ((x t l * y t l).fdiv (2 ^ ty.w))) ∧
    (Issues (.imin c ty d a b) c s z p →
      GivesVal (.imin c ty d a b) c .alu d s z p fun t l => fitInt ty false (if x t l ≤ y t l then x t l else y t l)) ∧
    (Issues (.imax c ty d a b) c s z p →
      GivesVal (.imax c ty d a b) c .alu d s z p fun t l => fitInt ty false (if x t l ≤ y t l then y t l else x t l)) ∧
    (Issues (.iabs c sy sat d a) c s z p →
      GivesVal (.iabs c sy sat d a) c .alu d s z p fun t l =>
        fitInt sy.ity sat (if x' t l < 0 then -x' t l else x' t l)) ∧
    (Issues (.ineg c sy sat d a) c s z p →
      GivesVal (.ineg c sy sat d a) c .alu d s z p fun t l => fitInt sy.ity sat (-x' t l))

/-- R153: IDIV and IREM truncate toward zero; division by 0 gives all ones and leaves the dividend as the remainder; the
quotient of the least number by -1 wraps. Neither faults. -/
def Obligations.IntegerDivision : Prop :=
  ∀ (c : Ctl) (ty : ITy) (d : Reg) (a : Src) (b : TSrc) (s : State) (z : Bool) (p : Machine.Path),
    let x (t : State) (l : Nat) := number ty (rdSrc t z c.ix a l).pay
    let y (t : State) (l : Nat) := number ty (rdT t z c.ix ty.ty b l).pay
    (Issues (.idiv c ty d a b) c s z p →
      ∃ q : State → Nat → Val, GivesVal (.idiv c ty d a b) c .sfu d s z p q ∧ ∀ t l,
        (y t l = 0 → q t l = .raw (keep ty (-1))) ∧
        (ty.signed = true → x t l = least ty → y t l = -1 → q t l = .raw (BitVec.ofInt 64 (least ty))) ∧
        (y t l ≠ 0 → ¬(ty.signed = true ∧ x t l = least ty ∧ y t l = -1) →
          q t l = .raw (BitVec.ofInt 64 ((x t l).tdiv (y t l))))) ∧
    (Issues (.irem c ty d a b) c s z p →
      ∃ r : State → Nat → Val, GivesVal (.irem c ty d a b) c .sfu d s z p r ∧ ∀ t l,
        (y t l = 0 → r t l = .raw (keep ty (rdSrc t z c.ix a l).pay)) ∧
        (ty.signed = true → x t l = least ty → y t l = -1 → r t l = .raw 0) ∧
        (y t l ≠ 0 → r t l = .raw (BitVec.ofInt 64 ((x t l) - (y t l) * (x t l).tdiv (y t l)))))

/-- R155: BAND, BOR, BXOR and BNOT are bitwise; BSHL, BSHR and BSAR shift by the whole of B read as an unsigned number;
BROL rotates by it modulo the width. -/
def Obligations.BitwiseAndShifts : Prop :=
  ∀ (c : Ctl) (ty : BTy) (d : Reg) (a : Src) (b : TSrc) (s : State) (z : Bool) (p : Machine.Path),
    let x (t : State) (l : Nat) := (rdSrc t z c.ix a l).pay
    let y (t : State) (l : Nat) := (rdT t z c.ix ty.ty b l).pay
    (Issues (.band c ty d a b) c s z p →
      GivesVal (.band c ty d a b) c .alu d s z p fun t l => .raw (onBits ty (fun _ u => u) (x t l &&& y t l))) ∧
    (Issues (.bor c ty d a b) c s z p →
      GivesVal (.bor c ty d a b) c .alu d s z p fun t l => .raw (onBits ty (fun _ u => u) (x t l ||| y t l))) ∧
    (Issues (.bxor c ty d a b) c s z p →
      GivesVal (.bxor c ty d a b) c .alu d s z p fun t l => .raw (onBits ty (fun _ u => u) (x t l ^^^ y t l))) ∧
    (Issues (.bnot c ty d a) c s z p →
      GivesVal (.bnot c ty d a) c .alu d s z p fun t l => .raw (onBits ty (fun _ u => ~~~u) (x t l))) ∧
    (Issues (.bshl c ty d a b) c s z p →
      GivesVal (.bshl c ty d a b) c .alu d s z p fun t l => .raw (onBits ty (fun _ u => u <<< (y t l).toNat) (x t l))) ∧
    (Issues (.bshr c ty d a b) c s z p →
      GivesVal (.bshr c ty d a b) c .alu d s z p fun t l => .raw (onBits ty (fun _ u => u >>> (y t l).toNat) (x t l))) ∧
    (Issues (.bsar c ty d a b) c s z p →
      GivesVal (.bsar c ty d a b) c .alu d s z p fun t l => .raw (onBits ty (fun _ u => u.sshiftRight (y t l).toNat) (x t l))) ∧
    (Issues (.brol c ty d a b) c s z p →
      GivesVal (.brol c ty d a b) c .alu d s z p fun t l =>
        .raw (onBits ty (fun w u => u.rotateLeft ((y t l).toNat % w)) (x t l)))

/-- R156: POPC counts the 1 bits, CLZ the 0 bits above the highest 1 bit, CTZ those below the lowest, CLZ and CTZ of 0
give the width, and BREV reverses the bits. -/
def Obligations.BitCounts : Prop :=
  ∀ (c : Ctl) (ty : BTy) (d : Reg) (a : Src) (s : State) (z : Bool) (p : Machine.Path),
    let x (t : State) (l : Nat) := (rdSrc t z c.ix a l).pay
    (Issues (.popc c ty d a) c s z p →
      GivesVal (.popc c ty d a) c .alu d s z p fun t l =>
        .raw (BitVec.ofNat 64 ((List.range ty.w).countP fun j => (x t l).getLsbD j))) ∧
    (Issues (.clz c ty d a) c s z p →
      ∃ n : State → Nat → Nat, GivesVal (.clz c ty d a) c .alu d s z p (fun t l => .raw (BitVec.ofNat 64 (n t l))) ∧
        ∀ t l, n t l ≤ ty.w ∧ (∀ j, ty.w - n t l ≤ j → bitAt ty.w (x t l) j = false) ∧
          (n t l < ty.w → bitAt ty.w (x t l) (ty.w - 1 - n t l) = true)) ∧
    (Issues (.ctz c ty d a) c s z p →
      ∃ n : State → Nat → Nat, GivesVal (.ctz c ty d a) c .alu d s z p (fun t l => .raw (BitVec.ofNat 64 (n t l))) ∧
        ∀ t l, n t l ≤ ty.w ∧ (∀ j, j < n t l → bitAt ty.w (x t l) j = false) ∧
          (n t l < ty.w → bitAt ty.w (x t l) (n t l) = true)) ∧
    (Issues (.brev c ty d a) c s z p →
      GivesVal (.brev c ty d a) c .alu d s z p fun t l => .raw (onBits ty (fun _ u => u.reverse) (x t l)))

/-- R157, R158: BFX extracts the field that bits 7:0 and 15:8 of B name, extended as the type says; BFI inserts the low
bits of C in that place. -/
def Obligations.BitFields : Prop :=
  ∀ (c : Ctl) (ty : ITy) (tb : BTy) (d : Reg) (a : Src) (b : TSrc) (k : Src) (s : State) (z : Bool) (p : Machine.Path),
    (Issues (.bfx c ty d a b) c s z p →
      ∃ f : State → Nat → Word, GivesVal (.bfx c ty d a b) c .alu d s z p (fun t l => .raw (f t l)) ∧
        ∀ t l j, j < 64 →
          let y := (rdT t z c.ix ty.ty b l).pay
          let pos := y.toNat % 256
          let len := min (y.toNat / 256 % 256) ty.w
          let u := (rdSrc t z c.ix a l).pay
          (f t l).getLsbD j =
            if j < len then bitExt ty u (pos + j) else ty.signed && decide (0 < len) && bitExt ty u (pos + len - 1)) ∧
    (Issues (.bfi c tb d a b k) c s z p →
      ∃ f : State → Nat → Word, GivesVal (.bfi c tb d a b k) c .alu d s z p (fun t l => .raw (f t l)) ∧
        ∀ t l j, j < 64 →
          let y := (rdT t z c.ix tb.ty b l).pay
          let pos := y.toNat % 256
          let len := y.toNat / 256 % 256
          (f t l).getLsbD j =
            if pos ≤ j ∧ j < pos + len then bitAt tb.w (rdSrc t z c.ix k l).pay (j - pos) && decide (j < tb.w)
            else bitAt tb.w (rdSrc t z c.ix a l).pay j)

/-- R154: ICMP sets the bit of each Active lane to the truth of the condition on the two numbers, signed or unsigned as
the type says. R159, R160, R161: MOV and SEL copy tag and payload, MOVI writes its immediate's operand, LEA adds a shifted operand
to an address and writes a raw value. -/
def Obligations.CompareAndMove : Prop :=
  (∀ (c : Ctl) (ty : ITy) (cond : ICond) (d : Pred) (a : Src) (b : TSrc) (s : State) (z : Bool) (p : Machine.Path),
     Issues (.icmp c ty cond d a b) c s z p →
       GivesBit (.icmp c ty cond d a b) c .alu d s z p fun t l =>
         let x := number ty (rdSrc t z c.ix a l).pay
         let y := number ty (rdT t z c.ix ty.ty b l).pay
         match cond with
         | .eq => decide (x = y)
         | .ne => decide (x ≠ y)
         | .lt => decide (x < y)
         | .le => decide (x ≤ y)
         | .gt => decide (x > y)
         | .ge => decide (x ≥ y)) ∧
  (∀ (c : Ctl) (d : Reg) (a : Src) (g : GSrc) (b : Src) (im : BitVec 32) (ii : MovImm) (q : Pred) (sh : BitVec 3) (s : State)
     (z : Bool) (p : Machine.Path),
     (Issues (.mov c d a) c s z p → GivesVal (.mov c d a) c .alu d s z p fun t l => rdSrc t z c.ix a l) ∧
     (Issues (.sel c d a g q) c s z p → GivesVal (.sel c d a g q) c .alu d s z p fun t l =>
       if (t.grp.pr q.val).getLsbD l then rdSrc t z c.ix a l else rdG t z c.ix g l) ∧
     (Issues (.movi c d ii) c s z p → GivesVal (.movi c d ii) c .alu d s z p fun _ _ => movImm ii) ∧
     (Issues (.lea c sh d a (.reg b)) c s z p → GivesVal (.lea c sh d a (.reg b)) c .alu d s z p fun t l =>
       .raw ((rdSrc t z c.ix a l).pay + (rdSrc t z c.ix b l).pay * BitVec.twoPow 64 sh.toNat)) ∧
     (Issues (.lea c sh d a (.imm im)) c s z p → GivesVal (.lea c sh d a (.imm im)) c .alu d s z p fun t l =>
       .raw ((rdSrc t z c.ix a l).pay + im.signExtend 64 * BitVec.twoPow 64 sh.toNat)))

/-- R162, R163: PLOP sets each Active lane's bit to bit 4a + 2b + c of its table; PBOOL writes a bool. -/
def Obligations.PredicateLogic : Prop :=
  ∀ (c : Ctl) (lut : BitVec 8) (d a b k : Pred) (r : Reg) (s : State) (z : Bool) (p : Machine.Path),
    (Issues (.plop c lut d a b k) c s z p → GivesBit (.plop c lut d a b k) c .alu d s z p fun t l =>
      lut.getLsbD (4 * ((t.grp.pr a.val).getLsbD l).toNat + 2 * ((t.grp.pr b.val).getLsbD l).toNat +
        ((t.grp.pr k.val).getLsbD l).toNat)) ∧
    (Issues (.pbool c r a) c s z p → GivesVal (.pbool c r a) c .alu r s z p fun t l =>
      ⟨.bool, if (t.grp.pr a.val).getLsbD l then 1 else 0⟩)

/-- R147: TAGCHK sets bit l of its predicate, for each Active lane, to the bit of its mask that the tag of A numbers, and
leaves every other bit. -/
def Obligations.TagCheckSetsBits : Prop :=
  ∀ (c : Ctl) (d : Pred) (a : Src) (mask : BitVec 16) (s : State) (z : Bool) (p : Machine.Path),
    Issues (.tagchk c d a mask) c s z p →
      GivesBit (.tagchk c d a mask) c .alu d s z p fun t l => mask.getLsbD (rdSrc t z c.ix a l).tag.code

/-- R165, R167, R168: FADD, FSUB, FMUL, FFMA, FDIV, FSQRT, FRCP and FRSQ complete with the exact result of each element
rounded once by the instruction's mode; NaNs, infinities and zeros as IEEE 754 has them. What a format's rounding gives of a finite
magnitude, RoundingLaw says. -/
def Obligations.FloatArithmetic : Prop :=
  ∀ (c : Ctl) (ty : PTy) (fy : FTy) (r : Rnd) (d : Reg) (a : Src) (b : TSrc) (k : Src) (s : State) (z : Bool) (p : Machine.Path),
    let A (t : State) (l e : Nat) := elem ty (rdSrc t z c.ix a l) e
    let B (t : State) (l e : Nat) := elem ty (rdT t z c.ix ty.ty b l) e
    let K (t : State) (l e : Nat) := elem ty (rdSrc t z c.ix k l) e
    let A' (t : State) (l e : Nat) := elem (.one fy) (rdSrc t z c.ix a l) e
    let B' (t : State) (l e : Nat) := elem (.one fy) (rdT t z c.ix (PTy.one fy).ty b l) e
    (Issues (.fadd c ty r d a b) c s z p → ∃ f : State → Nat → Nat → Nat,
      GivesVal (.fadd c ty r d a b) c (pLat ty) d s z p (fun t l => floatOut ty (f t l)) ∧
        ∀ t l e, ∃ v, SumIs r (A t l e) (B t l e) v ∧ PutIs ty.fmt r v (f t l e)) ∧
    (Issues (.fsub c ty r d a b) c s z p → ∃ f : State → Nat → Nat → Nat,
      GivesVal (.fsub c ty r d a b) c (pLat ty) d s z p (fun t l => floatOut ty (f t l)) ∧
        ∀ t l e, ∃ v, SumIs r (A t l e) (B t l e).flip v ∧ PutIs ty.fmt r v (f t l e)) ∧
    (Issues (.fmul c ty r d a b) c s z p → ∃ f : State → Nat → Nat → Nat,
      GivesVal (.fmul c ty r d a b) c (pLat ty) d s z p (fun t l => floatOut ty (f t l)) ∧
        ∀ t l e, ∃ v, ProductIs (A t l e) (B t l e) v ∧ PutIs ty.fmt r v (f t l e)) ∧
    (Issues (.ffma c ty r d a b k) c s z p → ∃ f : State → Nat → Nat → Nat,
      GivesVal (.ffma c ty r d a b k) c (pLat ty) d s z p (fun t l => floatOut ty (f t l)) ∧
        ∀ t l e, ∃ u v, ProductIs (A t l e) (B t l e) u ∧ SumIs r u (K t l e) v ∧ PutIs ty.fmt r v (f t l e)) ∧
    (Issues (.fdiv c fy r d a b) c s z p → ∃ f : State → Nat → Nat → Nat,
      GivesVal (.fdiv c fy r d a b) c .sfu d s z p (fun t l => floatOut (.one fy) (f t l)) ∧
        ∀ t l e, QuotientIs fy.fmt r (A' t l e) (B' t l e) (f t l e)) ∧
    (Issues (.fsqrt c fy r d a) c s z p → ∃ f : State → Nat → Nat → Nat,
      GivesVal (.fsqrt c fy r d a) c .sfu d s z p (fun t l => floatOut (.one fy) (f t l)) ∧
        ∀ t l e, RootIs fy.fmt r (A' t l e) (f t l e)) ∧
    (Issues (.frcp c fy r d a) c s z p → ∃ f : State → Nat → Nat → Nat,
      GivesVal (.frcp c fy r d a) c .sfu d s z p (fun t l => floatOut (.one fy) (f t l)) ∧
        ∀ t l e, QuotientIs fy.fmt r (.fin false 1 0) (A' t l e) (f t l e)) ∧
    (Issues (.frsq c fy r d a) c s z p → ∃ f : State → Nat → Nat → Nat,
      GivesVal (.frsq c fy r d a) c .sfu d s z p (fun t l => floatOut (.one fy) (f t l)) ∧
        ∀ t l e, InverseRootIs fy.fmt r (A' t l e) (f t l e))

/-- R169, R170: FMIN and FMAX choose by number, with -0 below +0; FABS clears and FNEG inverts the sign bit, every other
bit passes through. -/
def Obligations.FloatSelectAndSign : Prop :=
  ∀ (c : Ctl) (ty : PTy) (d : Reg) (a : Src) (b : TSrc) (s : State) (z : Bool) (p : Machine.Path),
    let A (t : State) (l e : Nat) := floatIn ty (rdSrc t z c.ix a l) e
    let B (t : State) (l e : Nat) := floatIn ty (rdT t z c.ix ty.ty b l) e
    let w := ty.fmt.width
    (Issues (.fmin c ty d a b) c s z p → ∃ f : State → Nat → Nat → Nat,
      GivesVal (.fmin c ty d a b) c (pLat ty) d s z p (fun t l => floatOut ty (f t l)) ∧
        ∀ t l e, MinIs ty.fmt (A t l e) (B t l e) (f t l e)) ∧
    (Issues (.fmax c ty d a b) c s z p → ∃ f : State → Nat → Nat → Nat,
      GivesVal (.fmax c ty d a b) c (pLat ty) d s z p (fun t l => floatOut ty (f t l)) ∧
        ∀ t l e, MaxIs ty.fmt (A t l e) (B t l e) (f t l e)) ∧
    (Issues (.fabs c ty d a) c s z p → ∃ f : State → Nat → Nat → Nat,
      GivesVal (.fabs c ty d a) c (pLat ty) d s z p (fun t l => floatOut ty (f t l)) ∧
        ∀ t l e j, (f t l e).testBit j = (decide (j + 1 < w) && (A t l e).testBit j)) ∧
    (Issues (.fneg c ty d a) c s z p → ∃ f : State → Nat → Nat → Nat,
      GivesVal (.fneg c ty d a) c (pLat ty) d s z p (fun t l => floatOut ty (f t l)) ∧
        ∀ t l e j, (f t l e).testBit j = if j + 1 = w then !(A t l e).testBit j else (A t l e).testBit j)

/-- R171, R175: FCMP sets the bit of each Active lane to the quiet comparison; FCLASS writes the int 2^k of the class. R173, R174: FRND rounds to a whole number in the format and keeps the sign of a zero; FSCALE multiplies by 2^n, rounded
once, with n bounded to ±4,200. -/
def Obligations.FloatCompareClassRoundScale : Prop :=
  (∀ (c : Ctl) (ty : FTy) (cond : FCond) (d : Pred) (r : Reg) (a : Src) (b : TSrc) (s : State) (z : Bool) (p : Machine.Path),
     (Issues (.fcmp c ty cond d a b) c s z p → GivesBit (.fcmp c ty cond d a b) c (fLat ty) d s z p fun t l =>
       quietly cond (orderOf (elem (.one ty) (rdSrc t z c.ix a l) 0) (elem (.one ty) (rdT t z c.ix (PTy.one ty).ty b l) 0))) ∧
     (Issues (.fclass c ty r a) c s z p → ∃ k : State → Nat → Nat,
       GivesVal (.fclass c ty r a) c (fLat ty) r s z p (fun t l => .int (BitVec.ofNat 64 (2 ^ k t l))) ∧
         ∀ t l, ClassIs ty.fmt (elem (.one ty) (rdSrc t z c.ix a l) 0) (k t l))) ∧
  (∀ (c : Ctl) (ty : FTy) (r : Rnd) (d : Reg) (a : Src) (b : TSrc) (s : State) (z : Bool) (p : Machine.Path),
     let A (t : State) (l e : Nat) := elem (.one ty) (rdSrc t z c.ix a l) e
     let n (t : State) (l : Nat) : Int := match b with
       | .reg k => (rdSrc t z c.ix k l).pay.toInt
       | .imm i => i.toInt
     (Issues (.frnd c ty r d a) c s z p → ∃ f : State → Nat → Nat → Nat,
       GivesVal (.frnd c ty r d a) c (fLat ty) d s z p (fun t l => floatOut (.one ty) (f t l)) ∧
         ∀ t l e, ((A t l e).isNan = true → f t l e = ty.fmt.nan) ∧ (∀ m, A t l e = .inf m → f t l e = ty.fmt.infOf m) ∧
           ∀ m x, FiniteIs (A t l e) m x → ∃ k, WholeIs r m x k ∧ RoundedTo ty.fmt .rne m k (f t l e)) ∧
     (Issues (.fscale c ty r d a b) c s z p → ∃ f : State → Nat → Nat → Nat,
       GivesVal (.fscale c ty r d a b) c (fLat ty) d s z p (fun t l => floatOut (.one ty) (f t l)) ∧
         ∀ t l e, ((A t l e).isNan = true → f t l e = ty.fmt.nan) ∧ (∀ m, A t l e = .inf m → f t l e = ty.fmt.infOf m) ∧
           ∀ m x, FiniteIs (A t l e) m x →
             RoundedTo ty.fmt r m (x * (2 : ℚ) ^ max (-4200) (min 4200 (n t l))) (f t l e)))

/-- R172 and Table 13.4: FEXP2, FLOG2, FSIN, FCOS and FTANH complete; NaNs, infinities, zeros and, for the logarithm,
numbers below zero give the table's results.
Choices of the model in it: log entry 6 (DEDUCED). -/
def Obligations.FloatFunctions : Prop :=
  ∀ (c : Ctl) (ty : TTy) (d : Reg) (a : Src) (s : State) (z : Bool) (p : Machine.Path),
    let F := ty.fty.fmt
    let A (t : State) (l : Nat) := elem (.one ty.fty) (rdSrc t z c.ix a l) 0
    let one (m : Bool) := F.round .rne m 1 0
    (Issues (.fexp2 c ty d a) c s z p → ∃ f : State → Nat → Nat,
      GivesVal (.fexp2 c ty d a) c .sfu d s z p (fun t l => ⟨ty.fty.tag, BitVec.ofNat 64 (f t l)⟩) ∧
        ∀ t l, ((A t l).isNan = true → f t l = F.nan) ∧ (A t l = .inf false → f t l = F.infOf false) ∧
          (A t l = .inf true → f t l = 0) ∧ ∀ m, FiniteIs (A t l) m 0 → f t l = one false) ∧
    (Issues (.flog2 c ty d a) c s z p → ∃ f : State → Nat → Nat,
      GivesVal (.flog2 c ty d a) c .sfu d s z p (fun t l => ⟨ty.fty.tag, BitVec.ofNat 64 (f t l)⟩) ∧
        ∀ t l, ((A t l).isNan = true → f t l = F.nan) ∧ (A t l = .inf false → f t l = F.infOf false) ∧
          (A t l = .inf true → f t l = F.nan) ∧ (∀ m, FiniteIs (A t l) m 0 → f t l = F.infOf true) ∧
          ∀ x, FiniteIs (A t l) true x → x ≠ 0 → f t l = F.nan) ∧
    (Issues (.fsin c ty d a) c s z p → ∃ f : State → Nat → Nat,
      GivesVal (.fsin c ty d a) c .sfu d s z p (fun t l => ⟨ty.fty.tag, BitVec.ofNat 64 (f t l)⟩) ∧
        ∀ t l, ((A t l).isNan = true ∨ (∃ m, A t l = .inf m) → f t l = F.nan) ∧
          ∀ m, FiniteIs (A t l) m 0 → f t l = F.signed m 0) ∧
    (Issues (.fcos c ty d a) c s z p → ∃ f : State → Nat → Nat,
      GivesVal (.fcos c ty d a) c .sfu d s z p (fun t l => ⟨ty.fty.tag, BitVec.ofNat 64 (f t l)⟩) ∧
        ∀ t l, ((A t l).isNan = true ∨ (∃ m, A t l = .inf m) → f t l = F.nan) ∧
          ∀ m, FiniteIs (A t l) m 0 → f t l = one false) ∧
    (Issues (.ftanh c ty d a) c s z p → ∃ f : State → Nat → Nat,
      GivesVal (.ftanh c ty d a) c .sfu d s z p (fun t l => ⟨ty.fty.tag, BitVec.ofNat 64 (f t l)⟩) ∧
        ∀ t l, ((A t l).isNan = true → f t l = F.nan) ∧ (∀ m, A t l = .inf m → f t l = one m) ∧
          ∀ m, FiniteIs (A t l) m 0 → f t l = F.signed m 0)

/-- R140: CVT between integer types wraps or saturates, from a float rounds by the mode and saturates with 0 for a NaN, into
a float rounds once. -/
def Obligations.Conversion : Prop :=
  ∀ (c : Ctl) (dst src : Ty) (sat : Bool) (r : Rnd) (d : Reg) (a : Src) (s : State) (z : Bool) (p : Machine.Path),
    Issues (.cvt c dst src sat r d a) c s z p → ∃ v : State → Nat → Val,
      GivesVal (.cvt c dst src sat r d a) c (cvtLat dst src) d s z p v ∧ ∀ t l,
        let x := (rdSrc t z c.ix a l).pay
        let bounded (e : Int) : Int := if e < tyLo dst then tyLo dst else if tyHi dst < e then tyHi dst else e
        let int (e : Int) : Val := widen dst (BitVec.ofInt 64 e).toNat
        (fmtOf dst = none → fmtOf src = none → v t l = int (if sat then bounded (intOfTy src x) else intOfTy src x)) ∧
        (∀ g, fmtOf dst = none → fmtOf src = some g →
          let y := g.decode (x.toNat % 2 ^ src.width)
          (y.isNan = true → v t l = int 0) ∧ (∀ n, y = .inf n → v t l = int (if n then tyLo dst else tyHi dst)) ∧
            ∀ n q, FiniteIs y n q → ∃ k : Nat, WholeIs r n q k ∧ v t l = int (bounded (if n then -(k : Int) else k))) ∧
        (∀ f, fmtOf dst = some f → fmtOf src = none → ∃ code, v t l = widen dst code ∧
          RoundedTo f r (decide (intOfTy src x < 0)) |(intOfTy src x : ℚ)| code) ∧
        (∀ f g, fmtOf dst = some f → fmtOf src = some g → ∃ code, v t l = widen dst code ∧
          PutIs f r (g.decode (x.toNat % 2 ^ src.width)) code)

/-- R141, R142: CVTPK divides each element of its run by the scale and packs the rounded quotients lowest first; CVTXP
multiplies each packed element by the scale and writes a run of f32 registers. -/
def Obligations.PackedConversions : Prop :=
  ∀ (c : Ctl) (ty : QTy) (d : Reg) (e : Vec) (v : Vec) (a b : Src) (s : State) (z : Bool) (p : Machine.Path),
    (Issues (.cvtpk c ty d v b) c s z p → ∃ q : State → Nat → Nat → Nat,
      GivesVal (.cvtpk c ty d v b) c .sfu d s z p
        (fun t l => .raw (BitVec.ofNat 64 (packElems (qFmt ty).width ((List.range ty.count).map (q t l))))) ∧
        ∀ t l k, k < ty.count → ∀ n x m y,
          FiniteIs (fmtF32.decode ((rdRun t c.ix v k l).pay.toNat % 2 ^ 32)) n x →
          FiniteIs (qScale ty (rdSrc t z c.ix b l).pay) m y → x ≠ 0 → y ≠ 0 →
            RoundedTo (qFmt ty) .rne (n != m) (x / y) (q t l k)) ∧
    (Issues (.cvtxp c ty e a b) c s z p →
      let r := issuedOf (.cvtxp c ty e a b) c s z p
      let w := (qFmt ty).width
      ∃ q : Nat → Nat → Nat,
        exec (.cvtxp c ty e a b) s = .next (r.state.finish z c.sched .sfu r.act
          ((List.range ty.count).flatMap fun k =>
            (lanes r.act).map fun l => .v (vecNum r.state.grp c.ix e + k) l ⟨.f32, BitVec.ofNat 64 (q k l)⟩)) ∧
        ∀ k l, ∃ u, ProductIs ((qFmt ty).decode ((rdSrc r.state z c.ix a l).pay.toNat / 2 ^ (w * k) % 2 ^ w))
          (qScale ty (rdSrc r.state z c.ix b l).pay) u ∧ PutIs fmtF32 .rne u (q k l))

/-- R144, R145, R146: BOX and TAGSET give a payload another tag, canonical by R25; UNBOX writes it raw and TAGOF writes the
code of the tag. -/
def Obligations.TagInstructions : Prop :=
  ∀ (c : Ctl) (f : BoxForm) (g : Tag) (d : Reg) (a : Src) (s : State) (z : Bool) (p : Machine.Path),
    (Issues (.box c f d a) c s z p → boxForges f = false → GivesVal (.box c f d a) c .alu d s z p fun t l =>
      match f with
      | .ofType y => widen y (rdSrc t z c.ix a l).pay.toNat
      | .ofTag k => canon k (rdSrc t z c.ix a l).pay) ∧
    (Issues (.unbox c d a) c s z p → GivesVal (.unbox c d a) c .alu d s z p fun t l => ⟨.raw, (rdSrc t z c.ix a l).pay⟩) ∧
    (Issues (.tagof c d a) c s z p → GivesVal (.tagof c d a) c .alu d s z p fun t l =>
      ⟨.int, BitVec.ofNat 64 (rdSrc t z c.ix a l).tag.code⟩) ∧
    (Issues (.tagset c g d a) c s z p → tagForges g p = false → GivesVal (.tagset c g d a) c .alu d s z p fun t l =>
      canon g (rdSrc t z c.ix a l).pay)

/-- R144, R146: BOX of a protected tag, and TAGSET of ref in user mode or of hnd, fwd, pend or link, take the tag-forge fault
0x07 at the instruction for every Active lane. R125: an Active lane whose int result leaves the range raises the class int-overflow with its operands staged and receives
no write; the other lanes complete.
Choices of the model in it: log entries 22 (DEDUCED), 83 (DESIGN CHOICE). -/
def Obligations.ForgeAndOverflow : Prop :=
  (∀ (c : Ctl) (f : BoxForm) (g : Tag) (d : Reg) (a : Src) (s : State) (z : Bool) (p : Machine.Path),
     (Issues (.box c f d a) c s z p → (∃ k, f = .ofTag k ∧ 9 ≤ k.code) →
       let r := issuedOf (.box c f d a) c s z p
       r.act ≠ 0 → exec (.box c f d a) s = .next (r.state.trapPath (.box c f d a) c.sched 0x07 (p.pc.setWidth 64) r.act)) ∧
     (Issues (.tagset c g d a) c s z p → (g = .ref ∧ p.user = true ∨ 10 ≤ g.code) →
       let r := issuedOf (.tagset c g d a) c s z p
       r.act ≠ 0 →
         exec (.tagset c g d a) s = .next (r.state.trapPath (.tagset c g d a) c.sched 0x07 (p.pc.setWidth 64) r.act))) ∧
  (∀ (c : Ctl) (r : Rnd) (d : Reg) (a : Src) (b : GSrc) (s : State) (z : Bool) (p : Machine.Path),
     ∀ e ∈ ([(.add c r d a b, fun x y => x + y), (.sub c r d a b, fun x y => x - y), (.mul c r d a b, fun x y => x * y)] :
         List (Instr × (Int → Int → Int))),
       let q := issuedOf e.1 c s z p
       let A (l : Nat) := rdSrc q.state z c.ix a l
       let B (l : Nat) := rdB q.state z c.ix a b l
       let out (l : Nat) : Bool := decide (¬(-2 ^ 63 ≤ e.2 (A l).pay.toInt (B l).pay.toInt ∧ e.2 (A l).pay.toInt (B l).pay.toInt ≤ 2 ^ 63 - 1))
       Issues e.1 c s z p → q.act ≠ 0 → (∀ l, q.act.getLsbD l = true → (A l).tag = .int ∧ (B l).tag = .int) →
         exec e.1 s = .next ((q.state.retire z c.sched .alu (q.act &&& ~~~maskOf ((lanes q.act).filter out)) (wrReg q.state.grp c.ix d
             (keepFor d q.act (((lanes q.act).filter fun l => !out l).map fun l =>
               (l, .ofInt (e.2 (A l).pay.toInt (B l).pay.toInt)))))).raiseClasses
           z (faceOf q.state e.1) q.act []
           (((lanes q.act).filter out).map fun l => ⟨l, 48, 1, 1, A l, B l, Val.nil⟩) none))

/-- R124, R125, R129: where every Active lane's operands are ints, the generic opcodes complete with the exact result, when it
lies in the range of an int; DIV with the quotient as f64; AND, OR and XOR also of bools, HASH with Mix of the payload. -/
def Obligations.GenericIntegers : Prop :=
  ∀ (c : Ctl) (r : Rnd) (d : Reg) (a : Src) (b : GSrc) (k : Src) (s : State) (z : Bool) (p : Machine.Path),
    let A (t : State) (l : Nat) := rdSrc t z c.ix a l
    let B (t : State) (l : Nat) := rdB t z c.ix a b l
    let K (t : State) (l : Nat) := rdSrc t z c.ix k l
    let lane (i : Instr) (q : State → Nat → Prop) : Prop :=
      ∀ l, (issuedOf i c s z p).act.getLsbD l = true → q (issuedOf i c s z p).state l
    (∀ e ∈ ([(.add c r d a b, fun x y => x + y), (.sub c r d a b, fun x y => x - y), (.mul c r d a b, fun x y => x * y),
          (.min c d a b, fun x y => if x ≤ y then x else y), (.max c d a b, fun x y => if x ≤ y then y else x)] :
          List (Instr × (Int → Int → Int))),
      Issues e.1 c s z p → lane e.1 (fun t l => (A t l).tag = .int ∧ (B t l).tag = .int ∧
          intFits (e.2 (A t l).pay.toInt (B t l).pay.toInt)) →
        GivesVal e.1 c .alu d s z p fun t l => .ofInt (e.2 (A t l).pay.toInt (B t l).pay.toInt)) ∧
    (∀ e ∈ ([(.neg c d a, fun x => -x), (.abs c d a, fun x => if x < 0 then -x else x)] : List (Instr × (Int → Int))),
      Issues e.1 c s z p → lane e.1 (fun t l => (A t l).tag = .int ∧ intFits (e.2 (A t l).pay.toInt)) →
        GivesVal e.1 c .alu d s z p fun t l => .ofInt (e.2 (A t l).pay.toInt)) ∧
    (Issues (.fma c r d a b k) c s z p → lane (.fma c r d a b k) (fun t l => (A t l).tag = .int ∧ (B t l).tag = .int ∧
          (K t l).tag = .int ∧ intFits ((A t l).pay.toInt * (B t l).pay.toInt + (K t l).pay.toInt)) →
        GivesVal (.fma c r d a b k) c .alu d s z p fun t l =>
          .ofInt ((A t l).pay.toInt * (B t l).pay.toInt + (K t l).pay.toInt)) ∧
    (∀ e ∈ ([(.fldiv c d a b, fun x y => Int.fdiv x y), (.mod c d a b, fun x y => x - y * Int.fdiv x y)] :
          List (Instr × (Int → Int → Int))),
      Issues e.1 c s z p → lane e.1 (fun t l => (A t l).tag = .int ∧ (B t l).tag = .int ∧ (B t l).pay ≠ 0 ∧
          intFits (e.2 (A t l).pay.toInt (B t l).pay.toInt)) →
        GivesVal e.1 c .sfu d s z p fun t l => .ofInt (e.2 (A t l).pay.toInt (B t l).pay.toInt)) ∧
    (∀ e ∈ ([(.shl c d a b, fun x n => x * 2 ^ n), (.shr c d a b, fun x n => Int.fdiv x (2 ^ n))] :
          List (Instr × (Int → Nat → Int))),
      Issues e.1 c s z p → lane e.1 (fun t l => (A t l).tag = .int ∧ (B t l).tag = .int ∧ 0 ≤ (B t l).pay.toInt ∧
          (B t l).pay.toNat < 64 ∧ intFits (e.2 (A t l).pay.toInt (B t l).pay.toNat)) →
        GivesVal e.1 c .alu d s z p fun t l => .ofInt (e.2 (A t l).pay.toInt (B t l).pay.toNat)) ∧
    (Issues (.div c r d a b) c s z p →
      lane (.div c r d a b) (fun t l => (A t l).tag = .int ∧ (B t l).tag = .int ∧ (B t l).pay ≠ 0) →
        ∃ q : State → Nat → Nat, GivesVal (.div c r d a b) c .sfu d s z p (fun t l => ⟨.f64, BitVec.ofNat 64 (q t l)⟩) ∧
          ∀ t l, (A t l).tag = .int → (B t l).tag = .int → (B t l).pay ≠ 0 →
            let x : ℚ := (A t l).pay.toInt
            let y : ℚ := (B t l).pay.toInt
            RoundedTo fmtF64 r (decide (x / y < 0)) |x / y| (q t l)) ∧
    (∀ e ∈ ([(.and c d a b, fun x y => x &&& y), (.or c d a b, fun x y => x ||| y), (.xor c d a b, fun x y => x ^^^ y)] :
          List (Instr × (Word → Word → Word))),
      Issues e.1 c s z p → lane e.1 (fun t l => (A t l).tag = (B t l).tag ∧ ((A t l).tag = .int ∨ (A t l).tag = .bool)) →
        GivesVal e.1 c .alu d s z p fun t l => ⟨(A t l).tag, e.2 (A t l).pay (B t l).pay⟩) ∧
    (Issues (.hash c d a) c s z p → lane (.hash c d a) (fun t l => (A t l).tag = .int ∨ (A t l).tag = .bool) →
      GivesVal (.hash c d a) c .alu d s z p fun t l => .int (mix (A t l).pay))

/-- R124, R126, R127, R129: where the operands of every Active lane are floats of one family, each lane with one tag, the
generic opcodes complete with the exact result rounded once to the lane's format. -/
def Obligations.GenericFloats : Prop :=
  ∀ (c : Ctl) (r : Rnd) (d : Reg) (a : Src) (b : GSrc) (k : Src) (F : Fam) (s : State) (z : Bool) (p : Machine.Path),
    let A (t : State) (l : Nat) := rdSrc t z c.ix a l
    let B (t : State) (l : Nat) := rdB t z c.ix a b l
    let K (t : State) (l : Nat) := rdSrc t z c.ix k l
    let lane (i : Instr) (q : State → Nat → Prop) : Prop :=
      ∀ l, (issuedOf i c s z p).act.getLsbD l = true → q (issuedOf i c s z p).state l
    let lat : Machine.Lat := if F = .f64 then .f64 else .alu
    let gives (i : Instr) (lat : Machine.Lat) (q : State → Nat → Fmt → Nat → Prop) : Prop :=
      ∃ v : State → Nat → Nat, GivesVal i c lat d s z p (fun t l => ⟨(A t l).tag, BitVec.ofNat 64 (v t l)⟩) ∧
        ∀ t l f, tagFmt F (A t l).tag f → q t l f (v t l)
    let X (t : State) (l : Nat) (f : Fmt) := f.decode ((A t l).pay.toNat % 2 ^ f.width)
    let Y (t : State) (l : Nat) (f : Fmt) := f.decode ((B t l).pay.toNat % 2 ^ f.width)
    let Z (t : State) (l : Nat) (f : Fmt) := f.decode ((K t l).pay.toNat % 2 ^ f.width)
    let two (t : State) (l : Nat) : Prop := (∃ f, tagFmt F (A t l).tag f) ∧ (B t l).tag = (A t l).tag
    (Issues (.add c r d a b) c s z p → lane (.add c r d a b) two →
      gives (.add c r d a b) lat fun t l f v => ∃ u, SumIs r (X t l f) (Y t l f) u ∧ PutIs f r u v) ∧
    (Issues (.sub c r d a b) c s z p → lane (.sub c r d a b) two →
      gives (.sub c r d a b) lat fun t l f v => ∃ u, SumIs r (X t l f) (Y t l f).flip u ∧ PutIs f r u v) ∧
    (Issues (.mul c r d a b) c s z p → lane (.mul c r d a b) two →
      gives (.mul c r d a b) lat fun t l f v => ∃ u, ProductIs (X t l f) (Y t l f) u ∧ PutIs f r u v) ∧
    (Issues (.fma c r d a b k) c s z p → lane (.fma c r d a b k) (fun t l => two t l ∧ (K t l).tag = (A t l).tag) →
      gives (.fma c r d a b k) lat fun t l f v =>
        ∃ u w, ProductIs (X t l f) (Y t l f) u ∧ SumIs r u (Z t l f) w ∧ PutIs f r w v) ∧
    (Issues (.div c r d a b) c s z p → lane (.div c r d a b) two →
      gives (.div c r d a b) .sfu fun t l f v => QuotientIs f r (X t l f) (Y t l f) v) ∧
    (Issues (.min c d a b) c s z p → lane (.min c d a b) two → gives (.min c d a b) lat fun t l f v =>
      MinIs f ((A t l).pay.toNat % 2 ^ f.width) ((B t l).pay.toNat % 2 ^ f.width) v) ∧
    (Issues (.max c d a b) c s z p → lane (.max c d a b) two → gives (.max c d a b) lat fun t l f v =>
      MaxIs f ((A t l).pay.toNat % 2 ^ f.width) ((B t l).pay.toNat % 2 ^ f.width) v) ∧
    (Issues (.fldiv c d a b) c s z p → lane (.fldiv c d a b) two → gives (.fldiv c d a b) .sfu fun t l f v =>
      ((X t l f).isNan = true ∨ (Y t l f).isNan = true → v = f.nan) ∧
        ∀ n x m y, FiniteIs (X t l f) n x → FiniteIs (Y t l f) m y → y ≠ 0 → FloorDivIs f n x m y v) ∧
    (Issues (.mod c d a b) c s z p → lane (.mod c d a b) two → gives (.mod c d a b) .sfu fun t l f v =>
      ((X t l f).isNan = true ∨ (Y t l f).isNan = true → v = f.nan) ∧
        ∀ n x m y, FiniteIs (X t l f) n x → FiniteIs (Y t l f) m y → y ≠ 0 → FloorModIs f n x m y v) ∧
    (Issues (.neg c d a) c s z p → lane (.neg c d a) (fun t l => ∃ f, tagFmt F (A t l).tag f) →
      gives (.neg c d a) lat fun t l f v =>
        ((X t l f).isNan = true → v = f.nan) ∧ ((X t l f).isNan = false →
          v = ((A t l).pay.toNat % 2 ^ f.width + 2 ^ (f.width - 1)) % 2 ^ f.width)) ∧
    (Issues (.abs c d a) c s z p → lane (.abs c d a) (fun t l => ∃ f, tagFmt F (A t l).tag f) →
      gives (.abs c d a) lat fun t l f v =>
        ((X t l f).isNan = true → v = f.nan) ∧ ((X t l f).isNan = false → v = (A t l).pay.toNat % 2 ^ (f.width - 1))) ∧
    (Issues (.hash c d a) c s z p → lane (.hash c d a) (fun t l => ∃ f, tagFmt F (A t l).tag f) →
      ∃ h : State → Nat → Word, GivesVal (.hash c d a) c lat d s z p (fun t l => .int (h t l)) ∧
        ∀ t l f, tagFmt F (A t l).tag f →
          ((X t l f).isNan = true → h t l = mix 0x7FF8000000000000) ∧
          ∀ n x, FiniteIs (X t l f) n x →
            ∀ q : Int, signedBy n x = q → -2 ^ 63 ≤ q → q ≤ 2 ^ 63 - 1 → h t l = mix (BitVec.ofInt 64 q))

/-- R124, R128: LT, LE and TRUTH, and EQ and NE of lanes that compare no two different refs, set the bit of each Active lane
as Table 11.4 gives it. -/
def Obligations.GenericComparisons : Prop :=
  ∀ (c : Ctl) (q : Pred) (a : Src) (b : GSrc) (s : State) (z : Bool) (p : Machine.Path),
    let A (t : State) (l : Nat) := rdSrc t z c.ix a l
    let B (t : State) (l : Nat) := rdB t z c.ix a b l
    let lane (i : Instr) (q : State → Nat → Prop) : Prop :=
      ∀ l, (issuedOf i c s z p).act.getLsbD l = true → q (issuedOf i c s z p).state l
    let value (f : Fmt) (v : Val) : FVal := f.decode (v.pay.toNat % 2 ^ f.width)
    (∀ e ∈ ([(.lt c q a b, fun x y => decide (x < y)), (.le c q a b, fun x y => decide (x ≤ y))] :
        List (Instr × (Int → Int → Bool))),
      Issues e.1 c s z p → lane e.1 (fun t l => (A t l).tag = .int ∧ (B t l).tag = .int) →
        GivesBit e.1 c .alu q s z p fun t l => e.2 (A t l).pay.toInt (B t l).pay.toInt) ∧
    (∀ F, ∀ e ∈ ([(.lt c q a b, .lt), (.le c q a b, .le), (.eq c q a b, .eq), (.ne c q a b, .ne)] : List (Instr × FCond)),
      Issues e.1 c s z p → lane e.1 (fun t l => (∃ f, tagFmt F (A t l).tag f) ∧ (B t l).tag = (A t l).tag) →
        ∃ h : State → Nat → Bool, GivesBit e.1 c (if F = .f64 then .f64 else .alu) q s z p h ∧
          ∀ t l f, tagFmt F (A t l).tag f → (B t l).tag = (A t l).tag →
            h t l = quietly e.2 (orderOf (value f (A t l)) (value f (B t l)))) ∧
    (∀ e ∈ ([(.eq c q a b, true), (.ne c q a b, false)] : List (Instr × Bool)),
      Issues e.1 c s z p → lane e.1 (fun t l => (A t l).tag = (B t l).tag ∧
          ((A t l).tag = .int ∨ (A t l).tag = .bool ∨ (A t l).tag = .nil ∨ (A t l).tag = .sym ∨ (A t l).tag = .raw ∨
            (A t l).tag = .hnd ∨ (A t l).tag = .ref ∧ (A t l).pay = (B t l).pay) ∨
          (A t l).tag ≠ (B t l).tag ∧ (numeric (A t l).tag = false ∨ numeric (B t l).tag = false)) →
        GivesBit e.1 c .alu q s z p fun t l => decide (A t l = B t l) == e.2) ∧
    (∀ e ∈ ([(.eq c q a b, .eq, true), (.ne c q a b, .ne, false)] : List (Instr × GOp × Bool)),
      let r := issuedOf e.1 c s z p
      Issues e.1 c s z p → r.act ≠ 0 → lane e.1 (fun t l => (A t l).tag = .ref ∧ (B t l).tag = .ref) →
        ∀ t, State.scanAll e.2.1 [] (genOperands r.state z c.ix a (some b) none r.act) ⟨[], [], []⟩ r.state = (⟨[], [], []⟩, t) →
          ∃ ws, exec e.1 s = .next (t.finish z c.sched .alu r.act ws) ∧
            WritesPred q.val r.act (fun l => decide (A r.state l = B r.state l) == e.2.2) ws) ∧
    (Issues (.truth c q a) c s z p → lane (.truth c q a) (fun t l => (A t l).tag = .int ∨ (A t l).tag = .bool ∨ (A t l).tag = .nil) →
      GivesBit (.truth c q a) c .alu q s z p fun t l => decide ((A t l).tag ≠ .nil ∧ (A t l).pay ≠ 0)) ∧
    (∀ F, Issues (.truth c q a) c s z p → lane (.truth c q a) (fun t l => ∃ f, tagFmt F (A t l).tag f) →
      ∃ h : State → Nat → Bool, GivesBit (.truth c q a) c (if F = .f64 then .f64 else .alu) q s z p h ∧
        ∀ t l f, tagFmt F (A t l).tag f → h t l = !(value f (A t l)).isZero)

/-! ### Control -/

/-- R101, R103: BRA with no Active lane, or to the next instruction, falls through; with every lane Active the path moves to its
target; else the path splits in ascending order of address. CALL moves or splits in the same way and writes its link.
Choices of the model in it: log entry 69 (DESIGN CHOICE). -/
def Obligations.DirectTransfers : Prop :=
  ∀ (c : Ctl) (t j : BitVec 24) (d : Vec) (s : State) (z : Bool) (p : Machine.Path),
    (Issues (.bra c t j) c s z p →
      let r := issuedOf (.bra c t j) c s z p
      let tgt : BitVec 56 := p.pc + 16 * t.signExtend 56
      (r.act = 0 ∨ tgt = p.pc + 16 → exec (.bra c t j) s = .next ((r.state.spend c.sched).next z)) ∧
      (r.act ≠ 0 → tgt ≠ p.pc + 16 → p.mask &&& ~~~r.act = 0 →
        exec (.bra c t j) s = .next ((r.state.spend c.sched).jump z tgt)) ∧
      (r.act ≠ 0 → tgt ≠ p.pc + 16 → p.mask &&& ~~~r.act ≠ 0 → ∀ g,
        let taken : Child := ⟨tgt, r.act, none⟩
        let past : Child := ⟨p.pc + 16, p.mask &&& ~~~r.act, none⟩
        (r.state.spend c.sched).grp.split (s.now + 1) z r.path (p.pc + 16 * j.signExtend 56)
            (if tgt < p.pc + 16 then [taken, past] else [past, taken]) = some g →
          exec (.bra c t j) s = .next { r.state.spend c.sched with grp := g })) ∧
    (Issues (.call c d t) c s z p →
      let r := issuedOf (.call c d t) c s z p
      let tgt : BitVec 56 := p.pc + 16 * t.signExtend 56
      let w := r.state.retire z c.sched .alu r.act
        ((lanes r.act).map fun l => .v (vecNum r.state.grp c.ix d) l (.int ((p.pc + 16).setWidth 64)))
      (r.act = 0 → exec (.call c d t) s = .next (w.next z)) ∧
      (r.act ≠ 0 → p.mask &&& ~~~r.act = 0 → exec (.call c d t) s = .next (w.jump z tgt)) ∧
      (r.act ≠ 0 → p.mask &&& ~~~r.act ≠ 0 → ∀ g,
        w.grp.split (s.now + 1) z r.path (p.pc + 16)
            [⟨tgt, r.act, none⟩, ⟨p.pc + 16, p.mask &&& ~~~r.act, none⟩] = some g →
          exec (.call c d t) s = .next { w with grp := g }))

/-- R102: an Active lane of BRX, CALLX or RET whose operand is no int and no raw takes 0x03, one whose address is not 16-byte aligned
or has a bit of 63:56 set takes 0x04; the fault of the lowest such lane is that of the whole path, and no link is written. Otherwise
the lanes of the path form sets, the Active ones by their addresses and the others at PC + 16: one set moves the whole path, which
for PC + 16 goes on; several split it in ascending order of address, at the join of Table 9.2, or take 0x0B where the path stack has
no room. CALLX writes its link in each Active lane.
Choices of the model in it: log entry 69 (DESIGN CHOICE). -/
def Obligations.IndirectTransfers : Prop :=
  ∀ (c : Ctl) (u : UCtl) (d : Vec) (a : Reg) (j : BitVec 24) (s : State) (z : Bool) (p : Machine.Path),
    let past : BitVec 56 := p.pc + 16
    let bad (x : Val) : Option (BitVec 8 × Word) :=
      if x.isNum = false then some (0x03, p.pc.setWidth 64)
      else if x.pay.toNat % 16 ≠ 0 ∨ 2 ^ 56 ≤ x.pay.toNat then some (0x04, x.pay) else none
    let parts (r : Issue) (A : Nat → Val) (sets : List (BitVec 56 × Mask)) : Prop :=
      sets.Pairwise (fun x y => x.1 < y.1) ∧ (∀ e ∈ sets, e.2 ≠ 0) ∧
        ∀ t l, (∃ m, (t, m) ∈ sets ∧ m.getLsbD l = true) ↔
          p.mask.getLsbD l = true ∧ t = if r.act.getLsbD l then (A l).pay.setWidth 56 else past
    let moves (i : Instr) (r : Issue) (sc : Sched) (ix : BitVec 3) (link : List RegWrite)
        (split : Group → List (BitVec 56 × Mask) → Option Group) : Prop :=
      let A (l : Nat) := rdSrc r.state z ix a.src l
      let w := r.state.retire z sc .alu r.act link
      (∀ l cause addr, l < 32 → r.act.getLsbD l = true → bad (A l) = some (cause, addr) →
        (∀ k, k < l → r.act.getLsbD k = true → bad (A k) = none) →
          exec i s = .next (r.state.trapPath i sc cause addr r.act)) ∧
      ((∀ l, l < 32 → r.act.getLsbD l = true → bad (A l) = none) → p.mask ≠ 0 → ∃ sets, parts r A sets ∧
        (∀ t m, sets = [(t, m)] → exec i s = .next (if t = past then w.next z else w.jump z t)) ∧
        (2 ≤ sets.length →
          (∀ g, split w.grp sets = some g → exec i s = .next { w with grp := g }) ∧
          (split w.grp sets = none → exec i s = .next (r.state.trapPath i sc 0x0B (p.pc.setWidth 64) r.act))))
    let children (sets : List (BitVec 56 × Mask)) : List Child := sets.map fun e => ⟨e.1, e.2, none⟩
    (Issues (.brx c a j) c s z p →
      let r := issuedOf (.brx c a j) c s z p
      moves (.brx c a j) r c.sched c.ix [] fun g sets =>
        g.split (s.now + 1) z r.path (p.pc + 16 * j.signExtend 56) (children sets)) ∧
    (Issues (.callx c d a) c s z p →
      let r := issuedOf (.callx c d a) c s z p
      moves (.callx c d a) r c.sched c.ix
        ((lanes r.act).map fun l => .v (vecNum r.state.grp c.ix d) l (.int (past.setWidth 64)))
        fun g sets => g.split (s.now + 1) z r.path past (children sets)) ∧
    (IssuesU (.ret u a) u s z p →
      let r := issuedU (.ret u a) u s z p
      moves (.ret u a) r u.sched u.ix [] fun g sets => g.splitRet (s.now + 1) z r.path sets)

/-- R109, R105: NOP changes the PC and nothing else, YIELD also gives one clock away, EXIT with no Active lane only goes on, and
ends the Active lanes otherwise.
Choices of the model in it: log entry 69 (DESIGN CHOICE). -/
def Obligations.PlainControl : Prop :=
  ∀ (c : Ctl) (u : UCtl) (s : State) (z : Bool) (p : Machine.Path),
    (Issues (.nop c) c s z p → exec (.nop c) s = .next (((issuedOf (.nop c) c s z p).state.spend c.sched).next z)) ∧
    (IssuesU (.yield u) u s z p →
      exec (.yield u) s = .next ((((issuedU (.yield u) u s z p).state.spend u.sched).setGrp fun g =>
        (g.modSlot (!z) Path.undemote).modSlot z fun q =>
          { q with nextAt := s.now + 2 + u.sched.gap }).next z)) ∧
    (Issues (.exit c) c s z p →
      let r := issuedOf (.exit c) c s z p
      let t := r.state.spend c.sched
      (r.act = 0 → exec (.exit c) s = .next (t.next z)) ∧
      (r.act ≠ 0 → t.grp.st ≠ .saving →
        exec (.exit c) s = .next ((t.setGrp fun g => g.exitLanes (s.now + 1) z r.act (p.pc + 16)).afterExit) ∧
          ((t.grp.exitLanes (s.now + 1) z r.act (p.pc + 16)).present &&& r.act = 0)) ∧
      (r.act ≠ 0 → t.grp.st = .saving →
        exec (.exit c) s = .next (t.leaveHandler t.grp.blk t.grp.grp .forced)))

/-! ### Exceptions -/

/-- R106: TRAP with an empty Active set only goes on, and otherwise takes the runtime trap of cause 0 at its own address with its
code for the Active lanes. R108: BRK goes on where debug stops are off for its launch, and holds its path where they are on. -/
def Obligations.TrapAndBreak : Prop :=
  ∀ (c : Ctl) (code : BitVec 32) (s : State) (z : Bool) (p : Machine.Path),
    (Issues (.trap c code) c s z p →
      let r := issuedOf (.trap c code) c s z p
      let t := r.state.spend c.sched
      (r.act = 0 → exec (.trap c code) s = .next (t.next z)) ∧
      (r.act ≠ 0 → exec (.trap c code) s =
        .next (t.takeTrap (faceOf t (.trap c code)) 0 (p.pc.setWidth 64) (code.setWidth 64) r.act false))) ∧
    (Issues (.brk c code) c s z p →
      let r := issuedOf (.brk c code) c s z p
      let t := r.state.spend c.sched
      let on := ∃ k, t.blk? t.grp.blk = some k ∧ t.stopsOn k.pid k.queue = true
      (r.act = 0 ∨ ¬on → exec (.brk c code) s = .next (t.next z)) ∧
      (r.act ≠ 0 → on → exec (.brk c code) s = .next (t.hold t.grp.blk t.grp.grp z 0 (code.setWidth 64) true)))

/-- R365, R366: a trap of every lane of a path that is in no handler, with a trap vector and room for its split, saves cause,
address and code in the system registers and in a trap frame, and the path goes to the trap vector in runtime mode as a handler
whose join, at the next instruction, keeps the mode to return to. No other part of the state changes.
Choices of the model in it: log entries 22 (DEDUCED), 82 (DESIGN CHOICE). -/
def Obligations.TrapEntry : Prop :=
  ∀ (s : State) (z : Bool) (p : Machine.Path) (k : Face) (cause : BitVec 8) (faddr code : Word) (n : Nat),
    let vec : BitVec 56 := s.grp.trapvec.setWidth 56 &&& 0xFFFFFFFFFFFFF0
    s.cur = some (z, p) → p.hl = false → p.mask ≠ 0 → vec ≠ 0 → vec ≠ p.pc + 16 →
      s.grp.stack.length + s.grp.under.length < 64 → s.grp.freeFrames ≠ [] →
      lowestFree (joinNos (s.grp.stack ++ s.grp.under)) 64 = some n →
      let t := s.takeTrap k cause faddr code p.mask false
      t = { s with grp := t.grp } ∧
        t.grp.fcause = cause.setWidth 64 ∧ t.grp.faddr = faddr ∧ t.grp.tcode = code ∧
        (∃ q f, t.grp.slot z = some q ∧ q.pc = vec ∧ q.mask = p.mask ∧ q.mode = .runtime ∧ q.kind = .handler ∧ q.hl = true ∧
          q.joinPc = p.pc + 16 ∧ q.joinNo = some n ∧ q.frame = some f ∧
          t.grp.frameOf q = some { k.frame true (cause.setWidth 64) faddr code 0 p.pc with joinNo := n }) ∧
        ∃ j, findJoin n t.grp.stack = some j ∧ j.pc = p.pc + 16 ∧ j.mask = p.mask ∧ j.arrived = 0 ∧ j.hj = true ∧
          j.mode = p.mode ∧ j.hl = false ∧ j.outer = p.joinNo ∧ j.joinPc = p.joinPc

/-- R59, R365, R368: a fault of a handler path is the handler fault 0x0D and kills its block; with no trap vector a fault kills
the block with its own cause; so does a fault that finds no room for its split, and its record says so.
Choices of the model in it: log entry 22 (DEDUCED). -/
def Obligations.UndeliveredFaultsKill : Prop :=
  ∀ (s : State) (z : Bool) (p : Machine.Path) (k : Face) (cause : BitVec 8) (faddr code : Word) (T : Mask),
    let vec : BitVec 56 := s.grp.trapvec.setWidth 56 &&& 0xFFFFFFFFFFFFF0
    let rec_ (c : BitVec 8) (h w f u : Bool) (m : Mask) := s.pathRec s.grp p z 2 c (recFlags false h w f u) faddr m
    s.cur = some (z, p) →
      (p.hl = true → s.grp.st ≠ .saving →
        s.takeTrap k cause faddr code T false =
          s.killBlock s.grp.blk (rec_ 0x0D true (k.writes p cause faddr) k.fetch false p.mask)) ∧
      (p.hl = false → vec = 0 → s.takeTrap k cause faddr code T false =
        s.killBlock s.grp.blk (rec_ cause false (k.writes p cause faddr) k.fetch false T)) ∧
      (p.hl = false → vec ≠ 0 → s.grp.freeFrames = [] → s.takeTrap k cause faddr code T false =
        s.killBlock s.grp.blk (rec_ cause false (k.writes p cause faddr) k.fetch true T))

/-- R59, R138: TRET of a handler path whose join was made for handlers writes the handler's result, where its frame asks for one,
and the path arrives at its join address; in any other path it is an illegal context, 0x11.
Choices of the model in it: log entry 28 (DEDUCED). -/
def Obligations.TrapReturn : Prop :=
  ∀ (u : UCtl) (s : State) (z : Bool) (p : Machine.Path), IssuesU (.tret u) u s z p →
    let r := issuedU (.tret u) u s z p
    let t := r.state.spend u.sched
    (∀ n j, p.joinNo = some n → findJoin n t.grp.stack = some j → p.kind = .handler → j.hj = true →
      let g := t.grp.flushFixed p.mask
      let g := match g.frameOf p with
        | some f => g.wrs (g.handlerResult p f)
        | none => g
      exec (.tret u) s = .next { t with grp := (g.modSlot z fun q => { q with pc := q.joinPc }).arrive (s.now + 1) z }) ∧
    ((p.kind ≠ .handler ∨ p.joinNo = none ∨ ∀ n j, p.joinNo = some n → findJoin n t.grp.stack = some j → j.hj = false) →
      exec (.tret u) s = .next (t.trap (.tret u) 0x11 (p.pc.setWidth 64) r.act))

/-- R60: the last path to arrive at its join fuses: the join entry leaves the stack with its frames, and the slot holds one path at
the join address with the lanes, mode, join and frame that the split saved. R64, R101: a jump moves the path of the slot and touches nothing but its group: where its target is not its join, the path
stands at the target with its lanes, mode, join and frame.
Choices of the model in it: log entries 26 (DEDUCED), 69 (DESIGN CHOICE). -/
def Obligations.JoinsAndJumps : Prop :=
  (∀ (g : Group) (now : Nat) (z : Bool) (p : Machine.Path) (n : Nat) (j : Join),
     g.slot z = some p → p.joinNo = some n → p.pc = p.joinPc → findJoin n g.stack = some j → j.arrived ||| p.mask = j.mask →
     ¬(j.outer ≠ none ∧ j.pc = j.joinPc) →
       ∃ q, (g.arrive now z).slot z = some q ∧ q.pc = j.pc ∧ q.mask = j.mask ∧ q.mode = j.mode ∧ q.hl = j.hl ∧
         q.joinNo = j.outer ∧ q.joinPc = j.joinPc ∧ q.frame = j.frame ∧ q.wait = .none ∧
         (∀ e ∈ (g.arrive now z).frames, e.2.joinNo ≠ n)) ∧
  (∀ (s : State) (z : Bool) (p : Machine.Path) (t : BitVec 56),
     s.grp.slot z = some p → ¬(p.joinNo ≠ none ∧ t = p.joinPc) →
       ∃ q, s.jump z t = s.setGrp (fun g => g.setSlot z (some q)) ∧ q.pc = t ∧ q.mask = p.mask ∧ q.mode = p.mode ∧
         q.joinNo = p.joinNo ∧ q.joinPc = p.joinPc ∧ q.frame = p.frame ∧ q.hl = p.hl ∧
         (p.pc < t → q.spin = p.spin))

/-! ### Waits and system registers -/

/-- R110, R111: CWAIT goes on at once where the counters stand at or below its limits; TWAIT goes on at once, as an acquire, where
none of its tokens is busy, takes the pending fault of its lowest failed token, and waits where a token is busy.
Choices of the model in it: log entries 9 (DEDUCED), 75 (DESIGN CHOICE). -/
def Obligations.CountedAndTokenWaits : Prop :=
  ∀ (u : UCtl) (ld st cp sy : BitVec 6) (m : BitVec 8) (s : State) (z : Bool) (p : Machine.Path),
    (IssuesU (.cwait u ld st cp sy) u s z p →
      let r := issuedU (.cwait u ld st cp sy) u s z p
      r.state.grp.ld ≤ ld.toNat → r.state.grp.stc ≤ st.toNat → r.state.grp.cp ≤ cp.toNat → r.state.grp.sy ≤ sy.toNat →
        exec (.cwait u ld st cp sy) s = .next ((r.state.spend u.sched).next z)) ∧
    (IssuesU (.twait u m) u s z p →
      let r := issuedU (.twait u m) u s z p
      let t := (r.state.spend u.sched).acquireMe r.path
      (r.state.grp.busy &&& m = 0 → (∀ k : Nat, m.getLsbD k = true → ∀ e ∈ r.state.grp.tokFault, e.1 ≠ k) →
        exec (.twait u m) s = .next (t.next z)) ∧
      (r.state.grp.busy &&& m = 0 → ∀ k cause addr, tokFaultOf m r.state.grp.tokFault = some (k, cause, addr) →
        exec (.twait u m) s = .next ((t.setGrp fun g => { g with tokFault := g.tokFault.filter fun e => e.1 != k }).trap
          (.twait u m) cause addr r.act)) ∧
      (r.state.grp.busy &&& m ≠ 0 →
        exec (.twait u m) s = .next (r.state.setGrp fun g => g.modSlot z fun q => { q with wait := .tokens m })))

/-- R115 to R118, R366: MFS completes with the register as an int; MTS writes the payload of the lowest Active lane's int or raw
operand, cut to the register's fields, and traps with 0x03 on another tag.
Choices of the model in it: log entry 72 (DESIGN CHOICE). -/
def Obligations.SystemRegisterMoves : Prop :=
  ∀ (c : Ctl) (d a : Reg) (k : SysReg) (s : State) (z : Bool) (p : Machine.Path),
    (Issues (.mfs c d k) c s z p → GivesVal (.mfs c d k) c .variable d s z p fun t _ => .int (readSys t p k)) ∧
    (Issues (.mts c a k) c s z p → k ≠ .hres →
      let r := issuedOf (.mts c a k) c s z p
      (r.act = 0 → exec (.mts c a k) s = .next ((r.state.spend c.sched).next z)) ∧
      ∀ l, lowest r.act = some l →
        let x := rdSrc r.state z c.ix a.src l
        (x.isNum = true → ∃ q : Machine.Path, exec (.mts c a k) s =
          .next (((r.state.setGrp fun g => (writeSys g p k x.pay).setSlot z (some q)).spend c.sched).next z) ∧
            { q with spin := p.spin } = r.path) ∧
        (x.isNum = false →
          exec (.mts c a k) s = .next (r.state.trapPath (.mts c a k) c.sched 0x03 (p.pc.setWidth 64) r.act)))

/-- R116, R117, R137, R366: what a register holds after MTS, by name; a path in a trap frame has its own sys.fcause, sys.faddr and
sys.tcode, and a handler path its own sys.hres.
Choices of the model in it: log entry 72 (DESIGN CHOICE). -/
def Obligations.SystemRegisterContents : Prop :=
  ∀ (s : State) (p : Machine.Path) (w : Word),
    let after (k : SysReg) : Word := readSys { s with grp := writeSys s.grp p k w } p k
    (∀ n, after (.x n) = w) ∧ after .dispatch = w ∧ after .trapvec = w &&& 0x00FFFFFFFFFFFFF0 ∧
      after .nbase = w &&& 0x00FFFFFFFFFFFFF0 ∧ after .ntop = w &&& 0x00FFFFFFFFFFFFF0 ∧
      after .nlimit = w &&& 0x00FFFFFFFFFFFFF0 ∧ after .idempc = w &&& 0x00FFFFFFFFFFFFF1 ∧
      after .savebase = w &&& 0x00FFFFFFFFFFF000 ∧ after .savebudget = w &&& 0xFFFFFFFF ∧
      (s.grp.gcmode.getLsbD 0 = false → after .gcmode = w &&& 6) ∧
      after .fcause = w &&& 0xFF ∧ after .faddr = w ∧ after .tcode = w &&& 0xFFFFFFFF ∧
      ((s.grp.frameOf p).isSome = true → after .hres = w &&& 0x81FF) ∧
      (p.frame = none → readSys s p .hop = 0 ∧ readSys s p .hsa = 0 ∧ readSys s p .hsb = 0 ∧ readSys s p .hsc = 0 ∧
        readSys s p .hdst = 0 ∧ readSys s p .hres = 0 ∧ readSys s p .hpc = 0) ∧
      readSys s p .clock = BitVec.ofNat 64 s.now ∧ readSys s p .tok = s.grp.busy.setWidth 64 ∧
      readSys s p .pstack = BitVec.ofNat 64 (s.grp.stack.length + s.grp.under.length) ∧
      readSys s p .cnt = BitVec.ofNat 64 (s.grp.ld + 64 * s.grp.stc + 4096 * s.grp.cp + 262144 * s.grp.sy)

/-- R115, R119, R236, R278: in user mode TLBI, FWDCAS, PROOT and a move of sys.trapvec, sys.dispatch or sys.savebase take the
access-violation fault 0x05 at the instruction and have no effect of their own; an MTS of a register that is read-only at user
level is an illegal instruction, 0x01. R112: with a single path IDEM opens a region at its own address and IDEND closes it; with another path, or entries on the
stack, they are an illegal context, 0x11.
Choices of the model in it: log entry 72 (DESIGN CHOICE). -/
def Obligations.PrivilegeAndRegions : Prop :=
  (∀ (c : Ctl) (d a x y : Reg) (e : Src) (q : Option Pred) (o : Ord) (off : BitVec 24) (s : State) (z : Bool) (p : Machine.Path),
     s.cur = some (z, p) → p.user = true →
       let t := if p.redo = none ∧ p.wait = .none then dueState s else (dueState s).setGrp fun g => g.lowerCtr c.sched.cnt
       (∀ i ∈ ([.tlbiAll c, .tlbiPage c a, .fwdcas c o q d x.src y.src e off, .proot c d e, .mfs c d .trapvec, .mfs c d .dispatch,
             .mfs c d .savebase, .mts c a .trapvec, .mts c a .dispatch, .mts c a .savebase] : List Instr),
         exec i s = .next (t.trap i 0x05 (p.pc.setWidth 64) p.mask)) ∧
       (∀ k ∈ ([.fcause, .faddr, .tcode, .nbase, .ntop, .nlimit, .idempc, .savebudget, .gcmode] : List SysReg),
         exec (.mts c a k) s = .next (t.trap (.mts c a k) 0x01 (p.pc.setWidth 64) p.mask))) ∧
  (∀ (u : UCtl) (s : State) (z : Bool) (p : Machine.Path),
     (IssuesU (.idem u) u s z p →
       let r := issuedU (.idem u) u s z p
       let t := r.state.spend u.sched
       let single := t.grp.slot (!z) = none ∧ t.grp.stack = [] ∧ t.grp.under = []
       (single → exec (.idem u) s = .next ((t.setGrp fun g =>
         { g with idempc := p.pc.setWidth 64 ||| 1, idemMask := g.present, idemMode := p.mode }).next z)) ∧
       (¬single → exec (.idem u) s = .next (t.trap (.idem u) 0x11 (p.pc.setWidth 64) r.act))) ∧
     (IssuesU (.idend u) u s z p →
       let r := issuedU (.idend u) u s z p
       let t := r.state.spend u.sched
       let single := t.grp.slot (!z) = none ∧ t.grp.stack = [] ∧ t.grp.under = []
       (single → exec (.idend u) s = .next ((t.setGrp fun g => { g with idempc := g.idempc &&& 0xFFFFFFFFFFFFFFFE }).next z)) ∧
       (¬single → exec (.idend u) s = .next (t.trap (.idend u) 0x11 (p.pc.setWidth 64) r.act))))

/-- R114, R119, R120, R121, R197, R198: SVDONE ends a save; TLBI drops translations, TRIG pulses a line, MARK writes a trace record
where the launch is traced, FENCE drains the group's stores and drops clean copies as its ordering says, PREF fills lines; each
with no Active lane only goes on.
Choices of the model in it: log entries 13 (DEDUCED), 17 (DEDUCED), 24 (DEDUCED), 27 (DEDUCED), 30 (DESIGN CHOICE), 57 (DEDUCED),
74 (DESIGN CHOICE). -/
def Obligations.SystemEffects : Prop :=
  ∀ (c : Ctl) (u : UCtl) (line : BitVec 6) (cls : BitVec 8) (a : Reg) (e : Src) (o : Ord) (l2 : Bool) (off : BitVec 24) (s : State)
    (z : Bool) (p : Machine.Path),
    let after (i : Instr) : State := (issuedOf i c s z p).state.spend c.sched
    let act (i : Instr) : Mask := (issuedOf i c s z p).act
    (∀ i ∈ ([.tlbiAll c, .tlbiPage c a, .trig c line, .mark c a cls, .fence c o, .pref c l2 e off] : List Instr),
      Issues i c s z p → act i = 0 → exec i s = .next ((after i).next z)) ∧
    (∀ k, Issues (.tlbiAll c) c s z p → act (.tlbiAll c) ≠ 0 → (after (.tlbiAll c)).blk? (after (.tlbiAll c)).grp.blk = some k →
      let t := after (.tlbiAll c)
      exec (.tlbiAll c) s = .next (({ t with
        tlb := t.tlb.filter fun x => x.aspace != k.aspace, ptrs := t.ptrs.filter fun x => x.aspace != k.aspace
        hdr := t.hdr.filter fun x => x.aspace != k.aspace } : State).next z)) ∧
    (∀ k l, Issues (.tlbiPage c a) c s z p → lowest (act (.tlbiPage c a)) = some l →
      (after (.tlbiPage c a)).blk? (after (.tlbiPage c a)).grp.blk = some k →
      let t := after (.tlbiPage c a)
      let va := (rdSrc t z c.ix a.src l).pay.toNat % 2 ^ 56
      exec (.tlbiPage c a) s = .next (({ t with
        tlb := t.tlb.filter fun x => !(x.aspace == k.aspace && x.base == va / 2 ^ x.size)
        ptrs := t.ptrs.filter fun x => !(x.aspace == k.aspace && x.base == va / 2 ^ x.bit)
        hdr := t.hdr.filter fun x => !(x.aspace == k.aspace && x.va / 2 ^ x.size == va / 2 ^ x.size) } : State).next z)) ∧
    (Issues (.trig c line) c s z p → act (.trig c line) ≠ 0 →
      let t := after (.trig c line)
      exec (.trig c line) s =
        .next ((t.pulse (some t.grp.pid) line.toNat (t.pathTrace t.grp (issuedOf (.trig c line) c s z p).path z 5 0 0 0)).next z)) ∧
    (∀ k l, Issues (.mark c a cls) c s z p → lowest (act (.mark c a cls)) = some l →
      let t := after (.mark c a cls)
      t.blk? t.grp.blk = some k →
      exec (.mark c a cls) s = .next ((if t.tracing k.pid k.queue then
          t.trace k.pid (t.pathTrace t.grp (issuedOf (.mark c a cls) c s z p).path z 1 cls.toNat 0 (rdSrc t z c.ix a.src l).pay)
        else t).next z)) ∧
    (Issues (.fence c o) c s z p → act (.fence c o) ≠ 0 →
      let t := after (.fence c o)
      let drained := t.drainGroup t.grp.blk t.grp.grp
      exec (.fence c o) s = .next ((match o with
        | .none => t
        | .acq => t.acquireMe (issuedOf (.fence c o) c s z p).path
        | .rel => drained
        | .ar | .sc => drained.acquireMe (issuedOf (.fence c o) c s z p).path).next z) ∧
      (drained.stores.filter fun x => x.blk == t.grp.blk && x.grp == t.grp.grp) = []) ∧
    (∀ l x pte size t', Issues (.pref c l2 e off) c s z p → act (.pref c l2 e off) = laneBit l → l < 32 →
      let t := after (.pref c l2 e off)
      rdSrc t z c.ix e l = x → (x.tag = .raw ∨ x.tag = .int ∨ x.tag = .ref) →
      let va := (x.pay + off.signExtend 64).toNat
      va < 2 ^ 56 → t.translate t.grp.core t.myAspace va = (.leaf pte size, t') → refused pte .read p.user = false →
        pteMT pte ≠ 2 →
        let pa := leafPA pte size va
        exec (.pref c l2 e off) s = .next ((if l2 then t'
          else if t'.reaches t'.grp.core pa then
            (t'.fillSector t'.grp.core (16 * (pa / 128))).fillSector t'.grp.core (16 * (pa / 128) + 8)
          else t'.dropFrom (t'.physDie (t'.grp.core / 72)) pa).next z)) ∧
    (IssuesU (.svdone u) u s z p →
      let r := issuedU (.svdone u) u s z p
      let t := r.state.spend u.sched
      (p.joinNo = none → t.grp.st = .saving → t.groupCmds t.grp.blk t.grp.grp = false →
        exec (.svdone u) s = .next (((t.drainGroup t.grp.blk t.grp.grp).leaveHandler t.grp.blk t.grp.grp .saved).finishSave t.grp.blk)) ∧
      (p.joinNo = none → t.grp.st = .restoring → t.groupCmds t.grp.blk t.grp.grp = false →
        let w := (t.drainGroup t.grp.blk t.grp.grp).leaveHandler t.grp.blk t.grp.grp .restoring
        ∀ k, w.blk? t.grp.blk = some k → exec (.svdone u) s = .next (w.loadGroup k w.grp false)) ∧
      ((p.joinNo ≠ none ∨ t.grp.st ≠ .saving ∧ t.grp.st ≠ .restoring) →
        exec (.svdone u) s = .next (t.trap (.svdone u) 0x11 (p.pc.setWidth 64) r.act)))

/-! ### Memory -/

/-- R186: where the only Active lane of a memory instruction performs with nothing raised, missed or stopped, the instruction
completes: after its ordering action, its results are written and the path goes on.
Choices of the model in it: log entries 18 (DESIGN CHOICE), 25 (DEDUCED). -/
def Obligations.MemoryCompletes : Prop :=
  ∀ (c : Ctl) (ty : Ty) (op : AtomOp) (sp : Space) (o : Ord) (heal obj : Bool) (q : Pred) (pen : Option Pred) (ak : AtomC) (d : Reg)
    (a x y : Src) (dv xv yv : Vec) (off : BitVec 24) (s : State) (z : Bool) (p : Machine.Path),
    ∀ e ∈ ([(.ld c ty sp o heal obj d a off, fun r => ldOp c ty sp o heal obj d a off z r.path r.act r.state),
        (.st c ty sp o obj a x off, fun r => stOp c ty sp o obj a x off z r.path r.state),
        (.atom c op ty sp o obj d a x ak off, fun r => atomOp c op ty sp o obj d a x ak off z r.path r.act r.state),
        (.red c op ty sp o obj a x off, fun r => redOp c op ty sp o obj a x off z r.path r.state),
        (.casw c sp o obj pen dv a xv yv off, fun r => caswOp c sp o obj pen dv a xv yv off z r.path r.state),
        (.hdrld c o obj pen d a off, fun r => hdrldOp c o obj pen d a off z r.path r.act r.state),
        (.fwdcas c o pen d a x y off, fun r => fwdcasOp c o pen d a x y off z r.act r.state),
        (.seal c sp o d a off, fun r => sealOp c sp o d a off z r.act r.state),
        (.pinit c a off, fun r => pinitOp c a off z r.path r.state),
        (.pfill c a x off, fun r => pfillOp c a x off z r.state),
        (.peq c d a y q, fun r => peqOp c d a y q z r.path r.act r.state),
        (.proot c d a, fun r => prootOp c d a z r.act r.state)] : List (Instr × (Issue → MemOp))),
      Issues e.1 c s z p →
        let r := issuedOf e.1 c s z p
        let k := e.2 r
        ∀ l out t, performs k r z l = some (out, t) →
          exec e.1 s = .next ((t.after r.path k.ord).finish z c.sched .variable r.act (k.out [out]))

/-- R28, R34, R187, R188, R29, R33: what one lane of LD and of ST does. A load returns the type's view of the word it reads, and
raises the class unfilled-promise or forwarded-word, or stops with 0x03, on tags 11 to 15; a store stops on the tags that stores
respect, and otherwise performs. R191 to R195, Table 15.4: an atomic of one lane at its home: a non-cacheable page takes 0x05, protected tags 0x08 or 0x03;
otherwise the word takes the new value, and the lane returns the old one.
Choices of the model in it: log entries 13 (DEDUCED), 23 (DEDUCED), 27 (DEDUCED), 71 (DESIGN CHOICE), 85 (DESIGN CHOICE). -/
def Obligations.LoadStoreAndAtomicLanes : Prop :=
  (∀ (ty : Ty) (n : Nat) (b user : Bool) (x : Nat → Val) (me : Writer) (l va : Nat) (h : Home) (s : State),
     (let v := (s.readHome me h).1
      let t := (s.readHome me h).2.loaded b h.sector
      let raised (cls : Nat) : LaneRes :=
        .ok ⟨l, [], none, some ⟨l, cls, v.tag.code, 0, .int (BitVec.ofNat 64 (va - va % 8)), Val.nil, Val.nil⟩, false, va⟩
      (h.tagged = false ∨ v.tag.code ≤ 10 →
         ldOne ty b me l va h s = (.ok ⟨l, [if ty.width = 64 ∧ h.tagged = true then v
           else widen ty (v.pay.toNat / 2 ^ (8 * h.off))], none, none, false, va⟩, t)) ∧
       (h.tagged = true → v.tag = .pend ∨ v.tag = .link → ldOne ty b me l va h s = (raised 49, t)) ∧
       (h.tagged = true → v.tag = .fwd → ldOne ty b me l va h s = (raised 50, t)) ∧
       (h.tagged = true → v.tag = .res14 ∨ v.tag = .res15 → ldOne ty b me l va h s = (.stop 0x03 (va - va % 8), t))) ∧
     (let w := s.storeSees me h
      let bad : Bool := !h.tagged && n == 8 && ((x l).tag == .ref || (x l).tag == .hnd)
      (s.storesTag h = true → w.tag = .pend ∨ w.tag = .link ∨ (w.tag = .fwd ∧ user = true) →
         stOne n b user x me l va h s = (.stop 0x08 va, s)) ∧
       (s.storesTag h = true → w.tag = .res14 ∨ w.tag = .res15 → stOne n b user x me l va h s = (.stop 0x03 va, s)) ∧
       (s.storesTag h = false ∨ w.tag.code ≤ 10 ∨ (w.tag = .fwd ∧ user = false) →
         stOne n b user x me l va h s = if bad then (.stop 0x08 va, s)
           else (.ok ⟨l, [], none, none, false, va⟩, (s.storeHome me h n (x l)).changed b)))) ∧
  (∀ (op : AtomOp) (ty : Ty) (returns b user : Bool) (y k : Nat → Val) (me : Writer) (l va : Nat) (h : Home) (s : State),
     (h.uncached = true → atomOne op ty returns b user y k me l va h s = (.stop 0x05 va, s)) ∧
     (h.uncached = false → h.tagged = true →
       let m := (s.atHome me h).1
       let t := (s.atHome me h).2.loaded b h.sector
       let v := atomNew op ty h m (y l) (k l)
       ((m.tag = .pend ∨ m.tag = .link ∨ m.tag = .fwd) → atomOne op ty returns b user y k me l va h s = (.stop 0x08 va, t)) ∧
       ((m.tag = .res14 ∨ m.tag = .res15) → atomOne op ty returns b user y k me l va h s = (.stop 0x03 va, t)) ∧
       (m.tag.code ≤ 10 → ∃ bit,
         atomOne op ty returns b user y k me l va h s =
           (.ok ⟨l, if returns then [viewOf ty h m] else [], some bit, none, false, va⟩,
             if v = m then t else (t.putHome me h (ty.width / 8) v).changed b)) ∧
       (ty.width = 64 → op = .exch → v = y l) ∧
       (ty.width = 64 → op = .cas → v = if m = y l then k l else m) ∧
       (ty.width = 64 → h.off = 0 → op = .add → v.pay = m.pay + (y l).pay) ∧
       (ty.width = 64 → h.off = 0 → op = .and → v.pay = m.pay &&& (y l).pay) ∧
       (ty.width = 64 → h.off = 0 → op = .or → v.pay = m.pay ||| (y l).pay) ∧
       (ty.width = 64 → h.off = 0 → op = .xor → v.pay = m.pay ^^^ (y l).pay) ∧
       (ty = .i64 → h.off = 0 → op = .min → v.pay.toInt = min m.pay.toInt (y l).pay.toInt) ∧
       (ty = .i64 → h.off = 0 → op = .max → v.pay.toInt = max m.pay.toInt (y l).pay.toInt) ∧
       (ty.width = 32 → h.off = 0 ∨ h.off = 4 → v.tag = .raw ∧ ∀ j, j < 64 →
         ¬(8 * h.off ≤ j ∧ j < 8 * h.off + 32) → v.pay.getLsbD j = m.pay.getLsbD j)))

/-- R195, R235, R236: one lane of CASW writes both words when both equal, and neither otherwise, and a pair that stays as it was is
no change of memory (R65); HDRLD returns a forwarding word
as a ref with its bit set; FWDCAS installs a forwarding word where the word read equals its operand. R272, R273, R274, R278: one lane of PINIT makes its word an unfilled promise; PFILL fills an unfilled root, ignores an equal
value and stops with 0x09 on another; PEQ joins two unfilled classes, fills the unfilled one of two, and stops with 0x09 on two
different values; PROOT returns the physical address of the root.
Choices of the model in it: log entries 13 (DEDUCED), 24 (DEDUCED), 78 (DESIGN CHOICE). -/
def Obligations.ObjectAndPromiseLanes : Prop :=
  (∀ (b user : Bool) (p : Machine.Path) (x0 x1 y0 y1 : Nat → Val) (me : Writer) (l va : Nat) (h : Home) (s : State), h.tagged = true →
     (h.uncached = false →
       let m0 := (s.atHome me h).1
       let m1 := ((s.atHome me h).2.atHome me (h.plus 1)).1
       let t := ((s.atHome me h).2.atHome me (h.plus 1)).2.loaded b h.sector
       m0.tag.code ≤ 10 → m1.tag.code ≤ 10 →
         let same := m0 = x0 l ∧ m1 = x1 l
         caswOne b user x0 x1 y0 y1 me l va h s = (.ok ⟨l, [m0, m1], some (decide same), none, false, va⟩,
           if same ∧ ¬(y0 l = m0 ∧ y1 l = m1) then ((t.putHome me h 8 (y0 l)).putHome me (h.plus 1) 8 (y1 l)).changed b else t)) ∧
     (let v := (s.readHeader p va h).1
      let t := (s.readHeader p va h).2.loaded b h.sector
      (v.tag = .fwd → hdrOne b p me l va h s = (.ok ⟨l, [canon .ref v.pay], some true, none, false, va⟩, t)) ∧
      (v.tag.code ≤ 10 → hdrOne b p me l va h s = (.ok ⟨l, [v], some false, none, false, va⟩, t))) ∧
     (let m := (s.atHome me h).1
      let t := (s.atHome me h).2.loaded b h.sector
      (m.tag = .fwd → fwdcasOne b x0 y0 me l va h s = (.ok ⟨l, [canon .ref m.pay], some false, none, false, va⟩, t)) ∧
      (m.tag.code ≤ 10 → m ≠ x0 l → fwdcasOne b x0 y0 me l va h s = (.ok ⟨l, [m], some false, none, false, va⟩, t)) ∧
      (m.tag.code ≤ 10 → m = x0 l → fwdcasOne b x0 y0 me l va h s =
        (.ok ⟨l, [m], some true, none, false, va⟩, (t.putHome me h 8 ⟨.fwd, (y0 l).pay⟩).changed b)) ∧
      ((m.tag = .pend ∨ m.tag = .link) → fwdcasOne b x0 y0 me l va h s = (.stop 0x08 va, t)))) ∧
  (∀ (b user : Bool) (p : Machine.Path) (x : Nat → Val) (me : Writer) (l va w r : Nat) (h : Home) (s t : State), cellOf h = .inr w →
     ((s.atHome me h).1.tag.code ≤ 10 ∨ (s.atHome me h).1.tag = .pend ∨ (s.atHome me h).1.tag = .link → ∃ u : State,
       pinitOne b user me l va h s = (.ok ⟨l, [], none, none, false, va⟩, u.putCell me w ⟨.pend, 0⟩)) ∧
     (s.findRoot (some me) s.pid w = (.root r, t) →
       ((t.peek r).tag = .pend → pfillOne b x me l va h s =
         (.ok ⟨l, [], none, none, false, va⟩, (t.fillRoot me r (x l)).changed b)) ∧
       ((t.peek r).tag ≠ .pend → t.peek r = x l → pfillOne b x me l va h s = (.ok ⟨l, [], none, none, false, va⟩, t)) ∧
       ((t.peek r).tag ≠ .pend → t.peek r ≠ x l → pfillOne b x me l va h s = (.stop 0x09 va, t)) ∧
       prootOne me l va h s = (.ok ⟨l, [.raw (BitVec.ofNat 64 (8 * r))], none, none, false, va⟩, t)) ∧
     (s.findRoot (some me) s.pid w = (.broken r, t) → pfillOne b x me l va h s = (.stop 0x03 va, t) ∧
       prootOne me l va h s = (.ok ⟨l, [.raw (BitVec.ofNat 64 (8 * r + 1))], none, none, false, va⟩, t)) ∧
     (∀ hb wb rb s1 s2, s.locate p .glb .write (x l).pay.toNat = (.home hb, s1) → cellOf hb = .inr wb →
       s1.findRoot (some me) s1.pid w = (.root r, s2) → s2.findRoot (some me) s2.pid wb = (.root rb, t) →
         let filled (root other : Nat) : Prop :=
           let u := (t.fillRoot me root (t.peek other)).changed b
           peqOne b p x me l va h s =
             (.ok ⟨l, [(classOut (u.peek other)).1], some (classOut (u.peek other)).2, none, false, va⟩, u)
         (r = rb → (t.peek r).tag = .pend → peqOne b p x me l va h s = (.ok ⟨l, [Val.nil], some false, none, false, va⟩, t)) ∧
         (r ≠ rb → (t.peek r).tag = .pend → (t.peek rb).tag = .pend → peqOne b p x me l va h s =
           (.ok ⟨l, [Val.nil], some false, none, false, va⟩, (t.union me r rb).changed b)) ∧
         (r ≠ rb → (t.peek r).tag = .pend → (t.peek rb).tag ≠ .pend → filled r rb) ∧
         (r ≠ rb → (t.peek r).tag ≠ .pend → (t.peek rb).tag = .pend → filled rb r) ∧
         (r ≠ rb → (t.peek r).tag ≠ .pend → (t.peek rb).tag ≠ .pend → t.peek r ≠ t.peek rb →
           peqOne b p x me l va h s = (.stop 0x09 va, t)) ∧
         ((t.peek r).tag ≠ .pend → t.peek r = t.peek rb →
           peqOne b p x me l va h s = (.ok ⟨l, [t.peek r], some true, none, false, va⟩, t))))

/-- R205, R188, R207: a store of 1, 2, 4 or 8 aligned bytes to a cacheable page is seen at once by the lanes that made it, in the
stored bytes; the other bytes of their word are those of memory under the path's own stores, and every other word reads as before; a
path of another group sees every byte as before, and memory is unchanged. Where the only Active lane of ST performs so at the address
that its steps 1 and 2 give, the bytes of its type at that place are stored, every other byte is as just said, and no register changes
but by an earlier result.
Choices of the model in it: log entries 13 (DEDUCED), 16 (DEDUCED), 85 (DESIGN CHOICE). -/
def Obligations.StoreIsSeenByItsPath : Prop :=
  (∀ (s : State) (me other : Writer) (pa : Nat) (pte : Word) (n : Nat) (x : Val),
    n = 1 ∨ n = 2 ∨ n = 4 ∨ n = 8 → pa % n = 0 → pteMT pte ≠ 2 → me.mask ≠ 0 →
      let t := s.storeHome me (.glb pa pte) n x
      (s.readOnly (pa / 8) = none → ∀ a, byteSeen t me a =
        if pa ≤ a ∧ a < pa + n then BitVec.ofNat 8 (x.pay.toNat / 2 ^ (8 * (a - pa)))
        else if a / 8 = pa / 8 then BitVec.ofNat 8 ((s.storeSees me (.glb pa pte)).pay.toNat / 2 ^ (8 * (a % 8)))
        else byteSeen s me a) ∧
      (∀ k m, s.readOnly (pa / 8) = some (k, m) → ∀ a, a / 8 = pa / 8 → m.getLsbD (a % 8) = true →
        byteSeen t me a = BitVec.ofNat 8 (k / 2 ^ (8 * (a % 8)))) ∧
      (¬(other.blk = me.blk ∧ other.grp = me.grp) → ∀ a, byteSeen t other a = byteSeen s other a) ∧
      t = { s.lateWrites me (.glb pa pte) n with stores := t.stores }) ∧
  (∀ (c : Ctl) (ty : Ty) (sp : Space) (obj : Bool) (a x : Src) (off : BitVec 24) (s : State) (z : Bool) (p : Machine.Path),
    Issues (.st c ty sp .none obj a x off) c s z p →
      let r := issuedOf (.st c ty sp .none obj a x off) c s z p
      let k := stOp c ty sp .none obj a x off z r.path r.state
      let me := r.state.me r.path
      let n := ty.width / 8
      ∀ l va pa pte acq u out t, oneLane k r l = some (va, .glb pa pte, acq, u) → pteMT pte ≠ 2 → 8 ≤ ty.width → pa % n = 0 →
        u.readOnly (pa / 8) = none →
        performs k r z l = some (out, t) → ∃ v : State, exec (.st c ty sp .none obj a x off) s = .next v ∧
          (∀ b, byteSeen v me b =
            if pa ≤ b ∧ b < pa + n then BitVec.ofNat 8 ((rdSrc r.state z c.ix x l).pay.toNat / 2 ^ (8 * (b - pa)))
            else if b / 8 = pa / 8 then BitVec.ofNat 8 ((u.storeSees me (.glb pa pte)).pay.toNat / 2 ^ (8 * (b % 8)))
            else byteSeen u me b) ∧
          v.mem = u.mem ∧ KeepsRegs [] u.grp v.grp)

/-! ### Objects, barriers, promises and groups -/

/-- R234: NALLOC gives each Active lane in ascending order the next bytes of its size as a ref, moves sys.ntop past them and sets
the lane's bit; outside the nursery it gives nil. R237: REFCHK sets the bit of each Active lane to whether its ref lies in a
condemned page. R289, R290: UNSEAL frees the entry of a valid handle, which is then invalid; HINFO reads a field of the record. An
invalid handle takes 0x10 for the path. -/
def Obligations.ObjectInstructions : Prop :=
  ∀ (c : Ctl) (sz : NSize) (d : Reg) (q : Pred) (a : Src) (f : HField) (s : State) (z : Bool) (p : Machine.Path),
    (Issues (.nalloc c sz d q) c s z p →
      let r := issuedOf (.nalloc c sz d q) c s z p
      let t := r.state
      let x (l : Nat) : Val := nsizeVal t z c sz l
      let at_ (l : Nat) : Nat := t.grp.ntop.toNat + (((lanes r.act).filter fun k => k < l).map fun k => (x k).pay.toNat).sum
      ((∃ l, r.act.getLsbD l = true ∧ nsizeOk (x l) = false) →
        exec (.nalloc c sz d q) s = .next (t.trapPath (.nalloc c sz d q) c.sched 0x03 (p.pc.setWidth 64) r.act)) ∧
      (r.act ≠ 0 → (∀ l, r.act.getLsbD l = true → nsizeOk (x l) = true) →
        (t.grp.nbase.toNat ≤ t.grp.ntop.toNat → at_ 32 ≤ t.grp.nlimit.toNat →
          exec (.nalloc c sz d q) s = .next ((t.setGrp fun g => { g with ntop := BitVec.ofNat 64 (at_ 32 / 16 * 16) }).finish z
            c.sched .variable r.act
            (wrReg t.grp c.ix d ((lanes r.act).map fun l => (l, canon .ref (BitVec.ofNat 64 (at_ l)))) ++
              wrPred q ((lanes r.act).map fun l => (l, true))))) ∧
        (t.grp.ntop.toNat < t.grp.nbase.toNat ∨ t.grp.nlimit.toNat < t.grp.ntop.toNat →
          exec (.nalloc c sz d q) s =
            .next ((t.setGrp fun g => { g with ntop := BitVec.ofNat 64 (t.grp.ntop.toNat / 16 * 16) }).finish z c.sched .variable
              r.act (wrReg t.grp c.ix d ((lanes r.act).map fun l => (l, Val.nil)) ++
                wrPred q ((lanes r.act).map fun l => (l, false))))))) ∧
    (Issues (.refchk c q a) c s z p →
      let r := issuedOf (.refchk c q a) c s z p
      ((∀ l, r.act.getLsbD l = true → (rdSrc r.state z c.ix a l).tag ≠ .ref) →
        GivesBit (.refchk c q a) c .variable q s z p fun _ _ => false) ∧
      (∀ l k pa size t, l < 32 → r.act = laneBit l → (rdSrc r.state z c.ix a l).tag = .ref →
        r.state.condOf r.state.grp.core r.state.myAspace (refVA (rdSrc r.state z c.ix a l)) = (.page k pa size, t) →
          exec (.refchk c q a) s = .next (t.finish z c.sched .variable r.act (wrPred q [(l, k)])))) ∧
    (Issues (.unseal c a) c s z p →
      let r := issuedOf (.unseal c a) c s z p
      ∀ l, l < 32 → r.act = laneBit l →
        let h := rdSrc r.state z c.ix a l
        (∀ n e, r.state.handle? r.state.pid r.state.myAspace h = some (n, e) →
          let t := r.state.setHentry r.state.pid n ⟨false, e.gen + 1, [], 0⟩
          exec (.unseal c a) s = .next (((t.changed z).spend c.sched).next z) ∧ t.handle? r.state.pid r.state.myAspace h = none) ∧
        (r.state.handle? r.state.pid r.state.myAspace h = none →
          exec (.unseal c a) s = .next (r.state.trapPath (.unseal c a) c.sched 0x10 (p.pc.setWidth 64) r.act))) ∧
    (Issues (.hinfo c f d a) c s z p →
      let r := issuedOf (.hinfo c f d a) c s z p
      let h (l : Nat) := r.state.handle? r.state.pid r.state.myAspace (rdSrc r.state z c.ix a l)
      ((∃ l, r.act.getLsbD l = true ∧ h l = none) →
        exec (.hinfo c f d a) s = .next (r.state.trapPath (.hinfo c f d a) c.sched 0x10 (p.pc.setWidth 64) r.act)) ∧
      ∀ w : Nat → Tensor, (∀ l, r.act.getLsbD l = true → ∃ n e, h l = some (n, e) ∧ Tensor.of e.words = w l) →
        GivesVal (.hinfo c f d a) c .variable d s z p fun _ l => .raw (BitVec.ofNat 64 (match f with
          | .base => (w l).base
          | .fmt => (w l).fmt + 2 ^ 8 * (w l).skind + 2 ^ 16 * (w l).flags
          | .rows => (w l).rows
          | .cols => (w l).cols
          | .rstride => (w l).rstride
          | .sbase => (w l).sbase
          | .sstride => (w l).sstride
          | .perm => (w l).perm)))

/-- R246, R249, R252, R253: an update of a valid barrier object takes one arrival or none and adds bytes, and advances the phase
when nothing is pending; BARINIT, BARARR and BARTX of one lane; BWAIT and BTEST write the status, the phase and the bit of each
lane, and a lane that is undecided makes BWAIT wait until its limit.
Choices of the model in it: log entry 34 (DEDUCED). -/
def Obligations.Barriers : Prop :=
  ∀ (c : Ctl) (cls : Bool) (texp : BitVec 5) (d : Reg) (q : Pred) (a x y : Src) (off : BitVec 24) (s : State) (z : Bool)
    (p : Machine.Path) (l o : Nat),
    let found (i : Instr) : Prop := (issuedOf i c s z p).act = laneBit l ∧
      (issuedOf i c s z p).state.barAddrs (issuedOf i c s z p).path
        (MemOp.plain (barSpace cls) 16 off (baseOf (issuedOf i c s z p).state z c a)) (issuedOf i c s z p).act = .inr [(l, o)]
    let updated (i : Instr) (u : State) (arr : Bool) (n : Nat) : Prop :=
      let u := u.drainObj (some (u.me (issuedOf i c s z p).path)) o
      ∃ (ph : Int) (t : State),
      exec i s = .next (t.finish z c.sched .variable (laneBit l) (wrReg t.grp c.ix d [(l, .ofInt ph)])) ∧
      (u.barAt o = none → ph = -2 ∧ t = { u with early := t.early }) ∧
      (∀ b, u.barAt o = some b → arr = true → b.pena = 0 → ph = -1 ∧ t = { u with early := t.early }) ∧
      (∀ b, u.barAt o = some b → ¬(arr = true ∧ b.pena = 0) → ph = b.phase ∧
        let pa := if arr then b.pena - 1 else b.pena
        let pb := (b.penb + n) % 2 ^ 32
        t.barAt o = some (if pa = 0 ∧ pb = 0 then ⟨b.expa, b.expa, (b.phase + 1) % 2 ^ 32, b.expb, b.expb⟩
          else ⟨pa, b.expa, b.phase, pb, b.expb⟩))
    let n (i : Instr) := rdSrc (issuedOf i c s z p).state z c.ix x l
    (Issues (.barinit c cls a x y off) c s z p → found (.barinit c cls a x y off) →
      let m := rdSrc (issuedOf (.barinit c cls a x y off) c s z p).state z c.ix y l
      countOk 1 65535 (n (.barinit c cls a x y off)) = true → countOk 0 (2 ^ 31 - 1) m = true →
        ∃ t : State, exec (.barinit c cls a x y off) s = .next ((t.spend c.sched).next z) ∧
          t.barAt o = some ⟨(n (.barinit c cls a x y off)).pay.toNat, (n (.barinit c cls a x y off)).pay.toNat, 0,
            m.pay.toNat, m.pay.toNat⟩) ∧
    (Issues (.bararr c cls d a x off) c s z p → found (.bararr c cls d a x off) →
      countOk 0 (2 ^ 31 - 1) (n (.bararr c cls d a x off)) = true →
        let t := (issuedOf (.bararr c cls d a x off) c s z p).state
        updated (.bararr c cls d a x off) (t.drainGroup t.grp.blk t.grp.grp) true (n (.bararr c cls d a x off)).pay.toNat) ∧
    (Issues (.bartx c cls d a x off) c s z p → found (.bartx c cls d a x off) →
      countOk 0 (2 ^ 31 - 1) (n (.bartx c cls d a x off)) = true →
        updated (.bartx c cls d a x off) (issuedOf (.bartx c cls d a x off) c s z p).state false
          (n (.bartx c cls d a x off)).pay.toNat) ∧
    (Issues (.bwait c cls texp d a x) c s z p →
      let r := issuedOf (.bwait c cls texp d a x) c s z p
      let ts := r.state.barTargets z r.path c cls a x r.act
      let u := r.state.loadedObjs z r.path ts
      let status (e : Nat × Option BarLane) : Nat := match e.2 with
        | none => 2
        | some b => match u.barAt b.obj with
          | none => 2
          | some v => if v.phase = b.phase.toNat then 1 else 0
      let open_ (e : Nat × Option BarLane) : Bool := status e == 1
      (texp = 0 ∨ (∀ e ∈ ts, open_ e = false) →
        let w := u.retire z c.sched .variable r.act (wrReg u.grp c.ix d (ts.map fun e => (e.1, .ofInt (status e))))
        exec (.bwait c cls texp d a x) s =
          .next ((if ts.any fun e => status e == 0 then w.acquireMe r.path else w).next z)) ∧
      (texp ≠ 0 → (∃ e ∈ ts, open_ e = true) → ∃ w : BarWait,
        exec (.bwait c cls texp d a x) s = .next (u.setGrp fun g => g.modSlot z fun k => { k with wait := .bar w }) ∧
          w.lanes.map BarLane.lane = (ts.filter open_).filterMap (fun e => e.2.map BarLane.lane) ∧
          w.deadline = u.deadline u.grp.blk texp ∧ w.d = regNum u.grp c.ix d ∧ w.active = r.act)) ∧
    (Issues (.btest c cls d a x q) c s z p →
      let r := issuedOf (.btest c cls d a x q) c s z p
      let ts := r.state.barTargets z r.path c cls a x r.act
      let u := r.state.loadedObjs z r.path ts
      let phase (e : Nat × Option BarLane) : Int := match e.2.bind fun b => u.barAt b.obj with
        | some v => v.phase
        | none => -2
      let bit (e : Nat × Option BarLane) : Bool := match e.2 with
        | none => false
        | some b => match u.barAt b.obj with
          | none => false
          | some v => v.phase != b.phase.toNat
      let w := u.retire z c.sched .variable r.act
        (wrReg u.grp c.ix d (ts.map fun e => (e.1, .ofInt (phase e))) ++ wrPred q (ts.map fun e => (e.1, bit e)))
      exec (.btest c cls d a x q) s = .next ((if ts.any bit then w.acquireMe r.path else w).next z))

/-- R275, R276: PGET and PWAIT of one lane: status 0 with the value of a filled class, as an acquire; 2 with nil for what is no
cell; 1 with nil for an unfilled class that is not waited for; else PWAIT registers the lane on its root and the path waits.
Choices of the model in it: log entries 34 (DEDUCED), 78 (DESIGN CHOICE), 87 (DESIGN CHOICE). -/
def Obligations.PromiseReads : Prop :=
  ∀ (c : Ctl) (texp : BitVec 5) (d : Vec) (a : Src) (q : Pred) (s : State) (z : Bool) (p : Machine.Path) (l : Nat) (k : Cell) (t : State),
    l < 32 →
    let here (i : Instr) : Prop := Issues i c s z p ∧ (issuedOf i c s z p).act = laneBit l ∧
      (issuedOf i c s z p).state.cellAt (issuedOf i c s z p).path [] l (rdSrc (issuedOf i c s z p).state z c.ix a l) = (k, t)
    let num (i : Instr) : Nat := vecNum (issuedOf i c s z p).state.grp c.ix d
    let one (i : Instr) (st : Int) (v : Val) : List RegWrite := wrNum (num i) [(l, .ofInt st)] ++ wrNum (num i + 1) [(l, v)]
    let same (ws vs : List RegWrite) : Prop := ∀ g : Group, g.wrs ws = g.wrs vs
    let reads (i : Instr) (bit : Bool → List RegWrite) (last : Bool) : Prop :=
      (∀ v, k = .filled v → v.tag ≠ .ref → ∃ ws, same ws (one i 0 v ++ bit true) ∧
        exec i s = .next ((t.acquireMe (issuedOf i c s z p).path).finish z c.sched .variable (laneBit l) ws)) ∧
      (k = .bad → ∃ ws, same ws (one i 2 Val.nil ++ bit false) ∧
        exec i s = .next (t.finish z c.sched .variable (laneBit l) ws)) ∧
      (∀ r, k = .unfilled r → last = true → ∃ ws, same ws (one i 1 Val.nil ++ bit false) ∧
        exec i s = .next (t.finish z c.sched .variable (laneBit l) ws))
    (here (.pget c d a q) → reads (.pget c d a q) (fun b => wrPred q [(l, b)]) true) ∧
    (here (.pwait c texp d a) → reads (.pwait c texp d a) (fun _ => []) (texp == 0)) ∧
    (here (.pwait c texp d a) → texp ≠ 0 → ∀ r u, k = .unfilled r → t.register z r (laneBit l) = some u →
      let w : PromWait :=
        { ctl := c, num := num (.pwait c texp d a), face := faceOf (issuedOf (.pwait c texp d a) c s z p).state (.pwait c texp d a)
          lanes := [(l, (rdSrc (issuedOf (.pwait c texp d a) c s z p).state z c.ix a l).pay.toNat)], status := []
          deadline := u.deadline u.grp.blk texp, active := laneBit l }
      exec (.pwait c texp d a) s = .next (u.setGrp fun g => g.modSlot z fun p => { p with wait := .prom w }))

/-- R258 to R262: only Active lanes take part. VOTE tells whether some or every bit is 1, gives the bits, or tells whether every
value is the same; SHFL copies from the lane its mode names where that lane is Active; MATCH gives the mask of the lanes with an
equal value; ELECT sets the bit of the lowest Active lane; GRED and GSCAN combine the values in ascending lane order. -/
def Obligations.GroupOperations : Prop :=
  ∀ (c : Ctl) (d pa : Pred) (r : Reg) (a : Src) (m : ShflMode) (x : ShflB) (pv : Option Pred) (payOnly : Bool) (op : RedOp) (ty : Ty)
    (s : State) (z : Bool) (p : Machine.Path),
    let on (i : Instr) (l : Nat) : Bool := decide (l < 32) && (issuedOf i c s z p).act.getLsbD l
    let some_ (i : Instr) (f : Nat → Bool) : Bool := (List.range 32).any fun k => on i k && f k
    let every (i : Instr) (f : Nat → Bool) : Bool := (List.range 32).all fun k => !on i k || f k
    (Issues (.vote c (.any d pa)) c s z p → GivesBit (.vote c (.any d pa)) c .variable d s z p fun t _ =>
      some_ (.vote c (.any d pa)) fun k => (t.grp.pr pa.val).getLsbD k) ∧
    (Issues (.vote c (.all d pa)) c s z p → GivesBit (.vote c (.all d pa)) c .variable d s z p fun t _ =>
      every (.vote c (.all d pa)) fun k => (t.grp.pr pa.val).getLsbD k) ∧
    (Issues (.vote c (.uni d a)) c s z p → ∃ f : State → Nat → Bool, GivesBit (.vote c (.uni d a)) c .variable d s z p f ∧
      ∀ t l, on (.vote c (.uni d a)) l = true →
        f t l = every (.vote c (.uni d a)) fun k => decide (rdSrc t z c.ix a k = rdSrc t z c.ix a l)) ∧
    (Issues (.vote c (.ballot r pa)) c s z p → ∃ f : State → Nat → Word,
      GivesVal (.vote c (.ballot r pa)) c .variable r s z p (fun t l => .raw (f t l)) ∧
        ∀ t l k, (f t l).getLsbD k = (on (.vote c (.ballot r pa)) k && (t.grp.pr pa.val).getLsbD k)) ∧
    (Issues (.shfl c m r a x pv) c s z p →
      let e := issuedOf (.shfl c m r a x pv) c s z p
      let b (l : Nat) : Nat := match x with
        | .reg k => (rdSrc e.state z c.ix k l).pay.toNat
        | .imm i => i.toNat
      let src (l : Nat) : Int := match m with
        | .idx => b l
        | .up => l - b l
        | .down => l + b l
        | .xor => (l ^^^ b l : Nat)
      let valid (l : Nat) : Bool := decide (0 ≤ src l ∧ src l ≤ 31) && e.act.getLsbD (src l).toNat
      ∃ ws vs, exec (.shfl c m r a x pv) s = .next (e.state.finish z c.sched .variable e.act (ws ++ vs)) ∧
        WritesReg r (regNum e.state.grp c.ix r) e.act
          (fun l => if valid l then rdSrc e.state z c.ix a (src l).toNat else rdSrc e.state z c.ix a l) ws ∧
        (pv = none → vs = []) ∧ ∀ k, pv = some k → WritesPred k.val e.act valid vs) ∧
    (Issues (.mtch c payOnly r a) c s z p → ∃ f : State → Nat → Word,
      GivesVal (.mtch c payOnly r a) c .variable r s z p (fun t l => .raw (f t l)) ∧
        ∀ l k, (f (issuedOf (.mtch c payOnly r a) c s z p).state l).getLsbD k = (on (.mtch c payOnly r a) k &&
          let u := rdSrc (issuedOf (.mtch c payOnly r a) c s z p).state z c.ix a k
          let v := rdSrc (issuedOf (.mtch c payOnly r a) c s z p).state z c.ix a l
          decide (u.pay = v.pay ∧ (payOnly = false → u.tag = v.tag)))) ∧
    (Issues (.elect c d) c s z p → GivesBit (.elect c d) c .variable d s z p fun _ l =>
      decide (∀ k, k < l → on (.elect c d) k = false)) ∧
    (Issues (.gred c op ty r a) c s z p → GivesVal (.gred c op ty r a) c .variable r s z p fun t _ =>
      redOut ty (((List.range 32).filter (on (.gred c op ty r a))).foldl (fun w k =>
        let u := (rdSrc t z c.ix a k).pay.toNat % 2 ^ ty.width
        atomBits (redStep op ty) ty w u u) (redIdentity op ty))) ∧
    (∀ excl, Issues (.gscan c op excl ty r a) c s z p → GivesVal (.gscan c op excl ty r a) c .variable r s z p fun t l =>
      redOut ty (((List.range 32).filter fun k => on (.gscan c op excl ty r a) k && (decide (k < l) || (!excl && k == l))).foldl
        (fun w k =>
          let u := (rdSrc t z c.ix a k).pay.toNat % 2 ^ ty.width
          atomBits (redStep op ty) ty w u u) (redIdentity op ty)))

/-! ### The tile stream and the copy engines -/

/-- R295 to R304: the instructions of the issuing tile stream end at the next instruction with the effect of their rule, where their
checks hold and nothing they wait for is busy; a claim outside the declared range, a loop too many and an end of no loop are a
stream fault of cause 0x11.
Choices of the model in it: log entries 19 (DEDUCED), 35 (DEDUCED), 86 (DESIGN CHOICE). -/
def Obligations.TileStream : Prop :=
  ∀ (s : State) (b : Block) (t : Stream), s.curStream = some (b, t) →
    let core := b.cores.headD 0
    let goes (i : Instr) (f : Stream → Stream) : Prop := exec i s = .next (s.streamNext b t f)
    let bad (i : Instr) (cause : BitVec 8) : Prop := exec i s = .next (s.streamFault b.id cause 0 false false)
    (∀ first count : BitVec 10,
      let lo := first.toNat
      let hi := lo + count.toNat
      let inside (k : Nat) : Bool := decide (lo ≤ k ∧ k < hi)
      (b.spec.slots < hi → bad (.tclaim false first count) 0x11 ∧ bad (.trel false first count) 0x11) ∧
      (b.spec.accs < hi → bad (.tclaim true first count) 0x11 ∧ bad (.trel true first count) 0x11) ∧
      (hi ≤ b.spec.slots → ∃ v : Stream → Store (Option TileData), goes (.tclaim false first count) (fun t => { t with slots := v t }) ∧
        ∀ k, keyGet (v t) k = if inside k && (keyGet t.slots k).isNone then some none else keyGet t.slots k) ∧
      (hi ≤ b.spec.accs → ∃ v : Stream → Store (Option (List (BitVec 32))), goes (.tclaim true first count) (fun t => { t with accs := v t }) ∧
        ∀ k, keyGet (v t) k = if inside k && (keyGet t.accs k).isNone then some none else keyGet t.accs k) ∧
      (hi ≤ b.spec.slots → s.busyFor b core = false → ∃ v : Stream → Store (Option TileData),
        goes (.trel false first count) (fun t => { t with slots := v t, loads := t.loads.filter fun e => e.1 < lo || hi ≤ e.1 }) ∧
          ∀ k, keyGet (v t) k = if inside k then none else keyGet t.slots k) ∧
      (hi ≤ b.spec.accs → s.busyAcc b core lo count.toNat = false → ∃ v : Stream → Store (Option (List (BitVec 32))),
        goes (.trel true first count) (fun t => { t with accs := v t }) ∧
          ∀ k, keyGet (v t) k = if inside k then none else keyGet t.accs k)) ∧
    (∀ count : BitVec 24,
      (t.loops.length < 4 → goes (.tloop count) fun t => { t with loops := t.loops ++ [(t.pc + 16, count.toNat, 0)] }) ∧
      (4 ≤ t.loops.length → bad (.tloop count) 0x11)) ∧
    (t.loops = [] → bad .tendl 0x11) ∧
    (∀ outer start count i, t.loops = outer ++ [(start, count, i)] →
      (i + 1 < count → exec .tendl s =
        .next ((s.modStream b.id fun t => { t with loops := outer ++ [(start, count, i + 1)] }).streamAt b.id start)) ∧
      (count ≤ i + 1 → goes .tendl fun t => { t with loops := outer })) ∧
    (s.busyFor b core = false → exec .tstop s = .next (s.modStream b.id fun t =>
      { t with
        stopped := true, slots := [], accs := [], loops := [], wait := .none, waited := false, arrived := [], late := [], loads := [] })) ∧
    (∀ (n : Fin 16) (self : Bool) a o, b.barrier core n.val = some a → s.barAt a = some o →
      let q := (sget 0 t.q n.val).toNat
      (o.phase ≠ q ∨ (self = true ∧ o.pena = 1 ∧ o.penb = 0) → exec (.tbwt n self) s =
        .next ((s.modStream b.id fun t =>
          { t with q := sput 0 t.q n.val (BitVec.ofNat 32 o.phase), lastBar := some n.val }).streamNext b t id)) ∧
      (o.phase = q → ¬(self = true ∧ o.pena = 1 ∧ o.penb = 0) → s.groupsLive b.id = true →
        exec (.tbwt n self) s = .next (s.modStream b.id fun t => { t with wait := .bar n.val self })) ∧
      (o.pena ≠ 0 → exec (.tarr n) s = .next ((s.barUpdate none a true 0 0).2.streamNext b t (Stream.closeWindow n.val))) ∧
      (o.pena = 0 → bad (.tarr n) 0x11)) ∧
    (∀ (slot : Fin 48) (hw : BitVec 10) (st : TStep) (roleB : Bool) (w : Option TWait) (ws : List Word) (r k : Nat),
      let R := Tensor.of ws
      (keyGet t.slots slot.val).isSome = true → w = none ∨ t.waited = true → s.streamWords b core hw.toNat = .inr ws →
      R.out = false → R.roleB = roleB → R.perm = 0 → t.tileAt st = ((r : Int), (k : Int)) →
      (r + 1) * R.tile.1 ≤ R.rows → (k + 1) * R.tile.2 ≤ R.cols →
        let cols := (List.range R.tile.2).map fun j => k * R.tile.2 + j
        let rows := (List.range R.tile.1).map fun i => r * R.tile.1 + i
        let at_ := rows.flatMap fun i => cols.flatMap fun j => R.elemAddrs i j
        let data := s.streamReads b core R.space at_
        let scales := s.streamReads b core R.sspace (R.scaleAddrs r k)
        let u := (s.touchAll core b.aspace R.space at_).touchAll core b.aspace R.sspace (R.scaleAddrs r k)
        data.miss = [] → data.fail = none → scales.miss = [] → scales.fail = none →
          let d := R.load (elemsOf R.fmt (rows.flatMap fun _ => cols) data.bytes) scales.bytes
          exec (.tload slot hw st roleB w) s =
            .next (u.loadSlot b t core slot.val [(R.sspace, []), (R.space, at_), (R.sspace, R.scaleAddrs r k)] d) ∧
          (t.late = [] → ∃ ls : Stream → List (Nat × StreamWord), exec (.tload slot hw st roleB w) s = .next (u.streamNext b t fun t =>
            { t with slots := keySet t.slots slot.val (some d), loads := ls t }))) ∧
    (∀ (acc : Fin 8) (x y : Fin 48) v dx dy, keyGet t.accs acc.val = some v → keyGet t.slots x.val = some (some dx) →
      keyGet t.slots y.val = some (some dy) →
      (dx.roleB = true ∨ dy.roleB = false ∨ dx.fmt ≠ dy.fmt → bad (.tmma acc x y) 0x11) ∧
      (dx.roleB = false → dy.roleB = true → dx.fmt = dy.fmt →
        (s.tile core).active = true ∨ s.askedBefore b core (t.asked.getD s.now) = true →
          exec (.tmma acc x y) s = .next (s.modStream b.id fun t => { t with asked := some (t.asked.getD s.now) })) ∧
      (dx.roleB = false → dy.roleB = true → dx.fmt = dy.fmt → (s.tile core).active = false →
        s.askedBefore b core (t.asked.getD s.now) = false →
        let e := s.tile core
        let (c, u) := (s.worked b.id core 64).accVals v
        exec (.tmma acc x y) s = .next ((u.setTile core
          { e with gated := false, busyUntil := (if e.gated then s.now + 3400 else s.now) + 64, blk := b.id, acc := acc.val,
                   before := some c, after := mmaAll dx dy c, active := true, reran := false, pc := t.pc }).streamNext b t
          fun t => { t with accs := keySet t.accs acc.val (some c) }))) ∧
    (∀ acc : Fin 8, (keyGet t.accs acc.val).isSome = true → s.busyAcc b core acc.val 1 = false →
      goes (.tzero acc) fun t => { t with accs := keySet t.accs acc.val (some (List.replicate 16384 0)) }) ∧
    (∀ (acc : Fin 8) (hw : BitVec 10) (st : TStep) (ws : List Word) vals (r k : Nat) done u,
      let R := Tensor.of ws
      keyGet t.accs acc.val = some (some vals) →
      s.busyAcc b core acc.val 1 = false → s.streamWords b core hw.toNat = .inr ws → R.out = true →
      t.tileAt st = ((r : Int), (k : Int)) → (r + 1) * 128 ≤ R.rows → (k + 1) * 128 ≤ R.cols →
      State.storeWords b core R.space (R.outWords r k vals).zipIdx ⟨t.written, [], none⟩
        (s.modStream b.id fun t => { t with accs := keySet t.accs acc.val (some vals) }) = (⟨done, [], none⟩, u) →
        exec (.tstore acc hw st) s =
          .next ((u.touchAll core b.aspace R.space ((R.outWords r k vals).map Prod.fst)).streamNext b t id)) ∧
    (∀ (off : BitVec 19) h, s.busyFor b core = false → s.streamHome b core 2 off.toNat .write = .home h →
      exec (.tchk off) s = .next ((s.landRaw h (BitVec.ofNat 64 (t.rerun * 2 ^ 32 + t.fail * 2 ^ 16 + t.facc * 2 ^ 5 +
        (if t.fail = 0 then 0 else 1)))).streamNext b t fun t => { t with rerun := 0, fail := 0, facc := 0 }))

/-- R311 to R317: a copy instruction whose lanes all pass their checks waits for the group's stores, issues the command of each
Active lane in lane order and goes on; the first lane that fails a check faults the path and no command is issued.
Choices of the model in it: log entries 36 (DEDUCED), 37 (DEDUCED), 38 (DEDUCED), 41 (DEDUCED). -/
def Obligations.CopyInstructions : Prop :=
  ∀ (c : Ctl) (ss ds : Space) (isp : ISpace) (k : Comp) (tk : Option (Fin 8)) (pr a x n : Src) (geo : Vec) (doff : BitVec 24) (s : State)
    (z : Bool) (p : Machine.Path),
    ∀ e ∈ ([(.cpy c ss ds k a x n doff, cpyPlan c ss ds k a x n doff, compToken k),
        (.cpym c ss k a x geo doff, cpymPlan c ss k a x geo doff, compToken k),
        (.cpyg c ss ds isp k a x geo doff, cpygPlan c ss ds isp k a x geo doff, compToken k),
        (.cpyr c ss tk pr a x n doff, cpyrPlan c ss pr a x n doff, tk)] :
        List (Instr × (State → Bool → Machine.Path → Nat → (BitVec 8 × Word) ⊕ Ask) × Option (Fin 8))),
      Issues e.1 c s z p →
        let r := issuedOf e.1 c s z p
        let t := (r.state.drainGroup r.state.grp.blk r.state.grp.grp).changed z
        (r.act = 0 → exec e.1 s = .next ((r.state.spend c.sched).next z)) ∧
        (∀ f : Nat → Ask, r.act ≠ 0 → (∀ l, r.act.getLsbD l = true → e.2.1 r.state z r.path l = .inr (f l)) →
          exec e.1 s = .next ((((lanes r.act).foldl (fun u l => u.issueCmd r.path (e.2.2.map Fin.val) l (f l)) t).spend
            c.sched).next z)) ∧
        (∀ l cause addr, r.act.getLsbD l = true → e.2.1 r.state z r.path l = .inl (cause, addr) →
          (∀ j, j < l → r.act.getLsbD j = true → ∃ y, e.2.1 r.state z r.path j = .inr y) →
            exec e.1 s = .next (r.state.trapPath e.1 c.sched cause addr r.act))

/-- R322, R323: NMATCH of one lane whose operands and template pass installs an entry and returns its full tag, or -1, -2, -3 or -4;
NUNMATCH of one lane removes the entry of its tag and returns the bytes counted, or returns -1.
Choices of the model in it: log entries 42 (DEDUCED), 43 (DEDUCED). -/
def Obligations.MatchInstructions : Prop :=
  ∀ (c : Ctl) (ss : Space) (d : Reg) (a x k : Src) (s : State) (z : Bool) (p : Machine.Path) (l : Nat), l < 32 →
    (Issues (.nmatch c ss d a x k) c s z p →
      let r := issuedOf (.nmatch c ss d a x k) c s z p
      let rd (o : Src) := rdSrc r.state z c.ix o l
      let die := r.state.grp.core / 72
      ∀ b : Block, r.act = laneBit l → r.state.myBlk = some b → (rd a).isNum = true → (rd x).isNum = true → (rd k).isNum = true →
        1 ≤ (rd a).pay.toNat → (rd a).pay.toNat < 2 ^ 30 → (rd x).pay.toNat < 2 ^ 40 → (rd x).pay.toNat % 2 ^ 32 ≠ 0 →
        r.state.rangeOk ss (rd k).pay.toNat = true → (rd k).pay.toNat % 8 = 0 →
        let full := die * 2 ^ 30 + (rd a).pay.toNat
        let gives (v : Int) (t : State) : Prop :=
          exec (.nmatch c ss d a x k) s =
            .next ((if 0 ≤ v then t.changed z else t).finish z c.sched .variable r.act (wrReg t.grp c.ix d [(l, .ofInt v)]))
        let touched (t : State) : State := if ss = .glb then t.touchAll t.grp.core t.myAspace 0 [(rd k).pay.toNat] else t
        let node := r.state.jobNode b (die * 256 + (rd x).pay.toNat / 2 ^ 32 % 256)
        (node = none → gives (-3) (touched r.state)) ∧
        (∀ n ws t, node = some n → r.state.template r.path [] ss l (rd k).pay.toNat n.rsize = (.ok ws, t) →
          let seen := touched t
          let odd := ∃ w ∈ ws, w.2.tag = .fwd ∨ w.2.tag = .pend ∨ w.2.tag = .link ∨ w.2.tag = .res14 ∨ w.2.tag = .res15
          let used := ∃ w ∈ t.matchTab, w.tag = full
          let held := (t.matchTab.filter fun w => w.tag / 2 ^ 30 == die).length
          (odd → gives (-4) seen) ∧ (¬odd → used → gives (-2) seen) ∧ (¬odd → ¬used → 4096 ≤ held → gives (-1) seen) ∧
          (¬odd → ¬used → held < 4096 → gives full { seen with matchTab := seen.matchTab ++
            [⟨full, b.pid, b.eff.job, (rd x).pay.toNat % 2 ^ 32, 0, n.id, ws.map Prod.snd, none, none⟩] }))) ∧
    (Issues (.nunmatch c d a) c s z p →
      let r := issuedOf (.nunmatch c d a) c s z p
      let x := rdSrc r.state z c.ix a l
      let mine (e : MatchEntry) : Bool := e.tag == x.pay.toNat && e.pid == r.state.pid && e.done.isNone
      let gives (v : Int) (t : State) : Prop :=
        exec (.nunmatch c d a) s =
          .next ((if 0 ≤ v then t.changed z else t).finish z c.sched .variable r.act (wrReg t.grp c.ix d [(l, .ofInt v)]))
      r.act = laneBit l → x.isNum = true →
        (∀ e, r.state.matchTab.find? mine = some e →
          gives e.count { r.state with matchTab := r.state.matchTab.filter fun k => k.tag != x.pay.toNat }) ∧
        (r.state.matchTab.find? mine = none → gives (-1) r.state))

/-! ### Events -/

/-- R78, R66, R208, R250, R255, R313 to R324, R342, R395, R303: the pending effects of instructions. A performed store registers; a
pending result takes effect; a demotion, a wait's limit and a retest come due; a command moves a piece, completes or fails; bytes
of a peer land; a match emission commits its slot; a port goes down; a TMMA ends, or runs once more.
Choices of the model in it: log entries 9 (DEDUCED), 13 (DEDUCED), 14 (DESIGN CHOICE), 16 (DEDUCED), 26 (DEDUCED), 35 (DEDUCED),
36 (DEDUCED), 40 (DEDUCED), 53 (DEDUCED), 67 (DEDUCED), 80 (DESIGN CHOICE), 85 (DESIGN CHOICE). -/
def Obligations.PendingEffects : Prop :=
  ∀ s : State,
    (∀ k x, s.stores[k]? = some x → x.mask ≠ 0 →
      (∀ y ∈ s.stores.take k, ¬(y.word = x.word ∧ y.blk = x.blk ∧ y.grp = x.grp ∧ y.mask &&& x.mask ≠ 0)) →
        exec (.storeRegistration k) s = .next (State.regStore { s with stores := s.stores.eraseIdx k } x)) ∧
    (∀ blk grp k g c rest, s.grp? blk grp = some g → takeAt g.pend k = some (c, rest) → (∀ t, c.due = some t → t ≤ s.now) →
      ∃ t : State, exec (.instructionCompletion blk grp k) s = .next t ∧
        t.grp? blk grp = some (Group.finish { g with pend := rest } c)) ∧
    (∀ blk grp b g p, s.grp? blk grp = some g → g.slot b = some p → p.spin.demoted = true → p.spin.since + 1024 ≤ s.now →
      ∃ t : State, exec (.demotionExpiry blk grp b) s = .next t ∧ t.grp? blk grp = some (g.setSlot b (some p.undemote))) ∧
    (∀ blk grp b g p, s.grp? blk grp = some g → g.slot b = some p →
      (∀ w, p.wait = .bar w → s.expired blk w.deadline = true →
        exec (.waitTimeout blk grp b) s = .next (s.putBar blk grp b (w.decide fun _ => some 1)) ∧
          (w.decide fun _ => some 1).lanes = []) ∧
      (∀ w, p.wait = .prom w → s.expired blk w.deadline = true →
        exec (.waitTimeout blk grp b) s = .next ((s.freeWaiters fun e => e.blk == blk && e.grp == grp && e.slot == b).putProm blk grp b
          (w.decide 0xFFFFFFFF 1 Val.nil))) ∧
      (∀ w, p.wait = .bar w → exec (.waitRetest blk grp b) s =
        .next (s.putBar blk grp b (w.decide fun l => if l.registered then none else s.barTest l)))) ∧
    (∀ (cmd k : Nat) (c : Cmd) (x : Range) (rest : List Range) (u w : State) (a : Loc) ws h, s.cmd? cmd = some c → c.failed = none →
      c.peer = none → pickPiece false 8 k c.todo = some (x, rest) → s.ready c.agent (fun _ => true) = (.go, u) → x.src = .at a →
      let v := State.keepOnce ((u.cmdTouch c a).cmdTouch c (a.plus (x.len - 1))) c a ws
      x.held rest = false → u.cmdWords c a x.len = .ok ws → v.cmdHome c x.dst .write = .home h → x.over_ = none →
        let whole := x.len == 8 && x.dst.a % 8 == 0 && a.a % 8 == 0
        let tag : Tag := match ws with | e :: _ => e.2.tag | [] => .raw
        let bytes := packBytes (x.dst.a % 8) ((List.range x.len).map fun j => byteAt ws (a.a + j))
        (whole && Tag.reserved tag) = false →
        (v.cmdTouch c x.dst).landWord c.lander h whole ⟨if whole then tag else .raw, bytes.1⟩ bytes.2 = .inr w →
          exec (.engineLanding cmd k) s = .next ((w.modCmd c.id fun c => { c with todo := rest }).countLanded c x x.len)) ∧
    (∀ (cmd : Nat) (c : Cmd), s.cmd? cmd = some c →
      (c.todo = [] → c.failed = none → c.peer = none → exec (.engineCommandComplete cmd) s = .next (s.endCmd c none)) ∧
      (∀ z va w fwd, c.failed = some (z, va, w) → c.packet = none → exec (.engineCommandFailure cmd fwd) s =
        .next ((s.record c.pid (s.cmdRec c 3 z va w)).endCmd c (some (z, va))))) ∧
    (∀ (f : Flit) (p : Partition) (aspace n : Nat) (hs : List (Nat × Nat × Home)) (u w : State), s.part? f.part = some p →
      p.stopped = false → f.srcDev ≠ s.dev.devNo → s.ownsDie f.part f.die = true → s.portUp f.die f.port = true → s.spanSpace f.part f.srcDev f.srcPart = some aspace →
      s.ready (spanAgent f.part) (fun x =>
        f.va / 0x10000 ≤ x / 0x10000 && x / 0x10000 ≤ (f.va + f.bytes.length) / 0x10000) = (.go, u) →
      let die := s.logDie f.die
      ((wordsOf f.va f.bytes.length).map fun k => (k, u.devHome die aspace k.1 .write true)) =
        hs.map (fun e => ((e.1, e.2.1), Found.home e.2.2)) →
      State.landFlit f hs (u.touchDies die aspace (hs.map fun e => e.1)) = (none, n, w) →
        exec (.spanFlitReceive f) s = .next ((w.countFlit f aspace n).emit (.spanReply f.srcDev f.srcPart f.cmd none))) ∧
    (∀ (node slot : Nat) (n : Node) (e : Emit) (u : State), s.node? node = some n → (n.slot slot).st = .reserved →
      (n.slot slot).emit = some e → e.who = .caller node → s.writeRecord (node / 256) n slot 0 e = (.written, u) →
        exec (.matchTemplateCommit node slot) s =
          .next (State.onNode { u with matchTab := u.matchTab.filter fun x => !(x.node == node && x.slot == some slot) } node
            fun n => n.commit slot u.now)) ∧
    (∀ die port, (portCount die ≤ port → exec (.spanPortDown die port) s = .next s) ∧ (port < portCount die →
      let back (f : SentFlit) : SentFlit := if f.port = some (die, port) then { f with port := none } else f
      exec (.spanPortDown die port) s = .next (State.sendFlits { s with dev := { s.dev with
        ports := sput 8 s.dev.ports (die * 64 + port) 0, flits := s.dev.flits.map back } }))) ∧
    (∀ core,
      let e := s.tile core
      e.active = true → e.busyUntil ≤ s.now →
        (s.turn.tileErr = false → exec (.tmmaCompletion core) s = .next ((s.modStream e.blk fun t =>
          if (keyGet t.accs e.acc).isSome then { t with accs := keySet t.accs e.acc (some e.after) } else t).setTile core
            { e with active := false, lastUse := e.busyUntil, before := none, after := [] })) ∧
        (s.turn.tileErr = true → e.reran = false → exec (.tmmaCompletion core) s = .next (((s.modStream e.blk fun t =>
          { t with rerun := min 65535 (t.rerun + 1) }).worked e.blk core 64).setTile core
            { e with reran := true, busyUntil := e.busyUntil + 64 })))

/-- R335 to R341, R330: RALLOC of one lane reserves the next slot of its node and returns its address, or -1, -2 or -3; RCOMMIT commits
the slot that its lane reserved; RDONE makes the launch's slots done; RFLUSH returns the ready run; RCARD queues a card; the node
timer, launches of nodes and of cards, and the end of a card. A node launches when no eligible node of its die is served before it.
R329 to R331, R340, R341: a timer that has passed marks its node; a node launches its ready run, a card its next chunk; a card
that has been dealt and whose launches have ended is complete.
Choices of the model in it: log entries 44 (DEDUCED), 49 (DEDUCED). -/
def Obligations.NodesRecordsAndCards : Prop :=
  (∀ (c : Ctl) (tk : Option (Fin 8)) (d : Reg) (q : Pred) (a x n : Src) (s : State) (z : Bool) (p : Machine.Path) (l : Nat), l < 32 →
     let sole (i : Instr) (b : Block) : Prop := Issues i c s z p ∧ (issuedOf i c s z p).act = laneBit l ∧
       (issuedOf i c s z p).state.myBlk = some b
     let one (i : Instr) (b : Block) : Prop := sole i b ∧ (issuedOf i c s z p).state.grp.idempc.getLsbD 0 = false
     let A (i : Instr) := rdSrc (issuedOf i c s z p).state z c.ix a l
     let deep (i : Instr) := (special (issuedOf i c s z p).state z l .depth).pay.toNat + 1
     (∀ b, let i := Instr.ralloc c d a q
       let t := (issuedOf i c s z p).state
       let gives (u : State) (v : Int) : Prop := exec i s = .next (u.finish z c.sched .variable (laneBit l)
         (wrReg t.grp c.ix d [(l, .ofInt v)] ++ wrPred q [(l, decide (0 ≤ v))]))
       one i b → (A i).isNum = true →
         (t.jobNode b (A i).pay.toNat = none → gives t (-3)) ∧
         (∀ k, t.jobNode b (A i).pay.toNat = some k →
           (k.maxdepth < deep i → k.strict = false → gives t (-2)) ∧
           (k.maxdepth < deep i → k.strict = true → exec i s =
             .next ((t.spend c.sched).takeTrap (faceOf t i) 0x0E (p.pc.setWidth 64) 0 (laneBit l) false)) ∧
           (deep i ≤ k.maxdepth → ∀ m,
             let u := t.settleNode (A i).pay.toNat
             u.node? (A i).pay.toNat = some m →
               (m.full = true → gives u (-1)) ∧
               (m.full = false →
                 let e := m.reserve (deep i) (some (b.id, t.grp.grp)) none
                 let w := if m.qcap ≤ m.alloc then u.acquireMe (issuedOf i c s z p).path else u
                 gives ((w.modNode (A i).pay.toNat fun _ => e.2).changed z) (m.slotVA e.1))))) ∧
     (∀ b id k, let i := Instr.rcommit c a
       let t := (issuedOf i c s z p).state
       one i b → (A i).isNum = true → t.reservedSlot t.grp.blk t.grp.grp (A i).pay.toNat = some (id, k) →
         let u := t.drainGroup t.grp.blk t.grp.grp
         exec i s = .next ((((u.onNode id fun m => m.commit k u.now).changed z).spend c.sched).next z)) ∧
     (∀ b id cnt rb first card, let i := Instr.rdone c
       let t := (issuedOf i c s z p).state
       one i b → b.origin = .node id cnt rb first card →
         let u := t.drainGroup t.grp.blk t.grp.grp
         let frees : Bool := match u.node? id with
           | some n => (n.slot (first + l)).st == .launched && (n.slot (first + l)).launch == t.grp.blk
           | none => false
         exec i s = .next (((if card.isNone && frees then (u.slotsDone t.grp.blk id first [l]).changed z else u).spend c.sched).next z)) ∧
     (∀ b launch num gx gy gz, let i := Instr.rdone c
       let t := (issuedOf i c s z p).state
       one i b → b.origin = .grid launch num gx gy gz →
         exec i s = .next (t.trapPath i c.sched 0x11 (p.pc.setWidth 64) p.mask)) ∧
     (∀ b, let i := Instr.rflush c d a
       let t := (issuedOf i c s z p).state.settleNode (A i).pay.toNat
       let gives (u : State) (v : Int) : Prop := exec i s = .next (u.finish z c.sched .variable (laneBit l)
         (wrReg t.grp c.ix d [(l, .ofInt v)]))
       sole i b → (A i).isNum = true →
         (t.jobNode b (A i).pay.toNat = none → gives t (-3)) ∧
         (∀ k, t.jobNode b (A i).pay.toNat = some k → k.run = 0 → gives t 0) ∧
         (∀ k, t.jobNode b (A i).pay.toNat = some k → k.run ≠ 0 →
           gives ((t.modNode (A i).pay.toNat fun m => { m with flush := true }).changed z) k.run)) ∧
     (∀ b k, let i := Instr.rcard c tk d a x n
       let t := (issuedOf i c s z p).state
       let X := rdSrc t z c.ix x l
       let N := rdSrc t z c.ix n l
       one i b → (A i).isNum = true → X.isNum = true → N.isNum = true → 1 ≤ N.pay.toNat → N.pay.toNat ≤ 65535 →
         t.jobNode b (A i).pay.toNat = some k → X.pay.toNat + N.pay.toNat * k.rsize ≤ 2 ^ 56 → X.pay.toNat % 16 = 0 → 0 < k.rsize →
         deep i ≤ k.maxdepth → (t.cards.filter fun y => y.node == (A i).pay.toNat && y.pending).length < 16 →
           let u := t.drainGroup t.grp.blk t.grp.grp
           let card : Card := { id := u.uid, node := (A i).pay.toNat, base := X.pay.toNat, count := N.pay.toNat, dealt := 0, depth := deep i,
                                token := tk.map fun y => (t.grp.blk, t.grp.grp, y.val), dropped := false }
           let w : State := { u with uid := u.uid + 1, cards := u.cards ++ [card] }
           let busy : State := match tk with
             | some y => w.setGrp fun g => { g with busy := g.busy ||| ((1 : BitVec 8) <<< y.val) }
             | none => w
           exec i s = .next ((busy.changed z).finish z c.sched .variable (laneBit l) (wrReg t.grp c.ix d [(l, .ofInt 0)])))) ∧
  (∀ (s : State) (node core : Nat),
     let t := s.settleNode node
     (∀ n, t.node? node = some n →
       (n.timer ≠ 0 → 0 < n.run → (n.slot (n.launch % n.qcap)).clock + n.timer ≤ t.now →
         exec (.nodeTimerExpiry node) s = .next (t.modNode node fun n => { n with timedOut := true })) ∧
       (∀ w : State, n.unbind = none → t.cardOf node = none → 0 < n.run →
         32 ≤ n.run ∨ n.thresh ≤ n.run ∨ n.launch % n.qcap + n.run = n.qcap ∨ n.timedOut = true ∨ n.flush = true ∨
           (n.timer ≠ 0 ∧ (n.slot (n.launch % n.qcap)).clock + n.timer ≤ t.now) →
         t.nodeWaits n = false →
         let at_ := n.launch % n.qcap
         let count := min 32 n.run
         t.launchNode n core count (n.slotVA at_) at_ none ((List.range count).map fun i => (n.slot (at_ + i)).depth) = some w →
           exec (.nodeLaunch node core) s = .next (w.modNode node fun n =>
             let n := (List.range count).foldl (fun n i => n.setSlot (at_ + i) { n.slot (at_ + i) with st := .launched, launch := t.uid }) n
             { n with launch := n.launch + count, flush := false, timedOut := false }))) ∧
     (∀ n k (w : State), s.node? node = some n → s.cardOf node = some k → n.unbind = none →
       let running := s.blocks.filter fun b => match b.origin with | .node id _ _ _ _ => id == node | .grid .. => false
       let m := max 1 (running.flatMap Block.cores).eraseDups.length
       let count := min 32 (max 1 ((k.count - k.dealt + 2 * m - 1) / (2 * m)))
       s.launchNode n core count (k.base + k.dealt * n.rsize) 0 (some k.id) (List.replicate count k.depth) = some w →
         exec (.cardLaunch node core) s = .next
           { w with cards := updWhere w.cards (fun c => c.id == k.id) fun c => { c with dealt := c.dealt + count } }) ∧
     (∀ card k, s.cards.find? (fun x => x.id == card) = some k → k.pending = false → s.cardRuns card = false →
       let t : State := { s with cards := s.cards.filter fun x => x.id != card }
       (k.token = none → exec (.cardComplete card) s = .next t) ∧
       (∀ blk grp n, k.token = some (blk, grp, n) → exec (.cardComplete card) s =
         .next (t.endToken blk grp n (if k.dropped then some (0x11, 0) else none)))))

/-- R343, R344: a queue is bound from its control block with its counts at 0; a kick of a running queue takes the write count it may
take; a check that finds the privileged fields as they were changes nothing, and stops the queue with ERR 1 otherwise. R346, R347: the
next packet of a queue that is well formed and waits for nothing starts.
Choices of the model in it: log entries 45 (DEDUCED), 46 (DEDUCED), 49 (DEDUCED). -/
def Obligations.QueuesAndPacketStart : Prop :=
  ∀ s : State,
    (∀ (fn page q : Nat) (w : Word) (k : Queue), s.dev.boot = .up → s.doorbellQueue fn page = some q → s.queue? q = some k →
      (k.state ≠ 1 ∨ w.toNat ≤ k.widx → exec (.queueKick ⟨fn, page⟩ w) s = .next s) ∧
      (k.state = 1 → k.widx < w.toNat → w.toNat ≤ k.cidx + 2 ^ k.log2n → exec (.queueKick ⟨fn, page⟩ w) s =
        .next ((s.modQueue q fun k => { k with widx := w.toNat }).showQueue q)) ∧
      (k.state = 1 → k.widx < w.toNat → k.cidx + 2 ^ k.log2n < w.toNat → exec (.queueKick ⟨fn, page⟩ w) s = .next (s.stopQueue q 2))) ∧
    (∀ fn page w, (s.dev.boot ≠ .up ∨ s.doorbellQueue fn page = none) → exec (.queueKick ⟨fn, page⟩ w) s = .next s) ∧
    (∀ (fn q aspace qcb : Nat) (a : Aspace) (ws : List Word) (c : List Rcb) (ring log2n die vec rcb : Nat), s.aspace? aspace = some a →
      s.firmWords aspace qcb 16 = some ws → qcbFields ws = (ring, log2n, die, vec, aspace, rcb) → s.chain a.pid rcb = some c →
      s.queue? q = none → q < 4096 → qcb % 128 = 0 → ring % 64 = 0 → 4 ≤ log2n → log2n ≤ 16 →
      (∃ p, s.part? a.pid = some p ∧ p.dies.contains die = true) → a.root ≠ none → fieldOf ws 24 8 = 0 → fieldOf ws 60 4 = 0 →
      (∀ x ∈ ws.drop 8, x = 0) → s.frozenVf a.pid (tenantOf c) = false →
      (fn = 0 ∨ ∃ v, s.vf? fn = some v ∧ v.pid = a.pid ∧ v.tenant = tenantOf c ∧ v.st ≠ .run) →
        ∃ t : State, exec (.queueBind ⟨fn, q⟩ aspace qcb) s = .next t ∧ ∃ k, t.queue? q = some k ∧ k.pid = a.pid ∧ k.aspace = aspace ∧
          k.ring = ring ∧ k.log2n = log2n ∧ k.die = die ∧ k.vec = vec ∧ k.rcb = rcb ∧ k.widx = 0 ∧ k.sidx = 0 ∧ k.cidx = 0 ∧ k.state = 1) ∧
    (∀ (q : Nat) (k : Queue), s.queue? q = some k →
      (∀ ws, s.firmWords k.aspace k.qcb 3 = some ws → qcbFields ws = k.copies → exec (.queueCheck q) s = .next s) ∧
      (∀ ws, s.firmWords k.aspace k.qcb 3 = some ws → qcbFields ws ≠ k.copies → k.state = 1 →
        (s.stopQueue q 1).vfFor k.pid ((s.stopQueue q 1).queueTenant k) = none →
          exec (.queueCheck q) s = .next (s.stopQueue q 1))) ∧
    (∀ (k : Queue) (i : Nat) (sel : List Word → Bool) (f : Queue → Packet → State → State) (vs : List Val) (u : State) (p : Partition),
      k.state = 1 → i = k.sidx → i < k.widx → s.part? k.pid = some p → p.stopped = false → Finds s k i (k.packetVA i) 8 vs u →
      let v := u.takeLanes k.die
      packetOk (v.topQueue k) (vs.map Val.pay) = true → v.laneTurn k (pkType (vs.map Val.pay)) = true →
      sel (vs.map Val.pay) = true → (pkBar (vs.map Val.pay) = false ∨ k.cidx = i) →
        let t := (v.modQueue k.id fun k => { k with sidx := i + 1, packets := k.packets ++ [⟨i, vs.map Val.pay, .running, 0, none, 0⟩] }).showQueue
          k.id
        ∀ k', t.queue? k.id = some k' →
          s.startPacket k i sel f = f k' ⟨i, vs.map Val.pay, .running, 0, none, 0⟩ t)

/-- Table 31.3, R342, R346 to R354, R411: the effect of a running packet of each type, and its completion: the addition at its signal
address after every effect, the advance of CIDX and its interrupt.
Choices of the model in it: log entries 17 (DEDUCED), 24 (DEDUCED), 45 (DEDUCED), 47 (DEDUCED), 48 (DEDUCED), 76 (DESIGN CHOICE). -/
def Obligations.PacketEffects : Prop :=
  ∀ (s : State) (q i : Nat) (k : Queue) (p : Packet),
    let w (n : Nat) : Nat := (p.words.getD n 0).toNat
    let eff (t : State) : State := t.modPacket k.id i fun p => { p with st := .effected }
    (Running s q i (signalOp 0) k p → ∀ h u, Reaches s k i (w 3) .write h u →
      (u.storesTag h = false ∨ (u.homeWord h).tag.code ≤ 10 ∨ ((u.homeWord h).tag = .fwd ∧ h.tagged = true)) →
        exec (.signalStore q i) s = .next (eff (u.land h (.raw (p.words.getD 4 0))))) ∧
    (Running s q i (signalOp 1) k p → ∀ h u t, Reaches s k i (w 3) .write h u → u.devAdd h (p.words.getD 4 0) = .inr t →
      exec (.signalAdd q i) s = .next (eff t)) ∧
    (Running s q i (signalOp 2) k p → ∀ h u c r t, Reaches s k i (w 3) .write h u → cellOf h = .inr c →
      u.findRoot none k.pid c = (.root r, t) → (t.peek r).tag = .pend →
        let v : Val := .int (p.words.getD 4 0)
        exec (.signalPfill q i) s = .next (eff ((t.regWord none r v).wakeAll r 0 v))) ∧
    (Running s q i (signalOp 4) k p → exec (.signalTlbi q i) s =
      .next (eff { s with
        tlb := s.tlb.filter fun e => !(e.aspace == k.aspace && (w 3 == 0 || e.base == w 3 / 2 ^ e.size))
        ptrs := s.ptrs.filter fun e => !(e.aspace == k.aspace && (w 3 == 0 || e.base == w 3 / 2 ^ e.bit))
        hdr := s.hdr.filter fun e => !(e.aspace == k.aspace && (w 3 == 0 || e.va / 2 ^ e.size == w 3 / 2 ^ e.size)) })) ∧
    (∀ (op : Bool) (n m : Node) (vs : List Val) (u t : State),
      let id := if op then w 3 else w 4 % 1024
      let base := if op then w 4 else w 3
      let total := if op then w 5 else 1
      let next (t : State) (slot : Nat) : State :=
        let t := (t.onNode id fun n => n.commit slot t.now).modPacket k.id i fun p => { p with slot := none, count := p.count + 1 }
        if p.count + 1 = total then eff t else t
      Running s q i (if op then ofType 7 else signalOp 3) k p → p.idx = i → s.queueNode k id = some n → p.slot = none →
      Finds s k i (base + p.count * n.rsize) (n.rsize / 8) vs u → (u.settleNode id).node? id = some m → m.full = false →
        let e := m.reserve 0 none (some ⟨.packet k.id i, vs⟩)
        ((u.settleNode id).modNode id fun _ => e.2).writeRecord k.die n e.1 (k.packetVA i) ⟨.packet k.id i, vs⟩ = (.written, t) →
          exec (if op then .card q i else .signalCommit q i) s = .next (next t e.1)) ∧
    (Running s q i (ofType 2) k p → p.idx = i → ∀ h u, Reaches s k i (w 3) .read h u →
      let x := (u.homeWord h).pay.toNat
      let holds := match w 5 with
        | 0 => w 4 ≤ x
        | 1 => x = w 4
        | _ => x ≠ w 4
      let wait := u.modPacket k.id i fun p => { p with poll := u.now + 256 }
      (p.poll = 0 → (holds → exec (.waitv q i) s = .next (eff u)) ∧ (¬holds → exec (.waitv q i) s = .next wait)) ∧
      (p.poll ≠ 0 → p.poll ≤ s.now →
        (holds → exec (.waitvPoll q i) s = .next (eff u)) ∧ (¬holds → exec (.waitvPoll q i) s = .next wait))) ∧
    (Running s q i (ofType 3) k p → ∀ vs u r, Finds s k i (w 3) 32 vs u → parseRcb k.pid (w 4) (vs.map Val.pay) = some r →
      (u.rcbOk k r = true → exec (.rcbset q i) s =
        .next (eff { u with rcbs := (u.rcbs.filter fun x => !(x.pid == k.pid && x.addr == r.addr)) ++ [r] })) ∧
      (u.rcbOk k r = false → exec (.rcbset q i) s =
        .next ((u.modPacket q i fun p => { p with st := .failed }).stopQueue q 6))) ∧
    (Running s q i (ofType 4) k p → (s.cmds.any fun c => c.packet == some (q, i)) = false → p.count = 0 →
      (w 5 = 0 → exec (.copy q i) s = .next (eff s)) ∧
      (w 5 ≠ 0 → ∃ c : Cmd, exec (.copy q i) s =
        .next (({ s with uid := s.uid + 1, cmds := s.cmds ++ [c] } : State).modPacket q i fun p => { p with count := 1 }) ∧
          c.id = s.uid ∧ c.packet = some (q, i) ∧ c.aspace = k.aspace ∧ c.pid = k.pid ∧ c.owner = none ∧ c.user = false ∧
          c.todo.map (fun r => (r.src, r.dst, r.len)) = [(.at ⟨.glb, w 3⟩, ⟨.glb, w 4⟩, w 5)])) ∧
    (Running s q i (ofType 5) k p → (s.launches.any fun l => l.queue == q && l.pkt == i) = false → ∀ vs u c gx gy gz n e,
      Finds s k i (w 3) 16 vs u → parseLaunch (vs.map Val.pay) = some (c, gx, gy, gz, n) → u.effFor k c.rcb = some e →
        ∃ l : Launch, exec (.launch q i) s =
          .next (State.withJob { u with uid := u.uid + 1, launches := u.launches ++ [l] } k.pid e.job) ∧
            l.id = u.uid ∧ l.queue = q ∧ l.pkt = i ∧ l.spec = c ∧ l.eff = e ∧ l.gx = gx ∧ l.gy = gy ∧ l.gz = gz ∧ l.lanes = n ∧
            l.placed = 0 ∧ l.ended = 0 ∧ l.allowed = 0) ∧
    (Running s q i (fun ws => ofType 6 ws && fld (ws.getD 4 0) 32 1 == 0) k p → ∀ vs u h v, Finds s k i (w 3) 16 vs u →
      Reaches u k i (w 5) .write h v →
        let id := w 4 % 1024
        let mine := ∃ a, v.part? k.pid = some a ∧ a.dies.contains (id / 256) = true
        let ends (st : Int) (x : State) : Prop := ∀ y, x.landWord .device h true (.ofInt st) 0xFF = .inr y →
          exec (.graphBind q i) s = .next (eff y)
        s.part? k.pid = v.part? k.pid →
        (¬mine → ends (-3) v) ∧ (mine → v.node? id ≠ none → ends (-1) v) ∧
        (∀ e c n, mine → v.node? id = none → v.effFor k (fieldOf (vs.map Val.pay) 40 8) = some e → v.chain k.pid k.rcb = some c →
          let f := v.inJob k.pid (jobOf c) e
          (parseNode id k f (vs.map Val.pay) = some n → v.nodeCapOk k.pid (id / 256) f = true →
            ends 0 ((State.withJob { v with nodes := v.nodes ++ [{ n with pointer := v.firstPointer k.pid, win := v.dev.window }] }
              k.pid (jobOf c)).settleNode id)) ∧
          (parseNode id k f (vs.map Val.pay) = some n → v.nodeCapOk k.pid (id / 256) f = false → ends (-3) v) ∧
          (parseNode id k f (vs.map Val.pay) = none → ends (-2) v))) ∧
    (Running s q i (fun ws => ofType 6 ws && fld (ws.getD 4 0) 32 1 == 1) k p → s.queueNode k (w 4 % 1024) = none →
      let st : Int := if (((s.part? k.pid).map Partition.dies).getD []).contains (w 4 % 1024 / 256) then -1 else -3
      ∀ h u t, Reaches s k i (w 5) .write h u → u.landWord .device h true (.ofInt st) 0xFF = .inr t →
        exec (.graphUnbind q i) s = .next (eff t)) ∧
    (Running s q i (fun ws => ofType 6 ws && fld (ws.getD 4 0) 32 1 == 1) k p → ∀ n, s.queueNode k (w 4 % 1024) = some n →
      let id := w 4 % 1024
      let m := s.modNode id fun n => { n with unbind := some (q, i) }
      let gone (u : State) : State := { u with
        nodes := u.nodes.filter fun n => n.id != id
        matchTab := updWhere u.matchTab (fun e => e.node == id) fun e => { e with slot := none }
        cards := u.cards.map fun c => if c.node == id && c.pending then { c with dropped := true } else c }
      ((∀ b ∈ m.blocks, ∀ cnt rb first card, b.origin ≠ .node id cnt rb first card) →
        ∀ h u t, Reaches m k i (w 5) .write h u → (gone u).landWord .device h true (.ofInt 0) 0xFF = .inr t →
          exec (.graphUnbind q i) s = .next (eff t)) ∧
      ((∃ b ∈ m.blocks, ∃ cnt rb first card, b.origin = .node id cnt rb first card) → exec (.graphUnbind q i) s = .next m)) ∧
    (Running s q i (ofType 8) k p → (s.tracing k.pid q = false → exec (.marker q i) s = .next (eff (s.pulseSrc (some k.pid) 4 (coreTrace k.die 0xFFFF k.id)))) ∧
      (s.tracing k.pid q = true → ∃ r : TraceRec, exec (.marker q i) s = .next (eff ((s.trace k.pid r).pulseSrc (some k.pid) 4 (coreTrace k.die 0xFFFF k.id))) ∧
        r.kind = 1 ∧ r.cls = 255 ∧ r.value = p.words.getD 3 0 ∧ r.queue = q)) ∧
    (s.queue? q = some k → k.packet? i = some p → p.st = .effected →
      let end_ (t : State) : State :=
        let t := ({ t with launches := t.launches.filter fun l => !(l.queue == q && l.pkt == i) } : State).modPacket q i fun p =>
          { p with st := .done }
        let t := (t.modQueue q fun k => Queue.advance k.packets.length k).showQueue q
        if pkIrq p.words then t.raiseVec (t.queueFn k) k.vec else t
      (w 1 = 0 → exec (.packetComplete q i) s = .next (end_ s)) ∧
      (w 1 ≠ 0 → ∀ h u t, Reaches s k i (w 1) .write h u → u.devAdd h 1 = .inr t →
        exec (.packetComplete q i) s = .next (end_ t)))

/-- R354 to R361, R105, R307, R368, R403: the planner admits a block within the budgets; the dispatcher places the next block of a
launch; ended groups and blocks give up what they hold; charges start anew in each energy window; cores and tile engines are gated
when idle and cores wake; heat withholds the issue clocks of the running jobs of lowest priority whose clocks are not withheld yet, and
no path and no stream of such a job issues; a shutdown stops every partition.
Choices of the model in it: log entries 14 (DESIGN CHOICE), 32 (DESIGN CHOICE), 33 (DEDUCED), 48 (DEDUCED), 50 (DESIGN CHOICE), 51
(DESIGN CHOICE), 58 (DEDUCED). -/
def Obligations.BlocksAndPower : Prop :=
  ∀ s : State,
    (∀ (id : Nat) (l : Launch), s.launches.find? (fun k => k.id == id) = some l → l.halted = false →
      (let est := s.estimate l.pid l.eff l.win
       l.allowed < l.gx * l.gy * l.gz → l.refused ≠ some s.dev.window →
        (s.admits l.pid l.eff est = true → exec (.blockAdmission id) s =
          .next ((s.modLaunch id fun l => { l with allowed := l.allowed + 1, ests := l.ests ++ [est] }).account l.pid l.eff.job
            l.eff.own 0 est 0)) ∧
        (s.admits l.pid l.eff est = false → exec (.blockAdmission id) s =
          .next (s.modLaunch id fun l => { l with refused := some s.dev.window }))) ∧
      (∀ ws pl (t : State), l.placed < l.allowed → s.placing l.pid = true → (l.placed = 0 → s.runCapOk l.pid l.eff = true) →
        s.placeFor l.pid l.spec l.eff ((l.lanes + 31) / 32) l.pointer ws = some pl →
        State.startBlock { s with uid := s.uid + 1 }
          (newBlock s.uid (.grid id l.placed (l.placed % l.gx) (l.placed / l.gx % l.gy) (l.placed / (l.gx * l.gy))) l.pid l.aspace l.queue
            l.spec l.eff l.gx l.gy l.gz l.lanes (l.ests.headD 0)) pl [] = some t →
          exec (.blockPlacement id ws) s = .next (t.modLaunch id fun k =>
            { k with placed := l.placed + 1, pointer := pl.decides + 1, ests := k.ests.drop 1 }))) ∧
    (∀ blk grp g b, s.grp? blk grp = some g → s.blk? blk = some b → g.st = .ended → b.killRec = none → s.unacked blk grp = 0 →
      ∃ t : State, exec (.groupResourceRelease blk grp) s = .next t ∧ t.grp? blk grp = none) ∧
    (∀ blk b, s.blk? blk = some b → s.cmdsOf blk = false → (∀ t, b.stream = some t → t.stopped = true) →
      (∀ c ∈ b.cores, s.busyFor b c = false) →
      (b.killRec = none → (∀ g ∈ s.allGroups, ¬(g.blk = blk ∧ g.st ≠ .none)) → (∀ x ∈ s.stores, x.blk ≠ blk) →
        ∃ t : State, exec (.blockEnd blk) s = .next t ∧ t.blk? blk = none) ∧
      (∀ r, b.killRec = some r → ∃ t : State, exec (.blockEnd blk) s = .next t ∧ t.blk? blk = none)) ∧
    (s.dev.window < s.now / 1700000 → ∃ t : State, exec .energyWindowStart s = .next t ∧ t.dev.window = s.now / 1700000 ∧
      (∀ j ∈ t.jobs, j.charge = 0) ∧ t.jobs.map (fun j => (j.pid, j.rcb, j.pending)) = s.jobs.map (fun j => (j.pid, j.rcb, j.pending))) ∧
    (∀ core, core < 288 → s.onCore core = [] → sget 0 s.dev.idleSince core + 34000 ≤ s.now → core ∉ s.dev.gated →
      exec (.corePowerGate core) s = .next { s with dev := { s.dev with gated := s.dev.gated ++ [core] } }) ∧
    (∀ core, (s.tile core).active = false → (s.tile core).gated = false → (s.tile core).lastUse + 8500 ≤ s.now →
      exec (.tileEnginePowerGate core) s = .next (s.setTile core { s.tile core with gated := true })) ∧
    (∀ core b, s.oldestOn core = some b → core ∈ s.dev.gated →
      (s.dev.wakes.filter fun w => w.1 / 72 == core / 72 && s.now < w.2 + 1700).length < 4 →
      (∀ c ∈ s.dev.gated, c / 72 = core / 72 → ∀ k, s.oldestOn c = some k → b ≤ k) →
        ∃ t : State, exec (.coreWake core) s = .next t ∧ core ∉ t.dev.gated ∧ (core, s.now) ∈ t.dev.wakes ∧
          t = { s with dev := t.dev }) ∧
    (∀ die, ∃ t : State, exec (.thermalThrottle die true) s = .next t ∧ die ∈ t.dev.hotDies ∧ t.mem = s.mem ∧
      let jobOf (b : Block) (j : Job) : Prop := j.pid = b.pid ∧ j.rcb = b.eff.job
      let works (b : Block) : Prop := b ∈ s.blocks ∧ b.st = .running ∧ ∀ j ∈ s.jobs, jobOf b j → j.withheld = false
      let lowest (b : Block) : Prop := works b ∧ ∀ k, works k → b.eff.prio ≤ k.eff.prio
      (∀ b, lowest b → ∀ j ∈ t.jobs, jobOf b j → j.withheld = true) ∧
        (∀ j ∈ t.jobs, j.withheld = true → j ∈ s.jobs ∨
          ∃ b k, lowest b ∧ k ∈ s.blocks ∧ k.st = .running ∧ k.eff.prio = b.eff.prio ∧ jobOf k j)) ∧
    (∀ b blk g, s.blk? g.blk = some blk → (∃ j ∈ s.jobs, j.pid = blk.pid ∧ j.rcb = blk.eff.job ∧ j.withheld = true) → s.candOf g b = []) ∧
    (∀ id ∈ s.streamCands, ∃ b ∈ s.blocks, b.id = id ∧ ∀ j ∈ s.jobs, j.pid = b.pid → j.rcb = b.eff.job → j.withheld = false) ∧
    (∀ die, (∀ d ∈ s.dev.hotDies, d = die) → ∃ t : State, exec (.thermalThrottle die false) s = .next t ∧ t.dev.hotDies = [] ∧
      ∀ j ∈ t.jobs, j.withheld = false) ∧
    (∀ die, ∃ t : State, exec (.thermalShutdown die) s = .next t ∧ (∀ p ∈ t.parts, p.stopped = true) ∧ .event die ∈ t.outs) ∧
    (∀ (regions failed : List Nat), regions.length = 4 → regions.all regionOk = true → (∀ c ∈ failed, c < 288) → failed.Nodup →
      ∃ t : State, exec (.powerOn ⟨regions, failed, []⟩) s = .next t ∧ t.mem = [] ∧ t.groups = [] ∧ t.blocks = [] ∧ t.parts = [] ∧
        t.dev.regions = regions ∧ t.dev.boot = .off ∧ t.dev.image = s.dev.image ∧
        (∀ c ∈ failed, c ∈ t.dev.retired ∨ ∃ k, k < 4 ∧ (c, k) ∈ t.dev.spareMap) ∧
        ∀ d, failed.countP (fun c => c / 72 == d) ≤ 4 → ∀ c ∈ failed, c / 72 = d → c ∉ t.dev.retired)

/-- R368, R369 to R372: an access to a page that is not mapped makes its path replay behind a record; firmware resolves the pending
records of a page that has been mapped, or raises the pager; the device observes it and the path goes on; records that waited are
written while the ring has room; a kill stops the block's groups and keeps its record.
Choices of the model in it: log entries 60 (DEDUCED), 81 (DESIGN CHOICE). -/
def Obligations.MissesAndKills : Prop :=
  ∀ s : State,
    (∀ blk grp b aspace va write fetch g k p, s.walk aspace va = .missing → s.grp? blk grp = some g → s.blk? blk = some k →
      g.slot b = some p → k.aspace = aspace → g.runs = true → p.redo = none → p.wait = .none → p.held = false →
        exec (.translationMiss (.path blk grp b) aspace va write fetch) s = .next ((s.focus blk grp).replay b
          { what := .fetch, active := p.mask, pmask := 0, bad := [], got := [], raises := [], stop := none }
          [(va / 0x10000, va, p.mask, write)] fetch)) ∧
    (∀ part rec_ p r, s.part? part = some p → s.recs.find? (fun k => k.uid == rec_ && k.part == part) = some r → r.idx ≠ none →
      r.res = 0 →
      (s.walk r.record.aspace r.record.faddr.toNat = .missing →
        exec (.mappingStep part rec_) s = .next (s.raiseVec 0 (s.fqVec p.fqcb))) ∧
      (s.walk r.record.aspace r.record.faddr.toNat ≠ .missing →
        let same (k : PendRec) : Bool := k.part == part && k.record.aspace == r.record.aspace &&
          k.record.faddr.toNat / 0x10000 == r.record.faddr.toNat / 0x10000 && k.res == 0 &&
          (match k.idx with | some i => s.resolveOf p i == 0 | none => false)
        exec (.mappingStep part rec_) s =
          .next ((((s.recs.filter same).filterMap PendRec.idx).filterMap (s.resolvePA p)).foldl (fun s a => s.putNat a 4 1) s))) ∧
    (∀ blk grp b g p l, s.grp? blk grp = some g → g.slot b = some p → p.wait = .records l →
      (∀ e ∈ l, ∀ k ∈ (s.observe (.path blk grp b)).recs, k.uid = e.1 → k.res = 1) →
        ∃ t : State, exec (.resolveObserved (.path blk grp b)) s = .next t ∧
          ∃ g' q, t.grp? blk grp = some g' ∧ g'.slot b = some q ∧ q.wait = .none ∧ q.pc = p.pc ∧ q.mask = p.mask ∧ q.redo = p.redo) ∧
    (∀ part, (∀ k ∈ s.recs, k.part = part → k.idx ≠ none) → exec (.faultRecordWrite part) s = .next s) ∧
    (∀ part p r, s.part? part = some p → s.recs = [r] → r.part = part → r.idx = none → s.ringRoom part r.record.die p.fqcb p.fqWidx = true →
      exec (.faultRecordWrite part) s = .next
        { s.ringWrite p r.record with recs := [{ r with idx := some p.fqWidx }] }) ∧
    (∀ blk cause b, s.blk? blk = some b → b.killRec = none → b.st ≠ .ended → b.eff.fdom = 0 →
      ∃ t : State, exec (.kill blk cause) s = .next t ∧ (∀ g ∈ t.allGroups, g.blk = blk → g.st ≠ .none → g.st = .ended ∧ g.slot0 = none ∧ g.slot1 = none) ∧
        ∃ k r, t.blk? blk = some k ∧ k.killRec = some r ∧ r.cause = cause ∧ r.kind = 2)

/-- R362, R373 to R383: a running block whose groups stand at instruction boundaries is stopped, to be discarded when every group is in
an idempotent region, else to be saved; the saves of a group; a budget that runs out; a discard; a resume; retired cores, lent
clusters and tenant slices.
Choices of the model in it: log entries 54 (DEDUCED), 55 (DEDUCED), 56 (DEDUCED), 57 (DEDUCED), 58 (DEDUCED), 59 (DEDUCED), 73
(DESIGN CHOICE). -/
def Obligations.Preemption : Prop :=
  ∀ s : State,
    (∀ blk b, s.blk? blk = some b → b.st = .running → b.killRec = none → s.streamIdle b = true →
      (∀ g ∈ s.liveGroups blk, g.st = .running) → s.liveGroups blk ≠ [] →
        ∃ t : State, exec (.preemption blk) s = .next t ∧ (∀ g ∈ t.liveGroups blk, g.st = .stopped ∧ g.ld = 0 ∧ g.stc = 0 ∧ g.cp = 0 ∧ g.sy = 0) ∧
          ∃ k, t.blk? blk = some k ∧
            k.st = if b.streams = false ∧ ∀ g ∈ s.liveGroups blk, g.idempc.getLsbD 0 = true then .dropping else .saving) ∧
    (∀ blk grp g b, s.grp? blk grp = some g → s.blk? blk = some b → b.killRec = none → s.groupCmds blk grp = false →
      (g.st = .stopped → b.st = .saving →
        (fld g.savebudget 0 32 ≠ 0 → codeAddr b.eff.saveh ≠ 0 →
          exec (.cooperativeSave blk grp) s = .next (((s.drainGroup blk grp).saveFields b g false).modGrp blk grp fun g =>
            { g with st := .saving, slot0 := some (Path.fresh (codeAddr b.eff.saveh) 0 g.present true .runtime none none s.now) })) ∧
        (fld g.savebudget 0 32 = 0 ∨ codeAddr b.eff.saveh = 0 → exec (.cooperativeSave blk grp) s =
          exec (.forcedFullSave blk grp) (s.modGrp blk grp fun g => { g with st := .forced }))) ∧
      (g.st = .forced →
        let t := s.drainGroup blk grp
        let u := match g.saveAt with
          | some _ => t
          | none => t.saveFields b g true
        let base := (g.saveAt.getD g.savebase).toNat
        let rest := (List.range (16 * g.allot - 8)).flatMap fun k => vecWords g (k + 8)
        let die := g.core / 72
        exec (.forcedFullSave blk grp) s =
          .next ((((u.putImage die b.aspace (base + 0x2000 + 272 * 8) rest).putImage die b.aspace base
            [imageHead true b.stream.isSome g.allot]).modGrp blk grp fun g => { g with st := .saved }).finishSave blk))) ∧
    (∀ blk grp g b t, s.grp? blk grp = some g → s.blk? blk = some b → b.frozenAt = none → g.st = .saving → g.saveFrom = some t →
      t + g.saveFrozen + fld g.savebudget 0 32 < s.now →
        exec (.saveBudgetExpiry blk grp) s = .next (s.leaveHandler blk grp .forced)) ∧
    (∀ blk b, s.blk? blk = some b → b.st = .dropping → b.killRec = none → s.cmdsOf blk = false →
      ∃ t : State, exec (.discard blk) s = .next t ∧ (∀ x ∈ t.stores, x.blk ≠ blk) ∧
        ∃ k, t.blk? blk = some k ∧ k.st = .restart ∧ k.heldOn = b.cores ∧ k.cores = [] ∧ k.spdBase = []) ∧
    (∀ blk b cores pl u, s.blk? blk = some b → (b.st = .held ∨ b.st = .restart) → b.killRec = none →
      s.resumePlace b cores = some pl → s.withWindow b.pid b.eff (cores.headD 0 / 72) = some u →
        ∃ t : State, exec (.resume blk cores) s = .next t ∧ ∃ k, t.blk? blk = some k ∧ k.st = .running ∧ k.cores = cores ∧ k.heldOn = []) ∧
    (∀ core, core < 288 → core ∉ s.dev.retired → s.coreBlocks core = [] → exec (.coreRetirement core true) s =
      .next { s with dev := { s.dev with retired := s.dev.retired ++ [core] } }) ∧
    (∀ core, core < 288 → core ∈ s.dev.retired → s.coreBlocks core = [] → s.sparesUsed (core / 72) < 4 →
      ∃ t : State, exec (.coreRetirement core true) s = .next t ∧ core ∉ t.dev.retired ∧ (core, s.sparesUsed (core / 72)) ∈ t.dev.spareMap) ∧
    (∀ core owner pending, s.dev.slices.find? (fun e => e.1 == core) = some (core, owner, pending) →
      exec (.clusterReclaim core) s = .next ((s.blocks.filter fun b => b.eff.tenant != owner && b.cores.any (sameCluster core)).foldl
        (fun s b => s.preempt false b.id) s)) ∧
    (∀ tenant cores, (∀ b ∈ s.blocks, b.eff.tenant = tenant ∨ ∀ c ∈ b.cores, c ∉ cores) → cores ≠ [] →
      let slices (pending : Bool) (t : State) : State := { t with dev := { t.dev with
        slices := (t.dev.slices.filter fun e => !cores.contains e.1) ++ cores.map fun c => (c, tenant, pending) } }
      ((∃ c ∈ cores, ∀ e ∈ s.dev.slices, ¬(e.1 = c ∧ e.2.1 = tenant ∧ e.2.2 = true)) →
        exec (.tenantSwitch tenant cores) s = .next (slices true s)) ∧
      ((∀ c ∈ cores, ∃ e ∈ s.dev.slices, e.1 = c ∧ e.2.1 = tenant ∧ e.2.2 = true) →
        exec (.tenantSwitch tenant cores) s =
          .next (slices false (cores.foldl (fun s c => if (s.coreBlocks c).isEmpty then s.scrub c else s) s))))

/-- R220 to R222, R385, R392: grants and snoops of lines of host memory, the host's accesses, and a flit that a closed link drops. R7, R404 to R413: a session opens; stops are asked for, taken and released; pulses reach the lines, the pins their routes; the cue
sequencer is written, armed and counted; a register takes a write by its access codes.
Choices of the model in it: log entries 24 (DEDUCED), 27 (DEDUCED), 30 (DESIGN CHOICE), 31 (DESIGN CHOICE), 61 (DEDUCED), 62
(DEDUCED), 64 (DEDUCED), 66 (DEDUCED). -/
def Obligations.HostAndDebugEvents : Prop :=
  (∀ s : State,
     (∀ core line, exec (.hostGrant core line false) s =
       .next { s with hostReqs := s.hostReqs.filter fun e => e != (core, line) }) ∧
     (∀ core line, isHost (16 * line) = true → ∃ t : State, exec (.hostGrant core line true) s = .next t ∧
       ∀ x ∈ t.stores, ¬(x.core = core ∧ x.word / 16 = line)) ∧
     (∀ core line, (core, line) ∈ s.hostReqs → s.hostLine core line = .s → (∀ e ∈ s.hostLines, e.1 % 2 ^ 49 = line → e.1 / 2 ^ 49 = core) →
       (∀ x ∈ s.stores, ¬(x.core = core ∧ x.word / 16 = line)) → ∃ t : State, exec (.hostGrant core line true) s = .next t ∧
         t.hostLine core line = .e ∧ (core, line) ∉ t.hostReqs) ∧
     (∀ core line, ∃ t : State, exec (.hostSnoopSnpData core line) s = .next t ∧
       (s.hostLine core line = .m → .line core line (s.lineBytes line) ∈ t.outs ∧ t.hostLine core line = .s) ∧
       (s.hostLine core line = .e → t.outs = s.outs ∧ t.hostLine core line = .s) ∧
       (s.hostLine core line = .s ∨ s.hostLine core line = .i → t = s)) ∧
     (∀ core line, ∃ t : State, exec (.hostSnoopSnpInv core line) s = .next t ∧ t.hostLine core line = .i ∧
       t.outs = s.outs ++ (if s.hostLine core line = .m then [.line core line (s.lineBytes line)] else [])) ∧
     (∀ core line, exec (.hostSnoopSnpCur core line) s = .next { s with
       outs := s.outs ++ (if s.hostLine core line = .i then [] else [.line core line (s.lineBytes line)]) }) ∧
     (∀ fn pa n cached, n ≠ 0 → s.hostRange fn (s.hostPA pa) n = true → s.heldAtPort fn (s.hostPA pa) false = false →
       ∃ t : State, exec (.hostMemRead ⟨fn, pa⟩ ⟨n, cached⟩) s = .next t ∧ .hostData pa (s.physBytes (s.hostPA pa) n) ∈ t.outs ∧
         t.mem = s.mem) ∧
     (∀ fn pa b, s.hostRange fn (s.hostPA pa) 1 = true → s.heldAtPort fn (s.hostPA pa) true = false →
       exec (.hostMemWrite ⟨fn, pa⟩ [b]) s = .next (s.hostWord (s.hostPA pa) [b])) ∧
     (∀ fn pa n cached, s.hostRange fn (s.hostPA pa) n = false → exec (.hostMemRead ⟨fn, pa⟩ ⟨n, cached⟩) s = .next (s.refuse pa)) ∧
     (∀ fn pa bytes, s.hostRange fn (s.hostPA pa) bytes.length = false → exec (.hostMemWrite ⟨fn, pa⟩ bytes) s = .next (s.refuse pa)) ∧
     (∀ die f addr, die ≠ f → die < 4 → f < 4 → s.linkOpen die f = false →
       ∃ t : State, exec (.firewallDrop die f addr) s = .next t ∧
         fld (sget 0 t.dev.firewall (linkKey die f)) 32 32 =
           min (2 ^ 32 - 1) (fld (sget 0 s.dev.firewall (linkKey die f)) 32 32 + 1) ∧
         ((die, f) ∉ s.dev.fwLogged → t.dev.security = s.dev.security ++ [.drop die f 1 addr]))) ∧
  (∀ s : State,
     (∀ k : SessionSpec, (∃ p, s.part? k.part = some p) → (∀ q ∈ k.queues, ∃ x ∈ s.queues, x.id = q ∧ x.pid = k.part) →
       k.breaks.length ≤ 8 →
         exec (.sessionOpen k) s = .next { s with dev := { s.dev with sessions := s.dev.sessions ++ [⟨k, true, false⟩] } }) ∧
     (∀ launch blk grp lane b g p z, s.blk? blk = some b → b.launchNo = launch → s.stopsOn b.pid b.queue = true →
       s.grp? blk grp = some g → g.slot z = some p → p.mask.getLsbD lane = true →
         ∃ t : State, exec (.debugStopRequest launch blk grp lane) s = .next t ∧
           ∃ g', t.grp? blk grp = some g' ∧ g'.slot z = some (p.askStop 3 lane)) ∧
     (∀ blk grp z b g p, s.blk? blk = some b → s.grp? blk grp = some g → g.runs = true → g.slot z = some p → p.held = false →
       p.redo = none → p.wait = .none → s.atBreak b p = true →
         exec (.pcBreakpoint blk grp z) s = .next (s.hold blk grp z 1 0 false)) ∧
     (∀ blk grp z, exec (.debugRelease blk grp z) s = .next (s.unhold blk grp z 0)) ∧
     (∀ line : BitVec 6, exec (.triggerPulse line) s = .next (s.pulse none line.toNat (coreTrace 0 0xFFFF 0))) ∧
     (∀ (pin : Fin 4) l, s.dev.pinIn.filter (fun e => e.1 == pin.val) = [(pin.val, l)] →
       exec (.triggerPinIn pin) s = .next (s.pulse none l (coreTrace 0 0xFFFF 0))) ∧
     (∀ die w, ∃ t : State, exec (.cueWrite die w) s = .next t ∧ t.cue die = w &&& 0x0000000DFFFF3F3F) ∧
     (∀ die, fld (s.cue die) 34 2 = 1 → ∃ t : State, exec (.cueAPulse die) s = .next t ∧ fld (t.cue die) 34 2 = 2 ∧
       sget 0 t.dev.cueCount die = 0) ∧
     (∀ die f, fld (s.cue die) 34 2 = 2 → sget 0 s.dev.cueCount die + 1 < max 1 (fld (s.cue die) 16 16) →
       sget 0 s.dev.cueAt die ≠ s.now + 1 → ∃ t : State, exec (.cueBPulse die f) s = .next t ∧ t.cue die = s.cue die ∧
         sget 0 t.dev.cueCount die = sget 0 s.dev.cueCount die + 1) ∧
     (∀ die f, sget 0 s.dev.cueAt die = s.now + 1 → exec (.cueBPulse die f) s = .next s) ∧
     (∀ w, ∃ t : State, exec (.registerWrite .devNo w) s = .next t ∧ t = { s with dev := { s.dev with devNo := w.toNat % 2 ^ 16 } }) ∧
     (∀ w part p, s.part? part = some p → exec (.registerWrite (.faultQueue part) w) s =
       .next { s with outs := s.outs ++ [.faultQueue part p.fqcb (s.fqBase p.fqcb)] }) ∧
     (∀ r w, s.dev.boot ≠ .up → isMailbox r = false → exec (.registerWrite r w) s = .next s) ∧
     (∀ w, s.dev.boot = .up → ∃ t : State, exec (.registerWrite .dietab w) s = .next t ∧ t = { s with dev := t.dev } ∧
       ∀ j, t.dev.dietab.getLsbD j = if (0xB3B3B3B3 : Word).getLsbD j then w.getLsbD j else s.dev.dietab.getLsbD j) ∧
     (∀ die f w, s.dev.boot = .up → die ≠ f → die < 4 → f < 4 →
       let old := sget 0 s.dev.firewall (linkKey die f)
       let u := if old.getLsbD 0 = true ∧ w.getLsbD 0 = false then s.drainAcross [(die, f)] else s
       (old.getLsbD 1 = true → exec (.registerWrite (.firewall die f) w) s = .next s) ∧
       (old.getLsbD 1 = false → ∃ t : State, exec (.registerWrite (.firewall die f) w) s = .next t ∧ t = { u with dev := t.dev } ∧
         ∀ j, j < 64 → (sget 0 t.dev.firewall (linkKey die f)).getLsbD j =
           if j < 2 then w.getLsbD j else (sget 0 u.dev.firewall (linkKey die f)).getLsbD j)) ∧
     (∀ cp k w, s.dev.boot = .up → k < 5 → ∃ t : State, exec (.registerWrite (.lcrtot cp k) w) s = .next t ∧ t = { s with dev := t.dev } ∧
       ∀ j, j < 64 → (sget 0 t.dev.lcrtot (5 * cp + k)).getLsbD j =
         ((sget 0 s.dev.lcrtot (5 * cp + k)).getLsbD j && !(decide (j < 48) && w.getLsbD j))))

/-- R384, R389, R393 to R403, R428: bring-up, images, attestation, interfaces, partitions, address spaces, region blocks, relocation,
migration and failed parts: each request that firmware accepts has its effect.
Choices of the model in it: log entries 7 (DESIGN CHOICE), 8 (DEDUCED), 63 (DEDUCED), 64 (DEDUCED), 65 (DEDUCED), 66 (DEDUCED), 77
(DESIGN CHOICE). -/
def Obligations.FirmwareEvents : Prop :=
  ∀ s : State,
    (s.dev.boot = .off → exec .bootRomCheck s = .next { s with dev := { s.dev with
      boot := match s.dev.image with
        | some i => if s.imageOk i then .up else .recovery
        | none => .recovery } }) ∧
    (∀ image sig version, s.dev.boot = .recovery → exec (.recoveryImage image sig version) s =
      .next (if s.imageOk ⟨image, sig, version⟩ then { s with dev := { s.dev with image := some ⟨image, sig, version⟩, boot := .up } }
        else { s with outs := s.outs ++ [.refuse 0] })) ∧
    (∀ nonce, s.dev.boot = .up → exec (.attestationRequest nonce) s = .next { s with
      outs := s.outs ++ [.report (Config.sha3 (nonce ++ s.measured)) (Config.sign (Config.sha3 (nonce ++ s.measured)))] }) ∧
    (∀ vf v, s.vf? vf = some v →
      (v.st = .unlocked → exec (.tdispLock vf) s = .next (s.setVf vf .locked)) ∧
      (v.st = .locked → exec (.startInterface vf) s = .next (s.setVf vf .run)) ∧
      (∀ p, s.part? v.pid = some p → (∀ b ∈ s.blocks, ¬(b.pid = v.pid ∧ b.eff.tenant = v.tenant)) →
        exec (.stopInterface vf) s = .next ((((List.range 288).filter fun c =>
          p.dies.contains (c / 72) && (s.coreBlocks c).isEmpty).foldl State.scrub s).setVf vf .unlocked))) ∧
    (∀ k : PartSpec, s.dev.boot = .up → k.id < 4 → s.part? k.id = none → k.dies ≠ [] → k.dies.Nodup → (∀ d ∈ k.dies, d < 4) →
      (∀ d ∈ k.dies, s.freeDie (s.physDie d) = true) → (k.dies.map s.physDie).Nodup →
      (∀ a ∈ [k.fqcb, k.trcb], a % 64 = 0 ∧ ∃ d ∈ k.dies, rangeOf a = .hbm (s.physDie d)) →
      (∀ e ∈ endsOf (k.dies.map s.physDie) (k.dies.map s.physDie), s.stuckEnd true e = false) →
        ∃ t : State, exec (.partitionSetup k) s = .next t ∧
          t.parts = s.parts ++ [{ id := k.id, dies := k.dies, fqcb := k.fqcb, trcb := k.trcb, fqWidx := 0, fqLost := 0,
                                  trWidx := 0, trLost := 0, handles := [], stopped := false, lastCore := none }]) ∧
    (∀ id part root d, id ≠ 0 → id < 2 ^ 32 → s.aspace? id = none → root % 8192 = 0 → rangeOf root = .hbm d → s.ownsDie part d = true →
      exec (.addressSpaceCreate id part root) s = .next { s with aspaces := s.aspaces ++ [⟨id, part, some root⟩] }) ∧
    (∀ id a, s.aspace? id = some a → ∃ t : State, exec (.addressSpaceDestroy id) s = .next t ∧ t.aspace? id = none ∧
      (∀ e ∈ t.tlb, e.aspace ≠ id) ∧ (∀ e ∈ t.ptrs, e.aspace ≠ id) ∧ ∀ p ∈ t.parts, p.id = a.pid → ∀ e ∈ p.handles, ¬(e.2.sealed = true ∧ e.2.aspace = id)) ∧
    (∀ part aspace addr target p ws r a, s.part? part = some p → s.firmWords aspace addr 32 = some ws →
      parseRcb part target ws = some r → r.level = 0 → (∀ x ∈ s.rcbs, x.pid = part → x.level = 0 → x.addr = target) →
      (∀ x, s.rcb? part target = some x → x.level = 0) → target % 256 = 0 → addr % 256 = 0 → s.aspace? aspace = some a → a.pid = part →
      s.frozenVf part target = false →
        exec (.tenantRcbInstall part aspace addr target) s =
          .next { s with rcbs := (s.rcbs.filter fun x => !(x.pid == part && x.addr == target)) ++ [r] }) ∧
    (∀ part p q k, s.part? part = some k →
      let at_ (r : RelocStep) (t : State) : State :=
        { t with dev := { t.dev with reloc := (t.dev.reloc.filter fun x => x.pid != part) ++ [⟨part, p, q, r⟩] } }
      ((s.pdies k).contains p = true → s.freeDie q = true → (∀ m ∈ s.dev.migration, m.pid ≠ part) →
        (∀ r ∈ s.dev.reloc, r.pid ≠ part ∧ r.q ≠ q) →
        (∀ e ∈ s.relocEnds k p q, (sget 0 s.dev.firewall (linkKey e.1 e.2)).getLsbD 1 = false) →
          exec (.relocation .preCopy part p q) s = .next (at_ .preCopy ((s.setEnds true [(p, q), (q, p)]).copyDie p q))) ∧
      (s.relocAt part p q .preCopy = true → exec (.relocation .stop part p q) s = .next (at_ .stop (s.stopPart part true))) ∧
      (s.relocAt part p q .stop = true → s.atRest part = true → exec (.relocation .finalCopy part p q) s =
        .next (at_ .finalCopy ((s.drain fun d => rangeOf (8 * d.word) == .hbm p).copyDie p q))) ∧
      (s.relocAt part p q .finalCopy = true → exec (.relocation .rewrite part p q) s = .next (at_ .rewrite (s.rewrite k p q))) ∧
      (∀ d, s.relocAt part p q .rewrite = true → (k.dies.find? fun x => s.physDie x == p) = some d →
        ∃ t : State, exec (.relocation .resume part p q) s = .next t ∧ (∀ r ∈ t.dev.reloc, r.pid ≠ part) ∧
          t.dev.dietab = setFld s.dev.dietab (8 * d) 2 q ∧ ∀ x ∈ t.parts, x.id = part → x.stopped = false)) ∧
    (∀ part p ring entries, s.part? part = some p → (∀ r ∈ s.dev.reloc, r.pid ≠ part) → ring % 8 = 0 → entries ≠ 0 →
      rangeOf ring = .host → rangeOf (ring + 8 * entries - 1) = .host →
        let begun (final : Bool) : State := { s with dev := { s.dev with
          migration := (s.dev.migration.filter fun m => m.pid != part) ++ [⟨part, ring, entries, 0, [], false, final⟩] } }
        ((∀ m ∈ s.dev.migration, ¬(m.pid = part ∧ m.final = true)) →
          exec (.liveMigrationRound part (.round ring entries)) s = .next (begun false)) ∧
        exec (.liveMigrationRound part (.final ring entries)) s = .next ((begun true).stopPart part true)) ∧
    (∀ part p m dest, s.part? part = some p → (∀ r ∈ s.dev.reloc, r.pid ≠ part) → (s.dev.migration.find? fun m => m.pid == part) = some m →
      m.final = true → s.atRest part = true →
        let bs := Config.pack (s.heldState part) dest
        exec (.liveMigrationRound part (.stop dest)) s =
          .next { s with outs := s.outs ++ [.package part dest bs (Config.sign (Config.sha3 bs))] }) ∧
    (∀ part p dev package sig k, s.part? part = some p → ∃ t : State, exec (.migrationPackageImport part dev package sig k) s = .next t ∧
      if Config.verifies (Config.peerKey dev) (Config.sha3 package) sig then
        t.dev.sessions = s.dev.sessions ++ (Config.unpack package).sessions.map (Session.moved s.uid part k.queues)
      else t = { s with outs := s.outs ++ [.refuse part] }) ∧
    (∀ die, die < 4 → die ∉ s.dev.lostDies → ∃ t : State, exec (.dieLoss die) s = .next t ∧ die ∈ t.dev.lostDies ∧
      (∀ d, d < 4 → d ≠ die → (sget 0 s.dev.firewall (linkKey d die)).getLsbD 1 = false →
        fld (sget 0 t.dev.firewall (linkKey d die)) 0 2 = 2) ∧
      (∀ p ∈ s.parts, (s.pdies p).contains die = true → ∀ x ∈ t.parts, x.id ≠ p.id) ∧ (∀ r ∈ t.dev.reloc, r.q ≠ die) ∧
      ((∀ r ∈ s.dev.reloc, r.q ≠ die) → ∀ p ∈ t.parts, p ∈ s.parts) ∧
      ∀ k, k < portCount die → sget 8 t.dev.ports (portKey die k) = 0) ∧
    (∀ die base size,
      let lo := die * 0x4000000000 + base
      ∃ t : State, exec (.hbmFailure die base size) s = .next t ∧ t.dev = { s.dev with retiredPages := s.dev.retiredPages ++ [(lo, size)] } ∧
        ∀ e ∈ t.tlb, e ∈ s.tlb ∧ (pteAddr e.leaf + 2 ^ e.size ≤ lo ∨ lo + size ≤ pteAddr e.leaf)) ∧
    (∀ die f, die < f → f < 4 → sget 2 s.dev.links (linkKey die f) ≠ 0 → ∃ t : State, exec (.linkLaneRetrain die f) s = .next t ∧
      sget 2 t.dev.links (linkKey die f) = sget 2 s.dev.links (linkKey die f) - 1 ∧ t = { s with dev := t.dev }) ∧
    (∀ die port, port < portCount die → sget 8 s.dev.ports (portKey die port) ≠ 0 → ∃ t : State, exec (.spanLaneLoss die port) s = .next t ∧
      sget 8 t.dev.ports (portKey die port) = 4 ∧ t = { s with dev := t.dev })

/-! ### Frames, steps, encodings and invariants -/

/-- R78, R83: an instruction that only computes registers, and that nothing holds, answers a next state in which every register it does
not write, and for which no earlier result was pending, reads as before, in every lane; system registers, memory and every other
part of the state are unchanged, but for the units of its partition (R12), the work that the meters count (R359) and the
lane-cycle counters of a profiled partition (R409).
Choices of the model in it: log entries 9 (DEDUCED), 29 (DEDUCED), 69 (DESIGN CHOICE), 70 (DEDUCED). -/
def Obligations.RegisterFrame : Prop :=
  ∀ (i : Instr) (c : Ctl) (s : State) (z : Bool) (p : Machine.Path), registerOnly i = some c → Issues i c s z p →
    ∃ t : State, exec i s = .next t ∧
      t = { s with grp := t.grp, units := t.units, work := t.work,
                   dev := { s.dev with lcrtot := t.dev.lcrtot, bincnt := t.dev.bincnt } } ∧
      KeepsRegs (written i s c.ix) s.grp t.grp ∧ ∀ a, rdByte t.mem a = rdByte s.mem a

/-- R72, R86, R98: where no event takes place, the step of the agent that the plan selects is the instruction that its word at its PC
decodes to, executed in the state of the fetch; the step of an event is that event.
Choices of the model in it: log entries 10 (DESIGN CHOICE), 11 (DEDUCED), 14 (DESIGN CHOICE), 27 (DEDUCED). -/
def Obligations.StepRunsDecodedInstruction : Prop :=
  ∀ s : State,
    let now := s.tick.timers
    let u := now.select
    (now.turn.event = none →
      (∀ b p blk pte size v i, u.who = .path b → u.grp.slot b = some p → u.blk? u.grp.blk = some blk → p.redo = none → p.wait = .none →
        u.stopHere blk p = none → u.translate u.grp.core blk.aspace p.pc.toNat = (.leaf pte size, v) →
        refused pte .fetch p.user = false → v.reaches v.grp.core (leafPA pte size p.pc.toNat) = true →
        let w := v.fetchWord v.grp.core (leafPA pte size p.pc.toNat)
        decode false p.user w.1 = .ok i → step s = exec i (w.2.setGrp fun g => g.modSlot b Path.fetched)) ∧
      (∀ id blk t pte size v i, u.who = .stream id → u.blk? id = some blk → blk.stream = some t → t.bad = none →
        u.translate (blk.cores.headD 0) blk.aspace t.pc.toNat = (.leaf pte size, v) → refused pte .fetch true = false →
        v.reaches (blk.cores.headD 0) (leafPA pte size t.pc.toNat) = true →
        let w := v.fetchWord (blk.cores.headD 0) (leafPA pte size t.pc.toNat)
        decode true true w.1 = .ok i → step s = exec i w.2)) ∧
    (∀ e, now.turn.event = some e → isEvent e = true → step s = exec e { now with who := .idle })

/-- R71, R75, R83, R84, R89 to R97: words put together field by field decode to the instructions they stand for, and words with a
field that no instruction takes are rejected as Table 7.12 says.
Choices of the model in it: log entry 20 (DEDUCED). -/
def Obligations.SampleWordsDecode : Prop :=
  let word (ver : BitVec 2) (sched : BitVec 14) (pneg : BitVec 1) (pred : BitVec 5) (opc d a b c : BitVec 10) (ix : BitVec 3) (ty : BitVec 5)
      (mod : BitVec 48) : BitVec 128 := ver ++ sched ++ pneg ++ pred ++ opc ++ d ++ a ++ b ++ c ++ ix ++ ty ++ mod
  let plain : Ctl := ⟨.interlocked false, .always, 0⟩
  let i64Lt : BitVec 48 := 1#1 ++ 0#1 ++ 0#2 ++ 1#4 ++ 0#8 ++ 10#32
  (decode false false (word 1 0b00110001101000 1 4 0x180 6 7 (0x200 + 12) 0 3 6 (0#2 ++ 2#2 ++ 0#44)) =
      .ok (.fadd ⟨.counted 3 false (some .ld) true false true, .on true 4, 3⟩ (.one .f32) .rup (.v 6) (.v 7) (.reg (.ix 12)))) ∧
    decode false false (word 2 0 0 31 0x040 5 6 7 0 0 0 0) = .ok (.add plain .rne (.v 5) (.v 6) (.reg (.v 7))) ∧
    decode false false (word 2 0 0 31 0x04D 3 2 0 0 0 0 i64Lt) = .ok (.lt plain 3 (.v 2) (.imm (.int 10))) ∧
    decode false false (word 2 0 0 7 0x001 0 0 0 0 0 0 (5#24 ++ 9#24)) = .ok (.bra ⟨.interlocked false, .on false 7, 0⟩ 5 9) ∧
    decode false false (word 2 0 0 31 0x11B 330 388 0 0 0 0 0) = .ok (.mov plain (.g 10) (.sp .blky)) ∧
    decode false false (word 2 0 0 31 0x240 3 2 0 0 0 2 (0#3 ++ 1#3 ++ 0#1 ++ 0#1 ++ 0#8 ++ 0#8 ++ 0xFFFFF8#24)) =
      .ok (.ld plain .i64 .glb .acq false false (.v 3) (.v 2) 0xFFFFF8) ∧
    decode false false (word 2 0 0 31 0x309 4 5 0 6 0 0 0) = .ok (.pget plain (.v 4) (.v 5) 6) ∧
    decode false false (word 2 0 0 31 0x345 9 0 0 0 0 0 0) = .ok (.elect plain 9) ∧
    decode true false (word 2 0 0 31 0x393 1 0 2 0 0 0 0) = .ok (.tmma 1 0 2) ∧
    decode false false (word 0 0 0 31 0x000 0 0 0 0 0 0 0) = .error .illegalInstruction ∧
    decode false false (word 2 0 0 24 0x000 0 0 0 0 0 0 0) = .error .illegalInstruction ∧
    decode false false (word 2 0 0 31 0x00D 0 0 0 0 0 0 0) = .error .illegalInstruction ∧
    decode false false (word 2 0 0 31 0x393 1 0 2 0 0 0 0) = .error .illegalContext ∧
    decode false false (word 2 0 0 31 0x11B 404 388 0 0 0 0 0) = .error .illegalOperand

/-- R71, R84 to R97: every well-formed instruction that has a word decodes from it, with every operand at every value.
Choices of the model in it: log entries 20 (DEDUCED), 21 (DEDUCED). -/
def Obligations.DecodeOfEncode : Prop :=
  ∀ (i : Instr) (w : BitVec 128), i.wf = true → encode i = some w → decode i.inStream false w = .ok i

/-- R88, R98: a word that decodes is the word of the instruction it decodes to: no bit is dropped, and two words never stand for one
instruction. What decodes is well formed and of the context it was met in.
Choices of the model in it: log entries 20 (DEDUCED), 21 (DEDUCED). -/
def Obligations.EncodeOfDecode : Prop :=
  ∀ (stream user : Bool) (w : BitVec 128) (i : Instr), decode stream user w = .ok i →
    encode i = some w ∧ i.wf = true ∧ i.inStream = stream

/-- The memory of the device keeps its canonical form in every step, from every state that has it (the model's own invariant, log
entry 1).
Choices of the model in it: log entry 1 (DESIGN CHOICE). -/
def Obligations.StepKeepsMemoryCanonical : Prop :=
  ∀ s t : State, s.memOk = true → step s = .next t → t.memOk = true

/-- R7, R12, R54, R411: what reset leaves: no clock has passed, nothing is resident, memory is canonical, and the die table holds
0xB3A29180; and how a group starts: one path in slot 0 and every register empty.
Choices of the model in it: log entries 1 (DESIGN CHOICE), 2 (DESIGN CHOICE), 3 (DESIGN CHOICE). -/
def Obligations.ResetState : Prop :=
  (State.reset.memOk = true ∧ State.reset.now = 0 ∧ State.reset.groups = [] ∧ State.reset.blocks = [] ∧ State.reset.queues = [] ∧
    State.reset.nodes = [] ∧ State.reset.parts = [] ∧ State.reset.dev.boot = .off ∧ State.reset.dev.dietab = 0xB3A29180) ∧
  ∀ (blk grp pid core part allot now : Nat) (mask : Mask) (pc : BitVec 56) (mode : Mode),
    let g := Group.start blk grp pid core part allot mask pc mode now
    (∃ p, g.slot false = some p ∧ p.pc = pc ∧ p.mask = mask ∧ p.joinNo = none ∧ p.kind = .normal ∧ p.mode = mode ∧ p.frame = none) ∧
      g.slot true = none ∧ g.stack = [] ∧ (∀ n l, g.vr n l = Val.nil) ∧ (∀ n, g.gr n = Val.nil) ∧ (∀ n, g.xr n = 0) ∧
      (∀ n, g.pr n = 0) ∧ g.busy = 0 ∧ g.tokFault = [] ∧ g.ld = 0 ∧ g.stc = 0 ∧ g.cp = 0 ∧ g.sy = 0

/-- R39, R40, R41: what the format's rounding gives, which the statements about floats name. A magnitude m × 2^e, and one strictly
between two neighbours of more than 60 bits, takes the code of the nearest magnitude of the format, a tie the even code, or of the
directed one; subnormal codes are codes as all others; an overflow is that of Table 3.5, and the largest finite value in E4M3 and
E2M1; zero keeps its sign. Every code up to the largest finite one stands for its magnitude. E8M0 takes a power of two of its range
(Table 3.6). -/
def Obligations.RoundingLaw : Prop :=
  (∀ f ∈ [fmtF64, fmtF32, fmtF16, fmtBf16, fmtE4m3, fmtE2m1], ∀ (r : Rnd) (neg : Bool) (m : Nat) (e : Int),
    f.round r neg 0 e = f.signed neg 0 ∧
    (m ≠ 0 → CodeIs f r neg (ratOf m e) (f.round r neg m e)) ∧
    (2 ^ 60 ≤ m → ∀ x, ratOf m e < x → x < ratOf (m + 1) e → CodeIs f r neg x (f.round r neg (2 * m + 1) (e - 1))) ∧
    ∀ c, c ≤ f.topCode → FiniteIs (f.decode (f.signed neg c)) neg (gridVal f c)) ∧
  (∀ e ∈ ([(fmtF64, 0x7FEFFFFFFFFFFFFF, 0x7FF0000000000000), (fmtF32, 0x7F7FFFFF, 0x7F800000), (fmtF16, 0x7BFF, 0x7C00),
      (fmtBf16, 0x7F7F, 0x7F80)] : List (Fmt × Nat × Nat)), e.1.topCode = e.2.1 ∧ e.1.infCode = e.2.2 ∧ e.1.inf = true) ∧
  (∀ e ∈ ([(fmtE4m3, 0x7E, 448), (fmtE2m1, 7, 6)] : List (Fmt × Nat × ℚ)),
    e.1.topCode = e.2.1 ∧ gridVal e.1 e.2.1 = e.2.2 ∧ e.1.inf = false) ∧
  (∀ (r : Rnd) (neg : Bool) (m : Nat) (e : Int), neg = true ∨ m = 0 → fmtE8m0.round r neg m e = 0xFF) ∧
  (∀ (r : Rnd) (m : Nat) (e k : Int), m ≠ 0 → (2 : ℚ) ^ k ≤ ratOf m e → ratOf m e < (2 : ℚ) ^ (k + 1) →
    let power (j : Int) : Nat := if j < -127 then 0 else if 127 < j then 0xFE else (j + 127).toNat
    let up : Prop := r = .rup ∧ ratOf m e ≠ (2 : ℚ) ^ k ∨ r = .rne ∧
      (3 * (2 : ℚ) ^ k < 2 * ratOf m e ∨ 2 * ratOf m e = 3 * (2 : ℚ) ^ k ∧ (k + 127) % 2 = 1)
    (up → fmtE8m0.round r false m e = power (k + 1)) ∧ (¬up → fmtE8m0.round r false m e = power k))
end

