-- ==== Sys2Proof/Laws/Issue.lean ====
section
/-! SUPPORT. What the issue of an instruction does when nothing holds it. -/
namespace Sys2Proof.Machine.Claim

/-- An instruction that nothing holds has its own effect. -/
theorem issueAs_ready {i : Instr} {sc : Sched} {gd : Guard} {ix : BitVec 3} {s : State} {b : Bool} {p : Path}
    (h : IssuesAs i sc gd ix s b p) (body : Bool → Path → Mask → State → State) :
    issueAs i sc gd ix s body =
      body b (s.issued i sc gd ix b p).path (s.issued i sc gd ix b p).act (s.issued i sc gd ix b p).state := by
  obtain ⟨hc, _, _, hm, hu, hh⟩ := h
  have hm' : (if p.user then modeFault i else none) = none := by
    by_cases h : p.user = true
    · simp [h, hm h]
    · simp [h]
  have hu' : usesOk (usesOf i) (s.setGrp fun g => g.settle s.now).grp ix = true := hu
  have hh' : (s.setGrp fun g => g.settle s.now).holdFor i sc gd ix b p = none := hh
  unfold issueAs
  simp only [hc, hm', hu', hh', Bool.not_true, Bool.false_eq_true, if_false]

/-- The same for a guarded instruction. -/
theorem issue_ready {i : Instr} {c : Ctl} {s : State} {b : Bool} {p : Path} (h : Issues i c s b p)
    (body : Bool → Path → Mask → State → State) :
    issue i c s body = body b (issuedOf i c s b p).path (issuedOf i c s b p).act (issuedOf i c s b p).state :=
  issueAs_ready h body
/-- The same for an unguarded instruction. -/
theorem issueU_ready {i : Instr} {c : UCtl} {s : State} {b : Bool} {p : Path} (h : IssuesU i c s b p)
    (body : Bool → Path → Mask → State → State) :
    issueU i c s body = body b (issuedU i c s b p).path (issuedU i c s b p).act (issuedU i c s b p).state :=
  issueAs_ready h body

end Sys2Proof.Machine.Claim
end

