-- ==== Sys2Proof/Laws/Store.lean ====
section
/-! SUPPORT. Sparse stores and memory: a read after a write, and the canonical form. -/
namespace Sys2Proof.Machine

/-! ### A read after a write -/

theorem sget_sdel {α : Type} (d : α) (s : Store α) (n k : Nat) (h : k ≠ n) : sget d (sdel s n) k = sget d s k := by
  induction s with
  | nil => rfl
  | cons e r ih =>
    obtain ⟨m, y⟩ := e
    by_cases hm : m = n
    · subst hm; simp [sdel, sget, ih, Ne.symm h]
    · by_cases hk : m = k
      · subst hk; simp [sdel, sget, hm]
      · simp [sdel, sget, hm, hk, ih]

theorem sget_sdel_self {α : Type} (d : α) (s : Store α) (n : Nat) : sget d (sdel s n) n = d := by
  induction s with
  | nil => rfl
  | cons e r ih =>
    obtain ⟨m, y⟩ := e
    by_cases hm : m = n
    · simp [sdel, hm, ih]
    · simp [sdel, sget, hm, ih]

/-- A read after a write: the value written at its key, every other key as before. -/
theorem sget_sput {α : Type} [DecidableEq α] (d x : α) (s : Store α) (n k : Nat) :
    sget d (sput d s n x) k = if k = n then x else sget d s k := by
  induction s with
  | nil => by_cases hx : x = d <;> by_cases hk : k = n <;> simp [sput, sget, hx, hk, Ne.symm]
  | cons e r ih =>
    obtain ⟨m, y⟩ := e
    simp only [sput, sget]
    split_ifs <;> simp_all [sget, sget_sdel_self, sget_sdel] <;> omega

theorem sget_sput_self {α : Type} [DecidableEq α] (d x : α) (s : Store α) (n : Nat) : sget d (sput d s n x) n = x := by
  simp [sget_sput]
theorem sget_sput_ne {α : Type} [DecidableEq α] (d x : α) (s : Store α) {n k : Nat} (h : k ≠ n) :
    sget d (sput d s n x) k = sget d s k := by
  simp [sget_sput, h]

/-- A read of a byte after a write of one. -/
theorem rdByte_wrByte (m : Memory) (a b : Nat) (x : Byte) : rdByte (wrByte m a x) b = if b = a then x else rdByte m b :=
  sget_sput 0 x m a b

/-- A read of a byte after a write of bytes: the byte that went there, or what it was. -/
theorem rdByte_wrBytes (m : Memory) (a b : Nat) (xs : List Byte) :
    rdByte (wrBytes m a xs) b = if h : a ≤ b ∧ b - a < xs.length then xs[b - a] else rdByte m b := by
  induction xs generalizing m a with
  | nil => simp [wrBytes]
  | cons x r ih =>
    rw [wrBytes, ih, rdByte_wrByte]
    by_cases h1 : b = a
    · subst h1; simp
    · by_cases h2 : a + 1 ≤ b
      · obtain ⟨k, rfl⟩ : ∃ k, b = a + 1 + k := ⟨b - (a + 1), by omega⟩
        have e : a + 1 + k - a = k + 1 := by omega
        by_cases h3 : k < r.length <;> simp [e, h3] <;> omega
      · have : ¬ (a ≤ b) := by omega
        simp [h1, h2, this]

/-! ### The canonical form -/

theorem swfFrom_mono {α : Type} [DecidableEq α] {d : α} {s : Store α} {lo hi : Nat} (h : lo ≤ hi)
    (w : swfFrom d hi s = true) : swfFrom d lo s = true := by
  cases s with
  | nil => rfl
  | cons e r =>
    obtain ⟨k, x⟩ := e
    simp only [swfFrom, Bool.and_eq_true, decide_eq_true_eq, Bool.not_eq_true', decide_eq_false_iff_not] at w ⊢
    exact ⟨⟨by omega, w.1.2⟩, w.2⟩

theorem swfFrom_sdel {α : Type} [DecidableEq α] {d : α} (s : Store α) (n : Nat) :
    ∀ lo, swfFrom d lo s = true → swfFrom d lo (sdel s n) = true := by
  induction s with
  | nil => intro lo _; rfl
  | cons e r ih =>
    intro lo w
    obtain ⟨k, x⟩ := e
    simp only [swfFrom, Bool.and_eq_true, decide_eq_true_eq, Bool.not_eq_true', decide_eq_false_iff_not] at w
    by_cases hk : k = n
    · simp only [sdel, hk, if_true]
      exact ih lo (swfFrom_mono (by omega) w.2)
    · simp only [sdel, hk, if_false, swfFrom, Bool.and_eq_true, decide_eq_true_eq, Bool.not_eq_true', decide_eq_false_iff_not]
      exact ⟨w.1, ih _ w.2⟩

theorem swfFrom_sput {α : Type} [DecidableEq α] {d x : α} (s : Store α) (n : Nat) :
    ∀ lo, lo ≤ n → swfFrom d lo s = true → swfFrom d lo (sput d s n x) = true := by
  induction s with
  | nil =>
    intro lo h _
    by_cases hx : x = d <;> simp [sput, swfFrom, hx, h]
  | cons e r ih =>
    intro lo h w
    obtain ⟨k, y⟩ := e
    have w' := w
    simp only [swfFrom, Bool.and_eq_true, decide_eq_true_eq, Bool.not_eq_true', decide_eq_false_iff_not] at w'
    by_cases hk : k = n
    · simp only [sput, hk, if_true]
      exact ih lo h (swfFrom_mono (by omega) w'.2)
    · by_cases hlt : n < k
      · have hd := swfFrom_sdel r n _ w'.2
        by_cases hx : x = d
        · simp only [sput, hk, hlt, hx, if_true, if_false, swfFrom, Bool.and_eq_true, decide_eq_true_eq, Bool.not_eq_true', decide_eq_false_iff_not]
          exact ⟨w'.1, hd⟩
        · simp only [sput, hk, hlt, hx, if_true, if_false, swfFrom, Bool.and_eq_true, decide_eq_true_eq, Bool.not_eq_true', decide_eq_false_iff_not]
          exact ⟨⟨h, not_false⟩, ⟨⟨by omega, w'.1.2⟩, hd⟩⟩
      · simp only [sput, hk, hlt, if_false, swfFrom, Bool.and_eq_true, decide_eq_true_eq, Bool.not_eq_true', decide_eq_false_iff_not]
        exact ⟨w'.1, ih _ (by omega) w'.2⟩

/-- A write keeps the canonical form. -/
theorem swf_sput {α : Type} [DecidableEq α] {d x : α} {s : Store α} (n : Nat) (w : swf d s = true) :
    swf d (sput d s n x) = true := swfFrom_sput s n 0 (Nat.zero_le n) w

/-- Removing entries keeps the canonical form. -/
theorem swfFrom_filter {α : Type} [DecidableEq α] {d : α} (q : Nat × α → Bool) (s : Store α) :
    ∀ lo, swfFrom d lo s = true → swfFrom d lo (s.filter q) = true := by
  induction s with
  | nil => intro lo _; rfl
  | cons e r ih =>
    intro lo w
    obtain ⟨k, x⟩ := e
    simp only [swfFrom, Bool.and_eq_true, decide_eq_true_eq, Bool.not_eq_true', decide_eq_false_iff_not] at w
    by_cases hq : q (k, x) = true
    · simp only [List.filter_cons, hq, if_true, swfFrom, Bool.and_eq_true, decide_eq_true_eq, Bool.not_eq_true', decide_eq_false_iff_not]
      exact ⟨w.1, ih _ w.2⟩
    · simp only [List.filter_cons, hq]
      exact ih lo (swfFrom_mono (by omega) w.2)

/-! ### Every operation on memory keeps its canonical form -/

theorem Memory.wf_wrByte {m : Memory} (w : Memory.wf m = true) (a : Nat) (x : Byte) : Memory.wf (wrByte m a x) = true :=
  swf_sput a w
theorem Memory.wf_wrBytes {m : Memory} (w : Memory.wf m = true) (a : Nat) (xs : List Byte) :
    Memory.wf (wrBytes m a xs) = true := by
  induction xs generalizing m a with
  | nil => exact w
  | cons x r ih => exact ih (Memory.wf_wrByte w a x) (a + 1)
theorem Memory.wf_wrWord {m : Memory} (w : Memory.wf m = true) (a : Nat) (x : Word) : Memory.wf (wrWord m a x) = true :=
  Memory.wf_wrBytes w _ _
theorem Memory.wf_wrNat {m : Memory} (w : Memory.wf m = true) (a n x : Nat) : Memory.wf (wrNat m a n x) = true :=
  Memory.wf_wrBytes w _ _
theorem Memory.wf_dropRange {m : Memory} (w : Memory.wf m = true) (lo n : Nat) : Memory.wf (dropRange m lo n) = true :=
  swfFrom_filter _ m 0 w

end Sys2Proof.Machine
end

