-- ==== Sys2Proof/Laws/Regs.lean ====
section
/-! SUPPORT. What register writes do to a group. -/
namespace Sys2Proof.Machine

theorem mem_lanes {m : Mask} {l : Nat} : l ∈ lanes m ↔ l < 32 ∧ m.getLsbD l = true := by
  simp [lanes]
theorem nodup_lanes (m : Mask) : (lanes m).Nodup := List.Nodup.filter _ List.nodup_range

theorem wrs_v_frame (n : Nat) (f : Nat → Val) (ls : List Nat) (g : Group) :
    g.wrs (ls.map fun l => .v n l (f l)) = { g with v := (g.wrs (ls.map fun l => .v n l (f l))).v } := by
  induction ls generalizing g with
  | nil => rfl
  | cons l r ih =>
    simp only [List.map_cons, Group.wrs]
    rw [ih]
    rfl

theorem wrs_v_read (n : Nat) (f : Nat → Val) (ls : List Nat) (hl : ∀ l ∈ ls, l < 32) (hn : ls.Nodup) (g : Group) (k l : Nat)
    (h : l < 32) :
    (g.wrs (ls.map fun l => .v n l (f l))).vr k l = if k = n ∧ l ∈ ls then f l else g.vr k l := by
  induction ls generalizing g with
  | nil => simp [Group.wrs]
  | cons x r ih =>
    simp only [List.map_cons, Group.wrs]
    rw [ih (fun l hl' => hl l (by simp [hl'])) (List.nodup_cons.1 hn).2]
    have hx : x < 32 := hl x (by simp)
    have hxr : x ∉ r := (List.nodup_cons.1 hn).1
    simp only [Group.wr, Group.vr, sget_sput, List.mem_cons]
    by_cases hk : k = n
    · subst hk
      by_cases hlx : l = x
      · subst hlx; simp [hxr]
      · simp [hlx]
    · have : 32 * k + l ≠ 32 * n + x := by omega
      simp [hk, this]

theorem wrs_p_frame (n : Nat) (f : Nat → Bool) (ls : List Nat) (g : Group) :
    g.wrs (ls.map fun l => .p n l (f l)) = { g with p := (g.wrs (ls.map fun l => .p n l (f l))).p } := by
  induction ls generalizing g with
  | nil => rfl
  | cons l r ih =>
    simp only [List.map_cons, Group.wrs]
    rw [ih]
    rfl

theorem getLsbD_setLane (m : Mask) (l k : Nat) (b : Bool) (h : k < 32) :
    (setLane m l b).getLsbD k = if k = l then b else m.getLsbD k := by
  by_cases hk : k = l
  · subst hk
    cases b <;> simp [setLane, laneBit, h]
  · cases b <;> simp [setLane, laneBit, h, hk] <;> (intros; omega)

theorem wrs_p_read (n : Nat) (f : Nat → Bool) (ls : List Nat) (g : Group) (q l : Nat) (h : l < 32) :
    ((g.wrs (ls.map fun l => .p n l (f l))).pr q).getLsbD l = if q = n ∧ l ∈ ls then f l else (g.pr q).getLsbD l := by
  induction ls generalizing g with
  | nil => simp [Group.wrs]
  | cons x r ih =>
    simp only [List.map_cons, Group.wrs]
    rw [ih]
    simp only [Group.wr, Group.pr, sget_sput, List.mem_cons]
    by_cases hq : q = n
    · subst hq
      simp only [if_true, getLsbD_setLane _ _ _ _ h, true_and]
      by_cases hlx : l = x
      · subst hlx; simp
      · simp [hlx]
    · simp [hq]

end Sys2Proof.Machine

namespace Sys2Proof.Machine.Claim

/-- The writes of a value destination. -/
theorem writesReg_wrReg (g : Group) (ix : BitVec 3) (d : Reg) (act : Mask) (f : Nat → Val) :
    WritesReg d (regNum g ix d) act f (wrReg g ix d ((lanes act).map fun l => (l, f l))) := by
  have key (n : Nat) (g' : Group) : g'.wrs ((lanes act).map fun l => .v n l (f l)) =
      { g' with v := (g'.wrs ((lanes act).map fun l => .v n l (f l))).v } ∧
      ∀ k l, l < 32 → (g'.wrs ((lanes act).map fun l => .v n l (f l))).vr k l =
        if k = n ∧ act.getLsbD l then f l else g'.vr k l := by
    refine ⟨wrs_v_frame _ _ _ _, fun k l hl => ?_⟩
    rw [wrs_v_read _ _ _ (fun l h => (mem_lanes.1 h).1) (nodup_lanes act) _ _ _ hl]
    simp [mem_lanes, hl]
  intro g'
  cases d with
  | g n =>
    simp only [wrReg, lowest, regNum, Reg.src, srcNum]
    cases h : lanes act with
    | nil => simp [Group.wrs]
    | cons x r => simp [Group.wrs, Group.wr]
  | v n =>
    simp only [wrReg, List.map_map, Function.comp_def]
    exact key _ g'
  | ix n =>
    simp only [wrReg, List.map_map, Function.comp_def]
    exact key _ g'

/-- The writes of a predicate destination. -/
theorem writesPred_wrPred (d : Pred) (act : Mask) (f : Nat → Bool) :
    WritesPred d.val act f (wrPred d ((lanes act).map fun l => (l, f l))) := by
  intro g
  have e : wrPred d ((lanes act).map fun l => (l, f l)) = (lanes act).map fun l => .p d.val l (f l) := by simp [wrPred]
  rw [e]
  refine ⟨wrs_p_frame _ _ _ _, fun q l hl => ?_⟩
  rw [wrs_p_read _ _ _ _ _ _ hl]
  simp [mem_lanes, hl]

/-- A typed instruction with a value result completes with it. -/
theorem typedV_gives {i : Instr} {c : Ctl} {lat : Lat} {d : Reg} {f : State → Bool → Nat → Val} {s : State} {b : Bool}
    {p : Path} (he : exec i s = .next (typedV i c lat d f s)) (h : Issues i c s b p) :
    GivesVal i c lat d s b p fun t l => f t b l := by
  refine ⟨_, ?_, writesReg_wrReg _ _ _ _ _⟩
  rw [he, typedV, issue_ready h]
  rfl
/-- A typed instruction with a predicate result completes with it. -/
theorem typedP_gives {i : Instr} {c : Ctl} {lat : Lat} {d : Pred} {f : State → Bool → Nat → Bool} {s : State} {b : Bool}
    {p : Path} (he : exec i s = .next (typedP i c lat d f s)) (h : Issues i c s b p) :
    GivesBit i c lat d s b p fun t l => f t b l := by
  refine ⟨_, ?_, writesPred_wrPred _ _ _⟩
  rw [he, typedP, issue_ready h]
  rfl

end Sys2Proof.Machine.Claim
end

