-- ==== Sys2Proof/Laws/State.lean ====
section
/-! SUPPORT. What each plain update of the state leaves alone: one lemma per field per update, true by rfl, so that no proof unfolds a record update. -/
namespace Sys2Proof.Machine

/-! setGrp -/
@[simp] theorem State.setGrp_now (s : State) (f : Group → Group) : (s.setGrp f).now = s.now := rfl
@[simp] theorem State.setGrp_turn (s : State) (f : Group → Group) : (s.setGrp f).turn = s.turn := rfl
@[simp] theorem State.setGrp_plan (s : State) (f : Group → Group) : (s.setGrp f).plan = s.plan := rfl
@[simp] theorem State.setGrp_freeCtr (s : State) (f : Group → Group) : (s.setGrp f).freeCtr = s.freeCtr := rfl
@[simp] theorem State.setGrp_uid (s : State) (f : Group → Group) : (s.setGrp f).uid = s.uid := rfl
@[simp] theorem State.setGrp_rotor (s : State) (f : Group → Group) : (s.setGrp f).rotor = s.rotor := rfl
@[simp] theorem State.setGrp_mem (s : State) (f : Group → Group) : (s.setGrp f).mem = s.mem := rfl
@[simp] theorem State.setGrp_tags (s : State) (f : Group → Group) : (s.setGrp f).tags = s.tags := rfl
@[simp] theorem State.setGrp_spd (s : State) (f : Group → Group) : (s.setGrp f).spd = s.spd := rfl
@[simp] theorem State.setGrp_spdTags (s : State) (f : Group → Group) : (s.setGrp f).spdTags = s.spdTags := rfl
@[simp] theorem State.setGrp_chp (s : State) (f : Group → Group) : (s.setGrp f).chp = s.chp := rfl
@[simp] theorem State.setGrp_chpTags (s : State) (f : Group → Group) : (s.setGrp f).chpTags = s.chpTags := rfl
@[simp] theorem State.setGrp_written (s : State) (f : Group → Group) : (s.setGrp f).written = s.written := rfl
@[simp] theorem State.setGrp_stores (s : State) (f : Group → Group) : (s.setGrp f).stores = s.stores := rfl
@[simp] theorem State.setGrp_l1 (s : State) (f : Group → Group) : (s.setGrp f).l1 = s.l1 := rfl
@[simp] theorem State.setGrp_icopies (s : State) (f : Group → Group) : (s.setGrp f).icopies = s.icopies := rfl
@[simp] theorem State.setGrp_own (s : State) (f : Group → Group) : (s.setGrp f).own = s.own := rfl
@[simp] theorem State.setGrp_hostLines (s : State) (f : Group → Group) : (s.setGrp f).hostLines = s.hostLines := rfl
@[simp] theorem State.setGrp_hostReqs (s : State) (f : Group → Group) : (s.setGrp f).hostReqs = s.hostReqs := rfl
@[simp] theorem State.setGrp_hostHeld (s : State) (f : Group → Group) : (s.setGrp f).hostHeld = s.hostHeld := rfl
@[simp] theorem State.setGrp_early (s : State) (f : Group → Group) : (s.setGrp f).early = s.early := rfl
@[simp] theorem State.setGrp_hdr (s : State) (f : Group → Group) : (s.setGrp f).hdr = s.hdr := rfl
@[simp] theorem State.setGrp_ptrs (s : State) (f : Group → Group) : (s.setGrp f).ptrs = s.ptrs := rfl
@[simp] theorem State.setGrp_tlb (s : State) (f : Group → Group) : (s.setGrp f).tlb = s.tlb := rfl
@[simp] theorem State.setGrp_aspaces (s : State) (f : Group → Group) : (s.setGrp f).aspaces = s.aspaces := rfl
@[simp] theorem State.setGrp_parts (s : State) (f : Group → Group) : (s.setGrp f).parts = s.parts := rfl
@[simp] theorem State.setGrp_who (s : State) (f : Group → Group) : (s.setGrp f).who = s.who := rfl
@[simp] theorem State.setGrp_groups (s : State) (f : Group → Group) : (s.setGrp f).groups = s.groups := rfl
@[simp] theorem State.setGrp_blocks (s : State) (f : Group → Group) : (s.setGrp f).blocks = s.blocks := rfl
@[simp] theorem State.setGrp_launches (s : State) (f : Group → Group) : (s.setGrp f).launches = s.launches := rfl
@[simp] theorem State.setGrp_rcbs (s : State) (f : Group → Group) : (s.setGrp f).rcbs = s.rcbs := rfl
@[simp] theorem State.setGrp_jobs (s : State) (f : Group → Group) : (s.setGrp f).jobs = s.jobs := rfl
@[simp] theorem State.setGrp_wins (s : State) (f : Group → Group) : (s.setGrp f).wins = s.wins := rfl
@[simp] theorem State.setGrp_queues (s : State) (f : Group → Group) : (s.setGrp f).queues = s.queues := rfl
@[simp] theorem State.setGrp_nodes (s : State) (f : Group → Group) : (s.setGrp f).nodes = s.nodes := rfl
@[simp] theorem State.setGrp_cards (s : State) (f : Group → Group) : (s.setGrp f).cards = s.cards := rfl
@[simp] theorem State.setGrp_matchTab (s : State) (f : Group → Group) : (s.setGrp f).matchTab = s.matchTab := rfl
@[simp] theorem State.setGrp_unmatched (s : State) (f : Group → Group) : (s.setGrp f).unmatched = s.unmatched := rfl
@[simp] theorem State.setGrp_cmds (s : State) (f : Group → Group) : (s.setGrp f).cmds = s.cmds := rfl
@[simp] theorem State.setGrp_waiters (s : State) (f : Group → Group) : (s.setGrp f).waiters = s.waiters := rfl
@[simp] theorem State.setGrp_recs (s : State) (f : Group → Group) : (s.setGrp f).recs = s.recs := rfl
@[simp] theorem State.setGrp_tiles (s : State) (f : Group → Group) : (s.setGrp f).tiles = s.tiles := rfl
@[simp] theorem State.setGrp_units (s : State) (f : Group → Group) : (s.setGrp f).units = s.units := rfl
@[simp] theorem State.setGrp_work (s : State) (f : Group → Group) : (s.setGrp f).work = s.work := rfl
@[simp] theorem State.setGrp_outs (s : State) (f : Group → Group) : (s.setGrp f).outs = s.outs := rfl
@[simp] theorem State.setGrp_dev (s : State) (f : Group → Group) : (s.setGrp f).dev = s.dev := rfl
@[simp] theorem State.setGrp_grp (s : State) (f : Group → Group) : (s.setGrp f).grp = f s.grp := rfl
/-! next -/
@[simp] theorem State.next_now (s : State) (b : Bool) : (s.next b).now = s.now := rfl
@[simp] theorem State.next_turn (s : State) (b : Bool) : (s.next b).turn = s.turn := rfl
@[simp] theorem State.next_plan (s : State) (b : Bool) : (s.next b).plan = s.plan := rfl
@[simp] theorem State.next_freeCtr (s : State) (b : Bool) : (s.next b).freeCtr = s.freeCtr := rfl
@[simp] theorem State.next_uid (s : State) (b : Bool) : (s.next b).uid = s.uid := rfl
@[simp] theorem State.next_rotor (s : State) (b : Bool) : (s.next b).rotor = s.rotor := rfl
@[simp] theorem State.next_mem (s : State) (b : Bool) : (s.next b).mem = s.mem := rfl
@[simp] theorem State.next_tags (s : State) (b : Bool) : (s.next b).tags = s.tags := rfl
@[simp] theorem State.next_spd (s : State) (b : Bool) : (s.next b).spd = s.spd := rfl
@[simp] theorem State.next_spdTags (s : State) (b : Bool) : (s.next b).spdTags = s.spdTags := rfl
@[simp] theorem State.next_chp (s : State) (b : Bool) : (s.next b).chp = s.chp := rfl
@[simp] theorem State.next_chpTags (s : State) (b : Bool) : (s.next b).chpTags = s.chpTags := rfl
@[simp] theorem State.next_written (s : State) (b : Bool) : (s.next b).written = s.written := rfl
@[simp] theorem State.next_stores (s : State) (b : Bool) : (s.next b).stores = s.stores := rfl
@[simp] theorem State.next_l1 (s : State) (b : Bool) : (s.next b).l1 = s.l1 := rfl
@[simp] theorem State.next_icopies (s : State) (b : Bool) : (s.next b).icopies = s.icopies := rfl
@[simp] theorem State.next_own (s : State) (b : Bool) : (s.next b).own = s.own := rfl
@[simp] theorem State.next_hostLines (s : State) (b : Bool) : (s.next b).hostLines = s.hostLines := rfl
@[simp] theorem State.next_hostReqs (s : State) (b : Bool) : (s.next b).hostReqs = s.hostReqs := rfl
@[simp] theorem State.next_hostHeld (s : State) (b : Bool) : (s.next b).hostHeld = s.hostHeld := rfl
@[simp] theorem State.next_early (s : State) (b : Bool) : (s.next b).early = s.early := rfl
@[simp] theorem State.next_hdr (s : State) (b : Bool) : (s.next b).hdr = s.hdr := rfl
@[simp] theorem State.next_ptrs (s : State) (b : Bool) : (s.next b).ptrs = s.ptrs := rfl
@[simp] theorem State.next_tlb (s : State) (b : Bool) : (s.next b).tlb = s.tlb := rfl
@[simp] theorem State.next_aspaces (s : State) (b : Bool) : (s.next b).aspaces = s.aspaces := rfl
@[simp] theorem State.next_parts (s : State) (b : Bool) : (s.next b).parts = s.parts := rfl
@[simp] theorem State.next_who (s : State) (b : Bool) : (s.next b).who = s.who := rfl
@[simp] theorem State.next_groups (s : State) (b : Bool) : (s.next b).groups = s.groups := rfl
@[simp] theorem State.next_blocks (s : State) (b : Bool) : (s.next b).blocks = s.blocks := rfl
@[simp] theorem State.next_launches (s : State) (b : Bool) : (s.next b).launches = s.launches := rfl
@[simp] theorem State.next_rcbs (s : State) (b : Bool) : (s.next b).rcbs = s.rcbs := rfl
@[simp] theorem State.next_jobs (s : State) (b : Bool) : (s.next b).jobs = s.jobs := rfl
@[simp] theorem State.next_wins (s : State) (b : Bool) : (s.next b).wins = s.wins := rfl
@[simp] theorem State.next_queues (s : State) (b : Bool) : (s.next b).queues = s.queues := rfl
@[simp] theorem State.next_nodes (s : State) (b : Bool) : (s.next b).nodes = s.nodes := rfl
@[simp] theorem State.next_cards (s : State) (b : Bool) : (s.next b).cards = s.cards := rfl
@[simp] theorem State.next_matchTab (s : State) (b : Bool) : (s.next b).matchTab = s.matchTab := rfl
@[simp] theorem State.next_unmatched (s : State) (b : Bool) : (s.next b).unmatched = s.unmatched := rfl
@[simp] theorem State.next_cmds (s : State) (b : Bool) : (s.next b).cmds = s.cmds := rfl
@[simp] theorem State.next_waiters (s : State) (b : Bool) : (s.next b).waiters = s.waiters := rfl
@[simp] theorem State.next_recs (s : State) (b : Bool) : (s.next b).recs = s.recs := rfl
@[simp] theorem State.next_tiles (s : State) (b : Bool) : (s.next b).tiles = s.tiles := rfl
@[simp] theorem State.next_units (s : State) (b : Bool) : (s.next b).units = s.units := rfl
@[simp] theorem State.next_work (s : State) (b : Bool) : (s.next b).work = s.work := rfl
@[simp] theorem State.next_outs (s : State) (b : Bool) : (s.next b).outs = s.outs := rfl
@[simp] theorem State.next_dev (s : State) (b : Bool) : (s.next b).dev = s.dev := rfl
/-! spend -/
@[simp] theorem State.spend_now (s : State) (c : Sched) : (s.spend c).now = s.now := rfl
@[simp] theorem State.spend_turn (s : State) (c : Sched) : (s.spend c).turn = s.turn := rfl
@[simp] theorem State.spend_plan (s : State) (c : Sched) : (s.spend c).plan = s.plan := rfl
@[simp] theorem State.spend_freeCtr (s : State) (c : Sched) : (s.spend c).freeCtr = s.freeCtr := rfl
@[simp] theorem State.spend_uid (s : State) (c : Sched) : (s.spend c).uid = s.uid := rfl
@[simp] theorem State.spend_rotor (s : State) (c : Sched) : (s.spend c).rotor = s.rotor := rfl
@[simp] theorem State.spend_mem (s : State) (c : Sched) : (s.spend c).mem = s.mem := rfl
@[simp] theorem State.spend_tags (s : State) (c : Sched) : (s.spend c).tags = s.tags := rfl
@[simp] theorem State.spend_spd (s : State) (c : Sched) : (s.spend c).spd = s.spd := rfl
@[simp] theorem State.spend_spdTags (s : State) (c : Sched) : (s.spend c).spdTags = s.spdTags := rfl
@[simp] theorem State.spend_chp (s : State) (c : Sched) : (s.spend c).chp = s.chp := rfl
@[simp] theorem State.spend_chpTags (s : State) (c : Sched) : (s.spend c).chpTags = s.chpTags := rfl
@[simp] theorem State.spend_written (s : State) (c : Sched) : (s.spend c).written = s.written := rfl
@[simp] theorem State.spend_stores (s : State) (c : Sched) : (s.spend c).stores = s.stores := rfl
@[simp] theorem State.spend_l1 (s : State) (c : Sched) : (s.spend c).l1 = s.l1 := rfl
@[simp] theorem State.spend_icopies (s : State) (c : Sched) : (s.spend c).icopies = s.icopies := rfl
@[simp] theorem State.spend_own (s : State) (c : Sched) : (s.spend c).own = s.own := rfl
@[simp] theorem State.spend_hostLines (s : State) (c : Sched) : (s.spend c).hostLines = s.hostLines := rfl
@[simp] theorem State.spend_hostReqs (s : State) (c : Sched) : (s.spend c).hostReqs = s.hostReqs := rfl
@[simp] theorem State.spend_hostHeld (s : State) (c : Sched) : (s.spend c).hostHeld = s.hostHeld := rfl
@[simp] theorem State.spend_early (s : State) (c : Sched) : (s.spend c).early = s.early := rfl
@[simp] theorem State.spend_hdr (s : State) (c : Sched) : (s.spend c).hdr = s.hdr := rfl
@[simp] theorem State.spend_ptrs (s : State) (c : Sched) : (s.spend c).ptrs = s.ptrs := rfl
@[simp] theorem State.spend_tlb (s : State) (c : Sched) : (s.spend c).tlb = s.tlb := rfl
@[simp] theorem State.spend_aspaces (s : State) (c : Sched) : (s.spend c).aspaces = s.aspaces := rfl
@[simp] theorem State.spend_parts (s : State) (c : Sched) : (s.spend c).parts = s.parts := rfl
@[simp] theorem State.spend_who (s : State) (c : Sched) : (s.spend c).who = s.who := rfl
@[simp] theorem State.spend_groups (s : State) (c : Sched) : (s.spend c).groups = s.groups := rfl
@[simp] theorem State.spend_blocks (s : State) (c : Sched) : (s.spend c).blocks = s.blocks := rfl
@[simp] theorem State.spend_launches (s : State) (c : Sched) : (s.spend c).launches = s.launches := rfl
@[simp] theorem State.spend_rcbs (s : State) (c : Sched) : (s.spend c).rcbs = s.rcbs := rfl
@[simp] theorem State.spend_jobs (s : State) (c : Sched) : (s.spend c).jobs = s.jobs := rfl
@[simp] theorem State.spend_wins (s : State) (c : Sched) : (s.spend c).wins = s.wins := rfl
@[simp] theorem State.spend_queues (s : State) (c : Sched) : (s.spend c).queues = s.queues := rfl
@[simp] theorem State.spend_nodes (s : State) (c : Sched) : (s.spend c).nodes = s.nodes := rfl
@[simp] theorem State.spend_cards (s : State) (c : Sched) : (s.spend c).cards = s.cards := rfl
@[simp] theorem State.spend_matchTab (s : State) (c : Sched) : (s.spend c).matchTab = s.matchTab := rfl
@[simp] theorem State.spend_unmatched (s : State) (c : Sched) : (s.spend c).unmatched = s.unmatched := rfl
@[simp] theorem State.spend_cmds (s : State) (c : Sched) : (s.spend c).cmds = s.cmds := rfl
@[simp] theorem State.spend_waiters (s : State) (c : Sched) : (s.spend c).waiters = s.waiters := rfl
@[simp] theorem State.spend_recs (s : State) (c : Sched) : (s.spend c).recs = s.recs := rfl
@[simp] theorem State.spend_tiles (s : State) (c : Sched) : (s.spend c).tiles = s.tiles := rfl
@[simp] theorem State.spend_units (s : State) (c : Sched) : (s.spend c).units = s.units := rfl
@[simp] theorem State.spend_work (s : State) (c : Sched) : (s.spend c).work = s.work := rfl
@[simp] theorem State.spend_outs (s : State) (c : Sched) : (s.spend c).outs = s.outs := rfl
@[simp] theorem State.spend_dev (s : State) (c : Sched) : (s.spend c).dev = s.dev := rfl
/-! changed -/
@[simp] theorem State.changed_now (s : State) (b : Bool) : (s.changed b).now = s.now := rfl
@[simp] theorem State.changed_turn (s : State) (b : Bool) : (s.changed b).turn = s.turn := rfl
@[simp] theorem State.changed_plan (s : State) (b : Bool) : (s.changed b).plan = s.plan := rfl
@[simp] theorem State.changed_freeCtr (s : State) (b : Bool) : (s.changed b).freeCtr = s.freeCtr := rfl
@[simp] theorem State.changed_uid (s : State) (b : Bool) : (s.changed b).uid = s.uid := rfl
@[simp] theorem State.changed_rotor (s : State) (b : Bool) : (s.changed b).rotor = s.rotor := rfl
@[simp] theorem State.changed_mem (s : State) (b : Bool) : (s.changed b).mem = s.mem := rfl
@[simp] theorem State.changed_tags (s : State) (b : Bool) : (s.changed b).tags = s.tags := rfl
@[simp] theorem State.changed_spd (s : State) (b : Bool) : (s.changed b).spd = s.spd := rfl
@[simp] theorem State.changed_spdTags (s : State) (b : Bool) : (s.changed b).spdTags = s.spdTags := rfl
@[simp] theorem State.changed_chp (s : State) (b : Bool) : (s.changed b).chp = s.chp := rfl
@[simp] theorem State.changed_chpTags (s : State) (b : Bool) : (s.changed b).chpTags = s.chpTags := rfl
@[simp] theorem State.changed_written (s : State) (b : Bool) : (s.changed b).written = s.written := rfl
@[simp] theorem State.changed_stores (s : State) (b : Bool) : (s.changed b).stores = s.stores := rfl
@[simp] theorem State.changed_l1 (s : State) (b : Bool) : (s.changed b).l1 = s.l1 := rfl
@[simp] theorem State.changed_icopies (s : State) (b : Bool) : (s.changed b).icopies = s.icopies := rfl
@[simp] theorem State.changed_own (s : State) (b : Bool) : (s.changed b).own = s.own := rfl
@[simp] theorem State.changed_hostLines (s : State) (b : Bool) : (s.changed b).hostLines = s.hostLines := rfl
@[simp] theorem State.changed_hostReqs (s : State) (b : Bool) : (s.changed b).hostReqs = s.hostReqs := rfl
@[simp] theorem State.changed_hostHeld (s : State) (b : Bool) : (s.changed b).hostHeld = s.hostHeld := rfl
@[simp] theorem State.changed_early (s : State) (b : Bool) : (s.changed b).early = s.early := rfl
@[simp] theorem State.changed_hdr (s : State) (b : Bool) : (s.changed b).hdr = s.hdr := rfl
@[simp] theorem State.changed_ptrs (s : State) (b : Bool) : (s.changed b).ptrs = s.ptrs := rfl
@[simp] theorem State.changed_tlb (s : State) (b : Bool) : (s.changed b).tlb = s.tlb := rfl
@[simp] theorem State.changed_aspaces (s : State) (b : Bool) : (s.changed b).aspaces = s.aspaces := rfl
@[simp] theorem State.changed_parts (s : State) (b : Bool) : (s.changed b).parts = s.parts := rfl
@[simp] theorem State.changed_who (s : State) (b : Bool) : (s.changed b).who = s.who := rfl
@[simp] theorem State.changed_groups (s : State) (b : Bool) : (s.changed b).groups = s.groups := rfl
@[simp] theorem State.changed_blocks (s : State) (b : Bool) : (s.changed b).blocks = s.blocks := rfl
@[simp] theorem State.changed_launches (s : State) (b : Bool) : (s.changed b).launches = s.launches := rfl
@[simp] theorem State.changed_rcbs (s : State) (b : Bool) : (s.changed b).rcbs = s.rcbs := rfl
@[simp] theorem State.changed_jobs (s : State) (b : Bool) : (s.changed b).jobs = s.jobs := rfl
@[simp] theorem State.changed_wins (s : State) (b : Bool) : (s.changed b).wins = s.wins := rfl
@[simp] theorem State.changed_queues (s : State) (b : Bool) : (s.changed b).queues = s.queues := rfl
@[simp] theorem State.changed_nodes (s : State) (b : Bool) : (s.changed b).nodes = s.nodes := rfl
@[simp] theorem State.changed_cards (s : State) (b : Bool) : (s.changed b).cards = s.cards := rfl
@[simp] theorem State.changed_matchTab (s : State) (b : Bool) : (s.changed b).matchTab = s.matchTab := rfl
@[simp] theorem State.changed_unmatched (s : State) (b : Bool) : (s.changed b).unmatched = s.unmatched := rfl
@[simp] theorem State.changed_cmds (s : State) (b : Bool) : (s.changed b).cmds = s.cmds := rfl
@[simp] theorem State.changed_waiters (s : State) (b : Bool) : (s.changed b).waiters = s.waiters := rfl
@[simp] theorem State.changed_recs (s : State) (b : Bool) : (s.changed b).recs = s.recs := rfl
@[simp] theorem State.changed_tiles (s : State) (b : Bool) : (s.changed b).tiles = s.tiles := rfl
@[simp] theorem State.changed_units (s : State) (b : Bool) : (s.changed b).units = s.units := rfl
@[simp] theorem State.changed_work (s : State) (b : Bool) : (s.changed b).work = s.work := rfl
@[simp] theorem State.changed_outs (s : State) (b : Bool) : (s.changed b).outs = s.outs := rfl
@[simp] theorem State.changed_dev (s : State) (b : Bool) : (s.changed b).dev = s.dev := rfl
/-! loaded -/
@[simp] theorem State.loaded_now (s : State) (b : Bool) (n : Nat) : (s.loaded b n).now = s.now := rfl
@[simp] theorem State.loaded_turn (s : State) (b : Bool) (n : Nat) : (s.loaded b n).turn = s.turn := rfl
@[simp] theorem State.loaded_plan (s : State) (b : Bool) (n : Nat) : (s.loaded b n).plan = s.plan := rfl
@[simp] theorem State.loaded_freeCtr (s : State) (b : Bool) (n : Nat) : (s.loaded b n).freeCtr = s.freeCtr := rfl
@[simp] theorem State.loaded_uid (s : State) (b : Bool) (n : Nat) : (s.loaded b n).uid = s.uid := rfl
@[simp] theorem State.loaded_rotor (s : State) (b : Bool) (n : Nat) : (s.loaded b n).rotor = s.rotor := rfl
@[simp] theorem State.loaded_mem (s : State) (b : Bool) (n : Nat) : (s.loaded b n).mem = s.mem := rfl
@[simp] theorem State.loaded_tags (s : State) (b : Bool) (n : Nat) : (s.loaded b n).tags = s.tags := rfl
@[simp] theorem State.loaded_spd (s : State) (b : Bool) (n : Nat) : (s.loaded b n).spd = s.spd := rfl
@[simp] theorem State.loaded_spdTags (s : State) (b : Bool) (n : Nat) : (s.loaded b n).spdTags = s.spdTags := rfl
@[simp] theorem State.loaded_chp (s : State) (b : Bool) (n : Nat) : (s.loaded b n).chp = s.chp := rfl
@[simp] theorem State.loaded_chpTags (s : State) (b : Bool) (n : Nat) : (s.loaded b n).chpTags = s.chpTags := rfl
@[simp] theorem State.loaded_written (s : State) (b : Bool) (n : Nat) : (s.loaded b n).written = s.written := rfl
@[simp] theorem State.loaded_stores (s : State) (b : Bool) (n : Nat) : (s.loaded b n).stores = s.stores := rfl
@[simp] theorem State.loaded_l1 (s : State) (b : Bool) (n : Nat) : (s.loaded b n).l1 = s.l1 := rfl
@[simp] theorem State.loaded_icopies (s : State) (b : Bool) (n : Nat) : (s.loaded b n).icopies = s.icopies := rfl
@[simp] theorem State.loaded_own (s : State) (b : Bool) (n : Nat) : (s.loaded b n).own = s.own := rfl
@[simp] theorem State.loaded_hostLines (s : State) (b : Bool) (n : Nat) : (s.loaded b n).hostLines = s.hostLines := rfl
@[simp] theorem State.loaded_hostReqs (s : State) (b : Bool) (n : Nat) : (s.loaded b n).hostReqs = s.hostReqs := rfl
@[simp] theorem State.loaded_hostHeld (s : State) (b : Bool) (n : Nat) : (s.loaded b n).hostHeld = s.hostHeld := rfl
@[simp] theorem State.loaded_early (s : State) (b : Bool) (n : Nat) : (s.loaded b n).early = s.early := rfl
@[simp] theorem State.loaded_hdr (s : State) (b : Bool) (n : Nat) : (s.loaded b n).hdr = s.hdr := rfl
@[simp] theorem State.loaded_ptrs (s : State) (b : Bool) (n : Nat) : (s.loaded b n).ptrs = s.ptrs := rfl
@[simp] theorem State.loaded_tlb (s : State) (b : Bool) (n : Nat) : (s.loaded b n).tlb = s.tlb := rfl
@[simp] theorem State.loaded_aspaces (s : State) (b : Bool) (n : Nat) : (s.loaded b n).aspaces = s.aspaces := rfl
@[simp] theorem State.loaded_parts (s : State) (b : Bool) (n : Nat) : (s.loaded b n).parts = s.parts := rfl
@[simp] theorem State.loaded_who (s : State) (b : Bool) (n : Nat) : (s.loaded b n).who = s.who := rfl
@[simp] theorem State.loaded_groups (s : State) (b : Bool) (n : Nat) : (s.loaded b n).groups = s.groups := rfl
@[simp] theorem State.loaded_blocks (s : State) (b : Bool) (n : Nat) : (s.loaded b n).blocks = s.blocks := rfl
@[simp] theorem State.loaded_launches (s : State) (b : Bool) (n : Nat) : (s.loaded b n).launches = s.launches := rfl
@[simp] theorem State.loaded_rcbs (s : State) (b : Bool) (n : Nat) : (s.loaded b n).rcbs = s.rcbs := rfl
@[simp] theorem State.loaded_jobs (s : State) (b : Bool) (n : Nat) : (s.loaded b n).jobs = s.jobs := rfl
@[simp] theorem State.loaded_wins (s : State) (b : Bool) (n : Nat) : (s.loaded b n).wins = s.wins := rfl
@[simp] theorem State.loaded_queues (s : State) (b : Bool) (n : Nat) : (s.loaded b n).queues = s.queues := rfl
@[simp] theorem State.loaded_nodes (s : State) (b : Bool) (n : Nat) : (s.loaded b n).nodes = s.nodes := rfl
@[simp] theorem State.loaded_cards (s : State) (b : Bool) (n : Nat) : (s.loaded b n).cards = s.cards := rfl
@[simp] theorem State.loaded_matchTab (s : State) (b : Bool) (n : Nat) : (s.loaded b n).matchTab = s.matchTab := rfl
@[simp] theorem State.loaded_unmatched (s : State) (b : Bool) (n : Nat) : (s.loaded b n).unmatched = s.unmatched := rfl
@[simp] theorem State.loaded_cmds (s : State) (b : Bool) (n : Nat) : (s.loaded b n).cmds = s.cmds := rfl
@[simp] theorem State.loaded_waiters (s : State) (b : Bool) (n : Nat) : (s.loaded b n).waiters = s.waiters := rfl
@[simp] theorem State.loaded_recs (s : State) (b : Bool) (n : Nat) : (s.loaded b n).recs = s.recs := rfl
@[simp] theorem State.loaded_tiles (s : State) (b : Bool) (n : Nat) : (s.loaded b n).tiles = s.tiles := rfl
@[simp] theorem State.loaded_units (s : State) (b : Bool) (n : Nat) : (s.loaded b n).units = s.units := rfl
@[simp] theorem State.loaded_work (s : State) (b : Bool) (n : Nat) : (s.loaded b n).work = s.work := rfl
@[simp] theorem State.loaded_outs (s : State) (b : Bool) (n : Nat) : (s.loaded b n).outs = s.outs := rfl
@[simp] theorem State.loaded_dev (s : State) (b : Bool) (n : Nat) : (s.loaded b n).dev = s.dev := rfl
/-! modPart -/
@[simp] theorem State.modPart_now (s : State) (id : Nat) (f : Partition → Partition) : (s.modPart id f).now = s.now := rfl
@[simp] theorem State.modPart_turn (s : State) (id : Nat) (f : Partition → Partition) : (s.modPart id f).turn = s.turn := rfl
@[simp] theorem State.modPart_plan (s : State) (id : Nat) (f : Partition → Partition) : (s.modPart id f).plan = s.plan := rfl
@[simp] theorem State.modPart_freeCtr (s : State) (id : Nat) (f : Partition → Partition) : (s.modPart id f).freeCtr = s.freeCtr := rfl
@[simp] theorem State.modPart_uid (s : State) (id : Nat) (f : Partition → Partition) : (s.modPart id f).uid = s.uid := rfl
@[simp] theorem State.modPart_rotor (s : State) (id : Nat) (f : Partition → Partition) : (s.modPart id f).rotor = s.rotor := rfl
@[simp] theorem State.modPart_mem (s : State) (id : Nat) (f : Partition → Partition) : (s.modPart id f).mem = s.mem := rfl
@[simp] theorem State.modPart_tags (s : State) (id : Nat) (f : Partition → Partition) : (s.modPart id f).tags = s.tags := rfl
@[simp] theorem State.modPart_spd (s : State) (id : Nat) (f : Partition → Partition) : (s.modPart id f).spd = s.spd := rfl
@[simp] theorem State.modPart_spdTags (s : State) (id : Nat) (f : Partition → Partition) : (s.modPart id f).spdTags = s.spdTags := rfl
@[simp] theorem State.modPart_chp (s : State) (id : Nat) (f : Partition → Partition) : (s.modPart id f).chp = s.chp := rfl
@[simp] theorem State.modPart_chpTags (s : State) (id : Nat) (f : Partition → Partition) : (s.modPart id f).chpTags = s.chpTags := rfl
@[simp] theorem State.modPart_written (s : State) (id : Nat) (f : Partition → Partition) : (s.modPart id f).written = s.written := rfl
@[simp] theorem State.modPart_stores (s : State) (id : Nat) (f : Partition → Partition) : (s.modPart id f).stores = s.stores := rfl
@[simp] theorem State.modPart_l1 (s : State) (id : Nat) (f : Partition → Partition) : (s.modPart id f).l1 = s.l1 := rfl
@[simp] theorem State.modPart_icopies (s : State) (id : Nat) (f : Partition → Partition) : (s.modPart id f).icopies = s.icopies := rfl
@[simp] theorem State.modPart_own (s : State) (id : Nat) (f : Partition → Partition) : (s.modPart id f).own = s.own := rfl
@[simp] theorem State.modPart_hostLines (s : State) (id : Nat) (f : Partition → Partition) : (s.modPart id f).hostLines = s.hostLines := rfl
@[simp] theorem State.modPart_hostReqs (s : State) (id : Nat) (f : Partition → Partition) : (s.modPart id f).hostReqs = s.hostReqs := rfl
@[simp] theorem State.modPart_hostHeld (s : State) (id : Nat) (f : Partition → Partition) : (s.modPart id f).hostHeld = s.hostHeld := rfl
@[simp] theorem State.modPart_early (s : State) (id : Nat) (f : Partition → Partition) : (s.modPart id f).early = s.early := rfl
@[simp] theorem State.modPart_hdr (s : State) (id : Nat) (f : Partition → Partition) : (s.modPart id f).hdr = s.hdr := rfl
@[simp] theorem State.modPart_ptrs (s : State) (id : Nat) (f : Partition → Partition) : (s.modPart id f).ptrs = s.ptrs := rfl
@[simp] theorem State.modPart_tlb (s : State) (id : Nat) (f : Partition → Partition) : (s.modPart id f).tlb = s.tlb := rfl
@[simp] theorem State.modPart_aspaces (s : State) (id : Nat) (f : Partition → Partition) : (s.modPart id f).aspaces = s.aspaces := rfl
@[simp] theorem State.modPart_who (s : State) (id : Nat) (f : Partition → Partition) : (s.modPart id f).who = s.who := rfl
@[simp] theorem State.modPart_grp (s : State) (id : Nat) (f : Partition → Partition) : (s.modPart id f).grp = s.grp := rfl
@[simp] theorem State.modPart_groups (s : State) (id : Nat) (f : Partition → Partition) : (s.modPart id f).groups = s.groups := rfl
@[simp] theorem State.modPart_blocks (s : State) (id : Nat) (f : Partition → Partition) : (s.modPart id f).blocks = s.blocks := rfl
@[simp] theorem State.modPart_launches (s : State) (id : Nat) (f : Partition → Partition) : (s.modPart id f).launches = s.launches := rfl
@[simp] theorem State.modPart_rcbs (s : State) (id : Nat) (f : Partition → Partition) : (s.modPart id f).rcbs = s.rcbs := rfl
@[simp] theorem State.modPart_jobs (s : State) (id : Nat) (f : Partition → Partition) : (s.modPart id f).jobs = s.jobs := rfl
@[simp] theorem State.modPart_wins (s : State) (id : Nat) (f : Partition → Partition) : (s.modPart id f).wins = s.wins := rfl
@[simp] theorem State.modPart_queues (s : State) (id : Nat) (f : Partition → Partition) : (s.modPart id f).queues = s.queues := rfl
@[simp] theorem State.modPart_nodes (s : State) (id : Nat) (f : Partition → Partition) : (s.modPart id f).nodes = s.nodes := rfl
@[simp] theorem State.modPart_cards (s : State) (id : Nat) (f : Partition → Partition) : (s.modPart id f).cards = s.cards := rfl
@[simp] theorem State.modPart_matchTab (s : State) (id : Nat) (f : Partition → Partition) : (s.modPart id f).matchTab = s.matchTab := rfl
@[simp] theorem State.modPart_unmatched (s : State) (id : Nat) (f : Partition → Partition) : (s.modPart id f).unmatched = s.unmatched := rfl
@[simp] theorem State.modPart_cmds (s : State) (id : Nat) (f : Partition → Partition) : (s.modPart id f).cmds = s.cmds := rfl
@[simp] theorem State.modPart_waiters (s : State) (id : Nat) (f : Partition → Partition) : (s.modPart id f).waiters = s.waiters := rfl
@[simp] theorem State.modPart_recs (s : State) (id : Nat) (f : Partition → Partition) : (s.modPart id f).recs = s.recs := rfl
@[simp] theorem State.modPart_tiles (s : State) (id : Nat) (f : Partition → Partition) : (s.modPart id f).tiles = s.tiles := rfl
@[simp] theorem State.modPart_units (s : State) (id : Nat) (f : Partition → Partition) : (s.modPart id f).units = s.units := rfl
@[simp] theorem State.modPart_work (s : State) (id : Nat) (f : Partition → Partition) : (s.modPart id f).work = s.work := rfl
@[simp] theorem State.modPart_outs (s : State) (id : Nat) (f : Partition → Partition) : (s.modPart id f).outs = s.outs := rfl
@[simp] theorem State.modPart_dev (s : State) (id : Nat) (f : Partition → Partition) : (s.modPart id f).dev = s.dev := rfl
/-! modBlk -/
@[simp] theorem State.modBlk_now (s : State) (id : Nat) (f : Block → Block) : (s.modBlk id f).now = s.now := rfl
@[simp] theorem State.modBlk_turn (s : State) (id : Nat) (f : Block → Block) : (s.modBlk id f).turn = s.turn := rfl
@[simp] theorem State.modBlk_plan (s : State) (id : Nat) (f : Block → Block) : (s.modBlk id f).plan = s.plan := rfl
@[simp] theorem State.modBlk_freeCtr (s : State) (id : Nat) (f : Block → Block) : (s.modBlk id f).freeCtr = s.freeCtr := rfl
@[simp] theorem State.modBlk_uid (s : State) (id : Nat) (f : Block → Block) : (s.modBlk id f).uid = s.uid := rfl
@[simp] theorem State.modBlk_rotor (s : State) (id : Nat) (f : Block → Block) : (s.modBlk id f).rotor = s.rotor := rfl
@[simp] theorem State.modBlk_mem (s : State) (id : Nat) (f : Block → Block) : (s.modBlk id f).mem = s.mem := rfl
@[simp] theorem State.modBlk_tags (s : State) (id : Nat) (f : Block → Block) : (s.modBlk id f).tags = s.tags := rfl
@[simp] theorem State.modBlk_spd (s : State) (id : Nat) (f : Block → Block) : (s.modBlk id f).spd = s.spd := rfl
@[simp] theorem State.modBlk_spdTags (s : State) (id : Nat) (f : Block → Block) : (s.modBlk id f).spdTags = s.spdTags := rfl
@[simp] theorem State.modBlk_chp (s : State) (id : Nat) (f : Block → Block) : (s.modBlk id f).chp = s.chp := rfl
@[simp] theorem State.modBlk_chpTags (s : State) (id : Nat) (f : Block → Block) : (s.modBlk id f).chpTags = s.chpTags := rfl
@[simp] theorem State.modBlk_written (s : State) (id : Nat) (f : Block → Block) : (s.modBlk id f).written = s.written := rfl
@[simp] theorem State.modBlk_stores (s : State) (id : Nat) (f : Block → Block) : (s.modBlk id f).stores = s.stores := rfl
@[simp] theorem State.modBlk_l1 (s : State) (id : Nat) (f : Block → Block) : (s.modBlk id f).l1 = s.l1 := rfl
@[simp] theorem State.modBlk_icopies (s : State) (id : Nat) (f : Block → Block) : (s.modBlk id f).icopies = s.icopies := rfl
@[simp] theorem State.modBlk_own (s : State) (id : Nat) (f : Block → Block) : (s.modBlk id f).own = s.own := rfl
@[simp] theorem State.modBlk_hostLines (s : State) (id : Nat) (f : Block → Block) : (s.modBlk id f).hostLines = s.hostLines := rfl
@[simp] theorem State.modBlk_hostReqs (s : State) (id : Nat) (f : Block → Block) : (s.modBlk id f).hostReqs = s.hostReqs := rfl
@[simp] theorem State.modBlk_hostHeld (s : State) (id : Nat) (f : Block → Block) : (s.modBlk id f).hostHeld = s.hostHeld := rfl
@[simp] theorem State.modBlk_early (s : State) (id : Nat) (f : Block → Block) : (s.modBlk id f).early = s.early := rfl
@[simp] theorem State.modBlk_hdr (s : State) (id : Nat) (f : Block → Block) : (s.modBlk id f).hdr = s.hdr := rfl
@[simp] theorem State.modBlk_ptrs (s : State) (id : Nat) (f : Block → Block) : (s.modBlk id f).ptrs = s.ptrs := rfl
@[simp] theorem State.modBlk_tlb (s : State) (id : Nat) (f : Block → Block) : (s.modBlk id f).tlb = s.tlb := rfl
@[simp] theorem State.modBlk_aspaces (s : State) (id : Nat) (f : Block → Block) : (s.modBlk id f).aspaces = s.aspaces := rfl
@[simp] theorem State.modBlk_parts (s : State) (id : Nat) (f : Block → Block) : (s.modBlk id f).parts = s.parts := rfl
@[simp] theorem State.modBlk_who (s : State) (id : Nat) (f : Block → Block) : (s.modBlk id f).who = s.who := rfl
@[simp] theorem State.modBlk_grp (s : State) (id : Nat) (f : Block → Block) : (s.modBlk id f).grp = s.grp := rfl
@[simp] theorem State.modBlk_groups (s : State) (id : Nat) (f : Block → Block) : (s.modBlk id f).groups = s.groups := rfl
@[simp] theorem State.modBlk_launches (s : State) (id : Nat) (f : Block → Block) : (s.modBlk id f).launches = s.launches := rfl
@[simp] theorem State.modBlk_rcbs (s : State) (id : Nat) (f : Block → Block) : (s.modBlk id f).rcbs = s.rcbs := rfl
@[simp] theorem State.modBlk_jobs (s : State) (id : Nat) (f : Block → Block) : (s.modBlk id f).jobs = s.jobs := rfl
@[simp] theorem State.modBlk_wins (s : State) (id : Nat) (f : Block → Block) : (s.modBlk id f).wins = s.wins := rfl
@[simp] theorem State.modBlk_queues (s : State) (id : Nat) (f : Block → Block) : (s.modBlk id f).queues = s.queues := rfl
@[simp] theorem State.modBlk_nodes (s : State) (id : Nat) (f : Block → Block) : (s.modBlk id f).nodes = s.nodes := rfl
@[simp] theorem State.modBlk_cards (s : State) (id : Nat) (f : Block → Block) : (s.modBlk id f).cards = s.cards := rfl
@[simp] theorem State.modBlk_matchTab (s : State) (id : Nat) (f : Block → Block) : (s.modBlk id f).matchTab = s.matchTab := rfl
@[simp] theorem State.modBlk_unmatched (s : State) (id : Nat) (f : Block → Block) : (s.modBlk id f).unmatched = s.unmatched := rfl
@[simp] theorem State.modBlk_cmds (s : State) (id : Nat) (f : Block → Block) : (s.modBlk id f).cmds = s.cmds := rfl
@[simp] theorem State.modBlk_waiters (s : State) (id : Nat) (f : Block → Block) : (s.modBlk id f).waiters = s.waiters := rfl
@[simp] theorem State.modBlk_recs (s : State) (id : Nat) (f : Block → Block) : (s.modBlk id f).recs = s.recs := rfl
@[simp] theorem State.modBlk_tiles (s : State) (id : Nat) (f : Block → Block) : (s.modBlk id f).tiles = s.tiles := rfl
@[simp] theorem State.modBlk_units (s : State) (id : Nat) (f : Block → Block) : (s.modBlk id f).units = s.units := rfl
@[simp] theorem State.modBlk_work (s : State) (id : Nat) (f : Block → Block) : (s.modBlk id f).work = s.work := rfl
@[simp] theorem State.modBlk_outs (s : State) (id : Nat) (f : Block → Block) : (s.modBlk id f).outs = s.outs := rfl
@[simp] theorem State.modBlk_dev (s : State) (id : Nat) (f : Block → Block) : (s.modBlk id f).dev = s.dev := rfl
/-! modGrp -/
@[simp] theorem State.modGrp_now (s : State) (blk grp : Nat) (f : Group → Group) : (s.modGrp blk grp f).now = s.now := rfl
@[simp] theorem State.modGrp_turn (s : State) (blk grp : Nat) (f : Group → Group) : (s.modGrp blk grp f).turn = s.turn := rfl
@[simp] theorem State.modGrp_plan (s : State) (blk grp : Nat) (f : Group → Group) : (s.modGrp blk grp f).plan = s.plan := rfl
@[simp] theorem State.modGrp_freeCtr (s : State) (blk grp : Nat) (f : Group → Group) : (s.modGrp blk grp f).freeCtr = s.freeCtr := rfl
@[simp] theorem State.modGrp_uid (s : State) (blk grp : Nat) (f : Group → Group) : (s.modGrp blk grp f).uid = s.uid := rfl
@[simp] theorem State.modGrp_rotor (s : State) (blk grp : Nat) (f : Group → Group) : (s.modGrp blk grp f).rotor = s.rotor := rfl
@[simp] theorem State.modGrp_mem (s : State) (blk grp : Nat) (f : Group → Group) : (s.modGrp blk grp f).mem = s.mem := rfl
@[simp] theorem State.modGrp_tags (s : State) (blk grp : Nat) (f : Group → Group) : (s.modGrp blk grp f).tags = s.tags := rfl
@[simp] theorem State.modGrp_spd (s : State) (blk grp : Nat) (f : Group → Group) : (s.modGrp blk grp f).spd = s.spd := rfl
@[simp] theorem State.modGrp_spdTags (s : State) (blk grp : Nat) (f : Group → Group) : (s.modGrp blk grp f).spdTags = s.spdTags := rfl
@[simp] theorem State.modGrp_chp (s : State) (blk grp : Nat) (f : Group → Group) : (s.modGrp blk grp f).chp = s.chp := rfl
@[simp] theorem State.modGrp_chpTags (s : State) (blk grp : Nat) (f : Group → Group) : (s.modGrp blk grp f).chpTags = s.chpTags := rfl
@[simp] theorem State.modGrp_written (s : State) (blk grp : Nat) (f : Group → Group) : (s.modGrp blk grp f).written = s.written := rfl
@[simp] theorem State.modGrp_stores (s : State) (blk grp : Nat) (f : Group → Group) : (s.modGrp blk grp f).stores = s.stores := rfl
@[simp] theorem State.modGrp_l1 (s : State) (blk grp : Nat) (f : Group → Group) : (s.modGrp blk grp f).l1 = s.l1 := rfl
@[simp] theorem State.modGrp_icopies (s : State) (blk grp : Nat) (f : Group → Group) : (s.modGrp blk grp f).icopies = s.icopies := rfl
@[simp] theorem State.modGrp_own (s : State) (blk grp : Nat) (f : Group → Group) : (s.modGrp blk grp f).own = s.own := rfl
@[simp] theorem State.modGrp_hostLines (s : State) (blk grp : Nat) (f : Group → Group) : (s.modGrp blk grp f).hostLines = s.hostLines := rfl
@[simp] theorem State.modGrp_hostReqs (s : State) (blk grp : Nat) (f : Group → Group) : (s.modGrp blk grp f).hostReqs = s.hostReqs := rfl
@[simp] theorem State.modGrp_hostHeld (s : State) (blk grp : Nat) (f : Group → Group) : (s.modGrp blk grp f).hostHeld = s.hostHeld := rfl
@[simp] theorem State.modGrp_early (s : State) (blk grp : Nat) (f : Group → Group) : (s.modGrp blk grp f).early = s.early := rfl
@[simp] theorem State.modGrp_hdr (s : State) (blk grp : Nat) (f : Group → Group) : (s.modGrp blk grp f).hdr = s.hdr := rfl
@[simp] theorem State.modGrp_ptrs (s : State) (blk grp : Nat) (f : Group → Group) : (s.modGrp blk grp f).ptrs = s.ptrs := rfl
@[simp] theorem State.modGrp_tlb (s : State) (blk grp : Nat) (f : Group → Group) : (s.modGrp blk grp f).tlb = s.tlb := rfl
@[simp] theorem State.modGrp_aspaces (s : State) (blk grp : Nat) (f : Group → Group) : (s.modGrp blk grp f).aspaces = s.aspaces := rfl
@[simp] theorem State.modGrp_parts (s : State) (blk grp : Nat) (f : Group → Group) : (s.modGrp blk grp f).parts = s.parts := rfl
@[simp] theorem State.modGrp_who (s : State) (blk grp : Nat) (f : Group → Group) : (s.modGrp blk grp f).who = s.who := rfl
@[simp] theorem State.modGrp_blocks (s : State) (blk grp : Nat) (f : Group → Group) : (s.modGrp blk grp f).blocks = s.blocks := rfl
@[simp] theorem State.modGrp_launches (s : State) (blk grp : Nat) (f : Group → Group) : (s.modGrp blk grp f).launches = s.launches := rfl
@[simp] theorem State.modGrp_rcbs (s : State) (blk grp : Nat) (f : Group → Group) : (s.modGrp blk grp f).rcbs = s.rcbs := rfl
@[simp] theorem State.modGrp_jobs (s : State) (blk grp : Nat) (f : Group → Group) : (s.modGrp blk grp f).jobs = s.jobs := rfl
@[simp] theorem State.modGrp_wins (s : State) (blk grp : Nat) (f : Group → Group) : (s.modGrp blk grp f).wins = s.wins := rfl
@[simp] theorem State.modGrp_queues (s : State) (blk grp : Nat) (f : Group → Group) : (s.modGrp blk grp f).queues = s.queues := rfl
@[simp] theorem State.modGrp_nodes (s : State) (blk grp : Nat) (f : Group → Group) : (s.modGrp blk grp f).nodes = s.nodes := rfl
@[simp] theorem State.modGrp_cards (s : State) (blk grp : Nat) (f : Group → Group) : (s.modGrp blk grp f).cards = s.cards := rfl
@[simp] theorem State.modGrp_matchTab (s : State) (blk grp : Nat) (f : Group → Group) : (s.modGrp blk grp f).matchTab = s.matchTab := rfl
@[simp] theorem State.modGrp_unmatched (s : State) (blk grp : Nat) (f : Group → Group) : (s.modGrp blk grp f).unmatched = s.unmatched := rfl
@[simp] theorem State.modGrp_cmds (s : State) (blk grp : Nat) (f : Group → Group) : (s.modGrp blk grp f).cmds = s.cmds := rfl
@[simp] theorem State.modGrp_waiters (s : State) (blk grp : Nat) (f : Group → Group) : (s.modGrp blk grp f).waiters = s.waiters := rfl
@[simp] theorem State.modGrp_recs (s : State) (blk grp : Nat) (f : Group → Group) : (s.modGrp blk grp f).recs = s.recs := rfl
@[simp] theorem State.modGrp_tiles (s : State) (blk grp : Nat) (f : Group → Group) : (s.modGrp blk grp f).tiles = s.tiles := rfl
@[simp] theorem State.modGrp_units (s : State) (blk grp : Nat) (f : Group → Group) : (s.modGrp blk grp f).units = s.units := rfl
@[simp] theorem State.modGrp_work (s : State) (blk grp : Nat) (f : Group → Group) : (s.modGrp blk grp f).work = s.work := rfl
@[simp] theorem State.modGrp_outs (s : State) (blk grp : Nat) (f : Group → Group) : (s.modGrp blk grp f).outs = s.outs := rfl
@[simp] theorem State.modGrp_dev (s : State) (blk grp : Nat) (f : Group → Group) : (s.modGrp blk grp f).dev = s.dev := rfl
/-! modQueue -/
@[simp] theorem State.modQueue_now (s : State) (q : Nat) (f : Queue → Queue) : (s.modQueue q f).now = s.now := rfl
@[simp] theorem State.modQueue_turn (s : State) (q : Nat) (f : Queue → Queue) : (s.modQueue q f).turn = s.turn := rfl
@[simp] theorem State.modQueue_plan (s : State) (q : Nat) (f : Queue → Queue) : (s.modQueue q f).plan = s.plan := rfl
@[simp] theorem State.modQueue_freeCtr (s : State) (q : Nat) (f : Queue → Queue) : (s.modQueue q f).freeCtr = s.freeCtr := rfl
@[simp] theorem State.modQueue_uid (s : State) (q : Nat) (f : Queue → Queue) : (s.modQueue q f).uid = s.uid := rfl
@[simp] theorem State.modQueue_rotor (s : State) (q : Nat) (f : Queue → Queue) : (s.modQueue q f).rotor = s.rotor := rfl
@[simp] theorem State.modQueue_mem (s : State) (q : Nat) (f : Queue → Queue) : (s.modQueue q f).mem = s.mem := rfl
@[simp] theorem State.modQueue_tags (s : State) (q : Nat) (f : Queue → Queue) : (s.modQueue q f).tags = s.tags := rfl
@[simp] theorem State.modQueue_spd (s : State) (q : Nat) (f : Queue → Queue) : (s.modQueue q f).spd = s.spd := rfl
@[simp] theorem State.modQueue_spdTags (s : State) (q : Nat) (f : Queue → Queue) : (s.modQueue q f).spdTags = s.spdTags := rfl
@[simp] theorem State.modQueue_chp (s : State) (q : Nat) (f : Queue → Queue) : (s.modQueue q f).chp = s.chp := rfl
@[simp] theorem State.modQueue_chpTags (s : State) (q : Nat) (f : Queue → Queue) : (s.modQueue q f).chpTags = s.chpTags := rfl
@[simp] theorem State.modQueue_written (s : State) (q : Nat) (f : Queue → Queue) : (s.modQueue q f).written = s.written := rfl
@[simp] theorem State.modQueue_stores (s : State) (q : Nat) (f : Queue → Queue) : (s.modQueue q f).stores = s.stores := rfl
@[simp] theorem State.modQueue_l1 (s : State) (q : Nat) (f : Queue → Queue) : (s.modQueue q f).l1 = s.l1 := rfl
@[simp] theorem State.modQueue_icopies (s : State) (q : Nat) (f : Queue → Queue) : (s.modQueue q f).icopies = s.icopies := rfl
@[simp] theorem State.modQueue_own (s : State) (q : Nat) (f : Queue → Queue) : (s.modQueue q f).own = s.own := rfl
@[simp] theorem State.modQueue_hostLines (s : State) (q : Nat) (f : Queue → Queue) : (s.modQueue q f).hostLines = s.hostLines := rfl
@[simp] theorem State.modQueue_hostReqs (s : State) (q : Nat) (f : Queue → Queue) : (s.modQueue q f).hostReqs = s.hostReqs := rfl
@[simp] theorem State.modQueue_hostHeld (s : State) (q : Nat) (f : Queue → Queue) : (s.modQueue q f).hostHeld = s.hostHeld := rfl
@[simp] theorem State.modQueue_early (s : State) (q : Nat) (f : Queue → Queue) : (s.modQueue q f).early = s.early := rfl
@[simp] theorem State.modQueue_hdr (s : State) (q : Nat) (f : Queue → Queue) : (s.modQueue q f).hdr = s.hdr := rfl
@[simp] theorem State.modQueue_ptrs (s : State) (q : Nat) (f : Queue → Queue) : (s.modQueue q f).ptrs = s.ptrs := rfl
@[simp] theorem State.modQueue_tlb (s : State) (q : Nat) (f : Queue → Queue) : (s.modQueue q f).tlb = s.tlb := rfl
@[simp] theorem State.modQueue_aspaces (s : State) (q : Nat) (f : Queue → Queue) : (s.modQueue q f).aspaces = s.aspaces := rfl
@[simp] theorem State.modQueue_parts (s : State) (q : Nat) (f : Queue → Queue) : (s.modQueue q f).parts = s.parts := rfl
@[simp] theorem State.modQueue_who (s : State) (q : Nat) (f : Queue → Queue) : (s.modQueue q f).who = s.who := rfl
@[simp] theorem State.modQueue_grp (s : State) (q : Nat) (f : Queue → Queue) : (s.modQueue q f).grp = s.grp := rfl
@[simp] theorem State.modQueue_groups (s : State) (q : Nat) (f : Queue → Queue) : (s.modQueue q f).groups = s.groups := rfl
@[simp] theorem State.modQueue_blocks (s : State) (q : Nat) (f : Queue → Queue) : (s.modQueue q f).blocks = s.blocks := rfl
@[simp] theorem State.modQueue_launches (s : State) (q : Nat) (f : Queue → Queue) : (s.modQueue q f).launches = s.launches := rfl
@[simp] theorem State.modQueue_rcbs (s : State) (q : Nat) (f : Queue → Queue) : (s.modQueue q f).rcbs = s.rcbs := rfl
@[simp] theorem State.modQueue_jobs (s : State) (q : Nat) (f : Queue → Queue) : (s.modQueue q f).jobs = s.jobs := rfl
@[simp] theorem State.modQueue_wins (s : State) (q : Nat) (f : Queue → Queue) : (s.modQueue q f).wins = s.wins := rfl
@[simp] theorem State.modQueue_nodes (s : State) (q : Nat) (f : Queue → Queue) : (s.modQueue q f).nodes = s.nodes := rfl
@[simp] theorem State.modQueue_cards (s : State) (q : Nat) (f : Queue → Queue) : (s.modQueue q f).cards = s.cards := rfl
@[simp] theorem State.modQueue_matchTab (s : State) (q : Nat) (f : Queue → Queue) : (s.modQueue q f).matchTab = s.matchTab := rfl
@[simp] theorem State.modQueue_unmatched (s : State) (q : Nat) (f : Queue → Queue) : (s.modQueue q f).unmatched = s.unmatched := rfl
@[simp] theorem State.modQueue_cmds (s : State) (q : Nat) (f : Queue → Queue) : (s.modQueue q f).cmds = s.cmds := rfl
@[simp] theorem State.modQueue_waiters (s : State) (q : Nat) (f : Queue → Queue) : (s.modQueue q f).waiters = s.waiters := rfl
@[simp] theorem State.modQueue_recs (s : State) (q : Nat) (f : Queue → Queue) : (s.modQueue q f).recs = s.recs := rfl
@[simp] theorem State.modQueue_tiles (s : State) (q : Nat) (f : Queue → Queue) : (s.modQueue q f).tiles = s.tiles := rfl
@[simp] theorem State.modQueue_units (s : State) (q : Nat) (f : Queue → Queue) : (s.modQueue q f).units = s.units := rfl
@[simp] theorem State.modQueue_work (s : State) (q : Nat) (f : Queue → Queue) : (s.modQueue q f).work = s.work := rfl
@[simp] theorem State.modQueue_outs (s : State) (q : Nat) (f : Queue → Queue) : (s.modQueue q f).outs = s.outs := rfl
@[simp] theorem State.modQueue_dev (s : State) (q : Nat) (f : Queue → Queue) : (s.modQueue q f).dev = s.dev := rfl
/-! modNode -/
@[simp] theorem State.modNode_now (s : State) (id : Nat) (f : Node → Node) : (s.modNode id f).now = s.now := rfl
@[simp] theorem State.modNode_turn (s : State) (id : Nat) (f : Node → Node) : (s.modNode id f).turn = s.turn := rfl
@[simp] theorem State.modNode_plan (s : State) (id : Nat) (f : Node → Node) : (s.modNode id f).plan = s.plan := rfl
@[simp] theorem State.modNode_freeCtr (s : State) (id : Nat) (f : Node → Node) : (s.modNode id f).freeCtr = s.freeCtr := rfl
@[simp] theorem State.modNode_uid (s : State) (id : Nat) (f : Node → Node) : (s.modNode id f).uid = s.uid := rfl
@[simp] theorem State.modNode_rotor (s : State) (id : Nat) (f : Node → Node) : (s.modNode id f).rotor = s.rotor := rfl
@[simp] theorem State.modNode_mem (s : State) (id : Nat) (f : Node → Node) : (s.modNode id f).mem = s.mem := rfl
@[simp] theorem State.modNode_tags (s : State) (id : Nat) (f : Node → Node) : (s.modNode id f).tags = s.tags := rfl
@[simp] theorem State.modNode_spd (s : State) (id : Nat) (f : Node → Node) : (s.modNode id f).spd = s.spd := rfl
@[simp] theorem State.modNode_spdTags (s : State) (id : Nat) (f : Node → Node) : (s.modNode id f).spdTags = s.spdTags := rfl
@[simp] theorem State.modNode_chp (s : State) (id : Nat) (f : Node → Node) : (s.modNode id f).chp = s.chp := rfl
@[simp] theorem State.modNode_chpTags (s : State) (id : Nat) (f : Node → Node) : (s.modNode id f).chpTags = s.chpTags := rfl
@[simp] theorem State.modNode_written (s : State) (id : Nat) (f : Node → Node) : (s.modNode id f).written = s.written := rfl
@[simp] theorem State.modNode_stores (s : State) (id : Nat) (f : Node → Node) : (s.modNode id f).stores = s.stores := rfl
@[simp] theorem State.modNode_l1 (s : State) (id : Nat) (f : Node → Node) : (s.modNode id f).l1 = s.l1 := rfl
@[simp] theorem State.modNode_icopies (s : State) (id : Nat) (f : Node → Node) : (s.modNode id f).icopies = s.icopies := rfl
@[simp] theorem State.modNode_own (s : State) (id : Nat) (f : Node → Node) : (s.modNode id f).own = s.own := rfl
@[simp] theorem State.modNode_hostLines (s : State) (id : Nat) (f : Node → Node) : (s.modNode id f).hostLines = s.hostLines := rfl
@[simp] theorem State.modNode_hostReqs (s : State) (id : Nat) (f : Node → Node) : (s.modNode id f).hostReqs = s.hostReqs := rfl
@[simp] theorem State.modNode_hostHeld (s : State) (id : Nat) (f : Node → Node) : (s.modNode id f).hostHeld = s.hostHeld := rfl
@[simp] theorem State.modNode_early (s : State) (id : Nat) (f : Node → Node) : (s.modNode id f).early = s.early := rfl
@[simp] theorem State.modNode_hdr (s : State) (id : Nat) (f : Node → Node) : (s.modNode id f).hdr = s.hdr := rfl
@[simp] theorem State.modNode_ptrs (s : State) (id : Nat) (f : Node → Node) : (s.modNode id f).ptrs = s.ptrs := rfl
@[simp] theorem State.modNode_tlb (s : State) (id : Nat) (f : Node → Node) : (s.modNode id f).tlb = s.tlb := rfl
@[simp] theorem State.modNode_aspaces (s : State) (id : Nat) (f : Node → Node) : (s.modNode id f).aspaces = s.aspaces := rfl
@[simp] theorem State.modNode_parts (s : State) (id : Nat) (f : Node → Node) : (s.modNode id f).parts = s.parts := rfl
@[simp] theorem State.modNode_who (s : State) (id : Nat) (f : Node → Node) : (s.modNode id f).who = s.who := rfl
@[simp] theorem State.modNode_grp (s : State) (id : Nat) (f : Node → Node) : (s.modNode id f).grp = s.grp := rfl
@[simp] theorem State.modNode_groups (s : State) (id : Nat) (f : Node → Node) : (s.modNode id f).groups = s.groups := rfl
@[simp] theorem State.modNode_blocks (s : State) (id : Nat) (f : Node → Node) : (s.modNode id f).blocks = s.blocks := rfl
@[simp] theorem State.modNode_launches (s : State) (id : Nat) (f : Node → Node) : (s.modNode id f).launches = s.launches := rfl
@[simp] theorem State.modNode_rcbs (s : State) (id : Nat) (f : Node → Node) : (s.modNode id f).rcbs = s.rcbs := rfl
@[simp] theorem State.modNode_jobs (s : State) (id : Nat) (f : Node → Node) : (s.modNode id f).jobs = s.jobs := rfl
@[simp] theorem State.modNode_wins (s : State) (id : Nat) (f : Node → Node) : (s.modNode id f).wins = s.wins := rfl
@[simp] theorem State.modNode_queues (s : State) (id : Nat) (f : Node → Node) : (s.modNode id f).queues = s.queues := rfl
@[simp] theorem State.modNode_cards (s : State) (id : Nat) (f : Node → Node) : (s.modNode id f).cards = s.cards := rfl
@[simp] theorem State.modNode_matchTab (s : State) (id : Nat) (f : Node → Node) : (s.modNode id f).matchTab = s.matchTab := rfl
@[simp] theorem State.modNode_unmatched (s : State) (id : Nat) (f : Node → Node) : (s.modNode id f).unmatched = s.unmatched := rfl
@[simp] theorem State.modNode_cmds (s : State) (id : Nat) (f : Node → Node) : (s.modNode id f).cmds = s.cmds := rfl
@[simp] theorem State.modNode_waiters (s : State) (id : Nat) (f : Node → Node) : (s.modNode id f).waiters = s.waiters := rfl
@[simp] theorem State.modNode_recs (s : State) (id : Nat) (f : Node → Node) : (s.modNode id f).recs = s.recs := rfl
@[simp] theorem State.modNode_tiles (s : State) (id : Nat) (f : Node → Node) : (s.modNode id f).tiles = s.tiles := rfl
@[simp] theorem State.modNode_units (s : State) (id : Nat) (f : Node → Node) : (s.modNode id f).units = s.units := rfl
@[simp] theorem State.modNode_work (s : State) (id : Nat) (f : Node → Node) : (s.modNode id f).work = s.work := rfl
@[simp] theorem State.modNode_outs (s : State) (id : Nat) (f : Node → Node) : (s.modNode id f).outs = s.outs := rfl
@[simp] theorem State.modNode_dev (s : State) (id : Nat) (f : Node → Node) : (s.modNode id f).dev = s.dev := rfl
/-! modCmd -/
@[simp] theorem State.modCmd_now (s : State) (id : Nat) (f : Cmd → Cmd) : (s.modCmd id f).now = s.now := rfl
@[simp] theorem State.modCmd_turn (s : State) (id : Nat) (f : Cmd → Cmd) : (s.modCmd id f).turn = s.turn := rfl
@[simp] theorem State.modCmd_plan (s : State) (id : Nat) (f : Cmd → Cmd) : (s.modCmd id f).plan = s.plan := rfl
@[simp] theorem State.modCmd_freeCtr (s : State) (id : Nat) (f : Cmd → Cmd) : (s.modCmd id f).freeCtr = s.freeCtr := rfl
@[simp] theorem State.modCmd_uid (s : State) (id : Nat) (f : Cmd → Cmd) : (s.modCmd id f).uid = s.uid := rfl
@[simp] theorem State.modCmd_rotor (s : State) (id : Nat) (f : Cmd → Cmd) : (s.modCmd id f).rotor = s.rotor := rfl
@[simp] theorem State.modCmd_mem (s : State) (id : Nat) (f : Cmd → Cmd) : (s.modCmd id f).mem = s.mem := rfl
@[simp] theorem State.modCmd_tags (s : State) (id : Nat) (f : Cmd → Cmd) : (s.modCmd id f).tags = s.tags := rfl
@[simp] theorem State.modCmd_spd (s : State) (id : Nat) (f : Cmd → Cmd) : (s.modCmd id f).spd = s.spd := rfl
@[simp] theorem State.modCmd_spdTags (s : State) (id : Nat) (f : Cmd → Cmd) : (s.modCmd id f).spdTags = s.spdTags := rfl
@[simp] theorem State.modCmd_chp (s : State) (id : Nat) (f : Cmd → Cmd) : (s.modCmd id f).chp = s.chp := rfl
@[simp] theorem State.modCmd_chpTags (s : State) (id : Nat) (f : Cmd → Cmd) : (s.modCmd id f).chpTags = s.chpTags := rfl
@[simp] theorem State.modCmd_written (s : State) (id : Nat) (f : Cmd → Cmd) : (s.modCmd id f).written = s.written := rfl
@[simp] theorem State.modCmd_stores (s : State) (id : Nat) (f : Cmd → Cmd) : (s.modCmd id f).stores = s.stores := rfl
@[simp] theorem State.modCmd_l1 (s : State) (id : Nat) (f : Cmd → Cmd) : (s.modCmd id f).l1 = s.l1 := rfl
@[simp] theorem State.modCmd_icopies (s : State) (id : Nat) (f : Cmd → Cmd) : (s.modCmd id f).icopies = s.icopies := rfl
@[simp] theorem State.modCmd_own (s : State) (id : Nat) (f : Cmd → Cmd) : (s.modCmd id f).own = s.own := rfl
@[simp] theorem State.modCmd_hostLines (s : State) (id : Nat) (f : Cmd → Cmd) : (s.modCmd id f).hostLines = s.hostLines := rfl
@[simp] theorem State.modCmd_hostReqs (s : State) (id : Nat) (f : Cmd → Cmd) : (s.modCmd id f).hostReqs = s.hostReqs := rfl
@[simp] theorem State.modCmd_hostHeld (s : State) (id : Nat) (f : Cmd → Cmd) : (s.modCmd id f).hostHeld = s.hostHeld := rfl
@[simp] theorem State.modCmd_early (s : State) (id : Nat) (f : Cmd → Cmd) : (s.modCmd id f).early = s.early := rfl
@[simp] theorem State.modCmd_hdr (s : State) (id : Nat) (f : Cmd → Cmd) : (s.modCmd id f).hdr = s.hdr := rfl
@[simp] theorem State.modCmd_ptrs (s : State) (id : Nat) (f : Cmd → Cmd) : (s.modCmd id f).ptrs = s.ptrs := rfl
@[simp] theorem State.modCmd_tlb (s : State) (id : Nat) (f : Cmd → Cmd) : (s.modCmd id f).tlb = s.tlb := rfl
@[simp] theorem State.modCmd_aspaces (s : State) (id : Nat) (f : Cmd → Cmd) : (s.modCmd id f).aspaces = s.aspaces := rfl
@[simp] theorem State.modCmd_parts (s : State) (id : Nat) (f : Cmd → Cmd) : (s.modCmd id f).parts = s.parts := rfl
@[simp] theorem State.modCmd_who (s : State) (id : Nat) (f : Cmd → Cmd) : (s.modCmd id f).who = s.who := rfl
@[simp] theorem State.modCmd_grp (s : State) (id : Nat) (f : Cmd → Cmd) : (s.modCmd id f).grp = s.grp := rfl
@[simp] theorem State.modCmd_groups (s : State) (id : Nat) (f : Cmd → Cmd) : (s.modCmd id f).groups = s.groups := rfl
@[simp] theorem State.modCmd_blocks (s : State) (id : Nat) (f : Cmd → Cmd) : (s.modCmd id f).blocks = s.blocks := rfl
@[simp] theorem State.modCmd_launches (s : State) (id : Nat) (f : Cmd → Cmd) : (s.modCmd id f).launches = s.launches := rfl
@[simp] theorem State.modCmd_rcbs (s : State) (id : Nat) (f : Cmd → Cmd) : (s.modCmd id f).rcbs = s.rcbs := rfl
@[simp] theorem State.modCmd_jobs (s : State) (id : Nat) (f : Cmd → Cmd) : (s.modCmd id f).jobs = s.jobs := rfl
@[simp] theorem State.modCmd_wins (s : State) (id : Nat) (f : Cmd → Cmd) : (s.modCmd id f).wins = s.wins := rfl
@[simp] theorem State.modCmd_queues (s : State) (id : Nat) (f : Cmd → Cmd) : (s.modCmd id f).queues = s.queues := rfl
@[simp] theorem State.modCmd_nodes (s : State) (id : Nat) (f : Cmd → Cmd) : (s.modCmd id f).nodes = s.nodes := rfl
@[simp] theorem State.modCmd_cards (s : State) (id : Nat) (f : Cmd → Cmd) : (s.modCmd id f).cards = s.cards := rfl
@[simp] theorem State.modCmd_matchTab (s : State) (id : Nat) (f : Cmd → Cmd) : (s.modCmd id f).matchTab = s.matchTab := rfl
@[simp] theorem State.modCmd_unmatched (s : State) (id : Nat) (f : Cmd → Cmd) : (s.modCmd id f).unmatched = s.unmatched := rfl
@[simp] theorem State.modCmd_waiters (s : State) (id : Nat) (f : Cmd → Cmd) : (s.modCmd id f).waiters = s.waiters := rfl
@[simp] theorem State.modCmd_recs (s : State) (id : Nat) (f : Cmd → Cmd) : (s.modCmd id f).recs = s.recs := rfl
@[simp] theorem State.modCmd_tiles (s : State) (id : Nat) (f : Cmd → Cmd) : (s.modCmd id f).tiles = s.tiles := rfl
@[simp] theorem State.modCmd_units (s : State) (id : Nat) (f : Cmd → Cmd) : (s.modCmd id f).units = s.units := rfl
@[simp] theorem State.modCmd_work (s : State) (id : Nat) (f : Cmd → Cmd) : (s.modCmd id f).work = s.work := rfl
@[simp] theorem State.modCmd_outs (s : State) (id : Nat) (f : Cmd → Cmd) : (s.modCmd id f).outs = s.outs := rfl
@[simp] theorem State.modCmd_dev (s : State) (id : Nat) (f : Cmd → Cmd) : (s.modCmd id f).dev = s.dev := rfl
/-! modLaunch -/
@[simp] theorem State.modLaunch_now (s : State) (id : Nat) (f : Launch → Launch) : (s.modLaunch id f).now = s.now := rfl
@[simp] theorem State.modLaunch_turn (s : State) (id : Nat) (f : Launch → Launch) : (s.modLaunch id f).turn = s.turn := rfl
@[simp] theorem State.modLaunch_plan (s : State) (id : Nat) (f : Launch → Launch) : (s.modLaunch id f).plan = s.plan := rfl
@[simp] theorem State.modLaunch_freeCtr (s : State) (id : Nat) (f : Launch → Launch) : (s.modLaunch id f).freeCtr = s.freeCtr := rfl
@[simp] theorem State.modLaunch_uid (s : State) (id : Nat) (f : Launch → Launch) : (s.modLaunch id f).uid = s.uid := rfl
@[simp] theorem State.modLaunch_rotor (s : State) (id : Nat) (f : Launch → Launch) : (s.modLaunch id f).rotor = s.rotor := rfl
@[simp] theorem State.modLaunch_mem (s : State) (id : Nat) (f : Launch → Launch) : (s.modLaunch id f).mem = s.mem := rfl
@[simp] theorem State.modLaunch_tags (s : State) (id : Nat) (f : Launch → Launch) : (s.modLaunch id f).tags = s.tags := rfl
@[simp] theorem State.modLaunch_spd (s : State) (id : Nat) (f : Launch → Launch) : (s.modLaunch id f).spd = s.spd := rfl
@[simp] theorem State.modLaunch_spdTags (s : State) (id : Nat) (f : Launch → Launch) : (s.modLaunch id f).spdTags = s.spdTags := rfl
@[simp] theorem State.modLaunch_chp (s : State) (id : Nat) (f : Launch → Launch) : (s.modLaunch id f).chp = s.chp := rfl
@[simp] theorem State.modLaunch_chpTags (s : State) (id : Nat) (f : Launch → Launch) : (s.modLaunch id f).chpTags = s.chpTags := rfl
@[simp] theorem State.modLaunch_written (s : State) (id : Nat) (f : Launch → Launch) : (s.modLaunch id f).written = s.written := rfl
@[simp] theorem State.modLaunch_stores (s : State) (id : Nat) (f : Launch → Launch) : (s.modLaunch id f).stores = s.stores := rfl
@[simp] theorem State.modLaunch_l1 (s : State) (id : Nat) (f : Launch → Launch) : (s.modLaunch id f).l1 = s.l1 := rfl
@[simp] theorem State.modLaunch_icopies (s : State) (id : Nat) (f : Launch → Launch) : (s.modLaunch id f).icopies = s.icopies := rfl
@[simp] theorem State.modLaunch_own (s : State) (id : Nat) (f : Launch → Launch) : (s.modLaunch id f).own = s.own := rfl
@[simp] theorem State.modLaunch_hostLines (s : State) (id : Nat) (f : Launch → Launch) : (s.modLaunch id f).hostLines = s.hostLines := rfl
@[simp] theorem State.modLaunch_hostReqs (s : State) (id : Nat) (f : Launch → Launch) : (s.modLaunch id f).hostReqs = s.hostReqs := rfl
@[simp] theorem State.modLaunch_hostHeld (s : State) (id : Nat) (f : Launch → Launch) : (s.modLaunch id f).hostHeld = s.hostHeld := rfl
@[simp] theorem State.modLaunch_early (s : State) (id : Nat) (f : Launch → Launch) : (s.modLaunch id f).early = s.early := rfl
@[simp] theorem State.modLaunch_hdr (s : State) (id : Nat) (f : Launch → Launch) : (s.modLaunch id f).hdr = s.hdr := rfl
@[simp] theorem State.modLaunch_ptrs (s : State) (id : Nat) (f : Launch → Launch) : (s.modLaunch id f).ptrs = s.ptrs := rfl
@[simp] theorem State.modLaunch_tlb (s : State) (id : Nat) (f : Launch → Launch) : (s.modLaunch id f).tlb = s.tlb := rfl
@[simp] theorem State.modLaunch_aspaces (s : State) (id : Nat) (f : Launch → Launch) : (s.modLaunch id f).aspaces = s.aspaces := rfl
@[simp] theorem State.modLaunch_parts (s : State) (id : Nat) (f : Launch → Launch) : (s.modLaunch id f).parts = s.parts := rfl
@[simp] theorem State.modLaunch_who (s : State) (id : Nat) (f : Launch → Launch) : (s.modLaunch id f).who = s.who := rfl
@[simp] theorem State.modLaunch_grp (s : State) (id : Nat) (f : Launch → Launch) : (s.modLaunch id f).grp = s.grp := rfl
@[simp] theorem State.modLaunch_groups (s : State) (id : Nat) (f : Launch → Launch) : (s.modLaunch id f).groups = s.groups := rfl
@[simp] theorem State.modLaunch_blocks (s : State) (id : Nat) (f : Launch → Launch) : (s.modLaunch id f).blocks = s.blocks := rfl
@[simp] theorem State.modLaunch_rcbs (s : State) (id : Nat) (f : Launch → Launch) : (s.modLaunch id f).rcbs = s.rcbs := rfl
@[simp] theorem State.modLaunch_jobs (s : State) (id : Nat) (f : Launch → Launch) : (s.modLaunch id f).jobs = s.jobs := rfl
@[simp] theorem State.modLaunch_wins (s : State) (id : Nat) (f : Launch → Launch) : (s.modLaunch id f).wins = s.wins := rfl
@[simp] theorem State.modLaunch_queues (s : State) (id : Nat) (f : Launch → Launch) : (s.modLaunch id f).queues = s.queues := rfl
@[simp] theorem State.modLaunch_nodes (s : State) (id : Nat) (f : Launch → Launch) : (s.modLaunch id f).nodes = s.nodes := rfl
@[simp] theorem State.modLaunch_cards (s : State) (id : Nat) (f : Launch → Launch) : (s.modLaunch id f).cards = s.cards := rfl
@[simp] theorem State.modLaunch_matchTab (s : State) (id : Nat) (f : Launch → Launch) : (s.modLaunch id f).matchTab = s.matchTab := rfl
@[simp] theorem State.modLaunch_unmatched (s : State) (id : Nat) (f : Launch → Launch) : (s.modLaunch id f).unmatched = s.unmatched := rfl
@[simp] theorem State.modLaunch_cmds (s : State) (id : Nat) (f : Launch → Launch) : (s.modLaunch id f).cmds = s.cmds := rfl
@[simp] theorem State.modLaunch_waiters (s : State) (id : Nat) (f : Launch → Launch) : (s.modLaunch id f).waiters = s.waiters := rfl
@[simp] theorem State.modLaunch_recs (s : State) (id : Nat) (f : Launch → Launch) : (s.modLaunch id f).recs = s.recs := rfl
@[simp] theorem State.modLaunch_tiles (s : State) (id : Nat) (f : Launch → Launch) : (s.modLaunch id f).tiles = s.tiles := rfl
@[simp] theorem State.modLaunch_units (s : State) (id : Nat) (f : Launch → Launch) : (s.modLaunch id f).units = s.units := rfl
@[simp] theorem State.modLaunch_work (s : State) (id : Nat) (f : Launch → Launch) : (s.modLaunch id f).work = s.work := rfl
@[simp] theorem State.modLaunch_outs (s : State) (id : Nat) (f : Launch → Launch) : (s.modLaunch id f).outs = s.outs := rfl
@[simp] theorem State.modLaunch_dev (s : State) (id : Nat) (f : Launch → Launch) : (s.modLaunch id f).dev = s.dev := rfl
/-! setTile -/
@[simp] theorem State.setTile_now (s : State) (core : Nat) (t : Tile) : (s.setTile core t).now = s.now := rfl
@[simp] theorem State.setTile_turn (s : State) (core : Nat) (t : Tile) : (s.setTile core t).turn = s.turn := rfl
@[simp] theorem State.setTile_plan (s : State) (core : Nat) (t : Tile) : (s.setTile core t).plan = s.plan := rfl
@[simp] theorem State.setTile_freeCtr (s : State) (core : Nat) (t : Tile) : (s.setTile core t).freeCtr = s.freeCtr := rfl
@[simp] theorem State.setTile_uid (s : State) (core : Nat) (t : Tile) : (s.setTile core t).uid = s.uid := rfl
@[simp] theorem State.setTile_rotor (s : State) (core : Nat) (t : Tile) : (s.setTile core t).rotor = s.rotor := rfl
@[simp] theorem State.setTile_mem (s : State) (core : Nat) (t : Tile) : (s.setTile core t).mem = s.mem := rfl
@[simp] theorem State.setTile_tags (s : State) (core : Nat) (t : Tile) : (s.setTile core t).tags = s.tags := rfl
@[simp] theorem State.setTile_spd (s : State) (core : Nat) (t : Tile) : (s.setTile core t).spd = s.spd := rfl
@[simp] theorem State.setTile_spdTags (s : State) (core : Nat) (t : Tile) : (s.setTile core t).spdTags = s.spdTags := rfl
@[simp] theorem State.setTile_chp (s : State) (core : Nat) (t : Tile) : (s.setTile core t).chp = s.chp := rfl
@[simp] theorem State.setTile_chpTags (s : State) (core : Nat) (t : Tile) : (s.setTile core t).chpTags = s.chpTags := rfl
@[simp] theorem State.setTile_written (s : State) (core : Nat) (t : Tile) : (s.setTile core t).written = s.written := rfl
@[simp] theorem State.setTile_stores (s : State) (core : Nat) (t : Tile) : (s.setTile core t).stores = s.stores := rfl
@[simp] theorem State.setTile_l1 (s : State) (core : Nat) (t : Tile) : (s.setTile core t).l1 = s.l1 := rfl
@[simp] theorem State.setTile_icopies (s : State) (core : Nat) (t : Tile) : (s.setTile core t).icopies = s.icopies := rfl
@[simp] theorem State.setTile_own (s : State) (core : Nat) (t : Tile) : (s.setTile core t).own = s.own := rfl
@[simp] theorem State.setTile_hostLines (s : State) (core : Nat) (t : Tile) : (s.setTile core t).hostLines = s.hostLines := rfl
@[simp] theorem State.setTile_hostReqs (s : State) (core : Nat) (t : Tile) : (s.setTile core t).hostReqs = s.hostReqs := rfl
@[simp] theorem State.setTile_hostHeld (s : State) (core : Nat) (t : Tile) : (s.setTile core t).hostHeld = s.hostHeld := rfl
@[simp] theorem State.setTile_early (s : State) (core : Nat) (t : Tile) : (s.setTile core t).early = s.early := rfl
@[simp] theorem State.setTile_hdr (s : State) (core : Nat) (t : Tile) : (s.setTile core t).hdr = s.hdr := rfl
@[simp] theorem State.setTile_ptrs (s : State) (core : Nat) (t : Tile) : (s.setTile core t).ptrs = s.ptrs := rfl
@[simp] theorem State.setTile_tlb (s : State) (core : Nat) (t : Tile) : (s.setTile core t).tlb = s.tlb := rfl
@[simp] theorem State.setTile_aspaces (s : State) (core : Nat) (t : Tile) : (s.setTile core t).aspaces = s.aspaces := rfl
@[simp] theorem State.setTile_parts (s : State) (core : Nat) (t : Tile) : (s.setTile core t).parts = s.parts := rfl
@[simp] theorem State.setTile_who (s : State) (core : Nat) (t : Tile) : (s.setTile core t).who = s.who := rfl
@[simp] theorem State.setTile_grp (s : State) (core : Nat) (t : Tile) : (s.setTile core t).grp = s.grp := rfl
@[simp] theorem State.setTile_groups (s : State) (core : Nat) (t : Tile) : (s.setTile core t).groups = s.groups := rfl
@[simp] theorem State.setTile_blocks (s : State) (core : Nat) (t : Tile) : (s.setTile core t).blocks = s.blocks := rfl
@[simp] theorem State.setTile_launches (s : State) (core : Nat) (t : Tile) : (s.setTile core t).launches = s.launches := rfl
@[simp] theorem State.setTile_rcbs (s : State) (core : Nat) (t : Tile) : (s.setTile core t).rcbs = s.rcbs := rfl
@[simp] theorem State.setTile_jobs (s : State) (core : Nat) (t : Tile) : (s.setTile core t).jobs = s.jobs := rfl
@[simp] theorem State.setTile_wins (s : State) (core : Nat) (t : Tile) : (s.setTile core t).wins = s.wins := rfl
@[simp] theorem State.setTile_queues (s : State) (core : Nat) (t : Tile) : (s.setTile core t).queues = s.queues := rfl
@[simp] theorem State.setTile_nodes (s : State) (core : Nat) (t : Tile) : (s.setTile core t).nodes = s.nodes := rfl
@[simp] theorem State.setTile_cards (s : State) (core : Nat) (t : Tile) : (s.setTile core t).cards = s.cards := rfl
@[simp] theorem State.setTile_matchTab (s : State) (core : Nat) (t : Tile) : (s.setTile core t).matchTab = s.matchTab := rfl
@[simp] theorem State.setTile_unmatched (s : State) (core : Nat) (t : Tile) : (s.setTile core t).unmatched = s.unmatched := rfl
@[simp] theorem State.setTile_cmds (s : State) (core : Nat) (t : Tile) : (s.setTile core t).cmds = s.cmds := rfl
@[simp] theorem State.setTile_waiters (s : State) (core : Nat) (t : Tile) : (s.setTile core t).waiters = s.waiters := rfl
@[simp] theorem State.setTile_recs (s : State) (core : Nat) (t : Tile) : (s.setTile core t).recs = s.recs := rfl
@[simp] theorem State.setTile_units (s : State) (core : Nat) (t : Tile) : (s.setTile core t).units = s.units := rfl
@[simp] theorem State.setTile_work (s : State) (core : Nat) (t : Tile) : (s.setTile core t).work = s.work := rfl
@[simp] theorem State.setTile_outs (s : State) (core : Nat) (t : Tile) : (s.setTile core t).outs = s.outs := rfl
@[simp] theorem State.setTile_dev (s : State) (core : Nat) (t : Tile) : (s.setTile core t).dev = s.dev := rfl

/-! emit -/
@[simp] theorem State.emit_now (s : State) (o : Out) : (s.emit o).now = s.now := rfl
@[simp] theorem State.emit_turn (s : State) (o : Out) : (s.emit o).turn = s.turn := rfl
@[simp] theorem State.emit_plan (s : State) (o : Out) : (s.emit o).plan = s.plan := rfl
@[simp] theorem State.emit_freeCtr (s : State) (o : Out) : (s.emit o).freeCtr = s.freeCtr := rfl
@[simp] theorem State.emit_uid (s : State) (o : Out) : (s.emit o).uid = s.uid := rfl
@[simp] theorem State.emit_rotor (s : State) (o : Out) : (s.emit o).rotor = s.rotor := rfl
@[simp] theorem State.emit_mem (s : State) (o : Out) : (s.emit o).mem = s.mem := rfl
@[simp] theorem State.emit_tags (s : State) (o : Out) : (s.emit o).tags = s.tags := rfl
@[simp] theorem State.emit_spd (s : State) (o : Out) : (s.emit o).spd = s.spd := rfl
@[simp] theorem State.emit_spdTags (s : State) (o : Out) : (s.emit o).spdTags = s.spdTags := rfl
@[simp] theorem State.emit_chp (s : State) (o : Out) : (s.emit o).chp = s.chp := rfl
@[simp] theorem State.emit_chpTags (s : State) (o : Out) : (s.emit o).chpTags = s.chpTags := rfl
@[simp] theorem State.emit_written (s : State) (o : Out) : (s.emit o).written = s.written := rfl
@[simp] theorem State.emit_stores (s : State) (o : Out) : (s.emit o).stores = s.stores := rfl
@[simp] theorem State.emit_l1 (s : State) (o : Out) : (s.emit o).l1 = s.l1 := rfl
@[simp] theorem State.emit_icopies (s : State) (o : Out) : (s.emit o).icopies = s.icopies := rfl
@[simp] theorem State.emit_own (s : State) (o : Out) : (s.emit o).own = s.own := rfl
@[simp] theorem State.emit_hostLines (s : State) (o : Out) : (s.emit o).hostLines = s.hostLines := rfl
@[simp] theorem State.emit_hostReqs (s : State) (o : Out) : (s.emit o).hostReqs = s.hostReqs := rfl
@[simp] theorem State.emit_hostHeld (s : State) (o : Out) : (s.emit o).hostHeld = s.hostHeld := rfl
@[simp] theorem State.emit_early (s : State) (o : Out) : (s.emit o).early = s.early := rfl
@[simp] theorem State.emit_hdr (s : State) (o : Out) : (s.emit o).hdr = s.hdr := rfl
@[simp] theorem State.emit_ptrs (s : State) (o : Out) : (s.emit o).ptrs = s.ptrs := rfl
@[simp] theorem State.emit_tlb (s : State) (o : Out) : (s.emit o).tlb = s.tlb := rfl
@[simp] theorem State.emit_aspaces (s : State) (o : Out) : (s.emit o).aspaces = s.aspaces := rfl
@[simp] theorem State.emit_parts (s : State) (o : Out) : (s.emit o).parts = s.parts := rfl
@[simp] theorem State.emit_who (s : State) (o : Out) : (s.emit o).who = s.who := rfl
@[simp] theorem State.emit_grp (s : State) (o : Out) : (s.emit o).grp = s.grp := rfl
@[simp] theorem State.emit_groups (s : State) (o : Out) : (s.emit o).groups = s.groups := rfl
@[simp] theorem State.emit_blocks (s : State) (o : Out) : (s.emit o).blocks = s.blocks := rfl
@[simp] theorem State.emit_launches (s : State) (o : Out) : (s.emit o).launches = s.launches := rfl
@[simp] theorem State.emit_rcbs (s : State) (o : Out) : (s.emit o).rcbs = s.rcbs := rfl
@[simp] theorem State.emit_jobs (s : State) (o : Out) : (s.emit o).jobs = s.jobs := rfl
@[simp] theorem State.emit_wins (s : State) (o : Out) : (s.emit o).wins = s.wins := rfl
@[simp] theorem State.emit_queues (s : State) (o : Out) : (s.emit o).queues = s.queues := rfl
@[simp] theorem State.emit_nodes (s : State) (o : Out) : (s.emit o).nodes = s.nodes := rfl
@[simp] theorem State.emit_cards (s : State) (o : Out) : (s.emit o).cards = s.cards := rfl
@[simp] theorem State.emit_matchTab (s : State) (o : Out) : (s.emit o).matchTab = s.matchTab := rfl
@[simp] theorem State.emit_unmatched (s : State) (o : Out) : (s.emit o).unmatched = s.unmatched := rfl
@[simp] theorem State.emit_cmds (s : State) (o : Out) : (s.emit o).cmds = s.cmds := rfl
@[simp] theorem State.emit_waiters (s : State) (o : Out) : (s.emit o).waiters = s.waiters := rfl
@[simp] theorem State.emit_recs (s : State) (o : Out) : (s.emit o).recs = s.recs := rfl
@[simp] theorem State.emit_tiles (s : State) (o : Out) : (s.emit o).tiles = s.tiles := rfl
@[simp] theorem State.emit_units (s : State) (o : Out) : (s.emit o).units = s.units := rfl
@[simp] theorem State.emit_work (s : State) (o : Out) : (s.emit o).work = s.work := rfl
@[simp] theorem State.emit_dev (s : State) (o : Out) : (s.emit o).dev = s.dev := rfl
@[simp] theorem State.emit_outs (s : State) (o : Out) : (s.emit o).outs = s.outs ++ [o] := rfl
/-! account -/
@[simp] theorem State.account_now (s : State) (p j o a b c : Nat) : (s.account p j o a b c).now = s.now := rfl
@[simp] theorem State.account_turn (s : State) (p j o a b c : Nat) : (s.account p j o a b c).turn = s.turn := rfl
@[simp] theorem State.account_plan (s : State) (p j o a b c : Nat) : (s.account p j o a b c).plan = s.plan := rfl
@[simp] theorem State.account_freeCtr (s : State) (p j o a b c : Nat) : (s.account p j o a b c).freeCtr = s.freeCtr := rfl
@[simp] theorem State.account_uid (s : State) (p j o a b c : Nat) : (s.account p j o a b c).uid = s.uid := rfl
@[simp] theorem State.account_rotor (s : State) (p j o a b c : Nat) : (s.account p j o a b c).rotor = s.rotor := rfl
@[simp] theorem State.account_mem (s : State) (p j o a b c : Nat) : (s.account p j o a b c).mem = s.mem := rfl
@[simp] theorem State.account_tags (s : State) (p j o a b c : Nat) : (s.account p j o a b c).tags = s.tags := rfl
@[simp] theorem State.account_spd (s : State) (p j o a b c : Nat) : (s.account p j o a b c).spd = s.spd := rfl
@[simp] theorem State.account_spdTags (s : State) (p j o a b c : Nat) : (s.account p j o a b c).spdTags = s.spdTags := rfl
@[simp] theorem State.account_chp (s : State) (p j o a b c : Nat) : (s.account p j o a b c).chp = s.chp := rfl
@[simp] theorem State.account_chpTags (s : State) (p j o a b c : Nat) : (s.account p j o a b c).chpTags = s.chpTags := rfl
@[simp] theorem State.account_written (s : State) (p j o a b c : Nat) : (s.account p j o a b c).written = s.written := rfl
@[simp] theorem State.account_stores (s : State) (p j o a b c : Nat) : (s.account p j o a b c).stores = s.stores := rfl
@[simp] theorem State.account_l1 (s : State) (p j o a b c : Nat) : (s.account p j o a b c).l1 = s.l1 := rfl
@[simp] theorem State.account_icopies (s : State) (p j o a b c : Nat) : (s.account p j o a b c).icopies = s.icopies := rfl
@[simp] theorem State.account_own (s : State) (p j o a b c : Nat) : (s.account p j o a b c).own = s.own := rfl
@[simp] theorem State.account_hostLines (s : State) (p j o a b c : Nat) : (s.account p j o a b c).hostLines = s.hostLines := rfl
@[simp] theorem State.account_hostReqs (s : State) (p j o a b c : Nat) : (s.account p j o a b c).hostReqs = s.hostReqs := rfl
@[simp] theorem State.account_hostHeld (s : State) (p j o a b c : Nat) : (s.account p j o a b c).hostHeld = s.hostHeld := rfl
@[simp] theorem State.account_early (s : State) (p j o a b c : Nat) : (s.account p j o a b c).early = s.early := rfl
@[simp] theorem State.account_hdr (s : State) (p j o a b c : Nat) : (s.account p j o a b c).hdr = s.hdr := rfl
@[simp] theorem State.account_ptrs (s : State) (p j o a b c : Nat) : (s.account p j o a b c).ptrs = s.ptrs := rfl
@[simp] theorem State.account_tlb (s : State) (p j o a b c : Nat) : (s.account p j o a b c).tlb = s.tlb := rfl
@[simp] theorem State.account_aspaces (s : State) (p j o a b c : Nat) : (s.account p j o a b c).aspaces = s.aspaces := rfl
@[simp] theorem State.account_parts (s : State) (p j o a b c : Nat) : (s.account p j o a b c).parts = s.parts := rfl
@[simp] theorem State.account_who (s : State) (p j o a b c : Nat) : (s.account p j o a b c).who = s.who := rfl
@[simp] theorem State.account_grp (s : State) (p j o a b c : Nat) : (s.account p j o a b c).grp = s.grp := rfl
@[simp] theorem State.account_groups (s : State) (p j o a b c : Nat) : (s.account p j o a b c).groups = s.groups := rfl
@[simp] theorem State.account_blocks (s : State) (p j o a b c : Nat) : (s.account p j o a b c).blocks = s.blocks := rfl
@[simp] theorem State.account_launches (s : State) (p j o a b c : Nat) : (s.account p j o a b c).launches = s.launches := rfl
@[simp] theorem State.account_rcbs (s : State) (p j o a b c : Nat) : (s.account p j o a b c).rcbs = s.rcbs := rfl
@[simp] theorem State.account_wins (s : State) (p j o a b c : Nat) : (s.account p j o a b c).wins = s.wins := rfl
@[simp] theorem State.account_queues (s : State) (p j o a b c : Nat) : (s.account p j o a b c).queues = s.queues := rfl
@[simp] theorem State.account_nodes (s : State) (p j o a b c : Nat) : (s.account p j o a b c).nodes = s.nodes := rfl
@[simp] theorem State.account_cards (s : State) (p j o a b c : Nat) : (s.account p j o a b c).cards = s.cards := rfl
@[simp] theorem State.account_matchTab (s : State) (p j o a b c : Nat) : (s.account p j o a b c).matchTab = s.matchTab := rfl
@[simp] theorem State.account_unmatched (s : State) (p j o a b c : Nat) : (s.account p j o a b c).unmatched = s.unmatched := rfl
@[simp] theorem State.account_cmds (s : State) (p j o a b c : Nat) : (s.account p j o a b c).cmds = s.cmds := rfl
@[simp] theorem State.account_waiters (s : State) (p j o a b c : Nat) : (s.account p j o a b c).waiters = s.waiters := rfl
@[simp] theorem State.account_recs (s : State) (p j o a b c : Nat) : (s.account p j o a b c).recs = s.recs := rfl
@[simp] theorem State.account_tiles (s : State) (p j o a b c : Nat) : (s.account p j o a b c).tiles = s.tiles := rfl
@[simp] theorem State.account_units (s : State) (p j o a b c : Nat) : (s.account p j o a b c).units = s.units := rfl
@[simp] theorem State.account_work (s : State) (p j o a b c : Nat) : (s.account p j o a b c).work = s.work := rfl
@[simp] theorem State.account_dev (s : State) (p j o a b c : Nat) : (s.account p j o a b c).dev = s.dev := rfl
@[simp] theorem State.account_outs (s : State) (p j o a b c : Nat) : (s.account p j o a b c).outs = s.outs := rfl
/-! The slots of a group -/
@[simp] theorem Group.setSlot_blk (g : Group) (b : Bool) (p : Option Path) : (g.setSlot b p).blk = g.blk := by cases b <;> rfl
@[simp] theorem Group.modSlot_blk (g : Group) (b : Bool) (f : Path → Path) : (g.modSlot b f).blk = g.blk := Group.setSlot_blk _ _ _
@[simp] theorem Group.setSlot_grp (g : Group) (b : Bool) (p : Option Path) : (g.setSlot b p).grp = g.grp := by cases b <;> rfl
@[simp] theorem Group.modSlot_grp (g : Group) (b : Bool) (f : Path → Path) : (g.modSlot b f).grp = g.grp := Group.setSlot_grp _ _ _
@[simp] theorem Group.setSlot_pid (g : Group) (b : Bool) (p : Option Path) : (g.setSlot b p).pid = g.pid := by cases b <;> rfl
@[simp] theorem Group.modSlot_pid (g : Group) (b : Bool) (f : Path → Path) : (g.modSlot b f).pid = g.pid := Group.setSlot_pid _ _ _
@[simp] theorem Group.setSlot_core (g : Group) (b : Bool) (p : Option Path) : (g.setSlot b p).core = g.core := by cases b <;> rfl
@[simp] theorem Group.modSlot_core (g : Group) (b : Bool) (f : Path → Path) : (g.modSlot b f).core = g.core := Group.setSlot_core _ _ _
@[simp] theorem Group.setSlot_part (g : Group) (b : Bool) (p : Option Path) : (g.setSlot b p).part = g.part := by cases b <;> rfl
@[simp] theorem Group.modSlot_part (g : Group) (b : Bool) (f : Path → Path) : (g.modSlot b f).part = g.part := Group.setSlot_part _ _ _
@[simp] theorem Group.setSlot_st (g : Group) (b : Bool) (p : Option Path) : (g.setSlot b p).st = g.st := by cases b <;> rfl
@[simp] theorem Group.modSlot_st (g : Group) (b : Bool) (f : Path → Path) : (g.modSlot b f).st = g.st := Group.setSlot_st _ _ _
@[simp] theorem Group.setSlot_all (g : Group) (b : Bool) (p : Option Path) : (g.setSlot b p).all = g.all := by cases b <;> rfl
@[simp] theorem Group.modSlot_all (g : Group) (b : Bool) (f : Path → Path) : (g.modSlot b f).all = g.all := Group.setSlot_all _ _ _
@[simp] theorem Group.setSlot_present (g : Group) (b : Bool) (p : Option Path) : (g.setSlot b p).present = g.present := by cases b <;> rfl
@[simp] theorem Group.modSlot_present (g : Group) (b : Bool) (f : Path → Path) : (g.modSlot b f).present = g.present := Group.setSlot_present _ _ _
@[simp] theorem Group.setSlot_allot (g : Group) (b : Bool) (p : Option Path) : (g.setSlot b p).allot = g.allot := by cases b <;> rfl
@[simp] theorem Group.modSlot_allot (g : Group) (b : Bool) (f : Path → Path) : (g.modSlot b f).allot = g.allot := Group.setSlot_allot _ _ _
@[simp] theorem Group.setSlot_v (g : Group) (b : Bool) (p : Option Path) : (g.setSlot b p).v = g.v := by cases b <;> rfl
@[simp] theorem Group.modSlot_v (g : Group) (b : Bool) (f : Path → Path) : (g.modSlot b f).v = g.v := Group.setSlot_v _ _ _
@[simp] theorem Group.setSlot_g (g : Group) (b : Bool) (p : Option Path) : (g.setSlot b p).g = g.g := by cases b <;> rfl
@[simp] theorem Group.modSlot_g (g : Group) (b : Bool) (f : Path → Path) : (g.modSlot b f).g = g.g := Group.setSlot_g _ _ _
@[simp] theorem Group.setSlot_p (g : Group) (b : Bool) (p : Option Path) : (g.setSlot b p).p = g.p := by cases b <;> rfl
@[simp] theorem Group.modSlot_p (g : Group) (b : Bool) (f : Path → Path) : (g.modSlot b f).p = g.p := Group.setSlot_p _ _ _
@[simp] theorem Group.setSlot_x (g : Group) (b : Bool) (p : Option Path) : (g.setSlot b p).x = g.x := by cases b <;> rfl
@[simp] theorem Group.modSlot_x (g : Group) (b : Bool) (f : Path → Path) : (g.modSlot b f).x = g.x := Group.setSlot_x _ _ _
@[simp] theorem Group.setSlot_stack (g : Group) (b : Bool) (p : Option Path) : (g.setSlot b p).stack = g.stack := by cases b <;> rfl
@[simp] theorem Group.modSlot_stack (g : Group) (b : Bool) (f : Path → Path) : (g.modSlot b f).stack = g.stack := Group.setSlot_stack _ _ _
@[simp] theorem Group.setSlot_frames (g : Group) (b : Bool) (p : Option Path) : (g.setSlot b p).frames = g.frames := by cases b <;> rfl
@[simp] theorem Group.modSlot_frames (g : Group) (b : Bool) (f : Path → Path) : (g.modSlot b f).frames = g.frames := Group.setSlot_frames _ _ _
@[simp] theorem Group.setSlot_ld (g : Group) (b : Bool) (p : Option Path) : (g.setSlot b p).ld = g.ld := by cases b <;> rfl
@[simp] theorem Group.modSlot_ld (g : Group) (b : Bool) (f : Path → Path) : (g.modSlot b f).ld = g.ld := Group.setSlot_ld _ _ _
@[simp] theorem Group.setSlot_stc (g : Group) (b : Bool) (p : Option Path) : (g.setSlot b p).stc = g.stc := by cases b <;> rfl
@[simp] theorem Group.modSlot_stc (g : Group) (b : Bool) (f : Path → Path) : (g.modSlot b f).stc = g.stc := Group.setSlot_stc _ _ _
@[simp] theorem Group.setSlot_cp (g : Group) (b : Bool) (p : Option Path) : (g.setSlot b p).cp = g.cp := by cases b <;> rfl
@[simp] theorem Group.modSlot_cp (g : Group) (b : Bool) (f : Path → Path) : (g.modSlot b f).cp = g.cp := Group.setSlot_cp _ _ _
@[simp] theorem Group.setSlot_sy (g : Group) (b : Bool) (p : Option Path) : (g.setSlot b p).sy = g.sy := by cases b <;> rfl
@[simp] theorem Group.modSlot_sy (g : Group) (b : Bool) (f : Path → Path) : (g.modSlot b f).sy = g.sy := Group.setSlot_sy _ _ _
@[simp] theorem Group.setSlot_busy (g : Group) (b : Bool) (p : Option Path) : (g.setSlot b p).busy = g.busy := by cases b <;> rfl
@[simp] theorem Group.modSlot_busy (g : Group) (b : Bool) (f : Path → Path) : (g.modSlot b f).busy = g.busy := Group.setSlot_busy _ _ _
@[simp] theorem Group.setSlot_tokFault (g : Group) (b : Bool) (p : Option Path) : (g.setSlot b p).tokFault = g.tokFault := by cases b <;> rfl
@[simp] theorem Group.modSlot_tokFault (g : Group) (b : Bool) (f : Path → Path) : (g.modSlot b f).tokFault = g.tokFault := Group.setSlot_tokFault _ _ _
@[simp] theorem Group.setSlot_pend (g : Group) (b : Bool) (p : Option Path) : (g.setSlot b p).pend = g.pend := by cases b <;> rfl
@[simp] theorem Group.modSlot_pend (g : Group) (b : Bool) (f : Path → Path) : (g.modSlot b f).pend = g.pend := Group.setSlot_pend _ _ _
@[simp] theorem Group.setSlot_fcause (g : Group) (b : Bool) (p : Option Path) : (g.setSlot b p).fcause = g.fcause := by cases b <;> rfl
@[simp] theorem Group.modSlot_fcause (g : Group) (b : Bool) (f : Path → Path) : (g.modSlot b f).fcause = g.fcause := Group.setSlot_fcause _ _ _
@[simp] theorem Group.setSlot_faddr (g : Group) (b : Bool) (p : Option Path) : (g.setSlot b p).faddr = g.faddr := by cases b <;> rfl
@[simp] theorem Group.modSlot_faddr (g : Group) (b : Bool) (f : Path → Path) : (g.modSlot b f).faddr = g.faddr := Group.setSlot_faddr _ _ _
@[simp] theorem Group.setSlot_tcode (g : Group) (b : Bool) (p : Option Path) : (g.setSlot b p).tcode = g.tcode := by cases b <;> rfl
@[simp] theorem Group.modSlot_tcode (g : Group) (b : Bool) (f : Path → Path) : (g.modSlot b f).tcode = g.tcode := Group.setSlot_tcode _ _ _
@[simp] theorem Group.setSlot_trapvec (g : Group) (b : Bool) (p : Option Path) : (g.setSlot b p).trapvec = g.trapvec := by cases b <;> rfl
@[simp] theorem Group.modSlot_trapvec (g : Group) (b : Bool) (f : Path → Path) : (g.modSlot b f).trapvec = g.trapvec := Group.setSlot_trapvec _ _ _
@[simp] theorem Group.setSlot_dispatch (g : Group) (b : Bool) (p : Option Path) : (g.setSlot b p).dispatch = g.dispatch := by cases b <;> rfl
@[simp] theorem Group.modSlot_dispatch (g : Group) (b : Bool) (f : Path → Path) : (g.modSlot b f).dispatch = g.dispatch := Group.setSlot_dispatch _ _ _
@[simp] theorem Group.setSlot_nbase (g : Group) (b : Bool) (p : Option Path) : (g.setSlot b p).nbase = g.nbase := by cases b <;> rfl
@[simp] theorem Group.modSlot_nbase (g : Group) (b : Bool) (f : Path → Path) : (g.modSlot b f).nbase = g.nbase := Group.setSlot_nbase _ _ _
@[simp] theorem Group.setSlot_ntop (g : Group) (b : Bool) (p : Option Path) : (g.setSlot b p).ntop = g.ntop := by cases b <;> rfl
@[simp] theorem Group.modSlot_ntop (g : Group) (b : Bool) (f : Path → Path) : (g.modSlot b f).ntop = g.ntop := Group.setSlot_ntop _ _ _
@[simp] theorem Group.setSlot_nlimit (g : Group) (b : Bool) (p : Option Path) : (g.setSlot b p).nlimit = g.nlimit := by cases b <;> rfl
@[simp] theorem Group.modSlot_nlimit (g : Group) (b : Bool) (f : Path → Path) : (g.modSlot b f).nlimit = g.nlimit := Group.setSlot_nlimit _ _ _
@[simp] theorem Group.setSlot_idempc (g : Group) (b : Bool) (p : Option Path) : (g.setSlot b p).idempc = g.idempc := by cases b <;> rfl
@[simp] theorem Group.modSlot_idempc (g : Group) (b : Bool) (f : Path → Path) : (g.modSlot b f).idempc = g.idempc := Group.setSlot_idempc _ _ _
@[simp] theorem Group.setSlot_idemMask (g : Group) (b : Bool) (p : Option Path) : (g.setSlot b p).idemMask = g.idemMask := by cases b <;> rfl
@[simp] theorem Group.modSlot_idemMask (g : Group) (b : Bool) (f : Path → Path) : (g.modSlot b f).idemMask = g.idemMask := Group.setSlot_idemMask _ _ _
@[simp] theorem Group.setSlot_idemMode (g : Group) (b : Bool) (p : Option Path) : (g.setSlot b p).idemMode = g.idemMode := by cases b <;> rfl
@[simp] theorem Group.modSlot_idemMode (g : Group) (b : Bool) (f : Path → Path) : (g.modSlot b f).idemMode = g.idemMode := Group.setSlot_idemMode _ _ _
@[simp] theorem Group.setSlot_savebase (g : Group) (b : Bool) (p : Option Path) : (g.setSlot b p).savebase = g.savebase := by cases b <;> rfl
@[simp] theorem Group.modSlot_savebase (g : Group) (b : Bool) (f : Path → Path) : (g.modSlot b f).savebase = g.savebase := Group.setSlot_savebase _ _ _
@[simp] theorem Group.setSlot_savebudget (g : Group) (b : Bool) (p : Option Path) : (g.setSlot b p).savebudget = g.savebudget := by cases b <;> rfl
@[simp] theorem Group.modSlot_savebudget (g : Group) (b : Bool) (f : Path → Path) : (g.modSlot b f).savebudget = g.savebudget := Group.setSlot_savebudget _ _ _
@[simp] theorem Group.setSlot_gcmode (g : Group) (b : Bool) (p : Option Path) : (g.setSlot b p).gcmode = g.gcmode := by cases b <;> rfl
@[simp] theorem Group.modSlot_gcmode (g : Group) (b : Bool) (f : Path → Path) : (g.modSlot b f).gcmode = g.gcmode := Group.setSlot_gcmode _ _ _
@[simp] theorem Group.setSlot_depth (g : Group) (b : Bool) (p : Option Path) : (g.setSlot b p).depth = g.depth := by cases b <;> rfl
@[simp] theorem Group.modSlot_depth (g : Group) (b : Bool) (f : Path → Path) : (g.modSlot b f).depth = g.depth := Group.setSlot_depth _ _ _
@[simp] theorem Group.setSlot_lanBase (g : Group) (b : Bool) (p : Option Path) : (g.setSlot b p).lanBase = g.lanBase := by cases b <;> rfl
@[simp] theorem Group.modSlot_lanBase (g : Group) (b : Bool) (f : Path → Path) : (g.modSlot b f).lanBase = g.lanBase := Group.setSlot_lanBase _ _ _
@[simp] theorem Group.setSlot_lanSize (g : Group) (b : Bool) (p : Option Path) : (g.setSlot b p).lanSize = g.lanSize := by cases b <;> rfl
@[simp] theorem Group.modSlot_lanSize (g : Group) (b : Bool) (f : Path → Path) : (g.modSlot b f).lanSize = g.lanSize := Group.setSlot_lanSize _ _ _
@[simp] theorem Group.setSlot_age (g : Group) (b : Bool) (p : Option Path) : (g.setSlot b p).age = g.age := by cases b <;> rfl
@[simp] theorem Group.modSlot_age (g : Group) (b : Bool) (f : Path → Path) : (g.modSlot b f).age = g.age := Group.setSlot_age _ _ _
@[simp] theorem Group.setSlot_saveFrom (g : Group) (b : Bool) (p : Option Path) : (g.setSlot b p).saveFrom = g.saveFrom := by cases b <;> rfl
@[simp] theorem Group.modSlot_saveFrom (g : Group) (b : Bool) (f : Path → Path) : (g.modSlot b f).saveFrom = g.saveFrom := Group.setSlot_saveFrom _ _ _
@[simp] theorem Group.setSlot_saveFrozen (g : Group) (b : Bool) (p : Option Path) : (g.setSlot b p).saveFrozen = g.saveFrozen := by cases b <;> rfl
@[simp] theorem Group.modSlot_saveFrozen (g : Group) (b : Bool) (f : Path → Path) : (g.modSlot b f).saveFrozen = g.saveFrozen := Group.setSlot_saveFrozen _ _ _
@[simp] theorem Group.setSlot_fused (g : Group) (b : Bool) (p : Option Path) : (g.setSlot b p).fused = g.fused := by cases b <;> rfl
@[simp] theorem Group.modSlot_fused (g : Group) (b : Bool) (f : Path → Path) : (g.modSlot b f).fused = g.fused := Group.setSlot_fused _ _ _
@[simp] theorem Group.setSlot_saveAt (g : Group) (b : Bool) (p : Option Path) : (g.setSlot b p).saveAt = g.saveAt := by cases b <;> rfl
@[simp] theorem Group.modSlot_saveAt (g : Group) (b : Bool) (f : Path → Path) : (g.modSlot b f).saveAt = g.saveAt := Group.setSlot_saveAt _ _ _
@[simp] theorem Group.setSlot_saved0 (g : Group) (b : Bool) (p : Option Path) : (g.setSlot b p).saved0 = g.saved0 := by cases b <;> rfl
@[simp] theorem Group.modSlot_saved0 (g : Group) (b : Bool) (f : Path → Path) : (g.modSlot b f).saved0 = g.saved0 := Group.setSlot_saved0 _ _ _
@[simp] theorem Group.setSlot_saved1 (g : Group) (b : Bool) (p : Option Path) : (g.setSlot b p).saved1 = g.saved1 := by cases b <;> rfl
@[simp] theorem Group.modSlot_saved1 (g : Group) (b : Bool) (f : Path → Path) : (g.modSlot b f).saved1 = g.saved1 := Group.setSlot_saved1 _ _ _
@[simp] theorem Group.setSlot_under (g : Group) (b : Bool) (p : Option Path) : (g.setSlot b p).under = g.under := by cases b <;> rfl
@[simp] theorem Group.modSlot_under (g : Group) (b : Bool) (f : Path → Path) : (g.modSlot b f).under = g.under := Group.setSlot_under _ _ _
@[simp] theorem Group.setSlot_image (g : Group) (b : Bool) (p : Option Path) : (g.setSlot b p).image = g.image := by cases b <;> rfl
@[simp] theorem Group.modSlot_image (g : Group) (b : Bool) (f : Path → Path) : (g.modSlot b f).image = g.image := Group.setSlot_image _ _ _
@[simp] theorem Group.slot_setSlot (g : Group) (b : Bool) (p : Option Path) : (g.setSlot b p).slot b = p := by cases b <;> rfl
@[simp] theorem Group.slot_setSlot_other (g : Group) (b : Bool) (p : Option Path) : (g.setSlot b p).slot (!b) = g.slot (!b) := by
  cases b <;> rfl
@[simp] theorem Group.slot_modSlot (g : Group) (b : Bool) (f : Path → Path) : (g.modSlot b f).slot b = (g.slot b).map f :=
  Group.slot_setSlot _ _ _
@[simp] theorem Group.slot_modSlot_other (g : Group) (b : Bool) (f : Path → Path) : (g.modSlot b f).slot (!b) = g.slot (!b) :=
  Group.slot_setSlot_other _ _ _

end Sys2Proof.Machine
end

