-- ==== Sys2Proof/Laws/Frame.lean ====
section
/-! SUPPORT. What the shared operations over a group leave alone: registers without pending results, and the system registers. -/
namespace Sys2Proof.Machine.Claim

/-- A group keeps its registers but for those of ds, and every write pending after was pending before or goes to ds. -/
def Keeps (ds : List RegName) (g h : Group) : Prop :=
  KeepsRegs ds g h ∧ ∀ k ∈ h.pend, ∀ w ∈ k.writes, (∃ c ∈ g.pend, w ∈ c.writes) ∨ (w.reg ∈ ds ∧ inLane w)

variable {ds : List RegName} {g h j : Group}

theorem Keeps.quiet (k : Keeps ds g h) {r : RegName} (hr : r ∉ ds) (hq : quiet g r) : quiet h r := by
  intro c hc w hw
  rcases k.2 c hc w hw with ⟨c', h1, h2⟩ | h1
  · exact hq c' h1 w h2
  · exact ⟨fun e => hr (e ▸ h1.1), h1.2⟩

theorem Keeps.refl : Keeps ds g g := ⟨⟨fun _ _ _ _ _ => rfl, fun _ _ _ => rfl, fun _ _ _ => rfl, rfl⟩, fun k h _ hw => .inl ⟨k, h, hw⟩⟩

theorem Keeps.trans (a : Keeps ds g h) (b : Keeps ds h j) : Keeps ds g j := by
  refine ⟨⟨?_, ?_, ?_, ?_⟩, ?_⟩
  · exact fun n l hl hn hq => (b.1.1 n l hl hn (a.quiet hn hq)).trans (a.1.1 n l hl hn hq)
  · exact fun n hn hq => (b.1.2.1 n hn (a.quiet hn hq)).trans (a.1.2.1 n hn hq)
  · exact fun n hn hq => (b.1.2.2.1 n hn (a.quiet hn hq)).trans (a.1.2.2.1 n hn hq)
  · have ha := a.1.2.2.2
    have hb := b.1.2.2.2
    rw [ha] at hb
    exact hb
  · intro k hk w hw
    rcases b.2 k hk w hw with ⟨c, h1, h2⟩ | h1
    · exact a.2 c h1 w h2
    · exact .inr h1

/-- A change of counters, paths, stack, frames and the clocks of a budget only. -/
theorem keeps_rest (e : h = { g with pend := h.pend, ld := h.ld, stc := h.stc, cp := h.cp, sy := h.sy, slot0 := h.slot0, slot1 := h.slot1,
                                     stack := h.stack, frames := h.frames, fused := h.fused, saveFrom := h.saveFrom
                                     saveFrozen := h.saveFrozen }) (hp : ∀ k ∈ h.pend, k ∈ g.pend) : Keeps ds g h := by
  have hv : h.v = g.v := by rw [e]
  have hg : h.g = g.g := by rw [e]
  have hpr : h.p = g.p := by rw [e]
  refine ⟨⟨fun _ _ _ _ _ => ?_, fun _ _ _ => ?_, fun _ _ _ => ?_, ?_⟩, fun k hk _ hw => .inl ⟨k, hp k hk, hw⟩⟩
  · simp [Group.vr, hv]
  · simp [Group.gr, hg]
  · simp [Group.pr, hpr]
  · rw [hv, hg, hpr]; exact e

/-- Register writes keep every register they do not name. -/
theorem keepsRegs_wrs (ws : List RegWrite) :
    (∀ n l, l < 32 → (∀ w ∈ ws, w.reg ≠ .v n ∧ inLane w) → (g.wrs ws).vr n l = g.vr n l) ∧
      (∀ n, (∀ w ∈ ws, w.reg ≠ .g n) → (g.wrs ws).gr n = g.gr n) ∧ (∀ n, (∀ w ∈ ws, w.reg ≠ .p n) → (g.wrs ws).pr n = g.pr n) ∧
      g.wrs ws = { g with v := (g.wrs ws).v, g := (g.wrs ws).g, p := (g.wrs ws).p } := by
  induction ws generalizing g with
  | nil => exact ⟨fun _ _ _ _ => rfl, fun _ _ => rfl, fun _ _ => rfl, rfl⟩
  | cons w r ih =>
    obtain ⟨h1, h2, h3, h4⟩ := ih (g := g.wr w)
    refine ⟨fun n l hl hw => ?_, fun n hw => ?_, fun n hw => ?_, ?_⟩
    · rw [Group.wrs, h1 n l hl fun w' hw' => hw w' (by simp [hw'])]
      obtain ⟨ha, hb⟩ := hw w (by simp)
      cases w with
      | v m k x =>
        have hm : m ≠ n := fun e => ha (by rw [← e]; rfl)
        have hk : k < 32 := hb
        have : 32 * n + l ≠ 32 * m + k := by omega
        simp [Group.wr, Group.vr, sget_sput, this]
      | g m x => rfl
      | p m k b => rfl
    · rw [Group.wrs, h2 n fun w' hw' => hw w' (by simp [hw'])]
      have ha := hw w (by simp)
      cases w with
      | g m x =>
        have hm : n ≠ m := fun e => ha (by rw [e]; rfl)
        simp [Group.wr, Group.gr, sget_sput, hm]
      | v m k x => rfl
      | p m k b => rfl
    · rw [Group.wrs, h3 n fun w' hw' => hw w' (by simp [hw'])]
      have ha := hw w (by simp)
      cases w with
      | p m k b =>
        have hm : n ≠ m := fun e => ha (by rw [e]; rfl)
        simp [Group.wr, Group.pr, sget_sput, hm]
      | v m k x => rfl
      | g m x => rfl
    · have e : g.wr w = { g with v := (g.wr w).v, g := (g.wr w).g, p := (g.wr w).p } := by cases w <;> rfl
      rw [Group.wrs]
      rw [e] at h4 ⊢
      exact h4

/-- Writes that go to ds. -/
theorem keeps_wrs {ws : List RegWrite} (hw : ∀ w ∈ ws, w.reg ∈ ds ∧ inLane w) : Keeps ds g (g.wrs ws) := by
  obtain ⟨h1, h2, h3, h4⟩ := keepsRegs_wrs (g := g) ws
  refine ⟨⟨fun n l hl hn _ => h1 n l hl fun w h => ⟨fun e => hn (e ▸ (hw w h).1), (hw w h).2⟩,
    fun n hn _ => h2 n fun w h e => hn (e ▸ (hw w h).1), fun n hn _ => h3 n fun w h e => hn (e ▸ (hw w h).1), ?_⟩, ?_⟩
  · generalize g.wrs ws = h at h4
    rw [h4]
  · rw [h4]
    exact fun k h _ hw => .inl ⟨k, h, hw⟩

theorem lowerCtr_eq (g : Group) (c : Option Ctr) :
    g.lowerCtr c = { g with ld := (g.lowerCtr c).ld, stc := (g.lowerCtr c).stc, cp := (g.lowerCtr c).cp, sy := (g.lowerCtr c).sy } := by
  rcases c with - | c
  · rfl
  · cases c <;> rfl
theorem keeps_lowerCtr (c : Option Ctr) : Keeps ds g (g.lowerCtr c) := by
  apply keeps_rest
  · rw [lowerCtr_eq]
  · rw [lowerCtr_eq]; exact fun _ h => h
theorem raiseCtr_eq (g : Group) (c : Option Ctr) :
    g.raiseCtr c = { g with ld := (g.raiseCtr c).ld, stc := (g.raiseCtr c).stc, cp := (g.raiseCtr c).cp, sy := (g.raiseCtr c).sy } := by
  rcases c with - | c
  · rfl
  · cases c <;> rfl
theorem keeps_raiseCtr (c : Option Ctr) : Keeps ds g (g.raiseCtr c) := by
  apply keeps_rest
  · rw [raiseCtr_eq]
  · rw [raiseCtr_eq]; exact fun _ h => h

/-- A completion that was pending takes effect. -/
theorem finishAll_keeps (ks : List Completion) (hk : ∀ k ∈ ks, k ∈ g.pend) (h : Group) (a : Keeps ds g h) :
    Keeps ds g (ks.foldl Group.finish h) := by
  induction ks generalizing h with
  | nil => exact a
  | cons k r ih =>
    refine ih (fun x hx => hk x (by simp [hx])) _ ?_
    have hkg : k ∈ g.pend := hk k (by simp)
    obtain ⟨h1, h2, h3, h4⟩ := keepsRegs_wrs (g := h) k.writes
    have b : Keeps ds g (h.wrs k.writes) := by
      refine ⟨⟨fun n l hl hn hq => ?_, fun n hn hq => ?_, fun n hn hq => ?_, ?_⟩, ?_⟩
      · rw [h1 n l hl fun w hw => hq k hkg w hw]; exact a.1.1 n l hl hn hq
      · rw [h2 n fun w hw => (hq k hkg w hw).1]; exact a.1.2.1 n hn hq
      · rw [h3 n fun w hw => (hq k hkg w hw).1]; exact a.1.2.2.1 n hn hq
      · have ha := a.1.2.2.2
        generalize h.wrs k.writes = x at h4
        rw [ha] at h4
        rw [h4]
      · rw [h4]; exact a.2
    exact b.trans (keeps_lowerCtr _)

theorem keeps_finishWhere (q : Completion → Bool) : Keeps ds g (g.finishWhere q) := by
  unfold Group.finishWhere
  refine finishAll_keeps _ (fun k hk => (List.mem_filter.1 hk).1) _ ?_
  exact keeps_rest rfl fun k hk => (List.mem_filter.1 hk).1
theorem keeps_settle (now : Nat) : Keeps ds g (g.settle now) := keeps_finishWhere _
theorem keeps_flushFixed (m : Mask) : Keeps ds g (g.flushFixed m) := keeps_finishWhere _
theorem keeps_setSlot (b : Bool) (p : Option Path) : Keeps ds g (g.setSlot b p) := by
  cases b <;> exact keeps_rest rfl fun _ h => h
theorem keeps_modSlot (b : Bool) (f : Path → Path) : Keeps ds g (g.modSlot b f) := keeps_setSlot _ _
theorem keeps_stack (l : List StackItem) : Keeps ds g { g with stack := l } := keeps_rest rfl fun _ h => h
theorem keeps_fused (l : List StackItem) (m : List Mask) : Keeps ds g { g with stack := l, fused := m } := keeps_rest rfl fun _ h => h
theorem keeps_startBudget (now : Nat) : Keeps ds g (g.startBudget now) := by
  unfold Group.startBudget
  split
  · exact keeps_rest rfl fun _ h => h
  · exact .refl
theorem keeps_fill (b : Bool) : Keeps ds g (g.fill b) := by
  unfold Group.fill
  split
  · exact .refl
  · split
    · exact (keeps_stack _).trans (keeps_setSlot _ _)
    · exact .refl
theorem keeps_dropFrames (n : Nat) : Keeps ds g (g.dropFrames n) := keeps_rest rfl fun _ h => h

theorem keeps_resolve (now fuel : Nat) (b : Bool) : Keeps ds g (Group.resolve now fuel b g) := by
  induction fuel generalizing g with
  | zero => exact .refl
  | succ n ih =>
    unfold Group.resolve
    split
    · exact keeps_fill _
    · split
      · exact .refl
      · split
        · split
          · exact .refl
          · have base (m : Mask) : Keeps ds g ((g.flushFixed m).modSlot (!b) Path.undemote) :=
              (keeps_flushFixed m).trans (keeps_modSlot _ _)
            dsimp only
            split
            · exact (((base _).trans (keeps_fused _ _)).trans ((keeps_dropFrames _).trans (keeps_setSlot _ _))).trans ih
            · exact ((base _).trans (keeps_stack _)).trans ((keeps_setSlot _ _).trans (keeps_fill _))
        · exact .refl
theorem keeps_next (now : Nat) (b : Bool) : Keeps ds g (g.next now b) :=
  (keeps_modSlot _ _).trans (keeps_resolve _ _ _)

theorem mem_insDue {k x : Completion} {l : List Completion} (h : x ∈ insDue k l) : x = k ∨ x ∈ l := by
  induction l with
  | nil => simpa [insDue] using h
  | cons y r ih =>
    unfold insDue at h
    split at h
    · split at h
      · simpa using h
      · rcases List.mem_cons.1 h with rfl | h
        · simp
        · rcases ih h with rfl | h <;> simp_all
    · simpa using h
    · rcases List.mem_cons.1 h with rfl | h
      · simp
      · rcases ih h with rfl | h <;> simp_all
theorem keeps_insDue (a : Keeps ds g h) {k : Completion} (hw : ∀ w ∈ k.writes, (∃ c ∈ g.pend, w ∈ c.writes) ∨ (w.reg ∈ ds ∧ inLane w)) :
    Keeps ds g { h with pend := insDue k h.pend } := by
  refine ⟨⟨a.1.1, a.1.2.1, a.1.2.2.1, ?_⟩, fun x hx => ?_⟩
  · have e := a.1.2.2.2
    generalize h.v = v, h.g = g', h.p = p at e ⊢
    rw [e]
  rcases mem_insDue hx with rfl | h
  · exact hw
  · exact a.2 x h

/-! ### The state around the issuing group -/

/-- Results and the next instruction change the issuing group only. -/
theorem finish_frame (s : State) (b : Bool) (sc : Sched) (lat : Lat) (act : Mask) (ws : List RegWrite) :
    s.finish b sc lat act ws = { s with grp := (s.finish b sc lat act ws).grp } := by
  unfold State.finish State.retire State.next State.setGrp State.changed State.setGrp
  dsimp only
  split <;> rfl

/-- What a replayed instruction had before is pending. -/
theorem mem_parts {b : Bool} {k : Completion} (h : k ∈ g.parts b) : k ∈ g.pend := by
  unfold Group.parts at h
  split at h
  · split at h
    · exact (List.mem_filter.1 h).1
    · simp at h
  · simp at h

/-- Results become pending, their counter perhaps lowered. -/
theorem keeps_groupRetire (g : Group) (b : Bool) (sc : Sched) (due : Option Nat) (act : Mask) {ws : List RegWrite}
    (hw : ∀ w ∈ ws, w.reg ∈ ds ∧ inLane w) : Keeps ds g (g.retire b sc due act ws) := by
  unfold Group.retire
  dsimp only
  have h0 : Keeps ds g { g with pend := g.pend.filter fun k => !(g.parts b).contains k } :=
    keeps_rest rfl fun _ h => (List.mem_filter.1 h).1
  have hl (q : Bool) (j : Group) (a : Keeps ds g j) : Keeps ds g (if q = true then j.lowerCtr sc.cnt else j) := by
    split
    · exact a.trans (keeps_lowerCtr _)
    · exact a
  replace hl := hl (act == 0 && (g.parts b).isEmpty) _ h0
  generalize (if (act == 0 && (g.parts b).isEmpty) = true then _ else _) = h at hl ⊢
  generalize (if (act == 0 && (g.parts b).isEmpty) = true then none else sc.cnt) = c
  split
  · exact hl
  · refine keeps_insDue hl fun w h1 => ?_
    rcases List.mem_append.1 h1 with h1 | h1
    · obtain ⟨k, hk, hkw⟩ := List.mem_flatMap.1 h1
      exact .inl ⟨k, mem_parts hk, hkw⟩
    · exact .inr (hw w h1)
theorem keeps_retire (s : State) (b : Bool) (sc : Sched) (lat : Lat) (act : Mask) {ws : List RegWrite}
    (hw : ∀ w ∈ ws, w.reg ∈ ds ∧ inLane w) : Keeps ds s.grp (s.retire b sc lat act ws).grp := by
  have hc : Keeps ds s.grp (if ws.all s.grp.same then s else s.changed b).grp := by
    split
    · exact .refl
    · exact keeps_modSlot _ _
  exact hc.trans (keeps_groupRetire _ _ _ _ _ hw)
/-- Results that go to ds keep every other register. -/
theorem keeps_finish (s : State) (b : Bool) (sc : Sched) (lat : Lat) (act : Mask) {ws : List RegWrite}
    (hw : ∀ w ∈ ws, w.reg ∈ ds ∧ inLane w) : Keeps ds s.grp (s.finish b sc lat act ws).grp :=
  (keeps_retire s b sc lat act hw).trans (keeps_next (g := (s.retire b sc lat act ws).grp) _ _)

theorem countIssue_frame (s : State) (p : Path) (act : Mask) :
    s.countIssue p act =
      { s with dev := { s.dev with lcrtot := (s.countIssue p act).dev.lcrtot, bincnt := (s.countIssue p act).dev.bincnt } } := by
  unfold State.countIssue
  split
  · rfl
  · split <;> rfl

theorem worked_frame (s : State) (blk core n : Nat) : s.worked blk core n = { s with work := (s.worked blk core n).work } := by
  unfold State.worked
  split <;> rfl

/-- The parts of the state that an issue may change: the issuing group, its partition's units, the work counted for the meters
and the lane-cycle counters. -/
def OnlyIssue (s t : State) : Prop :=
  ∃ g u w l c, t = { s with grp := g, units := u, work := w, dev := { s.dev with lcrtot := l, bincnt := c } }

theorem OnlyIssue.refl (s : State) : OnlyIssue s s := ⟨_, _, _, _, _, rfl⟩
theorem OnlyIssue.trans {s t v : State} (h : OnlyIssue s t) (h' : OnlyIssue t v) : OnlyIssue s v := by
  obtain ⟨g, u, w, l, c, rfl⟩ := h
  obtain ⟨g', u', w', l', c', rfl⟩ := h'
  exact ⟨g', u', w', l', c', rfl⟩
theorem onlyIssue_setGrp (s : State) (f : Group → Group) : OnlyIssue s (s.setGrp f) := ⟨_, _, _, _, _, rfl⟩
theorem onlyIssue_useUnit (s : State) (u : FUnit) : OnlyIssue s (s.useUnit u) := ⟨_, _, _, _, _, rfl⟩
theorem onlyIssue_worked (s : State) (blk core n : Nat) : OnlyIssue s (s.worked blk core n) :=
  ⟨s.grp, s.units, _, _, _, worked_frame s blk core n⟩
theorem onlyIssue_countIssue (s : State) (p : Path) (act : Mask) : OnlyIssue s (s.countIssue p act) :=
  ⟨s.grp, s.units, s.work, _, _, countIssue_frame s p act⟩

/-- The counters that an issue moves: lane cycles, the unit, the meters' work; the group stays. -/
theorem counted_grp (s : State) (p : Path) (act : Mask) (u : FUnit) (blk core n : Nat) :
    (((s.countIssue p act).useUnit u).worked blk core n).grp = s.grp := by
  have h1 := congrArg State.grp (worked_frame ((s.countIssue p act).useUnit u) blk core n)
  have h2 := congrArg State.grp (countIssue_frame s p act)
  exact h1.trans h2

theorem counted_now (s : State) (p : Path) (act : Mask) (u : FUnit) (blk core n : Nat) :
    (((s.countIssue p act).useUnit u).worked blk core n).now = s.now := by
  have h1 := congrArg State.now (worked_frame ((s.countIssue p act).useUnit u) blk core n)
  have h2 := congrArg State.now (countIssue_frame s p act)
  exact h1.trans h2

/-- The issue changes the issuing group, its partition's units, the work counted for the meters and the lane-cycle counters
only. -/
theorem issued_frame (s : State) (i : Instr) (sc : Sched) (gd : Guard) (ix : BitVec 3) (b : Bool) (p : Path) :
    OnlyIssue s (s.issued i sc gd ix b p).state := by
  unfold State.issued
  dsimp only
  refine OnlyIssue.trans ?_ (onlyIssue_setGrp _ _)
  split
  · refine OnlyIssue.trans ?_ (onlyIssue_worked _ _ _ _)
    refine OnlyIssue.trans ?_ (onlyIssue_useUnit _ _)
    refine OnlyIssue.trans ?_ (onlyIssue_countIssue _ _ _)
    exact (onlyIssue_setGrp s _).trans (onlyIssue_setGrp _ _)
  · exact (onlyIssue_setGrp s _).trans (onlyIssue_setGrp _ _)

theorem issued_grp (s : State) (i : Instr) (sc : Sched) (gd : Guard) (ix : BitVec 3) (b : Bool) (p : Path) :
    ∃ q, (s.issued i sc gd ix b p).state.grp =
      (let g := s.grp.settle s.now
       let g := g.finishWhere fun k => k.blocks (touchedBy i g ix gd p) (readBy i g ix gd p) sc.v2
       let g := if p.first then g.raiseCtr sc.cnt else g
       let g := if sc.yields then g.modSlot (!b) Path.undemote else g
       (g.setSlot b (some q)).startBudget s.now) := by
  refine ⟨(s.issued i sc gd ix b p).path, ?_⟩
  unfold State.issued
  dsimp only
  generalize hs : (s.setGrp fun g => g.settle s.now) = s1
  have h1 : s1.grp = s.grp.settle s.now := by subst hs; rfl
  rw [← h1]
  generalize hs2 : (s1.setGrp fun g => g.finishWhere fun k => k.blocks (touchedBy i s1.grp ix gd p) (readBy i s1.grp ix gd p) sc.v2) = s2
  have h2 : s2.grp = s1.grp.finishWhere fun k => k.blocks (touchedBy i s1.grp ix gd p) (readBy i s1.grp ix gd p) sc.v2 := by
    subst hs2; rfl
  have n2 : s2.now = s.now := by subst hs2 hs; rfl
  rw [← h2, ← n2]
  have h3 (c : Bool) (p : Path) (a : Mask) (u : FUnit) (k n m : Nat) :
      (if c then ((s2.countIssue p a).useUnit u).worked k n m else s2).grp = s2.grp ∧
        (if c then ((s2.countIssue p a).useUnit u).worked k n m else s2).now = s2.now := by
    cases c
    · exact ⟨rfl, rfl⟩
    · exact ⟨counted_grp _ _ _ _ _ _ _, counted_now _ _ _ _ _ _ _⟩
  rw [State.setGrp_grp, (h3 _ _ _ _ _ _ _).1, (h3 _ _ _ _ _ _ _).2]

/-- The issue keeps every register but for results that were pending. -/
theorem keeps_issued (s : State) (i : Instr) (sc : Sched) (gd : Guard) (ix : BitVec 3) (b : Bool) (p : Path) :
    Keeps ds s.grp (s.issued i sc gd ix b p).state.grp := by
  obtain ⟨q, e⟩ := issued_grp s i sc gd ix b p
  rw [e]
  dsimp only
  have h1 : Keeps ds s.grp ((s.grp.settle s.now).finishWhere fun k =>
      k.blocks (touchedBy i (s.grp.settle s.now) ix gd p) (readBy i (s.grp.settle s.now) ix gd p) sc.v2) :=
    (keeps_settle _).trans (keeps_finishWhere _)
  have h2 (c : Bool) (g : Group) : Keeps ds g (if c = true then g.raiseCtr sc.cnt else g) := by
    split
    · exact keeps_raiseCtr _
    · exact .refl
  have h3 (c : Bool) (g : Group) : Keeps ds g (if c = true then g.modSlot (!b) Path.undemote else g) := by
    split
    · exact keeps_modSlot _ _
    · exact .refl
  exact (((h1.trans (h2 _ _)).trans (h3 _ _)).trans (keeps_setSlot _ _)).trans (keeps_startBudget _)

end Sys2Proof.Machine.Claim
end

