-- ==== Sys2Proof/Laws/Lookup.lean ====
section
/-! SUPPORT. Looking up a group, a block, a partition or a queue after it has been changed. -/
namespace Sys2Proof.Machine

/-- A change that keeps who a group is. -/
def Group.sameId (f : Group → Group) (g : Group) : Prop := (f g).blk = g.blk ∧ (f g).grp = g.grp ∧ (f g).st = g.st

theorem Group.is_of_sameId {f : Group → Group} {g : Group} (h : Group.sameId f g) (blk grp : Nat) : (f g).is blk grp = g.is blk grp := by
  simp [Group.is, h.1, h.2.1, h.2.2]

theorem find_updWhere {α : Type} (l : List α) (p : α → Bool) (f : α → α) (hf : ∀ x ∈ l, p x = true → p (f x) = true) :
    (updWhere l p f).find? p = (l.find? p).map f := by
  induction l with
  | nil => rfl
  | cons x r ih =>
    have ih := ih fun y hy => hf y (by simp [hy])
    by_cases h : p x = true
    · simp [updWhere, h, hf x (by simp) h]
    · have h' : p x = false := by simpa using h
      have e : updWhere (x :: r) p f = x :: updWhere r p f := by simp [updWhere, h']
      rw [e, List.find?_cons, List.find?_cons, h']
      exact ih

/-- The group of a block and number after a change of it that keeps who it is. -/
theorem State.grp?_modGrp (s : State) (blk grp : Nat) (f : Group → Group) (hf : ∀ g, g.is blk grp = true → Group.sameId f g) :
    (s.modGrp blk grp f).grp? blk grp = (s.grp? blk grp).map f := by
  have hf' : ∀ g : Group, g.is blk grp = true → (f g).is blk grp = true := fun g h => by rw [Group.is_of_sameId (hf g h)]; exact h
  have hnone : ∀ g : Group, (g.st == .none) = true → g.is blk grp = false := by
    intro g h
    have : g.st = .none := by simpa using h
    simp [Group.is, this]
  have key := find_updWhere s.groups (fun g => g.is blk grp) f fun x _ h => hf' x h
  unfold State.grp? State.allGroups State.modGrp State.modGroups
  dsimp only
  by_cases h : s.grp.is blk grp = true
  · have hn : (s.grp.st == .none) = false := by
      cases hc : s.grp.st == .none
      · rfl
      · rw [hnone _ hc] at h; cases h
    have hn' : ((f s.grp).st == .none) = false := by rw [(hf _ h).2.2]; exact hn
    simp [h, hn, hn', hf' _ h]
  · have h' : s.grp.is blk grp = false := by simpa using h
    by_cases hn : (s.grp.st == .none) = true
    · simp only [h', hn, if_true, if_false, Bool.false_eq_true]
      exact key
    · have hn2 : (s.grp.st == .none) = false := by simpa using hn
      simp only [h', hn2, if_false, Bool.false_eq_true, List.find?_cons]
      exact key

theorem State.blk?_modBlk (s : State) (id : Nat) (f : Block → Block) (hf : ∀ b, (f b).id = b.id) :
    (s.modBlk id f).blk? id = (s.blk? id).map f :=
  find_updWhere s.blocks (fun b => b.id == id) f fun x _ h => by rw [hf]; exact h
theorem State.queue?_modQueue (s : State) (id : Nat) (f : Queue → Queue) (hf : ∀ b, (f b).id = b.id) :
    (s.modQueue id f).queue? id = (s.queue? id).map f :=
  find_updWhere s.queues (fun b => b.id == id) f fun x _ h => by rw [hf]; exact h
theorem State.node?_modNode (s : State) (id : Nat) (f : Node → Node) (hf : ∀ b, (f b).id = b.id) :
    (s.modNode id f).node? id = (s.node? id).map f :=
  find_updWhere s.nodes (fun b => b.id == id) f fun x _ h => by rw [hf]; exact h
theorem State.cmd?_modCmd (s : State) (id : Nat) (f : Cmd → Cmd) (hf : ∀ b, (f b).id = b.id) :
    (s.modCmd id f).cmd? id = (s.cmd? id).map f :=
  find_updWhere s.cmds (fun b => b.id == id) f fun x _ h => by rw [hf]; exact h
theorem State.part?_modPart (s : State) (id : Nat) (f : Partition → Partition) (hf : ∀ b, (f b).id = b.id) :
    (s.modPart id f).part? id = (s.part? id).map f :=
  find_updWhere s.parts (fun b => b.id == id) f fun x _ h => by rw [hf]; exact h

end Sys2Proof.Machine
end

