-- ==== Sys2Proof/Laws/Mem.lean ====
section
/-! SUPPORT. The operations that write the memory of the device keep its canonical form. -/
namespace Sys2Proof.Machine

theorem State.memOk_wrWord {s : State} (h : s.memOk = true) (w : Nat) (x : Word) : ({ s with mem := wrWord s.mem w x } : State).memOk = true :=
  Memory.wf_wrWord h w x

theorem State.wakeSector_mem (s : State) (n : Nat) (w : Option Writer) : (s.wakeSector n w).mem = s.mem := rfl

theorem State.markDirty_memOk {s : State} (h : s.memOk = true) (w : Nat) : (s.markDirty w).memOk = true := by
  unfold State.markDirty
  split
  · exact h
  · exact h
  · exact h
  · split
    · dsimp only
      split
      · split
        · exact h
        · exact Memory.wf_wrWord h _ _
      · exact h
    · exact h
theorem State.backInvalidate_mem (s : State) (w : Nat) : (s.backInvalidate w).mem = s.mem := by
  unfold State.backInvalidate
  split <;> rfl

/-- A fold whose step keeps the canonical form keeps it. -/
theorem State.foldl_memOk {α : Type} {f : State → α → State} (hf : ∀ s x, s.memOk = true → (f s x).memOk = true) (l : List α) {s : State}
    (h : s.memOk = true) : (l.foldl f s).memOk = true := by
  induction l generalizing s with
  | nil => exact h
  | cons x r ih => exact ih (hf s x h)
/-- A fold whose step leaves memory as it is does so too. -/
theorem State.foldl_mem {α : Type} {f : State → α → State} (hf : ∀ s x, (f s x).mem = s.mem) (l : List α) (s : State) :
    (l.foldl f s).mem = s.mem := by
  induction l generalizing s with
  | nil => rfl
  | cons x r ih => exact (ih _).trans (hf s x)

/-! Lines of the caches and of host memory, scratchpads and dropped accesses leave memory as it is. -/
theorem State.countDrop_mem (s : State) (die f a : Nat) : (s.countDrop die f a).mem = s.mem := by
  unfold State.countDrop
  dsimp only
  split <;> rfl
theorem State.dropFrom_mem (s : State) (pdie pa : Nat) : (s.dropFrom pdie pa).mem = s.mem := by
  unfold State.dropFrom
  split
  · split
    · rfl
    · exact State.countDrop_mem _ _ _ _
  all_goals rfl
theorem State.snoopInv_mem (s : State) (core line : Nat) : (s.snoopInv core line).mem = s.mem := by
  unfold State.snoopInv
  dsimp only
  split <;> split <;> rfl
theorem State.snoopAll_mem (s : State) (line : Nat) : (s.snoopAll line).mem = s.mem :=
  State.foldl_mem (fun s c => State.snoopInv_mem s c line) _ _
theorem State.evictLine_mem (s : State) (core line : Nat) : (s.evictLine core line).mem = s.mem := by
  unfold State.evictLine
  dsimp only
  split
  · split <;> rfl
  · rfl
theorem State.fitL1_mem (s : State) (core w : Nat) : (s.fitL1 core w).mem = s.mem := by
  unfold State.fitL1
  dsimp only
  split
  · rfl
  · exact State.foldl_mem (fun s l => State.evictLine_mem s core l) _ _
theorem State.setBank_mem (s : State) (b : Bank) (w : Nat) (x : Val) : (s.setBank b w x).mem = s.mem := by cases b <;> rfl
theorem State.putBank_mem (s : State) (by_ : Option Writer) (b : Bank) (w : Nat) (x : Val) : (s.putBank by_ b w x).mem = s.mem :=
  State.setBank_mem s b w x
theorem State.askOwn_mem (s : State) (core line : Nat) : (s.askOwn core line).mem = s.mem := by
  unfold State.askOwn
  split
  · rfl
  · rfl
  all_goals exact State.foldl_mem (fun s c => State.snoopInv_mem s c line) _ _

/-! ### Writes are registered -/

theorem State.regMem_memOk {s : State} (h : s.memOk = true) (by_ : Option Writer) (cached : Bool) (w : Nat) (x : Val) :
    (s.regMem by_ cached w x).memOk = true := by
  have hs : (if (by_.isNone && isHost w) = true then s.snoopAll (w / 16) else s).mem = s.mem := by
    split
    · exact State.snoopAll_mem _ _
    · rfl
  unfold State.regMem State.memOk
  dsimp only
  rw [State.backInvalidate_mem]
  apply State.markDirty_memOk
  unfold State.memOk
  rw [State.wakeSector_mem]
  generalize (if (by_.isNone && isHost w) = true then s.snoopAll (w / 16) else s) = t at hs ⊢
  have hw (x : Word) : (wrWord t.mem w x).wf = true := by rw [hs]; exact Memory.wf_wrWord h _ _
  split
  · rw [State.fitL1_mem]; exact hw _
  · exact hw _
  · exact hw _
theorem State.regWord_memOk {s : State} (h : s.memOk = true) (by_ : Option Writer) (w : Nat) (x : Val) : (s.regWord by_ w x).memOk = true :=
  State.regMem_memOk h _ _ _ _
theorem State.putFirm_memOk {s : State} (h : s.memOk = true) (w : Nat) (x : Word) : (s.putFirm w x).memOk = true := by
  unfold State.putFirm
  split
  · exact h
  · exact Memory.wf_wrWord h _ _

theorem State.regOne_memOk {s : State} (h : s.memOk = true) (p : PendStore) : (s.regOne p).memOk = true := by
  unfold State.regOne
  split
  · next b w _ =>
    have hb : (s.putBank (some p.writer) b w (p.onto (s.bankWord b w))).memOk = true := by
      unfold State.memOk
      rw [State.putBank_mem]
      exact h
    cases b <;> exact hb
  · split
    · unfold State.memOk
      rw [State.dropFrom_mem]
      exact h
    · apply State.regWord_memOk
      split
      · unfold State.memOk
        rw [State.askOwn_mem]
        exact h
      · exact h
theorem State.regStore_memOk {s : State} (h : s.memOk = true) (p : PendStore) : (s.regStore p).memOk = true :=
  State.foldl_memOk (fun _ p hs => State.regOne_memOk hs p) _ h

theorem State.drain_memOk {s : State} (h : s.memOk = true) (q : PendStore → Bool) : (s.drain q).memOk = true :=
  State.foldl_memOk (fun _ p hs => State.regStore_memOk hs p) _ h
theorem State.drainGroup_memOk {s : State} (h : s.memOk = true) (blk grp : Nat) : (s.drainGroup blk grp).memOk = true := State.drain_memOk h _
theorem State.drainBlock_memOk {s : State} (h : s.memOk = true) (blk : Nat) : (s.drainBlock blk).memOk = true := State.drain_memOk h _
theorem State.drainFor_memOk {s : State} (h : s.memOk = true) (me : Option Writer) (w : Nat) : (s.drainFor me w).memOk = true :=
  State.drain_memOk h _

theorem State.putBytes_memOk {s : State} (h : s.memOk = true) (pa : Nat) (bs : List Byte) : (s.putBytes pa bs).memOk = true := by
  induction bs generalizing s pa with
  | nil => exact h
  | cons b r ih => exact ih (State.regWord_memOk (State.drainFor_memOk h _ _) _ _ _) _
theorem State.putNat_memOk {s : State} (h : s.memOk = true) (pa n x : Nat) : (s.putNat pa n x).memOk = true := State.putBytes_memOk h _ _

/-! ### A relocation -/

theorem swfFrom_append {α : Type} [DecidableEq α] {d : α} {a b : Store α} {mid : Nat} :
    ∀ lo, lo ≤ mid → swfFrom d lo a = true → (∀ e ∈ a, e.1 < mid) → swfFrom d mid b = true → swfFrom d lo (a ++ b) = true := by
  induction a with
  | nil => intro lo h _ _ wb; exact swfFrom_mono h wb
  | cons e r ih =>
    intro lo h wa ha wb
    obtain ⟨k, x⟩ := e
    simp only [swfFrom, Bool.and_eq_true, decide_eq_true_eq, List.cons_append] at wa ⊢
    have hk : k < mid := ha (k, x) (by simp)
    exact ⟨wa.1, ih (k + 1) hk wa.2 (fun e he => ha e (by simp [he])) wb⟩

theorem swfFrom_raise {α : Type} [DecidableEq α] {d : α} {s : Store α} {lo : Nat} (w : swfFrom d lo s = true) {hi : Nat}
    (h : ∀ e ∈ s, hi ≤ e.1) : swfFrom d hi s = true := by
  cases s with
  | nil => rfl
  | cons e r =>
    obtain ⟨k, x⟩ := e
    simp only [swfFrom, Bool.and_eq_true, decide_eq_true_eq] at w ⊢
    exact ⟨⟨h (k, x) (by simp), w.1.2⟩, w.2⟩

theorem swfFrom_shift {α : Type} [DecidableEq α] {d : α} (f : Nat → Nat) (hf : ∀ a b, a < b → f a < f b) (s : Store α) :
    ∀ lo, swfFrom d lo s = true → swfFrom d (f lo) (s.map fun e => (f e.1, e.2)) = true := by
  induction s with
  | nil => intro lo _; rfl
  | cons e r ih =>
    intro lo w
    obtain ⟨k, x⟩ := e
    simp only [swfFrom, Bool.and_eq_true, decide_eq_true_eq, List.map_cons] at w ⊢
    have hk : f lo ≤ f k := by
      rcases Nat.lt_or_ge lo k with h | h
      · exact (hf _ _ h).le
      · have : lo = k := by omega
        rw [this]
    exact ⟨⟨hk, w.1.2⟩, swfFrom_mono (hf k (k + 1) (by omega)) (ih _ w.2)⟩

theorem Memory.wf_copyRange {m : Memory} (w : Memory.wf m = true) (lo dst n : Nat) : Memory.wf (copyRange m lo dst n) = true := by
  unfold copyRange cutRange
  simp only [List.map_map]
  have hm : swfFrom (0 : Byte) dst (((m.filter fun e => lo ≤ e.1 && e.1 < lo + n)).map fun e => (dst + (e.1 - lo), e.2)) = true := by
    have h1 := swfFrom_raise (swfFrom_filter (fun e => lo ≤ e.1 && e.1 < lo + n) m 0 w) (hi := lo) (by simp; omega)
    have h2 : ∀ s : Store Byte, (∀ e ∈ s, lo ≤ e.1) → ∀ b, lo ≤ b → swfFrom (0 : Byte) b s = true →
        swfFrom (0 : Byte) (dst + (b - lo)) (s.map fun e => (dst + (e.1 - lo), e.2)) = true := by
      intro s
      induction s with
      | nil => intros; rfl
      | cons e r ih =>
        intro hs b hb ws
        obtain ⟨k, x⟩ := e
        have hk : lo ≤ k := hs (k, x) (by simp)
        simp only [swfFrom, Bool.and_eq_true, decide_eq_true_eq, List.map_cons] at ws ⊢
        have hr := ih (fun e he => hs e (by simp [he])) (k + 1) (by omega) ws.2
        exact ⟨⟨by omega, ws.1.2⟩, swfFrom_mono (by omega) hr⟩
    have := h2 _ (by simp; omega) lo (le_refl _) h1
    simpa using this
  have hr : swfFrom (0 : Byte) 0 (dropRange m dst n) = true := swfFrom_filter _ m 0 w
  refine swfFrom_append (mid := dst + n) 0 (by omega) (swfFrom_append (mid := dst) 0 (by omega) (swfFrom_filter _ _ 0 hr) ?_ hm) ?_ ?_
  · simp
  · simp only [List.mem_append, List.mem_filter, List.mem_map, decide_eq_true_eq, Bool.and_eq_true]
    rintro e (⟨_, h⟩ | ⟨a, ⟨_, h1, h2⟩, rfl⟩)
    · omega
    · show dst + (a.1 - lo) < dst + n
      omega
  · refine swfFrom_raise (swfFrom_filter _ _ 0 hr) ?_
    simp only [dropRange, List.mem_filter, Bool.or_eq_true, decide_eq_true_eq]
    rintro e ⟨⟨_, h⟩, h'⟩
    omega

theorem State.copyDie_memOk {s : State} (h : s.memOk = true) (p q : Nat) : (s.copyDie p q).memOk = true := Memory.wf_copyRange h _ _ _

theorem State.moveTables_memOk (own : Nat → Bool) (p q n : Nat) :
    ∀ (table : Nat) {s : State}, s.memOk = true → (State.moveTables own p q n table s).memOk = true := by
  induction n with
  | zero => intro _ s h; exact h
  | succ n ih =>
    intro table s h
    unfold State.moveTables
    split
    · exact h
    · refine State.foldl_memOk (fun s k hs => ?_) _ h
      dsimp only
      split
      · exact hs
      · split
        · exact State.putFirm_memOk hs _ _
        · exact ih _ (State.putFirm_memOk hs _ _)
theorem State.moveLinks_memOk {s : State} (h : s.memOk = true) (k : Partition) (p q : Nat) : (s.moveLinks k p q).memOk = true := by
  unfold State.moveLinks
  exact State.foldl_memOk (fun s e hs => State.putFirm_memOk hs _ _) _ h

end Sys2Proof.Machine
end

