-- ==== Sys2Proof/Tests/Slice0.lean ====
section
/-! SUPPORT. Tests: words written out from the encoding tables of spec/, ill-formed instructions, and a state and operands that meet the hypotheses of each statement. -/
namespace Sys2Proof.Tests
open Sys2Proof Sys2Proof.Machine Sys2Proof.Machine.Claim

/-! ### Words (Tables 7.1 to 7.11) -/

/-- A word of version 2, unguarded (Table 7.1). -/
def w2 (opc d a b c : BitVec 10) (ix : BitVec 3) (ty : BitVec 5) (mod : BitVec 48) : BitVec 128 :=
  2#2 ++ 0#14 ++ 0#1 ++ 31#5 ++ opc ++ d ++ a ++ b ++ c ++ ix ++ ty ++ mod
/-- MOD of formats R and I (Table 7.5). -/
def mr (imm : BitVec 1) (rnd : BitVec 2) (itag : BitVec 4) (sub : BitVec 8) (imm32 : BitVec 32) : BitVec 48 :=
  imm ++ 0#1 ++ rnd ++ itag ++ sub ++ imm32
/-- MOD of format J (Table 7.6). -/
def mj (toff joff : BitVec 24) : BitVec 48 := toff ++ joff
/-- MOD of format M (Table 7.7). -/
def mm (sp ord : BitVec 3) (heal obj : BitVec 1) (sub : BitVec 8) (off : BitVec 24) : BitVec 48 :=
  sp ++ ord ++ heal ++ obj ++ sub ++ 0#8 ++ off
/-- MOD of format W (Table 7.8). -/
def mw (sub : BitVec 8) (arg : BitVec 24) (texp : BitVec 5) : BitVec 48 := 0#8 ++ sub ++ arg ++ 0#3 ++ texp
/-- MOD of format S (Table 7.9). -/
def ms (sub : BitVec 8) (sreg : BitVec 16) : BitVec 48 := 0#8 ++ sub ++ 0#16 ++ sreg
/-- MOD of format E (Table 7.10). -/
def me (ssp dsp : BitVec 3) (comp : BitVec 2) (sub : BitVec 8) (tok : BitVec 3) (doff : BitVec 24) : BitVec 48 :=
  ssp ++ dsp ++ comp ++ sub ++ 0#3 ++ tok ++ 0#2 ++ doff
/-- MOD of TLOAD and TSTORE (Table 25.6). -/
def mt (rstep cstep : BitVec 8) (rlvl clvl : BitVec 2) (role w self : BitVec 1) (wbar : BitVec 4) : BitVec 48 :=
  rstep ++ cstep ++ rlvl ++ clvl ++ role ++ w ++ self ++ wbar ++ 0#21
/-- The control of such a word. -/
abbrev c2 : Ctl := ⟨.interlocked false, .always, 0⟩
abbrev u2 : UCtl := ⟨.interlocked false, 0⟩
/-- Runtime group code reads each word as its instruction. -/
abbrev reads (l : List (BitVec 128 × Instr)) : Prop := ∀ e ∈ l, decode false false e.1 = .ok e.2

/-- Table 9.1: the transfers and the plain control instructions. -/
theorem test_words_control : reads [
    (w2 0x000 0 0 0 0 0 0 0, .nop c2), (w2 0x001 0 0 0 0 0 0 (mj 5 0), .bra c2 5 0),
    (w2 0x002 0 5 0 0 0 0 (mj 0 9), .brx c2 (.v 5) 9), (w2 0x003 7 0 0 0 0 0 (mj 0xFFFFFF 0), .call c2 (.v 7) 0xFFFFFF),
    (w2 0x004 7 321 0 0 0 0 0, .callx c2 (.v 7) (.g 1)), (w2 0x005 0 6 0 0 0 0 0, .ret u2 (.v 6)),
    (w2 0x006 0 0 0 0 0 0 0, .exit c2), (w2 0x007 0 0 0 0 0 0 (mr 1 0 0 0 0xDEAD), .trap c2 0xDEAD),
    (w2 0x008 0 0 0 0 0 0 0, .tret u2), (w2 0x009 0 0 0 0 0 0 0, .yield u2),
    (w2 0x00A 0 0 0 0 0 0 (mr 1 0 0 0 7), .brk c2 7),
    (w2 0x00B 0 0 0 0 0 0 (mw 0 (4#6 ++ 3#6 ++ 2#6 ++ 1#6) 0), .cwait u2 1 2 3 4),
    (w2 0x00C 0 0 0 0 0 0 (mw 0 0x81 0), .twait u2 0x81)] := by decide

/-- Tables 9.1 and 9.4: the system instructions. -/
theorem test_words_system : reads [
    (w2 0x020 3 0 0 0 0 0 (ms 0 0x0042), .mfs c2 (.v 3) .savebudget), (w2 0x021 0 3 0 0 0 0 (ms 0 0x0009), .mts c2 (.v 3) (.x 1)),
    (w2 0x022 0 0 0 0 0 0 0, .idem u2), (w2 0x023 0 0 0 0 0 0 0, .idend u2), (w2 0x024 0 0 0 0 0 0 0, .svdone u2),
    (w2 0x025 0 0 0 0 0 0 0, .tlbiAll c2), (w2 0x025 0 4 0 0 0 0 (ms 1 0), .tlbiPage c2 (.v 4)),
    (w2 0x026 0 0 0 0 0 0 (ms 63 0), .trig c2 63), (w2 0x027 0 4 0 0 0 0 (ms 200 0), .mark c2 (.v 4) 200)] := by decide

/-- Table 11.1: the generic opcodes, in form R and form I. -/
theorem test_words_generic : reads [
    (w2 0x040 1 2 3 0 0 0 (mr 0 1 0 0 0), .add c2 .rtz (.v 1) (.v 2) (.reg (.v 3))),
    (w2 0x041 1 2 0 0 0 0 (mr 1 0 1 0 9), .sub c2 .rne (.v 1) (.v 2) (.imm (.int 9))),
    (w2 0x042 1 2 0 0 0 0 (mr 1 2 3 0 9), .mul c2 .rup (.v 1) (.v 2) (.imm (.f32 9))),
    (w2 0x043 1 2 3 0 0 0 (mr 0 3 0 0 0), .div c2 .rdn (.v 1) (.v 2) (.reg (.v 3))),
    (w2 0x044 1 2 3 0 0 0 0, .fldiv c2 (.v 1) (.v 2) (.reg (.v 3))), (w2 0x045 1 2 3 0 0 0 0, .mod c2 (.v 1) (.v 2) (.reg (.v 3))),
    (w2 0x046 1 2 0 0 0 0 0, .neg c2 (.v 1) (.v 2)), (w2 0x047 1 2 0 0 0 0 0, .abs c2 (.v 1) (.v 2)),
    (w2 0x048 1 2 3 0 0 0 0, .min c2 (.v 1) (.v 2) (.reg (.v 3))), (w2 0x049 1 2 3 0 0 0 0, .max c2 (.v 1) (.v 2) (.reg (.v 3))),
    (w2 0x04A 1 2 3 4 0 0 0, .fma c2 .rne (.v 1) (.v 2) (.reg (.v 3)) (.v 4)),
    (w2 0x04B 1 2 3 0 0 0 0, .eq c2 1 (.v 2) (.reg (.v 3))), (w2 0x04C 23 2 0 0 0 0 (mr 1 0 6 0 1), .ne c2 23 (.v 2) (.imm (.bool true))),
    (w2 0x04D 1 2 3 0 0 0 0, .lt c2 1 (.v 2) (.reg (.v 3))), (w2 0x04E 1 2 3 0 0 0 0, .le c2 1 (.v 2) (.reg (.v 3))),
    (w2 0x04F 1 2 0 0 0 0 0, .truth c2 1 (.v 2)), (w2 0x050 1 2 0 0 0 0 0, .hash c2 (.v 1) (.v 2)),
    (w2 0x051 1 2 3 0 0 0 0, .and c2 (.v 1) (.v 2) (.reg (.v 3))), (w2 0x052 1 2 3 0 0 0 0, .or c2 (.v 1) (.v 2) (.reg (.v 3))),
    (w2 0x053 1 2 3 0 0 0 0, .xor c2 (.v 1) (.v 2) (.reg (.v 3))), (w2 0x054 1 2 3 0 0 0 0, .shl c2 (.v 1) (.v 2) (.reg (.v 3))),
    (w2 0x055 1 2 3 0 0 0 0, .shr c2 (.v 1) (.v 2) (.reg (.v 3)))] := by decide

/-- Table 13.1: the integer instructions. -/
theorem test_words_integer : reads [
    (w2 0x100 1 2 3 0 0 1 (mr 0 0 0 1 0), .iadd c2 .i32 true (.v 1) (.v 2) (.reg (.v 3))),
    (w2 0x101 1 2 0 0 0 2 (mr 1 0 0 0 8), .isub c2 .i64 false (.v 1) (.v 2) (.imm 8)),
    (w2 0x102 1 2 3 0 0 3 0, .imul c2 .n32 false (.v 1) (.v 2) (.reg (.v 3))),
    (w2 0x103 1 2 3 0 0 4 0, .imulh c2 .n64 (.v 1) (.v 2) (.reg (.v 3))),
    (w2 0x104 1 2 3 4 0 2 0, .imad c2 .i64 false (.v 1) (.v 2) (.reg (.v 3)) (.v 4)),
    (w2 0x105 1 2 3 0 0 2 0, .idiv c2 .i64 (.v 1) (.v 2) (.reg (.v 3))), (w2 0x106 1 2 3 0 0 2 0, .irem c2 .i64 (.v 1) (.v 2) (.reg (.v 3))),
    (w2 0x107 1 2 3 0 0 2 0, .imin c2 .i64 (.v 1) (.v 2) (.reg (.v 3))), (w2 0x108 1 2 3 0 0 2 0, .imax c2 .i64 (.v 1) (.v 2) (.reg (.v 3))),
    (w2 0x109 1 2 0 0 0 1 0, .iabs c2 .i32 false (.v 1) (.v 2)), (w2 0x10A 1 2 0 0 0 2 (mr 0 0 0 1 0), .ineg c2 .i64 true (.v 1) (.v 2)),
    (w2 0x10B 5 2 3 0 0 2 (mr 0 0 0 5 0), .icmp c2 .i64 .ge 5 (.v 2) (.reg (.v 3)))] := by decide

/-- Table 13.1: the bit, move and predicate instructions. -/
theorem test_words_bits : reads [
    (w2 0x10C 1 2 3 0 0 14 0, .band c2 .b32 (.v 1) (.v 2) (.reg (.v 3))), (w2 0x10D 1 2 3 0 0 15 0, .bor c2 .b64 (.v 1) (.v 2) (.reg (.v 3))),
    (w2 0x10E 1 2 3 0 0 15 0, .bxor c2 .b64 (.v 1) (.v 2) (.reg (.v 3))), (w2 0x10F 1 2 0 0 0 15 0, .bnot c2 .b64 (.v 1) (.v 2)),
    (w2 0x110 1 2 3 0 0 15 0, .bshl c2 .b64 (.v 1) (.v 2) (.reg (.v 3))), (w2 0x111 1 2 3 0 0 15 0, .bshr c2 .b64 (.v 1) (.v 2) (.reg (.v 3))),
    (w2 0x112 1 2 3 0 0 15 0, .bsar c2 .b64 (.v 1) (.v 2) (.reg (.v 3))), (w2 0x113 1 2 3 0 0 15 0, .brol c2 .b64 (.v 1) (.v 2) (.reg (.v 3))),
    (w2 0x114 1 2 0 0 0 15 0, .popc c2 .b64 (.v 1) (.v 2)), (w2 0x115 1 2 0 0 0 15 0, .clz c2 .b64 (.v 1) (.v 2)),
    (w2 0x116 1 2 0 0 0 15 0, .ctz c2 .b64 (.v 1) (.v 2)), (w2 0x117 1 2 0 0 0 15 0, .brev c2 .b64 (.v 1) (.v 2)),
    (w2 0x118 1 2 0 0 0 1 (mr 1 0 0 0 0x0804), .bfx c2 .i32 (.v 1) (.v 2) (.imm 0x0804)),
    (w2 0x119 1 2 3 4 0 15 0, .bfi c2 .b64 (.v 1) (.v 2) (.reg (.v 3)) (.v 4)),
    (w2 0x11A 1 2 3 4 0 0 0, .sel c2 (.v 1) (.v 2) (.reg (.v 3)) 4), (w2 0x11B 383 0x205 0 0 6 0 0, .mov ⟨.interlocked false, .always, 6⟩ (.g 63) (.ix 5)),
    (w2 0x11C 1 0 0 0 0 2 (mr 1 0 0 0 0xFFFFFFFF), .movi c2 (.v 1) (.typed .i64 0xFFFFFFFF)),
    (w2 0x11C 1 0 0 0 0 0 (mr 1 0 1 0 5), .movi c2 (.v 1) (.gen (.int 5))),
    (w2 0x11D 1 2 3 0 0 15 (mr 0 0 0 3 0), .lea c2 3 (.v 1) (.v 2) (.reg (.v 3))),
    (w2 0x11E 1 2 3 4 0 0 (mr 0 0 0 0xE8 0), .plop c2 0xE8 1 2 3 4), (w2 0x11F 1 2 0 0 0 0 0, .pbool c2 (.v 1) 2)] := by decide

/-- Table 13.3: the float instructions. -/
theorem test_words_float : reads [
    (w2 0x180 1 2 3 0 0 6 (mr 0 1 0 0 0), .fadd c2 (.one .f32) .rtz (.v 1) (.v 2) (.reg (.v 3))),
    (w2 0x181 1 2 0 0 0 16 (mr 1 0 0 0 8), .fsub c2 .f16x4 .rne (.v 1) (.v 2) (.imm 8)),
    (w2 0x182 1 2 3 0 0 17 0, .fmul c2 .bf16x4 .rne (.v 1) (.v 2) (.reg (.v 3))),
    (w2 0x183 1 2 3 4 0 5 0, .ffma c2 (.one .f64) .rne (.v 1) (.v 2) (.reg (.v 3)) (.v 4)),
    (w2 0x184 1 2 3 0 0 6 0, .fdiv c2 .f32 .rne (.v 1) (.v 2) (.reg (.v 3))), (w2 0x185 1 2 0 0 0 6 0, .fsqrt c2 .f32 .rne (.v 1) (.v 2)),
    (w2 0x186 1 2 0 0 0 7 0, .frcp c2 .f16 .rne (.v 1) (.v 2)), (w2 0x187 1 2 0 0 0 8 0, .frsq c2 .bf16 .rne (.v 1) (.v 2)),
    (w2 0x188 1 2 3 0 0 6 0, .fmin c2 (.one .f32) (.v 1) (.v 2) (.reg (.v 3))),
    (w2 0x189 1 2 3 0 0 6 0, .fmax c2 (.one .f32) (.v 1) (.v 2) (.reg (.v 3))),
    (w2 0x18A 1 2 0 0 0 16 0, .fabs c2 .f16x4 (.v 1) (.v 2)), (w2 0x18B 1 2 0 0 0 6 0, .fneg c2 (.one .f32) (.v 1) (.v 2)),
    (w2 0x18C 1 2 3 0 0 6 (mr 0 0 0 6 0), .fcmp c2 .f32 .un 1 (.v 2) (.reg (.v 3))),
    (w2 0x18D 1 2 0 0 0 6 0, .fexp2 c2 .f32 (.v 1) (.v 2)), (w2 0x18E 1 2 0 0 0 6 0, .flog2 c2 .f32 (.v 1) (.v 2)),
    (w2 0x18F 1 2 0 0 0 6 0, .fsin c2 .f32 (.v 1) (.v 2)), (w2 0x190 1 2 0 0 0 6 0, .fcos c2 .f32 (.v 1) (.v 2)),
    (w2 0x191 1 2 0 0 0 7 0, .ftanh c2 .f16 (.v 1) (.v 2)), (w2 0x192 1 2 0 0 0 6 (mr 0 2 0 0 0), .frnd c2 .f32 .rup (.v 1) (.v 2)),
    (w2 0x193 1 2 0 0 0 6 0, .fclass c2 .f32 (.v 1) (.v 2)),
    (w2 0x194 1 2 0 0 0 6 (mr 1 0 0 0 0xFFFFFFFF), .fscale c2 .f32 .rne (.v 1) (.v 2) (.imm 0xFFFFFFFF))] := by decide

/-- Tables 11.9 and 11.11: conversions and tags. -/
theorem test_words_tags : reads [
    (w2 0x200 1 2 0 0 0 1 (mr 0 1 0 6 0), .cvt c2 .i32 .f32 false .rtz (.v 1) (.v 2)),
    (w2 0x200 1 2 0 0 0 1 (mr 0 0 0 0x22 0), .cvt c2 .i32 .i64 true .rne (.v 1) (.v 2)),
    (w2 0x201 1 2 3 0 0 9 0, .cvtpk c2 .e4m3 (.v 1) (.v 2) (.v 3)), (w2 0x202 1 2 3 0 0 10 0, .cvtxp c2 .e2m1 (.v 1) (.v 2) (.v 3)),
    (w2 0x203 1 2 0 0 0 18 0, .box c2 (.ofType .i8) (.v 1) (.v 2)), (w2 0x203 1 2 0 0 0 0 (mr 0 0 0 8 0), .box c2 (.ofTag .sym) (.v 1) (.v 2)),
    (w2 0x204 1 2 0 0 0 0 0, .unbox c2 (.v 1) (.v 2)), (w2 0x205 1 2 0 0 0 0 0, .tagof c2 (.v 1) (.v 2)),
    (w2 0x206 1 2 0 0 0 0 (mr 0 0 0 9 0), .tagset c2 .ref (.v 1) (.v 2)),
    (w2 0x207 1 2 0 0 0 0 (mr 1 0 0 0 0x0002), .tagchk c2 1 (.v 2) 2)] := by decide

/-- Tables 15.3 and 19.3: memory and object instructions. -/
theorem test_words_memory : reads [
    (w2 0x240 1 2 0 0 0 15 (mm 0 1 1 1 0 16), .ld c2 .b64 .glb .acq true true (.v 1) (.v 2) 16),
    (w2 0x241 0 2 3 0 0 12 (mm 2 2 0 0 0 0xFFFFFF), .st c2 .b8 .spd .rel false (.v 2) (.v 3) 0xFFFFFF),
    (w2 0x242 1 2 3 4 0 15 (mm 0 3 0 1 7 0), .atom c2 .cas .b64 .glb .ar true (.v 1) (.v 2) (.v 3) (.cas (.v 4)) 0),
    (w2 0x242 1 2 3 9 0 6 (mm 4 0 0 0 0x88 0), .atom c2 .fadd .f32 .chp .none false (.v 1) (.v 2) (.v 3) (.stat 9) 0),
    (w2 0x243 0 2 3 0 0 3 (mm 1 2 0 0 2 0), .red c2 .max .n32 .lan .rel false (.v 2) (.v 3) 0),
    (w2 0x244 1 4 6 8 0 15 (mm 3 4 0 0 0x85 0), .casw c2 .cls .sc false (some 5) (.v 1) (.v 4) (.v 6) (.v 8) 0),
    (w2 0x245 0 0 0 0 0 0 (mm 0 4 0 0 0 0), .fence c2 .sc), (w2 0x246 0 2 0 0 0 0 (mm 0 0 0 0 1 64), .pref c2 true (.v 2) 64),
    (w2 0x2C0 1 0 0 4 0 0 (mr 1 0 0 0 32), .nalloc c2 (.imm 32) (.v 1) 4), (w2 0x2C0 1 0 3 4 0 0 0, .nalloc c2 (.reg (.v 3)) (.v 1) 4),
    (w2 0x2C1 1 2 0 0 0 15 (mm 0 4 0 1 0x83 8), .hdrld c2 .sc true (some 3) (.v 1) (.v 2) 8),
    (w2 0x2C2 1 2 3 4 0 15 (mm 0 2 0 0 0x83 8), .fwdcas c2 .rel (some 3) (.v 1) (.v 2) (.v 3) (.v 4) 8),
    (w2 0x2C3 3 2 0 0 0 0 0, .refchk c2 3 (.v 2))] := by decide

/-- Tables 21.2, 21.4 and 23.4: barriers, promises and group operations. -/
theorem test_words_sync : reads [
    (w2 0x300 0 2 3 4 0 0 (mm 2 0 0 0 0 16), .barinit c2 false (.v 2) (.v 3) (.v 4) 16),
    (w2 0x301 1 2 3 0 0 0 (mm 3 0 0 0 0 16), .bararr c2 true (.v 1) (.v 2) (.v 3) 16),
    (w2 0x302 1 2 3 0 0 0 (mm 2 0 0 0 0 0), .bartx c2 false (.v 1) (.v 2) (.v 3) 0),
    (w2 0x303 1 2 3 0 0 0 (mw 3 0 31), .bwait c2 true 31 (.v 1) (.v 2) (.v 3)),
    (w2 0x304 1 2 3 4 0 0 (mw 2 0 0), .btest c2 false (.v 1) (.v 2) (.v 3) 4),
    (w2 0x305 0 2 0 0 0 0 (mm 0 0 0 0 0 8), .pinit c2 (.v 2) 8), (w2 0x306 0 2 3 0 0 0 (mm 0 0 0 0 0 8), .pfill c2 (.v 2) (.v 3) 8),
    (w2 0x307 1 2 3 4 0 0 0, .peq c2 (.v 1) (.v 2) (.v 3) 4), (w2 0x308 1 2 0 0 0 0 (mw 0 0 7), .pwait c2 7 (.v 1) (.v 2)),
    (w2 0x309 1 2 0 4 0 0 0, .pget c2 (.v 1) (.v 2) 4), (w2 0x30A 1 2 0 0 0 0 0, .proot c2 (.v 1) (.v 2)),
    (w2 0x340 1 2 0 0 0 0 (mr 0 0 0 0 0), .vote c2 (.any 1 2)), (w2 0x340 1 2 0 0 0 0 (mr 0 0 0 1 0), .vote c2 (.all 1 2)),
    (w2 0x340 1 2 0 0 0 0 (mr 0 0 0 2 0), .vote c2 (.ballot (.v 1) 2)), (w2 0x340 1 2 0 0 0 0 (mr 0 0 0 3 0), .vote c2 (.uni 1 (.v 2))),
    (w2 0x341 1 2 0 5 0 0 (mr 1 0 0 0x83 31), .shfl c2 .xor (.v 1) (.v 2) (.imm 31) (some 5)),
    (w2 0x342 1 2 0 0 0 1 (mr 0 0 0 1 0), .gred c2 .min .i32 (.v 1) (.v 2)),
    (w2 0x343 1 2 0 0 0 15 (mr 0 0 0 0xD 0), .gscan c2 .xor true .b64 (.v 1) (.v 2)),
    (w2 0x344 1 2 0 0 0 0 (mr 0 0 0 1 0), .mtch c2 true (.v 1) (.v 2)), (w2 0x345 1 0 0 0 0 0 0, .elect c2 1)] := by decide

/-- Tables 25.4, 27.1 and 29.3: handles, engines, matches and records. -/
theorem test_words_engines : reads [
    (w2 0x380 1 2 0 0 0 0 (mm 4 1 0 0 0 64), .seal c2 .chp .acq (.v 1) (.v 2) 64), (w2 0x381 0 2 0 0 0 0 0, .unseal c2 (.v 2)),
    (w2 0x382 1 2 0 0 0 0 (mr 0 0 0 7 0), .hinfo c2 .perm (.v 1) (.v 2)),
    (w2 0x3C0 5 1 2 3 0 0 (me 0 2 2 1 0 8), .cpy c2 .glb .spd (.bar (.v 5) true) (.v 1) (.v 2) (.v 3) 8),
    (w2 0x3C1 0 1 2 3 0 0 (me 2 3 1 0 7 0), .cpym c2 .spd (.token 7) (.v 1) (.v 2) (.v 3) 0),
    (w2 0x3C2 0 1 2 3 0 0 (me 4 0 0 4 0 0), .cpyg c2 .chp .glb .chp .none (.v 1) (.v 2) (.v 3) 0),
    (w2 0x3C3 5 1 2 3 0 0 (me 0 0 1 0 3 0), .cpyr c2 .glb (some 3) (.v 5) (.v 1) (.v 2) (.v 3) 0),
    (w2 0x3C4 1 2 0 4 0 0 0, .ralloc c2 (.v 1) (.v 2) 4), (w2 0x3C5 0 2 0 0 0 0 0, .rcommit c2 (.v 2)),
    (w2 0x3C6 0 0 0 0 0 0 0, .rdone c2), (w2 0x3C7 1 2 0 0 0 0 0, .rflush c2 (.v 1) (.v 2)),
    (w2 0x3C8 1 2 3 4 0 0 (me 0 0 1 0 2 0), .rcard c2 (some 2) (.v 1) (.v 2) (.v 3) (.v 4)),
    (w2 0x3C9 1 2 3 4 0 0 (me 2 0 0 0 0 0), .nmatch c2 .spd (.v 1) (.v 2) (.v 3) (.v 4)),
    (w2 0x3CA 1 2 0 0 0 0 0, .nunmatch c2 (.v 1) (.v 2))] := by decide

/-- Table 25.6: the tile stream. -/
theorem test_words_tiles : ∀ e ∈ ([
    (w2 0x390 47 1 0 0 0 0 0, .tclaim false 47 1), (w2 0x391 7 8 0 0 0 0 1, .trel true 7 8),
    (w2 0x392 3 1023 5 1000 0 0 (mt 1 2 3 0 1 1 1 9), .tload 3 1023 ⟨5, 1000, 1, 2, 3, 0⟩ true (some ⟨9, true⟩)),
    (w2 0x393 1 0 2 0 0 0 0, .tmma 1 0 2), (w2 0x394 2 8 1 2 0 0 (mt 0 1 0 2 0 0 0 0), .tstore 2 8 ⟨1, 2, 0, 1, 0, 2⟩),
    (w2 0x395 7 0 0 0 0 0 0, .tzero 7), (w2 0x396 15 0 0 0 0 0 0, .tarr 15), (w2 0x397 15 0 0 0 0 0 1, .tbwt 15 true),
    (w2 0x398 0 0 0 0 0 0 16777215, .tloop 0xFFFFFF), (w2 0x399 0 0 0 0 0 0 0, .tendl), (w2 0x39A 0 0 0 0 0 0 0, .tstop),
    (w2 0x39B 0 0 0 0 0 0 0x7FFF8, .tchk 0x7FFF8)] : List (BitVec 128 × Instr)), decode true true e.1 = .ok e.2 := by decide

/-- Table 7.12, row by row: words that stand for no instruction, with the fault of each. -/
theorem test_words_refused : ∀ e ∈ ([
    (w2 0x056 0 0 0 0 0 0 0, .illegalInstruction), (w2 0x3F0 0 0 0 0 0 0 0, .illegalInstruction),
    (w2 0x399 0 0 0 0 0 0 0, .illegalContext), (w2 0x100 1 2 3 0 0 20 0, .illegalInstruction),
    (w2 0x100 1 2 3 0 0 5 0, .illegalInstruction), (w2 0x044 1 2 3 0 0 0 (mr 0 1 0 0 0), .illegalInstruction),
    (w2 0x240 1 2 0 0 0 15 (mm 5 0 0 0 0 0), .illegalInstruction), (w2 0x240 1 2 0 0 0 15 (mm 0 2 0 0 0 0), .illegalInstruction),
    (w2 0x3C0 0 1 2 3 0 0 (me 0 0 3 0 0 0), .illegalInstruction), (w2 0x046 1 2 3 0 0 0 0, .illegalInstruction),
    (w2 0x046 1 2 0 0 1 0 0, .illegalInstruction), (w2 0x11E 0x201 2 3 4 0 0 0, .illegalInstruction),
    (w2 0x046 1 404 0 0 0 0 0, .illegalOperand), (w2 0x046 1 0x340 0 0 0 0 0, .illegalOperand),
    (w2 0x046 384 2 0 0 0 0 0, .illegalOperand), (w2 0x11E 24 2 3 4 0 0 0, .illegalOperand)] :
    List (BitVec 128 × Reject)), decode false false e.1 = .error e.2 := by decide

/-! ### Ill-formed instructions: each limit of WellFormed refuses one -/

/-- A control word that names an index register which no operand uses (R84). -/
abbrev cx : Ctl := ⟨.interlocked false, .always, 3⟩
/-- A guard. -/
abbrev cg : Ctl := ⟨.interlocked false, .on false 2, 0⟩

theorem test_ill_formed_control : ∀ i ∈ ([.nop cx, .mov cx (.v 1) (.v 2), .ret ⟨.interlocked false, 3⟩ (.v 1), .bra cg 4 0, .brx c2 (.v 1) 0,
    .twait u2 0, .mts c2 (.v 1) .clock, .mts c2 (.v 1) .allot, .mts c2 (.v 1) .pstack, .mts c2 (.v 1) .cnt, .mts c2 (.v 1) .tok,
    .mts c2 (.v 1) .hop, .mts c2 (.v 1) .hpc, .mts c2 (.v 1) .energy, .mts c2 (.v 1) .budget] : List Instr), i.wf = false := by decide

theorem test_ill_formed_types : ∀ i ∈ ([.movi c2 (.v 1) (.typed .e4m3 0), .movi c2 (.v 1) (.typed .e8m0 0), .cvt c2 .f16x4 .i32 false .rne (.v 1) (.v 2),
    .cvt c2 .f32 .b32 false .rne (.v 1) (.v 2), .cvt c2 .b32 .f32 false .rne (.v 1) (.v 2), .cvt c2 .i32 .f32 true .rne (.v 1) (.v 2),
    .box c2 (.ofType .b32) (.v 1) (.v 2), .box c2 (.ofTag .raw) (.v 1) (.v 2), .box c2 (.ofTag .res14) (.v 1) (.v 2),
    .tagset c2 .res14 (.v 1) (.v 2), .gred c2 .and .i32 (.v 1) (.v 2), .gscan c2 .add false .b32 (.v 1) (.v 2)] : List Instr),
    i.wf = false := by decide

theorem test_ill_formed_memory : ∀ i ∈ ([.ld c2 .e2m1 .glb .none false false (.v 1) (.v 2) 0, .ld c2 .b64 .glb .rel false false (.v 1) (.v 2) 0,
    .ld c2 .b32 .glb .none true false (.v 1) (.v 2) 0, .ld c2 .b64 .spd .none false true (.v 1) (.v 2) 0,
    .st c2 .e2m1 .glb .none false (.v 1) (.v 2) 0, .st c2 .b64 .glb .acq false (.v 1) (.v 2) 0, .st c2 .b64 .lan .none true (.v 1) (.v 2) 0,
    .atom c2 .add .b64 .glb .none false (.v 1) (.v 2) (.v 3) .none 0, .atom c2 .cas .b64 .glb .none false (.v 1) (.v 2) (.v 3) .none 0,
    .atom c2 .add .i64 .glb .none false (.v 1) (.v 2) (.v 3) (.stat 1) 0, .atom c2 .add .i64 .cls .none true (.v 1) (.v 2) (.v 3) .none 0,
    .red c2 .exch .b64 .glb .none false (.v 1) (.v 2) 0, .red c2 .add .i64 .glb .sc false (.v 1) (.v 2) 0,
    .casw c2 .lan .none false none (.v 1) (.v 2) (.v 3) (.v 5) 0, .casw c2 .spd .none true none (.v 1) (.v 2) (.v 3) (.v 5) 0,
    .fence c2 .none, .nalloc c2 (.imm 0) (.v 1) 0, .nalloc c2 (.imm 24) (.v 1) 0, .nalloc c2 (.imm 1048592) (.v 1) 0,
    .hdrld c2 .rel false none (.v 1) (.v 2) 0, .seal c2 .cls .none (.v 1) (.v 2) 0, .seal c2 .glb .rel (.v 1) (.v 2) 0] : List Instr),
    i.wf = false := by decide

theorem test_ill_formed_tiles_and_engines : ∀ i ∈ ([.tclaim false 48 1, .tclaim false 0 0, .tclaim false 0 49, .trel true 8 1, .trel true 0 9, .tloop 0,
    .tchk 4, .cpy c2 .lan .glb .none (.v 1) (.v 2) (.v 3) 0, .cpy c2 .glb .lan .none (.v 1) (.v 2) (.v 3) 0,
    .cpym c2 .cls .none (.v 1) (.v 2) (.v 3) 0, .cpym c2 .glb (.bar (.v 1) true) (.v 1) (.v 2) (.v 3) 0,
    .cpyg c2 .cls .glb .glb .none (.v 1) (.v 2) (.v 3) 0, .cpyr c2 .lan none (.v 5) (.v 1) (.v 2) (.v 3) 0,
    .nmatch c2 .cls (.v 1) (.v 2) (.v 3) (.v 4)] : List Instr), i.wf = false := by decide

/-- At the limits the instructions are well formed. -/
theorem test_well_formed_limits : ∀ i ∈ ([.mov cx (.v 1) (.ix 2), .bra c2 4 0, .bra cg 4 1, .mts c2 (.v 1) (.x 7), .cvt c2 .e8m0 .i16 false .rne (.v 1) (.v 2),
    .cvt c2 .i8 .n64 true .rne (.v 1) (.v 2), .box c2 (.ofTag .link) (.v 1) (.v 2), .tagset c2 .raw (.v 1) (.v 2),
    .ld c2 .n64 .glb .sc true true (.v 1) (.v 2) 0, .red c2 .fmax .f64 .glb .rel true (.v 1) (.v 2) 0, .nalloc c2 (.imm 16) (.v 1) 0,
    .nalloc c2 (.imm 1048576) (.v 1) 0, .tclaim false 47 48, .trel true 7 8, .tloop 1, .tchk 8,
    .cpym c2 .chp (.bar (.v 1) false) (.v 1) (.v 2) (.v 3) 0] : List Instr), i.wf = true := by decide

/-! ### States that meet the hypotheses of the statements -/

/-- The place that `withFetchWord` makes, with one lane and values in lane 0 of some vector registers. -/
def regs (mode : Mode) (vs : List (Nat × Val)) : State :=
  { State.reset.withFetchWord 0 0 with
    grp := vs.foldl (fun g e => g.wr (.v e.1 0 e.2)) (Group.start 1 0 1 0 0 20 1 0x40000 mode 0) }
/-- Its path. -/
def path (mode : Mode) : Machine.Path := Path.fresh 0x40000 0 1 false mode none none 0
/-- Each instruction issues there. -/
abbrev issue (s : State) (mode : Mode) (l : List Instr) : Prop := ∀ i ∈ l, Issues i c2 s false (path mode)
/-- Each instruction issues there with lane 0 Active and alone, whose values meet q. -/
abbrev issueWith (s : State) (mode : Mode) (l : List Instr) (q : State → Prop) : Prop :=
  ∀ i ∈ l, Issues i c2 s false (path mode) ∧ (issuedOf i c2 s false (path mode)).act = 1 ∧
    q (issuedOf i c2 s false (path mode)).state
/-- Where lane 0 alone is Active, what holds of lane 0 holds of every Active lane. -/
theorem lane0 {m : Mask} {q : Nat → Prop} (h : m = 1) (h0 : q 0) : ∀ l, m.getLsbD l = true → q l := by
  intro l hl
  subst h
  rcases Nat.lt_or_ge l 32 with k | k
  · have : l = 0 := by
      revert hl
      have : ∀ l < 32, (1 : Mask).getLsbD l = true → l = 0 := by decide
      exact this l k
    exact this ▸ h0
  · rw [BitVec.getLsbD_of_ge _ _ k] at hl
    cases hl

abbrev n5 : Val := .int 5
abbrev n3 : Val := .int 3
abbrev ints : State := regs .user [(2, n5), (3, n3), (4, n3)]

theorem witness_IntegerArithmetic : issue ints .user [.iadd c2 .i32 true (.v 1) (.v 2) (.reg (.v 3)), .isub c2 .i64 false (.v 1) (.v 2) (.imm 3),
    .imul c2 .n32 false (.v 1) (.v 2) (.reg (.v 3)), .imad c2 .n64 true (.g 1) (.v 2) (.reg (.v 3)) (.v 4),
    .imulh c2 .i64 (.v 1) (.v 2) (.reg (.v 3)), .imin c2 .i64 (.v 1) (.v 2) (.reg (.v 3)), .imax c2 .i64 (.v 319) (.v 2) (.reg (.v 3)),
    .iabs c2 .i32 true (.v 1) (.v 2), .ineg c2 .i64 false (.v 1) (.v 2)] := by decide
theorem witness_IntegerDivision : issue ints .user [.idiv c2 .i64 (.v 1) (.v 2) (.imm 0), .irem c2 .i64 (.v 1) (.v 2) (.imm 0xFFFFFFFF),
    .idiv c2 .n32 (.v 1) (.v 2) (.reg (.v 3))] := by decide
theorem witness_BitwiseAndShifts : issue ints .user [.band c2 .b32 (.v 1) (.v 2) (.reg (.v 3)), .bor c2 .b64 (.v 1) (.v 2) (.reg (.v 3)),
    .bxor c2 .b64 (.v 1) (.v 2) (.reg (.v 3)), .bnot c2 .b32 (.v 1) (.v 2), .bshl c2 .b64 (.v 1) (.v 2) (.imm 64),
    .bshr c2 .b64 (.v 1) (.v 2) (.imm 63), .bsar c2 .b32 (.v 1) (.v 2) (.imm 32), .brol c2 .b64 (.v 1) (.v 2) (.imm 0)] := by decide
theorem witness_BitCounts : issue ints .user [.popc c2 .b32 (.v 1) (.v 2), .clz c2 .b64 (.v 1) (.v 2), .ctz c2 .b64 (.v 1) (.sp .zero),
    .brev c2 .b32 (.v 1) (.v 2)] := by decide
theorem witness_BitFields : issue ints .user [.bfx c2 .i32 (.v 1) (.v 2) (.imm 0x0804), .bfi c2 .b64 (.v 1) (.v 2) (.imm 0x4000) (.v 4)] := by decide
theorem witness_CompareAndMove : issue ints .user [.icmp c2 .i64 .ge 0 (.v 2) (.reg (.v 3)), .mov c2 (.g 63) (.sp .clock), .sel c2 (.v 1) (.v 2) (.reg (.v 3)) 23,
    .movi c2 (.v 1) (.gen (.int 0)), .lea c2 7 (.v 1) (.v 2) (.reg (.v 3)), .lea c2 0 (.v 1) (.v 2) (.imm 0xFFFFFFFF)] := by decide
theorem witness_PredicateLogic : issue ints .user [.plop c2 0xE8 23 0 1 2, .pbool c2 (.v 1) 23] := by decide
theorem witness_TagCheckSetsBits : issue ints .user [.tagchk c2 0 (.v 2) 0xFFFF] := by decide
theorem witness_FloatArithmetic : issue ints .user [.fadd c2 .f16x4 .rne (.v 1) (.v 2) (.imm 0), .fsub c2 (.one .f64) .rtz (.v 1) (.v 2) (.reg (.v 3)),
    .fmul c2 .bf16x4 .rup (.v 1) (.v 2) (.reg (.v 3)), .ffma c2 (.one .f32) .rdn (.v 1) (.v 2) (.reg (.v 3)) (.v 4),
    .fdiv c2 .f32 .rne (.v 1) (.v 2) (.reg (.v 3)), .fsqrt c2 .f16 .rne (.v 1) (.v 2), .frcp c2 .bf16 .rne (.v 1) (.v 2),
    .frsq c2 .f64 .rne (.v 1) (.v 2)] := by decide
theorem witness_FloatSelectAndSign : issue ints .user [.fmin c2 .f16x4 (.v 1) (.v 2) (.reg (.v 3)), .fmax c2 (.one .f32) (.v 1) (.v 2) (.reg (.v 3)),
    .fabs c2 .bf16x4 (.v 1) (.v 2), .fneg c2 (.one .f64) (.v 1) (.v 2)] := by decide
theorem witness_FloatCompareClassRoundScale : issue ints .user [.fcmp c2 .f32 .un 0 (.v 2) (.reg (.v 3)), .fclass c2 .f32 (.v 1) (.v 2),
    .frnd c2 .f32 .rup (.v 1) (.v 2), .fscale c2 .f32 .rne (.v 1) (.v 2) (.imm 0xFFFFEF98), .fscale c2 .f64 .rne (.v 1) (.v 2) (.reg (.v 3))] := by decide
theorem witness_FloatFunctions : issue ints .user [.fexp2 c2 .f32 (.v 1) (.v 2), .flog2 c2 .f16 (.v 1) (.v 2), .fsin c2 .bf16 (.v 1) (.v 2),
    .fcos c2 .f32 (.v 1) (.v 2), .ftanh c2 .f32 (.v 1) (.v 2)] := by decide
theorem witness_Conversion : issue ints .user [.cvt c2 .i32 .i64 true .rne (.v 1) (.v 2), .cvt c2 .i8 .f32 false .rtz (.v 1) (.v 2),
    .cvt c2 .e2m1 .n64 false .rne (.v 1) (.v 2), .cvt c2 .f16 .e4m3 false .rup (.v 1) (.v 2)] := by decide
theorem witness_PackedConversions : issue ints .user [.cvtpk c2 .e4m3 (.v 1) (.v 312) (.v 3), .cvtxp c2 .e2m1 (.v 304) (.v 2) (.v 3)] := by decide
theorem witness_TagInstructions : issue ints .user [.box c2 (.ofType .i8) (.v 1) (.v 2), .box c2 (.ofTag .sym) (.v 1) (.v 2), .unbox c2 (.v 1) (.v 2),
    .tagof c2 (.v 1) (.v 2), .tagset c2 .sym (.v 1) (.v 2)] ∧
    boxForges (.ofType .i8) = false ∧ boxForges (.ofTag .sym) = false ∧ tagForges .sym (path .user) = false ∧ tagForges .ref (path .runtime) = false := by
  decide
/-- The least int that overflows, and the greatest that does not. -/
theorem witness_ForgeAndOverflow : issueWith (regs .user [(2, .int 0x7FFFFFFFFFFFFFFF), (3, .int 1)]) .user
    [.box c2 (.ofTag .ref) (.v 1) (.v 2), .tagset c2 .ref (.v 1) (.v 2), .tagset c2 .hnd (.v 1) (.v 2), .add c2 .rne (.v 1) (.v 2) (.reg (.v 3)),
     .sub c2 .rne (.v 1) (.v 2) (.reg (.v 3)), .mul c2 .rne (.v 1) (.v 2) (.imm (.int 2))]
    fun t => (rdSrc t false 0 (.v 2) 0).tag = .int ∧ (rdSrc t false 0 (.v 3) 0).tag = .int := by decide
theorem witness_GenericIntegers : issueWith ints .user [.add c2 .rne (.v 1) (.v 2) (.reg (.v 3)), .sub c2 .rne (.v 1) (.v 2) (.reg (.v 3)),
    .mul c2 .rne (.v 1) (.v 2) (.reg (.v 3)), .min c2 (.v 1) (.v 2) (.reg (.v 3)), .max c2 (.v 1) (.v 2) (.reg (.v 3)), .neg c2 (.v 1) (.v 2),
    .abs c2 (.v 1) (.v 2), .fma c2 .rne (.v 1) (.v 2) (.reg (.v 3)) (.v 4), .fldiv c2 (.v 1) (.v 2) (.reg (.v 3)), .mod c2 (.v 1) (.v 2) (.reg (.v 3)),
    .shl c2 (.v 1) (.v 2) (.reg (.v 3)), .shr c2 (.v 1) (.v 2) (.reg (.v 3)), .div c2 .rne (.v 1) (.v 2) (.reg (.v 3)), .and c2 (.v 1) (.v 2) (.reg (.v 3)),
    .or c2 (.v 1) (.v 2) (.reg (.v 3)), .xor c2 (.v 1) (.v 2) (.reg (.v 3)), .hash c2 (.v 1) (.v 2)]
    fun t => rdSrc t false 0 (.v 2) 0 = n5 ∧ rdSrc t false 0 (.v 3) 0 = n3 ∧ rdSrc t false 0 (.v 4) 0 = n3 := by decide
/-- 1.0 and 2.0 of one family. -/
abbrev floats : State := regs .user [(2, ⟨.f32, 0x3F800000⟩), (3, ⟨.f32, 0x40000000⟩), (4, ⟨.f32, 0x40000000⟩)]
theorem witness_GenericFloats : issueWith floats .user [.add c2 .rne (.v 1) (.v 2) (.reg (.v 3)), .sub c2 .rne (.v 1) (.v 2) (.reg (.v 3)),
    .mul c2 .rne (.v 1) (.v 2) (.reg (.v 3)), .fma c2 .rne (.v 1) (.v 2) (.reg (.v 3)) (.v 4), .div c2 .rne (.v 1) (.v 2) (.reg (.v 3)),
    .min c2 (.v 1) (.v 2) (.reg (.v 3)), .max c2 (.v 1) (.v 2) (.reg (.v 3)), .fldiv c2 (.v 1) (.v 2) (.reg (.v 3)), .mod c2 (.v 1) (.v 2) (.reg (.v 3)),
    .neg c2 (.v 1) (.v 2), .abs c2 (.v 1) (.v 2), .hash c2 (.v 1) (.v 2)]
    fun t => (rdSrc t false 0 (.v 2) 0).tag = .f32 ∧ (rdSrc t false 0 (.v 3) 0).tag = .f32 ∧ (rdSrc t false 0 (.v 4) 0).tag = .f32 ∧
      floatFam .f32 = some (.f32, fmtF32) := by decide
theorem witness_GenericComparisons :
    issueWith ints .user [.lt c2 0 (.v 2) (.reg (.v 3)), .le c2 0 (.v 2) (.reg (.v 3)), .eq c2 0 (.v 2) (.reg (.v 3)), .ne c2 0 (.v 2) (.reg (.v 3)),
      .truth c2 23 (.v 2)] (fun t => (rdSrc t false 0 (.v 2) 0).tag = .int ∧ (rdSrc t false 0 (.v 3) 0).tag = .int) ∧
    issueWith floats .user [.lt c2 0 (.v 2) (.reg (.v 3)), .le c2 0 (.v 2) (.reg (.v 3)), .eq c2 0 (.v 2) (.reg (.v 3)), .ne c2 0 (.v 2) (.reg (.v 3)),
      .truth c2 23 (.v 2)] (fun t => (rdSrc t false 0 (.v 2) 0).tag = .f32 ∧ (rdSrc t false 0 (.v 3) 0).tag = .f32) ∧
    issueWith (regs .user [(2, n5), (3, ⟨.sym, 0⟩)]) .user [.eq c2 0 (.v 2) (.reg (.v 3)), .ne c2 0 (.v 2) (.reg (.v 3))]
      (fun t => (rdSrc t false 0 (.v 2) 0).tag ≠ (rdSrc t false 0 (.v 3) 0).tag ∧ numeric (rdSrc t false 0 (.v 3) 0).tag = false) := by decide

/-- Two lanes, of which predicate 0 has the first: a guard by it splits a path. -/
def wide : State :=
  { State.reset.withFetchWord 0 0 with grp := ((Group.start 1 0 1 0 0 20 3 0x40000 .user 0).wr (.p 0 0 true)).wr (.v 2 1 (.int 0x40200)) }
def path3 : Machine.Path := Path.fresh 0x40000 0 3 false .user none none 0
/-- Guards by predicate 0 and by predicate 1, which is clear. -/
abbrev cg0 : Ctl := ⟨.interlocked false, .on false 0, 0⟩
abbrev cg1 : Ctl := ⟨.interlocked false, .on false 1, 0⟩

/-- Equal refs are lanes that compare by dispatch of no class. -/
theorem witness_GenericComparisons_refs :
    let s := regs .user [(2, ⟨.ref, 0x50000⟩), (3, ⟨.ref, 0x50010⟩)]
    ∀ e ∈ ([(.eq c2 0 (.v 2) (.reg (.v 3)), GOp.eq), (.ne c2 0 (.v 2) (.reg (.v 3)), GOp.ne)] : List (Instr × GOp)),
      Issues e.1 c2 s false (path .user) ∧ (issuedOf e.1 c2 s false (path .user)).act = 1 ∧
        (State.scanAll e.2 [] (genOperands (issuedOf e.1 c2 s false (path .user)).state false 0 (.v 2) (some (.reg (.v 3))) none 1) ⟨[], [], []⟩
          (issuedOf e.1 c2 s false (path .user)).state).1 = ⟨[], [], []⟩ := by decide

/-- No Active lane, the next instruction, every lane, and one of two lanes. -/
theorem witness_DirectTransfers :
    (∀ i ∈ ([.bra cg1 4 8, .call cg1 (.v 1) 4] : List Instr), Issues i cg1 wide false path3 ∧ (issuedOf i cg1 wide false path3).act = 0) ∧
    (∀ i ∈ ([.bra c2 1 0, .bra c2 4 0, .call c2 (.v 1) 0xFFFFFF] : List Instr), Issues i c2 wide false path3 ∧
      (issuedOf i c2 wide false path3).act = 3) ∧
    (∀ i ∈ ([.bra cg0 4 8, .bra cg0 0xFFFFFC 8, .call cg0 (.v 1) 4] : List Instr), Issues i cg0 wide false path3 ∧
      (issuedOf i cg0 wide false path3).act = 1) ∧
    ((issuedOf (.bra cg0 4 8) cg0 wide false path3).state.grp.split 1 false path3 0x40080 [⟨0x40010, 2, none⟩, ⟨0x40040, 1, none⟩]).isSome = true ∧
    ((issuedOf (.call cg0 (.v 1) 4) cg0 wide false path3).state.grp.split 1 false path3 0x40010
      [⟨0x40040, 1, none⟩, ⟨0x40010, 2, none⟩]).isSome = true := by decide
/-- One lane with an address, with no address, and with bad ones; and two lanes of which the second has another address than the
first, or is not Active. -/
theorem witness_IndirectTransfers :
    (let is : List Instr := [.brx c2 (.v 2) 8, .callx c2 (.v 1) (.v 2), .ret u2 (.v 2)]
     issueWith (regs .user [(2, .raw 0x00FFFFFFFFFFFFF0)]) .user is (fun t => (rdSrc t false 0 (.v 2) 0).isNum = true) ∧
     issueWith (regs .user [(2, Val.nil)]) .user is (fun t => (rdSrc t false 0 (.v 2) 0).isNum = false) ∧
     issueWith (regs .user [(2, .int 0x40108)]) .user is (fun t => (rdSrc t false 0 (.v 2) 0).pay.toNat % 16 ≠ 0) ∧
     issueWith (regs .user [(2, .raw 0x0100000000000000)]) .user is
       (fun t => (rdSrc t false 0 (.v 2) 0).isNum = true ∧ 2 ^ 56 ≤ (rdSrc t false 0 (.v 2) 0).pay.toNat)) ∧
    (let s : State := { wide with grp := wide.grp.wr (.v 2 0 (.int 0x40100)) }
     (∀ i ∈ ([.brx c2 (.v 2) 8, .callx c2 (.v 1) (.v 2), .ret u2 (.v 2)] : List Instr), Issues i c2 s false path3 ∧
       (issuedOf i c2 s false path3).act = 3 ∧ (rdSrc s false 0 (.v 2) 0).pay = 0x40100 ∧ (rdSrc s false 0 (.v 2) 1).pay = 0x40200) ∧
     ((issuedOf (.brx c2 (.v 2) 8) c2 s false path3).state.grp.split 1 false path3 0x40080
       [⟨0x40100, 1, none⟩, ⟨0x40200, 2, none⟩]).isSome = true ∧
     ((issuedOf (.ret u2 (.v 2)) c2 s false path3).state.grp.splitRet 1 false path3 [(0x40100, 1), (0x40200, 2)]).isSome = true ∧
     (∀ i ∈ ([.brx cg0 (.v 2) 8, .callx cg0 (.v 1) (.v 2)] : List Instr), Issues i cg0 s false path3 ∧ (issuedOf i cg0 s false path3).act = 1)) :=
  ⟨⟨by decide, by decide, by decide, by decide⟩, by decide⟩
theorem witness_PlainControl :
    (∀ i ∈ ([.nop c2, .exit c2, .yield u2] : List Instr), Issues i c2 wide false path3) ∧
    (Issues (.exit cg1) cg1 wide false path3 ∧ (issuedOf (.exit cg1) cg1 wide false path3).act = 0) ∧
    (issuedOf (.exit c2) c2 wide false path3).act = 3 ∧ wide.grp.st ≠ .saving ∧
    (let s := wide.setGrp fun g => { g with st := .saving }
     Issues (.exit c2) c2 s false path3 ∧ (issuedOf (.exit c2) c2 s false path3).act = 3 ∧
       (issuedOf (.exit c2) c2 s false path3).state.grp.st = .saving) := by decide

/-- A launch whose debug stops are on. -/
def stopping (s : State) : State := { s with dev := { s.dev with sessions := [⟨⟨1, [0], true, true, true, []⟩, true, false⟩] } }
theorem witness_TrapAndBreak :
    (∀ i ∈ ([.trap c2 7, .brk c2 7] : List Instr), Issues i c2 wide false path3 ∧ (issuedOf i c2 wide false path3).act ≠ 0 ∧
      Issues i c2 (stopping wide) false path3 ∧ (issuedOf i c2 (stopping wide) false path3).act ≠ 0 ∧
      (stopping wide).stopsOn 1 0 = true ∧ wide.stopsOn 1 0 = false) ∧
    (∀ i ∈ ([.trap cg1 7, .brk cg1 7] : List Instr), Issues i cg1 wide false path3 ∧ (issuedOf i cg1 wide false path3).act = 0) ∧
    (wide.blk? wide.grp.blk).map (fun k => (k.pid, k.queue)) = some (1, 0) := by decide

/-- A group with a trap vector. -/
def vectored (s : State) : State := s.setGrp fun g => { g with trapvec := 0x80000 }
theorem witness_TrapEntry : let s := vectored wide
    s.cur = some (false, path3) ∧ path3.hl = false ∧ path3.mask ≠ 0 ∧ (s.grp.trapvec.setWidth 56 &&& 0xFFFFFFFFFFFFF0 : BitVec 56) = 0x80000 ∧
      s.grp.stack.length + s.grp.under.length < 64 ∧ s.grp.freeFrames ≠ [] ∧ lowestFree (joinNos (s.grp.stack ++ s.grp.under)) 64 = some 0 := by decide
/-- A handler path, entered by a trap of lane 0. -/
def trapped : State := (vectored (regs .user [])).takeTrap (faceOf (regs .user []) (.trap c2 7)) 0 0x40000 7 1 false
/-- Its path. -/
def handler : Machine.Path := (trapped.grp.slot false).getD (path .user)
theorem witness_UndeliveredFaultsKill :
    (trapped.cur = some (false, handler) ∧ handler.hl = true ∧ trapped.grp.st ≠ .saving) ∧
    (wide.cur = some (false, path3) ∧ path3.hl = false ∧ wide.grp.trapvec = 0) ∧
    (let s := (vectored wide).setGrp fun g => { g with frames := (List.range 8).map fun k => (k, Face.none.frame true 0 0 0 0 0) }
     s.cur = some (false, path3) ∧ s.grp.freeFrames = [] ∧ s.grp.trapvec ≠ 0) := by decide
theorem witness_TrapReturn :
    (IssuesU (.tret u2) u2 { trapped with now := 1 } false handler ∧ handler.joinNo = some 0 ∧ handler.kind = .handler ∧
      ((findJoin 0 (issuedU (.tret u2) u2 { trapped with now := 1 } false handler).state.grp.stack).map Join.hj) = some true) ∧
    (IssuesU (.tret u2) u2 wide false path3 ∧ path3.kind ≠ .handler ∧ path3.joinNo = none) := by decide
/-- The handler returns: TRET gives the path, in its own mode, back at the next instruction. -/
theorem test_tret_returns : (((trapped.setGrp fun g => g).grp.ret 2 false).bind fun g => (g.slot false).map fun p => (p.pc, p.mode, p.mask, p.kind)) =
    some (0x40010, .user, 1, .normal) := by decide
/-- A trap saves cause, address and code, and enters the vector in runtime mode (R365). -/
theorem test_trap_enters : (trapped.grp.fcause, trapped.grp.faddr, trapped.grp.tcode, handler.pc, handler.mode, handler.kind) =
    (0, 0x40000, 7, 0x80000, .runtime, .handler) := by decide
theorem witness_JoinsAndJumps :
    (let g := trapped.grp.modSlot false fun p => { p with pc := p.joinPc }
     (g.slot false).map (fun p => (p.joinNo, p.pc == p.joinPc, p.mask)) = some (some 0, true, 1) ∧
       (findJoin 0 g.stack).map (fun j => (j.arrived ||| 1 == j.mask, j.outer)) = some (true, none)) ∧
    (wide.grp.slot false = some path3 ∧ path3.joinNo = none) := by decide

/-! Waits, system registers and regions. -/

theorem witness_CountedAndTokenWaits :
    (IssuesU (.cwait u2 0 0 0 0) u2 wide false path3 ∧ (issuedU (.cwait u2 0 0 0 0) u2 wide false path3).state.grp.ld = 0) ∧
    (IssuesU (.twait u2 0x80) u2 wide false path3 ∧ wide.grp.busy = 0 ∧ wide.grp.tokFault = []) ∧
    (let s := wide.setGrp fun g => { g with tokFault := [(7, 0x06, 0x1000)] }
     IssuesU (.twait u2 0x80) u2 s false path3 ∧ tokFaultOf 0x80 s.grp.tokFault = some (7, 0x06, 0x1000)) ∧
    (let s := wide.setGrp fun g => { g with busy := 0x80 }
     IssuesU (.twait u2 0x80) u2 s false path3 ∧ s.grp.busy &&& 0x80 ≠ 0) := by decide
theorem witness_SystemRegisterMoves :
    Issues (.mfs c2 (.v 1) .savebudget) c2 ints false (path .user) ∧
    issueWith (regs .runtime [(2, .raw 0x12345)]) .runtime [.mts c2 (.v 2) .trapvec, .mts c2 (.v 2) (.x 7)]
      (fun t => (rdSrc t false 0 (.v 2) 0).isNum = true) ∧
    issueWith (regs .runtime [(2, Val.nil)]) .runtime [.mts c2 (.v 2) .dispatch] (fun t => (rdSrc t false 0 (.v 2) 0).isNum = false) ∧
    (Issues (.mts cg1 (.v 2) (.x 0)) cg1 wide false path3 ∧ (issuedOf (.mts cg1 (.v 2) (.x 0)) cg1 wide false path3).act = 0) := by decide
theorem witness_SystemRegisterContents : ints.grp.gcmode.getLsbD 0 = false ∧ (trapped.grp.frameOf handler).isSome = true ∧ (path .user).frame = none := by
  decide
theorem witness_PrivilegeAndRegions :
    (ints.cur = some (false, path .user) ∧ (path .user).user = true) ∧
    (∀ i ∈ ([.idem u2, .idend u2] : List Instr), IssuesU i u2 ints false (path .user) ∧
      (issuedU i u2 ints false (path .user)).state.grp.slot true = none ∧ (issuedU i u2 ints false (path .user)).state.grp.stack = [] ∧
      (issuedU i u2 ints false (path .user)).state.grp.under = [] ∧
      IssuesU i u2 { trapped with now := 1 } false handler ∧ (issuedU i u2 { trapped with now := 1 } false handler).state.grp.stack ≠ []) := by decide
theorem witness_SystemEffects :
    issueWith (regs .runtime [(2, .raw 0x50000)]) .runtime [.tlbiAll c2, .tlbiPage c2 (.v 2), .trig c2 63, .mark c2 (.v 2) 255, .fence c2 .sc,
      .fence c2 .acq, .pref c2 true (.v 2) 0, .pref c2 false (.v 2) 64] (fun t => (t.blk? t.grp.blk).isSome = true ∧
        rdSrc t false 0 (.v 2) 0 = .raw 0x50000) ∧
    (∀ i ∈ ([.trig cg1 0, .mark cg1 (.v 2) 0, .fence cg1 .rel, .pref cg1 true (.v 2) 0] : List Instr), Issues i cg1 wide false path3 ∧
      (issuedOf i cg1 wide false path3).act = 0) ∧
    ((regs .runtime []).translate 0 1 0x50000).1 = .leaf pteIdentity 36 ∧ refused pteIdentity .read true = false ∧ pteMT pteIdentity ≠ 2 := by decide
/-- A save handler and a restore path, without a join entry. -/
theorem witness_SystemEffects_svdone : ∀ st ∈ ([.saving, .restoring] : List GroupSt), let s := (regs .runtime []).setGrp fun g => { g with st := st }
    IssuesU (.svdone u2) u2 s false (path .runtime) ∧ (path .runtime).joinNo = none ∧
      (issuedU (.svdone u2) u2 s false (path .runtime)).state.grp.st = st ∧ s.groupCmds 1 0 = false ∧
      (((s.drainGroup 1 0).leaveHandler 1 0 .restoring).blk? 1).isSome = true ∧
      IssuesU (.svdone u2) u2 (regs .runtime []) false (path .runtime) ∧ (regs .runtime []).grp.st = .running := by decide

/-! Memory. -/

/-- The same place on a tagged page, whose translation the core holds. -/
def tagged (s : State) : State :=
  { s with tlb := [⟨0, 1, 0, 36, 0x2700000000000003⟩], dev := { s.dev with regions := [0x3C00000000, 0, 0, 0] } }
/-- An address and values for the memory instructions: a zero word at 0x50000. -/
def mem (mode : Mode) : State := tagged (regs mode [(2, .raw 0x50000), (3, .raw 0), (4, .raw 0x50010), (5, n5), (6, n5), (7, n3), (8, n3), (9, ⟨.ref, 0x60000⟩)])
/-- The place of that word. -/
abbrev word0 : Home := .glb 0x50000 0x2700000000000003
abbrev me0 : Writer := ⟨0, 1, 0, 1⟩
/-- A word of the page with a tag. -/
def withTag (s : State) (w : Nat) (x : Val) : State := { s with tags := sput .raw s.tags w x.tag, mem := wrWord s.mem w x.pay }

theorem witness_MemoryCompletes :
    let p := path .runtime
    ∀ e ∈ ([(.ld c2 .b64 .glb .acq true false (.v 1) (.v 2) 0, fun r => ldOp c2 .b64 .glb .acq true false (.v 1) (.v 2) 0 false r.path r.act r.state),
        (.st c2 .b8 .glb .rel false (.v 2) (.v 5) 7, fun r => stOp c2 .b8 .glb .rel false (.v 2) (.v 5) 7 false r.path r.state),
        (.atom c2 .add .i64 .glb .sc false (.v 1) (.v 2) (.v 5) .none 0,
          fun r => atomOp c2 .add .i64 .glb .sc false (.v 1) (.v 2) (.v 5) .none 0 false r.path r.act r.state),
        (.red c2 .max .n32 .spd .rel false (.v 3) (.v 5) 4, fun r => redOp c2 .max .n32 .spd .rel false (.v 3) (.v 5) 4 false r.path r.state),
        (.casw c2 .glb .none false (some 23) (.v 1) (.v 2) (.v 5) (.v 7) 0,
          fun r => caswOp c2 .glb .none false (some 23) (.v 1) (.v 2) (.v 5) (.v 7) 0 false r.path r.state),
        (.hdrld c2 .none false none (.v 1) (.v 2) 0, fun r => hdrldOp c2 .none false none (.v 1) (.v 2) 0 false r.path r.act r.state),
        (.fwdcas c2 .none none (.v 1) (.v 2) (.v 3) (.v 9) 0, fun r => fwdcasOp c2 .none none (.v 1) (.v 2) (.v 3) (.v 9) 0 false r.act r.state),
        (.seal c2 .glb .none (.v 1) (.v 2) 0, fun r => sealOp c2 .glb .none (.v 1) (.v 2) 0 false r.act r.state),
        (.pinit c2 (.v 2) 0, fun r => pinitOp c2 (.v 2) 0 false r.path r.state),
        (.pfill c2 (.v 2) (.v 3) 0, fun r => pfillOp c2 (.v 2) (.v 3) 0 false r.state),
        (.peq c2 (.v 1) (.v 2) (.v 4) 0, fun r => peqOp c2 (.v 1) (.v 2) (.v 4) 0 false r.path r.act r.state),
        (.proot c2 (.v 1) (.v 2), fun r => prootOp c2 (.v 1) (.v 2) false r.act r.state)] : List (Instr × (Machine.Issue → MemOp))),
      Issues e.1 c2 (mem .runtime) false p ∧
        (performs (e.2 (issuedOf e.1 c2 (mem .runtime) false p)) (issuedOf e.1 c2 (mem .runtime) false p) false 0).isSome = true := by decide +kernel

/-- Words of every kind that a load or a store of one lane meets. -/
theorem witness_LoadStoreAndAtomicLanes :
    word0.tagged = true ∧ word0.uncached = false ∧ (Home.glb 0x50000 0x1700000000000003).uncached = true ∧ (mem .user).storesTag word0 = true ∧
    (Home.glb 0x50000 pteIdentity).tagged = false ∧ (regs .user []).storesTag (.glb 0x50000 pteIdentity) = false ∧
    (∀ t ∈ ([.raw, .hnd, .pend, .link, .fwd, .res14, .res15] : List Tag), let s := withTag (mem .user) 0xA000 ⟨t, 0⟩
      (s.readHome me0 word0).1.tag = t ∧ (s.storeSees me0 word0).tag = t ∧ (s.atHome me0 word0).1.tag = t) := by decide
theorem witness_ObjectAndPromiseLanes :
    cellOf word0 = .inr 0xA000 ∧ ((mem .user).findRoot none 1 0xA000).1 = .root 0xA000 ∧
    ((withTag (mem .user) 0xA000 ⟨.pend, 0⟩).findRoot none 1 0xA000).1 = .root 0xA000 ∧
    ((withTag (mem .user) 0xA000 ⟨.res14, 0⟩).findRoot none 1 0xA000).1 = .broken 0xA000 ∧
    (∀ t ∈ ([.fwd, .pend, .link, .raw] : List Tag), ((withTag (mem .user) 0xA000 ⟨t, 8⟩).atHome me0 word0).1.tag = t) ∧
    (let s := withTag (withTag (mem .user) 0xA000 ⟨.pend, 0⟩) 0xA002 ⟨.pend, 0⟩
     (s.locate (path .user) .glb .write 0x50010).1 = .home (.glb 0x50010 0x2700000000000003) ∧ (s.findRoot none 1 0xA000).1 = .root 0xA000 ∧
       (s.findRoot none 1 0xA002).1 = .root 0xA002 ∧ (s.peek 0xA000).tag = .pend ∧ (s.peek 0xA002).tag = .pend) ∧
    (let s := withTag (mem .user) 0xA000 ⟨.pend, 0⟩
     (s.findRoot none 1 0xA000).1 = .root 0xA000 ∧ (s.findRoot none 1 0xA002).1 = .root 0xA002 ∧ (s.peek 0xA002).tag ≠ .pend) := by decide
theorem witness_StoreIsSeenByItsPath :
    (pteMT pteIdentity ≠ 2 ∧ me0.mask ≠ 0 ∧ (0x50007 : Nat) % 1 = 0 ∧ (mem .user).readOnly 0xA000 = none ∧
      ((mem .user).parts.map fun k => ({ mem .user with parts := [{ k with fqcb := 0x50000 }] } : State).readOnly 0xA003) = [some (0, 0xFF)]) ∧
    (∀ e ∈ ([(.b8, 7), (.b16, 6), (.b32, 4), (.b64, 0)] : List (Ty × BitVec 24)),
      let i := Instr.st c2 e.1 .glb .none false (.v 2) (.v 5) e.2
      let r := issuedOf i c2 (mem .user) false (path .user)
      let k := stOp c2 e.1 .glb .none false (.v 2) (.v 5) e.2 false r.path r.state
      Issues i c2 (mem .user) false (path .user) ∧ 8 ≤ e.1.width ∧ (0x50000 + e.2.toNat) % (e.1.width / 8) = 0 ∧
        (oneLane k r 0).map (fun x => (x.1, x.2.1)) = some (0x50000 + e.2.toNat, .glb (0x50000 + e.2.toNat) 0x2700000000000003) ∧
        (performs k r false 0).isSome = true) := by decide

/-- A store of a byte at the top of a word, then a load of the word by the same path. -/
theorem test_store_byte_seen :
    ((mem .user).storeHome me0 (.glb 0x50007 pteIdentity) 1 (.int 0x1FF)).seen me0 0xA000 = .raw 0xFF00000000000000 := by decide
/-- An atomic addition returns the old word and wraps (Table 15.4). -/
theorem test_atomic_wraps :
    (atomNew .add .n32 (.glb 0x50004 0x2700000000000003) ⟨.int, 0xFFFFFFFF00000007⟩ (.int 2) Val.nil) = ⟨.raw, 0x0000000100000007⟩ := by decide


/-! Objects, barriers, promises and groups. -/

/-- The same place with a nursery of two lines at 0x60000, whose first is used. -/
def nursery (top : Word) (vs : List (Nat × Val)) : State :=
  tagged ((regs .user vs).setGrp fun g => { g with nbase := 0x60000, ntop := top, nlimit := 0x60200 })
/-- The same place with a tensor record in the handle table. -/
def handled (x : Val) : State :=
  let s := tagged (regs .user [(2, x)])
  s.modPart 1 fun q => { q with handles := [(0, ⟨true, 3, [0x50000, 0x1, 0x100, 0x100, 0x200, 0, 0, 0], 1⟩)] }
theorem witness_ObjectInstructions :
    issueWith (nursery 0x60100 [(2, .int 256)]) .user [.nalloc c2 (.reg (.v 2)) (.v 1) 0]
      (fun t => nsizeOk (rdSrc t false 0 (.v 2) 0) = true ∧ t.grp.nbase.toNat ≤ t.grp.ntop.toNat ∧
        t.grp.ntop.toNat + 256 = t.grp.nlimit.toNat) ∧
    issueWith (nursery 0x60100 [(2, .int 8)]) .user [.nalloc c2 (.reg (.v 2)) (.v 1) 0] (fun t => nsizeOk (rdSrc t false 0 (.v 2) 0) = false) ∧
    issueWith (nursery 0x60210 [(2, .int 16)]) .user [.nalloc c2 (.reg (.v 2)) (.v 1) 0]
      (fun t => nsizeOk (rdSrc t false 0 (.v 2) 0) = true ∧ t.grp.nlimit.toNat < t.grp.ntop.toNat) ∧
    issueWith (mem .user) .user [.refchk c2 0 (.v 5)] (fun t => (rdSrc t false 0 (.v 5) 0).tag ≠ .ref) ∧
    issueWith (mem .user) .user [.refchk c2 0 (.v 9)] (fun t => (rdSrc t false 0 (.v 9) 0).tag = .ref ∧
      (t.condOf t.grp.core t.myAspace (refVA (rdSrc t false 0 (.v 9) 0))).1 = .page false 0x60000 36) ∧
    issueWith (handled ⟨.hnd, 0x30000⟩) .user [.unseal c2 (.v 2), .hinfo c2 .base (.v 1) (.v 2), .hinfo c2 .perm (.v 1) (.v 2)]
      (fun t => t.handle? t.pid t.myAspace (rdSrc t false 0 (.v 2) 0) =
        some (0, ⟨true, 3, [0x50000, 0x1, 0x100, 0x100, 0x200, 0, 0, 0], 1⟩)) ∧
    issueWith (handled ⟨.hnd, 0x20000⟩) .user [.unseal c2 (.v 2), .hinfo c2 .base (.v 1) (.v 2)]
      (fun t => t.handle? t.pid t.myAspace (rdSrc t false 0 (.v 2) 0) = none) :=
  ⟨by decide, by decide, by decide, by decide, by decide, by decide, by decide⟩

/-- A barrier object at scratchpad address 0: one arrival pending of one, phase 7, no bytes pending; or what w says. -/
def barrier (w : Word) (vs : List (Nat × Val)) : State :=
  { regs .user ([(2, .int 0), (3, .int 1), (4, .int 0), (5, .int 6), (6, .int 7)] ++ vs) with spd := wrWord [] 0 w }
abbrev bar1 : Word := 0x0001000100000007
theorem witness_Barriers :
    ((barrier bar1 []).barAt 0 = some ⟨1, 1, 7, 0, 0⟩ ∧ (barrier 0 []).barAt 0 = none ∧ ((barrier 0x0000000100000007 []).barAt 0).map BarObj.pena = some 0) ∧
    (∀ i ∈ ([.barinit c2 false (.v 2) (.v 3) (.v 4) 0, .bararr c2 false (.v 1) (.v 2) (.v 4) 0, .bartx c2 false (.v 1) (.v 2) (.v 4) 0] : List Instr),
      ∀ s ∈ [barrier bar1 [], barrier 0x0000000100000007 []],
      Issues i c2 s false (path .user) ∧ (issuedOf i c2 s false (path .user)).act = laneBit 0 ∧
        ((issuedOf i c2 s false (path .user)).state.barAddrs (issuedOf i c2 s false (path .user)).path
          (MemOp.plain .spd 16 0 (baseOf (issuedOf i c2 s false (path .user)).state false c2 (.v 2)))
          (issuedOf i c2 s false (path .user)).act) = .inr [(0, 0)] ∧
        countOk 1 65535 (rdSrc (issuedOf i c2 s false (path .user)).state false 0 (.v 3) 0) = true ∧
        countOk 0 (2 ^ 31 - 1) (rdSrc (issuedOf i c2 s false (path .user)).state false 0 (.v 4) 0) = true) ∧
    issueWith (barrier bar1 []) .user [.bwait c2 false 0 (.v 1) (.v 2) (.v 6), .bwait c2 false 31 (.v 1) (.v 2) (.v 6), .bwait c2 false 31 (.v 1) (.v 2) (.v 5),
      .btest c2 false (.v 1) (.v 2) (.v 6) 0] (fun t =>
        t.barTargets false (path .user) c2 false (.v 2) (.v 6) 1 = [(0, some ⟨0, 0, 7, false⟩)] ∧ (t.barAt 0).map BarObj.phase = some 7 ∧
        t.barTargets false (path .user) c2 false (.v 2) (.v 5) 1 = [(0, some ⟨0, 0, 6, false⟩)]) :=
  ⟨by decide, by decide, by decide⟩

/-- A cell at 0x50000. -/
def cell (x : Val) : State := withTag (mem .user) 0xA000 x
theorem witness_PromiseReads :
    ∀ e ∈ ([(n5, Cell.filled n5), (⟨.res15, 0⟩, .bad), (⟨.pend, 0⟩, .unfilled 0xA000)] : List (Val × Cell)),
      ∀ i ∈ ([.pget c2 (.v 10) (.v 2) 0, .pwait c2 0 (.v 10) (.v 2), .pwait c2 31 (.v 10) (.v 2)] : List Instr),
        Issues i c2 (cell e.1) false (path .user) ∧ (issuedOf i c2 (cell e.1) false (path .user)).act = laneBit 0 ∧
        (let r := issuedOf i c2 (cell e.1) false (path .user)
         let k := r.state.cellAt r.path [] 0 (rdSrc r.state false 0 (.v 2) 0)
         k.1 = e.2 ∧ (k.2.register false 0xA000 1).isSome = true) := by decide +kernel

theorem witness_GroupOperations :
    ∀ i ∈ ([.vote c2 (.any 0 1), .vote c2 (.all 0 1), .vote c2 (.uni 0 (.v 2)), .vote c2 (.ballot (.v 1) 0), .shfl c2 .idx (.v 1) (.v 2) (.reg (.v 3)) (some 1),
        .shfl c2 .up (.v 1) (.v 2) (.imm 1) none, .shfl c2 .down (.v 1) (.v 2) (.imm 31) (some 23), .shfl c2 .xor (.v 1) (.v 2) (.imm 1) none,
        .mtch c2 false (.v 1) (.v 2), .mtch c2 true (.v 1) (.v 2), .elect c2 0, .gred c2 .add .i64 (.v 1) (.v 2), .gscan c2 .add true .i64 (.v 1) (.v 2),
        .gscan c2 .max false .n32 (.v 1) (.v 2)] : List Instr),
      Issues i c2 wide false path3 ∧ (issuedOf i c2 wide false path3).act = 3 := by decide

/-! The tile stream. -/

/-- A stream that issues TSTOP, its block with a barrier at scratchpad address 0, and what w says of the objects: handles of an input and of an
output record in words 2 and 3. -/
def streaming (f : Stream → Stream) : State :=
  let s := State.reset.withFetchWord 128 (w2 0x39A 0 0 0 0 0 0 0).toNat
  let s := s.modBlk 1 fun b => { b with spec := { b.spec with bars := [(0, 1)] }, stream := b.stream.map f }
  let s := s.modPart 1 fun q => { q with handles := [(0, ⟨true, 3, [0x1000, 0x80008, 0x4000000080, 128, 0, 0, 0, 0], 1⟩),
    (1, ⟨true, 3, [0, 0x120006, 0x8000000080, 512, 0, 0, 0, 0], 1⟩)] }
  { s with spd := wrWord (wrWord (wrWord [] 0 0x0002000200000007) 2 0x30000) 3 0x30001, spdTags := [(2, .hnd), (3, .hnd)],
           wins := [⟨1, 0, 0, 0, 0x10000⟩] }
/-- A slot of a role. -/
def slotOf (roleB : Bool) (f : TileFmt) : TileData := ⟨f, roleB, [], [], 0, []⟩
/-- Two slots, two accumulators and two loops, the inner one in its last iteration. -/
def loaded (t : Stream) : Stream :=
  { t with slots := [(0, some (slotOf false .bf16)), (1, some (slotOf true .bf16)), (2, some (slotOf true .e4m3)), (3, none)],
           accs := [(0, some []), (1, none)], loops := [(0x40000, 5, 3), (0x40010, 1, 0)] }
abbrev here : TStep := ⟨0, 0, 0, 0, 0, 0⟩

theorem witness_TileStream_claims :
    (streaming id).curStream.map (fun e => (e.1.id, e.1.spec.slots, e.1.spec.accs, e.2.loops.length, (streaming id).busyFor e.1 0,
      (streaming id).busyAcc e.1 0 0 8)) = some (1, 48, 8, 0, false, false) ∧
    (streaming loaded).curStream.map (fun e => (e.2.loops, (streaming loaded).busyFor e.1 0)) =
      some ([(0x40000, 5, 3)] ++ [(0x40010, 1, 0)], false) ∧
    ((streaming fun t => { loaded t with loops := [(0, 2, 0), (0, 2, 0), (0, 2, 0), (0, 2, 0)] }).curStream.map fun e => e.2.loops.length) = some 4 := ⟨by decide, by decide, by decide⟩
/-- A barrier whose phase the stream has not passed, has passed, and whose arrivals are gone; and a live group. -/
theorem witness_TileStream_barriers :
    (streaming id).curStream.map (fun e => (e.1.barrier 0 0, (sget 0 e.2.q 0).toNat)) = some (some 0, 0) ∧
    (streaming id).barAt 0 = some ⟨2, 2, 7, 0, 0⟩ ∧
    ((streaming fun t => { t with q := [(0, 7)] }).curStream.map fun e => (sget 0 e.2.q 0).toNat) = some 7 ∧
    { streaming id with groups := [Group.start 1 0 1 0 0 20 1 0x40000 .user 0] }.groupsLive 1 = true ∧
    ({ streaming id with spd := wrWord [] 0 0x0000000200000007 }.barAt 0).map BarObj.pena = some 0 := by decide
/-- Operands of a product that fit, and two formats that differ. -/
theorem witness_TileStream_products :
    (streaming loaded).curStream.map (fun e => (keyGet e.2.accs 0, keyGet e.2.slots 0, keyGet e.2.slots 1, keyGet e.2.slots 2)) =
      some (some (some []), some (some (slotOf false .bf16)), some (some (slotOf true .bf16)), some (some (slotOf true .e4m3))) ∧
    (((streaming loaded).tile 0).active = false ∧
      ((streaming loaded).curStream.map fun e => (streaming loaded).askedBefore e.1 0 (e.2.asked.getD 0)) = some false ∧
      (((streaming loaded).setTile 0 { Tile.off with active := true }).tile 0).active = true) ∧ (slotOf false .bf16).fmt = (slotOf true .bf16).fmt ∧
    (slotOf false .bf16).fmt ≠ (slotOf true .e4m3).fmt ∧
    ((streaming loaded).curStream.map fun e => (keyGet e.2.accs 1).isSome && !(streaming loaded).busyAcc e.1 0 1 1) = some true := ⟨by decide, by decide, by decide, by decide, by decide⟩

/-- Bytes of the block's own scratchpad never miss and never fail. -/
theorem reads_spd (s : State) (b : Block) (core x : Nat) (hx : b.spdOn core = some x) (hk : ∀ sp a, b.keptByte sp a = none) (as : List Nat)
    (h : ∀ a ∈ as, a < b.spec.spd) : (s.streamReads b core 2 as).miss = [] ∧ (s.streamReads b core 2 as).fail = none := by
  unfold State.streamReads
  have : ∀ r : Reads, r.miss = [] → r.fail = none →
      let f := as.foldl (fun r a =>
        match b.keptByte 2 a with
        | some x => { r with bytes := r.bytes ++ [x] }
        | none =>
          match s.streamHome b core 2 a .read with
          | .home h => { r with bytes := r.bytes ++ [s.homeByte h], got := (a, s.homeByte h) :: r.got }
          | .missing => { r with miss := addPage a r.miss }
          | .fault c => match r.fail with | some _ => r | none => { r with fail := some (c, a) }) r
      f.miss = [] ∧ f.fail = none := by
    induction as with
    | nil => intro r h1 h2; exact ⟨h1, h2⟩
    | cons a t ih =>
      intro r h1 h2
      have ha : s.streamHome b core 2 a .read = .home (.bank .spd (spdFlat core (x + a))) := by
        simp [State.streamHome, hx, h a (by simp)]
      simp only [List.foldl_cons, hk 2 a, ha]
      exact ih (fun k hk => h k (by simp [hk])) _ h1 h2
  exact this _ rfl rfl

/-- The words of the two records. -/
abbrev inWords : List Word := [0x1000, 0x80008, 0x4000000080, 128, 0, 0, 0, 0]
abbrev outWords0 : List Word := [0, 0x120006, 0x8000000080, 512, 0, 0, 0, 0]
theorem witness_TileStream_load : ∃ b t, (streaming loaded).curStream = some (b, t) ∧ (keyGet t.slots (0 : Fin 48).val).isSome = true ∧
    (streaming loaded).streamWords b (b.cores.headD 0) (2 : BitVec 10).toNat = .inr inWords ∧
    (let R := Tensor.of inWords
     R.out = false ∧ R.roleB = false ∧ R.perm = 0 ∧
    t.tileAt here = (((0 : Nat) : Int), ((0 : Nat) : Int)) ∧ (0 + 1) * R.tile.1 ≤ R.rows ∧ (0 + 1) * R.tile.2 ≤ R.cols ∧ t.late = [] ∧
    (let cols := (List.range R.tile.2).map fun j => 0 * R.tile.2 + j
     let rows := (List.range R.tile.1).map fun i => 0 * R.tile.1 + i
     let data := (streaming loaded).streamReads b (b.cores.headD 0) R.space (rows.flatMap fun i => cols.flatMap fun j => R.elemAddrs i j)
     data.miss = [] ∧ data.fail = none) ∧
    R.scaleAddrs 0 0 = []) := by
  refine ⟨_, _, rfl, by decide, by decide +kernel, by decide, by decide, by decide, rfl, by decide, by decide, by decide, ?_, by decide⟩
  refine reads_spd _ _ _ 0 (by decide) (fun _ _ => rfl) _ ?_
  intro a ha
  obtain ⟨r, hr, ha⟩ := List.mem_flatMap.1 ha
  obtain ⟨q, hq, ha⟩ := List.mem_flatMap.1 ha
  obtain ⟨i, hi, rfl⟩ := List.mem_map.1 hr
  obtain ⟨j, hj, rfl⟩ := List.mem_map.1 hq
  obtain ⟨k, hk, rfl⟩ := List.mem_map.1 ha
  have hi : i < 128 := List.mem_range.1 hi
  have hj : j < 64 := List.mem_range.1 hj
  have hk : k < 2 := List.mem_range.1 hk
  show 0x1000 + (0 * 128 + i) * 128 + (0 * 64 + j) * 16 / 8 + k < 0x80000
  omega

/-- The words of a store to a window of the chip scratchpad all land. -/
theorem stores_chp (b : Block) (core : Nat) (w : ChpWin) : ∀ (xs : List ((Nat × Word) × Nat)) (d : Stored) (s : State),
    (∀ e ∈ xs, e.1.1 < w.size) → d.miss = [] → d.fail = none → s.chpTags = [] → s.chpWin b.pid b.eff.job (core / 72) = some w →
    ∃ n u, State.storeWords b core 4 xs d s = (⟨n, [], none⟩, u) := by
  intro xs
  induction xs with
  | nil => intro d s _ h1 h2 _ _; exact ⟨d.written, s, by cases d; simp_all [State.storeWords]⟩
  | cons e t ih =>
    obtain ⟨⟨a, x⟩, n⟩ := e
    intro d s h h1 h2 h3 h4
    have ha : s.streamHome b core 4 a .write = .home (.bank .chp (chpFlat w.die (w.base + a))) := by
      have := h ((a, x), n) (by simp)
      simp only [State.streamHome, h4]
      simp [show a < w.size from this]
    have hl (k : Nat) : s.landWord .user (.bank .chp k) true (.raw x) 0xFF = .inr (s.land (.bank .chp k) (.raw x)) := by
      have ht : (s.homeWord (.bank .chp k)).tag = .raw := by
        show sget .raw s.chpTags (k / 8) = .raw
        rw [h3]; rfl
      simp [State.landWord, State.settleWord, ht, State.storesTag, Home.tagged, Tag.reserved]
    have h' : ∀ e ∈ t, e.1.1 < w.size := fun e he => h e (by simp [he])
    unfold State.storeWords
    split
    · exact ih d s h' h1 h2 h3 h4
    · simp only [ha, hl]
      refine ih _ _ h' h1 h2 ?_ h4
      show sput Tag.raw s.chpTags _ Tag.raw = []
      rw [h3]; rfl

theorem witness_TileStream_store : ∃ b t d u, (streaming loaded).curStream = some (b, t) ∧ keyGet t.accs (0 : Fin 8).val = some (some []) ∧
    (streaming loaded).busyAcc b (b.cores.headD 0) (0 : Fin 8).val 1 = false ∧
    (streaming loaded).streamWords b (b.cores.headD 0) (3 : BitVec 10).toNat = .inr outWords0 ∧
    (let R := Tensor.of outWords0
     R.out = true ∧ t.tileAt here = (((0 : Nat) : Int), ((0 : Nat) : Int)) ∧ (0 + 1) * 128 ≤ R.rows ∧ (0 + 1) * 128 ≤ R.cols ∧
    State.storeWords b (b.cores.headD 0) R.space (R.outWords 0 0 []).zipIdx ⟨t.written, [], none⟩
      ((streaming loaded).modStream b.id fun t => { t with accs := keySet t.accs (0 : Fin 8).val (some []) }) = (⟨d, [], none⟩, u)) := by
  have h := stores_chp ((streaming loaded).curStream.map Prod.fst |>.getD (placeBlock true)) 0 ⟨1, 0, 0, 0, 0x10000⟩
    ((Tensor.of outWords0).outWords 0 0 []).zipIdx ⟨[], [], none⟩
    ((streaming loaded).modStream 1 fun t => { t with accs := keySet t.accs (0 : Fin 8).val (some []) }) (by
      intro e he
      have he := List.mem_zipIdx' he
      have hm : e.1 ∈ (Tensor.of outWords0).outWords 0 0 [] := by
        rw [he.2]; exact List.getElem_mem _
      obtain ⟨i, hi, ha⟩ := List.mem_flatMap.1 hm
      obtain ⟨k, hk, ha⟩ := List.mem_map.1 ha
      have hi : i < 128 := List.mem_range.1 hi
      have hk : k < 64 := List.mem_range.1 hk
      rw [← ha]
      show 0 + (128 * 0 + i) * 512 + 128 * 0 * 4 + 8 * k < 0x10000
      omega) rfl rfl rfl (by decide)
  obtain ⟨d, u, h⟩ := h
  exact ⟨_, _, d, u, rfl, by decide, by decide, by decide +kernel, by decide, by decide, by decide, by decide, h⟩
/-- The scratchpad address of a checksum is its block's own. -/
theorem witness_TileStream_checksum : (streaming loaded).curStream.map (fun e => (streaming loaded).streamHome e.1 0 2 0x7FFF8 .write) =
    some (.home (.bank .spd 0x7FFF8)) := by decide

/-! Copies, the match table and pending effects. -/

theorem witness_CopyInstructions :
    let s := tagged (regs .user [(2, .raw 0x50000), (3, .int 24), (4, .raw 0x50010), (6, .raw 0x51000), (7, .int 0x800000001), (8, .int 3), (10, .int 8),
      (11, .int 0x100000001), (12, .int 0x80000)])
    let p := path .user
    (∀ e ∈ ([(.cpy c2 .glb .spd (.token 7) (.v 2) (.v 10) (.v 3) 0, cpyPlan c2 .glb .spd (.token 7) (.v 2) (.v 10) (.v 3) 0),
        (.cpym c2 .glb .none (.v 2) (.v 8) (.v 10) 0, cpymPlan c2 .glb .none (.v 2) (.v 8) (.v 10) 0),
        (.cpyg c2 .glb .spd .glb .none (.v 2) (.v 10) (.v 6) 0, cpygPlan c2 .glb .spd .glb .none (.v 2) (.v 10) (.v 6) 0),
        (.cpyr c2 .glb (some 0) (.v 8) (.v 2) (.v 4) (.v 3) 0, cpyrPlan c2 .glb (.v 8) (.v 2) (.v 4) (.v 3) 0)] :
        List (Instr × (State → Bool → Machine.Path → Nat → (BitVec 8 × Word) ⊕ Ask))),
      Issues e.1 c2 s false p ∧ (issuedOf e.1 c2 s false p).act = 1 ∧
        (e.2 (issuedOf e.1 c2 s false p).state false (issuedOf e.1 c2 s false p).path 0).isRight = true) ∧
    (∀ e ∈ ([(.cpy c2 .spd .glb .none (.v 12) (.v 10) (.v 3) 0, cpyPlan c2 .spd .glb .none (.v 12) (.v 10) (.v 3) 0)] :
        List (Instr × (State → Bool → Machine.Path → Nat → (BitVec 8 × Word) ⊕ Ask))),
      Issues e.1 c2 s false p ∧ e.2 (issuedOf e.1 c2 s false p).state false (issuedOf e.1 c2 s false p).path 0 = .inl (0x05, 0x80000)) ∧
    (Issues (.cpy cg1 .glb .spd .none (.v 2) (.v 10) (.v 3) 0) cg1 wide false path3 ∧
      (issuedOf (.cpy cg1 .glb .spd .none (.v 2) (.v 10) (.v 3) 0) cg1 wide false path3).act = 0) := by decide +kernel

/-- A node of the launch's partition and job, of 64 slots of 64 bytes at 0x70000, with what f makes of it. -/
def node0 : Node :=
  { id := 3, pid := 1, aspace := 1, queue := 2, spec := Spec.full 0x40000 0, eff := Eff.plain, qbase := 0x70000, qcap := 64, rsize := 64, thresh := 32,
    maxdepth := 1, timer := 100, strict := false, slots := [], alloc := 0, launch := 0, release := 0, flush := false, timedOut := false, pointer := 0,
    win := 0, refused := none, unbind := none }
def noded (f : Node → Node) (s : State) : State := { s with nodes := [f node0] }
/-- An entry of a match table. -/
def entry (tag : Nat) : MatchEntry := ⟨tag, 1, 0, 8, 2, 3, [], none, none⟩
theorem witness_MatchInstructions :
    let s (f : State → State) : State := f (tagged (regs .user [(2, .int 9), (3, .int 0x300000008), (4, .raw 0x50000), (5, .int 9)]))
    let i := Instr.nmatch c2 .glb (.v 1) (.v 2) (.v 3) (.v 4)
    let r (f : State → State) := issuedOf i c2 (s f) false (path .user)
    let u (f : State → State) := issuedOf (.nunmatch c2 (.v 1) (.v 5)) c2 (s f) false (path .user)
    (∀ f ∈ ([id, noded id, fun s => { noded id s with matchTab := [entry 9] }, fun s => { noded id s with tags := [(0xA000, .pend)] }] : List (State → State)),
      Issues i c2 (s f) false (path .user) ∧ (r f).act = laneBit 0 ∧ (r f).state.myBlk = some (placeBlock false) ∧
      (r f).state.rangeOk .glb 0x50000 = true) ∧
    ((r id).state.jobNode (placeBlock false) 3 = none ∧ (r (noded id)).state.jobNode (placeBlock false) 3 = some node0) ∧
    ((r (noded id)).state.template (r (noded id)).path [] .glb 0 0x50000 64).1 = .ok ((List.range 8).map fun k => (0x50000 + 8 * k, .raw 0)) ∧
    ((r fun s => { noded id s with tags := [(0xA000, .pend)] }).state.template (path .user) [] .glb 0 0x50000 64).1 =
      .ok ((0x50000, ⟨.pend, 0⟩) :: (List.range 7).map fun k => (0x50008 + 8 * k, .raw 0)) ∧
    (Issues (.nunmatch c2 (.v 1) (.v 5)) c2 (s id) false (path .user) ∧ (u id).act = laneBit 0 ∧ (u id).state.matchTab = [] ∧
      (u fun s => { s with matchTab := [entry 9] }).state.matchTab.find? (fun e => e.tag == 9 && e.pid == 1 && e.done.isNone) = some (entry 9)) :=
  ⟨by decide, by decide, by decide, by decide +kernel, by decide⟩
/-- A table with n entries of one die, none of them tag 9: with n = 4096 it has no place left. -/
theorem witness_MatchInstructions_full (n : Nat) :
    n ≤ ((List.replicate n (entry 10)).filter fun w => w.tag / 2 ^ 30 == 0).length ∧ ¬ ∃ w ∈ List.replicate n (entry 10), w.tag = 9 := by
  constructor
  · rw [List.filter_eq_self.2 fun w hw => by rw [(List.mem_replicate.1 hw).2]; rfl, List.length_replicate]
  · rintro ⟨w, hw, h⟩
    rw [(List.mem_replicate.1 hw).2] at h
    cases h

/-- A store of a word, a load's result, a demoted path, a wait and a command, all of group 0. -/
def store0 : PendStore := ⟨1, 0, 0, 1, 0xA000, 0xFF, 7, some .int, false⟩
def grp0 : Group := Group.start 1 0 1 0 0 20 1 0x40000 .user 0
def with0 (f : Group → Group) : State := (regs .user []).setGrp f
def waitsBar (d : Option Nat) : BarWait := ⟨c2, [⟨0, 0, 7, false⟩], [], d, 1, 1⟩
def waitsProm (d : Option Nat) : PromWait := { ctl := c2, num := 10, face := Face.none, lanes := [(0, 0x50000)], status := [], deadline := d, active := 1 }
def cmd0 (todo : List Range) (failed : Option (BitVec 8 × Nat × Bool)) : Cmd :=
  { id := 5, owner := some (1, 0), packet := none, core := 0, pid := 1, aspace := 1, user := true, pc := 0x40000, lane := 0, todo := todo,
    gather := none, token := none, peer := none, failed := failed, once := [] }
theorem witness_PendingEffects_paths :
    (let s := { regs .user [] with stores := [store0] }
     s.stores[0]? = some store0 ∧ store0.mask ≠ 0 ∧ s.stores.take 0 = []) ∧
    (let s := with0 fun g => { g with pend := [⟨some 0, [.v 1 0 n5], some .ld, 1, false⟩], ld := 1 }
     (s.grp? 1 0).map (fun g => takeAt g.pend 0) = some (some (⟨some 0, [.v 1 0 n5], some .ld, 1, false⟩, [])) ∧ (0 : Nat) ≤ s.now) ∧
    (let s := { (with0 fun g => g.modSlot false fun p => { p with spin := { p.spin with demoted := true, since := 0 } }) with now := 1024 }
     (s.grp? 1 0).map (fun g => (g.slot false).map fun p => (p.spin.demoted, p.spin.since)) = some (some (true, 0)) ∧ 0 + 1024 ≤ s.now) ∧
    (let s := { (with0 fun g => g.modSlot false fun p => { p with wait := .bar (waitsBar (some 9)) }) with now := 9 }
     (s.grp? 1 0).map (fun g => (g.slot false).map fun p => p.wait) = some (some (.bar (waitsBar (some 9)))) ∧ s.expired 1 (some 9) = true) ∧
    (let s := { (with0 fun g => g.modSlot false fun p => { p with wait := .prom (waitsProm (some 9)) }) with now := 9 }
     (s.grp? 1 0).map (fun g => (g.slot false).map fun p => p.wait) = some (some (.prom (waitsProm (some 9)))) ∧ s.expired 1 (some 9) = true) :=
  ⟨by decide, by decide, by decide, by decide, by decide⟩
/-- A command with a whole word to move, one with nothing left, and one that has failed. -/
theorem witness_PendingEffects_commands :
    (let x : Range := ⟨.at ⟨.glb, 0x50000⟩, ⟨.spd, 8⟩, 8, none, none⟩
     let c := cmd0 [x] none
     let s := { tagged (regs .user []) with cmds := [c] }
     let v := ((s.cmdTouch c ⟨.glb, 0x50000⟩).cmdTouch c ⟨.glb, 0x50007⟩).keepOnce c ⟨.glb, 0x50000⟩ [(0x50000, .raw 0)]
     s.cmd? 5 = some c ∧ pickPiece false 8 0 c.todo = some (x, []) ∧ s.ready c.agent (fun _ => true) = (.go, s) ∧ x.held [] = false ∧
       s.cmdWords c ⟨.glb, 0x50000⟩ 8 = .ok [(0x50000, .raw 0)] ∧ v.cmdHome c ⟨.spd, 8⟩ .write = .home (.bank .spd 8) ∧
       ((v.cmdTouch c ⟨.spd, 8⟩).landWord c.lander (.bank .spd 8) true (.raw 0) 0xFF).isRight = true) ∧
    ({ regs .user [] with cmds := [cmd0 [] none] }.cmd? 5 = some (cmd0 [] none)) ∧
    ({ regs .user [] with cmds := [cmd0 [] (some (0x05, 0x50000, true))] }.cmd? 5 = some (cmd0 [] (some (0x05, 0x50000, true)))) :=
  ⟨by decide +kernel, by decide, by decide⟩
theorem witness_PendingEffects_flit :
    let f : Flit := ⟨0, 0, 9, 2, 1, 0, 0x50000, [1, 2, 3, 4, 5, 6, 7, 8], 1⟩
    let s := tagged (regs .user [])
    let s : State := { s with dev := { s.dev with span := [(256, 0x8002000900000001)] } }
    (s.part? 1).map Partition.stopped = some false ∧ 9 ≠ s.dev.devNo ∧ s.ownsDie 1 0 = true ∧ s.portUp 0 0 = true ∧ s.spanSpace 1 9 2 = some 1 ∧ s.ready (spanAgent 1) (fun x =>
        f.va / 0x10000 ≤ x / 0x10000 && x / 0x10000 ≤ (f.va + f.bytes.length) / 0x10000) = (.go, s) ∧
      ((wordsOf f.va f.bytes.length).map fun k => (k, s.devHome (s.logDie 0) 1 k.1 .write true)) =
        [(0x50000, 8, Home.glb 0x50000 pteIdentity)].map (fun e => ((e.1, e.2.1), Found.home e.2.2)) ∧
      (State.landFlit f [(0x50000, 8, .glb 0x50000 pteIdentity)] (s.touchDies (s.logDie 0) 1 [0x50000])).1 = none := by
  decide +kernel
/-- An emission that writes a reserved slot, and a TMMA that ends. -/
theorem witness_PendingEffects_emission :
    (let n : Node := { node0 with alloc := 1, slots := [(0, ⟨.reserved, 0, 0, none, some ⟨.caller 3, [.int 1]⟩, 0⟩)] }
     let s := tagged { regs .user [] with nodes := [n] }
     s.node? 3 = some n ∧ (n.slot 0).st = .reserved ∧ (n.slot 0).emit = some ⟨.caller 3, [.int 1]⟩ ∧
       (s.writeRecord 0 n 0 0 ⟨.caller 3, [.int 1]⟩).1 = .written) ∧
    (∀ again ∈ [false, true], let s := (streaming loaded).setTile 0 { Tile.off with active := true, blk := 1 }
      (s.tile 0).active = true ∧ (s.tile 0).busyUntil ≤ s.now ∧ (s.tile 0).reran = false ∧
        ({ s with turn := { s.turn with tileErr := again } } : State).turn.tileErr = again) := by decide +kernel

/-! Nodes, queues and packets. -/

/-- The region block of the partition, of the values that no block gives. -/
def rcb0 : Rcb :=
  { pid := 1, addr := 0x100, parent := 0, level := 0, prio := 0, fdom := 0, inherit := 0, ebudget := 0, share := 0, shareint := 0, trapvec := 0, saveh := 0,
    dispatch := 0, savebase := 0, savebudget := 20000, hdrpart := 0, flags := 0, capnodes := 0, capcores := 288, caprun := 0, chpwin := 0, est := 0 }
def place : State := { tagged (regs .user [(2, .int 3), (3, .raw 0x70000), (4, .int 1), (5, .int 4)]) with rcbs := [rcb0] }
/-- The block of the issuing group is a launch of a node. -/
def ofNode (card : Option Nat) (s : State) : State := s.modBlk 1 fun b => { b with origin := .node 3 1 0x70000 0 card }
def committed (n : Nat) : Node := { node0 with alloc := n, slots := (List.range n).map fun k => (k, ⟨.committed, 0, 1, none, none, 0⟩) }
def card0 (dealt : Nat) (token : Option (Nat × Nat × Nat)) : Card := ⟨7, 3, 0x60000, 5, dealt, 1, token, false⟩

theorem witness_NodesRecordsAndCards_instructions :
    (∀ i ∈ ([.ralloc c2 (.v 1) (.v 2) 0, .rcommit c2 (.v 3), .rdone c2, .rflush c2 (.v 1) (.v 2), .rcard c2 (some 7) (.v 1) (.v 2) (.v 3) (.v 4),
        .rcard c2 none (.v 1) (.v 2) (.v 3) (.v 4)] : List Instr), ∀ f ∈ ([id, noded id, noded fun n => { n with maxdepth := 0 }] : List (State → State)),
      Issues i c2 (f place) false (path .user) ∧ (issuedOf i c2 (f place) false (path .user)).act = laneBit 0 ∧
        (issuedOf i c2 (f place) false (path .user)).state.myBlk = some (placeBlock false) ∧
        (issuedOf i c2 (f place) false (path .user)).state.grp.idempc.getLsbD 0 = false) ∧
    (special place false 0 .depth).pay.toNat + 1 = 1 ∧
    (place.jobNode (placeBlock false) 3 = none ∧ (noded id place).jobNode (placeBlock false) 3 = some node0) ∧
    (((noded id place).settleNode 3).node? 3).map Node.full = some false ∧
    (((noded (fun n => { n with alloc := 64, slots := [(0, ⟨.reserved, 0, 0, none, none, 0⟩)] }) place).settleNode 3).node? 3).map Node.full = some true ∧
    (noded (fun n => { n with alloc := 1, slots := [(0, ⟨.reserved, 0, 0, some (1, 0), none, 0⟩)] }) place).reservedSlot 1 0 0x70000 = some (3, 0) ∧
    (committed 3).run = 3 ∧ node0.run = 0 ∧
    (0x70000 + 1 * node0.rsize ≤ 2 ^ 56 ∧ ((noded id place).cards.filter fun y => y.node == 3 && y.pending).length < 16) :=
  ⟨by decide +kernel, by decide, by decide, by decide, by decide +kernel, by decide, by decide, by decide, by decide⟩
theorem witness_NodesRecordsAndCards_rdone :
    (((ofNode none place).myBlk).map Block.origin = some (.node 3 1 0x70000 0 none) ∧ (place.myBlk).map Block.origin = some (.grid 1 0 0 0 0)) ∧
    (let s := ofNode none (noded id place)
     Issues (.rdone c2) c2 s false (path .user) ∧ (issuedOf (.rdone c2) c2 s false (path .user)).act = laneBit 0) := by decide
theorem witness_NodesRecordsAndCards_launch :
    (let s := { noded (fun _ => committed 1) place with now := 101 }
     ((s.settleNode 3).node? 3).map (fun n => (n.timer, n.run, (n.slot (n.launch % n.qcap)).clock + n.timer)) = some (100, 1, 101)) ∧
    (let s := noded (fun _ => committed 32) place
     ((s.settleNode 3).node? 3).map (fun n => (n.run, n.unbind, (s.settleNode 3).cardOf 3,
       (s.settleNode 3).nodeWaits n,
       ((s.settleNode 3).launchNode n 1 32 (n.slotVA 0) 0 none ((List.range 32).map fun i => (n.slot i).depth)).isSome)) =
         some (32, none, none, false, true)) ∧
    (let s := { noded id place with cards := [card0 0 none] }
     s.node? 3 = some node0 ∧ s.cardOf 3 = some (card0 0 none) ∧ node0.unbind = none ∧
       (s.launchNode node0 1 3 0x60000 0 (some 7) (List.replicate 3 1)).isSome = true) ∧
    (let s := { place with cards := [card0 5 none] }
     s.cards.find? (fun x => x.id == 7) = some (card0 5 none) ∧ (card0 5 none).pending = false ∧ s.cardRuns 7 = false) ∧
    ((card0 5 (some (1, 0, 7))).token = some (1, 0, 7) ∧ (card0 5 (some (1, 0, 7))).pending = false) :=
  ⟨by decide +kernel, by decide +kernel, by decide +kernel, by decide, by decide⟩

/-- A queue of 16 packets at 0x60000 with n packets written, its control block at 0x50000, and one packet that runs. -/
def queue0 (widx sidx : Nat) (ps : List Packet) : Queue :=
  { id := 2, pid := 1, aspace := 1, qcb := 0x50000, pa := 0x50000, ring := 0x60000, log2n := 4, die := 0, vec := 9, rcb := 0x100, widx := widx, sidx := sidx, cidx := 0,
    state := 1, err := 0, packets := ps }
def queued (k : Queue) (s : State) : State := { s with queues := [k] }
/-- The words of a packet: its header, its signal address, and three operands. -/
def pk (head sig : Nat) (a b c : Nat) : List Word := [BitVec.ofNat 64 head, BitVec.ofNat 64 sig, 0, BitVec.ofNat 64 a, BitVec.ofNat 64 b, BitVec.ofNat 64 c, 0, 0]
def running (ws : List Word) (st : PacketSt) : Packet := ⟨0, ws, st, 0, none, 0⟩
def runs (ws : List Word) : State := queued (queue0 1 1 [running ws .running]) place
/-- Words of physical memory from a word number on. -/
def wordsAt (s : State) (n : Nat) (ws : List Word) : State := { s with mem := ws.zipIdx.foldl (fun m e => wrWord m (n + e.2) e.1) s.mem }

theorem witness_QueuesAndPacketStart :
    (let s := queued (queue0 3 0 []) place
     s.dev.boot = .up ∧ s.doorbellQueue 0 2 = some 2 ∧
       ({ s with dev := { s.dev with vfs := [⟨5, 1, 0, .unlocked⟩] } } : State).doorbellQueue 5 0 = some 2 ∧ State.reset.dev.boot ≠ .up ∧
       place.doorbellQueue 5 0 = none ∧ s.queue? 2 = some (queue0 3 0 []) ∧ (3 : Word).toNat ≤ (queue0 3 0 []).widx ∧ (queue0 3 0 []).widx < (16 : Word).toNat ∧
       (16 : Word).toNat ≤ (queue0 3 0 []).cidx + 2 ^ 4 ∧ (queue0 3 0 []).cidx + 2 ^ 4 < (17 : Word).toNat) ∧
    (let s := wordsAt place 0xA000 [0x60000, 0x0000000100090004, 0x100]
     (s.firmWords 1 0x50000 16).map qcbFields = some (0x60000, 4, 0, 9, 1, 0x100) ∧ s.chain 1 0x100 = some [rcb0] ∧ s.aspace? 1 = some ⟨1, 1, some 0x20000⟩ ∧
       s.queue? 2 = none ∧ (s.part? 1).map (fun p => p.dies.contains 0) = some true ∧
       (s.firmWords 1 0x50000 16).map (fun ws => (fieldOf ws 24 8, fieldOf ws 60 4, ws.drop 8)) = some (0, 0, List.replicate 8 0) ∧
       s.frozenVf 1 (tenantOf [rcb0]) = false ∧
       ({ s with dev := { s.dev with vfs := [⟨5, 1, 0, .unlocked⟩] } } : State).vf? 5 = some ⟨5, 1, tenantOf [rcb0], .unlocked⟩ ∧
       ({ s with dev := { s.dev with vfs := [⟨5, 1, 0, .unlocked⟩] } } : State).frozenVf 1 (tenantOf [rcb0]) = false) ∧
    (let s := queued (queue0 0 0 []) (wordsAt place 0xA000 [0x60000, 0x0000000100090004, 0x100])
     (s.firmWords 1 0x50000 3).map qcbFields = some (queue0 0 0 []).copies) ∧
    (let s := queued (queue0 0 0 []) place
     (s.firmWords 1 0x50000 3).map (fun ws => decide (qcbFields ws = (queue0 0 0 []).copies)) = some false ∧
       (s.stopQueue 2 1).vfFor 1 ((s.stopQueue 2 1).queueTenant (queue0 0 0 [])) = none) :=
  ⟨by decide, by decide +kernel, by decide +kernel, by decide +kernel⟩
/-- The words that the command core of die 0 finds at an address of space 1, and the state then. -/
def found (s : State) (va n : Nat) : List Val × State :=
  let as := (List.range n).map fun j => (va + 8 * j, s.devHome 0 1 (va + 8 * j) .read)
  let u := s.touchDies 0 1 (as.map Prod.fst)
  (as.filterMap fun e => match e.2 with | .home h => some (u.viewWord h) | .missing | .fault _ => none, u)
/-- Every word has a home. -/
def homed (s : State) (va n : Nat) : Bool :=
  (List.range n).all fun j => match s.devHome 0 1 (va + 8 * j) .read with | .home _ => true | .missing | .fault _ => false
/-- Where no record is pending and every word has a home, a packet finds its words. -/
theorem finds (s : State) (k : Queue) (i va n : Nat) (hd : k.die = 0) (ha : k.aspace = 1) (hr : s.recs = []) (hh : homed s va n = true) :
    Finds s k i va n (found s va n).1 (found s va n).2 := by
  intro f
  have hs : ({ s with recs := [] } : State) = s := by rw [← hr]
  have hrd : ∀ a q, s.ready a q = (.go, s) := by
    intro a q
    simp only [State.ready, hr, List.any_nil, List.find?_nil, List.filter_nil, Bool.false_eq_true, if_false, hs]
  have hj : ∀ j ∈ List.range n, ∃ h, s.devHome 0 1 (va + 8 * j) .read = .home h := by
    intro j hj
    have := List.all_eq_true.1 hh j hj
    revert this
    cases s.devHome 0 1 (va + 8 * j) .read with
    | home h => exact fun _ => ⟨h, rfl⟩
    | missing => exact fun h => nomatch h
    | fault _ => exact fun h => nomatch h
  simp only [State.packetReads, hrd, hd, ha]
  have h1 : ((List.range n).map fun j => (va + 8 * j, s.devHome 0 1 (va + 8 * j) .read)).find? (fun e => e.2 == .missing) = none := by
    rw [List.find?_eq_none]
    intro x hx
    obtain ⟨j, hm, rfl⟩ := List.mem_map.1 hx
    obtain ⟨h, hh⟩ := hj j hm
    intro he
    simp only [beq_iff_eq, hh] at he
    cases he
  rw [h1]
  split
  · rename_i h; cases h
  · rename_i h
    obtain ⟨x, hx, hf⟩ := List.exists_of_findSome?_eq_some h
    obtain ⟨j, hm, rfl⟩ := List.mem_map.1 hx
    obtain ⟨h, hh⟩ := hj j hm
    simp [hh] at hf
  · rfl
/-- Where no record is pending, a packet reaches the home of its word. -/
theorem reaches (s : State) (k : Queue) (i va : Nat) (need : Need) (h : Home) (hr : s.recs = [])
    (hh : s.devHome k.die k.aspace va need = .home h) : Reaches s k i va need h (s.touchDie k.die k.aspace va) := by
  intro f
  have hs : ({ s with recs := [] } : State) = s := by rw [← hr]
  simp only [State.packetHome, State.ready, hr, List.any_nil, List.find?_nil, List.filter_nil, Bool.false_eq_true, if_false, hs, hh]

/-- A packet of type 8 with no barrier is well formed and found in the ring, and a lane of its die takes it. -/
theorem witness_QueuesAndPacketStart_start : ∃ u vs, Finds (queued (queue0 1 0 []) (wordsAt place 0xC000 (pk 8 0 0 0 0))) (queue0 1 0 []) 0 0x60000 8 vs u ∧
    (let v := u.takeLanes 0
     packetOk (v.topQueue (queue0 1 0 [])) (vs.map Val.pay) = true ∧ v.laneTurn (queue0 1 0 []) (pkType (vs.map Val.pay)) = true) ∧
    ofType 8 (vs.map Val.pay) = true ∧ pkBar (vs.map Val.pay) = false :=
  ⟨_, _, finds _ _ _ _ _ rfl rfl (by decide) (by decide +kernel), by decide +kernel, by decide +kernel, by decide +kernel⟩

/-! The effects of packets. -/

/-- The same place whose page table has a tagged leaf. -/
def placeT (s : State) : State := { s with mem := wrWord s.mem ((placeRoot + 0x2000) / 8) 0x2700000000000003 }
abbrev k0 (ws : List Word) (st : PacketSt) : Queue := queue0 1 1 [running ws st]
abbrev at0 : Home := .glb 0x50000 pteIdentity
/-- A packet of a type runs, and its word is reached. -/
theorem witness_PacketEffects_signals :
    (let ws := pk 1 0 0x50000 7 0
     (Running (runs ws) 2 0 (signalOp 0) (k0 ws .running) (running ws .running) ∧ (runs ws).devHome 0 1 0x50000 .write = .home at0 ∧
       (runs ws).recs = [] ∧ (((runs ws).touchDie 0 1 0x50000).homeWord at0).tag.code ≤ 10)) ∧
    (let ws := pk 1 0 0x50000 7 1
     (Running (runs ws) 2 0 (signalOp 1) (k0 ws .running) (running ws .running) ∧ (runs ws).devHome 0 1 0x50000 .write = .home at0 ∧
       (((runs ws).touchDie 0 1 0x50000).devAdd at0 7).isRight = true)) ∧
    (let ws := pk 1 0 0x50000 7 2
     let s := placeT (withTag (runs ws) 0xA000 ⟨.pend, 0⟩)
     (Running s 2 0 (signalOp 2) (k0 ws .running) (running ws .running) ∧ s.devHome 0 1 0x50000 .write = .home word0 ∧ cellOf word0 = .inr 0xA000 ∧
       ((s.touchDie 0 1 0x50000).findRoot none 1 0xA000).1 = .root 0xA000 ∧ (s.peek 0xA000).tag = .pend)) ∧
    (let ws := pk 1 0 0 0 4
     Running (runs ws) 2 0 (signalOp 4) (k0 ws .running) (running ws .running)) := by
  refine ⟨⟨⟨by decide, by decide, by decide, by decide⟩, by decide, by decide, by decide⟩, ⟨⟨by decide, by decide, by decide, by decide⟩, by decide, by decide⟩,
    ⟨⟨by decide, by decide, by decide, by decide⟩, by decide, by decide, by decide, by decide⟩, ⟨by decide, by decide, by decide, by decide⟩⟩
/-- What a packet reaches and finds, as `reaches` and `finds` say. -/
theorem witness_PacketEffects_reached : let ws := pk 2 0 0x50000 0 0
    Reaches (runs ws) (k0 ws .running) 0 0x50000 .write at0 ((runs ws).touchDie 0 1 0x50000) ∧
      Reaches (runs ws) (k0 ws .running) 0 0x50000 .read at0 ((runs ws).touchDie 0 1 0x50000) :=
  ⟨reaches _ _ _ _ _ _ (by decide) (by decide), reaches _ _ _ _ _ _ (by decide) (by decide)⟩
/-- The node of the queue's job. -/
def jobNode0 (n : Node) : Node := { n with eff := { n.eff with job := 0x100 } }
theorem witness_PacketEffects_records :
    (∀ e ∈ [(false, pk 1 0 0x60000 3 3, signalOp 3), (true, pk 7 0 3 0x60000 1, ofType 7)], let s := noded jobNode0 (runs e.2.1)
      s.queue? 2 = some (k0 e.2.1 .running) ∧ (k0 e.2.1 .running).packet? 0 = some (running e.2.1 .running) ∧ e.2.2 e.2.1 = true ∧
      s.queueNode (k0 e.2.1 .running) 3 = some (jobNode0 node0) ∧ homed s 0x60000 8 = true ∧
      (let u := (found s 0x60000 8).2.settleNode 3
       let r := (jobNode0 node0).reserve 0 none (some ⟨.packet 2 0, (found s 0x60000 8).1⟩)
       let vs := (found s 0x60000 8).1
       (u.node? 3).map Node.full = some false ∧
       ((u.modNode 3 fun _ => r.2).writeRecord 0 (jobNode0 node0) r.1 0x60000 ⟨.packet 2 0, vs⟩).1 = .written)) ∧
    (let ws := pk 2 0 0x50000 0 0
     Running (runs ws) 2 0 (ofType 2) (k0 ws .running) (running ws .running) ∧ (0 : Nat) ≤ (((runs ws).touchDie 0 1 0x50000).homeWord at0).pay.toNat) ∧
    (let ws := pk 2 0 0x50000 1 1
     let p : Packet := { running ws .running with poll := 1 }
     let s := { queued (queue0 1 1 [p]) place with now := 1 }
     Running s 2 0 (ofType 2) (queue0 1 1 [p]) p ∧ p.poll ≠ 0 ∧ p.poll ≤ s.now ∧ ((s.touchDie 0 1 0x50000).homeWord at0).pay.toNat ≠ 1) :=
  ⟨by decide +kernel, ⟨⟨by decide, by decide, by decide, by decide⟩, by decide⟩, ⟨⟨by decide, by decide, by decide, by decide⟩, by decide, by decide, by decide⟩⟩
/-- Blocks of a level that its parent takes and of one that it does not. -/
def rcbWords (level shareint : Nat) : List Word := [0x100, BitVec.ofNat 64 level, 0, BitVec.ofNat 64 (shareint * 0x10000)] ++ List.replicate 28 0
def setsRcb (level shareint : Nat) : State := wordsAt (runs (pk 3 0 0x50000 0x200 0)) 0xA000 (rcbWords level shareint)
theorem witness_PacketEffects_rcbset :
    (∀ e ∈ [(1, 1, true), (2, 0, false)], let s := setsRcb e.1 e.2.1
      (s.queue? 2).map (fun k => k.packets.map fun p => (p.st, ofType 3 p.words)) = some [(.running, true)] ∧ homed s 0x50000 32 = true ∧
      ((parseRcb 1 0x200 ((found s 0x50000 32).1.map Val.pay)).map ((found s 0x50000 32).2.rcbOk (queue0 1 1 [])) = some e.2.2)) := by decide +kernel
/-- Descriptors of a launch of one block of 32 lanes, and of a node of 64 records of 64 bytes. -/
def launchWords : List Word := [0x40000, 0, 0x0001000100000001, 32, 0, 0, 0x01000014, 0] ++ List.replicate 8 0
def nodeWords : List Word := [0x40000, 0, 0x70000, 0x0120004000000040, 0, 0, 0x01000014, 0] ++ List.replicate 8 0
theorem witness_PacketEffects_launch :
    (let ws := pk 4 0 0x50000 0x51000 0
     Running (runs ws) 2 0 (ofType 4) (k0 ws .running) (running ws .running) ∧ (runs ws).cmds = []) ∧
    (let ws := pk 4 0 0x50000 0x51000 0x7FFFFFFF
     Running (runs ws) 2 0 (ofType 4) (k0 ws .running) (running ws .running) ∧ (ws.getD 5 0).toNat ≠ 0) ∧
    (let ws := pk 5 0 0x50000 0 0
     let s := wordsAt (runs ws) 0xA000 launchWords
     let vs := (found s 0x50000 16).1
     Running s 2 0 (ofType 5) (k0 ws .running) (running ws .running) ∧ s.launches = [] ∧ homed s 0x50000 16 = true ∧
       (parseLaunch (vs.map Val.pay)).map (fun e => (e.2, ((found s 0x50000 16).2.effFor (k0 ws .running) e.1.rcb).isSome)) = some ((1, 1, 1, 32), true)) :=
  ⟨⟨⟨by decide, by decide, by decide, by decide⟩, by decide⟩, ⟨⟨by decide, by decide, by decide, by decide⟩, by decide⟩,
    ⟨⟨by decide, by decide, by decide, by decide⟩, by decide, by decide +kernel, by decide +kernel⟩⟩
theorem witness_PacketEffects_graph :
    (∀ e ∈ [(3, true), (0x103, false)], let ws := pk 6 0 0x51000 e.1 0x50000
      let s := wordsAt (runs ws) (0x51000 / 8) nodeWords
      let k := k0 ws .running
      let vs := (found s 0x51000 16).1
      let s := (found s 0x51000 16).2.touchDie 0 1 0x50000
      s.queue? 2 = some k ∧ k.packet? 0 = some (running ws .running) ∧ ofType 6 ws = true ∧ fld (ws.getD 4 0) 32 1 = 0 ∧
      homed s 0x51000 16 = true ∧ s.devHome 0 1 0x50000 .write = .home at0 ∧
      (s.part? 1).map (fun a => a.dies.contains (e.1 / 256)) = some e.2 ∧ s.node? e.1 = none ∧ (noded id s).node? 3 = some node0 ∧
      (s.landWord .device at0 true (.ofInt (-3)) 0xFF).isRight = true ∧ s.chain 1 0x100 = some [rcb0] ∧
      ((s.effFor k (fieldOf (vs.map Val.pay) 40 8)).map fun f => ((parseNode 3 k (s.inJob 1 (jobOf [rcb0]) f) (vs.map Val.pay)).isSome,
        s.nodeCapOk 1 0 (s.inJob 1 (jobOf [rcb0]) f))) = some (true, true)) ∧
    (parseNode 3 (queue0 1 1 []) Eff.plain (List.replicate 16 0) = none ∧
      ({ place with rcbs := [{ rcb0 with capnodes := 1 }], nodes := [{ node0 with id := 4, eff := { Eff.plain with chain := [0x100] } }] } : State).nodeCapOk
        1 0 { Eff.plain with chain := [0x100] } = false) ∧
    (let ws := pk 6 0 0 (2 ^ 32 + 3) 0x50000
     let s := runs ws
     let running3 := ofNode none (noded jobNode0 s)
     (s.queue? 2 = some (k0 ws .running) ∧ fld (ws.getD 4 0) 32 1 = 1 ∧ s.queueNode (k0 ws .running) 3 = none ∧
       (noded jobNode0 s).queueNode (k0 ws .running) 3 = some (jobNode0 node0) ∧ (noded id s).blocks.map Block.origin = [.grid 1 0 0 0 0] ∧
       running3.blocks.map Block.origin = [.node 3 1 0x70000 0 none])) :=
  ⟨by decide +kernel, by decide, by decide⟩
theorem witness_PacketEffects_ends :
    (let ws := pk 8 0 7 0 0
     let s := runs ws
     Running s 2 0 (ofType 8) (k0 ws .running) (running ws .running) ∧ s.tracing 1 2 = false) ∧
    (let ws := pk 8 0 7 0 0
     let s := stopping (runs ws)
     let s : State := { s with dev := { s.dev with sessions := [⟨⟨1, [2], true, true, true, []⟩, true, false⟩] } }
     s.tracing 1 2 = true) ∧
    (∀ sig ∈ [0, 0x50000], let ws := pk 8 sig 7 0 0
      let s := queued (k0 ws .effected) place
      s.queue? 2 = some (k0 ws .effected) ∧ (k0 ws .effected).packet? 0 = some (running ws .effected) ∧ ((s.touchDie 0 1 0x50000).devAdd at0 1).isRight = true) :=
  ⟨⟨⟨by decide, by decide, by decide, by decide⟩, by decide⟩, by decide, by decide⟩

/-! Blocks, power, misses, kills and pre-emption. -/

def launch0 : Launch :=
  { id := 1, queue := 2, pkt := 0, pid := 1, aspace := 1, spec := { Spec.full 0x40000 0 with slots := 0, accs := 0 }, eff := Eff.plain, gx := 1, gy := 1, gz := 1, lanes := 32,
    allowed := 0, placed := 0, ended := 0, pointer := 0, halted := false, win := 0, ests := [], refused := none }
def launching (allowed : Nat) (s : State) : State := { s with launches := [{ launch0 with allowed := allowed }] }
theorem witness_BlocksAndPower_blocks :
    (let s := launching 0 place
     s.launches.find? (fun k => k.id == 1) = some launch0 ∧ launch0.refused ≠ some s.dev.window ∧
       s.admits 1 Eff.plain (s.estimate 1 Eff.plain 0) = true ∧
       s.admits 1 { Eff.plain with levels := [(0x100, 0, 0, 1)] } (s.estimate 1 { Eff.plain with est := 2 } 0) = false) ∧
    (let s := launching 1 place
     (∃ l, s.launches.find? (fun k => k.id == 1) = some l ∧ l.placed < l.allowed ∧ l.halted = false) ∧ s.placing 1 = true ∧ s.runCapOk 1 Eff.plain = true ∧
       s.placeFor 1 launch0.spec Eff.plain 1 0 [] = some ⟨1, [(1, [0])]⟩ ∧
       (State.startBlock { s with uid := s.uid + 1 } (newBlock s.uid (.grid 1 0 0 0 0) 1 1 2 launch0.spec Eff.plain 1 1 1 32 0) ⟨1, [(1, [0])]⟩ []).isSome = true) ∧
    (let s := place.setGrp fun g => { g with st := .ended }
     (s.grp? 1 0).map Group.st = some .ended ∧ (s.blk? 1).map Block.killRec = some none ∧ s.unacked 1 0 = 0) ∧
    (let s := { place with grp := Group.empty }
     s.cmdsOf 1 = false ∧ s.blocks.all (fun b => b.stream.isNone && !b.cores.any fun c => s.busyFor b c) = true ∧
       (∀ g ∈ s.allGroups, ¬(g.blk = 1 ∧ g.st ≠ .none)) ∧ s.stores = []) ∧
    (let s := place.modBlk 1 fun b => { b with killRec := some (blockRec b 2) }
     (s.blk? 1).map (fun b => b.killRec.isSome) = some true ∧ s.cmdsOf 1 = false) := by
  refine ⟨by decide, ⟨⟨_, rfl, by decide, by decide⟩, by decide, by decide, by decide +kernel, by decide +kernel⟩, by decide, by decide, by decide⟩
theorem witness_BlocksAndPower_power :
    ((State.reset.dev.window < 1700000 / 1700000) ∧ State.reset.onCore 287 = [] ∧
      sget 0 State.reset.dev.idleSince 287 + 34000 ≤ ({ State.reset with now := 34000 } : State).now ∧ 287 ∉ State.reset.dev.gated) ∧
    (let s := State.reset.setTile 5 { Tile.off with gated := false }
     (s.tile 5).active = false ∧ (s.tile 5).gated = false ∧ (s.tile 5).lastUse + 8500 ≤ 8500) ∧
    (let s : State := { place with dev := { place.dev with gated := [0] } }
     s.oldestOn 0 = some 0 ∧ 0 ∈ s.dev.gated ∧ (s.dev.wakes.filter fun w => w.1 / 72 == 0 && s.now < w.2 + 1700).length < 4 ∧
       ∀ c ∈ s.dev.gated, c / 72 = 0 → ∀ k, s.oldestOn c = some k → 0 ≤ k) ∧
    (∀ d ∈ ({ State.reset.dev with hotDies := [3] } : Device).hotDies, d = 3) ∧
    (let j (w : Bool) : Job := ⟨1, Eff.plain.job, 0, 0, 0, none, w, []⟩
     ({ place with jobs := [j false] } : State).blocks.map (fun b => (b.st, b.pid, b.eff.job)) = [(.running, 1, Eff.plain.job)] ∧
       place.blk? place.grp.blk = some (placeBlock false) ∧ (j true).withheld = true ∧
       ({ place with blocks := [placeBlock true] } : State).streamCands = [1]) ∧
    ([0x3C00000000, 0, 0, 0].length = 4 ∧ [0x3C00000000, 0, 0, 0].all regionOk = true ∧ (∀ c ∈ [0, 287, 286], c < 288) ∧
      [0, 287, 286].Nodup ∧ [0, 287, 286].countP (fun c => c / 72 == 3) ≤ 4) := by
  refine ⟨by decide, by decide, ⟨by decide, by decide, by decide, ?_⟩, by decide, by decide, by decide⟩
  exact fun _ _ _ _ _ => Nat.zero_le _

/-- A record of kind 1 about a page, of a path that waits. -/
def rec1 (idx : Option Nat) (res : Nat) (va : Nat) : PendRec :=
  ⟨4, 1, { blockRec (placeBlock false) 0 with kind := 1, faddr := BitVec.ofNat 64 va, aspace := 1 }, .path 1 0 false, idx, res⟩
theorem witness_MissesAndKills :
    (place.walk 1 0x1000000000 = .missing ∧ (place.grp? 1 0).map (fun g => (g.runs, (g.slot false).map fun p => (p.redo, p.wait, p.held))) =
      some (true, some (none, .none, false)) ∧ (place.blk? 1).map Block.aspace = some 1) ∧
    (let s := { place with recs := [rec1 (some 0) 0 0x1000000000] }
     s.part? 1 ≠ none ∧ s.recs.find? (fun k => k.uid == 4 && k.part == 1) = some (rec1 (some 0) 0 0x1000000000)) ∧
    (place.walk 1 0x50000 ≠ .missing ∧ (rec1 (some 0) 0 0x50000).idx ≠ none) ∧
    (let s := { (place.setGrp fun g => g.modSlot false fun p => { p with wait := .records [(4, 1)] }) with recs := [rec1 (some 0) 1 0x50000] }
     (s.grp? 1 0).map (fun g => (g.slot false).map fun p => p.wait) = some (some (.records [(4, 1)])) ∧
       ∀ k ∈ (s.observe (.path 1 0 false)).recs, k.res = 1) ∧
    (let s := { place with recs := [rec1 none 0 0x50000] }
     (s.part? 1).map (fun p => s.ringRoom 1 0 p.fqcb p.fqWidx) = some true ∧ (rec1 none 0 0x50000).record.die = 0 ∧ (rec1 none 0 0x50000).part = 1 ∧ s.recs = [rec1 none 0 0x50000]) ∧
    (place.blk? 1).map (fun b => (b.killRec.isNone, decide (b.st = .ended), b.eff.fdom)) = some (true, false, 0) :=
  ⟨by decide, by decide, by decide, by decide +kernel, by decide +kernel, by decide⟩

/-- The block in a state of its life, its group in one of its own. -/
def living (bst : BlockSt) (gst : GroupSt) (f : Group → Group) : State :=
  (place.modBlk 1 fun b => { b with st := bst, eff := { b.eff with saveh := 0x90000 } }).setGrp fun g => f { g with st := gst, savebudget := 100 }
theorem witness_Preemption_saves :
    ((place.blk? 1).map (fun b => (b.st, b.killRec, place.streamIdle b)) = some (.running, none, true) ∧ place.liveGroups 1 ≠ [] ∧
      ∀ g ∈ place.liveGroups 1, g.st = .running) ∧
    (let s := living .saving .stopped id
     (s.blk? 1).map (fun b => (b.st, b.killRec, decide (codeAddr b.eff.saveh = 0))) = some (.saving, none, false) ∧ s.groupCmds 1 0 = false ∧
       (s.grp? 1 0).map (fun g => (g.st, fld g.savebudget 0 32)) = some (.stopped, 100)) ∧
    ((living .saving .stopped fun g => { g with savebudget := 0 }).grp? 1 0).map (fun g => (g.st, fld g.savebudget 0 32)) = some (.stopped, 0) ∧
    ((living .saving .forced id).grp? 1 0).map Group.st = some .forced ∧
    (let s := { living .saving .saving (fun g => { g with saveFrom := some 0 }) with now := 101 }
     (s.grp? 1 0).map (fun g => (g.st, g.saveFrom, 0 + g.saveFrozen + fld g.savebudget 0 32)) = some (.saving, some 0, 100) ∧ 100 < s.now ∧
       (s.blk? 1).map Block.frozenAt = some none) ∧
    (let s := living .dropping .stopped id
     (s.blk? 1).map (fun b => (b.st, b.killRec)) = some (.dropping, none) ∧ s.cmdsOf 1 = false) := by
  refine ⟨by decide, by decide, by decide, by decide, by decide, by decide⟩
theorem witness_Preemption_cores :
    (∀ st ∈ [BlockSt.held, .restart], let s := (living st .saved id).modBlk 1 fun b => { b with heldOn := [0], cores := [], spdBase := [] }
      (s.blk? 1).map (fun b => (b.st, b.killRec, (s.resumePlace b [2]).isSome, (s.withWindow b.pid b.eff 0).isSome)) = some (st, none, true, true)) ∧
    ((287 ∉ State.reset.dev.retired) ∧ State.reset.coreBlocks 287 = [] ∧ State.reset.sparesUsed 3 < 4) ∧
    (({ State.reset.dev with slices := [(0, 0x200, false)] } : Device).slices.find? (fun e => e.1 == 0)) = some (0, 0x200, false) ∧
    ((∀ b ∈ place.blocks, b.eff.tenant = 0x200 ∨ ∀ c ∈ b.cores, c ∉ [8, 9]) ∧ [8, 9] ≠ [] ∧
      ∃ c ∈ [8, 9], ∀ e ∈ place.dev.slices, ¬(e.1 = c ∧ e.2.1 = 0x200 ∧ e.2.2 = true)) ∧
    (∀ c ∈ [8, 9], ∃ e ∈ ({ place.dev with slices := [(8, 0x200, true), (9, 0x200, true)] } : Device).slices, e.1 = c ∧ e.2.1 = 0x200 ∧ e.2.2 = true) := by
  refine ⟨by decide +kernel, by decide, by decide, ⟨by decide, by decide, 8, by decide, by decide⟩, by decide⟩

/-! Hosts, debugging and firmware. -/

/-- A machine that firmware has brought up. -/
def up : State := { State.reset with dev := { State.reset.dev with boot := .up } }
/-- The same place with one session of partition 1 over queue 0. -/
def stopped0 : State := stopping place
theorem witness_HostAndDebugEvents_hosts :
    (∃ line, isHost (16 * line) = true) ∧
    (∀ st ∈ [LineSt.i, .s, .e, .m], ∃ s : State, s.hostLine 3 0x20000000000 = st) ∧
    ((7 : Nat) ≠ 0 ∧ up.hostRange 0 (up.hostPA 0x1000) 7 = true ∧ up.heldAtPort 0 (up.hostPA 0x1000) false = false ∧
      up.heldAtPort 0 (up.hostPA 0x1000) true = false ∧ State.reset.hostRange 0 (State.reset.hostPA 0x1000) 7 = false) ∧
    (let s : State := { State.reset with hostReqs := [(3, 0x20000000000)], hostLines := [(l1Key 3 0x20000000000, .s)] }
     (3, 0x20000000000) ∈ s.hostReqs ∧ s.hostLine 3 0x20000000000 = .s ∧ s.stores = [] ∧
       ∀ e ∈ s.hostLines, e.1 % 2 ^ 49 = 0x20000000000 → e.1 / 2 ^ 49 = 3) ∧
    (State.reset.linkOpen 0 3 = false ∧ (0, 3) ∉ State.reset.dev.fwLogged) := by
  refine ⟨⟨2 ^ 44, by decide⟩, ?_, by decide, by decide, by decide⟩
  intro st hst
  have h : st = .i ∨ st = .s ∨ st = .e ∨ st = .m := by simpa using hst
  obtain rfl | rfl | rfl | rfl := h
  · exact ⟨State.reset, by decide⟩
  · exact ⟨{ State.reset with hostLines := [(l1Key 3 0x20000000000, .s)] }, by decide⟩
  · exact ⟨{ State.reset with hostLines := [(l1Key 3 0x20000000000, .e)] }, by decide⟩
  · exact ⟨{ State.reset with hostLines := [(l1Key 3 0x20000000000, .m)] }, by decide⟩
theorem witness_HostAndDebugEvents_debug :
    (let k : SessionSpec := ⟨1, [2], true, true, true, List.replicate 8 (1, 0x40000)⟩
     (queued (queue0 0 0 []) place).part? 1 ≠ none ∧ (∀ q ∈ k.queues, ∃ x ∈ (queued (queue0 0 0 []) place).queues, x.id = q ∧ x.pid = 1) ∧ k.breaks.length = 8) ∧
    ((stopped0.blk? 1).map (fun b => (b.launch?, stopped0.stopsOn b.pid b.queue)) = some (some 1, true) ∧
      (stopped0.grp? 1 0).map (fun g => (g.slot false).map fun p => p.mask.getLsbD 0) = some (some true)) ∧
    (let s : State := { place with dev := { place.dev with sessions := [⟨⟨1, [0], true, true, true, [(1, 0x40000)]⟩, true, false⟩] } }
     (s.grp? 1 0).map (fun g => (g.runs, (g.slot false).map fun p => (p.held, p.redo, p.wait))) = some (true, some (false, none, .none)) ∧
       ((s.blk? 1).map fun b => s.atBreak b (path .user)) = some true) ∧
    (({ State.reset.dev with pinIn := [(3, 63)] } : Device).pinIn.filter (fun e => e.1 == 3) = [(3, 63)]) ∧
    (let s (st : Word) : State := { State.reset with dev := { State.reset.dev with cue := [(0, st * 2 ^ 34 + 2 * 2 ^ 16)] } }
     fld ((s 1).cue 0) 34 2 = 1 ∧ fld ((s 2).cue 0) 34 2 = 2 ∧ sget 0 (s 2).dev.cueCount 0 + 1 < max 1 (fld ((s 2).cue 0) 16 16) ∧
       sget 0 (s 2).dev.cueAt 0 ≠ (s 2).now + 1) ∧
    (sget 0 ({ State.reset.dev with cueAt := [(0, 1)] } : Device).cueAt 0 = State.reset.now + 1) ∧
    ((sget 0 ({ State.reset.dev with firewall := [(linkKey 0 3, 2)] } : Device).firewall (linkKey 0 3)).getLsbD 1 = true ∧
      (sget 0 State.reset.dev.firewall (linkKey 0 3)).getLsbD 1 = false) :=
  ⟨by decide, by decide, by decide, by decide, by decide, by decide, by decide⟩

/-- A partition of one die, and the steps of its relocation. -/
def part0 : Partition := { id := 1, dies := [0], fqcb := 0x10000, trcb := 0, fqWidx := 0, fqLost := 0, trWidx := 0, trLost := 0, handles := [], stopped := false, lastCore := none }
def relocating (r : Option RelocStep) : State :=
  { up with parts := [part0], dev := { up.dev with reloc := r.toList.map fun r => ⟨1, 0, 3, r⟩ } }
theorem witness_FirmwareEvents_bringUp :
    (State.reset.dev.boot = .off ∧ up.dev.boot = .up ∧ ({ up.dev with boot := .recovery } : Device).boot = .recovery) ∧
    (∀ st ∈ [TdispSt.unlocked, .locked], let s : State := { relocating none with dev := { up.dev with vfs := [⟨255, 1, 0x200, st⟩] } }
      (s.vf? 255).map Vf.st = some st ∧ s.part? 1 = some part0 ∧ s.blocks = []) ∧
    (let k : PartSpec := ⟨3, [0, 3], 0x10000, 0xC000010000⟩
     up.dev.boot = .up ∧ k.id < 4 ∧ up.part? k.id = none ∧ k.dies ≠ [] ∧ k.dies.Nodup ∧ (∀ d ∈ k.dies, d < 4) ∧ (∀ d ∈ k.dies, up.freeDie (up.physDie d) = true) ∧
       (k.dies.map up.physDie).Nodup ∧ (∀ a ∈ [k.fqcb, k.trcb], a % 64 = 0 ∧ ∃ d ∈ k.dies, rangeOf a = .hbm (up.physDie d)) ∧
       ∀ e ∈ endsOf (k.dies.map up.physDie) (k.dies.map up.physDie), up.stuckEnd true e = false) := by
  refine ⟨by decide, by decide, by decide, by decide, by decide, by decide, by decide, by decide, by decide, by decide, by decide, by decide⟩
theorem witness_FirmwareEvents_spaces :
    ((2 ^ 32 - 1 ≠ 0 ∧ 2 ^ 32 - 1 < 2 ^ 32) ∧ place.aspace? (2 ^ 32 - 1) = none ∧ 0x20000 % 8192 = 0 ∧ rangeOf 0x20000 = .hbm 0 ∧ place.ownsDie 1 0 = true ∧
      place.aspace? 1 = some ⟨1, 1, some 0x20000⟩) ∧
    (let s := { place with rcbs := [] }
     (s.firmWords 1 0x50000 32).map (fun ws => (parseRcb 1 0x100 ws).map Rcb.level) = some (some 0) ∧ s.rcbs = [] ∧ s.rcb? 1 0x100 = none ∧ 0x100 % 256 = 0 ∧
       0x50000 % 256 = 0 ∧ s.aspace? 1 = some ⟨1, 1, some 0x20000⟩ ∧ s.frozenVf 1 0x100 = false) :=
  ⟨by decide, by decide +kernel⟩
theorem witness_FirmwareEvents_moves :
    (let s := relocating none
     s.part? 1 = some part0 ∧ (s.pdies part0).contains 0 = true ∧ s.freeDie 3 = true ∧ (∀ m ∈ s.dev.migration, m.pid ≠ 1) ∧ (∀ r ∈ s.dev.reloc, r.pid ≠ 1 ∧ r.q ≠ 3) ∧
       ∀ e ∈ s.relocEnds part0 0 3, (sget 0 s.dev.firewall (linkKey e.1 e.2)).getLsbD 1 = false) ∧
    (∀ r ∈ [RelocStep.preCopy, .stop, .finalCopy, .rewrite], (relocating (some r)).relocAt 1 0 3 r = true ∧ (relocating (some r)).atRest 1 = true ∧
      (part0.dies.find? fun x => (relocating (some r)).physDie x == 0) = some 0) ∧
    (let s : State := { relocating none with dev := { up.dev with migration := [⟨1, 0x20000000000, 8, 0, [], false, true⟩] } }
     (s.dev.migration.find? fun m => m.pid == 1).map Migration.final = some true ∧ s.atRest 1 = true) ∧
    (0xFFFFFFFFFFFF8 % 8 = 0 ∧ rangeOf 0xFFFFFFFFFFFF8 = .host ∧ rangeOf (0xFFFFFFFFFFFF8 + 8 * 1 - 1) = .host ∧
      ∀ m ∈ ([⟨1, 0x20000000000, 8, 0, [], false, false⟩, ⟨2, 0x20000000000, 8, 0, [], false, true⟩] : List Migration), ¬(m.pid = 1 ∧ m.final = true)) ∧
    ((3 : Nat) < 4 ∧ 3 ∉ State.reset.dev.lostDies) ∧
    (sget 2 State.reset.dev.links (linkKey 0 3) ≠ 0 ∧ 3 < portCount 3 ∧ sget 8 State.reset.dev.ports (portKey 3 3) ≠ 0 ∧
      (sget 0 State.reset.dev.firewall (linkKey 0 3)).getLsbD 1 = false) := by
  refine ⟨by decide, by decide, by decide, by decide, by decide, by decide⟩

/-! Frames, steps and encodings. -/

theorem witness_RegisterFrame : ∀ i ∈ ([.iadd c2 .i64 false (.v 1) (.v 2) (.reg (.v 3)), .plop c2 0xE8 23 0 1 2, .movi c2 (.g 63) (.gen (.int 0))] : List Instr),
    registerOnly i = some c2 ∧ Issues i c2 ints false (path .user) := by decide
/-- The step after a launch fetches the instruction placed there; a plan whose first turn is an event takes that. -/
theorem witness_StepRunsDecodedInstruction :
    (let s := State.reset.withFetchWord 128 (w2 0x11B 330 388 0 0 0 0 0).toNat
     let u := s.tick.timers.select
     s.tick.timers.turn.event = none ∧ u.who = .path false ∧ (u.grp.slot false).map (fun p => (p.redo, p.wait, p.pc)) = some (none, .none, 0x40000) ∧
       (u.blk? u.grp.blk).map (fun b => u.stopHere b ((u.grp.slot false).getD (path .user))) = some none ∧
       (u.translate u.grp.core 1 0x40000).1 = .leaf pteIdentity 36 ∧ refused pteIdentity .fetch true = false ∧
       (u.translate u.grp.core 1 0x40000).2.reaches 0 (leafPA pteIdentity 36 0x40000) = true ∧
       decode false true ((u.translate u.grp.core 1 0x40000).2.fetchWord u.grp.core (leafPA pteIdentity 36 0x40000)).1 = .ok (.mov c2 (.g 10) (.sp .blky))) ∧
    (let s := State.reset.withFetchWord 128 (w2 0x39A 0 0 0 0 0 0 0).toNat
     let u := s.tick.timers.select
     s.tick.timers.turn.event = none ∧ u.who = .stream 1 ∧ ((u.blk? 1).bind Block.stream).map (fun t => (t.bad, t.pc)) = some (none, 0x40000) ∧
       (u.translate 0 1 0x40000).1 = .leaf pteIdentity 36 ∧
       (u.translate 0 1 0x40000).2.reaches 0 (leafPA pteIdentity 36 0x40000) = true ∧
       decode true true ((u.translate 0 1 0x40000).2.fetchWord 0 (leafPA pteIdentity 36 0x40000)).1 = .ok .tstop) ∧
    (let s : State := { State.reset with plan := [{ Turn.plain with event := some .energyWindowStart }] }
     s.tick.timers.turn.event = some .energyWindowStart ∧ isEvent .energyWindowStart = true) :=
  ⟨by decide, by decide, by decide⟩
theorem witness_DecodeOfEncode : (Instr.tmma 1 0 2).wf = true ∧ encode (.tmma 1 0 2) = some (w2 0x393 1 0 2 0 0 0 0) := by decide
theorem witness_EncodeOfDecode : decode true false (w2 0x393 1 0 2 0 0 0 0) = .ok (.tmma 1 0 2) := by decide
theorem witness_StepKeepsMemoryCanonical : State.reset.memOk = true ∧ ∃ t, step State.reset = .next t := ⟨by decide, _, rfl⟩
/-- A magnitude of more than 60 bits with a number above it, and 1.5, the tie of E8M0 between 1 and 2. -/
theorem witness_RoundingLaw :
    ((2 : Nat) ^ 60 ≤ 2 ^ 60 ∧ (ratOf (2 ^ 60) 0 : ℚ) < 2 ^ 60 + 1 / 2 ∧ (2 ^ 60 + 1 / 2 : ℚ) < ratOf (2 ^ 60 + 1) 0) ∧
      (3 : Nat) ≠ 0 ∧ (2 : ℚ) ^ (0 : Int) ≤ ratOf 3 (-1) ∧ ratOf 3 (-1) < (2 : ℚ) ^ ((0 : Int) + 1) ∧ 2 * ratOf 3 (-1) = 3 * (2 : ℚ) ^ (0 : Int) := by
  norm_num [ratOf]
/-- Half the smallest subnormal of f16 is a tie, and goes to the even code 0; above the largest finite value it is infinity, or not, by
the mode (Tables 3.4 and 3.5). -/
theorem test_rounding : fmtF16.round .rne false 1 (-25) = 0 ∧ fmtF16.round .rup true 1 (-25) = 0x8000 ∧
    fmtF16.round .rup false 1 (-25) = 1 ∧ fmtF16.round .rne false 65520 0 = 0x7C00 ∧ fmtF16.round .rtz false 65520 0 = 0x7BFF ∧
    fmtE4m3.round .rne true 480 0 = 0xFE := by decide
/-- The launch placed by `withFetchWord` runs its instruction: MOV of sys.blky writes the group's register, once its latency is over. -/
theorem test_step_after_reset : (match step (State.reset.withFetchWord 128 (w2 0x11B 330 388 0 0 0 0 0).toNat) with
    | .next t => some (t.grp.flushAll.gr 10)
    | .fault _ | .refused _ => none) = some (.int 0) := by decide
end Sys2Proof.Tests
end

section
/-! The tag instructions with a predicate result (spec 11_generic R147). -/
namespace Sys2Proof.Machine.Claim

/-- TAGCHK issues, writes and goes on as a typed instruction with a predicate result does: what is its own is the bit of
each lane, which the lane's tag selects from the mask (R147). -/
theorem exec_tagchk (c : Ctl) (d : Pred) (a : Src) (mask : BitVec 16) (s : State) :
    exec (.tagchk c d a mask) s =
      .next (typedP (.tagchk c d a mask) c .alu d (fun t b l => mask.getLsbD (rdSrc t b c.ix a l).tag.code) s) := rfl

/-- Settles O8: TAGCHK is a typed instruction with a predicate result, and such an instruction writes the bits of the
Active lanes only. -/
theorem tagCheckSetsBits : Obligations.TagCheckSetsBits := by
  unfold Obligations.TagCheckSetsBits
  intro c d a mask s z p h
  exact typedP_gives (exec_tagchk c d a mask s) h

end Sys2Proof.Machine.Claim
end

section
/-! What R152 reads of a word and writes of a number, as bit vectors (spec 13_typed R152). -/
namespace Sys2Proof.Machine.Claim

/-! ### Val -/

theorem unsOf_eq_toNat_setWidth (w : Nat) (x : Word) : unsOf w x = (x.setWidth w).toNat := by
  simp [unsOf]

theorem sgnNat_toNat {w : Nat} (hw : 0 < w) (u : BitVec w) : sgnNat w u.toNat = u.toInt := by
  have h2 : 2 ^ w = 2 * 2 ^ (w - 1) := (Nat.two_pow_pred_mul_two hw).symm.trans (Nat.mul_comm _ _)
  rw [sgnNat, BitVec.toInt_eq_toNat_cond]
  by_cases h : 2 ^ (w - 1) ≤ u.toNat
  · rw [if_pos h, if_neg (by omega)]; push_cast; rfl
  · rw [if_neg h, if_pos (by omega)]

/-- Val is the number that the type reads. -/
theorem valOf_eq_number (t : ITy) (x : Word) : valOf t x = number t x := by
  have sgnOf_eq {w : Nat} (hw : 0 < w) : sgnOf w x = (x.setWidth w).toInt := by
    rw [sgnOf, unsOf_eq_toNat_setWidth, sgnNat_toNat hw]
  cases t with
  | i32 => exact sgnOf_eq (w := 32) (by decide)
  | i64 => exact (sgnOf_eq (w := 64) (by decide)).trans (by rw [BitVec.setWidth_eq]; rfl)
  | n32 | n64 => simp [valOf, number, ITy.signed, ITy.w, unsOf_eq_toNat_setWidth]

/-! ### Put -/

theorem setWidth_ofInt_64 (e : Int) : (BitVec.ofInt 64 e).setWidth 32 = BitVec.ofInt 32 e := by
  apply BitVec.eq_of_toNat_eq
  simp only [BitVec.toNat_setWidth, BitVec.toNat_ofInt]
  omega

/-- Put keeps the low bits that the type has. -/
theorem putInt_eq_keep (t : ITy) (e : Int) : putInt t e = .raw (keep t (BitVec.ofInt 64 e)) := by
  have mod_eq (w : Nat) : (e % 2 ^ w).toNat = (BitVec.ofInt w e).toNat := by simp
  cases t with
  | i32 =>
    simp only [putInt, keep, ITy.w, mod_eq, sgnNat_toNat, setWidth_ofInt_64, Nat.zero_lt_succ]
    rfl
  | n32 => simp only [putInt, keep, ITy.w, mod_eq, setWidth_ofInt_64, BitVec.ofNat_toNat]
  | i64 | n64 => simp only [putInt, keep, ITy.w, mod_eq, BitVec.ofNat_toNat, BitVec.setWidth_eq]

/-! ### Numbers in the range of a type -/

/-- A number between Lo and Hi of the type. -/
def InRange (t : ITy) (e : Int) : Prop := least t ≤ e ∧ e ≤ greatest t

theorem number_inRange (t : ITy) (x : Word) : InRange t (number t x) := by
  cases t with
  | i32 => exact ⟨BitVec.le_toInt (x.setWidth 32), Int.le_sub_one_of_lt (BitVec.toInt_lt (x := x.setWidth 32))⟩
  | i64 => exact ⟨BitVec.le_toInt x, Int.le_sub_one_of_lt (BitVec.toInt_lt (x := x))⟩
  | n32 => exact ⟨Int.natCast_nonneg _, by have := (x.setWidth 32).isLt; simp only [number, greatest]; omega⟩
  | n64 => exact ⟨Int.natCast_nonneg _, by have := x.isLt; simp only [number, greatest]; omega⟩

/-- A number in the range of the type loses nothing. -/
theorem keep_ofInt_of_inRange {t : ITy} {e : Int} (h : InRange t e) :
    keep t (BitVec.ofInt 64 e) = BitVec.ofInt 64 e := by
  obtain ⟨hl, hg⟩ := h
  cases t with
  | i32 =>
    have he : (BitVec.ofInt 32 e).toInt = e :=
      BitVec.toInt_ofInt_eq_self (by decide) hl (Int.lt_of_le_sub_one hg)
    simp only [keep, setWidth_ofInt_64, BitVec.signExtend, he]
  | n32 =>
    simp only [least, greatest] at hl hg
    apply BitVec.eq_of_toNat_eq
    simp only [keep, BitVec.toNat_setWidth, BitVec.toNat_ofInt]
    omega
  | i64 | n64 => rfl
theorem putInt_of_inRange {t : ITy} {e : Int} (h : InRange t e) : putInt t e = .raw (BitVec.ofInt 64 e) := by
  rw [putInt_eq_keep, keep_ofInt_of_inRange h]

/-- Put of the number of a word keeps the word's low bits. -/
theorem putInt_number (t : ITy) (x : Word) : putInt t (number t x) = .raw (keep t x) := by
  rw [putInt_of_inRange (number_inRange t x)]
  cases t with
  | i32 => rfl
  | i64 => exact congrArg Val.raw BitVec.ofInt_toInt
  | n32 =>
    simp only [number, keep]
    rw [BitVec.ofInt_natCast, BitVec.ofNat_toNat]
  | n64 =>
    simp only [number, keep]
    rw [BitVec.ofInt_natCast, BitVec.ofNat_toNat, BitVec.setWidth_eq]

/-- An integer instruction of A and B that neither saturates nor faults completes with Put of its function of the two
numbers. -/
theorem int2_gives {i : Instr} {c : Ctl} {lat : Lat} {ty : ITy} {d : Reg} {a : Src} {b : TSrc} {f : Int → Int → Int}
    {s : State} {z : Bool} {p : Path} (he : exec i s = .next (int2 i c lat ty false d a b f s)) (h : Issues i c s z p) :
    GivesVal i c lat d s z p fun t l =>
      putInt ty (f (number ty (rdSrc t z c.ix a l).pay) (number ty (rdT t z c.ix ty.ty b l).pay)) := by
  have hf := typedV_gives he h
  simpa only [arith, valOf_eq_number, Bool.false_eq_true, if_false] using hf

end Sys2Proof.Machine.Claim
end

section
/-! Truncating division (spec 13_typed R153). -/
namespace Sys2Proof.Machine.Claim

theorem least_nonpos (t : ITy) : least t ≤ 0 := by cases t <;> decide
theorem greatest_nonneg (t : ITy) : 0 ≤ greatest t := by cases t <;> decide
/-- A signed type has one negative number more than positive ones. -/
theorem greatest_eq_of_signed {t : ITy} (ht : t.signed = true) : greatest t = -least t - 1 := by
  cases t with
  | i32 | i64 => rfl
  | n32 | n64 => cases ht
theorem signed_of_neg_inRange {t : ITy} {y : Int} (hy : InRange t y) (hneg : y < 0) : t.signed = true := by
  cases t with
  | i32 | i64 => rfl
  | n32 | n64 => exact absurd hy.1 (not_le.2 hneg)

/-- A number between 0 and one of the type is of the type. -/
theorem inRange_of_natAbs_le {t : ITy} {x e : Int} (hx : InRange t x) (habs : e.natAbs ≤ x.natAbs)
    (hpos : 0 ≤ x → 0 ≤ e) (hneg : x ≤ 0 → e ≤ 0) : InRange t e := by
  obtain ⟨hl, hg⟩ := hx
  have h0 := least_nonpos t
  have h1 := greatest_nonneg t
  constructor <;> omega

/-- The remainder lies between 0 and the dividend. -/
theorem inRange_tmod {t : ITy} {x : Int} (hx : InRange t x) (y : Int) : InRange t (x.tmod y) := by
  refine inRange_of_natAbs_le hx ?_ (Int.tmod_nonneg y) fun h => ?_
  · rw [Int.natAbs_tmod]; exact Nat.mod_le _ _
  · have := Int.tmod_nonneg y (Int.neg_nonneg.2 h)
    rw [Int.neg_tmod] at this
    omega

/-- The quotient by a divisor that is not negative lies between 0 and the dividend. -/
theorem inRange_tdiv_of_nonneg {t : ITy} {x y : Int} (hx : InRange t x) (hy : 0 ≤ y) : InRange t (x.tdiv y) := by
  refine inRange_of_natAbs_le hx (Int.natAbs_tdiv_le_natAbs x y) (fun h => Int.tdiv_nonneg h hy) fun h => ?_
  have := Int.tdiv_nonneg (Int.neg_nonneg.2 h) hy
  rw [Int.neg_tdiv] at this
  omega

/-- The quotient of two numbers of the type is one, but for the least number by -1. -/
theorem inRange_tdiv {t : ITy} {x y : Int} (hx : InRange t x) (hy : InRange t y)
    (hne : ¬(t.signed = true ∧ x = least t ∧ y = -1)) : InRange t (x.tdiv y) := by
  obtain hy0 | hy0 := le_or_gt 0 y
  · exact inRange_tdiv_of_nonneg hx hy0
  have ht := signed_of_neg_inRange hy hy0
  have hg := greatest_eq_of_signed ht
  obtain ⟨hlx, hgx⟩ := hx
  by_cases hxl : x = least t
  · have hq : 0 ≤ x.tdiv y := Int.tdiv_nonneg_of_nonpos_of_nonpos (hxl ▸ least_nonpos t) hy0.le
    have half : (x.tdiv y).natAbs ≤ x.natAbs / 2 := by
      rw [Int.natAbs_tdiv]
      exact Nat.div_le_div_left (by have : y ≠ -1 := fun h => hne ⟨ht, hxl, h⟩; omega) (by decide)
    have h1 := greatest_nonneg t
    constructor <;> omega
  · have hneg : InRange t (-x) := by constructor <;> omega
    have hq := inRange_tdiv_of_nonneg hneg (Int.neg_nonneg.2 hy0.le)
    rwa [Int.neg_tdiv, Int.tdiv_neg, neg_neg] at hq

/-- All ones, as R153 numbers them for the type. -/
theorem putInt_allOnes (t : ITy) : putInt t (if t.signed then -1 else 2 ^ t.w - 1) = .raw (keep t (-1)) := by
  cases t <;> decide
/-- The quotient of the least number by -1 wraps. -/
theorem putInt_least_tdiv {t : ITy} (ht : t.signed = true) :
    putInt t ((least t).tdiv (-1)) = .raw (BitVec.ofInt 64 (least t)) := by
  cases t with
  | i32 | i64 => decide
  | n32 | n64 => cases ht

theorem idivOf_zero (t : ITy) (x : Int) : idivOf t x 0 = if t.signed then -1 else 2 ^ t.w - 1 := if_pos rfl
theorem idivOf_of_ne_zero (t : ITy) (x : Int) {y : Int} (hy : y ≠ 0) : idivOf t x y = x.tdiv y := if_neg hy
/-- The remainder, by 0 also, is that of truncating division. -/
theorem iremOf_eq_tmod (x y : Int) : iremOf x y = x.tmod y := by
  rw [iremOf, truncDiv, ← Int.tmod_def]
  split
  next h => rw [h, Int.tmod_zero]
  next => rfl

/-- What IDIV writes (the rows of R153). -/
theorem putInt_idivOf {t : ITy} {x y : Int} (hx : InRange t x) (hy : InRange t y) :
    (y = 0 → putInt t (idivOf t x y) = .raw (keep t (-1))) ∧
    (t.signed = true → x = least t → y = -1 → putInt t (idivOf t x y) = .raw (BitVec.ofInt 64 (least t))) ∧
    (y ≠ 0 → ¬(t.signed = true ∧ x = least t ∧ y = -1) →
      putInt t (idivOf t x y) = .raw (BitVec.ofInt 64 (x.tdiv y))) := by
  refine ⟨fun h0 => ?_, fun ht hl h1 => ?_, fun h0 hne => ?_⟩
  · rw [h0, idivOf_zero, putInt_allOnes]
  · rw [hl, h1, idivOf_of_ne_zero t _ (by decide), putInt_least_tdiv ht]
  · rw [idivOf_of_ne_zero t _ h0, putInt_of_inRange (inRange_tdiv hx hy hne)]
/-- What IREM writes for the dividend in word u (the rows of R153). -/
theorem putInt_iremOf (t : ITy) (u : Word) (y : Int) :
    (y = 0 → putInt t (iremOf (number t u) y) = .raw (keep t u)) ∧
    (t.signed = true → number t u = least t → y = -1 → putInt t (iremOf (number t u) y) = .raw 0) ∧
    (y ≠ 0 → putInt t (iremOf (number t u) y) = .raw (BitVec.ofInt 64 (number t u - y * (number t u).tdiv y))) := by
  have hr := putInt_of_inRange (inRange_tmod (number_inRange t u) y)
  rw [iremOf_eq_tmod]
  refine ⟨fun h0 => ?_, fun _ _ h1 => ?_, fun _ => ?_⟩
  · rw [h0, Int.tmod_zero, putInt_number]
  · rw [hr, h1, Int.tmod_neg, Int.tmod_one]; rfl
  · rw [hr, Int.tmod_def]

/-- Settles O2: Put loses nothing of a quotient or a remainder that lies in the range of the type, and the one quotient
outside it is that of the least number by -1. -/
theorem integerDivision : Obligations.IntegerDivision := by
  unfold Obligations.IntegerDivision
  intro c ty d a b s z p
  exact ⟨fun h => ⟨_, int2_gives rfl h, fun _ _ => putInt_idivOf (number_inRange ty _) (number_inRange ty _)⟩,
    fun h => ⟨_, int2_gives rfl h, fun _ _ => putInt_iremOf ty _ _⟩⟩

end Sys2Proof.Machine.Claim
end

section
/-! The bit instructions on the w bits that they read (spec 13_typed R152, R155, R156). -/
namespace Sys2Proof.Machine.Claim

theorem bty_width_pos (t : BTy) : 0 < t.w := by cases t <;> decide

/-! ### Put -/

/-- Put of a number that agrees modulo 2^w with an operation on the w bits of x. -/
theorem putBits_eq_onBits {t : BTy} {n : Nat} {x : Word} {f : (w : Nat) → BitVec w → BitVec w}
    (h : BitVec.ofNat t.w n = f t.w (x.setWidth t.w)) : putBits t n = .raw (onBits t f x) := by
  have hn : n % 2 ^ t.w = (f t.w (x.setWidth t.w)).toNat := by rw [← h, BitVec.toNat_ofNat]
  rw [putBits, hn, BitVec.ofNat_toNat]
  cases t with
  | b32 => rfl
  | b64 => simp [onBits, BTy.w]
theorem putBits_of_lt {t : BTy} {n : Nat} (h : n < 2 ^ t.w) : putBits t n = .raw (BitVec.ofNat 64 n) := by
  rw [putBits, Nat.mod_eq_of_lt h]

/-! ### The two shapes -/

/-- A bit instruction of A and B completes with g of the two payloads, when Put of its function is g. -/
theorem bits2_gives {i : Instr} {c : Ctl} {ty : BTy} {d : Reg} {a : Src} {b : TSrc} {f : Nat → Nat → Nat}
    {g : Word → Word → Word} {s : State} {z : Bool} {p : Path} (he : exec i s = .next (bits2 i c ty d a b f s))
    (hg : ∀ x y : Word, putBits ty (f (unsOf ty.w x) y.toNat) = .raw (g x y)) (h : Issues i c s z p) :
    GivesVal i c .alu d s z p fun t l => .raw (g (rdSrc t z c.ix a l).pay (rdT t z c.ix ty.ty b l).pay) := by
  simpa only [hg] using typedV_gives he h
/-- A bit instruction of A completes with g of its payload, when Put of its function is g. -/
theorem bits1_gives {i : Instr} {c : Ctl} {ty : BTy} {d : Reg} {a : Src} {f : Nat → Nat} {g : Word → Word} {s : State}
    {z : Bool} {p : Path} (he : exec i s = .next (bits1 i c ty d a f s))
    (hg : ∀ x : Word, putBits ty (f (unsOf ty.w x)) = .raw (g x)) (h : Issues i c s z p) :
    GivesVal i c .alu d s z p fun t l => .raw (g (rdSrc t z c.ix a l).pay) := by
  simpa only [hg] using typedV_gives he h

/-! ### The functions of R155 on bit vectors -/

theorem ofNat_complement {w : Nat} (u : BitVec w) : BitVec.ofNat w (2 ^ w - 1 - u.toNat) = ~~~u := by
  rw [← BitVec.toNat_not, BitVec.ofNat_toNat, BitVec.setWidth_eq]

theorem ofNat_bshlOf {w : Nat} (u : BitVec w) (n : Nat) : BitVec.ofNat w (bshlOf w u.toNat n) = u <<< n := by
  by_cases h : n < w
  · apply BitVec.eq_of_toNat_eq
    simp [bshlOf, h, Nat.shiftLeft_eq]
  · rw [bshlOf, if_neg h, BitVec.shiftLeft_eq_zero (not_lt.1 h)]

theorem ofNat_bshrOf {w : Nat} (u : BitVec w) (n : Nat) : BitVec.ofNat w (bshrOf w u.toNat n) = u >>> n := by
  by_cases h : n < w
  · rw [bshrOf, if_pos h, ← Nat.shiftRight_eq_div_pow, ← BitVec.toNat_ushiftRight, BitVec.ofNat_toNat, BitVec.setWidth_eq]
  · rw [bshrOf, if_neg h, BitVec.ushiftRight_eq_zero (not_lt.1 h)]

/-- An arithmetic shift by the width or more gives copies of the sign bit, as a shift by one less than the width does. -/
theorem sshiftRight_of_ge {w n : Nat} (u : BitVec w) (h : w ≤ n) : u.sshiftRight n = u.sshiftRight (w - 1) := by
  apply BitVec.eq_of_getLsbD_eq
  intro i hi
  have : ¬ n + i < w := by omega
  simp only [BitVec.getLsbD_sshiftRight, this, if_false]
  split
  next hlt =>
    obtain rfl : i = 0 := by omega
    simp [BitVec.msb_eq_getLsbD_last]
  next => rfl

theorem ofNat_bsarOf {w : Nat} (hw : 0 < w) (u : BitVec w) (n : Nat) :
    BitVec.ofNat w (bsarOf w u.toNat n) = u.sshiftRight n := by
  have shift (k : Nat) : BitVec.ofNat w (sgnNat w u.toNat / 2 ^ k % 2 ^ w).toNat = u.sshiftRight k := by
    have he : (u.toInt / 2 ^ k % 2 ^ w).toNat = (BitVec.ofInt w (u.toInt / 2 ^ k)).toNat := by simp
    have hs : u.toInt / 2 ^ k = (u.sshiftRight k).toInt := by
      rw [BitVec.toInt_sshiftRight, Int.shiftRight_eq_div_pow]; norm_cast
    rw [sgnNat_toNat hw, he, BitVec.ofNat_toNat, BitVec.setWidth_eq, hs, BitVec.ofInt_toInt]
  by_cases h : n < w
  · simp only [bsarOf, h, if_true, shift]
  · simp only [bsarOf, h, if_false, shift]
    exact (sshiftRight_of_ge u (not_lt.1 h)).symm

theorem ofNat_brolOf {w : Nat} (hw : 0 < w) (u : BitVec w) (n : Nat) :
    BitVec.ofNat w (brolOf w u.toNat n) = u.rotateLeft (n % w) := by
  have hk : n % w < w := Nat.mod_lt n hw
  generalize hm : n % w = k at *
  have hlow : u.toNat / 2 ^ (w - k) < 2 ^ k := by
    apply Nat.div_lt_of_lt_mul
    rw [← Nat.pow_add, Nat.sub_add_cancel hk.le]
    exact u.isLt
  have hup : u.toNat * 2 ^ k % 2 ^ w = 2 ^ k * (u.toNat % 2 ^ (w - k)) := by
    rw [← Nat.mul_mod_mul_left, ← Nat.pow_add, Nat.add_sub_cancel' hk.le, Nat.mul_comm]
  have hor : brolOf w u.toNat n = u.toNat * 2 ^ k % 2 ^ w ||| u.toNat / 2 ^ (w - k) := by
    simp only [brolOf, hm]
    rw [hup, Nat.two_pow_add_eq_or_of_lt hlow]
  have hrot : u.rotateLeft k = u <<< k ||| u >>> (w - k) := by
    rw [BitVec.rotateLeft_def, Nat.mod_eq_of_lt hk]
  have hnat : (u <<< k ||| u >>> (w - k)).toNat = brolOf w u.toNat n := by
    rw [hor, BitVec.toNat_or, BitVec.toNat_shiftLeft, BitVec.toNat_ushiftRight, Nat.shiftLeft_eq, Nat.shiftRight_eq_div_pow]
  rw [← hnat, hrot, BitVec.ofNat_toNat, BitVec.setWidth_eq]

/-! ### What each instruction of R155 writes -/

/-- An operation that acts on each bit by itself may be done on the whole words first. -/
theorem putBits_bitwise (t : BTy) {f : Nat → Nat → Nat} (op : (w : Nat) → BitVec w → BitVec w → BitVec w)
    (hnat : ∀ (w : Nat) (u v : BitVec w), (op w u v).toNat = f u.toNat v.toNat)
    (hlow : ∀ (w : Nat) (x y : Word), (op 64 x y).setWidth w = op w (x.setWidth w) (y.setWidth w)) (x y : Word) :
    putBits t (f (unsOf t.w x) (y.toNat % 2 ^ t.w)) = .raw (onBits t (fun _ u => u) (op 64 x y)) := by
  apply putBits_eq_onBits
  rw [← BitVec.toNat_setWidth, unsOf_eq_toNat_setWidth, ← hnat, BitVec.ofNat_toNat, BitVec.setWidth_eq, hlow]
theorem putBits_band (t : BTy) (x y : Word) :
    putBits t (unsOf t.w x &&& (y.toNat % 2 ^ t.w)) = .raw (onBits t (fun _ u => u) (x &&& y)) :=
  putBits_bitwise t (fun _ => (· &&& ·)) (fun _ => BitVec.toNat_and) (fun _ _ _ => BitVec.setWidth_and) x y
theorem putBits_bor (t : BTy) (x y : Word) :
    putBits t (unsOf t.w x ||| (y.toNat % 2 ^ t.w)) = .raw (onBits t (fun _ u => u) (x ||| y)) :=
  putBits_bitwise t (fun _ => (· ||| ·)) (fun _ => BitVec.toNat_or) (fun _ _ _ => BitVec.setWidth_or) x y
theorem putBits_bxor (t : BTy) (x y : Word) :
    putBits t (unsOf t.w x ^^^ (y.toNat % 2 ^ t.w)) = .raw (onBits t (fun _ u => u) (x ^^^ y)) :=
  putBits_bitwise t (fun _ => (· ^^^ ·)) (fun _ => BitVec.toNat_xor) (fun _ _ _ => BitVec.setWidth_xor) x y
theorem putBits_bnot (t : BTy) (x : Word) :
    putBits t (2 ^ t.w - 1 - unsOf t.w x) = .raw (onBits t (fun _ u => ~~~u) x) := by
  apply putBits_eq_onBits
  rw [unsOf_eq_toNat_setWidth, ofNat_complement]
theorem putBits_bshl (t : BTy) (x y : Word) :
    putBits t (bshlOf t.w (unsOf t.w x) y.toNat) = .raw (onBits t (fun _ u => u <<< y.toNat) x) := by
  apply putBits_eq_onBits
  rw [unsOf_eq_toNat_setWidth, ofNat_bshlOf]
theorem putBits_bshr (t : BTy) (x y : Word) :
    putBits t (bshrOf t.w (unsOf t.w x) y.toNat) = .raw (onBits t (fun _ u => u >>> y.toNat) x) := by
  apply putBits_eq_onBits
  rw [unsOf_eq_toNat_setWidth, ofNat_bshrOf]
theorem putBits_bsar (t : BTy) (x y : Word) :
    putBits t (bsarOf t.w (unsOf t.w x) y.toNat) = .raw (onBits t (fun _ u => u.sshiftRight y.toNat) x) := by
  apply putBits_eq_onBits
  rw [unsOf_eq_toNat_setWidth, ofNat_bsarOf (bty_width_pos t)]
theorem putBits_brol (t : BTy) (x y : Word) :
    putBits t (brolOf t.w (unsOf t.w x) y.toNat) = .raw (onBits t (fun w u => u.rotateLeft (y.toNat % w)) x) := by
  apply putBits_eq_onBits
  rw [unsOf_eq_toNat_setWidth, ofNat_brolOf (bty_width_pos t)]

/-- Settles O3: on the w bits of A the model's arithmetic is that of bit vectors. -/
theorem bitwiseAndShifts : Obligations.BitwiseAndShifts := by
  unfold Obligations.BitwiseAndShifts
  intro c ty d a b s z p
  exact ⟨fun h => (bits2_gives rfl (putBits_band ty) h :), fun h => (bits2_gives rfl (putBits_bor ty) h :),
    fun h => (bits2_gives rfl (putBits_bxor ty) h :), fun h => (bits1_gives rfl (putBits_bnot ty) h :),
    fun h => (bits2_gives rfl (putBits_bshl ty) h :), fun h => (bits2_gives rfl (putBits_bshr ty) h :),
    fun h => (bits2_gives rfl (putBits_bsar ty) h :), fun h => (bits2_gives rfl (putBits_brol ty) h :)⟩

end Sys2Proof.Machine.Claim
end

section
/-! Lists of bits, and the instructions that are stated bit by bit (spec 13_typed R156, R157, R158). -/
namespace Sys2Proof.Machine.Claim

/-! ### Lists of bits and numbers -/

@[simp] theorem length_bitsOf (w n : Nat) : (bitsOf w n).length = w := by simp [bitsOf]
@[simp] theorem getElem_bitsOf (w n j : Nat) (h : j < (bitsOf w n).length) : (bitsOf w n)[j] = n.testBit j := by
  simp [bitsOf]

theorem testBit_natOfBits (bs : List Bool) (j : Nat) : (natOfBits bs).testBit j = bs.getD j false := by
  induction bs generalizing j with
  | nil => simp [natOfBits]
  | cons b r ih =>
    cases j with
    | zero => cases b <;> simp [natOfBits, Nat.testBit_zero, Nat.add_mod]
    | succ j =>
      have hdiv : natOfBits (b :: r) / 2 = natOfBits r := by
        cases b <;> simp only [natOfBits, if_true, Bool.false_eq_true, if_false] <;> omega
      rw [Nat.testBit_succ, hdiv, ih, List.getD_cons_succ]
theorem testBit_natOfBits_map_range (L : Nat) (f : Nat → Bool) (j : Nat) :
    (natOfBits ((List.range L).map f)).testBit j = (decide (j < L) && f j) := by
  rw [testBit_natOfBits, List.getD_eq_getElem?_getD]
  by_cases h : j < L <;> simp [h]
theorem natOfBits_lt (bs : List Bool) : natOfBits bs < 2 ^ bs.length := by
  induction bs with
  | nil => simp [natOfBits]
  | cons b r ih =>
    rw [natOfBits, List.length_cons, Nat.pow_succ]
    split <;> omega

/-- Bit j of Uns. -/
theorem testBit_unsOf (w : Nat) (x : Word) (j : Nat) : (unsOf w x).testBit j = bitAt w x j := by
  rw [unsOf, Nat.testBit_mod_two_pow, BitVec.testBit_toNat, bitAt]

/-! ### Counts -/

theorem popcOf_unsOf (w : Nat) (x : Word) :
    popcOf w (unsOf w x) = (List.range w).countP fun j => x.getLsbD j := by
  have hbits : bitsOf w (unsOf w x) = (List.range w).map fun j => x.getLsbD j := by
    refine List.map_congr_left fun j hj => ?_
    simp [testBit_unsOf, bitAt, List.mem_range.1 hj]
  rw [popcOf, hbits, ← List.countP_eq_length_filter, List.countP_map]
  rfl

/-- The zeros before the first 1 of a list of bits. -/
theorem length_takeWhile_not (bs : List Bool) : (bs.takeWhile fun b => !b).length = bs.findIdx id := by
  rw [List.takeWhile_eq_take_findIdx_not, List.length_take]
  simp only [Bool.not_not]
  exact Nat.min_eq_left List.findIdx_le_length
theorem ctzOf_eq_findIdx (w n : Nat) : ctzOf w n = (bitsOf w n).findIdx id := length_takeWhile_not _
theorem clzOf_eq_findIdx (w n : Nat) : clzOf w n = (bitsOf w n).reverse.findIdx id := length_takeWhile_not _

theorem ctzOf_le (w n : Nat) : ctzOf w n ≤ w := by
  rw [ctzOf_eq_findIdx]
  exact List.findIdx_le_length.trans (length_bitsOf w n).le
theorem clzOf_le (w n : Nat) : clzOf w n ≤ w := by
  rw [clzOf_eq_findIdx]
  exact List.findIdx_le_length.trans (by simp)
theorem testBit_of_lt_ctzOf {w n j : Nat} (h : j < ctzOf w n) : n.testBit j = false := by
  rw [ctzOf_eq_findIdx] at h
  simpa using List.not_of_lt_findIdx h
theorem testBit_ctzOf {w n : Nat} (h : ctzOf w n < w) : n.testBit (ctzOf w n) = true := by
  have hlt : (bitsOf w n).findIdx id < (bitsOf w n).length := by rwa [length_bitsOf, ← ctzOf_eq_findIdx]
  simpa [ctzOf_eq_findIdx] using List.findIdx_getElem (w := hlt)
theorem testBit_of_sub_clzOf_le {w n j : Nat} (h : w - clzOf w n ≤ j) (hj : j < w) : n.testBit j = false := by
  have hlt : w - 1 - j < (bitsOf w n).reverse.findIdx id := by rw [← clzOf_eq_findIdx]; omega
  have hb := List.not_of_lt_findIdx hlt
  rw [id_eq, List.getElem_reverse, getElem_bitsOf, length_bitsOf] at hb
  rwa [show w - 1 - (w - 1 - j) = j by omega] at hb
theorem testBit_clzOf {w n : Nat} (h : clzOf w n < w) : n.testBit (w - 1 - clzOf w n) = true := by
  have hlt : (bitsOf w n).reverse.findIdx id < (bitsOf w n).reverse.length := by
    rwa [List.length_reverse, length_bitsOf, ← clzOf_eq_findIdx]
  have hb := List.findIdx_getElem (w := hlt)
  rwa [id_eq, List.getElem_reverse, getElem_bitsOf, length_bitsOf, ← clzOf_eq_findIdx] at hb

theorem ofNat_brevOf {w : Nat} (u : BitVec w) : BitVec.ofNat w (brevOf w u.toNat) = u.reverse := by
  apply BitVec.eq_of_getLsbD_eq
  intro i hi
  have hr : i < (bitsOf w u.toNat).reverse.length := by simpa using hi
  rw [BitVec.getLsbD_ofNat, brevOf, testBit_natOfBits, List.getD_eq_getElem _ _ hr, List.getElem_reverse, getElem_bitsOf,
    length_bitsOf, BitVec.testBit_toNat, BitVec.getLsbD_reverse, BitVec.getMsbD]

/-- A count of bits is small enough for Put. -/
theorem putBits_of_le {t : BTy} {n : Nat} (h : n ≤ t.w) : putBits t n = .raw (BitVec.ofNat 64 n) :=
  putBits_of_lt (h.trans_lt Nat.lt_two_pow_self)

theorem putBits_popc (t : BTy) (x : Word) :
    putBits t (popcOf t.w (unsOf t.w x)) = .raw (BitVec.ofNat 64 ((List.range t.w).countP fun j => x.getLsbD j)) := by
  rw [popcOf_unsOf]
  exact putBits_of_le (List.countP_le_length.trans List.length_range.le)
theorem putBits_brev (t : BTy) (x : Word) :
    putBits t (brevOf t.w (unsOf t.w x)) = .raw (onBits t (fun _ u => u.reverse) x) := by
  apply putBits_eq_onBits
  rw [unsOf_eq_toNat_setWidth, ofNat_brevOf]

/-- CLZ counts the zeros above the highest 1 of the w bits, or all of them. -/
theorem clzOf_unsOf (w : Nat) (x : Word) :
    clzOf w (unsOf w x) ≤ w ∧ (∀ j, w - clzOf w (unsOf w x) ≤ j → bitAt w x j = false) ∧
      (clzOf w (unsOf w x) < w → bitAt w x (w - 1 - clzOf w (unsOf w x)) = true) := by
  simp only [← testBit_unsOf]
  refine ⟨clzOf_le w _, fun j hj => ?_, testBit_clzOf⟩
  by_cases hlt : j < w
  · exact testBit_of_sub_clzOf_le hj hlt
  · simp [testBit_unsOf, bitAt, hlt]
/-- CTZ counts the zeros below the lowest 1 of the w bits, or all of them. -/
theorem ctzOf_unsOf (w : Nat) (x : Word) :
    ctzOf w (unsOf w x) ≤ w ∧ (∀ j, j < ctzOf w (unsOf w x) → bitAt w x j = false) ∧
      (ctzOf w (unsOf w x) < w → bitAt w x (ctzOf w (unsOf w x)) = true) := by
  simp only [← testBit_unsOf]
  exact ⟨ctzOf_le w _, fun _ => testBit_of_lt_ctzOf, testBit_ctzOf⟩

/-- Settles O4: a count is the place of the first 1 in the list of bits, read from the top or from the bottom. -/
theorem bitCounts : Obligations.BitCounts := by
  unfold Obligations.BitCounts
  intro c ty d a s z p
  have clz (x : Word) := putBits_of_le (clzOf_le ty.w (unsOf ty.w x))
  have ctz (x : Word) := putBits_of_le (ctzOf_le ty.w (unsOf ty.w x))
  exact ⟨fun h => (bits1_gives rfl (putBits_popc ty) h :),
    fun h => ⟨_, (bits1_gives rfl clz h :), fun _ _ => clzOf_unsOf ty.w _⟩,
    fun h => ⟨_, (bits1_gives rfl ctz h :), fun _ _ => ctzOf_unsOf ty.w _⟩,
    fun h => (bits1_gives rfl (putBits_brev ty) h :)⟩

end Sys2Proof.Machine.Claim
end

section
/-! Bit fields (spec 13_typed R157, R158). -/
namespace Sys2Proof.Machine.Claim

theorem ity_width_pos (t : ITy) : 0 < t.w := by cases t <;> decide
theorem ity_width_le (t : ITy) : t.w ≤ 64 := by cases t <;> decide

/-! ### The range of a field -/

/-- A field of L bits of a signed type, read as two's complement, is a number of the type. -/
theorem inRange_toInt {t : ITy} {L : Nat} (ht : t.signed = true) (hL : L ≤ t.w) (u : BitVec L) : InRange t u.toInt := by
  have hpow : (2 : Int) ^ (L - 1) ≤ 2 ^ (t.w - 1) := pow_le_pow_right₀ (by decide) (by omega)
  have hlo := BitVec.le_toInt u
  have hhi := BitVec.toInt_lt (x := u)
  cases t with
  | i32 | i64 =>
    simp only [ITy.w] at hpow
    constructor <;> simp only [least, greatest] <;> omega
  | n32 | n64 => cases ht
/-- A field of L bits of an unsigned type is a number of the type. -/
theorem inRange_toNat {t : ITy} {L : Nat} (ht : t.signed = false) (hL : L ≤ t.w) (u : BitVec L) : InRange t u.toNat := by
  have hpow : 2 ^ L ≤ 2 ^ t.w := Nat.pow_le_pow_right (by decide) hL
  have hu := u.isLt
  cases t with
  | i32 | i64 => cases ht
  | n32 | n64 =>
    simp only [ITy.w] at hpow
    constructor <;> simp only [least, greatest] <;> omega

/-! ### BFX -/

/-- The field that BFX reads: L bits of A from pos on, A extended as the type says. -/
def fieldOf (t : ITy) (x : Word) (pos L : Nat) : BitVec L :=
  BitVec.ofNat L (natOfBits ((List.range L).map fun k => bitExt t x (pos + k)))

theorem getLsbD_fieldOf (t : ITy) (x : Word) (pos L j : Nat) :
    (fieldOf t x pos L).getLsbD j = (decide (j < L) && bitExt t x (pos + j)) := by
  rw [fieldOf, BitVec.getLsbD_ofNat, testBit_natOfBits_map_range]
  simp
theorem msb_fieldOf (t : ITy) (x : Word) (pos L : Nat) :
    (fieldOf t x pos L).msb = (decide (0 < L) && bitExt t x (pos + L - 1)) := by
  rw [BitVec.msb_eq_getLsbD_last, getLsbD_fieldOf]
  cases L <;> simp [← Nat.add_assoc]
theorem toNat_fieldOf (t : ITy) (x : Word) (pos L : Nat) :
    (fieldOf t x pos L).toNat = natOfBits ((List.range L).map fun k => bitExt t x (pos + k)) := by
  rw [fieldOf, BitVec.toNat_ofNat, Nat.mod_eq_of_lt]
  simpa using natOfBits_lt ((List.range L).map fun k => bitExt t x (pos + k))

/-- The w bits of A, extended as the type says. -/
theorem bitExt_eq_testBit_unsOf (t : ITy) (x : Word) (j : Nat) :
    (if j < t.w then (unsOf t.w x).testBit j else t.signed && (unsOf t.w x).testBit (t.w - 1)) = bitExt t x j := by
  have hlast : t.w - 1 < t.w := Nat.sub_lt (ity_width_pos t) Nat.one_pos
  simp only [testBit_unsOf, bitAt, bitExt, hlast]
  by_cases h : j < t.w <;> simp [h]

/-- The result of BFX is its field read as a number of the type. -/
theorem bfxOf_eq (t : ITy) (x : Word) (pos len : Nat) :
    bfxOf t (unsOf t.w x) pos len =
      if t.signed then (fieldOf t x pos (min len t.w)).toInt else (fieldOf t x pos (min len t.w)).toNat := by
  simp only [bfxOf, bitExt_eq_testBit_unsOf, ← toNat_fieldOf]
  obtain h0 | hpos := Nat.eq_zero_or_pos (min len t.w)
  · rw [h0, BitVec.of_length_zero (x := fieldOf t x pos 0)]
    simp
  · rw [if_neg hpos.ne', sgnNat_toNat hpos]

/-- What BFX writes: its field, extended as the type says to the whole word. -/
def bfxWord (t : ITy) (x : Word) (pos len : Nat) : Word :=
  if t.signed then (fieldOf t x pos (min len t.w)).signExtend 64 else (fieldOf t x pos (min len t.w)).setWidth 64

theorem putInt_bfxOf (t : ITy) (x : Word) (pos len : Nat) :
    putInt t (bfxOf t (unsOf t.w x) pos len) = .raw (bfxWord t x pos len) := by
  rw [bfxOf_eq, bfxWord]
  cases ht : t.signed with
  | true =>
    simp only [if_true]
    rw [putInt_of_inRange (inRange_toInt ht (min_le_right _ _) _)]
    rfl
  | false =>
    simp only [Bool.false_eq_true, if_false]
    rw [putInt_of_inRange (inRange_toNat ht (min_le_right _ _) _), BitVec.ofInt_natCast, BitVec.ofNat_toNat]

theorem getLsbD_bfxWord (t : ITy) (x : Word) (pos len : Nat) {j : Nat} (hj : j < 64) :
    (bfxWord t x pos len).getLsbD j =
      if j < min len t.w then bitExt t x (pos + j)
      else t.signed && decide (0 < min len t.w) && bitExt t x (pos + min len t.w - 1) := by
  rw [bfxWord]
  generalize min len t.w = L
  cases t.signed with
  | true =>
    rw [if_pos rfl, BitVec.getLsbD_signExtend, getLsbD_fieldOf, msb_fieldOf]
    by_cases hL : j < L <;> simp only [hj, hL, decide_true, Bool.true_and, if_true, if_false]
  | false =>
    rw [if_neg Bool.false_ne_true, BitVec.getLsbD_setWidth, getLsbD_fieldOf]
    by_cases hL : j < L <;> simp [hj, hL]

/-! ### BFI -/

/-- What BFI writes, bit by bit: the low bits of C in the place that B names, within the w bits of A. -/
theorem getLsbD_bfiOf {w : Nat} (hw : w ≤ 64) (x y : Word) (pos len j : Nat) :
    (BitVec.ofNat 64 (bfiOf w (unsOf w x) (unsOf w y) pos len)).getLsbD j =
      if pos ≤ j ∧ j < pos + len then bitAt w y (j - pos) && decide (j < w) else bitAt w x j := by
  rw [BitVec.getLsbD_ofNat, bfiOf, testBit_natOfBits_map_range]
  simp only [testBit_unsOf, Bool.and_eq_true, decide_eq_true_eq]
  by_cases hj : j < w
  · have : j < 64 := by omega
    simp [hj, this]
  · simp [bitAt, hj]
theorem bfiOf_lt (w a c pos len : Nat) : bfiOf w a c pos len < 2 ^ w := by
  rw [bfiOf]
  refine (natOfBits_lt _).trans_eq ?_
  rw [List.length_map, List.length_range]

/-! ### The place that B names -/

theorem fld_pos (y : Word) : fld y 0 8 = y.toNat % 256 := by simp [fld]
theorem fld_len (y : Word) : fld y 8 8 = y.toNat / 256 % 256 := by simp [fld]

/-- Settles O5: BFX writes its field extended to the whole word, and BFI a number made bit by bit. -/
theorem bitFields : Obligations.BitFields := by
  unfold Obligations.BitFields
  intro c ty tb d a b k s z p
  refine ⟨fun h => ?_, fun h => ?_⟩
  · have hx := typedV_gives rfl h
    simp only [putInt_bfxOf, fld_pos, fld_len] at hx
    exact ⟨_, hx, fun t l j hj => getLsbD_bfxWord ty _ _ _ hj⟩
  · have hx := typedV_gives rfl h
    simp only [putBits_of_lt (bfiOf_lt ..), fld_pos, fld_len] at hx
    exact ⟨_, hx, fun t l j hj => getLsbD_bfiOf (by cases tb <;> decide) _ _ _ _ _⟩

end Sys2Proof.Machine.Claim
end

section
/-! Predicate logic (spec 13_typed R162, R163). -/
namespace Sys2Proof.Machine.Claim

/-- The bit of a table that three predicates number. -/
theorem lutBit_eq_getLsbD (lut : BitVec 8) (a b c : Bool) :
    lutBit lut a b c = lut.getLsbD (4 * a.toNat + 2 * b.toNat + c.toNat) := by
  cases a <;> cases b <;> cases c <;> rfl

/-- Settles O7: PLOP is a typed instruction with a predicate result and PBOOL one with a value result, which write for the
Active lanes only. -/
theorem predicateLogic : Obligations.PredicateLogic := by
  unfold Obligations.PredicateLogic
  intro c lut d a b k r s z p
  refine ⟨fun h => ?_, fun h => (typedV_gives rfl h :)⟩
  have hp := typedP_gives rfl h
  simpa only [lutBit_eq_getLsbD, rdPred] using hp

end Sys2Proof.Machine.Claim
end


section
/-! The fields of a word and of its MOD: what was put together is read back, and the fields read put the word together
(spec 07_encoding R71, R89 to R95). -/
namespace Sys2Proof

theorem Fields.toWord_ofWord (w : BitVec 128) : (Fields.ofWord w).toWord = w := by
  apply BitVec.eq_of_getLsbD_eq
  intro i hi
  simp only [ofWord, toWord, BitVec.getLsbD_append, BitVec.getLsbD_extractLsb']
  grind (splits := 20)
theorem Fields.ofWord_toWord (f : Fields) : Fields.ofWord f.toWord = f := by
  cases f
  simp only [ofWord, toWord, Fields.mk.injEq]
  refine ⟨?_, ?_, ?_, ?_, ?_, ?_, ?_, ?_, ?_, ?_, ?_⟩ <;>
  · apply BitVec.eq_of_getLsbD_eq
    intro i hi
    simp only [BitVec.getLsbD_append, BitVec.getLsbD_extractLsb']
    grind (splits := 20)

@[simp] theorem ModR.of_bits (m : ModR) : ModR.of m.bits = m := by
  cases m
  simp only [of, bits, ModR.mk.injEq]
  refine ⟨?_, ?_, ?_, ?_, ?_, ?_⟩ <;>
  · apply BitVec.eq_of_getLsbD_eq
    intro i hi
    simp only [BitVec.getLsbD_append, BitVec.getLsbD_extractLsb']
    grind
@[simp] theorem ModR.bits_of (m : BitVec 48) : (ModR.of m).bits = m := by
  apply BitVec.eq_of_getLsbD_eq
  intro i hi
  simp only [of, bits, BitVec.getLsbD_append, BitVec.getLsbD_extractLsb']
  grind
@[simp] theorem ModM.of_bits (m : ModM) : ModM.of m.bits = m := by
  cases m
  simp only [of, bits, ModM.mk.injEq]
  refine ⟨?_, ?_, ?_, ?_, ?_, ?_, ?_⟩ <;>
  · apply BitVec.eq_of_getLsbD_eq
    intro i hi
    simp only [BitVec.getLsbD_append, BitVec.getLsbD_extractLsb']
    grind
@[simp] theorem ModM.bits_of (m : BitVec 48) : (ModM.of m).bits = m := by
  apply BitVec.eq_of_getLsbD_eq
  intro i hi
  simp only [of, bits, BitVec.getLsbD_append, BitVec.getLsbD_extractLsb']
  grind
@[simp] theorem ModW.of_bits (m : ModW) : ModW.of m.bits = m := by
  cases m
  simp only [of, bits, ModW.mk.injEq]
  refine ⟨?_, ?_, ?_, ?_, ?_⟩ <;>
  · apply BitVec.eq_of_getLsbD_eq
    intro i hi
    simp only [BitVec.getLsbD_append, BitVec.getLsbD_extractLsb']
    grind
@[simp] theorem ModW.bits_of (m : BitVec 48) : (ModW.of m).bits = m := by
  apply BitVec.eq_of_getLsbD_eq
  intro i hi
  simp only [of, bits, BitVec.getLsbD_append, BitVec.getLsbD_extractLsb']
  grind
@[simp] theorem ModS.of_bits (m : ModS) : ModS.of m.bits = m := by
  cases m
  simp only [of, bits, ModS.mk.injEq]
  refine ⟨?_, ?_, ?_, ?_⟩ <;>
  · apply BitVec.eq_of_getLsbD_eq
    intro i hi
    simp only [BitVec.getLsbD_append, BitVec.getLsbD_extractLsb']
    grind
@[simp] theorem ModS.bits_of (m : BitVec 48) : (ModS.of m).bits = m := by
  apply BitVec.eq_of_getLsbD_eq
  intro i hi
  simp only [of, bits, BitVec.getLsbD_append, BitVec.getLsbD_extractLsb']
  grind
@[simp] theorem ModE.of_bits (m : ModE) : ModE.of m.bits = m := by
  cases m
  simp only [of, bits, ModE.mk.injEq]
  refine ⟨?_, ?_, ?_, ?_, ?_, ?_, ?_, ?_⟩ <;>
  · apply BitVec.eq_of_getLsbD_eq
    intro i hi
    simp only [BitVec.getLsbD_append, BitVec.getLsbD_extractLsb']
    grind
@[simp] theorem ModE.bits_of (m : BitVec 48) : (ModE.of m).bits = m := by
  apply BitVec.eq_of_getLsbD_eq
  intro i hi
  simp only [of, bits, BitVec.getLsbD_append, BitVec.getLsbD_extractLsb']
  grind

theorem ModR.of_eq_iff {m : BitVec 48} {x : ModR} : ModR.of m = x ↔ m = x.bits :=
  ⟨fun h => by rw [← h, bits_of], fun h => by rw [h, of_bits]⟩
theorem ModM.of_eq_iff {m : BitVec 48} {x : ModM} : ModM.of m = x ↔ m = x.bits :=
  ⟨fun h => by rw [← h, bits_of], fun h => by rw [h, of_bits]⟩
theorem ModW.of_eq_iff {m : BitVec 48} {x : ModW} : ModW.of m = x ↔ m = x.bits :=
  ⟨fun h => by rw [← h, bits_of], fun h => by rw [h, of_bits]⟩
theorem ModS.of_eq_iff {m : BitVec 48} {x : ModS} : ModS.of m = x ↔ m = x.bits :=
  ⟨fun h => by rw [← h, bits_of], fun h => by rw [h, of_bits]⟩
theorem ModE.of_eq_iff {m : BitVec 48} {x : ModE} : ModE.of m = x ↔ m = x.bits :=
  ⟨fun h => by rw [← h, bits_of], fun h => by rw [h, of_bits]⟩

end Sys2Proof
end


section
/-! What a field may hold and what it stands for: a code and its name, a register number and its operand (spec 07_encoding R74
to R95). Each decoder of a part accepts exactly what the encoder gives. -/
namespace Sys2Proof

/-! ### Codes -/

theorem Ty.ofCode_eq_some {c : BitVec 5} {t : Ty} : Ty.ofCode c = some t ↔ c = t.code := by
  cases t <;> revert c <;> decide
theorem ICond.ofCode_eq_some {c : BitVec 8} {t : ICond} : ICond.ofCode c = some t ↔ c = t.code := by
  cases t <;> revert c <;> decide
theorem FCond.ofCode_eq_some {c : BitVec 8} {t : FCond} : FCond.ofCode c = some t ↔ c = t.code := by
  cases t <;> revert c <;> decide
theorem Space.ofCode_eq_some {c : BitVec 3} {t : Space} : Space.ofCode c = some t ↔ c = t.code := by
  cases t <;> revert c <;> decide
theorem Ord.ofCode_eq_some {c : BitVec 3} {t : Ord} : Ord.ofCode c = some t ↔ c = t.code := by
  cases t <;> revert c <;> decide
theorem AtomOp.ofCode_eq_some {c : BitVec 5} {t : AtomOp} : AtomOp.ofCode c = some t ↔ c = t.code := by
  cases t <;> revert c <;> decide
theorem RedOp.ofCode_eq_some {c : BitVec 3} {t : RedOp} : RedOp.ofCode c = some t ↔ c = t.code := by
  cases t <;> revert c <;> decide
theorem HField.ofCode_eq_some {c : BitVec 8} {t : HField} : HField.ofCode c = some t ↔ c = t.code := by
  cases t <;> revert c <;> decide
theorem ISpace.ofCode_eq_some {c : BitVec 2} {t : ISpace} : ISpace.ofCode c = some t ↔ c = t.code := by
  cases t <;> revert c <;> decide
theorem Rnd.ofCode_eq {c : BitVec 2} {t : Rnd} : Rnd.ofCode c = t ↔ c = t.code := by
  cases t <;> revert c <;> decide
theorem ShflMode.ofCode_eq {c : BitVec 2} {t : ShflMode} : ShflMode.ofCode c = t ↔ c = t.code := by
  cases t <;> revert c <;> decide
theorem cntOf_eq_ok {c : BitVec 3} {k : Option Ctr} :
    cntOf c = .ok k ↔ c = match k with | some k => k.code | none => 0#3 := by
  rcases k with - | k
  · revert c; decide
  · cases k <;> revert c <;> decide

theorem SysReg.ofCode_code (r : SysReg) : SysReg.ofCode r.code = some r := by
  cases r with
  | x n => revert n; decide
  | _ => rfl
theorem SysReg.ofCode_eq_some {c : BitVec 16} {r : SysReg} : SysReg.ofCode c = some r ↔ c = r.code := by
  refine ⟨fun h => ?_, fun h => h ▸ SysReg.ofCode_code r⟩
  unfold SysReg.ofCode at h
  split at h <;> cases h <;> exact BitVec.eq_of_toNat_eq ‹_›
theorem Special.ofCode_eq_some {n : Nat} {k : Special} : Special.ofCode n = some k ↔ n = k.code := by
  refine ⟨fun h => ?_, fun h => by rw [h]; cases k <;> rfl⟩
  unfold Special.ofCode at h
  split at h <;> cases h <;> rfl
theorem Special.code_range (k : Special) : 384 ≤ k.code ∧ k.code < 404 := by cases k <;> decide

/-! ### The family of a type -/

theorem ITy.of_eq_some {t : Ty} {x : ITy} : ITy.of t = some x ↔ t = x.ty := by cases x <;> cases t <;> decide
theorem STy.of_eq_some {t : Ty} {x : STy} : STy.of t = some x ↔ t = x.ty := by cases x <;> cases t <;> decide
theorem BTy.of_eq_some {t : Ty} {x : BTy} : BTy.of t = some x ↔ t = x.ty := by cases x <;> cases t <;> decide
theorem FTy.of_eq_some {t : Ty} {x : FTy} : FTy.of t = some x ↔ t = x.ty := by cases x <;> cases t <;> decide
theorem TTy.of_eq_some {t : Ty} {x : TTy} : TTy.of t = some x ↔ t = x.ty := by cases x <;> cases t <;> decide
theorem QTy.of_eq_some {t : Ty} {x : QTy} : QTy.of t = some x ↔ t = x.ty := by cases x <;> cases t <;> decide
theorem PTy.of_eq_some {t : Ty} {x : PTy} : PTy.of t = some x ↔ t = x.ty := by
  cases x with
  | one f => cases f <;> cases t <;> decide
  | f16x4 | bf16x4 => cases t <;> decide

/-! ### Register fields (R84, R87) -/

theorem base_lt (f : BitVec 10) : base f < 512 := Nat.mod_lt _ (by decide)
@[simp] theorem base_field {ix : Bool} {n : Nat} (h : n < 512) : base (field ix n) = n := by
  cases ix <;> simp only [base, field, BitVec.toNat_ofNat, Bool.false_eq_true, if_true, if_false] <;> omega
@[simp] theorem ixBit_field {ix : Bool} {n : Nat} (h : n < 512) : ixBit (field ix n) = ix := by
  have h9 : n.testBit 9 = false := Nat.testBit_lt_two_pow (show n < 2 ^ 9 from h)
  have h9' : (512 + n).testBit 9 = true := by rw [Nat.testBit_two_pow_add_eq n 9, h9]; rfl
  cases ix <;> simp only [ixBit, field, BitVec.getLsbD_ofNat, h9, h9', Bool.false_eq_true, if_true, if_false] <;> rfl
theorem eq_field_iff {f : BitVec 10} {ix : Bool} {n : Nat} (h : n < 512) :
    f = field ix n ↔ ixBit f = ix ∧ base f = n := by
  refine ⟨fun e => by rw [e]; exact ⟨ixBit_field h, base_field h⟩, ?_⟩
  rintro ⟨rfl, rfl⟩
  clear h
  revert f
  decide

/-- A vector register's number is below 320. -/
theorem Vec.dec_eq_ok {f : BitVec 10} {r : Vec} : Vec.dec f = .ok r ↔ f = r.enc := by
  have hlt (n : Fin 320) : n.val < 512 := by omega
  unfold Vec.dec
  cases r with
  | v n | ix n =>
    simp only [Vec.enc, eq_field_iff (hlt n)]
    split
    · cases h : ixBit f <;> simp [Fin.ext_iff]
    · simp; omega
theorem Reg.dec_eq_ok {f : BitVec 10} {r : Reg} : Reg.dec f = .ok r ↔ f = r.enc := by
  unfold Reg.dec
  cases r with
  | v n | ix n =>
    simp only [Reg.enc, eq_field_iff (show n.val < 512 by omega)]
    split
    · cases h : ixBit f <;> simp [Fin.ext_iff]
    · split
      · have hne : base f ≠ n.val := by omega
        cases ixBit f <;> simp [hne]
      · simp; omega
  | g n =>
    simp only [Reg.enc, eq_field_iff (show 320 + n.val < 512 by omega)]
    split
    · have hne : base f ≠ 320 + n.val := by omega
      cases ixBit f <;> simp [hne]
    · split
      · cases h : ixBit f <;> simp [Fin.ext_iff]; omega
      · simp; omega
/-- A source is told apart by its number: below 320 a vector register, then a g register, then a special operand. -/
theorem Src.dec_eq_ok {f : BitVec 10} {r : Src} : Src.dec f = .ok r ↔ f = r.enc := by
  unfold Src.dec
  cases r with
  | v n | ix n =>
    simp only [Src.enc, eq_field_iff (show n.val < 512 by omega)]
    split
    · cases h : ixBit f <;> simp [Fin.ext_iff]
    · have hne : base f ≠ n.val := by omega
      simp only [hne, and_false, iff_false]
      split_ifs
      · nofun
      · nofun
      · split <;> nofun
  | g n =>
    simp only [Src.enc, eq_field_iff (show 320 + n.val < 512 by omega)]
    split_ifs with h1 h2 h3 h4
    · simp; omega
    · simp; omega
    · simp [h3]
    · simp [h3, Fin.ext_iff]; omega
    · have hne : base f ≠ 320 + n.val := by omega
      simp only [hne, and_false, iff_false]
      split <;> nofun
  | sp k =>
    have := k.code_range
    simp only [Src.enc, eq_field_iff (show k.code < 512 by omega), ← Special.ofCode_eq_some]
    split_ifs with h1 h2 h3 h4
    · simp [Special.ofCode_eq_some]; omega
    · simp [Special.ofCode_eq_some]; omega
    · simp [h3]
    · simp [Special.ofCode_eq_some]; omega
    · split <;> simp_all
theorem Pred.dec_eq_ok {f : BitVec 10} {p : Pred} : Pred.dec f = .ok p ↔ base f = p.val := by
  unfold Pred.dec
  split
  · simp [Fin.ext_iff]
  · simp; omega
theorem Pred.eq_enc_iff {f : BitVec 10} {p : Pred} : f = Pred.enc p ↔ Pred.dec f = .ok p ∧ ixBit f = false := by
  rw [Pred.dec_eq_ok, Pred.enc, eq_field_iff (by omega), and_comm]

end Sys2Proof
end


section
/-! The control part of a word: scheduling, guard and the kinds of its fields (spec 07_encoding R74, R75, R83, R84, R88). -/
namespace Sys2Proof

theorem bind_eq_ok {α β : Type} {x : Except Reject α} {f : α → Except Reject β} {b : β} :
    (x >>= f) = .ok b ↔ ∃ a, x = .ok a ∧ f a = .ok b := by
  cases x <;> simp [bind, Except.bind]
theorem must_eq_ok {c : Bool} {u : Unit} : must c = .ok u ↔ c = true := by
  cases c <;> simp [must]
theorem known_eq_ok {α : Type} {o : Option α} {a : α} : known o = .ok a ↔ o = some a := by
  cases o <;> simp [known]

/-! ### Scheduling -/

/-- The parts of a scheduling field (Table 7.2). -/
theorem sched_parts (s : BitVec 16) :
    s.extractLsb' 14 2 ++ s.extractLsb' 10 4 ++ BitVec.ofBool (s.getLsbD 9) ++ s.extractLsb' 6 3 ++ BitVec.ofBool (s.getLsbD 5) ++
      BitVec.ofBool (s.getLsbD 4) ++ BitVec.ofBool (s.getLsbD 3) ++ s.extractLsb' 0 3 = s := by
  apply BitVec.eq_of_getLsbD_eq
  intro i hi
  simp only [BitVec.getLsbD_append, BitVec.getLsbD_extractLsb', BitVec.getLsbD_ofBool]
  grind (splits := 20)
theorem sched_parts_interlocked (s : BitVec 16) :
    s.extractLsb' 14 2 ++ s.extractLsb' 10 4 ++ BitVec.ofBool (s.getLsbD 9) ++ s.extractLsb' 0 9 = s := by
  apply BitVec.eq_of_getLsbD_eq
  intro i hi
  simp only [BitVec.getLsbD_append, BitVec.getLsbD_extractLsb', BitVec.getLsbD_ofBool]
  grind

theorem parts_sched (v : BitVec 2) (p : BitVec 4) (y : Bool) (k : BitVec 3) (a b c : Bool) (z : BitVec 3) :
    let s : BitVec 16 := v ++ p ++ BitVec.ofBool y ++ k ++ BitVec.ofBool a ++ BitVec.ofBool b ++ BitVec.ofBool c ++ z
    s.extractLsb' 14 2 = v ∧ s.extractLsb' 10 4 = p ∧ s.getLsbD 9 = y ∧ s.extractLsb' 6 3 = k ∧ s.getLsbD 5 = a ∧
      s.getLsbD 4 = b ∧ s.getLsbD 3 = c ∧ s.extractLsb' 0 3 = z := by
  refine ⟨BitVec.eq_of_getLsbD_eq ?_, BitVec.eq_of_getLsbD_eq ?_, ?_, BitVec.eq_of_getLsbD_eq ?_, ?_, ?_, ?_,
    BitVec.eq_of_getLsbD_eq ?_⟩ <;> intros <;>
    simp only [BitVec.getLsbD_append, BitVec.getLsbD_extractLsb', BitVec.getLsbD_ofBool] <;> grind (splits := 20)

theorem Sched.dec_enc (x : Sched) : Sched.dec x.enc = .ok x := by
  cases x with
  | counted p y k a b c =>
    obtain ⟨n, hn, hk⟩ : ∃ n, (Sched.counted p y k a b c).enc =
        1#2 ++ p ++ BitVec.ofBool y ++ n ++ BitVec.ofBool a ++ BitVec.ofBool b ++ BitVec.ofBool c ++ 0#3 ∧
          cntOf n = .ok k := ⟨_, rfl, cntOf_eq_ok.2 rfl⟩
    obtain ⟨h1, h2, h3, h4, h5, h6, h7, h8⟩ := parts_sched 1#2 p y n a b c 0#3
    rw [hn]
    unfold Sched.dec
    rw [h1, h2, h3, h4, h5, h6, h7, h8, hk]
    rfl
  | interlocked y => revert y; decide
theorem Sched.dec_eq_ok {s : BitVec 16} {x : Sched} : Sched.dec s = .ok x ↔ s = x.enc := by
  refine ⟨fun h => ?_, fun h => h ▸ Sched.dec_enc x⟩
  unfold Sched.dec at h
  split at h
  next h2 =>
    have h2 : s.extractLsb' 14 2 = 1 := BitVec.eq_of_toNat_eq h2
    split at h
    next h0 =>
      split at h
      next k hk =>
        cases h
        conv_lhs => rw [← sched_parts s, h0, h2, cntOf_eq_ok.1 hk]
        rfl
      next => cases h
    next => cases h
  next h2 =>
    have h2 : s.extractLsb' 14 2 = 2 := BitVec.eq_of_toNat_eq h2
    split at h
    next h0 =>
      cases h
      conv_lhs => rw [← sched_parts_interlocked s, h0.1, h0.2, h2]
      rfl
    next => cases h
  next => cases h


/-! ### The guard -/

theorem Guard.dec_eq_ok {n : BitVec 1} {p : BitVec 5} {g : Guard} : Guard.dec n p = .ok g ↔ n = g.neg ∧ p = g.pred := by
  unfold Guard.dec
  cases g with
  | always =>
    have : ¬(31#5).toNat < 24 := by decide
    split
    next h => simp only [reduceCtorEq, Except.ok.injEq, Guard.neg, Guard.pred, false_iff]; rintro ⟨rfl, rfl⟩; exact this h
    next h => simp [Guard.neg, Guard.pred, and_comm]
  | on m q =>
    have hp : p = BitVec.ofNat 5 q.val ↔ p.toNat = q.val := by
      rw [← BitVec.toNat_inj, BitVec.toNat_ofNat, Nat.mod_eq_of_lt (by omega)]
    have hn : n = BitVec.ofBool m ↔ (n == 1) = m := by revert n m; decide
    simp only [Guard.neg, Guard.pred, hp, hn]
    split
    · simp [Fin.ext_iff]
    · split <;> simp <;> omega

/-! ### The kinds of the fields -/

theorem Fields.ctl_eq_ok {f : Fields} {kd ka kb kc : OpK} {c : Ctl} : f.ctl kd ka kb kc = .ok c ↔
    (f.sched = c.sched.enc ∧ f.pneg = c.guard.neg ∧ f.pred = c.guard.pred ∧ f.ix = c.ix) ∧
      (kd.ok f.d = true ∧ ka.ok f.a = true ∧ kb.ok f.b = true ∧ kc.ok f.c = true) ∧
        c.ok (ixBit f.d || ixBit f.a || ixBit f.b || ixBit f.c) = true := by
  cases c
  simp only [Fields.ctl, bind_eq_ok, must_eq_ok, Sched.dec_eq_ok, Guard.dec_eq_ok, Except.ok.injEq, Ctl.mk.injEq, Ctl.ok,
    Bool.and_eq_true, Bool.or_assoc]
  grind

end Sys2Proof
end


section
/-! What the shapes of group-code words accept (spec 07_encoding Tables 7.5 to 7.10): each shape's decoder answers a control part
exactly for the words that the encoder puts together with it. -/
namespace Sys2Proof

@[simp] theorem OpK.ok_none {f : BitVec 10} : OpK.none.ok f = true ↔ f = 0 := by simp [OpK.ok]
@[simp] theorem OpK.ok_val {f : BitVec 10} : OpK.val.ok f = true := rfl
@[simp] theorem OpK.ok_pred {f : BitVec 10} : OpK.pred.ok f = true ↔ ixBit f = false := by simp [OpK.ok]

@[simp] theorem ixBit_zero : ixBit 0#10 = false := rfl
@[simp] theorem ixBit_vec (r : Vec) : ixBit r.enc = r.indexed := by
  cases r <;> exact ixBit_field (by omega)
@[simp] theorem ixBit_reg (r : Reg) : ixBit r.enc = r.indexed := by
  cases r <;> exact ixBit_field (by omega)
@[simp] theorem ixBit_src (r : Src) : ixBit r.enc = r.indexed := by
  cases r with
  | sp k => exact ixBit_field (by have := k.code_range; omega)
  | _ => exact ixBit_field (by omega)
@[simp] theorem ixBit_pred (p : Pred) : ixBit (Pred.enc p) = false := ixBit_field (by omega)
@[simp] theorem ixBit_gsrc (b : GSrc) : ixBit b.enc = b.indexed := by
  cases b with
  | reg s => exact ixBit_src s
  | imm i => exact ixBit_zero
@[simp] theorem ixBit_tsrc (b : TSrc) : ixBit b.enc = b.indexed := by
  cases b with
  | reg s => exact ixBit_src s
  | imm i => exact ixBit_zero

@[simp] theorem Vec.dec_enc (r : Vec) : Vec.dec r.enc = .ok r := Vec.dec_eq_ok.2 rfl
@[simp] theorem Reg.dec_enc (r : Reg) : Reg.dec r.enc = .ok r := Reg.dec_eq_ok.2 rfl
@[simp] theorem Src.dec_enc (r : Src) : Src.dec r.enc = .ok r := Src.dec_eq_ok.2 rfl
@[simp] theorem Pred.dec_enc (p : Pred) : Pred.dec (Pred.enc p) = .ok p := (Pred.eq_enc_iff.1 rfl).1

/-- A word's control part, where its fields are known. -/
theorem cw_ctl {c : Ctl} {opc d a b k : BitVec 10} {ty : BitVec 5} {m : BitVec 48} {kd ka kb kc : OpK}
    (hd : kd.ok d = true) (ha : ka.ok a = true) (hb : kb.ok b = true) (hk : kc.ok k = true)
    (hc : c.ok (ixBit d || ixBit a || ixBit b || ixBit k) = true) : (cw c opc d a b k ty m).ctl kd ka kb kc = .ok c :=
  Fields.ctl_eq_ok.2 ⟨⟨rfl, rfl, rfl, rfl⟩, ⟨hd, ha, hb, hk⟩, hc⟩


theorem type_eq_ok {α : Type} {f : Fields} {of : Ty → Option α} {x : α} :
    f.type of = .ok x ↔ ∃ t, f.ty = t.code ∧ of t = some x := by
  unfold Fields.type
  cases h : Ty.ofCode f.ty with
  | none =>
    simp only [reduceCtorEq, false_iff, not_exists, not_and]
    intro t ht
    rw [← Ty.ofCode_eq_some, h] at ht
    cases ht
  | some t =>
    rw [Ty.ofCode_eq_some] at h
    simp only [known_eq_ok, h]
    constructor
    · exact fun hx => ⟨t, rfl, hx⟩
    · rintro ⟨u, hu, hx⟩
      rw [← Ty.ofCode_eq_some, Ty.ofCode_eq_some.2 rfl] at hu
      cases hu
      exact hx
/-- What the control part of a format M word accepts. -/
theorem mem_eq_ok {f : Fields} {kd ka kb kc : OpK} {c : Ctl} {sp : Space} {o : Ord} :
    f.mem kd ka kb kc = .ok (c, sp, o) ↔
      f.ctl kd ka kb kc = .ok c ∧ (ModM.of f.mod).z = 0 ∧ (ModM.of f.mod).space = sp.code ∧ (ModM.of f.mod).ord = o.code := by
  simp only [Fields.mem, bind_eq_ok, must_eq_ok, known_eq_ok, Space.ofCode_eq_some, Ord.ofCode_eq_some, beq_iff_eq, Except.ok.injEq, Prod.mk.injEq]
  grind


/-! ### Formats R and I -/

@[simp] theorem ModR.of_mr (r : BitVec 2) (s : BitVec 8) : ModR.of (mr r s) = ⟨0, 0, r, 0, s, 0⟩ := ModR.of_bits _
@[simp] theorem ModR.of_mi (r : BitVec 2) (t : BitVec 4) (s : BitVec 8) (i : BitVec 32) :
    ModR.of (mi r t s i) = ⟨1, 0, r, t, s, i⟩ := ModR.of_bits _

/-- Operand kinds with an immediate in the place of B: field B is zero. -/
theorem ctl_none_iff {f : Fields} {kd ka kc : OpK} {c : Ctl} :
    f.ctl kd ka .none kc = .ok c ↔ f.ctl kd ka .val kc = .ok c ∧ f.b = 0 := by
  simp only [Fields.ctl_eq_ok, OpK.ok_none, OpK.ok_val]
  grind

theorem bit_eq (x : BitVec 1) : x = 0 ∨ x = 1 := by revert x; decide
/-- MOD of a word of format R or I is one of the two forms, with its rounding mode where the opcode rounds. -/
theorem ri_eq_ok {f : Fields} {form : RForm} {kd ka kb kc : OpK} {rnd : Bool} {immOk : BitVec 4 → BitVec 32 → Bool} {c : Ctl} :
    f.ri form kd ka kb kc rnd immOk = .ok c ↔ ∃ r : Rnd, (rnd = true ∨ r = .rne) ∧
      ((form ≠ .i ∧ (∃ s, f.mod = mr r.code s) ∧ f.ctl kd ka kb kc = .ok c) ∨
        (form ≠ .r ∧ (∃ t s i, f.mod = mi r.code t s i ∧ immOk t i = true) ∧ f.ctl kd ka .none kc = .ok c)) := by
  obtain ⟨m, hm⟩ : ∃ m, ModR.of f.mod = m := ⟨_, rfl⟩
  obtain ⟨imm, z, r, t, s, i⟩ := m
  have hr : ∃ q : Rnd, r = q.code := ⟨.ofCode r, Rnd.ofCode_eq.1 rfl⟩
  obtain ⟨r, rfl⟩ := hr
  have h0 : (r.code == 0) = true ↔ r = .rne := by cases r <;> decide
  have hi : imm = 0 ∨ imm = 1 := bit_eq imm
  have inj {q : Rnd} : r.code = q.code ↔ r = q := by cases r <;> cases q <;> decide
  simp only [Fields.ri, hm, bind_eq_ok, must_eq_ok, Bool.and_eq_true, beq_iff_eq, Bool.or_eq_true, h0]
  have e1 {q : Rnd} {s' : BitVec 8} : f.mod = mr q.code s' ↔ ModR.of f.mod = ⟨0, 0, q.code, 0, s', 0⟩ := (ModR.of_eq_iff (x := ⟨0, 0, q.code, 0, s', 0⟩)).symm
  have e2 {q : Rnd} {t' : BitVec 4} {s' : BitVec 8} {i' : BitVec 32} : f.mod = mi q.code t' s' i' ↔ ModR.of f.mod = ⟨1, 0, q.code, t', s', i'⟩ :=
    (ModR.of_eq_iff (x := ⟨1, 0, q.code, t', s', i'⟩)).symm
  simp only [e1, e2, hm, ModR.mk.injEq]
  rcases hi with rfl | rfl
  · have h01 : ¬(0 : BitVec 1) = 1 := by decide
    simp only [h01, if_false, bind_eq_ok, must_eq_ok, Bool.and_eq_true, beq_iff_eq, inj]
    cases form <;> simp [RForm.ok] <;> grind
  · have h01 : ¬(1 : BitVec 1) = 0 := by decide
    simp only [h01, if_true, bind_eq_ok, must_eq_ok, inj]
    cases form <;> simp [RForm.ok] <;> grind

/-- The same of format R alone. -/
theorem ri_r_eq_ok {f : Fields} {kd ka kb kc : OpK} {rnd : Bool} {immOk : BitVec 4 → BitVec 32 → Bool} {c : Ctl} :
    f.ri .r kd ka kb kc rnd immOk = .ok c ↔
      ∃ r : Rnd, (rnd = true ∨ r = .rne) ∧ (∃ s, f.mod = mr r.code s) ∧ f.ctl kd ka kb kc = .ok c := by
  simp [ri_eq_ok]
/-- The same of format I alone. -/
theorem ri_i_eq_ok {f : Fields} {kd ka kb kc : OpK} {rnd : Bool} {immOk : BitVec 4 → BitVec 32 → Bool} {c : Ctl} :
    f.ri .i kd ka kb kc rnd immOk = .ok c ↔ ∃ r : Rnd, (rnd = true ∨ r = .rne) ∧
      (∃ t s i, f.mod = mi r.code t s i ∧ immOk t i = true) ∧ f.ctl kd ka .none kc = .ok c := by
  simp [ri_eq_ok]
theorem plainR_eq_ok {f : Fields} {kd ka kb kc : OpK} {c : Ctl} :
    f.plainR kd ka kb kc = .ok c ↔ f.ty = 0 ∧ f.mod = mr 0 0 ∧ f.ctl kd ka kb kc = .ok c := by
  simp only [Fields.plainR, bind_eq_ok, must_eq_ok, ri_r_eq_ok, Bool.and_eq_true, beq_iff_eq, exists_const]
  constructor
  · rintro ⟨⟨ht, hs⟩, r, hr, ⟨s, hm⟩, hc⟩
    obtain rfl : r = .rne := by simpa using hr
    rw [hm, ModR.of_mr] at hs
    dsimp only at hs
    rw [hs] at hm
    exact ⟨ht, hm, hc⟩
  · rintro ⟨ht, hm, hc⟩
    exact ⟨⟨ht, by rw [hm, ModR.of_mr]⟩, .rne, .inr rfl, ⟨0, hm⟩, hc⟩

theorem GImm.of_itag_bits (i : GImm) : GImm.of i.itag i.bits = i := by
  cases i with
  | bool b => cases b <;> rfl
  | _ => rfl
theorem genImmOk_itag_bits (i : GImm) : genImmOk i.itag i.bits = true := by
  cases i with
  | bool b => cases b <;> rfl
  | _ => rfl
/-- What ITAG and IMM32 of an immediate of TYPE 0 stand for. -/
theorem itag_bits_of {t : BitVec 4} {i : BitVec 32} (h : genImmOk t i = true) :
    (GImm.of t i).itag = t ∧ (GImm.of t i).bits = i := by
  simp only [genImmOk, Bool.or_eq_true, Bool.and_eq_true, beq_iff_eq] at h
  rcases h with (rfl | rfl) | ⟨rfl, rfl | rfl⟩ <;> exact ⟨rfl, rfl⟩

/-- MOD of a generic word with operand B and SUB. -/
def GSrc.modSub (b : GSrc) (rnd : BitVec 2) (s : BitVec 8) : BitVec 48 :=
  match b with
  | .reg _ => mr rnd s
  | .imm i => mi rnd i.itag s i.bits
theorem GSrc.modSub_zero (b : GSrc) (r : BitVec 2) : b.modSub r 0 = b.mod r := by cases b <;> rfl

@[simp] theorem GSrc.modR_sub (b : GSrc) (r : BitVec 2) (s : BitVec 8) : (ModR.of (b.modSub r s)).sub = s := by
  cases b <;> simp [GSrc.modSub]
@[simp] theorem GSrc.modR_rnd (b : GSrc) (r : BitVec 2) (s : BitVec 8) : (ModR.of (b.modSub r s)).rnd = r := by
  cases b <;> simp [GSrc.modSub]
@[simp] theorem TSrc.modR_sub (b : TSrc) (r : BitVec 2) (s : BitVec 8) : (ModR.of (b.mod r s)).sub = s := by
  cases b <;> simp [TSrc.mod]
@[simp] theorem TSrc.modR_rnd (b : TSrc) (r : BitVec 2) (s : BitVec 8) : (ModR.of (b.mod r s)).rnd = r := by
  cases b <;> simp [TSrc.mod]

/-- Operand B of a word of format R or I of TYPE 0, a register or an immediate. -/
theorem ri_gsrc_eq_ok {f : Fields} {kd ka kc : OpK} {rnd : Bool} {c : Ctl} {b : GSrc} :
    (f.ri .ri kd ka .val kc rnd genImmOk = .ok c ∧ f.gsrc = .ok b) ↔ ∃ r : Rnd, (rnd = true ∨ r = .rne) ∧
      (∃ s, f.mod = b.modSub r.code s) ∧ f.b = b.enc ∧ f.ctl kd ka .val kc = .ok c := by
  simp only [ri_eq_ok, ctl_none_iff, Fields.gsrc]
  constructor
  · rintro ⟨⟨r, hr, ⟨-, ⟨s, hm⟩, hc⟩ | ⟨-, ⟨t, s, i, hm, hi⟩, hc, hb⟩⟩, h⟩
    · have h0 : ¬(0 : BitVec 1) = 1 := by decide
      simp only [hm, ModR.of_mr, h0, if_false] at h
      split at h
      next x hx =>
        cases h
        exact ⟨r, hr, ⟨s, hm⟩, Src.dec_eq_ok.1 hx, hc⟩
      next => cases h
    · simp only [hm, ModR.of_mi, if_true, Except.ok.injEq] at h
      subst h
      obtain ⟨h1, h2⟩ := itag_bits_of hi
      exact ⟨r, hr, ⟨s, by rw [hm, GSrc.modSub, h1, h2]⟩, hb, hc⟩
  · rintro ⟨r, hr, ⟨s, hm⟩, hb, hc⟩
    cases b with
    | reg x =>
      have h0 : ¬(0 : BitVec 1) = 1 := by decide
      refine ⟨⟨r, hr, .inl ⟨by decide, ⟨s, hm⟩, hc⟩⟩, ?_⟩
      simp only [hm, GSrc.modSub, ModR.of_mr, h0, if_false, hb, GSrc.enc, Src.dec_enc]
    | imm i =>
      refine ⟨⟨r, hr, .inr ⟨by decide, ⟨_, s, _, hm, genImmOk_itag_bits i⟩, hc, hb⟩⟩, ?_⟩
      simp only [hm, GSrc.modSub, ModR.of_mi, if_true, GImm.of_itag_bits]

/-- The same of the other types, whose ITAG is zero. -/
theorem ri_tsrc_eq_ok {f : Fields} {kd ka kc : OpK} {rnd : Bool} {immOk : BitVec 4 → BitVec 32 → Bool} {c : Ctl} {b : TSrc}
    (h0 : ∀ t i, immOk t i = true → t = 0) :
    (f.ri .ri kd ka .val kc rnd immOk = .ok c ∧ f.tsrc = .ok b) ↔ ∃ r : Rnd, (rnd = true ∨ r = .rne) ∧
      (∀ i, b = .imm i → immOk 0 i = true) ∧ (∃ s, f.mod = b.mod r.code s) ∧ f.b = b.enc ∧ f.ctl kd ka .val kc = .ok c := by
  simp only [ri_eq_ok, ctl_none_iff, Fields.tsrc]
  constructor
  · rintro ⟨⟨r, hr, ⟨-, ⟨s, hm⟩, hc⟩ | ⟨-, ⟨t, s, i, hm, hi⟩, hc, hb⟩⟩, h⟩
    · have h0 : ¬(0 : BitVec 1) = 1 := by decide
      simp only [hm, ModR.of_mr, h0, if_false] at h
      split at h
      next x hx =>
        cases h
        exact ⟨r, hr, nofun, ⟨s, hm⟩, Src.dec_eq_ok.1 hx, hc⟩
      next => cases h
    · simp only [hm, ModR.of_mi, if_true, Except.ok.injEq] at h
      subst h
      obtain rfl := h0 t i hi
      exact ⟨r, hr, fun _ e => by cases e; exact hi, ⟨s, hm⟩, hb, hc⟩
  · rintro ⟨r, hr, hi, ⟨s, hm⟩, hb, hc⟩
    cases b with
    | reg x =>
      have h0 : ¬(0 : BitVec 1) = 1 := by decide
      refine ⟨⟨r, hr, .inl ⟨by decide, ⟨s, hm⟩, hc⟩⟩, ?_⟩
      simp only [hm, TSrc.mod, ModR.of_mr, h0, if_false, hb, TSrc.enc, Src.dec_enc]
    | imm i =>
      refine ⟨⟨r, hr, .inr ⟨by decide, ⟨_, s, _, hm, hi i rfl⟩, hc, hb⟩⟩, ?_⟩
      simp only [hm, TSrc.mod, ModR.of_mi, if_true]

/-! ### Words put together -/

theorem eq_cw_iff {f : Fields} {c : Ctl} {opc d a b k : BitVec 10} {ty : BitVec 5} {m : BitVec 48} :
    f = cw c opc d a b k ty m ↔ f.opc = opc ∧ f.ty = ty ∧ f.mod = m ∧
      (f.sched = c.sched.enc ∧ f.pneg = c.guard.neg ∧ f.pred = c.guard.pred ∧ f.ix = c.ix) ∧
        f.d = d ∧ f.a = a ∧ f.b = b ∧ f.c = k := by
  cases f
  simp only [cw, Fields.mk.injEq]
  tauto

end Sys2Proof
end


section
/-! The shapes of generic and typed opcodes: the decoder of each accepts exactly the words of its encoder (spec 07_encoding,
11_generic Table 11.1, 13_typed Tables 13.1 and 13.3). -/
namespace Sys2Proof

/-- The checks before the operands of an opcode of TYPE 0 without SUB. -/
theorem type_sub_zero {f : Fields} : (f.ty == 0 && (ModR.of f.mod).sub == 0) = true ↔ f.ty = 0 ∧ (ModR.of f.mod).sub = 0 := by
  simp

theorem ctl_d_a {f : Fields} {kb kc : OpK} {c : Ctl} {d : Reg} {a : Src} (hd : f.d = d.enc) (ha : f.a = a.enc) :
    f.ctl .val .val kb kc = .ok c ↔
      (f.sched = c.sched.enc ∧ f.pneg = c.guard.neg ∧ f.pred = c.guard.pred ∧ f.ix = c.ix) ∧
        (kb.ok f.b = true ∧ kc.ok f.c = true) ∧ c.ok (d.indexed || a.indexed || ixBit f.b || ixBit f.c) = true := by
  simp [Fields.ctl_eq_ok, hd, ha]

theorem decGen2_eq_ok {f : Fields} {rnd : Bool} {mk : Ctl → Rnd → Reg → Src → GSrc → Instr} {i : Instr} :
    decGen2 f rnd mk = .ok i ↔ ∃ c r d a b, (rnd = true ∨ r = .rne) ∧ c.ok (d.indexed || a.indexed || b.indexed) = true ∧
      f = gw2 c f.opc r d.enc a b ∧ mk c r d a b = i := by
  simp only [decGen2, bind_eq_ok, must_eq_ok, type_sub_zero, Reg.dec_eq_ok, Src.dec_eq_ok, Except.ok.injEq, gw2, eq_cw_iff]
  constructor
  · rintro ⟨_, ⟨ht, hs⟩, c, hc, d, hd, a, ha, b, hb, hi⟩
    obtain ⟨r, hr, ⟨s, hm⟩, hb, hc⟩ := ri_gsrc_eq_ok.1 ⟨hc, hb⟩
    obtain ⟨h, ⟨-, h0⟩, hx⟩ := (ctl_d_a hd ha).1 hc
    rw [hm, GSrc.modR_sub] at hs
    rw [hs] at hm
    rw [hm, GSrc.modR_rnd, Rnd.ofCode_eq.2 rfl] at hi
    rw [OpK.ok_none] at h0
    refine ⟨c, r, d, a, b, hr, ?_, ⟨trivial, ht, hm.trans (b.modSub_zero _), h, hd, ha, hb, h0⟩, hi⟩
    simpa [hb, h0] using hx
  · rintro ⟨c, r, d, a, b, hr, hx, ⟨-, ht, hm, h, hd, ha, hb, h0⟩, hi⟩
    rw [← GSrc.modSub_zero] at hm
    have hc : f.ctl .val .val .val .none = .ok c := (ctl_d_a hd ha).2 ⟨h, ⟨rfl, OpK.ok_none.2 h0⟩, by simpa [hb, h0] using hx⟩
    obtain ⟨hc, hb⟩ := ri_gsrc_eq_ok.2 ⟨r, hr, ⟨0, hm⟩, hb, hc⟩
    refine ⟨(), ⟨ht, by rw [hm, GSrc.modR_sub]⟩, c, hc, d, hd, a, ha, b, hb, ?_⟩
    rw [hm, GSrc.modR_rnd, Rnd.ofCode_eq.2 rfl, hi]

theorem decGenP_eq_ok {f : Fields} {mk : Ctl → Pred → Src → GSrc → Instr} {i : Instr} :
    decGenP f mk = .ok i ↔ ∃ c d a b, c.ok (a.indexed || b.indexed) = true ∧
      f = gw2 c f.opc .rne (Pred.enc d) a b ∧ mk c d a b = i := by
  simp only [decGenP, bind_eq_ok, must_eq_ok, type_sub_zero, Src.dec_eq_ok, Except.ok.injEq, gw2, eq_cw_iff]
  constructor
  · rintro ⟨_, ⟨ht, hs⟩, c, hc, d, hd, a, ha, b, hb, hi⟩
    obtain ⟨r, hr, ⟨s, hm⟩, hb, hc⟩ := ri_gsrc_eq_ok.1 ⟨hc, hb⟩
    obtain ⟨h, ⟨hp, -, -, h0⟩, hx⟩ := Fields.ctl_eq_ok.1 hc
    obtain rfl : r = .rne := by simpa using hr
    rw [hm, GSrc.modR_sub] at hs
    rw [hs] at hm
    rw [OpK.ok_pred] at hp
    rw [OpK.ok_none] at h0
    refine ⟨c, d, a, b, ?_, ⟨trivial, ht, hm.trans (b.modSub_zero _), h, Pred.eq_enc_iff.2 ⟨hd, hp⟩, ha, hb, h0⟩, hi⟩
    simpa [ha, hb, h0, hp] using hx
  · rintro ⟨c, d, a, b, hx, ⟨-, ht, hm, h, hd, ha, hb, h0⟩, hi⟩
    rw [← GSrc.modSub_zero] at hm
    have hc : f.ctl .pred .val .val .none = .ok c :=
      Fields.ctl_eq_ok.2 ⟨h, ⟨by simp [hd], rfl, rfl, OpK.ok_none.2 h0⟩, by simpa [hd, ha, hb, h0] using hx⟩
    obtain ⟨hc, hb⟩ := ri_gsrc_eq_ok.2 ⟨.rne, .inr rfl, ⟨0, hm⟩, hb, hc⟩
    exact ⟨(), ⟨ht, by rw [hm, GSrc.modR_sub]⟩, c, hc, d, (Pred.eq_enc_iff.1 hd).1, a, ha, b, hb, hi⟩

theorem decPlain1_eq_ok {f : Fields} {mk : Ctl → Reg → Src → Instr} {i : Instr} :
    decPlain1 f mk = .ok i ↔ ∃ c d a, c.ok (d.indexed || a.indexed) = true ∧ f = pw c f.opc d.enc a.enc 0 0 ∧ mk c d a = i := by
  simp only [decPlain1, bind_eq_ok, plainR_eq_ok, Reg.dec_eq_ok, Src.dec_eq_ok, Except.ok.injEq, pw, eq_cw_iff]
  constructor
  · rintro ⟨c, ⟨ht, hm, hc⟩, d, hd, a, ha, hi⟩
    obtain ⟨h, ⟨h0, h1⟩, hx⟩ := (ctl_d_a hd ha).1 hc
    rw [OpK.ok_none] at h0 h1
    exact ⟨c, d, a, by simpa [h0, h1] using hx, ⟨trivial, ht, hm, h, hd, ha, h0, h1⟩, hi⟩
  · rintro ⟨c, d, a, hx, ⟨-, ht, hm, h, hd, ha, h0, h1⟩, hi⟩
    exact ⟨c, ⟨ht, hm, (ctl_d_a hd ha).2 ⟨h, ⟨OpK.ok_none.2 h0, OpK.ok_none.2 h1⟩, by simpa [h0, h1] using hx⟩⟩, d, hd, a, ha, hi⟩

theorem plainImmOk_zero (t : BitVec 4) (i : BitVec 32) (h : plainImmOk t i = true) : t = 0 := by simpa [plainImmOk] using h

section
variable {α : Type} {of : Ty → Option α} {sub : BitVec 8 → Bool} {rnd : Bool} {f : Fields} {i : Instr}

theorem decTy2_eq_ok {mk : Ctl → α → BitVec 8 → Rnd → Reg → Src → TSrc → Instr} :
    decTy2 f of sub rnd mk = .ok i ↔ ∃ c t x s r d a b, of t = some x ∧ sub s = true ∧ (rnd = true ∨ r = .rne) ∧
      c.ok (d.indexed || a.indexed || b.indexed) = true ∧ f = tw2 c f.opc t r s d a b ∧ mk c x s r d a b = i := by
  simp only [decTy2, bind_eq_ok, must_eq_ok, type_eq_ok, Reg.dec_eq_ok, Src.dec_eq_ok, Except.ok.injEq, tw2, eq_cw_iff]
  constructor
  · rintro ⟨x, ⟨t, ht, hx⟩, _, hs, c, hc, d, hd, a, ha, b, hb, hi⟩
    obtain ⟨r, hr, -, ⟨s, hm⟩, hb, hc⟩ := (ri_tsrc_eq_ok plainImmOk_zero).1 ⟨hc, hb⟩
    obtain ⟨h, ⟨-, h0⟩, hix⟩ := (ctl_d_a hd ha).1 hc
    rw [hm, TSrc.modR_sub] at hs hi
    rw [TSrc.modR_rnd, Rnd.ofCode_eq.2 rfl] at hi
    rw [OpK.ok_none] at h0
    refine ⟨c, t, x, s, r, d, a, b, hx, hs, hr, ?_, ⟨trivial, ht, hm, h, hd, ha, hb, h0⟩, hi⟩
    simpa [hb, h0] using hix
  · rintro ⟨c, t, x, s, r, d, a, b, hx, hs, hr, hix, ⟨-, ht, hm, h, hd, ha, hb, h0⟩, hi⟩
    have hc : f.ctl .val .val .val .none = .ok c := (ctl_d_a hd ha).2 ⟨h, ⟨rfl, OpK.ok_none.2 h0⟩, by simpa [hb, h0] using hix⟩
    obtain ⟨hc, hb⟩ := (ri_tsrc_eq_ok plainImmOk_zero).2 ⟨r, hr, fun _ _ => rfl, ⟨s, hm⟩, hb, hc⟩
    refine ⟨x, ⟨t, ht, hx⟩, (), by rwa [hm, TSrc.modR_sub], c, hc, d, hd, a, ha, b, hb, ?_⟩
    rw [hm, TSrc.modR_sub, TSrc.modR_rnd, Rnd.ofCode_eq.2 rfl, hi]

theorem decTy3_eq_ok {mk : Ctl → α → BitVec 8 → Rnd → Reg → Src → TSrc → Src → Instr} :
    decTy3 f of sub rnd mk = .ok i ↔ ∃ c t x s r d a b k, of t = some x ∧ sub s = true ∧ (rnd = true ∨ r = .rne) ∧
      c.ok (d.indexed || a.indexed || b.indexed || k.indexed) = true ∧ f = tw3 c f.opc t r s d a b k ∧
        mk c x s r d a b k = i := by
  simp only [decTy3, bind_eq_ok, must_eq_ok, type_eq_ok, Reg.dec_eq_ok, Src.dec_eq_ok, Except.ok.injEq, tw3, eq_cw_iff]
  constructor
  · rintro ⟨x, ⟨t, ht, hx⟩, _, hs, c, hc, d, hd, a, ha, b, hb, k, hk, hi⟩
    obtain ⟨r, hr, -, ⟨s, hm⟩, hb, hc⟩ := (ri_tsrc_eq_ok plainImmOk_zero).1 ⟨hc, hb⟩
    obtain ⟨h, -, hix⟩ := (ctl_d_a hd ha).1 hc
    rw [hm, TSrc.modR_sub] at hs hi
    rw [TSrc.modR_rnd, Rnd.ofCode_eq.2 rfl] at hi
    refine ⟨c, t, x, s, r, d, a, b, k, hx, hs, hr, ?_, ⟨trivial, ht, hm, h, hd, ha, hb, hk⟩, hi⟩
    simpa [hb, hk] using hix
  · rintro ⟨c, t, x, s, r, d, a, b, k, hx, hs, hr, hix, ⟨-, ht, hm, h, hd, ha, hb, hk⟩, hi⟩
    have hc : f.ctl .val .val .val .val = .ok c := (ctl_d_a hd ha).2 ⟨h, ⟨rfl, rfl⟩, by simpa [hb, hk] using hix⟩
    obtain ⟨hc, hb⟩ := (ri_tsrc_eq_ok plainImmOk_zero).2 ⟨r, hr, fun _ _ => rfl, ⟨s, hm⟩, hb, hc⟩
    refine ⟨x, ⟨t, ht, hx⟩, (), by rwa [hm, TSrc.modR_sub], c, hc, d, hd, a, ha, b, hb, k, hk, ?_⟩
    rw [hm, TSrc.modR_sub, TSrc.modR_rnd, Rnd.ofCode_eq.2 rfl, hi]

theorem decTy1_eq_ok {mk : Ctl → α → BitVec 8 → Rnd → Reg → Src → Instr} :
    decTy1 f of sub rnd mk = .ok i ↔ ∃ c t x s r d a, of t = some x ∧ sub s = true ∧ (rnd = true ∨ r = .rne) ∧
      c.ok (d.indexed || a.indexed) = true ∧ f = tw1 c f.opc t r s d a ∧ mk c x s r d a = i := by
  simp only [decTy1, bind_eq_ok, must_eq_ok, type_eq_ok, ri_r_eq_ok, Reg.dec_eq_ok, Src.dec_eq_ok, Except.ok.injEq, tw1, eq_cw_iff]
  constructor
  · rintro ⟨x, ⟨t, ht, hx⟩, _, hs, c, ⟨r, hr, ⟨s, hm⟩, hc⟩, d, hd, a, ha, hi⟩
    obtain ⟨h, ⟨h0, h1⟩, hix⟩ := (ctl_d_a hd ha).1 hc
    rw [hm, ModR.of_mr] at hs hi
    rw [Rnd.ofCode_eq.2 rfl] at hi
    rw [OpK.ok_none] at h0 h1
    exact ⟨c, t, x, s, r, d, a, hx, hs, hr, by simpa [h0, h1] using hix, ⟨trivial, ht, hm, h, hd, ha, h0, h1⟩, hi⟩
  · rintro ⟨c, t, x, s, r, d, a, hx, hs, hr, hix, ⟨-, ht, hm, h, hd, ha, h0, h1⟩, hi⟩
    have hc : f.ctl .val .val .none .none = .ok c :=
      (ctl_d_a hd ha).2 ⟨h, ⟨OpK.ok_none.2 h0, OpK.ok_none.2 h1⟩, by simpa [h0, h1] using hix⟩
    refine ⟨x, ⟨t, ht, hx⟩, (), by rwa [hm, ModR.of_mr], c, ⟨r, hr, ⟨s, hm⟩, hc⟩, d, hd, a, ha, ?_⟩
    rw [hm, ModR.of_mr, Rnd.ofCode_eq.2 rfl, hi]

end
end Sys2Proof
end


section
/-! Generic, typed and float opcodes: what decodes is the word of its instruction (spec 07_encoding R88, R98). -/
namespace Sys2Proof

theorem opc_eq {f : Fields} {n : Nat} (h : f.opc.toNat = n) : f.opc = BitVec.ofNat 10 n := by
  rw [← h, BitVec.ofNat_toNat, BitVec.setWidth_eq]

/-- The instruction that decoded is well formed and its word is the one that was decoded. -/
def WordOf (i : Instr) (f : Fields) : Prop := encodeFields i = some f ∧ i.wf = true

theorem rnd_eq {rnd : Bool} {r : Rnd} (h : rnd = true ∨ r = .rne) : (if rnd = true then r else .rne) = r := by
  rcases h with rfl | rfl
  · rfl
  · split <;> rfl

theorem gen2_wordOf {f : Fields} {n : Nat} {rnd : Bool} {mk : Ctl → Rnd → Reg → Src → GSrc → Instr} {i : Instr}
    (ho : f.opc.toNat = n) (h : decGen2 f rnd mk = .ok i)
    (he : ∀ c r d a b, encodeFields (mk c r d a b) = some (gw2 c (BitVec.ofNat 10 n) (if rnd = true then r else .rne) d.enc a b))
    (hw : ∀ c r d a b, (mk c r d a b).wf = c.ok (d.indexed || a.indexed || b.indexed)) : WordOf i f := by
  obtain ⟨c, r, d, a, b, hr, hc, hf, rfl⟩ := decGen2_eq_ok.1 h
  rw [opc_eq ho] at hf
  refine ⟨?_, (hw ..).trans hc⟩
  rw [he, rnd_eq hr]
  exact congrArg some hf.symm
theorem genP_wordOf {f : Fields} {n : Nat} {mk : Ctl → Pred → Src → GSrc → Instr} {i : Instr}
    (ho : f.opc.toNat = n) (h : decGenP f mk = .ok i)
    (he : ∀ c d a b, encodeFields (mk c d a b) = some (gw2 c (BitVec.ofNat 10 n) .rne (Pred.enc d) a b))
    (hw : ∀ c d a b, (mk c d a b).wf = c.ok (a.indexed || b.indexed)) : WordOf i f := by
  obtain ⟨c, d, a, b, hc, hf, rfl⟩ := decGenP_eq_ok.1 h
  rw [opc_eq ho] at hf
  exact ⟨(he ..).trans (congrArg some hf.symm), (hw ..).trans hc⟩
theorem plain1_wordOf {f : Fields} {n : Nat} {mk : Ctl → Reg → Src → Instr} {i : Instr}
    (ho : f.opc.toNat = n) (h : decPlain1 f mk = .ok i)
    (he : ∀ c d a, encodeFields (mk c d a) = some (pw c (BitVec.ofNat 10 n) d.enc a.enc 0 0))
    (hw : ∀ c d a, (mk c d a).wf = c.ok (d.indexed || a.indexed)) : WordOf i f := by
  obtain ⟨c, d, a, hc, hf, rfl⟩ := decPlain1_eq_ok.1 h
  rw [opc_eq ho] at hf
  exact ⟨(he ..).trans (congrArg some hf.symm), (hw ..).trans hc⟩

section
variable {α : Type} {of : Ty → Option α} {ty : α → Ty} {sub : BitVec 8 → Bool} {norm : BitVec 8 → BitVec 8} {rnd : Bool} {f : Fields}
  {i : Instr} {n : Nat}

theorem ty2_wordOf {mk : Ctl → α → BitVec 8 → Rnd → Reg → Src → TSrc → Instr} (ho : f.opc.toNat = n)
    (h : decTy2 f of sub rnd mk = .ok i) (hof : ∀ {t x}, of t = some x ↔ t = ty x) (hn : ∀ {s}, sub s = true → norm s = s)
    (he : ∀ c x s r d a b, encodeFields (mk c x s r d a b) =
      some (tw2 c (BitVec.ofNat 10 n) (ty x) (if rnd = true then r else .rne) (norm s) d a b))
    (hw : ∀ c x s r d a b, (mk c x s r d a b).wf = c.ok (d.indexed || a.indexed || b.indexed)) : WordOf i f := by
  obtain ⟨c, t, x, s, r, d, a, b, hx, hs, hr, hc, hf, rfl⟩ := decTy2_eq_ok.1 h
  rw [opc_eq ho, hof.1 hx] at hf
  refine ⟨?_, (hw ..).trans hc⟩
  rw [he, rnd_eq hr, hn hs]
  exact congrArg some hf.symm
theorem ty3_wordOf {mk : Ctl → α → BitVec 8 → Rnd → Reg → Src → TSrc → Src → Instr} (ho : f.opc.toNat = n)
    (h : decTy3 f of sub rnd mk = .ok i) (hof : ∀ {t x}, of t = some x ↔ t = ty x) (hn : ∀ {s}, sub s = true → norm s = s)
    (he : ∀ c x s r d a b k, encodeFields (mk c x s r d a b k) =
      some (tw3 c (BitVec.ofNat 10 n) (ty x) (if rnd = true then r else .rne) (norm s) d a b k))
    (hw : ∀ c x s r d a b k, (mk c x s r d a b k).wf = c.ok (d.indexed || a.indexed || b.indexed || k.indexed)) : WordOf i f := by
  obtain ⟨c, t, x, s, r, d, a, b, k, hx, hs, hr, hc, hf, rfl⟩ := decTy3_eq_ok.1 h
  rw [opc_eq ho, hof.1 hx] at hf
  refine ⟨?_, (hw ..).trans hc⟩
  rw [he, rnd_eq hr, hn hs]
  exact congrArg some hf.symm
theorem ty1_wordOf {mk : Ctl → α → BitVec 8 → Rnd → Reg → Src → Instr} (ho : f.opc.toNat = n)
    (h : decTy1 f of sub rnd mk = .ok i) (hof : ∀ {t x}, of t = some x ↔ t = ty x) (hn : ∀ {s}, sub s = true → norm s = s)
    (he : ∀ c x s r d a, encodeFields (mk c x s r d a) =
      some (tw1 c (BitVec.ofNat 10 n) (ty x) (if rnd = true then r else .rne) (norm s) d a))
    (hw : ∀ c x s r d a, (mk c x s r d a).wf = c.ok (d.indexed || a.indexed)) : WordOf i f := by
  obtain ⟨c, t, x, s, r, d, a, hx, hs, hr, hc, hf, rfl⟩ := decTy1_eq_ok.1 h
  rw [opc_eq ho, hof.1 hx] at hf
  refine ⟨?_, (hw ..).trans hc⟩
  rw [he, rnd_eq hr, hn hs]
  exact congrArg some hf.symm
end

/-- SUB as the encoder writes it, from what the decoder reads. -/
theorem boolBit_satOf {s : BitVec 8} (h : subSat s = true) : boolBit (satOf s) = s := by revert s; decide
theorem eq_zero_of_subZero {s : BitVec 8} (h : subZero s = true) : (0 : BitVec 8) = s := (beq_iff_eq.1 h).symm
theorem shift_of_sub {s : BitVec 8} (h : (s.extractLsb' 3 5 == (0#5)) = true) : (s.extractLsb' 0 3).setWidth 8 = s := by
  revert s; decide

theorem fma_wordOf {f : Fields} {i : Instr} (ho : f.opc.toNat = 0x04A) (h : decGeneric f = .ok i) : WordOf i f := by
  simp only [decGeneric, ho, bind_eq_ok, must_eq_ok, type_sub_zero, Reg.dec_eq_ok, Src.dec_eq_ok, Except.ok.injEq] at h
  obtain ⟨_, ⟨ht, hs⟩, c, hc, d, hd, a, ha, b, hb, k, hk, rfl⟩ := h
  obtain ⟨r, -, ⟨s, hm⟩, hb, hc⟩ := ri_gsrc_eq_ok.1 ⟨hc, hb⟩
  obtain ⟨h, -, hx⟩ := (ctl_d_a hd ha).1 hc
  rw [hm, GSrc.modR_sub] at hs
  rw [hs] at hm
  rw [hm, GSrc.modR_rnd, Rnd.ofCode_eq.2 rfl]
  have hw : c.ok (d.indexed || a.indexed || b.indexed || k.indexed) = true := by simpa [hb, hk] using hx
  exact ⟨congrArg some (eq_cw_iff.2 ⟨opc_eq ho, ht, hm.trans (b.modSub_zero _), h, hd, ha, hb, hk⟩).symm, hw⟩
theorem truth_wordOf {f : Fields} {i : Instr} (ho : f.opc.toNat = 0x04F) (h : decGeneric f = .ok i) : WordOf i f := by
  simp only [decGeneric, ho, bind_eq_ok, plainR_eq_ok, Src.dec_eq_ok, Except.ok.injEq] at h
  obtain ⟨c, ⟨ht, hm, hc⟩, d, hd, a, ha, rfl⟩ := h
  obtain ⟨h, ⟨hp, -, hb, hk⟩, hx⟩ := Fields.ctl_eq_ok.1 hc
  rw [OpK.ok_pred] at hp
  rw [OpK.ok_none] at hb hk
  have hd := Pred.eq_enc_iff.2 ⟨hd, hp⟩
  have hw : c.ok a.indexed = true := by simpa [hd, ha, hb, hk] using hx
  exact ⟨congrArg some (eq_cw_iff.2 ⟨opc_eq ho, ht, hm, h, hd, ha, hb, hk⟩).symm, hw⟩

theorem decGeneric_wordOf {f : Fields} {i : Instr} (h : decGeneric f = .ok i) : WordOf i f := by
  have h' := h
  unfold decGeneric at h
  split at h
  case h_1 ho | h_2 ho | h_3 ho | h_4 ho | h_5 ho | h_6 ho | h_9 ho | h_10 ho | h_18 ho | h_19 ho | h_20 ho | h_21 ho | h_22 ho =>
    exact gen2_wordOf ho h (by intros; rfl) (by intros; rfl)
  case h_7 ho | h_8 ho | h_17 ho => exact plain1_wordOf ho h (by intros; rfl) (by intros; rfl)
  case h_11 ho => exact fma_wordOf ho h'
  case h_12 ho | h_13 ho | h_14 ho | h_15 ho => exact genP_wordOf ho h (by intros; rfl) (by intros; rfl)
  case h_16 ho => exact truth_wordOf ho h'
  case h_23 => cases h

/-- The parts of a comparison with a predicate destination and a typed operand B. -/
theorem cmp_parts {f : Fields} {c : Ctl} {d : Pred} {a : Src} {b : TSrc} (hc : f.ri .ri .pred .val .val .none false plainImmOk = .ok c)
    (hd : Pred.dec f.d = .ok d) (ha : f.a = a.enc) (hb : f.tsrc = .ok b) :
    f = cw c f.opc (Pred.enc d) a.enc b.enc 0 f.ty (b.mod 0 (ModR.of f.mod).sub) ∧ c.ok (a.indexed || b.indexed) = true := by
  obtain ⟨r, hr, -, ⟨s, hm⟩, hb, hc⟩ := (ri_tsrc_eq_ok plainImmOk_zero).1 ⟨hc, hb⟩
  obtain ⟨h, ⟨hp, -, -, hk⟩, hx⟩ := Fields.ctl_eq_ok.1 hc
  obtain rfl : r = .rne := by simpa using hr
  rw [OpK.ok_pred] at hp
  rw [OpK.ok_none] at hk
  have hd := Pred.eq_enc_iff.2 ⟨hd, hp⟩
  refine ⟨eq_cw_iff.2 ⟨rfl, rfl, ?_, h, hd, ha, hb, hk⟩, by simpa [hd, ha, hb, hk] using hx⟩
  rw [hm, TSrc.modR_sub]
  rfl
theorem fcmp_wordOf {f : Fields} {i : Instr} (ho : f.opc.toNat = 0x18C) (h : decFloat f = .ok i) : WordOf i f := by
  simp only [decFloat, ho, bind_eq_ok, type_eq_ok, FTy.of_eq_some, known_eq_ok, FCond.ofCode_eq_some, Src.dec_eq_ok, Except.ok.injEq] at h
  obtain ⟨t, ⟨_, ht, rfl⟩, k, hk, c, hc, d, hd, a, ha, b, hb, rfl⟩ := h
  obtain ⟨hf, hw⟩ := cmp_parts hc hd ha hb
  rw [opc_eq ho, ht, hk] at hf
  exact ⟨congrArg some hf.symm, hw⟩
theorem icmp_wordOf {f : Fields} {i : Instr} (ho : f.opc.toNat = 0x10B) (h : decTyped f = .ok i) : WordOf i f := by
  simp only [decTyped, ho, bind_eq_ok, type_eq_ok, ITy.of_eq_some, known_eq_ok, ICond.ofCode_eq_some, Src.dec_eq_ok, Except.ok.injEq] at h
  obtain ⟨t, ⟨_, ht, rfl⟩, k, hk, c, hc, d, hd, a, ha, b, hb, rfl⟩ := h
  obtain ⟨hf, hw⟩ := cmp_parts hc hd ha hb
  rw [opc_eq ho, ht, hk] at hf
  exact ⟨congrArg some hf.symm, hw⟩
theorem sel_wordOf {f : Fields} {i : Instr} (ho : f.opc.toNat = 0x11A) (h : decTyped f = .ok i) : WordOf i f := by
  simp only [decTyped, ho, bind_eq_ok, must_eq_ok, type_sub_zero, Reg.dec_eq_ok, Src.dec_eq_ok, Except.ok.injEq] at h
  obtain ⟨_, ⟨ht, hs⟩, c, hc, d, hd, a, ha, b, hb, k, hk, rfl⟩ := h
  obtain ⟨r, hr, ⟨s, hm⟩, hb, hc⟩ := ri_gsrc_eq_ok.1 ⟨hc, hb⟩
  obtain ⟨h, ⟨-, hp⟩, hx⟩ := (ctl_d_a hd ha).1 hc
  obtain rfl : r = .rne := by simpa using hr
  rw [hm, GSrc.modR_sub] at hs
  rw [hs] at hm
  rw [OpK.ok_pred] at hp
  have hk := Pred.eq_enc_iff.2 ⟨hk, hp⟩
  have hw : c.ok (d.indexed || a.indexed || b.indexed) = true := by simpa [hb, hk] using hx
  exact ⟨congrArg some (eq_cw_iff.2 ⟨opc_eq ho, ht, hm.trans (b.modSub_zero _), h, hd, ha, hb, hk⟩).symm, hw⟩
theorem movi_wordOf {f : Fields} {i : Instr} (ho : f.opc.toNat = 0x11C) (h : decTyped f = .ok i) : WordOf i f := by
  simp only [decTyped, ho, bind_eq_ok, must_eq_ok, beq_iff_eq] at h
  obtain ⟨_, hs, h⟩ := h
  split at h
  next ht =>
    simp only [bind_eq_ok, ri_i_eq_ok, Reg.dec_eq_ok, Except.ok.injEq] at h
    obtain ⟨c, ⟨r, hr, ⟨t, s, im, hm, hi⟩, hc⟩, d, hd, rfl⟩ := h
    obtain ⟨h, ⟨-, ha, hb, hk⟩, hx⟩ := Fields.ctl_eq_ok.1 hc
    obtain rfl : r = .rne := by simpa using hr
    simp only [hm, ModR.of_mi] at hs ⊢
    subst hs
    obtain ⟨h1, h2⟩ := itag_bits_of hi
    rw [OpK.ok_none] at ha hb hk
    have hw : (c.ok d.indexed && (MovImm.gen (GImm.of t im)).ok) = true := by simpa [hd, ha, hb, hk, MovImm.ok] using hx
    refine ⟨congrArg some (eq_cw_iff.2 ⟨opc_eq ho, ht, ?_, h, hd, ha, hb, hk⟩).symm, hw⟩
    rw [hm, h1, h2]
    rfl
  next =>
    simp only [bind_eq_ok, must_eq_ok, type_eq_ok, ri_i_eq_ok, Reg.dec_eq_ok, Except.ok.injEq] at h
    obtain ⟨t, ⟨_, ht, ⟨⟩⟩, _, hmv, c, ⟨r, hr, ⟨tg, s, im, hm, hi⟩, hc⟩, d, hd, rfl⟩ := h
    obtain ⟨h, ⟨-, ha, hb, hk⟩, hx⟩ := Fields.ctl_eq_ok.1 hc
    obtain rfl : r = .rne := by simpa using hr
    obtain rfl := plainImmOk_zero _ _ hi
    simp only [hm, ModR.of_mi] at hs ⊢
    subst hs
    rw [OpK.ok_none] at ha hb hk
    have hw : (c.ok d.indexed && (MovImm.typed t im).ok) = true := by simpa [hd, ha, hb, hk, MovImm.ok, hmv] using hx
    exact ⟨congrArg some (eq_cw_iff.2 ⟨opc_eq ho, ht, hm, h, hd, ha, hb, hk⟩).symm, hw⟩
theorem plop_wordOf {f : Fields} {i : Instr} (ho : f.opc.toNat = 0x11E) (h : decTyped f = .ok i) : WordOf i f := by
  simp only [decTyped, ho, bind_eq_ok, must_eq_ok, beq_iff_eq, ri_r_eq_ok, Except.ok.injEq] at h
  obtain ⟨_, ht, c, ⟨r, hr, ⟨s, hm⟩, hc⟩, d, hd, a, ha, b, hb, k, hk, rfl⟩ := h
  obtain ⟨h, ⟨hpd, hpa, hpb, hpk⟩, hx⟩ := Fields.ctl_eq_ok.1 hc
  obtain rfl : r = .rne := by simpa using hr
  rw [OpK.ok_pred] at hpd hpa hpb hpk
  have hw : c.ok false = true := by simpa [hpd, hpa, hpb, hpk] using hx
  refine ⟨congrArg some (eq_cw_iff.2 ⟨opc_eq ho, ht, ?_, h, Pred.eq_enc_iff.2 ⟨hd, hpd⟩, Pred.eq_enc_iff.2 ⟨ha, hpa⟩,
    Pred.eq_enc_iff.2 ⟨hb, hpb⟩, Pred.eq_enc_iff.2 ⟨hk, hpk⟩⟩).symm, hw⟩
  rw [hm, ModR.of_mr]
  rfl
theorem pbool_wordOf {f : Fields} {i : Instr} (ho : f.opc.toNat = 0x11F) (h : decTyped f = .ok i) : WordOf i f := by
  simp only [decTyped, ho, bind_eq_ok, plainR_eq_ok, Reg.dec_eq_ok, Except.ok.injEq] at h
  obtain ⟨c, ⟨ht, hm, hc⟩, d, hd, a, ha, rfl⟩ := h
  obtain ⟨h, ⟨-, hp, hb, hk⟩, hx⟩ := Fields.ctl_eq_ok.1 hc
  rw [OpK.ok_pred] at hp
  rw [OpK.ok_none] at hb hk
  have hw : c.ok d.indexed = true := by simpa [hd, hp, hb, hk] using hx
  exact ⟨congrArg some (eq_cw_iff.2 ⟨opc_eq ho, ht, hm, h, hd, Pred.eq_enc_iff.2 ⟨ha, hp⟩, hb, hk⟩).symm, hw⟩

theorem decFloat_wordOf {f : Fields} {i : Instr} (h : decFloat f = .ok i) : WordOf i f := by
  have h' := h
  unfold decFloat at h
  split at h
  case h_1 ho | h_2 ho | h_3 ho | h_9 ho | h_10 ho => exact ty2_wordOf ho h PTy.of_eq_some eq_zero_of_subZero (by intros; rfl) (by intros; rfl)
  case h_4 ho => exact ty3_wordOf ho h PTy.of_eq_some eq_zero_of_subZero (by intros; rfl) (by intros; rfl)
  case h_5 ho | h_21 ho => exact ty2_wordOf ho h FTy.of_eq_some eq_zero_of_subZero (by intros; rfl) (by intros; rfl)
  case h_6 ho | h_7 ho | h_8 ho | h_19 ho | h_20 ho =>
    exact ty1_wordOf ho h FTy.of_eq_some eq_zero_of_subZero (by intros; rfl) (by intros; rfl)
  case h_11 ho | h_12 ho => exact ty1_wordOf ho h PTy.of_eq_some eq_zero_of_subZero (by intros; rfl) (by intros; rfl)
  case h_13 ho => exact fcmp_wordOf ho h'
  case h_14 ho | h_15 ho | h_16 ho | h_17 ho | h_18 ho =>
    exact ty1_wordOf ho h TTy.of_eq_some eq_zero_of_subZero (by intros; rfl) (by intros; rfl)
  case h_22 => cases h

theorem decTyped_wordOf {f : Fields} {i : Instr} (h : decTyped f = .ok i) : WordOf i f := by
  have h' := h
  unfold decTyped at h
  split at h
  case h_1 ho | h_2 ho | h_3 ho => exact ty2_wordOf ho h ITy.of_eq_some boolBit_satOf (by intros; rfl) (by intros; rfl)
  case h_4 ho | h_6 ho | h_7 ho | h_8 ho | h_9 ho | h_25 ho =>
    exact ty2_wordOf ho h ITy.of_eq_some eq_zero_of_subZero (by intros; rfl) (by intros; rfl)
  case h_5 ho => exact ty3_wordOf ho h ITy.of_eq_some boolBit_satOf (by intros; rfl) (by intros; rfl)
  case h_10 ho | h_11 ho => exact ty1_wordOf ho h STy.of_eq_some boolBit_satOf (by intros; rfl) (by intros; rfl)
  case h_12 ho => exact icmp_wordOf ho h'
  case h_13 ho | h_14 ho | h_15 ho | h_17 ho | h_18 ho | h_19 ho | h_20 ho =>
    exact ty2_wordOf ho h BTy.of_eq_some eq_zero_of_subZero (by intros; rfl) (by intros; rfl)
  case h_16 ho | h_21 ho | h_22 ho | h_23 ho | h_24 ho =>
    exact ty1_wordOf ho h BTy.of_eq_some eq_zero_of_subZero (by intros; rfl) (by intros; rfl)
  case h_26 ho => exact ty3_wordOf ho h BTy.of_eq_some eq_zero_of_subZero (by intros; rfl) (by intros; rfl)
  case h_28 ho => exact plain1_wordOf ho h (by intros; rfl) (by intros; rfl)
  case h_27 ho => exact sel_wordOf ho h'
  case h_29 ho => exact movi_wordOf ho h'
  case h_30 ho =>
    have hl {t : Ty} {x : Unit} : (if t == .b64 then some () else none) = some x ↔ t = .b64 := by cases t <;> simp
    exact ty2_wordOf (ty := fun _ => .b64) ho h hl shift_of_sub (by intros; rfl) (by intros; rfl)
  case h_31 ho => exact plop_wordOf ho h'
  case h_32 ho => exact pbool_wordOf ho h'
  case h_33 => cases h
end Sys2Proof
end


section
/-! Memory and object opcodes: what decodes is the word of its instruction (spec 07_encoding R88, R98, Table 7.7). -/
namespace Sys2Proof

@[simp] theorem ofBool_beq_one (x : BitVec 1) : BitVec.ofBool (x == 1) = x := by revert x; decide

/-- MOD of format M, from what its decoder has checked. -/
theorem mod_eq_mm {m : BitVec 48} {sp : Space} {o : Ord} (h : (ModM.of m).z = 0 ∧ (ModM.of m).space = sp.code ∧ (ModM.of m).ord = o.code) :
    m = mm sp o ((ModM.of m).heal == 1) ((ModM.of m).obj == 1) (ModM.of m).sub (ModM.of m).off := by
  obtain ⟨hz, hs, ho⟩ := h
  simp only [mm, ofBool_beq_one, ← hs, ← ho, ← hz]
  exact (ModM.bits_of m).symm
/-- The same where HEAL must be zero. -/
theorem mod_eq_mm_plain {m : BitVec 48} {sp : Space} {o : Ord} (h : (ModM.of m).z = 0 ∧ (ModM.of m).space = sp.code ∧ (ModM.of m).ord = o.code)
    (hh : (ModM.of m).heal = 0) : m = mm sp o false ((ModM.of m).obj == 1) (ModM.of m).sub (ModM.of m).off := by
  have := mod_eq_mm h
  rwa [hh] at this

/-- PEN and P, from what the decoder reads of SUB. -/
theorem penOf_eq_ok {s : BitVec 8} {p : Option Pred} : penOf s = .ok p ↔ s = penBits p := by
  have dec : ∀ s : BitVec 8, (match penOf s with | .ok p => decide (s = penBits p) | .error _ => true) = true := by decide
  have enc : ∀ q : Pred, penOf (penBits (some q)) = .ok (some q) := by decide
  constructor
  · intro h
    have := dec s
    rw [h] at this
    exact of_decide_eq_true this
  · rintro rfl
    cases p with
    | none => rfl
    | some q => exact enc q

theorem ld_wordOf {f : Fields} {i : Instr} (ho : f.opc.toNat = 0x240) (h : decMemory f = .ok i) : WordOf i f := by
  simp only [decMemory, ho, bind_eq_ok, must_eq_ok, type_eq_ok, Prod.exists, mem_eq_ok, Reg.dec_eq_ok, Src.dec_eq_ok, Except.ok.injEq,
    Bool.and_eq_true] at h
  obtain ⟨t, ⟨_, ht, ⟨⟩⟩, c, sp, o, ⟨hc, hm⟩, _, ⟨⟨⟨⟨h2, h3⟩, h4⟩, h5⟩, h6⟩, d, hd, a, ha, rfl⟩ := h
  obtain ⟨h, ⟨hb, hk⟩, hx⟩ := (ctl_d_a hd ha).1 hc
  rw [OpK.ok_none] at hb hk
  have hm := mod_eq_mm hm
  rw [beq_iff_eq.1 h6] at hm
  have h4 : (!((ModM.of f.mod).heal == 1) || t.width == 64) = true := by
    rcases bit_eq (ModM.of f.mod).heal with e | e <;> rw [e] at h4 ⊢
    · rfl
    · exact h4
  have hw : (c.ok (d.indexed || a.indexed) && t != .e2m1 && o.loadOk && (!((ModM.of f.mod).heal == 1) || t.width == 64) &&
      objOk ((ModM.of f.mod).obj == 1) sp) = true := by
    rw [h2, h3, h4, h5]
    simpa [hb, hk] using hx
  exact ⟨congrArg some (eq_cw_iff.2 ⟨opc_eq ho, ht, hm, h, hd, ha, hb, hk⟩).symm, hw⟩
theorem st_wordOf {f : Fields} {i : Instr} (ho : f.opc.toNat = 0x241) (h : decMemory f = .ok i) : WordOf i f := by
  simp only [decMemory, ho, bind_eq_ok, must_eq_ok, type_eq_ok, Prod.exists, mem_eq_ok, Src.dec_eq_ok, Except.ok.injEq,
    Bool.and_eq_true] at h
  obtain ⟨t, ⟨_, ht, ⟨⟩⟩, c, sp, o, ⟨hc, hm⟩, _, ⟨⟨⟨⟨h2, h3⟩, h4⟩, h5⟩, h6⟩, a, ha, b, hb, rfl⟩ := h
  obtain ⟨h, ⟨hd, -, -, hk⟩, hx⟩ := Fields.ctl_eq_ok.1 hc
  rw [OpK.ok_none] at hd hk
  have hm := mod_eq_mm_plain hm (beq_iff_eq.1 h4)
  rw [beq_iff_eq.1 h6] at hm
  have hw : (c.ok (a.indexed || b.indexed) && t != .e2m1 && o.storeOk && objOk ((ModM.of f.mod).obj == 1) sp) = true := by
    rw [h2, h3, h5]
    simpa [hd, ha, hb, hk] using hx
  exact ⟨congrArg some (eq_cw_iff.2 ⟨opc_eq ho, ht, hm, h, hd, ha, hb, hk⟩).symm, hw⟩

/-- SUB of an atomic, from its operation and STAT. -/
theorem atom_sub {s : BitVec 8} (h : (s.extractLsb' 5 2 == (0#2)) = true) :
    s = (if s.getLsbD 7 = true then 128 else 0) ||| (s.extractLsb' 0 5).setWidth 8 := by revert s; decide

/-- The parts of ATOM that do not depend on operand C. -/
theorem atom_parts {f : Fields} {t : Ty} {op : AtomOp} {c : Ctl} {sp : Space} {o : Ord} {d : Reg} {a b : Src} {kc : OpK}
    (ho : f.opc.toNat = 0x242) (ht : f.ty = t.code) (hop : (ModM.of f.mod).sub.extractLsb' 0 5 = op.code)
    (hs : ((ModM.of f.mod).sub.extractLsb' 5 2 == (0#2)) = true) (hc : f.ctl .val .val .val kc = .ok c)
    (hm : (ModM.of f.mod).z = 0 ∧ (ModM.of f.mod).space = sp.code ∧ (ModM.of f.mod).ord = o.code)
    (hh : ((ModM.of f.mod).heal == 0) = true) (hd : f.d = d.enc) (ha : f.a = a.enc) (hb : f.b = b.enc) :
    f = cw c 0x242 d.enc a.enc b.enc f.c t.code (mm sp o false ((ModM.of f.mod).obj == 1)
      ((if (ModM.of f.mod).sub.getLsbD 7 = true then 128 else 0) ||| op.code.setWidth 8) (ModM.of f.mod).off) ∧
    kc.ok f.c = true ∧ c.ok (d.indexed || a.indexed || b.indexed || ixBit f.c) = true := by
  obtain ⟨h, ⟨-, hk⟩, hx⟩ := (ctl_d_a hd ha).1 hc
  have hm := mod_eq_mm_plain hm (beq_iff_eq.1 hh)
  rw [← hop, ← atom_sub hs]
  exact ⟨eq_cw_iff.2 ⟨opc_eq ho, ht, hm, h, hd, ha, hb, rfl⟩, hk, by simpa [hb] using hx⟩
theorem atom_wordOf {f : Fields} {i : Instr} (ho : f.opc.toNat = 0x242) (h : decMemory f = .ok i) : WordOf i f := by
  simp only [decMemory, ho, bind_eq_ok, must_eq_ok, known_eq_ok, AtomOp.ofCode_eq_some, type_eq_ok, Prod.exists, mem_eq_ok, Reg.dec_eq_ok,
    Src.dec_eq_ok, Bool.and_eq_true] at h
  obtain ⟨t, ⟨_, ht, ⟨⟩⟩, op, hop, _, ⟨⟨hs, hty⟩, hst⟩, c, sp, o, ⟨hc, hm⟩, _, ⟨hh, hobj⟩, d, hd, a, ha, b, hb, h⟩ := h
  obtain ⟨hf, hk, hx⟩ := atom_parts ho ht hop hs hc hm hh hd ha hb
  have wf (k : AtomC) (hc' : c.ok (d.indexed || a.indexed || b.indexed || k.indexed) = true) (hk' : op.cOk k = true) :
      (c.ok (d.indexed || a.indexed || b.indexed || k.indexed) && op.tyOk t && op.cOk k && objOk ((ModM.of f.mod).obj == 1) sp) = true := by
    rw [hc', hk', hty, hobj]; rfl
  split at h
  next h7 =>
    simp only [bind_eq_ok, Except.ok.injEq] at h
    obtain ⟨p, hp, rfl⟩ := h
    rw [if_pos h7] at hk hf
    rw [OpK.ok_pred] at hk
    rw [Pred.eq_enc_iff.2 ⟨hp, hk⟩] at hf
    exact ⟨congrArg some hf.symm, wf (.stat p) (by simpa [hk, AtomC.indexed] using hx) (by rwa [h7] at hst)⟩
  next h7 =>
    rw [if_neg h7] at hk hf
    split at h
    next hcas =>
      simp only [bind_eq_ok, Src.dec_eq_ok, Except.ok.injEq] at h
      obtain ⟨k, hk, rfl⟩ := h
      rw [hk] at hf hx
      exact ⟨congrArg some hf.symm, wf (.cas k) (by simpa [AtomC.indexed] using hx) hcas⟩
    next hcas =>
      cases h
      rw [if_neg hcas, OpK.ok_none] at hk
      rw [hk] at hf hx
      exact ⟨congrArg some hf.symm, wf .none (by simpa [AtomC.indexed] using hx) (by simpa [AtomOp.cOk] using hcas)⟩
theorem red_sub {s : BitVec 8} (h : (s.extractLsb' 5 3 == (0#3)) = true) : s = (s.extractLsb' 0 5).setWidth 8 := by
  revert s; decide
theorem red_wordOf {f : Fields} {i : Instr} (ho : f.opc.toNat = 0x243) (h : decMemory f = .ok i) : WordOf i f := by
  simp only [decMemory, ho, bind_eq_ok, must_eq_ok, known_eq_ok, AtomOp.ofCode_eq_some, type_eq_ok, Prod.exists, mem_eq_ok,
    Src.dec_eq_ok, Except.ok.injEq, Bool.and_eq_true] at h
  obtain ⟨t, ⟨_, ht, ⟨⟩⟩, op, hop, _, ⟨⟨hs, hty⟩, hred⟩, c, sp, o, ⟨hc, hm⟩, _, ⟨⟨hh, hobj⟩, hord⟩, a, ha, b, hb, rfl⟩ := h
  obtain ⟨h, ⟨hd, -, -, hk⟩, hx⟩ := Fields.ctl_eq_ok.1 hc
  rw [OpK.ok_none] at hd hk
  have hm := mod_eq_mm_plain hm (beq_iff_eq.1 hh)
  rw [red_sub hs, hop] at hm
  have hw : (c.ok (a.indexed || b.indexed) && op.tyOk t && op.redOk && o.redOk && objOk ((ModM.of f.mod).obj == 1) sp) = true := by
    rw [hty, hred, hord, hobj]
    simpa [hd, ha, hb, hk] using hx
  exact ⟨congrArg some (eq_cw_iff.2 ⟨opc_eq ho, ht, hm, h, hd, ha, hb, hk⟩).symm, hw⟩
theorem casw_wordOf {f : Fields} {i : Instr} (ho : f.opc.toNat = 0x244) (h : decMemory f = .ok i) : WordOf i f := by
  simp only [decMemory, ho, bind_eq_ok, must_eq_ok, Fields.b64, penOf_eq_ok, Prod.exists, mem_eq_ok, Vec.dec_eq_ok,
    Src.dec_eq_ok, Except.ok.injEq, Bool.and_eq_true] at h
  obtain ⟨_, ht, pen, hp, c, sp, o, ⟨hc, hm⟩, _, ⟨⟨hh, hobj⟩, hsp⟩, d, hd, a, ha, b, hb, k, hk, rfl⟩ := h
  obtain ⟨h, -, hx⟩ := Fields.ctl_eq_ok.1 hc
  have hm := mod_eq_mm_plain hm (beq_iff_eq.1 hh)
  rw [hp] at hm
  have hw : (c.ok (d.indexed || a.indexed || b.indexed || k.indexed) && sp.noLan && objOk ((ModM.of f.mod).obj == 1) sp) = true := by
    rw [hsp, hobj]
    simpa [hd, ha, hb, hk] using hx
  exact ⟨congrArg some (eq_cw_iff.2 ⟨opc_eq ho, beq_iff_eq.1 ht, hm, h, hd, ha, hb, hk⟩).symm, hw⟩
theorem fence_wordOf {f : Fields} {i : Instr} (ho : f.opc.toNat = 0x245) (h : decMemory f = .ok i) : WordOf i f := by
  simp only [decMemory, ho, bind_eq_ok, must_eq_ok, Prod.exists, mem_eq_ok, Except.ok.injEq, Bool.and_eq_true, beq_iff_eq,
    Bool.not_eq_true'] at h
  obtain ⟨c, sp, o, ⟨hc, hm⟩, _, ⟨⟨⟨⟨⟨⟨ht, rfl⟩, hord⟩, hh⟩, hobj⟩, hs⟩, hoff⟩, rfl⟩ := h
  obtain ⟨h, ⟨hd, ha, hb, hk⟩, hx⟩ := Fields.ctl_eq_ok.1 hc
  rw [OpK.ok_none] at hd ha hb hk
  have hm := mod_eq_mm_plain hm hh
  rw [hs, hoff, hobj] at hm
  have hw : (c.ok false && o != .none) = true := by
    rw [hord]
    simpa [hd, ha, hb, hk] using hx
  exact ⟨congrArg some (eq_cw_iff.2 ⟨opc_eq ho, ht, hm, h, hd, ha, hb, hk⟩).symm, hw⟩
theorem boolBit_beq_one {s : BitVec 8} (h : (s == 0 || s == 1) = true) : boolBit (s == 1) = s := by revert s; decide
theorem pref_wordOf {f : Fields} {i : Instr} (ho : f.opc.toNat = 0x246) (h : decMemory f = .ok i) : WordOf i f := by
  simp only [decMemory, ho, bind_eq_ok, must_eq_ok, Prod.exists, mem_eq_ok, Src.dec_eq_ok, Except.ok.injEq, Bool.and_eq_true] at h
  obtain ⟨c, sp, o, ⟨hc, hm⟩, _, ⟨⟨⟨⟨⟨ht, hsp⟩, hord⟩, hh⟩, hobj⟩, hs⟩, a, ha, rfl⟩ := h
  obtain rfl := eq_of_beq hsp
  obtain rfl := eq_of_beq hord
  obtain ⟨h, ⟨hd, -, hb, hk⟩, hx⟩ := Fields.ctl_eq_ok.1 hc
  rw [OpK.ok_none] at hd hb hk
  have hm := mod_eq_mm_plain hm (eq_of_beq hh)
  rw [(Bool.not_eq_true' _).mp hobj, ← boolBit_beq_one hs] at hm
  have hw : c.ok a.indexed = true := by simpa [hd, ha, hb, hk] using hx
  exact ⟨congrArg some (eq_cw_iff.2 ⟨opc_eq ho, eq_of_beq ht, hm, h, hd, ha, hb, hk⟩).symm, hw⟩

theorem decMemory_wordOf {f : Fields} {i : Instr} (h : decMemory f = .ok i) : WordOf i f := by
  have h' := h
  unfold decMemory at h
  dsimp only at h
  split at h
  case h_1 ho => exact ld_wordOf ho h'
  case h_2 ho => exact st_wordOf ho h'
  case h_3 ho => exact atom_wordOf ho h'
  case h_4 ho => exact red_wordOf ho h'
  case h_5 ho => exact casw_wordOf ho h'
  case h_6 ho => exact fence_wordOf ho h'
  case h_7 ho => exact pref_wordOf ho h'
  case h_8 => cases h

end Sys2Proof
end


section
/-! Object, barrier, promise and group opcodes: what decodes is the word of its instruction (spec 07_encoding R88, R98, Tables 7.7 and 7.8). -/
namespace Sys2Proof

/-! ### Objects -/

theorem nalloc_wordOf {f : Fields} {i : Instr} (ho : f.opc.toNat = 0x2C0) (h : decObjects f = .ok i) : WordOf i f := by
  simp only [decObjects, ho, bind_eq_ok, must_eq_ok, Reg.dec_eq_ok, type_sub_zero, Except.ok.injEq] at h
  obtain ⟨_, ⟨ht, hs⟩, c, hc, d, hd, b, hb, p, hp, rfl⟩ := h
  obtain ⟨r, hr, hi, ⟨s, hm⟩, hb, hc⟩ := (ri_tsrc_eq_ok fun t i h => eq_of_beq (Bool.and_eq_true _ _ ▸ h).1).1 ⟨hc, hb⟩
  obtain ⟨h, ⟨-, ha, -, hk⟩, hx⟩ := Fields.ctl_eq_ok.1 hc
  obtain rfl : r = .rne := by simpa using hr
  rw [hm, TSrc.modR_sub] at hs
  subst hs
  rw [OpK.ok_none] at ha
  rw [OpK.ok_pred] at hk
  have hp := Pred.eq_enc_iff.2 ⟨hp, hk⟩
  cases b with
  | reg s =>
    have hw : (c.ok (d.indexed || s.indexed) && true) = true := by simpa [hd, ha, hb, hp, TSrc.indexed] using hx
    exact ⟨congrArg some (eq_cw_iff.2 ⟨opc_eq ho, ht, hm, h, hd, ha, hb, hp⟩).symm, hw⟩
  | imm n =>
    have hn : sizeOk n.toNat = true := by simpa using hi n rfl
    have hw : (c.ok (d.indexed || false) && sizeOk n.toNat) = true := by simpa [hd, ha, hb, hp, TSrc.indexed, hn] using hx
    exact ⟨congrArg some (eq_cw_iff.2 ⟨opc_eq ho, ht, hm, h, hd, ha, hb, hp⟩).symm, hw⟩
theorem hdrld_wordOf {f : Fields} {i : Instr} (ho : f.opc.toNat = 0x2C1) (h : decObjects f = .ok i) : WordOf i f := by
  simp only [decObjects, ho, bind_eq_ok, must_eq_ok, Fields.b64, penOf_eq_ok, Prod.exists, mem_eq_ok, Reg.dec_eq_ok, Src.dec_eq_ok,
    Except.ok.injEq, Bool.and_eq_true] at h
  obtain ⟨_, ht, pen, hp, c, sp, o, ⟨hc, hm⟩, _, ⟨⟨hsp, hh⟩, hord⟩, d, hd, a, ha, rfl⟩ := h
  obtain rfl := eq_of_beq hsp
  obtain ⟨h, ⟨hb, hk⟩, hx⟩ := (ctl_d_a hd ha).1 hc
  rw [OpK.ok_none] at hb hk
  have hm := mod_eq_mm_plain hm (eq_of_beq hh)
  rw [hp] at hm
  have hw : (c.ok (d.indexed || a.indexed) && o.loadOk) = true := by
    rw [hord]
    simpa [hb, hk] using hx
  exact ⟨congrArg some (eq_cw_iff.2 ⟨opc_eq ho, eq_of_beq ht, hm, h, hd, ha, hb, hk⟩).symm, hw⟩
theorem fwdcas_wordOf {f : Fields} {i : Instr} (ho : f.opc.toNat = 0x2C2) (h : decObjects f = .ok i) : WordOf i f := by
  simp only [decObjects, ho, bind_eq_ok, must_eq_ok, Fields.b64, penOf_eq_ok, Prod.exists, mem_eq_ok, Reg.dec_eq_ok, Src.dec_eq_ok,
    Except.ok.injEq, Bool.and_eq_true] at h
  obtain ⟨_, ht, pen, hp, c, sp, o, ⟨hc, hm⟩, _, ⟨⟨hsp, hh⟩, hobj⟩, d, hd, a, ha, b, hb, k, hk, rfl⟩ := h
  obtain rfl := eq_of_beq hsp
  obtain ⟨h, -, hx⟩ := (ctl_d_a hd ha).1 hc
  have hm := mod_eq_mm_plain hm (eq_of_beq hh)
  rw [hp, eq_of_beq hobj] at hm
  have hw : c.ok (d.indexed || a.indexed || b.indexed || k.indexed) = true := by simpa [hb, hk] using hx
  exact ⟨congrArg some (eq_cw_iff.2 ⟨opc_eq ho, eq_of_beq ht, hm, h, hd, ha, hb, hk⟩).symm, hw⟩

/-- A word of form R with a predicate destination and one source. -/
theorem plainP_parts {f : Fields} {c : Ctl} {d : Pred} {a : Src} (hc : f.plainR .pred .val .none .none = .ok c)
    (hd : Pred.dec f.d = .ok d) (ha : f.a = a.enc) : f = pw c f.opc (Pred.enc d) a.enc 0 0 ∧ c.ok a.indexed = true := by
  obtain ⟨ht, hm, hc⟩ := plainR_eq_ok.1 hc
  obtain ⟨h, ⟨hp, -, hb, hk⟩, hx⟩ := Fields.ctl_eq_ok.1 hc
  rw [OpK.ok_pred] at hp
  rw [OpK.ok_none] at hb hk
  have hd := Pred.eq_enc_iff.2 ⟨hd, hp⟩
  exact ⟨eq_cw_iff.2 ⟨rfl, ht, hm, h, hd, ha, hb, hk⟩, by simpa [hd, ha, hb, hk] using hx⟩
theorem refchk_wordOf {f : Fields} {i : Instr} (ho : f.opc.toNat = 0x2C3) (h : decObjects f = .ok i) : WordOf i f := by
  simp only [decObjects, ho, bind_eq_ok, Src.dec_eq_ok, Except.ok.injEq] at h
  obtain ⟨c, hc, d, hd, a, ha, rfl⟩ := h
  obtain ⟨hf, hw⟩ := plainP_parts hc hd ha
  rw [opc_eq ho] at hf
  exact ⟨congrArg some hf.symm, hw⟩

theorem decObjects_wordOf {f : Fields} {i : Instr} (h : decObjects f = .ok i) : WordOf i f := by
  have h' := h
  unfold decObjects at h
  split at h
  case h_1 ho => exact nalloc_wordOf ho h'
  case h_2 ho => exact hdrld_wordOf ho h'
  case h_3 ho => exact fwdcas_wordOf ho h'
  case h_4 ho => exact refchk_wordOf ho h'
  case h_5 => cases h

/-! ### Barriers and promises -/

/-- What the control part of a format M word of barriers and promises accepts. -/
theorem memPlain_eq_ok {f : Fields} {kd ka kb kc : OpK} {c : Ctl} {sp : Space} (h : f.memPlain kd ka kb kc = .ok (c, sp)) :
    f.ctl kd ka kb kc = .ok c ∧ f.ty = 0 ∧ f.mod = mm sp .none false false 0 (ModM.of f.mod).off := by
  simp only [Fields.memPlain, bind_eq_ok, must_eq_ok, Prod.exists, mem_eq_ok, Except.ok.injEq, Prod.mk.injEq, Bool.and_eq_true] at h
  obtain ⟨c, sp, o, ⟨hc, hm⟩, _, ⟨⟨⟨⟨ht, hord⟩, hh⟩, hobj⟩, hs⟩, rfl, rfl⟩ := h
  obtain rfl := eq_of_beq hord
  have hm := mod_eq_mm_plain hm (eq_of_beq hh)
  rw [eq_of_beq hobj, eq_of_beq hs] at hm
  exact ⟨hc, eq_of_beq ht, hm⟩
theorem clsOf_eq_ok {sp : Space} {b : Bool} : clsOf sp = .ok b ↔ sp = clsSpace b := by
  cases sp <;> cases b <;> decide
theorem clsOfSub_eq_ok {s : BitVec 8} {b : Bool} : clsOfSub s = .ok b ↔ s = clsSub b := by
  revert s; cases b <;> decide
/-- MOD of format W, from what its decoder has checked. -/
theorem mod_eq_mw {m : BitVec 48} (hz : (ModW.of m).z = 0) (hz2 : (ModW.of m).z2 = 0) :
    m = mw (ModW.of m).sub (ModW.of m).arg (ModW.of m).texp := by
  simp only [mw, ← hz2]
  rw [show (0 : BitVec 8) = (ModW.of m).z from hz.symm]
  exact (ModW.bits_of m).symm
theorem waitPlain_eq_ok {f : Fields} {kd ka kb kc : OpK} {c : Ctl} (h : f.waitPlain kd ka kb kc = .ok c) :
    f.ctl kd ka kb kc = .ok c ∧ f.ty = 0 ∧ f.mod = mw (ModW.of f.mod).sub 0 (ModW.of f.mod).texp := by
  simp only [Fields.waitPlain, bind_eq_ok, must_eq_ok, Bool.and_eq_true] at h
  obtain ⟨_, ⟨⟨⟨ht, hz⟩, harg⟩, hz2⟩, hc⟩ := h
  have hm := mod_eq_mw (eq_of_beq hz) (eq_of_beq hz2)
  rw [eq_of_beq harg] at hm
  exact ⟨hc, eq_of_beq ht, hm⟩

theorem barinit_wordOf {f : Fields} {i : Instr} (ho : f.opc.toNat = 0x300) (h : decSync f = .ok i) : WordOf i f := by
  simp only [decSync, ho, bind_eq_ok, Prod.exists, clsOf_eq_ok, Src.dec_eq_ok, Except.ok.injEq] at h
  obtain ⟨c, sp, hc, cls, rfl, a, ha, b, hb, k, hk, rfl⟩ := h
  obtain ⟨hc, ht, hm⟩ := memPlain_eq_ok hc
  obtain ⟨h, ⟨hd, -⟩, hx⟩ := Fields.ctl_eq_ok.1 hc
  rw [OpK.ok_none] at hd
  have hw : c.ok (a.indexed || b.indexed || k.indexed) = true := by simpa [hd, ha, hb, hk] using hx
  exact ⟨congrArg some (eq_cw_iff.2 ⟨opc_eq ho, ht, hm, h, hd, ha, hb, hk⟩).symm, hw⟩
/-- BARARR and BARTX. -/
theorem bar_parts {f : Fields} {c : Ctl} {sp : Space} {d : Reg} {a b : Src} (hc : f.memPlain .val .val .val .none = .ok (c, sp))
    (hd : f.d = d.enc) (ha : f.a = a.enc) (hb : f.b = b.enc) :
    f = cw c f.opc d.enc a.enc b.enc 0 0 (mm sp .none false false 0 (ModM.of f.mod).off) ∧
      c.ok (d.indexed || a.indexed || b.indexed) = true := by
  obtain ⟨hc, ht, hm⟩ := memPlain_eq_ok hc
  obtain ⟨h, ⟨-, hk⟩, hx⟩ := (ctl_d_a hd ha).1 hc
  rw [OpK.ok_none] at hk
  exact ⟨eq_cw_iff.2 ⟨rfl, ht, hm, h, hd, ha, hb, hk⟩, by simpa [hb, hk] using hx⟩
theorem bararr_wordOf {f : Fields} {i : Instr} (ho : f.opc.toNat = 0x301) (h : decSync f = .ok i) : WordOf i f := by
  simp only [decSync, ho, bind_eq_ok, Prod.exists, clsOf_eq_ok, Reg.dec_eq_ok, Src.dec_eq_ok, Except.ok.injEq] at h
  obtain ⟨c, sp, hc, cls, rfl, d, hd, a, ha, b, hb, rfl⟩ := h
  obtain ⟨hf, hw⟩ := bar_parts hc hd ha hb
  rw [opc_eq ho] at hf
  exact ⟨congrArg some hf.symm, hw⟩
theorem bartx_wordOf {f : Fields} {i : Instr} (ho : f.opc.toNat = 0x302) (h : decSync f = .ok i) : WordOf i f := by
  simp only [decSync, ho, bind_eq_ok, Prod.exists, clsOf_eq_ok, Reg.dec_eq_ok, Src.dec_eq_ok, Except.ok.injEq] at h
  obtain ⟨c, sp, hc, cls, rfl, d, hd, a, ha, b, hb, rfl⟩ := h
  obtain ⟨hf, hw⟩ := bar_parts hc hd ha hb
  rw [opc_eq ho] at hf
  exact ⟨congrArg some hf.symm, hw⟩
theorem bwait_wordOf {f : Fields} {i : Instr} (ho : f.opc.toNat = 0x303) (h : decSync f = .ok i) : WordOf i f := by
  simp only [decSync, ho, bind_eq_ok, clsOfSub_eq_ok, Reg.dec_eq_ok, Src.dec_eq_ok, Except.ok.injEq] at h
  obtain ⟨c, hc, cls, hs, d, hd, a, ha, b, hb, rfl⟩ := h
  obtain ⟨hc, ht, hm⟩ := waitPlain_eq_ok hc
  obtain ⟨h, ⟨-, hk⟩, hx⟩ := (ctl_d_a hd ha).1 hc
  rw [OpK.ok_none] at hk
  rw [hs] at hm
  have hw : c.ok (d.indexed || a.indexed || b.indexed) = true := by simpa [hb, hk] using hx
  exact ⟨congrArg some (eq_cw_iff.2 ⟨opc_eq ho, ht, hm, h, hd, ha, hb, hk⟩).symm, hw⟩
theorem btest_wordOf {f : Fields} {i : Instr} (ho : f.opc.toNat = 0x304) (h : decSync f = .ok i) : WordOf i f := by
  simp only [decSync, ho, bind_eq_ok, must_eq_ok, clsOfSub_eq_ok, Reg.dec_eq_ok, Src.dec_eq_ok, Except.ok.injEq] at h
  obtain ⟨c, hc, cls, hs, _, htx, d, hd, a, ha, b, hb, p, hp, rfl⟩ := h
  obtain ⟨hc, ht, hm⟩ := waitPlain_eq_ok hc
  obtain ⟨h, ⟨-, hk⟩, hx⟩ := (ctl_d_a hd ha).1 hc
  rw [OpK.ok_pred] at hk
  rw [hs, eq_of_beq htx] at hm
  have hp := Pred.eq_enc_iff.2 ⟨hp, hk⟩
  have hw : c.ok (d.indexed || a.indexed || b.indexed) = true := by simpa [hb, hk] using hx
  exact ⟨congrArg some (eq_cw_iff.2 ⟨opc_eq ho, ht, hm, h, hd, ha, hb, hp⟩).symm, hw⟩
theorem pinit_wordOf {f : Fields} {i : Instr} (ho : f.opc.toNat = 0x305) (h : decSync f = .ok i) : WordOf i f := by
  simp only [decSync, ho, bind_eq_ok, must_eq_ok, Prod.exists, Src.dec_eq_ok, Except.ok.injEq] at h
  obtain ⟨c, sp, hc, _, hsp, a, ha, rfl⟩ := h
  obtain rfl := eq_of_beq hsp
  obtain ⟨hc, ht, hm⟩ := memPlain_eq_ok hc
  obtain ⟨h, ⟨hd, -, hb, hk⟩, hx⟩ := Fields.ctl_eq_ok.1 hc
  rw [OpK.ok_none] at hd hb hk
  have hw : c.ok a.indexed = true := by simpa [hd, ha, hb, hk] using hx
  exact ⟨congrArg some (eq_cw_iff.2 ⟨opc_eq ho, ht, hm, h, hd, ha, hb, hk⟩).symm, hw⟩
theorem pfill_wordOf {f : Fields} {i : Instr} (ho : f.opc.toNat = 0x306) (h : decSync f = .ok i) : WordOf i f := by
  simp only [decSync, ho, bind_eq_ok, must_eq_ok, Prod.exists, Src.dec_eq_ok, Except.ok.injEq] at h
  obtain ⟨c, sp, hc, _, hsp, a, ha, b, hb, rfl⟩ := h
  obtain rfl := eq_of_beq hsp
  obtain ⟨hc, ht, hm⟩ := memPlain_eq_ok hc
  obtain ⟨h, ⟨hd, -, -, hk⟩, hx⟩ := Fields.ctl_eq_ok.1 hc
  rw [OpK.ok_none] at hd hk
  have hw : c.ok (a.indexed || b.indexed) = true := by simpa [hd, ha, hb, hk] using hx
  exact ⟨congrArg some (eq_cw_iff.2 ⟨opc_eq ho, ht, hm, h, hd, ha, hb, hk⟩).symm, hw⟩
theorem peq_wordOf {f : Fields} {i : Instr} (ho : f.opc.toNat = 0x307) (h : decSync f = .ok i) : WordOf i f := by
  simp only [decSync, ho, bind_eq_ok, plainR_eq_ok, Reg.dec_eq_ok, Src.dec_eq_ok, Except.ok.injEq] at h
  obtain ⟨c, ⟨ht, hm, hc⟩, d, hd, a, ha, b, hb, p, hp, rfl⟩ := h
  obtain ⟨h, ⟨-, hk⟩, hx⟩ := (ctl_d_a hd ha).1 hc
  rw [OpK.ok_pred] at hk
  have hp := Pred.eq_enc_iff.2 ⟨hp, hk⟩
  have hw : c.ok (d.indexed || a.indexed || b.indexed) = true := by simpa [hb, hk] using hx
  exact ⟨congrArg some (eq_cw_iff.2 ⟨opc_eq ho, ht, hm, h, hd, ha, hb, hp⟩).symm, hw⟩
theorem pwait_wordOf {f : Fields} {i : Instr} (ho : f.opc.toNat = 0x308) (h : decSync f = .ok i) : WordOf i f := by
  simp only [decSync, ho, bind_eq_ok, must_eq_ok, Vec.dec_eq_ok, Src.dec_eq_ok, Except.ok.injEq] at h
  obtain ⟨c, hc, _, hs, d, hd, a, ha, rfl⟩ := h
  obtain ⟨hc, ht, hm⟩ := waitPlain_eq_ok hc
  obtain ⟨h, ⟨-, -, hb, hk⟩, hx⟩ := Fields.ctl_eq_ok.1 hc
  rw [OpK.ok_none] at hb hk
  rw [eq_of_beq hs] at hm
  have hw : c.ok (d.indexed || a.indexed) = true := by simpa [hd, ha, hb, hk] using hx
  exact ⟨congrArg some (eq_cw_iff.2 ⟨opc_eq ho, ht, hm, h, hd, ha, hb, hk⟩).symm, hw⟩
theorem pget_wordOf {f : Fields} {i : Instr} (ho : f.opc.toNat = 0x309) (h : decSync f = .ok i) : WordOf i f := by
  simp only [decSync, ho, bind_eq_ok, must_eq_ok, Vec.dec_eq_ok, Src.dec_eq_ok, Except.ok.injEq, Bool.and_eq_true] at h
  obtain ⟨c, hc, _, ⟨hs, htx⟩, d, hd, a, ha, p, hp, rfl⟩ := h
  obtain ⟨hc, ht, hm⟩ := waitPlain_eq_ok hc
  obtain ⟨h, ⟨-, -, hb, hk⟩, hx⟩ := Fields.ctl_eq_ok.1 hc
  rw [OpK.ok_none] at hb
  rw [OpK.ok_pred] at hk
  rw [eq_of_beq hs, eq_of_beq htx] at hm
  have hp := Pred.eq_enc_iff.2 ⟨hp, hk⟩
  have hw : c.ok (d.indexed || a.indexed) = true := by simpa [hd, ha, hb, hk] using hx
  exact ⟨congrArg some (eq_cw_iff.2 ⟨opc_eq ho, ht, hm, h, hd, ha, hb, hp⟩).symm, hw⟩

theorem decSync_wordOf {f : Fields} {i : Instr} (h : decSync f = .ok i) : WordOf i f := by
  have h' := h
  unfold decSync at h
  dsimp only at h
  split at h
  case h_1 ho => exact barinit_wordOf ho h'
  case h_2 ho => exact bararr_wordOf ho h'
  case h_3 ho => exact bartx_wordOf ho h'
  case h_4 ho => exact bwait_wordOf ho h'
  case h_5 ho => exact btest_wordOf ho h'
  case h_6 ho => exact pinit_wordOf ho h'
  case h_7 ho => exact pfill_wordOf ho h'
  case h_8 ho => exact peq_wordOf ho h'
  case h_9 ho => exact pwait_wordOf ho h'
  case h_10 ho => exact pget_wordOf ho h'
  case h_11 ho => exact plain1_wordOf ho h (by intros; rfl) (by intros; rfl)
  case h_12 => cases h

end Sys2Proof
end


section
/-! Conversion, tag, group, handle and engine opcodes: what decodes is the word of its instruction (spec 07_encoding R88, R98,
Tables 7.5 and 7.10). -/
namespace Sys2Proof

/-- The parts of a word of form R with fields D and A, that does not round: SUB stays to be named. -/
theorem r_parts {f : Fields} {kd ka kb kc : OpK} {c : Ctl} (hc : f.ri .r kd ka kb kc false plainImmOk = .ok c) :
    f.mod = mr 0 (ModR.of f.mod).sub ∧ f.ctl kd ka kb kc = .ok c := by
  obtain ⟨r, hr, ⟨s, hm⟩, hc⟩ := ri_r_eq_ok.1 hc
  obtain rfl : r = .rne := by simpa using hr
  refine ⟨?_, hc⟩
  rw [hm, ModR.of_mr]
  rfl
/-- The same with a value destination and one source. -/
theorem r1_parts {f : Fields} {c : Ctl} {d : Reg} {a : Src} (hc : f.ri .r .val .val .none .none false plainImmOk = .ok c)
    (hd : f.d = d.enc) (ha : f.a = a.enc) :
    f = cw c f.opc d.enc a.enc 0 0 f.ty (mr 0 (ModR.of f.mod).sub) ∧ c.ok (d.indexed || a.indexed) = true := by
  obtain ⟨hm, hc⟩ := r_parts hc
  obtain ⟨h, ⟨hb, hk⟩, hx⟩ := (ctl_d_a hd ha).1 hc
  rw [OpK.ok_none] at hb hk
  exact ⟨eq_cw_iff.2 ⟨rfl, rfl, hm, h, hd, ha, hb, hk⟩, by simpa [hb, hk] using hx⟩

/-! ### Conversions and tags -/

theorem cvt_sub {s : BitVec 8} (h : (s.extractLsb' 6 2 == (0#2)) = true) :
    0#2 ++ BitVec.ofBool (s.getLsbD 5) ++ s.extractLsb' 0 5 = s := by revert s; decide
theorem cvt_wordOf {f : Fields} {i : Instr} (ho : f.opc.toNat = 0x200) (h : decConvert f = .ok i) : WordOf i f := by
  simp only [decConvert, ho, bind_eq_ok, must_eq_ok, type_eq_ok, known_eq_ok, Ty.ofCode_eq_some, ri_r_eq_ok, Reg.dec_eq_ok, Src.dec_eq_ok,
    Except.ok.injEq, Bool.and_eq_true] at h
  obtain ⟨t, ⟨_, ht, ⟨⟩⟩, src, hsrc, _, ⟨hs, hcvt⟩, c, ⟨r, -, ⟨s, hm⟩, hc⟩, d, hd, a, ha, rfl⟩ := h
  obtain ⟨h, ⟨hb, hk⟩, hx⟩ := (ctl_d_a hd ha).1 hc
  rw [OpK.ok_none] at hb hk
  rw [hm, ModR.of_mr] at hsrc hs hcvt ⊢
  dsimp only at hsrc hs hcvt ⊢
  rw [Rnd.ofCode_eq.2 rfl]
  rw [← cvt_sub hs, hsrc] at hm
  have hw : (c.ok (d.indexed || a.indexed) && cvtOk t src (s.getLsbD 5)) = true := by
    rw [hcvt]
    simpa [hb, hk] using hx
  exact ⟨congrArg some (eq_cw_iff.2 ⟨opc_eq ho, ht, hm, h, hd, ha, hb, hk⟩).symm, hw⟩
theorem cvtpk_wordOf {f : Fields} {i : Instr} (ho : f.opc.toNat = 0x201) (h : decConvert f = .ok i) : WordOf i f := by
  simp only [decConvert, ho, bind_eq_ok, must_eq_ok, type_eq_ok, QTy.of_eq_some, Reg.dec_eq_ok, Vec.dec_eq_ok, Src.dec_eq_ok,
    Except.ok.injEq] at h
  obtain ⟨t, ⟨_, ht, rfl⟩, _, hs, c, hc, d, hd, a, ha, b, hb, rfl⟩ := h
  obtain ⟨hm, hc⟩ := r_parts hc
  obtain ⟨h, ⟨-, -, -, hk⟩, hx⟩ := Fields.ctl_eq_ok.1 hc
  rw [OpK.ok_none] at hk
  rw [eq_of_beq hs] at hm
  have hw : c.ok (d.indexed || a.indexed || b.indexed) = true := by simpa [hd, ha, hb, hk] using hx
  exact ⟨congrArg some (eq_cw_iff.2 ⟨opc_eq ho, ht, hm, h, hd, ha, hb, hk⟩).symm, hw⟩
theorem cvtxp_wordOf {f : Fields} {i : Instr} (ho : f.opc.toNat = 0x202) (h : decConvert f = .ok i) : WordOf i f := by
  simp only [decConvert, ho, bind_eq_ok, must_eq_ok, type_eq_ok, QTy.of_eq_some, Vec.dec_eq_ok, Src.dec_eq_ok,
    Except.ok.injEq] at h
  obtain ⟨t, ⟨_, ht, rfl⟩, _, hs, c, hc, d, hd, a, ha, b, hb, rfl⟩ := h
  obtain ⟨hm, hc⟩ := r_parts hc
  obtain ⟨h, ⟨-, -, -, hk⟩, hx⟩ := Fields.ctl_eq_ok.1 hc
  rw [OpK.ok_none] at hk
  rw [eq_of_beq hs] at hm
  have hw : c.ok (d.indexed || a.indexed || b.indexed) = true := by simpa [hd, ha, hb, hk] using hx
  exact ⟨congrArg some (eq_cw_iff.2 ⟨opc_eq ho, ht, hm, h, hd, ha, hb, hk⟩).symm, hw⟩
/-- The code of a tag that SUB names. -/
theorem code_ofCode {s : BitVec 8} (h : s.toNat ≤ 13) :
    BitVec.ofNat 8 (Tag.ofCode s.toNat).code = s ∧ (Tag.ofCode s.toNat).code = s.toNat := by
  revert h
  revert s
  decide
theorem box_wordOf {f : Fields} {i : Instr} (ho : f.opc.toNat = 0x203) (h : decConvert f = .ok i) : WordOf i f := by
  have wf {c : Ctl} {d : Reg} {a : Src} (x : BoxForm) (hx : c.ok (d.indexed || a.indexed) = true) (hx' : x.ok = true) :
      (c.ok (d.indexed || a.indexed) && x.ok) = true := by rw [hx, hx']; rfl
  simp only [decConvert, ho] at h
  split at h
  next ht =>
    simp only [bind_eq_ok, must_eq_ok, Reg.dec_eq_ok, Src.dec_eq_ok, Except.ok.injEq, Bool.and_eq_true, decide_eq_true_eq] at h
    obtain ⟨_, ⟨h1, h13⟩, _, rfl, c, hc, d, hd, a, ha, rfl⟩ := h
    obtain ⟨hf, hx⟩ := r1_parts hc hd ha
    obtain ⟨hs, hn⟩ := code_ofCode h13
    rw [opc_eq ho, ht, ← hs] at hf
    exact ⟨congrArg some hf.symm, wf (.ofTag _) hx (by simpa [BoxForm.ok, Tag.boxOk, hn] using ⟨h1, h13⟩)⟩
  next =>
    simp only [bind_eq_ok, must_eq_ok, type_eq_ok, Reg.dec_eq_ok, Src.dec_eq_ok, Except.ok.injEq, Bool.and_eq_true] at h
    obtain ⟨t, ⟨_, ht, ⟨⟩⟩, _, ⟨hb, hs⟩, _, rfl, c, hc, d, hd, a, ha, rfl⟩ := h
    obtain ⟨hf, hx⟩ := r1_parts hc hd ha
    rw [opc_eq ho, ht, eq_of_beq hs] at hf
    exact ⟨congrArg some hf.symm, wf (.ofType t) hx hb⟩
theorem tagset_wordOf {f : Fields} {i : Instr} (ho : f.opc.toNat = 0x206) (h : decConvert f = .ok i) : WordOf i f := by
  simp only [decConvert, ho, bind_eq_ok, must_eq_ok, Reg.dec_eq_ok, Src.dec_eq_ok, Except.ok.injEq, Bool.and_eq_true, decide_eq_true_eq] at h
  obtain ⟨_, ⟨ht, h13⟩, c, hc, d, hd, a, ha, rfl⟩ := h
  obtain ⟨hf, hx⟩ := r1_parts hc hd ha
  obtain ⟨hs, hn⟩ := code_ofCode h13
  rw [opc_eq ho, eq_of_beq ht, ← hs] at hf
  have hw : (c.ok (d.indexed || a.indexed) && (Tag.ofCode (ModR.of f.mod).sub.toNat).setOk) = true := by
    rw [hx]
    simpa [Tag.setOk, hn] using h13
  exact ⟨congrArg some hf.symm, hw⟩
/-- An immediate whose upper bits are zero is its lower bits. -/
theorem setWidth_low {i : BitVec 32} {n m : Nat} (hn : n + m = 32) (h : i.extractLsb' n m = 0#m) :
    (i.extractLsb' 0 n).setWidth 32 = i := by
  apply BitVec.eq_of_getLsbD_eq
  intro k hk
  simp only [BitVec.getLsbD_setWidth, BitVec.getLsbD_extractLsb', Nat.zero_add, hk, decide_true, Bool.true_and]
  by_cases hkn : k < n
  · simp [hkn]
  · have hz := congrArg (fun x => BitVec.getLsbD x (k - n)) h
    simp only [BitVec.getLsbD_extractLsb', BitVec.getLsbD_zero, Bool.and_eq_false_imp, decide_eq_true_eq] at hz
    have := hz (by omega)
    rw [show n + (k - n) = k by omega] at this
    simp [hkn, this]
theorem tagchk_wordOf {f : Fields} {i : Instr} (ho : f.opc.toNat = 0x207) (h : decConvert f = .ok i) : WordOf i f := by
  simp only [decConvert, ho, bind_eq_ok, must_eq_ok, type_sub_zero, ri_i_eq_ok, Src.dec_eq_ok, Except.ok.injEq] at h
  obtain ⟨_, ⟨ht, hs⟩, c, ⟨r, hr, ⟨t, s, im, hm, hi⟩, hc⟩, d, hd, a, ha, rfl⟩ := h
  obtain ⟨h, ⟨hp, -, hb, hk⟩, hx⟩ := Fields.ctl_eq_ok.1 hc
  obtain rfl : r = .rne := by simpa using hr
  simp only [Bool.and_eq_true] at hi
  obtain ⟨hi0, hi⟩ := hi
  obtain rfl := eq_of_beq hi0
  rw [hm, ModR.of_mi] at hs ⊢
  dsimp only at hs ⊢
  subst hs
  rw [OpK.ok_none] at hb hk
  rw [OpK.ok_pred] at hp
  rw [← setWidth_low (n := 16) rfl (eq_of_beq hi)] at hm
  have hd := Pred.eq_enc_iff.2 ⟨hd, hp⟩
  have hw : c.ok a.indexed = true := by simpa [hd, ha, hb, hk] using hx
  exact ⟨congrArg some (eq_cw_iff.2 ⟨opc_eq ho, ht, hm, h, hd, ha, hb, hk⟩).symm, hw⟩

theorem decConvert_wordOf {f : Fields} {i : Instr} (h : decConvert f = .ok i) : WordOf i f := by
  have h' := h
  unfold decConvert at h
  dsimp only at h
  split at h
  case h_1 ho => exact cvt_wordOf ho h'
  case h_2 ho => exact cvtpk_wordOf ho h'
  case h_3 ho => exact cvtxp_wordOf ho h'
  case h_4 ho => exact box_wordOf ho h'
  case h_5 ho | h_6 ho => exact plain1_wordOf ho h (by intros; rfl) (by intros; rfl)
  case h_7 ho => exact tagset_wordOf ho h'
  case h_8 ho => exact tagchk_wordOf ho h'
  case h_9 => cases h

/-! ### Group operations -/

/-- VOTE with two predicates. -/
theorem vote2_parts {f : Fields} {c : Ctl} {d a : Pred} (hc : f.ri .r .pred .pred .none .none false plainImmOk = .ok c)
    (hd : Pred.dec f.d = .ok d) (ha : Pred.dec f.a = .ok a) :
    f = cw c f.opc (Pred.enc d) (Pred.enc a) 0 0 f.ty (mr 0 (ModR.of f.mod).sub) ∧ c.ok false = true := by
  obtain ⟨hm, hc⟩ := r_parts hc
  obtain ⟨h, ⟨hpd, hpa, hb, hk⟩, hx⟩ := Fields.ctl_eq_ok.1 hc
  rw [OpK.ok_none] at hb hk
  rw [OpK.ok_pred] at hpd hpa
  exact ⟨eq_cw_iff.2 ⟨rfl, rfl, hm, h, Pred.eq_enc_iff.2 ⟨hd, hpd⟩, Pred.eq_enc_iff.2 ⟨ha, hpa⟩, hb, hk⟩,
    by simpa [hpd, hpa, hb, hk] using hx⟩
theorem sub_eq {f : Fields} {n : Nat} (h : (ModR.of f.mod).sub.toNat = n) : (ModR.of f.mod).sub = BitVec.ofNat 8 n := by
  rw [← h, BitVec.ofNat_toNat, BitVec.setWidth_eq]
theorem vote_wordOf {f : Fields} {i : Instr} (ho : f.opc.toNat = 0x340) (h : decGroup f = .ok i) : WordOf i f := by
  simp only [decGroup, ho, bind_eq_ok, must_eq_ok] at h
  obtain ⟨_, ht, h⟩ := h
  have ht := eq_of_beq ht
  split at h
  case h_1 hs =>
    simp only [bind_eq_ok, Except.ok.injEq] at h
    obtain ⟨c, hc, d, hd, a, ha, rfl⟩ := h
    obtain ⟨hf, hw⟩ := vote2_parts hc hd ha
    rw [opc_eq ho, ht, sub_eq hs] at hf
    exact ⟨congrArg some hf.symm, hw⟩
  case h_2 hs =>
    simp only [bind_eq_ok, Except.ok.injEq] at h
    obtain ⟨c, hc, d, hd, a, ha, rfl⟩ := h
    obtain ⟨hf, hw⟩ := vote2_parts hc hd ha
    rw [opc_eq ho, ht, sub_eq hs] at hf
    exact ⟨congrArg some hf.symm, hw⟩
  case h_3 hs =>
    simp only [bind_eq_ok, Reg.dec_eq_ok, Except.ok.injEq] at h
    obtain ⟨c, hc, d, hd, a, ha, rfl⟩ := h
    obtain ⟨hm, hc⟩ := r_parts hc
    obtain ⟨h, ⟨-, hpa, hb, hk⟩, hx⟩ := Fields.ctl_eq_ok.1 hc
    rw [OpK.ok_none] at hb hk
    rw [OpK.ok_pred] at hpa
    rw [sub_eq hs] at hm
    have ha := Pred.eq_enc_iff.2 ⟨ha, hpa⟩
    have hw : c.ok d.indexed = true := by simpa [hd, ha, hb, hk] using hx
    exact ⟨congrArg some (eq_cw_iff.2 ⟨opc_eq ho, ht, hm, h, hd, ha, hb, hk⟩).symm, hw⟩
  case h_4 hs =>
    simp only [bind_eq_ok, Src.dec_eq_ok, Except.ok.injEq] at h
    obtain ⟨c, hc, d, hd, a, ha, rfl⟩ := h
    obtain ⟨hm, hc⟩ := r_parts hc
    obtain ⟨h, ⟨hpd, -, hb, hk⟩, hx⟩ := Fields.ctl_eq_ok.1 hc
    rw [OpK.ok_none] at hb hk
    rw [OpK.ok_pred] at hpd
    rw [sub_eq hs] at hm
    have hd := Pred.eq_enc_iff.2 ⟨hd, hpd⟩
    have hw : c.ok a.indexed = true := by simpa [hd, ha, hb, hk] using hx
    exact ⟨congrArg some (eq_cw_iff.2 ⟨opc_eq ho, ht, hm, h, hd, ha, hb, hk⟩).symm, hw⟩
  case h_5 => cases h

/-- SUB of SHFL, from what the decoder reads of it. -/
theorem shfl_sub {s : BitVec 8} (h : (s.extractLsb' 2 5 == (0#5)) = true) :
    BitVec.ofBool (s.getLsbD 7) ++ 0#5 ++ s.extractLsb' 0 2 = s := by revert s; decide
/-- Operand B of SHFL, from what the decoder reads of the word. -/
def shflB : TSrc → ShflB
  | .reg s => .reg s
  | .imm i => .imm (i.extractLsb' 0 5)
theorem shflB_src {b : TSrc} (h : ∀ i, b = .imm i → i.extractLsb' 5 27 = 0#27) : (shflB b).src = b := by
  cases b with
  | reg s => rfl
  | imm i => exact congrArg TSrc.imm (setWidth_low (n := 5) rfl (h i rfl))
theorem shfl_wordOf {f : Fields} {i : Instr} (ho : f.opc.toNat = 0x341) (h : decGroup f = .ok i) : WordOf i f := by
  simp only [decGroup, ho, bind_eq_ok, must_eq_ok, Bool.and_eq_true, Reg.dec_eq_ok, Src.dec_eq_ok] at h
  obtain ⟨_, ⟨ht, hs⟩, c, hc, d, hd, a, ha, b, hb, h⟩ := h
  obtain ⟨r, hr, hi, ⟨s, hm⟩, hb, hc⟩ := (ri_tsrc_eq_ok fun t i h => eq_of_beq (Bool.and_eq_true _ _ ▸ h).1).1 ⟨hc, hb⟩
  obtain ⟨h', ⟨-, hk⟩, hx⟩ := (ctl_d_a hd ha).1 hc
  obtain rfl : r = .rne := by simpa using hr
  rw [hm, TSrc.modR_sub] at hs hk h
  have hsrc : (shflB b).src = b := shflB_src fun i e => by simpa using hi i e
  have hmode := ShflMode.ofCode_eq.1 (rfl : ShflMode.ofCode (s.extractLsb' 0 2) = _)
  have hix : (shflB b).indexed = b.indexed := by cases b <;> rfl
  have word (pv : Option Pred) (hp : s.getLsbD 7 = pv.isSome) (hk : f.c = predOr pv) :
      WordOf (.shfl c (.ofCode (s.extractLsb' 0 2)) d a (shflB b) pv) f := by
    have hpv : ixBit (predOr pv) = false := by
      cases pv with
      | none => exact ixBit_zero
      | some p => exact ixBit_pred p
    have hw : c.ok (d.indexed || a.indexed || (shflB b).indexed) = true := by simpa [hb, hk, hpv, hix] using hx
    refine ⟨congrArg some (eq_cw_iff.2 ⟨opc_eq ho, eq_of_beq ht, ?_, h', hd, ha, ?_, hk⟩).symm, hw⟩
    · rw [hsrc, ← hp, ← hmode, shfl_sub hs]
      exact hm
    · rw [hsrc]
      exact hb
  split at h
  next h7 =>
    simp only [bind_eq_ok, Except.ok.injEq] at h
    obtain ⟨p, hp, rfl⟩ := h
    rw [if_pos h7, OpK.ok_pred] at hk
    have := word (some p) h7 (Pred.eq_enc_iff.2 ⟨hp, hk⟩)
    cases b <;> exact this
  next h7 =>
    cases h
    rw [if_neg h7, OpK.ok_none] at hk
    have := word none (Bool.eq_false_iff.2 h7) hk
    cases b <;> exact this
theorem gred_sub {s : BitVec 8} (h : (s.extractLsb' 3 5 == (0#5)) = true) : 0#5 ++ s.extractLsb' 0 3 = s := by
  revert s; decide
theorem gscan_sub {s : BitVec 8} (h : (s.extractLsb' 4 4 == (0#4)) = true) :
    0#4 ++ BitVec.ofBool (s.getLsbD 3) ++ s.extractLsb' 0 3 = s := by revert s; decide
theorem gred_wordOf {f : Fields} {i : Instr} (ho : f.opc.toNat = 0x342) (h : decGroup f = .ok i) : WordOf i f := by
  simp only [decGroup, ho, bind_eq_ok, must_eq_ok, type_eq_ok, known_eq_ok, RedOp.ofCode_eq_some, Bool.and_eq_true, Reg.dec_eq_ok,
    Src.dec_eq_ok, Except.ok.injEq] at h
  obtain ⟨t, ⟨_, ht, ⟨⟩⟩, op, hop, _, ⟨hs, hty⟩, c, hc, d, hd, a, ha, rfl⟩ := h
  obtain ⟨hf, hx⟩ := r1_parts hc hd ha
  rw [opc_eq ho, ht, ← gred_sub hs, hop] at hf
  have hw : (c.ok (d.indexed || a.indexed) && op.tyOk t) = true := by rw [hx, hty]; rfl
  exact ⟨congrArg some hf.symm, hw⟩
theorem gscan_wordOf {f : Fields} {i : Instr} (ho : f.opc.toNat = 0x343) (h : decGroup f = .ok i) : WordOf i f := by
  simp only [decGroup, ho, bind_eq_ok, must_eq_ok, type_eq_ok, known_eq_ok, RedOp.ofCode_eq_some, Bool.and_eq_true, Reg.dec_eq_ok,
    Src.dec_eq_ok, Except.ok.injEq] at h
  obtain ⟨t, ⟨_, ht, ⟨⟩⟩, op, hop, _, ⟨hs, hty⟩, c, hc, d, hd, a, ha, rfl⟩ := h
  obtain ⟨hf, hx⟩ := r1_parts hc hd ha
  rw [opc_eq ho, ht, ← gscan_sub hs, hop] at hf
  have hw : (c.ok (d.indexed || a.indexed) && op.tyOk t) = true := by rw [hx, hty]; rfl
  exact ⟨congrArg some hf.symm, hw⟩
theorem mtch_wordOf {f : Fields} {i : Instr} (ho : f.opc.toNat = 0x344) (h : decGroup f = .ok i) : WordOf i f := by
  simp only [decGroup, ho, bind_eq_ok, must_eq_ok, Bool.and_eq_true, Reg.dec_eq_ok, Src.dec_eq_ok, Except.ok.injEq] at h
  obtain ⟨_, ⟨ht, hs⟩, c, hc, d, hd, a, ha, rfl⟩ := h
  obtain ⟨hf, hx⟩ := r1_parts hc hd ha
  rw [opc_eq ho, eq_of_beq ht, ← boolBit_beq_one hs] at hf
  exact ⟨congrArg some hf.symm, hx⟩
theorem elect_wordOf {f : Fields} {i : Instr} (ho : f.opc.toNat = 0x345) (h : decGroup f = .ok i) : WordOf i f := by
  simp only [decGroup, ho, bind_eq_ok, plainR_eq_ok, Except.ok.injEq] at h
  obtain ⟨c, ⟨ht, hm, hc⟩, d, hd, rfl⟩ := h
  obtain ⟨h, ⟨hp, ha, hb, hk⟩, hx⟩ := Fields.ctl_eq_ok.1 hc
  rw [OpK.ok_none] at ha hb hk
  rw [OpK.ok_pred] at hp
  have hw : c.ok false = true := by simpa [hp, ha, hb, hk] using hx
  exact ⟨congrArg some (eq_cw_iff.2 ⟨opc_eq ho, ht, hm, h, Pred.eq_enc_iff.2 ⟨hd, hp⟩, ha, hb, hk⟩).symm, hw⟩

theorem decGroup_wordOf {f : Fields} {i : Instr} (h : decGroup f = .ok i) : WordOf i f := by
  have h' := h
  unfold decGroup at h
  dsimp only at h
  split at h
  case h_1 ho => exact vote_wordOf ho h'
  case h_2 ho => exact shfl_wordOf ho h'
  case h_3 ho => exact gred_wordOf ho h'
  case h_4 ho => exact gscan_wordOf ho h'
  case h_5 ho => exact mtch_wordOf ho h'
  case h_6 ho => exact elect_wordOf ho h'
  case h_7 => cases h

/-! ### Handles -/

theorem seal_wordOf {f : Fields} {i : Instr} (ho : f.opc.toNat = 0x380) (h : decHandles f = .ok i) : WordOf i f := by
  simp only [decHandles, ho, bind_eq_ok, must_eq_ok, Prod.exists, mem_eq_ok, Bool.and_eq_true, Reg.dec_eq_ok, Src.dec_eq_ok,
    Except.ok.injEq] at h
  obtain ⟨c, sp, o, ⟨hc, hm⟩, _, ⟨⟨⟨⟨⟨ht, hsp⟩, hord⟩, hh⟩, hobj⟩, hs⟩, d, hd, a, ha, rfl⟩ := h
  obtain ⟨h, ⟨hb, hk⟩, hx⟩ := (ctl_d_a hd ha).1 hc
  rw [OpK.ok_none] at hb hk
  have hm := mod_eq_mm_plain hm (eq_of_beq hh)
  rw [eq_of_beq hobj, eq_of_beq hs] at hm
  have hw : (c.ok (d.indexed || a.indexed) && sp.noCore && o.sealOk) = true := by
    rw [hsp, hord]
    simpa [hb, hk] using hx
  exact ⟨congrArg some (eq_cw_iff.2 ⟨opc_eq ho, eq_of_beq ht, hm, h, hd, ha, hb, hk⟩).symm, hw⟩
theorem unseal_wordOf {f : Fields} {i : Instr} (ho : f.opc.toNat = 0x381) (h : decHandles f = .ok i) : WordOf i f := by
  simp only [decHandles, ho, bind_eq_ok, plainR_eq_ok, Src.dec_eq_ok, Except.ok.injEq] at h
  obtain ⟨c, ⟨ht, hm, hc⟩, a, ha, rfl⟩ := h
  obtain ⟨h, ⟨hd, -, hb, hk⟩, hx⟩ := Fields.ctl_eq_ok.1 hc
  rw [OpK.ok_none] at hd hb hk
  have hw : c.ok a.indexed = true := by simpa [hd, ha, hb, hk] using hx
  exact ⟨congrArg some (eq_cw_iff.2 ⟨opc_eq ho, ht, hm, h, hd, ha, hb, hk⟩).symm, hw⟩
theorem hinfo_wordOf {f : Fields} {i : Instr} (ho : f.opc.toNat = 0x382) (h : decHandles f = .ok i) : WordOf i f := by
  simp only [decHandles, ho, bind_eq_ok, must_eq_ok, known_eq_ok, HField.ofCode_eq_some, Reg.dec_eq_ok, Src.dec_eq_ok, Except.ok.injEq] at h
  obtain ⟨_, ht, k, hk, c, hc, d, hd, a, ha, rfl⟩ := h
  obtain ⟨hf, hx⟩ := r1_parts hc hd ha
  rw [opc_eq ho, eq_of_beq ht, hk] at hf
  exact ⟨congrArg some hf.symm, hx⟩
theorem decHandles_wordOf {f : Fields} {i : Instr} (h : decHandles f = .ok i) : WordOf i f := by
  have h' := h
  unfold decHandles at h
  split at h
  case h_1 ho => exact seal_wordOf ho h'
  case h_2 ho => exact unseal_wordOf ho h'
  case h_3 ho => exact hinfo_wordOf ho h'
  case h_4 => cases h

end Sys2Proof
end


section
/-! Control, system and tile-stream opcodes: what decodes is the word of its instruction (spec 07_encoding R88, R93 to R96, R98). -/
namespace Sys2Proof

/-! ### Control -/

theorem uctl_eq_ok {f : Fields} {kd ka kb kc : OpK} {u : UCtl} :
    f.uctl kd ka kb kc = .ok u ↔ f.ctl kd ka kb kc = .ok ⟨u.sched, .always, u.ix⟩ := by
  obtain ⟨sc, ix⟩ := u
  simp only [Fields.uctl, bind_eq_ok, must_eq_ok, Except.ok.injEq, UCtl.mk.injEq, beq_iff_eq]
  constructor
  · rintro ⟨⟨s, g, x⟩, hc, _, hg, rfl, rfl⟩
    dsimp only at hg
    rwa [hg] at hc
  · exact fun hc => ⟨_, hc, (), rfl, rfl, rfl⟩
@[simp] theorem ctl_ok_always (u : UCtl) (b : Bool) : (Ctl.mk u.sched .always u.ix).ok b = u.ok b := rfl
/-- A control part whose guard is `always`. -/
theorem unguarded {c : Ctl} (h : (c.guard == .always) = true) : c = ⟨c.sched, .always, c.ix⟩ := by
  obtain ⟨s, g, x⟩ := c
  obtain rfl := eq_of_beq h
  rfl

/-- The word of an instruction with no field but the control part. -/
theorem plain0_parts {f : Fields} {c : Ctl} (hc : f.plainR .none .none .none .none = .ok c) :
    f = pw c f.opc 0 0 0 0 ∧ c.ok false = true := by
  obtain ⟨ht, hm, hc⟩ := plainR_eq_ok.1 hc
  obtain ⟨h, ⟨hd, ha, hb, hk⟩, hx⟩ := Fields.ctl_eq_ok.1 hc
  rw [OpK.ok_none] at hd ha hb hk
  exact ⟨eq_cw_iff.2 ⟨rfl, ht, hm, h, hd, ha, hb, hk⟩, by simpa [hd, ha, hb, hk] using hx⟩
/-- The same of a word with a 32-bit code. -/
theorem code_parts {f : Fields} {c : Ctl} (ht : (f.ty == 0 && (ModR.of f.mod).sub == 0) = true)
    (hc : f.ri .i .none .none .none .none false plainImmOk = .ok c) :
    f = cw c f.opc 0 0 0 0 0 (mi 0 0 0 (ModR.of f.mod).imm32) ∧ c.ok false = true := by
  obtain ⟨ht, hs⟩ := type_sub_zero.1 ht
  obtain ⟨r, hr, ⟨t, s, i, hm, hi⟩, hc⟩ := ri_i_eq_ok.1 hc
  obtain ⟨h, ⟨hd, ha, hb, hk⟩, hx⟩ := Fields.ctl_eq_ok.1 hc
  obtain rfl : r = .rne := by simpa using hr
  obtain rfl := plainImmOk_zero _ _ hi
  rw [hm, ModR.of_mi] at hs ⊢
  dsimp only at hs ⊢
  subst hs
  rw [OpK.ok_none] at hd ha hb hk
  exact ⟨eq_cw_iff.2 ⟨rfl, ht, hm, h, hd, ha, hb, hk⟩, by simpa [hd, ha, hb, hk] using hx⟩

theorem mj_of (m : BitVec 48) : mj (m.extractLsb' 24 24) (m.extractLsb' 0 24) = m := by
  apply BitVec.eq_of_getLsbD_eq
  intro i hi
  simp only [mj, BitVec.getLsbD_append, BitVec.getLsbD_extractLsb']
  grind

/-- The word of CWAIT and TWAIT. -/
theorem wait_parts {f : Fields} {c : UCtl} {g : BitVec 24} (hc : f.wait = .ok (c, g)) :
    f = uw c f.opc 0 0 0 0 0 (mw 0 g 0) ∧ c.ok false = true := by
  simp only [Fields.wait, bind_eq_ok, must_eq_ok, uctl_eq_ok, Except.ok.injEq, Prod.mk.injEq, Bool.and_eq_true] at hc
  obtain ⟨_, ⟨⟨⟨⟨ht, hz⟩, hs⟩, hz2⟩, htx⟩, c, hc, rfl, rfl⟩ := hc
  obtain ⟨h, ⟨hd, ha, hb, hk⟩, hx⟩ := Fields.ctl_eq_ok.1 hc
  rw [OpK.ok_none] at hd ha hb hk
  have hm := mod_eq_mw (eq_of_beq hz) (eq_of_beq hz2)
  rw [eq_of_beq hs, eq_of_beq htx] at hm
  exact ⟨eq_cw_iff.2 ⟨rfl, eq_of_beq ht, hm, h, hd, ha, hb, hk⟩, by simpa [hd, ha, hb, hk] using hx⟩
theorem cwait_arg (g : BitVec 24) : g.extractLsb' 18 6 ++ g.extractLsb' 12 6 ++ g.extractLsb' 6 6 ++ g.extractLsb' 0 6 = g := by
  apply BitVec.eq_of_getLsbD_eq
  intro i hi
  simp only [BitVec.getLsbD_append, BitVec.getLsbD_extractLsb']
  grind
theorem twait_arg {g : BitVec 24} (h : g.extractLsb' 8 16 = 0#16) : 0#16 ++ g.extractLsb' 0 8 = g := by
  rw [← h]
  apply BitVec.eq_of_getLsbD_eq
  intro i hi
  simp only [BitVec.getLsbD_append, BitVec.getLsbD_extractLsb']
  grind

theorem bra_wordOf {f : Fields} {i : Instr} (ho : f.opc.toNat = 0x001) (h : decControl f = .ok i) : WordOf i f := by
  simp only [decControl, ho, bind_eq_ok, must_eq_ok, Except.ok.injEq] at h
  obtain ⟨_, ht, c, hc, _, hg, rfl⟩ := h
  obtain ⟨h, ⟨hd, ha, hb, hk⟩, hx⟩ := Fields.ctl_eq_ok.1 hc
  rw [OpK.ok_none] at hd ha hb hk
  have hw : (c.ok false && braOk c.guard (f.mod.extractLsb' 0 24)) = true := by
    rw [hg]
    simpa [hd, ha, hb, hk] using hx
  exact ⟨congrArg some (eq_cw_iff.2 ⟨opc_eq ho, eq_of_beq ht, (mj_of f.mod).symm, h, hd, ha, hb, hk⟩).symm, hw⟩
theorem brx_wordOf {f : Fields} {i : Instr} (ho : f.opc.toNat = 0x002) (h : decControl f = .ok i) : WordOf i f := by
  simp only [decControl, ho, bind_eq_ok, must_eq_ok, Reg.dec_eq_ok, Except.ok.injEq, Bool.and_eq_true] at h
  obtain ⟨_, ⟨⟨ht, htoff⟩, hj⟩, c, hc, a, ha, rfl⟩ := h
  obtain ⟨h, ⟨hd, -, hb, hk⟩, hx⟩ := Fields.ctl_eq_ok.1 hc
  rw [OpK.ok_none] at hd hb hk
  have hm := (mj_of f.mod).symm
  rw [eq_of_beq htoff] at hm
  have hw : (c.ok a.indexed && f.mod.extractLsb' 0 24 != 0) = true := by
    rw [hj]
    simpa [hd, ha, hb, hk] using hx
  exact ⟨congrArg some (eq_cw_iff.2 ⟨opc_eq ho, eq_of_beq ht, hm, h, hd, ha, hb, hk⟩).symm, hw⟩
theorem call_wordOf {f : Fields} {i : Instr} (ho : f.opc.toNat = 0x003) (h : decControl f = .ok i) : WordOf i f := by
  simp only [decControl, ho, bind_eq_ok, must_eq_ok, Vec.dec_eq_ok, Except.ok.injEq, Bool.and_eq_true] at h
  obtain ⟨_, ⟨ht, hj⟩, c, hc, d, hd, rfl⟩ := h
  obtain ⟨h, ⟨-, ha, hb, hk⟩, hx⟩ := Fields.ctl_eq_ok.1 hc
  rw [OpK.ok_none] at ha hb hk
  have hm := (mj_of f.mod).symm
  rw [eq_of_beq hj] at hm
  have hw : c.ok d.indexed = true := by simpa [hd, ha, hb, hk] using hx
  exact ⟨congrArg some (eq_cw_iff.2 ⟨opc_eq ho, eq_of_beq ht, hm, h, hd, ha, hb, hk⟩).symm, hw⟩
theorem callx_wordOf {f : Fields} {i : Instr} (ho : f.opc.toNat = 0x004) (h : decControl f = .ok i) : WordOf i f := by
  simp only [decControl, ho, bind_eq_ok, must_eq_ok, Vec.dec_eq_ok, Reg.dec_eq_ok, Except.ok.injEq, Bool.and_eq_true] at h
  obtain ⟨_, ⟨⟨ht, htoff⟩, hj⟩, c, hc, d, hd, a, ha, rfl⟩ := h
  obtain ⟨h, ⟨-, -, hb, hk⟩, hx⟩ := Fields.ctl_eq_ok.1 hc
  rw [OpK.ok_none] at hb hk
  have hm := (mj_of f.mod).symm
  rw [eq_of_beq htoff, eq_of_beq hj] at hm
  have hw : c.ok (d.indexed || a.indexed) = true := by simpa [hd, ha, hb, hk] using hx
  exact ⟨congrArg some (eq_cw_iff.2 ⟨opc_eq ho, eq_of_beq ht, hm, h, hd, ha, hb, hk⟩).symm, hw⟩
theorem ret_wordOf {f : Fields} {i : Instr} (ho : f.opc.toNat = 0x005) (h : decControl f = .ok i) : WordOf i f := by
  simp only [decControl, ho, bind_eq_ok, must_eq_ok, plainR_eq_ok, Reg.dec_eq_ok, Except.ok.injEq] at h
  obtain ⟨c, ⟨ht, hm, hc⟩, _, hg, a, ha, rfl⟩ := h
  rw [unguarded hg] at hc
  obtain ⟨h, ⟨hd, -, hb, hk⟩, hx⟩ := Fields.ctl_eq_ok.1 hc
  rw [OpK.ok_none] at hd hb hk
  have hw : (UCtl.mk c.sched c.ix).ok a.indexed = true := by simpa [Ctl.ok, UCtl.ok, hd, ha, hb, hk] using hx
  exact ⟨congrArg some (eq_cw_iff.2 ⟨opc_eq ho, ht, hm, h, hd, ha, hb, hk⟩).symm, hw⟩

theorem decControl_wordOf {f : Fields} {i : Instr} (h : decControl f = .ok i) : WordOf i f := by
  have h' := h
  unfold decControl at h
  dsimp only at h
  split at h
  case h_1 ho | h_7 ho =>
    simp only [bind_eq_ok, Except.ok.injEq] at h
    obtain ⟨c, hc, rfl⟩ := h
    obtain ⟨hf, hw⟩ := plain0_parts hc
    rw [opc_eq ho] at hf
    exact ⟨congrArg some hf.symm, hw⟩
  case h_2 ho => exact bra_wordOf ho h'
  case h_3 ho => exact brx_wordOf ho h'
  case h_4 ho => exact call_wordOf ho h'
  case h_5 ho => exact callx_wordOf ho h'
  case h_6 ho => exact ret_wordOf ho h'
  case h_8 ho | h_11 ho =>
    simp only [bind_eq_ok, must_eq_ok, Except.ok.injEq] at h
    obtain ⟨_, ht, c, hc, rfl⟩ := h
    obtain ⟨hf, hw⟩ := code_parts ht hc
    rw [opc_eq ho] at hf
    exact ⟨congrArg some hf.symm, hw⟩
  case h_9 ho | h_10 ho =>
    simp only [bind_eq_ok, must_eq_ok, Except.ok.injEq] at h
    obtain ⟨c, hc, _, hg, rfl⟩ := h
    rw [unguarded hg] at hc
    obtain ⟨hf, hw⟩ := plain0_parts hc
    rw [opc_eq ho] at hf
    exact ⟨congrArg some hf.symm, hw⟩
  case h_12 ho =>
    simp only [bind_eq_ok, Prod.exists, Except.ok.injEq] at h
    obtain ⟨c, g, hc, rfl⟩ := h
    obtain ⟨hf, hw⟩ := wait_parts hc
    rw [opc_eq ho, ← cwait_arg g] at hf
    exact ⟨congrArg some hf.symm, hw⟩
  case h_13 ho =>
    simp only [bind_eq_ok, must_eq_ok, Prod.exists, Except.ok.injEq, Bool.and_eq_true] at h
    obtain ⟨c, g, hc, _, ⟨hz, hn⟩, rfl⟩ := h
    obtain ⟨hf, hw⟩ := wait_parts hc
    rw [opc_eq ho, ← twait_arg (eq_of_beq hz)] at hf
    have hw : (c.ok false && g.extractLsb' 0 8 != 0) = true := by rw [hw]; exact hn
    exact ⟨congrArg some hf.symm, hw⟩
  case h_14 => cases h

/-! ### System registers -/

/-- MOD of format S, from what its decoder has checked. -/
theorem mod_eq_ms {m : BitVec 48} (hz : (ModS.of m).z = 0) (hz2 : (ModS.of m).z2 = 0) : m = ms (ModS.of m).sub (ModS.of m).sreg := by
  simp only [ms, ← hz2]
  rw [show (0 : BitVec 8) = (ModS.of m).z from hz.symm]
  exact (ModS.bits_of m).symm
theorem sys_eq_ok {f : Fields} {kd ka : OpK} {c : Ctl} (h : f.sys kd ka = .ok c) :
    f.ctl kd ka .none .none = .ok c ∧ f.ty = 0 ∧ f.mod = ms (ModS.of f.mod).sub (ModS.of f.mod).sreg := by
  simp only [Fields.sys, bind_eq_ok, must_eq_ok, Bool.and_eq_true] at h
  obtain ⟨_, ⟨⟨ht, hz⟩, hz2⟩, hc⟩ := h
  exact ⟨hc, eq_of_beq ht, mod_eq_ms (eq_of_beq hz) (eq_of_beq hz2)⟩
/-- The word of an instruction with the parts of format S only. -/
theorem sys0_parts {f : Fields} {c : Ctl} (hc : f.sys .none .none = .ok c) :
    f = cw c f.opc 0 0 0 0 0 (ms (ModS.of f.mod).sub (ModS.of f.mod).sreg) ∧ c.ok false = true := by
  obtain ⟨hc, ht, hm⟩ := sys_eq_ok hc
  obtain ⟨h, ⟨hd, ha, hb, hk⟩, hx⟩ := Fields.ctl_eq_ok.1 hc
  rw [OpK.ok_none] at hd ha hb hk
  exact ⟨eq_cw_iff.2 ⟨rfl, ht, hm, h, hd, ha, hb, hk⟩, by simpa [hd, ha, hb, hk] using hx⟩
/-- The same with a source. -/
theorem sysA_parts {f : Fields} {c : Ctl} {a : Reg} (hc : f.sys .none .val = .ok c) (ha : f.a = a.enc) :
    f = cw c f.opc 0 a.enc 0 0 0 (ms (ModS.of f.mod).sub (ModS.of f.mod).sreg) ∧ c.ok a.indexed = true := by
  obtain ⟨hc, ht, hm⟩ := sys_eq_ok hc
  obtain ⟨h, ⟨hd, -, hb, hk⟩, hx⟩ := Fields.ctl_eq_ok.1 hc
  rw [OpK.ok_none] at hd hb hk
  exact ⟨eq_cw_iff.2 ⟨rfl, ht, hm, h, hd, ha, hb, hk⟩, by simpa [hd, ha, hb, hk] using hx⟩
theorem mfs_wordOf {user : Bool} {f : Fields} {i : Instr} (ho : f.opc.toNat = 0x020) (h : decSystem user f = .ok i) : WordOf i f := by
  simp only [decSystem, ho, bind_eq_ok, must_eq_ok, known_eq_ok, SysReg.ofCode_eq_some, Reg.dec_eq_ok, Except.ok.injEq] at h
  obtain ⟨_, hs, c, hc, r, hr, d, hd, rfl⟩ := h
  obtain ⟨hc, ht, hm⟩ := sys_eq_ok hc
  obtain ⟨h, ⟨-, ha, hb, hk⟩, hx⟩ := Fields.ctl_eq_ok.1 hc
  rw [OpK.ok_none] at ha hb hk
  rw [eq_of_beq hs, hr] at hm
  have hw : c.ok d.indexed = true := by simpa [hd, ha, hb, hk] using hx
  exact ⟨congrArg some (eq_cw_iff.2 ⟨opc_eq ho, ht, hm, h, hd, ha, hb, hk⟩).symm, hw⟩
theorem mts_wordOf {user : Bool} {f : Fields} {i : Instr} (ho : f.opc.toNat = 0x021) (h : decSystem user f = .ok i) : WordOf i f := by
  simp only [decSystem, ho, bind_eq_ok, must_eq_ok, known_eq_ok, SysReg.ofCode_eq_some, Reg.dec_eq_ok, Except.ok.injEq,
    Bool.and_eq_true] at h
  obtain ⟨_, hs, c, hc, r, hr, _, ⟨hwr, -⟩, a, ha, rfl⟩ := h
  obtain ⟨hf, hw⟩ := sysA_parts hc ha
  rw [opc_eq ho, eq_of_beq hs, hr] at hf
  have hw : (c.ok a.indexed && r.writable) = true := by rw [hw, hwr]; rfl
  exact ⟨congrArg some hf.symm, hw⟩
/-- The word of IDEM, IDEND and SVDONE. -/
theorem sysU_parts {f : Fields} {c : UCtl} (hm : ((ModS.of f.mod).sub == 0 && (ModS.of f.mod).sreg == 0 && f.ty == 0 && (ModS.of f.mod).z == 0 &&
    (ModS.of f.mod).z2 == 0) = true) (hc : f.uctl .none .none .none .none = .ok c) :
    f = uw c f.opc 0 0 0 0 0 (ms 0 0) ∧ c.ok false = true := by
  simp only [Bool.and_eq_true] at hm
  obtain ⟨⟨⟨⟨hs, hr⟩, ht⟩, hz⟩, hz2⟩ := hm
  have hm := mod_eq_ms (eq_of_beq hz) (eq_of_beq hz2)
  rw [eq_of_beq hs, eq_of_beq hr] at hm
  obtain ⟨h, ⟨hd, ha, hb, hk⟩, hx⟩ := Fields.ctl_eq_ok.1 (uctl_eq_ok.1 hc)
  rw [OpK.ok_none] at hd ha hb hk
  exact ⟨eq_cw_iff.2 ⟨rfl, eq_of_beq ht, hm, h, hd, ha, hb, hk⟩, by simpa [hd, ha, hb, hk] using hx⟩
theorem tlbi_wordOf {user : Bool} {f : Fields} {i : Instr} (ho : f.opc.toNat = 0x025) (h : decSystem user f = .ok i) : WordOf i f := by
  simp only [decSystem, ho, bind_eq_ok, must_eq_ok, Bool.and_eq_true, Bool.or_eq_true] at h
  obtain ⟨_, ⟨hr, hs⟩, h⟩ := h
  split at h
  next h0 =>
    simp only [bind_eq_ok, Except.ok.injEq] at h
    obtain ⟨c, hc, rfl⟩ := h
    obtain ⟨hf, hw⟩ := sys0_parts hc
    rw [opc_eq ho, eq_of_beq hr, h0] at hf
    exact ⟨congrArg some hf.symm, hw⟩
  next h0 =>
    simp only [bind_eq_ok, Reg.dec_eq_ok, Except.ok.injEq] at h
    obtain ⟨c, hc, a, ha, rfl⟩ := h
    obtain ⟨hf, hw⟩ := sysA_parts hc ha
    have h1 : (ModS.of f.mod).sub = 1 := eq_of_beq (hs.resolve_left fun e => h0 (eq_of_beq e))
    rw [opc_eq ho, eq_of_beq hr, h1] at hf
    exact ⟨congrArg some hf.symm, hw⟩
theorem trig_sub {s : BitVec 8} (h : (s.extractLsb' 6 2 == (0#2)) = true) : (s.extractLsb' 0 6).setWidth 8 = s := by
  revert s; decide
theorem trig_wordOf {user : Bool} {f : Fields} {i : Instr} (ho : f.opc.toNat = 0x026) (h : decSystem user f = .ok i) : WordOf i f := by
  simp only [decSystem, ho, bind_eq_ok, must_eq_ok, Bool.and_eq_true, Except.ok.injEq] at h
  obtain ⟨_, ⟨hr, hs⟩, c, hc, rfl⟩ := h
  obtain ⟨hf, hw⟩ := sys0_parts hc
  rw [opc_eq ho, eq_of_beq hr, ← trig_sub hs] at hf
  exact ⟨congrArg some hf.symm, hw⟩
theorem mark_wordOf {user : Bool} {f : Fields} {i : Instr} (ho : f.opc.toNat = 0x027) (h : decSystem user f = .ok i) : WordOf i f := by
  simp only [decSystem, ho, bind_eq_ok, must_eq_ok, Reg.dec_eq_ok, Except.ok.injEq] at h
  obtain ⟨_, hr, c, hc, a, ha, rfl⟩ := h
  obtain ⟨hf, hw⟩ := sysA_parts hc ha
  rw [opc_eq ho, eq_of_beq hr] at hf
  exact ⟨congrArg some hf.symm, hw⟩

theorem decSystem_wordOf {user : Bool} {f : Fields} {i : Instr} (h : decSystem user f = .ok i) : WordOf i f := by
  have h' := h
  unfold decSystem at h
  dsimp only at h
  split at h
  case h_1 ho => exact mfs_wordOf ho h'
  case h_2 ho => exact mts_wordOf ho h'
  case h_3 ho | h_4 ho | h_5 ho =>
    simp only [bind_eq_ok, must_eq_ok, Except.ok.injEq] at h
    obtain ⟨_, hm, c, hc, rfl⟩ := h
    obtain ⟨hf, hw⟩ := sysU_parts hm hc
    rw [opc_eq ho] at hf
    exact ⟨congrArg some hf.symm, hw⟩
  case h_6 ho => exact tlbi_wordOf ho h'
  case h_7 ho => exact trig_wordOf ho h'
  case h_8 ho => exact mark_wordOf ho h'
  case h_9 => cases h

end Sys2Proof
end


section
/-! Engine, record, match and tile-stream opcodes: what decodes is the word of its instruction (spec 07_encoding R88, R95, R96, R98). -/
namespace Sys2Proof

/-! ### Engines -/

/-- MOD of format E, from what its decoder has checked of the spaces. -/
theorem spaces_eq_ok {m : BitVec 48} {ss ds : Space} (h : (ModE.of m).spaces = .ok (ss, ds)) :
    m = me ss ds (ModE.of m).comp (ModE.of m).sub (ModE.of m).token (ModE.of m).doff := by
  simp only [ModE.spaces, bind_eq_ok, must_eq_ok, known_eq_ok, Space.ofCode_eq_some, Except.ok.injEq, Prod.mk.injEq, Bool.and_eq_true] at h
  obtain ⟨_, ⟨hz, hz2⟩, ss, hss, ds, hds, rfl, rfl⟩ := h
  simp only [me, ← hss, ← hds]
  rw [show (0 : BitVec 3) = (ModE.of m).z from (eq_of_beq hz).symm, show (0 : BitVec 2) = (ModE.of m).z2 from (eq_of_beq hz2).symm]
  exact (ModE.bits_of m).symm
theorem bit2_eq (x : BitVec 2) : x = 0 ∨ x = 1 ∨ x = 2 ∨ x = 3 := by revert x; decide
theorem compField_kind {m : ModE} {bsp : Bool} {d : BitVec 10} {k : Comp} (hk : compOf m bsp d = .ok k) (hc : compOk m bsp = true)
    (hd : (compKind m).ok d = true) :
    m.comp = k.code ∧ m.token = k.tok ∧ d = k.field ∧ boolBit bsp = k.bsp ∧ (k.noCls = true ∨ bsp = true) := by
  obtain ⟨ss, ds, comp, sub, z, tok, z2, off⟩ := m
  simp only [compOf, compOk, compKind] at hk hc hd ⊢
  rcases bit2_eq comp with rfl | rfl | rfl | rfl
  · cases hk
    have hc : (tok == 0 && !bsp) = true := hc
    simp only [Bool.and_eq_true, Bool.not_eq_true'] at hc
    obtain ⟨ht, rfl⟩ := hc
    exact ⟨rfl, eq_of_beq ht, OpK.ok_none.1 hd, rfl, .inl rfl⟩
  · cases hk
    have hb : bsp = false := by simpa using hc
    subst hb
    refine ⟨rfl, ?_, OpK.ok_none.1 hd, rfl, .inl rfl⟩
    simp [Comp.tok]
  · have hc : tok = 0 := by simpa using hc
    have hk : (match Src.dec d with | .ok s => Except.ok (Comp.bar s bsp) | .error e => .error e) = .ok k := hk
    split at hk
    next s hs =>
      cases hk
      exact ⟨rfl, hc, Src.dec_eq_ok.1 hs, rfl, by cases bsp <;> simp [Comp.noCls]⟩
    next => cases hk
  · cases hc
theorem ixBit_comp (k : Comp) : ixBit k.field = k.indexed := by
  cases k with
  | bar s c => exact ixBit_src s
  | _ => exact ixBit_zero
theorem tokenOf_eq_ok {m : ModE} {tk : Option (Fin 8)} (h : tokenOf m = .ok tk) : m.comp = tokCode tk ∧ m.token = tokBits tk := by
  obtain ⟨ss, ds, comp, sub, z, tok, z2, off⟩ := m
  simp only [tokenOf] at h ⊢
  rcases bit2_eq comp with rfl | rfl | rfl | rfl
  · have h : (if tok = 0 then Except.ok none else Except.error Reject.illegalInstruction) = .ok tk := h
    split at h
    next ht => cases h; exact ⟨rfl, ht⟩
    next => cases h
  · cases h
    exact ⟨rfl, by simp [tokBits]⟩
  · cases h
  · cases h

theorem sub_bsp {s : BitVec 8} (h : (s.extractLsb' 1 7 == (0#7)) = true) : boolBit (s.getLsbD 0) = s := by revert s; decide
theorem sub_isp {s : BitVec 8} (h : (s.extractLsb' 3 5 == (0#5)) = true) :
    boolBit (s.getLsbD 0) ||| (0#5 ++ s.extractLsb' 1 2 ++ 0#1) = s := by revert s; decide

theorem cpy_wordOf {f : Fields} {i : Instr} (ho : f.opc.toNat = 0x3C0) (h : decEngine f = .ok i) : WordOf i f := by
  simp only [decEngine, ho, bind_eq_ok, must_eq_ok, Prod.exists, Src.dec_eq_ok, Except.ok.injEq, Bool.and_eq_true] at h
  obtain ⟨ss, ds, hm, _, ⟨⟨⟨⟨ht, hss⟩, hds⟩, hsub⟩, hco⟩, c, hc, k, hk, a, ha, b, hb, n, hn, rfl⟩ := h
  have hm := spaces_eq_ok hm
  obtain ⟨h, ⟨hd, -⟩, hx⟩ := Fields.ctl_eq_ok.1 hc
  obtain ⟨h1, h2, hd, h3, -⟩ := compField_kind hk hco hd
  rw [h1, h2, ← sub_bsp hsub, h3] at hm
  have hw : (c.ok (k.indexed || a.indexed || b.indexed || n.indexed) && ss.noLan && ds.noLan) = true := by
    rw [hss, hds]
    simpa [hd, ha, hb, hn, ixBit_comp] using hx
  exact ⟨congrArg some (eq_cw_iff.2 ⟨opc_eq ho, eq_of_beq ht, hm, h, hd, ha, hb, hn⟩).symm, hw⟩
theorem cpym_wordOf {f : Fields} {i : Instr} (ho : f.opc.toNat = 0x3C1) (h : decEngine f = .ok i) : WordOf i f := by
  simp only [decEngine, ho, bind_eq_ok, must_eq_ok, Prod.exists, Src.dec_eq_ok, Vec.dec_eq_ok, Except.ok.injEq, Bool.and_eq_true] at h
  obtain ⟨ss, ds, hm, _, ⟨⟨⟨⟨ht, hss⟩, hds⟩, hsub⟩, hco⟩, c, hc, k, hk, a, ha, b, hb, n, hn, rfl⟩ := h
  obtain rfl := eq_of_beq hds
  have hm := spaces_eq_ok hm
  obtain ⟨h, ⟨hd, -⟩, hx⟩ := Fields.ctl_eq_ok.1 hc
  obtain ⟨h1, h2, hd, -, h4⟩ := compField_kind hk hco hd
  rw [h1, h2, eq_of_beq hsub] at hm
  have hw : (c.ok (k.indexed || a.indexed || b.indexed || n.indexed) && ss.noCore && k.noCls) = true := by
    rw [hss, h4.resolve_right (by decide)]
    simpa [hd, ha, hb, hn, ixBit_comp] using hx
  exact ⟨congrArg some (eq_cw_iff.2 ⟨opc_eq ho, eq_of_beq ht, hm, h, hd, ha, hb, hn⟩).symm, hw⟩
theorem cpyg_wordOf {f : Fields} {i : Instr} (ho : f.opc.toNat = 0x3C2) (h : decEngine f = .ok i) : WordOf i f := by
  simp only [decEngine, ho, bind_eq_ok, must_eq_ok, known_eq_ok, ISpace.ofCode_eq_some, Prod.exists, Src.dec_eq_ok, Vec.dec_eq_ok,
    Except.ok.injEq, Bool.and_eq_true] at h
  obtain ⟨ss, ds, hm, isp, hisp, _, ⟨⟨⟨⟨ht, hss⟩, hds⟩, hsub⟩, hco⟩, c, hc, k, hk, a, ha, b, hb, n, hn, rfl⟩ := h
  have hm := spaces_eq_ok hm
  obtain ⟨h, ⟨hd, -⟩, hx⟩ := Fields.ctl_eq_ok.1 hc
  obtain ⟨h1, h2, hd, h3, -⟩ := compField_kind hk hco hd
  rw [h1, h2, ← sub_isp hsub, h3, hisp] at hm
  have hw : (c.ok (k.indexed || a.indexed || b.indexed || n.indexed) && ss.noCore && ds.noLan) = true := by
    rw [hss, hds]
    simpa [hd, ha, hb, hn, ixBit_comp] using hx
  exact ⟨congrArg some (eq_cw_iff.2 ⟨opc_eq ho, eq_of_beq ht, hm, h, hd, ha, hb, hn⟩).symm, hw⟩
theorem cpyr_wordOf {f : Fields} {i : Instr} (ho : f.opc.toNat = 0x3C3) (h : decEngine f = .ok i) : WordOf i f := by
  simp only [decEngine, ho, bind_eq_ok, must_eq_ok, Prod.exists, Src.dec_eq_ok, Except.ok.injEq, Bool.and_eq_true] at h
  obtain ⟨ss, ds, hm, _, ⟨⟨⟨ht, hss⟩, hds⟩, hsub⟩, tk, htk, c, hc, d, hd, a, ha, b, hb, n, hn, rfl⟩ := h
  obtain rfl := eq_of_beq hds
  have hm := spaces_eq_ok hm
  obtain ⟨h, -, hx⟩ := Fields.ctl_eq_ok.1 hc
  obtain ⟨h1, h2⟩ := tokenOf_eq_ok htk
  rw [h1, h2, eq_of_beq hsub] at hm
  have hw : (c.ok (d.indexed || a.indexed || b.indexed || n.indexed) && ss.noCore) = true := by
    rw [hss]
    simpa [hd, ha, hb, hn] using hx
  exact ⟨congrArg some (eq_cw_iff.2 ⟨opc_eq ho, eq_of_beq ht, hm, h, hd, ha, hb, hn⟩).symm, hw⟩

/-- The word of a record or match instruction. -/
theorem record_parts {f : Fields} {kd ka kb kc : OpK} {comp : Bool} {c : Ctl} {ss : Space} {tk : Option (Fin 8)}
    (hc : f.record ka kb kc kd comp = .ok (c, ss, tk)) :
    f.ctl kd ka kb kc = .ok c ∧ f.ty = 0 ∧ f.mod = me ss .glb (tokCode tk) 0 (tokBits tk) 0 ∧ (comp = false → tk = none) := by
  simp only [Fields.record, bind_eq_ok, must_eq_ok, Prod.exists, Except.ok.injEq, Prod.mk.injEq, Bool.and_eq_true] at hc
  obtain ⟨_, ⟨⟨⟨ht, hs⟩, hoff⟩, hcomp⟩, ss, ds, hm, _, hds, tk, htk, c, hc, rfl, rfl, rfl⟩ := hc
  obtain rfl := eq_of_beq hds
  have hm := spaces_eq_ok hm
  obtain ⟨h1, h2⟩ := tokenOf_eq_ok htk
  rw [h1, h2, eq_of_beq hs, eq_of_beq hoff] at hm
  refine ⟨hc, eq_of_beq ht, hm, fun e => ?_⟩
  subst e
  have h0 : tokCode tk = 0 := by rw [← h1]; simpa using hcomp
  cases tk with
  | none => rfl
  | some t => cases h0
/-- The same with a destination and a source. -/
theorem record_d_a {f : Fields} {kc : OpK} {c : Ctl} {ss : Space} {tk : Option (Fin 8)} {d : Reg} {a : Src}
    (hc : f.record .val .none kc .val false = .ok (c, ss, tk)) (hd : f.d = d.enc) (ha : f.a = a.enc) :
    f = cw c f.opc d.enc a.enc 0 f.c 0 (me ss .glb 0 0 0 0) ∧ kc.ok f.c = true ∧ c.ok (d.indexed || a.indexed || ixBit f.c) = true := by
  obtain ⟨hctl, ht, hm, htk⟩ := record_parts hc
  obtain rfl := htk rfl
  obtain ⟨h, ⟨hb, hk⟩, hx⟩ := (ctl_d_a hd ha).1 hctl
  rw [OpK.ok_none] at hb
  exact ⟨eq_cw_iff.2 ⟨rfl, ht, hm, h, hd, ha, hb, rfl⟩, hk, by simpa [hb] using hx⟩
theorem ralloc_wordOf {f : Fields} {i : Instr} (ho : f.opc.toNat = 0x3C4) (h : decEngine f = .ok i) : WordOf i f := by
  simp only [decEngine, ho, bind_eq_ok, must_eq_ok, Prod.exists, Reg.dec_eq_ok, Src.dec_eq_ok, Except.ok.injEq] at h
  obtain ⟨c, ss, tk, hc, _, hss, d, hd, a, ha, p, hp, rfl⟩ := h
  obtain rfl := eq_of_beq hss
  obtain ⟨hf, hk, hx⟩ := record_d_a hc hd ha
  rw [OpK.ok_pred] at hk
  have hp := Pred.eq_enc_iff.2 ⟨hp, hk⟩
  rw [opc_eq ho, hp] at hf
  have hw : c.ok (d.indexed || a.indexed) = true := by simpa [hp] using hx
  exact ⟨congrArg some hf.symm, hw⟩
/-- RFLUSH and NUNMATCH. -/
theorem record1_parts {f : Fields} {c : Ctl} {ss : Space} {tk : Option (Fin 8)} {d : Reg} {a : Src}
    (hc : f.record .val .none .none .val false = .ok (c, ss, tk)) (hss : (ss == .glb) = true) (hd : f.d = d.enc) (ha : f.a = a.enc) :
    f = cw c f.opc d.enc a.enc 0 0 0 (me .glb .glb 0 0 0 0) ∧ c.ok (d.indexed || a.indexed) = true := by
  obtain rfl := eq_of_beq hss
  obtain ⟨hf, hk, hx⟩ := record_d_a hc hd ha
  rw [OpK.ok_none] at hk
  rw [hk] at hf hx
  exact ⟨hf, by simpa using hx⟩
theorem rcommit_wordOf {f : Fields} {i : Instr} (ho : f.opc.toNat = 0x3C5) (h : decEngine f = .ok i) : WordOf i f := by
  simp only [decEngine, ho, bind_eq_ok, must_eq_ok, Prod.exists, Src.dec_eq_ok, Except.ok.injEq] at h
  obtain ⟨c, ss, tk, hc, _, hss, a, ha, rfl⟩ := h
  obtain rfl := eq_of_beq hss
  obtain ⟨hctl, ht, hm, htk⟩ := record_parts hc
  obtain rfl := htk rfl
  obtain ⟨h, ⟨hd, -, hb, hk⟩, hx⟩ := Fields.ctl_eq_ok.1 hctl
  rw [OpK.ok_none] at hd hb hk
  have hw : c.ok a.indexed = true := by simpa [hd, ha, hb, hk] using hx
  exact ⟨congrArg some (eq_cw_iff.2 ⟨opc_eq ho, ht, hm, h, hd, ha, hb, hk⟩).symm, hw⟩
theorem rdone_wordOf {f : Fields} {i : Instr} (ho : f.opc.toNat = 0x3C6) (h : decEngine f = .ok i) : WordOf i f := by
  simp only [decEngine, ho, bind_eq_ok, must_eq_ok, Prod.exists, Except.ok.injEq] at h
  obtain ⟨c, ss, tk, hc, _, hss, rfl⟩ := h
  obtain rfl := eq_of_beq hss
  obtain ⟨hctl, ht, hm, htk⟩ := record_parts hc
  obtain rfl := htk rfl
  obtain ⟨h, ⟨hd, ha, hb, hk⟩, hx⟩ := Fields.ctl_eq_ok.1 hctl
  rw [OpK.ok_none] at hd ha hb hk
  have hw : c.ok false = true := by simpa [hd, ha, hb, hk] using hx
  exact ⟨congrArg some (eq_cw_iff.2 ⟨opc_eq ho, ht, hm, h, hd, ha, hb, hk⟩).symm, hw⟩
theorem rcard_wordOf {f : Fields} {i : Instr} (ho : f.opc.toNat = 0x3C8) (h : decEngine f = .ok i) : WordOf i f := by
  simp only [decEngine, ho, bind_eq_ok, must_eq_ok, Prod.exists, Reg.dec_eq_ok, Src.dec_eq_ok, Except.ok.injEq] at h
  obtain ⟨c, ss, tk, hc, _, hss, d, hd, a, ha, b, hb, n, hn, rfl⟩ := h
  obtain rfl := eq_of_beq hss
  obtain ⟨hc, ht, hm, -⟩ := record_parts hc
  obtain ⟨h, -, hx⟩ := (ctl_d_a hd ha).1 hc
  have hw : c.ok (d.indexed || a.indexed || b.indexed || n.indexed) = true := by simpa [hb, hn] using hx
  exact ⟨congrArg some (eq_cw_iff.2 ⟨opc_eq ho, ht, hm, h, hd, ha, hb, hn⟩).symm, hw⟩
theorem nmatch_wordOf {f : Fields} {i : Instr} (ho : f.opc.toNat = 0x3C9) (h : decEngine f = .ok i) : WordOf i f := by
  simp only [decEngine, ho, bind_eq_ok, must_eq_ok, Prod.exists, Reg.dec_eq_ok, Src.dec_eq_ok, Except.ok.injEq] at h
  obtain ⟨c, ss, tk, hc, _, hss, d, hd, a, ha, b, hb, n, hn, rfl⟩ := h
  obtain ⟨hctl, ht, hm, htk⟩ := record_parts hc
  obtain rfl := htk rfl
  obtain ⟨h, -, hx⟩ := (ctl_d_a hd ha).1 hctl
  have hw : (c.ok (d.indexed || a.indexed || b.indexed || n.indexed) && ss.noCore) = true := by
    rw [hss]
    simpa [hb, hn] using hx
  exact ⟨congrArg some (eq_cw_iff.2 ⟨opc_eq ho, ht, hm, h, hd, ha, hb, hn⟩).symm, hw⟩

theorem decEngine_wordOf {f : Fields} {i : Instr} (h : decEngine f = .ok i) : WordOf i f := by
  have h' := h
  unfold decEngine at h
  dsimp only at h
  split at h
  case h_1 ho => exact cpy_wordOf ho h'
  case h_2 ho => exact cpym_wordOf ho h'
  case h_3 ho => exact cpyg_wordOf ho h'
  case h_4 ho => exact cpyr_wordOf ho h'
  case h_5 ho => exact ralloc_wordOf ho h'
  case h_6 ho => exact rcommit_wordOf ho h'
  case h_7 ho => exact rdone_wordOf ho h'
  case h_8 ho | h_11 ho =>
    simp only [bind_eq_ok, must_eq_ok, Prod.exists, Reg.dec_eq_ok, Src.dec_eq_ok, Except.ok.injEq] at h
    obtain ⟨c, ss, tk, hc, _, hss, d, hd, a, ha, rfl⟩ := h
    obtain ⟨hf, hw⟩ := record1_parts hc hss hd ha
    rw [opc_eq ho] at hf
    exact ⟨congrArg some hf.symm, hw⟩
  case h_9 ho => exact rcard_wordOf ho h'
  case h_10 ho => exact nmatch_wordOf ho h'
  case h_12 => cases h

/-! ### The tile stream -/

theorem num_eq_ok {n : Nat} (hn : n ≤ 1024) {f : BitVec 10} {d : Fin n} : num n f = .ok d ↔ f = BitVec.ofNat 10 d.val := by
  have hd : f = BitVec.ofNat 10 d.val ↔ f.toNat = d.val := by
    rw [← BitVec.toNat_inj, BitVec.toNat_ofNat, Nat.mod_eq_of_lt (by omega)]
  rw [hd, num]
  split
  · simp [Fin.ext_iff]
  · simp; omega
theorem eq_tw_iff {f : Fields} {opc d a b k : BitVec 10} {m : BitVec 48} :
    f = tw opc d a b k m ↔ (f.sched = 0x8000 ∧ f.pneg = 0 ∧ f.pred = 31 ∧ f.ix = 0 ∧ f.ty = 0) ∧ f.opc = opc ∧ f.d = d ∧ f.a = a ∧
      f.b = b ∧ f.c = k ∧ f.mod = m := by
  cases f
  simp only [tw, Fields.mk.injEq]
  tauto
theorem mod_bit {m : BitVec 48} (h : m.extractLsb' 1 47 = 0#47) : m = if m.getLsbD 0 = true then 1 else 0 := by
  have hz (j : Nat) (hj : j < 47) : m.getLsbD (1 + j) = false := by
    have := congrArg (fun x => BitVec.getLsbD x j) h
    simpa [hj] using this
  apply BitVec.eq_of_getLsbD_eq
  intro i hi
  obtain rfl | ⟨j, rfl⟩ : i = 0 ∨ ∃ j, i = 1 + j := by
    rcases i with - | j
    · exact .inl rfl
    · exact .inr ⟨j, by omega⟩
  · split <;> simp_all
  · rw [hz j (by omega)]
    split <;> simp [BitVec.getLsbD_one]
theorem mod_low {m : BitVec 48} {n k : Nat} (hn : n + k = 48) (h : m.extractLsb' n k = 0#k) : m = (m.extractLsb' 0 n).setWidth 48 := by
  apply BitVec.eq_of_getLsbD_eq
  intro i hi
  simp only [BitVec.getLsbD_setWidth, BitVec.getLsbD_extractLsb', Nat.zero_add, hi, decide_true, Bool.true_and]
  by_cases hin : i < n
  · simp [hin]
  · have hz := congrArg (fun x => BitVec.getLsbD x (i - n)) h
    simp only [BitVec.getLsbD_extractLsb', BitVec.getLsbD_zero, Bool.and_eq_false_imp, decide_eq_true_eq] at hz
    have := hz (by omega)
    rw [show n + (i - n) = i by omega] at this
    simp [hin, this]
theorem mod_tstep (f : Fields) : f.mod = (tstepOf f).bits (f.mod.extractLsb' 0 28) := by
  apply BitVec.eq_of_getLsbD_eq
  intro i hi
  simp only [TStep.bits, tstepOf, BitVec.getLsbD_append, BitVec.getLsbD_extractLsb']
  grind
theorem low_some {m : BitVec 48} (h0 : m.extractLsb' 0 21 = 0#21) (h26 : m.getLsbD 26 = true) :
    m.extractLsb' 0 28 = TWait.low (m.getLsbD 27) (some ⟨⟨(m.extractLsb' 21 4).toNat, (m.extractLsb' 21 4).isLt⟩, m.getLsbD 25⟩) := by
  have hb : BitVec.ofNat 4 (m.extractLsb' 21 4).toNat = m.extractLsb' 21 4 := by rw [BitVec.ofNat_toNat, BitVec.setWidth_eq]
  simp only [TWait.low, hb, ← h0]
  apply BitVec.eq_of_getLsbD_eq
  intro i hi
  simp only [BitVec.getLsbD_append, BitVec.getLsbD_extractLsb', BitVec.getLsbD_ofBool]
  grind
theorem low_none {m : BitVec 48} (h0 : m.extractLsb' 0 21 = 0#21) (h21 : m.extractLsb' 21 5 = 0#5) (h26 : m.getLsbD 26 = false) :
    m.extractLsb' 0 28 = TWait.low (m.getLsbD 27) none := by
  have h27 : (0#27) = BitVec.ofBool (m.getLsbD 26) ++ m.extractLsb' 21 5 ++ m.extractLsb' 0 21 := by rw [h0, h21, h26]; rfl
  unfold TWait.low
  rw [h27]
  apply BitVec.eq_of_getLsbD_eq
  intro i hi
  simp only [BitVec.getLsbD_append, BitVec.getLsbD_extractLsb', BitVec.getLsbD_ofBool]
  grind

end Sys2Proof
end


section
/-! The tile stream and the whole decoder: what decodes is the word of its instruction (spec 07_encoding R88, R96, R98). -/
namespace Sys2Proof

/-- A tile-stream word, from its fields. -/
theorem tile_wordOf {f : Fields} {n : Nat} {i : Instr} {opc d a b k : BitVec 10} {m : BitVec 48}
    (hs : f.sched = 0x8000 ∧ f.pneg = 0 ∧ f.pred = 31 ∧ f.ix = 0 ∧ f.ty = 0) (ho : f.opc.toNat = n)
    (he : encodeFields i = some (tw opc d a b k m)) (hopc : opc = BitVec.ofNat 10 n) (hd : f.d = d) (ha : f.a = a) (hb : f.b = b)
    (hk : f.c = k) (hm : f.mod = m) (hw : i.wf = true) : WordOf i f :=
  ⟨by rw [he, ← eq_tw_iff.2 ⟨hs, (opc_eq ho).trans hopc.symm, hd, ha, hb, hk, hm⟩], hw⟩

theorem tload_mod {f : Fields} (h0 : f.mod.extractLsb' 0 21 = 0#21) (h26 : f.mod.getLsbD 26 = true) :
    f.mod = (tstepOf f).bits (TWait.low (f.mod.getLsbD 27)
      (some ⟨⟨(f.mod.extractLsb' 21 4).toNat, (f.mod.extractLsb' 21 4).isLt⟩, f.mod.getLsbD 25⟩)) := by
  rw [← low_some h0 h26]
  exact mod_tstep f
theorem tload_mod_none {f : Fields} (h0 : f.mod.extractLsb' 0 21 = 0#21) (h21 : f.mod.extractLsb' 21 5 = 0#5)
    (h26 : f.mod.getLsbD 26 = false) : f.mod = (tstepOf f).bits (TWait.low (f.mod.getLsbD 27) none) := by
  rw [← low_none h0 h21 h26]
  exact mod_tstep f
theorem tstore_mod {f : Fields} (h : f.mod.extractLsb' 0 28 = 0#28) : f.mod = (tstepOf f).bits 0 := by
  have := mod_tstep f
  rwa [h] at this

theorem decTile_wordOf {f : Fields} {i : Instr} (h : decTile f = .ok i) : WordOf i f := by
  simp only [decTile, bind_eq_ok, must_eq_ok, Bool.and_eq_true] at h
  obtain ⟨_, ⟨⟨⟨⟨hsc, hn⟩, hp⟩, hx⟩, ht⟩, h⟩ := h
  have hs := And.intro (eq_of_beq hsc) (And.intro (eq_of_beq hn) (And.intro (eq_of_beq hp) (And.intro (eq_of_beq hx) (eq_of_beq ht))))
  split at h
  case h_1 ho | h_2 ho =>
    simp only [bind_eq_ok, must_eq_ok, Bool.and_eq_true, Except.ok.injEq] at h
    obtain ⟨_, ⟨⟨⟨hb, hk⟩, hm⟩, hc⟩, rfl⟩ := h
    exact tile_wordOf hs ho rfl rfl rfl rfl (eq_of_beq hb) (eq_of_beq hk) (mod_bit (eq_of_beq hm)) hc
  case h_3 ho =>
    simp only [bind_eq_ok, must_eq_ok, num_eq_ok (show 48 ≤ 1024 by decide)] at h
    obtain ⟨d, hd, _, h0, h⟩ := h
    split at h
    next h26 =>
      cases h
      exact tile_wordOf hs ho rfl rfl hd rfl rfl rfl (tload_mod (eq_of_beq h0) h26) rfl
    next h26 =>
      simp only [bind_eq_ok, must_eq_ok, Except.ok.injEq] at h
      obtain ⟨_, h21, rfl⟩ := h
      exact tile_wordOf hs ho rfl rfl hd rfl rfl rfl (tload_mod_none (eq_of_beq h0) (eq_of_beq h21) (Bool.eq_false_iff.2 h26)) rfl
  case h_4 ho =>
    simp only [bind_eq_ok, must_eq_ok, num_eq_ok (show 48 ≤ 1024 by decide), num_eq_ok (show 8 ≤ 1024 by decide), Bool.and_eq_true,
      Except.ok.injEq] at h
    obtain ⟨_, ⟨hk, hm⟩, d, hd, a, ha, b, hb, rfl⟩ := h
    exact tile_wordOf hs ho rfl rfl hd ha hb (eq_of_beq hk) (eq_of_beq hm) rfl
  case h_5 ho =>
    simp only [bind_eq_ok, must_eq_ok, num_eq_ok (show 8 ≤ 1024 by decide), Except.ok.injEq] at h
    obtain ⟨_, hm, d, hd, rfl⟩ := h
    exact tile_wordOf hs ho rfl rfl hd rfl rfl rfl (tstore_mod (eq_of_beq hm)) rfl
  case h_6 ho =>
    simp only [bind_eq_ok, must_eq_ok, num_eq_ok (show 8 ≤ 1024 by decide), Bool.and_eq_true, Except.ok.injEq] at h
    obtain ⟨_, ⟨⟨⟨ha, hb⟩, hk⟩, hm⟩, d, hd, rfl⟩ := h
    exact tile_wordOf hs ho rfl rfl hd (eq_of_beq ha) (eq_of_beq hb) (eq_of_beq hk) (eq_of_beq hm) rfl
  case h_7 ho =>
    simp only [bind_eq_ok, must_eq_ok, num_eq_ok (show 16 ≤ 1024 by decide), Bool.and_eq_true, Except.ok.injEq] at h
    obtain ⟨_, ⟨⟨⟨ha, hb⟩, hk⟩, hm⟩, d, hd, rfl⟩ := h
    exact tile_wordOf hs ho rfl rfl hd (eq_of_beq ha) (eq_of_beq hb) (eq_of_beq hk) (eq_of_beq hm) rfl
  case h_8 ho =>
    simp only [bind_eq_ok, must_eq_ok, num_eq_ok (show 16 ≤ 1024 by decide), Bool.and_eq_true, Except.ok.injEq] at h
    obtain ⟨_, ⟨⟨⟨ha, hb⟩, hk⟩, hm⟩, d, hd, rfl⟩ := h
    exact tile_wordOf hs ho rfl rfl hd (eq_of_beq ha) (eq_of_beq hb) (eq_of_beq hk) (mod_bit (eq_of_beq hm)) rfl
  case h_9 ho =>
    simp only [bind_eq_ok, must_eq_ok, Bool.and_eq_true, Except.ok.injEq] at h
    obtain ⟨_, ⟨⟨⟨⟨⟨hd, ha⟩, hb⟩, hk⟩, hm⟩, hn0⟩, rfl⟩ := h
    exact tile_wordOf hs ho rfl rfl (eq_of_beq hd) (eq_of_beq ha) (eq_of_beq hb) (eq_of_beq hk) (mod_low rfl (eq_of_beq hm)) hn0
  case h_10 ho | h_11 ho =>
    simp only [bind_eq_ok, must_eq_ok, Bool.and_eq_true, Except.ok.injEq] at h
    obtain ⟨_, ⟨⟨⟨⟨hd, ha⟩, hb⟩, hk⟩, hm⟩, rfl⟩ := h
    exact tile_wordOf hs ho rfl rfl (eq_of_beq hd) (eq_of_beq ha) (eq_of_beq hb) (eq_of_beq hk) (eq_of_beq hm) rfl
  case h_12 ho =>
    simp only [bind_eq_ok, must_eq_ok, Bool.and_eq_true, Except.ok.injEq] at h
    obtain ⟨_, ⟨⟨⟨⟨⟨hd, ha⟩, hb⟩, hk⟩, hm⟩, h8⟩, rfl⟩ := h
    exact tile_wordOf hs ho rfl rfl (eq_of_beq hd) (eq_of_beq ha) (eq_of_beq hb) (eq_of_beq hk) (mod_low rfl (eq_of_beq hm)) h8
  case h_13 => cases h

/-- Every family's decoder accepts only words of its instructions. -/
theorem familyDecode_wordOf {user : Bool} {fam : Family} {f : Fields} {i : Instr} (h : fam.decode user f = .ok i) : WordOf i f := by
  cases fam with
  | control => exact decControl_wordOf h
  | system => exact decSystem_wordOf h
  | generic => exact decGeneric_wordOf h
  | typed => exact decTyped_wordOf h
  | float => exact decFloat_wordOf h
  | convert => exact decConvert_wordOf h
  | memory => exact decMemory_wordOf h
  | objects => exact decObjects_wordOf h
  | sync => exact decSync_wordOf h
  | group => exact decGroup_wordOf h
  | handles => exact decHandles_wordOf h
  | tile => exact decTile_wordOf h
  | engine => exact decEngine_wordOf h

/-- Fields that decode are those of the instruction, which is of the context it was met in. -/
theorem decodeFields_wordOf {stream user : Bool} {f : Fields} {i : Instr} (h : decodeFields stream user f = .ok i) :
    WordOf i f ∧ i.inStream = stream := by
  unfold decodeFields at h
  split at h
  · cases h
  · split at h
    · cases h
    · next fam hfam =>
      split at h
      · cases h
      · next hs =>
        have hw := familyDecode_wordOf h
        refine ⟨hw, ?_⟩
        unfold Instr.inStream
        rw [hw.1]
        dsimp only
        rw [hfam]
        have hs : (fam == .tile) = stream := by simpa using hs
        rw [← hs]
        cases fam <;> rfl

namespace Machine.Claim

/-- Settles O57: each family's decoder accepts only what its encoder puts together, and the fields of a word put the word together. -/
theorem encodeOfDecode : Obligations.EncodeOfDecode := by
  unfold Obligations.EncodeOfDecode
  intro stream user w i h
  obtain ⟨⟨he, hw⟩, hs⟩ := decodeFields_wordOf h
  refine ⟨?_, hw, hs⟩
  rw [encode, he, Option.map_some, Fields.toWord_ofWord]

end Machine.Claim
end Sys2Proof
end

section
/-! What the parts of the decoder answer on the words of the encoder (spec 07_encoding R88, R98). -/
namespace Sys2Proof

@[simp] theorem ok_bind {α β : Type} (a : α) (f : α → Except Reject β) : ((Except.ok a : Except Reject α) >>= f) = f a := rfl
@[simp] theorem must_true : must true = .ok () := rfl
@[simp] theorem known_some {α : Type} (a : α) : known (some a) = .ok a := rfl


@[simp] theorem Ty.ofCode_code (t : Ty) : Ty.ofCode t.code = some t := Ty.ofCode_eq_some.2 rfl
@[simp] theorem Space.ofCode_code (t : Space) : Space.ofCode t.code = some t := Space.ofCode_eq_some.2 rfl
@[simp] theorem Ord.ofCode_code (t : Ord) : Ord.ofCode t.code = some t := Ord.ofCode_eq_some.2 rfl
@[simp] theorem AtomOp.ofCode_code (t : AtomOp) : AtomOp.ofCode t.code = some t := AtomOp.ofCode_eq_some.2 rfl

@[simp] theorem RedOp.ofCode_code (t : RedOp) : RedOp.ofCode t.code = some t := RedOp.ofCode_eq_some.2 rfl
@[simp] theorem ICond.ofCode_code (t : ICond) : ICond.ofCode t.code = some t := ICond.ofCode_eq_some.2 rfl
@[simp] theorem FCond.ofCode_code (t : FCond) : FCond.ofCode t.code = some t := FCond.ofCode_eq_some.2 rfl
@[simp] theorem HField.ofCode_code (t : HField) : HField.ofCode t.code = some t := HField.ofCode_eq_some.2 rfl
@[simp] theorem ISpace.ofCode_code (t : ISpace) : ISpace.ofCode t.code = some t := ISpace.ofCode_eq_some.2 rfl
@[simp] theorem Rnd.ofCode_code (t : Rnd) : Rnd.ofCode t.code = t := Rnd.ofCode_eq.2 rfl
@[simp] theorem ShflMode.ofCode_code (t : ShflMode) : ShflMode.ofCode t.code = t := ShflMode.ofCode_eq.2 rfl
@[simp] theorem ITy.of_ty (t : ITy) : ITy.of t.ty = some t := ITy.of_eq_some.2 rfl
@[simp] theorem FTy.of_ty (t : FTy) : FTy.of t.ty = some t := FTy.of_eq_some.2 rfl
@[simp] theorem QTy.of_ty (t : QTy) : QTy.of t.ty = some t := QTy.of_eq_some.2 rfl
@[simp] theorem penOf_penBits (p : Option Pred) : penOf (penBits p) = .ok p := penOf_eq_ok.2 rfl
@[simp] theorem clsOf_clsSpace (b : Bool) : clsOf (clsSpace b) = .ok b := clsOf_eq_ok.2 rfl
@[simp] theorem clsOfSub_clsSub (b : Bool) : clsOfSub (clsSub b) = .ok b := clsOfSub_eq_ok.2 rfl

@[simp] theorem ModW.of_mw (s : BitVec 8) (g : BitVec 24) (t : BitVec 5) : ModW.of (mw s g t) = ⟨0, s, g, 0, t⟩ := ModW.of_bits _
@[simp] theorem ModS.of_ms (s : BitVec 8) (r : BitVec 16) : ModS.of (ms s r) = ⟨0, s, 0, r⟩ := ModS.of_bits _
@[simp] theorem ModE.of_me (ss ds : Space) (k : BitVec 2) (s : BitVec 8) (t : BitVec 3) (off : BitVec 24) :
    ModE.of (me ss ds k s t off) = ⟨ss.code, ds.code, k, s, 0, t, 0, off⟩ := ModE.of_bits _
@[simp] theorem ModM.of_mm (sp : Space) (o : Ord) (h ob : Bool) (s : BitVec 8) (off : BitVec 24) :
    ModM.of (mm sp o h ob s off) = ⟨sp.code, o.code, BitVec.ofBool h, BitVec.ofBool ob, s, 0, off⟩ := ModM.of_bits _
@[simp] theorem mj_toff (t j : BitVec 24) : (mj t j).extractLsb' 24 24 = t := by
  simp only [mj]
  grind
@[simp] theorem mj_joff (t j : BitVec 24) : (mj t j).extractLsb' 0 24 = j := by
  simp only [mj]
  grind
@[simp] theorem ofBool_eq_one (b : Bool) : (BitVec.ofBool b == 1#1) = b := by cases b <;> rfl
@[simp] theorem ofBool_eq_zero (b : Bool) : (BitVec.ofBool b == 0#1) = !b := by cases b <;> rfl

section
variable (c : Ctl) (opc d a b k : BitVec 10) (ty : BitVec 5) (m : BitVec 48)
@[simp] theorem cw_opc : (cw c opc d a b k ty m).opc = opc := rfl
@[simp] theorem cw_d : (cw c opc d a b k ty m).d = d := rfl
@[simp] theorem cw_a : (cw c opc d a b k ty m).a = a := rfl
@[simp] theorem cw_b : (cw c opc d a b k ty m).b = b := rfl
@[simp] theorem cw_c : (cw c opc d a b k ty m).c = k := rfl
@[simp] theorem cw_ty : (cw c opc d a b k ty m).ty = ty := rfl
@[simp] theorem cw_mod : (cw c opc d a b k ty m).mod = m := rfl
end
@[simp] theorem cw_type {α : Type} (c : Ctl) (opc d a b k : BitVec 10) (t : Ty) (m : BitVec 48) (of : Ty → Option α) :
    (cw c opc d a b k t.code m).type of = known (of t) := by simp [Fields.type]

/-- A word's control part, where its fields are of their kinds. -/
theorem ctl_cw (c : Ctl) (opc d a b k : BitVec 10) (ty : BitVec 5) (m : BitVec 48) (kd ka kb kc : OpK) :
    (cw c opc d a b k ty m).ctl kd ka kb kc =
      if (kd.ok d && ka.ok a && kb.ok b && kc.ok k) = true ∧ c.ok (ixBit d || ixBit a || ixBit b || ixBit k) = true then .ok c
      else .error .illegalInstruction := by
  have hs : Sched.dec c.sched.enc = .ok c.sched := Sched.dec_enc _
  have hg : Guard.dec c.guard.neg c.guard.pred = .ok c.guard := Guard.dec_eq_ok.2 ⟨rfl, rfl⟩
  simp only [Fields.ctl, cw, hs, hg, ok_bind]
  cases hk : kd.ok d && ka.ok a && kb.ok b && kc.ok k with
  | false => rfl
  | true =>
    simp only [Ctl.ok, ← Bool.or_assoc, true_and, must_true, ok_bind]
    cases c.ix == 0 || ixBit d || ixBit a || ixBit b || ixBit k <;> rfl

/-- An instruction whose word decodes to it. -/
def Decodes (i : Instr) : Prop := ∀ f, encodeFields i = some f → decodeFields i.inStream false f = .ok i

theorem Sched.enc_top (s : Sched) : ¬ (s.enc.extractLsb' 14 2 = 0#2 ∨ s.enc.extractLsb' 14 2 = 3#2) := by
  cases s with
  | counted p y k a b c =>
    obtain ⟨n, hn⟩ : ∃ n, (Sched.counted p y k a b c).enc =
        1#2 ++ p ++ BitVec.ofBool y ++ n ++ BitVec.ofBool a ++ BitVec.ofBool b ++ BitVec.ofBool c ++ 0#3 := ⟨_, rfl⟩
    rw [hn, (parts_sched 1#2 p y n a b c 0#3).1]
    decide
  | interlocked y => cases y <;> decide

theorem Decodes.group {i : Instr} {fam : Family} {c : Ctl} {opc d a b k : BitVec 10} {ty : BitVec 5} {m : BitVec 48}
    (he : encodeFields i = some (cw c opc d a b k ty m)) (hfam : familyOf opc.toNat = some fam) (hne : (fam == .tile) = false)
    (hd : fam.decode false (cw c opc d a b k ty m) = .ok i) : Decodes i := by
  intro f hf
  cases he.symm.trans hf
  have hs : i.inStream = false := by simp [Instr.inStream, he, hfam, hne]
  have ht : (cw c opc d a b k ty m).sched = c.sched.enc := rfl
  rw [hs, decodeFields, ht, if_neg c.sched.enc_top, cw_opc, hfam]
  simpa [hne] using hd

end Sys2Proof
end

section
/-! What the decoder reads of the parts that the encoder packs into SUB, ARG and the tile stream's MOD (spec 07_encoding R89 to R96). -/
namespace Sys2Proof

section
variable (s t : Bool) (p2 : BitVec 2) (p3 : BitVec 3) (p5 : BitVec 5)
@[simp] theorem sub_cvt_src : (0#2 ++ BitVec.ofBool s ++ p5).extractLsb' 0 5 = p5 := by revert s p5; decide
@[simp] theorem sub_cvt_top : (0#2 ++ BitVec.ofBool s ++ p5).extractLsb' 6 2 = 0#2 := by revert s p5; decide
@[simp] theorem sub_cvt_sat : (0#2 ++ BitVec.ofBool s ++ p5)[5] = s := by revert s p5; decide
@[simp] theorem sub_shfl_top : (BitVec.ofBool s ++ 0#5 ++ p2)[7] = s := by revert s p2; decide
@[simp] theorem sub_shfl_mid : (BitVec.ofBool s ++ 0#5 ++ p2).extractLsb' 2 5 = 0#5 := by revert s p2; decide
@[simp] theorem sub_shfl_mode : (BitVec.ofBool s ++ 0#5 ++ p2).extractLsb' 0 2 = p2 := by revert s p2; decide
@[simp] theorem sub_gred_op : (0#5 ++ p3).extractLsb' 0 3 = p3 := by revert p3; decide
@[simp] theorem sub_gred_top : (0#5 ++ p3).extractLsb' 3 5 = 0#5 := by revert p3; decide
@[simp] theorem sub_gscan_op : (0#4 ++ BitVec.ofBool s ++ p3).extractLsb' 0 3 = p3 := by revert s p3; decide
@[simp] theorem sub_gscan_top : (0#4 ++ BitVec.ofBool s ++ p3).extractLsb' 4 4 = 0#4 := by revert s p3; decide
@[simp] theorem sub_gscan_ex : (0#4 ++ BitVec.ofBool s ++ p3)[3] = s := by revert s p3; decide
@[simp] theorem sub_red_op : (p5.setWidth 8).extractLsb' 0 5 = p5 := by revert p5; decide
@[simp] theorem sub_red_top : (p5.setWidth 8).extractLsb' 5 3 = 0#3 := by revert p5; decide
@[simp] theorem sub_atom_mid : (p5.setWidth 8).extractLsb' 5 2 = 0#2 := by revert p5; decide
@[simp] theorem sub_stat_op : (128#8 ||| p5.setWidth 8).extractLsb' 0 5 = p5 := by revert p5; decide
@[simp] theorem sub_stat_mid : (128#8 ||| p5.setWidth 8).extractLsb' 5 2 = 0#2 := by revert p5; decide
@[simp] theorem Rnd.code_rne : Rnd.rne.code = 0#2 := rfl
@[simp] theorem boolBit_eq_zero : (boolBit s == 0#8) = !s := by revert s; decide
@[simp] theorem boolBit_eq_one : (boolBit s == 1#8) = s := by revert s; decide
@[simp] theorem boolBit_low : (boolBit s)[0] = s := by revert s; decide
@[simp] theorem boolBit_top : (boolBit s).extractLsb' 1 7 = 0#7 := by revert s; decide
@[simp] theorem sub_isp_space : (boolBit s ||| 0#5 ++ p2 ++ 0#1).extractLsb' 1 2 = p2 := by revert s p2; decide
@[simp] theorem sub_isp_top : (boolBit s ||| 0#5 ++ p2 ++ 0#1).extractLsb' 3 5 = 0#5 := by revert s p2; decide
@[simp] theorem sub_isp_low : (0#5 ++ p2 ++ 0#1)[0] = false := by revert p2; decide
@[simp] theorem sub_trig_top (l : BitVec 6) : (l.setWidth 8).extractLsb' 6 2 = 0#2 := by revert l; decide
@[simp] theorem sub_trig_line (l : BitVec 6) : (l.setWidth 8).extractLsb' 0 6 = l := by revert l; decide
end

/-- The low part of a number that was widened. -/
theorem extractLsb'_setWidth_low {n w : Nat} (h : n ≤ w) (x : BitVec n) : (x.setWidth w).extractLsb' 0 n = x := by
  apply BitVec.eq_of_getLsbD_eq
  intro i hi
  have : i < w := by omega
  simp [hi, this]
/-- The part above it is zero. -/
theorem extractLsb'_setWidth_high {n w k : Nat} (x : BitVec n) : (x.setWidth w).extractLsb' n k = 0#k := by
  apply BitVec.eq_of_getLsbD_eq
  intro i hi
  simp

theorem cwait_fields (l s p y : BitVec 6) :
    (y ++ p ++ s ++ l).extractLsb' 0 6 = l ∧ (y ++ p ++ s ++ l).extractLsb' 6 6 = s ∧
      (y ++ p ++ s ++ l).extractLsb' 12 6 = p ∧ (y ++ p ++ s ++ l).extractLsb' 18 6 = y := by grind
@[simp] theorem twait_top (m : BitVec 8) : (0#16 ++ m).extractLsb' 8 16 = 0#16 := by grind
@[simp] theorem twait_mask (m : BitVec 8) : (0#16 ++ m).extractLsb' 0 8 = m := by grind

@[simp] theorem Tag.code_mod (t : Tag) : t.code % 256 = t.code := by cases t <;> rfl
@[simp] theorem Tag.ofCode_code (t : Tag) : Tag.ofCode t.code = t := by cases t <;> rfl

@[simp] theorem tokenOf_none (ss ds : BitVec 3) (s : BitVec 8) (z : BitVec 3) (z2 : BitVec 2) (off : BitVec 24) :
    tokenOf ⟨ss, ds, 0#2, s, z, 0#3, z2, off⟩ = .ok none := rfl
@[simp] theorem tokenOf_tok (ss ds : BitVec 3) (s : BitVec 8) (z : BitVec 3) (z2 : BitVec 2) (off : BitVec 24) (tk : Option (Fin 8)) :
    tokenOf ⟨ss, ds, tokCode tk, s, z, tokBits tk, z2, off⟩ = .ok tk := by
  cases tk with
  | none => rfl
  | some t => exact congrArg (fun x => Except.ok (some x)) (Fin.ext (Nat.mod_eq_of_lt t.isLt))

end Sys2Proof
end

section
/-! Each opcode of group code decodes from its word: control to memory instructions (spec 07_encoding R88). -/
namespace Sys2Proof

theorem nop_decodes {c : Ctl} (hw : c.ok false = true) : Decodes (.nop c) := by
  refine .group (fam := .control) rfl rfl rfl ?_
  simp [Family.decode, decControl, Fields.plainR, Fields.ri, RForm.ok, ctl_cw, hw]
theorem bra_decodes {c : Ctl} {t j : BitVec 24}
    (hw : (c.ok false && braOk c.guard j) = true) : Decodes (.bra c t j) := by
  simp only [Bool.and_eq_true] at hw
  refine .group (fam := .control) rfl rfl rfl ?_
  simp [Family.decode, decControl, ctl_cw, hw]
theorem brx_decodes {c : Ctl} {a : Reg} {j : BitVec 24}
    (hw : (c.ok a.indexed && j != 0) = true) : Decodes (.brx c a j) := by
  simp only [Bool.and_eq_true, BitVec.ofNat_eq_ofNat] at hw
  refine .group (fam := .control) rfl rfl rfl ?_
  simp [Family.decode, decControl, ctl_cw, hw]
theorem call_decodes {c : Ctl} {d : Vec} {t : BitVec 24}
    (hw : c.ok d.indexed = true) : Decodes (.call c d t) := by
  refine .group (fam := .control) rfl rfl rfl ?_
  simp [Family.decode, decControl, ctl_cw, hw]
theorem callx_decodes {c : Ctl} {d : Vec} {a : Reg}
    (hw : c.ok (d.indexed || a.indexed) = true) : Decodes (.callx c d a) := by
  refine .group (fam := .control) rfl rfl rfl ?_
  simp [Family.decode, decControl, ctl_cw, hw]
theorem ret_decodes {c : UCtl} {a : Reg}
    (hw : c.ok a.indexed = true) : Decodes (.ret c a) := by
  refine .group (fam := .control) rfl rfl rfl ?_
  simp [Family.decode, decControl, Fields.plainR, Fields.ri, RForm.ok, ctl_cw, hw]
theorem exit_decodes {c : Ctl} (hw : c.ok false = true) : Decodes (.exit c) := by
  refine .group (fam := .control) rfl rfl rfl ?_
  simp [Family.decode, decControl, Fields.plainR, Fields.ri, RForm.ok, ctl_cw, hw]
theorem trap_decodes {c : Ctl} {code : BitVec 32}
    (hw : c.ok false = true) : Decodes (.trap c code) := by
  refine .group (fam := .control) rfl rfl rfl ?_
  simp [Family.decode, decControl, Fields.ri, RForm.ok, plainImmOk, ctl_cw, hw]
theorem tret_decodes {c : UCtl} (hw : c.ok false = true) : Decodes (.tret c) := by
  refine .group (fam := .control) rfl rfl rfl ?_
  simp [Family.decode, decControl, Fields.plainR, Fields.ri, RForm.ok, ctl_cw, hw]
theorem yield_decodes {c : UCtl} (hw : c.ok false = true) : Decodes (.yield c) := by
  refine .group (fam := .control) rfl rfl rfl ?_
  simp [Family.decode, decControl, Fields.plainR, Fields.ri, RForm.ok, ctl_cw, hw]
theorem brk_decodes {c : Ctl} {code : BitVec 32}
    (hw : c.ok false = true) : Decodes (.brk c code) := by
  refine .group (fam := .control) rfl rfl rfl ?_
  simp [Family.decode, decControl, Fields.ri, RForm.ok, plainImmOk, ctl_cw, hw]
theorem cwait_decodes {c : UCtl} {ld st cp sy : BitVec 6}
    (hw : c.ok false = true) : Decodes (.cwait c ld st cp sy) := by
  refine .group (fam := .control) rfl rfl rfl ?_
  simp [Family.decode, decControl, Fields.uctl, Fields.wait, ctl_cw, hw, cwait_fields]
theorem twait_decodes {c : UCtl} {mask : BitVec 8}
    (hw : (c.ok false && mask != 0) = true) : Decodes (.twait c mask) := by
  simp only [Bool.and_eq_true, BitVec.ofNat_eq_ofNat] at hw
  refine .group (fam := .control) rfl rfl rfl ?_
  simp [Family.decode, decControl, Fields.uctl, Fields.wait, ctl_cw, hw]
theorem mfs_decodes {c : Ctl} {d : Reg} {r : SysReg}
    (hw : c.ok d.indexed = true) : Decodes (.mfs c d r) := by
  refine .group (fam := .system) rfl rfl rfl ?_
  simp [Family.decode, decSystem, Fields.sys, SysReg.ofCode_code, ctl_cw, hw]
theorem mts_decodes {c : Ctl} {a : Reg} {r : SysReg}
    (hw : (c.ok a.indexed && r.writable) = true) : Decodes (.mts c a r) := by
  simp only [Bool.and_eq_true] at hw
  refine .group (fam := .system) rfl rfl rfl ?_
  simp [Family.decode, decSystem, Fields.sys, SysReg.ofCode_code, ctl_cw, hw]
theorem idem_decodes {c : UCtl} (hw : c.ok false = true) : Decodes (.idem c) := by
  refine .group (fam := .system) rfl rfl rfl ?_
  simp [Family.decode, decSystem, Fields.uctl, ctl_cw, hw]
theorem idend_decodes {c : UCtl} (hw : c.ok false = true) : Decodes (.idend c) := by
  refine .group (fam := .system) rfl rfl rfl ?_
  simp [Family.decode, decSystem, Fields.uctl, ctl_cw, hw]
theorem svdone_decodes {c : UCtl} (hw : c.ok false = true) : Decodes (.svdone c) := by
  refine .group (fam := .system) rfl rfl rfl ?_
  simp [Family.decode, decSystem, Fields.uctl, ctl_cw, hw]
theorem tlbiAll_decodes {c : Ctl} (hw : c.ok false = true) : Decodes (.tlbiAll c) := by
  refine .group (fam := .system) rfl rfl rfl ?_
  simp [Family.decode, decSystem, Fields.sys, ctl_cw, hw]
theorem tlbiPage_decodes {c : Ctl} {a : Reg}
    (hw : c.ok a.indexed = true) : Decodes (.tlbiPage c a) := by
  refine .group (fam := .system) rfl rfl rfl ?_
  simp [Family.decode, decSystem, Fields.sys, ctl_cw, hw]
theorem trig_decodes {c : Ctl} {line : BitVec 6}
    (hw : c.ok false = true) : Decodes (.trig c line) := by
  refine .group (fam := .system) rfl rfl rfl ?_
  simp [Family.decode, decSystem, Fields.sys, ctl_cw, hw]
theorem mark_decodes {c : Ctl} {a : Reg} {cls : BitVec 8}
    (hw : c.ok a.indexed = true) : Decodes (.mark c a cls) := by
  refine .group (fam := .system) rfl rfl rfl ?_
  simp [Family.decode, decSystem, Fields.sys, ctl_cw, hw]
theorem fma_decodes {c : Ctl} {r : Rnd} {d : Reg} {a : Src} {b : GSrc} {k : Src}
    (hw : c.ok (d.indexed || a.indexed || b.indexed || k.indexed) = true) : Decodes (.fma c r d a b k) := by
  refine .group (fam := .generic) rfl rfl rfl ?_
  cases b with
  | reg s =>
    simp only [GSrc.indexed] at hw
    simp [Family.decode, decGeneric, Fields.ri, RForm.ok, Fields.gsrc, GSrc.mod, GSrc.enc, ctl_cw, hw]
  | imm i =>
    simp only [GSrc.indexed, Bool.or_false] at hw
    simp [Family.decode, decGeneric, Fields.ri, RForm.ok, Fields.gsrc, GSrc.mod, GSrc.enc,
      genImmOk_itag_bits, GImm.of_itag_bits, ctl_cw, hw]

theorem truth_decodes {c : Ctl} {d : Pred} {a : Src}
    (hw : c.ok a.indexed = true) : Decodes (.truth c d a) := by
  refine .group (fam := .generic) rfl rfl rfl ?_
  simp [Family.decode, decGeneric, Fields.plainR, Fields.ri, RForm.ok, ctl_cw, hw]
theorem icmp_decodes {c : Ctl} {ty : ITy} {cond : ICond} {d : Pred} {a : Src} {b : TSrc}
    (hw : c.ok (a.indexed || b.indexed) = true) : Decodes (.icmp c ty cond d a b) := by
  refine .group (fam := .typed) rfl rfl rfl ?_
  cases b with
  | reg s =>
    simp only [TSrc.indexed] at hw
    simp [Family.decode, decTyped, Fields.ri, RForm.ok, Fields.tsrc, TSrc.mod, TSrc.enc, ctl_cw, hw]
  | imm i =>
    simp only [TSrc.indexed, Bool.or_false] at hw
    simp [Family.decode, decTyped, Fields.ri, RForm.ok, Fields.tsrc, TSrc.mod, TSrc.enc, plainImmOk, ctl_cw, hw]

theorem sel_decodes {c : Ctl} {d : Reg} {a : Src} {b : GSrc} {p : Pred}
    (hw : c.ok (d.indexed || a.indexed || b.indexed) = true) : Decodes (.sel c d a b p) := by
  refine .group (fam := .typed) rfl rfl rfl ?_
  cases b with
  | reg s =>
    simp only [GSrc.indexed] at hw
    simp [Family.decode, decTyped, Fields.ri, RForm.ok, Fields.gsrc, GSrc.mod, GSrc.enc, ctl_cw, hw]
  | imm i =>
    simp only [GSrc.indexed, Bool.or_false] at hw
    simp [Family.decode, decTyped, Fields.ri, RForm.ok, Fields.gsrc, GSrc.mod, GSrc.enc,
      genImmOk_itag_bits, GImm.of_itag_bits, ctl_cw, hw]

theorem plop_decodes {c : Ctl} {lut : BitVec 8} {d a b k : Pred}
    (hw : c.ok false = true) : Decodes (.plop c lut d a b k) := by
  refine .group (fam := .typed) rfl rfl rfl ?_
  simp [Family.decode, decTyped, Fields.ri, RForm.ok, ctl_cw, hw]
theorem pbool_decodes {c : Ctl} {d : Reg} {a : Pred}
    (hw : c.ok d.indexed = true) : Decodes (.pbool c d a) := by
  refine .group (fam := .typed) rfl rfl rfl ?_
  simp [Family.decode, decTyped, Fields.plainR, Fields.ri, RForm.ok, ctl_cw, hw]
theorem fcmp_decodes {c : Ctl} {ty : FTy} {cond : FCond} {d : Pred} {a : Src} {b : TSrc}
    (hw : c.ok (a.indexed || b.indexed) = true) : Decodes (.fcmp c ty cond d a b) := by
  refine .group (fam := .float) rfl rfl rfl ?_
  cases b with
  | reg s =>
    simp only [TSrc.indexed] at hw
    simp [Family.decode, decFloat, Fields.ri, RForm.ok, Fields.tsrc, TSrc.mod, TSrc.enc, ctl_cw, hw]
  | imm i =>
    simp only [TSrc.indexed, Bool.or_false] at hw
    simp [Family.decode, decFloat, Fields.ri, RForm.ok, Fields.tsrc, TSrc.mod, TSrc.enc, plainImmOk, ctl_cw, hw]

theorem cvt_decodes {c : Ctl} {dst src : Ty} {sat : Bool} {r : Rnd} {d : Reg} {a : Src}
    (hw : (c.ok (d.indexed || a.indexed) && cvtOk dst src sat) = true) : Decodes (.cvt c dst src sat r d a) := by
  simp only [Bool.and_eq_true] at hw
  refine .group (fam := .convert) rfl rfl rfl ?_
  simp [Family.decode, decConvert, Fields.ri, RForm.ok, ctl_cw, hw]
theorem cvtpk_decodes {c : Ctl} {ty : QTy} {d : Reg} {a : Vec} {b : Src}
    (hw : c.ok (d.indexed || a.indexed || b.indexed) = true) : Decodes (.cvtpk c ty d a b) := by
  refine .group (fam := .convert) rfl rfl rfl ?_
  simp [Family.decode, decConvert, Fields.ri, RForm.ok, ctl_cw, hw]
theorem cvtxp_decodes {c : Ctl} {ty : QTy} {d : Vec} {a b : Src}
    (hw : c.ok (d.indexed || a.indexed || b.indexed) = true) : Decodes (.cvtxp c ty d a b) := by
  refine .group (fam := .convert) rfl rfl rfl ?_
  simp [Family.decode, decConvert, Fields.ri, RForm.ok, ctl_cw, hw]
theorem tagchk_decodes {c : Ctl} {d : Pred} {a : Src} {mask : BitVec 16}
    (hw : c.ok a.indexed = true) : Decodes (.tagchk c d a mask) := by
  refine .group (fam := .convert) rfl rfl rfl ?_
  simp [Family.decode, decConvert, Fields.ri, RForm.ok, ctl_cw, hw, extractLsb'_setWidth_low, extractLsb'_setWidth_high]
theorem ld_decodes {c : Ctl} {ty : Ty} {sp : Space} {o : Ord} {heal obj : Bool} {d : Reg} {a : Src} {off : BitVec 24}
    (hw : (c.ok (d.indexed || a.indexed) && ty != .e2m1 && o.loadOk && (!heal || ty.width == 64) && objOk obj sp) = true) :
    Decodes (.ld c ty sp o heal obj d a off) := by
  simp only [Bool.and_eq_true] at hw
  refine .group (fam := .memory) rfl rfl rfl ?_
  simp [Family.decode, decMemory, Fields.mem, ctl_cw, hw]
theorem st_decodes {c : Ctl} {ty : Ty} {sp : Space} {o : Ord} {obj : Bool} {a b : Src} {off : BitVec 24}
    (hw : (c.ok (a.indexed || b.indexed) && ty != .e2m1 && o.storeOk && objOk obj sp) = true) : Decodes (.st c ty sp o obj a b off) := by
  simp only [Bool.and_eq_true] at hw
  refine .group (fam := .memory) rfl rfl rfl ?_
  simp [Family.decode, decMemory, Fields.mem, ctl_cw, hw]
theorem red_decodes {c : Ctl} {op : AtomOp} {ty : Ty} {sp : Space} {o : Ord} {obj : Bool} {a b : Src} {off : BitVec 24}
    (hw : (c.ok (a.indexed || b.indexed) && op.tyOk ty && op.redOk && o.redOk && objOk obj sp) = true) :
    Decodes (.red c op ty sp o obj a b off) := by
  simp only [Bool.and_eq_true] at hw
  refine .group (fam := .memory) rfl rfl rfl ?_
  simp [Family.decode, decMemory, Fields.mem, ctl_cw, hw]
theorem casw_decodes {c : Ctl} {sp : Space} {o : Ord} {obj : Bool} {pen : Option Pred} {d : Vec} {a : Src} {b k : Vec} {off : BitVec 24}
    (hw : (c.ok (d.indexed || a.indexed || b.indexed || k.indexed) && sp.noLan && objOk obj sp) = true) :
    Decodes (.casw c sp o obj pen d a b k off) := by
  simp only [Bool.and_eq_true] at hw
  refine .group (fam := .memory) rfl rfl rfl ?_
  simp [Family.decode, decMemory, Fields.mem, Fields.b64, ctl_cw, hw]
theorem fence_decodes {c : Ctl} {o : Ord}
    (hw : (c.ok false && o != .none) = true) : Decodes (.fence c o) := by
  simp only [Bool.and_eq_true] at hw
  refine .group (fam := .memory) rfl rfl rfl ?_
  simp [Family.decode, decMemory, Fields.mem, ctl_cw, hw]
theorem pref_decodes {c : Ctl} {l2 : Bool} {a : Src} {off : BitVec 24}
    (hw : c.ok a.indexed = true) : Decodes (.pref c l2 a off) := by
  refine .group (fam := .memory) rfl rfl rfl ?_
  simp [Family.decode, decMemory, Fields.mem, ctl_cw, hw]
theorem hdrld_decodes {c : Ctl} {o : Ord} {obj : Bool} {pen : Option Pred} {d : Reg} {a : Src} {off : BitVec 24}
    (hw : (c.ok (d.indexed || a.indexed) && o.loadOk) = true) : Decodes (.hdrld c o obj pen d a off) := by
  simp only [Bool.and_eq_true] at hw
  refine .group (fam := .objects) rfl rfl rfl ?_
  simp [Family.decode, decObjects, Fields.mem, Fields.b64, ctl_cw, hw]
theorem fwdcas_decodes {c : Ctl} {o : Ord} {pen : Option Pred} {d : Reg} {a b k : Src} {off : BitVec 24}
    (hw : c.ok (d.indexed || a.indexed || b.indexed || k.indexed) = true) : Decodes (.fwdcas c o pen d a b k off) := by
  refine .group (fam := .objects) rfl rfl rfl ?_
  simp [Family.decode, decObjects, Fields.mem, Fields.b64, ctl_cw, hw]
theorem refchk_decodes {c : Ctl} {d : Pred} {a : Src}
    (hw : c.ok a.indexed = true) : Decodes (.refchk c d a) := by
  refine .group (fam := .objects) rfl rfl rfl ?_
  simp [Family.decode, decObjects, Fields.plainR, Fields.ri, RForm.ok, ctl_cw, hw]
theorem barinit_decodes {c : Ctl} {cls : Bool} {a b k : Src} {off : BitVec 24}
    (hw : c.ok (a.indexed || b.indexed || k.indexed) = true) : Decodes (.barinit c cls a b k off) := by
  refine .group (fam := .sync) rfl rfl rfl ?_
  simp [Family.decode, decSync, Fields.memPlain, Fields.mem, ctl_cw, hw]
theorem bararr_decodes {c : Ctl} {cls : Bool} {d : Reg} {a b : Src} {off : BitVec 24}
    (hw : c.ok (d.indexed || a.indexed || b.indexed) = true) : Decodes (.bararr c cls d a b off) := by
  refine .group (fam := .sync) rfl rfl rfl ?_
  simp [Family.decode, decSync, Fields.memPlain, Fields.mem, ctl_cw, hw]
theorem bartx_decodes {c : Ctl} {cls : Bool} {d : Reg} {a b : Src} {off : BitVec 24}
    (hw : c.ok (d.indexed || a.indexed || b.indexed) = true) : Decodes (.bartx c cls d a b off) := by
  refine .group (fam := .sync) rfl rfl rfl ?_
  simp [Family.decode, decSync, Fields.memPlain, Fields.mem, ctl_cw, hw]
theorem bwait_decodes {c : Ctl} {cls : Bool} {texp : BitVec 5} {d : Reg} {a b : Src}
    (hw : c.ok (d.indexed || a.indexed || b.indexed) = true) : Decodes (.bwait c cls texp d a b) := by
  refine .group (fam := .sync) rfl rfl rfl ?_
  simp [Family.decode, decSync, Fields.waitPlain, ctl_cw, hw]
theorem btest_decodes {c : Ctl} {cls : Bool} {d : Reg} {a b : Src} {p : Pred}
    (hw : c.ok (d.indexed || a.indexed || b.indexed) = true) : Decodes (.btest c cls d a b p) := by
  refine .group (fam := .sync) rfl rfl rfl ?_
  simp [Family.decode, decSync, Fields.waitPlain, ctl_cw, hw]
theorem pinit_decodes {c : Ctl} {a : Src} {off : BitVec 24}
    (hw : c.ok a.indexed = true) : Decodes (.pinit c a off) := by
  refine .group (fam := .sync) rfl rfl rfl ?_
  simp [Family.decode, decSync, Fields.memPlain, Fields.mem, ctl_cw, hw]
theorem pfill_decodes {c : Ctl} {a b : Src} {off : BitVec 24}
    (hw : c.ok (a.indexed || b.indexed) = true) : Decodes (.pfill c a b off) := by
  refine .group (fam := .sync) rfl rfl rfl ?_
  simp [Family.decode, decSync, Fields.memPlain, Fields.mem, ctl_cw, hw]
theorem peq_decodes {c : Ctl} {d : Reg} {a b : Src} {p : Pred}
    (hw : c.ok (d.indexed || a.indexed || b.indexed) = true) : Decodes (.peq c d a b p) := by
  refine .group (fam := .sync) rfl rfl rfl ?_
  simp [Family.decode, decSync, Fields.plainR, Fields.ri, RForm.ok, ctl_cw, hw]
theorem pwait_decodes {c : Ctl} {texp : BitVec 5} {d : Vec} {a : Src}
    (hw : c.ok (d.indexed || a.indexed) = true) : Decodes (.pwait c texp d a) := by
  refine .group (fam := .sync) rfl rfl rfl ?_
  simp [Family.decode, decSync, Fields.waitPlain, ctl_cw, hw]
theorem pget_decodes {c : Ctl} {d : Vec} {a : Src} {p : Pred}
    (hw : c.ok (d.indexed || a.indexed) = true) : Decodes (.pget c d a p) := by
  refine .group (fam := .sync) rfl rfl rfl ?_
  simp [Family.decode, decSync, Fields.waitPlain, ctl_cw, hw]
theorem gred_decodes {c : Ctl} {op : RedOp} {ty : Ty} {d : Reg} {a : Src}
    (hw : (c.ok (d.indexed || a.indexed) && op.tyOk ty) = true) : Decodes (.gred c op ty d a) := by
  simp only [Bool.and_eq_true] at hw
  refine .group (fam := .group) rfl rfl rfl ?_
  simp [Family.decode, decGroup, Fields.ri, RForm.ok, ctl_cw, hw]
theorem gscan_decodes {c : Ctl} {op : RedOp} {excl : Bool} {ty : Ty} {d : Reg} {a : Src}
    (hw : (c.ok (d.indexed || a.indexed) && op.tyOk ty) = true) : Decodes (.gscan c op excl ty d a) := by
  simp only [Bool.and_eq_true] at hw
  refine .group (fam := .group) rfl rfl rfl ?_
  simp [Family.decode, decGroup, Fields.ri, RForm.ok, ctl_cw, hw]
theorem mtch_decodes {c : Ctl} {payOnly : Bool} {d : Reg} {a : Src}
    (hw : c.ok (d.indexed || a.indexed) = true) : Decodes (.mtch c payOnly d a) := by
  refine .group (fam := .group) rfl rfl rfl ?_
  simp [Family.decode, decGroup, Fields.ri, RForm.ok, ctl_cw, hw]
theorem elect_decodes {c : Ctl} {d : Pred}
    (hw : c.ok false = true) : Decodes (.elect c d) := by
  refine .group (fam := .group) rfl rfl rfl ?_
  simp [Family.decode, decGroup, Fields.plainR, Fields.ri, RForm.ok, ctl_cw, hw]
theorem seal_decodes {c : Ctl} {sp : Space} {o : Ord} {d : Reg} {a : Src} {off : BitVec 24}
    (hw : (c.ok (d.indexed || a.indexed) && sp.noCore && o.sealOk) = true) : Decodes (.seal c sp o d a off) := by
  simp only [Bool.and_eq_true] at hw
  refine .group (fam := .handles) rfl rfl rfl ?_
  simp [Family.decode, decHandles, Fields.mem, ctl_cw, hw]
theorem unseal_decodes {c : Ctl} {a : Src}
    (hw : c.ok a.indexed = true) : Decodes (.unseal c a) := by
  refine .group (fam := .handles) rfl rfl rfl ?_
  simp [Family.decode, decHandles, Fields.plainR, Fields.ri, RForm.ok, ctl_cw, hw]
theorem hinfo_decodes {c : Ctl} {f : HField} {d : Reg} {a : Src}
    (hw : c.ok (d.indexed || a.indexed) = true) : Decodes (.hinfo c f d a) := by
  refine .group (fam := .handles) rfl rfl rfl ?_
  simp [Family.decode, decHandles, Fields.ri, RForm.ok, ctl_cw, hw]
theorem cpyr_decodes {c : Ctl} {ss : Space} {tk : Option (Fin 8)} {peer a b n : Src} {doff : BitVec 24}
    (hw : (c.ok (peer.indexed || a.indexed || b.indexed || n.indexed) && ss.noCore) = true) : Decodes (.cpyr c ss tk peer a b n doff) := by
  simp only [Bool.and_eq_true] at hw
  refine .group (fam := .engine) rfl rfl rfl ?_
  simp [Family.decode, decEngine, ModE.spaces, ctl_cw, hw]
theorem ralloc_decodes {c : Ctl} {d : Reg} {a : Src} {p : Pred}
    (hw : c.ok (d.indexed || a.indexed) = true) : Decodes (.ralloc c d a p) := by
  refine .group (fam := .engine) rfl rfl rfl ?_
  simp [Family.decode, decEngine, ModE.spaces, Fields.record, ctl_cw, hw]
theorem rcommit_decodes {c : Ctl} {a : Src}
    (hw : c.ok a.indexed = true) : Decodes (.rcommit c a) := by
  refine .group (fam := .engine) rfl rfl rfl ?_
  simp [Family.decode, decEngine, ModE.spaces, Fields.record, ctl_cw, hw]
theorem rdone_decodes {c : Ctl} (hw : c.ok false = true) : Decodes (.rdone c) := by
  refine .group (fam := .engine) rfl rfl rfl ?_
  simp [Family.decode, decEngine, ModE.spaces, Fields.record, ctl_cw, hw]
theorem rflush_decodes {c : Ctl} {d : Reg} {a : Src}
    (hw : c.ok (d.indexed || a.indexed) = true) : Decodes (.rflush c d a) := by
  refine .group (fam := .engine) rfl rfl rfl ?_
  simp [Family.decode, decEngine, ModE.spaces, Fields.record, ctl_cw, hw]
theorem rcard_decodes {c : Ctl} {tk : Option (Fin 8)} {d : Reg} {a b n : Src}
    (hw : c.ok (d.indexed || a.indexed || b.indexed || n.indexed) = true) : Decodes (.rcard c tk d a b n) := by
  refine .group (fam := .engine) rfl rfl rfl ?_
  simp [Family.decode, decEngine, ModE.spaces, Fields.record, ctl_cw, hw]
theorem nmatch_decodes {c : Ctl} {ss : Space} {d : Reg} {a b k : Src}
    (hw : (c.ok (d.indexed || a.indexed || b.indexed || k.indexed) && ss.noCore) = true) : Decodes (.nmatch c ss d a b k) := by
  simp only [Bool.and_eq_true] at hw
  refine .group (fam := .engine) rfl rfl rfl ?_
  simp [Family.decode, decEngine, ModE.spaces, Fields.record, ctl_cw, hw]
theorem nunmatch_decodes {c : Ctl} {d : Reg} {a : Src}
    (hw : c.ok (d.indexed || a.indexed) = true) : Decodes (.nunmatch c d a) := by
  refine .group (fam := .engine) rfl rfl rfl ?_
  simp [Family.decode, decEngine, ModE.spaces, Fields.record, ctl_cw, hw]
end Sys2Proof
end

section
namespace Sys2Proof

theorem movi_gen_decodes {c : Ctl} {d : Reg} {i : GImm} (hw : c.ok d.indexed = true) : Decodes (.movi c d (.gen i)) := by
  refine .group (fam := .typed) rfl rfl rfl ?_
  simp [Family.decode, decTyped, Fields.ri, RForm.ok, genImmOk_itag_bits, GImm.of_itag_bits, ctl_cw, hw]

theorem Ty.code_ne_zero (t : Ty) : t.code ≠ 0#5 := by cases t <;> decide
theorem movi_typed_decodes {c : Ctl} {d : Reg} {t : Ty} {i : BitVec 32} (hw : (c.ok d.indexed && t.moviOk) = true) :
    Decodes (.movi c d (.typed t i)) := by
  simp only [Bool.and_eq_true] at hw
  refine .group (fam := .typed) rfl rfl rfl ?_
  simp [Family.decode, decTyped, Fields.ri, RForm.ok, plainImmOk, Ty.code_ne_zero, ctl_cw, hw]

theorem box_type_decodes {c : Ctl} {t : Ty} {d : Reg} {a : Src} (hw : (c.ok (d.indexed || a.indexed) && t.boxOk) = true) :
    Decodes (.box c (.ofType t) d a) := by
  simp only [Bool.and_eq_true] at hw
  refine .group (fam := .convert) rfl rfl rfl ?_
  simp [Family.decode, decConvert, Fields.ri, RForm.ok, Ty.code_ne_zero, ctl_cw, hw]
theorem box_tag_decodes {c : Ctl} {t : Tag} {d : Reg} {a : Src} (hw : (c.ok (d.indexed || a.indexed) && t.boxOk) = true) :
    Decodes (.box c (.ofTag t) d a) := by
  simp only [Tag.boxOk, Bool.and_eq_true, decide_eq_true_eq] at hw
  refine .group (fam := .convert) rfl rfl rfl ?_
  simp [Family.decode, decConvert, Fields.ri, RForm.ok, ctl_cw, hw]
theorem tagset_decodes {c : Ctl} {t : Tag} {d : Reg} {a : Src} (hw : (c.ok (d.indexed || a.indexed) && t.setOk) = true) :
    Decodes (.tagset c t d a) := by
  simp only [Tag.setOk, Bool.and_eq_true, decide_eq_true_eq] at hw
  refine .group (fam := .convert) rfl rfl rfl ?_
  simp [Family.decode, decConvert, Fields.ri, RForm.ok, ctl_cw, hw]

theorem atom_decodes {c : Ctl} {op : AtomOp} {ty : Ty} {sp : Space} {o : Ord} {obj : Bool} {d : Reg} {a b : Src} {k : AtomC} {off : BitVec 24}
    (hw : (c.ok (d.indexed || a.indexed || b.indexed || k.indexed) && op.tyOk ty && op.cOk k && objOk obj sp) = true) :
    Decodes (.atom c op ty sp o obj d a b k off) := by
  simp only [Bool.and_eq_true] at hw
  obtain ⟨⟨⟨hc, ht⟩, hk⟩, ho⟩ := hw
  refine .group (fam := .memory) rfl rfl rfl ?_
  cases k with
  | none =>
    simp only [AtomC.indexed, Bool.or_false, AtomOp.cOk, bne_iff_ne, ne_eq] at hc hk
    simp [Family.decode, decMemory, Fields.mem, AtomC.statBit, AtomC.enc, ctl_cw, hc, ht, hk, ho]
  | cas s =>
    simp only [AtomC.indexed, AtomOp.cOk, beq_iff_eq] at hc hk
    subst hk
    simp [Family.decode, decMemory, Fields.mem, AtomC.statBit, AtomC.enc, ctl_cw, hc, ht, ho]
  | stat p =>
    simp only [AtomC.indexed, Bool.or_false, AtomOp.cOk] at hc hk
    simp [Family.decode, decMemory, Fields.mem, AtomC.statBit, AtomC.enc, ctl_cw, hc, ht, hk, ho]

theorem nalloc_decodes {c : Ctl} {sz : NSize} {d : Reg} {p : Pred} (hw : (c.ok (d.indexed || sz.indexed) && sz.ok) = true) :
    Decodes (.nalloc c sz d p) := by
  simp only [Bool.and_eq_true] at hw
  refine .group (fam := .objects) rfl rfl rfl ?_
  cases sz with
  | reg s =>
    simp only [NSize.indexed] at hw
    simp [Family.decode, decObjects, Fields.ri, RForm.ok, Fields.tsrc, NSize.src, TSrc.mod, TSrc.enc, ctl_cw, hw]
  | imm i =>
    simp only [NSize.indexed, Bool.or_false, NSize.ok] at hw
    simp [Family.decode, decObjects, Fields.ri, RForm.ok, Fields.tsrc, NSize.src, TSrc.mod, TSrc.enc, ctl_cw, hw]

theorem vote_decodes {c : Ctl} {f : VoteForm} (hw : c.ok f.indexed = true) : Decodes (.vote c f) := by
  cases f
  all_goals
    simp only [VoteForm.indexed] at hw
    refine .group (fam := .group) rfl rfl rfl ?_
    simp [Family.decode, decGroup, Fields.ri, RForm.ok, ctl_cw, hw]

theorem shfl_decodes {c : Ctl} {m : ShflMode} {d : Reg} {a : Src} {b : ShflB} {pv : Option Pred}
    (hw : c.ok (d.indexed || a.indexed || b.indexed) = true) : Decodes (.shfl c m d a b pv) := by
  refine .group (fam := .group) rfl rfl rfl ?_
  have hp : (if pv.isSome = true then OpK.pred else OpK.none).ok (predOr pv) = true ∧ ixBit (predOr pv) = false := by
    cases pv <;> simp [predOr]
  cases b with
  | reg s =>
    simp only [ShflB.indexed] at hw
    simp [Family.decode, decGroup, Fields.ri, RForm.ok, Fields.tsrc, ShflB.src, TSrc.mod, TSrc.enc, ctl_cw, hw, hp]
    cases pv <;> simp [predOr]
  | imm i =>
    simp only [ShflB.indexed, Bool.or_false] at hw
    simp [Family.decode, decGroup, Fields.ri, RForm.ok, Fields.tsrc, ShflB.src, TSrc.mod, TSrc.enc, ctl_cw, hw, hp,
      extractLsb'_setWidth_low, extractLsb'_setWidth_high]
    cases pv <;> simp [predOr]

/-- Completion as the decoder reads it from COMP, TOKEN and field D. -/
theorem comp_read (k : Comp) (ss ds : BitVec 3) (s : BitVec 8) (z : BitVec 3) (z2 : BitVec 2) (off : BitVec 24) :
    compOk ⟨ss, ds, k.code, s, z, k.tok, z2, off⟩ k.bsp[0] = true ∧
      compOf ⟨ss, ds, k.code, s, z, k.tok, z2, off⟩ k.bsp[0] k.field = .ok k ∧
        (compKind ⟨ss, ds, k.code, s, z, k.tok, z2, off⟩).ok k.field = true := by
  cases k with
  | none => exact ⟨rfl, rfl, rfl⟩
  | token t => exact ⟨by simp [compOk, Comp.code, Comp.bsp], congrArg (fun x => Except.ok (Comp.token x)) (Fin.ext (Nat.mod_eq_of_lt t.isLt)), rfl⟩
  | bar b cls => exact ⟨rfl, by simp [compOf, Comp.code, Comp.field, Comp.bsp], rfl⟩
theorem bsp_top (k : Comp) : k.bsp.extractLsb' 1 7 = 0#7 := by
  cases k with
  | bar b cls => exact boolBit_top cls
  | _ => simp [Comp.bsp]
theorem bsp_of_noCls {k : Comp} (h : k.noCls = true) : k.bsp[0] = false := by
  cases k with
  | bar b cls => simpa [Comp.bsp, Comp.noCls] using h
  | _ => simp [Comp.bsp]
theorem bsp_isp (k : Comp) (p : BitVec 2) : (k.bsp ||| 0#5 ++ p ++ 0#1).extractLsb' 1 2 = p ∧ (k.bsp ||| 0#5 ++ p ++ 0#1).extractLsb' 3 5 = 0#5 := by
  have h (s : Bool) := And.intro (sub_isp_space s p) (sub_isp_top s p)
  cases k with
  | bar b cls => exact h cls
  | _ => exact h false

theorem cpy_decodes {c : Ctl} {ss ds : Space} {k : Comp} {a b n : Src} {doff : BitVec 24}
    (hw : (c.ok (k.indexed || a.indexed || b.indexed || n.indexed) && ss.noLan && ds.noLan) = true) :
    Decodes (.cpy c ss ds k a b n doff) := by
  simp only [Bool.and_eq_true] at hw
  refine .group (fam := .engine) rfl rfl rfl ?_
  simp [Family.decode, decEngine, ModE.spaces, ctl_cw, hw, bsp_top, comp_read, ixBit_comp]
theorem cpym_decodes {c : Ctl} {ss : Space} {k : Comp} {a b : Src} {geo : Vec} {doff : BitVec 24}
    (hw : (c.ok (k.indexed || a.indexed || b.indexed || geo.indexed) && ss.noCore && k.noCls) = true) :
    Decodes (.cpym c ss k a b geo doff) := by
  simp only [Bool.and_eq_true] at hw
  refine .group (fam := .engine) rfl rfl rfl ?_
  simp [Family.decode, decEngine, ModE.spaces, ctl_cw, hw, ← bsp_of_noCls hw.2, comp_read, ixBit_comp]
theorem cpyg_decodes {c : Ctl} {ss ds : Space} {isp : ISpace} {k : Comp} {a b : Src} {geo : Vec} {doff : BitVec 24}
    (hw : (c.ok (k.indexed || a.indexed || b.indexed || geo.indexed) && ss.noCore && ds.noLan) = true) :
    Decodes (.cpyg c ss ds isp k a b geo doff) := by
  simp only [Bool.and_eq_true] at hw
  refine .group (fam := .engine) rfl rfl rfl ?_
  simp [Family.decode, decEngine, ModE.spaces, ctl_cw, hw, bsp_isp, comp_read, ixBit_comp]

end Sys2Proof
end

section
namespace Sys2Proof

theorem Decodes.tile {i : Instr} {opc d a b k : BitVec 10} {m : BitVec 48} (he : encodeFields i = some (tw opc d a b k m))
    (hfam : familyOf opc.toNat = some .tile) (hd : decTile (tw opc d a b k m) = .ok i) : Decodes i := by
  intro f hf
  cases he.symm.trans hf
  have hs : i.inStream = true := by
    have ho : (tw opc d a b k m).opc = opc := rfl
    simp [Instr.inStream, he, ho, hfam]
  have ht : ¬ ((tw opc d a b k m).sched.extractLsb' 14 2 = 0#2 ∨ (tw opc d a b k m).sched.extractLsb' 14 2 = 3#2) := by
    show ¬ ((0x8000#16).extractLsb' 14 2 = 0#2 ∨ (0x8000#16).extractLsb' 14 2 = 3#2)
    decide
  have ho : (tw opc d a b k m).opc = opc := rfl
  rw [hs, decodeFields, if_neg ht, ho, hfam]
  exact hd

@[simp] theorem num_ofNat {n : Nat} (h : n ≤ 1024) (x : Fin n) : num n (BitVec.ofNat 10 x.val) = .ok x := (num_eq_ok h).2 rfl

/-- The steps of TLOAD and TSTORE and the low part of MOD, as they are read. -/
theorem tstep_fields (s : TStep) (low : BitVec 28) : (s.bits low).extractLsb' 40 8 = s.rstep ∧ (s.bits low).extractLsb' 32 8 = s.cstep ∧
    (s.bits low).extractLsb' 30 2 = s.rlvl ∧ (s.bits low).extractLsb' 28 2 = s.clvl := by
  simp only [TStep.bits]
  grind
theorem tstep_extract {s : TStep} {low : BitVec 28} {n k : Nat} (h : n + k ≤ 28) : (s.bits low).extractLsb' n k = low.extractLsb' n k := by
  apply BitVec.eq_of_getLsbD_eq
  intro i hi
  simp only [TStep.bits, BitVec.getLsbD_extractLsb', BitVec.getLsbD_append]
  grind
theorem tstep_bit {s : TStep} {low : BitVec 28} {n : Nat} (h : n < 28) : (s.bits low).getLsbD n = low.getLsbD n := by
  simp only [TStep.bits, BitVec.getLsbD_append]
  grind
theorem tstepOf_tw (opc d a : BitVec 10) (s : TStep) (low : BitVec 28) : tstepOf (tw opc d a s.rowBase s.colBase (s.bits low)) = s := by
  obtain ⟨h1, h2, h3, h4⟩ := tstep_fields s low
  simp [tstepOf, tw, h1, h2, h3, h4]

/-- The low part of TLOAD's MOD that waits for a barrier, as it is read. -/
theorem low_some_fields (s : TStep) (rb : Bool) (w : TWait) {m : BitVec 48} (hm : m = s.bits (TWait.low rb (some w))) :
    m.getLsbD 27 = rb ∧ m.getLsbD 26 = true ∧ m.getLsbD 25 = w.self ∧ (m.extractLsb' 21 4).toNat = w.bar.val ∧ m.extractLsb' 0 21 = 0#21 := by
  have h27 (n : Nat) (h : n < 28) : m.getLsbD n = (TWait.low rb (some w)).getLsbD n := by rw [hm, tstep_bit h]
  have hx (n k : Nat) (h : n + k ≤ 28) : m.extractLsb' n k = (TWait.low rb (some w)).extractLsb' n k := by rw [hm, tstep_extract h]
  have hb : (TWait.low rb (some w)).extractLsb' 21 4 = BitVec.ofNat 4 w.bar.val := by
    simp only [TWait.low]
    grind
  rw [h27 27 (by decide), h27 26 (by decide), h27 25 (by decide), hx 21 4 (by decide), hx 0 21 (by decide), hb, BitVec.toNat_ofNat,
    Nat.mod_eq_of_lt w.bar.isLt]
  simp only [TWait.low, BitVec.getLsbD_append, BitVec.getLsbD_ofBool]
  grind
/-- The same where it waits for none. -/
theorem low_none_fields (s : TStep) (rb : Bool) {m : BitVec 48} (hm : m = s.bits (TWait.low rb none)) :
    m.getLsbD 27 = rb ∧ m.getLsbD 26 = false ∧ m.extractLsb' 21 5 = 0#5 ∧ m.extractLsb' 0 21 = 0#21 := by
  have h27 (n : Nat) (h : n < 28) : m.getLsbD n = (TWait.low rb none).getLsbD n := by rw [hm, tstep_bit h]
  have hx (n k : Nat) (h : n + k ≤ 28) : m.extractLsb' n k = (TWait.low rb none).extractLsb' n k := by rw [hm, tstep_extract h]
  rw [h27 27 (by decide), h27 26 (by decide), hx 21 5 (by decide), hx 0 21 (by decide)]
  simp only [TWait.low, BitVec.getLsbD_append, BitVec.getLsbD_ofBool]
  grind

/-- A flag in bit 0 of MOD. -/
theorem bit_fields (x : Bool) : (if x then 1#48 else 0#48).extractLsb' 1 47 = 0#47 ∧ (if x then 1#48 else 0#48)[0] = x := by
  cases x <;> decide

theorem tload_decodes {d : Fin 48} {hw : BitVec 10} {s : TStep} {rb : Bool} {w : Option TWait} : Decodes (.tload d hw s rb w) := by
  refine .tile rfl rfl ?_
  have hs := tstepOf_tw 0x392 (BitVec.ofNat 10 d.val) hw s (TWait.low rb w)
  generalize hm : s.bits (TWait.low rb w) = m at hs
  cases w with
  | none =>
    obtain ⟨h1, h2, h3, h4⟩ := low_none_fields s rb hm.symm
    simp only [decTile, hs]
    simp [-BitVec.getLsbD_eq_getElem, tw, h1, h2, h3, h4]
  | some w =>
    obtain ⟨h1, h2, h3, h4, h5⟩ := low_some_fields s rb w hm.symm
    simp only [decTile, hs]
    simp [-BitVec.getLsbD_eq_getElem, -BitVec.extractLsb'_toNat, tw, h1, h2, h3, h4, h5]
theorem tstore_decodes {d : Fin 8} {hw : BitVec 10} {s : TStep} : Decodes (.tstore d hw s) := by
  refine .tile rfl rfl ?_
  have hs := tstepOf_tw 0x394 (BitVec.ofNat 10 d.val) hw s 0
  have h0 : (s.bits 0#28).extractLsb' 0 28 = 0#28 := by rw [tstep_extract (by decide)]; rfl
  simp only [decTile, hs]
  simp [tw, h0]

theorem tclaim_decodes {acc : Bool} {first n : BitVec 10} (hw : claimOk acc first n = true) : Decodes (.tclaim acc first n) := by
  refine .tile rfl rfl ?_
  simp [decTile, tw, bit_fields, hw]
theorem trel_decodes {acc : Bool} {first n : BitVec 10} (hw : claimOk acc first n = true) : Decodes (.trel acc first n) := by
  refine .tile rfl rfl ?_
  simp [decTile, tw, bit_fields, hw]
theorem tmma_decodes {d : Fin 8} {a b : Fin 48} : Decodes (.tmma d a b) := .tile rfl rfl (by simp [decTile, tw])
theorem tzero_decodes {d : Fin 8} : Decodes (.tzero d) := .tile rfl rfl (by simp [decTile, tw])
theorem tarr_decodes {b : Fin 16} : Decodes (.tarr b) := .tile rfl rfl (by simp [decTile, tw])
theorem tbwt_decodes {b : Fin 16} {self : Bool} : Decodes (.tbwt b self) := .tile rfl rfl (by simp [decTile, tw, bit_fields])
theorem tloop_decodes {n : BitVec 24} (hw : (n != 0) = true) : Decodes (.tloop n) := by
  refine .tile rfl rfl ?_
  simp only [BitVec.ofNat_eq_ofNat] at hw
  simp [decTile, tw, extractLsb'_setWidth_low, extractLsb'_setWidth_high, hw]
theorem tendl_decodes : Decodes .tendl := .tile rfl rfl (by simp [decTile, tw])
theorem tstop_decodes : Decodes .tstop := .tile rfl rfl (by simp [decTile, tw])
theorem tchk_decodes {off : BitVec 19} (hw : (off.toNat % 8 == 0) = true) : Decodes (.tchk off) := by
  refine .tile rfl rfl ?_
  simp [-BitVec.extractLsb'_toNat, decTile, tw, extractLsb'_setWidth_low, extractLsb'_setWidth_high, hw]

end Sys2Proof
end

section
/-! The opcodes of the common shapes, and every well-formed instruction: it decodes from its word (spec 07_encoding R88). -/
namespace Sys2Proof

theorem subSat_boolBit (s : Bool) : subSat (boolBit s) = true := by cases s <;> rfl
theorem sub_lea_ok (s : BitVec 3) : ((s.setWidth 8).extractLsb' 3 5 == (0#5)) = true := by revert s; decide
theorem sub_lea (s : BitVec 3) : (s.setWidth 8).extractLsb' 0 3 = s := by revert s; decide
theorem satOf_boolBit (s : Bool) : satOf (boolBit s) = s := by cases s <;> rfl

section
variable {i : Instr} {fam : Family} {c : Ctl} {opc : BitVec 10} {a : Src}
theorem Decodes.gen2 {r : Rnd} {d : Reg} {b : GSrc} {rnd : Bool} {mk : Ctl → Rnd → Reg → Src → GSrc → Instr}
    (he : encodeFields i = some (gw2 c opc r d.enc a b)) (hfam : familyOf opc.toNat = some fam) (hne : (fam == .tile) = false)
    (hw : c.ok (d.indexed || a.indexed || b.indexed) = true) (hr : rnd = true ∨ r = .rne)
    (hd : fam.decode false (gw2 c opc r d.enc a b) = decGen2 (gw2 c opc r d.enc a b) rnd mk) (hi : mk c r d a b = i) : Decodes i :=
  .group he hfam hne (hd.trans (decGen2_eq_ok.2 ⟨c, r, d, a, b, hr, hw, rfl, hi⟩))
theorem Decodes.genP {d : Pred} {b : GSrc} {mk : Ctl → Pred → Src → GSrc → Instr}
    (he : encodeFields i = some (gw2 c opc .rne (Pred.enc d) a b)) (hfam : familyOf opc.toNat = some fam) (hne : (fam == .tile) = false)
    (hw : c.ok (a.indexed || b.indexed) = true)
    (hd : fam.decode false (gw2 c opc .rne (Pred.enc d) a b) = decGenP (gw2 c opc .rne (Pred.enc d) a b) mk)
    (hi : mk c d a b = i) : Decodes i :=
  .group he hfam hne (hd.trans (decGenP_eq_ok.2 ⟨c, d, a, b, hw, rfl, hi⟩))
theorem Decodes.plain1 {d : Reg} {mk : Ctl → Reg → Src → Instr}
    (he : encodeFields i = some (pw c opc d.enc a.enc 0 0)) (hfam : familyOf opc.toNat = some fam) (hne : (fam == .tile) = false)
    (hw : c.ok (d.indexed || a.indexed) = true)
    (hd : fam.decode false (pw c opc d.enc a.enc 0 0) = decPlain1 (pw c opc d.enc a.enc 0 0) mk) (hi : mk c d a = i) : Decodes i :=
  .group he hfam hne (hd.trans (decPlain1_eq_ok.2 ⟨c, d, a, hw, rfl, hi⟩))

variable {α : Type} {of : Ty → Option α} {sub : BitVec 8 → Bool} {rnd : Bool} {t : Ty} {x : α} {r : Rnd} {s : BitVec 8} {d : Reg}
theorem Decodes.ty2 {b : TSrc} {mk : Ctl → α → BitVec 8 → Rnd → Reg → Src → TSrc → Instr}
    (he : encodeFields i = some (tw2 c opc t r s d a b)) (hfam : familyOf opc.toNat = some fam) (hne : (fam == .tile) = false)
    (hw : c.ok (d.indexed || a.indexed || b.indexed) = true)
    (hd : fam.decode false (tw2 c opc t r s d a b) = decTy2 (tw2 c opc t r s d a b) of sub rnd mk)
    (hx : of t = some x) (hs : sub s = true) (hr : rnd = true ∨ r = .rne) (hi : mk c x s r d a b = i) : Decodes i :=
  .group he hfam hne (hd.trans (decTy2_eq_ok.2 ⟨c, t, x, s, r, d, a, b, hx, hs, hr, hw, rfl, hi⟩))
theorem Decodes.ty3 {b : TSrc} {k : Src} {mk : Ctl → α → BitVec 8 → Rnd → Reg → Src → TSrc → Src → Instr}
    (he : encodeFields i = some (tw3 c opc t r s d a b k)) (hfam : familyOf opc.toNat = some fam) (hne : (fam == .tile) = false)
    (hw : c.ok (d.indexed || a.indexed || b.indexed || k.indexed) = true)
    (hd : fam.decode false (tw3 c opc t r s d a b k) = decTy3 (tw3 c opc t r s d a b k) of sub rnd mk)
    (hx : of t = some x) (hs : sub s = true) (hr : rnd = true ∨ r = .rne) (hi : mk c x s r d a b k = i) : Decodes i :=
  .group he hfam hne (hd.trans (decTy3_eq_ok.2 ⟨c, t, x, s, r, d, a, b, k, hx, hs, hr, hw, rfl, hi⟩))
theorem Decodes.ty1 {mk : Ctl → α → BitVec 8 → Rnd → Reg → Src → Instr}
    (he : encodeFields i = some (tw1 c opc t r s d a)) (hfam : familyOf opc.toNat = some fam) (hne : (fam == .tile) = false)
    (hw : c.ok (d.indexed || a.indexed) = true)
    (hd : fam.decode false (tw1 c opc t r s d a) = decTy1 (tw1 c opc t r s d a) of sub rnd mk)
    (hx : of t = some x) (hs : sub s = true) (hr : rnd = true ∨ r = .rne) (hi : mk c x s r d a = i) : Decodes i :=
  .group he hfam hne (hd.trans (decTy1_eq_ok.2 ⟨c, t, x, s, r, d, a, hx, hs, hr, hw, rfl, hi⟩))
end

theorem add_decodes {c : Ctl} {r : Rnd} {d : Reg} {a : Src} {b : GSrc} (hw : (Instr.add c r d a b).wf = true) :
    Decodes (.add c r d a b) :=
  .gen2 (fam := .generic) rfl rfl rfl hw (.inl rfl) rfl rfl
theorem sub_decodes {c : Ctl} {r : Rnd} {d : Reg} {a : Src} {b : GSrc} (hw : (Instr.sub c r d a b).wf = true) :
    Decodes (.sub c r d a b) :=
  .gen2 (fam := .generic) rfl rfl rfl hw (.inl rfl) rfl rfl
theorem mul_decodes {c : Ctl} {r : Rnd} {d : Reg} {a : Src} {b : GSrc} (hw : (Instr.mul c r d a b).wf = true) :
    Decodes (.mul c r d a b) :=
  .gen2 (fam := .generic) rfl rfl rfl hw (.inl rfl) rfl rfl
theorem div_decodes {c : Ctl} {r : Rnd} {d : Reg} {a : Src} {b : GSrc} (hw : (Instr.div c r d a b).wf = true) :
    Decodes (.div c r d a b) :=
  .gen2 (fam := .generic) rfl rfl rfl hw (.inl rfl) rfl rfl
theorem fldiv_decodes {c : Ctl} {d : Reg} {a : Src} {b : GSrc} (hw : (Instr.fldiv c d a b).wf = true) : Decodes (.fldiv c d a b) :=
  .gen2 (fam := .generic) (mk := fun c _ => .fldiv c) rfl rfl rfl hw (.inr rfl) rfl rfl
theorem mod_decodes {c : Ctl} {d : Reg} {a : Src} {b : GSrc} (hw : (Instr.mod c d a b).wf = true) : Decodes (.mod c d a b) :=
  .gen2 (fam := .generic) (mk := fun c _ => .mod c) rfl rfl rfl hw (.inr rfl) rfl rfl
theorem neg_decodes {c : Ctl} {d : Reg} {a : Src} (hw : (Instr.neg c d a).wf = true) : Decodes (.neg c d a) :=
  .plain1 (fam := .generic) rfl rfl rfl hw rfl rfl
theorem abs_decodes {c : Ctl} {d : Reg} {a : Src} (hw : (Instr.abs c d a).wf = true) : Decodes (.abs c d a) :=
  .plain1 (fam := .generic) rfl rfl rfl hw rfl rfl
theorem min_decodes {c : Ctl} {d : Reg} {a : Src} {b : GSrc} (hw : (Instr.min c d a b).wf = true) : Decodes (.min c d a b) :=
  .gen2 (fam := .generic) (mk := fun c _ => .min c) rfl rfl rfl hw (.inr rfl) rfl rfl
theorem max_decodes {c : Ctl} {d : Reg} {a : Src} {b : GSrc} (hw : (Instr.max c d a b).wf = true) : Decodes (.max c d a b) :=
  .gen2 (fam := .generic) (mk := fun c _ => .max c) rfl rfl rfl hw (.inr rfl) rfl rfl
theorem eq_decodes {c : Ctl} {d : Pred} {a : Src} {b : GSrc} (hw : (Instr.eq c d a b).wf = true) : Decodes (.eq c d a b) :=
  .genP (fam := .generic) rfl rfl rfl hw rfl rfl
theorem ne_decodes {c : Ctl} {d : Pred} {a : Src} {b : GSrc} (hw : (Instr.ne c d a b).wf = true) : Decodes (.ne c d a b) :=
  .genP (fam := .generic) rfl rfl rfl hw rfl rfl
theorem lt_decodes {c : Ctl} {d : Pred} {a : Src} {b : GSrc} (hw : (Instr.lt c d a b).wf = true) : Decodes (.lt c d a b) :=
  .genP (fam := .generic) rfl rfl rfl hw rfl rfl
theorem le_decodes {c : Ctl} {d : Pred} {a : Src} {b : GSrc} (hw : (Instr.le c d a b).wf = true) : Decodes (.le c d a b) :=
  .genP (fam := .generic) rfl rfl rfl hw rfl rfl
theorem hash_decodes {c : Ctl} {d : Reg} {a : Src} (hw : (Instr.hash c d a).wf = true) : Decodes (.hash c d a) :=
  .plain1 (fam := .generic) rfl rfl rfl hw rfl rfl
theorem and_decodes {c : Ctl} {d : Reg} {a : Src} {b : GSrc} (hw : (Instr.and c d a b).wf = true) : Decodes (.and c d a b) :=
  .gen2 (fam := .generic) (mk := fun c _ => .and c) rfl rfl rfl hw (.inr rfl) rfl rfl
theorem or_decodes {c : Ctl} {d : Reg} {a : Src} {b : GSrc} (hw : (Instr.or c d a b).wf = true) : Decodes (.or c d a b) :=
  .gen2 (fam := .generic) (mk := fun c _ => .or c) rfl rfl rfl hw (.inr rfl) rfl rfl
theorem xor_decodes {c : Ctl} {d : Reg} {a : Src} {b : GSrc} (hw : (Instr.xor c d a b).wf = true) : Decodes (.xor c d a b) :=
  .gen2 (fam := .generic) (mk := fun c _ => .xor c) rfl rfl rfl hw (.inr rfl) rfl rfl
theorem shl_decodes {c : Ctl} {d : Reg} {a : Src} {b : GSrc} (hw : (Instr.shl c d a b).wf = true) : Decodes (.shl c d a b) :=
  .gen2 (fam := .generic) (mk := fun c _ => .shl c) rfl rfl rfl hw (.inr rfl) rfl rfl
theorem shr_decodes {c : Ctl} {d : Reg} {a : Src} {b : GSrc} (hw : (Instr.shr c d a b).wf = true) : Decodes (.shr c d a b) :=
  .gen2 (fam := .generic) (mk := fun c _ => .shr c) rfl rfl rfl hw (.inr rfl) rfl rfl
theorem iadd_decodes {c : Ctl} {ty : ITy} {sat : Bool} {d : Reg} {a : Src} {b : TSrc} (hw : (Instr.iadd c ty sat d a b).wf = true) :
    Decodes (.iadd c ty sat d a b) :=
  .ty2 (fam := .typed) (mk := fun c t s _ => .iadd c t (satOf s)) rfl rfl rfl hw rfl (ITy.of_eq_some.2 rfl) (subSat_boolBit _) (.inr rfl)
    (congrArg (fun s => Instr.iadd c ty s d a b) (satOf_boolBit _))
theorem isub_decodes {c : Ctl} {ty : ITy} {sat : Bool} {d : Reg} {a : Src} {b : TSrc} (hw : (Instr.isub c ty sat d a b).wf = true) :
    Decodes (.isub c ty sat d a b) :=
  .ty2 (fam := .typed) (mk := fun c t s _ => .isub c t (satOf s)) rfl rfl rfl hw rfl (ITy.of_eq_some.2 rfl) (subSat_boolBit _) (.inr rfl)
    (congrArg (fun s => Instr.isub c ty s d a b) (satOf_boolBit _))
theorem imul_decodes {c : Ctl} {ty : ITy} {sat : Bool} {d : Reg} {a : Src} {b : TSrc} (hw : (Instr.imul c ty sat d a b).wf = true) :
    Decodes (.imul c ty sat d a b) :=
  .ty2 (fam := .typed) (mk := fun c t s _ => .imul c t (satOf s)) rfl rfl rfl hw rfl (ITy.of_eq_some.2 rfl) (subSat_boolBit _) (.inr rfl)
    (congrArg (fun s => Instr.imul c ty s d a b) (satOf_boolBit _))
theorem imulh_decodes {c : Ctl} {ty : ITy} {d : Reg} {a : Src} {b : TSrc} (hw : (Instr.imulh c ty d a b).wf = true) :
    Decodes (.imulh c ty d a b) :=
  .ty2 (fam := .typed) (mk := fun c t _ _ => .imulh c t) rfl rfl rfl hw rfl (ITy.of_eq_some.2 rfl) rfl (.inr rfl) rfl
theorem imad_decodes {c : Ctl} {ty : ITy} {sat : Bool} {d : Reg} {a : Src} {b : TSrc} {k : Src}
    (hw : (Instr.imad c ty sat d a b k).wf = true) :
    Decodes (.imad c ty sat d a b k) :=
  .ty3 (fam := .typed) (mk := fun c t s _ => .imad c t (satOf s)) rfl rfl rfl hw rfl (ITy.of_eq_some.2 rfl) (subSat_boolBit _) (.inr rfl)
    (congrArg (fun s => Instr.imad c ty s d a b k) (satOf_boolBit _))
theorem idiv_decodes {c : Ctl} {ty : ITy} {d : Reg} {a : Src} {b : TSrc} (hw : (Instr.idiv c ty d a b).wf = true) :
    Decodes (.idiv c ty d a b) :=
  .ty2 (fam := .typed) (mk := fun c t _ _ => .idiv c t) rfl rfl rfl hw rfl (ITy.of_eq_some.2 rfl) rfl (.inr rfl) rfl
theorem irem_decodes {c : Ctl} {ty : ITy} {d : Reg} {a : Src} {b : TSrc} (hw : (Instr.irem c ty d a b).wf = true) :
    Decodes (.irem c ty d a b) :=
  .ty2 (fam := .typed) (mk := fun c t _ _ => .irem c t) rfl rfl rfl hw rfl (ITy.of_eq_some.2 rfl) rfl (.inr rfl) rfl
theorem imin_decodes {c : Ctl} {ty : ITy} {d : Reg} {a : Src} {b : TSrc} (hw : (Instr.imin c ty d a b).wf = true) :
    Decodes (.imin c ty d a b) :=
  .ty2 (fam := .typed) (mk := fun c t _ _ => .imin c t) rfl rfl rfl hw rfl (ITy.of_eq_some.2 rfl) rfl (.inr rfl) rfl
theorem imax_decodes {c : Ctl} {ty : ITy} {d : Reg} {a : Src} {b : TSrc} (hw : (Instr.imax c ty d a b).wf = true) :
    Decodes (.imax c ty d a b) :=
  .ty2 (fam := .typed) (mk := fun c t _ _ => .imax c t) rfl rfl rfl hw rfl (ITy.of_eq_some.2 rfl) rfl (.inr rfl) rfl
theorem iabs_decodes {c : Ctl} {ty : STy} {sat : Bool} {d : Reg} {a : Src} (hw : (Instr.iabs c ty sat d a).wf = true) :
    Decodes (.iabs c ty sat d a) :=
  .ty1 (fam := .typed) (mk := fun c t s _ => .iabs c t (satOf s)) rfl rfl rfl hw rfl (STy.of_eq_some.2 rfl) (subSat_boolBit _) (.inr rfl)
    (congrArg (fun s => Instr.iabs c ty s d a) (satOf_boolBit _))
theorem ineg_decodes {c : Ctl} {ty : STy} {sat : Bool} {d : Reg} {a : Src} (hw : (Instr.ineg c ty sat d a).wf = true) :
    Decodes (.ineg c ty sat d a) :=
  .ty1 (fam := .typed) (mk := fun c t s _ => .ineg c t (satOf s)) rfl rfl rfl hw rfl (STy.of_eq_some.2 rfl) (subSat_boolBit _) (.inr rfl)
    (congrArg (fun s => Instr.ineg c ty s d a) (satOf_boolBit _))
theorem band_decodes {c : Ctl} {ty : BTy} {d : Reg} {a : Src} {b : TSrc} (hw : (Instr.band c ty d a b).wf = true) :
    Decodes (.band c ty d a b) :=
  .ty2 (fam := .typed) (mk := fun c t _ _ => .band c t) rfl rfl rfl hw rfl (BTy.of_eq_some.2 rfl) rfl (.inr rfl) rfl
theorem bor_decodes {c : Ctl} {ty : BTy} {d : Reg} {a : Src} {b : TSrc} (hw : (Instr.bor c ty d a b).wf = true) :
    Decodes (.bor c ty d a b) :=
  .ty2 (fam := .typed) (mk := fun c t _ _ => .bor c t) rfl rfl rfl hw rfl (BTy.of_eq_some.2 rfl) rfl (.inr rfl) rfl
theorem bxor_decodes {c : Ctl} {ty : BTy} {d : Reg} {a : Src} {b : TSrc} (hw : (Instr.bxor c ty d a b).wf = true) :
    Decodes (.bxor c ty d a b) :=
  .ty2 (fam := .typed) (mk := fun c t _ _ => .bxor c t) rfl rfl rfl hw rfl (BTy.of_eq_some.2 rfl) rfl (.inr rfl) rfl
theorem bnot_decodes {c : Ctl} {ty : BTy} {d : Reg} {a : Src} (hw : (Instr.bnot c ty d a).wf = true) : Decodes (.bnot c ty d a) :=
  .ty1 (fam := .typed) (mk := fun c t _ _ => .bnot c t) rfl rfl rfl hw rfl (BTy.of_eq_some.2 rfl) rfl (.inr rfl) rfl
theorem bshl_decodes {c : Ctl} {ty : BTy} {d : Reg} {a : Src} {b : TSrc} (hw : (Instr.bshl c ty d a b).wf = true) :
    Decodes (.bshl c ty d a b) :=
  .ty2 (fam := .typed) (mk := fun c t _ _ => .bshl c t) rfl rfl rfl hw rfl (BTy.of_eq_some.2 rfl) rfl (.inr rfl) rfl
theorem bshr_decodes {c : Ctl} {ty : BTy} {d : Reg} {a : Src} {b : TSrc} (hw : (Instr.bshr c ty d a b).wf = true) :
    Decodes (.bshr c ty d a b) :=
  .ty2 (fam := .typed) (mk := fun c t _ _ => .bshr c t) rfl rfl rfl hw rfl (BTy.of_eq_some.2 rfl) rfl (.inr rfl) rfl
theorem bsar_decodes {c : Ctl} {ty : BTy} {d : Reg} {a : Src} {b : TSrc} (hw : (Instr.bsar c ty d a b).wf = true) :
    Decodes (.bsar c ty d a b) :=
  .ty2 (fam := .typed) (mk := fun c t _ _ => .bsar c t) rfl rfl rfl hw rfl (BTy.of_eq_some.2 rfl) rfl (.inr rfl) rfl
theorem brol_decodes {c : Ctl} {ty : BTy} {d : Reg} {a : Src} {b : TSrc} (hw : (Instr.brol c ty d a b).wf = true) :
    Decodes (.brol c ty d a b) :=
  .ty2 (fam := .typed) (mk := fun c t _ _ => .brol c t) rfl rfl rfl hw rfl (BTy.of_eq_some.2 rfl) rfl (.inr rfl) rfl
theorem popc_decodes {c : Ctl} {ty : BTy} {d : Reg} {a : Src} (hw : (Instr.popc c ty d a).wf = true) : Decodes (.popc c ty d a) :=
  .ty1 (fam := .typed) (mk := fun c t _ _ => .popc c t) rfl rfl rfl hw rfl (BTy.of_eq_some.2 rfl) rfl (.inr rfl) rfl
theorem clz_decodes {c : Ctl} {ty : BTy} {d : Reg} {a : Src} (hw : (Instr.clz c ty d a).wf = true) : Decodes (.clz c ty d a) :=
  .ty1 (fam := .typed) (mk := fun c t _ _ => .clz c t) rfl rfl rfl hw rfl (BTy.of_eq_some.2 rfl) rfl (.inr rfl) rfl
theorem ctz_decodes {c : Ctl} {ty : BTy} {d : Reg} {a : Src} (hw : (Instr.ctz c ty d a).wf = true) : Decodes (.ctz c ty d a) :=
  .ty1 (fam := .typed) (mk := fun c t _ _ => .ctz c t) rfl rfl rfl hw rfl (BTy.of_eq_some.2 rfl) rfl (.inr rfl) rfl
theorem brev_decodes {c : Ctl} {ty : BTy} {d : Reg} {a : Src} (hw : (Instr.brev c ty d a).wf = true) : Decodes (.brev c ty d a) :=
  .ty1 (fam := .typed) (mk := fun c t _ _ => .brev c t) rfl rfl rfl hw rfl (BTy.of_eq_some.2 rfl) rfl (.inr rfl) rfl
theorem bfx_decodes {c : Ctl} {ty : ITy} {d : Reg} {a : Src} {b : TSrc} (hw : (Instr.bfx c ty d a b).wf = true) :
    Decodes (.bfx c ty d a b) :=
  .ty2 (fam := .typed) (mk := fun c t _ _ => .bfx c t) rfl rfl rfl hw rfl (ITy.of_eq_some.2 rfl) rfl (.inr rfl) rfl
theorem bfi_decodes {c : Ctl} {ty : BTy} {d : Reg} {a : Src} {b : TSrc} {k : Src} (hw : (Instr.bfi c ty d a b k).wf = true) :
    Decodes (.bfi c ty d a b k) :=
  .ty3 (fam := .typed) (mk := fun c t _ _ => .bfi c t) rfl rfl rfl hw rfl (BTy.of_eq_some.2 rfl) rfl (.inr rfl) rfl
theorem mov_decodes {c : Ctl} {d : Reg} {a : Src} (hw : (Instr.mov c d a).wf = true) : Decodes (.mov c d a) :=
  .plain1 (fam := .typed) rfl rfl rfl hw rfl rfl
theorem lea_decodes {c : Ctl} {sh : BitVec 3} {d : Reg} {a : Src} {b : TSrc} (hw : (Instr.lea c sh d a b).wf = true) :
    Decodes (.lea c sh d a b) :=
  .ty2 (fam := .typed) (x := ()) (sub := fun s => s.extractLsb' 3 5 == (0#5)) (mk := fun c _ s _ => .lea c (s.extractLsb' 0 3))
    rfl rfl rfl hw rfl rfl (sub_lea_ok _) (.inr rfl)
    (congrArg (fun s => Instr.lea c s d a b) (sub_lea _))
theorem fadd_decodes {c : Ctl} {ty : PTy} {r : Rnd} {d : Reg} {a : Src} {b : TSrc} (hw : (Instr.fadd c ty r d a b).wf = true) :
    Decodes (.fadd c ty r d a b) :=
  .ty2 (fam := .float) (mk := fun c t _ r => .fadd c t r) rfl rfl rfl hw rfl (PTy.of_eq_some.2 rfl) rfl (.inl rfl) rfl
theorem fsub_decodes {c : Ctl} {ty : PTy} {r : Rnd} {d : Reg} {a : Src} {b : TSrc} (hw : (Instr.fsub c ty r d a b).wf = true) :
    Decodes (.fsub c ty r d a b) :=
  .ty2 (fam := .float) (mk := fun c t _ r => .fsub c t r) rfl rfl rfl hw rfl (PTy.of_eq_some.2 rfl) rfl (.inl rfl) rfl
theorem fmul_decodes {c : Ctl} {ty : PTy} {r : Rnd} {d : Reg} {a : Src} {b : TSrc} (hw : (Instr.fmul c ty r d a b).wf = true) :
    Decodes (.fmul c ty r d a b) :=
  .ty2 (fam := .float) (mk := fun c t _ r => .fmul c t r) rfl rfl rfl hw rfl (PTy.of_eq_some.2 rfl) rfl (.inl rfl) rfl
theorem ffma_decodes {c : Ctl} {ty : PTy} {r : Rnd} {d : Reg} {a : Src} {b : TSrc} {k : Src} (hw : (Instr.ffma c ty r d a b k).wf = true) :
    Decodes (.ffma c ty r d a b k) :=
  .ty3 (fam := .float) (mk := fun c t _ r => .ffma c t r) rfl rfl rfl hw rfl (PTy.of_eq_some.2 rfl) rfl (.inl rfl) rfl
theorem fdiv_decodes {c : Ctl} {ty : FTy} {r : Rnd} {d : Reg} {a : Src} {b : TSrc} (hw : (Instr.fdiv c ty r d a b).wf = true) :
    Decodes (.fdiv c ty r d a b) :=
  .ty2 (fam := .float) (mk := fun c t _ r => .fdiv c t r) rfl rfl rfl hw rfl (FTy.of_eq_some.2 rfl) rfl (.inl rfl) rfl
theorem fsqrt_decodes {c : Ctl} {ty : FTy} {r : Rnd} {d : Reg} {a : Src} (hw : (Instr.fsqrt c ty r d a).wf = true) :
    Decodes (.fsqrt c ty r d a) :=
  .ty1 (fam := .float) (mk := fun c t _ r => .fsqrt c t r) rfl rfl rfl hw rfl (FTy.of_eq_some.2 rfl) rfl (.inl rfl) rfl
theorem frcp_decodes {c : Ctl} {ty : FTy} {r : Rnd} {d : Reg} {a : Src} (hw : (Instr.frcp c ty r d a).wf = true) :
    Decodes (.frcp c ty r d a) :=
  .ty1 (fam := .float) (mk := fun c t _ r => .frcp c t r) rfl rfl rfl hw rfl (FTy.of_eq_some.2 rfl) rfl (.inl rfl) rfl
theorem frsq_decodes {c : Ctl} {ty : FTy} {r : Rnd} {d : Reg} {a : Src} (hw : (Instr.frsq c ty r d a).wf = true) :
    Decodes (.frsq c ty r d a) :=
  .ty1 (fam := .float) (mk := fun c t _ r => .frsq c t r) rfl rfl rfl hw rfl (FTy.of_eq_some.2 rfl) rfl (.inl rfl) rfl
theorem fmin_decodes {c : Ctl} {ty : PTy} {d : Reg} {a : Src} {b : TSrc} (hw : (Instr.fmin c ty d a b).wf = true) :
    Decodes (.fmin c ty d a b) :=
  .ty2 (fam := .float) (mk := fun c t _ _ => .fmin c t) rfl rfl rfl hw rfl (PTy.of_eq_some.2 rfl) rfl (.inr rfl) rfl
theorem fmax_decodes {c : Ctl} {ty : PTy} {d : Reg} {a : Src} {b : TSrc} (hw : (Instr.fmax c ty d a b).wf = true) :
    Decodes (.fmax c ty d a b) :=
  .ty2 (fam := .float) (mk := fun c t _ _ => .fmax c t) rfl rfl rfl hw rfl (PTy.of_eq_some.2 rfl) rfl (.inr rfl) rfl
theorem fabs_decodes {c : Ctl} {ty : PTy} {d : Reg} {a : Src} (hw : (Instr.fabs c ty d a).wf = true) : Decodes (.fabs c ty d a) :=
  .ty1 (fam := .float) (mk := fun c t _ _ => .fabs c t) rfl rfl rfl hw rfl (PTy.of_eq_some.2 rfl) rfl (.inr rfl) rfl
theorem fneg_decodes {c : Ctl} {ty : PTy} {d : Reg} {a : Src} (hw : (Instr.fneg c ty d a).wf = true) : Decodes (.fneg c ty d a) :=
  .ty1 (fam := .float) (mk := fun c t _ _ => .fneg c t) rfl rfl rfl hw rfl (PTy.of_eq_some.2 rfl) rfl (.inr rfl) rfl
theorem fexp2_decodes {c : Ctl} {ty : TTy} {d : Reg} {a : Src} (hw : (Instr.fexp2 c ty d a).wf = true) : Decodes (.fexp2 c ty d a) :=
  .ty1 (fam := .float) (mk := fun c t _ _ => .fexp2 c t) rfl rfl rfl hw rfl (TTy.of_eq_some.2 rfl) rfl (.inr rfl) rfl
theorem flog2_decodes {c : Ctl} {ty : TTy} {d : Reg} {a : Src} (hw : (Instr.flog2 c ty d a).wf = true) : Decodes (.flog2 c ty d a) :=
  .ty1 (fam := .float) (mk := fun c t _ _ => .flog2 c t) rfl rfl rfl hw rfl (TTy.of_eq_some.2 rfl) rfl (.inr rfl) rfl
theorem fsin_decodes {c : Ctl} {ty : TTy} {d : Reg} {a : Src} (hw : (Instr.fsin c ty d a).wf = true) : Decodes (.fsin c ty d a) :=
  .ty1 (fam := .float) (mk := fun c t _ _ => .fsin c t) rfl rfl rfl hw rfl (TTy.of_eq_some.2 rfl) rfl (.inr rfl) rfl
theorem fcos_decodes {c : Ctl} {ty : TTy} {d : Reg} {a : Src} (hw : (Instr.fcos c ty d a).wf = true) : Decodes (.fcos c ty d a) :=
  .ty1 (fam := .float) (mk := fun c t _ _ => .fcos c t) rfl rfl rfl hw rfl (TTy.of_eq_some.2 rfl) rfl (.inr rfl) rfl
theorem ftanh_decodes {c : Ctl} {ty : TTy} {d : Reg} {a : Src} (hw : (Instr.ftanh c ty d a).wf = true) : Decodes (.ftanh c ty d a) :=
  .ty1 (fam := .float) (mk := fun c t _ _ => .ftanh c t) rfl rfl rfl hw rfl (TTy.of_eq_some.2 rfl) rfl (.inr rfl) rfl
theorem frnd_decodes {c : Ctl} {ty : FTy} {r : Rnd} {d : Reg} {a : Src} (hw : (Instr.frnd c ty r d a).wf = true) :
    Decodes (.frnd c ty r d a) :=
  .ty1 (fam := .float) (mk := fun c t _ r => .frnd c t r) rfl rfl rfl hw rfl (FTy.of_eq_some.2 rfl) rfl (.inl rfl) rfl
theorem fclass_decodes {c : Ctl} {ty : FTy} {d : Reg} {a : Src} (hw : (Instr.fclass c ty d a).wf = true) :
    Decodes (.fclass c ty d a) :=
  .ty1 (fam := .float) (mk := fun c t _ _ => .fclass c t) rfl rfl rfl hw rfl (FTy.of_eq_some.2 rfl) rfl (.inr rfl) rfl
theorem fscale_decodes {c : Ctl} {ty : FTy} {r : Rnd} {d : Reg} {a : Src} {b : TSrc} (hw : (Instr.fscale c ty r d a b).wf = true) :
    Decodes (.fscale c ty r d a b) :=
  .ty2 (fam := .float) (mk := fun c t _ r => .fscale c t r) rfl rfl rfl hw rfl (FTy.of_eq_some.2 rfl) rfl (.inl rfl) rfl
theorem unbox_decodes {c : Ctl} {d : Reg} {a : Src} (hw : (Instr.unbox c d a).wf = true) : Decodes (.unbox c d a) :=
  .plain1 (fam := .convert) rfl rfl rfl hw rfl rfl
theorem tagof_decodes {c : Ctl} {d : Reg} {a : Src} (hw : (Instr.tagof c d a).wf = true) : Decodes (.tagof c d a) :=
  .plain1 (fam := .convert) rfl rfl rfl hw rfl rfl
theorem proot_decodes {c : Ctl} {d : Reg} {a : Src} (hw : (Instr.proot c d a).wf = true) : Decodes (.proot c d a) :=
  .plain1 (fam := .sync) rfl rfl rfl hw rfl rfl

/-- Every well-formed instruction decodes from its word; an event has none. -/
theorem wf_decodes {i : Instr} (hw : i.wf = true) : Decodes i := by
  cases i with
  | nop => exact nop_decodes hw
  | bra => exact bra_decodes hw
  | brx => exact brx_decodes hw
  | call => exact call_decodes hw
  | callx => exact callx_decodes hw
  | ret => exact ret_decodes hw
  | exit => exact exit_decodes hw
  | trap => exact trap_decodes hw
  | tret => exact tret_decodes hw
  | yield => exact yield_decodes hw
  | brk => exact brk_decodes hw
  | cwait => exact cwait_decodes hw
  | twait => exact twait_decodes hw
  | mfs => exact mfs_decodes hw
  | mts => exact mts_decodes hw
  | idem => exact idem_decodes hw
  | idend => exact idend_decodes hw
  | svdone => exact svdone_decodes hw
  | tlbiAll => exact tlbiAll_decodes hw
  | tlbiPage => exact tlbiPage_decodes hw
  | trig => exact trig_decodes hw
  | mark => exact mark_decodes hw
  | add => exact add_decodes hw
  | sub => exact sub_decodes hw
  | mul => exact mul_decodes hw
  | div => exact div_decodes hw
  | fldiv => exact fldiv_decodes hw
  | mod => exact mod_decodes hw
  | neg => exact neg_decodes hw
  | abs => exact abs_decodes hw
  | min => exact min_decodes hw
  | max => exact max_decodes hw
  | fma => exact fma_decodes hw
  | eq => exact eq_decodes hw
  | ne => exact ne_decodes hw
  | lt => exact lt_decodes hw
  | le => exact le_decodes hw
  | truth => exact truth_decodes hw
  | hash => exact hash_decodes hw
  | and => exact and_decodes hw
  | or => exact or_decodes hw
  | xor => exact xor_decodes hw
  | shl => exact shl_decodes hw
  | shr => exact shr_decodes hw
  | iadd => exact iadd_decodes hw
  | isub => exact isub_decodes hw
  | imul => exact imul_decodes hw
  | imulh => exact imulh_decodes hw
  | imad => exact imad_decodes hw
  | idiv => exact idiv_decodes hw
  | irem => exact irem_decodes hw
  | imin => exact imin_decodes hw
  | imax => exact imax_decodes hw
  | iabs => exact iabs_decodes hw
  | ineg => exact ineg_decodes hw
  | icmp => exact icmp_decodes hw
  | band => exact band_decodes hw
  | bor => exact bor_decodes hw
  | bxor => exact bxor_decodes hw
  | bnot => exact bnot_decodes hw
  | bshl => exact bshl_decodes hw
  | bshr => exact bshr_decodes hw
  | bsar => exact bsar_decodes hw
  | brol => exact brol_decodes hw
  | popc => exact popc_decodes hw
  | clz => exact clz_decodes hw
  | ctz => exact ctz_decodes hw
  | brev => exact brev_decodes hw
  | bfx => exact bfx_decodes hw
  | bfi => exact bfi_decodes hw
  | sel => exact sel_decodes hw
  | mov => exact mov_decodes hw
  | movi c d i =>
    cases i with
    | gen i => exact movi_gen_decodes ((Bool.and_eq_true_iff.1 hw).1)
    | typed t i => exact movi_typed_decodes hw
  | lea => exact lea_decodes hw
  | plop => exact plop_decodes hw
  | pbool => exact pbool_decodes hw
  | fadd => exact fadd_decodes hw
  | fsub => exact fsub_decodes hw
  | fmul => exact fmul_decodes hw
  | ffma => exact ffma_decodes hw
  | fdiv => exact fdiv_decodes hw
  | fsqrt => exact fsqrt_decodes hw
  | frcp => exact frcp_decodes hw
  | frsq => exact frsq_decodes hw
  | fmin => exact fmin_decodes hw
  | fmax => exact fmax_decodes hw
  | fabs => exact fabs_decodes hw
  | fneg => exact fneg_decodes hw
  | fcmp => exact fcmp_decodes hw
  | fexp2 => exact fexp2_decodes hw
  | flog2 => exact flog2_decodes hw
  | fsin => exact fsin_decodes hw
  | fcos => exact fcos_decodes hw
  | ftanh => exact ftanh_decodes hw
  | frnd => exact frnd_decodes hw
  | fclass => exact fclass_decodes hw
  | fscale => exact fscale_decodes hw
  | cvt => exact cvt_decodes hw
  | cvtpk => exact cvtpk_decodes hw
  | cvtxp => exact cvtxp_decodes hw
  | box c f d a =>
    cases f with
    | ofType t => exact box_type_decodes hw
    | ofTag t => exact box_tag_decodes hw
  | unbox => exact unbox_decodes hw
  | tagof => exact tagof_decodes hw
  | tagset => exact tagset_decodes hw
  | tagchk => exact tagchk_decodes hw
  | ld => exact ld_decodes hw
  | st => exact st_decodes hw
  | atom => exact atom_decodes hw
  | red => exact red_decodes hw
  | casw => exact casw_decodes hw
  | fence => exact fence_decodes hw
  | pref => exact pref_decodes hw
  | nalloc => exact nalloc_decodes hw
  | hdrld => exact hdrld_decodes hw
  | fwdcas => exact fwdcas_decodes hw
  | refchk => exact refchk_decodes hw
  | barinit => exact barinit_decodes hw
  | bararr => exact bararr_decodes hw
  | bartx => exact bartx_decodes hw
  | bwait => exact bwait_decodes hw
  | btest => exact btest_decodes hw
  | pinit => exact pinit_decodes hw
  | pfill => exact pfill_decodes hw
  | peq => exact peq_decodes hw
  | pwait => exact pwait_decodes hw
  | pget => exact pget_decodes hw
  | proot => exact proot_decodes hw
  | vote => exact vote_decodes hw
  | shfl => exact shfl_decodes hw
  | gred => exact gred_decodes hw
  | gscan => exact gscan_decodes hw
  | mtch => exact mtch_decodes hw
  | elect => exact elect_decodes hw
  | hinfo => exact hinfo_decodes hw
  | tclaim => exact tclaim_decodes hw
  | trel => exact trel_decodes hw
  | tload => exact tload_decodes
  | tmma => exact tmma_decodes
  | tstore => exact tstore_decodes
  | tzero => exact tzero_decodes
  | tarr => exact tarr_decodes
  | tbwt => exact tbwt_decodes
  | tloop => exact tloop_decodes hw
  | tendl => exact tendl_decodes
  | tstop => exact tstop_decodes
  | tchk => exact tchk_decodes hw
  | cpy => exact cpy_decodes hw
  | cpym => exact cpym_decodes hw
  | cpyg => exact cpyg_decodes hw
  | cpyr => exact cpyr_decodes hw
  | nmatch => exact nmatch_decodes hw
  | nunmatch => exact nunmatch_decodes hw
  | ralloc => exact ralloc_decodes hw
  | rcommit => exact rcommit_decodes hw
  | rdone => exact rdone_decodes hw
  | rflush => exact rflush_decodes hw
  | rcard => exact rcard_decodes hw
  | demotionExpiry | storeRegistration | waitTimeout | waitRetest =>
    intro f he
    cases he
  | _ => ?_
  -- SEAL and UNSEAL, whose names Lean keeps for its commands, and then the other events
  · exact seal_decodes hw
  · exact unseal_decodes hw
  all_goals
    intro f he
    cases he

namespace Machine.Claim

/-- Settles O56: each opcode's decoder reads from its word the operands that the encoder put there. -/
theorem decodeOfEncode : Obligations.DecodeOfEncode := by
  unfold Obligations.DecodeOfEncode
  intro i w hw he
  obtain ⟨f, hf, rfl⟩ := Option.map_eq_some_iff.1 he
  rw [decode, Fields.ofWord_toWord]
  exact wf_decodes hw f hf

end Machine.Claim
end Sys2Proof
end

section
/-! Typed integer arithmetic and comparison (spec 13_typed R152, R154), moves and addresses (R159 to R161). -/
namespace Sys2Proof.Machine.Claim

theorem loOf_eq_least (t : ITy) : loOf t = least t := by cases t <;> rfl
theorem hiOf_eq_greatest (t : ITy) : hiOf t = greatest t := by cases t <;> rfl

/-- A number bounded to the range of a type is of the type. -/
theorem clamp_inRange (t : ITy) (e : Int) : InRange t (clamp (least t) (greatest t) e) := by
  have h0 := least_nonpos t
  have h1 := greatest_nonneg t
  unfold InRange clamp
  omega

/-- The arithmetic of the model is that of R152. -/
theorem arith_eq_fitInt (t : ITy) (sat : Bool) (e : Int) : arith t sat e = fitInt t sat e := by
  unfold arith fitInt
  cases sat with
  | false => exact putInt_eq_keep t e
  | true =>
    have h0 := least_nonpos t
    have h1 := greatest_nonneg t
    have hc := putInt_of_inRange (clamp_inRange t e)
    simp only [if_true, loOf_eq_least, hiOf_eq_greatest, hc]
    unfold clamp
    split
    next h => congr 2; omega
    next h =>
      split
      next h => congr 2; omega
      next h => congr 2; omega

/-- An integer instruction of A and B completes with the arithmetic of R152. -/
theorem int2_fits {i : Instr} {c : Ctl} {ty : ITy} {sat : Bool} {d : Reg} {a : Src} {b : TSrc} {f : Int → Int → Int}
    {s : State} {z : Bool} {p : Path} (he : exec i s = .next (int2 i c .alu ty sat d a b f s)) (h : Issues i c s z p) :
    GivesVal i c .alu d s z p fun t l =>
      fitInt ty sat (f (number ty (rdSrc t z c.ix a l).pay) (number ty (rdT t z c.ix ty.ty b l).pay)) := by
  simpa only [arith_eq_fitInt, valOf_eq_number] using typedV_gives he h

theorem natAbs_eq_ite (x : Int) : (x.natAbs : Int) = if x < 0 then -x else x := by split <;> omega

/-- Settles O1: Put of a number bounded to the type's range, or taken modulo 2 to the width, is the result of R152. -/
theorem integerArithmetic : Obligations.IntegerArithmetic := by
  unfold Obligations.IntegerArithmetic
  intro c ty sy sat d a b k s z p x y v x'
  refine ⟨int2_fits rfl, int2_fits rfl, int2_fits rfl, fun h => ?_, fun h => ?_, fun h => ?_, fun h => ?_, fun h => ?_, fun h => ?_⟩
  case refine_1 => simpa only [arith_eq_fitInt, valOf_eq_number] using typedV_gives rfl h
  case refine_2 =>
    have hd (e : Int) : e.fdiv (2 ^ ty.w) = e / 2 ^ ty.w := Int.fdiv_eq_ediv_of_nonneg e (by positivity)
    simpa only [hd] using int2_fits rfl h
  case refine_3 => simpa only [min_def] using int2_fits rfl h
  case refine_4 => simpa only [max_def] using int2_fits rfl h
  case refine_5 =>
    simp only [← natAbs_eq_ite]
    simpa only [arith_eq_fitInt, valOf_eq_number] using typedV_gives rfl h
  case refine_6 => simpa only [arith_eq_fitInt, valOf_eq_number] using typedV_gives rfl h

/-- Settles O6: the conditions of ICMP are those of the two numbers, and LEA's shift is a multiplication by a power of 2. -/
theorem compareAndMove : Obligations.CompareAndMove := by
  unfold Obligations.CompareAndMove
  refine ⟨fun c ty k d a b s z p h => ?_, fun c d a g b im ii q sh s z p =>
    ⟨fun h => typedV_gives rfl h, fun h => ?_, fun h => typedV_gives (f := fun _ _ _ => movImm ii) rfl h, fun h => ?_, fun h => ?_⟩⟩
  case refine_1 =>
    have hg := typedP_gives (i := .icmp c ty k d a b) rfl h
    simp only [valOf_eq_number] at hg
    cases k <;> simpa only [icond, Bool.beq_eq_decide_eq, bne, ← decide_not] using hg
  case refine_2 =>
    exact typedV_gives (f := fun t z l => if rdPred t q l then rdSrc t z c.ix a l else rdG t z c.ix g l) rfl h
  all_goals simpa only [BitVec.shiftLeft_eq_mul_twoPow] using typedV_gives rfl h

end Sys2Proof.Machine.Claim
end

section
/-! Exact float values as rational numbers: the order, sums, products, quotients, roots and whole numbers that the operations give
(spec 13_typed R167 to R175, 11_generic R126, R127). -/
namespace Sys2Proof.Machine.Claim

/-! ### Magnitudes -/

theorem ratOf_nonneg (m : Nat) (e : Int) : 0 ≤ ratOf m e := by unfold ratOf; positivity
theorem ratOf_zero (e : Int) : ratOf 0 e = 0 := by simp [ratOf]
theorem ratOf_eq_zero {m : Nat} {e : Int} : ratOf m e = 0 ↔ m = 0 := by
  have : (2 : ℚ) ^ e ≠ 0 := by positivity
  simp [ratOf, this]
theorem ratOf_mul (m k : Nat) (e d : Int) : ratOf m e * ratOf k d = ratOf (m * k) (e + d) := by
  unfold ratOf
  rw [zpow_add₀ (by norm_num)]
  push_cast
  ring
/-- A magnitude at a lower exponent. -/
theorem ratOf_lower (m : Nat) {e q : Int} (h : q ≤ e) : ratOf m e = ratOf (m * 2 ^ (e - q).toNat) q := by
  unfold ratOf
  have he : (2 : ℚ) ^ e = 2 ^ (e - q).toNat * 2 ^ q := by
    rw [← zpow_natCast, ← zpow_add₀ (by norm_num)]
    congr 1
    omega
  rw [he]
  push_cast
  ring
theorem ratOf_lt {m k : Nat} {e : Int} : ratOf m e < ratOf k e ↔ m < k := by
  unfold ratOf
  rw [mul_lt_mul_iff_left₀ (by positivity)]
  exact Nat.cast_lt
theorem ratOf_le {m k : Nat} {e : Int} : ratOf m e ≤ ratOf k e ↔ m ≤ k := by
  unfold ratOf
  rw [mul_le_mul_iff_left₀ (by positivity)]
  exact Nat.cast_le

/-- The signed integer of a value at a lower exponent. -/
theorem scaled_mul (n : Bool) (m : Nat) {e q : Int} (h : q ≤ e) : (scaled n m e q : ℚ) * 2 ^ q = signedBy n (ratOf m e) := by
  rw [ratOf_lower m h]
  unfold scaled signedBy ratOf
  cases n <;> simp
theorem scaled_pos {x : Int} {q : Int} : 0 < (x : ℚ) * 2 ^ q ↔ 0 < x := by
  have h : (0 : ℚ) < 2 ^ q := by positivity
  rw [mul_pos_iff_of_pos_right h]
  exact Int.cast_pos
theorem scaled_eq_zero {x : Int} {q : Int} : (x : ℚ) * 2 ^ q = 0 ↔ x = 0 := by
  have h : (2 : ℚ) ^ q ≠ 0 := by positivity
  simp [h]
theorem scaled_neg {x : Int} {q : Int} : (x : ℚ) * 2 ^ q < 0 ↔ x < 0 := by
  have h : (0 : ℚ) < 2 ^ q := by positivity
  rw [← neg_pos, ← neg_mul, mul_pos_iff_of_pos_right h, neg_pos]
  exact Int.cast_lt_zero
theorem scaled_abs (x : Int) (q : Int) : |(x : ℚ) * 2 ^ q| = ratOf x.natAbs q := by
  have h : (0 : ℚ) ≤ 2 ^ q := by positivity
  rw [abs_mul, abs_of_nonneg h, ratOf, ← Int.cast_abs, Int.abs_eq_natAbs, Int.cast_natCast]

/-! ### The order -/

/-- The order of two values that are no NaN is the sign of their comparison. -/
theorem orderOf_eq_cmp {a b : FVal} (ha : a.isNan = false) (hb : b.isNan = false) : orderOf a b = some (compare (a.cmp b) 0) := by
  cases a with
  | nan => cases ha
  | inf n =>
    cases b with
    | nan => cases hb
    | inf m => cases n <;> cases m <;> decide
    | fin => cases n <;> rfl
  | fin n k e =>
    cases b with
    | nan => cases hb
    | inf m => cases m <;> rfl
    | fin m j d =>
      unfold orderOf FVal.cmp cmpFin
      have h1 := scaled_mul n k (min_le_left e d)
      have h2 := scaled_mul m j (min_le_right e d)
      dsimp only
      rw [← h1, ← h2]
      generalize scaled n k e (min e d) = x
      generalize scaled m j d (min e d) = y
      have hs : ((x - y : Int) : ℚ) * 2 ^ min e d = (x : ℚ) * 2 ^ min e d - (y : ℚ) * 2 ^ min e d := by push_cast; ring
      congr 1
      rcases lt_trichotomy (x - y) 0 with h | h | h
      · rw [compare_lt_iff_lt.2 h, compare_lt_iff_lt, ← sub_neg, ← hs]
        exact scaled_neg.2 h
      · rw [compare_eq_iff_eq.2 h, compare_eq_iff_eq, ← sub_eq_zero, ← hs]
        exact scaled_eq_zero.2 h
      · rw [compare_gt_iff_gt.2 h, compare_gt_iff_gt, ← sub_pos, ← hs]
        exact scaled_pos.2 h
theorem orderOf_nan {a b : FVal} (h : (a.isNan || b.isNan) = true) : orderOf a b = none := by
  cases a with
  | nan => cases b <;> rfl
  | inf | fin =>
    cases b with
    | nan => rfl
    | inf | fin => cases h

/-- The quiet comparison, by the order. -/
theorem fcond_eq_quietly (c : FCond) (a b : FVal) : fcond c a b = quietly c (orderOf a b) := by
  cases h : a.isNan || b.isNan with
  | true =>
    rw [orderOf_nan h]
    cases c <;> simp [fcond, quietly, h]
  | false =>
    obtain ⟨ha, hb⟩ := Bool.or_eq_false_iff.1 h
    rw [orderOf_eq_cmp ha hb]
    unfold fcond
    simp only [h]
    rcases lt_trichotomy (a.cmp b) 0 with hd | hd | hd
    · rw [compare_lt_iff_lt.2 hd]
      cases c with
      | ne => exact bne_iff_ne.2 hd.ne
      | _ => simp [quietly, hd, hd.le, hd.ne, hd.not_gt, hd.not_ge]
    · rw [hd]
      cases c <;> rfl
    · rw [compare_gt_iff_gt.2 hd]
      cases c with
      | ne => exact bne_iff_ne.2 hd.ne'
      | _ => simp [quietly, hd, hd.le, hd.ne', hd.not_gt, hd.not_ge]

/-! ### Sums, products and what a format takes of a value -/

theorem finiteIs_fin (n : Bool) (m : Nat) (e : Int) : FiniteIs (.fin n m e) n (ratOf m e) := ⟨m, e, rfl, rfl⟩
theorem finiteIs_nonneg {v : FVal} {n : Bool} {x : ℚ} (h : FiniteIs v n x) : 0 ≤ x := by
  obtain ⟨m, e, -, rfl⟩ := h
  exact ratOf_nonneg m e

theorem add_sumIs (r : Rnd) (a b : FVal) : SumIs r a b (a.add r b) := by
  refine ⟨?_, ?_, ?_, ?_, ?_⟩
  · rintro h
    cases a <;> cases b <;> simp_all [FVal.isNan, FVal.add]
  · rintro n m rfl rfl
    cases n <;> cases m <;> rfl
  · rintro n m _ rfl ⟨_, _, rfl, -⟩
    rfl
  · rintro n m _ ⟨_, _, rfl, -⟩ rfl
    rfl
  · rintro n _ m _ ⟨k, e, rfl, rfl⟩ ⟨j, d, rfl, rfl⟩
    have h1 := scaled_mul n k (min_le_left e d)
    have h2 := scaled_mul m j (min_le_right e d)
    dsimp only [FVal.add]
    rw [← h1, ← h2]
    generalize scaled n k e (min e d) = x
    generalize scaled m j d (min e d) = y
    rw [← add_mul, ← Int.cast_add]
    by_cases h : x + y = 0
    · rw [if_pos h, if_pos (scaled_eq_zero.2 h), h]
      refine ⟨0, min e d, ?_, by simp [ratOf_zero]⟩
      cases n <;> cases m <;> cases r <;> rfl
    · rw [if_neg h, if_neg (mt scaled_eq_zero.1 h)]
      refine ⟨_, _, ?_, scaled_abs _ _⟩
      simp only [scaled_neg]

theorem mul_productIs (a b : FVal) : ProductIs a b (a.mul b) := by
  refine ⟨?_, ?_, ?_, ?_⟩
  · rintro h
    cases a <;> cases b <;> simp_all [FVal.isNan, FVal.mul]
  · rintro n m rfl rfl
    rfl
  · rintro n m _ (⟨rfl, j, d, rfl, rfl⟩ | ⟨⟨j, d, rfl, rfl⟩, rfl⟩)
    · by_cases h : j = 0
      · simp [FVal.mul, h, ratOf_zero, FVal.isNan]
      · simp [FVal.mul, h, ratOf_eq_zero]
    · by_cases h : j = 0
      · simp [FVal.mul, h, ratOf_zero, FVal.isNan]
      · simp [FVal.mul, h, ratOf_eq_zero]
  · rintro n _ m _ ⟨k, e, rfl, rfl⟩ ⟨j, d, rfl, rfl⟩
    exact ⟨_, _, rfl, ratOf_mul _ _ _ _⟩

/-- A format's rounding of a finite value is one rounding. -/
theorem round_roundedTo (f : Fmt) (r : Rnd) (n : Bool) (m : Nat) (e : Int) : RoundedTo f r n (ratOf m e) (f.round r n m e) :=
  .inl ⟨m, e, rfl, rfl⟩
theorem put_putIs (f : Fmt) (r : Rnd) (v : FVal) : PutIs f r v (f.put r v) := by
  refine ⟨fun h => ?_, ?_, ?_⟩
  · cases v with
    | nan => rfl
    | inf | fin => cases h
  · rintro n rfl
    rfl
  · rintro n _ ⟨m, e, rfl, rfl⟩
    exact round_roundedTo f r n m e

/-! ### Quotients and roots -/

/-- A format's rounding of an interval of more than 60 bits, or of an exact magnitude. -/
theorem roundS_roundedOnce {f : Fmt} {r : Rnd} {n : Bool} {m : Nat} {e : Int} {sticky : Bool} {is below above : ℚ → Prop}
    (hx : sticky = false → is (ratOf m e)) (hi : sticky = true → 2 ^ 60 ≤ m ∧ below (ratOf m e) ∧ above (ratOf (m + 1) e)) :
    RoundedOnce f r n is below above (f.roundS r n m e sticky) := by
  cases sticky with
  | false => exact .inl ⟨m, e, rfl, hx rfl⟩
  | true => exact .inr ⟨m, e, rfl, hi rfl⟩

theorem ratOf_succ_cast (m : Nat) (e : Int) : ratOf (m + 1) e = ((m : ℚ) + 1) * 2 ^ e := by
  rw [ratOf]
  push_cast
  rfl

/-- The scaled quotient of two magnitudes. -/
theorem ratOf_div {m k : Nat} (hk : k ≠ 0) (e d : Int) (s : Nat) :
    ratOf m e / ratOf k d = (m * 2 ^ s : Nat) / (k : Nat) * (2 : ℚ) ^ (e - d - s) := by
  have hk : (k : ℚ) ≠ 0 := Nat.cast_ne_zero.2 hk
  have h2 (x : Int) : (2 : ℚ) ^ x ≠ 0 := by positivity
  unfold ratOf
  rw [zpow_sub₀ (by norm_num), zpow_sub₀ (by norm_num), zpow_natCast]
  push_cast
  have := h2 d
  field_simp

theorem two_pow_le_quot {m k : Nat} (hm : m ≠ 0) (hk : k ≠ 0) : 2 ^ 60 ≤ m * 2 ^ (80 + Nat.log2 k) / k := by
  rw [Nat.le_div_iff_mul_le (Nat.pos_of_ne_zero hk)]
  have h1 : k < 2 ^ (Nat.log2 k + 1) := Nat.lt_log2_self
  have h2 : 1 ≤ m := Nat.pos_of_ne_zero hm
  calc 2 ^ 60 * k ≤ 2 ^ 60 * 2 ^ (Nat.log2 k + 1) := Nat.mul_le_mul_left _ h1.le
    _ ≤ 1 * 2 ^ (80 + Nat.log2 k) := by
      rw [one_mul, ← pow_add]
      exact Nat.pow_le_pow_right (by decide) (by omega)
    _ ≤ m * 2 ^ (80 + Nat.log2 k) := Nat.mul_le_mul_right _ h2

theorem div_quotientIs (f : Fmt) (r : Rnd) (a b : FVal) : QuotientIs f r a b (f.div r a b) := by
  refine ⟨?_, ?_, ?_, ?_, ?_⟩
  · rintro h
    cases a <;> cases b <;> simp_all [FVal.isNan, Fmt.div]
  · rintro n m rfl rfl
    rfl
  · rintro n m _ rfl ⟨_, _, rfl, -⟩
    rfl
  · rintro n m _ ⟨_, _, rfl, -⟩ rfl
    rfl
  · rintro n _ l _ ⟨m, e, rfl, rfl⟩ ⟨k, d, rfl, rfl⟩
    simp only [ratOf_eq_zero, ne_eq, Fmt.div]
    refine ⟨fun hk hm => by simp [hk, hm], fun hk hm => by simp [hk, hm], fun hk => ?_⟩
    rw [if_neg hk]
    set s := 80 + Nat.log2 k with hs
    have hkq : (0 : ℚ) < k := Nat.cast_pos.2 (Nat.pos_of_ne_zero hk)
    have hp : (0 : ℚ) < 2 ^ (e - d - (s : Nat)) := by positivity
    apply roundS_roundedOnce
    · intro h0
      have h0 : m * 2 ^ s % k = 0 := by simpa using h0
      rw [ratOf_div hk e d s, ratOf, Nat.cast_div (Nat.dvd_of_mod_eq_zero h0) hkq.ne']
    · intro h0
      have h0 : m * 2 ^ s % k ≠ 0 := by simpa using h0
      have hm : m ≠ 0 := by
        rintro rfl
        simp at h0
      refine ⟨two_pow_le_quot hm hk, ?_, ?_⟩
      · rw [ratOf_div hk e d s, ratOf, mul_lt_mul_iff_left₀ hp, lt_div_iff₀ hkq]
        exact_mod_cast lt_of_le_of_ne (Nat.div_mul_le_self _ _) 
          fun h => h0 (Nat.mod_eq_zero_of_dvd (Dvd.intro_left _ h))
      · rw [ratOf_div hk e d s, ratOf, mul_lt_mul_iff_left₀ hp, div_lt_iff₀ hkq]
        exact_mod_cast (Nat.div_lt_iff_lt_mul (Nat.pos_of_ne_zero hk)).1 (Nat.lt_succ_self _)

/-- The bits of a root, from the highest: the root stays between what is found and what the bits left can add. -/
theorem isqrtBits_spec (k n : Nat) : ∀ acc, acc * acc ≤ n → n < (acc + 2 ^ k) * (acc + 2 ^ k) →
    isqrtBits k n acc * isqrtBits k n acc ≤ n ∧ n < (isqrtBits k n acc + 1) * (isqrtBits k n acc + 1) := by
  induction k with
  | zero => exact fun acc h0 h1 => ⟨h0, h1⟩
  | succ k ih =>
    intro acc h0 h1
    have h2 : acc + 2 ^ (k + 1) = acc + 2 ^ k + 2 ^ k := by rw [pow_succ]; omega
    unfold isqrtBits
    dsimp only
    split
    next h => exact ih _ h (h2 ▸ h1)
    next h => exact ih _ h0 (Nat.lt_of_not_le h)
theorem isqrt_spec {n : Nat} (h : n < 2 ^ 256) : isqrt n * isqrt n ≤ n ∧ n < (isqrt n + 1) * (isqrt n + 1) :=
  isqrtBits_spec 128 n 0 (Nat.zero_le _) (by simpa using h)
theorem le_isqrt {n k : Nat} (h : n < 2 ^ 256) (hk : k * k ≤ n) : k ≤ isqrt n := by
  by_contra hlt
  have := (isqrt_spec h).2
  have : (isqrt n + 1) * (isqrt n + 1) ≤ k * k := Nat.mul_le_mul (by omega) (by omega)
  omega

/-- What the root of a magnitude at an even exponent is compared with: y y against m 2^d, for y = q 2^(d / 2). -/
theorem ratOf_sq {d : Int} (hd : d % 2 = 0) (q : Nat) : ratOf q (d / 2) * ratOf q (d / 2) = ratOf (q * q) d := by
  rw [ratOf_mul]
  congr 1
  omega

theorem sqrt_rootIs (f : Fmt) (r : Rnd) {a : FVal} (hb : ∀ n m e, a = .fin n m e → m < 2 ^ 64) : RootIs f r a (f.sqrt r a) := by
  refine ⟨?_, ?_, ?_, ?_⟩
  · rintro h
    cases a with
    | nan => rfl
    | inf | fin => cases h
  · rintro rfl
    rfl
  · rintro rfl
    rfl
  · rintro n _ ⟨m, e, rfl, rfl⟩
    simp only [ratOf_eq_zero, ne_eq, Fmt.sqrt]
    refine ⟨fun hm => by simp [hm], fun hm hn => by simp [hm, hn], fun hm hn => ?_⟩
    rw [if_neg hm, if_neg (by simp [hn])]
    obtain ⟨s, hs, hpar, hlo, hhi⟩ : ∃ s : Nat, (if e % 2 = 0 then 140 else 141) = s ∧ (e - s) % 2 = 0 ∧ 140 ≤ s ∧ s ≤ 141 := by
      refine ⟨_, rfl, ?_⟩
      split <;> omega
    rw [hs]
    have hm64 := hb n m e rfl
    have hx : m * 2 ^ s < 2 ^ 256 := by
      calc m * 2 ^ s < 2 ^ 64 * 2 ^ s := Nat.mul_lt_mul_of_pos_right hm64 (Nat.two_pow_pos _)
        _ ≤ 2 ^ 64 * 2 ^ 141 := Nat.mul_le_mul_left _ (Nat.pow_le_pow_right (by decide) hhi)
        _ ≤ 2 ^ 256 := by decide
    obtain ⟨h1, h2⟩ := isqrt_spec hx
    have he : ratOf m e = ratOf (m * 2 ^ s) (e - s) := by
      rw [ratOf_lower m (show e - s ≤ e by omega)]
      congr
      omega
    apply roundS_roundedOnce
    · intro h0
      have h0 : isqrt (m * 2 ^ s) * isqrt (m * 2 ^ s) = m * 2 ^ s := by simpa using h0
      rw [ratOf_sq hpar, he, h0]
    · intro h0
      have h0 : isqrt (m * 2 ^ s) * isqrt (m * 2 ^ s) ≠ m * 2 ^ s := by simpa using h0
      refine ⟨le_isqrt hx ?_, ?_, ?_⟩
      · calc 2 ^ 60 * 2 ^ 60 ≤ 1 * 2 ^ 140 := by decide
          _ ≤ m * 2 ^ s := Nat.mul_le_mul (by omega) (Nat.pow_le_pow_right (by decide) hlo)
      · rw [ratOf_sq hpar, he, ratOf_lt]
        exact lt_of_le_of_ne h1 h0
      · rw [ratOf_sq hpar, he, ratOf_lt]
        exact h2

theorem rsqrt_inverseRootIs (f : Fmt) (r : Rnd) {a : FVal} (hb : ∀ n m e, a = .fin n m e → m < 2 ^ 64) :
    InverseRootIs f r a (f.rsqrt r a) := by
  refine ⟨?_, ?_, ?_, ?_⟩
  · rintro h
    cases a with
    | nan => rfl
    | inf | fin => cases h
  · rintro rfl
    rfl
  · rintro rfl
    rfl
  · rintro n _ ⟨m, e, rfl, rfl⟩
    simp only [ratOf_eq_zero, ne_eq, Fmt.rsqrt]
    refine ⟨fun hm => by simp [hm], fun hm hn => by simp [hm, hn], fun hm hn => ?_⟩
    rw [if_neg hm, if_neg (by simp [hn])]
    obtain ⟨s, hs, hpar, hlo, hhi⟩ : ∃ s : Nat, (if e % 2 = 0 then 220 else 221) = s ∧ (-e - s) % 2 = 0 ∧ 220 ≤ s ∧ s ≤ 221 := by
      refine ⟨_, rfl, ?_⟩
      split <;> omega
    rw [hs]
    have hm64 := hb n m e rfl
    have hmpos : 0 < m := Nat.pos_of_ne_zero hm
    have hx : 2 ^ s / m < 2 ^ 256 := by
      calc 2 ^ s / m ≤ 2 ^ s := Nat.div_le_self _ _
        _ ≤ 2 ^ 221 := Nat.pow_le_pow_right (by decide) hhi
        _ < 2 ^ 256 := by decide
    obtain ⟨h1, h2⟩ := isqrt_spec hx
    have hone : (1 : ℚ) = ratOf (2 ^ s) (-s) := by
      rw [ratOf, zpow_neg, zpow_natCast]
      push_cast
      rw [mul_inv_cancel₀ (by positivity)]
    have hy (q : Nat) : ratOf q ((-e - s) / 2) * ratOf q ((-e - s) / 2) * ratOf m e = ratOf (q * q * m) (-s) := by
      rw [ratOf_sq hpar, ratOf_mul]
      congr 1
      omega
    apply roundS_roundedOnce
    · intro h0
      have h0 : isqrt (2 ^ s / m) * isqrt (2 ^ s / m) * m = 2 ^ s := by simpa using h0
      rw [hy, h0, ← hone]
    · intro h0
      have h0 : isqrt (2 ^ s / m) * isqrt (2 ^ s / m) * m ≠ 2 ^ s := by simpa using h0
      refine ⟨le_isqrt hx ?_, ?_, ?_⟩
      · rw [Nat.le_div_iff_mul_le hmpos]
        calc 2 ^ 60 * 2 ^ 60 * m ≤ 2 ^ 60 * 2 ^ 60 * 2 ^ 64 := Nat.mul_le_mul_left _ hm64.le
          _ ≤ 2 ^ 220 := by decide
          _ ≤ 2 ^ s := Nat.pow_le_pow_right (by decide) hlo
      · rw [hy, hone, ratOf_lt]
        exact lt_of_le_of_ne ((Nat.le_div_iff_mul_le hmpos).1 h1) h0
      · rw [hy, hone, ratOf_lt]
        exact (Nat.div_lt_iff_lt_mul hmpos).1 h2

/-- The significand that a code holds. -/
theorem decode_fin_lt {f : Fmt} (hf : f.mb ≤ 52) {x : Nat} {n : Bool} {m : Nat} {e : Int} (h : f.decode x = .fin n m e) : m < 2 ^ 64 := by
  have hm : x % 2 ^ f.mb < 2 ^ 52 :=
    lt_of_lt_of_le (Nat.mod_lt _ (Nat.two_pow_pos _)) (Nat.pow_le_pow_right (by decide) hf)
  have hp : 2 ^ f.mb ≤ 2 ^ 52 := Nat.pow_le_pow_right (by decide) hf
  unfold Fmt.decode at h
  dsimp only at h
  split at h
  · split at h
    · cases h
    · cases h
      decide
  · split at h
    · split at h <;> cases h
    · split at h
      · cases h
      · split at h
        · cases h
          omega
        · cases h
          omega

end Sys2Proof.Machine.Claim
end

section
/-! The typed float instructions (spec 13_typed R165 to R175). -/
namespace Sys2Proof.Machine.Claim

theorem pty_mb_le (t : PTy) : t.fmt.mb ≤ 52 := by
  cases t with
  | one f => cases f <;> decide
  | _ => decide
theorem pty_no_ne (t : PTy) : t.fmt.no ≠ 11 := by
  cases t with
  | one f => cases f <;> decide
  | _ => decide
theorem elem_fin_lt (t : PTy) (x : Val) (k : Nat) : ∀ n m e, elem t x k = .fin n m e → m < 2 ^ 64 :=
  fun _ _ _ h => decode_fin_lt (pty_mb_le t) h

/-- A float instruction of A and B completes with its function of the codes of each element. -/
theorem float2_gives {i : Instr} {c : Ctl} {lat : Lat} {t : PTy} {d : Reg} {a : Src} {b : TSrc} {f : Nat → Nat → Nat} {s : State}
    {z : Bool} {p : Path} (he : exec i s = .next (float2 i c lat t d a b f s)) (h : Issues i c s z p) :
    GivesVal i c lat d s z p fun u l =>
      floatOut t fun e => f (floatIn t (rdSrc u z c.ix a l) e) (floatIn t (rdT u z c.ix t.ty b l) e) :=
  typedV_gives he h
/-- A float instruction of A completes with its function of the code of each element. -/
theorem float1_gives {i : Instr} {c : Ctl} {lat : Lat} {t : PTy} {d : Reg} {a : Src} {f : Nat → Nat} {s : State}
    {z : Bool} {p : Path} (he : exec i s = .next (float1 i c lat t d a f s)) (h : Issues i c s z p) :
    GivesVal i c lat d s z p fun u l => floatOut t fun e => f (floatIn t (rdSrc u z c.ix a l) e) :=
  typedV_gives he h

/-- Settles O9: each operation is exact, and the format rounds its value once; a quotient or a root that is not exact lies inside
an interval of more than 60 bits. -/
theorem floatArithmetic : Obligations.FloatArithmetic := by
  unfold Obligations.FloatArithmetic
  intro c ty fy r d a b k s z p A B K A' B'
  refine ⟨fun h => ⟨_, float2_gives rfl h, fun t l e => ⟨_, add_sumIs _ _ _, put_putIs _ _ _⟩⟩,
    fun h => ⟨_, float2_gives rfl h, fun t l e => ⟨_, add_sumIs _ _ _, put_putIs _ _ _⟩⟩,
    fun h => ⟨_, float2_gives rfl h, fun t l e => ⟨_, mul_productIs _ _, put_putIs _ _ _⟩⟩,
    fun h => ⟨_, typedV_gives rfl h, fun t l e => ⟨_, _, mul_productIs _ _, add_sumIs _ _ _, put_putIs _ _ _⟩⟩,
    fun h => ⟨_, float2_gives rfl h, fun t l e => div_quotientIs _ _ _ _⟩,
    fun h => ⟨_, float1_gives rfl h, fun t l e => sqrt_rootIs _ _ (elem_fin_lt _ _ _)⟩,
    fun h => ⟨_, float1_gives rfl h, fun t l e => div_quotientIs _ _ _ _⟩,
    fun h => ⟨_, float1_gives rfl h, fun t l e => rsqrt_inverseRootIs _ _ (elem_fin_lt _ _ _)⟩⟩

/-! ### Selection and sign -/

theorem cmp_swap {a b : FVal} (ha : a.isNan = false) (hb : b.isNan = false) : b.cmp a = -a.cmp b := by
  cases a with
  | nan => cases ha
  | inf n =>
    cases b with
    | nan => cases hb
    | inf m => cases n <;> cases m <;> decide
    | fin => cases n <;> rfl
  | fin n k e =>
    cases b with
    | nan => cases hb
    | inf m => cases m <;> rfl
    | fin m j d =>
      simp only [FVal.cmp, cmpFin, min_comm d e]
      omega
theorem belowOf_eq_cmp {a b : FVal} (ha : a.isNan = false) (hb : b.isNan = false) :
    belowOf a b = if a.cmp b = 0 then a.neg && !b.neg else decide (a.cmp b < 0) := by
  unfold belowOf
  rw [orderOf_eq_cmp ha hb]
  rcases lt_trichotomy (a.cmp b) 0 with hd | hd | hd
  · rw [compare_lt_iff_lt.2 hd, if_neg hd.ne, decide_eq_true hd]
    rfl
  · rw [hd, if_pos rfl]
    rfl
  · rw [compare_gt_iff_gt.2 hd, if_neg hd.ne', decide_eq_false hd.not_gt]
    rfl
theorem belowOf_asymm {a b : FVal} (ha : a.isNan = false) (hb : b.isNan = false) (h : belowOf b a = true) : belowOf a b = false := by
  rw [belowOf_eq_cmp hb ha, cmp_swap ha hb] at h
  rw [belowOf_eq_cmp ha hb]
  split at h
  next h0 =>
    rw [if_pos (by omega)]
    cases ha : a.neg <;> simp_all
  next h0 =>
    rw [if_neg (by omega)]
    have := of_decide_eq_true h
    exact decide_eq_false (by omega)
theorem not_nan_of_belowOf {a b : FVal} (h : belowOf a b = true) : a.isNan = false ∧ b.isNan = false := by
  by_contra hn
  have : (a.isNan || b.isNan) = true := by cases ha : a.isNan <;> cases hb : b.isNan <;> simp_all
  rw [belowOf, orderOf_nan this] at h
  cases h

/-- The choice of FMIN and FMAX among two codes that hold numbers. -/
theorem minmax_of_numbers {f : Fmt} {x y : Nat} (ha : (f.decode x).isNan = false) (hb : (f.decode y).isNan = false) (m : Bool) :
    f.minmax m x y = if (belowOf (f.decode x) (f.decode y) != m) = true then x else y := by
  unfold Fmt.minmax
  rw [belowOf_eq_cmp ha hb]
  simp only [ha, hb, Bool.and_self, Bool.false_eq_true, if_false]
theorem minmax_nan {f : Fmt} {x y : Nat} (m : Bool) :
    ((f.decode x).isNan = true → (f.decode y).isNan = true → f.minmax m x y = f.nan) ∧
      ((f.decode x).isNan = true → (f.decode y).isNan = false → f.minmax m x y = y) ∧
        ((f.decode x).isNan = false → (f.decode y).isNan = true → f.minmax m x y = x) := by
  refine ⟨fun ha hb => ?_, fun ha hb => ?_, fun ha hb => ?_⟩ <;> simp [Fmt.minmax, ha, hb]
theorem minmax_minIs (f : Fmt) (x y : Nat) : MinIs f x y (f.minmax false x y) := by
  obtain ⟨h1, h2, h3⟩ := minmax_nan (f := f) (x := x) (y := y) false
  refine ⟨h1, h2, h3, fun h => ?_, fun h => ?_, fun ha hb h h' => ?_⟩
  · obtain ⟨ha, hb⟩ := not_nan_of_belowOf h
    rw [minmax_of_numbers ha hb, h]
    rfl
  · obtain ⟨hb, ha⟩ := not_nan_of_belowOf h
    rw [minmax_of_numbers ha hb, belowOf_asymm ha hb h]
    rfl
  · rw [minmax_of_numbers ha hb, h]
    exact .inr rfl
theorem minmax_maxIs (f : Fmt) (x y : Nat) : MaxIs f x y (f.minmax true x y) := by
  obtain ⟨h1, h2, h3⟩ := minmax_nan (f := f) (x := x) (y := y) true
  refine ⟨h1, h2, h3, fun h => ?_, fun h => ?_, fun ha hb h h' => ?_⟩
  · obtain ⟨ha, hb⟩ := not_nan_of_belowOf h
    rw [minmax_of_numbers ha hb, h]
    rfl
  · obtain ⟨hb, ha⟩ := not_nan_of_belowOf h
    rw [minmax_of_numbers ha hb, belowOf_asymm ha hb h]
    rfl
  · rw [minmax_of_numbers ha hb, h]
    exact .inl rfl

theorem width_pos (t : PTy) : 0 < t.fmt.width := by
  cases t with
  | one f => cases f <;> decide
  | _ => decide
theorem floatIn_lt (t : PTy) (x : Val) (k : Nat) : floatIn t x k < 2 ^ t.fmt.width := by
  cases t with
  | one f => exact Nat.mod_lt _ (Nat.two_pow_pos _)
  | f16x4 => exact Nat.mod_lt _ (by decide)
  | bf16x4 => exact Nat.mod_lt _ (by decide)
theorem fabsCode_testBit {f : Fmt} (x j : Nat) : (fabsCode f x).testBit j = (decide (j + 1 < f.width) && x.testBit j) := by
  rw [fabsCode, Nat.testBit_mod_two_pow]
  congr 1
  exact decide_eq_decide.2 (by omega)
theorem fnegCode_testBit {f : Fmt} (hw : 0 < f.width) {x : Nat} (hx : x < 2 ^ f.width) (j : Nat) :
    (fnegCode f x).testBit j = if j + 1 = f.width then !x.testBit j else x.testBit j := by
  rw [fnegCode, Nat.testBit_mod_two_pow, add_comm]
  split
  next h =>
    obtain rfl : j = f.width - 1 := by omega
    rw [Nat.testBit_two_pow_add_eq, decide_eq_true (by omega), Bool.true_and]
  next h =>
    by_cases hj : j < f.width
    · rw [Nat.testBit_two_pow_add_gt (by omega), decide_eq_true hj, Bool.true_and]
    · rw [decide_eq_false hj, Bool.false_and, Nat.testBit_lt_two_pow (lt_of_lt_of_le hx (Nat.pow_le_pow_right (by decide) (by omega)))]

/-- Settles O10: the choice is by the order in which -0 lies below +0, and the sign bit is the highest of the code. -/
theorem floatSelectAndSign : Obligations.FloatSelectAndSign := by
  unfold Obligations.FloatSelectAndSign
  intro c ty d a b s z p A B w
  exact ⟨fun h => ⟨_, float2_gives rfl h, fun t l e => minmax_minIs _ _ _⟩, fun h => ⟨_, float2_gives rfl h, fun t l e => minmax_maxIs _ _ _⟩,
    fun h => ⟨_, float1_gives rfl h, fun t l e j => fabsCode_testBit _ _⟩,
    fun h => ⟨_, float1_gives rfl h, fun t l e j => fnegCode_testBit (width_pos ty) (floatIn_lt _ _ _) j⟩⟩

end Sys2Proof.Machine.Claim
end

section
/-! Whole numbers, classes, scaling and the functions of Table 13.4 (spec 13_typed R171 to R175). -/
namespace Sys2Proof.Machine.Claim

/-! ### Rounding to a whole number -/

/-- A magnitude that is a whole number rounds to it in every mode. -/
theorem wholeIs_exact (r : Rnd) (n : Bool) (k : Nat) : WholeIs r n (k : ℚ) k := by
  cases r with
  | rne => simp [WholeIs]
  | rtz => simp [WholeIs]
  | rup | rdn => cases n <;> simp [WholeIs]

theorem roundsUp_zero (r : Rnd) (n : Bool) (k s : Nat) : roundsUp r n k 0 s = false := by
  have h : (0 : Nat) ≠ 2 ^ s := (Nat.two_pow_pos s).ne
  cases r with
  | rne => simp [roundsUp, h]
  | rtz => rfl
  | rup | rdn => simp [roundsUp]

/-- A magnitude strictly between k and k + 1, by its distance q to k. -/
theorem wholeIs_between {r : Rnd} {n : Bool} {k : Nat} {q : ℚ} {up : Bool} (h0 : 0 < q) (h1 : q < 1)
    (hup : up = match r with
      | .rtz => false
      | .rup => !n
      | .rdn => n
      | .rne => decide (1 / 2 < q) || (decide (q = 1 / 2) && k % 2 == 1)) :
    WholeIs r n ((k : ℚ) + q) (if up = true then k + 1 else k) := by
  subst hup
  cases r with
  | rtz => simp only [WholeIs, Bool.false_eq_true, if_false]; constructor <;> linarith
  | rup | rdn =>
    cases n <;> simp only [WholeIs, Bool.not_true, Bool.not_false, Bool.false_eq_true, if_false, if_true] <;> push_cast <;>
      constructor <;> linarith
  | rne =>
    have hd : |(k : ℚ) + q - k| = q := by rw [add_sub_cancel_left, abs_of_pos h0]
    have hd' : |(k : ℚ) + q - (k + 1 : Nat)| = 1 - q := by
      push_cast
      rw [show (k : ℚ) + q - (k + 1) = -(1 - q) by ring, abs_neg, abs_of_pos (by linarith)]
    simp only [WholeIs]
    rcases lt_trichotomy q (1 / 2) with h | h | h
    · rw [if_neg (by simp [-one_div, h.not_gt, h.ne]), hd]
      exact ⟨h.le, fun h' => absurd h' h.ne⟩
    · rcases Nat.mod_two_eq_zero_or_one k with hk | hk
      · rw [if_neg (by simp [h, hk]), hd]
        exact ⟨h.le, fun _ => hk⟩
      · rw [if_pos (by simp [h, hk]), hd', h]
        exact ⟨by norm_num, fun _ => by omega⟩
    · rw [if_pos (by simp [-one_div, h]), hd']
      exact ⟨by linarith, fun h' => by linarith⟩

/-- The kept part k and the rest of a magnitude x = k + rest / 2^s. -/
theorem wholeIs_split (r : Rnd) (n : Bool) {k rest s : Nat} (hr : rest < 2 ^ s) :
    WholeIs r n ((k : ℚ) + (rest : ℚ) / 2 ^ s) (if roundsUp r n k rest s = true then k + 1 else k) := by
  by_cases hz : rest = 0
  · subst hz
    rw [roundsUp_zero, if_neg Bool.false_ne_true, Nat.cast_zero, zero_div, add_zero]
    exact wholeIs_exact r n k
  have h2 : (0 : ℚ) < 2 ^ s := by positivity
  have h0 : 0 < (rest : ℚ) / 2 ^ s := div_pos (by exact_mod_cast Nat.pos_of_ne_zero hz) h2
  have h1 : (rest : ℚ) / 2 ^ s < 1 := by
    rw [div_lt_one h2]
    exact_mod_cast hr
  have hlt : 1 / 2 < (rest : ℚ) / 2 ^ s ↔ 2 ^ s < 2 * rest := by
    rw [div_lt_div_iff₀ (by norm_num) h2, one_mul, mul_comm]
    exact_mod_cast Iff.rfl
  have heq : (rest : ℚ) / 2 ^ s = 1 / 2 ↔ 2 * rest = 2 ^ s := by
    rw [div_eq_div_iff h2.ne' (by norm_num), one_mul, mul_comm]
    exact_mod_cast Iff.rfl
  refine wholeIs_between h0 h1 ?_
  cases r with
  | rtz => rfl
  | rup | rdn => simp [roundsUp, hz]
  | rne => simp only [roundsUp, hlt, heq, Bool.beq_eq_decide_eq]

/-- Rounding to a multiple of 1. -/
theorem roundTo_wholeIs (r : Rnd) (n : Bool) (m : Nat) (e : Int) : WholeIs r n (ratOf m e) (roundTo r n m e 0) := by
  unfold roundTo
  split
  next h =>
    rw [ratOf_lower m h, ratOf, zpow_zero, mul_one]
    exact wholeIs_exact r n _
  next h =>
    dsimp only
    have hx : ratOf m e = ((m / 2 ^ (0 - e).toNat : Nat) : ℚ) + ((m % 2 ^ (0 - e).toNat : Nat) : ℚ) / 2 ^ (0 - e).toNat := by
      have h2 : (2 : ℚ) ^ (0 - e).toNat ≠ 0 := by positivity
      have he : (2 : ℚ) ^ e = ((2 : ℚ) ^ (0 - e).toNat)⁻¹ := by
        rw [← zpow_natCast, ← zpow_neg]
        congr 1
        omega
      rw [ratOf, he]
      have := Nat.div_add_mod m (2 ^ (0 - e).toNat)
      field_simp
      exact_mod_cast this.symm
    rw [hx]
    exact wholeIs_split r n (Nat.mod_lt _ (Nat.two_pow_pos _))

/-- What FRND gives (R174). -/
theorem rnd_spec {f : Fmt} (hf : f.no ≠ 11) (r : Rnd) (x : Nat) :
    ((f.decode x).isNan = true → f.rnd r x = f.nan) ∧ (∀ m, f.decode x = .inf m → f.rnd r x = f.infOf m) ∧
      ∀ m y, FiniteIs (f.decode x) m y → ∃ k : Nat, WholeIs r m y k ∧ RoundedTo f .rne m k (f.rnd r x) := by
  unfold Fmt.rnd
  refine ⟨fun h => ?_, fun m h => by rw [h], ?_⟩
  · cases hd : f.decode x with
    | nan => rfl
    | inf | fin => rw [hd] at h; cases h
  · rintro n _ ⟨m, e, hd, rfl⟩
    refine ⟨roundTo r n m e 0, roundTo_wholeIs r n m e, .inl ⟨roundTo r n m e 0, 0, ?_, by simp [ratOf]⟩⟩
    rw [hd]
    dsimp only
    split
    next h =>
      subst h
      have : roundTo r n 0 e 0 = 0 := by simp [roundTo, roundsUp_zero]
      rw [this, Fmt.round, if_neg hf, if_pos rfl]
    next => rfl

/-- What FSCALE gives (R173). -/
theorem scale_spec (f : Fmt) (r : Rnd) (x : Nat) (n : Int) :
    ((f.decode x).isNan = true → f.scale r x n = f.nan) ∧ (∀ m, f.decode x = .inf m → f.scale r x n = f.infOf m) ∧
      ∀ m y, FiniteIs (f.decode x) m y → RoundedTo f r m (y * (2 : ℚ) ^ max (-4200) (min 4200 n)) (f.scale r x n) := by
  unfold Fmt.scale
  refine ⟨fun h => ?_, fun m h => by rw [h], ?_⟩
  · cases hd : f.decode x with
    | nan => rfl
    | inf | fin => rw [hd] at h; cases h
  · rintro s _ ⟨m, e, hd, rfl⟩
    refine .inl ⟨m, e + clamp (-4200) 4200 n, by rw [hd], ?_⟩
    have hc : clamp (-4200) 4200 n = max (-4200) (min 4200 n) := by
      unfold clamp
      omega
    rw [hc, ratOf, ratOf, zpow_add₀ (by norm_num), mul_assoc]

/-! ### Classes -/

/-- The class of a code, as a number. -/
def classNo (f : Fmt) (x : Nat) : Nat := Nat.log2 (f.cls x)
theorem two_pow_classNo (f : Fmt) (x : Nat) : 2 ^ classNo f x = f.cls x := by
  unfold classNo Fmt.cls
  split
  · split <;> decide
  · split <;> decide
  · split
    · split <;> decide
    · split <;> split <;> decide

/-- A finite code is subnormal, with the least exponent, or normal. -/
theorem decode_fin_cases {f : Fmt} (hf : f.no ≠ 11) {x : Nat} {n : Bool} {m : Nat} {e : Int} (h : f.decode x = .fin n m e) :
    m < 2 ^ f.mb ∧ e = 1 - f.bias - f.mb ∨ 2 ^ f.mb ≤ m ∧ 1 - f.bias - f.mb ≤ e := by
  unfold Fmt.decode at h
  rw [if_neg hf] at h
  dsimp only at h
  split at h
  · split at h <;> cases h
  · split at h
    · cases h
    · split at h
      · cases h
        exact .inl ⟨Nat.mod_lt _ (Nat.two_pow_pos _), rfl⟩
      · cases h
        exact .inr ⟨Nat.le_add_left _ _, by omega⟩
/-- A finite code is subnormal when it lies below the least normal magnitude. -/
theorem decode_fin_lt_iff {f : Fmt} (hf : f.no ≠ 11) {x : Nat} {n : Bool} {m : Nat} {e : Int} (h : f.decode x = .fin n m e) :
    ratOf m e < ratOf 1 (1 - f.bias) ↔ m < 2 ^ f.mb := by
  have h1 : ratOf 1 (1 - f.bias) = ratOf (2 ^ f.mb) (1 - f.bias - f.mb) := by
    rw [ratOf_lower 1 (show 1 - f.bias - f.mb ≤ 1 - f.bias by omega), one_mul]
    congr
    omega
  rw [h1]
  rcases decode_fin_cases hf h with ⟨hm, he⟩ | ⟨hm, he⟩
  · rw [he, ratOf_lt]
  · rw [ratOf_lower m he, ratOf_lt]
    constructor
    · exact fun h => lt_of_le_of_lt (Nat.le_mul_of_pos_right m (Nat.two_pow_pos _)) h
    · exact fun h => absurd h (by omega)

theorem classNo_classIs {f : Fmt} (hf : f.no ≠ 11) (x : Nat) : ClassIs f (f.decode x) (classNo f x) := by
  unfold classNo Fmt.cls
  refine ⟨fun h => ?_, fun h => ?_, fun h => ?_, fun h => ?_, ?_⟩
  · rw [h]
    dsimp only
    decide
  · rw [h]
    dsimp only
    decide
  · rw [h]
    dsimp only
    decide
  · rw [h]
    dsimp only
    decide
  · rintro n _ ⟨m, e, hd, rfl⟩
    have hs := decode_fin_lt_iff hf hd
    rw [hd]
    dsimp only
    refine ⟨fun h => ?_, fun h0 h1 => ?_, fun h => ?_⟩
    · rw [if_pos (ratOf_eq_zero.1 h)]
      cases n <;> decide
    · rw [if_neg (fun h => h0.ne' (ratOf_eq_zero.2 h)), if_pos (hs.1 h1)]
      cases n <;> decide
    · have hm : ¬ m < 2 ^ f.mb := fun h' => absurd (hs.2 h') (not_lt.2 h)
      rw [if_neg (fun h0 : m = 0 => hm (h0 ▸ Nat.two_pow_pos _)), if_neg hm]
      cases n <;> decide

/-- Settles O11: the order of two values decides the comparison, the significand the class, and the rounding to a whole number or of
a scaled value is one rounding. -/
theorem floatCompareClassRoundScale : Obligations.FloatCompareClassRoundScale := by
  unfold Obligations.FloatCompareClassRoundScale
  refine ⟨fun c ty k d r a b s z p => ⟨fun h => ?_, fun h => ⟨fun t l => classNo ty.fmt (floatIn (.one ty) (rdSrc t z c.ix a l) 0), ?_,
      fun t l => classNo_classIs (pty_no_ne (.one ty)) _⟩⟩,
    fun c ty r d a b s z p => ⟨fun h => ⟨_, float1_gives rfl h, fun t l e => rnd_spec (pty_no_ne (.one ty)) r _⟩,
      fun h => ⟨_, typedV_gives rfl h, fun t l e => scale_spec ty.fmt r _ _⟩⟩⟩
  · simp only [← fcond_eq_quietly]
    exact typedP_gives rfl h
  · simp only [two_pow_classNo]
    exact typedV_gives rfl h

/-! ### The functions of Table 13.4 -/

theorem fn_nan {f : Fmt} {g : Fun} {x : Nat} (h : (f.decode x).isNan = true) : f.fn g x = f.nan := by
  unfold Fmt.fn
  cases hd : f.decode x with
  | nan => cases g <;> rfl
  | inf | fin => rw [hd] at h; cases h
theorem finite_zero {v : FVal} {m : Bool} (h : FiniteIs v m 0) : ∃ e, v = .fin m 0 e := by
  obtain ⟨k, e, hv, h0⟩ := h
  obtain rfl := ratOf_eq_zero.1 h0.symm
  exact ⟨e, hv⟩

section
variable {f : Fmt} {x : Nat} {n : Bool}
theorem fn_exp2_inf (h : f.decode x = .inf n) : f.fn .exp2 x = if n then f.signed false 0 else f.infOf false := by simp only [Fmt.fn, h]
theorem fn_exp2_zero (h : FiniteIs (f.decode x) n 0) : f.fn .exp2 x = f.round .rne false 1 0 := by
  obtain ⟨e, h⟩ := finite_zero h
  simp only [Fmt.fn, h, if_true]
theorem fn_log2_inf (h : f.decode x = .inf n) : f.fn .log2 x = if n then f.nan else f.infOf false := by simp only [Fmt.fn, h]
theorem fn_log2_zero (h : FiniteIs (f.decode x) n 0) : f.fn .log2 x = f.infOf true := by
  obtain ⟨e, h⟩ := finite_zero h
  simp only [Fmt.fn, h, if_true]
theorem fn_log2_neg {y : ℚ} (h : FiniteIs (f.decode x) true y) (hy : y ≠ 0) : f.fn .log2 x = f.nan := by
  obtain ⟨m, e, h, rfl⟩ := h
  simp only [Fmt.fn, h, mt ratOf_eq_zero.2 hy, if_false, if_true]
theorem fn_sin_inf (h : f.decode x = .inf n) : f.fn .sin x = f.nan := by simp only [Fmt.fn, h]
theorem fn_sin_zero (h : FiniteIs (f.decode x) n 0) : f.fn .sin x = f.signed n 0 := by
  obtain ⟨e, h⟩ := finite_zero h
  simp only [Fmt.fn, h, if_true]
theorem fn_cos_inf (h : f.decode x = .inf n) : f.fn .cos x = f.nan := by simp only [Fmt.fn, h]
theorem fn_cos_zero (h : FiniteIs (f.decode x) n 0) : f.fn .cos x = f.round .rne false 1 0 := by
  obtain ⟨e, h⟩ := finite_zero h
  simp only [Fmt.fn, h, if_true]
theorem fn_tanh_inf (h : f.decode x = .inf n) : f.fn .tanh x = f.round .rne n 1 0 := by simp only [Fmt.fn, h]
theorem fn_tanh_zero (h : FiniteIs (f.decode x) n 0) : f.fn .tanh x = f.signed n 0 := by
  obtain ⟨e, h⟩ := finite_zero h
  simp only [Fmt.fn, h, if_true]
end

/-- Settles O12: the rows of Table 13.4 for NaNs, infinities, zeros and numbers below zero. -/
theorem floatFunctions : Obligations.FloatFunctions := by
  unfold Obligations.FloatFunctions
  intro c ty d a s z p F A one
  refine ⟨fun h => ⟨_, float1_gives rfl h, fun t l => ⟨fn_nan, fn_exp2_inf, fn_exp2_inf, fun m => fn_exp2_zero⟩⟩,
    fun h => ⟨_, float1_gives rfl h, fun t l => ⟨fn_nan, fn_log2_inf, fn_log2_inf, fun m => fn_log2_zero, fun x => fn_log2_neg⟩⟩,
    fun h => ⟨_, float1_gives rfl h, fun t l => ⟨fun h => h.elim fn_nan fun ⟨m, h⟩ => fn_sin_inf h, fun m => fn_sin_zero⟩⟩,
    fun h => ⟨_, float1_gives rfl h, fun t l => ⟨fun h => h.elim fn_nan fun ⟨m, h⟩ => fn_cos_inf h, fun m => fn_cos_zero⟩⟩,
    fun h => ⟨_, float1_gives rfl h, fun t l => ⟨fn_nan, fun m => fn_tanh_inf, fun m => fn_tanh_zero⟩⟩⟩

end Sys2Proof.Machine.Claim
end

section
/-! Conversions and tags (spec 11_generic R140 to R147). -/
namespace Sys2Proof.Machine.Claim

/-! ### CVT -/

theorem tyLo_le_tyHi (t : Ty) : tyLo t ≤ tyHi t := by cases t <;> decide
theorem clamp_eq_bounded {lo hi : Int} (h : lo ≤ hi) (e : Int) : clamp lo hi e = if e < lo then lo else if hi < e then hi else e := by
  unfold clamp
  split
  next => omega
  next => split <;> omega
theorem toNat_emod_eq (e : Int) : (e % 2 ^ 64).toNat = (BitVec.ofInt 64 e).toNat := by simp

section
variable {dst src : Ty} {sat : Bool} {r : Rnd} {x : Word} {f g : Fmt}
theorem cvtOf_int_int (hd : fmtOf dst = none) (hs : fmtOf src = none) : cvtOf dst src sat r x =
    widen dst (BitVec.ofInt 64 (if sat then clamp (tyLo dst) (tyHi dst) (intOfTy src x) else intOfTy src x)).toNat := by
  simp only [cvtOf, hd, hs, toNat_emod_eq]
theorem cvtOf_float_int (hd : fmtOf dst = none) (hs : fmtOf src = some g) : cvtOf dst src sat r x =
    widen dst (BitVec.ofInt 64 (floatToInt dst r (g.decode (x.toNat % 2 ^ src.width)))).toNat := by
  simp only [cvtOf, hd, hs, toNat_emod_eq]
theorem cvtOf_int_float (hd : fmtOf dst = some f) (hs : fmtOf src = none) :
    cvtOf dst src sat r x = widen dst (f.put r (intVal (intOfTy src x))) := by simp only [cvtOf, hd, hs]
theorem cvtOf_float_float (hd : fmtOf dst = some f) (hs : fmtOf src = some g) :
    cvtOf dst src sat r x = widen dst (f.put r (g.decode (x.toNat % 2 ^ src.width))) := by simp only [cvtOf, hd, hs]
end

/-- The magnitude of an integer. -/
theorem ratOf_natAbs (x : Int) : ratOf x.natAbs 0 = |(x : ℚ)| := by
  rw [ratOf, zpow_zero, mul_one, ← Int.cast_abs, Int.abs_eq_natAbs, Int.cast_natCast]

/-- Settles O13: the four kinds of type pair, of which an integer bounds or wraps and a float rounds once. -/
theorem conversion : Obligations.Conversion := by
  unfold Obligations.Conversion
  intro c dst src sat r d a s z p h
  refine ⟨fun t l => cvtOf dst src sat r (rdSrc t z c.ix a l).pay,
    typedV_gives (f := fun t z l => cvtOf dst src sat r (rdSrc t z c.ix a l).pay) rfl h, fun t l => ?_⟩
  dsimp only
  simp only [← clamp_eq_bounded (tyLo_le_tyHi dst)]
  refine ⟨fun hd hs => cvtOf_int_int hd hs, fun g hd hs => ⟨fun hn => ?_, fun n hi => ?_, ?_⟩, fun f hd hs => ?_, fun f g hd hs => ?_⟩
  · rw [cvtOf_float_int hd hs]
    cases hy : g.decode ((rdSrc t z c.ix a l).pay.toNat % 2 ^ src.width) with
    | nan => rfl
    | inf | fin => rw [hy] at hn; cases hn
  · rw [cvtOf_float_int hd hs, hi]
    rfl
  · rintro n _ ⟨m, e, hy, rfl⟩
    refine ⟨roundTo r n m e 0, roundTo_wholeIs r n m e, ?_⟩
    rw [cvtOf_float_int hd hs, hy]
    rfl
  · refine ⟨_, cvtOf_int_float hd hs, ?_⟩
    rw [← ratOf_natAbs]
    exact round_roundedTo f r _ _ 0
  · exact ⟨_, cvtOf_float_float hd hs, put_putIs _ _ _⟩

/-! ### Packing -/

/-- The quotient of two finite values, neither zero, is rounded once. -/
theorem qPut_roundedTo {t : QTy} {v w : FVal} {n m : Bool} {x y : ℚ} (hv : FiniteIs v n x) (hw : FiniteIs w m y) (hx : x ≠ 0) (hy : y ≠ 0) :
    RoundedTo (qFmt t) .rne (n != m) (x / y) (qPut t v w) := by
  obtain ⟨-, -, -, -, hq⟩ := div_quotientIs (qFmt t) .rne v w
  have hq := (hq n x m y hv hw).2.2 hy
  obtain ⟨k, e, rfl, rfl⟩ := hv
  obtain ⟨j, d, rfl, rfl⟩ := hw
  have hk : ¬(j = 0 ∨ k = 0) := not_or.2 ⟨mt ratOf_eq_zero.2 hy, mt ratOf_eq_zero.2 hx⟩
  simp only [qPut, if_neg hk]
  exact hq

theorem fld_zero (x : Word) (n : Nat) : fld x 0 n = x.toNat % 2 ^ n := by simp [fld]

/-- Settles O14: CVTPK rounds each quotient of a finite element by a finite scale once, and CVTXP each product. -/
theorem packedConversions : Obligations.PackedConversions := by
  unfold Obligations.PackedConversions
  intro c ty d e v a b s z p
  refine ⟨fun h => ⟨fun t l k => qPut ty (fmtF32.decode (fld (rdRun t c.ix v k l).pay 0 32)) (qScale ty (rdSrc t z c.ix b l).pay),
    ?_, fun t l k _ n x m y hx hy h0 h1 => ?_⟩, fun h => ?_⟩
  · exact typedV_gives (f := fun t z l => .raw (BitVec.ofNat 64 (packElems (qFmt ty).width ((List.range ty.count).map fun k =>
      qPut ty (fmtF32.decode (fld (rdRun t c.ix v k l).pay 0 32)) (qScale ty (rdSrc t z c.ix b l).pay))))) rfl h
  · rw [← fld_zero] at hx
    exact qPut_roundedTo hx hy h0 h1
  · refine ⟨fun k l => _, (congrArg Host.Outcome.next (issue_ready h _)).trans ?_, fun k l => ⟨_, mul_productIs _ _, put_putIs _ _ _⟩⟩
    simp only [wrRun, perLane, List.map_map, Function.comp_def]
    rfl

/-! ### Tags -/

/-- A tag instruction that forges no tag completes with its value of A. -/
theorem tagOp_gives {i : Instr} {c : Ctl} {d : Reg} {a : Src} {forge : Path → Bool} {f : Val → Val} {s : State} {z : Bool} {p : Path}
    (he : exec i s = .next (tagOp i c d a forge f s)) (h : Issues i c s z p) (hf : forge (issuedOf i c s z p).path = false) :
    GivesVal i c .alu d s z p fun t l => f (rdSrc t z c.ix a l) := by
  refine ⟨_, ?_, writesReg_wrReg _ _ _ _ _⟩
  rw [he, tagOp, issue_ready h, hf]
  rfl
/-- A tag instruction that forges a tag takes the tag-forge fault for every Active lane. -/
theorem tagOp_forges {i : Instr} {c : Ctl} {d : Reg} {a : Src} {forge : Path → Bool} {f : Val → Val} {s : State} {z : Bool} {p : Path}
    (he : exec i s = .next (tagOp i c d a forge f s)) (h : Issues i c s z p) (hf : forge (issuedOf i c s z p).path = true)
    (ha : (issuedOf i c s z p).act ≠ 0) : exec i s = .next ((issuedOf i c s z p).state.trapPath i c.sched 0x07
      ((issuedOf i c s z p).path.pc.setWidth 64) (issuedOf i c s z p).act) := by
  rw [he, tagOp, issue_ready h, hf, Bool.true_and, if_pos (bne_iff_ne.2 ha)]

/-- Settles O15: each tag instruction writes its value of A where it forges no tag. -/
theorem tagInstructions : Obligations.TagInstructions := by
  unfold Obligations.TagInstructions
  intro c f g d a s z p
  refine ⟨fun h hf => ?_, fun h => tagOp_gives rfl h rfl, fun h => tagOp_gives rfl h rfl, fun h hf => tagOp_gives rfl h hf⟩
  have hg := tagOp_gives (i := .box c f d a) rfl h hf
  cases f <;> exact hg

end Sys2Proof.Machine.Claim
end

section
/-! The generic opcodes (spec 11_generic R122 to R130): what a lane of one family comes to. -/
namespace Sys2Proof.Machine.Claim

/-! ### The issued path -/

@[simp] theorem slot_startBudget (g : Group) (now : Nat) (b : Bool) : (g.startBudget now).slot b = g.slot b := by
  unfold Group.startBudget
  split <;> rfl
/-- After the issue the slot holds the issued path. -/
theorem issued_slot (s : State) (i : Instr) (sc : Sched) (gd : Guard) (ix : BitVec 3) (b : Bool) (p : Path) :
    (s.issued i sc gd ix b p).state.grp.slot b = some (s.issued i sc gd ix b p).path := by
  simp [State.issued]
/-- A path that does not replay has no pending results of the same instruction. -/
theorem issued_parts {i : Instr} {sc : Sched} {gd : Guard} {ix : BitVec 3} {s : State} {b : Bool} {p : Path} (h : p.redo = none) :
    (s.issued i sc gd ix b p).state.grp.parts b = [] := by
  have hr : (s.issued i sc gd ix b p).path.redo = none := h
  simp [Group.parts, issued_slot, hr]
/-- With no lane and no write the latency class does not matter. -/
theorem finish_no_lanes {s : State} {b : Bool} (h : s.grp.parts b = []) (sc : Sched) (lat lat' : Machine.Lat) :
    s.finish b sc lat 0 [] = s.finish b sc lat' 0 [] := by
  simp [State.finish, State.retire, State.setGrp, Group.retire, h]

/-! ### The scan of EQ and NE -/

/-- A lane that compares two different refs. -/
def twoRefs (op : GOp) (e : Nat × Val × Val × Val) : Prop :=
  (op = .eq ∨ op = .ne) ∧ e.2.1.tag = .ref ∧ e.2.2.1.tag = .ref ∧ e.2.1.pay ≠ e.2.2.1.pay
theorem scanAll_of_no_refs {op : GOp} {dead : Dead} {ops : List (Nat × Val × Val × Val)} (h : ∀ e ∈ ops, ¬twoRefs op e) (r : RefScan)
    (s : State) : State.scanAll op dead ops r s = (r, s) := by
  induction ops with
  | nil => rfl
  | cons e rest ih =>
    obtain ⟨l, a, b, k⟩ := e
    have he : ¬((op = .eq ∨ op = .ne) ∧ a.tag = .ref ∧ b.tag = .ref ∧ a.pay ≠ b.pay) := h _ (List.mem_cons_self ..)
    rw [State.scanAll, if_neg he]
    exact ih fun e he => h e (List.mem_cons_of_mem _ he)

/-! ### A run with nothing raised -/

/-- A g register takes the value of the lowest lane, whether or not the other lanes' values are kept. -/
theorem wrReg_keepFor (g : Group) (ix : BitVec 3) (d : Reg) (act : Mask) (f : Nat → Val) :
    wrReg g ix d (keepFor d act ((lanes act).map fun l => (l, f l))) = wrReg g ix d ((lanes act).map fun l => (l, f l)) := by
  cases d with
  | v n => rfl
  | ix n => rfl
  | g n => cases h : lanes act <;> simp [keepFor, lowest, h, wrReg]

section
variable {i : Instr} {c : Ctl} {op : GOp} {r : Rnd} {b : Bool} {p : Machine.Path} {act : Mask} {ops : List (Nat × Val × Val × Val)}
  {F : Option Fam} {s t : State}

theorem and_not_maskOf_nil (m : Mask) : m &&& ~~~maskOf [] = m := by
  have h : ~~~(0 : Mask) = BitVec.allOnes 32 := by decide
  rw [maskOf, List.foldl_nil, h, BitVec.and_allOnes]
/-- The result of a lane of a value opcode. -/
def genOut (op : GOp) (r : Rnd) (e : Nat × Val × Val × Val) : Option Val := genResult op r e.2.1 e.2.2.1 e.2.2.2
/-- A value opcode of one family writes its results, and raises int-overflow in the lanes that have none. -/
theorem genRun_val {d : Reg} (hs : State.scanAll op p.dead ops ⟨[], [], []⟩ s = (⟨[], [], []⟩, t)) : genRun i c op r (.val d) b p act ops F s =
    (t.retire b c.sched (genLat op F) (act &&& ~~~maskOf ((ops.filter fun e => (genOut op r e).isNone).map Prod.fst))
      (wrReg t.grp c.ix d (keepFor d act (ops.filterMap fun e => (genOut op r e).map fun x => (e.1, x))))).raiseClasses b (faceOf t i) act
        p.dead ((ops.filter fun e => (genOut op r e).isNone).map (genRaise op 48)) none := by
  have h0 (m : Mask) : m ||| maskOf [] = m := by simp [maskOf]
  have hg : (ops.filter fun e => !(maskOf []).getLsbD e.1) = ops := by simp [maskOf]
  simp only [genRun, hs, lowestBad, List.map_nil, hg, h0, List.filterMap_map, List.filter_map, List.map_map]
  rfl
/-- Where every lane has a result it only writes. -/
theorem genRun_val_some {d : Reg} {f : Nat → Val} (hs : State.scanAll op p.dead ops ⟨[], [], []⟩ s = (⟨[], [], []⟩, t))
    (hr : ∀ e ∈ ops, genOut op r e = some (f e.1)) : genRun i c op r (.val d) b p act ops F s =
      t.finish b c.sched (genLat op F) act (wrReg t.grp c.ix d (keepFor d act (ops.map fun e => (e.1, f e.1)))) := by
  have hn : (ops.filter fun e => (genOut op r e).isNone) = [] := List.filter_eq_nil_iff.2 fun e he => by simp [hr e he]
  have hv : (ops.filterMap fun e => (genOut op r e).map fun x => (e.1, x)) = ops.map fun e => (e.1, f e.1) := by
    rw [← List.filterMap_eq_map]
    exact List.filterMap_congr fun e he => by simp [hr e he]
  rw [genRun_val hs, hn, hv, List.map_nil, and_not_maskOf_nil]
  rfl
/-- A comparison of one family with no condemned page sets its bits. -/
theorem genRun_pred {d : Pred} (hs : State.scanAll op p.dead ops ⟨[], [], []⟩ s = (⟨[], [], []⟩, t)) :
    genRun i c op r (.pred d) b p act ops F s =
      t.finish b c.sched (genLat op F) act (wrPred d (ops.map fun e => (e.1, genBit op e.2.1 e.2.2.1))) := by
  have hg : (ops.filter fun e => !(maskOf []).getLsbD e.1) = ops := by simp [maskOf]
  have h0 (m : Mask) : m ||| maskOf [] = m := by simp [maskOf]
  simp only [genRun, hs, lowestBad, List.map_nil, hg, h0, List.contains_nil, Bool.not_false, List.filter_true, List.filter_false, and_not_maskOf_nil]
  rfl
end

/-! ### The opcode -/

/-- The operands of one lane. -/
def genB (t : State) (z : Bool) (ix : BitVec 3) (a : Src) (b : Option GSrc) (l : Nat) : Val :=
  match b with
  | some x => rdB t z ix a x l
  | none => Val.nil
def genC (t : State) (z : Bool) (ix : BitVec 3) (k : Option Src) (l : Nat) : Val :=
  match k with
  | some x => rdSrc t z ix x l
  | none => Val.nil
theorem genOperands_eq (t : State) (z : Bool) (ix : BitVec 3) (a : Src) (b : Option GSrc) (k : Option Src) (act : Mask) :
    genOperands t z ix a b k act = (lanes act).map fun l => (l, rdSrc t z ix a l, genB t z ix a b l, genC t z ix k l) := by
  simp only [genOperands, perLane]
  rcases b with _ | (_ | _) <;> cases k <;> rfl

section
variable {i : Instr} {c : Ctl} {op : GOp} {r : Rnd} {a : Src} {b : Option GSrc} {k : Option Src} {s : State} {z : Bool}
  {p : Machine.Path} {F : Fam}

/-- An opcode whose Active lanes are all of one family runs for them all; of no lane the family does not matter. -/
theorem generic_run {dst : GDst} (h : Issues i c s z p)
    (hF : ∀ l, (issuedOf i c s z p).act.getLsbD l = true →
      famOf op (rdSrc (issuedOf i c s z p).state z c.ix a l).tag (genB (issuedOf i c s z p).state z c.ix a b l).tag
        (genC (issuedOf i c s z p).state z c.ix k l).tag = some F) :
    ∃ G, (G = some F ∨ (issuedOf i c s z p).act = 0) ∧ generic i c op r dst a b k s =
      genRun i c op r dst z (issuedOf i c s z p).path (issuedOf i c s z p).act
        (genOperands (issuedOf i c s z p).state z c.ix a b k (issuedOf i c s z p).act) G (issuedOf i c s z p).state := by
  rw [generic, issue_ready h, genOperands_eq]
  cases hl : lanes (issuedOf i c s z p).act with
  | nil =>
    refine ⟨none, Or.inr ?_, rfl⟩
    ext l hl32
    have : l ∉ lanes (issuedOf i c s z p).act := by simp [hl]
    simpa [mem_lanes, hl32] using this
  | cons x rest =>
    have hall : ∀ l ∈ x :: rest, _ := fun l hm => hF l (mem_lanes.1 (hl ▸ hm)).2
    refine ⟨some F, Or.inl rfl, ?_⟩
    have hx := hall x (List.mem_cons_self ..)
    simp only [List.map_cons, hx, Option.isSome_some, Bool.true_and, List.all_cons, List.all_map, Function.comp_def]
    rw [if_pos]
    simp only [beq_self_eq_true, Bool.true_and, List.all_eq_true, beq_iff_eq]
    exact fun l hm => hall l (List.mem_cons_of_mem _ hm)

/-- So the latency is that of the family. -/
theorem finish_family {G : Option Fam} (h : Issues i c s z p) (hG : G = some F ∨ (issuedOf i c s z p).act = 0) (op : GOp)
    {ws : List RegWrite} (hw : (issuedOf i c s z p).act = 0 → ws = []) :
    (issuedOf i c s z p).state.finish z c.sched (genLat op G) (issuedOf i c s z p).act ws =
      (issuedOf i c s z p).state.finish z c.sched (genLat op (some F)) (issuedOf i c s z p).act ws := by
  obtain rfl | h0 := hG
  · rfl
  · obtain ⟨_, hredo, _⟩ := h
    rw [hw h0, h0]
    exact finish_no_lanes (issued_parts hredo) _ _ _

/-- A value opcode of one family, of no class, gives its results. -/
theorem generic_givesVal {d : Reg} {f : State → Nat → Val} (he : exec i s = .next (generic i c op r (.val d) a b k s))
    (h : Issues i c s z p) (hop : op ≠ .eq ∧ op ≠ .ne)
    (hF : ∀ l, (issuedOf i c s z p).act.getLsbD l = true →
      famOf op (rdSrc (issuedOf i c s z p).state z c.ix a l).tag (genB (issuedOf i c s z p).state z c.ix a b l).tag
        (genC (issuedOf i c s z p).state z c.ix k l).tag = some F ∧
      genResult op r (rdSrc (issuedOf i c s z p).state z c.ix a l) (genB (issuedOf i c s z p).state z c.ix a b l)
        (genC (issuedOf i c s z p).state z c.ix k l) = some (f (issuedOf i c s z p).state l)) :
    GivesVal i c (genLat op (some F)) d s z p f := by
  obtain ⟨G, hG, hrun⟩ := generic_run (r := r) (dst := .val d) h fun l hl => (hF l hl).1
  refine ⟨_, ?_, writesReg_wrReg _ _ _ _ _⟩
  rw [he, hrun, genRun_val_some (f := f (issuedOf i c s z p).state) (scanAll_of_no_refs (fun e _ h => by simp [twoRefs, hop] at h) _ _),
    genOperands_eq, List.map_map]
  · simp only [Function.comp_def, wrReg_keepFor]
    refine congrArg _ (finish_family h hG op fun h0 => ?_)
    cases d <;> simp [h0, lanes, wrReg]
  · rw [genOperands_eq]
    simp only [List.mem_map, forall_exists_index, and_imp, forall_apply_eq_imp_iff₂]
    exact fun l hl => (hF l (mem_lanes.1 hl).2).2
/-- A comparison of one family with no condemned page completes with its bits. -/
theorem generic_bits {d : Pred} {f : Nat → Bool} {t : State} (he : exec i s = .next (generic i c op r (.pred d) a b k s))
    (h : Issues i c s z p)
    (hs : State.scanAll op [] (genOperands (issuedOf i c s z p).state z c.ix a b k (issuedOf i c s z p).act) ⟨[], [], []⟩
      (issuedOf i c s z p).state = (⟨[], [], []⟩, t))
    (hF : ∀ l, (issuedOf i c s z p).act.getLsbD l = true →
      famOf op (rdSrc (issuedOf i c s z p).state z c.ix a l).tag (genB (issuedOf i c s z p).state z c.ix a b l).tag
        (genC (issuedOf i c s z p).state z c.ix k l).tag = some F ∧
      genBit op (rdSrc (issuedOf i c s z p).state z c.ix a l) (genB (issuedOf i c s z p).state z c.ix a b l) = f l) :
    ∃ G, (G = some F ∨ (issuedOf i c s z p).act = 0) ∧ exec i s = .next (t.finish z c.sched (genLat op G) (issuedOf i c s z p).act
      (wrPred d ((lanes (issuedOf i c s z p).act).map fun l => (l, f l)))) := by
  obtain ⟨G, hG, hrun⟩ := generic_run (r := r) (dst := .pred d) h fun l hl => (hF l hl).1
  refine ⟨G, hG, ?_⟩
  obtain ⟨_, hredo, _⟩ := h
  have hd : (issuedOf i c s z p).path.dead = [] := by
    have : (issuedOf i c s z p).path.redo = none := hredo
    simp [Path.dead, this]
  rw [he, hrun, genRun_pred (hd.symm ▸ hs), genOperands_eq, List.map_map]
  refine congrArg (fun bits => Host.Outcome.next (t.finish z c.sched (genLat op G) (issuedOf i c s z p).act (wrPred d bits)))
    (List.map_congr_left fun l hl => ?_)
  simp [(hF l (mem_lanes.1 hl).2).2]
/-- A comparison of one family that compares no two different refs gives its bits. -/
theorem generic_givesBit {d : Pred} {f : State → Nat → Bool} (he : exec i s = .next (generic i c op r (.pred d) a b k s))
    (h : Issues i c s z p)
    (hF : ∀ l, (issuedOf i c s z p).act.getLsbD l = true →
      ¬twoRefs op (l, rdSrc (issuedOf i c s z p).state z c.ix a l, genB (issuedOf i c s z p).state z c.ix a b l,
        genC (issuedOf i c s z p).state z c.ix k l) ∧
      famOf op (rdSrc (issuedOf i c s z p).state z c.ix a l).tag (genB (issuedOf i c s z p).state z c.ix a b l).tag
        (genC (issuedOf i c s z p).state z c.ix k l).tag = some F ∧
      genBit op (rdSrc (issuedOf i c s z p).state z c.ix a l) (genB (issuedOf i c s z p).state z c.ix a b l) =
        f (issuedOf i c s z p).state l) :
    GivesBit i c (genLat op (some F)) d s z p f := by
  have hs := scanAll_of_no_refs (op := op) (dead := [])
    (ops := genOperands (issuedOf i c s z p).state z c.ix a b k (issuedOf i c s z p).act) (fun e he => by
      simp only [genOperands_eq, List.mem_map] at he
      obtain ⟨l, hl, rfl⟩ := he
      exact (hF l (mem_lanes.1 hl).2).1) ⟨[], [], []⟩ (issuedOf i c s z p).state
  obtain ⟨G, hG, hx⟩ := generic_bits he h hs fun l hl => (hF l hl).2
  refine ⟨_, ?_, writesPred_wrPred _ _ _⟩
  rw [hx]
  exact congrArg _ (finish_family h hG op fun h0 => by simp [h0, lanes, wrPred])
end

end Sys2Proof.Machine.Claim
end

section
/-! The generic opcodes on ints (spec 11_generic R125, R129) and the comparisons (R128). -/
namespace Sys2Proof.Machine.Claim

/-! ### Results of ints -/

theorem intOverflow_iff {e : Int} : intOverflow e = true ↔ ¬intFits e := by
  simp only [intOverflow, Bool.or_eq_true, decide_eq_true_eq, intFits, not_and_or, not_le]
  rfl
theorem scaled_int (x : Int) : scaled (decide (x < 0)) x.natAbs 0 0 = x := by
  by_cases h : x < 0
  · simp [scaled, h, abs_of_neg h]
  · simp [scaled, h, abs_of_nonneg (not_lt.1 h)]
theorem floorQuot_int (x y : Int) : floorQuot (decide (x < 0)) x.natAbs 0 (decide (y < 0)) y.natAbs 0 = Int.fdiv x y := by
  simp only [floorQuot, min_self, scaled_int]
  by_cases h : y < 0
  · rw [if_pos h, ← Int.neg_fdiv_neg, Int.fdiv_eq_ediv_of_nonneg _ (by omega)]
  · rw [if_neg h, Int.fdiv_eq_ediv_of_nonneg _ (by omega)]

/-- The opcodes whose int result is the exact number of R125. -/
def exactOp : GOp → Bool
  | .div | .and | .or | .xor | .hash | .eq | .ne | .lt | .le | .truth => false
  | .add | .sub | .mul | .fldiv | .mod | .neg | .abs | .min | .max | .fma | .shl | .shr => true
/-- Their result of an int lane: the exact number inside the range, none outside of it. -/
theorem genResult_exact {op : GOp} (ho : exactOp op = true) (r : Rnd) {a b k : Val} (ha : a.tag = .int) {e : Int}
    (he : intOp op a.pay.toInt b.pay.toInt k.pay.toInt = some e) :
    genResult op r a b k = if intOverflow e then none else some (.ofInt e) := by
  rw [genResult, ha]
  cases op <;> simp_all [floatFam, intResult, exactOp]
theorem genResult_fits {op : GOp} (ho : exactOp op = true) (r : Rnd) {a b k : Val} (ha : a.tag = .int) {e : Int}
    (he : intOp op a.pay.toInt b.pay.toInt k.pay.toInt = some e) (hf : intFits e) : genResult op r a b k = some (.ofInt e) := by
  rw [genResult_exact ho r ha he, if_neg (by simpa [intOverflow_iff] using hf)]

/-- A payload that is a shift count below 64. -/
theorem toInt_of_small {x : Word} (h : x.toNat < 64) : x.toInt = x.toNat := by
  rw [BitVec.toInt_eq_toNat_of_lt (by omega)]

section
variable {i : Instr} {c : Ctl} {op : GOp} {r : Rnd} {d : Reg} {a : Src} {b : Option GSrc} {k : Option Src} {s : State} {z : Bool}
  {p : Machine.Path}
/-- An exact opcode of int lanes inside the range gives its number. -/
theorem exact_gives {e : State → Nat → Int} (he : exec i s = .next (generic i c op r (.val d) a b k s)) (h : Issues i c s z p)
    (ho : exactOp op = true)
    (hF : ∀ l, (issuedOf i c s z p).act.getLsbD l = true →
      let A := rdSrc (issuedOf i c s z p).state z c.ix a l
      let B := genB (issuedOf i c s z p).state z c.ix a b l
      let C := genC (issuedOf i c s z p).state z c.ix k l
      A.tag = .int ∧ famOf op .int B.tag C.tag = some .int ∧
        intOp op A.pay.toInt B.pay.toInt C.pay.toInt = some (e (issuedOf i c s z p).state l) ∧ intFits (e (issuedOf i c s z p).state l)) :
    GivesVal i c (genLat op (some .int)) d s z p fun t l => .ofInt (e t l) := by
  have hop : op ≠ .eq ∧ op ≠ .ne := by constructor <;> rintro rfl <;> cases ho
  refine generic_givesVal he h hop fun l hl => ?_
  obtain ⟨hA, hB, hx, hf⟩ := hF l hl
  exact ⟨hA ▸ hB, genResult_fits ho r hA hx hf⟩
end

/-! ### O16 -/

section
variable {i : Instr} {c : Ctl} {op : GOp} {r : Rnd} {d : Reg} {a : Src} {b : GSrc} {s : State} {z : Bool} {p : Machine.Path}
/-- A lane whose exact result is out of range raises int-overflow, and the others complete. -/
theorem exact_raises {e : Int → Int → Int} (he : exec i s = .next (generic i c op r (.val d) a (some b) none s)) (h : Issues i c s z p)
    (ho : exactOp op = true) (hu : op.unary = false) (hx : ∀ x y k, intOp op x y k = some (e x y)) (hF : famOf op .int .int .nil = some .int)
    (hlat : genLat op (some .int) = .alu) :
    let q := issuedOf i c s z p
    let A (l : Nat) := rdSrc q.state z c.ix a l
    let B (l : Nat) := rdB q.state z c.ix a b l
    let out (l : Nat) : Bool := decide (¬(-2 ^ 63 ≤ e (A l).pay.toInt (B l).pay.toInt ∧ e (A l).pay.toInt (B l).pay.toInt ≤ 2 ^ 63 - 1))
    q.act ≠ 0 → (∀ l, q.act.getLsbD l = true → (A l).tag = .int ∧ (B l).tag = .int) →
      exec i s = .next ((q.state.retire z c.sched .alu (q.act &&& ~~~maskOf ((lanes q.act).filter out)) (wrReg q.state.grp c.ix d
          (keepFor d q.act (((lanes q.act).filter fun l => !out l).map fun l =>
            (l, .ofInt (e (A l).pay.toInt (B l).pay.toInt)))))).raiseClasses
        z (faceOf q.state i) q.act [] (((lanes q.act).filter out).map fun l => ⟨l, 48, 1, 1, A l, B l, Val.nil⟩) none) := by
  intro q A B out ha hi
  obtain ⟨G, hG, hrun⟩ := generic_run (op := op) (r := r) (dst := .val d) (a := a) (b := some b) (k := none) (F := .int) h fun l hl => by
    obtain ⟨hA, hB⟩ := hi l hl
    have hB' : (genB q.state z c.ix a (some b) l).tag = .int := hB
    rw [show (rdSrc q.state z c.ix a l).tag = .int from hA, hB']
    exact hF
  obtain rfl : G = some .int := hG.resolve_right ha
  have hr : ∀ l ∈ lanes q.act, genOut op r (l, A l, B l, Val.nil) =
      if out l then none else some (.ofInt (e (A l).pay.toInt (B l).pay.toInt)) := fun l hl => by
    rw [genOut, genResult_exact ho r (hi l (mem_lanes.1 hl).2).1 (hx _ _ _)]
    simp only [out, intOverflow_iff, intFits, decide_eq_true_eq]
  obtain ⟨_, hredo, _⟩ := h
  have hd : q.path.dead = [] := by
    have : q.path.redo = none := hredo
    simp [Path.dead, this]
  have hs : State.scanAll op q.path.dead (genOperands q.state z c.ix a (some b) none q.act) ⟨[], [], []⟩ q.state =
      (⟨[], [], []⟩, q.state) := scanAll_of_no_refs (fun e _ h => by rcases h.1 with rfl | rfl <;> cases ho) _ _
  have hops : genOperands (issuedOf i c s z p).state z c.ix a (some b) none (issuedOf i c s z p).act =
      (lanes q.act).map fun l => (l, A l, B l, Val.nil) := genOperands_eq _ _ _ _ _ _ _
  have hn : ((lanes q.act).map fun l => (l, A l, B l, Val.nil)).filter (fun e => (genOut op r e).isNone) =
      ((lanes q.act).filter out).map fun l => (l, A l, B l, Val.nil) := by
    rw [List.filter_map]
    exact congrArg _ (List.filter_congr fun l hl => by rw [Function.comp_apply, hr l hl]; cases out l <;> rfl)
  have hv : ((lanes q.act).map fun l => (l, A l, B l, Val.nil)).filterMap (fun e => (genOut op r e).map fun x => (e.1, x)) =
      ((lanes q.act).filter fun l => !out l).map fun l => (l, .ofInt (e (A l).pay.toInt (B l).pay.toInt)) := by
    rw [List.filterMap_map, ← List.filterMap_eq_map, List.filterMap_filter]
    exact List.filterMap_congr fun l hl => by rw [Function.comp_apply, hr l hl]; cases out l <;> rfl
  have hk : ∀ l, genRaise op 48 (l, A l, B l, Val.nil) = ⟨l, 48, (A l).tag.code, (B l).tag.code, A l, B l, Val.nil⟩ := fun l => by
    simp [genRaise, hu]
  have hb : (((lanes q.act).filter out).map fun l => (l, A l, B l, Val.nil)).map (genRaise op 48) =
      ((lanes q.act).filter out).map fun l => ⟨l, 48, 1, 1, A l, B l, Val.nil⟩ := by
    rw [List.map_map]
    refine List.map_congr_left fun l hl => ?_
    obtain ⟨hA, hB⟩ := hi l (mem_lanes.1 (List.mem_of_mem_filter hl)).2
    rw [Function.comp_apply, hk, hA, hB]
    rfl
  have hm : (((lanes q.act).filter out).map fun l => (l, A l, B l, Val.nil)).map Prod.fst = (lanes q.act).filter out := by
    simp [Function.comp_def]
  rw [he, hrun, genRun_val hs, hd, hlat, hops, hn, hv, hm, hb]
end

/-- Settles O16. -/
theorem forgeAndOverflow : Obligations.ForgeAndOverflow := by
  unfold Obligations.ForgeAndOverflow
  refine ⟨fun c f g d a s z p => ⟨fun h hf ha => tagOp_forges rfl h ?_ ha, fun h hf ha => tagOp_forges rfl h ?_ ha⟩, fun c r d a b s z p e he => ?_⟩
  · obtain ⟨k, rfl, hk⟩ := hf
    simpa [boxForges] using hk
  · obtain ⟨rfl, hu⟩ | hk := hf
    · have hu' : (issuedOf (.tagset c .ref d a) c s z p).path.user = true := hu
      simp [tagForges, hu']
    · simp [tagForges, hk]
  · simp only [List.mem_cons, List.not_mem_nil, or_false] at he
    intro q A B out h ha hi
    obtain rfl | rfl | rfl := he
    · exact exact_raises (op := .add) (r := r) rfl h rfl rfl (fun _ _ _ => rfl) rfl rfl ha hi
    · exact exact_raises (op := .sub) (r := r) rfl h rfl rfl (fun _ _ _ => rfl) rfl rfl ha hi
    · exact exact_raises (op := .mul) (r := r) rfl h rfl rfl (fun _ _ _ => rfl) rfl rfl ha hi

end Sys2Proof.Machine.Claim
end

section
/-! What the generic opcodes give of ints and of comparisons (spec 11_generic R125, R128, R129). -/
namespace Sys2Proof.Machine.Claim

/-! ### Exact numbers -/

theorem intOp_shl {y : Word} (h : y.toNat < 64) (x k : Int) : intOp .shl x y.toInt k = some (x * 2 ^ y.toNat) := by
  have hy := toInt_of_small h
  have hn : ¬(y.toInt < 0 ∨ 64 ≤ y.toInt ∧ x ≠ 0) := by omega
  simp only [intOp, if_neg hn]
  rw [hy, Int.toNat_natCast]
  split
  next hx => simp [hx]
  next => rfl
theorem intOp_shr {y : Word} (h : y.toNat < 64) (x k : Int) :
    intOp .shr x y.toInt k = some (Int.fdiv x (2 ^ y.toNat)) := by
  have hy := toInt_of_small h
  have h1 : ¬y.toInt < 0 := by omega
  have h2 : ¬64 ≤ y.toInt := by omega
  simp only [intOp, if_neg h1, if_neg h2]
  rw [hy, Int.toNat_natCast, Int.fdiv_eq_ediv_of_nonneg _ (by positivity)]
theorem toInt_ne_zero {x : Word} (h : x ≠ 0) : x.toInt ≠ 0 := fun hx => h (BitVec.eq_of_toInt_eq (by simpa using hx))
theorem intOp_fldiv {y : Int} (h : y ≠ 0) (x k : Int) : intOp .fldiv x y k = some (Int.fdiv x y) := by
  simp only [intOp, if_neg h, floorQuot_int]
theorem intOp_mod {y : Int} (h : y ≠ 0) (x k : Int) : intOp .mod x y k = some (x - y * Int.fdiv x y) := by
  simp only [intOp, if_neg h, floorQuot_int]

/-- An int as the finite value that DIV takes it for. -/
theorem finiteIs_int (x : Int) : FiniteIs (.fin (decide (x < 0)) x.natAbs 0) (decide (x < 0)) |(x : ℚ)| :=
  ⟨_, _, rfl, by simp [ratOf]⟩
/-- DIV of two ints is their quotient, rounded once. -/
theorem intDiv_roundedTo (r : Rnd) (x y : Int) (hy : y ≠ 0) :
    RoundedTo fmtF64 r (decide ((x : ℚ) / y < 0)) |(x : ℚ) / y| (intDiv r x y) := by
  have hyq : (y : ℚ) ≠ 0 := by exact_mod_cast hy
  by_cases hx : x = 0
  · subst hx
    exact Or.inl ⟨0, 0, by cases r <;> simp [intDiv] <;> decide, by simp [ratOf]⟩
  · have hxq : (x : ℚ) ≠ 0 := by exact_mod_cast hx
    obtain ⟨_, _, _, _, hq⟩ := div_quotientIs fmtF64 r (.fin (decide (x < 0)) x.natAbs 0) (.fin (decide (y < 0)) y.natAbs 0)
    obtain ⟨_, _, hr⟩ := hq _ _ _ _ (finiteIs_int x) (finiteIs_int y)
    have hs : (decide (x < 0) != decide (y < 0)) = decide ((x : ℚ) / y < 0) := by
      rw [Bool.eq_iff_iff]
      simp only [bne_iff_ne, ne_eq, decide_eq_decide, decide_eq_true_eq, div_neg_iff, Int.cast_pos, Int.cast_lt_zero]
      omega
    rw [intDiv, if_neg hx, abs_div, ← hs]
    exact hr (abs_ne_zero.2 hyq)

/-! ### O17 -/

theorem famOf_fma_int {x y : Tag} (hx : x = .int) (hy : y = .int) : famOf .fma .int x y = some .int := by rw [hx, hy]; rfl

section
variable {i : Instr} {c : Ctl} {op : GOp} {r : Rnd} {d : Reg} {a : Src} {b : GSrc} {s : State} {z : Bool} {p : Machine.Path}
theorem number1_gives {g : Int → Int} (he : exec i s = .next (generic1 i c op d a s)) (h : Issues i c s z p)
    (ho : exactOp op = true) (hF : famOf op .int .nil .nil = some .int) (hg : ∀ x, intOp op x 0 0 = some (g x))
    (hq : ∀ l, (issuedOf i c s z p).act.getLsbD l = true →
      let A := rdSrc (issuedOf i c s z p).state z c.ix a l
      A.tag = .int ∧ intFits (g A.pay.toInt)) :
    GivesVal i c (genLat op (some .int)) d s z p fun t l => .ofInt (g (rdSrc t z c.ix a l).pay.toInt) :=
  exact_gives (e := fun t l => g (rdSrc t z c.ix a l).pay.toInt) he h ho fun l hl => by
    obtain ⟨hA, hf⟩ := hq l hl
    exact ⟨hA, hF, hg _, hf⟩
theorem exact2_gives {e : Val → Val → Int} (he : exec i s = .next (generic2 i c op r d a b s)) (h : Issues i c s z p)
    (ho : exactOp op = true) (hF : famOf op .int .int .nil = some .int)
    (hq : ∀ l, (issuedOf i c s z p).act.getLsbD l = true →
      let A := rdSrc (issuedOf i c s z p).state z c.ix a l
      let B := rdB (issuedOf i c s z p).state z c.ix a b l
      A.tag = .int ∧ B.tag = .int ∧ intOp op A.pay.toInt B.pay.toInt 0 = some (e A B) ∧ intFits (e A B)) :
    GivesVal i c (genLat op (some .int)) d s z p fun t l => .ofInt (e (rdSrc t z c.ix a l) (rdB t z c.ix a b l)) :=
  exact_gives (e := fun t l => e (rdSrc t z c.ix a l) (rdB t z c.ix a b l)) he h ho fun l hl => by
    obtain ⟨hA, hB, hx⟩ := hq l hl
    refine ⟨hA, ?_, hx⟩
    have hB' : (genB (issuedOf i c s z p).state z c.ix a (some b) l).tag = .int := hB
    rw [hB']
    exact hF
/-- An opcode whose number is g of any two ints. -/
theorem number2_gives {g : Int → Int → Int} (he : exec i s = .next (generic2 i c op r d a b s)) (h : Issues i c s z p)
    (ho : exactOp op = true) (hF : famOf op .int .int .nil = some .int) (hg : ∀ x y, intOp op x y 0 = some (g x y))
    (hq : ∀ l, (issuedOf i c s z p).act.getLsbD l = true →
      let A := rdSrc (issuedOf i c s z p).state z c.ix a l
      let B := rdB (issuedOf i c s z p).state z c.ix a b l
      A.tag = .int ∧ B.tag = .int ∧ intFits (g A.pay.toInt B.pay.toInt)) :
    GivesVal i c (genLat op (some .int)) d s z p fun t l => .ofInt (g (rdSrc t z c.ix a l).pay.toInt (rdB t z c.ix a b l).pay.toInt) :=
  exact2_gives (e := fun x y => g x.pay.toInt y.pay.toInt) he h ho hF fun l hl => by
    obtain ⟨hA, hB, hf⟩ := hq l hl
    exact ⟨hA, hB, hg _ _, hf⟩
/-- An opcode whose number is g of any two ints, the second not zero. -/
theorem quotient_gives {g : Int → Int → Int} (he : exec i s = .next (generic2 i c op r d a b s)) (h : Issues i c s z p)
    (ho : exactOp op = true) (hF : famOf op .int .int .nil = some .int) (hg : ∀ x y, y ≠ 0 → intOp op x y 0 = some (g x y))
    (hq : ∀ l, (issuedOf i c s z p).act.getLsbD l = true →
      let A := rdSrc (issuedOf i c s z p).state z c.ix a l
      let B := rdB (issuedOf i c s z p).state z c.ix a b l
      A.tag = .int ∧ B.tag = .int ∧ B.pay ≠ 0 ∧ intFits (g A.pay.toInt B.pay.toInt)) :
    GivesVal i c (genLat op (some .int)) d s z p fun t l => .ofInt (g (rdSrc t z c.ix a l).pay.toInt (rdB t z c.ix a b l).pay.toInt) :=
  exact2_gives (e := fun x y => g x.pay.toInt y.pay.toInt) he h ho hF fun l hl => by
    obtain ⟨hA, hB, h0, hf⟩ := hq l hl
    exact ⟨hA, hB, hg _ _ (toInt_ne_zero h0), hf⟩
/-- A shift by a count below 64. -/
theorem shift_gives {g : Int → Nat → Int} (he : exec i s = .next (generic2 i c op r d a b s)) (h : Issues i c s z p)
    (ho : exactOp op = true) (hF : famOf op .int .int .nil = some .int)
    (hg : ∀ x {y : Word}, y.toNat < 64 → intOp op x y.toInt 0 = some (g x y.toNat))
    (hq : ∀ l, (issuedOf i c s z p).act.getLsbD l = true →
      let A := rdSrc (issuedOf i c s z p).state z c.ix a l
      let B := rdB (issuedOf i c s z p).state z c.ix a b l
      A.tag = .int ∧ B.tag = .int ∧ 0 ≤ B.pay.toInt ∧ B.pay.toNat < 64 ∧ intFits (g A.pay.toInt B.pay.toNat)) :
    GivesVal i c (genLat op (some .int)) d s z p fun t l => .ofInt (g (rdSrc t z c.ix a l).pay.toInt (rdB t z c.ix a b l).pay.toNat) :=
  exact2_gives (e := fun x y => g x.pay.toInt y.pay.toNat) he h ho hF fun l hl => by
    obtain ⟨hA, hB, _, hs, hf⟩ := hq l hl
    exact ⟨hA, hB, hg _ hs, hf⟩
/-- The bitwise operations of two ints or two bools. -/
theorem bitOp_gives (he : exec i s = .next (generic2 i c op r d a b s)) (h : Issues i c s z p) (ho : op = .and ∨ op = .or ∨ op = .xor)
    (hq : ∀ l, (issuedOf i c s z p).act.getLsbD l = true →
      let A := rdSrc (issuedOf i c s z p).state z c.ix a l
      let B := rdB (issuedOf i c s z p).state z c.ix a b l
      A.tag = B.tag ∧ (A.tag = .int ∨ A.tag = .bool)) :
    GivesVal i c .alu d s z p fun t l => ⟨(rdSrc t z c.ix a l).tag, bitOp op (rdSrc t z c.ix a l).pay (rdB t z c.ix a b l).pay⟩ := by
  have hl : genLat op (some .int) = .alu := by obtain rfl | rfl | rfl := ho <;> rfl
  have hop : op ≠ .eq ∧ op ≠ .ne := by obtain rfl | rfl | rfl := ho <;> decide
  refine hl ▸ generic_givesVal he h hop fun l hl => ?_
  obtain ⟨hAB, hA⟩ := hq l hl
  have hB : genB (issuedOf i c s z p).state z c.ix a (some b) l = rdB (issuedOf i c s z p).state z c.ix a b l := rfl
  rw [hB, genResult]
  obtain rfl | rfl | rfl := ho <;> obtain hA | hA := hA <;> simp [famOf, ← hAB, hA, floatFam, intResult]
end

/-- Settles O17: each exact opcode gives its number; DIV rounds once, the bitwise ones and HASH work on the payload. -/
theorem genericIntegers : Obligations.GenericIntegers := by
  unfold Obligations.GenericIntegers
  intro c r d a b k s z p A B K lane
  refine ⟨fun e he h hq => ?_, fun e he h hq => ?_, fun h hq => ?_, fun e he h hq => ?_, fun e he h hq => ?_, fun h hq => ?_,
    fun e he h hq => ?_, fun h hq => ?_⟩
  · simp only [List.mem_cons, List.not_mem_nil, or_false] at he
    obtain rfl | rfl | rfl | rfl | rfl := he
    · exact number2_gives (op := .add) (r := r) rfl h rfl rfl (fun _ _ => rfl) hq
    · exact number2_gives (op := .sub) (r := r) rfl h rfl rfl (fun _ _ => rfl) hq
    · exact number2_gives (op := .mul) (r := r) rfl h rfl rfl (fun _ _ => rfl) hq
    · exact number2_gives (op := .min) (r := .rne) rfl h rfl rfl (fun _ _ => congrArg some (min_def _ _)) hq
    · exact number2_gives (op := .max) (r := .rne) rfl h rfl rfl (fun _ _ => congrArg some (max_def _ _)) hq
  · simp only [List.mem_cons, List.not_mem_nil, or_false] at he
    obtain rfl | rfl := he
    · exact number1_gives (op := .neg) rfl h rfl rfl (fun _ => rfl) hq
    · exact number1_gives (op := .abs) rfl h rfl rfl (fun _ => congrArg some (natAbs_eq_ite _)) hq
  · refine exact_gives (op := .fma) (r := r) (b := some b) (k := some k)
      (e := fun t l => (A t l).pay.toInt * (B t l).pay.toInt + (K t l).pay.toInt) rfl h rfl fun l hl => ?_
    obtain ⟨hA, hB, hK, hf⟩ := hq l hl
    exact ⟨hA, famOf_fma_int hB hK, rfl, hf⟩
  · simp only [List.mem_cons, List.not_mem_nil, or_false] at he
    obtain rfl | rfl := he
    · exact quotient_gives (op := .fldiv) (r := .rne) rfl h rfl rfl (fun _ _ h0 => intOp_fldiv h0 _ _) hq
    · exact quotient_gives (op := .mod) (r := .rne) rfl h rfl rfl (fun _ _ h0 => intOp_mod h0 _ _) hq
  · simp only [List.mem_cons, List.not_mem_nil, or_false] at he
    obtain rfl | rfl := he
    · exact shift_gives (op := .shl) (r := .rne) rfl h rfl rfl (fun _ _ hs => intOp_shl hs _ _) hq
    · exact shift_gives (op := .shr) (r := .rne) rfl h rfl rfl (fun _ _ hs => intOp_shr hs _ _) hq
  · refine ⟨fun t l => intDiv r (A t l).pay.toInt (B t l).pay.toInt, generic_givesVal (op := .div) (r := r) (b := some b) (F := .int) rfl h
      (by decide) fun l hl => ?_, fun t l _ _ h0 => intDiv_roundedTo _ _ _ (toInt_ne_zero h0)⟩
    obtain ⟨hA, hB, h0⟩ := hq l hl
    have hB' : genB (issuedOf (.div c r d a b) c s z p).state z c.ix a (some b) l = B (issuedOf (.div c r d a b) c s z p).state l := rfl
    have hA' : rdSrc (issuedOf (.div c r d a b) c s z p).state z c.ix a l = A (issuedOf (.div c r d a b) c s z p).state l := rfl
    rw [hB', hA', hA, hB]
    refine ⟨rfl, ?_⟩
    simpa [genResult, hA, floatFam, intResult] using h0
  · simp only [List.mem_cons, List.not_mem_nil, or_false] at he
    obtain rfl | rfl | rfl := he
    · exact bitOp_gives (op := .and) rfl h (by decide) hq
    · exact bitOp_gives (op := .or) rfl h (by decide) hq
    · exact bitOp_gives (op := .xor) rfl h (by decide) hq
  · refine generic_givesVal (op := .hash) (b := none) (F := .int) (r := .rne) rfl h (by decide) fun l hl => ?_
    have hA := hq l hl
    have hA' : rdSrc (issuedOf (.hash c d a) c s z p).state z c.ix a l = A (issuedOf (.hash c d a) c s z p).state l := rfl
    rw [hA', genResult]
    obtain hA | hA := hA <;> simp [famOf, hA, floatFam, intResult, A]

end Sys2Proof.Machine.Claim
end

section
/-! Comparisons of the generic opcodes (spec 11_generic R128, Table 11.4). -/
namespace Sys2Proof.Machine.Claim

/-! ### Families of floats -/

/-- The opcodes that have a float family (Table 11.2). -/
def floatOp : GOp → Bool
  | .and | .or | .xor | .shl | .shr => false
  | .add | .sub | .mul | .div | .fldiv | .mod | .neg | .abs | .min | .max | .fma | .eq | .ne | .lt | .le | .truth | .hash => true
theorem tagFmt_cases {F : Fam} {t : Tag} {f : Fmt} (h : tagFmt F t f) : (t = .f64 ∧ F = .f64 ∧ f = fmtF64) ∨ (t = .f32 ∧ F = .f32 ∧ f = fmtF32) ∨
    (t = .f16 ∧ F = .half ∧ f = fmtF16) ∨ (t = .bf16 ∧ F = .half ∧ f = fmtBf16) := by
  unfold tagFmt at h
  cases t <;> simp_all [floatFam]
/-- Lanes of one float tag are of its family. -/
theorem famOf_float {op : GOp} (ho : floatOp op = true) {F : Fam} {t x y : Tag} {f : Fmt} (h : tagFmt F t f)
    (hx : op.unary = false → x = t) (hy : op = .fma → y = t) : famOf op t x y = some F := by
  have hp : pairFam t t = some F := by
    obtain ⟨rfl, rfl, _⟩ | ⟨rfl, rfl, _⟩ | ⟨rfl, rfl, _⟩ | ⟨rfl, rfl, _⟩ := tagFmt_cases h <;> rfl
  have ht : (floatFam t).map Prod.fst = some F := by rw [show floatFam t = some (F, f) from h]; rfl
  have hn : t ≠ .int ∧ t ≠ .bool ∧ t ≠ .nil ∧ eqTag t = false := by
    obtain ⟨rfl, _⟩ | ⟨rfl, _⟩ | ⟨rfl, _⟩ | ⟨rfl, _⟩ := tagFmt_cases h <;> decide
  cases op <;> simp_all [famOf, GOp.unary, floatOp]
theorem floatLat {op : GOp} (ho : ¬(op = .div ∨ op = .fldiv ∨ op = .mod)) (F : Fam) :
    genLat op (some F) = if F = .f64 then .f64 else .alu := by
  simp [genLat, ho]

/-! ### O19 -/

/-- The comparison of a comparison opcode. -/
def condOf : GOp → FCond
  | .eq => .eq
  | .ne => .ne
  | .lt => .lt
  | _ => .le
theorem genBit_float {op : GOp} (ho : op = .eq ∨ op = .ne ∨ op = .lt ∨ op = .le) {F : Fam} {a b : Val} {f : Fmt} (h : tagFmt F a.tag f)
    (hb : b.tag = a.tag) : genBit op a b =
      quietly (condOf op) (orderOf (f.decode (a.pay.toNat % 2 ^ f.width)) (f.decode (b.pay.toNat % 2 ^ f.width))) := by
  have hf : floatFam a.tag = some (F, f) := h
  rw [← fcond_eq_quietly]
  obtain rfl | rfl | rfl | rfl := ho <;> simp [genBit, hf, hb, condOf, floatPay]
theorem genBit_truth_float {F : Fam} {a b : Val} {f : Fmt} (h : tagFmt F a.tag f) :
    genBit .truth a b = !(f.decode (a.pay.toNat % 2 ^ f.width)).isZero := by
  have hf : floatFam a.tag = some (F, f) := h
  simp only [genBit, hf, floatPay]
/-- Two values that EQ and NE compare in the int family (Table 11.2). -/
theorem famOf_eq_int {op : GOp} (ho : op = .eq ∨ op = .ne) {x y : Tag}
    (h : x = y ∧ eqTag x = true ∨ x ≠ y ∧ (numeric x = false ∨ numeric y = false)) (k : Tag) : famOf op x y k = some .int := by
  obtain rfl | rfl := ho <;> obtain ⟨rfl, h⟩ | ⟨hn, h⟩ := h <;> simp [famOf, *] <;> intro hx <;> simp_all
theorem floatFam_of_eqTag {t : Tag} (h : eqTag t = true) : floatFam t = none := by
  cases t <;> simp_all [eqTag, floatFam]
theorem genBit_eq {a b : Val} (h : floatFam a.tag = none ∨ a.tag ≠ b.tag) :
    genBit .eq a b = decide (a = b) ∧ genBit .ne a b = !decide (a = b) := by
  obtain ⟨x, v⟩ := a
  obtain ⟨y, w⟩ := b
  by_cases hx : x = y
  · have hf := h.resolve_right (by simpa using hx)
    subst hx
    simp only [genBit, hf, Val.mk.injEq, true_and, beq_self_eq_true, Bool.true_and]
    constructor <;> rw [Bool.eq_iff_iff] <;> simp
  · cases hf : floatFam x <;> simp [genBit, hf, hx]

theorem genBit_equal {op : GOp} (ho : op = .eq ∨ op = .ne) {a b : Val} (h : floatFam a.tag = none ∨ a.tag ≠ b.tag) :
    genBit op a b = (decide (a = b) == decide (op = .eq)) := by
  obtain ⟨he, hn⟩ := genBit_eq h
  obtain rfl | rfl := ho
  · simp [he]
  · simp [hn]
/-- TRUTH of an int, a bool or nil. -/
theorem truth_int {v : Val} (h : v.tag = .int ∨ v.tag = .bool ∨ v.tag = .nil) (b k : Val) :
    famOf .truth v.tag b.tag k.tag = some .int ∧ genBit .truth v b = decide (v.tag ≠ .nil ∧ v.pay ≠ 0) := by
  have hf : floatFam v.tag = none := by obtain h | h | h := h <;> rw [h] <;> rfl
  refine ⟨by simp [famOf, h], ?_⟩
  rw [Bool.eq_iff_iff]
  simp [genBit, hf]
/-- The tags whose equal pairs are compared, two equal refs among them. -/
theorem eqTag_of_kinds {a b : Val} (h : a.tag = .int ∨ a.tag = .bool ∨ a.tag = .nil ∨ a.tag = .sym ∨ a.tag = .raw ∨ a.tag = .hnd ∨
    a.tag = .ref ∧ a.pay = b.pay) : eqTag a.tag = true ∧ (a.tag = .ref → a.pay = b.pay) := by
  obtain h | h | h | h | h | h | ⟨h, hp⟩ := h <;> simp [h, eqTag]
  exact hp

section
variable {i : Instr} {c : Ctl} {op : GOp} {d : Pred} {a : Src} {b : GSrc} {s : State} {z : Bool} {p : Machine.Path}
/-- A comparison of floats of one family. -/
theorem floatCompare_gives (he : exec i s = .next (genericP i c op d a b s)) (h : Issues i c s z p)
    (ho : op = .eq ∨ op = .ne ∨ op = .lt ∨ op = .le) {F : Fam}
    (hq : ∀ l, (issuedOf i c s z p).act.getLsbD l = true →
      let A := rdSrc (issuedOf i c s z p).state z c.ix a l
      let B := rdB (issuedOf i c s z p).state z c.ix a b l
      (∃ f, tagFmt F A.tag f) ∧ B.tag = A.tag) :
    ∃ h : State → Nat → Bool, GivesBit i c (if F = .f64 then .f64 else .alu) d s z p h ∧
      ∀ t l f, tagFmt F (rdSrc t z c.ix a l).tag f → (rdB t z c.ix a b l).tag = (rdSrc t z c.ix a l).tag →
        h t l = quietly (condOf op) (orderOf (f.decode ((rdSrc t z c.ix a l).pay.toNat % 2 ^ f.width))
          (f.decode ((rdB t z c.ix a b l).pay.toNat % 2 ^ f.width))) := by
  have hl : ¬(op = .div ∨ op = .fldiv ∨ op = .mod) ∧ floatOp op = true ∧ op ≠ .fma := by obtain rfl | rfl | rfl | rfl := ho <;> decide
  refine ⟨fun t l => genBit op (rdSrc t z c.ix a l) (rdB t z c.ix a b l), ?_, fun t l f hf hb => genBit_float ho hf hb⟩
  rw [← floatLat hl.1]
  refine generic_givesBit he h fun l hl' => ?_
  obtain ⟨⟨f, hf⟩, hb⟩ := hq l hl'
  refine ⟨?_, famOf_float hl.2.1 hf (fun _ => hb) fun h => absurd h hl.2.2, rfl⟩
  rintro ⟨_, hr, _⟩
  simp only at hr
  simp [hr, tagFmt, floatFam] at hf
/-- A comparison of ints. -/
theorem intCompare_gives (he : exec i s = .next (genericP i c op d a b s)) (h : Issues i c s z p) (ho : op = .lt ∨ op = .le)
    (hq : ∀ l, (issuedOf i c s z p).act.getLsbD l = true →
      (rdSrc (issuedOf i c s z p).state z c.ix a l).tag = .int ∧ (rdB (issuedOf i c s z p).state z c.ix a b l).tag = .int) :
    GivesBit i c .alu d s z p fun t l => if op = .lt then decide ((rdSrc t z c.ix a l).pay.toInt < (rdB t z c.ix a b l).pay.toInt)
      else decide ((rdSrc t z c.ix a l).pay.toInt ≤ (rdB t z c.ix a b l).pay.toInt) := by
  have hl : genLat op (some .int) = .alu := by obtain rfl | rfl := ho <;> rfl
  refine hl ▸ generic_givesBit he h fun l hl => ?_
  obtain ⟨hA, hB⟩ := hq l hl
  have hB' : genB (issuedOf i c s z p).state z c.ix a (some b) l = rdB (issuedOf i c s z p).state z c.ix a b l := rfl
  rw [hB']
  obtain rfl | rfl := ho <;> simp [twoRefs, famOf, pairFam, genBit, floatFam, hA, hB]
/-- EQ and NE in the int family. -/
theorem equal_gives (he : exec i s = .next (genericP i c op d a b s)) (h : Issues i c s z p) (ho : op = .eq ∨ op = .ne)
    (hq : ∀ l, (issuedOf i c s z p).act.getLsbD l = true →
      let A := rdSrc (issuedOf i c s z p).state z c.ix a l
      let B := rdB (issuedOf i c s z p).state z c.ix a b l
      A.tag = B.tag ∧ eqTag A.tag = true ∧ (A.tag = .ref → A.pay = B.pay) ∨ A.tag ≠ B.tag ∧ (numeric A.tag = false ∨ numeric B.tag = false)) :
    GivesBit i c .alu d s z p fun t l => decide (rdSrc t z c.ix a l = rdB t z c.ix a b l) == decide (op = .eq) := by
  have hl : genLat op (some .int) = .alu := by obtain rfl | rfl := ho <;> rfl
  refine hl ▸ generic_givesBit he h fun l hl => ?_
  have hB : genB (issuedOf i c s z p).state z c.ix a (some b) l = rdB (issuedOf i c s z p).state z c.ix a b l := rfl
  rw [hB]
  refine ⟨?_, famOf_eq_int ho ((hq l hl).imp (fun h => ⟨h.1, h.2.1⟩) id) _, ?_⟩
  · rintro ⟨_, hA, hB, hn⟩
    obtain ⟨_, _, hp⟩ | ⟨ht, _⟩ := hq l hl
    · exact hn (hp hA)
    · exact ht (hA.trans hB.symm)
  · exact genBit_equal ho ((hq l hl).imp (fun h => floatFam_of_eqTag h.2.1) And.left)
/-- EQ and NE of two refs whose targets are scanned without an event. -/
theorem refs_complete (he : exec i s = .next (genericP i c op d a b s)) (h : Issues i c s z p) (ho : op = .eq ∨ op = .ne)
    (ha : (issuedOf i c s z p).act ≠ 0)
    (hq : ∀ l, (issuedOf i c s z p).act.getLsbD l = true →
      (rdSrc (issuedOf i c s z p).state z c.ix a l).tag = .ref ∧ (rdB (issuedOf i c s z p).state z c.ix a b l).tag = .ref) {t : State}
    (ht : State.scanAll op [] (genOperands (issuedOf i c s z p).state z c.ix a (some b) none (issuedOf i c s z p).act) ⟨[], [], []⟩
      (issuedOf i c s z p).state = (⟨[], [], []⟩, t)) :
    ∃ ws, exec i s = .next (t.finish z c.sched .alu (issuedOf i c s z p).act ws) ∧ WritesPred d.val (issuedOf i c s z p).act
      (fun l => decide (rdSrc (issuedOf i c s z p).state z c.ix a l = rdB (issuedOf i c s z p).state z c.ix a b l) == decide (op = .eq)) ws := by
  have hl : genLat op (some .int) = .alu := by obtain rfl | rfl := ho <;> rfl
  obtain ⟨G, hG, hx⟩ := generic_bits (F := .int) he h ht fun l hl => by
    obtain ⟨hA, hB⟩ := hq l hl
    have hB' : genB (issuedOf i c s z p).state z c.ix a (some b) l = rdB (issuedOf i c s z p).state z c.ix a b l := rfl
    rw [hB']
    exact ⟨famOf_eq_int ho (Or.inl ⟨hA.trans hB.symm, by rw [hA]; rfl⟩) _, genBit_equal ho (Or.inl (by rw [hA]; rfl))⟩
  obtain rfl : G = some .int := hG.resolve_right ha
  exact ⟨_, hl ▸ hx, writesPred_wrPred _ _ _⟩
end

/-- Settles O19. -/
theorem genericComparisons : Obligations.GenericComparisons := by
  unfold Obligations.GenericComparisons
  intro c q a b s z p A B lane value
  refine ⟨fun e he h hq => ?_, fun F e he h hq => ?_, fun e he h hq => ?_, fun e he => ?_, fun h hq => ?_, fun F h hq => ?_⟩
  · simp only [List.mem_cons, List.not_mem_nil, or_false] at he
    obtain rfl | rfl := he
    · exact intCompare_gives (op := .lt) rfl h (by decide) hq
    · exact intCompare_gives (op := .le) rfl h (by decide) hq
  · simp only [List.mem_cons, List.not_mem_nil, or_false] at he
    obtain rfl | rfl | rfl | rfl := he
    · exact floatCompare_gives (op := .lt) rfl h (by decide) hq
    · exact floatCompare_gives (op := .le) rfl h (by decide) hq
    · exact floatCompare_gives (op := .eq) rfl h (by decide) hq
    · exact floatCompare_gives (op := .ne) rfl h (by decide) hq
  · have hq' : lane e.1 fun t l => (A t l).tag = (B t l).tag ∧ eqTag (A t l).tag = true ∧ ((A t l).tag = .ref → (A t l).pay = (B t l).pay) ∨
        (A t l).tag ≠ (B t l).tag ∧ (numeric (A t l).tag = false ∨ numeric (B t l).tag = false) := fun l hl =>
      (hq l hl).imp (fun ⟨ht, hk⟩ => ⟨ht, eqTag_of_kinds hk⟩) id
    simp only [List.mem_cons, List.not_mem_nil, or_false] at he
    obtain rfl | rfl := he
    · exact equal_gives (op := .eq) rfl h (by decide) hq'
    · exact equal_gives (op := .ne) rfl h (by decide) hq'
  · simp only [List.mem_cons, List.not_mem_nil, or_false] at he
    intro r h ha hq t ht
    obtain rfl | rfl := he
    · exact refs_complete (op := .eq) rfl h (by decide) ha hq ht
    · exact refs_complete (op := .ne) rfl h (by decide) ha hq ht
  · refine generic_givesBit (op := .truth) (b := none) (F := .int) (r := .rne) rfl h fun l hl => ⟨fun h => by simpa using h.1, ?_⟩
    exact truth_int (hq l hl) _ _
  · refine ⟨fun t l => genBit .truth (A t l) Val.nil, ?_, fun t l f hf => genBit_truth_float hf⟩
    rw [← floatLat (op := .truth) (by decide)]
    refine generic_givesBit (op := .truth) (b := none) (r := .rne) rfl h fun l hl => ⟨fun h => by simpa using h.1, ?_, rfl⟩
    obtain ⟨f, hf⟩ := hq l hl
    exact famOf_float rfl hf (fun h => by cases h) fun h => by cases h

end Sys2Proof.Machine.Claim
end

section
/-! The rounding of the float formats (spec 03_values R36 to R41). -/
namespace Sys2Proof.Machine.Claim

/-! ### The grid of a format -/

section
variable {f : Fmt}
/-- The magnitudes of an exponent field a ≥ 1, the first of the next one included. -/
theorem gridVal_normal {a j : Nat} (ha : 1 ≤ a) (hj : j ≤ 2 ^ f.mb) :
    gridVal f (a * 2 ^ f.mb + j) = ratOf (2 ^ f.mb + j) ((a : Int) - f.bias - f.mb) := by
  have hp : 0 < 2 ^ f.mb := by positivity
  have hn : ¬a * 2 ^ f.mb + j < 2 ^ f.mb := by nlinarith
  rw [gridVal, if_neg hn]
  obtain hj | rfl := hj.lt_or_eq
  · rw [Nat.add_comm (a * _), Nat.add_mul_mod_self_right, Nat.mod_eq_of_lt hj, Nat.add_mul_div_right _ _ hp, Nat.div_eq_of_lt hj,
      Nat.zero_add, Nat.add_comm j]
  · rw [← Nat.succ_mul, Nat.mul_mod_left, Nat.mul_div_cancel _ hp, Nat.zero_add, ← Nat.two_mul,
      ratOf_lower _ (show (a : Int) - f.bias - f.mb ≤ ((a.succ : Nat) : Int) - f.bias - f.mb by push_cast; omega)]
    have : (((a.succ : Nat) : Int) - f.bias - f.mb - ((a : Int) - f.bias - f.mb)).toNat = 1 := by push_cast; omega
    rw [this, pow_one, Nat.mul_comm]
/-- The subnormal magnitudes and the least normal one. -/
theorem gridVal_subnormal {j : Nat} (hj : j ≤ 2 ^ f.mb) : gridVal f j = ratOf j (1 - f.bias - f.mb) := by
  obtain hj | rfl := hj.lt_or_eq
  · rw [gridVal, if_pos hj]
  · have := gridVal_normal (f := f) (a := 1) (j := 0) le_rfl (Nat.zero_le _)
    simpa using this
theorem gridVal_lt_succ (f : Fmt) (c : Nat) : gridVal f c < gridVal f (c + 1) := by
  by_cases hc : c < 2 ^ f.mb
  · rw [gridVal_subnormal hc.le, gridVal_subnormal hc, ratOf_lt]
    omega
  · have hp : 0 < 2 ^ f.mb := by positivity
    have ha : 1 ≤ c / 2 ^ f.mb := (Nat.one_le_div_iff hp).2 (not_lt.1 hc)
    have hj := Nat.mod_lt c hp
    have e : c = c / 2 ^ f.mb * 2 ^ f.mb + c % 2 ^ f.mb := (Nat.div_add_mod' c _).symm
    rw [e, Nat.add_assoc, gridVal_normal ha hj.le, gridVal_normal ha hj, ratOf_lt]
    omega
theorem gridVal_strictMono (f : Fmt) : StrictMono (gridVal f) := strictMono_nat_of_lt_succ (gridVal_lt_succ f)
end

/-! ### Which neighbour is taken -/

/-- Whether a magnitude between the neighbours g and h takes the upper one, c being the code of g. -/
def TakesUpper (r : Rnd) (neg : Bool) (x g h : ℚ) (c : Nat) : Prop :=
  match r with
  | .rne => g + h < 2 * x ∨ 2 * x = g + h ∧ c % 2 = 1
  | .rtz => False
  | .rup => neg = false ∧ g < x
  | .rdn => neg = true ∧ g < x
/-- The neighbour taken is the one that the magnitude rounds to. -/
theorem roundsTo_of_neighbours {f : Fmt} {r : Rnd} {neg : Bool} {x : ℚ} {c : Nat} {up : Bool} (hl : gridVal f c ≤ x)
    (hu : x < gridVal f (c + 1)) (h : up = true ↔ TakesUpper r neg x (gridVal f c) (gridVal f (c + 1)) c) :
    RoundsTo f r neg x (if up then c + 1 else c) := by
  have hmono := gridVal_strictMono f
  have below {k : Nat} (hk : k < c) : gridVal f k < gridVal f c := hmono hk
  have above {k : Nat} (hk : c + 1 < k) : gridVal f (c + 1) < gridVal f k := hmono hk
  have down (hd : up = false) : RoundsTo f .rtz neg x (if up then c + 1 else c) := by simp [hd, RoundsTo, hl, hu]
  have rise (hx : up = true ↔ gridVal f c < x) : x ≤ gridVal f (if up then c + 1 else c) ∧
      ∀ k, k < (if up then c + 1 else c) → gridVal f k < x := by
    cases up with
    | true =>
      refine ⟨by simpa using hu.le, fun k hk => ?_⟩
      exact lt_of_le_of_lt (hmono.monotone (by simpa [Nat.lt_succ_iff] using hk)) (hx.1 rfl)
    | false =>
      have hx' : x = gridVal f c := le_antisymm (by simpa using hx) hl
      exact ⟨by simp [hx'], fun k hk => by rw [hx']; exact hmono (by simpa using hk)⟩
  cases r with
  | rtz => exact down (by simpa [TakesUpper] using h)
  | rup =>
    cases neg with
    | true => exact down (by simpa [TakesUpper] using h)
    | false => exact rise (by simpa [TakesUpper] using h)
  | rdn =>
    cases neg with
    | false => exact down (by simpa [TakesUpper] using h)
    | true => exact rise (by simpa [TakesUpper] using h)
  | rne =>
    simp only [TakesUpper] at h
    have ab : |x - gridVal f c| = x - gridVal f c := abs_of_nonneg (by linarith)
    have au : |x - gridVal f (c + 1)| = gridVal f (c + 1) - x := by rw [abs_of_nonpos (by linarith)]; ring
    have low {k : Nat} (hk : k < c) : x - gridVal f c < |x - gridVal f k| := (by linarith [below hk] : _ < x - _).trans_le (le_abs_self _)
    have high {k : Nat} (hk : c + 1 < k) : gridVal f (c + 1) - x < |x - gridVal f k| :=
      (by linarith [above hk] : _ < -(x - _)).trans_le (neg_le_abs _)
    cases up with
    | true =>
      have hx := h.1 rfl
      intro k hk
      rw [if_pos rfl] at hk ⊢
      rw [au]
      obtain hk | rfl | hk : k < c ∨ k = c ∨ c + 1 < k := by omega
      · exact Or.inl (lt_of_le_of_lt (by obtain h | ⟨h, _⟩ := hx <;> linarith) (low hk))
      · rw [ab]
        obtain h | ⟨h, hc⟩ := hx
        · exact Or.inl (by linarith)
        · exact Or.inr ⟨by linarith, by omega⟩
      · exact Or.inl (high hk)
    | false =>
      have hx : ¬(_ ∨ _) := fun hh => by simpa using h.2 hh
      obtain ⟨hle, heven⟩ := not_or.1 hx
      rw [not_lt] at hle
      intro k hk
      rw [if_neg (by simp)] at hk ⊢
      rw [ab]
      obtain hk | rfl | hk : k < c ∨ k = c + 1 ∨ c + 1 < k := by omega
      · exact Or.inl (low hk)
      · rw [au]
        obtain h | h := hle.lt_or_eq
        · exact Or.inl (by linarith)
        · exact Or.inr ⟨by linarith, by have : ¬c % 2 = 1 := fun hc => heven ⟨h, hc⟩; omega⟩
      · exact Or.inl (lt_of_le_of_lt (by linarith) (high hk))

/-! ### The rounding of a format -/

/-- The code of the multiple k of 2^q, for the least exponent q or a k of the full precision. -/
def codeAt (f : Fmt) (q : Int) (k : Nat) : Nat :=
  if k < 2 ^ f.mb then k else (q + f.mb + f.bias).toNat * 2 ^ f.mb + (k - 2 ^ f.mb)
section
variable {f : Fmt} {q : Int} {k : Nat}
theorem gridVal_codeAt (hq : 1 - f.bias - f.mb ≤ q) (hk : k < 2 ^ f.mb → q = 1 - f.bias - f.mb) (hu : k ≤ 2 * 2 ^ f.mb) :
    gridVal f (codeAt f q k) = ratOf k q := by
  unfold codeAt
  split
  next h => rw [gridVal_subnormal h.le, hk h]
  next h =>
    have ha : ((q + f.mb + f.bias).toNat : Int) = q + f.mb + f.bias := Int.toNat_of_nonneg (by omega)
    rw [gridVal_normal (by omega) (by omega), Nat.add_sub_cancel' (not_lt.1 h), ha]
    congr 1
    omega
theorem codeAt_succ (hk : k < 2 ^ f.mb → q = 1 - f.bias - f.mb) : codeAt f q (k + 1) = codeAt f q k + 1 := by
  unfold codeAt
  by_cases h : k < 2 ^ f.mb
  · have ha : (q + f.mb + f.bias).toNat = 1 := by have := hk h; omega
    rw [ha]
    split <;> omega
  · rw [if_neg h, if_neg (by omega)]
    omega
theorem codeAt_mod_two (hf : 1 ≤ f.mb) : codeAt f q k % 2 = k % 2 := by
  obtain ⟨n, hn⟩ : ∃ n, 2 ^ f.mb = 2 * n := ⟨2 ^ (f.mb - 1), by rw [← Nat.pow_succ']; congr 1; omega⟩
  unfold codeAt
  rw [hn]
  split
  · rfl
  · rw [Nat.mul_left_comm]
    omega
end

/-- The least bit kept of a magnitude m × 2^e. -/
def leastBit (f : Fmt) (m : Nat) (e : Int) : Int := max (e + Nat.log2 m) (1 - f.bias) - f.mb
theorem round_eq {f : Fmt} (hf : f.no ≠ 11) (r : Rnd) (neg : Bool) {m : Nat} (hm : m ≠ 0) (e : Int) :
    f.round r neg m e = f.signed neg (if f.topCode < codeAt f (leastBit f m e) (roundTo r neg m e (leastBit f m e)) then f.overflow r neg
      else codeAt f (leastBit f m e) (roundTo r neg m e (leastBit f m e))) := by
  rw [Fmt.round, if_neg hf, if_neg hm]
  rfl
theorem overflow_eq (f : Fmt) (r : Rnd) (neg : Bool) : f.overflow r neg =
    if f.inf = true ∧ (r = .rne ∨ r = .rup ∧ neg = false ∨ r = .rdn ∧ neg = true) then f.infCode else f.topCode := by
  cases hi : f.inf <;> cases r <;> cases neg <;> simp [Fmt.overflow, hi]
/-- The magnitude of a multiple of 2^q as one of 2^e. -/
theorem ratOf_raise {e q : Int} (h : e ≤ q) (k : Nat) : ratOf k q = ratOf (k * 2 ^ (q - e).toNat) e := ratOf_lower k h
theorem ratOf_add (m k : Nat) (e : Int) : ratOf m e + ratOf k e = ratOf (m + k) e := by
  unfold ratOf
  push_cast
  ring
theorem two_mul_ratOf (m : Nat) (e : Int) : 2 * ratOf m e = ratOf (2 * m) e := by
  unfold ratOf
  push_cast
  ring
theorem ratOf_inj {m k : Nat} {e : Int} : ratOf m e = ratOf k e ↔ m = k := by
  simp only [le_antisymm_iff, ratOf_le]
/-- Rounding to a multiple of 2^q takes the multiple below or the one above. -/
theorem roundTo_neighbour (r : Rnd) (neg : Bool) (m : Nat) (e q : Int) : ∃ k up, roundTo r neg m e q = (if up then k + 1 else k) ∧
    ratOf k q ≤ ratOf m e ∧ ratOf m e < ratOf (k + 1) q ∧
      (up = true ↔ TakesUpper r neg (ratOf m e) (ratOf k q) (ratOf (k + 1) q) k) := by
  by_cases hq : q ≤ e
  · refine ⟨m * 2 ^ (e - q).toNat, false, by simp [roundTo, hq], (ratOf_lower m hq).ge, ?_, ?_⟩
    · rw [ratOf_lower m hq, ratOf_lt]
      omega
    · rw [ratOf_lower m hq]
      cases r <;> simp only [TakesUpper, two_mul_ratOf, ratOf_add, ratOf_lt, ratOf_inj] <;> simp
      omega
  · have hs := ratOf_raise (not_le.1 hq).le
    refine ⟨m / 2 ^ (q - e).toNat, roundsUp r neg (m / 2 ^ (q - e).toNat) (m % 2 ^ (q - e).toNat) (q - e).toNat, by simp [roundTo, hq], ?_⟩
    generalize (q - e).toNat = s at hs
    have hp : 0 < 2 ^ s := by positivity
    have hm := Nat.div_add_mod' m (2 ^ s)
    have hr := Nat.mod_lt m hp
    have hd : (m / 2 ^ s + 1) * 2 ^ s = m / 2 ^ s * 2 ^ s + 2 ^ s := by ring
    generalize m / 2 ^ s = k at hm hd
    generalize m % 2 ^ s = t at hm hr
    simp only [hs, hd]
    refine ⟨?_, ?_, ?_⟩
    · rw [ratOf_le]
      omega
    · rw [ratOf_lt]
      omega
    · have ht : t ≠ 0 ↔ k * 2 ^ s < m := by omega
      cases r with
      | rtz => simp [TakesUpper, roundsUp]
      | rup => simp only [TakesUpper, roundsUp, ratOf_lt, Bool.and_eq_true, Bool.not_eq_true', bne_iff_ne, ht]
      | rdn => simp only [TakesUpper, roundsUp, ratOf_lt, Bool.and_eq_true, bne_iff_ne, ht]
      | rne =>
        simp only [TakesUpper, roundsUp, two_mul_ratOf, ratOf_add, ratOf_lt, ratOf_inj, Bool.or_eq_true, Bool.and_eq_true, decide_eq_true_eq,
          beq_iff_eq]
        omega

theorem ratOf_log2_le {m : Nat} (hm : m ≠ 0) (e : Int) : (2 : ℚ) ^ (e + Nat.log2 m) ≤ ratOf m e := by
  rw [zpow_add₀ (by norm_num), mul_comm, ratOf, mul_le_mul_iff_left₀ (by positivity), zpow_natCast]
  exact_mod_cast Nat.log2_self_le hm
theorem ratOf_lt_log2 (m : Nat) (e : Int) : ratOf m e < (2 : ℚ) ^ (e + Nat.log2 m + 1) := by
  rw [add_assoc, zpow_add₀ (by norm_num), mul_comm, ratOf, mul_lt_mul_iff_left₀ (by positivity),
    show ((Nat.log2 m : Nat) : Int) + 1 = ((Nat.log2 m + 1 : Nat) : Int) by push_cast; rfl, zpow_natCast]
  exact_mod_cast Nat.lt_log2_self
theorem two_zpow_add (a b : Int) : (2 : ℚ) ^ (a + b) = 2 ^ a * 2 ^ b := zpow_add₀ (by norm_num) a b
theorem ratOf_two_pow (n : Nat) (q : Int) : ratOf (2 ^ n) q = 2 ^ (q + n) := by
  rw [two_zpow_add, ratOf, zpow_natCast]
  push_cast
  ring

/-- A magnitude is kept to a multiple of its least bit with at most the full precision, and below it only at the least exponent. -/
theorem leastBit_bounds {f : Fmt} {m : Nat} (hm : m ≠ 0) {e : Int} {k : Nat} (hl : ratOf k (leastBit f m e) ≤ ratOf m e)
    (hu : ratOf m e < ratOf (k + 1) (leastBit f m e)) :
    1 - f.bias - f.mb ≤ leastBit f m e ∧ (k < 2 ^ f.mb → leastBit f m e = 1 - f.bias - f.mb) ∧ k < 2 * 2 ^ f.mb := by
  have hlog := ratOf_log2_le hm e
  have hlog' := ratOf_lt_log2 m e
  refine ⟨by unfold leastBit; omega, fun hk => ?_, ?_⟩
  · by_contra hne
    have hq : e + (Nat.log2 m : Int) = leastBit f m e + f.mb := by unfold leastBit at hne ⊢; omega
    rw [hq, ← ratOf_two_pow] at hlog
    have := ratOf_lt.1 (hlog.trans_lt hu)
    omega
  · have hq : e + (Nat.log2 m : Int) + 1 ≤ leastBit f m e + ((f.mb + 1 : Nat) : Int) := by unfold leastBit; push_cast; omega
    have h2 : (2 : ℚ) ^ (e + (Nat.log2 m : Int) + 1) ≤ ratOf (2 ^ (f.mb + 1)) (leastBit f m e) := by
      rw [ratOf_two_pow]
      exact zpow_le_zpow_right₀ (by norm_num) hq
    have := ratOf_lt.1 ((hl.trans_lt hlog').trans_le h2)
    rw [Nat.pow_succ'] at this
    exact this

/-- A magnitude that compares with every half of a kept bit as m × 2^e does takes the code of its rounding. -/
theorem round_codeIs {f : Fmt} (hf : f.no ≠ 11) (hb : 1 ≤ f.mb) (r : Rnd) (neg : Bool) {m : Nat} (hm : m ≠ 0) (e : Int) {x : ℚ}
    (hx : ∀ j : Nat, (ratOf j (leastBit f m e - 1) < x ↔ ratOf j (leastBit f m e - 1) < ratOf m e) ∧
      (x < ratOf j (leastBit f m e - 1) ↔ ratOf m e < ratOf j (leastBit f m e - 1))) : CodeIs f r neg x (f.round r neg m e) := by
  obtain ⟨k, up, hr, hl, hu, hup⟩ := roundTo_neighbour r neg m e (leastBit f m e)
  obtain ⟨hq, hk, hk2⟩ := leastBit_bounds hm hl hu
  have hh (j : Nat) : ratOf j (leastBit f m e) = ratOf (2 * j) (leastBit f m e - 1) := by
    rw [ratOf_lower j (by omega : leastBit f m e - 1 ≤ leastBit f m e), Nat.mul_comm]
    congr 2
    rw [show (leastBit f m e - (leastBit f m e - 1)).toNat = 1 by omega, pow_one]
  have hg := gridVal_codeAt hq hk (by omega)
  have hg' : gridVal f (codeAt f (leastBit f m e) k + 1) = ratOf (k + 1) (leastBit f m e) := by
    rw [← codeAt_succ hk, gridVal_codeAt hq (fun h => hk (by omega)) (by omega)]
  have hto := roundsTo_of_neighbours (f := f) (r := r) (neg := neg) (x := x) (c := codeAt f (leastBit f m e) k) (up := up) ?_ ?_ ?_
  · refine ⟨_, hto, ?_⟩
    rw [round_eq hf r neg hm, hr, ← overflow_eq]
    cases up
    · rfl
    · simp only [if_true, codeAt_succ hk]
  · rw [hg, hh, ← not_lt, (hx _).2, not_lt, ← hh]
    exact hl
  · rw [hg', hh, (hx _).2, ← hh]
    exact hu
  · rw [hup, hg, hg']
    have hmid : ratOf k (leastBit f m e) + ratOf (k + 1) (leastBit f m e) = 2 * ratOf (2 * k + 1) (leastBit f m e - 1) := by
      rw [hh, hh, ratOf_add, two_mul_ratOf]
      congr 1
      omega
    obtain ⟨h1, h2⟩ := hx (2 * k + 1)
    obtain ⟨h3, _⟩ := hx (2 * k)
    rw [← hh] at h3
    cases r with
    | rtz => exact Iff.rfl
    | rup => simp only [TakesUpper, h3]
    | rdn => simp only [TakesUpper, h3]
    | rne =>
      simp only [TakesUpper, hmid, codeAt_mod_two hb, mul_lt_mul_iff_right₀ (zero_lt_two (α := ℚ)), h1, le_antisymm_iff,
        mul_le_mul_iff_right₀ (zero_lt_two (α := ℚ)), ← not_lt, h2]

end Sys2Proof.Machine.Claim
end

section
/-! What the rounding of each float format gives (spec 03_values R36 to R41). -/
namespace Sys2Proof.Machine.Claim

/-- The formats of a sign and a mantissa: the magnitude codes up to the largest finite one decode to finite values. -/
structure Signed (f : Fmt) : Prop where
  no : f.no ≠ 11
  lo : 1 ≤ f.mb
  hi : f.mb ≤ 52
  top : f.topCode < 2 ^ (f.eb + f.mb)
  inf : f.inf = true → f.topCode < (2 ^ f.eb - 1) * 2 ^ f.mb
  nan : f.no = 9 → f.mb = 3 ∧ f.topCode = 0x7E
theorem signed_of_mem {f : Fmt} (h : f ∈ [fmtF64, fmtF32, fmtF16, fmtBf16, fmtE4m3, fmtE2m1]) : Signed f := by
  simp only [List.mem_cons, List.not_mem_nil, or_false] at h
  obtain rfl | rfl | rfl | rfl | rfl | rfl := h <;> constructor <;> decide

/-- A magnitude that is strictly between two neighbours of more than 60 bits compares with the halves of the kept bits as the
middle does. -/
theorem sticky_compare {f : Fmt} (hf : f.mb ≤ 52) {m : Nat} (hm : 2 ^ 60 ≤ m) {e : Int} {x : ℚ} (hl : ratOf m e < x) (hu : x < ratOf (m + 1) e)
    (j : Nat) : (ratOf j (leastBit f (2 * m + 1) (e - 1) - 1) < x ↔
        ratOf j (leastBit f (2 * m + 1) (e - 1) - 1) < ratOf (2 * m + 1) (e - 1)) ∧
      (x < ratOf j (leastBit f (2 * m + 1) (e - 1) - 1) ↔ ratOf (2 * m + 1) (e - 1) < ratOf j (leastBit f (2 * m + 1) (e - 1) - 1)) := by
  have hlog : 60 ≤ Nat.log2 (2 * m + 1) := (Nat.le_log2 (by omega)).2 (by omega)
  have hq : e ≤ leastBit f (2 * m + 1) (e - 1) - 1 := by unfold leastBit; omega
  rw [ratOf_raise hq]
  generalize j * 2 ^ (leastBit f (2 * m + 1) (e - 1) - 1 - e).toNat = k
  have hk : ratOf k e = ratOf (2 * k) (e - 1) := by
    rw [ratOf_raise (by omega : e - 1 ≤ e), show (e - (e - 1)).toNat = 1 by omega, pow_one, Nat.mul_comm]
  by_cases h : k ≤ m
  · have h1 : ratOf k e < x := (ratOf_le.2 h).trans_lt hl
    have h2 : ratOf k e < ratOf (2 * m + 1) (e - 1) := by rw [hk, ratOf_lt]; omega
    exact ⟨iff_of_true h1 h2, iff_of_false h1.not_gt h2.not_gt⟩
  · have h1 : x < ratOf k e := hu.trans_le (ratOf_le.2 (by omega))
    have h2 : ratOf (2 * m + 1) (e - 1) < ratOf k e := by rw [hk, ratOf_lt]; omega
    exact ⟨iff_of_false h1.not_gt h2.not_gt, iff_of_true h1 h2⟩

/-- A magnitude code up to the largest finite one stands for its magnitude. -/
theorem decode_signed {f : Fmt} (h : Signed f) (neg : Bool) {c : Nat} (hc : c ≤ f.topCode) :
    FiniteIs (f.decode (f.signed neg c)) neg (gridVal f c) := by
  obtain ⟨hno, hlo, _, htop, hinf, hnan⟩ := h
  have hp : 0 < 2 ^ f.mb := by positivity
  have hw : 2 ^ (f.eb + f.mb) = 2 ^ f.eb * 2 ^ f.mb := Nat.pow_add ..
  have hcw : c < 2 ^ f.eb * 2 ^ f.mb := by omega
  have hdiv : c / 2 ^ f.mb < 2 ^ f.eb := (Nat.div_lt_iff_lt_mul hp).2 hcw
  have hneg : (f.signed neg c).testBit (f.eb + f.mb) = neg := by
    rw [Nat.testBit_eq_decide_div_mod_eq, Fmt.signed, hw]
    cases neg
    · simp [Nat.div_eq_of_lt hcw]
    · rw [if_pos rfl, Nat.add_div_left _ (by positivity), Nat.div_eq_of_lt hcw]
      rfl
  have hef : f.signed neg c / 2 ^ f.mb % 2 ^ f.eb = c / 2 ^ f.mb := by
    rw [Fmt.signed, hw]
    cases neg
    · rw [if_neg (by simp), Nat.zero_add, Nat.mod_eq_of_lt hdiv]
    · rw [if_pos rfl, Nat.add_comm, Nat.add_mul_div_right _ _ hp, Nat.add_mod_right, Nat.mod_eq_of_lt hdiv]
  have hm : f.signed neg c % 2 ^ f.mb = c % 2 ^ f.mb := by
    rw [Fmt.signed, hw]
    cases neg
    · rw [if_neg (by simp), Nat.zero_add]
    · rw [if_pos rfl, Nat.add_comm, Nat.add_mul_mod_self_right]
  have h1 : ¬((f.inf && decide (c / 2 ^ f.mb = 2 ^ f.eb - 1)) = true) := by
    rw [Bool.and_eq_true, decide_eq_true_eq]
    rintro ⟨hi, he⟩
    have := hinf hi
    have := Nat.div_mul_le_self c (2 ^ f.mb)
    rw [he] at this
    omega
  have h2 : ¬(f.no = 9 ∧ c / 2 ^ f.mb = 15 ∧ c % 2 ^ f.mb = 7) := by
    rintro ⟨h9, he, hm⟩
    obtain ⟨hmb, htc⟩ := hnan h9
    rw [hmb] at he hm
    omega
  rw [Fmt.decode, if_neg hno]
  simp only [hneg, hef, hm]
  rw [if_neg h1, if_neg h2]
  have hdm := Nat.div_add_mod' c (2 ^ f.mb)
  split
  next h0 =>
    rw [h0] at hdm
    have : gridVal f c = ratOf (c % 2 ^ f.mb) (1 - f.bias - f.mb) := by
      rw [← gridVal_subnormal (Nat.mod_lt _ hp).le]
      congr 1
      omega
    exact this ▸ finiteIs_fin _ _ _
  next h0 =>
    have : gridVal f c = ratOf (c % 2 ^ f.mb + 2 ^ f.mb) ((c / 2 ^ f.mb : Nat) - f.bias - f.mb) := by
      have hn : ¬c < 2 ^ f.mb := fun hl => h0 (Nat.div_eq_of_lt hl)
      rw [gridVal, if_neg hn]
    exact this ▸ finiteIs_fin _ _ _

/-! ### E8M0 -/

theorem round_e8m0 (r : Rnd) (neg : Bool) (m : Nat) (e : Int) : fmtE8m0.round r neg m e = e8m0Of r neg m e := rfl

/-- The exponent of a magnitude is the one of its highest bit. -/
theorem log2_of_bounds {m : Nat} (hm : m ≠ 0) {e k : Int} (hl : (2 : ℚ) ^ k ≤ ratOf m e) (hu : ratOf m e < (2 : ℚ) ^ (k + 1)) :
    e + Nat.log2 m = k := by
  have h1 := (zpow_lt_zpow_iff_right₀ (by norm_num : (1 : ℚ) < 2)).1 ((ratOf_log2_le hm e).trans_lt hu)
  have h2 := (zpow_lt_zpow_iff_right₀ (by norm_num : (1 : ℚ) < 2)).1 (hl.trans_lt (ratOf_lt_log2 m e))
  omega
/-- Whether the magnitude m, of the power k of two, goes up to the next one. -/
def e8m0Up (r : Rnd) (m : Nat) (k : Int) : Bool :=
  if m = 2 ^ Nat.log2 m then false
  else
    match r with
    | .rup => true
    | .rne => 3 * 2 ^ Nat.log2 m < 2 * m || (2 * m == 3 * 2 ^ Nat.log2 m && (k + 127) % 2 == 1)
    | .rtz | .rdn => false
theorem e8m0_spec (r : Rnd) {m : Nat} {e k : Int} (hm : m ≠ 0) (hl : (2 : ℚ) ^ k ≤ ratOf m e) (hu : ratOf m e < (2 : ℚ) ^ (k + 1)) :
    let power (j : Int) : Nat := if j < -127 then 0 else if 127 < j then 0xFE else (j + 127).toNat
    let up : Prop := r = .rup ∧ ratOf m e ≠ (2 : ℚ) ^ k ∨ r = .rne ∧
      (3 * (2 : ℚ) ^ k < 2 * ratOf m e ∨ 2 * ratOf m e = 3 * (2 : ℚ) ^ k ∧ (k + 127) % 2 = 1)
    (up → fmtE8m0.round r false m e = power (k + 1)) ∧ (¬up → fmtE8m0.round r false m e = power k) := by
  intro power up
  have hk := log2_of_bounds hm hl hu
  have hpow : (2 : ℚ) ^ k = ratOf (2 ^ Nat.log2 m) e := by rw [ratOf_two_pow, hk]
  have h3 : 3 * (2 : ℚ) ^ k = ratOf (3 * 2 ^ Nat.log2 m) e := by
    rw [hpow]
    unfold ratOf
    push_cast
    ring
  have hne : ratOf m e ≠ (2 : ℚ) ^ k ↔ ¬m = 2 ^ Nat.log2 m := by rw [hpow, ne_eq, ratOf_inj]
  have hge : 2 ^ Nat.log2 m ≤ m := Nat.log2_self_le hm
  have hup : ∃ b : Bool, (b = true ↔ up) ∧ fmtE8m0.round r false m e = power (if b then k + 1 else k) := by
    refine ⟨e8m0Up r m k, ?_, ?_⟩
    · simp only [e8m0Up, up, h3, two_mul_ratOf, ratOf_lt, ratOf_inj, hne]
      by_cases h : m = 2 ^ Nat.log2 m
      · rw [if_pos h]
        cases r <;> simp [← h]
        omega
      · cases r <;> simp [h]
    · rw [round_e8m0, e8m0Of, if_neg (by simp [hm])]
      simp only [hk]
      cases r <;> rfl
  obtain ⟨b, hb, hround⟩ := hup
  rw [hround, ← hb]
  cases b <;> simp

/-- Settles O60. -/
theorem roundingLaw : Obligations.RoundingLaw := by
  unfold Obligations.RoundingLaw
  refine ⟨fun f hf r neg m e => ?_, ?_, ?_, fun r neg m e h => ?_, fun r m e k hm hl hu => e8m0_spec r hm hl hu⟩
  · have hs := signed_of_mem hf
    refine ⟨?_, fun hm => round_codeIs hs.no hs.lo r neg hm e fun j => ⟨Iff.rfl, Iff.rfl⟩, fun hm x hl hu =>
      round_codeIs hs.no hs.lo r neg (by omega) _ (sticky_compare hs.hi hm hl hu), fun c hc => decode_signed hs neg hc⟩
    rw [Fmt.round, if_neg hs.no, if_pos rfl]
  · decide
  · intro e he
    simp only [List.mem_cons, List.not_mem_nil, or_false] at he
    obtain rfl | rfl := he
    · refine ⟨by decide, ?_, rfl⟩
      norm_num [gridVal, ratOf, fmtE4m3, Fmt.bias]
    · refine ⟨by decide, ?_, rfl⟩
      norm_num [gridVal, ratOf, fmtE2m1, Fmt.bias]
  · rw [round_e8m0, e8m0Of, if_pos h]

end Sys2Proof.Machine.Claim
end

section
/-! The generic opcodes on floats of one family (spec 11_generic R126, R127, R129). -/
namespace Sys2Proof.Machine.Claim

/-! ### Codes and their values -/

theorem codeIs_gridVal {f : Fmt} {neg : Bool} {c code : Nat} (hc : c ≤ f.topCode) (h : CodeIs f .rne neg (gridVal f c) code) :
    code = f.signed neg c := by
  obtain ⟨k, hk, rfl⟩ := h
  have : k = c := by
    by_contra hne
    have := hk c fun h => hne h.symm
    have hpos : 0 < |gridVal f c - gridVal f k| := abs_pos.2 fun h => hne ((gridVal_strictMono f).injective (sub_eq_zero.1 h)).symm
    rw [sub_self, abs_zero] at this
    obtain h | ⟨h, _⟩ := this <;> linarith
  subst this
  rw [if_neg (not_lt.2 hc)]
/-- A finite magnitude code comes back when its magnitude is rounded. -/
theorem round_gridVal {f : Fmt} (h : Signed f) (neg : Bool) {c m : Nat} {e : Int} (hc : c ≤ f.topCode) (hm : ratOf m e = gridVal f c) :
    f.round .rne neg m e = f.signed neg c := by
  by_cases h0 : m = 0
  · have : c = 0 := by
      rw [h0, ratOf_zero] at hm
      have hz : gridVal f 0 = 0 := by simp [gridVal, ratOf]
      exact (gridVal_strictMono f).injective (hm.symm.trans hz.symm)
    rw [this, Fmt.round, if_neg h.no, if_pos h0]
  · exact codeIs_gridVal hc (hm ▸ round_codeIs h.no h.lo .rne neg h0 e fun j => ⟨Iff.rfl, Iff.rfl⟩)

theorem signed_tag {F : Fam} {t : Tag} {f : Fmt} (h : tagFmt F t f) : Signed f ∧ f.inf = true ∧ f.width = f.eb + f.mb + 1 ∧
    f.infCode < 2 ^ (f.eb + f.mb) ∧ 1 ≤ f.infCode := by
  obtain ⟨_, _, rfl⟩ | ⟨_, _, rfl⟩ | ⟨_, _, rfl⟩ | ⟨_, _, rfl⟩ := tagFmt_cases h <;> exact ⟨signed_of_mem (by decide), by decide⟩
/-- A code is a sign and a magnitude code. -/
theorem eq_signed {f : Fmt} {x : Nat} (hx : x < 2 ^ (f.eb + f.mb + 1)) :
    x = f.signed (x.testBit (f.eb + f.mb)) (x % 2 ^ (f.eb + f.mb)) := by
  rw [Fmt.signed, Nat.testBit_eq_decide_div_mod_eq]
  have hd := Nat.div_add_mod' x (2 ^ (f.eb + f.mb))
  have h2 : x / 2 ^ (f.eb + f.mb) < 2 := (Nat.div_lt_iff_lt_mul (by positivity)).2 (by rw [Nat.pow_succ'] at hx; exact hx)
  generalize x / 2 ^ (f.eb + f.mb) = d at *
  obtain rfl | rfl : d = 0 ∨ d = 1 := by omega
  · simpa using hd.symm
  · simpa using hd.symm
/-- A code of no NaN is an infinity or has a finite magnitude code. -/
theorem decode_cases {f : Fmt} (h : Signed f) (hi : f.inf = true) {x : Nat} (hn : (f.decode x).isNan = false) :
    x % 2 ^ (f.eb + f.mb) ≤ f.topCode ∨
      f.decode x = .inf (x.testBit (f.eb + f.mb)) ∧ x % 2 ^ (f.eb + f.mb) = f.infCode := by
  have hp : 0 < 2 ^ f.mb := by positivity
  have hw : 2 ^ (f.eb + f.mb) = 2 ^ f.mb * 2 ^ f.eb := by rw [Nat.add_comm, Nat.pow_add]
  have he : x % 2 ^ (f.eb + f.mb) / 2 ^ f.mb = x / 2 ^ f.mb % 2 ^ f.eb := by rw [hw, Nat.mod_mul_right_div_self]
  have hm : x % 2 ^ (f.eb + f.mb) % 2 ^ f.mb = x % 2 ^ f.mb := Nat.mod_mod_of_dvd _ ⟨_, hw⟩
  have hd := Nat.div_add_mod' (x % 2 ^ (f.eb + f.mb)) (2 ^ f.mb)
  rw [he, hm] at hd
  have htop : f.topCode = f.infCode - 1 := by rw [Fmt.topCode, if_pos hi]
  have hinf := h.inf hi
  by_cases hef : x / 2 ^ f.mb % 2 ^ f.eb = 2 ^ f.eb - 1
  · right
    have hm0 : x % 2 ^ f.mb = 0 := by
      by_contra hm0
      simp [Fmt.decode, h.no, hi, hef, hm0, FVal.isNan] at hn
    refine ⟨by simp [Fmt.decode, h.no, hi, hef, hm0], ?_⟩
    rw [← hd, hef, hm0]
    rfl
  · left
    have h1 : x / 2 ^ f.mb % 2 ^ f.eb < 2 ^ f.eb := Nat.mod_lt _ (by positivity)
    have h2 : (x / 2 ^ f.mb % 2 ^ f.eb + 1) * 2 ^ f.mb ≤ (2 ^ f.eb - 1) * 2 ^ f.mb := Nat.mul_le_mul_right _ (by omega)
    have h3 := Nat.mod_lt x hp
    rw [Nat.succ_mul] at h2
    have : f.infCode = (2 ^ f.eb - 1) * 2 ^ f.mb := rfl
    omega
/-- A code of no NaN comes back from its value, and with the other sign from its negation. -/
theorem put_decode {f : Fmt} (h : Signed f) (hi : f.inf = true) {x : Nat} (hx : x < 2 ^ (f.eb + f.mb + 1)) (hn : (f.decode x).isNan = false) :
    (f.decode x).neg = x.testBit (f.eb + f.mb) ∧ f.put .rne (f.decode x) = x ∧
      f.put .rne (f.decode x).flip = f.signed (!x.testBit (f.eb + f.mb)) (x % 2 ^ (f.eb + f.mb)) := by
  have hs := eq_signed hx
  obtain hc | ⟨hd, hc⟩ := decode_cases h hi hn
  · obtain ⟨m, e, hd, hg⟩ := decode_signed h (x.testBit (f.eb + f.mb)) hc
    rw [← hs] at hd
    refine ⟨by rw [hd]; rfl, ?_, ?_⟩
    · rw [hd]
      exact (round_gridVal h _ hc hg.symm).trans hs.symm
    · rw [hd]
      exact round_gridVal h _ hc hg.symm
  · refine ⟨by rw [hd]; rfl, ?_, ?_⟩
    · rw [hd, Fmt.put, Fmt.infOf, if_neg h.no, if_pos hi, ← hc]
      exact hs.symm
    · rw [hd, FVal.flip, Fmt.put, Fmt.infOf, if_neg h.no, if_pos hi, ← hc]

/-! ### Signs -/

theorem signed_not {f : Fmt} {x : Nat} (hx : x < 2 ^ (f.eb + f.mb + 1)) :
    f.signed (!x.testBit (f.eb + f.mb)) (x % 2 ^ (f.eb + f.mb)) = (x + 2 ^ (f.eb + f.mb)) % 2 ^ (f.eb + f.mb + 1) := by
  have hs := eq_signed hx
  have hm := Nat.mod_lt x (show 0 < 2 ^ (f.eb + f.mb) by positivity)
  rw [Nat.pow_succ'] at hx ⊢
  rw [Fmt.signed] at hs ⊢
  generalize 2 ^ (f.eb + f.mb) = w at *
  generalize x % w = c at *
  cases hb : x.testBit (f.eb + f.mb)
  · rw [hb, if_neg (by simp)] at hs
    rw [Nat.mod_eq_of_lt (by omega)]
    simp
    omega
  · rw [hb, if_pos rfl] at hs
    rw [Nat.mod_eq_sub_mod (by omega), Nat.mod_eq_of_lt (by omega)]
    simp
    omega
/-- NEG and ABS of a float code. -/
theorem neg_code {f : Fmt} (h : Signed f) (hi : f.inf = true) {x : Nat} (hx : x < 2 ^ (f.eb + f.mb + 1)) :
    ((f.decode x).isNan = true → f.put .rne (f.decode x).flip = f.nan) ∧
      ((f.decode x).isNan = false → f.put .rne (f.decode x).flip = (x + 2 ^ (f.eb + f.mb)) % 2 ^ (f.eb + f.mb + 1)) := by
  refine ⟨fun hn => ?_, fun hn => ?_⟩
  · cases hd : f.decode x <;> simp_all [FVal.isNan, FVal.flip, Fmt.put]
  · rw [(put_decode h hi hx hn).2.2, signed_not hx]
theorem abs_code {f : Fmt} (h : Signed f) (hi : f.inf = true) {x : Nat} (hx : x < 2 ^ (f.eb + f.mb + 1)) :
    ((f.decode x).isNan = true → (if (f.decode x).neg then f.put .rne (f.decode x).flip else f.put .rne (f.decode x)) = f.nan) ∧
      ((f.decode x).isNan = false →
        (if (f.decode x).neg then f.put .rne (f.decode x).flip else f.put .rne (f.decode x)) = x % 2 ^ (f.eb + f.mb)) := by
  refine ⟨fun hn => ?_, fun hn => ?_⟩
  · cases hd : f.decode x <;> simp_all [FVal.isNan, FVal.neg, Fmt.put]
  · obtain ⟨h1, h2, h3⟩ := put_decode h hi hx hn
    have hs := eq_signed hx
    rw [h1, h2, h3]
    cases hb : x.testBit (f.eb + f.mb)
    · rw [hb] at hs
      simpa [Fmt.signed] using hs
    · simp [Fmt.signed]

/-! ### Floors -/

theorem floor_div {x y : Int} (hy : y ≠ 0) : ⌊(x : ℚ) / y⌋ = if y < 0 then (-x) / (-y) else x / y := by
  have key {x y : Int} (hy : 0 < y) : ⌊(x : ℚ) / y⌋ = x / y := by
    lift y to Nat using hy.le
    exact Rat.floor_intCast_div_natCast x y
  split
  next h => rw [← key (by omega : 0 < -y)]; push_cast; rw [neg_div_neg_eq]
  next h => exact key (by omega)
section
variable (n k : Bool) (m j : Nat) (e d : Int)
theorem scaled_ne_zero {k : Bool} {j : Nat} {d q : Int} (h : q ≤ d) (hj : ratOf j d ≠ 0) : scaled k j d q ≠ 0 := by
  intro h0
  have := scaled_mul k j h
  rw [h0] at this
  cases k <;> simp [signedBy] at this <;> simp_all
theorem signedBy_div : signedBy n (ratOf m e) / signedBy k (ratOf j d) =
    (scaled n m e (min e d) : ℚ) / scaled k j d (min e d) := by
  rw [← scaled_mul n m (min_le_left e d), ← scaled_mul k j (min_le_right e d)]
  exact mul_div_mul_right _ _ (by positivity)
theorem floorQuot_eq (hj : ratOf j d ≠ 0) : floorQuot n m e k j d = ⌊signedBy n (ratOf m e) / signedBy k (ratOf j d)⌋ := by
  rw [signedBy_div n k m j e d, floor_div (scaled_ne_zero (min_le_right e d) hj), floorQuot]
end
/-- FLDIV of two finite values. -/
theorem fldiv_floorDivIs (f : Fmt) {a b : FVal} {n m : Bool} {x y : ℚ} (ha : FiniteIs a n x) (hb : FiniteIs b m y) (hy : y ≠ 0) :
    FloorDivIs f n x m y (f.fldiv a b) := by
  obtain ⟨k, e, rfl, rfl⟩ := ha
  obtain ⟨j, d, rfl, rfl⟩ := hb
  have hj : j ≠ 0 := fun h => hy (ratOf_eq_zero.2 h)
  simp only [Fmt.fldiv, if_neg hj, FloorDivIs, ← floorQuot_eq n m k j e d hy]
  generalize floorQuot n k e m j d = q
  refine ⟨fun h => if_pos h, fun h => ?_⟩
  rw [if_neg h]
  have hr := round_roundedTo f .rne (decide (q < 0)) q.natAbs 0
  rwa [show ratOf q.natAbs 0 = |(q : ℚ)| by simpa using (scaled_abs q 0).symm] at hr
/-- MOD of two finite values. -/
theorem fmod_floorModIs (f : Fmt) {a b : FVal} {n m : Bool} {x y : ℚ} (ha : FiniteIs a n x) (hb : FiniteIs b m y) (hy : y ≠ 0) :
    FloorModIs f n x m y (f.fmod a b) := by
  obtain ⟨k, e, rfl, rfl⟩ := ha
  obtain ⟨j, d, rfl, rfl⟩ := hb
  have hj : j ≠ 0 := fun h => hy (ratOf_eq_zero.2 h)
  simp only [Fmt.fmod, if_neg hj, FloorModIs, ← floorQuot_eq n m k j e d hy]
  have ht : signedBy n (ratOf k e) - signedBy m (ratOf j d) * (floorQuot n k e m j d : ℚ) =
      ((scaled n k e (min e d) - scaled m j d (min e d) * floorQuot n k e m j d : Int) : ℚ) * 2 ^ min e d := by
    rw [← scaled_mul n k (min_le_left e d), ← scaled_mul m j (min_le_right e d)]
    push_cast
    ring
  rw [ht]
  generalize scaled n k e (min e d) - scaled m j d (min e d) * floorQuot n k e m j d = t
  simp only [scaled_abs, scaled_eq_zero, ne_eq]
  refine ⟨fun h => if_pos h, fun h => ?_⟩
  rw [if_neg h, show decide ((t : ℚ) * 2 ^ min e d < 0) = decide (t < 0) by rw [decide_eq_decide]; exact scaled_neg]
  exact round_roundedTo ..
theorem fldiv_nan (f : Fmt) {a b : FVal} (h : a.isNan = true ∨ b.isNan = true) : f.fldiv a b = f.nan := by
  cases a <;> cases b <;> simp_all [FVal.isNan, Fmt.fldiv]
theorem fmod_nan (f : Fmt) {a b : FVal} (h : a.isNan = true ∨ b.isNan = true) : f.fmod a b = f.nan := by
  cases a <;> cases b <;> simp_all [FVal.isNan, Fmt.fmod]

/-! ### HASH -/

theorem hashFloat_nan {f : Fmt} {x : Nat} (h : (f.decode x).isNan = true) : hashFloat f x = mix 0x7FF8000000000000 := by
  unfold hashFloat
  cases hd : f.decode x <;> simp_all [FVal.isNan]
/-- A float that is a whole number of the range of an int hashes as that int. -/
theorem hashFloat_whole {f : Fmt} {x : Nat} {n : Bool} {v : ℚ} (h : FiniteIs (f.decode x) n v) {q : Int} (hq : signedBy n v = q)
    (hl : -2 ^ 63 ≤ q) (hu : q ≤ 2 ^ 63 - 1) : hashFloat f x = mix (BitVec.ofInt 64 q) := by
  obtain ⟨m, e, hd, rfl⟩ := h
  have key : floorFin n m e = q ∧ (0 ≤ e ∨ m % 2 ^ (-e).toNat = 0) := by
    by_cases he : 0 ≤ e
    · refine ⟨?_, Or.inl he⟩
      have := scaled_mul n m he
      rw [hq, zpow_zero, mul_one] at this
      rw [floorFin, if_pos he]
      exact_mod_cast this
    · have hm : (if n then -(m : Int) else m) = q * 2 ^ (-e).toNat := by
        have he' : (2 : ℚ) ^ (-e).toNat * 2 ^ e = 1 := by
          rw [← zpow_natCast, ← zpow_add₀ (by norm_num), show (((-e).toNat : Nat) : Int) + e = 0 by omega, zpow_zero]
        have : ((if n then -(m : Int) else m : Int) : ℚ) = q * 2 ^ (-e).toNat := by
          rw [← hq, signedBy, ratOf]
          cases n <;> simp [mul_assoc, mul_comm ((2 : ℚ) ^ e), he']
        exact_mod_cast this
      refine ⟨?_, Or.inr ?_⟩
      · rw [floorFin, if_neg he, hm]
        exact Int.mul_ediv_cancel _ (by positivity)
      · have hd : ((2 ^ (-e).toNat : Nat) : Int) ∣ (m : Int) := by
          have : ((2 ^ (-e).toNat : Nat) : Int) ∣ (if n then -(m : Int) else m) := ⟨q, by rw [hm]; push_cast; ring⟩
          cases n <;> simpa using this
        exact Nat.mod_eq_zero_of_dvd (Int.natCast_dvd_natCast.1 hd)
  have hl' : intLo ≤ q := hl
  have hu' : q ≤ intHi := hu
  obtain ⟨hk, hw⟩ := key
  simp only [hashFloat, hd, hk]
  rw [if_pos]
  simpa [hl', hu'] using hw

end Sys2Proof.Machine.Claim
end

section
/-! What the generic opcodes give of floats of one family. -/
namespace Sys2Proof.Machine.Claim

/-- The code that an opcode makes of the codes of a lane, in the format of the lane's tag. -/
def laneCode (code : Fmt → Nat → Nat → Nat → Nat) (a b k : Val) : Nat :=
  match floatFam a.tag with
  | some (_, f) => code f (floatPay f a) (floatPay f b) (floatPay f k)
  | none => 0
theorem laneCode_eq {code : Fmt → Nat → Nat → Nat → Nat} {F : Fam} {a b k : Val} {f : Fmt} (h : tagFmt F a.tag f) :
    laneCode code a b k = code f (floatPay f a) (floatPay f b) (floatPay f k) := by
  have h' : floatFam a.tag = some (F, f) := h
  simp only [laneCode, h']

/-- The hash of a lane, by the format of its tag. -/
def laneHash (a : Val) : Word :=
  match floatFam a.tag with
  | some (_, f) => hashFloat f (floatPay f a)
  | none => 0
theorem laneHash_eq {F : Fam} {a : Val} {f : Fmt} (h : tagFmt F a.tag f) : laneHash a = hashFloat f (floatPay f a) := by
  have h' : floatFam a.tag = some (F, f) := h
  simp only [laneHash, h']

section
variable {i : Instr} {c : Ctl} {op : GOp} {r : Rnd} {d : Reg} {a : Src} {b : Option GSrc} {k : Option Src} {s : State} {z : Bool}
  {p : Machine.Path} {F : Fam} {lat : Machine.Lat}
/-- An opcode whose lanes have each one tag of the family gives its code with that tag. -/
theorem float_gives (he : exec i s = .next (generic i c op r (.val d) a b k s)) (h : Issues i c s z p)
    (code : Fmt → Nat → Nat → Nat → Nat) (hc : ∀ t f x y w, floatResult op r t f x y w = ⟨t, BitVec.ofNat 64 (code f x y w)⟩)
    (ho : floatOp op = true ∧ op ≠ .eq ∧ op ≠ .ne) (hl : genLat op (some F) = lat) (P : State → Nat → Fmt → Nat → Prop)
    (hq : ∀ l, (issuedOf i c s z p).act.getLsbD l = true →
      (∃ f, tagFmt F (rdSrc (issuedOf i c s z p).state z c.ix a l).tag f) ∧
      (op.unary = false → (genB (issuedOf i c s z p).state z c.ix a b l).tag = (rdSrc (issuedOf i c s z p).state z c.ix a l).tag) ∧
      (op = .fma → (genC (issuedOf i c s z p).state z c.ix k l).tag = (rdSrc (issuedOf i c s z p).state z c.ix a l).tag))
    (hP : ∀ t l f, tagFmt F (rdSrc t z c.ix a l).tag f → P t l f (code f (floatPay f (rdSrc t z c.ix a l))
      (floatPay f (genB t z c.ix a b l)) (floatPay f (genC t z c.ix k l)))) :
    ∃ v : State → Nat → Nat, GivesVal i c lat d s z p (fun t l => ⟨(rdSrc t z c.ix a l).tag, BitVec.ofNat 64 (v t l)⟩) ∧
      ∀ t l f, tagFmt F (rdSrc t z c.ix a l).tag f → P t l f (v t l) := by
  refine ⟨fun t l => laneCode code (rdSrc t z c.ix a l) (genB t z c.ix a b l) (genC t z c.ix k l), ?_, fun t l f hf => ?_⟩
  · refine hl ▸ generic_givesVal he h ho.2 fun l hl => ?_
    obtain ⟨⟨f, hf⟩, hB, hC⟩ := hq l hl
    refine ⟨famOf_float ho.1 hf hB hC, ?_⟩
    have hf' : floatFam (rdSrc (issuedOf i c s z p).state z c.ix a l).tag = some (F, f) := hf
    simp only [genResult, hf', hc, laneCode_eq hf]
  · simpa only [laneCode_eq hf] using hP t l f hf
end

section
variable {i : Instr} {c : Ctl} {op : GOp} {r : Rnd} {d : Reg} {a : Src} {b : GSrc} {s : State} {z : Bool} {p : Machine.Path} {F : Fam}
  {lat : Machine.Lat}
/-- The same for two operands. -/
theorem floatPair_gives (he : exec i s = .next (generic2 i c op r d a b s)) (h : Issues i c s z p)
    (code : Fmt → Nat → Nat → Nat) (hc : ∀ t f x y w, floatResult op r t f x y w = ⟨t, BitVec.ofNat 64 (code f x y)⟩)
    (ho : floatOp op = true ∧ op ≠ .eq ∧ op ≠ .ne) (hm : op ≠ .fma) (hl : genLat op (some F) = lat) (Q : Fmt → Nat → Nat → Nat → Prop)
    (hQ : ∀ f x y, Q f x y (code f x y))
    (hq : ∀ l, (issuedOf i c s z p).act.getLsbD l = true →
      (∃ f, tagFmt F (rdSrc (issuedOf i c s z p).state z c.ix a l).tag f) ∧
        (rdB (issuedOf i c s z p).state z c.ix a b l).tag = (rdSrc (issuedOf i c s z p).state z c.ix a l).tag) :
    ∃ v : State → Nat → Nat, GivesVal i c lat d s z p (fun t l => ⟨(rdSrc t z c.ix a l).tag, BitVec.ofNat 64 (v t l)⟩) ∧
      ∀ t l f, tagFmt F (rdSrc t z c.ix a l).tag f →
        Q f ((rdSrc t z c.ix a l).pay.toNat % 2 ^ f.width) ((rdB t z c.ix a b l).pay.toNat % 2 ^ f.width) (v t l) :=
  float_gives he h (fun f x y _ => code f x y) hc ho hl
    (fun t l f v => Q f ((rdSrc t z c.ix a l).pay.toNat % 2 ^ f.width) ((rdB t z c.ix a b l).pay.toNat % 2 ^ f.width) v)
    (fun l hl => ⟨(hq l hl).1, fun _ => (hq l hl).2, fun h => absurd h hm⟩) fun _ _ _ _ => hQ _ _ _
/-- The same for one operand, in the format of its tag. -/
theorem floatOne_gives (he : exec i s = .next (generic1 i c op d a s)) (h : Issues i c s z p)
    (code : Fmt → Nat → Nat) (hc : ∀ t f x y w, floatResult op .rne t f x y w = ⟨t, BitVec.ofNat 64 (code f x)⟩)
    (ho : floatOp op = true ∧ op ≠ .eq ∧ op ≠ .ne) (hu : op.unary = true) (hm : op ≠ .fma) (hl : genLat op (some F) = lat)
    (Q : Fmt → Nat → Nat → Prop) (hQ : ∀ t f x, tagFmt F t f → x < 2 ^ f.width → Q f x (code f x))
    (hq : ∀ l, (issuedOf i c s z p).act.getLsbD l = true → ∃ f, tagFmt F (rdSrc (issuedOf i c s z p).state z c.ix a l).tag f) :
    ∃ v : State → Nat → Nat, GivesVal i c lat d s z p (fun t l => ⟨(rdSrc t z c.ix a l).tag, BitVec.ofNat 64 (v t l)⟩) ∧
      ∀ t l f, tagFmt F (rdSrc t z c.ix a l).tag f → Q f ((rdSrc t z c.ix a l).pay.toNat % 2 ^ f.width) (v t l) :=
  float_gives he h (fun f x _ _ => code f x) hc ho hl
    (fun t l f v => Q f ((rdSrc t z c.ix a l).pay.toNat % 2 ^ f.width) v)
    (fun l hl => ⟨hq l hl, fun h => by simp [hu] at h, fun h => absurd h hm⟩)
    fun _ _ _ hf => hQ _ _ _ hf (Nat.mod_lt _ (by positivity))
end

/-- Settles O18. -/
theorem genericFloats : Obligations.GenericFloats := by
  unfold Obligations.GenericFloats
  intro c r d a b k F s z p A B K lane lat gives X Y Z two
  have hlat {op : GOp} (ho : ¬(op = .div ∨ op = .fldiv ∨ op = .mod)) : genLat op (some F) = lat := floatLat ho F
  refine ⟨fun h hq => ?_, fun h hq => ?_, fun h hq => ?_, fun h hq => ?_, fun h hq => ?_, fun h hq => ?_, fun h hq => ?_, fun h hq => ?_,
    fun h hq => ?_, fun h hq => ?_, fun h hq => ?_, fun h hq => ?_⟩
  · exact floatPair_gives (op := .add) (r := r) rfl h (fun f x y => f.put r ((f.decode x).add r (f.decode y))) (fun _ _ _ _ _ => rfl) (by decide)
      (by decide) (hlat (by decide)) (fun f x y v => ∃ u, SumIs r (f.decode x) (f.decode y) u ∧ PutIs f r u v)
      (fun f x y => ⟨_, add_sumIs r _ _, put_putIs f r _⟩) hq
  · exact floatPair_gives (op := .sub) (r := r) rfl h (fun f x y => f.put r ((f.decode x).add r (f.decode y).flip)) (fun _ _ _ _ _ => rfl)
      (by decide) (by decide) (hlat (by decide)) (fun f x y v => ∃ u, SumIs r (f.decode x) (f.decode y).flip u ∧ PutIs f r u v)
      (fun f x y => ⟨_, add_sumIs r _ _, put_putIs f r _⟩) hq
  · exact floatPair_gives (op := .mul) (r := r) rfl h (fun f x y => f.put r ((f.decode x).mul (f.decode y))) (fun _ _ _ _ _ => rfl)
      (by decide) (by decide) (hlat (by decide)) (fun f x y v => ∃ u, ProductIs (f.decode x) (f.decode y) u ∧ PutIs f r u v)
      (fun f x y => ⟨_, mul_productIs _ _, put_putIs f r _⟩) hq
  · exact float_gives (op := .fma) (r := r) (b := some b) (k := some k) rfl h
      (fun f x y w => f.put r (((f.decode x).mul (f.decode y)).add r (f.decode w))) (fun _ _ _ _ _ => rfl) (by decide) (hlat (by decide))
      (fun t l f v => ∃ u w, ProductIs (X t l f) (Y t l f) u ∧ SumIs r u (Z t l f) w ∧ PutIs f r w v)
      (fun l hl => ⟨(hq l hl).1.1, fun _ => (hq l hl).1.2, fun _ => (hq l hl).2⟩)
      fun t l f _ => ⟨_, _, mul_productIs _ _, add_sumIs r _ _, put_putIs f r _⟩
  · exact floatPair_gives (op := .div) (r := r) rfl h (fun f x y => f.div r (f.decode x) (f.decode y)) (fun _ _ _ _ _ => rfl) (by decide)
      (by decide) rfl (fun f x y v => QuotientIs f r (f.decode x) (f.decode y) v) (fun f x y => div_quotientIs f r _ _) hq
  · exact floatPair_gives (op := .min) (r := .rne) rfl h (fun f x y => f.minmax false x y) (fun _ _ _ _ _ => rfl) (by decide) (by decide)
      (hlat (by decide)) MinIs minmax_minIs hq
  · exact floatPair_gives (op := .max) (r := .rne) rfl h (fun f x y => f.minmax true x y) (fun _ _ _ _ _ => rfl) (by decide) (by decide)
      (hlat (by decide)) MaxIs minmax_maxIs hq
  · exact floatPair_gives (op := .fldiv) (r := .rne) rfl h (fun f x y => f.fldiv (f.decode x) (f.decode y)) (fun _ _ _ _ _ => rfl) (by decide)
      (by decide) rfl (fun f x y v => ((f.decode x).isNan = true ∨ (f.decode y).isNan = true → v = f.nan) ∧
        ∀ n u m w, FiniteIs (f.decode x) n u → FiniteIs (f.decode y) m w → w ≠ 0 → FloorDivIs f n u m w v)
      (fun f x y => ⟨fldiv_nan f, fun _ _ _ _ => fldiv_floorDivIs f⟩) hq
  · exact floatPair_gives (op := .mod) (r := .rne) rfl h (fun f x y => f.fmod (f.decode x) (f.decode y)) (fun _ _ _ _ _ => rfl) (by decide)
      (by decide) rfl (fun f x y v => ((f.decode x).isNan = true ∨ (f.decode y).isNan = true → v = f.nan) ∧
        ∀ n u m w, FiniteIs (f.decode x) n u → FiniteIs (f.decode y) m w → w ≠ 0 → FloorModIs f n u m w v)
      (fun f x y => ⟨fmod_nan f, fun _ _ _ _ => fmod_floorModIs f⟩) hq
  · exact floatOne_gives (op := .neg) rfl h (fun f x => f.put .rne (f.decode x).flip) (fun _ _ _ _ _ => rfl) (by decide) rfl (by decide)
      (hlat (by decide)) (fun f x v => ((f.decode x).isNan = true → v = f.nan) ∧ ((f.decode x).isNan = false →
        v = (x + 2 ^ (f.width - 1)) % 2 ^ f.width))
      (fun t f x hf hx => by
        obtain ⟨hs, hi, hw, _⟩ := signed_tag hf
        rw [hw] at hx ⊢
        exact neg_code hs hi hx) hq
  · obtain ⟨v, hv, hQ⟩ := floatOne_gives (op := .abs) rfl h
      (fun f x => if (f.decode x).neg then f.put .rne (f.decode x).flip else f.put .rne (f.decode x))
      (fun _ _ _ _ _ => rfl) (by decide) rfl (by decide) (hlat (by decide))
      (fun f x v => ((f.decode x).isNan = true → v = f.nan) ∧ ((f.decode x).isNan = false → v = x % 2 ^ (f.width - 1)))
      (fun t f x hf hx => by
        obtain ⟨hs, hi, hw, _⟩ := signed_tag hf
        rw [hw] at hx ⊢
        exact abs_code hs hi hx) hq
    refine ⟨v, hv, fun t l f hf => ?_⟩
    have hx := hQ t l f hf
    rwa [Nat.mod_mod_of_dvd _ (pow_dvd_pow 2 (Nat.sub_le f.width 1))] at hx
  · refine ⟨fun t l => laneHash (A t l), ?_, fun t l f hf => ?_⟩
    · refine hlat (op := .hash) (by decide) ▸ generic_givesVal (op := .hash) (b := none) (F := F) (r := .rne) rfl h (by decide) fun l hl => ?_
      obtain ⟨f, hf⟩ := hq l hl
      refine ⟨famOf_float rfl hf (fun h => Bool.noConfusion h) fun h => GOp.noConfusion h, ?_⟩
      have hf' : floatFam (rdSrc (issuedOf (.hash c d a) c s z p).state z c.ix a l).tag = some (F, f) := hf
      simp only [genResult, hf', floatResult, laneHash_eq hf, A]
    · simp only [laneHash_eq hf]
      exact ⟨hashFloat_nan, fun n x hx q hq => hashFloat_whole hx hq⟩

end Sys2Proof.Machine.Claim
end

section
/-! A step of the machine, and what reset leaves (spec 07_encoding, 01_device). -/
namespace Sys2Proof.Machine.Claim

/-! ### Translation -/

theorem countDrop_rest (s : State) (die f addr : Nat) : ∃ d, s.countDrop die f addr = { s with dev := d } := by
  unfold State.countDrop
  dsimp only
  split <;> exact ⟨_, rfl⟩
theorem dropFrom_rest (s : State) (pdie pa : Nat) : ∃ d, s.dropFrom pdie pa = { s with dev := d } := by
  unfold State.dropFrom
  cases rangeOf pa with
  | hbm d =>
    dsimp only
    split
    · exact ⟨_, rfl⟩
    · exact countDrop_rest ..
  | doorbell q => exact ⟨_, rfl⟩
  | host => exact ⟨_, rfl⟩
  | unassigned => exact ⟨_, rfl⟩
theorem walkDie_rest (s : State) (die aspace va : Nat) : ∃ ps d, (s.walkDie die aspace va).2 = { s with ptrs := ps, dev := d } := by
  unfold State.walkDie
  cases s.walkBy (some die) aspace va with
  | mk r ps =>
    cases r with
    | dropped pa =>
      obtain ⟨d, h⟩ := dropFrom_rest (s.keepPtrs ps) (s.physDie die) pa
      exact ⟨_, d, h⟩
    | missing => exact ⟨_, _, rfl⟩
    | malformed => exact ⟨_, _, rfl⟩
    | leaf pte size => exact ⟨_, _, rfl⟩
/-- A translation fills the TLB and the walkers' pointer entries, and may count a flit that a closed link drops. -/
theorem translate_rest (s : State) (core aspace va : Nat) : ∃ tlb ps d, (s.translate core aspace va).2 =
    { s with tlb := tlb, ptrs := ps, dev := d } := by
  unfold State.translate
  split
  · exact ⟨_, _, _, rfl⟩
  · obtain ⟨ps, d, h⟩ := walkDie_rest s (core / 72) aspace va
    generalize s.walkDie (core / 72) aspace va = w at h
    obtain ⟨r, t⟩ := w
    obtain rfl : t = _ := h
    cases r <;> exact ⟨_, _, _, rfl⟩
theorem translate_grp {s v : State} {core aspace va : Nat} {w : Walk} (h : s.translate core aspace va = (w, v)) : v.grp = s.grp := by
  obtain ⟨_, _, _, ht⟩ := translate_rest s core aspace va
  rw [h] at ht
  rw [show v = _ from ht]

/-! ### The step -/

/-- The step of an agent that fetches an instruction is that instruction. -/
theorem step_of_fetch {s u : State} {i : Instr} (hn : s.tick.timers.turn.event = none) (h : s.tick.timers.select.fetchWho = .instr i u) :
    step s = exec i u := by
  simp only [step, State.fetch, hn, h]
/-- A fetch that finds its page, may execute it and reaches it gives the word. -/
theorem fetchAt_word {s v : State} {core aspace va : Nat} {user : Bool} {pte : Word} {size : Nat}
    (ht : s.translate core aspace va = (.leaf pte size, v)) (hr : refused pte .fetch user = false)
    (hv : v.reaches core (leafPA pte size va) = true) : s.fetchAt core aspace va user =
      (.word (v.fetchWord core (leafPA pte size va)).1, (v.fetchWord core (leafPA pte size va)).2) := by
  simp only [State.fetchAt, ht, hr, hv, Bool.not_true, Bool.false_eq_true, if_false]
/-- The fetch of a path that neither replays, waits nor stops. -/
theorem fetchWho_path {u : State} {b : Bool} {p : Machine.Path} {blk : Block} (hw : u.who = .path b) (hs : u.grp.slot b = some p)
    (hb : u.blk? u.grp.blk = some blk) (hr : p.redo = none) (hp : p.wait = .none) (hh : u.stopHere blk p = none) {w : BitVec 128} {t : State}
    (hf : u.fetchAt u.grp.core blk.aspace p.pc.toNat p.user = (.word w, t)) {i : Instr} (hd : decode false p.user w = .ok i) :
    u.fetchWho = .instr i (t.setGrp fun g => g.modSlot b Path.fetched) := by
  have h1 : p.raising = none := by simp [Path.raising, hr]
  have h2 : p.noFetch = none := by simp [Path.noFetch, hr]
  simp [State.fetchWho, hw, hs, hr, hp, hb, hh, State.fetchPath, h1, h2, hf, hd]
/-- The fetch of a tile stream. -/
theorem fetchWho_stream {u : State} {id : Nat} {blk : Block} {t : Machine.Stream} (hw : u.who = .stream id) (hb : u.blk? id = some blk)
    (ht : blk.stream = some t) (hbad : t.bad = none) {w : BitVec 128} {v : State}
    (hf : u.fetchAt (blk.cores.headD 0) blk.aspace t.pc.toNat true = (.word w, v)) {i : Instr} (hd : decode true true w = .ok i) :
    u.fetchWho = .instr i v := by
  simp only [State.fetchWho, hw, State.fetchStream, hb, ht, hbad, hf, hd]

/-- Settles O54. -/
theorem stepRunsDecodedInstruction : Obligations.StepRunsDecodedInstruction := by
  unfold Obligations.StepRunsDecodedInstruction
  intro s now u
  refine ⟨fun hn => ⟨?_, ?_⟩, fun e he hv => ?_⟩
  · intro b p blk pte size v i hw hs hb hr hp hh hl hx hreach w hd
    have hg : v.grp = u.grp := translate_grp hl
    rw [hg] at hreach
    have hf := fetchAt_word hl hx hreach
    rw [show w = v.fetchWord u.grp.core (leafPA pte size p.pc.toNat) by rw [← hg]] at hd ⊢
    exact step_of_fetch hn (fetchWho_path hw hs hb hr hp hh hf hd)
  · intro id blk t pte size v i hw hb ht hbad hl hx hreach w hd
    exact step_of_fetch hn (fetchWho_stream hw hb ht hbad (fetchAt_word hl hx hreach) hd)
  · have hv' : isEvent e = true := hv
    simp only [step, State.fetch, show s.tick.timers.turn.event = some e from he, hv', if_true]
    rfl

/-! ### Reset -/

/-- Settles O55: the words decode field by field. -/
theorem sampleWordsDecode : Obligations.SampleWordsDecode := by
  unfold Obligations.SampleWordsDecode
  decide

/-- Settles O59: reset and a group's start set every field that the statement names. -/
theorem resetState : Obligations.ResetState := by
  unfold Obligations.ResetState
  refine ⟨by decide, fun blk grp pid core part allot now mask pc mode => ?_⟩
  refine ⟨⟨_, rfl, rfl, rfl, rfl, rfl, rfl, rfl⟩, rfl, rfl, ?_⟩
  simp [Group.start, Group.empty, Group.vr, Group.gr, Group.xr, Group.pr, sget]

end Sys2Proof.Machine.Claim
end

section
/-! Branches, calls and returns, and the plain control instructions (spec 09_control R101 to R109). -/
namespace Sys2Proof.Machine.Claim

/-! ### What an issue keeps of its path -/

theorem activeOf_sub {g : Group} {gd : Guard} {m : Mask} {l : Nat} (h : (activeOf g gd m).getLsbD l = true) : m.getLsbD l = true := by
  cases gd with
  | always => exact h
  | on neg q =>
    cases neg <;> simp [activeOf] at h <;> exact h.1
section
variable (s : State) (i : Instr) (sc : Sched) (gd : Guard) (ix : BitVec 3) (z : Bool) (p : Machine.Path)
@[simp] theorem issued_path_pc : (s.issued i sc gd ix z p).path.pc = p.pc := rfl
@[simp] theorem issued_path_mask : (s.issued i sc gd ix z p).path.mask = p.mask := rfl
@[simp] theorem issued_path_user : (s.issued i sc gd ix z p).path.user = p.user := rfl
@[simp] theorem issued_now : (s.issued i sc gd ix z p).state.now = s.now := by
  obtain ⟨_, _, _, _, _, h⟩ := issued_frame s i sc gd ix z p
  rw [h]
/-- The Active lanes are lanes of the path. -/
theorem issued_act_sub (h : p.redo = none) {l : Nat} (hl : (s.issued i sc gd ix z p).act.getLsbD l = true) : p.mask.getLsbD l = true := by
  simp only [State.issued, Machine.Path.activeFor, h] at hl
  exact activeOf_sub hl
end

@[simp] theorem retire_now (s : State) (z : Bool) (sc : Sched) (lat : Machine.Lat) (act : Mask) (ws : List RegWrite) :
    (s.retire z sc lat act ws).now = s.now := by
  unfold State.retire
  dsimp only
  split <;> rfl

theorem target_eq (pc : BitVec 56) (t : BitVec 24) : target pc t = pc + 16 * t.signExtend 56 := by
  rw [target]
  congr 1
  bv_omega

/-! ### O20 -/

section
variable {i : Instr} {sc : Sched} {z : Bool} {p : Machine.Path} {s t : State} {j : BitVec 56} {cs : List Child} {T : Mask} {g : Group}
theorem splitOr_some (h : s.grp.split (s.now + 1) z p j cs = some g) : s.splitOr t i sc z p j cs T = { s with grp := g } := by
  rw [State.splitOr, h]
theorem splitOr_none (h : s.grp.split (s.now + 1) z p j cs = none) :
    s.splitOr t i sc z p j cs T = t.trapPath i sc 0x0B (p.pc.setWidth 64) T := by
  rw [State.splitOr, h]
end

/-- Settles O20. -/
theorem directTransfers : Obligations.DirectTransfers := by
  unfold Obligations.DirectTransfers
  intro c t j d s z p
  refine ⟨fun h => ?_, fun h => ?_⟩
  · intro r tgt
    have hx : exec (.bra c t j) s = _ := congrArg Host.Outcome.next (issue_ready h _)
    rw [hx]
    simp only [target_eq, issued_path_pc, issued_path_mask]
    refine ⟨fun h0 => ?_, fun h0 ht hn => ?_, fun h0 ht hn g hg => ?_⟩
    · rw [if_pos (h0.symm)]
    · rw [if_neg (not_or.2 ⟨ht, h0⟩), if_pos hn]
    · rw [if_neg (not_or.2 ⟨ht, h0⟩), if_neg hn]
      refine congrArg _ (splitOr_some ?_)
      rw [← hg, State.spend_now, issued_now]
      congr 1
      have ht' : ¬p.pc + 16 * t.signExtend 56 = p.pc + 16 := ht
      simp only [insTarget, if_neg ht', tgt]
      split <;> rfl
  · intro r tgt w
    have hx : exec (.call c d t) s = _ := congrArg Host.Outcome.next (issue_ready h _)
    have hw : r.state.retire z c.sched .alu r.act (linkWrites r.state c d r.path r.act) = w := by
      simp only [linkWrites, wrRun, perLane, List.map_map]
      rfl
    rw [hx]
    simp only [target_eq, issued_path_pc, issued_path_mask]
    refine ⟨fun h0 => ?_, fun h0 hn => ?_, fun h0 hn g hg => ?_⟩
    · rw [if_pos h0, ← hw]
    · rw [if_neg h0, if_pos hn, ← hw]
    · rw [if_neg h0, if_neg hn, ← hw]
      refine congrArg _ (splitOr_some ?_)
      rw [hw, ← hg, retire_now, issued_now]

end Sys2Proof.Machine.Claim
end

section
/-! Indirect transfers: the lanes of a path divided by their targets (spec 09_control R102, Table 9.2). -/
namespace Sys2Proof.Machine.Claim

/-! ### Sets of lanes by target -/

/-- Whether a list of sets has a lane at a target. -/
def HasLane (sets : List (BitVec 56 × Mask)) (t : BitVec 56) (l : Nat) : Prop := ∃ m, (t, m) ∈ sets ∧ m.getLsbD l = true
/-- Sets in ascending order of address, none of them empty. -/
def Ordered (sets : List (BitVec 56 × Mask)) : Prop := sets.Pairwise (fun x y => x.1 < y.1) ∧ ∀ e ∈ sets, e.2 ≠ 0

section
variable {t u : BitVec 56} {m : Mask} {l : Nat} {sets : List (BitVec 56 × Mask)}
@[simp] theorem not_hasLane_nil : ¬HasLane [] t l := by simp [HasLane]
theorem hasLane_cons {e : BitVec 56 × Mask} : HasLane (e :: sets) t l ↔ t = e.1 ∧ e.2.getLsbD l = true ∨ HasLane sets t l := by
  obtain ⟨v, k⟩ := e
  simp only [HasLane, List.mem_cons, Prod.mk.injEq, or_and_right, exists_or, and_assoc, exists_and_left, exists_eq_left]
theorem hasLane_insTarget : HasLane (insTarget u m sets) t l ↔ HasLane sets t l ∨ t = u ∧ m.getLsbD l = true := by
  induction sets with
  | nil => simp [insTarget, hasLane_cons]
  | cons e r ih =>
    obtain ⟨v, k⟩ := e
    rw [insTarget]
    split
    next h =>
      subst h
      simp only [hasLane_cons, BitVec.getLsbD_or, Bool.or_eq_true]
      tauto
    next h =>
      split
      · simp only [hasLane_cons]
        tauto
      · simp only [hasLane_cons, ih]
        tauto
theorem or_ne_zero {a b : Mask} (h : b ≠ 0) : a ||| b ≠ 0 := fun hz => h (by
  ext l hl
  have hl' := congrArg (fun x : Mask => x.getLsbD l) hz
  have hor : (a.getLsbD l || b.getLsbD l) = false := by simpa using hl'
  simpa [BitVec.getLsbD_eq_getElem hl] using (Bool.or_eq_false_iff.1 hor).2)
theorem mem_insTarget {e : BitVec 56 × Mask} (h : e ∈ insTarget u m sets) : e.1 = u ∨ ∃ f ∈ sets, e.1 = f.1 := by
  induction sets with
  | nil =>
    simp only [insTarget, List.mem_singleton] at h
    exact Or.inl (by rw [h])
  | cons f r ih =>
    obtain ⟨v, k⟩ := f
    rw [insTarget] at h
    split at h
    next hv =>
      obtain rfl | h := List.mem_cons.1 h
      · exact Or.inl hv.symm
      · exact Or.inr ⟨e, List.mem_cons_of_mem _ h, rfl⟩
    next hv =>
      split at h
      · obtain rfl | h := List.mem_cons.1 h
        · exact Or.inl rfl
        · exact Or.inr ⟨e, h, rfl⟩
      · obtain rfl | h := List.mem_cons.1 h
        · exact Or.inr ⟨_, List.mem_cons_self .., rfl⟩
        · exact (ih h).imp id fun ⟨f, hf, he⟩ => ⟨f, List.mem_cons_of_mem _ hf, he⟩
theorem ordered_insTarget (hm : m ≠ 0) (h : Ordered sets) : Ordered (insTarget u m sets) := by
  induction sets with
  | nil => exact ⟨List.pairwise_singleton .., by simpa [insTarget] using hm⟩
  | cons e r ih =>
    obtain ⟨v, k⟩ := e
    obtain ⟨hp, hz⟩ := h
    obtain ⟨hv, hp⟩ := List.pairwise_cons.1 hp
    have hz' : ∀ e ∈ r, e.2 ≠ 0 := fun e he => hz e (List.mem_cons_of_mem _ he)
    have hk : k ≠ 0 := hz _ (List.mem_cons_self ..)
    rw [insTarget]
    split
    · exact ⟨List.pairwise_cons.2 ⟨hv, hp⟩, List.forall_mem_cons.2 ⟨or_ne_zero hm, hz'⟩⟩
    next hne =>
      split
      next hlt =>
        refine ⟨List.pairwise_cons.2 ⟨List.forall_mem_cons.2 ⟨hlt, fun e he => BitVec.lt_trans hlt (hv e he)⟩, List.pairwise_cons.2 ⟨hv, hp⟩⟩, ?_⟩
        exact List.forall_mem_cons.2 ⟨hm, List.forall_mem_cons.2 ⟨hk, hz'⟩⟩
      next hlt =>
        obtain ⟨h1, h2⟩ := ih ⟨hp, hz'⟩
        refine ⟨List.pairwise_cons.2 ⟨fun e he => ?_, h1⟩, List.forall_mem_cons.2 ⟨hk, h2⟩⟩
        obtain he | ⟨f, hf, he⟩ := mem_insTarget he
        · rw [he]
          show v < u
          bv_omega
        · rw [he]
          exact hv f hf
end

theorem laneBit_getLsbD {k l : Nat} (hk : k < 32) : (laneBit k).getLsbD l = decide (l = k) := by
  simp only [laneBit, BitVec.getLsbD_shiftLeft]
  by_cases h : l = k
  · subst h; simp [hk]
  · simp [h]
    omega
theorem laneBit_ne_zero {k : Nat} (hk : k < 32) : laneBit k ≠ 0 := fun h => by
  have := laneBit_getLsbD (l := k) hk
  rw [h] at this
  simp at this

/-- The Active lanes by their targets. -/
theorem targets_fold (A : Nat → Val) (ls : List Nat) (hls : ∀ k ∈ ls, k < 32) (sets : List (BitVec 56 × Mask)) (h : Ordered sets) :
    let out := (ls.map fun l => (l, A l)).foldl (fun s e => insTarget (e.2.pay.setWidth 56) (laneBit e.1) s) sets
    Ordered out ∧ ∀ t l, HasLane out t l ↔ HasLane sets t l ∨ l ∈ ls ∧ t = (A l).pay.setWidth 56 := by
  induction ls generalizing sets with
  | nil => simpa using h
  | cons k r ih =>
    have hk := hls k (List.mem_cons_self ..)
    obtain ⟨h1, h2⟩ := ih (fun x hx => hls x (List.mem_cons_of_mem _ hx)) _ (ordered_insTarget (u := (A k).pay.setWidth 56) (laneBit_ne_zero hk) h)
    refine ⟨h1, fun t l => ?_⟩
    simp only [List.map_cons, List.foldl_cons] at h2 ⊢
    rw [h2, hasLane_insTarget, laneBit_getLsbD hk, List.mem_cons, decide_eq_true_eq]
    constructor
    · rintro ((h | ⟨rfl, rfl⟩) | ⟨hl, ht⟩)
      · exact Or.inl h
      · exact Or.inr ⟨Or.inl rfl, rfl⟩
      · exact Or.inr ⟨Or.inr hl, ht⟩
    · rintro (h | ⟨rfl | hl, ht⟩)
      · exact Or.inl (Or.inl h)
      · exact Or.inl (Or.inr ⟨ht, rfl⟩)
      · exact Or.inr ⟨hl, ht⟩
/-- The lanes of a path by their targets, those whose guard is false at the next instruction. -/
theorem targetSets_spec (p : Machine.Path) {act : Mask} (hs : ∀ l, act.getLsbD l = true → p.mask.getLsbD l = true) (A : Nat → Val) :
    Ordered (targetSets p act (perLane act A)) ∧ ∀ t l, HasLane (targetSets p act (perLane act A)) t l ↔
      p.mask.getLsbD l = true ∧ t = if act.getLsbD l then (A l).pay.setWidth 56 else p.pc + 16 := by
  obtain ⟨h1, h2⟩ := targets_fold A (lanes act) (fun k hk => (mem_lanes.1 hk).1) [] ⟨List.Pairwise.nil, by simp⟩
  have hl {l : Nat} {m : Mask} (h : m.getLsbD l = true) : l < 32 := BitVec.lt_of_getLsbD h
  simp only [not_hasLane_nil, false_or, mem_lanes] at h2
  simp only [targetSets, perLane]
  have hb (l : Nat) : (p.mask &&& ~~~act).getLsbD l = true ↔ p.mask.getLsbD l = true ∧ act.getLsbD l = false := by
    rw [BitVec.getLsbD_and, BitVec.getLsbD_not, Bool.and_eq_true, Bool.and_eq_true, decide_eq_true_eq, Bool.not_eq_true']
    exact ⟨fun ⟨a, _, b⟩ => ⟨a, b⟩, fun ⟨a, b⟩ => ⟨a, hl a, b⟩⟩
  split
  next h0 =>
    refine ⟨h1, fun t l => ?_⟩
    rw [h2]
    have hnt (hp : p.mask.getLsbD l = true) : act.getLsbD l = true := by
      by_contra ha
      have := (hb l).2 ⟨hp, by simpa using ha⟩
      rw [h0] at this
      simp at this
    constructor
    · rintro ⟨⟨_, ha⟩, ht⟩
      exact ⟨hs l ha, by rw [if_pos ha, ht]⟩
    · rintro ⟨hp, ht⟩
      rw [if_pos (hnt hp)] at ht
      exact ⟨⟨hl hp, hnt hp⟩, ht⟩
  next h0 =>
    refine ⟨ordered_insTarget h0 h1, fun t l => ?_⟩
    rw [hasLane_insTarget, h2, hb]
    constructor
    · rintro (⟨⟨_, ha⟩, ht⟩ | ⟨ht, hp, ha⟩)
      · exact ⟨hs l ha, by rw [if_pos ha, ht]⟩
      · exact ⟨hp, by rw [ha, ht]; rfl⟩
    · rintro ⟨hp, ht⟩
      cases ha : act.getLsbD l
      · rw [ha] at ht
        exact Or.inr ⟨ht, hp, rfl⟩
      · rw [ha, if_pos rfl] at ht
        exact Or.inl ⟨⟨hl hp, rfl⟩, ht⟩

/-! ### The checks of the addresses -/

/-- The fault of an address, with its cause and FADDR. -/
def badTarget (pc : BitVec 56) (x : Val) : Option (BitVec 8 × Word) :=
  if x.isNum = false then some (0x03, pc.setWidth 64)
  else if x.pay.toNat % 16 ≠ 0 ∨ 2 ^ 56 ≤ x.pay.toNat then some (0x04, x.pay) else none
theorem fld_high (x : Word) : fld x 56 8 ≠ 0 ↔ 2 ^ 56 ≤ x.toNat := by
  have := x.isLt
  simp only [fld]
  omega
theorem targetFault_cons (pc : BitVec 56) (l : Nat) (x : Val) (r : List (Nat × Val)) :
    targetFault pc ((l, x) :: r) = (badTarget pc x).or (targetFault pc r) := by
  simp only [targetFault, badTarget, fld_zero, fld_high, Bool.not_eq_true', Nat.reducePow]
  split
  · rfl
  next h => by_cases hb : x.pay.toNat % 16 ≠ 0 ∨ 72057594037927936 ≤ x.pay.toNat <;> simp [hb]
theorem targetFault_none {pc : BitVec 56} {A : Nat → Val} {ls : List Nat} (h : ∀ l ∈ ls, badTarget pc (A l) = none) :
    targetFault pc (ls.map fun l => (l, A l)) = none := by
  induction ls with
  | nil => rfl
  | cons k r ih =>
    rw [List.map_cons, targetFault_cons, h k (List.mem_cons_self ..), ih fun l hl => h l (List.mem_cons_of_mem _ hl)]
    rfl
theorem targetFault_first {pc : BitVec 56} {A : Nat → Val} {ls : List Nat} (hp : ls.Pairwise (· < ·)) {l : Nat} (hl : l ∈ ls)
    {f : BitVec 8 × Word} (hf : badTarget pc (A l) = some f) (h : ∀ k ∈ ls, k < l → badTarget pc (A k) = none) :
    targetFault pc (ls.map fun l => (l, A l)) = some f := by
  induction ls with
  | nil => cases hl
  | cons k r ih =>
    obtain ⟨hk, hr⟩ := List.pairwise_cons.1 hp
    rw [List.map_cons, targetFault_cons]
    obtain rfl | hl := List.mem_cons.1 hl
    · rw [hf]
      rfl
    · rw [h k (List.mem_cons_self ..) (hk l hl), ih hr hl fun x hx => h x (List.mem_cons_of_mem _ hx)]
      rfl
theorem lanes_ascending (m : Mask) : (lanes m).Pairwise (· < ·) := List.Pairwise.filter _ List.pairwise_lt_range

/-! ### The transfer -/

section
variable {i : Instr} {sc : Sched} {ix : BitVec 3} {a : Reg} {link : State → Machine.Path → Mask → List RegWrite}
  {split : State → State → Bool → Machine.Path → Mask → List (BitVec 56 × Mask) → State} {z : Bool} {p : Machine.Path} {act : Mask} {s : State}
/-- The fault of the lowest failing lane is that of the path. -/
theorem indirect_faults {l : Nat} {cause : BitVec 8} {addr : Word} (hl : l < 32) (ha : act.getLsbD l = true)
    (hb : badTarget p.pc (rdSrc s z ix a.src l) = some (cause, addr))
    (hk : ∀ k, k < l → act.getLsbD k = true → badTarget p.pc (rdSrc s z ix a.src k) = none) :
    indirect i sc ix a link split z p act s = s.trapPath i sc cause addr act := by
  have h := targetFault_first (lanes_ascending act) (mem_lanes.2 ⟨hl, ha⟩) hb fun k hm hlt => hk k hlt (mem_lanes.1 hm).2
  simp only [indirect, perLane, h]
/-- Where no lane fails, one set moves the path, and several split it. -/
theorem indirect_moves (hs : ∀ l, act.getLsbD l = true → p.mask.getLsbD l = true)
    (hb : ∀ l, l < 32 → act.getLsbD l = true → badTarget p.pc (rdSrc s z ix a.src l) = none) :
    let w := s.retire z sc .alu act (link s p act)
    ∃ sets, (Ordered sets ∧ ∀ t l, HasLane sets t l ↔
        p.mask.getLsbD l = true ∧ t = if act.getLsbD l then (rdSrc s z ix a.src l).pay.setWidth 56 else p.pc + 16) ∧
      (∀ t m, sets = [(t, m)] → indirect i sc ix a link split z p act s = if t = p.pc + 16 then w.next z else w.jump z t) ∧
      (2 ≤ sets.length → indirect i sc ix a link split z p act s = split s w z p act sets) := by
  intro w
  have hf : targetFault p.pc (perLane act fun l => rdSrc s z ix a.src l) = none :=
    targetFault_none fun l hl => hb l (mem_lanes.1 hl).1 (mem_lanes.1 hl).2
  refine ⟨_, targetSets_spec p hs fun l => rdSrc s z ix a.src l, fun t m he => ?_, fun hn => ?_⟩
  · simp only [indirect, hf, he]
    rfl
  · generalize he : targetSets p act (perLane act fun l => rdSrc s z ix a.src l) = sets at hn
    obtain ⟨x, y, rest, rfl⟩ : ∃ x y rest, sets = x :: y :: rest := by
      rcases sets with _ | ⟨x, _ | ⟨y, rest⟩⟩
      · simp at hn
      · simp at hn
      · exact ⟨x, y, rest, rfl⟩
    simp only [indirect, hf, he]
    rfl
end

section
variable {i : Instr} {s : State} {r : Issue} {sc : Sched} {ix : BitVec 3} {a : Reg} {z : Bool}
  {linkOf : State → Machine.Path → Mask → List RegWrite}
  {splitOf : State → State → Bool → Machine.Path → Mask → List (BitVec 56 × Mask) → State}
/-- What R102 says of an indirect transfer whose link and split are given. -/
theorem indirect_transfer {link : List RegWrite} {split : Group → List (BitVec 56 × Mask) → Option Group}
    (hx : exec i s = .next (indirect i sc ix a linkOf splitOf z r.path r.act r.state))
    (hs : ∀ l, r.act.getLsbD l = true → r.path.mask.getLsbD l = true) (hl : linkOf r.state r.path r.act = link)
    (hsome : ∀ sets g, split (r.state.retire z sc .alu r.act link).grp sets = some g →
      splitOf r.state (r.state.retire z sc .alu r.act link) z r.path r.act sets = { r.state.retire z sc .alu r.act link with grp := g })
    (hnone : ∀ sets, split (r.state.retire z sc .alu r.act link).grp sets = none →
      splitOf r.state (r.state.retire z sc .alu r.act link) z r.path r.act sets =
        r.state.trapPath i sc 0x0B (r.path.pc.setWidth 64) r.act) :
    let A (l : Nat) := rdSrc r.state z ix a.src l
    let w := r.state.retire z sc .alu r.act link
    (∀ l cause addr, l < 32 → r.act.getLsbD l = true → badTarget r.path.pc (A l) = some (cause, addr) →
      (∀ k, k < l → r.act.getLsbD k = true → badTarget r.path.pc (A k) = none) →
        exec i s = .next (r.state.trapPath i sc cause addr r.act)) ∧
    ((∀ l, l < 32 → r.act.getLsbD l = true → badTarget r.path.pc (A l) = none) → r.path.mask ≠ 0 →
      ∃ sets : List (BitVec 56 × Mask), (sets.Pairwise (fun x y => x.1 < y.1) ∧ (∀ e ∈ sets, e.2 ≠ 0) ∧ ∀ t l, HasLane sets t l ↔
        r.path.mask.getLsbD l = true ∧ t = if r.act.getLsbD l then (A l).pay.setWidth 56 else r.path.pc + 16) ∧
      (∀ t m, sets = [(t, m)] → exec i s = .next (if t = r.path.pc + 16 then w.next z else w.jump z t)) ∧
      (2 ≤ sets.length →
        (∀ g, split w.grp sets = some g → exec i s = .next { w with grp := g }) ∧
        (split w.grp sets = none → exec i s = .next (r.state.trapPath i sc 0x0B (r.path.pc.setWidth 64) r.act)))) := by
  subst hl
  intro A w
  refine ⟨fun l cause addr hl ha hb hk => hx.trans (congrArg _ (indirect_faults hl ha hb hk)), fun hb _ => ?_⟩
  obtain ⟨sets, ⟨⟨hp, hz⟩, ht⟩, h1, h2⟩ := indirect_moves (i := i) (sc := sc) (link := linkOf) (split := splitOf) hs hb
  refine ⟨sets, ⟨hp, hz, ht⟩, fun t m he => hx.trans (congrArg _ (h1 t m he)), fun hn => ?_⟩
  have hx' := hx.trans (congrArg _ (h2 hn))
  exact ⟨fun g hg => hx'.trans (congrArg _ (hsome _ _ hg)), fun hg => hx'.trans (congrArg _ (hnone _ hg))⟩
end

/-- Settles O21: the three transfers differ in their links and their splits. -/
theorem indirectTransfers : Obligations.IndirectTransfers := by
  unfold Obligations.IndirectTransfers
  intro c u d a j s z p past bad parts moves children
  have hnow {i : Instr} {sc : Sched} {gd : Guard} {ix : BitVec 3} {ws : List RegWrite} :
      ((s.issued i sc gd ix z p).state.retire z sc .alu (s.issued i sc gd ix z p).act ws).now = s.now := by
    rw [retire_now, issued_now]
  refine ⟨fun h => ?_, fun h => ?_, fun h => ?_⟩
  · have hx : exec (.brx c a j) s = _ := congrArg Host.Outcome.next (issue_ready h _)
    refine indirect_transfer (r := issuedOf (.brx c a j) c s z p)
      (split := fun g sets => g.split (s.now + 1) z (issuedOf (.brx c a j) c s z p).path (p.pc + 16 * j.signExtend 56) (children sets)) hx
      (fun l hl => issued_act_sub s _ _ _ _ z p h.2.1 hl) rfl (fun sets g hg => splitOr_some ?_) fun sets hg => splitOr_none ?_
    · rw [hnow, target_eq]
      exact hg
    · rw [hnow, target_eq]
      exact hg
  · have hx : exec (.callx c d a) s = _ := congrArg Host.Outcome.next (issue_ready h _)
    refine indirect_transfer (r := issuedOf (.callx c d a) c s z p)
      (split := fun g sets => g.split (s.now + 1) z (issuedOf (.callx c d a) c s z p).path past (children sets)) hx
      (fun l hl => issued_act_sub s _ _ _ _ z p h.2.1 hl) ?_ (fun sets g hg => splitOr_some ?_) fun sets hg => splitOr_none ?_
    · simp only [linkWrites, wrRun, perLane, List.map_map]
      rfl
    · rw [hnow]
      exact hg
    · rw [hnow]
      exact hg
  · have hx : exec (.ret u a) s = _ := congrArg Host.Outcome.next (issueU_ready h _)
    refine indirect_transfer (r := issuedU (.ret u a) u s z p)
      (split := fun g sets => g.splitRet (s.now + 1) z (issuedU (.ret u a) u s z p).path sets) hx
      (fun l hl => issued_act_sub s _ _ _ _ z p h.2.1 hl) rfl (fun sets g hg => ?_) fun sets hg => ?_
    · simp only [issued_now, hg]
    · simp only [issued_now, hg]

end Sys2Proof.Machine.Claim
end

section
/-! The plain control instructions, traps and breakpoints (spec 09_control R105 to R109). -/
namespace Sys2Proof.Machine.Claim

/-! ### Lanes that end -/

theorem keeps_arrive (now : Nat) (b : Bool) (g : Group) : Keeps [] g (g.arrive now b) := keeps_resolve _ _ _
theorem keeps_sweep (now fuel : Nat) (b : Bool) (g : Group) : Keeps [] g (Group.sweep now fuel b g) := by
  induction fuel generalizing g with
  | zero => exact keeps_fill b
  | succ n ih =>
    rw [Group.sweep]
    split
    · exact keeps_fill b
    next j _ =>
      have h : Keeps [] g ({ g with stack := putJoin j.no none g.stack, fused := j.mask :: g.fused }.dropFrames j.no) :=
        (keeps_fused _ _).trans (keeps_dropFrames _)
      dsimp only
      split
      · exact h.trans (ih _)
      · split
        · exact h.trans (ih _)
        · exact h.trans ((keeps_setSlot _ _).trans ((keeps_arrive _ _ _).trans (ih _)))
theorem Keeps.present {ds : List RegName} {g h : Group} (k : Keeps ds g h) : h.present = g.present := by
  have e := k.1.2.2.2
  rw [e]
/-- Lanes that end are not present any more. -/
theorem exitLanes_present {g : Group} {now : Nat} {b : Bool} {m : Mask} {next : BitVec 56} {p : Machine.Path} (h : g.slot b = some p) :
    (g.exitLanes now b m next).present = g.present &&& ~~~m := by
  unfold Group.exitLanes
  simp only [h]
  split
  · rfl
  next =>
    split
    · exact (((keeps_flushFixed _).trans (keeps_setSlot _ _)).trans (keeps_sweep ..)).present
    · exact ((keeps_setSlot _ _).trans (keeps_arrive ..)).present

theorem slot_lowerCtr (g : Group) (c : Option Ctr) (b : Bool) : (g.lowerCtr c).slot b = g.slot b := by
  rw [lowerCtr_eq]
  rfl

/-- Settles O22. -/
theorem plainControl : Obligations.PlainControl := by
  unfold Obligations.PlainControl
  intro c u s z p
  refine ⟨fun h => congrArg Host.Outcome.next (issue_ready h _), fun h => ?_, fun h => ?_⟩
  · have hx : exec (.yield u) s = _ := congrArg Host.Outcome.next (issueU_ready h _)
    rw [hx]
    simp only [State.spend_now, issued_now]
  · have hx : exec (.exit c) s = _ := congrArg Host.Outcome.next (issue_ready h _)
    have hs : ((issuedOf (.exit c) c s z p).state.spend c.sched).grp.slot z = some (issuedOf (.exit c) c s z p).path := by
      rw [State.spend, State.setGrp_grp, slot_lowerCtr]
      exact issued_slot ..
    intro r t
    refine ⟨fun h0 => ?_, fun h0 hst => ⟨?_, ?_⟩, fun h0 hst => ?_⟩
    · rw [hx]
      simp only [if_pos h0, t, r]
    · rw [hx]
      simp only [if_neg h0, if_neg hst, State.spend_now, issued_now, t, r]
      rfl
    · rw [exitLanes_present hs, BitVec.and_assoc]
      ext l hl
      simp
    · rw [hx]
      simp only [if_neg h0, if_pos hst, t, r]

/-- Settles O23. -/
theorem trapAndBreak : Obligations.TrapAndBreak := by
  unfold Obligations.TrapAndBreak
  intro c code s z p
  refine ⟨fun h => ?_, fun h => ?_⟩
  · have hx : exec (.trap c code) s = _ := congrArg Host.Outcome.next (issue_ready h _)
    intro r t
    refine ⟨fun h0 => ?_, fun h0 => ?_⟩
    · rw [hx]
      simp only [if_pos h0, t, r]
    · rw [hx]
      simp only [if_neg h0, t, r]
      rfl
  · have hx : exec (.brk c code) s = _ := congrArg Host.Outcome.next (issue_ready h _)
    intro r t on
    have hon : on ↔ (match t.blk? t.grp.blk with | some k => t.stopsOn k.pid k.queue | none => false) = true := by
      cases hb : t.blk? t.grp.blk <;> simp [on, hb]
    rw [hx]
    refine ⟨fun h0 => congrArg _ (if_pos (h0.imp id fun h => ?_)), fun h0 h1 => congrArg _ (if_neg (not_or.2 ⟨h0, ?_⟩))⟩
    · rw [Bool.not_eq_true', ← Bool.not_eq_true]
      exact fun hm => h (hon.2 hm)
    · rw [Bool.not_eq_true', Bool.not_eq_false]
      exact hon.1 h1

end Sys2Proof.Machine.Claim
end

section
/-! Traps, their kills and their returns, and the joins of paths (spec 05_execution R55 to R64, 33_faults R365 to R368). -/
namespace Sys2Proof.Machine.Claim

/-! ### Pending results that take effect -/

/-- A group with other registers, pending results and counters. -/
def RegsOnly (g h : Group) : Prop := ∃ v r p pend ld stc cp sy,
  h = { g with v := v, g := r, p := p, pend := pend, ld := ld, stc := stc, cp := cp, sy := sy }
theorem RegsOnly.refl (g : Group) : RegsOnly g g := ⟨_, _, _, _, _, _, _, _, rfl⟩
theorem RegsOnly.trans {g h j : Group} (a : RegsOnly g h) (b : RegsOnly h j) : RegsOnly g j := by
  obtain ⟨_, _, _, _, _, _, _, _, rfl⟩ := a
  obtain ⟨_, _, _, _, _, _, _, _, rfl⟩ := b
  exact ⟨_, _, _, _, _, _, _, _, rfl⟩
theorem regsOnly_wr (g : Group) (w : RegWrite) : RegsOnly g (g.wr w) := by cases w <;> exact ⟨_, _, _, _, _, _, _, _, rfl⟩
theorem regsOnly_wrs (g : Group) (ws : List RegWrite) : RegsOnly g (g.wrs ws) := by
  induction ws generalizing g with
  | nil => exact .refl g
  | cons w r ih => exact (regsOnly_wr g w).trans (ih _)
theorem regsOnly_lowerCtr (g : Group) (c : Option Ctr) : RegsOnly g (g.lowerCtr c) := by
  rw [lowerCtr_eq]
  exact ⟨_, _, _, _, _, _, _, _, rfl⟩
theorem regsOnly_finishWhere (g : Group) (q : Completion → Bool) : RegsOnly g (g.finishWhere q) := by
  unfold Group.finishWhere
  have h0 : RegsOnly g { g with pend := g.pend.filter fun k => !q k } := ⟨_, _, _, _, _, _, _, _, rfl⟩
  generalize { g with pend := g.pend.filter fun k => !q k } = h at h0
  induction g.pend.filter q generalizing h with
  | nil => exact h0
  | cons k r ih => exact ih _ (h0.trans ((regsOnly_wrs h k.writes).trans (regsOnly_lowerCtr _ _)))
theorem regsOnly_flushFixed (g : Group) (m : Mask) : RegsOnly g (g.flushFixed m) := regsOnly_finishWhere _ _
section
variable {g h : Group} (a : RegsOnly g h)
include a
theorem RegsOnly.slot (b : Bool) : h.slot b = g.slot b := by
  obtain ⟨_, _, _, _, _, _, _, _, rfl⟩ := a
  rfl
theorem RegsOnly.stack : h.stack = g.stack := by
  obtain ⟨_, _, _, _, _, _, _, _, rfl⟩ := a
  rfl
theorem RegsOnly.frames : h.frames = g.frames := by
  obtain ⟨_, _, _, _, _, _, _, _, rfl⟩ := a
  rfl
end

/-! ### Entering a trap -/

theorem codeAddr_eq (w : Word) : codeAddr w = w.setWidth 56 &&& 0xFFFFFFFFFFFFF0 := rfl
theorem giveStop_one (r : Option (Nat × Nat)) {q : Machine.Path} (h : q.stopReq = none) : giveStop r [q] = [{ q with stopReq := r }] := by
  rcases r with _ | ⟨a, l⟩
  · cases q
    simp_all [giveStop]
  · by_cases hl : q.mask.getLsbD l <;> simp [giveStop, hl]
theorem place_one (g : Group) (b : Bool) (q : Machine.Path) : g.place b [q] = g.setSlot b (some q) := by
  simp only [Group.place]
  cases (g.setSlot b (some q)).slot (!b) <;> rfl
/-- The join entry of a split whose one child takes every lane to a handler. -/
def trapJoin (p : Machine.Path) (j : BitVec 56) (n : Nat) : Join :=
  { no := n, pc := j, joinPc := p.joinPc, mask := p.mask, arrived := 0, hl := p.hl, mode := p.mode, hj := true, outer := p.joinNo
    frame := p.frame, stopReq := none }
/-- The handler path of that split. -/
def trapPathOf (p : Machine.Path) (vec j : BitVec 56) (m : Mode) (n k now : Nat) : Machine.Path :=
  { Path.fresh vec j p.mask true m (some n) (some k) now with stopReq := p.stopReq }
/-- The split of a path into one handler child of all its lanes. -/
theorem split_handler {g : Group} {now : Nat} {b : Bool} {p : Machine.Path} {j vec : BitVec 56} {m : Mode} {f : Frame} {n k : Nat}
    {free : List Nat} (hm : p.mask ≠ 0) (hv : vec ≠ j) (hd : g.stack.length + g.under.length < 64) (hk : g.freeFrames = k :: free)
    (hn : lowestFree (joinNos (g.stack ++ g.under)) 64 = some n) :
    g.split now b p j [⟨vec, p.mask, some (m, f)⟩] = some ({ g.flushFixed p.mask with
      stack := .join (trapJoin p j n) :: g.stack, frames := addFrame k { f with joinNo := n } g.frames }.setSlot b
        (some (trapPathOf p vec j m n k now))) := by
  have hr := regsOnly_flushFixed g p.mask
  have hff : (g.flushFixed p.mask).freeFrames = k :: free := by rw [← hk, Group.freeFrames, hr.frames, Group.freeFrames]
  have hs : 1 ≤ g.slotsAvail b := by unfold Group.slotsAvail; split <;> decide
  have hroom : ¬(64 < g.pdepth + (1 + (1 - g.slotsAvail b)) ∨ g.freeFrames.length < 1) := by
    rw [hk]
    simp only [Group.pdepth, List.length_cons]
    omega
  have hne : (vec != j) = true := bne_iff_ne.2 hv
  have hstop := giveStop_one p.stopReq (q := Path.fresh vec j p.mask true m (some n) (some k) now) rfl
  have hm' : ¬(0 : Mask) = p.mask := fun h => hm h.symm
  simp only [Group.split, List.filter_cons, List.filter_nil, hne, if_true, List.length_cons, List.length_nil, Nat.zero_add, Option.isSome_some,
    if_neg hroom, hn, List.any_cons, List.any_nil, Bool.or_false, Bool.or_true, List.foldl_cons, List.foldl_nil, if_neg hv, hff, assignFrames,
    List.map_cons, List.map_nil, hstop, if_neg hm', hr.stack, hr.frames]
  rw [place_one]
  rfl

theorem find_addFrame {k : Nat} (f : Frame) {fs : Store Frame} (h : k ∉ fs.map Prod.fst) :
    (addFrame k f fs).find? (fun e => e.1 == k) = some (k, f) := by
  induction fs with
  | nil => simp [addFrame]
  | cons e r ih =>
    obtain ⟨n, x⟩ := e
    simp only [List.map_cons, List.mem_cons, not_or] at h
    rw [addFrame]
    split
    · simp
    · rw [List.find?_cons_of_neg (by simpa using fun h' => h.1 h'.symm), ih h.2]
/-- A trap of every lane of a path takes the split of its handler child. -/
theorem takeTrap_enters {s : State} {z : Bool} {p : Machine.Path} {k : Face} {cause : BitVec 8} {faddr code : Word} {T : Mask} {g : Group}
    (hc : s.cur = some (z, p)) (hl : p.hl = false) (hv : codeAddr s.grp.trapvec ≠ 0) (hr : p.mask &&& ~~~T = 0)
    (hs : s.grp.split (s.now + 1) z p (p.pc + 16)
      [⟨codeAddr s.grp.trapvec, T, some (.runtime, k.frame true (cause.setWidth 64) faddr code 0 p.pc)⟩] = some g) :
    s.takeTrap k cause faddr code T false = { s with grp := { g with fcause := cause.setWidth 64, faddr := faddr, tcode := code } } := by
  simp only [State.takeTrap, hc, hl, if_neg hv, hr, if_true, hs, Bool.false_eq_true, if_false]
theorem slot_of_set {g : Group} {z : Bool} {q : Option Machine.Path} (h : g.slot z = q) {a b c : Word} :
    ({ g with fcause := a, faddr := b, tcode := c } : Group).slot z = q := h
/-- Settles O24. -/
theorem trapEntry : Obligations.TrapEntry := by
  unfold Obligations.TrapEntry
  intro s z p k cause faddr code n vec hc hhl hm hv hvn hd hfr hn
  obtain ⟨i, free, hk⟩ := List.exists_cons_of_ne_nil hfr
  have hrest : p.mask &&& ~~~p.mask = 0 := by
    ext l hl
    simp
  have hvec : codeAddr s.grp.trapvec = vec := codeAddr_eq _
  have hsplit := split_handler (now := s.now + 1) (b := z) (m := .runtime) (f := k.frame true (cause.setWidth 64) faddr code 0 p.pc) hm hvn hd hk hn
  rw [takeTrap_enters hc hhl (hvec ▸ hv) hrest (by rw [hvec]; exact hsplit)]
  refine ⟨rfl, rfl, rfl, rfl, ⟨_, i, slot_of_set (Group.slot_setSlot ..), rfl, rfl, rfl, rfl, rfl, rfl, rfl, rfl, ?_⟩, ?_⟩
  · have hi : i ∉ s.grp.frames.map Prod.fst := by
      have : i ∈ s.grp.freeFrames := by rw [hk]; exact List.mem_cons_self ..
      simpa [Group.freeFrames] using (List.mem_filter.1 this).2
    simp only [Group.frameOf, trapPathOf, Path.fresh, Group.setSlot_frames, find_addFrame _ hi, Option.map_some]
  · refine ⟨trapJoin p (p.pc + 16) n, ?_, rfl, rfl, rfl, rfl, rfl, hhl, rfl, rfl⟩
    simp only [Group.setSlot_stack, findJoin, trapJoin, if_true]

/-! ### Kills -/

/-- Settles O25. -/
theorem undeliveredFaultsKill : Obligations.UndeliveredFaultsKill := by
  unfold Obligations.UndeliveredFaultsKill
  intro s z p k cause faddr code T vec rec_ hc
  have hvec : codeAddr s.grp.trapvec = vec := codeAddr_eq _
  refine ⟨fun hhl hst => ?_, fun hhl hv => ?_, fun hhl hv hfr => ?_⟩
  · have hst' : (s.grp.st == .saving) = false := beq_eq_false_iff_ne.2 hst
    simp only [State.takeTrap, hc, hhl, if_true, State.handlerFault, hst', Bool.false_eq_true, if_false]
    rfl
  · simp only [State.takeTrap, hc, hhl, hvec, if_pos hv, Bool.false_eq_true, if_false]
    rfl
  · have hns (j : BitVec 56) (f : Mode × Frame) (cs : List Child) : s.grp.split (s.now + 1) z p j (⟨vec, T, some f⟩ :: cs) = none := by
      simp [Group.split, hfr]
    simp only [State.takeTrap, hc, hhl, hvec, if_neg hv, hns, Bool.false_eq_true, if_false]
    rfl

/-! ### Returns -/

theorem ret_returns {g : Group} {now : Nat} {b : Bool} {p : Machine.Path} {n : Nat} {j : Join} (hs : g.slot b = some p) (hn : p.joinNo = some n)
    (hj : findJoin n g.stack = some j) (hk : p.kind = .handler) (hh : j.hj = true) :
    g.ret now b = some (((match (g.flushFixed p.mask).frameOf p with
      | some f => (g.flushFixed p.mask).wrs ((g.flushFixed p.mask).handlerResult p f)
      | none => g.flushFixed p.mask).modSlot b fun p => { p with pc := p.joinPc }).arrive now b) := by
  simp only [Group.ret, hs, hn, hj, hk, hh, true_and, if_true] <;> rfl
theorem ret_refused {g : Group} {now : Nat} {b : Bool} {p : Machine.Path} (hs : g.slot b = some p)
    (h : p.kind ≠ .handler ∨ p.joinNo = none ∨ ∀ n j, p.joinNo = some n → findJoin n g.stack = some j → j.hj = false) : g.ret now b = none := by
  cases hn : p.joinNo with
  | none => simp only [Group.ret, hs, hn]
  | some n =>
    cases hj : findJoin n g.stack with
    | none => simp only [Group.ret, hs, hn, hj]
    | some j =>
      have hc : ¬(p.kind = .handler ∧ j.hj = true) := by
        rintro ⟨hk, hh⟩
        obtain h | h | h := h
        · exact h hk
        · simp [hn] at h
        · simp [h n j hn hj] at hh
      simp only [Group.ret, hs, hn, hj, if_neg hc]
/-- A path that does not stand at its join stays. -/
theorem resolve_stays {g : Group} {now fuel : Nat} {b : Bool} {p : Machine.Path} (hs : g.slot b = some p)
    (h : ¬(p.joinNo ≠ none ∧ p.pc = p.joinPc)) : Group.resolve now (fuel + 1) b g = g := by
  cases hn : p.joinNo with
  | none => simp only [Group.resolve, hs, hn]
  | some n =>
    have hp : ¬p.pc = p.joinPc := fun hp => h ⟨by simp [hn], hp⟩
    simp only [Group.resolve, hs, hn, if_neg hp]

/-- The last path to arrive at its join becomes the fused path. -/
theorem resolve_fuses {g : Group} {now fuel : Nat} {b : Bool} {p : Machine.Path} {n : Nat} {j : Join} (hs : g.slot b = some p)
    (hn : p.joinNo = some n) (hp : p.pc = p.joinPc) (hj : findJoin n g.stack = some j) (hf : j.arrived ||| p.mask = j.mask) :
    let j' : Join := { j with arrived := j.arrived ||| p.mask, stopReq := p.stopReq <|> j.stopReq }
    let h := (g.flushFixed p.mask).modSlot (!b) Path.undemote
    Group.resolve now (fuel + 1) b g = Group.resolve now fuel b
      (({ h with stack := putJoin n none h.stack, fused := j.mask :: h.fused }.dropFrames n).setSlot b (some (j'.fused now))) := by
  intro j' h
  simp only [Group.resolve, hs, hn, if_pos hp, hj, if_pos hf]
  rfl

/-- Settles O26. -/
theorem trapReturn : Obligations.TrapReturn := by
  unfold Obligations.TrapReturn
  intro u s z p h r t
  have hx : exec (.tret u) s = _ := congrArg Host.Outcome.next (issueU_ready h _)
  have hs : t.grp.slot z = some r.path := by
    simp only [t, State.spend, State.setGrp_grp, slot_lowerCtr]
    exact issued_slot ..
  have hnow : t.now = s.now := issued_now ..
  refine ⟨fun n j hn hj hk hh => ?_, fun hbad => ?_⟩
  · have hn' : r.path.joinNo = some n := hn
    have hk' : r.path.kind = .handler := hk
    have hret := ret_returns (now := s.now + 1) hs hn' hj hk' hh
    rw [hx]
    dsimp only
    rw [show (issuedU (.tret u) u s z p).state.spend u.sched = t from rfl, hnow, hret]
    rfl
  · have hret : t.grp.ret (s.now + 1) z = none := by
      refine ret_refused hs ?_
      exact hbad
    rw [hx]
    dsimp only
    rw [show (issuedU (.tret u) u s z p).state.spend u.sched = t from rfl, hnow, hret]
    rfl

/-! ### Joins and jumps -/

/-- Settles O27. -/
theorem joinsAndJumps : Obligations.JoinsAndJumps := by
  unfold Obligations.JoinsAndJumps
  refine ⟨fun g now z p n j hs hn hpc hj hfull hout => ?_, fun s z p t hs hout => ?_⟩
  · obtain ⟨m, hm⟩ : ∃ m, g.stack.length = m + 1 := by
      cases h : g.stack with
      | nil => simp [h, findJoin] at hj
      | cons x r => exact ⟨r.length, rfl⟩
    have hq : ¬((({ j with arrived := j.arrived ||| p.mask, stopReq := p.stopReq <|> j.stopReq } : Join).fused now).joinNo ≠ none ∧
        (({ j with arrived := j.arrived ||| p.mask, stopReq := p.stopReq <|> j.stopReq } : Join).fused now).pc =
          (({ j with arrived := j.arrived ||| p.mask, stopReq := p.stopReq <|> j.stopReq } : Join).fused now).joinPc) := hout
    rw [Group.arrive, hm, resolve_fuses hs hn hpc hj hfull, resolve_stays (Group.slot_setSlot ..) hq]
    refine ⟨_, Group.slot_setSlot .., rfl, rfl, rfl, rfl, rfl, rfl, rfl, rfl, fun e he => ?_⟩
    simp only [Group.setSlot_frames, Group.dropFrames] at he
    simpa using (List.mem_filter.1 he).2
  · have hq : ¬((p.jump s.now t).joinNo ≠ none ∧ (p.jump s.now t).pc = (p.jump s.now t).joinPc) := hout
    refine ⟨p.jump s.now t, ?_, rfl, rfl, rfl, rfl, rfl, rfl, rfl, fun h => if_neg (BitVec.not_le.2 h)⟩
    have hj : (s.grp.modSlot z fun p => p.jump s.now t).arrive (s.now + 1) z = s.grp.setSlot z (some (p.jump s.now t)) := by
      rw [Group.arrive, Group.modSlot, hs]
      exact resolve_stays (Group.slot_setSlot ..) hq
    simp only [State.jump, State.setGrp, hj]

end Sys2Proof.Machine.Claim
end

section
/-! Waits, system registers and privilege (spec 09_control R110 to R118; R137, R366). -/
namespace Sys2Proof.Machine.Claim

/-! ### O28 -/

theorem over_of_within {g : Group} {ld st cp sy : Nat} (h1 : g.ld ≤ ld) (h2 : g.stc ≤ st) (h3 : g.cp ≤ cp) (h4 : g.sy ≤ sy)
    (k : Completion) : g.over ld st cp sy k = false := by
  unfold Group.over
  split <;> simp only [decide_eq_false_iff_not, not_lt, *]
/-- Within the limits no completion ends. -/
theorem reduce_of_within {g : Group} {ld st cp sy : Nat} (h1 : g.ld ≤ ld) (h2 : g.stc ≤ st) (h3 : g.cp ≤ cp) (h4 : g.sy ≤ sy) :
    g.reduce ld st cp sy = g := by
  unfold Group.reduce
  induction g.pend.filter fun k => k.due.isNone with
  | nil => rfl
  | cons k r ih =>
    rw [List.foldl_cons, over_of_within h1 h2 h3 h4, if_neg Bool.false_ne_true]
    exact ih

theorem tokFaultOf_none {m : BitVec 8} {l : Store (BitVec 8 × Word)}
    (h : ∀ k : Nat, m.getLsbD k = true → ∀ e ∈ l, e.1 ≠ k) : tokFaultOf m l = none := by
  rw [tokFaultOf, List.findSome?_eq_none_iff]
  intro k hk
  have hf : (l.find? fun e => e.1 == k) = none := by
    rw [List.find?_eq_none]
    exact fun e he => by simpa using h k (List.mem_filter.1 hk).2 e he
  rw [hf]
  rfl

@[simp] theorem acquireMe_grp (s : State) (p : Machine.Path) : (s.acquireMe p).grp = s.grp := rfl
@[simp] theorem spend_tokFault (s : State) (sc : Sched) : (s.spend sc).grp.tokFault = s.grp.tokFault := by
  rw [State.spend, State.setGrp_grp, lowerCtr_eq]

/-- Settles O28. -/
theorem countedAndTokenWaits : Obligations.CountedAndTokenWaits := by
  unfold Obligations.CountedAndTokenWaits
  intro u ld st cp sy m s z p
  refine ⟨fun h => ?_, fun h => ?_⟩
  · intro r h1 h2 h3 h4
    have hx : exec (.cwait u ld st cp sy) s = _ := congrArg Host.Outcome.next (issueU_ready h _)
    have hw : r.state.grp.within ld.toNat st.toNat cp.toNat sy.toNat = true := by
      simp only [Group.within, h1, h2, h3, h4, decide_true, Bool.and_self]
    rw [hx]
    dsimp only
    rw [reduce_of_within h1 h2 h3 h4, if_pos hw]
  · have hx : exec (.twait u m) s = _ := congrArg Host.Outcome.next (issueU_ready h _)
    intro r t
    have ht : t.grp.tokFault = r.state.grp.tokFault := by
      rw [acquireMe_grp, spend_tokFault]
    rw [hx]
    refine ⟨fun hb hf => ?_, fun hb k cause addr hf => ?_, fun hb => ?_⟩
    · dsimp only
      rw [if_pos hb, ht, tokFaultOf_none hf]
    · dsimp only
      rw [if_pos hb, ht, hf]
    · dsimp only
      rw [if_neg hb]

/-! ### O29 -/

section
variable {g : Group} {p q : Machine.Path}

theorem frameOf_of_frame (h : q.frame = p.frame) : g.frameOf q = g.frameOf p := by
  unfold Group.frameOf
  rw [h]
theorem trapFrame_of_frame (h : q.frame = p.frame) : g.trapFrame q = g.trapFrame p := by
  unfold Group.trapFrame
  rw [frameOf_of_frame h]
/-- A system register depends on a path by its frame only. -/
theorem readSys_of_frame (s : State) (k : SysReg) (h : q.frame = p.frame) : readSys s q k = readSys s p k := by
  unfold readSys
  simp only [frameOf_of_frame h, trapFrame_of_frame h]
theorem writeSys_of_frame (k : SysReg) (w : Word) (h : q.frame = p.frame) : writeSys g q k w = writeSys g p k w := by
  unfold writeSys
  simp only [trapFrame_of_frame h, h]
/-- A move to a system register leaves the paths as they are. -/
theorem writeSys_slots (g : Group) (p : Machine.Path) (k : SysReg) (w : Word) :
    (writeSys g p k w).slot0 = g.slot0 ∧ (writeSys g p k w).slot1 = g.slot1 := by
  unfold writeSys
  cases k <;> dsimp only <;> (try split) <;> exact ⟨rfl, rfl⟩
theorem writeSys_slot (g : Group) (p : Machine.Path) (k : SysReg) (w : Word) (z : Bool) :
    (writeSys g p k w).slot z = g.slot z := by
  simp only [Group.slot, writeSys_slots]
theorem setSlot_self {z : Bool} (h : g.slot z = some p) : g.setSlot z (some p) = g := by
  cases z <;> simp only [Group.slot, Bool.false_eq_true, if_false, if_true] at h <;>
    simp only [Group.setSlot, ← h, Bool.false_eq_true, if_false, if_true]
end

theorem hresFault_none {g : Group} {p : Machine.Path} {k : SysReg} {w : Word} (h : k ≠ .hres) : hresFault g p k w = none := if_neg h

/-- Settles O29. -/
theorem systemRegisterMoves : Obligations.SystemRegisterMoves := by
  unfold Obligations.SystemRegisterMoves
  intro c d a k s z p
  refine ⟨fun h => ⟨_, congrArg Host.Outcome.next (issue_ready h _), ?_⟩, fun h hk => ?_⟩
  · exact writesReg_wrReg _ _ _ _ _
  · have hx : exec (.mts c a k) s = _ := congrArg Host.Outcome.next (issue_ready h _)
    intro r
    rw [hx]
    refine ⟨fun h0 => ?_, fun l hl => ?_⟩
    · have hn : lowest r.act = none := by rw [h0]; rfl
      dsimp only
      rw [hn]
    · intro x
      dsimp only
      rw [hl]
      dsimp only
      refine ⟨fun hn => ?_, fun hn => ?_⟩
      · have hx : (!(rdSrc r.state z c.ix a.src l).isNum) = false := by simp only [x] at hn; rw [hn]; rfl
        have hs : (writeSys r.state.grp p k x.pay).slot z = some r.path := by
          rw [writeSys_slot]
          exact issued_slot ..
        rw [hx, if_neg Bool.false_ne_true, hresFault_none hk]
        dsimp only
        have he : ∀ g, writeSys g r.path k x.pay = writeSys g p k x.pay := fun g => writeSys_of_frame k _ rfl
        simp only [r, x] at he
        simp only [he]
        split
        · refine ⟨r.path, ?_, rfl⟩
          simp only [State.setGrp, setSlot_self hs]
          rfl
        · refine ⟨{ r.path with spin := { r.path.spin with changed := true } }, ?_, rfl⟩
          simp only [State.changed, State.setGrp, Group.modSlot, x] at hs ⊢
          rw [hs]
          rfl
      · have hx : (!(rdSrc r.state z c.ix a.src l).isNum) = true := by simp only [x] at hn; rw [hn]; rfl
        rw [hx, if_pos rfl]
        rfl

/-! ### O30 -/

section
variable {g : Group} {p : Machine.Path} {F : Machine.Frame → Machine.Frame}

/-- A path's frame after its change. -/
theorem frameOf_modFrame {n : Nat} (h : p.frame = some n) : (g.modFrame n F).frameOf p = (g.frameOf p).map F := by
  unfold Group.frameOf
  rw [h]
  dsimp only [Group.modFrame]
  induction g.frames with
  | nil => rfl
  | cons e r ih =>
    by_cases hn : e.1 = n
    · simp [hn]
    · simpa [hn] using ih
theorem trapFrame_some {f : Machine.Frame} (h : g.trapFrame p = some f) : ∃ n, p.frame = some n ∧ g.frameOf p = some f ∧ f.trap = true := by
  unfold Group.trapFrame at h
  split at h
  next k hk =>
    split at h
    next ht =>
      obtain rfl : k = f := by simpa using h
      cases hp : p.frame with
      | none => rw [Group.frameOf, hp] at hk; cases hk
      | some n => exact ⟨n, rfl, hk, ht⟩
    · cases h
  · cases h
/-- A path's trap frame after a change that leaves it a trap frame. -/
theorem trapFrame_modFrame {n : Nat} {f : Machine.Frame} (h : g.trapFrame p = some f) (hn : p.frame = some n)
    (ht : (F f).trap = f.trap) : (g.modFrame n F).trapFrame p = some (F f) := by
  obtain ⟨_, _, hf, hft⟩ := trapFrame_some h
  simp only [Group.trapFrame, frameOf_modFrame hn, hf, Option.map_some, ht, hft, if_true]
end

theorem and_allOnes64 (w : Word) : w &&& 0xFFFFFFFFFFFFFFFF = w := BitVec.and_allOnes

section
variable (s : State) (p : Machine.Path) (w : Word)

/-- The three registers of a trap, which a path in a trap frame has of its own. -/
theorem trapRegs_written :
    readSys { s with grp := writeSys s.grp p .fcause w } p .fcause = w &&& 0xFF ∧
    readSys { s with grp := writeSys s.grp p .faddr w } p .faddr = w ∧
    readSys { s with grp := writeSys s.grp p .tcode w } p .tcode = w &&& 0xFFFFFFFF := by
  cases h : s.grp.trapFrame p with
  | none =>
    have h' : ∀ a b c, Group.trapFrame { s.grp with fcause := a, faddr := b, tcode := c } p = none := fun _ _ _ => h
    simp only [readSys, writeSys, h]
    simp only [h', sysMask, and_allOnes64, and_self]
  | some f =>
    obtain ⟨n, hn, -, -⟩ := trapFrame_some h
    simp only [readSys, writeSys, h, hn]
    rw [trapFrame_modFrame h hn rfl, trapFrame_modFrame h hn rfl, trapFrame_modFrame h hn rfl]
    simp only [sysMask, and_allOnes64, and_self]
theorem hres_written (h : (s.grp.frameOf p).isSome = true) :
    readSys { s with grp := writeSys s.grp p .hres w } p .hres = w &&& 0x81FF := by
  obtain ⟨f, hf⟩ := Option.isSome_iff_exists.1 h
  cases hn : p.frame with
  | none => rw [Group.frameOf, hn] at hf; cases hf
  | some n =>
    simp only [readSys, writeSys, hn, frameOf_modFrame hn, hf, Option.map_some]
    rfl
/-- Outside a handler every register of a handler frame reads 0. -/
theorem handlerRegs_zero (h : p.frame = none) {k : SysReg} (hk : k ∈ [SysReg.hop, .hsa, .hsb, .hsc, .hdst, .hres, .hpc]) :
    readSys s p k = 0 := by
  have hf : s.grp.frameOf p = none := by rw [Group.frameOf, h]
  simp only [List.mem_cons, List.not_mem_nil, or_false] at hk
  rcases hk with rfl | rfl | rfl | rfl | rfl | rfl | rfl <;> simp only [readSys, hf]
end

/-- Settles O30. -/
theorem systemRegisterContents : Obligations.SystemRegisterContents := by
  unfold Obligations.SystemRegisterContents
  intro s p w after
  obtain ⟨h1, h2, h3⟩ := trapRegs_written s p w
  refine ⟨fun n => ?_, and_allOnes64 w, rfl, rfl, rfl, rfl, rfl, rfl, rfl, fun h0 => ?_, h1, h2, h3, hres_written s p w, fun h => ?_, rfl, rfl, rfl, rfl⟩
  · exact (sget_sput_self _ _ _ _).trans (and_allOnes64 w)
  · have hz : s.grp.gcmode &&& 1 = 0 := by
      ext i hi
      rcases Nat.eq_zero_or_pos i with rfl | h
      · simpa using h0
      · simp [show i ≠ 0 by omega]
    change (w &&& 6) ||| (s.grp.gcmode &&& 1) = _
    rw [hz]
    exact BitVec.or_zero
  · exact ⟨handlerRegs_zero s p h (by simp), handlerRegs_zero s p h (by simp), handlerRegs_zero s p h (by simp),
      handlerRegs_zero s p h (by simp), handlerRegs_zero s p h (by simp), handlerRegs_zero s p h (by simp),
      handlerRegs_zero s p h (by simp)⟩

/-! ### O31 -/

theorem regsOnly_settle (g : Group) (now : Nat) : RegsOnly g (g.settle now) := regsOnly_finishWhere _ _

/-- An instruction of runtime level in user mode faults before anything of its own takes place. -/
theorem issueAs_modeFault {i : Instr} {sc : Sched} {gd : Guard} {ix : BitVec 3} {s : State} {z : Bool} {p : Machine.Path} {cause : BitVec 8}
    (hc : s.cur = some (z, p)) (hu : p.user = true) (hm : modeFault i = some cause) (body : Bool → Machine.Path → Mask → State → State) :
    issueAs i sc gd ix s body =
      (if p.redo = none ∧ p.wait = .none then dueState s else (dueState s).setGrp fun g => g.lowerCtr sc.cnt).trap i cause
        (p.pc.setWidth 64) p.mask := by
  have h1 : (dueState s).cur = some (z, p) := by
    rw [← hc]
    simp only [State.cur, dueState, State.setGrp, (regsOnly_settle _ _).slot]
  have h2 : ((dueState s).setGrp fun g => g.lowerCtr sc.cnt).cur = some (z, p) := by
    rw [← h1]
    simp only [State.cur, State.setGrp, (regsOnly_lowerCtr _ _).slot]
  have hf : p.first = true ↔ p.redo = none ∧ p.wait = .none := by simp [Machine.Path.first]
  unfold issueAs
  simp only [hc, hu, hm, if_true]
  by_cases hp : p.redo = none ∧ p.wait = .none
  · rw [if_pos hp, if_pos (hf.2 hp)]
    change (dueState s).trapHere i cause = _
    rw [State.trapHere, h1]
  · rw [if_neg hp, if_neg (fun h => hp (hf.1 h))]
    change ((dueState s).setGrp _).trapHere i cause = _
    rw [State.trapHere, h2]

/-- A group with a single path (R112). -/
theorem single_iff {g : Group} {z : Bool} : g.single z = true ↔ g.slot (!z) = none ∧ g.stack = [] ∧ g.under = [] := by
  simp [Group.single, Group.pdepth, Nat.add_eq_zero_iff]

/-- Settles O31. -/
theorem privilegeAndRegions : Obligations.PrivilegeAndRegions := by
  unfold Obligations.PrivilegeAndRegions
  refine ⟨fun c d a x y e q o off s z p hc hu => ⟨fun i hi => ?_, fun k hk => ?_⟩, fun u s z p => ⟨fun h => ?_, fun h => ?_⟩⟩
  · simp only [List.mem_cons, List.not_mem_nil, or_false] at hi
    rcases hi with rfl | rfl | rfl | rfl | rfl | rfl | rfl | rfl | rfl | rfl <;>
      exact congrArg Host.Outcome.next (issueAs_modeFault hc hu rfl _)
  · refine congrArg Host.Outcome.next (issueAs_modeFault hc hu ?_ _)
    simp only [List.mem_cons, List.not_mem_nil, or_false] at hk
    rcases hk with rfl | rfl | rfl | rfl | rfl | rfl | rfl | rfl | rfl <;> rfl
  · have hx : exec (.idem u) s = _ := congrArg Host.Outcome.next (issueU_ready h _)
    intro r t single
    rw [hx]
    exact ⟨fun h1 => congrArg _ (if_pos (single_iff.2 h1)), fun h1 => congrArg _ (if_neg fun h2 => h1 (single_iff.1 h2))⟩
  · have hx : exec (.idend u) s = _ := congrArg Host.Outcome.next (issueU_ready h _)
    intro r t single
    rw [hx]
    exact ⟨fun h1 => congrArg _ (if_pos (single_iff.2 h1)), fun h1 => congrArg _ (if_neg fun h2 => h1 (single_iff.1 h2))⟩

end Sys2Proof.Machine.Claim
end

section
/-! What the registration of stores leaves unchanged (spec 17_model R205 to R209), and the effects of the system instructions (spec
09_control R114, R119 to R121; 15_memory R197, R198). -/
namespace Sys2Proof.Machine.Claim

/-! ### What a registered write leaves unchanged -/

/-- What the registration of writes may change of a state: memory, its tags and what the caches, the host and the device's counters
hold of it, and of the groups the demotion of their paths. -/
def RegFrame (s t : State) : Prop :=
  ∃ mem tags spd spdTags chp chpTags written l1 own hostLines hostReqs hostHeld hdr outs dev groups p0 p1,
    t = { s with
      mem := mem, tags := tags, spd := spd, spdTags := spdTags, chp := chp, chpTags := chpTags, written := written, l1 := l1, own := own
      hostLines := hostLines, hostReqs := hostReqs, hostHeld := hostHeld, hdr := hdr, outs := outs, dev := dev, groups := groups
      grp := { s.grp with slot0 := p0, slot1 := p1 } }

theorem RegFrame.refl (s : State) : RegFrame s s := ⟨_, _, _, _, _, _, _, _, _, _, _, _, _, _, _, _, _, _, rfl⟩
theorem RegFrame.trans {s t u : State} (h : RegFrame s t) (k : RegFrame t u) : RegFrame s u := by
  obtain ⟨_, _, _, _, _, _, _, _, _, _, _, _, _, _, _, _, _, _, rfl⟩ := h
  obtain ⟨_, _, _, _, _, _, _, _, _, _, _, _, _, _, _, _, _, _, rfl⟩ := k
  exact ⟨_, _, _, _, _, _, _, _, _, _, _, _, _, _, _, _, _, _, rfl⟩
/-- It holds of a fold of changes that have it. -/
theorem regFrame_foldl {α : Type} {f : State → α → State} (h : ∀ s x, RegFrame s (f s x)) (l : List α) (s : State) :
    RegFrame s (l.foldl f s) := by
  induction l generalizing s with
  | nil => exact .refl s
  | cons x r ih => exact (h s x).trans (ih _)

theorem regFrame_ite {c : Prop} [Decidable c] {s t u : State} (h : RegFrame s t) (k : RegFrame s u) :
    RegFrame s (if c then t else u) := by
  split
  · exact h
  · exact k

section
variable (s : State) (core line w : Nat)

theorem regFrame_dropFrom (pdie pa : Nat) : RegFrame s (s.dropFrom pdie pa) := by
  obtain ⟨d, h⟩ := dropFrom_rest s pdie pa
  rw [h]
  exact ⟨_, _, _, _, _, _, _, _, _, _, _, _, _, _, _, _, _, _, rfl⟩
theorem regFrame_disown : RegFrame s (((s.disownLine core line).dropLine core line).setLine core line .i) :=
  ⟨_, _, _, _, _, _, _, _, _, _, _, _, _, _, _, _, _, _, rfl⟩
theorem regFrame_emit (o : Out) : RegFrame s (s.emit o) := ⟨_, _, _, _, _, _, _, _, _, _, _, _, _, _, _, _, _, _, rfl⟩
theorem regFrame_snoopInv : RegFrame s (s.snoopInv core line) := by
  unfold State.snoopInv
  refine (regFrame_ite (regFrame_emit s (.line core line (s.lineBytes line))) (.refl s)).trans (regFrame_ite (.refl _) ?_)
  exact regFrame_disown ..
theorem regFrame_askOwn : RegFrame s (s.askOwn core line) := by
  unfold State.askOwn
  dsimp only
  split
  · exact .refl s
  · exact ⟨_, _, _, _, _, _, _, _, _, _, _, _, _, _, _, _, _, _, rfl⟩
  all_goals
    have h := (regFrame_emit s (.cache .rdOwn core line [])).trans
      (regFrame_foldl (f := fun s c => s.snoopInv c line) (fun _ _ => regFrame_snoopInv ..)
        ((s.emit (.cache .rdOwn core line [])).otherHolders core line) _)
    generalize List.foldl (fun (s : State) c => s.snoopInv c line) _ _ = t at h ⊢
    exact h.trans ⟨_, _, _, _, _, _, _, _, _, _, _, _, _, _, _, _, _, _, rfl⟩
theorem regFrame_snoopAll : RegFrame s (s.snoopAll line) := regFrame_foldl (fun _ _ => regFrame_snoopInv ..) _ _
theorem regFrame_evictLine : RegFrame s (s.evictLine core line) := by
  unfold State.evictLine
  dsimp only
  refine RegFrame.trans ?_ (regFrame_disown ..)
  split
  · split
    · exact .refl s
    · exact regFrame_emit ..
    all_goals exact regFrame_emit ..
  · exact .refl s
theorem regFrame_fitL1 : RegFrame s (s.fitL1 core w) := by
  unfold State.fitL1
  dsimp only
  split
  · exact .refl s
  · exact regFrame_foldl (fun _ _ => regFrame_evictLine ..) _ _
theorem regFrame_wakeSector (by_ : Option Writer) : RegFrame s (s.wakeSector w by_) := by
  unfold State.wakeSector State.modGroups
  dsimp only
  split <;> exact ⟨_, _, _, _, _, _, _, _, _, _, _, _, _, _, _, _, _, _, rfl⟩
theorem regFrame_markDirty : RegFrame s (s.markDirty w) := by
  unfold State.markDirty
  split
  next => exact .refl s
  next => exact .refl s
  next => exact .refl s
  next =>
    split
    next =>
      dsimp only
      split
      · split <;> exact ⟨_, _, _, _, _, _, _, _, _, _, _, _, _, _, _, _, _, _, rfl⟩
      · exact .refl s
    next => exact .refl s
theorem regFrame_backInvalidate : RegFrame s (s.backInvalidate w) := by
  unfold State.backInvalidate
  split
  · exact ⟨_, _, _, _, _, _, _, _, _, _, _, _, _, _, _, _, _, _, rfl⟩
  · exact .refl s
theorem regFrame_regMem (by_ : Option Writer) (cached : Bool) (x : Val) : RegFrame s (s.regMem by_ cached w x) := by
  unfold State.regMem
  dsimp only
  refine (RegFrame.trans ?_ (regFrame_wakeSector ..)).trans ((regFrame_markDirty ..).trans (regFrame_backInvalidate ..))
  refine RegFrame.trans (t := if by_.isNone && isHost w then s.snoopAll (w / 16) else s) ?_ ?_
  · split
    · exact regFrame_snoopAll ..
    · exact .refl s
  · generalize (if by_.isNone && isHost w then s.snoopAll (w / 16) else s) = t
    cases by_ with
    | none => cases cached <;> exact ⟨_, _, _, _, _, _, _, _, _, _, _, _, _, _, _, _, _, _, rfl⟩
    | some c =>
      cases cached with
      | false => exact ⟨_, _, _, _, _, _, _, _, _, _, _, _, _, _, _, _, _, _, rfl⟩
      | true =>
        refine RegFrame.trans ?_ (regFrame_fitL1 ..)
        exact ⟨_, _, _, _, _, _, _, _, _, _, _, _, _, _, _, _, _, _, rfl⟩
theorem regFrame_putBank (by_ : Option Writer) (b : Bank) (x : Val) : RegFrame s (s.putBank by_ b w x) := by
  refine RegFrame.trans ?_ (regFrame_wakeSector ..)
  cases b <;> exact ⟨_, _, _, _, _, _, _, _, _, _, _, _, _, _, _, _, _, _, rfl⟩
theorem regFrame_regOne (p : PendStore) : RegFrame s (s.regOne p) := by
  unfold State.regOne
  split
  next b w _ =>
    dsimp only
    cases b with
    | spd =>
      exact (regFrame_putBank s w (some p.writer) .spd _).trans ⟨_, _, _, _, _, _, _, _, _, _, _, _, _, _, _, _, _, _, rfl⟩
    | chp => exact regFrame_putBank s w (some p.writer) .chp _
  next =>
    split
    · exact regFrame_dropFrom ..
    · dsimp only
      refine RegFrame.trans ?_ (regFrame_regMem ..)
      split
      · exact regFrame_askOwn ..
      · exact .refl s
end

theorem RegFrame.stores {s t : State} (h : RegFrame s t) : t.stores = s.stores := by
  obtain ⟨_, _, _, _, _, _, _, _, _, _, _, _, _, _, _, _, _, _, rfl⟩ := h
  rfl

/-! ### Stores that are registered -/

theorem regStore_stores (s : State) (p : PendStore) : (s.regStore p).stores = s.stores.filter fun q => !q.pins p :=
  (regFrame_foldl regFrame_regOne _ _).stores
/-- The stores that a drain leaves satisfied its predicate not. -/
theorem mem_drain_stores {s : State} {q : PendStore → Bool} {x : PendStore} (h : x ∈ (s.drain q).stores) : q x = false := by
  have key : ∀ (l : List PendStore) (t : State), x ∈ (l.foldl State.regStore t).stores → x ∈ t.stores := by
    intro l
    induction l with
    | nil => exact fun _ h => h
    | cons p r ih =>
      intro t h
      have h1 := ih _ h
      rw [regStore_stores] at h1
      exact (List.mem_filter.1 h1).1
  have h1 := (List.mem_filter.1 (key _ _ h)).2
  simpa using h1
theorem drain_stores_filter (s : State) (q : PendStore → Bool) : (s.drain q).stores.filter q = [] := by
  rw [List.filter_eq_nil_iff]
  exact fun x hx => by simp [mem_drain_stores hx]
/-- A drain registers stores: it changes what registration may change, and takes stores off the list. -/
theorem drain_frame (s : State) (q : PendStore → Bool) : ∃ st, RegFrame { s with stores := st } (s.drain q) := by
  have key : ∀ (l : List PendStore) (t : State), (∃ st, RegFrame { s with stores := st } t) →
      ∃ st, RegFrame { s with stores := st } (l.foldl State.regStore t) := by
    intro l
    induction l with
    | nil => exact fun _ h => h
    | cons p r ih =>
      rintro t ⟨st, h⟩
      refine ih _ ⟨t.stores.filter fun q => !q.pins p, ?_⟩
      refine RegFrame.trans ?_ (regFrame_foldl regFrame_regOne _ _)
      obtain ⟨_, _, _, _, _, _, _, _, _, _, _, _, _, _, _, _, _, _, rfl⟩ := h
      exact ⟨_, _, _, _, _, _, _, _, _, _, _, _, _, _, _, _, _, _, rfl⟩
  exact key _ _ ⟨_, .refl _⟩
theorem drainGroup_st (s : State) (blk grp : Nat) : (s.drainGroup blk grp).grp.st = s.grp.st := by
  obtain ⟨_, _, _, _, _, _, _, _, _, _, _, _, _, _, _, _, _, _, _, h⟩ := drain_frame s fun p => p.blk == blk && p.grp == grp
  rw [State.drainGroup, h]

/-! ### O32 -/

theorem lanes_laneBit {l : Nat} (h : l < 32) : lanes (laneBit l) = [l] := by
  revert l
  decide

/-- Settles O32. -/
theorem systemEffects : Obligations.SystemEffects := by
  unfold Obligations.SystemEffects
  intro c u line cls a e o l2 off s z p after act
  refine ⟨fun i hi h h0 => ?_, fun k h h0 hk => ?_, fun k l h hl hk => ?_, fun h h0 => ?_, fun k l h hl => ?_, fun h h0 => ?_,
    fun l x pte size t' h hl hl32 => ?_, fun h => ?_⟩
  · have hn : lowest (act i) = none := by rw [h0]; rfl
    have hz : lanes (act i) = [] := by rw [h0]; rfl
    simp only [List.mem_cons, List.not_mem_nil, or_false] at hi
    rcases hi with rfl | rfl | rfl | rfl | rfl | rfl <;> refine (congrArg Host.Outcome.next (issue_ready h _)).trans (congrArg _ ?_) <;>
      dsimp only
    · rw [if_pos h0]
    · rw [hn]
    · rw [if_pos h0]
    · rw [hn]
    · rw [if_pos h0]
    · rw [hz]
      rfl
  · refine (congrArg Host.Outcome.next (issue_ready h _)).trans (congrArg _ ?_)
    dsimp only
    rw [if_neg h0, hk]
    simp only [State.tlbi, Bool.and_true, bne]
    rfl
  · refine (congrArg Host.Outcome.next (issue_ready h _)).trans (congrArg _ ?_)
    dsimp only
    rw [hl, hk]
    simp only [State.tlbi, fld_zero]
    rfl
  · refine (congrArg Host.Outcome.next (issue_ready h _)).trans (congrArg _ ?_)
    dsimp only
    rw [if_neg h0]
  · intro t hk
    refine (congrArg Host.Outcome.next (issue_ready h _)).trans (congrArg _ ?_)
    dsimp only
    rw [hl, hk]
  · refine ⟨?_, drain_stores_filter ..⟩
    refine (congrArg Host.Outcome.next (issue_ready h _)).trans (congrArg _ ?_)
    dsimp only
    rw [if_neg h0] <;> rfl
  · intro t hx htag va hva htr hr hmt pa
    refine (congrArg Host.Outcome.next (issue_ready h _)).trans (congrArg _ ?_)
    dsimp only
    rw [show (issuedOf (.pref c l2 e off) c s z p).act = laneBit l from hl, lanes_laneBit hl32, List.foldl_cons, List.foldl_nil]
    rw [show rdSrc _ z c.ix e l = x from hx, if_pos htag, State.prefetch, if_neg (by omega), show State.translate _ _ _ _ = _ from htr]
    have hm : (pteMT pte == 2) = false := by simpa using hmt
    simp only [issued_path_user, hr, hm, Bool.or_false]
    cases l2 with
    | true => rfl
    | false => cases t'.reaches t'.grp.core pa <;> simp [pa, va]
  · intro r t
    have hx : exec (.svdone u) s = _ := congrArg Host.Outcome.next (issueU_ready h _)
    rw [hx]
    refine ⟨fun hj hs hc => congrArg _ ?_, fun hj hs hc k hk => congrArg _ ?_, fun hn => congrArg _ (if_pos ?_)⟩
    · dsimp only
      have hs' : (t.drainGroup t.grp.blk t.grp.grp).grp.st = .saving := (drainGroup_st ..).trans hs
      have h1 : ¬((p.joinNo.isSome || !(t.grp.st == .saving || t.grp.st == .restoring)) = true) := by simp [hj, hs]
      exact (if_neg h1).trans ((if_neg (fun e => Bool.false_ne_true (hc.symm.trans e))).trans (if_pos hs'))
    · dsimp only
      have hs' : ¬(t.drainGroup t.grp.blk t.grp.grp).grp.st = .saving := by
        rw [drainGroup_st, hs]
        decide
      have h1 : ¬((p.joinNo.isSome || !(t.grp.st == .saving || t.grp.st == .restoring)) = true) := by simp [hj, hs]
      refine (if_neg h1).trans ((if_neg (fun e => Bool.false_ne_true (hc.symm.trans e))).trans ((if_neg hs').trans ?_))
      rw [show State.blk? _ _ = _ from hk]
    · rcases hn with hn | ⟨h1, h2⟩
      · rw [show (issuedU (.svdone u) u s z p).path.joinNo = p.joinNo from rfl]
        simp [Option.isSome_iff_ne_none.2 hn]
      · have h1' : (t.grp.st == .saving) = false := by simpa using h1
        have h2' : (t.grp.st == .restoring) = false := by simpa using h2
        simp only [t, r] at h1' h2'
        rw [h1', h2']
        simp

end Sys2Proof.Machine.Claim
end

section
/-! A memory instruction of one lane that performs (spec 15_memory R186). -/
namespace Sys2Proof.Machine.Claim

/-! ### Masks of one lane -/

/-- The other lanes of a path are those that an issue of one lane leaves out. -/
theorem and_not_rest (a m : Mask) : a &&& ~~~(m &&& ~~~a) = a := by
  ext i hi
  simp only [BitVec.getElem_and, BitVec.getElem_not, Bool.not_and, Bool.not_not]
  cases a[i] <;> simp
theorem and_not_done (a : Mask) : a &&& ~~~(0 ||| a &&& ~~~(a ||| 0)) = a := by
  ext i hi
  simp only [BitVec.getElem_and, BitVec.getElem_not, BitVec.getElem_or, BitVec.ofNat_eq_ofNat, BitVec.getElem_zero]
  cases a[i] <;> rfl
theorem maskOf_one (l : Nat) : maskOf [l] = laneBit l := BitVec.zero_or

/-! ### Steps 1 to 3 -/

section
variable {k : MemOp} {r : Issue} {z : Bool} {p : Machine.Path} {l va : Nat} {h : Home} {acq : Bool} {s t : State} {o out : LaneOut}

theorem locateLane_names (dead : Dead) : (s.locateLane p k dead l va).1.l = l ∧ (s.locateLane p k dead l va).1.va = va := by
  unfold State.locateLane
  dsimp only
  split
  · exact ⟨rfl, rfl⟩
  · split <;> exact ⟨rfl, rfl⟩
theorem form2_at {v : Nat} (dead : s.form2 p k l (.at va) = .at v) : v = va := by
  unfold State.form2 at dead
  split at dead
  next h _ =>
    dsimp only at dead
    cases h
    split at dead
    · split at dead
      · cases dead
        rfl
      next hn => exact absurd dead (hn v)
    · cases dead
  next => cases dead; rfl

/-- What `oneLane` says of the steps. -/
theorem oneLane_some (hl : oneLane k r l = some (va, h, acq, t)) :
    l < 32 ∧ r.act = laneBit l ∧ k.check l = none ∧ ∃ u fva, (r.state.before r.path k.ord).formLane r.path k [] false l = (.at va, acq, u) ∧
      u.form2 r.path k l (.at va) = .at va ∧ u.locateLane r.path k [] l va = (⟨l, va, .home h, fva, []⟩, t) := by
  unfold oneLane at hl
  split at hl
  next hc =>
    refine ⟨hc.1, hc.2.1, hc.2.2, ?_⟩
    split at hl
    next v a u hf =>
      split at hl
      next v' hf2 =>
        split at hl
        next x va' hh fva t' hloc =>
          obtain ⟨h1, h2⟩ := locateLane_names (s := u) (p := r.path) (k := k) (l := l) (va := v) []
          rw [hloc] at h1 h2
          cases hl
          cases h1
          cases h2
          cases form2_at hf2
          exact ⟨u, fva, hf, hf2, hloc⟩
        next => cases hl
      next => cases hl
    next => cases hl
  next => cases hl

/-- The barrier keeps the lane of what it lets through. -/
theorem barVals_lane {dead : Dead} {vs got : List Val} {acq' : Bool} (hb : State.barVals p z k dead o vs got acq s = (.done out, acq', t)) :
    out.lane = o.lane := by
  induction vs generalizing got acq s with
  | nil => cases hb; rfl
  | cons v r ih =>
    rw [State.barVals] at hb
    split at hb
    · exact ih hb
    · cases hb; rfl
    all_goals cases hb

/-- What `performs` says of the steps: the lane performs and passes the barrier. -/
theorem performs_some (hp : performs k r z l = some (out, t)) :
    ∃ va h acq u o v acq', oneLane k r l = some (va, h, acq, u) ∧ k.one (r.state.me r.path) l va h u = (.ok o, v) ∧
      State.sweepBar r.path z k [] [o] acq ⟨[], [], [], [], acq⟩ (v.accessed (r.state.me r.path) k h) = (⟨[out], [], [], [], acq'⟩, t) ∧
      out.lane = l ∧ out.raise = none := by
  unfold performs at hp
  split at hp
  next va h acq u h1 =>
    split at hp
    next o v h2 =>
      dsimp only at hp
      split at hp
      · cases hp
      next hn =>
        simp only [Bool.or_eq_true, not_or, Bool.not_eq_true, Option.isSome_eq_false_iff, Option.isNone_iff_eq_none, bne_eq_false_iff_eq] at hn
        obtain ⟨hr, hlane⟩ := hn
        split at hp
        next hk =>
          split at hp
          next o' acq' t' hb =>
            split at hp
            · cases hp
            next hr' =>
              cases hp
              refine ⟨va, h, acq, u, o, v, acq', h1, h2, ?_, (barVals_lane hb).trans hlane, by simpa using hr'⟩
              rw [State.sweepBar, hk, hr]
              rw [if_neg (by decide)]
              dsimp only
              rw [hb]
              rfl
          · cases hp
        next hk =>
          cases hp
          refine ⟨va, h, acq, u, out, v, acq, h1, h2, ?_, hlane, hr⟩
          rw [State.sweepBar, if_pos (by simp [hk])]
          rfl
    next => cases hp
  next => cases hp
end

theorem maskOf_nil : maskOf [] = 0 := rfl
theorem perform_one {me : Writer} {k : MemOp} {l va fva : Nat} {h : Home} {u v : State} {o : LaneOut}
    (hone : k.one me l va h u = (.ok o, v)) :
    State.perform me k [] [⟨l, va, .home h, fva, []⟩] u = (⟨[o], [], []⟩, v.accessed me k h) := by
  have hrun : State.runLanes me k 0 [⟨l, va, .home h, fva, []⟩] ⟨[], [], []⟩ u = (⟨[o], [], []⟩, v.accessed me k h) := by
    simp only [State.runLanes, List.isEmpty_nil, Bool.not_true, Bool.and_false, Bool.false_eq_true, if_false, List.contains_nil, hone,
      List.nil_append]
    exact if_neg (by simp)
  rw [State.perform, hrun]
  rfl

/-- Where its only Active lane performs, a memory instruction completes. -/
theorem memory_performs {k : MemOp} {s : State} {i : Instr} {sc : Sched} {gd : Guard} {ix : BitVec 3} {z : Bool} {p : Machine.Path}
    {l : Nat} {out : LaneOut} {t : State} (hr : p.redo = none) (hp : performs k (s.issued i sc gd ix z p) z l = some (out, t)) :
    (s.issued i sc gd ix z p).state.memory i sc z (s.issued i sc gd ix z p).path (s.issued i sc gd ix z p).act k =
      (t.after (s.issued i sc gd ix z p).path k.ord).finish z sc .variable (s.issued i sc gd ix z p).act (k.out [out]) := by
  have hredo : (s.issued i sc gd ix z p).path.redo = none := hr
  generalize s.issued i sc gd ix z p = r at hp hredo
  obtain ⟨va, h, acq, u, o, v, acq', h1, hone, hsweep, hlane, hraise⟩ := performs_some hp
  obtain ⟨hl, hact, hcheck, w, fva, hform, hform2, hloc⟩ := oneLane_some h1
  have hdead : r.path.dead = [] := by rw [Machine.Path.dead, hredo]
  have hn0 : r.act ≠ 0 := by rw [hact]; exact laneBit_ne_zero hl
  have hlanes : lanes r.act = [l] := by rw [hact, lanes_laneBit hl]
  unfold State.memory
  simp only [hdead, hredo, Option.map_none, Option.getD_none, and_not_rest, hn0, ne_eq, not_false_eq_true, Option.isNone_none, and_self,
    if_true, hlanes, List.any_nil, Bool.not_false, List.filter_true, State.formAll, hform, hform2, List.foldl_cons, List.foldl_nil,
    List.isEmpty_nil, Bool.not_true, Bool.false_eq_true, if_false, List.filterMap_cons, List.filterMap_nil, lowestBad,
    List.findSome?_cons, List.findSome?_nil, hcheck, State.locateAll, hloc]
  rw [perform_one hone]
  simp only [List.nil_append, List.append_nil, hsweep, List.map_cons, List.map_nil, hlane, maskOf_one, ← hact, maskOf_nil, hraise,
    List.filterMap_cons, List.filterMap_nil, List.filter_cons, List.filter_nil, Option.isNone_none, Bool.true_or, if_true, stopOf, lowestBad]
  rw [if_pos ⟨trivial, trivial⟩, and_not_done]
  rfl

/-- Settles O33. -/
theorem memoryCompletes : Obligations.MemoryCompletes := by
  unfold Obligations.MemoryCompletes
  intro c ty op sp o heal obj q pen ak d a x y dv xv yv off s z p e he
  simp only [List.mem_cons, List.not_mem_nil, or_false] at he
  rcases he with rfl | rfl | rfl | rfl | rfl | rfl | rfl | rfl | rfl | rfl | rfl | rfl <;>
    exact fun h l out t hp => (congrArg Host.Outcome.next (issue_ready h _)).trans (congrArg _ (memory_performs h.2.1 hp))

end Sys2Proof.Machine.Claim
end

section
/-! One lane of a load, a store and an atomic (spec 15_memory R187, R188, R191; 03_values R28 to R34). -/
namespace Sys2Proof.Machine.Claim

/-! ### What the tag of a word says -/

theorem tagFault_of_code {t : Tag} (h : t.code ≤ 10) (b : Bool) : tagFault t b = none := by
  revert h
  cases t <;> simp [Tag.code, tagFault]
theorem tagFault_protected {t : Tag} {b : Bool} (h : t = .pend ∨ t = .link ∨ t = .fwd ∧ b = true) : tagFault t b = some 0x08 := by
  rcases h with rfl | rfl | ⟨rfl, rfl⟩ <;> rfl
theorem tagFault_reserved {t : Tag} {b : Bool} (h : t = .res14 ∨ t = .res15) : tagFault t b = some 0x03 := by
  rcases h with rfl | rfl <;> rfl
theorem loadMeets_of_code {l va : Nat} {x : Val} (h : x.tag.code ≤ 10) : loadMeets l va x = none := by
  unfold loadMeets
  revert h
  cases x.tag <;> simp [Tag.code]

/-- The raise of a lane that meets a word of the promise or the forwarding class. -/
def loadRaise (l va cls : Nat) (x : Val) : LaneRes :=
  .ok (.up l va ⟨l, cls, x.tag.code, 0, .int (BitVec.ofNat 64 (wordOf va)), Val.nil, Val.nil⟩)
theorem loadMeets_unfilled {l va : Nat} {x : Val} (h : x.tag = .pend ∨ x.tag = .link) : loadMeets l va x = some (loadRaise l va 49 x) := by
  unfold loadMeets
  rcases h with h | h <;> rw [h] <;> rw [loadRaise, h]
theorem loadMeets_forwarded {l va : Nat} {x : Val} (h : x.tag = .fwd) : loadMeets l va x = some (loadRaise l va 50 x) := by
  unfold loadMeets
  rw [h]
  rw [loadRaise, h]
theorem loadMeets_reserved {l va : Nat} {x : Val} (h : x.tag = .res14 ∨ x.tag = .res15) :
    loadMeets l va x = some (.stop 0x03 (va - va % 8)) := by
  unfold loadMeets
  rcases h with h | h <;> rw [h] <;> rfl

/-! ### Loads and stores -/

section
variable (ty : Ty) (b : Bool) (me : Writer) (l va : Nat) (h : Home) (s : State)

theorem ldOne_eq : ldOne ty b me l va h s =
    match (if h.tagged then loadMeets l va (s.readHome me h).1 else none) with
    | some r => (r, (s.readHome me h).2.loaded b h.sector)
    | none => (.ok (.of l va [viewOf ty h (s.readHome me h).1] none), (s.readHome me h).2.loaded b h.sector) := rfl
/-- What a load meets in a tagged word. -/
theorem ldOne_meets {r : LaneRes} (ht : h.tagged = true) (hm : loadMeets l va (s.readHome me h).1 = some r) :
    ldOne ty b me l va h s = (r, (s.readHome me h).2.loaded b h.sector) := by
  rw [ldOne_eq, if_pos ht, hm]
theorem ldOne_reads (hm : h.tagged = false ∨ (s.readHome me h).1.tag.code ≤ 10) :
    ldOne ty b me l va h s =
      (.ok (.of l va [viewOf ty h (s.readHome me h).1] none), (s.readHome me h).2.loaded b h.sector) := by
  have hn : (if h.tagged then loadMeets l va (s.readHome me h).1 else none) = none := by
    rcases hm with hm | hm
    · rw [hm]; rfl
    · rw [loadMeets_of_code hm, ite_self]
  rw [ldOne_eq, hn]

variable (n : Nat) (user : Bool) (x : Nat → Val)
/-- A store stops on a stored tag that it respects. -/
theorem stOne_stops {cause : BitVec 8} (ht : s.storesTag h = true) (hf : tagFault (s.storeSees me h).tag user = some cause) :
    stOne n b user x me l va h s = (.stop cause va, s) := by
  unfold stOne
  rw [if_pos ht, hf]
theorem stOne_stores (hf : s.storesTag h = true → tagFault (s.storeSees me h).tag user = none) :
    stOne n b user x me l va h s = if n = 8 ∧ h.tagged = false ∧ boundTag (x l) = true then (.stop 0x08 va, s)
      else (.ok (.of l va [] none), (s.storeHome me h n (x l)).changed b) := by
  have hn : (if s.storesTag h then tagFault (s.storeSees me h).tag user else none) = none := by
    split
    next h => exact hf h
    · rfl
  unfold stOne
  rw [hn]
  simp only [Bool.not_eq_true']
end

/-! ### Atomics -/

/-- An atomic of a tagged word whose tag it takes. -/
theorem atomOne_tagged (op : AtomOp) (ty : Ty) (returns b user : Bool) (y k : Nat → Val) (me : Writer) (l va : Nat) (h : Home) (s : State)
    (hu : h.uncached = false) (ht : h.tagged = true) :
    atomOne op ty returns b user y k me l va h s =
      match tagFault (s.atHome me h).1.tag true with
      | some c => (.stop c va, (s.atHome me h).2.loaded b h.sector)
      | none =>
        (.ok (.of l va (if returns then [viewOf ty h (s.atHome me h).1] else [])
            (some (atomInvalid op ty ((s.atHome me h).1.pay.toNat / 2 ^ (8 * h.off) % 2 ^ ty.width)
              ((y l).pay.toNat % 2 ^ ty.width)))),
          if atomNew op ty h (s.atHome me h).1 (y l) (k l) = (s.atHome me h).1 then (s.atHome me h).2.loaded b h.sector
          else (((s.atHome me h).2.loaded b h.sector).putHome me h (ty.width / 8)
            (atomNew op ty h (s.atHome me h).1 (y l) (k l))).changed b) := by
  unfold atomOne
  simp only [hu, ht, Bool.false_eq_true, if_false, if_true, Bool.not_true, Bool.and_false, Bool.false_and]
  cases tagFault (s.atHome me h).1.tag true with
  | some c => rfl
  | none =>
    dsimp only
    split <;> rfl

theorem setFld_zero_64 (x : Word) (v : Nat) : setFld x 0 64 v = BitVec.ofNat 64 v := by
  have h : fld x 0 64 = x.toNat := by rw [fld_zero, Nat.mod_eq_of_lt x.isLt]
  apply BitVec.eq_of_toNat_eq
  simp [setFld, h]
/-- A field of 32 bits leaves the other half of the word. -/
theorem setFld_half {x : Word} {lo v j : Nat} (hlo : lo = 0 ∨ lo = 32) (hj : j < 64) (hout : ¬(lo ≤ j ∧ j < lo + 32)) :
    (setFld x lo 32 v).getLsbD j = x.getLsbD j := by
  have hx := x.isLt
  have hv : v % 2 ^ 32 < 2 ^ 32 := Nat.mod_lt _ (by decide)
  rcases hlo with rfl | rfl
  · have h1 : setFld x 0 32 v = BitVec.ofNat 64 (2 ^ 32 * (x.toNat / 2 ^ 32) + v % 2 ^ 32) := by
      unfold setFld fld
      congr 1
      omega
    have h2 : x = BitVec.ofNat 64 (2 ^ 32 * (x.toNat / 2 ^ 32) + x.toNat % 2 ^ 32) := by
      rw [Nat.div_add_mod]
      simp
    rw [h1]
    conv_rhs => rw [h2]
    simp only [BitVec.getLsbD_ofNat]
    rw [Nat.testBit_two_pow_mul_add _ hv, Nat.testBit_two_pow_mul_add _ (Nat.mod_lt _ (by decide)), if_neg (by omega), if_neg (by omega)]
  · have h1 : setFld x 32 32 v = BitVec.ofNat 64 (2 ^ 32 * (v % 2 ^ 32) + x.toNat % 2 ^ 32) := by
      unfold setFld fld
      congr 1
      omega
    have h2 : x = BitVec.ofNat 64 (2 ^ 32 * (x.toNat / 2 ^ 32) + x.toNat % 2 ^ 32) := by
      rw [Nat.div_add_mod]
      simp
    rw [h1]
    conv_rhs => rw [h2]
    simp only [BitVec.getLsbD_ofNat]
    rw [Nat.testBit_two_pow_mul_add _ (Nat.mod_lt _ (by decide)), Nat.testBit_two_pow_mul_add _ (Nat.mod_lt _ (by decide)),
      if_pos (by omega), if_pos (by omega)]

section
variable (op : AtomOp) (ty : Ty) {h : Home} (m y k : Val)

theorem atomNew_exch (hw : ty.width = 64) : atomNew .exch ty h m y k = y := by
  unfold atomNew
  dsimp only
  rw [hw]
  rfl
theorem atomNew_cas (hw : ty.width = 64) (ht : h.tagged = true) : atomNew .cas ty h m y k = if m = y then k else m := by
  unfold atomNew
  dsimp only
  rw [hw]
  simp [ht]
/-- The other operations on a whole word work on its payload. -/
theorem atomNew_pay (hw : ty.width = 64) (h0 : h.off = 0) (h1 : op ≠ .exch) (h2 : op ≠ .cas) :
    (atomNew op ty h m y k).pay = BitVec.ofNat 64 (atomBits op ty m.pay.toNat y.pay.toNat k.pay.toNat) := by
  unfold atomNew
  dsimp only
  rw [hw]
  have hm : ∀ x : Word, x.toNat % 2 ^ 64 = x.toNat := fun x => Nat.mod_eq_of_lt x.isLt
  cases op <;> simp only [ne_eq, not_true_eq_false, reduceCtorEq, not_false_eq_true] at h1 h2 <;>
    simp only [h0, Nat.mul_zero, Nat.pow_zero, Nat.div_one, hm, setFld_zero_64]
theorem atomNew_half (hw : ty.width = 32) :
    atomNew op ty h m y k = ⟨.raw, setFld m.pay (8 * h.off) 32
      (atomBits op ty (m.pay.toNat / 2 ^ (8 * h.off) % 2 ^ 32) (y.pay.toNat % 2 ^ 32) (k.pay.toNat % 2 ^ 32))⟩ := by
  unfold atomNew
  dsimp only
  rw [hw]
  cases op <;> rfl
end

theorem sgnNat_word (x : Word) : sgnNat 64 x.toNat = x.toInt := sgnNat_toNat (by decide) x
theorem atomBits_min (x y : Word) (c : Nat) : atomBits .min .i64 x.toNat y.toNat c = if x.toInt ≤ y.toInt then x.toNat else y.toNat := by
  have hs : atomSigned .i64 = true := rfl
  simp only [atomBits, hs, Ty.width, sgnNat_word, if_true, decide_eq_true_eq]
theorem atomBits_max (x y : Word) (c : Nat) : atomBits .max .i64 x.toNat y.toNat c = if x.toInt ≤ y.toInt then y.toNat else x.toNat := by
  have hs : atomSigned .i64 = true := rfl
  simp only [atomBits, hs, Ty.width, sgnNat_word, if_true, decide_eq_true_eq]

/-- Settles O34. -/
theorem loadStoreAndAtomicLanes : Obligations.LoadStoreAndAtomicLanes := by
  unfold Obligations.LoadStoreAndAtomicLanes
  refine ⟨fun ty n b user x me l va h s => ⟨?_, ?_⟩, fun op ty returns b user y k me l va h s => ⟨fun hu => if_pos hu, fun hu ht => ?_⟩⟩
  · intro v t raised
    exact ⟨fun hm => ldOne_reads ty b me l va h s hm, fun ht hm => ldOne_meets ty b me l va h s ht (loadMeets_unfilled hm),
      fun ht hm => ldOne_meets ty b me l va h s ht (loadMeets_forwarded hm),
      fun ht hm => ldOne_meets ty b me l va h s ht (loadMeets_reserved hm)⟩
  · intro w bad
    refine ⟨fun ht hm => stOne_stops b me l va h s n user x ht (tagFault_protected hm),
      fun ht hm => stOne_stops b me l va h s n user x ht (tagFault_reserved hm), fun hm => ?_⟩
    rw [stOne_stores b me l va h s n user x fun ht => ?_]
    · have hb : bad = true ↔ n = 8 ∧ h.tagged = false ∧ boundTag (x l) = true := by
        simp only [bad, boundTag, Bool.and_eq_true, Bool.not_eq_true', beq_iff_eq, Bool.or_eq_true]
        tauto
      simp only [hb]
      rfl
    · rcases hm with hm | hm | ⟨hm, hu⟩
      · rw [hm] at ht
        cases ht
      · exact tagFault_of_code hm user
      · simp only [w] at hm
        rw [hm, hu]
        rfl
  · intro m t v
    have he := atomOne_tagged op ty returns b user y k me l va h s hu ht
    refine ⟨fun hm => ?_, fun hm => ?_, fun hm => ?_, fun hw ho => ?_, fun hw ho => ?_, fun hw h0 ho => ?_, fun hw h0 ho => ?_,
      fun hw h0 ho => ?_, fun hw h0 ho => ?_, fun hw h0 ho => ?_, fun hw h0 ho => ?_, fun hw h0 => ?_⟩
    · rw [he, tagFault_protected (by simpa using hm)]
    · rw [he, tagFault_reserved hm]
    · rw [he, tagFault_of_code hm]
      exact ⟨_, rfl⟩
    · subst ho
      exact atomNew_exch ty _ _ _ hw
    · subst ho
      exact atomNew_cas ty _ _ _ hw ht
    · subst ho
      simp only [v]
      rw [atomNew_pay .add ty _ _ _ hw h0 (by decide) (by decide), atomBits, hw]
      apply BitVec.eq_of_toNat_eq
      simp
    · subst ho
      simp only [v]
      rw [atomNew_pay .and ty _ _ _ hw h0 (by decide) (by decide), atomBits, ← BitVec.toNat_and, BitVec.ofNat_toNat, BitVec.setWidth_eq]
    · subst ho
      simp only [v]
      rw [atomNew_pay .or ty _ _ _ hw h0 (by decide) (by decide), atomBits, ← BitVec.toNat_or, BitVec.ofNat_toNat, BitVec.setWidth_eq]
    · subst ho
      simp only [v]
      rw [atomNew_pay .xor ty _ _ _ hw h0 (by decide) (by decide), atomBits, ← BitVec.toNat_xor, BitVec.ofNat_toNat, BitVec.setWidth_eq]
    · subst ho hw
      simp only [v]
      rw [atomNew_pay .min .i64 _ _ _ rfl h0 (by decide) (by decide), atomBits_min]
      split
      · rw [BitVec.ofNat_toNat, BitVec.setWidth_eq]
        omega
      · rw [BitVec.ofNat_toNat, BitVec.setWidth_eq]
        omega
    · subst ho hw
      simp only [v]
      rw [atomNew_pay .max .i64 _ _ _ rfl h0 (by decide) (by decide), atomBits_max]
      split
      · rw [BitVec.ofNat_toNat, BitVec.setWidth_eq]
        omega
      · rw [BitVec.ofNat_toNat, BitVec.setWidth_eq]
        omega
    · simp only [v]
      rw [atomNew_half op ty _ _ _ hw]
      exact ⟨rfl, fun j hj hout => setFld_half (by omega) hj hout⟩

end Sys2Proof.Machine.Claim
end

section
/-! One lane of the object and the promise instructions (spec 15_memory R195; 19_objects R235, R236; 23_promises R272 to R274, R278). -/
namespace Sys2Proof.Machine.Claim

theorem pairFault_of_code {t u : Tag} (ht : t.code ≤ 10) (hu : u.code ≤ 10) (b : Bool) : pairFault t u b = none := by
  unfold pairFault
  rw [tagFault_of_code ht, tagFault_of_code hu]
  rfl
theorem ne_fwd_of_code {t : Tag} (h : t.code ≤ 10) : t ≠ .fwd := by
  rintro rfl
  exact absurd h (by decide)

section
variable (b user : Bool) (p : Machine.Path) (x0 x1 y0 y1 : Nat → Val) (me : Writer) (l va : Nat) {h : Home} (s : State)

/-- CASW on a tagged pair whose tags it takes. -/
theorem caswOne_tagged (ht : h.tagged = true) (hu : h.uncached = false) (h0 : (s.atHome me h).1.tag.code ≤ 10)
    (h1 : ((s.atHome me h).2.atHome me (h.plus 1)).1.tag.code ≤ 10) :
    let m0 := (s.atHome me h).1
    let m1 := ((s.atHome me h).2.atHome me (h.plus 1)).1
    let t := ((s.atHome me h).2.atHome me (h.plus 1)).2.loaded b h.sector
    let same := m0 = x0 l ∧ m1 = x1 l
    caswOne b user x0 x1 y0 y1 me l va h s = (.ok ⟨l, [m0, m1], some (decide same), none, false, va⟩,
      if same ∧ ¬(y0 l = m0 ∧ y1 l = m1) then ((t.putHome me h 8 (y0 l)).putHome me (h.plus 1) 8 (y1 l)).changed b else t) := by
  intro m0 m1 t same
  unfold caswOne
  simp only [hu, Bool.false_eq_true, if_false, ht, if_true, pairFault_of_code h0 h1, Bool.not_true, Bool.and_false, Bool.false_and]
  by_cases hs : same
  · have hok : ((s.atHome me h).1 == x0 l && ((s.atHome me h).2.atHome me (h.plus 1)).1 == x1 l) = true := by
      simpa only [Bool.and_eq_true, beq_iff_eq] using hs
    simp only [hok, Bool.not_true, Bool.false_eq_true, if_false, decide_eq_true hs]
    by_cases hy : y0 l = m0 ∧ y1 l = m1
    · have hn : ¬(same ∧ ¬(y0 l = m0 ∧ y1 l = m1)) := fun h => h.2 hy
      rw [if_pos hy, if_neg hn]
      rfl
    · rw [if_neg hy, if_pos (c := same ∧ _) ⟨hs, hy⟩]
      rfl
  · have hok : ((s.atHome me h).1 == x0 l && ((s.atHome me h).2.atHome me (h.plus 1)).1 == x1 l) = false := by
      rw [← Bool.not_eq_true, Bool.and_eq_true, beq_iff_eq, beq_iff_eq]
      exact hs
    rw [decide_eq_false hs, if_neg (c := same ∧ _) (fun h => hs h.1)]
    simp only [hok, Bool.not_false, if_true]
    rfl

/-- HDRLD of a tagged header. -/
theorem hdrOne_fwd (ht : h.tagged = true) (hv : (s.readHeader p va h).1.tag = .fwd) :
    hdrOne b p me l va h s =
      (.ok ⟨l, [canon .ref (s.readHeader p va h).1.pay], some true, none, false, va⟩, (s.readHeader p va h).2.loaded b h.sector) := by
  unfold hdrOne
  simp only [ht, hv, beq_self_eq_true, Bool.and_self, if_true]
  rfl
theorem hdrOne_value (ht : h.tagged = true) (hv : (s.readHeader p va h).1.tag.code ≤ 10) :
    hdrOne b p me l va h s =
      (.ok ⟨l, [(s.readHeader p va h).1], some false, none, false, va⟩, (s.readHeader p va h).2.loaded b h.sector) := by
  unfold hdrOne
  simp only [ht, beq_false_of_ne (ne_fwd_of_code hv), Bool.and_false, Bool.false_eq_true, if_false, if_true, loadMeets_of_code hv,
    viewOf, Ty.width, and_self]
  rfl

/-- FWDCAS by what it meets in a tagged word. -/
theorem fwdcasOne_fwd (ht : h.tagged = true) (hm : (s.atHome me h).1.tag = .fwd) :
    fwdcasOne b x0 y0 me l va h s =
      (.ok ⟨l, [canon .ref (s.atHome me h).1.pay], some false, none, false, va⟩, (s.atHome me h).2.loaded b h.sector) := by
  unfold fwdcasOne
  simp only [ht, Bool.not_true, Bool.false_eq_true, if_false, hm, tagFault, bne_self_eq_false, Bool.false_and, if_true]
  rfl
theorem fwdcasOne_value (ht : h.tagged = true) (hm : (s.atHome me h).1.tag.code ≤ 10) :
    fwdcasOne b x0 y0 me l va h s =
      (.ok ⟨l, [(s.atHome me h).1], some (decide ((s.atHome me h).1 = x0 l)), none, false, va⟩,
        if (s.atHome me h).1 = x0 l then (((s.atHome me h).2.loaded b h.sector).putHome me h 8 ⟨.fwd, (y0 l).pay⟩).changed b
        else (s.atHome me h).2.loaded b h.sector) := by
  have hf := ne_fwd_of_code hm
  unfold fwdcasOne
  simp only [ht, Bool.not_true, Bool.false_eq_true, if_false, tagFault_of_code hm, bne_iff_ne.2 hf, Bool.true_and, if_neg hf]
  by_cases he : (s.atHome me h).1 = x0 l
  · rw [if_pos (beq_iff_eq.2 he), if_pos he, beq_iff_eq.2 he, decide_eq_true he]
    rfl
  · rw [if_neg (fun h => he (beq_iff_eq.1 h)), if_neg he, beq_false_of_ne he, decide_eq_false he]
    rfl
theorem fwdcasOne_protected (ht : h.tagged = true) (hm : (s.atHome me h).1.tag = .pend ∨ (s.atHome me h).1.tag = .link) :
    fwdcasOne b x0 y0 me l va h s = (.stop 0x08 va, (s.atHome me h).2.loaded b h.sector) := by
  unfold fwdcasOne
  simp only [ht, Bool.not_true, Bool.false_eq_true, if_false,
    tagFault_protected (b := false) (hm.imp_right (Or.inl : _ → _ ∨ _ ∧ _))]
end

section
variable {b user : Bool} {p : Machine.Path} {x : Nat → Val} {me : Writer} {l va w r : Nat} {h : Home} {s t : State} (hc : cellOf h = .inr w)
include hc

theorem pinitOne_makes
    (ht : (s.atHome me h).1.tag.code ≤ 10 ∨ (s.atHome me h).1.tag = .pend ∨ (s.atHome me h).1.tag = .link) :
    ∃ u : State, pinitOne b user me l va h s = (.ok ⟨l, [], none, none, false, va⟩, u.putCell me w ⟨.pend, 0⟩) := by
  unfold pinitOne
  rw [hc]
  dsimp only
  split
  next hs =>
    split at hs
    next => cases hs
    next => cases hs
    next hp hl =>
      rw [tagFault_of_code (ht.resolve_right fun h => h.elim hp hl)] at hs
      cases hs
  next => exact ⟨_, rfl⟩

variable (hf : s.findRoot (some me) s.pid w = (.root r, t))
include hf
theorem pfillOne_root :
    pfillOne b x me l va h s = if (t.peek r).tag = .pend then (.ok ⟨l, [], none, none, false, va⟩, (t.fillRoot me r (x l)).changed b)
      else if t.peek r = x l then (.ok ⟨l, [], none, none, false, va⟩, t) else (.stop 0x09 va, t) := by
  unfold pfillOne
  rw [hc]
  dsimp only
  rw [hf]
  rfl
theorem prootOne_root : prootOne me l va h s = (.ok ⟨l, [.raw (BitVec.ofNat 64 (8 * r))], none, none, false, va⟩, t) := by
  unfold prootOne
  rw [hc]
  dsimp only
  rw [hf]
  rfl
end

/-- What a lane of PEQ returns of a class. -/
def classRes (l va : Nat) (u : State) (r : Nat) : LaneRes × State :=
  (.ok ⟨l, [(classOut (u.peek r)).1], some (classOut (u.peek r)).2, none, false, va⟩, u)
theorem classRes_unfilled {l va r : Nat} {u : State} (h : (u.peek r).tag = .pend) :
    classRes l va u r = (.ok ⟨l, [Val.nil], some false, none, false, va⟩, u) := by
  rw [classRes, classOut, if_pos h]
theorem classRes_filled {l va r : Nat} {u : State} (h : (u.peek r).tag ≠ .pend) :
    classRes l va u r = (.ok ⟨l, [u.peek r], some true, none, false, va⟩, u) := by
  rw [classRes, classOut, if_neg h]
/-- PEQ of two classes with roots. -/
theorem peqOne_roots {b : Bool} {p : Machine.Path} {y : Nat → Val} {me : Writer} {l va wa wb ra rb : Nat} {h hb : Home} {s s1 s2 t : State}
    (hl : s.locate p .glb .write (y l).pay.toNat = (.home hb, s1)) (hca : cellOf h = .inr wa) (hcb : cellOf hb = .inr wb)
    (ha : s1.findRoot (some me) s1.pid wa = (.root ra, s2)) (hb' : s2.findRoot (some me) s2.pid wb = (.root rb, t)) :
    peqOne b p y me l va h s =
      if ra = rb then classRes l va t ra
      else if (t.peek ra).tag = .pend ∧ (t.peek rb).tag = .pend then
        (.ok ⟨l, [Val.nil], some false, none, false, va⟩, (t.union me ra rb).changed b)
      else if (t.peek ra).tag = .pend then classRes l va ((t.fillRoot me ra (t.peek rb)).changed b) rb
      else if (t.peek rb).tag = .pend then classRes l va ((t.fillRoot me rb (t.peek ra)).changed b) ra
      else if t.peek ra = t.peek rb then classRes l va t ra
      else (.stop 0x09 va, t) := by
  unfold peqOne
  dsimp only
  rw [hl]
  dsimp only
  rw [hca, hcb]
  dsimp only
  rw [ha]
  dsimp only
  rw [hb']
  rfl

/-- Settles O35. -/
theorem objectAndPromiseLanes : Obligations.ObjectAndPromiseLanes := by
  unfold Obligations.ObjectAndPromiseLanes
  refine ⟨fun b user p x0 x1 y0 y1 me l va h s ht => ⟨fun hu => ?_, ?_, ?_⟩,
    fun b user p x me l va w r h s t hc => ⟨pinitOne_makes hc, fun hf => ?_, fun hf => ?_, fun hb wb rb s1 s2 hl hcb ha hb' => ?_⟩⟩
  · intro m0 m1 t h0 h1
    exact caswOne_tagged b user x0 x1 y0 y1 me l va s ht hu h0 h1
  · exact ⟨hdrOne_fwd b p me l va s ht, hdrOne_value b p me l va s ht⟩
  · intro m t
    refine ⟨fwdcasOne_fwd b x0 y0 me l va s ht, fun hm hne => ?_, fun hm he => ?_, fwdcasOne_protected b x0 y0 me l va s ht⟩
    · rw [fwdcasOne_value b x0 y0 me l va s ht hm, if_neg hne, decide_eq_false hne]
    · rw [fwdcasOne_value b x0 y0 me l va s ht hm, if_pos he, decide_eq_true he]
  · have he := pfillOne_root (b := b) (x := x) (l := l) (va := va) hc hf
    refine ⟨fun h1 => ?_, fun h1 h2 => ?_, fun h1 h2 => ?_, prootOne_root hc hf⟩
    · rw [he, if_pos h1]
    · rw [he, if_neg h1, if_pos h2]
    · rw [he, if_neg h1, if_neg h2]
  · constructor
    · unfold pfillOne
      rw [hc]
      dsimp only
      rw [hf]
    · unfold prootOne
      rw [hc]
      dsimp only
      rw [hf]
      rfl
  · intro filled
    have he := peqOne_roots (b := b) (p := p) (l := l) (va := va) hl hc hcb ha hb'
    refine ⟨fun h0 h1 => ?_, fun h0 h1 h2 => ?_, fun h0 h1 h2 => ?_, fun h0 h1 h2 => ?_, fun h0 h1 h2 h3 => ?_, fun h1 h2 => ?_⟩
    · rw [he, if_pos h0, classRes_unfilled h1]
    · rw [he, if_neg h0, if_pos ⟨h1, h2⟩]
    · exact he.trans ((if_neg h0).trans ((if_neg fun h => h2 h.2).trans (if_pos h1)))
    · exact he.trans ((if_neg h0).trans ((if_neg fun h => h1 h.1).trans ((if_neg h1).trans (if_pos h2))))
    · rw [he, if_neg h0, if_neg (fun h => h1 h.1), if_neg h1, if_neg h2, if_neg h3]
    · have h3 : (t.peek rb).tag ≠ .pend := by rw [← h2]; exact h1
      have h4 : ¬((t.peek r).tag = .pend ∧ (t.peek rb).tag = .pend) := fun h => h1 h.1
      rw [he, if_neg h4, if_neg h1, if_neg h3, if_pos h2, ite_self, classRes_filled h1]

end Sys2Proof.Machine.Claim
end

section
/-! A store as its path and the others see it (spec 15_memory R188; 17_model R205, R207). -/
namespace Sys2Proof.Machine.Claim

/-! ### Bytes of a word -/

/-- Byte k of a word. -/
def byteAt (x : Word) (k : Nat) : Byte := BitVec.ofNat 8 (x.toNat / 2 ^ (8 * k))
theorem byteAt_eq (x : Word) (k : Nat) : byteAt x k = x.extractLsb' (8 * k) 8 := by
  rw [byteAt, BitVec.extractLsb', Nat.shiftRight_eq_div_pow]

theorem mask_getLsbD (k j : Nat) (hj : j < 64) : ((0xFF : Word) <<< (8 * k)).getLsbD j = decide (j / 8 = k) := by
  rw [BitVec.getLsbD_shiftLeft]
  by_cases hk : j < 8 * k
  · have : ¬j / 8 = k := by omega
    simp [hk, this]
  · have h1 : (0xFF : Word).getLsbD (j - 8 * k) = decide (j - 8 * k < 8) := by
      have : j - 8 * k < 64 := by omega
      generalize j - 8 * k = i at this
      revert i
      decide
    rw [h1]
    simp only [hj, decide_true, hk, decide_false, Bool.not_false, Bool.and_self, Bool.true_and]
    exact decide_eq_decide.2 (by omega)
/-- A bit of a merged word comes from the one word or the other. -/
theorem mergeBytes_getLsbD (o x : Word) (m : BitVec 8) {j : Nat} (hj : j < 64) :
    (mergeBytes o x m).getLsbD j = if m.getLsbD (j / 8) = true then x.getLsbD j else o.getLsbD j := by
  have key : ∀ n, n ≤ 8 → ((List.range n).foldl (fun w k =>
      if m.getLsbD k then (w &&& ~~~((0xFF : Word) <<< (8 * k))) ||| (x &&& ((0xFF : Word) <<< (8 * k))) else w) o).getLsbD j =
      if j / 8 < n ∧ m.getLsbD (j / 8) = true then x.getLsbD j else o.getLsbD j := by
    intro n hn
    induction n with
    | zero => simp
    | succ n ih =>
      rw [List.range_succ, List.foldl_append, List.foldl_cons, List.foldl_nil]
      have ih := ih (by omega)
      generalize List.foldl _ o (List.range n) = w at ih ⊢
      by_cases hm : m.getLsbD n = true
      · rw [if_pos hm, BitVec.getLsbD_or, BitVec.getLsbD_and, BitVec.getLsbD_and, BitVec.getLsbD_not, mask_getLsbD n j hj, ih]
        by_cases hjn : j / 8 = n
        · have h1 : j / 8 < n + 1 ∧ m.getLsbD (j / 8) = true := ⟨by omega, hjn ▸ hm⟩
          rw [if_pos h1]
          simp [hjn]
        · have h1 : j / 8 < n + 1 ↔ j / 8 < n := by omega
          simp only [h1, hj, hjn, decide_true, decide_false, Bool.not_false, Bool.and_self, Bool.and_true, Bool.and_false, Bool.or_false]
      · rw [if_neg hm, ih]
        by_cases hjn : j / 8 = n
        · rw [hjn]
          simp [hm]
        · have h1 : j / 8 < n + 1 ↔ j / 8 < n := by omega
          simp only [h1]
  have h := key 8 (Nat.le_refl 8)
  have h8 : j / 8 < 8 := by omega
  simpa only [mergeBytes, h8, true_and] using h
theorem byteAt_mergeBytes (o x : Word) (m : BitVec 8) {k : Nat} (hk : k < 8) :
    byteAt (mergeBytes o x m) k = if m.getLsbD k = true then byteAt x k else byteAt o k := by
  rw [byteAt_eq, byteAt_eq, byteAt_eq]
  apply BitVec.eq_of_getLsbD_eq
  intro i hi
  have hd : (8 * k + i) / 8 = k := by omega
  have h1 := mergeBytes_getLsbD o x m (j := 8 * k + i) (by omega)
  rw [hd] at h1
  simp only [BitVec.getLsbD_extractLsb', hi, decide_true, Bool.true_and, h1]
  by_cases hm : m.getLsbD k = true
  · simp only [if_pos hm, BitVec.getLsbD_extractLsb', hi, decide_true, Bool.true_and]
  · simp only [if_neg hm, BitVec.getLsbD_extractLsb', hi, decide_true, Bool.true_and]

/-! ### The bytes of a store -/

theorem storeBytes_getLsbD {n off k : Nat} (hn : n = 1 ∨ n = 2 ∨ n = 4 ∨ n = 8) (ho : off < 8) (hd : off % n = 0) (hk : k < 8) :
    (BitVec.ofNat 8 ((2 ^ n - 1) * 2 ^ off)).getLsbD k = decide (off ≤ k ∧ k < off + n) := by
  have h : ∀ o < 8, ∀ i < 8, o % n = 0 → (BitVec.ofNat 8 ((2 ^ n - 1) * 2 ^ o)).getLsbD i = decide (o ≤ i ∧ i < o + n) := by
    rcases hn with rfl | rfl | rfl | rfl <;> decide
  exact h off ho k hk hd
/-- A store of fewer than 8 bytes writes a part of its word. -/
theorem storeBytes_part {n off : Nat} (hn : n = 1 ∨ n = 2 ∨ n = 4 ∨ n = 8) (ho : off < 8) (hd : off % n = 0) :
    (BitVec.ofNat 8 ((2 ^ n - 1) * 2 ^ off) != 0xFF) = decide (n ≠ 8) := by
  have h : ∀ o < 8, o % n = 0 → (BitVec.ofNat 8 ((2 ^ n - 1) * 2 ^ o) != 0xFF) = decide (n ≠ 8) := by
    rcases hn with rfl | rfl | rfl | rfl <;> decide
  exact h off ho hd
theorem storeData_byte {x : Word} {n off k : Nat} (hn : off + n ≤ 8) (h1 : off ≤ k) (h2 : k < off + n) :
    byteAt (BitVec.ofNat 64 (x.toNat % 2 ^ (8 * n) * 2 ^ (8 * off))) k = BitVec.ofNat 8 (x.toNat / 2 ^ (8 * (k - off))) := by
  have hlt : x.toNat % 2 ^ (8 * n) * 2 ^ (8 * off) < 2 ^ 64 :=
    calc x.toNat % 2 ^ (8 * n) * 2 ^ (8 * off) < 2 ^ (8 * n) * 2 ^ (8 * off) :=
          Nat.mul_lt_mul_of_pos_right (Nat.mod_lt _ (Nat.pow_pos (by decide))) (Nat.pow_pos (by decide))
      _ = 2 ^ (8 * n + 8 * off) := (Nat.pow_add ..).symm
      _ ≤ 2 ^ 64 := Nat.pow_le_pow_right (by decide) (by omega)
  rw [byteAt, BitVec.toNat_ofNat, Nat.mod_eq_of_lt hlt]
  apply BitVec.eq_of_getLsbD_eq
  intro i hi
  simp only [BitVec.getLsbD_ofNat, hi, decide_true, Bool.true_and, Nat.testBit_div_two_pow, Nat.testBit_mul_two_pow, Nat.testBit_mod_two_pow]
  have e1 : i + 8 * k - 8 * off = i + 8 * (k - off) := by omega
  have e2 : 8 * off ≤ i + 8 * k := by omega
  have e3 : i + 8 * (k - off) < 8 * n := by omega
  simp only [e1, e2, e3, decide_true, Bool.true_and]

end Sys2Proof.Machine.Claim
end

section
/-! A store is seen by its own lanes, in its bytes only (spec 15_memory R188; 17_model R205, R207). -/
namespace Sys2Proof.Machine.Claim

/-! ### The store on its way -/

theorem lateWrite_rest (s : State) (me : Writer) (sp word : Nat) (bytes : BitVec 8) :
    ∃ bs n, s.lateWrite me sp word bytes = { s with blocks := bs, freeCtr := n } := by
  unfold State.lateWrite
  split
  · exact ⟨_, _, rfl⟩
  · dsimp only
    split
    · exact ⟨_, _, rfl⟩
    · have key : ∀ (l : List Nat) (t : State), (∃ bs n, t = { s with blocks := bs, freeCtr := n }) →
          ∃ bs n, l.foldl (fun s k => s.spoilSlot me.blk k) t = { s with blocks := bs, freeCtr := n } := by
        intro l
        induction l with
        | nil => exact fun _ h => h
        | cons k r ih =>
          rintro t ⟨bs, n, rfl⟩
          exact ih _ ⟨_, _, rfl⟩
      exact key _ _ ⟨_, _, rfl⟩
/-- What a store says of the windows of barriers touches the streams only. -/
theorem lateWrites_rest (s : State) (me : Writer) (h : Home) (n : Nat) :
    ∃ bs c, s.lateWrites me h n = { s with blocks := bs, freeCtr := c } := by
  unfold State.lateWrites
  have key : ∀ (l : List Nat) (t : State), (∃ bs c, t = { s with blocks := bs, freeCtr := c }) →
      ∃ bs c, l.foldl (fun s j => s.lateWrite me (h.plus j).key.1 (h.plus j).key.2 ((h.plus j).bytes n)) t =
        { s with blocks := bs, freeCtr := c } := by
    intro l
    induction l with
    | nil => exact fun _ h => h
    | cons k r ih =>
      rintro t ⟨bs, c, rfl⟩
      obtain ⟨bs', c', e⟩ := lateWrite_rest { s with blocks := bs, freeCtr := c } me (h.plus k).key.1 (h.plus k).key.2 ((h.plus k).bytes n)
      rw [List.foldl_cons, e]
      exact ih _ ⟨_, _, rfl⟩
  exact key _ _ ⟨_, _, rfl⟩

/-- The store of n bytes at an address of physical memory, on its way. -/
def storeOf (me : Writer) (pa : Nat) (pte : Word) (n : Nat) (x : Val) : PendStore :=
  ⟨me.blk, me.grp, me.core, me.mask, pa / 8, BitVec.ofNat 8 ((2 ^ n - 1) * 2 ^ (pa % 8)),
    BitVec.ofNat 64 (x.pay.toNat % 2 ^ (8 * n) * 2 ^ (8 * (pa % 8))), some (if n = 8 ∧ pteTag pte then x.tag else .raw), false⟩
theorem storeHome_glb {s : State} {me : Writer} {pa : Nat} {pte : Word} {n : Nat} {x : Val} (h : pteMT pte ≠ 2) :
    s.storeHome me (.glb pa pte) n x =
      { s.lateWrites me (.glb pa pte) n with stores := (s.lateWrites me (.glb pa pte) n).stores ++ [storeOf me pa pte n x] } := by
  unfold State.storeHome
  exact if_neg h
/-- A store to a cacheable page goes on its way, and nothing else changes but what the streams know of it. -/
theorem storeHome_on_way (s : State) (me : Writer) (pa : Nat) {pte : Word} (n : Nat) (x : Val) (h : pteMT pte ≠ 2) :
    ∃ bs c, s.storeHome me (.glb pa pte) n x =
      { s with blocks := bs, freeCtr := c, stores := s.stores ++ [storeOf me pa pte n x] } := by
  obtain ⟨bs, c, e⟩ := lateWrites_rest s me (.glb pa pte) n
  refine ⟨bs, c, ?_⟩
  rw [storeHome_glb h, e]

/-! ### What a path sees -/

section
variable {s t : State} {me : Writer} {w : Nat} {q : PendStore}

theorem stays_none (h : s.readOnly w = none) (x : Val) : s.stays w x = x := by
  unfold State.stays
  rw [h]
/-- Where no byte is the device's own, a word under a path's stores is the word they are merged into. -/
theorem under_eq (h : s.readOnly w = none) (x : Val) : s.under me w x = (s.ownStores me w).foldl (fun x p => p.onto x) x := by
  unfold State.under
  split
  next he => rw [he]; rfl
  next => exact stays_none h _

/-- States that agree on memory, on what the core holds of it and on the device's own words. -/
def SameWords (s t : State) : Prop :=
  t.mem = s.mem ∧ t.tags = s.tags ∧ t.l1 = s.l1 ∧ t.parts = s.parts ∧ t.queues = s.queues
section
variable (hst : SameWords s t)
include hst
theorem SameWords.peek : t.peek w = s.peek w := by
  unfold State.peek
  rw [hst.1, hst.2.1]
theorem SameWords.readOnly : t.readOnly w = s.readOnly w := by
  unfold State.readOnly
  rw [hst.2.2.2.1, hst.2.2.2.2]
theorem SameWords.stays (x : Val) : t.stays w x = s.stays w x := by
  unfold State.stays
  rw [hst.readOnly]
/-- A word reads as before where the path's stores to it are the same. -/
theorem SameWords.seen (ho : t.ownStores me w = s.ownStores me w) : t.seen me w = s.seen me w := by
  unfold State.seen State.under State.merges
  rw [ho, hst.peek, hst.2.2.1]
  split
  · rfl
  · exact hst.stays _
/-- A word under the path's stores and one store more. -/
theorem SameWords.seen_more (ho : t.ownStores me w = s.ownStores me w ++ [q]) :
    t.seen me w = s.stays w (q.onto ((s.ownStores me w).foldl (fun x p => p.onto x)
      (if q.part then s.peek w else (sget none s.l1 (l1Key me.core w)).getD (s.peek w)))) := by
  have hm : t.merges me w = q.part := by
    unfold State.merges
    rw [ho, List.getLast?_concat]
  unfold State.seen State.under
  rw [hm, hst.peek, hst.2.2.1, ho]
  split
  next h => exact absurd h (by simp)
  next =>
    rw [hst.stays, List.foldl_append]
    rfl
end
end

theorem byteSeen_eq (t : State) (me : Writer) (a : Nat) : byteSeen t me a = byteAt (t.seen me (a / 8)).pay (a % 8) := rfl

/-! ### One store more -/

section
variable {s t : State} {me other : Writer} {pa : Nat} {pte : Word} {n : Nat} {x : Val} (hst : SameWords s t)
  (hs : t.stores = s.stores ++ [storeOf me pa pte n x])
include hs

theorem ownStores_other (w : Nat) (h : ¬(w = pa / 8 ∧ (storeOf me pa pte n x).before other = true)) :
    t.ownStores other w = s.ownStores other w := by
  unfold State.ownStores
  have hn : ((storeOf me pa pte n x).word == w && (storeOf me pa pte n x).before other) = false := by
    rw [← Bool.not_eq_true, Bool.and_eq_true, beq_iff_eq]
    exact fun h' => h ⟨h'.1.symm, h'.2⟩
  rw [hs, List.filter_append, List.filter_cons, hn, if_neg Bool.false_ne_true, List.filter_nil, List.append_nil]
theorem ownStores_own (hm : me.mask ≠ 0) : t.ownStores me (pa / 8) = s.ownStores me (pa / 8) ++ [storeOf me pa pte n x] := by
  unfold State.ownStores
  have hy : ((storeOf me pa pte n x).word == pa / 8 && (storeOf me pa pte n x).before me) = true := by
    simp only [storeOf, PendStore.before, beq_self_eq_true, Bool.true_and, BitVec.and_self, bne_iff_ne]
    exact hm
  rw [hs, List.filter_append, List.filter_cons, hy, if_pos rfl, List.filter_nil]

include hst
variable (hn : n = 1 ∨ n = 2 ∨ n = 4 ∨ n = 8) (hd : pa % n = 0) (hm : me.mask ≠ 0)
include hn hd hm
/-- The path sees the stored bytes, and in the rest of the word what its earlier stores leave over memory. -/
theorem byteSeen_store (hr : s.readOnly (pa / 8) = none) (a : Nat) : byteSeen t me a =
    if pa ≤ a ∧ a < pa + n then BitVec.ofNat 8 (x.pay.toNat / 2 ^ (8 * (a - pa)))
    else if a / 8 = pa / 8 then BitVec.ofNat 8 ((s.storeSees me (.glb pa pte)).pay.toNat / 2 ^ (8 * (a % 8)))
    else byteSeen s me a := by
  have hoff : pa % 8 % n = 0 ∧ pa % 8 + n ≤ 8 := by
    rcases hn with rfl | rfl | rfl | rfl <;> omega
  by_cases hw : a / 8 = pa / 8
  · have hbit : (storeOf me pa pte n x).bytes.getLsbD (a % 8) = _ :=
      storeBytes_getLsbD (k := a % 8) hn (Nat.mod_lt pa (by decide)) hoff.1 (Nat.mod_lt a (by decide))
    have hin : (pa ≤ a ∧ a < pa + n) ↔ (pa % 8 ≤ a % 8 ∧ a % 8 < pa % 8 + n) := by omega
    rw [byteSeen_eq, hw, hst.seen_more (ownStores_own hs hm), stays_none hr]
    change byteAt (mergeBytes _ (storeOf me pa pte n x).data (storeOf me pa pte n x).bytes) _ = _
    rw [byteAt_mergeBytes _ _ _ (Nat.mod_lt a (by decide)), hbit]
    by_cases h : pa ≤ a ∧ a < pa + n
    · have hdata : byteAt (storeOf me pa pte n x).data (a % 8) = _ := storeData_byte hoff.2 (hin.1 h).1 (hin.1 h).2
      have hk : a % 8 - pa % 8 = a - pa := by omega
      rw [if_pos h, if_pos (decide_eq_true (hin.1 h)), hdata, hk]
    · have hpart : (storeOf me pa pte n x).part = true := by
        refine (storeBytes_part hn (Nat.mod_lt pa (by decide)) hoff.1).trans (decide_eq_true ?_)
        rintro rfl
        omega
      rw [if_neg h, if_neg (by simpa using fun h1 h2 => h (hin.2 ⟨h1, h2⟩)), if_pos rfl, hpart, if_pos rfl, State.storeSees, under_eq hr]
      rfl
  · have h : ¬(pa ≤ a ∧ a < pa + n) := by
      rcases hn with rfl | rfl | rfl | rfl <;> omega
    rw [if_neg h, if_neg hw, byteSeen_eq, byteSeen_eq, hst.seen (ownStores_other hs _ fun h => hw h.1)]
omit hn hd in
/-- A byte that only the device writes reads as it is. -/
theorem byteSeen_readOnly {k : Nat} {m : BitVec 8} (hr : s.readOnly (pa / 8) = some (k, m)) {a : Nat} (hw : a / 8 = pa / 8)
    (hb : m.getLsbD (a % 8) = true) : byteSeen t me a = BitVec.ofNat 8 (k / 2 ^ (8 * (a % 8))) := by
  rw [byteSeen_eq, hw, hst.seen_more (ownStores_own hs hm)]
  unfold State.stays
  rw [hr]
  dsimp only [Val.raw]
  rw [byteAt_mergeBytes _ _ _ (Nat.mod_lt a (by decide)), if_pos hb, byteAt, BitVec.toNat_ofNat]
  apply BitVec.eq_of_getLsbD_eq
  intro i hi
  have : i + 8 * (a % 8) < 64 := by omega
  simp only [BitVec.getLsbD_ofNat, Nat.testBit_div_two_pow, Nat.testBit_mod_two_pow, this, decide_true, Bool.true_and]
end

end Sys2Proof.Machine.Claim
end

section
/-! What ST does to what its path and the others see (spec 15_memory R188; 17_model R205, R207). -/
namespace Sys2Proof.Machine.Claim

/-- A store of a whole number of bytes. -/
theorem width_bytes {ty : Ty} (h : 8 ≤ ty.width) : ty.width / 8 = 1 ∨ ty.width / 8 = 2 ∨ ty.width / 8 = 4 ∨ ty.width / 8 = 8 := by
  revert h
  cases ty <;> decide
theorem before_other {me other : Writer} {pa : Nat} {pte : Word} {n : Nat} {x : Val} (h : ¬(other.blk = me.blk ∧ other.grp = me.grp)) :
    ¬(storeOf me pa pte n x).before other = true := by
  simp only [storeOf, PendStore.before, Bool.and_eq_true, beq_iff_eq]
  exact fun h' => h ⟨h'.1.1.symm, h'.1.2.symm⟩

theorem stOne_ok {n : Nat} {b user : Bool} {x : Nat → Val} {me : Writer} {l va : Nat} {h : Home} {s v : State} {o : LaneOut}
    (he : stOne n b user x me l va h s = (.ok o, v)) : v = (s.storeHome me h n (x l)).changed b := by
  unfold stOne at he
  dsimp only at he
  split at he
  · cases he
  · split at he
    · cases he
    · cases he
      rfl
/-- Where no value passes the barrier, what a lane did stands. -/
theorem sweepBar_plain {p : Machine.Path} {z : Bool} {k : MemOp} {o : LaneOut} {acq : Bool} {s t : State} {w : Swept} (hk : k.barrier = false)
    (h : State.sweepBar p z k [] [o] acq ⟨[], [], [], [], acq⟩ s = (w, t)) : t = s := by
  rw [State.sweepBar, if_pos (by simp [hk])] at h
  cases h
  rfl
/-- The state in which a store of one lane completes: its store on its way, and nothing else but the group and what streams and
early loads know of it. -/
theorem performs_st {c : Ctl} {ty : Ty} {sp : Space} {o : Ord} {obj : Bool} {a x : Src} {off : BitVec 24} {z : Bool} {r : Issue} {l va pa : Nat}
    {pte : Word} {acq : Bool} {u t : State} {out : LaneOut}
    (hone : oneLane (stOp c ty sp o obj a x off z r.path r.state) r l = some (va, .glb pa pte, acq, u))
    (hp : performs (stOp c ty sp o obj a x off z r.path r.state) r z l = some (out, t)) (hmt : pteMT pte ≠ 2) :
    ∃ bs fc e g, t = { u with
        blocks := bs, freeCtr := fc, early := e, grp := g
        stores := u.stores ++ [storeOf (r.state.me r.path) pa pte (ty.width / 8) (rdSrc r.state z c.ix x l)] } ∧
      ∀ ds, Keeps ds u.grp g := by
  obtain ⟨va', h', acq', u', o', v, _, h1, h2, h3, -, -⟩ := performs_some hp
  rw [hone] at h1
  cases h1
  obtain ⟨bs, fc, hs⟩ := storeHome_on_way u (r.state.me r.path) pa (ty.width / 8) (rdSrc r.state z c.ix x l) hmt
  have hv := stOne_ok h2
  have ht := sweepBar_plain rfl h3
  rw [hv, hs] at ht
  refine ⟨bs, fc, t.early, t.grp, ?_, fun ds => ?_⟩
  · rw [ht]
    rfl
  · rw [ht]
    exact keeps_modSlot z _

/-- Settles O36. -/
theorem storeIsSeenByItsPath : Obligations.StoreIsSeenByItsPath := by
  unfold Obligations.StoreIsSeenByItsPath
  refine ⟨fun s me other pa pte n x hn hd hmt hm => ?_, fun c ty sp obj a x off s z p h => ?_⟩
  · intro t
    obtain ⟨bs, fc, ht⟩ := storeHome_on_way s me pa n x hmt
    have hst : SameWords s t := by
      simp only [t, ht]
      exact ⟨rfl, rfl, rfl, rfl, rfl⟩
    have hs : t.stores = s.stores ++ [storeOf me pa pte n x] := by simp only [t, ht]
    refine ⟨fun hr => byteSeen_store hst hs hn hd hm hr, fun k m hr a hw hb => byteSeen_readOnly hst hs hm hr hw hb, fun ho a => ?_, ?_⟩
    · rw [byteSeen_eq, byteSeen_eq, hst.seen (ownStores_other hs _ fun h => before_other ho h.2)]
    · simp only [t]
      rw [storeHome_glb hmt]
  · intro r k me n l va pa pte acq u out t hone hmt hw hd hr hp
    refine ⟨_, (congrArg Host.Outcome.next (issue_ready h _)).trans (congrArg _ (memory_performs h.2.1 hp)), ?_⟩
    obtain ⟨hl, hact, -, -⟩ := oneLane_some hone
    obtain ⟨bs, fc, e, g, ht, hg⟩ := performs_st hone hp hmt
    have hm : me.mask ≠ 0 := by
      intro h0
      have := issued_act_sub s (.st c ty sp .none obj a x off) c.sched c.guard c.ix z p h.2.1 (l := l)
        (by rw [hact, laneBit_getLsbD hl]; exact decide_eq_true rfl)
      have hme : p.mask = 0 := h0
      rw [hme] at this
      simp at this
    set v := (t.after r.path .none).finish z c.sched .variable r.act (k.out [out]) with hv
    have hfr : v = { t with grp := v.grp } := finish_frame ..
    have hst : SameWords u v := by
      rw [hfr, ht]
      exact ⟨rfl, rfl, rfl, rfl, rfl⟩
    have hs : v.stores = u.stores ++ [storeOf me pa pte n (rdSrc r.state z c.ix x l)] := by
      rw [hfr, ht]
    refine ⟨byteSeen_store hst hs (width_bytes hw) hd hm hr, hst.1, ?_⟩
    have hk : Keeps [] t.grp v.grp := keeps_finish t z c.sched .variable r.act (ws := []) (by simp)
    rw [ht] at hk
    exact ((hg []).trans hk).1

end Sys2Proof.Machine.Claim
end

section
/-! NALLOC, REFCHK, UNSEAL and HINFO (spec 19_objects R234, R237; 25_tiles R289, R290). -/
namespace Sys2Proof.Machine.Claim

/-! ### NALLOC -/

/-- Every size fits: each lane gets the bytes after those of the lanes below it. -/
theorem nallocRun_room {limit : Nat} (f : Nat → Nat) {ls : List Nat} (hs : ls.Pairwise (· < ·)) {top : Nat}
    (h : top + (ls.map f).sum ≤ limit) :
    nallocRun limit (ls.map fun l => (l, f l)) top false =
      (ls.map fun l => (l, some (top + ((ls.filter fun k => k < l).map f).sum)), top + (ls.map f).sum) := by
  induction ls generalizing top with
  | nil => rfl
  | cons l r ih =>
    obtain ⟨hl, hr⟩ := List.pairwise_cons.1 hs
    rw [List.map_cons, List.sum_cons] at h
    have hfit : (!false && decide (top + f l ≤ limit)) = true := by
      rw [Bool.not_false, Bool.true_and, decide_eq_true_eq]
      omega
    have h0 : r.filter (fun k => decide (k < l)) = [] :=
      List.filter_eq_nil_iff.2 fun k hk => by simpa using Nat.le_of_lt (hl k hk)
    have hmap : (r.map fun x => (x, some (top + f l + ((r.filter fun k => k < x).map f).sum))) =
        r.map fun x => (x, some (top + (((l :: r).filter fun k => k < x).map f).sum)) := by
      refine List.map_congr_left fun x hx => ?_
      rw [List.filter_cons, if_pos (decide_eq_true (hl x hx)), List.map_cons, List.sum_cons, Nat.add_assoc]
    rw [List.map_cons, nallocRun]
    simp only [Bool.not_false, Bool.true_and, decide_eq_true_eq] at hfit ⊢
    rw [if_pos hfit, ih hr (by omega), hmap, List.map_cons, List.filter_cons, if_neg (by simp), h0, List.map_cons, List.sum_cons]
    simp [Nat.add_assoc]
/-- Past its limit a nursery gives nothing. -/
theorem nallocRun_full (limit : Nat) (xs : List (Nat × Nat)) (top : Nat) :
    nallocRun limit xs top true = (xs.map fun e => (e.1, none), top) := by
  induction xs with
  | nil => rfl
  | cons e r ih =>
    obtain ⟨l, n⟩ := e
    rw [nallocRun]
    simp only [Bool.not_true, Bool.false_and, Bool.false_eq_true, if_false, ih, List.map_cons]
theorem filter_lanes_below (m : Mask) : (lanes m).filter (fun k => decide (k < 32)) = lanes m :=
  List.filter_eq_self.2 fun _ hk => decide_eq_true (mem_lanes.1 hk).1

/-! ### REFCHK -/

/-- Lanes with no ref give 0. -/
theorem refScan_no_ref (dead : Dead) (f : Nat → Val) (ls : List Nat) (h : ∀ l ∈ ls, (f l).tag ≠ .ref) (bits : List (Nat × Bool))
    (miss : List (Nat × Nat × Mask × Bool)) (s : State) :
    State.refScan dead (ls.map fun l => (l, f l)) (bits, miss) s = ((bits ++ ls.map fun l => (l, false), miss), s) := by
  induction ls generalizing bits with
  | nil => rw [List.map_nil, List.map_nil, List.append_nil]; rfl
  | cons l r ih =>
    rw [List.map_cons, State.refScan, if_pos (h l (by simp)), ih (fun k hk => h k (by simp [hk]))]
    simp
theorem refScan_one {l pa size : Nat} {x : Val} {k : Bool} {s t : State} (hx : x.tag = .ref)
    (h : s.condOf s.grp.core s.myAspace (refVA x) = (.page k pa size, t)) :
    State.refScan [] [(l, x)] ([], []) s = (([(l, k)], []), t) := by
  rw [State.refScan, if_neg (not_not.2 hx), if_neg (show ¬Dead.at [] l (refVA x) = true from by simp [Dead.at]), h]
  rfl

/-! ### Handles -/

theorem hentry_setHentry {s : State} {pid n : Nat} {e : HEntry} (h : (s.part? pid).isSome = true) :
    (s.setHentry pid n e).hentry pid n = e := by
  obtain ⟨p, hp⟩ := Option.isSome_iff_exists.1 h
  have hm := State.part?_modPart s pid (fun p => { p with handles := sput HEntry.free p.handles n e }) fun _ => rfl
  rw [State.hentry, State.setHentry, hm, hp]
  exact sget_sput_self ..
theorem handle?_some {s : State} {pid aspace n : Nat} {h : Val} {e : HEntry} (hh : s.handle? pid aspace h = some (n, e)) :
    n = fld h.pay 0 16 ∧ e = s.hentry pid n ∧ e.sealed = true := by
  unfold State.handle? at hh
  dsimp only at hh
  split at hh
  next hc =>
    cases hh
    exact ⟨rfl, rfl, hc.2.1⟩
  · cases hh
/-- A handle whose entry is freed is no longer valid. -/
theorem handle?_unsealed {s : State} {pid aspace n : Nat} {h : Val} {e e' : HEntry} (hh : s.handle? pid aspace h = some (n, e))
    (he : e'.sealed = false) : (s.setHentry pid n e').handle? pid aspace h = none := by
  obtain ⟨hn, hs, ht⟩ := handle?_some hh
  have hp : (s.part? pid).isSome = true := by
    cases hp : s.part? pid with
    | some p => rfl
    | none =>
      rw [hs, State.hentry, hp] at ht
      cases ht
  have hne : ¬(h.tag = .hnd ∧ ((s.setHentry pid n e').hentry pid n).sealed = true ∧
      ((s.setHentry pid n e').hentry pid n).gen.toNat = fld h.pay 16 16 ∧ ((s.setHentry pid n e').hentry pid n).aspace = aspace) := by
    rw [hentry_setHentry hp, he]
    simp
  unfold State.handle?
  rw [← hn]
  exact if_neg hne

theorem any_perLane {α : Type} {m : Mask} {f : Nat → α} (q : α → Bool) :
    ((perLane m f).any fun e => q e.2) = true ↔ ∃ l, m.getLsbD l = true ∧ q (f l) = true := by
  rw [perLane, List.any_map, List.any_eq_true]
  constructor
  · rintro ⟨l, hl, hq⟩
    exact ⟨l, (mem_lanes.1 hl).2, hq⟩
  · rintro ⟨l, hl, hq⟩
    exact ⟨l, mem_lanes.2 ⟨BitVec.lt_of_getLsbD hl, hl⟩, hq⟩

section
variable {c : Ctl} {a : Src} {s : State} {z : Bool} {p : Machine.Path} {l : Nat} (h : Issues (.unseal c a) c s z p) (hl : l < 32)
  (ha : (issuedOf (.unseal c a) c s z p).act = laneBit l)
include h hl ha

/-- UNSEAL of one lane frees the entry of a valid handle. -/
theorem unseal_valid {n : Nat} {e : HEntry} {t : State} (ht : (issuedOf (.unseal c a) c s z p).state = t)
    (he : t.handle? t.pid t.myAspace (rdSrc t z c.ix a l) = some (n, e)) :
    exec (.unseal c a) s =
      .next ((((t.setHentry t.pid n ⟨false, e.gen + 1, [], 0⟩).changed z).spend c.sched).next z) := by
  have hx : exec (.unseal c a) s = _ := congrArg Host.Outcome.next (issue_ready h _)
  have hrun : State.unsealLanes t.pid t.myAspace [(l, rdSrc t z c.ix a l)] [] t =
      (([l], false), t.setHentry t.pid n ⟨false, e.gen + 1, [], 0⟩) := by
    rw [State.unsealLanes, he]
    rfl
  rw [State.pid] at hrun ⊢
  simp only [ht, ha, perLane, lanes_laneBit hl, List.map_cons, List.map_nil, hrun, List.isEmpty_cons, Bool.false_eq_true, if_false] at hx
  rw [hx]
theorem unseal_invalid {t : State} (ht : (issuedOf (.unseal c a) c s z p).state = t)
    (he : t.handle? t.pid t.myAspace (rdSrc t z c.ix a l) = none) :
    exec (.unseal c a) s = .next (t.trapPath (.unseal c a) c.sched 0x10 (p.pc.setWidth 64) (issuedOf (.unseal c a) c s z p).act) := by
  have hx : exec (.unseal c a) s = _ := congrArg Host.Outcome.next (issue_ready h _)
  have hrun : State.unsealLanes t.pid t.myAspace [(l, rdSrc t z c.ix a l)] [] t = (([], true), t) := by
    rw [State.unsealLanes, he]
  rw [State.pid] at hrun
  have hm : laneBit l &&& ~~~(0 : Mask) = laneBit l := BitVec.and_allOnes
  simp only [ht, ha, perLane, lanes_laneBit hl, List.map_cons, List.map_nil, hrun, List.isEmpty_nil, if_true, maskOf_nil, hm,
    issued_path_pc] at hx
  rw [hx, ha]
end

/-- Settles O37. -/
theorem objectInstructions : Obligations.ObjectInstructions := by
  unfold Obligations.ObjectInstructions
  intro c sz d q a f s z p
  refine ⟨fun h => ?_, fun h => ?_, fun h => ?_, fun h => ?_⟩
  · intro r t x at_
    have hx : exec (.nalloc c sz d q) s = _ := congrArg Host.Outcome.next (issue_ready h _)
    rw [hx]
    refine ⟨fun hb => ?_, fun h0 hok => ?_⟩
    · obtain ⟨l, hl, hn⟩ := hb
      have hany : ((perLane r.act (nsizeVal t z c sz)).any fun e => !nsizeOk e.2) = true :=
        (any_perLane fun v => !nsizeOk v).2 ⟨l, hl, by simp only [x, t] at hn; rw [hn]; rfl⟩
      exact congrArg _ (if_pos hany)
    · have hany : ¬((perLane r.act (nsizeVal t z c sz)).any fun e => !nsizeOk e.2) = true := fun h => by
        obtain ⟨l, hl, hq⟩ := (any_perLane fun v => !nsizeOk v).1 h
        rw [show nsizeOk (nsizeVal t z c sz l) = true from hok l hl] at hq
        cases hq
      have hmap : (perLane r.act (nsizeVal t z c sz)).map (fun e => (e.1, e.2.pay.toNat)) =
          (lanes r.act).map fun l => (l, (x l).pay.toNat) := by rw [perLane, List.map_map]; rfl
      have hat : at_ 32 = t.grp.ntop.toNat + ((lanes r.act).map fun k => (x k).pay.toNat).sum := by
        simp only [at_]
        rw [filter_lanes_below]
      refine ⟨fun hb hl => congrArg _ ((if_neg hany).trans ?_), fun hb => congrArg _ ((if_neg hany).trans ?_)⟩
      · have hfull : (decide (t.grp.ntop.toNat < t.grp.nbase.toNat) || decide (t.grp.nlimit.toNat < t.grp.ntop.toNat)) = false := by
          rw [hat] at hl
          simp only [Bool.or_eq_false_iff, decide_eq_false_iff_not, not_lt]
          exact ⟨hb, by omega⟩
        have hrun := nallocRun_room (fun l => (x l).pay.toNat) (lanes_ascending r.act) (hat ▸ hl)
        simp only [r, t] at h0 hfull hmap hrun ⊢
        simp only [hmap, hfull, hrun, if_neg h0, List.map_map, hat]
        rfl
      · have hfull : (decide (t.grp.ntop.toNat < t.grp.nbase.toNat) || decide (t.grp.nlimit.toNat < t.grp.ntop.toNat)) = true := by
          simpa using hb
        have hrun := nallocRun_full t.grp.nlimit.toNat ((lanes r.act).map fun l => (l, (x l).pay.toNat)) t.grp.ntop.toNat
        simp only [r, t] at h0 hfull hmap hrun ⊢
        simp only [hmap, hfull, hrun, if_neg h0, List.map_map]
        rfl
  · intro r
    have hredo : (issuedOf (.refchk c q a) c s z p).path.redo = none := h.2.1
    have hdead : (issuedOf (.refchk c q a) c s z p).path.dead = [] := by rw [Machine.Path.dead, hredo]
    have hx : exec (.refchk c q a) s = _ := congrArg Host.Outcome.next (issue_ready h _)
    simp only [hredo, hdead, Option.map_none, Option.getD_none, and_not_rest, perLane] at hx
    refine ⟨fun hn => ⟨_, ?_, writesPred_wrPred q _ fun _ => false⟩, fun l k pa size t hl ha ht hc => ?_⟩
    · rw [refScan_no_ref [] _ _ fun l hl => hn l (mem_lanes.1 hl).2] at hx
      exact hx
    · simp only [r] at ha ht hc
      rw [ha, lanes_laneBit hl, List.map_cons, List.map_nil, refScan_one ht hc] at hx
      simp only [r, ha]
      exact hx
  · intro r l hl ha h'
    exact ⟨fun n e he => ⟨unseal_valid h hl ha rfl he, handle?_unsealed he rfl⟩, fun he => unseal_invalid h hl ha rfl he⟩
  · intro r h'
    have hx : exec (.hinfo c f d a) s = _ := congrArg Host.Outcome.next (issue_ready h _)
    let look (l : Nat) : Option Tensor := (h' l).map fun e => Tensor.of e.2.words
    refine ⟨fun hn => ?_, fun w hw => ?_⟩
    · obtain ⟨l, hl, hl'⟩ := hn
      have hany : ((perLane r.act look).any fun e => e.2.isNone) = true :=
        (any_perLane Option.isNone).2 ⟨l, hl, by simp only [look, hl', Option.map_none, Option.isNone_none]⟩
      exact hx.trans (congrArg _ (if_pos hany))
    · have hlook : ∀ l ∈ lanes r.act, look l = some (w l) := by
        intro l hl
        obtain ⟨n, e, he, hw⟩ := hw l (mem_lanes.1 hl).2
        simp only [look, he, Option.map_some, hw]
      have hany : ¬((perLane r.act look).any fun e => e.2.isNone) = true := fun h => by
        obtain ⟨l, hl, hn⟩ := (any_perLane Option.isNone).1 h
        rw [hlook l (mem_lanes.2 ⟨BitVec.lt_of_getLsbD hl, hl⟩)] at hn
        cases hn
      have hvals : ((perLane r.act look).filterMap fun e => e.2.map fun t => (e.1, Val.raw (BitVec.ofNat 64 (hinfoField f t)))) =
          (lanes r.act).map fun l => (l, Val.raw (BitVec.ofNat 64 (hinfoField f (w l)))) := by
        rw [perLane, List.filterMap_map, ← List.filterMap_eq_map]
        refine List.filterMap_congr fun l hl => ?_
        simp only [Function.comp, hlook l hl, Option.map_some]
      refine ⟨wrReg r.state.grp c.ix d ((lanes r.act).map fun l => (l, Val.raw (BitVec.ofNat 64 (hinfoField f (w l))))),
        hx.trans (congrArg Host.Outcome.next ((if_neg hany).trans ?_)), ?_⟩
      · rw [← hvals]
        rfl
      · have hw : WritesReg d (regNum r.state.grp c.ix d) r.act (fun l => Val.raw (BitVec.ofNat 64 (hinfoField f (w l)))) _ :=
          writesReg_wrReg r.state.grp c.ix d r.act _
        cases f <;> exact hw

end Sys2Proof.Machine.Claim
end

section
/-! Words of a memory after a write (spec 03_values R2). -/
namespace Sys2Proof.Machine.Claim

theorem leBytes_length (n x : Nat) : (leBytes n x).length = n := by
  induction n generalizing x with
  | zero => rfl
  | succ n ih => rw [leBytes, List.length_cons, ih]
theorem leNat_leBytes (n x : Nat) : leNat (leBytes n x) = x % 256 ^ n := by
  induction n generalizing x with
  | zero => rw [leBytes, leNat, Nat.pow_zero, Nat.mod_one]
  | succ n ih =>
    rw [leBytes, leNat, ih, BitVec.toNat_ofNat, show 256 ^ (n + 1) = 256 * 256 ^ n from Nat.pow_succ', Nat.mod_mul]

/-- A byte after a write of a run of bytes. -/
theorem rdByte_wrBytes (xs : List Byte) (m : Memory) (a k : Nat) :
    rdByte (wrBytes m a xs) k = if a ≤ k ∧ k < a + xs.length then xs.getD (k - a) 0 else rdByte m k := by
  induction xs generalizing m a with
  | nil =>
    have : ¬(a ≤ k ∧ k < a + 0) := by omega
    rw [List.length_nil, if_neg this]
    rfl
  | cons x r ih =>
    rw [wrBytes, ih, List.length_cons]
    by_cases hk : k = a
    · subst hk
      have h1 : ¬(k + 1 ≤ k ∧ k < k + 1 + r.length) := by omega
      have h2 : k ≤ k ∧ k < k + (r.length + 1) := by omega
      rw [if_neg h1, if_pos h2, Nat.sub_self]
      exact sget_sput_self ..
    · by_cases h : a + 1 ≤ k ∧ k < a + 1 + r.length
      · have h2 : a ≤ k ∧ k < a + (r.length + 1) := by omega
        have h3 : k - a = (k - (a + 1)) + 1 := by omega
        rw [if_pos h, if_pos h2, h3, List.getD_cons_succ]
      · have h2 : ¬(a ≤ k ∧ k < a + (r.length + 1)) := by omega
        rw [if_neg h, if_neg h2]
        exact sget_sput_ne _ _ _ hk
theorem rdBytes_wrBytes_same (m : Memory) (a : Nat) (xs : List Byte) : rdBytes (wrBytes m a xs) a xs.length = xs := by
  refine List.ext_getElem (by simp [rdBytes]) fun i h1 h2 => ?_
  have h : a ≤ a + i ∧ a + i < a + xs.length := by omega
  simp only [rdBytes, List.getElem_map, List.getElem_range]
  rw [rdByte_wrBytes, if_pos h, Nat.add_sub_cancel_left, List.getD_eq_getElem _ _ h2]
theorem rdBytes_wrBytes_apart (m : Memory) (a b n : Nat) (xs : List Byte) (h : b + n ≤ a ∨ a + xs.length ≤ b) :
    rdBytes (wrBytes m a xs) b n = rdBytes m b n := by
  refine List.map_congr_left fun k hk => ?_
  have hk := List.mem_range.1 hk
  have hn : ¬(a ≤ b + k ∧ b + k < a + xs.length) := by omega
  rw [rdByte_wrBytes, if_neg hn]

/-- A word reads what was written to it. -/
theorem rdWord_wrWord_same (m : Memory) (w : Nat) (x : Word) : rdWord (wrWord m w x) w = x := by
  have h := rdBytes_wrBytes_same m (8 * w) (leBytes 8 x.toNat)
  rw [leBytes_length] at h
  rw [rdWord, wrWord, h, leNat_leBytes, show (256 : Nat) ^ 8 = 2 ^ 64 from rfl, Nat.mod_eq_of_lt x.isLt, BitVec.ofNat_toNat, BitVec.setWidth_eq]
/-- A write of a word leaves the others. -/
theorem rdWord_wrWord_ne (m : Memory) {v w : Nat} (x : Word) (h : v ≠ w) : rdWord (wrWord m w x) v = rdWord m v := by
  rw [rdWord, wrWord, rdBytes_wrBytes_apart _ _ _ _ _ (by rw [leBytes_length]; omega)]
  rfl

/-! ### Scratchpad words -/

section
variable (s : State) (by_ : Option Writer) (w : Nat) (x : Val)

theorem spdWord_putBank_same : (s.putBank by_ .spd w x).spdWord w = x := by
  change Val.mk (sget .raw (sput .raw s.spdTags w x.tag) w) (rdWord (wrWord s.spd w x.pay) w) = x
  rw [sget_sput_self, rdWord_wrWord_same]
theorem spdWord_putBank_ne {v : Nat} (h : v ≠ w) : (s.putBank by_ .spd w x).spdWord v = s.spdWord v := by
  change Val.mk (sget .raw (sput .raw s.spdTags w x.tag) v) (rdWord (wrWord s.spd w x.pay) v) = _
  rw [sget_sput_ne _ _ _ h, rdWord_wrWord_ne _ _ h]
  rfl
end

/-- States with the same scratchpads. -/
def SameSpd (s t : State) : Prop := t.spd = s.spd ∧ t.spdTags = s.spdTags
theorem SameSpd.refl (s : State) : SameSpd s s := ⟨rfl, rfl⟩
theorem SameSpd.trans {s t u : State} (h : SameSpd s t) (k : SameSpd t u) : SameSpd s u := ⟨k.1.trans h.1, k.2.trans h.2⟩
theorem SameSpd.barAt {s t : State} (h : SameSpd s t) (a : Nat) : t.barAt a = s.barAt a := by
  unfold State.barAt State.spdWord
  rw [h.1, h.2]
theorem sameSpd_foldl {α : Type} {f : State → α → State} (h : ∀ s x, SameSpd s (f s x)) (l : List α) (s : State) :
    SameSpd s (l.foldl f s) := by
  induction l generalizing s with
  | nil => exact .refl s
  | cons x r ih => exact (h s x).trans (ih _)
theorem sameSpd_putBar (s : State) (blk grp : Nat) (b : Bool) (w : BarWait) : SameSpd s (s.putBar blk grp b w) := by
  unfold State.putBar
  split
  · exact .refl s
  · split
    · exact .refl s
    · dsimp only
      split <;> exact .refl s
theorem sameSpd_decideBars (s : State) (f : BarLane → Option Nat) : SameSpd s (s.decideBars f) := by
  refine sameSpd_foldl (fun s g => ?_) _ s
  have one : ∀ (b : Bool) (s : State), SameSpd s (match g.slot b with
      | some p =>
        match p.wait with
        | .bar w => if w.lanes.any fun l => (f l).isSome then s.putBar g.blk g.grp b (w.decide f) else s
        | _ => s
      | none => s) := by
    intro b s
    split
    · split
      · split
        · exact sameSpd_putBar ..
        · exact .refl s
      · exact .refl s
    · exact .refl s
  exact (one false s).trans (one true _)

end Sys2Proof.Machine.Claim
end

section
/-! Barrier objects and the instructions on them (spec 21_sync R246, R249, R252, R253). -/
namespace Sys2Proof.Machine.Claim

/-! ### The object -/

/-- The fields of an object in their ranges. -/
def BarOk (o : BarObj) : Prop := 1 ≤ o.expa ∧ o.expa < 2 ^ 16 ∧ o.pena ≤ o.expa ∧ o.phase < 2 ^ 32 ∧ o.penb < 2 ^ 32 ∧ o.expb < 2 ^ 31

theorem barAt_ok {s : State} {a : Nat} {o : BarObj} (h : s.barAt a = some o) : BarOk o := by
  unfold State.barAt at h
  dsimp only at h
  split at h
  next hc =>
    obtain ⟨-, -, h1, h2, h3⟩ := hc
    cases h
    exact ⟨h1, Nat.mod_lt _ (by decide), h2, Nat.mod_lt _ (by decide), Nat.mod_lt _ (by decide), h3⟩
  · cases h
/-- The two words of an object read back as the object. -/
theorem barAt_words {s : State} {a : Nat} {o : BarObj} (ho : BarOk o) (h0 : s.spdWord (a / 8) = o.words.1)
    (h1 : s.spdWord (a / 8 + 1) = o.words.2) : s.barAt a = some o := by
  obtain ⟨e1, e2, e3, e4, e5, e6⟩ := ho
  have p1 : fld o.words.1.pay 48 16 = o.pena := by
    simp only [BarObj.words, Val.raw, fld, BitVec.toNat_ofNat]
    omega
  have p2 : fld o.words.1.pay 32 16 = o.expa := by
    simp only [BarObj.words, Val.raw, fld, BitVec.toNat_ofNat]
    omega
  have p3 : fld o.words.1.pay 0 32 = o.phase := by
    simp only [BarObj.words, Val.raw, fld, BitVec.toNat_ofNat]
    omega
  have p4 : fld o.words.2.pay 32 32 = o.penb := by
    simp only [BarObj.words, Val.raw, fld, BitVec.toNat_ofNat]
    omega
  have p5 : fld o.words.2.pay 0 32 = o.expb := by
    simp only [BarObj.words, Val.raw, fld, BitVec.toNat_ofNat]
    omega
  unfold State.barAt
  simp only [h0, h1, p1, p2, p3, p4, p5]
  exact if_pos ⟨rfl, rfl, e1, e3, e6⟩
theorem barAt_putObj (s : State) (by_ : Option Writer) (a : Nat) {o : BarObj} (ho : BarOk o) :
    (s.putObj by_ a o.words.1 o.words.2).barAt a = some o := by
  unfold State.putObj State.testBars
  rw [(sameSpd_decideBars _ _).barAt]
  refine barAt_words ho ?_ (spdWord_putBank_same ..)
  rw [spdWord_putBank_ne _ _ _ _ (by omega), spdWord_putBank_same]

/-! ### The update -/

/-- An object after an update of R246. -/
def afterUpdate (o : BarObj) (arr : Bool) (n : Nat) : BarObj :=
  let pa := if arr then o.pena - 1 else o.pena
  let pb := (o.penb + n) % 2 ^ 32
  if pa = 0 ∧ pb = 0 then ⟨o.expa, o.expa, (o.phase + 1) % 2 ^ 32, o.expb, o.expb⟩ else ⟨pa, o.expa, o.phase, pb, o.expb⟩
theorem barOk_after {o : BarObj} (ho : BarOk o) (arr : Bool) (n : Nat) : BarOk (afterUpdate o arr n) := by
  obtain ⟨e1, e2, e3, e4, e5, e6⟩ := ho
  unfold afterUpdate
  dsimp only
  have hpa : (if arr then o.pena - 1 else o.pena) ≤ o.expa := by split <;> omega
  generalize (if arr then o.pena - 1 else o.pena) = pa at hpa ⊢
  split
  · exact ⟨e1, e2, Nat.le_refl _, Nat.mod_lt _ (by decide), Nat.lt_trans e6 (by decide), e6⟩
  · exact ⟨e1, e2, hpa, e4, Nat.mod_lt _ (by decide), e6⟩

section
variable {s : State} {by_ : Option Writer} {a : Nat} {arr : Bool} {n : Nat}

theorem barUpdate_none (h : s.barAt a = none) : s.barUpdate by_ a arr n 0 = (-2, s) := by
  rw [State.barUpdate, h]
theorem barUpdate_done {o : BarObj} (h : s.barAt a = some o) (ha : arr = true) (hp : o.pena = 0) :
    s.barUpdate by_ a arr n 0 = (-1, s) := by
  rw [State.barUpdate, h]
  exact if_pos (by simp [ha, hp])
theorem barUpdate_some {o : BarObj} (h : s.barAt a = some o) (hn : ¬(arr = true ∧ o.pena = 0)) :
    (s.barUpdate by_ a arr n 0).1 = o.phase ∧ (s.barUpdate by_ a arr n 0).2.barAt a = some (afterUpdate o arr n) := by
  have hb : (o.penb + n + 2 ^ 32 - 0 % 2 ^ 32) % 2 ^ 32 = (o.penb + n) % 2 ^ 32 := by omega
  have he : s.barUpdate by_ a arr n 0 =
      ((o.phase : Int), if afterUpdate o arr n = o then s else s.putObj by_ a (afterUpdate o arr n).words.1 (afterUpdate o arr n).words.2) := by
    rw [State.barUpdate, h]
    dsimp only
    rw [if_neg (by simpa using hn), hb]
    rfl
  rw [he]
  refine ⟨rfl, ?_⟩
  dsimp only
  split
  next hs => rw [hs, h]
  next => exact barAt_putObj s by_ a (barOk_after (barAt_ok h) arr n)
end

/-! ### The lanes -/

theorem sameSpd_lateWrite (s : State) (me : Writer) (sp word : Nat) (bytes : BitVec 8) : SameSpd s (s.lateWrite me sp word bytes) := by
  obtain ⟨_, _, h⟩ := lateWrite_rest s me sp word bytes
  rw [h]
  exact .refl s
theorem sameSpd_lateObj (s : State) (me : Writer) (a : Nat) : SameSpd s (s.lateObj me a) :=
  (sameSpd_lateWrite ..).trans (sameSpd_lateWrite ..)
theorem sameSpd_arrivedAt (s : State) (me : Writer) (a : Nat) : SameSpd s (s.arrivedAt me a) := by
  unfold State.arrivedAt
  split
  · exact .refl s
  · split
    · exact .refl s
    · dsimp only
      split <;> exact .refl s

/-- One lane's update: what it returns, and the object it leaves. -/
theorem barLanes_one (b : Bool) (me : Writer) (arr : Bool) (bytes : Nat → Nat) (l o : Nat) (s : State) :
    let u := s.drainObj (some me) o
    ∃ (ph : Int) (t : State), State.barLanes b me arr bytes [(l, o)] s = ([(l, .ofInt ph)], t) ∧
      (u.barAt o = none → ph = -2 ∧ t = { u with early := t.early }) ∧
      (∀ k, u.barAt o = some k → arr = true → k.pena = 0 → ph = -1 ∧ t = { u with early := t.early }) ∧
      (∀ k, u.barAt o = some k → ¬(arr = true ∧ k.pena = 0) → ph = k.phase ∧ t.barAt o = some (afterUpdate k arr (bytes l))) := by
  intro u
  generalize hup : u.barUpdate (some me) o arr (bytes l) 0 = r
  obtain ⟨ph, v⟩ := r
  let w := (if v.spd = u.spd then v else (v.changed b).lateObj me o).passWords me 2 (o / 8) 2
  refine ⟨ph, if arr && decide (0 ≤ ph) then w.arrivedAt me o else w, ?_, fun h => ?_, fun k h ha hp => ?_, fun k h hn => ?_⟩
  · simp only [State.barLanes]
    rw [show State.barUpdate _ _ _ _ _ _ = _ from hup]
  · rw [barUpdate_none h] at hup
    cases hup
    refine ⟨rfl, ?_⟩
    have h0 : (arr && decide ((0 : Int) ≤ -2)) = false := by simp
    rw [if_neg (by rw [h0]; exact Bool.false_ne_true)]
    simp only [w, if_true]
    rfl
  · rw [barUpdate_done h ha hp] at hup
    cases hup
    refine ⟨rfl, ?_⟩
    have h0 : (arr && decide ((0 : Int) ≤ -1)) = false := by simp
    rw [if_neg (by rw [h0]; exact Bool.false_ne_true)]
    simp only [w, if_true]
    rfl
  · obtain ⟨h1, h2⟩ := barUpdate_some (by_ := some me) (n := bytes l) h hn
    rw [hup] at h1 h2
    refine ⟨h1, ?_⟩
    have hw : SameSpd v w := by
      refine SameSpd.trans (t := if v.spd = u.spd then v else (v.changed b).lateObj me o) ?_ ⟨rfl, rfl⟩
      split
      · exact .refl v
      · exact (SameSpd.refl v : SameSpd v (v.changed b)).trans (sameSpd_lateObj ..)
    have ht : SameSpd v (if arr && decide (0 ≤ ph) then w.arrivedAt me o else w) := by
      split
      · exact hw.trans (sameSpd_arrivedAt ..)
      · exact hw
    rw [ht.barAt]
    exact h2

/-- The lane that an issue of one lane names. -/
theorem barAddrs_lane {s : State} {p : Machine.Path} {k : MemOp} {act : Mask} {l o : Nat} (ha : act = laneBit l)
    (h : s.barAddrs p k act = .inr [(l, o)]) : l < 32 := by
  by_contra hl
  have h0 : act = 0 := by
    rw [ha, laneBit]
    exact BitVec.shiftLeft_eq_zero (by omega)
  rw [h0] at h
  cases h

/-- BARARR and BARTX of one lane: the update of the object, and the value of the lane. -/
theorem barUpdates_one {i : Instr} {c : Ctl} {cls arr : Bool} {d : Reg} {a x : Src} {off : BitVec 24} {s u : State} {z : Bool}
    {p : Machine.Path} {l o : Nat} (h : Issues i c s z p) (ha : (issuedOf i c s z p).act = laneBit l)
    (hb : (issuedOf i c s z p).state.barAddrs (issuedOf i c s z p).path
      (MemOp.plain (barSpace cls) 16 off (baseOf (issuedOf i c s z p).state z c a)) (issuedOf i c s z p).act = .inr [(l, o)])
    (hn : countOk 0 (2 ^ 31 - 1) (rdSrc (issuedOf i c s z p).state z c.ix x l) = true)
    (hu : u = if arr then (issuedOf i c s z p).state.drainGroup (issuedOf i c s z p).state.grp.blk (issuedOf i c s z p).state.grp.grp
      else (issuedOf i c s z p).state) :
    barUpdates i c cls arr d a x off s =
      let r := State.barLanes z (u.me (issuedOf i c s z p).path) arr
        (fun l => (rdSrc (issuedOf i c s z p).state z c.ix x l).pay.toNat) [(l, o)] u
      r.2.finish z c.sched .variable (laneBit l) (wrReg r.2.grp c.ix d r.1) := by
  have hl := barAddrs_lane ha hb
  have hany : ¬((lanes (issuedOf i c s z p).act).any fun l =>
      !countOk 0 (2 ^ 31 - 1) (rdSrc (issuedOf i c s z p).state z c.ix x l)) = true := by
    rw [ha, lanes_laneBit hl, List.any_cons, hn]
    exact Bool.false_ne_true
  have hne : (arr && laneBit l != 0) = arr := by
    rw [bne_iff_ne.2 (laneBit_ne_zero hl), Bool.and_true]
  rw [barUpdates, issue_ready h]
  simp only [hb]
  rw [if_neg hany]
  simp only [ha, hne, ← hu]

theorem barAt_barInit (s : State) (by_ : Option Writer) (a : Nat) {n m : Nat} (hn : 1 ≤ n ∧ n < 2 ^ 16) (hm : m < 2 ^ 31) :
    (s.barInit by_ a n m).barAt a = some ⟨n, n, 0, m, m⟩ :=
  barAt_putObj (s.abandonBars a) by_ a (o := ⟨n, n, 0, m, m⟩)
    ⟨hn.1, hn.2, Nat.le_refl n, Nat.two_pow_pos 32, Nat.lt_trans hm (by decide), hm⟩
theorem sameSpd_passWords (s : State) (me : Writer) (sp w n : Nat) : SameSpd s (s.passWords me sp w n) := ⟨rfl, rfl⟩

/-- BARINIT of one lane. -/
theorem barinit_one {c : Ctl} {cls : Bool} {a x y : Src} {off : BitVec 24} {s : State} {z : Bool} {p : Machine.Path} {l o : Nat}
    {r : Issue} (hr : issuedOf (.barinit c cls a x y off) c s z p = r) (h : Issues (.barinit c cls a x y off) c s z p)
    (ha : r.act = laneBit l)
    (hb : r.state.barAddrs r.path (MemOp.plain (barSpace cls) 16 off (baseOf r.state z c a)) r.act = .inr [(l, o)])
    (hn : countOk 1 65535 (rdSrc r.state z c.ix x l) = true) (hm : countOk 0 (2 ^ 31 - 1) (rdSrc r.state z c.ix y l) = true) :
    ∃ t : State, exec (.barinit c cls a x y off) s = .next ((t.spend c.sched).next z) ∧
      t.barAt o = some ⟨(rdSrc r.state z c.ix x l).pay.toNat, (rdSrc r.state z c.ix x l).pay.toNat, 0,
        (rdSrc r.state z c.ix y l).pay.toNat, (rdSrc r.state z c.ix y l).pay.toNat⟩ := by
  have hl := barAddrs_lane ha hb
  have hx : exec (.barinit c cls a x y off) s = _ := congrArg Host.Outcome.next (issue_ready h _)
  have hany : ¬((lanes r.act).any fun l => !(countOk 1 65535 (rdSrc r.state z c.ix x l) &&
      countOk 0 (2 ^ 31 - 1) (rdSrc r.state z c.ix y l))) = true := by
    rw [ha, lanes_laneBit hl, List.any_cons, hn, hm]
    exact Bool.false_ne_true
  simp only [hr, hb] at hx
  rw [if_neg hany, List.foldl_cons, List.foldl_nil] at hx
  refine ⟨_, hx, ?_⟩
  dsimp only
  generalize r.state.drainObj (some (r.state.me r.path)) o = u
  generalize hv : ((u.barInit (some (r.state.me r.path)) o (rdSrc r.state z c.ix x l).pay.toNat (rdSrc r.state z c.ix y l).pay.toNat).passWords
    (r.state.me r.path) 2 (o / 8) 2) = v
  have hs : SameSpd v (if v.spd = u.spd ∧ v.spdTags = u.spdTags then v else (v.changed z).lateObj (r.state.me r.path) o) := by
    split
    · exact .refl v
    · exact (SameSpd.refl v : SameSpd v (v.changed z)).trans (sameSpd_lateObj ..)
  simp only [countOk, Bool.and_eq_true, decide_eq_true_eq] at hn hm
  rw [hs.barAt, ← hv, (sameSpd_passWords ..).barAt, barAt_barInit u _ o (by omega) (by omega)]

/-! ### Waits -/

/-- The status of a lane of a barrier wait. -/
def barStatus (u : State) (e : Nat × Option BarLane) : Nat :=
  match e.2 with
  | none => 2
  | some b => match u.barAt b.obj with
    | none => 2
    | some v => if v.phase = b.phase.toNat then 1 else 0
/-- Its test, as the instruction makes it. -/
def barTested (u : State) (e : Nat × Option BarLane) : Option Nat :=
  match e.2 with
  | some t => u.barTest t
  | none => some 2
theorem barTested_eq (u : State) (e : Nat × Option BarLane) : barTested u e = if barStatus u e = 1 then none else some (barStatus u e) := by
  unfold barTested barStatus State.barTest
  cases e.2 with
  | none => rfl
  | some t =>
    dsimp only
    rcases Option.eq_none_or_eq_some (u.barAt t.obj) with h | ⟨v, h⟩
    · simp only [h]
      rfl
    · simp only [h]
      split <;> rfl
theorem barTested_getD (u : State) (e : Nat × Option BarLane) : (barTested u e).getD 1 = barStatus u e := by
  rw [barTested_eq]
  split
  next h => exact h.symm
  next => rfl
theorem barTested_isNone (u : State) (e : Nat × Option BarLane) : (barTested u e).isNone = (barStatus u e == 1) := by
  rw [barTested_eq]
  split
  next h => rw [h]; rfl
  next h => exact (beq_false_of_ne h).symm
/-- An undecided lane has an object. -/
theorem barStatus_lane {u : State} {e : Nat × Option BarLane} (h : barStatus u e = 1) : ∃ b, e.2 = some b := by
  unfold barStatus at h
  split at h
  · cases h
  next b hb => exact ⟨b, hb⟩
/-- No lane is undecided exactly where no object is waited for. -/
theorem no_open {u : State} {ts : List (Nat × Option BarLane)} :
    ((ts.filter fun e => (barTested u e).isNone).filterMap Prod.snd).isEmpty = true ↔ ∀ e ∈ ts, (barStatus u e == 1) = false := by
  rw [List.isEmpty_iff, List.filterMap_eq_nil_iff]
  constructor
  · intro h e he
    by_contra hn
    obtain ⟨b, hb⟩ := barStatus_lane (beq_iff_eq.1 (Bool.not_eq_false _ ▸ hn))
    have := h e (List.mem_filter.2 ⟨he, by rw [barTested_isNone]; simpa using hn⟩)
    rw [hb] at this
    cases this
  · intro h e he
    obtain ⟨he, ht⟩ := List.mem_filter.1 he
    rw [barTested_isNone, h e he] at ht
    cases ht

/-- Settles O38. -/
theorem barriers : Obligations.Barriers := by
  unfold Obligations.Barriers
  intro c cls texp d q a x y off s z p l o found updated n
  have hup : ∀ (arr : Bool) (i : Instr) (u : State), Issues i c s z p → found i → exec i s = .next (barUpdates i c cls arr d a x off s) →
      countOk 0 (2 ^ 31 - 1) (n i) = true →
      (u = if arr then (issuedOf i c s z p).state.drainGroup (issuedOf i c s z p).state.grp.blk (issuedOf i c s z p).state.grp.grp
        else (issuedOf i c s z p).state) → updated i u arr (n i).pay.toNat := by
    intro arr i u h hf hx hn hu
    have he := barUpdates_one (d := d) (arr := arr) h hf.1 hf.2 hn hu
    obtain ⟨ph, t, hlanes, h1, h2, h3⟩ := barLanes_one z (u.me (issuedOf i c s z p).path) arr
      (fun l => (rdSrc (issuedOf i c s z p).state z c.ix x l).pay.toNat) l o u
    rw [hlanes] at he
    exact ⟨ph, t, hx.trans (congrArg _ he), h1, h2, h3⟩
  refine ⟨fun h hf => barinit_one rfl h hf.1 hf.2, fun h hf hn => hup true _ _ h hf rfl hn rfl, fun h hf hn => hup false _ _ h hf rfl hn rfl,
    fun h => ?_, fun h => ?_⟩
  · intro r ts u status open_
    have hx : exec (.bwait c cls texp d a x) s = _ := congrArg Host.Outcome.next (issue_ready h _)
    rw [hx]
    refine ⟨fun ht => congrArg _ ((if_pos (c := (List.isEmpty _ = true) ∨ texp = 0) ?_).trans ?_), fun ht he => ?_⟩
    · exact ht.symm.imp_left no_open.2
    · have hst : (ts.map fun e => (e.1, (barTested u e).getD 1)) = ts.map fun e => (e.1, barStatus u e) := by
        simp only [barTested_getD]
      have hw : wrReg u.grp c.ix d ((ts.map fun e => (e.1, (barTested u e).getD 1)).map fun e => (e.1, Val.ofInt e.2)) =
          wrReg u.grp c.ix d (ts.map fun e => (e.1, .ofInt (status e))) := by
        rw [hst, List.map_map]
        rfl
      have hany : ((ts.map fun e => (e.1, (barTested u e).getD 1)).any fun e => e.2 == 0) = ts.any fun e => status e == 0 := by
        rw [hst, List.any_map]
        rfl
      rw [← hw, ← hany]
      rfl
    · have hn : ¬(((ts.filter fun e => (barTested u e).isNone).filterMap Prod.snd).isEmpty = true ∨ texp = 0) := by
        obtain ⟨e, hm, ho⟩ := he
        rintro (h0 | h0)
        · rw [show open_ e = false from no_open.1 h0 e hm] at ho
          cases ho
        · exact ht h0
      refine ⟨_, congrArg _ (if_neg hn), ?_, rfl, rfl, rfl⟩
      dsimp only
      rw [List.map_map]
      change ((ts.filter fun e => (barTested u e).isNone).filterMap Prod.snd).map BarLane.lane = _
      simp only [barTested_isNone, List.map_filterMap]
      rfl
  · intro r ts u phase bit w
    have hx : exec (.btest c cls d a x q) s = _ := congrArg Host.Outcome.next (issue_ready h _)
    rw [hx]
    have hphase : ∀ e : Nat × Option BarLane, (match e.2.bind fun t => u.barAt t.obj with
        | some o => Val.ofInt o.phase
        | none => Val.ofInt (-2)) = Val.ofInt (phase e) := by
      intro e
      rcases Option.eq_none_or_eq_some (e.2.bind fun t => u.barAt t.obj) with h | ⟨v, h⟩ <;> simp only [phase, h]
    have hbit : ∀ e : Nat × Option BarLane, (match e.2 with
        | some t => u.barTest t == some 0
        | none => false) = bit e := by
      intro e
      rcases e with ⟨k, - | b⟩
      · rfl
      · rcases Option.eq_none_or_eq_some (u.barAt b.obj) with h | ⟨v, h⟩ <;> simp only [bit, State.barTest, h]
        · rfl
        · by_cases hv : v.phase = b.phase.toNat
          · simp [hv]
          · simp [hv]
    have hw : wrReg u.grp c.ix d (ts.map fun e => (e.1, match e.2.bind fun t => u.barAt t.obj with
        | some o => Val.ofInt o.phase
        | none => Val.ofInt (-2))) = wrReg u.grp c.ix d (ts.map fun e => (e.1, .ofInt (phase e))) := by
      simp only [hphase]
    have hb : (ts.map fun e => (e.1, match e.2 with
        | some t => u.barTest t == some 0
        | none => false)) = ts.map fun e => (e.1, bit e) := by
      simp only [hbit]
    have hany : ((ts.map fun e => (e.1, bit e)).any Prod.snd) = ts.any bit := by
      rw [List.any_map]
      rfl
    simp only [w]
    rw [← hw, ← hany, ← hb] <;> rfl

end Sys2Proof.Machine.Claim
end

section
/-! PGET and PWAIT of one lane (spec 23_promises R275, R276). -/
namespace Sys2Proof.Machine.Claim

/-! ### Predicate writes and the others -/

theorem wrs_append (g : Group) (xs ys : List RegWrite) : g.wrs (xs ++ ys) = (g.wrs xs).wrs ys := by
  induction xs generalizing g with
  | nil => rfl
  | cons w r ih => exact ih _
theorem wr_pred_wrNum (g : Group) (n q l m : Nat) (b : Bool) (v : Val) :
    (g.wr (.p q l b)).wrs (wrNum n [(m, v)]) = (g.wrs (wrNum n [(m, v)])).wr (.p q l b) := by
  unfold wrNum
  split <;> rfl
/-- The predicate bit of a lane may come before or after its value. -/
theorem wrs_pred_value (q : Pred) (l n m : Nat) (b : Bool) (v : Val) (ws : List RegWrite) (g : Group) :
    g.wrs (ws ++ wrPred q [(l, b)] ++ wrNum n [(m, v)]) = g.wrs (ws ++ wrNum n [(m, v)] ++ wrPred q [(l, b)]) := by
  have hq : wrPred q [(l, b)] = [.p q.val l b] := rfl
  rw [wrs_append, wrs_append, wrs_append, wrs_append, hq]
  exact wr_pred_wrNum ..
theorem wrs_bits_value (o : Option Pred) (l n : Nat) (b : Bool) (v : Val) (ws : List RegWrite) {bs : List RegWrite}
    (hb : (o.elim [] fun q => wrPred q [(l, b)]) = bs) (g : Group) :
    g.wrs (ws ++ [] ++ (o.elim [] fun q => wrPred q [(l, b)]) ++ wrNum n [(l, v)]) = g.wrs (ws ++ wrNum n [(l, v)] ++ bs) := by
  subst hb
  rw [List.append_nil]
  cases o with
  | none => rw [Option.elim_none, List.append_nil, List.append_nil]
  | some q => exact wrs_pred_value ..
theorem wrNum_nil (n : Nat) : wrNum n [] = [] := by
  unfold wrNum
  split <;> rfl

/-! ### The reads of one lane -/

/-- A root whose lane gets an entry leaves no lane without one. -/
theorem registerAll_one {z : Bool} {w l : Nat} {t u : State} (va : Nat → Nat) (hg : t.register z w (laneBit l) = some u) :
    State.registerAll z va (byRoot w l []) t = ([], u) := by
  rw [byRoot, State.registerAll, maskOf_one, hg]
  rfl

section
variable {i : Instr} {c : Ctl} {d : Vec} {a : Src} {q : Option Pred} {wait : Option (BitVec 5)} {s t : State} {z : Bool} {p : Machine.Path}
  {l : Nat} {k : Cell} {r : Issue} (hr : issuedOf i c s z p = r) (h : Issues i c s z p)
include hr h

theorem issued_no_redo : r.path.redo = none := by
  rw [← hr]
  exact h.2.1

variable (hl : l < 32) (ha : r.act = laneBit l) (hk : r.state.cellAt r.path [] l (rdSrc r.state z c.ix a l) = (k, t))
include hl ha hk
/-- The only Active lane of a read has been read. -/
theorem cellsAt_one : State.cellsAt r.path r.path.dead (perLane r.act fun l => rdSrc r.state z c.ix a l) r.state =
    ([(l, (rdSrc r.state z c.ix a l).pay.toNat, k)], t) := by
  have hd : r.path.dead = [] := by rw [Machine.Path.dead, issued_no_redo hr h]
  rw [hd, ha, perLane, lanes_laneBit hl, List.map_cons, List.map_nil, State.cellsAt]
  dsimp only
  rw [hk]
  rfl
/-- A read that finds no missing page and waits for nothing has its results at once. -/
theorem promRead_done (hm : ∀ va, k ≠ .missing va) (hw : (wait = none ∨ wait = some 0) ∨ ∀ w, k ≠ .unfilled w) :
    promRead i c d a q wait s =
      t.promDone (faceOf r.state i) c z r.path (laneBit l) (vecNum r.state.grp c.ix d) q
        [(l, k.status.1, k.status.2, (rdSrc r.state z c.ix a l).pay.toNat)] := by
  have hc := cellsAt_one hr h hl ha hk
  rw [promRead, issue_ready h, hr]
  simp only [issued_no_redo hr h, Option.map_none, Option.getD_none, Option.bind_none, hc]
  rw [ha]
  cases k with
  | missing va => exact absurd rfl (hm va)
  | bad =>
    simp only [List.foldl_cons, List.foldl_nil, List.filterMap_cons, List.filterMap_nil]
    split <;> rfl
  | filled v =>
    simp only [List.foldl_cons, List.foldl_nil, List.filterMap_cons, List.filterMap_nil]
    split <;> rfl
  | unfilled w =>
    obtain hw | hw := hw
    · obtain rfl | rfl := hw <;> rfl
    · exact absurd rfl (hw w)

variable {e : BitVec 5} {w : Nat} {u : State} (he : e ≠ 0) (hu : k = .unfilled w) (hg : t.register z w (laneBit l) = some u)
include he hu hg
/-- A read that waits registers its lane on the root. -/
theorem promRead_waits :
    promRead i c d a q (some e) s =
      u.setGrp fun g => g.modSlot z fun p => { p with wait := .prom {
        ctl := c, num := vecNum r.state.grp c.ix d, face := faceOf r.state i, lanes := [(l, (rdSrc r.state z c.ix a l).pay.toNat)]
        status := [], deadline := u.deadline u.grp.blk e, active := laneBit l } } := by
  have hc := cellsAt_one hr h hl ha hk
  rw [promRead, issue_ready h, hr]
  simp only [issued_no_redo hr h, Option.map_none, Option.getD_none, Option.bind_none, hc]
  rw [ha]
  subst hu
  simp only [List.foldl_cons, List.foldl_nil, List.filterMap_cons, List.filterMap_nil]
  split
  case h_1 hn => cases hn
  case h_2 hn => exact absurd (Option.some.inj hn) he
  case h_3 hn _ _ => cases hn
  case h_4 hn _ =>
    cases hn
    simp only [registerAll_one _ hg, List.contains_nil, Bool.not_false, List.filter_true, List.map_cons, List.map_nil, List.any_cons,
      List.any_nil, beq_self_eq_true, Bool.true_or, if_true, Bool.false_eq_true, if_false, List.filterMap_cons, List.filterMap_nil]
end

/-! ### The values of a read -/

/-- Where no lane raises or stops, the results are written and the path goes on. -/
theorem raiseClasses_none (s : State) (k : Face) (z : Bool) (sc : Sched) (m : Mask) (ws : List RegWrite) :
    (s.retire z sc .variable (m &&& ~~~(maskOf [] ||| maskOf [])) ws).raiseClasses z k m [] [] (stopOf (maskOf []) []) =
      s.finish z sc .variable m ws := by
  have hm : m &&& ~~~(maskOf [] ||| maskOf []) = m := by
    rw [show maskOf [] ||| maskOf [] = (0 : Mask) from rfl, show ~~~(0 : Mask) = BitVec.allOnes 32 from rfl, BitVec.and_allOnes]
  rw [hm]
  rfl
/-- A lane without a value has its status, and the path goes on. -/
theorem promDone_none (s : State) (k : Face) (c : Ctl) (z : Bool) (p : Machine.Path) (hp : p.redo = none) (m : Mask) (n : Nat) (q : Option Pred)
    (l st va : Nat) (hs : st ≠ 0) :
    s.promDone k c z p m n q [(l, st, Val.nil, va)] = s.finish z c.sched .variable m
      (wrNum n [(l, .ofInt st)] ++ wrNum (n + 1) [(l, Val.nil)] ++ (q.elim [] fun q => wrPred q [(l, false)])) := by
  have hb : (st == 0) = false := beq_eq_false_iff_ne.2 hs
  unfold State.promDone State.promValues
  simp only [List.any_cons, List.any_nil, hb, hp, Bool.or_false, Bool.false_eq_true, if_false, List.filter_cons_of_neg, not_false_eq_true,
    bne, Bool.not_false, List.filter_cons_of_pos, List.filter_nil, List.map_nil, List.map_cons, State.sweepBar, Option.map_none, Option.getD_none]
  have hws : ∀ ws, ws ++ wrNum (n + 1) (outVals 0 []) = ws := fun ws => by
    rw [show outVals 0 [] = [] from rfl, wrNum_nil, List.append_nil]
  rw [hws]
  exact (raiseClasses_none s k z c.sched m _).trans (by cases q <;> rfl)
/-- A lane with a value that the barrier lets pass has status 0, and the path goes on. -/
theorem promDone_some (s : State) (k : Face) (c : Ctl) (z : Bool) (p : Machine.Path) (hp : p.redo = none) (m : Mask) (n : Nat) (q : Option Pred)
    (l va : Nat) (v : Val) (hv : v.tag ≠ .ref) :
    s.promDone k c z p m n q [(l, 0, v, va)] = (s.acquireMe p).finish z c.sched .variable m
      (wrNum n [(l, .ofInt 0)] ++ [] ++ (q.elim [] fun q => wrPred q [(l, true)]) ++ wrNum (n + 1) [(l, v)]) := by
  have hb : (s.acquireMe p).bar p [] l false v = (.val v false, false, s.acquireMe p) := if_pos (.inl hv)
  have hw : State.sweepBar p z promOp [] [LaneOut.of l va [v] none] false ⟨[], [], [], [], false⟩ (s.acquireMe p) =
      (⟨[LaneOut.of l va [v] none], [], [], [], false⟩, s.acquireMe p) := by
    simp only [State.sweepBar, promOp, LaneOut.of, Bool.not_true, Option.isSome_none, Bool.or_self, Bool.false_eq_true, if_false,
      State.barVals, hb, Bool.false_and, List.nil_append]
  unfold State.promDone State.promValues
  simp only [List.any_cons, List.any_nil, hp, Bool.or_false, beq_self_eq_true, if_true, bne, Bool.not_true, Bool.false_eq_true,
    not_false_eq_true, List.filter_cons_of_neg, List.filter_cons_of_pos, List.filter_nil, List.map_nil, List.map_cons, Option.map_none,
    Option.getD_none, hw]
  rw [wrNum_nil]
  exact (raiseClasses_none (s.acquireMe p) k z c.sched m _).trans (by cases q <;> rfl)

/-- Settles O39. -/
theorem promiseReads : Obligations.PromiseReads := by
  unfold Obligations.PromiseReads
  intro c texp d a q s z p l k t hl here num one same reads
  have read (i : Instr) (o : Option Pred) (wait : Option (BitVec 5)) (bit : Bool → List RegWrite) (last : Bool)
      (hi : ∀ s, exec i s = .next (promRead i c d a o wait s)) (hbit : ∀ b, (o.elim [] fun q => wrPred q [(l, b)]) = bit b)
      (hw : last = true → wait = none ∨ wait = some 0) (h : here i) : reads i bit last := by
    obtain ⟨hiss, ha, hk⟩ := h
    have hp := issued_no_redo rfl hiss
    have done := promRead_done (d := d) (q := o) (wait := wait) rfl hiss hl ha hk
    refine ⟨fun v hv ht => ⟨_, wrs_bits_value o l _ _ v (wrNum (num i) [(l, .ofInt 0)]) (hbit true), ?_⟩,
      fun hv => ⟨_, fun _ => rfl, ?_⟩, fun w hv hlast => ⟨_, fun _ => rfl, ?_⟩⟩
    · rw [hi, done (by simp [hv]) (.inr (by simp [hv])), hv]
      exact congrArg _ (promDone_some _ _ c z _ hp _ _ o l _ v ht)
    · rw [hi, done (by simp [hv]) (.inr (by simp [hv])), hv, ← hbit]
      exact congrArg _ (promDone_none _ _ c z _ hp _ _ o l 2 _ (by decide))
    · rw [hi, done (by simp [hv]) (.inl (hw hlast)), hv, ← hbit]
      exact congrArg _ (promDone_none _ _ c z _ hp _ _ o l 1 _ (by decide))
  refine ⟨read _ (some q) none _ true (fun _ => rfl) (fun _ => rfl) fun _ => .inl rfl,
    read _ none (some texp) _ _ (fun _ => rfl) (fun _ => rfl) fun he => .inr (congrArg some (eq_of_beq he)),
    fun ⟨hiss, ha, hk⟩ he w u hv hu => ?_⟩
  exact congrArg _ (promRead_waits rfl hiss hl ha hk he hv hu)
end Sys2Proof.Machine.Claim
end

section
/-! The group operations: only Active lanes take part (spec 21_sync R258 to R262). -/
namespace Sys2Proof.Machine.Claim

/-! ### Values and bits of the Active lanes -/

theorem perLane_congr {α : Type} {m : Mask} {f g : Nat → α} (h : ∀ l, l < 32 → m.getLsbD l = true → f l = g l) : perLane m f = perLane m g :=
  List.map_congr_left fun l hl => by rw [h l (mem_lanes.1 hl).1 (mem_lanes.1 hl).2]
theorem perLane_map {α β : Type} (m : Mask) (f : Nat → α) (g : α → β) : ((perLane m f).map fun e => (e.1, g e.2)) = perLane m fun l => g (f l) :=
  List.map_map ..
theorem isSome_if {α : Type} (b : Bool) (x : α) : (if b then some x else none).isSome = b := by
  cases b <;> rfl
theorem val_eq_iff (x y : Val) : x = y ↔ x.pay = y.pay ∧ x.tag = y.tag :=
  ⟨fun h => h ▸ ⟨rfl, rfl⟩, fun ⟨h, k⟩ => by cases x; cases y; cases h; cases k; rfl⟩
/-- A completion that writes a value of each Active lane. -/
theorem givesVal_of {i : Instr} {c : Ctl} {lat : Machine.Lat} {d : Reg} {s : State} {z : Bool} {p : Machine.Path} {f : State → Nat → Val}
    {v : Nat → Val} (hx : exec i s = .next ((issuedOf i c s z p).state.finish z c.sched lat (issuedOf i c s z p).act
      (wrReg (issuedOf i c s z p).state.grp c.ix d (perLane (issuedOf i c s z p).act v))))
    (hv : ∀ l, l < 32 → (issuedOf i c s z p).act.getLsbD l = true → v l = f (issuedOf i c s z p).state l) : GivesVal i c lat d s z p f :=
  ⟨_, hx, by rw [perLane_congr hv]; exact writesReg_wrReg _ _ _ _ _⟩
/-- A completion that writes a bit of each Active lane. -/
theorem givesBit_of {i : Instr} {c : Ctl} {lat : Machine.Lat} {d : Pred} {s : State} {z : Bool} {p : Machine.Path} {f : State → Nat → Bool}
    {v : Nat → Bool} (hx : exec i s = .next ((issuedOf i c s z p).state.finish z c.sched lat (issuedOf i c s z p).act
      (wrPred d (perLane (issuedOf i c s z p).act v))))
    (hv : ∀ l, l < 32 → (issuedOf i c s z p).act.getLsbD l = true → v l = f (issuedOf i c s z p).state l) : GivesBit i c lat d s z p f :=
  ⟨_, hx, by rw [perLane_congr hv]; exact writesPred_wrPred _ _ _⟩

/-! ### Masks -/

/-- The lanes that take part. -/
def takesPart (act : Mask) (l : Nat) : Bool := decide (l < 32) && act.getLsbD l
theorem takesPart_iff {act : Mask} {l : Nat} : takesPart act l = true ↔ l ∈ lanes act := by
  rw [takesPart, Bool.and_eq_true, decide_eq_true_iff, mem_lanes]
theorem filter_takesPart (act : Mask) : (List.range 32).filter (takesPart act) = lanes act :=
  List.filter_congr fun l hl => by rw [takesPart, decide_eq_true (List.mem_range.1 hl), Bool.true_and]
theorem mask_ne_zero (m : Mask) : (m != 0) = (List.range 32).any m.getLsbD := by
  rw [Bool.eq_iff_iff, bne_iff_ne, List.any_eq_true, ne_eq, BitVec.eq_of_getLsbD_eq_iff]
  push Not
  simp only [List.mem_range, BitVec.ofNat_eq_ofNat, BitVec.getLsbD_zero, ne_eq, Bool.not_eq_false]
theorem some_bit (m act : Mask) :
    ((m &&& act) != 0) = (List.range 32).any fun k => takesPart act k && m.getLsbD k := by
  rw [mask_ne_zero, Bool.eq_iff_iff, List.any_eq_true, List.any_eq_true]
  simp only [takesPart, List.mem_range, BitVec.getLsbD_and, Bool.and_eq_true, decide_eq_true_iff]
  exact exists_congr fun k => by tauto
theorem every_bit (m act : Mask) :
    ((m &&& act) == act) = (List.range 32).all fun k => !takesPart act k || m.getLsbD k := by
  rw [Bool.eq_iff_iff, beq_iff_eq, List.all_eq_true, BitVec.eq_of_getLsbD_eq_iff]
  refine forall_congr' fun k => ?_
  rw [List.mem_range]
  refine forall_congr' fun hk => ?_
  rw [BitVec.getLsbD_and, takesPart, decide_eq_true hk]
  cases m.getLsbD k <;> cases act.getLsbD k <;> decide
theorem laneBit_bit (l : Nat) {k : Nat} (hk : k < 32) : (laneBit l).getLsbD k = decide (k = l) := by
  rw [laneBit, BitVec.getLsbD_shiftLeft, decide_eq_true hk, BitVec.ofNat_eq_ofNat, BitVec.getLsbD_one, Bool.eq_iff_iff]
  simp
  omega
theorem maskOf_getLsbD (ls : List Nat) {k : Nat} (hk : k < 32) : (maskOf ls).getLsbD k = decide (k ∈ ls) := by
  have key (m : Mask) : (ls.foldl (fun m l => m ||| laneBit l) m).getLsbD k = (m.getLsbD k || decide (k ∈ ls)) := by
    induction ls generalizing m with
    | nil => simp
    | cons l r ih =>
      rw [List.foldl_cons, ih, BitVec.getLsbD_or, laneBit_bit l hk]
      simp [Bool.or_assoc]
  exact (key 0).trans (by simp)
/-- The lowest lane is the one below which no lane takes part. -/
theorem lowest_beq {act : Mask} {l : Nat} (hl : l < 32) (h : act.getLsbD l = true) :
    (lowest act == some l) = decide (∀ k, k < l → takesPart act k = false) := by
  rw [Bool.eq_iff_iff, beq_iff_eq, decide_eq_true_iff, lowest]
  have hmem : l ∈ lanes act := mem_lanes.2 ⟨hl, h⟩
  have hasc := lanes_ascending act
  have hp : ∀ k, takesPart act k = false ↔ k ∉ lanes act := fun k => by rw [← takesPart_iff, Bool.not_eq_true]
  simp only [hp]
  cases hls : lanes act with
  | nil => simp [hls] at hmem
  | cons m t =>
    rw [hls] at hmem hasc
    obtain ⟨hm, -⟩ := List.pairwise_cons.1 hasc
    rw [List.head?_cons, Option.some.injEq]
    refine ⟨?_, fun hlow => ?_⟩
    · rintro rfl k hk hkt
      obtain rfl | hkt := List.mem_cons.1 hkt
      · exact absurd hk (lt_irrefl _)
      · exact absurd (hm k hkt) (by omega)
    · obtain rfl | hlt := List.mem_cons.1 hmem
      · rfl
      · exact absurd List.mem_cons_self (hlow m (hm l hlt))

/-! ### Runs of a reduction -/

/-- What the lanes of a list combine to, from r. -/
def combine (op : AtomOp) (ty : Ty) (x : Nat → Nat) (ls : List Nat) (r : Nat) : Nat := ls.foldl (fun w k => atomBits op ty w (x k) (x k)) r

/-- Before each lane's step the lanes below it are combined, after it that lane too. -/
theorem redRun_ascending (op : AtomOp) (ty : Ty) (x : Nat → Nat) {ls : List Nat} (h : ls.Pairwise (· < ·)) (r : Nat) :
    redRun op ty r (ls.map fun l => (l, x l)) =
      ls.map fun l => (l, combine op ty x (ls.filter (decide <| · < l)) r, combine op ty x (ls.filter (decide <| · ≤ l)) r) := by
  induction ls generalizing r with
  | nil => rfl
  | cons m t ih =>
    obtain ⟨hm, ht⟩ := List.pairwise_cons.1 h
    rw [List.map_cons, redRun, ih ht, List.map_cons]
    refine congrArg₂ List.cons ?_ (List.map_congr_left fun l hl => ?_)
    · have hb : t.filter (decide <| · < m) = [] := List.filter_eq_nil_iff.2 fun k hk => by simpa using (hm k hk).le
      have ha : t.filter (decide <| · ≤ m) = [] := List.filter_eq_nil_iff.2 fun k hk => by simpa using hm k hk
      rw [List.filter_cons_of_neg (by simp), List.filter_cons_of_pos (by simp), hb, ha]
      rfl
    · have hml := hm l hl
      rw [List.filter_cons_of_pos (by simpa using hml), List.filter_cons_of_pos (by simpa using hml.le)]
      rfl
/-- The lanes that a scan has combined for each lane. -/
theorem redRun_scan (op : AtomOp) (ty : Ty) (x : Nat → Nat) (excl : Bool) (out : Nat → Val) (act : Mask) (r : Nat) :
    ((redRun op ty r (perLane act x)).map fun e => (e.1, out (if excl then e.2.1 else e.2.2))) =
      perLane act fun l => out (combine op ty x ((lanes act).filter fun k => decide (k < l) || (!excl && k == l)) r) := by
  rw [perLane, redRun_ascending op ty x (lanes_ascending act), List.map_map]
  refine List.map_congr_left fun l _ => ?_
  cases excl with
  | true => simp
  | false => simp [le_iff_lt_or_eq, Bool.decide_or, ← Bool.beq_eq_decide_eq]
/-- The last lane's step combines them all. -/
theorem redRun_last (op : AtomOp) (ty : Ty) (x : Nat → Nat) (ls : List Nat) (hn : ls ≠ []) (r : Nat) :
    (((redRun op ty r (ls.map fun l => (l, x l))).getLast?).map fun e => e.2.2).getD 0 = combine op ty x ls r := by
  induction ls generalizing r with
  | nil => exact absurd rfl hn
  | cons m t ih =>
    cases t with
    | nil => rfl
    | cons k t =>
      have hlast := ih (List.cons_ne_nil _ _) (atomBits op ty r (x m) (x m))
      rw [List.map_cons, redRun, List.map_cons, redRun] at *
      rw [List.getLast?_cons_cons]
      exact hlast

/-! ### The instructions -/

/-- The source lane of SHFL, where it is an Active one. -/
theorem shflFrom_valid (m : ShflMode) (l n : Nat) (act : Mask) {src : Int}
    (hs : src = match m with | .idx => (n : Int) | .up => l - n | .down => l + n | .xor => (l ^^^ n : Nat)) :
    (shflFrom m l n).filter (fun k => decide (k < 32) && act.getLsbD k) =
      if decide (0 ≤ src ∧ src ≤ 31) && act.getLsbD src.toNat then some src.toNat else none := by
  have pick (n : Nat) (hs : src = n) :
      (some n).filter (fun k => decide (k < 32) && act.getLsbD k) =
        if decide (0 ≤ src ∧ src ≤ 31) && act.getLsbD src.toNat then some src.toNat else none := by
    subst hs
    rw [Int.toNat_natCast, Option.filter_some]
    congr 2
    exact congrArg (· && _) (decide_eq_decide.2 (by omega))
  cases m with
  | idx => exact pick n hs
  | up =>
    rw [shflFrom]
    dsimp only at hs
    split
    · exact pick _ (by omega)
    · rw [if_neg (by simp; omega)]
      rfl
  | down => exact pick _ (hs.trans (Int.natCast_add ..).symm)
  | xor => exact pick _ hs

/-- The lanes of act whose value equals x. -/
def matchers (t : State) (z : Bool) (c : Ctl) (a : Src) (payOnly : Bool) (act : Mask) (x : Val) : Mask :=
  maskOf (((perLane act fun k => rdSrc t z c.ix a k).filter fun e => if payOnly then e.2.pay == x.pay else e.2 == x).map Prod.fst)
theorem matchers_getLsbD (t : State) (z : Bool) (c : Ctl) (a : Src) (payOnly : Bool) (act : Mask) (x : Val) (k : Nat) :
    (matchers t z c a payOnly act x).getLsbD k = (takesPart act k &&
      decide ((rdSrc t z c.ix a k).pay = x.pay ∧ (payOnly = false → (rdSrc t z c.ix a k).tag = x.tag))) := by
  by_cases hk : k < 32
  · have hmem (q : Val → Bool) : k ∈ ((perLane act fun k => rdSrc t z c.ix a k).filter fun e => q e.2).map Prod.fst ↔
        takesPart act k = true ∧ q (rdSrc t z c.ix a k) = true := by
      rw [takesPart_iff, List.mem_map]
      constructor
      · rintro ⟨e, he, rfl⟩
        obtain ⟨hm, hq⟩ := List.mem_filter.1 he
        obtain ⟨j, hj, rfl⟩ := List.mem_map.1 hm
        exact ⟨hj, hq⟩
      · exact fun ⟨hl, hq⟩ => ⟨(k, _), List.mem_filter.2 ⟨List.mem_map.2 ⟨k, hl, rfl⟩, hq⟩, rfl⟩
    rw [matchers, maskOf_getLsbD _ hk, Bool.eq_iff_iff, decide_eq_true_iff, Bool.and_eq_true, decide_eq_true_iff]
    refine (hmem fun y => if payOnly then y.pay == x.pay else y == x).trans (and_congr_right fun _ => ?_)
    cases payOnly with
    | true => simp
    | false => simp [val_eq_iff]
  · rw [BitVec.getLsbD_of_ge _ _ (by omega), takesPart, decide_eq_false hk]
    rfl

/-- Settles O40. -/
theorem groupOperations : Obligations.GroupOperations := by
  unfold Obligations.GroupOperations
  intro c d pa r a m x pv payOnly op ty s z p on some_ every
  refine ⟨fun h => ?_, fun h => ?_, fun h => ?_, fun h => ?_, fun h => ?_, fun h => ?_, fun h => ?_, fun h => ?_, fun excl h => ?_⟩
  · exact givesBit_of (congrArg Host.Outcome.next (issue_ready h _)) fun l _ _ => some_bit ..
  · exact givesBit_of (congrArg Host.Outcome.next (issue_ready h _)) fun l _ _ => every_bit ..
  · refine ⟨fun t l => (perLane (issuedOf (.vote c (.uni d a)) c s z p).act fun l => rdSrc t z c.ix a l).all fun x =>
        (perLane (issuedOf (.vote c (.uni d a)) c s z p).act fun l => rdSrc t z c.ix a l).all fun y => x.2 == y.2,
      givesBit_of (congrArg Host.Outcome.next (issue_ready h _)) fun l _ _ => rfl, fun t l hl => ?_⟩
    have hm : l ∈ lanes _ := takesPart_iff.1 hl
    rw [Bool.eq_iff_iff]
    simp only [perLane, List.all_map, List.all_eq_true, Function.comp_apply, every, List.mem_range, Bool.or_eq_true,
      Bool.not_eq_true', decide_eq_true_iff, beq_iff_eq]
    refine ⟨fun hall k _ => ?_, fun hall k hk j hj => ?_⟩
    · by_cases hk : k ∈ lanes (issuedOf (.vote c (.uni d a)) c s z p).act
      · exact .inr (hall k hk l hm)
      · exact .inl (Bool.eq_false_iff.2 fun ht => hk (takesPart_iff.1 ht))
    · have eq (k : Nat) (hk : k ∈ lanes (issuedOf (.vote c (.uni d a)) c s z p).act) : rdSrc t z c.ix a k = rdSrc t z c.ix a l :=
        (hall k (mem_lanes.1 hk).1).resolve_left fun hf => absurd (takesPart_iff.2 hk) (Bool.eq_false_iff.1 hf)
      rw [eq k hk, eq j hj]
  · refine ⟨fun t _ => (t.grp.pr pa.val &&& (issuedOf (.vote c (.ballot r pa)) c s z p).act).setWidth 64,
      givesVal_of (congrArg Host.Outcome.next (issue_ready h _)) fun l _ _ => rfl, fun t l k => ?_⟩
    rw [BitVec.getLsbD_setWidth, BitVec.getLsbD_and]
    rw [Bool.eq_iff_iff]
    simp only [on, Bool.and_eq_true, decide_eq_true_iff]
    refine ⟨fun ⟨_, hp, ha⟩ => ⟨⟨BitVec.lt_of_getLsbD ha, ha⟩, hp⟩, fun ⟨⟨hk, ha⟩, hp⟩ => ⟨by omega, hp, ha⟩⟩
  · intro e b src valid
    have hv (l : Nat) := shflFrom_valid m l (b l) e.act (src := src l) (by cases m <;> rfl)
    refine ⟨wrReg e.state.grp c.ix r (perLane e.act fun l =>
        rdSrc e.state z c.ix a (((shflFrom m l (b l)).filter fun k => decide (k < 32) && e.act.getLsbD k).getD l)), pv.elim [] fun q =>
        wrPred q (perLane e.act fun l => ((shflFrom m l (b l)).filter fun k => decide (k < 32) && e.act.getLsbD k).isSome), ?_, ?_, ?_, ?_⟩
    · refine congrArg Host.Outcome.next ((issue_ready h _).trans ?_)
      cases pv <;> cases x <;> rfl
    · rw [perLane_congr (g := fun l => if valid l then rdSrc e.state z c.ix a (src l).toNat else rdSrc e.state z c.ix a l)
        fun l _ _ => by rw [hv]; exact apply_ite (fun o => rdSrc e.state z c.ix a (Option.getD o l)) ..]
      exact writesReg_wrReg _ _ _ _ _
    · rintro rfl
      rfl
    · rintro k rfl
      rw [Option.elim_some, perLane_congr (g := valid) fun l _ _ => by rw [hv]; exact isSome_if ..]
      exact writesPred_wrPred _ _ _
  · refine ⟨fun t l => (matchers t z c a payOnly (issuedOf (.mtch c payOnly r a) c s z p).act
        (rdSrc t z c.ix a l)).setWidth 64,
      givesVal_of ((congrArg Host.Outcome.next (issue_ready h _)).trans ?_) fun l _ _ => rfl, fun l k => ?_⟩
    · exact congrArg (β := Host.Outcome State Fault Refusal) (fun ws => .next ((issuedOf (.mtch c payOnly r a) c s z p).state.finish z c.sched .variable
        (issuedOf (.mtch c payOnly r a) c s z p).act (wrReg (issuedOf (.mtch c payOnly r a) c s z p).state.grp c.ix r ws)))
        (perLane_map _ _ fun x => Val.raw ((matchers (issuedOf (.mtch c payOnly r a) c s z p).state z c a payOnly
          (issuedOf (.mtch c payOnly r a) c s z p).act x).setWidth 64))
    · have hk := matchers_getLsbD (issuedOf (.mtch c payOnly r a) c s z p).state z c a payOnly
        (issuedOf (.mtch c payOnly r a) c s z p).act (rdSrc (issuedOf (.mtch c payOnly r a) c s z p).state z c.ix a l) k
      rw [BitVec.getLsbD_setWidth, hk, Bool.and_eq_right_iff_imp.2]
      · rfl
      · intro h
        have := takesPart_iff.1 (Bool.and_eq_true _ _ ▸ h).1
        have := (mem_lanes.1 this).1
        exact decide_eq_true (by omega)
  · exact givesBit_of (congrArg Host.Outcome.next (issue_ready h _)) fun l hl ha => lowest_beq hl ha
  · have hx := congrArg (Host.Outcome.next (φ := Fault) (ρ := Refusal)) (issue_ready h fun b _ act s =>
      let run := redRun (redStep op ty) ty (redIdentity op ty) (redIn s b c ty a act)
      let v := ((run.getLast?).map fun e => e.2.2).getD 0
      s.finish b c.sched .variable act (wrReg s.grp c.ix r (perLane act fun _ => redOut ty v)))
    refine givesVal_of hx fun l hl ha => congrArg _ ?_
    exact (redRun_last _ _ _ _ (List.ne_nil_of_mem (mem_lanes.2 ⟨hl, ha⟩)) _).trans
      (congrArg (fun ls => combine _ _ _ ls _) (filter_takesPart _).symm)
  · have hx := congrArg (Host.Outcome.next (φ := Fault) (ρ := Refusal)) (issue_ready h fun b _ act s =>
      let run := redRun (redStep op ty) ty (redIdentity op ty) (redIn s b c ty a act)
      s.finish b c.sched .variable act (wrReg s.grp c.ix r (run.map fun e => (e.1, redOut ty (if excl then e.2.1 else e.2.2)))))
    refine givesVal_of (hx.trans (congrArg (β := Host.Outcome State Fault Refusal)
      (fun ws => .next ((issuedOf (.gscan c op excl ty r a) c s z p).state.finish z c.sched .variable
        (issuedOf (.gscan c op excl ty r a) c s z p).act (wrReg (issuedOf (.gscan c op excl ty r a) c s z p).state.grp c.ix r ws)))
      (redRun_scan (redStep op ty) ty _ excl (redOut ty) _ (redIdentity op ty)))) fun l hl ha => congrArg _ ?_
    rw [← filter_takesPart, List.filter_filter]
    refine congrArg (fun ls => combine _ _ _ ls _) (List.filter_congr fun k _ => ?_)
    exact Bool.and_comm ..
end Sys2Proof.Machine.Claim
end

section
/-! The instructions of the tile stream (spec 25_tiles R295 to R304). -/
namespace Sys2Proof.Machine.Claim

/-! ### Stores of a table by key -/

theorem keyGet_cons {α : Type} (m j : Nat) (z : α) (t : Store α) : keyGet ((m, z) :: t) j = if m = j then some z else keyGet t j := by
  rw [keyGet, List.find?_cons]
  by_cases h : m = j
  · rw [if_pos h, show (m == j) = true from beq_iff_eq.2 h]
    rfl
  · rw [if_neg h, show (m == j) = false from beq_eq_false_iff_ne.2 h]
    rfl
theorem keyGet_keySet {α : Type} (l : Store α) (k j : Nat) (x : α) : keyGet (keySet l k x) j = if j = k then some x else keyGet l j := by
  induction l with
  | nil =>
    rw [keySet, keyGet_cons]
    simp only [eq_comm]
  | cons e r ih =>
    obtain ⟨n, y⟩ := e
    rw [keySet]
    split
    · simp only [keyGet_cons, eq_comm]
    · split
      · next hkn =>
        subst hkn
        simp only [keyGet_cons, eq_comm]
        split <;> rfl
      · next hkn =>
        rw [keyGet_cons, ih, keyGet_cons]
        by_cases hj : j = k
        · rw [if_pos hj, if_neg (by omega), if_pos hj]
        · rw [if_neg hj, if_neg hj]
theorem keyGet_keyDrop {α : Type} (l : Store α) (lo n k : Nat) :
    keyGet (keyDrop l lo n) k = if decide (lo ≤ k ∧ k < lo + n) then none else keyGet l k := by
  rw [keyGet, keyGet, keyDrop, List.find?_filter]
  by_cases h : lo ≤ k ∧ k < lo + n
  · rw [if_pos (by simpa using h), List.find?_eq_none.2 fun e _ => ?_]
    · rfl
    · simp only [decide_eq_true_iff, Bool.or_eq_true, beq_iff_eq]
      omega
  · rw [if_neg (by simpa using h)]
    refine congrArg _ (List.find?_congr fun e _ => ?_)
    rw [Bool.eq_iff_iff]
    simp only [decide_eq_true_iff, Bool.or_eq_true, beq_iff_eq]
    omega
/-- Claiming gives each key without a meaning the meaning none. -/
theorem keyGet_claim {α : Type} (ls : List Nat) (l : Store (Option α)) (k : Nat) :
    keyGet (ls.foldl (fun a k => if (keyGet a k).isSome then a else keySet a k none) l) k =
      if decide (k ∈ ls) && (keyGet l k).isNone then some none else keyGet l k := by
  induction ls generalizing l with
  | nil => rfl
  | cons m r ih =>
    rw [List.foldl_cons, ih]
    by_cases hm : (keyGet l m).isSome
    · rw [if_pos hm]
      by_cases hk : k = m
      · subst hk
        simp [Option.isSome_iff_ne_none.1 hm]
      · simp [hk]
    · rw [if_neg hm, keyGet_keySet]
      by_cases hk : k = m
      · subst hk
        simp [Option.not_isSome_iff_eq_none.1 hm]
      · simp [hk]
theorem mem_span {lo n k : Nat} : k ∈ span lo n ↔ lo ≤ k ∧ k < lo + n := by
  rw [span, List.mem_map]
  constructor
  · rintro ⟨j, hj, rfl⟩
    have := List.mem_range.1 hj
    omega
  · exact fun ⟨h1, h2⟩ => ⟨k - lo, List.mem_range.2 (by omega), by omega⟩

/-! ### The issuing stream -/

section
variable {s : State} {b : Block} {t : Machine.Stream} (h : s.curStream = some (b, t))
include h

theorem onStream_of (f : Block → Machine.Stream → Nat → State → State) : onStream s f = f b t (b.cores.headD 0) s := by
  rw [onStream, h]

/-- TCLAIM and TREL beyond the declared range. -/
theorem claim_outside {acc : Bool} {first count : BitVec 10}
    (hn : (if acc then b.spec.accs else b.spec.slots) < first.toNat + count.toNat) :
    exec (.tclaim acc first count) s = .next (s.streamFault b.id 0x11 0 false false) ∧
      exec (.trel acc first count) s = .next (s.streamFault b.id 0x11 0 false false) :=
  ⟨congrArg Host.Outcome.next ((onStream_of h _).trans (if_pos hn)), congrArg Host.Outcome.next ((onStream_of h _).trans (if_pos hn))⟩
theorem tclaim_slots {first count : BitVec 10} (hn : first.toNat + count.toNat ≤ b.spec.slots) :
    exec (.tclaim false first count) s = .next (s.streamNext b t fun t =>
      { t with slots := (span first.toNat count.toNat).foldl (fun a k => if (keyGet a k).isSome then a else keySet a k none) t.slots }) :=
  congrArg Host.Outcome.next ((onStream_of h _).trans (if_neg (Nat.not_lt.2 hn)))
theorem tclaim_accs {first count : BitVec 10} (hn : first.toNat + count.toNat ≤ b.spec.accs) :
    exec (.tclaim true first count) s = .next (s.streamNext b t fun t =>
      { t with accs := (span first.toNat count.toNat).foldl (fun a k => if (keyGet a k).isSome then a else keySet a k none) t.accs }) :=
  congrArg Host.Outcome.next ((onStream_of h _).trans (if_neg (Nat.not_lt.2 hn)))
theorem trel_slots {first count : BitVec 10} (hn : first.toNat + count.toNat ≤ b.spec.slots) (hb : s.busyFor b (b.cores.headD 0) = false) :
    exec (.trel false first count) s = .next (s.streamNext b t fun t =>
      { t with slots := keyDrop t.slots first.toNat count.toNat
               loads := t.loads.filter fun e => e.1 < first.toNat || first.toNat + count.toNat ≤ e.1 }) :=
  congrArg Host.Outcome.next ((onStream_of h _).trans ((if_neg (Nat.not_lt.2 hn)).trans (if_neg (by rw [hb]; simp))))
theorem trel_accs {first count : BitVec 10} (hn : first.toNat + count.toNat ≤ b.spec.accs)
    (hb : s.busyAcc b (b.cores.headD 0) first.toNat count.toNat = false) :
    exec (.trel true first count) s = .next (s.streamNext b t fun t => { t with accs := keyDrop t.accs first.toNat count.toNat }) :=
  congrArg Host.Outcome.next ((onStream_of h _).trans ((if_neg (Nat.not_lt.2 hn)).trans (if_neg (by rw [hb]; simp))))
theorem tendl_again {outer : List (BitVec 56 × Nat × Nat)} {start : BitVec 56} {count i : Nat} (hl : t.loops = outer ++ [(start, count, i)])
    (hi : i + 1 < count) : exec .tendl s =
      .next ((s.modStream b.id fun t => { t with loops := outer ++ [(start, count, i + 1)] }).streamAt b.id start) := by
  refine congrArg Host.Outcome.next ((onStream_of h _).trans ?_)
  rw [hl, List.getLast?_concat, List.dropLast_concat]
  exact if_pos hi
theorem tendl_over {outer : List (BitVec 56 × Nat × Nat)} {start : BitVec 56} {count i : Nat} (hl : t.loops = outer ++ [(start, count, i)])
    (hi : count ≤ i + 1) : exec .tendl s = .next (s.streamNext b t fun t => { t with loops := outer }) := by
  refine congrArg Host.Outcome.next ((onStream_of h _).trans ?_)
  rw [hl, List.getLast?_concat, List.dropLast_concat]
  exact if_neg (Nat.not_lt.2 hi)

/-! ### Numbered barriers -/

section
variable {n : Fin 16} {self : Bool} {a : Nat} {o : BarObj} (hb : b.barrier (b.cores.headD 0) n.val = some a) (ho : s.barAt a = some o)
include hb ho

theorem tbwt_eq : exec (.tbwt n self) s = .next
    (if o.phase ≠ (sget 0 t.q n.val).toNat ∨ (self = true ∧ o.pena = 1 ∧ o.penb = 0) then
      (s.modStream b.id fun t => { t with q := sput 0 t.q n.val (BitVec.ofNat 32 o.phase), lastBar := some n.val }).streamNext b t id
    else if s.groupsLive b.id then s.modStream b.id fun t => { t with wait := .bar n.val self }
    else s.streamBad b 0x11) := by
  refine congrArg Host.Outcome.next ((onStream_of h _).trans ?_)
  unfold State.tbwt
  simp only [hb, ho]
theorem tarr_eq : exec (.tarr n) s = .next
    (if o.pena = 0 then s.streamBad b 0x11 else (s.barUpdate none a true 0 0).2.streamNext b t (Stream.closeWindow n.val)) := by
  refine congrArg Host.Outcome.next ((onStream_of h _).trans ?_)
  simp only [hb]
  by_cases hz : o.pena = 0
  · rw [if_pos hz]
    simp only [barUpdate_done ho rfl hz]
    rfl
  · rw [if_neg hz]
    have hr := (barUpdate_some (by_ := none) (n := 0) ho (fun hd : true = true ∧ o.pena = 0 => hz hd.2)).1
    exact if_neg (by rw [hr]; omega)
end

end

/-! ### Changing the stream -/

theorem updWhere_updWhere {α : Type} (l : List α) (q : α → Bool) (f g : α → α) (hf : ∀ x, q x = true → q (f x) = true) :
    updWhere (updWhere l q f) q g = updWhere l q (g ∘ f) := by
  rw [updWhere, updWhere, updWhere, List.map_map]
  refine List.map_congr_left fun x _ => ?_
  by_cases h : q x = true
  · simp only [Function.comp_apply, if_pos h, if_pos (hf x h)]
  · simp only [Function.comp_apply, if_neg h]
theorem modStream_modStream (s : State) (id : Nat) (f g : Machine.Stream → Machine.Stream) :
    (s.modStream id f).modStream id g = s.modStream id (g ∘ f) := by
  have hb := updWhere_updWhere s.blocks (fun b => b.id == id) (fun b => { b with stream := b.stream.map f })
    (fun b => { b with stream := b.stream.map g }) fun _ h => h
  refine (congrArg (fun bs => { s with blocks := bs }) hb).trans ?_
  refine congrArg (fun k => s.modBlk id k) (funext fun b => ?_)
  exact congrArg (fun t => { b with stream := t }) (Option.map_map ..)
theorem modStream_same (s : State) (id : Nat) {f : Machine.Stream → Machine.Stream} (hf : ∀ t, f t = t) : s.modStream id f = s := by
  obtain rfl : f = fun t => t := funext hf
  refine congrArg (fun bs => { s with blocks := bs }) (?_ : updWhere .. = s.blocks)
  rw [updWhere]
  refine (List.map_congr_left fun b _ => ?_).trans (List.map_id' _)
  simp only [Option.map_id']
  exact ite_self _
theorem find_map_field {α β : Type} (l : List α) (q : α → Bool) (g : α → α) (v : α → β) (hq : ∀ x, q (g x) = q x) (hv : ∀ x, v (g x) = v x) :
    ((l.map g).find? q).map v = (l.find? q).map v := by
  rw [List.find?_map, Option.map_map, show q ∘ g = q from funext hq, show v ∘ g = v from funext hv]
theorem aspaceOf_modStream (s : State) (id : Nat) (f : Machine.Stream → Machine.Stream) (j : Nat) :
    ((s.modStream id f).blk? j).map Block.aspace = (s.blk? j).map Block.aspace := by
  refine find_map_field _ _ _ _ (fun b => ?_) fun b => ?_
  · dsimp only
    split <;> rfl
  · dsimp only
    split <;> rfl

/-! ### Loads -/

/-- A walk looks at no block. -/
theorem walkFrom_blocks (s : State) (bs : List Block) (die : Option Nat) (a : Aspace) (va : Nat) (ls : List Nat) (table : Nat) :
    ({ s with blocks := bs } : State).walkFrom die a va ls table = s.walkFrom die a va ls table := by
  induction ls generalizing table with
  | nil => rfl
  | cons bit below ih =>
    unfold State.walkFrom
    simp only [ih]
    rfl
theorem walkBy_blocks (s : State) (bs : List Block) (die : Option Nat) (aspace va : Nat) :
    ({ s with blocks := bs } : State).walkBy die aspace va = s.walkBy die aspace va := by
  unfold State.walkBy
  simp only [walkFrom_blocks]
  rfl
theorem walkDie_fst (s : State) (die aspace va : Nat) : (s.walkDie die aspace va).1 = (s.walkBy (some die) aspace va).1 := by
  unfold State.walkDie
  generalize s.walkBy (some die) aspace va = w
  obtain ⟨r, ps⟩ := w
  cases r <;> rfl
theorem translate_fst (s : State) (core aspace va : Nat) : (s.translate core aspace va).1 =
    ((s.tlb.find? fun e => e.core == core && e.aspace == aspace && e.base == va / 2 ^ e.size).elim
      (s.walkBy (some (core / 72)) aspace va).1 fun e => .leaf e.leaf e.size) := by
  unfold State.translate
  cases s.tlb.find? fun e => e.core == core && e.aspace == aspace && e.base == va / 2 ^ e.size with
  | some e => rfl
  | none =>
    rw [Option.elim_none, ← walkDie_fst]
    generalize s.walkDie (core / 72) aspace va = w
    obtain ⟨r, u⟩ := w
    cases r <;> rfl
theorem translate_blocks (s : State) (bs : List Block) (core aspace va : Nat) :
    (({ s with blocks := bs } : State).translate core aspace va).1 = (s.translate core aspace va).1 := by
  rw [translate_fst, translate_fst, walkBy_blocks]
/-- Where an access of the stream lands is no matter of what the streams hold. -/
theorem streamHome_modStream (s : State) (id : Nat) (f : Machine.Stream → Machine.Stream) (b : Block) (core space a : Nat) (need : Need) :
    (s.modStream id f).streamHome b core space a need = s.streamHome b core space a need := by
  have ht : ((s.modStream id f).translate core b.aspace a).1 = (s.translate core b.aspace a).1 := translate_blocks ..
  have ho (va pa : Nat) (pte : Word) (may : Bool) :
      (s.modStream id f).onStack b.aspace va pa pte may = s.onStack b.aspace va pa pte may := by
    unfold State.onStack State.stackAt
    simp only [aspaceOf_modStream]
    rfl
  unfold State.streamHome
  simp only [ht, ho]
  rfl

/-- Reads of no byte leave everything as it was. -/
theorem withReads_nil (s : State) (b : Block) (core space : Nat) (rec_ : List Word) (f : List (List Byte) → State → State) :
    s.withReads b core rec_ [(space, [])] f = f [[]] s := by
  have ht : s.touchAll core b.aspace space [] = s := ite_self _
  have hm : (s.modStream b.id fun t => { t with kept := [] ++ t.kept }) = s := modStream_same _ _ fun _ => rfl
  refine Eq.trans (b := f [[]] ((s.touchAll core b.aspace space []).modStream b.id fun t => { t with kept := [] ++ t.kept })) rfl ?_
  rw [ht, hm]
/-- Reads of two places that find every page and fail nowhere go on with the bytes of each. -/
theorem withReads_two (s : State) (b : Block) (core sp sq : Nat) (as cs : List Nat) (rec_ : List Word) (f : List (List Byte) → State → State)
    {x y : Reads} (hx : s.streamReads b core sp as = x) (hy : s.streamReads b core sq cs = y) (hxm : x.miss = []) (hxf : x.fail = none)
    (hym : y.miss = []) (hyf : y.fail = none) : ∃ kept : List (Nat × Nat × Byte), s.withReads b core rec_ [(sp, as), (sq, cs)] f =
      f [x.bytes, y.bytes] (((s.touchAll core b.aspace sp as).touchAll core b.aspace sq cs).modStream b.id fun t =>
        { t with kept := kept ++ t.kept }) := by
  unfold State.withReads
  simp only [List.map_cons, List.map_nil, hx, hy, List.foldl_cons, List.foldl_nil, hxm, hym, List.findSome?_cons, hxf, hyf,
    List.findSome?_nil]
  exact ⟨_, rfl⟩
theorem windowWords_modStream (s : State) (id : Nat) (f : Machine.Stream → Machine.Stream) (b : Block) (core n space : Nat) (as : List Nat) :
    (s.modStream id f).windowWords b core n space as = s.windowWords b core n space as := by
  unfold State.windowWords
  simp only [streamHome_modStream]
/-- What an instruction has read before it waited for pages is forgotten at its end. -/
theorem streamNext_kept (s : State) (b : Block) (t : Machine.Stream) (kept : List (Nat × Nat × Byte)) (f : Machine.Stream → Machine.Stream)
    (hf : ∀ t : Machine.Stream, ∃ k, f { t with kept := kept ++ t.kept } = { f t with kept := k }) :
    State.streamNext (s.modStream b.id fun t => { t with kept := kept ++ t.kept }) b t f = s.streamNext b t f := by
  unfold State.streamNext State.streamAt
  rw [modStream_modStream, modStream_modStream, modStream_modStream]
  refine congrArg (s.modStream b.id) (funext fun t => ?_)
  obtain ⟨k, hk⟩ := hf t
  simp only [Function.comp_apply, hk]
theorem loadSlot_kept (s : State) (b : Block) (t : Machine.Stream) (kept : List (Nat × Nat × Byte)) (core slot : Nat) (ps : List (Nat × List Nat))
    (d : TileData) :
    State.loadSlot (s.modStream b.id fun t => { t with kept := kept ++ t.kept }) b t core slot ps d = s.loadSlot b t core slot ps d := by
  unfold State.loadSlot
  simp only [windowWords_modStream]
  rw [streamNext_kept _ _ _ _ _ fun t => ⟨_, rfl⟩]

theorem accVals_now (s : State) (id core : Nat) (v : Option (List (BitVec 32))) : ((s.worked id core 64).accVals v).2.now = s.now := by
  have hw : (s.worked id core 64).now = s.now := by
    unfold State.worked
    split <;> rfl
  cases v <;> exact hw

/-- TLOAD once its wait is over: every page is there and no read fails. -/
theorem tload_done {s : State} {b : Block} {t : Machine.Stream} {core slot hw : Nat} {st : TStep} {roleB : Bool} {ws : List Word} {r k : Nat}
    (hws : s.streamWords b core hw = .inr ws) (ho : (Tensor.of ws).out = false) (hr : (Tensor.of ws).roleB = roleB)
    (hp : (Tensor.of ws).perm = 0) (ht : t.tileAt st = ((r : Int), (k : Int))) (hrows : (r + 1) * (Tensor.of ws).tile.1 ≤ (Tensor.of ws).rows)
    (hcols : (k + 1) * (Tensor.of ws).tile.2 ≤ (Tensor.of ws).cols) {x y : Reads} {cols rows at_ : List Nat}
    (hc : cols = (List.range (Tensor.of ws).tile.2).map fun j => k * (Tensor.of ws).tile.2 + j)
    (hro : rows = (List.range (Tensor.of ws).tile.1).map fun i => r * (Tensor.of ws).tile.1 + i)
    (hat : at_ = rows.flatMap fun i => cols.flatMap fun j => (Tensor.of ws).elemAddrs i j)
    (hx : s.streamReads b core (Tensor.of ws).space at_ = x)
    (hy : s.streamReads b core (Tensor.of ws).sspace ((Tensor.of ws).scaleAddrs r k) = y) (hxm : x.miss = []) (hxf : x.fail = none)
    (hym : y.miss = []) (hyf : y.fail = none) :
    s.tload b t core slot hw st roleB =
      ((s.touchAll core b.aspace (Tensor.of ws).space at_).touchAll core b.aspace (Tensor.of ws).sspace ((Tensor.of ws).scaleAddrs r k)).loadSlot
        b t core slot [((Tensor.of ws).sspace, []), ((Tensor.of ws).space, at_), ((Tensor.of ws).sspace, (Tensor.of ws).scaleAddrs r k)]
        ((Tensor.of ws).load (elemsOf (Tensor.of ws).fmt (rows.flatMap fun _ => cols) x.bytes) y.bytes) := by
  unfold State.tload
  simp only [hws]
  generalize Tensor.of ws = R at *
  have hin : R.inside (r : Int) (k : Int) R.tile.1 R.tile.2 = true := by
    have hr : (((r + 1) * R.tile.1 : Nat) : Int) ≤ R.rows := Int.ofNat_le.2 hrows
    have hk : (((k + 1) * R.tile.2 : Nat) : Int) ≤ R.cols := Int.ofNat_le.2 hcols
    push_cast at hr hk
    simp [Tensor.inside, hr, hk]
  have hlt : (cols.any fun j => decide (R.cols ≤ j)) = false := by
    rw [hc, List.any_map, List.any_eq_false]
    intro j hj
    have hj := List.mem_range.1 hj
    rw [Nat.add_mul, Nat.one_mul] at hcols
    simp only [Function.comp_apply, decide_eq_true_iff]
    omega
  obtain ⟨kept, hk⟩ := withReads_two s b core _ _ _ _ ws (fun bs s => s.loadSlot b t core slot
    [(R.sspace, []), (R.space, at_), (R.sspace, R.scaleAddrs r k)]
      (R.load (elemsOf R.fmt (rows.flatMap fun _ => cols) (bs.headD [])) (bs.getD 1 []))) hx hy hxm hxf hym hyf
  simp only [ht, ho, hr, hin, hp, bne_self_eq_false, Bool.and_false, Bool.not_true, Bool.or_self, Bool.false_eq_true, if_false,
    withReads_nil, Int.toNat_natCast, List.isEmpty_nil, if_true, ← hc, ← hro, ← hat, hlt]
  exact hk.trans (loadSlot_kept ..)

/-- Where group code has written nothing late, the slot holds what was read. -/
theorem loadSlot_no_late {s : State} {b : Block} {t : Machine.Stream} {core slot : Nat} {ps : List (Nat × List Nat)} {d : TileData} (h : t.late = []) :
    ∃ ls : Machine.Stream → List (Nat × StreamWord), s.loadSlot b t core slot ps d =
      s.streamNext b t fun t => { t with slots := keySet t.slots slot (some d), loads := ls t } := by
  unfold State.loadSlot
  rw [h]
  have hn (ws : List StreamWord) : (ws.any fun w => [].any w.meets) = false := List.any_eq_false.2 fun _ _ => Bool.false_ne_true
  exact ⟨_, if_neg (by rw [hn]; exact Bool.false_ne_true)⟩

section
variable {s : State} {b : Block} {t : Machine.Stream} (h : s.curStream = some (b, t))
include h

theorem tload_eq {slot : Fin 48} {hw : BitVec 10} {st : TStep} {roleB : Bool} {w : Option TWait} (hs : (keyGet t.slots slot.val).isSome = true)
    (hw' : w = none ∨ t.waited = true) :
    exec (.tload slot hw st roleB w) s = .next (s.tload b t (b.cores.headD 0) slot.val hw.toNat st roleB) := by
  refine congrArg Host.Outcome.next ((onStream_of h _).trans ((if_neg (by simp [Option.isSome_iff_ne_none.1 hs])).trans ?_))
  cases w with
  | none => rfl
  | some w => exact if_pos (hw'.resolve_left (by simp))

/-! ### Products, stores and checksums -/

theorem tmma_eq {acc : Fin 8} {x y : Fin 48} {v : Option (List (BitVec 32))} {dx dy : TileData} (hv : keyGet t.accs acc.val = some v)
    (hx : keyGet t.slots x.val = some (some dx)) (hy : keyGet t.slots y.val = some (some dy)) :
    exec (.tmma acc x y) s = .next (
      if dx.roleB || !dy.roleB || dx.fmt != dy.fmt then s.streamBad b 0x11
      else if (s.tile (b.cores.headD 0)).active || s.askedBefore b (b.cores.headD 0) (t.asked.getD s.now) then
        s.modStream b.id fun t => { t with asked := some (t.asked.getD s.now) }
      else
        let core := b.cores.headD 0
        let e := s.tile core
        let (c, u) := (s.worked b.id core 64).accVals v
        (u.setTile core
          { e with gated := false, busyUntil := (if e.gated then s.now + 3400 else s.now) + 64, blk := b.id, acc := acc.val,
                   before := some c, after := mmaAll dx dy c, active := true, reran := false, pc := t.pc }).streamNext b t
          fun t => { t with accs := keySet t.accs acc.val (some c) }) := by
  refine congrArg Host.Outcome.next ((onStream_of h _).trans ?_)
  simp only [hv, hx, hy]
  have hn := accVals_now s b.id (b.cores.headD 0) v
  generalize (s.worked b.id (b.cores.headD 0) 64).accVals v = w at hn
  obtain ⟨c, u⟩ := w
  have hn : u.now = s.now := hn
  simp only [hn]
theorem tstore_eq {acc : Fin 8} {hw : BitVec 10} {st : TStep} {ws : List Word} {vals : List (BitVec 32)} {r k : Nat} {done : List Nat} {u : State}
    (hv : keyGet t.accs acc.val = some (some vals)) (hb : s.busyAcc b (b.cores.headD 0) acc.val 1 = false)
    (hws : s.streamWords b (b.cores.headD 0) hw.toNat = .inr ws) (ho : (Tensor.of ws).out = true) (ht : t.tileAt st = ((r : Int), (k : Int)))
    (hr : (r + 1) * 128 ≤ (Tensor.of ws).rows) (hk : (k + 1) * 128 ≤ (Tensor.of ws).cols)
    (hst : State.storeWords b (b.cores.headD 0) (Tensor.of ws).space ((Tensor.of ws).outWords r k vals).zipIdx ⟨t.written, [], none⟩
      (s.modStream b.id fun t => { t with accs := keySet t.accs acc.val (some vals) }) = (⟨done, [], none⟩, u)) :
    exec (.tstore acc hw st) s = .next ((u.touchAll (b.cores.headD 0) b.aspace (Tensor.of ws).space
      (((Tensor.of ws).outWords r k vals).map Prod.fst)).streamNext b t id) := by
  have hin : (Tensor.of ws).inside (r : Int) (k : Int) 128 128 = true := by
    have hr : (((r + 1) * 128 : Nat) : Int) ≤ (Tensor.of ws).rows := Int.ofNat_le.2 hr
    have hk : (((k + 1) * 128 : Nat) : Int) ≤ (Tensor.of ws).cols := Int.ofNat_le.2 hk
    push_cast at hr hk
    simp [Tensor.inside, hr, hk]
  refine congrArg Host.Outcome.next ((onStream_of h _).trans ?_)
  simp only [hv, hb, hws, ho, ht, hin, Bool.not_true, Bool.or_self, Bool.false_eq_true, if_false, Int.toNat_natCast, State.accVals, hst]
theorem tchk_eq {off : BitVec 19} {k : Home} (hb : s.busyFor b (b.cores.headD 0) = false)
    (hk : s.streamHome b (b.cores.headD 0) 2 off.toNat .write = .home k) :
    exec (.tchk off) s = .next ((s.landRaw k t.checksum).streamNext b t fun t => { t with rerun := 0, fail := 0, facc := 0 }) := by
  refine congrArg Host.Outcome.next ((onStream_of h _).trans ((if_neg (by rw [hb]; exact Bool.false_ne_true)).trans ?_))
  simp only [hk]
end

/-- Settles O41. -/
theorem tileStream : Obligations.TileStream := by
  unfold Obligations.TileStream
  intro s b t h core goes bad
  refine ⟨fun first count => ?_, fun count => ⟨fun hn => ?_, fun hn => ?_⟩, fun hl => ?_, fun outer start count i hl => ⟨tendl_again h hl, tendl_over h hl⟩,
    fun hb => ?_, fun n self a o hb ho => ?_, fun slot hw st roleB w ws r k => ?_, fun acc x y v dx dy hv hx hy => ?_, fun acc hs hb => ?_,
    fun acc hw st ws vals r k done u => ?_, fun off k hb hk => tchk_eq h hb hk⟩
  · intro lo hi inside
    refine ⟨fun hn => claim_outside h hn, fun hn => claim_outside h hn, fun hn => ⟨_, tclaim_slots h hn, fun k => ?_⟩,
      fun hn => ⟨_, tclaim_accs h hn, fun k => ?_⟩, fun hn hb => ⟨_, trel_slots h hn hb, fun k => keyGet_keyDrop ..⟩,
      fun hn hb => ⟨_, trel_accs h hn hb, fun k => keyGet_keyDrop ..⟩⟩
    · simp only [keyGet_claim, mem_span]
      rfl
    · simp only [keyGet_claim, mem_span]
      rfl
  · exact congrArg Host.Outcome.next ((onStream_of h _).trans (if_neg (Nat.not_le.2 hn)))
  · exact congrArg Host.Outcome.next ((onStream_of h _).trans (if_pos hn))
  · refine congrArg Host.Outcome.next ((onStream_of h _).trans ?_)
    rw [hl]
    rfl
  · exact congrArg Host.Outcome.next ((onStream_of h _).trans (if_neg (by rw [hb]; exact Bool.false_ne_true)))
  · intro q
    have he := tbwt_eq h (self := self) hb ho
    have ha := tarr_eq h hb ho
    refine ⟨fun hc => ?_, fun hq hs hl => ?_, fun hp => ?_, fun hp => ?_⟩
    · exact he.trans (congrArg _ (if_pos hc))
    · refine he.trans (congrArg _ ((if_neg ?_).trans (if_pos hl)))
      exact fun hc => hc.elim (fun hn => hn hq) hs
    · exact ha.trans (congrArg _ (if_neg hp))
    · exact ha.trans (congrArg _ (if_pos hp))
  · intro R hs hwt hws ho hr hp ht hrows hcols cols rows at_ data scales u hxm hxf hym hyf d
    have he := (tload_eq h hs hwt).trans (congrArg _ (tload_done hws ho hr hp ht hrows hcols rfl rfl rfl rfl rfl hxm hxf hym hyf))
    refine ⟨he, fun hl => ?_⟩
    obtain ⟨ls, hls⟩ := loadSlot_no_late hl
    exact ⟨ls, he.trans (congrArg _ hls)⟩
  · have he := tmma_eq h hv hx hy
    have hok (ha : dx.roleB = false) (hb : dy.roleB = true) (hf : dx.fmt = dy.fmt) :
        ¬(dx.roleB || !dy.roleB || dx.fmt != dy.fmt) = true := by simp [ha, hb, hf]
    refine ⟨fun hc => he.trans (congrArg _ (if_pos ?_)), fun ha hb hf hc => ?_, fun ha hb hf hact hask => ?_⟩
    · rcases hc with hc | hc | hc <;> simp [hc]
    · exact he.trans (congrArg _ ((if_neg (hok ha hb hf)).trans (if_pos (Bool.or_eq_true _ _ ▸ hc))))
    · refine he.trans (congrArg _ ((if_neg (hok ha hb hf)).trans (if_neg ?_)))
      rw [hact, hask]
      exact Bool.false_ne_true
  · exact congrArg Host.Outcome.next ((onStream_of h _).trans ((if_neg (by simp [Option.isSome_iff_ne_none.1 hs])).trans
      (if_neg (by rw [hb]; exact Bool.false_ne_true))))
  · intro R hv hb hws ho ht hr hk hst
    exact tstore_eq h hv hb hws ho ht hr hk hst

end Sys2Proof.Machine.Claim
end

section
/-! Copy instructions (spec 27_engines R311 to R317). -/
namespace Sys2Proof.Machine.Claim

/-- The first fault of a list of lanes is that of its lowest lane with a fault. -/
theorem findSome_lowest {α β : Type} {ls : List Nat} (hs : ls.Pairwise (· < ·)) {q : Nat → α ⊕ β} {l : Nat} (hl : l ∈ ls) {x : α}
    (hx : q l = .inl x) (hlow : ∀ j ∈ ls, j < l → ∃ y, q j = .inr y) (f : Nat × (α ⊕ β) → Option α) (hf : ∀ l y, f (l, .inl y) = some y)
    (hg : ∀ l y, f (l, .inr y) = none) : (ls.map fun l => (l, q l)).findSome? f = some x := by
  induction ls with
  | nil => cases hl
  | cons m r ih =>
    obtain ⟨hm, hr⟩ := List.pairwise_cons.1 hs
    rw [List.map_cons, List.findSome?_cons]
    obtain rfl | hlr := List.mem_cons.1 hl
    · rw [hx, hf]
    · obtain ⟨y, hy⟩ := hlow m List.mem_cons_self (hm l hlr)
      rw [hy, hg]
      exact ih hr hlr fun j hj => hlow j (List.mem_cons_of_mem _ hj)

section
variable {i : Instr} {c : Ctl} {tk : Option (Fin 8)} {plan : State → Bool → Machine.Path → Nat → (BitVec 8 × Word) ⊕ Ask} {s : State} {z : Bool}
  {p : Machine.Path} {r : Issue} (h : Issues i c s z p) (hr : issuedOf i c s z p = r)
include h hr

theorem copyIssue_none (ha : r.act = 0) : copyIssue i c tk plan s = (r.state.spend c.sched).next z := by
  rw [copyIssue, issue_ready h, hr]
  dsimp only
  rw [ha]
  exact congrArg (fun u => (State.spend u c.sched).next z) (if_pos rfl)
theorem copyIssue_all (f : Nat → Ask) (ha : r.act ≠ 0) (hf : ∀ l, r.act.getLsbD l = true → plan r.state z r.path l = .inr (f l)) :
    copyIssue i c tk plan s = (((lanes r.act).foldl (fun u l => u.issueCmd r.path (tk.map Fin.val) l (f l))
      ((r.state.drainGroup r.state.grp.blk r.state.grp.grp).changed z)).spend c.sched).next z := by
  rw [copyIssue, issue_ready h, hr]
  dsimp only
  have hp : perLane r.act (plan r.state z r.path) = perLane r.act fun l => .inr (f l) := perLane_congr fun l _ hl => hf l hl
  rw [hp, if_neg ha, perLane, List.foldl_map]
  have hn (g : Nat × ((BitVec 8 × Word) ⊕ Ask) → Option (BitVec 8 × Word)) (hg : ∀ l y, g (l, .inr y) = none) :
      ((lanes r.act).map fun l => (l, .inr (f l))).findSome? g = none := by
    rw [List.findSome?_map]
    exact List.findSome?_eq_none_iff.2 fun l _ => hg l (f l)
  rw [hn _ fun _ _ => rfl]
theorem copyIssue_fault {l : Nat} {cause : BitVec 8} {addr : Word} (hl : r.act.getLsbD l = true) (hx : plan r.state z r.path l = .inl (cause, addr))
    (hlow : ∀ j, j < l → r.act.getLsbD j = true → ∃ y, plan r.state z r.path j = .inr y) :
    copyIssue i c tk plan s = r.state.trapPath i c.sched cause addr r.act := by
  rw [copyIssue, issue_ready h, hr]
  dsimp only
  rw [perLane, findSome_lowest (lanes_ascending r.act) (mem_lanes.2 ⟨BitVec.lt_of_getLsbD hl, hl⟩) hx
    (fun j hj hjl => hlow j hjl (mem_lanes.1 hj).2) _ (fun _ _ => rfl) fun _ _ => rfl]
end

/-- Settles O42. -/
theorem copyInstructions : Obligations.CopyInstructions := by
  unfold Obligations.CopyInstructions
  intro c ss ds isp k tk pr a x n geo doff s z p
  have one {i : Instr} {t : Option (Fin 8)} {plan : State → Bool → Machine.Path → Nat → (BitVec 8 × Word) ⊕ Ask}
      (hi : exec i s = .next (copyIssue i c t plan s)) (h : Issues i c s z p) :
      let r := issuedOf i c s z p
      let u := (r.state.drainGroup r.state.grp.blk r.state.grp.grp).changed z
      (r.act = 0 → exec i s = .next ((r.state.spend c.sched).next z)) ∧
        (∀ f : Nat → Ask, r.act ≠ 0 → (∀ l, r.act.getLsbD l = true → plan r.state z r.path l = .inr (f l)) →
          exec i s = .next ((((lanes r.act).foldl (fun u l => u.issueCmd r.path (t.map Fin.val) l (f l)) u).spend c.sched).next z)) ∧
        (∀ l cause addr, r.act.getLsbD l = true → plan r.state z r.path l = .inl (cause, addr) →
          (∀ j, j < l → r.act.getLsbD j = true → ∃ y, plan r.state z r.path j = .inr y) →
            exec i s = .next (r.state.trapPath i c.sched cause addr r.act)) :=
    ⟨fun ha => hi.trans (congrArg _ (copyIssue_none h rfl ha)), fun f ha hf => hi.trans (congrArg _ (copyIssue_all h rfl f ha hf)),
      fun l cause addr hl hx hlow => hi.trans (congrArg _ (copyIssue_fault h rfl hl hx hlow))⟩
  simp only [List.forall_mem_cons]
  exact ⟨one rfl, one rfl, one rfl, one rfl, fun _ he => nomatch he⟩
end Sys2Proof.Machine.Claim
end

section
/-! NMATCH and NUNMATCH of one lane (spec 27_engines R322, R323). -/
namespace Sys2Proof.Machine.Claim

/-- A change of memory that a loop may see moves no register number. -/
theorem wrReg_changed (s : State) (z : Bool) (ix : BitVec 3) (d : Reg) (vals : List (Nat × Val)) :
    wrReg (s.changed z).grp ix d vals = wrReg s.grp ix d vals := by
  cases d with
  | g n => rfl
  | v n => rfl
  | ix n => cases z <;> rfl
theorem keepFor_one (g : Group) (ix : BitVec 3) (d : Reg) {l : Nat} (hl : l < 32) (v : Val) :
    wrReg g ix d (keepFor d (laneBit l) [(l, v)]) = wrReg g ix d [(l, v)] := by
  have h := wrReg_keepFor g ix d (laneBit l) fun _ => v
  rw [lanes_laneBit hl] at h
  exact h
theorem must_none {ok : Bool} (h : ok = true) (cause : BitVec 8) (addr : Word) : must ok cause addr = none := if_pos h

/-- What an entry of the match table comes to: the lane's status is written, and a change of the table is one of memory. -/
def matched (i : Instr) (c : Ctl) (d : Reg) (s : State) (z : Bool) (p : Machine.Path) (l : Nat) (v : Int) (t : State) : State :=
  State.finish (if 0 ≤ v then t.changed z else t) z c.sched .variable (issuedOf i c s z p).act (wrReg t.grp c.ix d [(l, .ofInt v)])

/-- The end of NMATCH and NUNMATCH of one lane. -/
theorem matched_eq {i : Instr} {c : Ctl} {d : Reg} {s : State} {z : Bool} {p : Machine.Path} {l : Nat} (hl : l < 32)
    (ha : (issuedOf i c s z p).act = laneBit l) {v : Int} {t : State} {n : Nat} (hn : t.matchTab.length = n ↔ ¬0 ≤ v) :
    State.finish (if t.matchTab.length = n then t else t.changed z) z c.sched .variable (issuedOf i c s z p).act
      (wrReg (if t.matchTab.length = n then t else t.changed z).grp c.ix d (keepFor d (issuedOf i c s z p).act [(l, .ofInt v)])) =
      matched i c d s z p l v t := by
  unfold matched
  rw [ha, keepFor_one _ _ _ hl]
  by_cases hv : 0 ≤ v
  · rw [if_pos hv, if_neg (fun he => hn.1 he hv), wrReg_changed]
  · rw [if_neg hv, if_pos (hn.2 hv)]

section
variable {c : Ctl} {ss : Space} {d : Reg} {a x k : Src} {s : State} {z : Bool} {p : Machine.Path} {l : Nat} (hl : l < 32)
  (h : Issues (.nmatch c ss d a x k) c s z p) {r : Issue} (hr : issuedOf (.nmatch c ss d a x k) c s z p = r) (ha : r.act = laneBit l)
  {b : Block} (hb : r.state.myBlk = some b) {va vx vk : Val} (hva : rdSrc r.state z c.ix a l = va) (hvx : rdSrc r.state z c.ix x l = vx)
  (hvk : rdSrc r.state z c.ix k l = vk) (hna : va.isNum = true) (hnx : vx.isNum = true) (hnk : vk.isNum = true)
  (h1 : 1 ≤ va.pay.toNat) (h2 : va.pay.toNat < 2 ^ 30) (h3 : vx.pay.toNat < 2 ^ 40) (h4 : fld vx.pay 0 32 ≠ 0)
  (h5 : r.state.rangeOk ss vk.pay.toNat = true) (h6 : vk.pay.toNat % 8 = 0) {node : Option Node}
  (hnode : r.state.jobNode b (r.state.grp.core / 72 * 256 + fld vx.pay 32 8) = node) {ws : List (Nat × Val)} {t : State}
  (ht : State.templates r.path [] ss [(l, node, vk.pay.toNat)] r.state = ([(l, .ok ws)], t)) {u : State}
  (hu : u = if ss = .glb then t.touchAll t.grp.core t.myAspace 0 [vk.pay.toNat] else t) {v : Int} {w : State}
  (hw : u.install b (r.state.grp.core / 72) va.pay.toNat node (fld vx.pay 0 32) ws = (v, w))
  (hlen : w.matchTab.length = u.matchTab.length ↔ ¬0 ≤ v)
include hl h hr ha hb hva hvx hvk hna hnx hnk h1 h2 h3 h4 h5 h6 hnode ht hu hw hlen

/-- NMATCH of one lane whose operands and template pass. -/
theorem nmatch_one : exec (.nmatch c ss d a x k) s = .next (matched (.nmatch c ss d a x k) c d s z p l v w) := by
  refine congrArg Host.Outcome.next ((issue_ready h _).trans ?_)
  subst hr
  have hd : (issuedOf (.nmatch c ss d a x k) c s z p).path.dead = [] := by rw [Machine.Path.dead, issued_no_redo rfl h]
  have hp : (va.pay != 0) = true := bne_iff_ne.2 fun he => by rw [he] at h1; exact absurd h1 (by decide)
  have hbad : firstBad [must (allNum [va, vx] && decide (va.pay.toNat < 2 ^ 30) && va.pay != 0 && decide (vx.pay.toNat < 2 ^ 40) &&
      fld vx.pay 0 32 != 0) 3 ((issuedOf (.nmatch c ss d a x k) c s z p).path.pc.setWidth 64),
      firstBad [must vk.isNum 3 ((issuedOf (.nmatch c ss d a x k) c s z p).path.pc.setWidth 64),
        must ((issuedOf (.nmatch c ss d a x k) c s z p).state.rangeOk ss vk.pay.toNat) 5 vk.pay, must (vk.pay.toNat % 8 == 0) 4 vk.pay]] = none := by
    rw [must_none (by simp only [allNum, List.all_cons, List.all_nil, hna, hnx, hp, bne_iff_ne.2 h4, decide_eq_true h2, decide_eq_true h3,
      Bool.and_self]), must_none hnk, must_none h5, must_none (beq_iff_eq.2 h6)]
    rfl
  have hend := matched_eq (d := d) hl ha hlen
  rw [ha] at hend
  cases ss <;>
    (simp only [reduceCtorEq, if_true, if_false] at hu
     subst hu
     simp only [hb, ha, lanes_laneBit hl, List.map_cons, List.map_nil, List.cons_append, List.nil_append, hva, hvx, hvk, hd, hbad, hnode, ht,
       List.foldl_cons, List.foldl_nil, List.findSome?_cons, List.findSome?_nil, State.installAll, hw]
     exact hend)
end

/-! ### What is installed -/

/-- An access through a core's TLB touches the TLB, the walkers' entries and the drop counts only. -/
theorem touch_rest (s : State) (core aspace va : Nat) : ∃ tlb ps d, s.touch core aspace va = { s with tlb := tlb, ptrs := ps, dev := d } := by
  obtain ⟨tlb, ps, d, h⟩ := translate_rest s core aspace va
  unfold State.touch
  generalize s.translate core aspace va = w at h
  obtain ⟨r, u⟩ := w
  obtain rfl : u = _ := h
  cases r with
  | leaf pte size =>
    obtain ⟨d', hd⟩ := dropFrom_rest { s with tlb := tlb, ptrs := ps, dev := d } (State.physDie { s with tlb := tlb, ptrs := ps, dev := d } (core / 72))
      (leafPA pte size va)
    exact ⟨tlb, ps, d', hd⟩
  | missing => exact ⟨_, _, _, rfl⟩
  | malformed => exact ⟨_, _, _, rfl⟩
  | dropped pa => exact ⟨_, _, _, rfl⟩
theorem touchAll_rest (s : State) (core aspace space : Nat) (as : List Nat) :
    ∃ tlb ps d, s.touchAll core aspace space as = { s with tlb := tlb, ptrs := ps, dev := d } := by
  have key (l : List Nat) (u : State) : ∃ tlb ps d, l.foldl (fun s a => s.touch core aspace a) u = { u with tlb := tlb, ptrs := ps, dev := d } := by
    induction l generalizing u with
    | nil => exact ⟨_, _, _, rfl⟩
    | cons a r ih =>
      obtain ⟨_, _, _, hu⟩ := touch_rest u core aspace a
      obtain ⟨_, _, _, hr⟩ := ih (u.touch core aspace a)
      rw [List.foldl_cons, hr, hu]
      exact ⟨_, _, _, rfl⟩
  unfold State.touchAll
  split
  · exact ⟨_, _, _, rfl⟩
  · exact key ..
theorem touchAll_matchTab (s : State) (core aspace space : Nat) (as : List Nat) : (s.touchAll core aspace space as).matchTab = s.matchTab := by
  obtain ⟨_, _, _, h⟩ := touchAll_rest s core aspace space as
  rw [h]

section
variable (s : State) (b : Block) (die tag exp : Nat) (n : Node) (ws : List (Nat × Val))

/-- A template with a word that no template may hold. -/
def oddWord (v : Val) : Bool := v.tag == .fwd || v.tag == .pend || v.tag == .link || Tag.reserved v.tag
theorem oddWord_iff (v : Val) : oddWord v = true ↔ v.tag = .fwd ∨ v.tag = .pend ∨ v.tag = .link ∨ v.tag = .res14 ∨ v.tag = .res15 := by
  simp [oddWord, Tag.reserved, or_assoc]
theorem install_some : s.install b die tag (some n) exp ws =
    if ws.any fun e => oddWord e.2 then (-4, s)
    else if s.matchTab.any fun e => e.tag == die * 2 ^ 30 + tag then (-2, s)
    else if 4096 ≤ (s.matchTab.filter fun e => e.tag / 2 ^ 30 == die).length then (-1, s)
    else (((die * 2 ^ 30 + tag : Nat) : Int), { s with matchTab := s.matchTab ++
      [⟨die * 2 ^ 30 + tag, b.pid, b.eff.job, exp, 0, n.id, ws.map Prod.snd, none, none⟩] }) := rfl
end

/-! ### NUNMATCH -/

section
variable {c : Ctl} {d : Reg} {a : Src} {s : State} {z : Bool} {p : Machine.Path} {l : Nat} (hl : l < 32) (h : Issues (.nunmatch c d a) c s z p)
  (ha : (issuedOf (.nunmatch c d a) c s z p).act = laneBit l) {x : Val} (hx : rdSrc (issuedOf (.nunmatch c d a) c s z p).state z c.ix a l = x)
  (hn : x.isNum = true) {v : Int} {w : State}
  (hw : State.removeAll (issuedOf (.nunmatch c d a) c s z p).state.pid [(l, x.pay.toNat)] (issuedOf (.nunmatch c d a) c s z p).state =
    ([(l, .ofInt v)], w))
  (hlen : w.matchTab.length = (issuedOf (.nunmatch c d a) c s z p).state.matchTab.length ↔ ¬0 ≤ v)
include hl h ha hx hn hw hlen
theorem nunmatch_one : exec (.nunmatch c d a) s = .next (matched (.nunmatch c d a) c d s z p l v w) := by
  refine congrArg Host.Outcome.next ((issue_ready h _).trans ?_)
  have hend := matched_eq (d := d) hl ha hlen
  rw [ha] at hend
  simp only [ha, perLane, lanes_laneBit hl, List.map_cons, List.map_nil, hx, List.any_cons, List.any_nil, hn, Bool.not_true, Bool.or_self,
    Bool.false_eq_true, if_false, hw]
  exact hend
end

theorem removeAll_some {pid tag l : Nat} {s : State} {e : MatchEntry}
    (h : s.matchTab.find? (fun e => e.tag == tag && e.pid == pid && e.done.isNone) = some e) :
    State.removeAll pid [(l, tag)] s = ([(l, .ofInt e.count)], { s with matchTab := s.matchTab.filter fun x => x.tag != tag }) := by
  rw [State.removeAll, h]
  rfl
theorem removeAll_none {pid tag l : Nat} {s : State}
    (h : s.matchTab.find? (fun e => e.tag == tag && e.pid == pid && e.done.isNone) = none) :
    State.removeAll pid [(l, tag)] s = ([(l, .ofInt (-1))], s) := by
  rw [State.removeAll, h]
  rfl

/-- Settles O43. -/
theorem matchInstructions : Obligations.MatchInstructions := by
  unfold Obligations.MatchInstructions
  intro c ss d a x k s z p l hl
  refine ⟨fun h => ?_, fun h => ?_⟩
  · intro r rd die b ha hb hna hnx hnk h1 h2 h3 h4 h5 h6 full gives touched node
    have h4 : fld (rd x).pay 0 32 ≠ 0 := by rw [fld_zero]; exact h4
    refine ⟨fun hnode => ?_, fun n ws t hnode ht => ?_⟩
    · exact nmatch_one hl h rfl ha hb rfl rfl rfl hna hnx hnk h1 h2 h3 h4 h5 h6 hnode rfl rfl rfl (iff_of_true rfl (by decide))
    · intro seen odd used held
      have hts : State.templates r.path [] ss [(l, some n, (rd k).pay.toNat)] r.state = ([(l, .ok ws)], t) := by
        rw [State.templates]
        simp only [ht]
        rfl
      have hinst := install_some seen b die (rd a).pay.toNat (fld (rd x).pay 0 32) n ws
      have done {v : Int} {w : State} (hw : seen.install b die (rd a).pay.toNat (some n) (fld (rd x).pay 0 32) ws = (v, w))
          (hlen : w.matchTab.length = seen.matchTab.length ↔ ¬0 ≤ v) : gives v w :=
        nmatch_one hl h rfl ha hb rfl rfl rfl hna hnx hnk h1 h2 h3 h4 h5 h6 hnode hts rfl hw hlen
      have hodd : (ws.any fun e => oddWord e.2) = true ↔ odd := by simp only [List.any_eq_true, oddWord_iff]; rfl
      have hseen : seen.matchTab = t.matchTab := by
        dsimp only [seen, touched]
        split
        · exact touchAll_matchTab ..
        · rfl
      have hused : (seen.matchTab.any fun e => e.tag == full) = true ↔ used := by rw [hseen]; simp only [List.any_eq_true, beq_iff_eq]; rfl
      have hheld : (seen.matchTab.filter fun e => e.tag / 2 ^ 30 == die).length = held := by rw [hseen]
      refine ⟨fun ho => ?_, fun ho hu => ?_, fun ho hu hh => ?_, fun ho hu hh => ?_⟩
      · exact done (hinst.trans (if_pos (hodd.2 ho))) (iff_of_true rfl (by decide))
      · exact done (hinst.trans ((if_neg (mt hodd.1 ho)).trans (if_pos (hused.2 hu)))) (iff_of_true rfl (by decide))
      · exact done (hinst.trans ((if_neg (mt hodd.1 ho)).trans ((if_neg (mt hused.1 hu)).trans (if_pos (hheld ▸ hh))))) (iff_of_true rfl (by decide))
      · have hfull := hinst.trans ((if_neg (mt hodd.1 ho)).trans ((if_neg (mt hused.1 hu)).trans (if_neg (hheld ▸ Nat.not_le.2 hh))))
        have hlen : (seen.matchTab ++
            [(⟨full, b.pid, b.eff.job, fld (rd x).pay 0 32, 0, n.id, ws.map Prod.snd, none, none⟩ : MatchEntry)]).length ≠
            seen.matchTab.length := by rw [List.length_append]; exact Nat.succ_ne_self _
        have he := done hfull (iff_of_false hlen (not_not.2 (Int.natCast_nonneg _)))
        rw [fld_zero] at he
        exact he
  · intro r x mine gives ha hn
    refine ⟨fun e he => nunmatch_one hl h ha rfl hn (v := e.count) (removeAll_some he) (iff_of_false ?_ (not_not.2 (Int.natCast_nonneg _))),
      fun he => nunmatch_one hl h ha rfl hn (v := -1) (removeAll_none he) (iff_of_true rfl (by decide))⟩
    have hm : mine e = true := List.find?_some he
    have htag : (e.tag != x.pay.toNat) = false := by
      simp only [mine, Bool.and_eq_true, beq_iff_eq] at hm
      rw [bne, hm.1.1, beq_self_eq_true, Bool.not_true]
    exact (List.length_filter_lt_length_iff_exists.2 ⟨e, List.mem_of_find?_eq_some he, by rw [htag]; exact Bool.false_ne_true⟩).ne
end Sys2Proof.Machine.Claim
end

section
/-! Pending effects of instructions (spec 07_encoding R78, 05_execution R66, 17_model R208, 21_sync R250 and R255, 27_engines R313 to
R324, 25_tiles R303, 35_system R395). -/
namespace Sys2Proof.Machine.Claim

/-! ### Stores -/

/-- A store registers alone where no earlier one of its lanes to its word is on its way. -/
theorem storeRegistration_first {s : State} {k : Nat} {x : PendStore} (hk : s.stores[k]? = some x) (hx : x.mask ≠ 0)
    (hb : ∀ y ∈ s.stores.take k, ¬(y.word = x.word ∧ y.blk = x.blk ∧ y.grp = x.grp ∧ y.mask &&& x.mask ≠ 0)) :
    exec (.storeRegistration k) s = .next (State.regStore { s with stores := s.stores.eraseIdx k } x) := by
  obtain ⟨hlt, hget⟩ := List.getElem?_eq_some_iff.1 hk
  have hsame : (x.word == x.word && x.before x.writer) = true := by
    simp only [PendStore.before, PendStore.writer, beq_self_eq_true, Bool.true_and, bne_iff_ne, ne_eq, BitVec.and_self]
    exact hx
  have hothers : ∀ y ∈ s.stores.take k, (y.word == x.word && y.before x.writer) = false := fun y hy => by
    rw [← Bool.not_eq_true]
    simp only [PendStore.before, PendStore.writer, Bool.and_eq_true, beq_iff_eq, bne_iff_ne, and_assoc]
    exact hb y hy
  have htake : s.stores.take (k + 1) = s.stores.take k ++ [x] := by rw [List.take_add_one, hk]; rfl
  have hnow : (s.stores.take (k + 1)).filter (fun y => y.word == x.word && y.before x.writer) = [x] := by
    rw [htake, List.filter_append, List.filter_eq_nil_iff.2 fun y hy => by rw [hothers y hy]; exact Bool.false_ne_true, List.nil_append]
    exact List.filter_eq_self.2 fun y hy => by rw [List.mem_singleton.1 hy, hsame]
  have hrest : (s.stores.take (k + 1)).filter (fun y => !(y.word == x.word && y.before x.writer)) ++ s.stores.drop (k + 1) =
      s.stores.eraseIdx k := by
    have hx : [x].filter (fun y => !(y.word == x.word && y.before x.writer)) = [] := List.filter_eq_nil_iff.2 fun y hy => by
      rw [List.mem_singleton.1 hy, hsame]
      exact Bool.false_ne_true
    rw [htake, List.filter_append, List.filter_eq_self.2 fun y hy => by rw [hothers y hy]; rfl, hx, List.append_nil,
      List.eraseIdx_eq_take_drop_succ]
  refine congrArg Host.Outcome.next ?_
  simp only [hk, hnow, hrest]
  rfl

/-! ### Results, demotions and waits -/

theorem regsOnly_finish (g : Group) (k : Completion) : RegsOnly g (g.finish k) := (regsOnly_wrs g k.writes).trans (regsOnly_lowerCtr _ _)
theorem RegsOnly.sameId {g h : Group} (a : RegsOnly g h) : h.blk = g.blk ∧ h.grp = g.grp ∧ h.st = g.st := by
  obtain ⟨_, _, _, _, _, _, _, _, rfl⟩ := a
  exact ⟨rfl, rfl, rfl⟩
theorem instructionCompletion_due {s : State} {blk grp k : Nat} {g : Group} {c : Completion} {rest : List Completion} (hg : s.grp? blk grp = some g)
    (ht : takeAt g.pend k = some (c, rest)) (hd : ∀ t, c.due = some t → t ≤ s.now) :
    ∃ t : State, exec (.instructionCompletion blk grp k) s = .next t ∧ t.grp? blk grp = some (Group.finish { g with pend := rest } c) := by
  refine ⟨_, rfl, ?_⟩
  rw [State.grp?_modGrp, hg]
  · refine congrArg some ?_
    simp only [ht]
    cases hc : c.due with
    | none => rfl
    | some t => exact if_pos (hd t hc)
  · intro g _
    have hid (c : Completion) (rest : List Completion) := (regsOnly_finish { g with pend := rest } c).sameId
    unfold Group.sameId
    rcases Option.eq_none_or_eq_some (takeAt g.pend k) with he | ⟨⟨c, rest⟩, he⟩
    · simp only [he, and_self]
    · simp only [he]
      rcases Option.eq_none_or_eq_some c.due with hd | ⟨t, hd⟩
      · simp only [hd]
        exact hid c rest
      · simp only [hd]
        split
        · exact hid c rest
        · exact ⟨rfl, rfl, rfl⟩
theorem demotionExpiry_due {s : State} {blk grp : Nat} {b : Bool} {g : Group} {p : Machine.Path} (hg : s.grp? blk grp = some g)
    (hp : g.slot b = some p) (hd : p.spin.demoted = true) (hn : p.spin.since + 1024 ≤ s.now) :
    ∃ t : State, exec (.demotionExpiry blk grp b) s = .next t ∧ t.grp? blk grp = some (g.setSlot b (some p.undemote)) := by
  refine ⟨_, rfl, ?_⟩
  rw [State.grp?_modGrp, hg]
  · refine congrArg some ?_
    dsimp only [Group.modSlot]
    rw [hp, Option.map_some, Path.expire, if_pos ⟨hd, hn⟩]
  · exact fun g _ => by cases b <;> exact ⟨rfl, rfl, rfl⟩

section
variable {s : State} {blk grp : Nat} {b : Bool} {g : Group} {p : Machine.Path} (hg : s.grp? blk grp = some g) (hp : g.slot b = some p)
include hg hp
theorem waitTimeout_bar {w : BarWait} (hw : p.wait = .bar w) (he : s.expired blk w.deadline = true) :
    exec (.waitTimeout blk grp b) s = .next (s.putBar blk grp b (w.decide fun _ => some 1)) := by
  refine congrArg Host.Outcome.next ?_
  rw [State.timeout, hg, Option.bind_some, hp]
  dsimp only
  rw [hw]
  exact if_pos he
theorem waitTimeout_prom {w : PromWait} (hw : p.wait = .prom w) (he : s.expired blk w.deadline = true) :
    exec (.waitTimeout blk grp b) s = .next ((s.freeWaiters fun e => e.blk == blk && e.grp == grp && e.slot == b).putProm blk grp b
      (w.decide 0xFFFFFFFF 1 Val.nil)) := by
  refine congrArg Host.Outcome.next ?_
  rw [State.timeout, hg, Option.bind_some, hp]
  dsimp only
  rw [hw]
  exact if_pos he
theorem waitRetest_bar {w : BarWait} (hw : p.wait = .bar w) : exec (.waitRetest blk grp b) s =
    .next (s.putBar blk grp b (w.decide fun l => if l.registered then none else s.barTest l)) := by
  refine congrArg Host.Outcome.next ?_
  rw [State.retest, hg, Option.bind_some, hp]
  dsimp only
  rw [hw]
end

/-! ### Commands -/

/-- The tag of the first word read. -/
def headTag : List (Nat × Val) → Tag
  | [] => .raw
  | e :: _ => e.2.tag
theorem engineLanding_lands {s : State} {cmd k : Nat} {c : Cmd} {x : Range} {rest : List Range} {u v w : State} {a : Loc}
    {ws : List (Nat × Val)} {h : Home} (hc : s.cmd? cmd = some c) (hf : c.failed = none) (hpeer : c.peer = none)
    (hpick : pickPiece false 8 k c.todo = some (x, rest)) (hready : s.ready c.agent (fun _ => true) = (.go, u)) (hsrc : x.src = .at a)
    (hheld : x.held rest = false) (hws : u.cmdWords c a x.len = .ok ws)
    (hv : v = State.keepOnce ((u.cmdTouch c a).cmdTouch c (a.plus (x.len - 1))) c a ws)
    (hhome : v.cmdHome c x.dst .write = .home h) (hover : x.over_ = none) {whole : Bool}
    (hwhole : whole = (x.len == 8 && x.dst.a % 8 == 0 && a.a % 8 == 0)) {tag : Tag}
    (htag : tag = headTag ws) {bytes : Word × BitVec 8}
    (hbytes : bytes = packBytes (x.dst.a % 8) ((List.range x.len).map fun j => Machine.byteAt ws (a.a + j)))
    (hres : (whole && Tag.reserved tag) = false)
    (hland : (v.cmdTouch c x.dst).landWord c.lander h whole ⟨if whole then tag else .raw, bytes.1⟩ bytes.2 = .inr w) :
    exec (.engineLanding cmd k) s = .next ((w.modCmd c.id fun c => { c with todo := rest }).countLanded c x x.len) := by
  refine congrArg Host.Outcome.next ?_
  have hword : (if whole then wholeWord x tag bytes.1 else .raw bytes.1) = ⟨if whole then tag else .raw, bytes.1⟩ := by
    have ho : (!x.overlaps) = true := by rw [Range.overlaps, hover]; rfl
    cases whole with
    | true => exact if_pos ho
    | false => rfl
  simp only [hc, hf, Option.isSome_none, Bool.false_eq_true, if_false, hpeer, hpick, hheld, hready, hsrc, State.movePiece, hws]
  rw [← hv]
  simp only [hhome, freeBytes, hover, Option.isSome_none, Bool.false_eq_true, if_false]
  subst hwhole hbytes
  cases ws with
  | nil =>
    subst htag
    rw [if_neg (by rw [show Tag.reserved Tag.raw = false from rfl, Bool.and_false]; exact Bool.false_ne_true), show Tag.raw = headTag [] from rfl,
      hword, hland]
  | cons e r =>
    subst htag
    dsimp only [headTag] at hres hword hland ⊢
    rw [hres, hword, hland]
    rfl

section
variable {s : State} {cmd : Nat} {c : Cmd} (hc : s.cmd? cmd = some c)
include hc
theorem engineCommandComplete_done (ht : c.todo = []) (hf : c.failed = none) (hp : c.peer = none) :
    exec (.engineCommandComplete cmd) s = .next (s.endCmd c none) := by
  refine congrArg Host.Outcome.next ?_
  simp only [hc, ht, hf, hp]
  rfl
theorem engineCommandFailure_failed {z : BitVec 8} {va : Nat} {w fwd : Bool} (hf : c.failed = some (z, va, w)) (hp : c.packet = none) :
    exec (.engineCommandFailure cmd fwd) s = .next ((s.record c.pid (s.cmdRec c 3 z va w)).endCmd c (some (z, va))) := by
  refine congrArg Host.Outcome.next ?_
  simp only [hc, hf, hp]
end

/-! ### Bytes of a peer, match emissions, ports -/

theorem ready_rest {s u : State} {who : AgentId} {q : Nat → Bool} {r : Ready} (h : s.ready who q = (r, u)) : ∃ recs, u = { s with recs := recs } := by
  unfold State.ready at h
  dsimp only at h
  split at h <;> cases h <;> exact ⟨_, rfl⟩
theorem filterMap_homes (hs : List (Nat × Nat × Home)) (q : (Nat × Nat) × Found → Option (Nat × Nat × Home))
    (hq : ∀ e : Nat × Nat × Home, q ((e.1, e.2.1), .home e.2.2) = some e) :
    (hs.map fun e => ((e.1, e.2.1), Found.home e.2.2)).filterMap q = hs := by
  rw [List.filterMap_map]
  exact (List.filterMap_congr fun e _ => hq e).trans List.filterMap_some
theorem spanFlitReceive_lands {f : Flit} {p : Partition} {aspace n : Nat} {hs : List (Nat × Nat × Home)} {s u w : State}
    (hp : s.part? f.part = some p) (hst : p.stopped = false) (hdev : f.srcDev ≠ s.dev.devNo) (hown : s.ownsDie f.part f.die = true)
    (hup : s.portUp f.die f.port = true) (hsp : s.spanSpace f.part f.srcDev f.srcPart = some aspace)
    (hready : s.ready (spanAgent f.part) (fun x =>
      f.va / 0x10000 ≤ x / 0x10000 && x / 0x10000 ≤ (f.va + f.bytes.length) / 0x10000) = (.go, u))
    (hhome : ((wordsOf f.va f.bytes.length).map fun k => (k, u.devHome (s.logDie f.die) aspace k.1 .write true)) =
      hs.map fun e => ((e.1, e.2.1), Found.home e.2.2))
    (hland : State.landFlit f hs (u.touchDies (s.logDie f.die) aspace (hs.map fun e => e.1)) = (none, n, w)) :
    exec (.spanFlitReceive f) s = .next ((w.countFlit f aspace n).emit (.spanReply f.srcDev f.srcPart f.cmd none)) := by
  refine congrArg Host.Outcome.next ?_
  have hno : ¬((s.part? f.part).isNone = true ∨ f.srcDev = s.dev.devNo ∨ (!s.ownsDie f.part f.die) = true ∨ (!s.portUp f.die f.port) = true) := by
    simp [hp, hdev, hown, hup]
  have hdie : u.logDie f.die = s.logDie f.die := by
    obtain ⟨recs, hu⟩ := ready_rest hready
    rw [hu]
    rfl
  have harr : s.spanArrive f = (.landed, w.countFlit f aspace n) := by
    unfold State.spanArrive
    simp only [hp, hst, hsp, hready, hdie, hhome, Bool.false_and, Bool.false_eq_true, if_false]
    have hmiss : (hs.map fun e => ((e.1, e.2.1), Found.home e.2.2)).find? (fun e => e.2 == Found.missing) = none := by
      rw [List.find?_map, Option.map_eq_none_iff, List.find?_eq_none]
      exact fun e _ => by simp
    have hva : (hs.map fun e => ((e.1, e.2.1), Found.home e.2.2)).map (fun e => e.1.1) = hs.map fun e => e.1 := List.map_map ..
    rw [hmiss, filterMap_homes hs _ fun _ => rfl, hva, hland]
    exact if_neg (by rw [List.length_map]; exact Nat.lt_irrefl _)
  rw [if_neg hno, harr]
theorem matchTemplateCommit_written {s u : State} {node slot : Nat} {n : Node} {e : Emit} (hn : s.node? node = some n)
    (hst : (n.slot slot).st = .reserved) (he : (n.slot slot).emit = some e) (hwho : e.who = .caller node)
    (hw : s.writeRecord (node / 256) n slot 0 e = (.written, u)) :
    exec (.matchTemplateCommit node slot) s =
      .next (State.onNode { u with matchTab := u.matchTab.filter fun x => !(x.node == node && x.slot == some slot) } node
        fun n => n.commit slot u.now) := by
  refine congrArg Host.Outcome.next ?_
  simp only [hn, hst, he, hwho, ne_eq, not_true, if_false, hw]

/-! ### Products that end -/

section
variable {s : State} {core : Nat} (ha : (s.tile core).active = true) (hn : (s.tile core).busyUntil ≤ s.now)
include ha hn
theorem tmmaCompletion_ends (ht : s.turn.tileErr = false) :
    exec (.tmmaCompletion core) s = .next ((s.modStream (s.tile core).blk fun t =>
      if (keyGet t.accs (s.tile core).acc).isSome then { t with accs := keySet t.accs (s.tile core).acc (some (s.tile core).after) } else t).setTile core
      { s.tile core with active := false, lastUse := (s.tile core).busyUntil, before := none, after := [] }) := by
  refine congrArg Host.Outcome.next ?_
  unfold State.tmmaDone
  simp only [ha, Nat.not_lt.2 hn, decide_false, Bool.not_true, Bool.or_self, Bool.false_eq_true, if_false, ht, Bool.not_false, if_true]
theorem tmmaCompletion_again (ht : s.turn.tileErr = true) (hr : (s.tile core).reran = false) :
    exec (.tmmaCompletion core) s = .next (((s.modStream (s.tile core).blk fun t =>
      { t with rerun := min 65535 (t.rerun + 1) }).worked (s.tile core).blk core 64).setTile core
        { s.tile core with reran := true, busyUntil := (s.tile core).busyUntil + 64 }) := by
  refine congrArg Host.Outcome.next ?_
  unfold State.tmmaDone
  simp only [ha, Nat.not_lt.2 hn, decide_false, Bool.not_true, Bool.or_self, Bool.false_eq_true, if_false, ht, hr, Bool.not_false, if_true]
  rfl
end

/-- Settles O44. -/
theorem pendingEffects : Obligations.PendingEffects := by
  unfold Obligations.PendingEffects
  intro s
  refine ⟨fun k x => storeRegistration_first, fun blk grp k g c rest => instructionCompletion_due, fun blk grp b g p => demotionExpiry_due,
    fun blk grp b g p hg hp => ⟨fun w hw he => ⟨waitTimeout_bar hg hp hw he, ?_⟩, fun w => waitTimeout_prom hg hp, fun w => waitRetest_bar hg hp⟩,
    fun cmd k c x rest u w a ws h => ?_, fun cmd c hc => ⟨engineCommandComplete_done hc, fun z va w fwd => engineCommandFailure_failed hc⟩,
    fun f p aspace n hs u w => ?_, fun node slot n e u => matchTemplateCommit_written, fun die port => ⟨fun hp => ?_, fun hp => ?_⟩,
    fun core => ?_⟩
  · exact List.filter_eq_nil_iff.2 fun _ _ => Bool.false_ne_true
  · intro hc hf hpeer hpick hready hsrc v hheld hws hhome hover whole tag bytes hres hland
    refine engineLanding_lands hc hf hpeer hpick hready hsrc hheld hws rfl hhome hover rfl ?_ rfl hres hland
    cases ws <;> rfl
  · intro hp hst hdev hown hup hsp hready die hhome hland
    exact spanFlitReceive_lands hp hst hdev hown hup hsp hready hhome hland
  · exact congrArg Host.Outcome.next (if_pos hp)
  · exact congrArg Host.Outcome.next (if_neg (Nat.not_le.2 hp))
  · intro e ha hn
    exact ⟨tmmaCompletion_ends ha hn, tmmaCompletion_again ha hn⟩
end Sys2Proof.Machine.Claim
end

section
/-! The record instructions, nodes and batch cards (spec 29_stages R329 to R341). -/
namespace Sys2Proof.Machine.Claim

/-! ### Settling a node -/

/-- Held emissions take slots of their node, and touch nodes and the match table only. -/
theorem emitHeld_rest (id n : Nat) (s : State) : ∃ ns mt, State.emitHeld id n s = { s with nodes := ns, matchTab := mt } := by
  induction n generalizing s with
  | zero => exact ⟨_, _, rfl⟩
  | succ n ih =>
    unfold State.emitHeld
    split
    · exact ⟨_, _, rfl⟩
    · split
      · exact ⟨_, _, rfl⟩
      · split
        · exact ⟨_, _, rfl⟩
        · exact ih _
theorem settleNode_rest (s : State) (id : Nat) : ∃ ns mt, s.settleNode id = { s with nodes := ns, matchTab := mt } := by
  obtain ⟨_, _, h⟩ := emitHeld_rest id s.matchTab.length (s.modNode id Node.tidy)
  exact ⟨_, _, h⟩
theorem settleNode_grp (s : State) (id : Nat) : (s.settleNode id).grp = s.grp := by
  obtain ⟨_, _, h⟩ := settleNode_rest s id
  rw [h]

/-! ### The end of an instruction that acts lane by lane -/

/-- With no lane left and nothing pending of it, an instruction only lowers its counter. -/
theorem retire_none {s : State} {z : Bool} (h : s.grp.parts z = []) (sc : Sched) (lat : Machine.Lat) : s.retire z sc lat 0 [] = s.spend sc := by
  simp [State.retire, State.setGrp, State.spend, Group.retire, h]

section
variable (s : State) (i : Instr) (c : Ctl) (z : Bool) (p : Machine.Path) {l : Nat} (hl : l < 32) (d : Reg) (q : Option Pred)
include hl
theorem endActed_one (v : Int) : s.endActed i c z p (laneBit l) d q ⟨[(l, v)], []⟩ =
    State.finish (if 0 ≤ v then s.changed z else s) z c.sched .variable (laneBit l)
      (wrReg s.grp c.ix d [(l, .ofInt v)] ++ q.elim [] fun q => wrPred q [(l, decide (0 ≤ v))]) := by
  have hm : laneBit l &&& ~~~maskOf [] = laneBit l := and_not_maskOf_nil _
  have hw (t : State) : wrReg t.grp c.ix d (keepFor d (laneBit l) [(l, .ofInt v)]) = wrReg t.grp c.ix d [(l, .ofInt v)] := keepFor_one _ _ _ hl _
  have hc : wrReg (if 0 ≤ v then s.changed z else s).grp c.ix d [(l, .ofInt v)] = wrReg s.grp c.ix d [(l, .ofInt v)] := by
    split
    · exact wrReg_changed ..
    · rfl
  unfold State.endActed
  simp only [List.map_cons, List.map_nil, List.any_cons, List.any_nil, Bool.or_false, decide_eq_true_iff, hm, hw, hc, List.isEmpty_nil, if_true]
  cases q <;> rfl
omit hl in
theorem endActed_stop (h : s.grp.parts z = []) : s.endActed i c z p (laneBit l) d q ⟨[], [l]⟩ =
    (s.spend c.sched).takeTrap (faceOf s i) 0x0E (p.pc.setWidth 64) 0 (laneBit l) false := by
  have hm : laneBit l &&& ~~~maskOf [l] = 0 := by rw [maskOf_one]; exact BitVec.and_not_self _
  have hw : wrReg s.grp c.ix d (keepFor d (laneBit l) []) = [] := by cases d <;> rfl
  unfold State.endActed
  simp only [List.map_nil, List.any_nil, Bool.false_eq_true, if_false, hm, hw, List.nil_append, List.isEmpty_cons]
  cases q <;> exact congrArg (fun t => State.raiseClasses t z (faceOf s i) (laneBit l) [] [] (some (maskOf [l], 0x0E, p.pc.setWidth 64)))
    (retire_none h c.sched .variable) |>.trans (by rw [maskOf_one]; rfl)
end

/-! ### Reserving a slot -/

section
variable (b : Block) (grp : Nat) (me : Writer) (l id dep : Nat) {s : State}

theorem rallocLanes_no_node (h : s.jobNode b id = none) : State.rallocLanes b grp me [(l, id, dep)] s = (⟨[(l, -3)], []⟩, s) := by
  unfold State.rallocLanes
  simp only [h]
  rfl
section
variable {k : Node} (h : s.jobNode b id = some k)
include h
theorem rallocLanes_too_deep (hd : k.maxdepth < dep) (hs : k.strict = false) :
    State.rallocLanes b grp me [(l, id, dep)] s = (⟨[(l, -2)], []⟩, s) := by
  unfold State.rallocLanes
  simp only [h, if_pos hd, hs, Bool.false_eq_true, if_false]
  rfl
theorem rallocLanes_stop (hd : k.maxdepth < dep) (hs : k.strict = true) :
    State.rallocLanes b grp me [(l, id, dep)] s = (⟨[], [l]⟩, s) := by
  unfold State.rallocLanes
  simp only [h, if_pos hd, hs, if_true]
  rfl
variable (hd : dep ≤ k.maxdepth) {m : Node} (hm : (s.settleNode id).node? id = some m)
include hd hm
theorem rallocLanes_full (hf : m.full = true) :
    State.rallocLanes b grp me [(l, id, dep)] s = (⟨[(l, -1)], []⟩, s.settleNode id) := by
  unfold State.rallocLanes
  simp only [h, if_neg (Nat.not_lt.2 hd), hm, hf, if_true]
  rfl
theorem rallocLanes_reserves (hf : m.full = false) :
    State.rallocLanes b grp me [(l, id, dep)] s = (⟨[(l, m.slotVA (m.reserve dep (some (b.id, grp)) none).1)], []⟩,
      State.modNode (if m.qcap ≤ m.alloc then (s.settleNode id).acquireFor me.core me.blk me.grp me.mask else s.settleNode id) id
        fun _ => (m.reserve dep (some (b.id, grp)) none).2) := by
  unfold State.rallocLanes
  simp only [h, if_neg (Nat.not_lt.2 hd), hm, hf, Bool.false_eq_true, if_false]
  rfl
end
end

section
variable {c : Ctl} {d : Reg} {q : Pred} {a : Src} {s : State} {z : Bool} {p : Machine.Path} {l : Nat} (hl : l < 32) {b : Block}
  (h : Issues (.ralloc c d a q) c s z p) {r : Issue} (hr : issuedOf (.ralloc c d a q) c s z p = r) (ha : r.act = laneBit l)
  (hb : r.state.myBlk = some b) (hi : r.state.grp.idempc.getLsbD 0 = false) {x : Val} (hx : rdSrc r.state z c.ix a l = x) (hn : x.isNum = true)
  {dep : Nat} (hdep : (special r.state z l .depth).pay.toNat + 1 = dep)
include hl h hr ha hb hi hx hn hdep

theorem ralloc_eq {v : Acted} {t : State} (hv : State.rallocLanes b r.state.grp.grp (r.state.me r.path) [(l, x.pay.toNat, dep)] r.state = (v, t)) :
    exec (.ralloc c d a q) s = .next (t.endActed (.ralloc c d a q) c z r.path (laneBit l) d (some q) v) := by
  refine congrArg Host.Outcome.next ((issue_ready h _).trans ?_)
  subst hr
  unfold outsideRegion numLanes
  simp only [hi, Bool.false_eq_true, if_false, ha, lanes_laneBit hl, List.all_cons, List.all_nil, hx, hn, Bool.and_self, if_true, hb,
    List.map_cons, List.map_nil, hdep, hv]
/-- RALLOC of one lane that gets a status. -/
theorem ralloc_gives {v : Int} {t : State} (hg : t.grp = r.state.grp)
    (hv : State.rallocLanes b r.state.grp.grp (r.state.me r.path) [(l, x.pay.toNat, dep)] r.state = (⟨[(l, v)], []⟩, t)) :
    exec (.ralloc c d a q) s = .next (State.finish (if 0 ≤ v then t.changed z else t) z c.sched .variable (laneBit l)
      (wrReg r.state.grp c.ix d [(l, .ofInt v)] ++ wrPred q [(l, decide (0 ≤ v))])) := by
  rw [ralloc_eq hl h hr ha hb hi hx hn hdep hv, endActed_one _ _ _ _ _ hl, hg]
  rfl
end
end Sys2Proof.Machine.Claim
end

section
/-! The other record instructions, and the events of nodes and cards (spec 29_stages R329 to R341). -/
namespace Sys2Proof.Machine.Claim

/-! ### RCOMMIT and RDONE -/

section
variable {c : Ctl} {a : Src} {s : State} {z : Bool} {p : Machine.Path} {l : Nat} (hl : l < 32) {r : Issue} (ha : r.act = laneBit l)
  (hi : r.state.grp.idempc.getLsbD 0 = false)
include hl ha hi

theorem rcommit_one {id k : Nat} {x : Val} (h : Issues (.rcommit c a) c s z p) (hr : issuedOf (.rcommit c a) c s z p = r)
    (hx : rdSrc r.state z c.ix a l = x) (hn : x.isNum = true)
    (hk : r.state.reservedSlot r.state.grp.blk r.state.grp.grp x.pay.toNat = some (id, k)) {u : State}
    (hu : u = r.state.drainGroup r.state.grp.blk r.state.grp.grp) :
    exec (.rcommit c a) s = .next ((((u.onNode id fun m => m.commit k u.now).changed z).spend c.sched).next z) := by
  refine congrArg Host.Outcome.next ((issue_ready h _).trans ?_)
  subst hr hu
  unfold outsideRegion
  simp only [hi, Bool.false_eq_true, if_false, ha, lanes_laneBit hl, List.map_cons, List.map_nil, List.all_cons, List.all_nil, hx, hn, hk,
    Option.isSome_some, Bool.and_self, Bool.not_true, List.foldl_cons, List.foldl_nil, Bool.false_or, Bool.not_eq_true',
    decide_eq_false_iff_not, List.nodup_singleton, not_true, laneBit_ne_zero hl]

section
variable {b : Block} (h : Issues (.rdone c) c s z p) (hr : issuedOf (.rdone c) c s z p = r) (hb : r.state.myBlk = some b)
include h hr hb
theorem rdone_node {id cnt rb first : Nat} {card : Option Nat} (ho : b.origin = .node id cnt rb first card) {u : State}
    (hu : u = r.state.drainGroup r.state.grp.blk r.state.grp.grp) :
    exec (.rdone c) s = .next ((((if card.isNone && ((u.node? id).elim false fun n => (n.slot (first + l)).st == .launched &&
      (n.slot (first + l)).launch == u.grp.blk) then (u.slotsDone u.grp.blk id first [l]).changed z else u).spend c.sched).next z)) := by
  refine congrArg Host.Outcome.next ((issue_ready h _).trans ?_)
  subst hr
  unfold outsideRegion
  simp only [hi, Bool.false_eq_true, if_false, hb, Option.map_some, ho, ha, lanes_laneBit hl, List.any_cons, List.any_nil, Bool.or_false, ← hu]
  rcases Option.eq_none_or_eq_some (u.node? id) with hn | ⟨n, hn⟩ <;> simp only [hn] <;> rfl
omit hl in
theorem rdone_grid {launch num gx gy gz : Nat} (ho : b.origin = .grid launch num gx gy gz) :
    exec (.rdone c) s = .next (r.state.trapPath (.rdone c) c.sched 0x11 (p.pc.setWidth 64) p.mask) := by
  refine congrArg Host.Outcome.next ((issue_ready h _).trans ?_)
  subst hr
  unfold outsideRegion
  simp only [hi, Bool.false_eq_true, if_false, hb, Option.map_some, ho]
  rw [issued_path_pc, issued_path_mask]
end
end

/-! ### RFLUSH -/

section
variable {c : Ctl} {d : Reg} {a : Src} {s : State} {z : Bool} {p : Machine.Path} {l : Nat} (hl : l < 32) {b : Block}
  (h : Issues (.rflush c d a) c s z p) {r : Issue} (hr : issuedOf (.rflush c d a) c s z p = r) (ha : r.act = laneBit l)
  (hb : r.state.myBlk = some b) {x : Val} (hx : rdSrc r.state z c.ix a l = x) (hn : x.isNum = true)
include hl h hr ha hb hx hn
theorem rflush_gives {v : Int} {t : State} (hg : t.grp = r.state.grp)
    (hv : State.rflushLanes b [(l, x.pay.toNat)] r.state = ([(l, v)], t)) :
    exec (.rflush c d a) s = .next (State.finish (if 0 < v then t.changed z else t) z c.sched .variable (laneBit l)
      (wrReg r.state.grp c.ix d [(l, .ofInt v)])) := by
  refine congrArg Host.Outcome.next ((issue_ready h _).trans ?_)
  subst hr
  have hw (u : State) : wrReg u.grp c.ix d (keepFor d (laneBit l) [(l, .ofInt v)]) = wrReg u.grp c.ix d [(l, .ofInt v)] := keepFor_one _ _ _ hl _
  have hc : wrReg (if 0 < v then t.changed z else t).grp c.ix d [(l, .ofInt v)] =
      wrReg (issuedOf (.rflush c d a) c s z p).state.grp c.ix d [(l, .ofInt v)] := by
    rw [← hg]
    split
    · exact wrReg_changed ..
    · rfl
  unfold numLanes
  simp only [ha, perLane, lanes_laneBit hl, List.all_cons, List.all_nil, hx, hn, Bool.and_self, if_true, hb, List.map_cons, List.map_nil, hv,
    List.any_cons, List.any_nil, Bool.or_false, decide_eq_true_iff, hw, hc]
end
section
variable (b : Block) (l id : Nat) {s : State}
theorem rflushLanes_none (h : (s.settleNode id).jobNode b id = none) : State.rflushLanes b [(l, id)] s = ([(l, -3)], s.settleNode id) := by
  unfold State.rflushLanes
  simp only [h]
  rfl
theorem rflushLanes_zero {k : Node} (h : (s.settleNode id).jobNode b id = some k) (hk : k.run = 0) :
    State.rflushLanes b [(l, id)] s = ([(l, 0)], s.settleNode id) := by
  unfold State.rflushLanes
  simp only [h, hk, if_true]
  rfl
theorem rflushLanes_run {k : Node} (h : (s.settleNode id).jobNode b id = some k) (hk : k.run ≠ 0) :
    State.rflushLanes b [(l, id)] s = ([(l, (k.run : Int))], (s.settleNode id).modNode id fun n => { n with flush := true }) := by
  unfold State.rflushLanes
  simp only [h, hk, if_false]
  rfl
end

/-! ### RCARD -/

theorem rangeBad_glb (s : State) {a n : Nat} (hn : 0 < n) (h : a + n ≤ 2 ^ 56) : s.rangeBad .glb a n = none := by
  have hok (k : Nat) (hk : k < 2 ^ 56) : s.rangeOk .glb k = true := decide_eq_true hk
  rw [State.rangeBad, if_neg hn.ne', must_none (hok _ (by omega)), must_none (hok _ (by omega))]
  rfl

section
variable {c : Ctl} {tk : Option (Fin 8)} {d : Reg} {a x n : Src} {s : State} {z : Bool} {p : Machine.Path} {l : Nat} (hl : l < 32)
  {b : Block} {k : Node} (h : Issues (.rcard c tk d a x n) c s z p) {r : Issue} (hr : issuedOf (.rcard c tk d a x n) c s z p = r)
  (ha : r.act = laneBit l) (hb : r.state.myBlk = some b) (hi : r.state.grp.idempc.getLsbD 0 = false) {va vx vn : Val}
  (hva : rdSrc r.state z c.ix a l = va) (hvx : rdSrc r.state z c.ix x l = vx) (hvn : rdSrc r.state z c.ix n l = vn)
  (hna : va.isNum = true) (hnx : vx.isNum = true) (hnn : vn.isNum = true) (h1 : 1 ≤ vn.pay.toNat) (h2 : vn.pay.toNat ≤ 65535)
  (hk : r.state.jobNode b va.pay.toNat = some k) (h3 : vx.pay.toNat + vn.pay.toNat * k.rsize ≤ 2 ^ 56) (h4 : vx.pay.toNat % 16 = 0)
  (h5 : 0 < k.rsize) {dep : Nat} (hdep : (special r.state z l .depth).pay.toNat + 1 = dep) (h6 : dep ≤ k.maxdepth)
  (h7 : (r.state.cards.filter fun y => y.node == va.pay.toNat && y.pending).length < 16) {u : State}
  (hu : u = r.state.drainGroup r.state.grp.blk r.state.grp.grp)
include hl h hr ha hb hi hva hvx hvn hna hnx hnn h1 h2 hk h3 h4 h5 hdep h6 h7 hu

theorem rcard_queues {card : Card} (hcard : card =
      { id := u.uid, node := va.pay.toNat, base := vx.pay.toNat, count := vn.pay.toNat, dealt := 0, depth := dep,
        token := tk.map fun y => (r.state.grp.blk, r.state.grp.grp, y.val), dropped := false })
    {w : State} (hw : w = { u with uid := u.uid + 1, cards := u.cards ++ [card] }) : exec (.rcard c tk d a x n) s =
    .next (((tk.elim w fun y => w.setGrp fun g => { g with busy := g.busy ||| ((1 : BitVec 8) <<< y.val) }).changed z).finish z c.sched .variable
      (laneBit l) (wrReg r.state.grp c.ix d [(l, .ofInt 0)])) := by
  refine congrArg Host.Outcome.next ((issue_ready h _).trans ?_)
  subst hr
  have hnum : allNum [va, vx, vn] = true := by simp only [allNum, List.all_cons, List.all_nil, hna, hnx, hnn, Bool.and_self]
  unfold outsideRegion numLanes
  simp only [hi, Bool.false_eq_true, if_false, ha, lanes_laneBit hl, List.all_cons, List.all_nil, hva, hvx, hvn, hnum, Bool.and_self, if_true, hb,
    List.findSome?_cons, List.findSome?_nil, hk, List.map_cons, List.map_nil, laneBit_ne_zero hl, ← hu]
  have hbad : firstBad [must (decide (1 ≤ vn.pay.toNat) && decide (vn.pay.toNat ≤ 65535)) 3
        ((issuedOf (.rcard c tk d a x n) c s z p).path.pc.setWidth 64),
      firstBad [(issuedOf (.rcard c tk d a x n) c s z p).state.rangeBad .glb vx.pay.toNat (vn.pay.toNat * k.rsize),
        must (vx.pay.toNat % 16 == 0) 4 vx.pay]] = none := by
    rw [must_none (by rw [decide_eq_true h1, decide_eq_true h2]; rfl), must_none (beq_iff_eq.2 h4), rangeBad_glb _ (Nat.mul_pos h1 h5) h3]
    rfl
  obtain ⟨st, _, _, _, _, _, _, _, _, _, _, _, _, _, _, _, _, p0, p1, hf⟩ := drain_frame (issuedOf (.rcard c tk d a x n) c s z p).state
    fun e => e.blk == (issuedOf (.rcard c tk d a x n) c s z p).state.grp.blk && e.grp == (issuedOf (.rcard c tk d a x n) c s z p).state.grp.grp
  have hf := hu.trans hf
  have hudep : (special u z l .depth).pay.toNat + 1 = dep := by rw [hf]; exact hdep
  have hub : u.grp.blk = (issuedOf (.rcard c tk d a x n) c s z p).state.grp.blk := by rw [hf]
  have hug : u.grp.grp = (issuedOf (.rcard c tk d a x n) c s z p).state.grp.grp := by rw [hf]
  have hw' (ws : List (Nat × Val)) : wrReg u.grp c.ix d ws = wrReg (issuedOf (.rcard c tk d a x n) c s z p).state.grp c.ix d ws := by
    rw [hf]
    cases d <;> rfl
  have huk : u.jobNode b va.pay.toNat = some k := by rw [hf]; exact hk
  have huc : (u.cards.filter fun y => y.node == va.pay.toNat && y.pending).length < 16 := by rw [hf]; exact h7
  have hlanes (tok : Option (Nat × Nat × Nat)) :
      State.rcardLanes b tok [(l, va.pay.toNat, vx.pay.toNat, vn.pay.toNat, dep)] u =
        (⟨[(l, 0)], []⟩, { u with uid := u.uid + 1, cards := u.cards ++ [{ card with token := tok }] }) := by
    unfold State.rcardLanes
    simp only [huk, if_neg (Nat.not_lt.2 h6), if_neg (Nat.not_le.2 huc), hcard]
    rfl
  rw [hbad]
  simp only [hudep, hlanes, hub, hug, List.any_cons, List.any_nil, Bool.or_false, beq_self_eq_true, if_true]
  have htok : { card with token := tk.map fun t => ((issuedOf (.rcard c tk d a x n) c s z p).state.grp.blk,
      (issuedOf (.rcard c tk d a x n) c s z p).state.grp.grp, t.val) } = card := by rw [hcard]
  have hend (X : State) (hX : ∀ vals, wrReg X.grp c.ix d vals = wrReg u.grp c.ix d vals) :
      X.endActed (.rcard c tk d a x n) c z (issuedOf (.rcard c tk d a x n) c s z p).path (laneBit l) d none ⟨[(l, 0)], []⟩ =
        (X.changed z).finish z c.sched .variable (laneBit l)
          (wrReg (issuedOf (.rcard c tk d a x n) c s z p).state.grp c.ix d [(l, .ofInt 0)]) := by
    rw [endActed_one _ _ _ _ _ hl, hX, hw', Option.elim_none, List.append_nil, if_pos le_rfl]
  rw [htok, ← hw]
  cases tk with
  | none => exact hend w fun vals => by rw [hw]
  | some y => exact hend _ fun vals => by rw [hw]; cases d <;> rfl
end
end Sys2Proof.Machine.Claim
end

section
/-! Events of nodes and cards (spec 29_stages R329 to R331, R340, R341), and the statement about records, nodes and cards. -/
namespace Sys2Proof.Machine.Claim

theorem node?_id {s : State} {id : Nat} {n : Node} (h : s.node? id = some n) : n.id = id := by
  simpa using List.find?_some h
theorem drainGroup_blk (s : State) (blk grp : Nat) : (s.drainGroup blk grp).grp.blk = s.grp.blk := by
  obtain ⟨_, _, _, _, _, _, _, _, _, _, _, _, _, _, _, _, _, _, _, h⟩ := drain_frame s fun p => p.blk == blk && p.grp == grp
  rw [State.drainGroup, h]

section
variable {s : State} {node core : Nat} {n : Node}

theorem nodeTimerExpiry_passed (hn : (s.settleNode node).node? node = some n) (ht : n.timer ≠ 0) (hr : 0 < n.run)
    (hc : (n.slot (n.launch % n.qcap)).clock + n.timer ≤ (s.settleNode node).now) :
    exec (.nodeTimerExpiry node) s = .next ((s.settleNode node).modNode node fun n => { n with timedOut := true }) := by
  refine congrArg Host.Outcome.next ?_
  simp only [hn]
  exact if_pos ⟨ht, hr, hc⟩

theorem nodeReady_of {t : State} (hu : n.unbind = none) (hc : t.cardOf n.id = none) (hr : 0 < n.run)
    (he : 32 ≤ n.run ∨ n.thresh ≤ n.run ∨ n.launch % n.qcap + n.run = n.qcap ∨ n.timedOut = true ∨ n.flush = true ∨
      (n.timer ≠ 0 ∧ (n.slot (n.launch % n.qcap)).clock + n.timer ≤ t.now)) : t.nodeReady n = true := by
  have hd : (decide (32 ≤ n.run) || n.launch % n.qcap + n.run == n.qcap || decide (n.thresh ≤ n.run) || n.timedOut ||
      (n.timer != 0 && decide ((n.slot (n.launch % n.qcap)).clock + n.timer ≤ t.now)) || n.flush) = true := by
    simp only [Bool.or_eq_true, Bool.and_eq_true, decide_eq_true_iff, beq_iff_eq, bne_iff_ne]
    tauto
  unfold State.nodeReady
  dsimp only
  rw [hu, hc, hd, Option.isNone_none, Option.isNone_none, Bool.and_true, Bool.true_and, Bool.true_and]
  exact bne_iff_ne.2 hr.ne'
theorem nodeLaunch_launches {w : State} (hn : (s.settleNode node).node? node = some n) (hu : n.unbind = none)
    (hc : (s.settleNode node).cardOf node = none) (hr : 0 < n.run)
    (he : 32 ≤ n.run ∨ n.thresh ≤ n.run ∨ n.launch % n.qcap + n.run = n.qcap ∨ n.timedOut = true ∨ n.flush = true ∨
      (n.timer ≠ 0 ∧ (n.slot (n.launch % n.qcap)).clock + n.timer ≤ (s.settleNode node).now))
    (hw : (s.settleNode node).nodeWaits n = false)
    (hl : (s.settleNode node).launchNode n core (min 32 n.run) (n.slotVA (n.launch % n.qcap)) (n.launch % n.qcap) none
      ((List.range (min 32 n.run)).map fun i => (n.slot (n.launch % n.qcap + i)).depth) = some w) :
    exec (.nodeLaunch node core) s = .next (w.modNode node fun k =>
      let k := (List.range (min 32 n.run)).foldl (fun k i => k.setSlot (n.launch % n.qcap + i)
        { k.slot (n.launch % n.qcap + i) with st := .launched, launch := (s.settleNode node).uid }) k
      { k with launch := k.launch + min 32 n.run, flush := false, timedOut := false }) := by
  have hready := nodeReady_of hu (by rw [node?_id hn]; exact hc) hr he
  refine congrArg Host.Outcome.next ?_
  simp only [hn, hready, hw, hl, Bool.not_true, Bool.or_self, Bool.false_eq_true, if_false]

theorem cardLaunch_launches {k : Card} {w : State} (hn : s.node? node = some n) (hk : s.cardOf node = some k) (hu : n.unbind = none)
    {m count : Nat} (hm : m = max 1 ((s.blocks.filter fun b => match b.origin with
      | .node id _ _ _ _ => id == node
      | .grid .. => false).flatMap Block.cores).eraseDups.length)
    (hcount : count = min 32 (max 1 ((k.count - k.dealt + 2 * m - 1) / (2 * m))))
    (hl : s.launchNode n core count (k.base + k.dealt * n.rsize) 0 (some k.id) (List.replicate count k.depth) = some w) :
    exec (.cardLaunch node core) s = .next
      { w with cards := updWhere w.cards (fun c => c.id == k.id) fun c => { c with dealt := c.dealt + count } } := by
  refine congrArg Host.Outcome.next ?_
  subst hcount hm
  simp only [hn, hk, hu, Option.isSome_none, Bool.false_eq_true, if_false]
  split
  next hnone => cases hnone.symm.trans hl
  next v hsome =>
    cases hsome.symm.trans hl
    rfl

section
variable {card : Nat} {k : Card} (hk : s.cards.find? (fun x => x.id == card) = some k) (hp : k.pending = false) (hr : s.cardRuns card = false)
include hk hp hr
theorem cardComplete_plain (ht : k.token = none) : exec (.cardComplete card) s = .next { s with cards := s.cards.filter fun x => x.id != card } := by
  refine congrArg Host.Outcome.next ?_
  simp only [hk, hp, hr, ht, Bool.or_self, Bool.false_eq_true, if_false]
theorem cardComplete_token {blk grp n : Nat} (ht : k.token = some (blk, grp, n)) : exec (.cardComplete card) s =
    .next (State.endToken { s with cards := s.cards.filter fun x => x.id != card } blk grp n (if k.dropped then some (0x11, 0) else none)) := by
  refine congrArg Host.Outcome.next ?_
  simp only [hk, hp, hr, ht, Bool.or_self, Bool.false_eq_true, if_false]
end
end

/-- Settles O45. -/
theorem nodesRecordsAndCards : Obligations.NodesRecordsAndCards := by
  unfold Obligations.NodesRecordsAndCards
  refine ⟨fun c tk d q a x n s z p l hl => ?_, fun s node core => ?_⟩
  · intro sole one A deep
    refine ⟨fun b => ?_, fun b id k => ?_, fun b id cnt rb first card => ?_, fun b launch num gx gy gz => ?_, fun b => ?_, fun b k => ?_⟩
    · rintro i t gives ⟨⟨h, ha, hb⟩, hi⟩ hn
      have done {v : Int} {u : State} (hg : u.grp = t.grp)
          (hv : State.rallocLanes b t.grp.grp (t.me (issuedOf i c s z p).path) [(l, (A i).pay.toNat, deep i)] t = (⟨[(l, v)], []⟩, u)) :=
        ralloc_gives hl h rfl ha hb hi rfl hn rfl hg hv
      refine ⟨fun hk => done rfl (rallocLanes_no_node _ _ _ _ _ _ hk), fun k hk => ⟨fun hd hs => ?_, fun hd hs => ?_, fun hd m => ?_⟩⟩
      · exact done rfl (rallocLanes_too_deep _ _ _ _ _ _ hk hd hs)
      · have hv := rallocLanes_stop b t.grp.grp (t.me (issuedOf i c s z p).path) l _ _ hk hd hs
        rw [ralloc_eq hl h rfl ha hb hi rfl hn rfl hv, endActed_stop _ _ _ _ _ _ _ (issued_parts h.2.1), issued_path_pc]
      · intro u hm
        refine ⟨fun hf => ?_, fun hf => ?_⟩
        · exact done (settleNode_grp ..) (rallocLanes_full _ _ _ _ _ _ hk hd hm hf)
        · intro e w
          have hv := rallocLanes_reserves b t.grp.grp (t.me (issuedOf i c s z p).path) l _ _ hk hd hm hf
          have hme (v : State) (hg : v.grp = t.grp) : v.acquireFor (t.me (issuedOf i c s z p).path).core (t.me (issuedOf i c s z p).path).blk
              (t.me (issuedOf i c s z p).path).grp (t.me (issuedOf i c s z p).path).mask = v.acquireMe (issuedOf i c s z p).path := by
            rw [State.acquireMe, hg]
            rfl
          rw [hme _ (settleNode_grp ..)] at hv
          have hg : (w.modNode (A i).pay.toNat fun _ => e.2).grp = t.grp := by
            refine Eq.trans (b := w.grp) rfl ?_
            dsimp only [w]
            split
            · exact settleNode_grp ..
            · exact settleNode_grp ..
          exact (done hg hv).trans (by rw [if_pos (Int.natCast_nonneg _)])
    · rintro i t ⟨⟨h, ha, hb⟩, hi⟩ hn hk u
      exact rcommit_one hl ha hi h rfl rfl hn hk rfl
    · rintro i t ⟨⟨h, ha, hb⟩, hi⟩ ho u frees
      rw [rdone_node hl ha hi h rfl hb ho rfl, drainGroup_blk]
      have hfr : ((u.node? id).elim false fun n => (n.slot (first + l)).st == .launched && (n.slot (first + l)).launch == t.grp.blk) = frees := by
        rcases Option.eq_none_or_eq_some (u.node? id) with hn | ⟨n, hn⟩ <;> simp only [frees, hn, Option.elim_none, Option.elim_some]
      exact congrArg (β := Host.Outcome State Fault Refusal) (fun f => .next ((State.spend (if card.isNone && f then
        (u.slotsDone t.grp.blk id first [l]).changed z else u) c.sched).next z)) hfr
    · rintro i t ⟨⟨h, ha, hb⟩, hi⟩ ho
      exact rdone_grid ha hi h rfl hb ho
    · rintro i t gives ⟨h, ha, hb⟩ hn
      have hg : t.grp = (issuedOf i c s z p).state.grp := settleNode_grp ..
      have done {v : Int} {u : State} (hu : u.grp = (issuedOf i c s z p).state.grp)
          (hv : State.rflushLanes b [(l, (A i).pay.toNat)] (issuedOf i c s z p).state = ([(l, v)], u)) :
          exec i s = .next (State.finish (if 0 < v then u.changed z else u) z c.sched .variable (laneBit l)
            (wrReg t.grp c.ix d [(l, .ofInt v)])) := by
        rw [hg]
        exact rflush_gives hl h rfl ha hb rfl hn hu hv
      refine ⟨fun hk => done hg (rflushLanes_none _ _ _ hk), fun k hk hr => done hg (rflushLanes_zero _ _ _ hk hr), fun k hk hr => ?_⟩
      refine (done ?_ (rflushLanes_run _ _ _ hk hr)).trans ?_
      · exact hg
      · rw [if_pos (Int.natCast_pos.2 (Nat.pos_of_ne_zero hr))]
    · rintro i t X N ⟨⟨h, ha, hb⟩, hi⟩ hna hnx hnn h1 h2 hk h3 h4 h5 h6 h7 u card w busy
      refine (rcard_queues hl h rfl ha hb hi rfl rfl rfl hna hnx hnn h1 h2 hk h3 h4 h5 rfl h6 h7 rfl rfl rfl).trans ?_
      cases tk <;> rfl
  · intro t
    refine ⟨fun n hn => ⟨nodeTimerExpiry_passed hn, fun w hu hc hr he hw => ?_⟩, fun n k w hn hk hu => ?_, fun card k hk hp hr => ?_⟩
    · intro at_ count hl
      exact nodeLaunch_launches hn hu hc hr he hw hl
    · intro running m count hl
      exact cardLaunch_launches hn hk hu rfl rfl hl
    · exact ⟨cardComplete_plain hk hp hr, fun blk grp n => cardComplete_token hk hp hr⟩
end Sys2Proof.Machine.Claim
end

section
/-! Queues are bound, kicked and checked, and packets start (spec 31_scheduling R343 to R347). -/
namespace Sys2Proof.Machine.Claim

section
variable {s : State} {q : Nat} {k : Queue} (hq : s.queue? q = some k)
include hq

theorem kick_eq (w : Word) : s.kick q w =
    if k.state ≠ 1 ∨ w.toNat ≤ k.widx then s
    else if 2 ^ k.log2n < w.toNat - k.cidx then s.stopQueue q 2
    else (s.modQueue q fun k => { k with widx := w.toNat }).showQueue q := by
  rw [State.kick, hq]

omit hq in
theorem sameCopies_iff {ws : List Word} (hw : s.firmWords k.aspace k.qcb 3 = some ws) : s.sameCopies k = decide (qcbFields ws = k.copies) := by
  rw [State.sameCopies, hw]
theorem queueCheck_same {ws : List Word} (hw : s.firmWords k.aspace k.qcb 3 = some ws) (he : qcbFields ws = k.copies) :
    exec (.queueCheck q) s = .next s := by
  refine congrArg Host.Outcome.next ?_
  rw [State.checkQueue, hq]
  exact if_pos ((sameCopies_iff hw).trans (decide_eq_true he))
theorem queueCheck_differs {ws : List Word} (hw : s.firmWords k.aspace k.qcb 3 = some ws) (he : qcbFields ws ≠ k.copies) (h1 : k.state = 1)
    (hv : (s.stopQueue q 1).vfFor k.pid ((s.stopQueue q 1).queueTenant k) = none) :
    exec (.queueCheck q) s = .next (s.stopQueue q 1) := by
  refine congrArg Host.Outcome.next ?_
  unfold State.checkQueue
  simp only [hq, sameCopies_iff hw, decide_eq_false he, Bool.false_eq_true, if_false, if_pos h1, hv]
end
theorem queueKick_eq {s : State} {fn page q : Nat} (hb : s.dev.boot = .up) (hd : s.doorbellQueue fn page = some q) (w : Word) :
    exec (.queueKick ⟨fn, page⟩ w) s = .next (s.kick q w) := by
  refine congrArg Host.Outcome.next ?_
  simp only [if_pos hb, hd]
theorem queueKick_none {s : State} {fn page : Nat} (h : s.dev.boot ≠ .up ∨ s.doorbellQueue fn page = none) (w : Word) :
    exec (.queueKick ⟨fn, page⟩ w) s = .next s := by
  refine congrArg Host.Outcome.next ?_
  have hn : (if s.dev.boot = .up then s.doorbellQueue fn page else none) = none := by
    split
    · next hb => exact h.resolve_left (not_not.2 hb)
    · rfl
  simp only [hn]

/-! ### Binding -/

theorem putFirm_queues (s : State) (w : Nat) (x : Word) : (s.putFirm w x).queues = s.queues := by
  unfold State.putFirm
  split <;> rfl
theorem drain_queues (s : State) (q : PendStore → Bool) : (s.drain q).queues = s.queues := by
  obtain ⟨_, _, _, _, _, _, _, _, _, _, _, _, _, _, _, _, _, _, _, h⟩ := drain_frame s q
  rw [h]
theorem regWord_queues (s : State) (by_ : Option Writer) (w : Nat) (x : Val) : (s.regWord by_ w x).queues = s.queues := by
  obtain ⟨_, _, _, _, _, _, _, _, _, _, _, _, _, _, _, _, _, _, h⟩ := regFrame_regMem s w by_ true x
  rw [State.regWord, h]
theorem putBytes_queues (pa : Nat) (bs : List Byte) (s : State) : (s.putBytes pa bs).queues = s.queues := by
  induction bs generalizing pa s with
  | nil => rfl
  | cons b r ih =>
    rw [State.putBytes, ih, regWord_queues, State.drainFor, drain_queues]
theorem firmPut_queues (s : State) (aspace va n x : Nat) : (s.firmPut aspace va n x).queues = s.queues := by
  unfold State.firmPut
  split
  · exact putBytes_queues ..
  · rfl
/-- Firmware shows a queue in its control block: of the queue it knows the block's place anew. -/
theorem showQueue_queue? {s : State} {q : Nat} {k : Queue} (h : s.queue? q = some k) :
    ∃ pa, (s.showQueue q).queue? q = some { k with pa := pa } := by
  have hs : (s.showQueue q).queues = (s.modQueue q fun x => { x with pa := (s.firmPA k.aspace k.qcb).getD x.pa }).queues := by
    rw [State.showQueue, h]
    dsimp only
    rw [firmPut_queues, firmPut_queues, firmPut_queues, firmPut_queues]
  have hm := State.queue?_modQueue s q (fun x => { x with pa := (s.firmPA k.aspace k.qcb).getD x.pa }) fun _ => rfl
  rw [State.queue?, hs]
  exact ⟨_, hm.trans (congrArg (Option.map _) h)⟩
theorem withJob_queues (s : State) (pid job : Nat) : (s.withJob pid job).queues = s.queues := by
  unfold State.withJob
  split <;> rfl

/-- What a queue is bound as, from the fields of its control block. -/
def boundQueue (q pid aspace qcb ring log2n die vec rcb pa : Nat) : Queue where
  id := q
  pid := pid
  aspace := aspace
  qcb := qcb
  pa := pa
  ring := ring
  log2n := log2n
  die := die
  vec := vec
  rcb := rcb
  widx := 0
  sidx := 0
  cidx := 0
  state := 1
  err := 0
  packets := []
/-- A queue added under its number is found under it. -/
theorem queue?_added (s : State) (k : Queue) (pid job : Nat) :
    (State.withJob { s with queues := (s.queues.filter fun (x : Queue) => x.id != k.id) ++ [k] } pid job).queue? k.id = some k := by
  rw [State.queue?, withJob_queues, List.find?_append, List.find?_filter, List.find?_eq_none.2 fun x _ => by simp, Option.none_or]
  simp

/-- A queue that is not bound is bound from its control block. -/
theorem queueBind_binds {s : State} {fn q aspace qcb : Nat} {a : Aspace} {ws : List Word} {c : List Rcb} {ring log2n die vec rcb : Nat}
    (ha : s.aspace? aspace = some a) (hws : s.firmWords aspace qcb 16 = some ws) (hf : qcbFields ws = (ring, log2n, die, vec, aspace, rcb))
    (hc : s.chain a.pid rcb = some c) (hq : s.queue? q = none) (h1 : q < 4096) (h2 : qcb % 128 = 0) (h3 : ring % 64 = 0) (h4 : 4 ≤ log2n)
    (h5 : log2n ≤ 16) (hp : ∃ p, s.part? a.pid = some p ∧ p.dies.contains die = true) (hr : a.root ≠ none) (h6 : Machine.fieldOf ws 24 8 = 0)
    (h7 : Machine.fieldOf ws 60 4 = 0) (h8 : ∀ x ∈ ws.drop 8, x = 0) (h9 : s.frozenVf a.pid (tenantOf c) = false)
    (hfn : fn = 0 ∨ ∃ v, s.vf? fn = some v ∧ v.pid = a.pid ∧ v.tenant = tenantOf c ∧ v.st ≠ .run) :
    exec (.queueBind ⟨fn, q⟩ aspace qcb) s = .next (State.showQueue (State.withJob { s with queues :=
      (s.queues.filter fun (x : Queue) => x.id != q) ++
        [boundQueue q a.pid aspace qcb ring log2n die vec rcb ((s.firmPA aspace qcb).getD 0)] } a.pid (jobOf c)) q) := by
  refine congrArg Host.Outcome.next ?_
  obtain ⟨p, hp, hd⟩ := hp
  have hown : s.ownRebind fn q = none := by
    unfold State.ownRebind
    rw [hq]
    cases s.vf? fn <;> rfl
  have hforeign : (s.queues.any fun k => k.id == q && k.pid != a.pid) = false :=
    List.any_eq_false.2 fun k hk => by simp [List.find?_eq_none.1 hq k hk]
  have hfrozen : s.frozenQueue q = false := by rw [State.frozenQueue, hq]
  have hdrop : ((ws.drop 8).any fun w => w != 0) = false := List.any_eq_false.2 fun w hw => by rw [h8 w hw]; decide
  have hby (go : State → State) : s.byFunction fn a.pid (tenantOf c) q go = go s := by
    unfold State.byFunction
    obtain rfl | ⟨v, hv, hpid, hten, hst⟩ := hfn
    · rfl
    · split
      · rfl
      · simp only [hv, hpid, hten, ne_eq, not_true, or_self, if_false, hst]
  have hroot : a.root.isNone = false := by cases hr' : a.root with
    | none => exact absurd hr' hr
    | some r => rfl
  simp only [hown, ha, hws, hf, hc, hby, hq, hp, hd, hroot, hforeign, hfrozen, hdrop, h2, h3, h6, h7, h9, Option.map_some, Option.getD_some,
    bne_self_eq_false, Bool.not_true, Bool.or_false, Bool.or_eq_true, decide_eq_true_eq, h1.not_ge, h4.not_gt, h5.not_gt, or_self,
    Bool.false_eq_true, if_false]
  rfl

/-! ### Starting a packet -/

theorem startPacket_starts {s u v t : State} {k k' : Queue} {i : Nat} {sel : List Word → Bool} {f : Queue → Packet → State → State} {vs : List Val}
    {p : Partition} (h1 : k.state = 1) (hi : i = k.sidx) (hw : i < k.widx) (hp : s.part? k.pid = some p) (hs : p.stopped = false)
    (hf : Finds s k i (k.packetVA i) 8 vs u) (hv : v = u.takeLanes k.die) (hok : packetOk (v.topQueue k) (vs.map Val.pay) = true)
    (hturn : v.laneTurn k (pkType (vs.map Val.pay)) = true) (hsel : sel (vs.map Val.pay) = true)
    (hbar : pkBar (vs.map Val.pay) = false ∨ k.cidx = i)
    (ht : t = (v.modQueue k.id fun k => { k with sidx := i + 1, packets := k.packets ++ [⟨i, vs.map Val.pay, .running, 0, none, 0⟩] }).showQueue k.id)
    (hk : t.queue? k.id = some k') :
    s.startPacket k i sel f = f k' ⟨i, vs.map Val.pay, .running, 0, none, 0⟩ t := by
  have hhas : s.hasPacket k = true := by
    rw [State.hasPacket, hp]
    simp [h1, hs, ← hi, hw]
  have hb : (pkBar (vs.map Val.pay) && k.cidx != i) = false := by
    obtain hb | hb := hbar
    · rw [hb, Bool.false_and]
    · rw [hb, bne_self_eq_false, Bool.and_false]
  unfold State.startPacket
  rw [hhas, if_neg (by simp [hi]), hf]
  simp only [← hv, hok, hsel, hb, hturn, Bool.not_true, Bool.or_self, Bool.false_eq_true, if_false, ← ht, hk]

/-- Settles O46, a lemma for each of the queue instructions. -/
theorem queuesAndPacketStart : Obligations.QueuesAndPacketStart := by
  unfold Obligations.QueuesAndPacketStart
  intro s
  refine ⟨fun fn page q w k hb hd hq => ?_, fun fn page w h => queueKick_none h w, ?_, fun q k hq => ⟨fun ws => queueCheck_same hq,
    fun ws => queueCheck_differs hq⟩, ?_⟩
  · have he := (queueKick_eq hb hd w).trans (congrArg Host.Outcome.next (kick_eq hq w))
    refine ⟨fun h => he.trans (congrArg _ (if_pos h)), fun h1 hw hn => ?_, fun h1 hw hn => ?_⟩
    · have hk : ¬(k.state ≠ 1 ∨ w.toNat ≤ k.widx) := by omega
      exact he.trans (congrArg _ ((if_neg hk).trans (if_neg (by rw [Nat.sub_le_iff_le_add'.symm] at hn; exact hn.not_gt))))
    · have hk : ¬(k.state ≠ 1 ∨ w.toNat ≤ k.widx) := by omega
      exact he.trans (congrArg _ ((if_neg hk).trans (if_pos (Nat.lt_sub_of_add_lt (by rwa [Nat.add_comm])))))
  · intro fn q aspace qcb a ws c ring log2n die vec rcb ha hws hf hc hq h1 h2 h3 h4 h5 hp hr h6 h7 h8 h9 hfn
    refine ⟨_, queueBind_binds ha hws hf hc hq h1 h2 h3 h4 h5 hp hr h6 h7 h8 h9 hfn, ?_⟩
    obtain ⟨pa, hpa⟩ := showQueue_queue?
      (queue?_added s (boundQueue q a.pid aspace qcb ring log2n die vec rcb ((s.firmPA aspace qcb).getD 0)) a.pid (jobOf c))
    exact ⟨_, hpa, rfl, rfl, rfl, rfl, rfl, rfl, rfl, rfl, rfl, rfl, rfl⟩
  · intro k i sel f vs u p h1 hi hw hp hs hf v hok hturn hsel hbar t k' hk
    exact startPacket_starts h1 hi hw hp hs hf rfl hok hturn hsel hbar rfl hk

end Sys2Proof.Machine.Claim
end

section
/-! What each packet type does, and how a packet completes (spec 31_scheduling R346 to R354, 29_stages R342, 37_debug R411). -/
namespace Sys2Proof.Machine.Claim

section
variable {s : State} {q i : Nat} {k : Queue} {p : Packet}

theorem onPacket_running {sel : List Word → Bool} (h : Running s q i sel k p) (f : Queue → Packet → State → State) :
    onPacket q i sel f s = f k p s := by
  obtain ⟨hq, hp, hst, hsel⟩ := h
  unfold onPacket
  simp only [hq, hp]
  exact if_pos ⟨hst, hsel⟩
theorem next_onPacket {sel : List Word → Bool} (h : Running s q i sel k p) (f : Queue → Packet → State → State) :
    (Host.Outcome.next (φ := Fault) (ρ := Refusal) (onPacket q i sel f s)) = .next (f k p s) :=
  congrArg Host.Outcome.next (onPacket_running h f)

/-! ### SIGNAL -/

/-- A word that no device store may not change meets no fault. -/
theorem storeMeets_none {u : State} {h : Home}
    (ht : u.storesTag h = false ∨ (u.homeWord h).tag.code ≤ 10 ∨ ((u.homeWord h).tag = .fwd ∧ h.tagged = true)) :
    (if u.storesTag h then tagFault (u.homeWord h).tag (!h.tagged) else none) = none := by
  obtain ht | ht | ⟨ht, hh⟩ := ht
  · exact if_neg (by simp [ht])
  · rw [tagFault_of_code ht, ite_self]
  · rw [ht, hh]
    exact ite_self _

theorem signalStore_effect (hr : Running s q i (signalOp 0) k p) {h : Home} {u : State}
    (hh : Reaches s k i (p.words.getD 3 0).toNat .write h u)
    (ht : u.storesTag h = false ∨ (u.homeWord h).tag.code ≤ 10 ∨ ((u.homeWord h).tag = .fwd ∧ h.tagged = true)) :
    exec (.signalStore q i) s = .next ((u.land h (.raw (p.words.getD 4 0))).effected k i) := by
  refine (next_onPacket hr _).trans (congrArg _ ((hh _).trans ?_))
  simp only [storeMeets_none ht]

theorem signalAdd_effect (hr : Running s q i (signalOp 1) k p) {h : Home} {u t : State}
    (hh : Reaches s k i (p.words.getD 3 0).toNat .write h u) (ha : u.devAdd h (p.words.getD 4 0) = .inr t) :
    exec (.signalAdd q i) s = .next (t.effected k i) := by
  refine (next_onPacket hr _).trans (congrArg _ ((hh _).trans ?_))
  simp only [ha]

theorem signalPfill_effect (hr : Running s q i (signalOp 2) k p) {h : Home} {u t : State} {c r : Nat}
    (hh : Reaches s k i (p.words.getD 3 0).toNat .write h u) (hc : cellOf h = .inr c) (hf : u.findRoot none k.pid c = (.root r, t))
    (hp : (t.peek r).tag = .pend) :
    exec (.signalPfill q i) s =
      .next (((t.regWord none r (.int (p.words.getD 4 0))).wakeAll r 0 (.int (p.words.getD 4 0))).effected k i) := by
  refine (next_onPacket hr _).trans (congrArg _ ((hh _).trans ?_))
  simp only [hc, hf, hp, if_true]

theorem signalTlbi_effect (hr : Running s q i (signalOp 4) k p) (n : Nat) (hn : n = (p.words.getD 3 0).toNat) :
    exec (.signalTlbi q i) s = .next (({ s with
      tlb := s.tlb.filter fun e => !(e.aspace == k.aspace && (n == 0 || e.base == n / 2 ^ e.size))
      ptrs := s.ptrs.filter fun e => !(e.aspace == k.aspace && (n == 0 || e.base == n / 2 ^ e.bit))
      hdr := s.hdr.filter fun e => !(e.aspace == k.aspace && (n == 0 || e.va / 2 ^ e.size == n / 2 ^ e.size)) } : State).effected k i) := by
  subst hn
  refine (next_onPacket hr _).trans (congrArg (β := Host.Outcome State Fault Refusal) (fun t : State => .next (t.effected k i)) ?_)
  by_cases h0 : (p.words.getD 3 0).toNat = 0
  · refine (congrArg _ (if_pos h0)).trans ?_
    simp only [State.tlbi, h0, beq_self_eq_true, Bool.true_or]
  · refine (congrArg _ (if_neg h0)).trans ?_
    simp only [State.tlbi, pkWord, beq_eq_false_iff_ne.2 h0, Bool.false_or]

/-! ### Records -/

theorem packetRecord_commits {id base total : Nat} {n m : Node} {vs : List Val} {u t : State} (hi : p.idx = i)
    (hn : s.queueNode k id = some n) (hp : p.slot = none) (hf : Finds s k i (base + p.count * n.rsize) (n.rsize / 8) vs u)
    (hm : (u.settleNode id).node? id = some m) (hfull : m.full = false)
    (hw : ((u.settleNode id).modNode id fun _ => (m.reserve 0 none (some ⟨.packet k.id i, vs⟩)).2).writeRecord k.die n
      (m.reserve 0 none (some ⟨.packet k.id i, vs⟩)).1 (k.packetVA i) ⟨.packet k.id i, vs⟩ = (.written, t)) :
    s.packetRecord k p id base total =
      let slot := (m.reserve 0 none (some ⟨.packet k.id i, vs⟩)).1
      let t := (t.onNode id fun n => n.commit slot t.now).modPacket k.id i fun p => { p with slot := none, count := p.count + 1 }
      if p.count + 1 = total then t.effected k i else t := by
  subst hi
  unfold State.packetRecord
  simp only [hn, hp]
  refine (hf _).trans ?_
  simp only [hm, hfull, Bool.false_eq_true, if_false, hw]

/-! ### WAITV, RCBSET, COPY, MARKER -/

theorem condHolds_iff (cond x v : Nat) : condHolds cond x v = true ↔ (match cond with
    | 0 => v ≤ x
    | 1 => x = v
    | _ => x ≠ v) := by
  match cond with
  | 0 => exact decide_eq_true_iff
  | 1 => exact beq_iff_eq
  | _ + 2 => exact bne_iff_ne

theorem waitvRead_eq {h : Home} {u : State} (hi : p.idx = i) (hh : Reaches s k i (p.words.getD 3 0).toNat .read h u) :
    s.waitvRead k p = if condHolds (p.words.getD 5 0).toNat (u.homeWord h).pay.toNat (p.words.getD 4 0).toNat then u.effected k i
      else u.modPacket k.id i fun p => { p with poll := u.now + 256 } := by
  subst hi
  exact hh _
theorem waitv_first (hr : Running s q i (ofType 2) k p) (h0 : p.poll = 0) : exec (.waitv q i) s = .next (s.waitvRead k p) :=
  (next_onPacket hr _).trans (congrArg _ (if_pos h0))
theorem waitvPoll_later (hr : Running s q i (ofType 2) k p) (h0 : p.poll ≠ 0) (h1 : p.poll ≤ s.now) :
    exec (.waitvPoll q i) s = .next (s.waitvRead k p) := by
  obtain ⟨hq, hp, hst, hsel⟩ := hr
  refine congrArg Host.Outcome.next ?_
  simp only [hq, hp]
  exact if_pos ⟨hst, eq_of_beq hsel, h0, h1⟩

theorem rcbset_installs (hr : Running s q i (ofType 3) k p) {vs : List Val} {u : State} {r : Rcb}
    (hf : Finds s k i (p.words.getD 3 0).toNat 32 vs u) (hp : parseRcb k.pid (p.words.getD 4 0).toNat (vs.map Val.pay) = some r)
    (hok : u.rcbOk k r = true) : exec (.rcbset q i) s =
      .next (({ u with rcbs := (u.rcbs.filter fun x => !(x.pid == k.pid && x.addr == r.addr)) ++ [r] } : State).effected k i) := by
  refine (next_onPacket hr _).trans (congrArg _ ((hf _).trans ?_))
  simp only [pkWord, hp, hok, if_true]
theorem rcbset_refused (hr : Running s q i (ofType 3) k p) {vs : List Val} {u : State} {r : Rcb}
    (hf : Finds s k i (p.words.getD 3 0).toNat 32 vs u) (hp : parseRcb k.pid (p.words.getD 4 0).toNat (vs.map Val.pay) = some r)
    (hok : u.rcbOk k r = false) : exec (.rcbset q i) s =
      .next ((u.modPacket q i fun p => { p with st := .failed }).stopQueue q 6) := by
  refine (next_onPacket hr _).trans (congrArg _ ((hf _).trans ?_))
  simp only [pkWord, hp, hok, Bool.false_eq_true, if_false]

theorem copy_empty (hr : Running s q i (ofType 4) k p) (hc : (s.cmds.any fun c => c.packet == some (q, i)) = false)
    (h5 : (p.words.getD 5 0).toNat = 0) : exec (.copy q i) s = .next (s.effected k i) := by
  refine (next_onPacket hr _).trans (congrArg _ ?_)
  simp only [pkWord, hc, h5, rangeOf2, if_true, List.isEmpty_nil, Bool.true_or, Bool.false_eq_true, if_false]
/-- The command of a COPY packet. -/
def copyCmd (s : State) (q i : Nat) (k : Queue) (p : Packet) : Cmd where
  id := s.uid
  owner := none
  packet := some (q, i)
  core := 0xFFFF
  pid := k.pid
  aspace := k.aspace
  user := false
  pc := k.packetVA i
  lane := 0
  todo := rangeOf2 0 ⟨.glb, pkWord p.words 3⟩ ⟨.glb, pkWord p.words 4⟩ (pkWord p.words 5) none
  gather := none
  token := none
  peer := none
  failed := none
  once := []
theorem copy_issues (hr : Running s q i (ofType 4) k p) (hc : (s.cmds.any fun c => c.packet == some (q, i)) = false) (h0 : p.count = 0)
    (h5 : (p.words.getD 5 0).toNat ≠ 0) : ∃ c : Cmd, exec (.copy q i) s =
        .next (({ s with uid := s.uid + 1, cmds := s.cmds ++ [c] } : State).modPacket q i fun p => { p with count := 1 }) ∧
      c.id = s.uid ∧ c.packet = some (q, i) ∧ c.aspace = k.aspace ∧ c.pid = k.pid ∧ c.owner = none ∧ c.user = false ∧
      c.todo.map (fun r => (r.src, r.dst, r.len)) =
        [(.at ⟨.glb, (p.words.getD 3 0).toNat⟩, ⟨.glb, (p.words.getD 4 0).toNat⟩, (p.words.getD 5 0).toNat)] := by
  have hrs : (copyCmd s q i k p).todo = [⟨.at ⟨.glb, pkWord p.words 3⟩, ⟨.glb, pkWord p.words 4⟩, pkWord p.words 5, none, _⟩] := if_neg h5
  refine ⟨copyCmd s q i k p, (next_onPacket hr _).trans (congrArg _ ?_), rfl, rfl, rfl, rfl, rfl, rfl, by rw [hrs]; rfl⟩
  refine (if_neg (by simp only [hc, Bool.false_eq_true, not_false_eq_true])).trans (if_neg ?_)
  have he : (copyCmd s q i k p).todo.isEmpty = false := by rw [hrs]; rfl
  exact fun h => by
    simp only [copyCmd] at he
    simp [he, h0] at h

/-! ### LAUNCH and GRAPH -/

/-- The launch that a LAUNCH packet admits. -/
def admitted (u : State) (q i : Nat) (k : Queue) (c : Spec) (e : Eff) (gx gy gz n : Nat) : Launch where
  id := u.uid
  queue := q
  pkt := i
  pid := k.pid
  aspace := k.aspace
  spec := c
  eff := e
  gx := gx
  gy := gy
  gz := gz
  lanes := n
  allowed := 0
  placed := 0
  ended := 0
  pointer := u.firstPointer k.pid
  halted := false
  win := u.dev.window
  ests := []
  refused := none
theorem launch_admits (hr : Running s q i (ofType 5) k p) (hl : (s.launches.any fun l => l.queue == q && l.pkt == i) = false) {vs : List Val}
    {u : State} {c : Spec} {gx gy gz n : Nat} {e : Eff} (hf : Finds s k i (p.words.getD 3 0).toNat 16 vs u)
    (hp : parseLaunch (vs.map Val.pay) = some (c, gx, gy, gz, n)) (he : u.effFor k c.rcb = some e) :
    ∃ l : Launch, exec (.launch q i) s = .next (State.withJob { u with uid := u.uid + 1, launches := u.launches ++ [l] } k.pid e.job) ∧
      l.id = u.uid ∧ l.queue = q ∧ l.pkt = i ∧ l.spec = c ∧ l.eff = e ∧ l.gx = gx ∧ l.gy = gy ∧ l.gz = gz ∧ l.lanes = n ∧
      l.placed = 0 ∧ l.ended = 0 ∧ l.allowed = 0 := by
  refine ⟨admitted u q i k c e gx gy gz n, (next_onPacket hr _).trans (congrArg _ ?_), rfl, rfl, rfl, rfl, rfl, rfl, rfl, rfl, rfl, rfl, rfl, rfl⟩
  refine (if_neg (by simp only [hl, Bool.false_eq_true, not_false_eq_true])).trans ((hf _).trans ?_)
  simp only [hp, he]
  rfl

/-- How a GRAPH packet ends: its status word is written. -/
def graphEnd (k : Queue) (i va : Nat) (h : Home) (st : Int) (s : State) : State :=
  match s.landWord .device h true (.ofInt st) 0xFF with
  | .inl c => s.packetFail k i c va true
  | .inr s => s.effected k i
theorem graphEnd_eq {va : Nat} {h : Home} {st : Int} {x y : State} (hy : x.landWord .device h true (.ofInt st) 0xFF = .inr y) :
    graphEnd k i va h st x = y.effected k i := by
  unfold graphEnd
  simp only [hy]
/-- What a bind packet does once it has read its descriptor's words and reached its status word. -/
def graphBound (dies : List Nat) (k : Queue) (i : Nat) (p : Packet) (ws : List Word) (h : Home) (v : State) : State :=
  let id := pkWord p.words 4 % 1024
  let end_ := graphEnd k i (pkWord p.words 5) h
  if !dies.contains (id / 256) then end_ (-3) v
  else if (v.node? id).isSome then end_ (-1) v
  else
    match v.effFor k (Machine.fieldOf ws 40 8), v.chain k.pid k.rcb with
    | some e, some c =>
      let e := v.inJob k.pid (jobOf c) e
      match parseNode id k e ws with
      | none => end_ (-2) v
      | some n =>
        if !v.nodeCapOk k.pid (id / 256) e then end_ (-3) v
        else end_ 0 ((State.withJob { v with nodes := v.nodes ++ [{ n with pointer := v.firstPointer k.pid, win := v.dev.window }] }
          k.pid e.job).settleNode id)
    | _, _ => end_ (-2) v
theorem graphBind_reads (hr : Running s q i (fun ws => ofType 6 ws && fld (ws.getD 4 0) 32 1 == 0) k p) {vs : List Val} {u v : State} {h : Home}
    (hf : Finds s k i (p.words.getD 3 0).toNat 16 vs u) (hh : Reaches u k i (p.words.getD 5 0).toNat .write h v) :
    exec (.graphBind q i) s = .next (graphBound (((s.part? k.pid).map Partition.dies).getD []) k i p (vs.map Val.pay) h v) :=
  (next_onPacket hr _).trans (congrArg _ ((hf _).trans (hh _)))

section
variable {dies : List Nat} {ws : List Word} {h : Home} {v : State}

theorem graphBound_foreign (hd : dies.contains ((p.words.getD 4 0).toNat % 1024 / 256) = false) :
    graphBound dies k i p ws h v = graphEnd k i (pkWord p.words 5) h (-3) v := if_pos (by simp only [pkWord, hd, Bool.not_false])
variable (hd : dies.contains ((p.words.getD 4 0).toNat % 1024 / 256) = true)
include hd
theorem graphBound_taken (hn : v.node? ((p.words.getD 4 0).toNat % 1024) ≠ none) :
    graphBound dies k i p ws h v = graphEnd k i (pkWord p.words 5) h (-1) v :=
  (if_neg (by simp only [pkWord, hd, Bool.not_true, Bool.false_eq_true, not_false_eq_true])).trans (if_pos (Option.isSome_iff_ne_none.2 hn))
variable (hn : v.node? ((p.words.getD 4 0).toNat % 1024) = none) {e : Eff} {c : List Rcb} (he : v.effFor k (Machine.fieldOf ws 40 8) = some e)
  (hc : v.chain k.pid k.rcb = some c)
include hn he hc
theorem graphBound_parses {n : Node} (hp : parseNode ((p.words.getD 4 0).toNat % 1024) k (v.inJob k.pid (jobOf c) e) ws = some n) :
    graphBound dies k i p ws h v = if !v.nodeCapOk k.pid ((p.words.getD 4 0).toNat % 1024 / 256) (v.inJob k.pid (jobOf c) e) then
        graphEnd k i (pkWord p.words 5) h (-3) v
      else graphEnd k i (pkWord p.words 5) h 0 ((State.withJob { v with nodes := v.nodes ++
          [{ n with pointer := v.firstPointer k.pid, win := v.dev.window }] } k.pid (jobOf c)).settleNode
            ((p.words.getD 4 0).toNat % 1024)) := by
  refine (if_neg (by simp only [pkWord, hd, Bool.not_true, Bool.false_eq_true, not_false_eq_true])).trans
    ((if_neg (by simp only [pkWord, hn, Option.isSome_none, Bool.false_eq_true, not_false_eq_true])).trans ?_)
  simp only [he, hc, pkWord, hp]
  rfl
theorem graphBound_malformed (hp : parseNode ((p.words.getD 4 0).toNat % 1024) k (v.inJob k.pid (jobOf c) e) ws = none) :
    graphBound dies k i p ws h v = graphEnd k i (pkWord p.words 5) h (-2) v := by
  refine (if_neg (by simp only [pkWord, hd, Bool.not_true, Bool.false_eq_true, not_false_eq_true])).trans ((if_neg (by simp only [pkWord, hn, Option.isSome_none, Bool.false_eq_true, not_false_eq_true])).trans ?_)
  simp only [he, hc, pkWord, hp]
end
/-- What a GRAPH packet takes from the state when its node is unbound. -/
def unbound (u : State) (id : Nat) : State := { u with
  nodes := u.nodes.filter fun n => n.id != id
  matchTab := updWhere u.matchTab (fun e => e.node == id) fun e => { e with slot := none }
  cards := u.cards.map fun c => if c.node == id && c.pending then { c with dropped := true } else c }
section
variable (hr : Running s q i (fun ws => ofType 6 ws && fld (ws.getD 4 0) 32 1 == 1) k p)
include hr
theorem graphUnbind_none (hn : s.queueNode k ((p.words.getD 4 0).toNat % 1024) = none) {h : Home} {u t : State}
    (hh : Reaches s k i (p.words.getD 5 0).toNat .write h u)
    (ht : u.landWord .device h true (.ofInt (if (((s.part? k.pid).map Partition.dies).getD []).contains ((p.words.getD 4 0).toNat % 1024 / 256)
      then -1 else -3)) 0xFF = .inr t) : exec (.graphUnbind q i) s = .next (t.effected k i) := by
  refine (next_onPacket hr _).trans (congrArg _ ?_)
  simp only [pkWord, hn]
  exact (hh _).trans (graphEnd_eq ht)
variable {n : Node} (hn : s.queueNode k ((p.words.getD 4 0).toNat % 1024) = some n)
include hn
theorem graphUnbind_waits {m : State} (hm : m = s.modNode ((p.words.getD 4 0).toNat % 1024) fun n => { n with unbind := some (q, i) })
    (hb : ∃ b ∈ m.blocks, ∃ cnt rb first card, b.origin = .node ((p.words.getD 4 0).toNat % 1024) cnt rb first card) :
    exec (.graphUnbind q i) s = .next m := by
  subst hm
  obtain ⟨b, hb, cnt, rb, first, card, ho⟩ := hb
  refine (next_onPacket hr _).trans (congrArg _ ?_)
  simp only [pkWord, hn]
  refine if_pos (List.any_eq_true.2 ⟨b, hb, ?_⟩)
  simp only [ho, beq_self_eq_true]
theorem graphUnbind_frees {m : State} (hm : m = s.modNode ((p.words.getD 4 0).toNat % 1024) fun n => { n with unbind := some (q, i) })
    (hb : ∀ b ∈ m.blocks, ∀ cnt rb first card, b.origin ≠ .node ((p.words.getD 4 0).toNat % 1024) cnt rb first card) {h : Home} {u t : State}
    (hh : Reaches m k i (p.words.getD 5 0).toNat .write h u)
    (ht : (unbound u ((p.words.getD 4 0).toNat % 1024)).landWord .device h true (.ofInt 0) 0xFF = .inr t) :
    exec (.graphUnbind q i) s = .next (t.effected k i) := by
  subst hm
  refine (next_onPacket hr _).trans (congrArg _ ?_)
  simp only [pkWord, hn]
  refine (if_neg ?_).trans ((hh _).trans ?_)
  rotate_left
  · split
    next c hc => cases hc.symm.trans ht
    next x hx =>
      cases hx.symm.trans ht
      rfl
  rw [List.any_eq_true]
  rintro ⟨b, hbm, ho⟩
  cases horig : b.origin with
  | grid => simp [horig] at ho
  | node n cnt rb first card =>
    simp only [horig, beq_iff_eq] at ho
    exact hb b hbm cnt rb first card (horig.trans (by rw [ho]))
end

/-! ### MARKER and completion -/

/-- The trace record of a MARKER packet. -/
def markerRec (q : Nat) (k : Queue) (p : Packet) : TraceRec where
  kind := 1
  cls := 255
  die := k.die
  slot := 0xFF
  core := 0xFFFF
  grp := 0
  flags := 0
  pc := 0
  value := p.words.getD 3 0
  mask := 0
  block := 0
  queue := q
theorem marker_eq (hr : Running s q i (ofType 8) k p) : exec (.marker q i) s =
    .next (((if s.tracing k.pid q then s.trace k.pid (markerRec q k p) else s).pulseSrc (some k.pid) 4 (coreTrace k.die 0xFFFF k.id)).effected
      k i) := next_onPacket hr _

/-- How a packet ends: its launches are forgotten, CIDX advances over completed packets, and it interrupts if it asks for it. -/
def packetEnd (q i : Nat) (k : Queue) (p : Packet) (t : State) : State :=
  let t := ({ t with launches := t.launches.filter fun l => !(l.queue == q && l.pkt == i) } : State).modPacket q i fun p => { p with st := .done }
  let t := (t.modQueue q fun k => Queue.advance k.packets.length k).showQueue q
  if pkIrq p.words then t.raiseVec (t.queueFn k) k.vec else t
section
variable (hst : p.st = .effected)
include hst
theorem packetOver_effected : s.packetOver q p = true := by rw [State.packetOver, hst]; rfl
variable (hq : s.queue? q = some k) (hp : k.packet? i = some p)
include hq hp
theorem packetComplete_plain (h1 : (p.words.getD 1 0).toNat = 0) : exec (.packetComplete q i) s = .next (packetEnd q i k p s) := by
  refine congrArg Host.Outcome.next ?_
  simp only [hq, hp, packetOver_effected hst]
  exact if_pos h1
theorem packetComplete_signals (h1 : (p.words.getD 1 0).toNat ≠ 0) {h : Home} {u t : State}
    (hh : Reaches s k i (p.words.getD 1 0).toNat .write h u) (ha : u.devAdd h 1 = .inr t) :
    exec (.packetComplete q i) s = .next (packetEnd q i k p t) := by
  refine congrArg Host.Outcome.next ?_
  simp only [hq, hp, packetOver_effected hst]
  refine (if_neg h1).trans ((hh _).trans ?_)
  simp only [ha]
  rfl
end
end

/-! ### O47 -/

theorem graphBind_ends {s : State} {q i : Nat} {k : Queue} {p : Packet}
    (hr : Running s q i (fun ws => ofType 6 ws && fld (ws.getD 4 0) 32 1 == 0) k p) {vs : List Val} {u v : State} {h : Home}
    (hf : Finds s k i (p.words.getD 3 0).toNat 16 vs u) (hh : Reaches u k i (p.words.getD 5 0).toNat .write h v) {st : Int} {x : State}
    (hb : graphBound (((s.part? k.pid).map Partition.dies).getD []) k i p (vs.map Val.pay) h v = graphEnd k i (pkWord p.words 5) h st x)
    {y : State} (hy : x.landWord .device h true (.ofInt st) 0xFF = .inr y) : exec (.graphBind q i) s = .next (y.effected k i) :=
  (graphBind_reads hr hf hh).trans (congrArg _ (hb.trans (graphEnd_eq hy)))
theorem dies_contains {s : State} {pid d : Nat} :
    (∃ a, s.part? pid = some a ∧ a.dies.contains d = true) ↔ (((s.part? pid).map Partition.dies).getD []).contains d = true := by
  cases s.part? pid <;> simp

/-- Settles O47, an effect at a time. -/
theorem packetEffects : Obligations.PacketEffects := by
  unfold Obligations.PacketEffects
  intro s q i k p w eff
  refine ⟨fun hr h u => signalStore_effect hr, fun hr h u t => signalAdd_effect hr, fun hr h u c r t => signalPfill_effect hr,
    fun hr => signalTlbi_effect hr _ rfl, ?_, ?_, fun hr vs u r hf hp => ⟨rcbset_installs hr hf hp, rcbset_refused hr hf hp⟩,
    fun hr hc h0 => ⟨copy_empty hr hc, copy_issues hr hc h0⟩, fun hr hl vs u c gx gy gz n e => launch_admits hr hl, ?_,
    fun hr hn h u t => graphUnbind_none hr hn, ?_,
    fun hr => ⟨fun ht => ?_, fun ht => ⟨markerRec q k p, ?_, rfl, rfl, rfl, rfl⟩⟩,
    fun hq hp hst => ⟨packetComplete_plain hst hq hp, fun h1 h u t => packetComplete_signals hst hq hp h1⟩⟩
  · intro op n m vs u t id base total next hr hi hn hp hf hm hfull e hw
    cases op with
    | true => exact (next_onPacket hr _).trans (congrArg _ (packetRecord_commits hi hn hp hf hm hfull hw))
    | false => exact (next_onPacket hr _).trans (congrArg _ (packetRecord_commits hi hn hp hf hm hfull hw))
  · intro hr hi h u hh x holds wait
    have hw := waitvRead_eq hi hh
    have hc : condHolds (p.words.getD 5 0).toNat x (p.words.getD 4 0).toNat = true ↔ holds := condHolds_iff ..
    refine ⟨fun h0 => ⟨fun hy => ?_, fun hy => ?_⟩, fun h0 h1 => ⟨fun hy => ?_, fun hy => ?_⟩⟩
    · exact (waitv_first hr h0).trans (congrArg _ (hw.trans (if_pos (hc.2 hy))))
    · exact (waitv_first hr h0).trans (congrArg _ (hw.trans (if_neg (mt hc.1 hy))))
    · exact (waitvPoll_later hr h0 h1).trans (congrArg _ (hw.trans (if_pos (hc.2 hy))))
    · exact (waitvPoll_later hr h0 h1).trans (congrArg _ (hw.trans (if_neg (mt hc.1 hy))))
  · intro hr vs u h v hf hh id mine ends hd
    have hmine : mine ↔ (((s.part? k.pid).map Partition.dies).getD []).contains (id / 256) = true := by
      rw [hd]
      exact dies_contains
    refine ⟨fun hm y => graphBind_ends hr hf hh (graphBound_foreign (Bool.eq_false_iff.2 (mt hmine.2 hm))),
      fun hm hn y => graphBind_ends hr hf hh (graphBound_taken (hmine.1 hm) hn), fun e c n hm hn he hc => ⟨fun hp hk y => ?_, fun hp hk y => ?_,
      fun hp y => graphBind_ends hr hf hh (graphBound_malformed (hmine.1 hm) hn he hc hp)⟩⟩
    · exact graphBind_ends hr hf hh ((graphBound_parses (hmine.1 hm) hn he hc hp).trans (if_neg (by rw [hk]; decide)))
    · exact graphBind_ends hr hf hh ((graphBound_parses (hmine.1 hm) hn he hc hp).trans (if_pos (by rw [hk]; decide)))
  · intro hr n hn id m gone
    exact ⟨fun hb h u t => graphUnbind_frees hr hn rfl hb, graphUnbind_waits hr hn rfl⟩
  · rw [marker_eq hr, ht]
    rfl
  · rw [marker_eq hr, ht]
    rfl

end Sys2Proof.Machine.Claim
end

section
/-! Blocks are admitted, placed and ended; energy, power and heat (spec 31_scheduling R354 to R361, 35_system R401, R403). -/
namespace Sys2Proof.Machine.Claim

/-! ### Admission and placement -/

section
variable {s : State} {id : Nat} {l : Launch} (hl : s.launches.find? (fun k => k.id == id) = some l) (hh : l.halted = false)
include hl hh
theorem blockAdmission_eq (ha : l.allowed < l.gx * l.gy * l.gz) (hr : l.refused ≠ some s.dev.window) :
    exec (.blockAdmission id) s = .next (if !s.admits l.pid l.eff (s.estimate l.pid l.eff l.win) then
        s.modLaunch id fun l => { l with refused := some s.dev.window }
      else (s.modLaunch id fun k => { k with allowed := k.allowed + 1, ests := k.ests ++ [s.estimate l.pid l.eff l.win] }).account l.pid l.eff.job
        l.eff.own 0 (s.estimate l.pid l.eff l.win) 0) := by
  refine congrArg Host.Outcome.next ?_
  simp only [hl]
  exact if_neg (by simp [hh, ha, hr])
theorem blockPlacement_places {ws : List (Nat × Nat)} {pl : Place} {t : State} (ha : l.placed < l.allowed) (hp : s.placing l.pid = true)
    (hc : l.placed = 0 → s.runCapOk l.pid l.eff = true)
    (hf : s.placeFor l.pid l.spec l.eff ((l.lanes + 31) / 32) l.pointer ws = some pl)
    (hs : State.startBlock { s with uid := s.uid + 1 }
      (newBlock s.uid (.grid id l.placed (l.placed % l.gx) (l.placed / l.gx % l.gy) (l.placed / (l.gx * l.gy))) l.pid l.aspace l.queue
        l.spec l.eff l.gx l.gy l.gz l.lanes (l.ests.headD 0)) pl [] = some t) :
    exec (.blockPlacement id ws) s = .next (t.modLaunch id fun k =>
      { k with placed := l.placed + 1, pointer := pl.decides + 1, ests := k.ests.drop 1 }) := by
  refine congrArg Host.Outcome.next ?_
  simp only [hl]
  refine (if_neg ?_).trans ?_
  · have hcap : (l.placed == 0 && !s.runCapOk l.pid l.eff) = false := by
      by_cases h0 : l.placed = 0
      · rw [hc h0, Bool.not_true, Bool.and_false]
      · rw [beq_eq_false_iff_ne.2 h0, Bool.false_and]
    simp [hh, hp, hcap, ha]
  · simp only [hf, hs]
end

/-! ### The end of groups and blocks -/

theorem nowIdle_rest (s : State) (l : List Nat) : ∃ d, s.nowIdle l = { s with dev := d } := by
  unfold State.nowIdle
  induction l generalizing s with
  | nil => exact ⟨_, rfl⟩
  | cons c r ih =>
    obtain ⟨d, h⟩ := ih (if (s.onCore c).isEmpty then { s with dev := { s.dev with idleSince := sput 0 s.dev.idleSince c s.now } } else s)
    refine ⟨d, h.trans ?_⟩
    split <;> rfl
theorem nowIdle_blocks (s : State) (l : List Nat) : (s.nowIdle l).blocks = s.blocks := by
  obtain ⟨d, h⟩ := nowIdle_rest s l
  rw [h]
theorem mem_allGroups {s : State} {g : Group} (h : g ∈ s.allGroups) : g = s.grp ∨ g ∈ s.groups := by
  unfold State.allGroups at h
  split at h
  · exact .inr h
  · exact List.mem_cons.1 h
theorem grp?_dropGroups (s : State) (blk grp : Nat) : (s.dropGroups fun k => k.is blk grp).grp? blk grp = none := by
  refine List.find?_eq_none.2 fun g hg => ?_
  rcases mem_allGroups hg with rfl | hg
  · unfold State.dropGroups
    dsimp only
    split
    · simp [Group.is, Group.empty]
    · assumption
  · simpa using (List.mem_filter.1 hg).2
theorem groupResourceRelease_releases {s : State} {blk grp : Nat} {g : Group} {b : Block} (hg : s.grp? blk grp = some g)
    (hb : s.blk? blk = some b) (he : g.st = .ended) (hk : b.killRec = none) (hu : s.unacked blk grp = 0) :
    exec (.groupResourceRelease blk grp) s = .next (((s.releaseSlots b).dropGroups fun k => k.is blk grp).nowIdle [g.core]) := by
  refine congrArg Host.Outcome.next ?_
  simp only [hg, hb]
  exact if_neg (by simp [he, hk, hu])

theorem blk?_freeBlock (s : State) (b : Block) : (s.freeBlock b).blk? b.id = none := by
  unfold State.freeBlock
  dsimp only
  rw [State.blk?, nowIdle_blocks]
  split
  all_goals exact List.find?_eq_none.2 fun k hk => by simpa using (List.mem_filter.1 hk).2

section
variable {s : State} {blk : Nat} {b : Block} (hb : s.blk? blk = some b) (hc : s.cmdsOf blk = false)
  (ht : ∀ t, b.stream = some t → t.stopped = true) (he : ∀ c ∈ b.cores, s.busyFor b c = false)
include hb hc ht he
theorem blockEnd_eq : exec (.blockEnd blk) s = .next (b.killRec.elim
    (if (s.allGroups.any fun g => g.blk == blk && g.st != .none) || s.stores.any (fun p => p.blk == blk) then s else s.freeBlock b)
    fun r => ((s.drainBlock blk).record b.pid r).freeBlock b) := by
  refine congrArg Host.Outcome.next ?_
  have hbusy : (b.cores.any fun c => s.busyFor b c) = false := List.any_eq_false.2 fun c hm => by rw [he c hm]; decide
  simp only [hb]
  refine (if_neg ?_).trans ?_
  · rw [hc, hbusy, Bool.false_or, Bool.or_false]
    split
    · next t h => simp [ht t h]
    · decide
  · cases b.killRec <;> rfl
omit hc ht he in
theorem blk?_id : b.id = blk := eq_of_beq (List.find?_some (p := fun b : Block => b.id == blk) hb)
end

/-! ### Energy and gating -/

theorem energyWindowStart_starts {s : State} (h : s.dev.window < s.now / 1700000) : exec .energyWindowStart s =
    .next { s with dev := { s.dev with window := s.now / windowClocks, fwLogged := [] }, jobs := s.jobs.map (Job.renew !s.dev.hotDies.isEmpty) } :=
  congrArg Host.Outcome.next (if_neg (Nat.not_le.2 h))
theorem corePowerGate_gates {s : State} {core : Nat} (h1 : core < 288) (h2 : s.onCore core = []) (h3 : sget 0 s.dev.idleSince core + 34000 ≤ s.now)
    (h4 : core ∉ s.dev.gated) : exec (.corePowerGate core) s = .next { s with dev := { s.dev with gated := s.dev.gated ++ [core] } } :=
  congrArg Host.Outcome.next (if_pos (by simp [h1, h2, h3, h4]))
theorem tileEnginePowerGate_gates {s : State} {core : Nat} (h1 : (s.tile core).active = false) (h2 : (s.tile core).gated = false)
    (h3 : (s.tile core).lastUse + 8500 ≤ s.now) :
    exec (.tileEnginePowerGate core) s = .next (s.setTile core { s.tile core with gated := true }) :=
  congrArg Host.Outcome.next (if_neg (by simp [h1, h2, h3]))
theorem coreWake_wakes {s : State} {core b : Nat} (hb : s.oldestOn core = some b) (hg : core ∈ s.dev.gated)
    (hr : (s.dev.wakes.filter fun w => w.1 / 72 == core / 72 && s.now < w.2 + 1700).length < 4)
    (ho : ∀ c ∈ s.dev.gated, c / 72 = core / 72 → ∀ k, s.oldestOn c = some k → b ≤ k) :
    exec (.coreWake core) s = .next { s with dev := { s.dev with
      gated := s.dev.gated.filter fun c => c != core
      wakes := (s.dev.wakes.filter fun w => s.now < w.2 + 1700) ++ [(core, s.now)] } } := by
  refine congrArg Host.Outcome.next ?_
  simp only [hb]
  refine if_neg fun h => ?_
  simp only [Bool.or_eq_true, Bool.not_eq_true', List.contains_eq_mem, hg, decide_true, Bool.true_eq_false, false_or, decide_eq_true_eq,
    hr.not_ge, List.any_eq_true, Bool.and_eq_true, beq_iff_eq] at h
  obtain ⟨c, hc, hd, hk⟩ := h
  split at hk
  · next k hk' => exact absurd (ho c hc hd k hk') (Nat.not_le.2 (of_decide_eq_true hk))
  · cases hk

/-! ### Heat -/

section
variable {α : Type} (w : α → Nat)
theorem leastBy_none {l : List α} (h : leastBy w l = none) : l = [] := by
  cases l with
  | nil => rfl
  | cons x r =>
    unfold leastBy at h
    split at h
    · split at h <;> cases h
    · cases h
theorem leastBy_some {l : List α} {x : α} (h : leastBy w l = some x) : x ∈ l ∧ ∀ y ∈ l, w x ≤ w y := by
  induction l generalizing x with
  | nil => cases h
  | cons y r ih =>
    unfold leastBy at h
    split at h
    next z hz =>
      obtain ⟨hm, hle⟩ := ih hz
      split at h <;> cases h
      next hlt => exact ⟨.tail _ hm, List.forall_mem_cons.2 ⟨hlt.le, hle⟩⟩
      next hlt => exact ⟨.head _, List.forall_mem_cons.2 ⟨le_rfl, fun u hu => (Nat.not_lt.1 hlt).trans (hle u hu)⟩⟩
    next hz =>
      cases h
      cases leastBy_none w hz
      exact ⟨.head _, by simp⟩
end

/-- A job is that of a block. -/
def IsJobOf (b : Block) (j : Job) : Prop := j.pid = b.pid ∧ j.rcb = b.eff.job
/-- A running block whose job's issue clocks are not withheld. -/
def Works (s : State) (b : Block) : Prop := b ∈ s.blocks ∧ b.st = .running ∧ ∀ j ∈ s.jobs, IsJobOf b j → j.withheld = false
/-- Such a block of the lowest priority. -/
def Lowest (s : State) (b : Block) : Prop := Works s b ∧ ∀ k, Works s k → b.eff.prio ≤ k.eff.prio

theorem works_iff {s : State} {b : Block} : b ∈ s.blocks.filter (fun b => b.st == .running && !s.jobWithheld b) ↔ Works s b := by
  simp only [List.mem_filter, Bool.and_eq_true, beq_iff_eq, Bool.not_eq_true', State.jobWithheld, List.any_eq_false, Works, IsJobOf, and_imp]
  refine and_congr_right fun _ => and_congr_right fun _ => forall_congr' fun j => forall_congr' fun _ => ?_
  constructor
  · intro h h1 h2
    exact Bool.eq_false_iff.2 fun h3 => h ⟨⟨h1, h2⟩, h3⟩
  · rintro h ⟨⟨h1, h2⟩, h3⟩
    exact absurd (h h1 h2) (by rw [h3]; decide)
theorem withhold_frame (s : State) : ∃ js, s.withhold = { s with jobs := js } := by
  unfold State.withhold
  split
  · exact ⟨_, rfl⟩
  · exact ⟨_, rfl⟩
/-- The jobs of the working blocks of lowest priority are withheld, and no other is withheld anew. -/
theorem withhold_jobs (s : State) : (∀ b, Lowest s b → ∀ j ∈ s.withhold.jobs, IsJobOf b j → j.withheld = true) ∧
    (∀ j ∈ s.withhold.jobs, j.withheld = true → j ∈ s.jobs ∨
      ∃ b k, Lowest s b ∧ k ∈ s.blocks ∧ k.st = .running ∧ k.eff.prio = b.eff.prio ∧ IsJobOf k j) := by
  unfold State.withhold
  split
  next hn =>
    refine ⟨fun b hb => ?_, fun j hj _ => .inl hj⟩
    have hm := works_iff.2 hb.1
    rw [leastBy_none _ hn] at hm
    cases hm
  next c hc =>
    obtain ⟨hm, hle⟩ := leastBy_some _ hc
    have hlow : Lowest s c := ⟨works_iff.1 hm, fun k hk => hle k (works_iff.2 hk)⟩
    dsimp only
    refine ⟨fun b hb j hj hjob => ?_, fun j hj hw => ?_⟩
    · obtain ⟨j, -, rfl⟩ := List.mem_map.1 hj
      split
      · rfl
      · next hno =>
        rw [if_neg hno] at hjob
        obtain ⟨h1, h2⟩ := hjob
        obtain ⟨⟨hin, hst, hfree⟩, hmin⟩ := hb
        have hprio : b.eff.prio = c.eff.prio := Nat.le_antisymm (hmin c hlow.1) (hlow.2 b ⟨hin, hst, hfree⟩)
        exact absurd (List.any_eq_true.2 ⟨b, hin, by simp [hst, h1, h2, hprio]⟩) hno
    · obtain ⟨j, hm, rfl⟩ := List.mem_map.1 hj
      split
      · next hany =>
        obtain ⟨k, hk, h⟩ := List.any_eq_true.1 hany
        simp only [Bool.and_eq_true, beq_iff_eq] at h
        obtain ⟨⟨⟨h1, h2⟩, h3⟩, h4⟩ := h
        exact .inr ⟨c, k, hlow, hk, h1, h4, h2.symm, h3.symm⟩
      · exact .inl hm

/-- A state with other dies at their throttle points. -/
def hotState (s : State) (hot : List Nat) : State := { s with dev := { s.dev with hotDies := hot } }
theorem thermalThrottle_on (s : State) (die : Nat) : exec (.thermalThrottle die true) s =
    .next (hotState s ((s.dev.hotDies.filter fun d => d != die) ++ [die])).withhold := congrArg Host.Outcome.next (if_pos rfl)
theorem thermalThrottle_off {s : State} {die : Nat} (hd : ∀ d ∈ s.dev.hotDies, d = die) : exec (.thermalThrottle die false) s =
    .next { hotState s [] with jobs := s.jobs.map fun j => { j with withheld := false } } := by
  have hcool : (s.dev.hotDies.filter fun d => d != die) = [] := List.filter_eq_nil_iff.2 fun d hm => by simp [hd d hm]
  refine congrArg Host.Outcome.next ((if_neg (by decide)).trans ?_)
  rw [hcool]
  rfl

theorem candOf_withheld {s : State} (b : Bool) {blk : Block} {g : Group} (hb : s.blk? g.blk = some blk)
    (hj : ∃ j ∈ s.jobs, j.pid = blk.pid ∧ j.rcb = blk.eff.job ∧ j.withheld = true) : s.candOf g b = [] := by
  have hw : s.withheld g = true := by
    obtain ⟨j, hj, h1, h2, h3⟩ := hj
    unfold State.withheld
    simp only [hb]
    exact List.any_eq_true.2 ⟨j, hj, by simp [h1, h2, h3]⟩
  unfold State.candOf
  split
  · exact if_neg (by simp [State.isCand, hw])
  · rfl
theorem streamCands_works {s : State} {id : Nat} (h : id ∈ s.streamCands) :
    ∃ b ∈ s.blocks, b.id = id ∧ ∀ j ∈ s.jobs, j.pid = b.pid → j.rcb = b.eff.job → j.withheld = false := by
  obtain ⟨b, hb, rfl⟩ := List.mem_map.1 h
  obtain ⟨hin, h⟩ := List.mem_filter.1 hb
  simp only [Bool.and_eq_true, Bool.not_eq_true'] at h
  obtain ⟨⟨-, hw⟩, -⟩ := h
  refine ⟨b, hin, rfl, fun j hj h1 h2 => Bool.eq_false_iff.2 fun h3 => ?_⟩
  exact absurd (List.any_eq_true.2 ⟨j, hj, by simp [h1, h2, h3]⟩) (Bool.eq_false_iff.1 hw)

/-! ### Power -/

/-- A part is given a spare where fewer than the limit of its kind came before it. -/
theorem mem_spareAt {kind : Nat → Nat} {limit : Nat} {x : Nat} {l before : List Nat} (hx : x ∈ l)
    (hc : (before ++ l).countP (fun y => kind y == kind x) ≤ limit) : ∃ k, (x, k) ∈ spareAt kind limit before l := by
  induction l generalizing before with
  | nil => cases hx
  | cons y r ih =>
    unfold spareAt
    dsimp only
    rcases List.mem_cons.1 hx with rfl | hx
    · rw [List.countP_append, List.countP_cons_of_pos (by simp)] at hc
      rw [← List.countP_eq_length_filter, if_pos (by omega)]
      exact ⟨_, List.mem_append_left _ (.head _)⟩
    · obtain ⟨k, hk⟩ := ih hx (before := before ++ [y]) (by rwa [List.append_assoc])
      exact ⟨k, List.mem_append_right _ hk⟩
theorem spareAt_lt {kind : Nat → Nat} {limit : Nat} {e : Nat × Nat} {l before : List Nat} (h : e ∈ spareAt kind limit before l) :
    e.2 < limit := by
  induction l generalizing before with
  | nil => cases h
  | cons y r ih =>
    unfold spareAt at h
    dsimp only at h
    rcases List.mem_append.1 h with h | h
    · split at h
      · cases List.mem_singleton.1 h
        assumption
      · cases h
    · exact ih h

theorem powerOn_state {s : State} {regions failed : List Nat} (h1 : regions.length = 4) (h2 : regions.all regionOk = true)
    (h3 : ∀ c ∈ failed, c < 288) (h4 : failed.Nodup) : exec (.powerOn ⟨regions, failed, []⟩) s = .next { State.reset with
      turn := s.turn, plan := s.plan, freeCtr := s.freeCtr, uid := s.uid, outs := s.outs
      dev := { Device.reset with
        regions := regions, image := s.dev.image, minVersion := s.dev.minVersion, devNo := s.dev.devNo, lostDies := s.dev.lostDies
        spareMap := spareAt (· / 72) 4 [] failed ++ []
        retired := failed.filter fun c => !((spareAt (· / 72) 4 [] failed).any fun e => e.1 == c) } } :=
  congrArg Host.Outcome.next (if_neg (by simpa [h1, h2, h4, spareAt] using h3))

/-! ### O48 -/

/-- Settles O48, a clause at a time. -/
theorem blocksAndPower : Obligations.BlocksAndPower := by
  unfold Obligations.BlocksAndPower
  intro s
  refine ⟨fun id l hl hh => ⟨?_, fun ws pl t => blockPlacement_places hl hh⟩, fun blk grp g b hg hb he hk hu => ?_, fun blk b hb hc ht he => ?_,
    fun h => ⟨_, energyWindowStart_starts h, rfl, ?_, ?_⟩, fun core => corePowerGate_gates, fun core => tileEnginePowerGate_gates,
    fun core b hb hg hr ho => ⟨_, coreWake_wakes hb hg hr ho, by simp, by simp, rfl⟩, fun die => ?_, fun b blk g => candOf_withheld b,
    fun id => streamCands_works, fun die hd => ?_, fun die => ⟨_, rfl, ?_, ?_⟩, fun regions failed h1 h2 h3 h4 => ?_⟩
  · intro est ha hr
    have he := blockAdmission_eq hl hh ha hr
    exact ⟨fun h => he.trans (congrArg _ (if_neg (by rw [h]; decide))), fun h => he.trans (congrArg _ (if_pos (by rw [h]; decide)))⟩
  · refine ⟨_, groupResourceRelease_releases hg hb he hk hu, ?_⟩
    obtain ⟨d, h⟩ := nowIdle_rest ((s.releaseSlots b).dropGroups fun k => k.is blk grp) [g.core]
    rw [h]
    exact grp?_dropGroups ..
  · have hx := blockEnd_eq hb hc ht he
    have hid := blk?_id hb
    refine ⟨fun hk hgs hst => ?_, fun r hk => ?_⟩
    · rw [hk] at hx
      refine ⟨_, hx.trans (congrArg _ (if_neg ?_)), hid ▸ blk?_freeBlock s b⟩
      rw [Bool.or_eq_true, List.any_eq_true, List.any_eq_true]
      rintro (⟨g, hg, h⟩ | ⟨x, hm, h⟩)
      · exact hgs g hg (by simpa using h)
      · exact hst x hm (eq_of_beq h)
    · rw [hk] at hx
      exact ⟨_, hx, hid ▸ blk?_freeBlock _ b⟩
  · intro j hj
    obtain ⟨j, -, rfl⟩ := List.mem_map.1 hj
    rfl
  · exact List.map_map
  · obtain ⟨js, ht⟩ := withhold_frame (hotState s ((s.dev.hotDies.filter fun d => d != die) ++ [die]))
    refine ⟨_, thermalThrottle_on s die, ?_, ?_, withhold_jobs (hotState s ((s.dev.hotDies.filter fun d => d != die) ++ [die]))⟩
    · rw [ht]
      exact List.mem_append_right _ (.head _)
    · rw [ht]
      rfl
  · refine ⟨_, thermalThrottle_off hd, rfl, fun j hj => ?_⟩
    obtain ⟨j, -, rfl⟩ := List.mem_map.1 hj
    rfl
  · intro p hp
    obtain ⟨q, -, rfl⟩ := List.mem_map.1 hp
    rfl
  · exact List.mem_append_right _ (.head _)
  · refine ⟨_, powerOn_state h1 h2 h3 h4, rfl, rfl, rfl, rfl, rfl, rfl, rfl, fun c hc => ?_, fun d hd c hc hcd => ?_⟩
    · by_cases hm : ∃ k, (c, k) ∈ spareAt (· / 72) 4 [] failed
      · obtain ⟨k, hk⟩ := hm
        exact .inr ⟨k, spareAt_lt hk, List.mem_append_left _ hk⟩
      · refine .inl (List.mem_filter.2 ⟨hc, ?_⟩)
        rw [Bool.not_eq_true', List.any_eq_false]
        rintro ⟨x, k⟩ hx
        rw [beq_iff_eq]
        rintro rfl
        exact hm ⟨k, hx⟩
    · subst hcd
      obtain ⟨k, hk⟩ := mem_spareAt (before := []) hc hd
      intro hret
      have hno := (List.mem_filter.1 hret).2
      rw [Bool.not_eq_true', List.any_eq_false] at hno
      exact hno _ hk (beq_self_eq_true c)

end Sys2Proof.Machine.Claim
end

section
/-! Missing pages, their records and their resolution, and kills (spec 33_faults R368 to R372). -/
namespace Sys2Proof.Machine.Claim

/-! ### What tracing, pulses and records may change -/

/-- Memory and its copies, the device's outputs and registers, and the partitions' rings; no block, no queue and no group but its wakes. -/
def LogFrame (s t : State) : Prop := ∃ st ps, RegFrame { s with stores := st, parts := ps } t
theorem RegFrame.log {s t : State} (h : RegFrame s t) : LogFrame s t := ⟨_, _, h⟩
theorem LogFrame.refl (s : State) : LogFrame s s := (RegFrame.refl s).log
theorem LogFrame.trans {s t u : State} (h : LogFrame s t) (k : LogFrame t u) : LogFrame s u := by
  obtain ⟨st, ps, k⟩ := k
  refine ⟨st, ps, RegFrame.trans ?_ k⟩
  obtain ⟨_, _, _, _, _, _, _, _, _, _, _, _, _, _, _, _, _, _, _, _, rfl⟩ := h
  exact ⟨_, _, _, _, _, _, _, _, _, _, _, _, _, _, _, _, _, _, rfl⟩
theorem logFrame_foldl {α : Type} {f : State → α → State} (h : ∀ s x, LogFrame s (f s x)) (l : List α) (s : State) :
    LogFrame s (l.foldl f s) := by
  induction l generalizing s with
  | nil => exact .refl s
  | cons x r ih => exact (h s x).trans (ih _)
theorem logFrame_ite {c : Prop} [Decidable c] {s t u : State} (h : LogFrame s t) (k : LogFrame s u) : LogFrame s (if c then t else u) := by
  split
  · exact h
  · exact k
theorem LogFrame.blocks {s t : State} (h : LogFrame s t) : t.blocks = s.blocks := by
  obtain ⟨_, _, _, _, _, _, _, _, _, _, _, _, _, _, _, _, _, _, _, _, rfl⟩ := h
  rfl
theorem logFrame_dev (s : State) (d : Device) : LogFrame s { s with dev := d } :=
  ⟨_, _, _, _, _, _, _, _, _, _, _, _, _, _, _, _, _, _, _, _, rfl⟩
theorem logFrame_outs (s : State) (o : List Out) : LogFrame s { s with outs := o } :=
  ⟨_, _, _, _, _, _, _, _, _, _, _, _, _, _, _, _, _, _, _, _, rfl⟩
theorem logFrame_modPart (s : State) (pid : Nat) (f : Partition → Partition) : LogFrame s (s.modPart pid f) :=
  ⟨s.stores, (s.modPart pid f).parts, RegFrame.refl (s.modPart pid f)⟩
theorem logFrame_drain (s : State) (q : PendStore → Bool) : LogFrame s (s.drain q) := by
  obtain ⟨st, h⟩ := drain_frame s q
  exact ⟨st, _, h⟩
theorem logFrame_putBytes (pa : Nat) (bs : List Byte) (s : State) : LogFrame s (s.putBytes pa bs) := by
  induction bs generalizing pa s with
  | nil => exact .refl s
  | cons b r ih =>
    rw [State.putBytes]
    exact ((logFrame_drain s _).trans (regFrame_regMem ..).log).trans (ih ..)
theorem logFrame_raiseVec (s : State) (fn v : Nat) : LogFrame s (s.raiseVec fn v) := logFrame_ite (.refl s) (logFrame_outs ..)
theorem logFrame_trace (s : State) (part : Nat) (r : TraceRec) : LogFrame s (s.trace part r) := by
  unfold State.trace
  split
  · exact .refl s
  · refine logFrame_ite (.refl s) (logFrame_ite ?_ ?_)
    · refine ((RegFrame.log ?_).trans (logFrame_modPart ..)).trans (logFrame_putBytes ..)
      exact regFrame_ite (regFrame_dropFrom ..) (.refl s)
    · refine LogFrame.trans ?_ (logFrame_ite (logFrame_raiseVec ..) (.refl _))
      exact ((logFrame_putBytes ..).trans (logFrame_modPart ..)).trans (logFrame_putBytes ..)

theorem logFrame_cuePulse (s : State) (line : Nat) : LogFrame s (s.cuePulse line) := by
  refine logFrame_foldl (fun s d => ?_) _ s
  have hA : LogFrame s (if fld (s.cue d) 0 6 = line then s.cueA d else s) :=
    logFrame_ite (logFrame_ite ((logFrame_dev ..).trans (logFrame_dev ..)) (.refl s)) (.refl s)
  refine logFrame_ite (hA.trans ?_) hA
  exact logFrame_ite ((logFrame_dev ..).trans (logFrame_ite ((logFrame_dev ..).trans (logFrame_dev ..)) (.refl _))) (.refl _)
theorem logFrame_pulseN (n : Nat) (s : State) (part : Option Nat) (line : Nat) (r : TraceRec) : LogFrame s (State.pulseN n s part line r) := by
  induction n generalizing s part line r with
  | zero => exact .refl s
  | succ n ih =>
    unfold State.pulseN
    refine logFrame_ite (.refl s) ?_
    refine LogFrame.trans ?_ (logFrame_foldl (fun _ _ => logFrame_foldl (fun _ _ => ih ..) _ _) _ _)
    refine LogFrame.trans ?_ (logFrame_outs _ _)
    refine LogFrame.trans ?_ (logFrame_foldl (fun _ _ => logFrame_ite (logFrame_dev _ _) (.refl _)) _ _)
    refine LogFrame.trans ?_ (logFrame_cuePulse _ _)
    refine LogFrame.trans ?_ (logFrame_dev _ _)
    exact (logFrame_dev _ _).trans (logFrame_foldl (fun _ _ => logFrame_trace ..) _ _)
theorem logFrame_pulseSrc (s : State) (part : Option Nat) (src : Nat) (r : TraceRec) : LogFrame s (s.pulseSrc part src r) :=
  logFrame_foldl (fun _ _ => logFrame_pulseN ..) _ s
theorem logFrame_endHolds (s : State) (id flags : Nat) : LogFrame s (s.endHolds id flags) := by
  refine logFrame_foldl (fun s g => logFrame_foldl (fun s e => ?_) _ s) _ s
  split
  · exact logFrame_ite ((logFrame_trace ..).trans (logFrame_pulseSrc ..)) (.refl s)
  · exact .refl s

/-! ### Misses and their resolution -/

theorem translationMiss_replays {s : State} {blk grp va aspace : Nat} {b write fetch : Bool} {g : Group} {k : Block} {p : Machine.Path}
    (hw : s.walk aspace va = .missing) (hg : s.grp? blk grp = some g) (hk : s.blk? blk = some k) (hp : g.slot b = some p)
    (ha : k.aspace = aspace) (hr : g.runs = true) (h1 : p.redo = none) (h2 : p.wait = .none) (h3 : p.held = false) :
    exec (.translationMiss (.path blk grp b) aspace va write fetch) s = .next ((s.focus blk grp).replay b
      { what := .fetch, active := p.mask, pmask := 0, bad := [], got := [], raises := [], stop := none }
      [(va / 0x10000, va, p.mask, write)] fetch) := by
  refine congrArg Host.Outcome.next ((if_neg (not_not.2 hw)).trans ?_)
  simp only [hg, hk, hp]
  exact if_neg (by simp [ha, hr, h1, h2, h3])

section
variable {s : State} {part rec_ : Nat} {p : Partition} {r : PendRec} (hp : s.part? part = some p)
  (hr : s.recs.find? (fun k => k.uid == rec_ && k.part == part) = some r) (hi : r.idx ≠ none) (h0 : r.res = 0)
include hp hr hi h0
theorem mappingStep_missing (hw : s.walk r.record.aspace r.record.faddr.toNat = .missing) :
    exec (.mappingStep part rec_) s = .next (s.raiseVec 0 (s.fqVec p.fqcb)) := by
  refine congrArg Host.Outcome.next ?_
  simp only [hp, hr]
  exact (if_neg (by simp [h0, hi])).trans (if_pos hw)
theorem mappingStep_resolves (hw : s.walk r.record.aspace r.record.faddr.toNat ≠ .missing) :
    let same (k : PendRec) : Bool := k.part == part && k.record.aspace == r.record.aspace &&
      k.record.faddr.toNat / 0x10000 == r.record.faddr.toNat / 0x10000 && k.res == 0 &&
      (match k.idx with | some i => s.resolveOf p i == 0 | none => false)
    exec (.mappingStep part rec_) s =
      .next ((((s.recs.filter same).filterMap PendRec.idx).filterMap (s.resolvePA p)).foldl (fun s a => s.putNat a 4 1) s) := by
  refine congrArg Host.Outcome.next ?_
  simp only [hp, hr]
  exact (if_neg (by simp [h0, hi])).trans (if_neg hw)
end

theorem grp?_recs (s : State) (l : List PendRec) (blk grp : Nat) : State.grp? { s with recs := l } blk grp = s.grp? blk grp := rfl
theorem modSlot_sameId (b : Bool) (f : Machine.Path → Machine.Path) (g : Group) : Group.sameId (fun g => g.modSlot b f) g := by
  unfold Group.sameId Group.modSlot Group.setSlot
  cases b <;> exact ⟨rfl, rfl, rfl⟩
/-- Where every record of a waiting path is resolved to a mapped page, the path goes on as it was. -/
theorem settlePath_goes {s : State} {blk grp : Nat} {b : Bool} {g : Group} {p : Machine.Path} {l : List (Nat × Mask)}
    (hg : s.grp? blk grp = some g) (hp : g.slot b = some p) (hw : p.wait = .records l)
    (hl : ∀ e ∈ l, ∀ k ∈ s.recs, k.uid = e.1 → k.res = 1) :
    ∃ g' q, (s.settlePath blk grp b).grp? blk grp = some g' ∧ g'.slot b = some q ∧ q.wait = .none ∧ q.pc = p.pc ∧ q.mask = p.mask ∧
      q.redo = p.redo := by
  have hres {e : Nat × Mask} (he : e ∈ l) {k : PendRec} (hk : s.recs.find? (fun k => k.uid == e.1) = some k) : k.res = 1 :=
    hl e he k (List.mem_of_find?_eq_some hk) (eq_of_beq (List.find?_some (p := fun k : PendRec => k.uid == e.1) hk))
  unfold State.settlePath
  simp only [hg, Option.bind_some, hp, hw]
  rw [if_neg]
  · refine ⟨_, _, (State.grp?_modGrp _ blk grp _ fun g _ => modSlot_sameId ..).trans (congrArg (Option.map _) hg),
      (Group.slot_modSlot ..).trans (congrArg (Option.map _) hp), rfl, rfl, rfl, ?_⟩
    dsimp only
    cases p.redo with
    | none => rfl
    | some r =>
      refine congrArg some ?_
      rw [List.filterMap_eq_nil_iff.2, List.filterMap_eq_nil_iff.2]
      · simp
      all_goals
        intro e he
        split
        · next k hk => exact if_neg fun h => absurd (hres he hk) (by rw [h.1]; decide)
        · rfl
  · rw [List.any_eq_true]
    rintro ⟨e, he, h⟩
    split at h
    · next k hk => simp [hres he hk] at h
    · cases h

/-! ### Records -/

theorem flushRecs_written {part : Nat} {l : List PendRec} (s : State) (h : ∀ k ∈ l, k.part = part → k.idx ≠ none) :
    State.flushRecs part l s = (l, s) := by
  induction l with
  | nil => rfl
  | cons r rest ih =>
    unfold State.flushRecs
    cases s.part? part with
    | none => rfl
    | some p =>
      dsimp only
      rw [if_neg fun hc => h r (.head _) hc.1 hc.2.1, ih fun k hk => h k (.tail _ hk)]
theorem faultRecordWrite_written {s : State} {part : Nat} (h : ∀ k ∈ s.recs, k.part = part → k.idx ≠ none) :
    exec (.faultRecordWrite part) s = .next s := by
  refine congrArg Host.Outcome.next ?_
  rw [State.recordRoom, flushRecs_written s h]
theorem faultRecordWrite_writes {s : State} {part : Nat} {p : Partition} {r : PendRec} (hp : s.part? part = some p) (hs : s.recs = [r])
    (hr : r.part = part) (hi : r.idx = none) (hroom : s.ringRoom part r.record.die p.fqcb p.fqWidx = true) :
    exec (.faultRecordWrite part) s = .next { s.ringWrite p r.record with recs := [{ r with idx := some p.fqWidx }] } := by
  refine congrArg Host.Outcome.next ?_
  rw [State.recordRoom, hs, State.flushRecs, hp]
  simp only [hr, hi, hroom, and_self, if_true]
  rfl

/-! ### Kills -/

/-- A group of a block that has stopped: no path is left in it. -/
def Halted (id : Nat) (g : Group) : Prop := g.blk = id → g.st ≠ .none → g.st = .ended ∧ g.slot0 = none ∧ g.slot1 = none
/-- Every group of a block has stopped. -/
def BlockHalted (id : Nat) (s : State) : Prop := Halted id s.grp ∧ ∀ g ∈ s.groups, Halted id g
theorem BlockHalted.all {id : Nat} {s : State} (h : BlockHalted id s) : ∀ g ∈ s.allGroups, Halted id g := fun g hg => by
  rcases mem_allGroups hg with rfl | hg
  · exact h.1
  · exact h.2 g hg
theorem BlockHalted.setBlocks {id : Nat} {s : State} (h : BlockHalted id s) (l : List Block) : BlockHalted id { s with blocks := l } := h
theorem blockHalted_modGroups {id : Nat} {s : State} {q : Group → Bool} {f : Group → Group}
    (h : ∀ g, g = s.grp ∨ g ∈ s.groups → Halted id (if q g then f g else g)) : BlockHalted id (s.modGroups q f) := by
  refine ⟨h _ (.inl rfl), fun g hg => ?_⟩
  obtain ⟨x, hx, rfl⟩ := List.mem_map.1 hg
  exact h x (.inr hx)
theorem blockHalted_stop (id : Nat) (s : State) : BlockHalted id (s.modGroups (fun g => g.blk == id && g.st != .none) Group.stop) := by
  refine blockHalted_modGroups fun g _ => ?_
  split
  · exact fun _ _ => ⟨rfl, rfl, rfl⟩
  · next hno => exact fun h1 h2 => absurd (by simp [h1, h2]) hno
theorem halted_thaw {id t now : Nat} {g : Group} (h : Halted id g) : Halted id (Group.thaw t now g) := fun h1 h2 => by
  obtain ⟨h3, h4, h5⟩ := h h1 h2
  exact ⟨h3, congrArg (Option.map _) h4, congrArg (Option.map _) h5⟩
theorem blockHalted_thaw {id : Nat} {s : State} {b : Block} (h : BlockHalted id s) : BlockHalted id (s.thaw b) := by
  unfold State.thaw
  dsimp only
  split
  · exact h
  · refine BlockHalted.setBlocks (List.foldlRecOn _ _ h fun t ht k _ => ?_) _
    split
    · refine blockHalted_modGroups fun g hg => ?_
      have hh : Halted id g := hg.elim (fun h => h ▸ ht.1) (ht.2 g)
      split
      · exact halted_thaw hh
      · exact hh
    · exact ht
/-- A fold of changes that leave the blocks alone leaves them alone. -/
theorem foldl_blocks {α : Type} {f : State → α → State} (h : ∀ s x, (f s x).blocks = s.blocks) (l : List α) (s : State) :
    (l.foldl f s).blocks = s.blocks := by
  induction l generalizing s with
  | nil => rfl
  | cons x r ih => exact (ih _).trans (h s x)
/-- A thaw ends the freezes of the blocks of a launch. -/
theorem thaw_blocks (s : State) (b : Block) : (s.thaw b).blocks = s.blocks ∨
    (s.thaw b).blocks = updWhere s.blocks (sameLaunch b) fun k => { k with frozenAt := none } := by
  unfold State.thaw
  dsimp only
  split
  · exact .inl rfl
  · refine .inr (congrArg (fun l => updWhere l (sameLaunch b) fun k => { k with frozenAt := none }) ?_)
    refine foldl_blocks (fun s k => ?_) _ s
    split <;> rfl
theorem blk?_thaw {s : State} {id : Nat} {b k : Block} (h : s.blk? id = some k) :
    ∃ k', (s.thaw b).blk? id = some k' ∧ k'.killRec = k.killRec := by
  unfold State.blk? at h ⊢
  obtain ht | ht := thaw_blocks s b
  · rw [ht]
    exact ⟨k, h, rfl⟩
  · rw [ht, updWhere, List.find?_map]
    have hid : ((fun k : Block => k.id == id) ∘ fun x => if sameLaunch b x then { x with frozenAt := none } else x) = fun k => k.id == id :=
      funext fun x => by
        dsimp only [Function.comp]
        split <;> rfl
    rw [hid, h]
    refine ⟨_, rfl, ?_⟩
    dsimp only
    split <;> rfl
theorem modGroups_blocks (s : State) (q : Group → Bool) (f : Group → Group) : (s.modGroups q f).blocks = s.blocks := rfl
theorem voidReserved_blocks (s : State) (id : Nat) (l : List Nat) : (l.foldl (fun s n => s.voidReserved id n) s).blocks = s.blocks :=
  foldl_blocks (f := fun s n => s.voidReserved id n) (fun _ _ => rfl) l s
theorem freeWaiters_blocks (s : State) (q : Waiter → Bool) : (s.freeWaiters q).blocks = s.blocks := by
  refine foldl_blocks (fun s w => ?_) _ s
  split
  · unfold State.freeWaiter
    dsimp only
    split
    · exact (regFrame_regMem ..).log.blocks
    · rfl
  · rfl

/-- A block whose kill is recorded: its stream stops. -/
def killedBlk (r : FaultRec) (b : Block) : Block :=
  { b with killRec := some r, stream := b.stream.map fun t => { t with stopped := true, wait := .none } }
/-- The last steps of a stop, from a state with the same blocks. -/
theorem stop_tail {s t : State} {id : Nat} {b : Block} (r : FaultRec) (ht : t.blocks = s.blocks) (hb : s.blk? id = some b) :
    BlockHalted id (((t.modGroups (fun g => g.blk == id && g.st != .none) Group.stop).modBlk id (killedBlk r)).thaw b) ∧
      ∃ k, (((t.modGroups (fun g => g.blk == id && g.st != .none) Group.stop).modBlk id (killedBlk r)).thaw b).blk? id = some k ∧
        k.killRec = some r := by
  refine ⟨blockHalted_thaw ((blockHalted_stop id t).setBlocks _), ?_⟩
  have hb' : (t.modGroups (fun g => g.blk == id && g.st != .none) Group.stop).blk? id = some b := by
    rw [State.blk?, modGroups_blocks, ht]
    exact hb
  obtain ⟨k, hk, hrec⟩ := blk?_thaw (b := b) ((State.blk?_modBlk _ id (killedBlk r) fun _ => rfl).trans (congrArg (Option.map _) hb'))
  exact ⟨k, hk, hrec⟩
theorem stopBlock_stops {s : State} {id : Nat} {b : Block} (r : FaultRec) (hb : s.blk? id = some b) (hk : b.killRec = none)
    (hst : b.st ≠ .ended) : BlockHalted id (s.stopBlock id r) ∧ ∃ k, (s.stopBlock id r).blk? id = some k ∧ k.killRec = some r := by
  unfold State.stopBlock
  simp only [hb]
  rw [if_neg (by simp [hk, hst])]
  refine stop_tail r ((logFrame_endHolds ..).blocks.trans ?_) hb
  dsimp only
  rw [voidReserved_blocks, freeWaiters_blocks]

theorem kill_stops {s : State} {blk : Nat} {cause : BitVec 8} {b : Block} (hb : s.blk? blk = some b) (hd : b.eff.fdom = 0) :
    exec (.kill blk cause) s = .next (s.stopBlock blk (blockRec b cause)) := by
  refine congrArg Host.Outcome.next ?_
  rw [hb]
  unfold State.killBlock
  simp only [hb]
  exact if_pos hd

/-- Settles O49, a clause at a time. -/
theorem missesAndKills : Obligations.MissesAndKills := by
  unfold Obligations.MissesAndKills
  intro s
  refine ⟨fun blk grp b aspace va write fetch g k p => translationMiss_replays, fun part rec_ p r hp hr hi h0 =>
    ⟨mappingStep_missing hp hr hi h0, mappingStep_resolves hp hr hi h0⟩, fun blk grp b g p l hg hp hw hl => ⟨_, rfl, settlePath_goes hg hp hw hl⟩,
    fun part => faultRecordWrite_written, fun part p r => faultRecordWrite_writes, fun blk cause b hb hk hst hd => ?_⟩
  obtain ⟨hh, k, hk, hrec⟩ := stopBlock_stops (blockRec b cause) hb hk hst
  exact ⟨_, kill_stops hb hd, fun g hg hblk hne => hh.all g hg hblk hne, k, _, hk, hrec, rfl, rfl⟩

end Sys2Proof.Machine.Claim
end

section
/-! What an instruction that computes registers leaves alone (spec 07_encoding R78, R83). -/
namespace Sys2Proof.Machine.Claim

/-! ### Register writes of a destination -/

/-- Every write goes to a lane of one of the registers. -/
def WritesIn (ds : List RegName) (ws : List RegWrite) : Prop := ∀ w ∈ ws, w.reg ∈ ds ∧ inLane w
theorem WritesIn.append {ds : List RegName} {ws xs : List RegWrite} (h : WritesIn ds ws) (k : WritesIn ds xs) : WritesIn ds (ws ++ xs) :=
  fun w hw => (List.mem_append.1 hw).elim (h w) (k w)
theorem WritesIn.mono {ds es : List RegName} {ws : List RegWrite} (h : WritesIn ds ws) (hs : ds ⊆ es) : WritesIn es ws :=
  fun w hw => ⟨hs (h w hw).1, (h w hw).2⟩

section
variable {g h : Group} (hx : g.x = h.x) (ix : BitVec 3)
include hx
theorem effNum_congr (n : Nat) : effNum g ix true n = effNum h ix true n := by
  rw [effNum, effNum, Group.xr, Group.xr, hx]
theorem srcNum_congr (a : Src) : srcNum g ix a = srcNum h ix a := by
  cases a with
  | ix n => exact congrArg (Option.getD · 0) (effNum_congr hx ix n.val)
  | v n => rfl
  | g n => rfl
  | sp k => rfl
theorem vecNum_congr (v : Vec) : vecNum g ix v = vecNum h ix v := by
  cases v with
  | ix n => exact congrArg (Option.getD · 0) (effNum_congr hx ix n.val)
  | v n => rfl

theorem writesIn_wrReg (d : Reg) {vals : List (Nat × Val)} (hl : ∀ e ∈ vals, e.1 < 32) :
    WritesIn (dstNames h ix (.val d)) (wrReg g ix d vals) := by
  intro w hw
  cases d with
  | g n =>
    cases vals with
    | nil => cases hw
    | cons e r =>
      cases List.mem_singleton.1 hw
      exact ⟨.head _, trivial⟩
  | v n =>
    obtain ⟨e, he, rfl⟩ := List.mem_map.1 hw
    exact ⟨.head _, hl e he⟩
  | ix n =>
    obtain ⟨e, he, rfl⟩ := List.mem_map.1 hw
    exact ⟨List.mem_singleton.2 (congrArg RegName.v (srcNum_congr hx ix (.ix n))), hl e he⟩
theorem writesIn_wrRun (d : Vec) {len k : Nat} (hk : k < len) {vals : List (Nat × Val)} (hl : ∀ e ∈ vals, e.1 < 32) :
    WritesIn (dstNames h ix (.run d len)) (wrRun g ix d k vals) := by
  intro w hw
  obtain ⟨e, he, rfl⟩ := List.mem_map.1 hw
  exact ⟨List.mem_map.2 ⟨k, List.mem_range.2 hk, congrArg (fun n => RegName.v (n + k)) (vecNum_congr hx ix d).symm⟩, hl e he⟩
end
theorem writesIn_wrPred (g : Group) (ix : BitVec 3) (d : Pred) {bits : List (Nat × Bool)} (hl : ∀ e ∈ bits, e.1 < 32) :
    WritesIn (dstNames g ix (.pred d)) (wrPred d bits) := by
  intro w hw
  obtain ⟨e, he, rfl⟩ := List.mem_map.1 hw
  exact ⟨.head _, hl e he⟩
theorem perLane_lt {α : Type} (m : Mask) (f : Nat → α) : ∀ e ∈ perLane m f, e.1 < 32 := by
  intro e he
  obtain ⟨l, hl, rfl⟩ := List.mem_map.1 he
  exact (mem_lanes.1 hl).1

/-! ### Instructions that end with register writes -/

variable {i : Instr} {c : Ctl} {s : State} {z : Bool} {p : Machine.Path}

/-- An instruction issues and finishes with writes to the registers that it names. -/
def Finishes (i : Instr) (c : Ctl) (s : State) (z : Bool) (p : Machine.Path) : Prop :=
  ∃ lat ws, exec i s = .next ((issuedOf i c s z p).state.finish z c.sched lat (issuedOf i c s z p).act ws) ∧ WritesIn (written i s c.ix) ws

theorem KeepsRegs.x {ds : List RegName} {g h : Group} (k : KeepsRegs ds g h) : h.x = g.x := by
  obtain ⟨-, -, -, hr⟩ := k
  rw [hr]
theorem issued_x (i : Instr) (sc : Sched) (gd : Guard) (ix : BitVec 3) (s : State) (z : Bool) (p : Machine.Path) :
    (s.issued i sc gd ix z p).state.grp.x = (dueGrp s).x :=
  (keeps_issued (ds := []) s i sc gd ix z p).1.x.trans (keeps_settle (ds := []) (g := s.grp) s.now).1.x.symm

theorem finishes_of {lat : Machine.Lat} {w : Bool → Machine.Path → Mask → State → List RegWrite} (hi : Issues i c s z p)
    (he : exec i s = .next (issue i c s fun b p act s => s.finish b c.sched lat act (w b p act s)))
    (hw : WritesIn (written i s c.ix) (w z (issuedOf i c s z p).path (issuedOf i c s z p).act (issuedOf i c s z p).state)) :
    Finishes i c s z p := ⟨lat, _, he.trans (congrArg _ (issue_ready hi _)), hw⟩
theorem finishes_val {lat : Machine.Lat} {d : Reg} {v : Bool → Machine.Path → Mask → State → List (Nat × Val)} (hi : Issues i c s z p)
    (hd : (usesOf i).d = .val d) (he : exec i s = .next (issue i c s fun b p act s => s.finish b c.sched lat act (wrReg s.grp c.ix d (v b p act s))))
    (hl : ∀ b p act s, ∀ e ∈ v b p act s, e.1 < 32) : Finishes i c s z p := by
  refine finishes_of hi he ((writesIn_wrReg (issued_x ..) c.ix d (hl _ _ _ _)).mono ?_)
  rw [written, hd]
  exact List.subset_append_left _ _
theorem finishes_pred {lat : Machine.Lat} {d : Pred} {v : Bool → Machine.Path → Mask → State → List (Nat × Bool)} (hi : Issues i c s z p)
    (hd : (usesOf i).d = .pred d) (he : exec i s = .next (issue i c s fun b p act s => s.finish b c.sched lat act (wrPred d (v b p act s))))
    (hl : ∀ b p act s, ∀ e ∈ v b p act s, e.1 < 32) : Finishes i c s z p := by
  refine finishes_of hi he ((writesIn_wrPred (dueGrp s) c.ix d (hl _ _ _ _)).mono ?_)
  rw [written, hd]
  exact List.subset_append_left _ _
theorem finishes_typedV {lat : Machine.Lat} {d : Reg} {f : State → Bool → Nat → Val} (hi : Issues i c s z p) (hd : (usesOf i).d = .val d)
    (he : exec i s = .next (typedV i c lat d f s)) : Finishes i c s z p := finishes_val hi hd he fun _ _ _ _ => perLane_lt _ _
theorem finishes_typedP {lat : Machine.Lat} {d : Pred} {f : State → Bool → Nat → Bool} (hi : Issues i c s z p) (hd : (usesOf i).d = .pred d)
    (he : exec i s = .next (typedP i c lat d f s)) : Finishes i c s z p := finishes_pred hi hd he fun _ _ _ _ => perLane_lt _ _

/-- What such an instruction leaves alone. -/
theorem Finishes.frame (h : Finishes i c s z p) : ∃ t : State, exec i s = .next t ∧
    t = { s with grp := t.grp, units := t.units, work := t.work,
                 dev := { s.dev with lcrtot := t.dev.lcrtot, bincnt := t.dev.bincnt } } ∧
    KeepsRegs (written i s c.ix) s.grp t.grp ∧ ∀ a, rdByte t.mem a = rdByte s.mem a := by
  obtain ⟨lat, ws, he, hw⟩ := h
  have hk := (keeps_issued s i c.sched c.guard c.ix z p).trans (keeps_finish (issuedOf i c s z p).state z c.sched lat (issuedOf i c s z p).act hw)
  have hf := finish_frame (issuedOf i c s z p).state z c.sched lat (issuedOf i c s z p).act ws
  obtain ⟨g, u, w, l, cn, hs⟩ := issued_frame s i c.sched c.guard c.ix z p
  refine ⟨_, he, ?_, hk.1, fun a => ?_⟩
  · rw [hf, hs]
  · rw [hf, hs]

/-- A running reduction gives a value to the lanes it was given. -/
theorem redRun_lane {op : AtomOp} {ty : Ty} {r : Nat} {xs : List (Nat × Nat)} {e : Nat × Nat × Nat} (h : e ∈ redRun op ty r xs) :
    ∃ x ∈ xs, x.1 = e.1 := by
  induction xs generalizing r with
  | nil => cases h
  | cons y ys ih =>
    rcases List.mem_cons.1 h with rfl | h
    · exact ⟨y, .head _, rfl⟩
    · obtain ⟨x, hx, he⟩ := ih h
      exact ⟨x, .tail _ hx, he⟩
theorem tagOp_plain (i : Instr) (c : Ctl) (d : Reg) (a : Src) (f : Val → Val) (s : State) :
    (Host.Outcome.next (φ := Fault) (ρ := Refusal) (tagOp i c d a (fun _ => false) f s)) = .next (issue i c s fun z _ act s =>
      s.finish z c.sched .alu act (wrReg s.grp c.ix d (perLane act fun l => f (rdSrc s z c.ix a l)))) := by
  unfold tagOp
  simp only [Bool.false_and, Bool.false_eq_true, if_false]

/-- Settles O53, by the shapes of the instructions. -/
theorem registerFrame : Obligations.RegisterFrame := by
  unfold Obligations.RegisterFrame
  intro i c s z p hr hi
  refine Finishes.frame (z := z) (p := p) ?_
  cases i
  case iadd | isub | imul | imulh | imad | imin | imax | iabs | ineg | idiv | irem =>
    cases hr
    exact finishes_typedV hi rfl rfl
  case band | bor | bxor | bnot | bshl | bshr | bsar | brol | popc | clz | ctz | brev | bfx | bfi =>
    cases hr
    exact finishes_typedV hi rfl rfl
  case mov | sel | lea | pbool =>
    cases hr
    exact finishes_typedV hi rfl rfl
  case fadd | fsub | fmul | ffma | fdiv | fsqrt | frcp | frsq | fmin | fmax | fabs | fneg | frnd | fscale | fclass =>
    cases hr
    exact finishes_typedV hi rfl rfl
  case fexp2 | flog2 | fsin | fcos | ftanh =>
    cases hr
    exact finishes_typedV hi rfl rfl
  case icmp | plop | fcmp =>
    cases hr
    exact finishes_typedP hi rfl rfl
  case movi c d i =>
    cases hr
    exact finishes_typedV hi (by cases i <;> rfl) rfl
  case mfs =>
    cases hr
    exact finishes_val (v := fun _ p act s => perLane act fun _ => Val.int (readSys s p _)) hi rfl rfl fun _ _ _ _ => perLane_lt _ _
  case cvt | cvtpk | gred =>
    cases hr
    exact finishes_val hi rfl rfl fun _ _ _ _ => perLane_lt _ _
  case unbox | tagof =>
    cases hr
    exact finishes_val hi rfl (tagOp_plain _ _ _ _ _ _) fun _ _ _ _ => perLane_lt _ _
  case tagchk | elect =>
    cases hr
    exact finishes_pred hi rfl rfl fun _ _ _ _ => perLane_lt _ _
  case cvtxp =>
    cases hr
    refine finishes_of hi rfl fun w hw => ?_
    obtain ⟨k, hk, hw⟩ := List.mem_flatMap.1 hw
    exact (writesIn_wrRun (issued_x ..) _ _ (List.mem_range.1 hk) (perLane_lt _ _)).mono (List.subset_append_left _ _) w hw
  case mtch =>
    cases hr
    refine finishes_val hi rfl rfl fun _ _ _ _ e he => ?_
    obtain ⟨x, hx, rfl⟩ := List.mem_map.1 he
    exact perLane_lt _ _ x hx
  case gscan =>
    cases hr
    refine finishes_val hi rfl rfl fun _ _ _ _ e he => ?_
    obtain ⟨x, hx, rfl⟩ := List.mem_map.1 he
    obtain ⟨y, hy, he⟩ := redRun_lane hx
    exact he ▸ perLane_lt _ _ y hy
  case vote c f =>
    cases hr
    cases f with
    | any d a => exact finishes_pred hi rfl rfl fun _ _ _ _ => perLane_lt _ _
    | all d a => exact finishes_pred hi rfl rfl fun _ _ _ _ => perLane_lt _ _
    | ballot d a => exact finishes_val hi rfl rfl fun _ _ _ _ => perLane_lt _ _
    | uni d a => exact finishes_pred hi rfl rfl fun _ _ _ _ => perLane_lt _ _
  case shfl c m d a x pv =>
    cases hr
    refine finishes_of hi rfl (.append ?_ ?_)
    · exact (writesIn_wrReg (issued_x ..) c.ix d (perLane_lt _ _)).mono (by
        rw [written]
        cases x <;> exact List.subset_append_left _ _)
    · cases pv with
      | none => exact fun w hw => absurd hw List.not_mem_nil
      | some q =>
        refine (writesIn_wrPred (dueGrp s) c.ix q (perLane_lt _ _)).mono ?_
        rw [written]
        cases x <;> exact List.subset_append_right _ _
  all_goals cases hr

end Sys2Proof.Machine.Claim
end

section
/-! The host's grants, snoops and accesses (spec 17_model R220 to R222, 35_system R385, R392). -/
namespace Sys2Proof.Machine.Claim

/-! ### Fields of words -/

/-- A field that is set reads as what it was set to. -/
theorem fld_setFld {x : Word} {lo n v : Nat} (h : lo + n ≤ 64) : fld (setFld x lo n v) lo n = v % 2 ^ n := by
  obtain ⟨d, hd⟩ := Nat.exists_eq_add_of_le h
  have hx : x.toNat < 2 ^ lo * 2 ^ n * 2 ^ d := by
    rw [← Nat.pow_add, ← Nat.pow_add, ← hd]
    exact x.isLt
  have hn : 0 < 2 ^ n := Nat.two_pow_pos n
  have hlo : 0 < 2 ^ lo := Nat.two_pow_pos lo
  have hv : v % 2 ^ n < 2 ^ n := Nat.mod_lt _ hn
  unfold fld setFld fld
  generalize v % 2 ^ n = w at hv ⊢
  have hr := Nat.div_add_mod x.toNat (2 ^ lo)
  have hq := Nat.div_add_mod (x.toNat / 2 ^ lo) (2 ^ n)
  have hrl : x.toNat % 2 ^ lo < 2 ^ lo := Nat.mod_lt _ hlo
  generalize x.toNat % 2 ^ lo = r at hr hrl
  generalize hf : x.toNat / 2 ^ lo % 2 ^ n = f at hq ⊢
  generalize x.toNat / 2 ^ lo / 2 ^ n = q1 at hq
  have hval : x.toNat - f * 2 ^ lo + w * 2 ^ lo = 2 ^ lo * (2 ^ n * q1 + w) + r := by
    rw [← hr, ← hq]
    have : 2 ^ lo * (2 ^ n * q1 + f) + r - f * 2 ^ lo = 2 ^ lo * (2 ^ n * q1) + r := by
      rw [Nat.mul_add, Nat.mul_comm f]
      omega
    rw [this]
    ring
  have hlt : 2 ^ lo * (2 ^ n * q1 + w) + r < 2 ^ 64 := by
    have hq1 : q1 < 2 ^ d := by
      by_contra hge
      have := Nat.mul_le_mul_left (2 ^ lo * 2 ^ n) (Nat.not_lt.1 hge)
      have hle : 2 ^ lo * 2 ^ n * q1 ≤ x.toNat := by
        rw [← hr, ← hq, Nat.mul_assoc]
        exact (Nat.mul_le_mul_left _ (Nat.le_add_right ..)).trans (Nat.le_add_right ..)
      omega
    have h1 : 2 ^ n * q1 + w + 1 ≤ 2 ^ n * 2 ^ d := by
      have := Nat.mul_le_mul_left (2 ^ n) hq1
      rw [Nat.mul_succ] at this
      omega
    have h2 := Nat.mul_le_mul_left (2 ^ lo) h1
    have h3 : 2 ^ lo * (2 ^ n * 2 ^ d) = 2 ^ 64 := by rw [hd, Nat.pow_add, Nat.pow_add, Nat.mul_assoc]
    rw [Nat.mul_succ] at h2
    omega
  rw [hval, BitVec.toNat_ofNat, Nat.mod_eq_of_lt hlt, Nat.mul_add_div hlo, Nat.div_eq_of_lt hrl, Nat.add_zero, Nat.mul_add_mod,
    Nat.mod_eq_of_lt hv]

/-! ### Grants and snoops -/

section
variable {s : State} {core line : Nat}

theorem drain_none {q : PendStore → Bool} (h : ∀ x ∈ s.stores, q x = false) : s.drain q = s := by
  have hn : s.stores.filter q = [] := List.filter_eq_nil_iff.2 fun x hx => by rw [h x hx]; decide
  have ha : s.stores.filter (fun p => !q p) = s.stores := List.filter_eq_self.2 fun x hx => by rw [h x hx]; rfl
  rw [State.drain, hn, ha]
  rfl
theorem hostGrant_shared : exec (.hostGrant core line false) s = .next { s with hostReqs := s.hostReqs.filter fun e => e != (core, line) } := by
  refine congrArg Host.Outcome.next ?_
  simp only [Bool.and_false, Bool.false_and, Bool.false_eq_true, if_false]
theorem hostGrant_registers (h : isHost (16 * line) = true) : ∃ t : State, exec (.hostGrant core line true) s = .next t ∧
    ∀ x ∈ t.stores, ¬(x.core = core ∧ x.word / 16 = line) := by
  refine ⟨_, congrArg Host.Outcome.next (if_pos (by rw [h]; rfl)), fun x hx hc => ?_⟩
  have := mem_drain_stores hx
  simp [hc] at this
theorem hostLine_setLine (st : LineSt) : (s.setLine core line st).hostLine core line = st := sget_sput_self ..
theorem hostGrant_exclusive (hr : (core, line) ∈ s.hostReqs) (hl : s.hostLine core line = .s)
    (ha : ∀ e ∈ s.hostLines, e.1 % 2 ^ 49 = line → e.1 / 2 ^ 49 = core) (hs : ∀ x ∈ s.stores, ¬(x.core = core ∧ x.word / 16 = line)) :
    ∃ t : State, exec (.hostGrant core line true) s = .next t ∧ t.hostLine core line = .e ∧ (core, line) ∉ t.hostReqs := by
  refine ⟨State.setLine { s with hostReqs := s.hostReqs.filter fun e => e != (core, line) } core line .e, congrArg Host.Outcome.next ?_,
    hostLine_setLine .e, fun hm => ?_⟩
  · have halone : (s.hostLines.any fun e => e.1 % 2 ^ 49 == line && e.1 / 2 ^ 49 != core) = false :=
      List.any_eq_false.2 fun e he => by simpa using ha e he
    have hl' : State.hostLine { s with hostReqs := s.hostReqs.filter fun e => e != (core, line) } core line = .s := hl
    have hd (t : State) (ht : t.stores = s.stores) : (t.drain fun p => p.core == core && p.word / 16 == line) = t :=
      drain_none fun x hx => by simpa using hs x (ht ▸ hx)
    simp only [halone, hl', List.contains_eq_mem, hr, decide_true, Bool.not_false, Bool.and_true, beq_self_eq_true, if_true, Bool.true_and]
    split
    · exact hd _ rfl
    · rfl
  · exact absurd (List.mem_filter.1 hm).2 (by simp)

theorem snoopData_m (h : s.hostLine core line = .m) :
    s.snoopData core line = ((s.emit (.line core line (s.lineBytes line))).disownLine core line).setLine core line .s := by
  rw [State.snoopData, h]
theorem snoopData_e (h : s.hostLine core line = .e) : s.snoopData core line = (s.disownLine core line).setLine core line .s := by
  rw [State.snoopData, h]
theorem snoopData_other (h : s.hostLine core line = .s ∨ s.hostLine core line = .i) : s.snoopData core line = s := by
  obtain h | h := h <;> rw [State.snoopData, h]
theorem snoopInv_ends (s : State) (core line : Nat) : (s.snoopInv core line).hostLine core line = .i ∧
    (s.snoopInv core line).outs = s.outs ++ (if s.hostLine core line = .m then [.line core line (s.lineBytes line)] else []) := by
  unfold State.snoopInv
  by_cases hm : s.hostLine core line = .m
  · have hi : (s.emit (.line core line (s.lineBytes line))).hostLine core line ≠ .i := by
      rw [show (s.emit (.line core line (s.lineBytes line))).hostLine core line = .m from hm]
      decide
    simp only [if_pos hm, if_neg hi]
    exact ⟨hostLine_setLine .i, rfl⟩
  · simp only [if_neg hm, List.append_nil]
    split
    · next hi => exact ⟨hi, rfl⟩
    · exact ⟨hostLine_setLine .i, rfl⟩
theorem hostSnoopSnpCur_eq : exec (.hostSnoopSnpCur core line) s = .next { s with
    outs := s.outs ++ (if s.hostLine core line = .i then [] else [.line core line (s.lineBytes line)]) } := by
  refine congrArg Host.Outcome.next ?_
  split
  · rw [List.append_nil]
  · rfl
end

/-! ### Accesses -/

section
variable {s : State} {fn pa : Nat}

theorem snoopData_mem (s : State) (core line : Nat) : (s.snoopData core line).mem = s.mem := by
  unfold State.snoopData
  split <;> rfl
/-- A read by the host changes no byte of memory. -/
theorem hostReads_mem (s : State) (w : Nat) : (s.hostReads w).mem = s.mem := by
  unfold State.hostReads
  split
  · exact List.foldlRecOn (motive := fun t : State => t.mem = s.mem) _ _ rfl fun t ht c _ => (snoopData_mem ..).trans ht
  · unfold State.recall
    split <;> rfl
theorem hostMemRead_reads {n : Nat} {cached : Bool} (hn : n ≠ 0) (hr : s.hostRange fn (s.hostPA pa) n = true)
    (hh : s.heldAtPort fn (s.hostPA pa) false = false) : ∃ t : State, exec (.hostMemRead ⟨fn, pa⟩ ⟨n, cached⟩) s = .next t ∧
      .hostData pa (s.physBytes (s.hostPA pa) n) ∈ t.outs ∧ t.mem = s.mem := by
  have hm (l : List Nat) : (l.foldl State.hostReads s).mem = s.mem :=
    List.foldlRecOn (motive := fun t : State => t.mem = s.mem) _ _ rfl fun t ht c _ => (hostReads_mem ..).trans ht
  refine ⟨_, congrArg Host.Outcome.next ((if_neg (by simp [hn, hr])).trans (if_neg (by simp [hh]))), ?_, hm _⟩
  refine List.mem_append_right _ (List.mem_singleton.2 ?_)
  rw [State.physBytes, State.physBytes, hm]
theorem hostMemRead_refused {n : Nat} {cached : Bool} (hr : s.hostRange fn (s.hostPA pa) n = false) :
    exec (.hostMemRead ⟨fn, pa⟩ ⟨n, cached⟩) s = .next (s.refuse pa) := congrArg Host.Outcome.next (if_pos (.inr (by rw [hr]; rfl)))
theorem hostMemWrite_refused {bytes : List Byte} (hr : s.hostRange fn (s.hostPA pa) bytes.length = false) :
    exec (.hostMemWrite ⟨fn, pa⟩ bytes) s = .next (s.refuse pa) := congrArg Host.Outcome.next (if_pos (.inr (by rw [hr]; rfl)))
/-- A byte lies in one word. -/
theorem wordsOf_one (a : Nat) : wordsOf a 1 = [(a, 1)] := by
  have h8 : a % 8 < 8 := Nat.mod_lt _ (by decide)
  have hle := Nat.mod_le a 8
  unfold wordsOf
  rw [show (a % 8 + 1 + 7) / 8 = 1 by omega]
  simp only [List.range_one, List.map_cons, List.map_nil, Nat.mul_zero, Nat.add_zero]
  rw [show max a (a - a % 8) = a by omega, show min (a + 1) (a - a % 8 + 8) - a = 1 by omega]
theorem hostMemWrite_byte {b : Byte} (hr : s.hostRange fn (s.hostPA pa) 1 = true) (hh : s.heldAtPort fn (s.hostPA pa) true = false) :
    exec (.hostMemWrite ⟨fn, pa⟩ [b]) s = .next (s.hostWord (s.hostPA pa) [b]) := by
  refine congrArg Host.Outcome.next ((if_neg ?_).trans ((if_neg (by simp [hh])).trans ?_))
  · simp only [List.isEmpty_cons, List.length_singleton, hr, Bool.not_true, Bool.false_eq_true, or_self, not_false_eq_true]
  · simp only [List.length_singleton, wordsOf_one, List.foldl_cons, List.foldl_nil, Nat.sub_self, List.drop_zero]
    rfl
theorem firewallDrop_counts {die f addr : Nat} (h : die ≠ f) (h1 : die < 4) (h2 : f < 4) (ho : s.linkOpen die f = false) :
    exec (.firewallDrop die f addr) s = .next (s.countDrop die f addr) :=
  congrArg Host.Outcome.next (if_neg (by simp [h, h1, h2, ho]))
theorem countDrop_count (s : State) (die f addr : Nat) : fld (sget 0 (s.countDrop die f addr).dev.firewall (linkKey die f)) 32 32 =
    min (2 ^ 32 - 1) (fld (sget 0 s.dev.firewall (linkKey die f)) 32 32 + 1) := by
  have hfw : (s.countDrop die f addr).dev.firewall = sput 0 s.dev.firewall (linkKey die f) (setFld (sget 0 s.dev.firewall (linkKey die f)) 32 32
      (min (2 ^ 32 - 1) (fld (sget 0 s.dev.firewall (linkKey die f)) 32 32 + 1))) := by
    unfold State.countDrop
    dsimp only
    split <;> rfl
  rw [hfw, sget_sput_self, fld_setFld (by decide), Nat.mod_eq_of_lt (by omega)]
theorem countDrop_logs {die f addr : Nat} (h : (die, f) ∉ s.dev.fwLogged) :
    (s.countDrop die f addr).dev.security = s.dev.security ++ [.drop die f 1 addr] := by
  unfold State.countDrop
  dsimp only
  rw [if_neg (by simpa using h)]
end

end Sys2Proof.Machine.Claim
end

section
/-! Registers, debug sessions, stops, trigger lines and the cue sequencer (spec 37_debug R404 to R413, 00_scope R7). -/
namespace Sys2Proof.Machine.Claim

/-! ### The link ends through a registration -/

/-- What registrations keep of the device: the control bits of every link end, above which they count drops, its relocations,
sessions and die table. -/
structure DevKept (d e : Device) : Prop where
  low : ∀ k j, j < 32 → (sget 0 e.firewall k).getLsbD j = (sget 0 d.firewall k).getLsbD j
  reloc : e.reloc = d.reloc
  sessions : e.sessions = d.sessions
  dietab : e.dietab = d.dietab
theorem devKept_migration (d : Device) (m : List Migration) : DevKept d { d with migration := m } := ⟨fun _ _ _ => rfl, rfl, rfl, rfl⟩
theorem DevKept.refl (d : Device) : DevKept d d := ⟨fun _ _ _ => rfl, rfl, rfl, rfl⟩
theorem DevKept.trans {d e f : Device} (h : DevKept d e) (k : DevKept e f) : DevKept d f :=
  ⟨fun n j hj => (k.low n j hj).trans (h.low n j hj), k.reloc.trans h.reloc, k.sessions.trans h.sessions, k.dietab.trans h.dietab⟩
theorem devKept_foldl {α : Type} {f : State → α → State} (h : ∀ s x, DevKept s.dev (f s x).dev) (l : List α) (s : State) :
    DevKept s.dev (l.foldl f s).dev :=
  List.foldlRecOn (motive := fun t : State => DevKept s.dev t.dev) _ _ (.refl _) fun _ ht _ _ => ht.trans (h _ _)
theorem devKept_countDrop (s : State) (die f addr : Nat) : DevKept s.dev (s.countDrop die f addr).dev := by
  have hr : ∃ fw se lo, (s.countDrop die f addr).dev = { s.dev with firewall := fw, security := se, fwLogged := lo } := by
    unfold State.countDrop
    dsimp only
    split <;> exact ⟨_, _, _, rfl⟩
  obtain ⟨fw, se, lo, hr⟩ := hr
  refine ⟨fun k j hj => ?_, by rw [hr], by rw [hr], by rw [hr]⟩
  have hfw : (s.countDrop die f addr).dev.firewall = sput 0 s.dev.firewall (linkKey die f)
      (setFld (sget 0 s.dev.firewall (linkKey die f)) 32 32 (min (2 ^ 32 - 1) (fld (sget 0 s.dev.firewall (linkKey die f)) 32 32 + 1))) := by
    unfold State.countDrop
    dsimp only
    split <;> rfl
  rw [hfw, sget_sput]
  split
  · next h => rw [setFld_half (.inr rfl) (by omega) (by omega), h]
  · rfl
theorem devKept_dropFrom (s : State) (pdie pa : Nat) : DevKept s.dev (s.dropFrom pdie pa).dev := by
  unfold State.dropFrom
  split
  · split
    · exact .refl _
    · exact devKept_countDrop ..
  all_goals exact .refl _
theorem snoopInv_dev (s : State) (core line : Nat) : (s.snoopInv core line).dev = s.dev := by
  unfold State.snoopInv
  dsimp only
  split <;> split <;> rfl
theorem foldl_dev {α : Type} {f : State → α → State} (h : ∀ s x, (f s x).dev = s.dev) (l : List α) (s : State) : (l.foldl f s).dev = s.dev :=
  List.foldlRecOn (motive := fun t : State => t.dev = s.dev) _ _ rfl fun _ ht _ _ => (h _ _).trans ht
theorem askOwn_dev (s : State) (core line : Nat) : (s.askOwn core line).dev = s.dev := by
  unfold State.askOwn
  split
  · rfl
  · rfl
  all_goals exact foldl_dev (fun s c => snoopInv_dev s c line) _ _
theorem evictLine_dev (s : State) (core line : Nat) : (s.evictLine core line).dev = s.dev := by
  unfold State.evictLine
  dsimp only [State.setLine, State.dropLine, State.disownLine]
  split
  · split <;> rfl
  · rfl
theorem fitL1_dev (s : State) (core w : Nat) : (s.fitL1 core w).dev = s.dev := by
  unfold State.fitL1
  dsimp only
  split
  · rfl
  · exact foldl_dev (fun s l => evictLine_dev s core l) _ s
theorem markDirty_dev (s : State) (w : Nat) : ∃ m, (s.markDirty w).dev = { s.dev with migration := m } := by
  unfold State.markDirty
  split
  next => exact ⟨_, rfl⟩
  next => exact ⟨_, rfl⟩
  next => exact ⟨_, rfl⟩
  next =>
    split
    next =>
      dsimp only
      split
      · split <;> exact ⟨_, rfl⟩
      · exact ⟨_, rfl⟩
    next => exact ⟨_, rfl⟩
theorem backInvalidate_dev (s : State) (w : Nat) : (s.backInvalidate w).dev = s.dev := by
  unfold State.backInvalidate
  split <;> rfl
theorem wakeSector_dev (s : State) (n : Nat) (by_ : Option Writer) : (s.wakeSector n by_).dev = s.dev := rfl
theorem regMem_dev (s : State) (by_ : Option Writer) (cached : Bool) (w : Nat) (x : Val) :
    ∃ m, (s.regMem by_ cached w x).dev = { s.dev with migration := m } := by
  have hs : (if by_.isNone && isHost w then s.snoopAll (w / 16) else s).dev = s.dev := by
    split
    · exact foldl_dev (fun s c => snoopInv_dev s c _) _ s
    · rfl
  unfold State.regMem
  dsimp only
  rw [backInvalidate_dev, ← hs]
  generalize (if by_.isNone && isHost w then s.snoopAll (w / 16) else s) = t
  obtain ⟨m, hm⟩ := markDirty_dev (State.wakeSector _ _ by_) w
  refine ⟨m, hm.trans (congrArg (fun d : Device => { d with migration := m }) ((wakeSector_dev ..).trans ?_))⟩
  cases by_ with
  | none => cases cached <;> rfl
  | some c =>
    cases cached with
    | false => rfl
    | true => exact fitL1_dev ..
theorem devKept_regMem (s : State) (by_ : Option Writer) (cached : Bool) (w : Nat) (x : Val) :
    DevKept s.dev (s.regMem by_ cached w x).dev := by
  obtain ⟨m, hm⟩ := regMem_dev s by_ cached w x
  rw [hm]
  exact devKept_migration ..
theorem devKept_regOne (s : State) (p : PendStore) : DevKept s.dev (s.regOne p).dev := by
  unfold State.regOne
  split
  next b w _ => cases b <;> exact .refl _
  next =>
    split
    · exact devKept_dropFrom ..
    · refine DevKept.trans ?_ (devKept_regMem ..)
      split
      · rw [askOwn_dev]
        exact .refl _
      · exact .refl _
theorem devKept_regStore (s : State) (p : PendStore) : DevKept s.dev (s.regStore p).dev := 
  devKept_foldl devKept_regOne _ { s with stores := s.stores.filter fun q => !q.pins p }
theorem devKept_drain (s : State) (q : PendStore → Bool) : DevKept s.dev (s.drain q).dev := 
  devKept_foldl devKept_regStore _ { s with stores := s.stores.filter fun p => !q p }

/-! ### Registers -/

theorem regWrite_getLsbD (rw w1c old w : Word) (j : Nat) : (regWrite rw w1c old w).getLsbD j =
    ((old.getLsbD j && !rw.getLsbD j && !(w1c.getLsbD j && w.getLsbD j)) || (w.getLsbD j && rw.getLsbD j)) := by
  unfold regWrite
  by_cases hj : j < 64
  · simp [hj]
  · simp [BitVec.getLsbD_of_ge _ _ (Nat.not_lt.1 hj)]
theorem regWrite_rw (rw old w : Word) (j : Nat) :
    (regWrite rw 0 old w).getLsbD j = if rw.getLsbD j then w.getLsbD j else old.getLsbD j := by
  rw [regWrite_getLsbD]
  cases rw.getLsbD j <;> simp
/-- The two control bits of a link end. -/
theorem low2_bit {j : Nat} (hj : j < 64) : (3 : Word).getLsbD j = decide (j < 2) := by
  have h : ∀ j < 64, (3 : Word).getLsbD j = decide (j < 2) := by decide
  exact h j hj
theorem countMask_bit {j : Nat} (hj : j < 64) : countMask.getLsbD j = decide (j < 48) := by
  have h : ∀ j < 64, countMask.getLsbD j = decide (j < 48) := by decide
  exact h j hj

section
variable {s : State} {w : Word}

theorem registerWrite_devNo : exec (.registerWrite .devNo w) s = .next { s with dev := { s.dev with devNo := fld w 0 16 } } :=
  congrArg Host.Outcome.next (if_neg (by simp [isMailbox]))
theorem registerWrite_faultQueue {part : Nat} {p : Partition} (hp : s.part? part = some p) : exec (.registerWrite (.faultQueue part) w) s =
    .next { s with outs := s.outs ++ [.faultQueue part p.fqcb (s.fqBase p.fqcb)] } := by
  refine congrArg Host.Outcome.next ((if_neg (by simp [isMailbox])).trans ?_)
  simp only [State.beforeWrite, State.reportQueue, hp]
  rfl
theorem registerWrite_early {r : CtlReg} (hb : s.dev.boot ≠ .up) (hm : isMailbox r = false) : exec (.registerWrite r w) s = .next s :=
  congrArg Host.Outcome.next (if_pos ⟨hb, by rw [hm]; rfl⟩)
theorem registerWrite_dietab (hb : s.dev.boot = .up) : exec (.registerWrite .dietab w) s =
    .next { s with dev := { s.dev with dietab := regWrite 0xB3B3B3B3 0 s.dev.dietab w } } :=
  congrArg Host.Outcome.next (if_neg fun h => h.1 hb)
theorem registerWrite_lcrtot {cp k : Nat} (hb : s.dev.boot = .up) (hk : k < 5) : exec (.registerWrite (.lcrtot cp k) w) s =
    .next { s with dev := { s.dev with
      lcrtot := sput 0 s.dev.lcrtot (5 * cp + k) (regWrite 0 countMask (sget 0 s.dev.lcrtot (5 * cp + k)) w) } } := by
  refine congrArg Host.Outcome.next ((if_neg fun h => h.1 hb).trans ?_)
  simp only [State.beforeWrite, if_neg (Nat.not_le.2 hk)]

variable {die f : Nat} (hb : s.dev.boot = .up) (hd : die ≠ f) (h1 : die < 4) (h2 : f < 4)
include hb
theorem registerWrite_locked (hl : (sget 0 s.dev.firewall (linkKey die f)).getLsbD 1 = true) :
    exec (.registerWrite (.firewall die f) w) s = .next s := by
  refine congrArg Host.Outcome.next ((if_neg fun h => h.1 hb).trans ?_)
  have hc : s.closesEnd die f w = false := by
    unfold State.closesEnd
    dsimp only
    rw [hl, Bool.not_true, Bool.and_false, Bool.false_and]
  simp only [State.beforeWrite, hc, Bool.false_eq_true, if_false, hl, or_true, if_true]
include hd h1 h2
theorem registerWrite_firewall {u : State} (hl : (sget 0 s.dev.firewall (linkKey die f)).getLsbD 1 = false)
    (hu : u = if (sget 0 s.dev.firewall (linkKey die f)).getLsbD 0 = true ∧ w.getLsbD 0 = false then s.drainAcross [(die, f)] else s) :
    exec (.registerWrite (.firewall die f) w) s = .next { u with dev := { u.dev with
      firewall := sput 0 u.dev.firewall (linkKey die f) (regWrite 3 0 (sget 0 u.dev.firewall (linkKey die f)) w) } } := by
  refine congrArg Host.Outcome.next ((if_neg fun h => h.1 hb).trans ?_)
  have hbw : s.beforeWrite (.firewall die f) w = u := by
    rw [hu]
    refine if_congr ?_ rfl rfl
    unfold State.closesEnd
    simp only [hl, Bool.not_false, Bool.and_true, Bool.and_eq_true, Bool.not_eq_true']
  have hlu : (sget 0 u.dev.firewall (linkKey die f)).getLsbD 1 = false := by
    rw [hu, ← hl]
    split
    · exact (devKept_drain ..).low _ 1 (by decide)
    · rfl
  simp only [hbw, hlu, hd, Nat.not_le.2 h1, Nat.not_le.2 h2, Bool.false_eq_true, or_self, if_false]
end

/-! ### Sessions and stops -/

theorem sessionOpen_opens {s : State} {k : SessionSpec} (hp : ∃ p, s.part? k.part = some p)
    (hq : ∀ q ∈ k.queues, ∃ x ∈ s.queues, x.id = q ∧ x.pid = k.part) (hb : k.breaks.length ≤ 8) :
    exec (.sessionOpen k) s = .next { s with dev := { s.dev with sessions := s.dev.sessions ++ [⟨k, true, false⟩] } } := by
  obtain ⟨p, hp⟩ := hp
  refine congrArg Host.Outcome.next (if_neg ?_)
  have hall : (k.queues.all fun q => s.queues.any fun x => x.id == q && x.pid == k.part) = true :=
    List.all_eq_true.2 fun q hm => by
      obtain ⟨x, hx, h1, h2⟩ := hq q hm
      exact List.any_eq_true.2 ⟨x, hx, by simp [h1, h2]⟩
  simp only [hp, hall, Option.isNone_some, Bool.not_true, Bool.false_eq_true, false_or, Nat.not_lt.2 hb, not_false_eq_true]
theorem askLane_sameId (cause lane : Nat) (g : Group) : Group.sameId (Group.askLane cause lane) g := by
  unfold Group.sameId Group.askLane
  dsimp only
  split <;> exact ⟨rfl, rfl, rfl⟩
theorem askLane_slot {cause lane : Nat} {g : Group} {z : Bool} {p : Machine.Path} (hp : g.slot z = some p) (hl : p.mask.getLsbD lane = true) :
    (g.askLane cause lane).slot z = some (p.askStop cause lane) := by
  have hany : (g.slot0.any (fun p => p.mask.getLsbD lane) || g.slot1.any fun p => p.mask.getLsbD lane) = true := by
    cases z
    · rw [show g.slot0 = some p from hp, Option.any_some, hl, Bool.true_or]
    · rw [show g.slot1 = some p from hp, Option.any_some, hl, Bool.or_true]
  unfold Group.askLane
  dsimp only
  rw [if_pos (by rw [hany, Bool.true_or])]
  cases z
  · exact (congrArg (Option.map _) (show g.slot0 = some p from hp)).trans (congrArg some (if_pos hl))
  · exact (congrArg (Option.map _) (show g.slot1 = some p from hp)).trans (congrArg some (if_pos hl))
theorem debugStopRequest_asks {s : State} {launch blk grp lane : Nat} {b : Block} (hb : s.blk? blk = some b) (hn : b.launchNo = launch)
    (hs : s.stopsOn b.pid b.queue = true) : exec (.debugStopRequest launch blk grp lane) s = .next (s.modGrp blk grp (Group.askLane 3 lane)) := by
  refine congrArg Host.Outcome.next ?_
  simp only [hb]
  exact if_neg (by simp [hn, hs])
theorem pcBreakpoint_holds {s : State} {blk grp : Nat} {z : Bool} {b : Block} {g : Group} {p : Machine.Path} (hb : s.blk? blk = some b)
    (hg : s.grp? blk grp = some g) (hr : g.runs = true) (hp : g.slot z = some p) (h1 : p.held = false) (h2 : p.redo = none)
    (h3 : p.wait = .none) (ha : s.atBreak b p = true) : exec (.pcBreakpoint blk grp z) s = .next (s.hold blk grp z 1 0 false) := by
  refine congrArg Host.Outcome.next ?_
  simp only [hb, hg, Option.bind_some, hr, if_true, hp]
  exact (if_neg (by simp [h1, h2, h3])).trans (if_pos ha)
theorem triggerPinIn_pulses {s : State} {pin : Fin 4} {l : Nat} (h : s.dev.pinIn.filter (fun e => e.1 == pin.val) = [(pin.val, l)]) :
    exec (.triggerPinIn pin) s = .next (s.pulse none l (coreTrace 0 0xFFFF 0)) := by
  refine congrArg Host.Outcome.next ?_
  rw [h]
  rfl

/-! ### The cue sequencer -/

theorem cue_setCue (s : State) (die : Nat) (w : Word) : (s.setCue die w).cue die = w := sget_sput_self ..
theorem cueAPulse_counts {s : State} {die : Nat} (h : fld (s.cue die) 34 2 = 1) : ∃ t : State, exec (.cueAPulse die) s = .next t ∧
    fld (t.cue die) 34 2 = 2 ∧ sget 0 t.dev.cueCount die = 0 := by
  refine ⟨_, congrArg Host.Outcome.next (if_pos h), ?_, sget_sput_self ..⟩
  exact (congrArg (fld · 34 2) (cue_setCue s die _)).trans (fld_setFld (by decide))
theorem cueBPulse_counts {s : State} {die : Nat} (f : Bool) (h : fld (s.cue die) 34 2 = 2)
    (hn : sget 0 s.dev.cueCount die + 1 < max 1 (fld (s.cue die) 16 16)) (ha : sget 0 s.dev.cueAt die ≠ s.now + 1) :
    ∃ t : State, exec (.cueBPulse die f) s = .next t ∧ t.cue die = s.cue die ∧ sget 0 t.dev.cueCount die = sget 0 s.dev.cueCount die + 1 := by
  have hB : s.cueB die = { s with dev := { s.dev with cueCount := sput 0 s.dev.cueCount die (sget 0 s.dev.cueCount die + 1) } } := by
    unfold State.cueB
    exact (if_pos h).trans (if_neg (Nat.not_le.2 hn))
  have hc : (s.cueB die).cue die = s.cue die := by rw [hB]; rfl
  refine ⟨s.cueB die, congrArg Host.Outcome.next ((if_neg ha).trans (if_neg ?_)), hc, ?_⟩
  · rw [hc, h]
    decide
  · rw [hB]
    exact sget_sput_self ..
theorem cueBPulse_early {s : State} {die : Nat} (f : Bool) (h : sget 0 s.dev.cueAt die = s.now + 1) : exec (.cueBPulse die f) s = .next s :=
  congrArg Host.Outcome.next (if_pos h)

/-! ### O51 -/

/-- Settles O51, a clause at a time. -/
theorem hostAndDebugEvents : Obligations.HostAndDebugEvents := by
  unfold Obligations.HostAndDebugEvents
  refine ⟨fun s => ⟨fun core line => hostGrant_shared, fun core line => hostGrant_registers, fun core line => hostGrant_exclusive,
    fun core line => ⟨_, rfl, fun h => ?_, fun h => ?_, snoopData_other⟩, fun core line => ⟨_, rfl, snoopInv_ends s core line⟩,
    fun core line => hostSnoopSnpCur_eq, fun fn pa n cached => hostMemRead_reads, fun fn pa b => hostMemWrite_byte,
    fun fn pa n cached => hostMemRead_refused, fun fn pa bytes => hostMemWrite_refused, fun die f addr h h1 h2 ho =>
    ⟨_, firewallDrop_counts h h1 h2 ho, countDrop_count .., countDrop_logs⟩⟩,
    fun s => ⟨fun k => sessionOpen_opens, fun launch blk grp lane b g p z hb hn hs hg hp hl => ?_, fun blk grp z b g p => pcBreakpoint_holds,
    fun blk grp z => rfl, fun line => rfl, fun pin l => triggerPinIn_pulses, fun die w => ⟨_, rfl, cue_setCue s die _⟩,
    fun die => cueAPulse_counts, fun die f => cueBPulse_counts f, fun die f => cueBPulse_early f, fun w => ⟨_, registerWrite_devNo, ?_⟩,
    fun w part p => registerWrite_faultQueue, fun r w => registerWrite_early, fun w hb => ⟨_, registerWrite_dietab hb, rfl, fun j => ?_⟩,
    fun die f w hb hd h1 h2 => ?_, fun cp k w hb hk => ⟨_, registerWrite_lcrtot hb hk, rfl, fun j hj => ?_⟩⟩⟩
  · rw [snoopData_m h]
    exact ⟨List.mem_append_right _ (.head _), hostLine_setLine .s⟩
  · rw [snoopData_e h]
    exact ⟨rfl, hostLine_setLine .s⟩
  · exact ⟨_, debugStopRequest_asks hb hn hs, _, (State.grp?_modGrp s blk grp _ fun g _ => askLane_sameId ..).trans (congrArg (Option.map _) hg),
      askLane_slot hp hl⟩
  · rw [fld_zero]
  · exact regWrite_rw ..
  · intro old u
    refine ⟨registerWrite_locked hb, fun hl => ⟨_, registerWrite_firewall hb hd h1 h2 hl rfl, rfl, fun j hj => ?_⟩⟩
    dsimp only
    rw [sget_sput_self, regWrite_rw, low2_bit hj]
    simp only [decide_eq_true_eq]
    rfl
  · dsimp only
    rw [sget_sput_self, regWrite_getLsbD, countMask_bit hj]
    simp

end Sys2Proof.Machine.Claim
end

section
/-! What firmware's requests keep of the device and of the partitions, and the statement of those requests (spec 35_system R384 to R402,
15_memory R428). -/
namespace Sys2Proof.Machine.Claim

/-! ### What firmware's writes to memory keep -/

/-- Partitions and the kept part of the device stand as before. -/
structure FirmKept (s t : State) : Prop where
  parts : t.parts = s.parts
  dev : DevKept s.dev t.dev
theorem FirmKept.refl (s : State) : FirmKept s s := ⟨rfl, .refl _⟩
theorem FirmKept.trans {s t u : State} (h : FirmKept s t) (k : FirmKept t u) : FirmKept s u := ⟨k.parts.trans h.parts, h.dev.trans k.dev⟩
theorem firmKept_foldl {α : Type} {f : State → α → State} (h : ∀ s x, FirmKept s (f s x)) (l : List α) (s : State) : FirmKept s (l.foldl f s) :=
  List.foldlRecOn (motive := fun t : State => FirmKept s t) _ _ (.refl s) fun _ ht _ _ => ht.trans (h _ _)
theorem firmKept_ite {c : Prop} [Decidable c] {s t u : State} (h : FirmKept s t) (k : FirmKept s u) : FirmKept s (if c then t else u) := by
  split
  · exact h
  · exact k
theorem RegFrame.parts {s t : State} (h : RegFrame s t) : t.parts = s.parts := by
  obtain ⟨_, _, _, _, _, _, _, _, _, _, _, _, _, _, _, _, _, _, rfl⟩ := h
  rfl
theorem firmKept_drain (s : State) (q : PendStore → Bool) : FirmKept s (s.drain q) := by
  obtain ⟨st, h⟩ := drain_frame s q
  exact ⟨h.parts, devKept_drain s q⟩
theorem firmKept_putBytes (pa : Nat) (bs : List Byte) (s : State) : FirmKept s (s.putBytes pa bs) := by
  induction bs generalizing pa s with
  | nil => exact .refl s
  | cons b r ih =>
    rw [State.putBytes]
    exact ((firmKept_drain s _).trans ⟨(regFrame_regMem ..).parts, devKept_regMem ..⟩).trans (ih ..)
theorem firmKept_putNat (s : State) (pa n x : Nat) : FirmKept s (s.putNat pa n x) := firmKept_putBytes ..
theorem firmKept_putFirm (s : State) (w : Nat) (x : Word) : FirmKept s (s.putFirm w x) := firmKept_ite (.refl s) ⟨rfl, .refl _⟩

/-! ### What a change of link ends keeps -/

theorem setEnds_kept (s : State) (b : Bool) (es : List (Nat × Nat)) : (s.setEnds b es).parts = s.parts ∧
    (s.setEnds b es).dev.reloc = s.dev.reloc ∧ (s.setEnds b es).dev.dietab = s.dev.dietab := by
  have h : FirmKept s (if b then s else s.drainAcross es) := firmKept_ite (.refl s) (firmKept_drain ..)
  exact ⟨h.parts, h.dev.reloc, h.dev.dietab⟩

/-! ### Interfaces -/

section
variable {s : State} {vf : Nat} {v : Vf} (hv : s.vf? vf = some v)
include hv
theorem tdispLock_locks (h : v.st = .unlocked) : exec (.tdispLock vf) s = .next (s.setVf vf .locked) := by
  refine congrArg Host.Outcome.next ?_
  simp only [hv]
  exact if_pos h
theorem startInterface_runs (h : v.st = .locked) : exec (.startInterface vf) s = .next (s.setVf vf .run) := by
  refine congrArg Host.Outcome.next ?_
  simp only [hv]
  exact if_pos h
theorem stopInterface_scrubs {p : Partition} (hp : s.part? v.pid = some p) (hb : ∀ b ∈ s.blocks, ¬(b.pid = v.pid ∧ b.eff.tenant = v.tenant)) :
    exec (.stopInterface vf) s = .next ((((List.range 288).filter fun c =>
      p.dies.contains (c / 72) && (s.coreBlocks c).isEmpty).foldl State.scrub s).setVf vf .unlocked) := by
  refine congrArg Host.Outcome.next ?_
  simp only [hv, Option.bind_some, hp]
  refine if_neg fun h => ?_
  obtain ⟨b, hm, hq⟩ := List.any_eq_true.1 h
  exact hb b hm (by simpa using hq)
end

/-! ### Partitions, address spaces and region blocks -/

theorem partitionSetup_adds {s : State} {k : PartSpec} (hb : s.dev.boot = .up) (hi : k.id < 4) (hn : s.part? k.id = none) (he : k.dies ≠ [])
    (hd : k.dies.Nodup) (h4 : ∀ d ∈ k.dies, d < 4) (hf : ∀ d ∈ k.dies, s.freeDie (s.physDie d) = true) (hp : (k.dies.map s.physDie).Nodup)
    (hr : ∀ a ∈ [k.fqcb, k.trcb], a % 64 = 0 ∧ ∃ d ∈ k.dies, rangeOf a = .hbm (s.physDie d))
    (hs : ∀ e ∈ endsOf (k.dies.map s.physDie) (k.dies.map s.physDie), s.stuckEnd true e = false) :
    ∃ t : State, exec (.partitionSetup k) s = .next t ∧
      t.parts = s.parts ++ [{ id := k.id, dies := k.dies, fqcb := k.fqcb, trcb := k.trcb, fqWidx := 0, fqLost := 0,
                              trWidx := 0, trLost := 0, handles := [], stopped := false, lastCore := none }] := by
  have hall : (k.dies.all fun d => d < 4) = true := List.all_eq_true.2 fun d hm => decide_eq_true (h4 d hm)
  have hfree : (k.dies.map s.physDie).all s.freeDie = true := by
    rw [List.all_map]
    exact List.all_eq_true.2 hf
  have hstuck : (endsOf (k.dies.map s.physDie) (k.dies.map s.physDie)).any (s.stuckEnd true) = false :=
    List.any_eq_false.2 fun e hm => by rw [hs e hm]; exact Bool.false_ne_true
  have hemp : k.dies.isEmpty = false := List.isEmpty_eq_false_iff.2 he
  have hblk : ∀ a ∈ [k.fqcb, k.trcb],
      (a % 64 == 0 && (match rangeOf a with | .hbm d => (k.dies.map s.physDie).contains d | _ => false)) = true := by
    intro a hm
    obtain ⟨h0, d, hd, hx⟩ := hr a hm
    rw [hx, h0]
    simpa using ⟨d, hd, rfl⟩
  obtain ⟨hb1, hb2⟩ := List.forall_mem_cons.1 hblk
  have hb2 := hb2 _ (List.mem_singleton_self _)
  refine ⟨_, congrArg Host.Outcome.next (if_neg ?_), ?_⟩
  · rintro (h | h | h | h | h | h | h | h | h | h | h)
    · exact h hb
    · omega
    · simp [hn] at h
    · simp [hemp] at h
    · simp [hd] at h
    · simp [hall] at h
    · simp [hfree] at h
    · simp [hp] at h
    · exact absurd ((congrArg not hb1).symm.trans h) Bool.false_ne_true
    · exact absurd ((congrArg not hb2).symm.trans h) Bool.false_ne_true
    · exact absurd (hstuck.symm.trans h) Bool.false_ne_true
  · refine congrArg (· ++ _) ?_
    have hbind : ∀ (t : State) (a : Nat), FirmKept t (((t.putNat (a + 24) 8 0).putNat (a + 32) 8 0).putNat (a + 40) 8 0) := fun t a =>
      ((firmKept_putNat ..).trans (firmKept_putNat ..)).trans (firmKept_putNat ..)
    refine ((hbind _ _).trans (hbind _ _)).parts.trans ?_
    exact (setEnds_kept ..).1.trans ((setEnds_kept ..).1.trans (setEnds_kept ..).1)
theorem addressSpaceCreate_adds {s : State} {id part root d : Nat} (h0 : id ≠ 0) (h32 : id < 2 ^ 32) (hn : s.aspace? id = none)
    (hr : root % 8192 = 0) (hd : rangeOf root = .hbm d) (ho : s.ownsDie part d = true) :
    exec (.addressSpaceCreate id part root) s = .next { s with aspaces := s.aspaces ++ [⟨id, part, some root⟩] } := by
  refine congrArg Host.Outcome.next (if_neg ?_)
  simp only [hd, ho, hn, hr, h0, Nat.not_le.2 h32]
  decide
theorem addressSpaceDestroy_drops {s : State} {id : Nat} {a : Aspace} (h : s.aspace? id = some a) :
    ∃ t : State, exec (.addressSpaceDestroy id) s = .next t ∧ t.aspace? id = none ∧ (∀ e ∈ t.tlb, e.aspace ≠ id) ∧ (∀ e ∈ t.ptrs, e.aspace ≠ id) ∧
      ∀ p ∈ t.parts, p.id = a.pid → ∀ e ∈ p.handles, ¬(e.2.sealed = true ∧ e.2.aspace = id) := by
  refine ⟨_, congrArg Host.Outcome.next (by simp only [h]; rfl), ?_, fun e he => ?_, fun e he => ?_, fun p hp hid e he => ?_⟩
  · exact List.find?_eq_none.2 fun x hx => by simpa using (List.mem_filter.1 hx).2
  · simpa using (List.mem_filter.1 he).2
  · simpa using (List.mem_filter.1 he).2
  · obtain ⟨x, hx, rfl⟩ := List.mem_map.1 hp
    by_cases hq : (x.id == a.pid) = true
    · rw [if_pos hq] at he
      obtain ⟨y, hy, rfl⟩ := List.mem_map.1 he
      split
      · simp
      · next hn => exact hn
    · rw [if_neg hq] at hid
      exact absurd (beq_iff_eq.2 hid) hq
theorem tenantRcbInstall_top {s : State} {part aspace addr target : Nat} {p : Partition} {ws : List Word} {r : Rcb} {a : Aspace}
    (hp : s.part? part = some p) (hw : s.firmWords aspace addr 32 = some ws) (hr : parseRcb part target ws = some r) (hl : r.level = 0)
    (h1 : ∀ x ∈ s.rcbs, x.pid = part → x.level = 0 → x.addr = target) (h2 : ∀ x, s.rcb? part target = some x → x.level = 0)
    (ht : target % 256 = 0) (ha : addr % 256 = 0) (hs : s.aspace? aspace = some a) (hap : a.pid = part) (hf : s.frozenVf part target = false) :
    exec (.tenantRcbInstall part aspace addr target) s =
      .next { s with rcbs := (s.rcbs.filter fun x => !(x.pid == part && x.addr == target)) ++ [r] } := by
  have hmates : (s.rcbs.filter fun x : Rcb => x.pid == part && x.level == 0 && x.addr != target) = [] :=
    List.filter_eq_nil_iff.2 fun x hx => by
      simp only [Bool.and_eq_true, beq_iff_eq, bne_iff_ne, not_and, not_not]
      exact fun hq => h1 x hx hq.1 hq.2
  have hother : (match s.rcb? part target with | some x => x.level != 0 | none => false) = false := by
    cases hx : s.rcb? part target with
    | none => rfl
    | some x => simp [h2 x hx]
  refine congrArg Host.Outcome.next ?_
  simp only [hp, hw, hr]
  refine (if_neg ?_).trans (if_pos (.inl hl))
  rw [hl, hmates, hs, ht, ha, hf]
  rintro (h | h | h | h | h | h)
  · exact h rfl
  · exact h rfl
  · exact absurd h Bool.false_ne_true
  · exact absurd (hother.symm.trans h) Bool.false_ne_true
  · simp [hap] at h
  · exact absurd h Bool.false_ne_true

/-! ### Relocation -/

theorem resumed_part (s : State) (part : Nat) :
    (∀ r ∈ ((s.stopPart part false).endReloc part).dev.reloc, r.pid ≠ part) ∧
    ((s.stopPart part false).endReloc part).dev.dietab = s.dev.dietab ∧
    ∀ x ∈ ((s.stopPart part false).endReloc part).parts, x.id = part → x.stopped = false := by
  refine ⟨fun r hr => by simpa using (List.mem_filter.1 hr).2, rfl, fun x hx hid => ?_⟩
  obtain ⟨y, hy, rfl⟩ := List.mem_map.1 hx
  by_cases hq : (y.id == part) = true
  · rw [if_pos hq]
  · rw [if_neg hq] at hid
    exact absurd (beq_iff_eq.2 hid) hq

section
variable {s : State} {part p q : Nat} {k : Partition} (hk : s.part? part = some k)
include hk
theorem relocation_preCopy (h1 : (s.pdies k).contains p = true) (h2 : s.freeDie q = true) (hm : ∀ m ∈ s.dev.migration, m.pid ≠ part)
    (hr : ∀ r ∈ s.dev.reloc, r.pid ≠ part ∧ r.q ≠ q)
    (hl : ∀ e ∈ s.relocEnds k p q, (sget 0 s.dev.firewall (linkKey e.1 e.2)).getLsbD 1 = false) :
    exec (.relocation .preCopy part p q) s = .next (((s.setEnds true [(p, q), (q, p)]).copyDie p q).setReloc ⟨part, p, q, .preCopy⟩) := by
  refine congrArg Host.Outcome.next ?_
  simp only [hk]
  refine if_neg ?_
  rintro (h | h | h | h | h | h)
  · rw [h1] at h
    exact Bool.false_ne_true h
  · rw [h2] at h
    exact Bool.false_ne_true h
  · obtain ⟨m, hx, hq⟩ := List.any_eq_true.1 h
    exact hm m hx (beq_iff_eq.1 hq)
  · obtain ⟨e, hx, hq⟩ := List.any_eq_true.1 h
    exact Bool.false_ne_true ((hl e hx).symm.trans hq)
  · obtain ⟨r, hx, hq⟩ := List.any_eq_true.1 h
    simp [hr r hx] at hq
  · obtain ⟨r, hx, hq⟩ := List.any_eq_true.1 h
    simp [hr r hx] at hq
theorem relocation_stop (h : s.relocAt part p q .preCopy = true) :
    exec (.relocation .stop part p q) s = .next ((s.stopPart part true).setReloc ⟨part, p, q, .stop⟩) := by
  refine congrArg Host.Outcome.next ?_
  simp only [hk]
  exact if_pos h
theorem relocation_finalCopy (h : s.relocAt part p q .stop = true) (hr : s.atRest part = true) : exec (.relocation .finalCopy part p q) s =
    .next (((s.drain fun d => rangeOf (8 * d.word) == .hbm p).copyDie p q).setReloc ⟨part, p, q, .finalCopy⟩) := by
  refine congrArg Host.Outcome.next ?_
  simp only [hk]
  exact (if_neg (by simp [h])).trans (if_neg (by simp [hr]))
theorem relocation_rewrite (h : s.relocAt part p q .finalCopy = true) :
    exec (.relocation .rewrite part p q) s = .next ((s.rewrite k p q).setReloc ⟨part, p, q, .rewrite⟩) := by
  refine congrArg Host.Outcome.next ?_
  simp only [hk]
  exact if_pos h
theorem relocation_resume {d : Nat} (h : s.relocAt part p q .rewrite = true) (hd : (k.dies.find? fun x => s.physDie x == p) = some d) :
    ∃ t : State, exec (.relocation .resume part p q) s = .next t ∧ (∀ r ∈ t.dev.reloc, r.pid ≠ part) ∧
      t.dev.dietab = setFld s.dev.dietab (8 * d) 2 q ∧ ∀ x ∈ t.parts, x.id = part → x.stopped = false := by
  refine ⟨_, congrArg Host.Outcome.next (by simp only [hk]; exact if_neg (by simp [h])), ?_⟩
  obtain ⟨h1, h2, h3⟩ := resumed_part ((((({ s with dev := { s.dev with
    dietab := setFld s.dev.dietab (8 * ((k.dies.find? fun x => s.physDie x == p).getD p)) 2 q } } : State).setEnds false
      (endsOf [p] (List.range 4))).setEnds false (endsOf (q :: (s.pdies k).filter fun x => x != p) [p])).setEnds true
      (endsOf [q] ((s.pdies k).filter fun x => x != p))).setEnds true (endsOf ((s.pdies k).filter fun x => x != p) [q])) part
  refine ⟨h1, h2.trans ?_, h3⟩
  rw [(setEnds_kept ..).2.2, (setEnds_kept ..).2.2, (setEnds_kept ..).2.2, (setEnds_kept ..).2.2, hd]
  rfl
end

end Sys2Proof.Machine.Claim
end

section
/-! Live migration and failed parts, and the statement about firmware's requests (spec 35_system R397 to R403). -/
namespace Sys2Proof.Machine.Claim

/-! ### Live migration -/

/-- The sessions stand as before. -/
structure SessionsKept (s t : State) : Prop where
  eq : t.dev.sessions = s.dev.sessions
theorem SessionsKept.trans {s t u : State} (h : SessionsKept s t) (k : SessionsKept t u) : SessionsKept s u := ⟨k.eq.trans h.eq⟩
theorem FirmKept.sessionsKept {s t : State} (h : FirmKept s t) : SessionsKept s t := ⟨h.dev.sessions⟩
theorem sessionsKept_foldl {α : Type} {f : State → α → State} (h : ∀ s x, SessionsKept s (f s x)) (l : List α) (s : State) :
    SessionsKept s (l.foldl f s) :=
  List.foldlRecOn (motive := fun t : State => SessionsKept s t) _ _ ⟨rfl⟩ fun _ ht _ _ => ht.trans (h _ _)
theorem sessionsKept_giveRings (s : State) (part : Nat) (r : Nat × Nat × Nat × Nat) : SessionsKept s (s.giveRings part r) := by
  unfold State.giveRings
  split
  · exact ⟨rfl⟩
  · next p _ =>
    refine SessionsKept.trans (t := s.modPart part fun p => { p with fqWidx := r.1, fqLost := r.2.1, trWidx := r.2.2.1, trLost := r.2.2.2 }) ⟨rfl⟩ ?_
    exact (((firmKept_putNat ..).trans (firmKept_putNat ..)).trans ((firmKept_putNat ..).trans (firmKept_putNat ..))).sessionsKept
theorem sessionsKept_putWin (s : State) (part : Nat) (h : HeldWin) : SessionsKept s (s.putWin part h) := by
  unfold State.putWin
  dsimp only
  split <;> exact ⟨rfl⟩
theorem giveHeld_sessions (s : State) (part : Nat) (queues : List Nat) (h : Held) :
    (s.giveHeld part queues h).dev.sessions = s.dev.sessions ++ h.sessions.map (Session.moved s.uid part queues) := by
  unfold State.giveHeld
  dsimp only
  refine (sessionsKept_foldl (fun s w => sessionsKept_putWin s part w) _ _).eq.trans ?_
  refine (sessionsKept_giveRings ..).eq.trans ?_
  rfl
theorem migrationPackageImport_sessions {s : State} {part dev : Nat} {package sig : List Byte} {k : SessionSpec} {p : Partition}
    (hp : s.part? part = some p) : ∃ t : State, exec (.migrationPackageImport part dev package sig k) s = .next t ∧
      if Config.verifies (Config.peerKey dev) (Config.sha3 package) sig then
        t.dev.sessions = s.dev.sessions ++ (Config.unpack package).sessions.map (Session.moved s.uid part k.queues)
      else t = { s with outs := s.outs ++ [.refuse part] } := by
  by_cases hv : Config.verifies (Config.peerKey dev) (Config.sha3 package) sig = true
  · refine ⟨_, congrArg Host.Outcome.next (if_neg (by simp [hp, hv])), ?_⟩
    rw [if_pos hv]
    have hc : SessionsKept (s.giveHeld part k.queues (Config.unpack package)) _ :=
      sessionsKept_foldl (f := fun s (e : Nat × HeldCounts) => s.giveCounts e.1 e.2) (fun s e => ⟨rfl⟩)
        ((((s.part? part).map Partition.dies).getD []).zip (Config.unpack package).counts) _
    have he : SessionsKept _ _ := hc.trans (sessionsKept_foldl (f := fun s n => s.giveEvent part n (Config.unpack package)) (fun s n => ⟨rfl⟩) (List.range 8) _)
    exact he.eq.trans (giveHeld_sessions ..)
  · exact ⟨_, congrArg Host.Outcome.next (if_pos (by simp [hv])), by rw [if_neg hv]; rfl⟩

section
variable {s : State} {part : Nat} {p : Partition} (hp : s.part? part = some p) (hr : ∀ r ∈ s.dev.reloc, r.pid ≠ part)
include hp hr
theorem migrates : ¬((s.part? part).isNone ∨ (s.dev.reloc.any fun x => x.pid == part) = true) := by
  rintro (h | h)
  · simp [hp] at h
  · obtain ⟨r, hm, hq⟩ := List.any_eq_true.1 h
    exact hr r hm (beq_iff_eq.1 hq)
theorem liveMigrationRound_round {ring entries : Nat} (h8 : ring % 8 = 0) (h0 : entries ≠ 0) (h1 : rangeOf ring = .host)
    (h2 : rangeOf (ring + 8 * entries - 1) = .host) (hf : ∀ m ∈ s.dev.migration, ¬(m.pid = part ∧ m.final = true)) :
    exec (.liveMigrationRound part (.round ring entries)) s = .next { s with dev := { s.dev with
      migration := (s.dev.migration.filter fun m => m.pid != part) ++ [⟨part, ring, entries, 0, [], false, false⟩] } } := by
  have he : (s.dev.migration.any fun m => m.pid == part && m.final) = false :=
    List.any_eq_false.2 fun m hm => by simpa using hf m hm
  exact congrArg Host.Outcome.next ((if_neg (migrates hp hr)).trans (if_pos (by simp [h8, h0, h1, h2, he])))
theorem liveMigrationRound_final {ring entries : Nat} (h8 : ring % 8 = 0) (h0 : entries ≠ 0) (h1 : rangeOf ring = .host)
    (h2 : rangeOf (ring + 8 * entries - 1) = .host) :
    exec (.liveMigrationRound part (.final ring entries)) s = .next (({ s with dev := { s.dev with
      migration := (s.dev.migration.filter fun m => m.pid != part) ++ [⟨part, ring, entries, 0, [], false, true⟩] } } : State).stopPart part true) :=
  congrArg Host.Outcome.next ((if_neg (migrates hp hr)).trans (if_pos (by simp [h8, h0, h1, h2])))
theorem liveMigrationRound_stop {m : Migration} {dest : Nat} (hm : (s.dev.migration.find? fun m => m.pid == part) = some m) (hf : m.final = true)
    (ha : s.atRest part = true) : exec (.liveMigrationRound part (.stop dest)) s = .next { s with outs := s.outs ++
      [.package part dest (Config.pack (s.heldState part) dest) (Config.sign (Config.sha3 (Config.pack (s.heldState part) dest)))] } := by
  refine congrArg Host.Outcome.next ((if_neg (migrates hp hr)).trans ?_)
  simp only [hm]
  exact (if_neg (by simp [hf])).trans (if_neg (by simp [ha]))
end

/-! ### What the loss of a die keeps -/

/-- The control bits of the link ends stand as before, and no relocation and no partition is added. -/
structure Shrinks (s t : State) : Prop where
  low : ∀ k j, j < 32 → (sget 0 t.dev.firewall k).getLsbD j = (sget 0 s.dev.firewall k).getLsbD j
  reloc : ∀ r ∈ t.dev.reloc, r ∈ s.dev.reloc
  ids : ∀ x ∈ t.parts, ∃ y ∈ s.parts, y.id = x.id
theorem Shrinks.refl (s : State) : Shrinks s s := ⟨fun _ _ _ => rfl, fun _ h => h, fun x h => ⟨x, h, rfl⟩⟩
theorem Shrinks.trans {s t u : State} (h : Shrinks s t) (k : Shrinks t u) : Shrinks s u :=
  ⟨fun n j hj => (k.low n j hj).trans (h.low n j hj), fun r hr => h.reloc r (k.reloc r hr), fun x hx => by
    obtain ⟨y, hy, he⟩ := k.ids x hx
    obtain ⟨z, hz, hf⟩ := h.ids y hy
    exact ⟨z, hz, hf.trans he⟩⟩
theorem shrinks_foldl {α : Type} {f : State → α → State} (h : ∀ s x, Shrinks s (f s x)) (l : List α) (s : State) : Shrinks s (l.foldl f s) :=
  List.foldlRecOn (motive := fun t : State => Shrinks s t) _ _ (.refl s) fun _ ht _ _ => ht.trans (h _ _)
theorem FirmKept.shrinks {s t : State} (h : FirmKept s t) : Shrinks s t :=
  ⟨h.dev.low, fun r hr => by rwa [h.dev.reloc] at hr, fun x hx => ⟨x, by rwa [h.parts] at hx, rfl⟩⟩
theorem shrinks_updWhere {s : State} {q : Partition → Bool} {f : Partition → Partition} (hf : ∀ x, (f x).id = x.id) {t : State}
    (ht : t.parts = updWhere s.parts q f) (hl : t.dev.firewall = s.dev.firewall) (hr : t.dev.reloc = s.dev.reloc) : Shrinks s t := by
  refine ⟨fun _ _ _ => by rw [hl], fun r hm => by rwa [hr] at hm, fun x hx => ?_⟩
  rw [ht] at hx
  obtain ⟨y, hy, rfl⟩ := List.mem_map.1 hx
  refine ⟨y, hy, ?_⟩
  split
  · exact (hf y).symm
  · rfl
theorem nowIdle_dev (s : State) (l : List Nat) : ∃ x, (s.nowIdle l).dev = { s.dev with idleSince := x } :=
  List.foldlRecOn (motive := fun t : State => ∃ x, t.dev = { s.dev with idleSince := x }) _ _ ⟨_, rfl⟩ fun t ⟨x, ht⟩ c _ => by
    split
    · exact ⟨_, congrArg (fun d : Device => { d with idleSince := sput 0 t.dev.idleSince c t.now }) ht⟩
    · exact ⟨x, ht⟩
theorem losePart_parts (s : State) (pid : Nat) : (s.losePart pid).parts = s.parts.filter fun p => p.id != pid := by
  refine congrArg (List.filter _) ?_
  obtain ⟨d, hd⟩ := nowIdle_rest (s.dropGroups fun g => ((s.blocks.filter fun b => b.pid == pid).map Block.id).contains g.blk && g.st != .none)
    ((s.blocks.filter fun b => b.pid == pid).flatMap Block.cores).eraseDups
  rw [hd]
  rfl
theorem losePart_dev (s : State) (pid : Nat) : (s.losePart pid).dev.firewall = s.dev.firewall ∧
    (s.losePart pid).dev.reloc = s.dev.reloc.filter fun r => r.pid != pid := by
  obtain ⟨x, hx⟩ := nowIdle_dev (s.dropGroups fun g => ((s.blocks.filter fun b => b.pid == pid).map Block.id).contains g.blk && g.st != .none)
    ((s.blocks.filter fun b => b.pid == pid).flatMap Block.cores).eraseDups
  have h1 := congrArg Device.firewall hx
  have h2 := congrArg (fun d : Device => d.reloc.filter fun r => r.pid != pid) hx
  exact ⟨h1, h2⟩
theorem shrinks_losePart (s : State) (pid : Nat) : Shrinks s (s.losePart pid) := by
  obtain ⟨h1, h2⟩ := losePart_dev s pid
  refine ⟨fun _ _ _ => by rw [h1], fun r hr => ?_, fun x hx => ?_⟩
  · rw [h2] at hr
    exact (List.mem_filter.1 hr).1
  · rw [losePart_parts] at hx
    exact ⟨x, (List.mem_filter.1 hx).1, rfl⟩
theorem firmKept_moveTables (own : Nat → Bool) (p q n table : Nat) (s : State) : FirmKept s (State.moveTables own p q n table s) := by
  induction n generalizing table s with
  | zero => exact .refl s
  | succ n ih =>
    unfold State.moveTables
    refine firmKept_ite (.refl s) (firmKept_foldl (fun s k => ?_) _ _)
    exact firmKept_ite (.refl s) (firmKept_ite (firmKept_putFirm ..) ((firmKept_putFirm ..).trans (ih ..)))
theorem shrinks_rewrite (s : State) (k : Partition) (p q : Nat) : Shrinks s (s.rewrite k p q) := by
  unfold State.rewrite
  refine Shrinks.trans (FirmKept.shrinks ?_) (shrinks_updWhere (q := fun x => x.id == k.id)
    (f := fun x => { x with fqcb := movePA p q x.fqcb, trcb := movePA p q x.trcb }) (fun _ => rfl) rfl rfl rfl)
  refine FirmKept.trans ?_ ((firmKept_putNat ..).trans (firmKept_putNat ..))
  exact (firmKept_foldl (fun _ _ => firmKept_moveTables ..) _ _).trans (firmKept_foldl (fun _ _ => firmKept_putFirm ..) _ _)
theorem shrinks_go (s : State) (pid : Nat) : Shrinks s (s.stopPart pid false) :=
  shrinks_updWhere (q := fun x => x.id == pid) (f := fun x => { x with stopped := false }) (fun _ => rfl) rfl rfl rfl
theorem shrinks_endReloc (s : State) (pid : Nat) : Shrinks s (s.endReloc pid) :=
  ⟨fun _ _ _ => rfl, fun _ h => (List.mem_filter.1 h).1, fun x h => ⟨x, h, rfl⟩⟩
theorem backOut_ends (s : State) (r : Reloc) : Shrinks s (s.backOut r) ∧ ∀ x ∈ (s.backOut r).dev.reloc, x.pid ≠ r.pid := by
  have hend : ∀ t : State, ∀ x ∈ (t.endReloc r.pid).dev.reloc, x.pid ≠ r.pid := fun t x hx => by simpa using (List.mem_filter.1 hx).2
  unfold State.backOut
  split
  · exact ⟨shrinks_endReloc .., hend _⟩
  · next k _ =>
    refine ⟨Shrinks.trans ?_ (shrinks_endReloc ..), hend _⟩
    have hrw : Shrinks s (if r.done = .rewrite then s.rewrite k r.q r.p else s) := by
      split
      · exact shrinks_rewrite ..
      · exact .refl s
    split
    · exact hrw
    · exact hrw.trans (shrinks_go ..)
theorem foldl_backOut (l : List Reloc) (s : State) : Shrinks s (l.foldl State.backOut s) ∧
    ∀ r ∈ l, ∀ x ∈ (l.foldl State.backOut s).dev.reloc, x.pid ≠ r.pid := by
  induction l generalizing s with
  | nil => exact ⟨.refl s, fun r h => absurd h List.not_mem_nil⟩
  | cons y r ih =>
    obtain ⟨h1, h2⟩ := backOut_ends s y
    obtain ⟨h3, h4⟩ := ih (s.backOut y)
    refine ⟨h1.trans h3, fun z hz x hx => ?_⟩
    rcases List.mem_cons.1 hz with rfl | hz
    · exact h2 x (h3.reloc x hx)
    · exact h4 z hz x hx
theorem foldl_losePart (l : List Partition) (s : State) : Shrinks s (l.foldl (fun s p => s.losePart p.id) s) ∧
    (∀ x ∈ (l.foldl (fun s p => s.losePart p.id) s).parts, x ∈ s.parts ∧ ∀ p ∈ l, x.id ≠ p.id) := by
  induction l generalizing s with
  | nil => exact ⟨.refl s, fun x hx => ⟨hx, fun p h => absurd h List.not_mem_nil⟩⟩
  | cons y r ih =>
    obtain ⟨h3, h4⟩ := ih (s.losePart y.id)
    refine ⟨(shrinks_losePart ..).trans h3, fun x hx => ?_⟩
    obtain ⟨h5, h6⟩ := h4 x hx
    rw [losePart_parts] at h5
    obtain ⟨h7, h8⟩ := List.mem_filter.1 h5
    exact ⟨h7, List.forall_mem_cons.2 ⟨by simpa using h8, h6⟩⟩
theorem foldl_ports (die n : Nat) (t : Store Nat) {k : Nat} (hk : k < n) :
    sget 8 ((List.range n).foldl (fun t k => sput 8 t (portKey die k) 0) t) (portKey die k) = 0 := by
  induction n with
  | zero => omega
  | succ n ih =>
    rw [List.range_succ, List.foldl_append]
    refine (sget_sput ..).trans ?_
    split
    · rfl
    · next h => exact ih (by rcases Nat.lt_succ_iff_lt_or_eq.1 hk with h' | rfl; exacts [h', absurd rfl h])
/-- The link ends toward a die, the unlocked ones of a list closed and locked. -/
def lockEnds (die : Nat) (l : List Nat) (fw : Store Word) : Store Word :=
  l.foldl (fun fw d => if (sget 0 fw (linkKey d die)).getLsbD 1 then fw else sput 0 fw (linkKey d die) (setFld (sget 0 fw (linkKey d die)) 0 2 2)) fw
theorem lockEnds_locks {die : Nat} {l : List Nat} (hl : l.Nodup) (fw : Store Word) {d : Nat} (hm : d ∈ l)
    (h : (sget 0 fw (linkKey d die)).getLsbD 1 = false) : fld (sget 0 (lockEnds die l fw) (linkKey d die)) 0 2 = 2 := by
  have hne : ∀ {a b : Nat}, a ≠ b → linkKey a die ≠ linkKey b die := fun hab => by unfold linkKey; omega
  have hrest : ∀ (r : List Nat) (fw : Store Word), d ∉ r → sget 0 (lockEnds die r fw) (linkKey d die) = sget 0 fw (linkKey d die) := by
    intro r
    induction r with
    | nil => exact fun fw _ => rfl
    | cons x r ih =>
      intro fw hx
      refine (ih _ (List.not_mem_of_not_mem_cons hx)).trans ?_
      dsimp only
      split
      · rfl
      · exact sget_sput_ne _ _ _ (hne (List.ne_of_not_mem_cons hx))
  induction l generalizing fw with
  | nil => exact absurd hm List.not_mem_nil
  | cons x r ih =>
    obtain ⟨hx, hr⟩ := List.nodup_cons.1 hl
    by_cases hdx : d = x
    · subst hdx
      refine (congrArg (fld · 0 2) (hrest r _ hx)).trans ?_
      dsimp only
      rw [if_neg (by rw [h]; exact Bool.false_ne_true), sget_sput_self, fld_setFld (by decide)]
      rfl
    · refine ih hr _ (List.mem_of_ne_of_mem hdx hm) ?_
      rw [← h]
      dsimp only
      split
      · rfl
      · rw [sget_sput_ne _ _ _ (hne hdx)]
/-- What stands when the partitions of a lost die are gone and the relocations to it are backed out. -/
def afterLoss (s : State) (die : Nat) : State :=
  let s := (s.parts.filter fun p => (s.pdies p).contains die).foldl (fun s p => s.losePart p.id) s
  (s.dev.reloc.filter fun r => r.q == die).foldl State.backOut s
theorem dieLoss_loses {s : State} {die : Nat} (h4 : die < 4) (hn : die ∉ s.dev.lostDies) :
    ∃ t : State, exec (.dieLoss die) s = .next t ∧ die ∈ t.dev.lostDies ∧
      (∀ d, d < 4 → d ≠ die → (sget 0 s.dev.firewall (linkKey d die)).getLsbD 1 = false →
        fld (sget 0 t.dev.firewall (linkKey d die)) 0 2 = 2) ∧
      (∀ p ∈ s.parts, (s.pdies p).contains die = true → ∀ x ∈ t.parts, x.id ≠ p.id) ∧ (∀ r ∈ t.dev.reloc, r.q ≠ die) ∧
      ((∀ r ∈ s.dev.reloc, r.q ≠ die) → ∀ p ∈ t.parts, p ∈ s.parts) ∧
      ∀ k, k < portCount die → sget 8 t.dev.ports (portKey die k) = 0 := by
  obtain ⟨hl1, hl2⟩ := foldl_losePart (s.parts.filter fun p => (s.pdies p).contains die) s
  generalize hu : (s.parts.filter fun p => (s.pdies p).contains die).foldl (fun s p => s.losePart p.id) s = u at hl1 hl2
  obtain ⟨hb1, hb2⟩ := foldl_backOut (u.dev.reloc.filter fun r => r.q == die) u
  have ha : afterLoss s die = (u.dev.reloc.filter fun r => r.q == die).foldl State.backOut u := by rw [← hu]; rfl
  rw [← ha] at hb1 hb2
  have hc : ¬(4 ≤ die ∨ s.dev.lostDies.contains die = true) := by simp [hn, h4]
  have hlow := (hl1.trans hb1).low
  refine ⟨{ (afterLoss s die).lockToward die with dev := { ((afterLoss s die).lockToward die).dev with
    lostDies := ((afterLoss s die).lockToward die).dev.lostDies ++ [die]
    ports := (List.range (portCount die)).foldl (fun t k => sput 8 t (portKey die k) 0) ((afterLoss s die).lockToward die).dev.ports
    links := if die = 0 ∨ die = 3 then sput 2 ((afterLoss s die).lockToward die).dev.links 16 (sget 2 ((afterLoss s die).lockToward die).dev.links 16 - 1)
      else ((afterLoss s die).lockToward die).dev.links } }, congrArg Host.Outcome.next (if_neg hc),
    List.mem_append_right _ (.head _), fun d hd hne h => ?_, fun p hp hd x hx => ?_, fun r hr he => ?_, fun h p hp => ?_, fun k hk => foldl_ports _ _ _ hk⟩
  · refine lockEnds_locks (List.nodup_range.filter _) _ (List.mem_filter.2 ⟨List.mem_range.2 hd, by simpa using hne⟩) ?_
    rw [hlow _ 1 (by decide), h]
  · obtain ⟨y, hy, he⟩ := hb1.ids x hx
    rw [← he]
    exact (hl2 y hy).2 p (List.mem_filter.2 ⟨hp, hd⟩)
  · exact hb2 r (List.mem_filter.2 ⟨hb1.reloc r hr, beq_iff_eq.2 he⟩) r hr rfl
  · have hnil : (u.dev.reloc.filter fun r => r.q == die) = [] :=
      List.filter_eq_nil_iff.2 fun r hr => by simpa using h r (hl1.reloc r hr)
    rw [hnil] at ha
    have hq : p ∈ (afterLoss s die).parts := hp
    rw [ha] at hq
    exact (hl2 p hq).1

/-! ### Lanes and pages -/

theorem hbmFailure_retires (s : State) (die base size : Nat) : ∃ t : State, exec (.hbmFailure die base size) s = .next t ∧
    t.dev = { s.dev with retiredPages := s.dev.retiredPages ++ [(die * 0x4000000000 + base, size)] } ∧
    ∀ e ∈ t.tlb, e ∈ s.tlb ∧ (pteAddr e.leaf + 2 ^ e.size ≤ die * 0x4000000000 + base ∨ die * 0x4000000000 + base + size ≤ pteAddr e.leaf) := by
  refine ⟨_, rfl, rfl, fun e he => ?_⟩
  obtain ⟨h1, h2⟩ := List.mem_filter.1 he
  refine ⟨h1, ?_⟩
  simp only [Bool.not_eq_true', Bool.and_eq_false_iff, decide_eq_false_iff_not, Nat.not_lt] at h2
  exact h2.symm
theorem linkLaneRetrain_takes {s : State} {die f : Nat} (h : die < f) (h4 : f < 4) (hn : sget 2 s.dev.links (linkKey die f) ≠ 0) :
    ∃ t : State, exec (.linkLaneRetrain die f) s = .next t ∧
      sget 2 t.dev.links (linkKey die f) = sget 2 s.dev.links (linkKey die f) - 1 ∧ t = { s with dev := t.dev } := by
  have hk : linkKey (min die f) (max die f) = linkKey die f := by rw [Nat.min_eq_left (Nat.le_of_lt h), Nat.max_eq_right (Nat.le_of_lt h)]
  refine ⟨_, congrArg Host.Outcome.next (if_neg ?_), ?_, rfl⟩
  · rw [hk]
    omega
  · dsimp only
    rw [hk, sget_sput_self]
theorem spanLaneLoss_halves {s : State} {die port : Nat} (h : port < portCount die) (hn : sget 8 s.dev.ports (portKey die port) ≠ 0) :
    ∃ t : State, exec (.spanLaneLoss die port) s = .next t ∧ sget 8 t.dev.ports (portKey die port) = 4 ∧ t = { s with dev := t.dev } :=
  ⟨_, congrArg Host.Outcome.next (if_neg (by omega)), sget_sput_self .., rfl⟩

/-! ### O52 -/

/-- Settles O52, a clause at a time. -/
theorem firmwareEvents : Obligations.FirmwareEvents := by
  unfold Obligations.FirmwareEvents
  refine fun s => ⟨fun h => ?_, fun image sig version h => ?_, fun nonce h => congrArg Host.Outcome.next (if_neg fun k => k h),
    fun vf v hv => ⟨tdispLock_locks hv, startInterface_runs hv, fun p => stopInterface_scrubs hv⟩, fun k => partitionSetup_adds,
    fun id part root d => addressSpaceCreate_adds, fun id a => addressSpaceDestroy_drops, fun part aspace addr target p ws r a => tenantRcbInstall_top,
    fun part p q k hk => ⟨relocation_preCopy hk, relocation_stop hk, relocation_finalCopy hk, relocation_rewrite hk, fun d => relocation_resume hk⟩,
    fun part p ring entries hp hr h8 h0 h1 h2 => ⟨liveMigrationRound_round hp hr h8 h0 h1 h2, liveMigrationRound_final hp hr h8 h0 h1 h2⟩,
    fun part p m dest hp hr => liveMigrationRound_stop hp hr, fun part p dev package sig k => migrationPackageImport_sessions,
    fun die => dieLoss_loses, fun die base size => hbmFailure_retires s die base size, fun die f => linkLaneRetrain_takes,
    fun die port => spanLaneLoss_halves⟩
  · refine congrArg Host.Outcome.next ((if_neg fun k => k h).trans ?_)
    cases s.dev.image <;> rfl
  · exact congrArg Host.Outcome.next (if_neg fun k => k h)

end Sys2Proof.Machine.Claim
end

section
/-! What keeps the canonical form of memory: the results of the model's functions, and the ways they are put together. The laws that
follow say of each function of the model that it does, a law for each, under the name of its function. -/
namespace Sys2Proof.Machine

/-- A next state, if there is one, has its memory in canonical form. -/
def NextOk : Host.Outcome State Fault Refusal → Prop
  | .next s => s.memOk
  | .fault _ | .refused _ => True
/-- A state, if there is one, has its memory in canonical form. -/
def SomeOk : Option State → Prop
  | some s => s.memOk
  | none => True
/-- Where memory is written, or the write faults. -/
def RightOk {α : Type} : α ⊕ State → Prop
  | .inr s => s.memOk
  | .inl _ => True

/-- What a fetch leaves has its memory in canonical form. -/
def FetchOk : Fetched → Prop
  | .done s | .instr _ s => s.memOk

theorem NextOk.next {r : Host.Outcome State Fault Refusal} {t : State} (h : NextOk r) (e : r = .next t) : t.memOk := by
  rw [e] at h
  exact h

/-- A state written out, as an update leaves it: only its memory matters. -/
theorem State.memOk_mk {now turn plan freeCtr uid rotor mem tags spd spdTags chp chpTags written stores l1 icopies own hostLines hostReqs
    hostHeld early hdr ptrs tlb aspaces parts who grp groups blocks launches rcbs jobs wins queues nodes cards matchTab
    unmatched cmds waiters recs tiles units work outs dev}
    (h : Memory.wf mem = true) :
    (State.mk now turn plan freeCtr uid rotor mem tags spd spdTags chp chpTags written stores l1 icopies own hostLines hostReqs
    hostHeld early hdr ptrs tlb aspaces parts who grp groups blocks launches rcbs jobs wins queues nodes cards matchTab
    unmatched cmds waiters recs tiles units work outs dev).memOk := h

section
variable {α β : Type} {c : Prop} [Decidable c]
theorem memOk_ite {s t : State} (hs : s.memOk) (ht : t.memOk) : (if c then s else t).memOk := by
  split
  · exact hs
  · exact ht
theorem nextOk_ite {r q : Host.Outcome State Fault Refusal} (hr : NextOk r) (hq : NextOk q) : NextOk (if c then r else q) := by
  split
  · exact hr
  · exact hq
theorem someOk_ite {r q : Option State} (hr : SomeOk r) (hq : SomeOk q) : SomeOk (if c then r else q) := by
  split
  · exact hr
  · exact hq
theorem rightOk_ite {r q : α ⊕ State} (hr : RightOk r) (hq : RightOk q) : RightOk (if c then r else q) := by
  split
  · exact hr
  · exact hq
theorem fetchOk_ite {r q : Fetched} (hr : FetchOk r) (hq : FetchOk q) : FetchOk (if c then r else q) := by
  split
  · exact hr
  · exact hq
theorem snd_ite {p q : α × State} (hp : p.2.memOk) (hq : q.2.memOk) : (if c then p else q).2.memOk := by
  split
  · exact hp
  · exact hq
theorem snd2_ite {p q : α × β × State} (hp : p.2.2.memOk) (hq : q.2.2.memOk) : (if c then p else q).2.2.memOk := by
  split
  · exact hp
  · exact hq
omit [Decidable c]
theorem someOk_map {o : Option State} {f : State → State} (h : SomeOk o) (hf : ∀ t, t.memOk → (f t).memOk) : SomeOk (o.map f) := by
  cases o with
  | none => trivial
  | some t => exact hf t h
theorem snd_of_eq {p : α × State} {a : α} {t : State} (e : p = (a, t)) (h : p.2.memOk) : t.memOk := by
  rw [e] at h
  exact h
theorem snd2_of_eq {p : α × β × State} {a : α} {b : β} {t : State} (e : p = (a, b, t)) (h : p.2.2.memOk) : t.memOk := by
  rw [e] at h
  exact h
theorem some_of_eq {o : Option State} {t : State} (e : o = some t) (h : SomeOk o) : t.memOk := by
  rw [e] at h
  exact h
theorem right_of_eq {o : α ⊕ State} {t : State} (e : o = .inr t) (h : RightOk o) : t.memOk := by
  rw [e] at h
  exact h
theorem foldl_snd {f : β × State → α → β × State} (hf : ∀ p x, p.2.memOk → (f p x).2.memOk) (l : List α) {p : β × State} (h : p.2.memOk) :
    (l.foldl f p).2.memOk := by
  induction l generalizing p with
  | nil => exact h
  | cons x r ih => exact ih (hf p x h)
theorem foldr_snd {f : α → β × State → β × State} (hf : ∀ x p, p.2.memOk → (f x p).2.memOk) (l : List α) {p : β × State} (h : p.2.memOk) :
    (l.foldr f p).2.memOk := by
  induction l with
  | nil => exact h
  | cons x r ih => exact hf x _ ih
end

end Sys2Proof.Machine
end

section
/-! Memory, host memory and the paths keep the canonical form of memory. -/
namespace Sys2Proof.Machine

section
variable {s : State} (hs : s.memOk)
include hs

/-! ### State -/


/-! ### Store -/


/-! ### PathTable -/


/-! ### Mem -/

theorem State.countDrop_memOk (die f addr : Nat) : (s.countDrop die f addr).memOk := memOk_ite (State.memOk_mk hs) (State.memOk_mk hs)

theorem State.dropFrom_memOk (pdie pa : Nat) : (s.dropFrom pdie pa).memOk := by
  unfold State.dropFrom
  split
  · exact memOk_ite hs (State.countDrop_memOk hs ..)
  all_goals exact hs

theorem State.modPart_memOk (id : Nat) (f : Partition → Partition) : (s.modPart id f).memOk := State.memOk_mk hs

theorem State.modGroups_memOk (p : Group → Bool) (f : Group → Group) : (s.modGroups p f).memOk := State.memOk_mk hs

theorem State.modGrp_memOk (blk grp : Nat) (f : Group → Group) : (s.modGrp blk grp f).memOk := State.modGroups_memOk hs ..

theorem State.setLine_memOk (core line : Nat) (st : LineSt) : (s.setLine core line st).memOk := State.memOk_mk hs

theorem State.emit_memOk (o : Out) : (s.emit o).memOk := State.memOk_mk hs

theorem State.disownLine_memOk (core line : Nat) : (s.disownLine core line).memOk := State.memOk_mk hs

theorem State.dropLine_memOk (core line : Nat) : (s.dropLine core line).memOk := State.memOk_mk hs

theorem State.snoopData_memOk (core line : Nat) : (s.snoopData core line).memOk := by
  unfold State.snoopData
  split
  · exact hs
  · exact hs
  · exact State.setLine_memOk (State.disownLine_memOk hs ..) ..
  · exact State.setLine_memOk (State.disownLine_memOk (State.emit_memOk hs ..) ..) ..

theorem State.snoopInv_memOk (core line : Nat) : (s.snoopInv core line).memOk :=
  memOk_ite (memOk_ite (State.emit_memOk hs ..) hs)
    (State.setLine_memOk (State.dropLine_memOk (State.disownLine_memOk (memOk_ite (State.emit_memOk hs ..) hs) ..) ..) ..)

theorem State.askShared_memOk (core line : Nat) : (s.askShared core line).memOk :=
  State.memOk_mk (State.setLine_memOk (State.foldl_memOk (fun _ _ hs1 => State.snoopData_memOk hs1 ..) _ (State.emit_memOk hs ..)) ..)

theorem State.askOwn_memOk (core line : Nat) : (s.askOwn core line).memOk := by
  unfold State.askOwn
  split
  · exact hs
  · exact State.setLine_memOk hs ..
  · exact State.memOk_mk (State.setLine_memOk
      (State.foldl_memOk (fun _ _ hs1 => State.snoopInv_memOk hs1 ..) _ (State.emit_memOk hs ..)) ..)
  · exact State.memOk_mk (State.setLine_memOk
      (State.foldl_memOk (fun _ _ hs1 => State.snoopInv_memOk hs1 ..) _ (State.emit_memOk hs ..)) ..)

theorem State.ownLine_memOk (core line : Nat) : (s.ownLine core line).memOk := by
  unfold State.ownLine
  split
  · exact hs
  · exact hs
  · exact State.askOwn_memOk hs ..
  · exact State.askOwn_memOk hs ..

theorem State.snoopAll_memOk (line : Nat) : (s.snoopAll line).memOk := State.foldl_memOk (fun _ _ hs1 => State.snoopInv_memOk hs1 ..) _ hs

theorem State.evictLine_memOk (core line : Nat) : (s.evictLine core line).memOk := by
  unfold State.evictLine
  refine State.setLine_memOk ?_ ..
  refine State.dropLine_memOk ?_ ..
  refine State.disownLine_memOk ?_ ..
  refine memOk_ite ?_ hs
  split
  · exact hs
  all_goals exact State.emit_memOk hs ..

theorem State.fitL1_memOk (core w : Nat) : (s.fitL1 core w).memOk :=
  memOk_ite hs (State.foldl_memOk (fun _ _ hs1 => State.evictLine_memOk hs1 ..) _ hs)

theorem State.wakeSector_memOk (sector : Nat) (by_ : Option Writer) : (s.wakeSector sector by_).memOk := State.modGroups_memOk hs ..

theorem State.backInvalidate_memOk (w : Nat) : (s.backInvalidate w).memOk := memOk_ite (State.memOk_mk hs) hs

theorem State.freshHeader_memOk (core w : Nat) : (s.freshHeader core w).memOk := State.memOk_mk hs

theorem State.takeOwn_memOk (core w : Nat) : (s.takeOwn core w).memOk :=
  State.fitL1_memOk (State.freshHeader_memOk (State.memOk_mk hs) ..) ..

theorem State.dropCopy_memOk (core w : Nat) : (s.dropCopy core w).memOk := memOk_ite hs (State.freshHeader_memOk (State.memOk_mk hs) ..)

theorem State.orderStores_memOk : s.orderStores.memOk := State.memOk_mk hs

theorem State.setSpd_memOk (w : Nat) (x : Val) : (s.setSpd w x).memOk := State.memOk_mk hs

theorem State.setChp_memOk (w : Nat) (x : Val) : (s.setChp w x).memOk := State.memOk_mk hs

theorem State.clearSpd_memOk (lo n : Nat) : (s.clearSpd lo n).memOk := State.memOk_mk hs

theorem State.setBank_memOk (b : Bank) (w : Nat) (x : Val) : (s.setBank b w x).memOk := by
  unfold State.setBank
  split
  · exact State.setSpd_memOk hs ..
  · exact State.setChp_memOk hs ..

theorem State.putBank_memOk (by_ : Option Writer) (b : Bank) (w : Nat) (x : Val) : (s.putBank by_ b w x).memOk :=
  State.wakeSector_memOk (State.setBank_memOk hs ..) ..

theorem State.drainAcross_memOk (ends : List (Nat × Nat)) : (s.drainAcross ends).memOk := State.drain_memOk hs ..

theorem State.acquire_memOk (core : Nat) : (s.acquire core).memOk := State.memOk_mk hs

theorem State.evict_memOk (core : Nat) : (s.evict core).memOk :=
  State.memOk_mk (State.acquire_memOk (State.foldl_memOk (fun _ _ hs1 => State.evictLine_memOk hs1 ..) _ hs) ..)

theorem State.fillSector_memOk (core w : Nat) : (s.fillSector core w).memOk := by
  unfold State.fillSector
  refine State.fitL1_memOk ?_ ..
  refine State.foldl_memOk (fun _ _ hs1 => ?_) _ (memOk_ite (State.askShared_memOk hs ..) hs)
  split
  · exact hs1
  · exact State.memOk_mk hs1

theorem State.pin_memOk (me : Writer) (w : Nat) : (s.pin me w).memOk := memOk_ite (State.memOk_mk (State.drain_memOk hs ..)) hs

theorem State.loadWord_memOk (me : Writer) (w : Nat) : (s.loadWord me w).2.memOk := by
  dsimp only [State.loadWord]
  exact State.pin_memOk (State.fillSector_memOk hs ..) ..

theorem State.loseEarly_memOk (blk grp : Nat) (m : Mask) (q : Ahead → Bool) : (s.loseEarly blk grp m q).memOk := State.memOk_mk hs

theorem State.passWords_memOk (me : Writer) (sp w n : Nat) : (s.passWords me sp w n).memOk := State.loseEarly_memOk hs ..

theorem State.renew_memOk (blk grp : Nat) (m : Mask) : (s.renew blk grp m).memOk := State.loseEarly_memOk hs ..

theorem State.acquireFor_memOk (core blk grp : Nat) (m : Mask) : (s.acquireFor core blk grp m).memOk :=
  State.renew_memOk (State.acquire_memOk hs ..) ..

theorem State.fillTlb_memOk (n : TlbEntry) : (s.fillTlb n).memOk := State.memOk_mk hs

theorem State.keepPtrs_memOk (ps : List PtrEntry) : (s.keepPtrs ps).memOk := State.memOk_mk hs

theorem State.walkDie_memOk (die aspace va : Nat) : (s.walkDie die aspace va).2.memOk := by
  unfold State.walkDie
  dsimp only
  split
  · exact State.dropFrom_memOk (State.keepPtrs_memOk hs ..) ..
  all_goals exact State.keepPtrs_memOk hs ..

theorem State.translate_memOk (core aspace va : Nat) : (s.translate core aspace va).2.memOk := by
  have hw := State.walkDie_memOk hs (core / 72) aspace va
  unfold State.translate
  split
  · exact hs
  · split
    · next heq =>
        rw [heq] at hw
        exact State.fillTlb_memOk hw ..
    · exact hw

theorem State.tlbi_memOk (aspace : Nat) (va : Option Nat) : (s.tlbi aspace va).memOk := State.memOk_mk hs

/-! ### Operands -/

theorem State.modBlk_memOk (id : Nat) (f : Block → Block) : (s.modBlk id f).memOk := State.memOk_mk hs

/-! ### Rings -/

theorem State.ringDrop_memOk (part die q widx : Nat) : (s.ringDrop part die q widx).memOk := memOk_ite (State.dropFrom_memOk hs ..) hs

theorem State.refuse_memOk (what : Nat) : (s.refuse what).memOk := State.emit_memOk hs ..

theorem State.raiseVec_memOk (fn v : Nat) : (s.raiseVec fn v).memOk := memOk_ite hs (State.emit_memOk hs ..)

theorem State.trace_memOk (part : Nat) (r : TraceRec) : (s.trace part r).memOk := by
  unfold State.trace
  split
  · exact hs
  · exact memOk_ite hs (memOk_ite (State.putNat_memOk (State.modPart_memOk (State.ringDrop_memOk hs ..) ..) ..)
      (memOk_ite (State.raiseVec_memOk (State.putNat_memOk (State.modPart_memOk (State.putBytes_memOk hs ..) ..) ..) ..)
        (State.putNat_memOk (State.modPart_memOk (State.putBytes_memOk hs ..) ..) ..)))

theorem State.setCue_memOk (die : Nat) (w : Word) : (s.setCue die w).memOk := State.memOk_mk hs

theorem State.setCapture_memOk (on : Bool) : (s.setCapture on).memOk := State.memOk_mk hs

theorem State.cueA_memOk (die : Nat) : (s.cueA die).memOk := memOk_ite (State.memOk_mk (State.setCue_memOk hs ..)) hs

theorem State.cueB_memOk (die : Nat) : (s.cueB die).memOk :=
  memOk_ite (memOk_ite (State.setCapture_memOk (State.setCue_memOk (State.memOk_mk hs) ..) ..) (State.memOk_mk hs)) hs

theorem State.cuePulse_memOk (line : Nat) : (s.cuePulse line).memOk :=
  State.foldl_memOk (fun _ _ hs1 => memOk_ite (State.cueB_memOk (memOk_ite (State.cueA_memOk hs1 ..) hs1) ..)
    (memOk_ite (State.cueA_memOk hs1 ..) hs1)) _ hs

theorem State.pulseN_memOk (n : Nat) (from_ : Option Nat) (line : Nat) (r : TraceRec) : (State.pulseN n s from_ line r).memOk := by
  induction n generalizing s from_ line r with
  | zero => exact hs
  | succ n ih =>
    unfold State.pulseN
    refine memOk_ite hs (State.foldl_memOk (fun _ _ hs1 => State.foldl_memOk (fun _ _ hs2 => ih hs2 ..) _ hs1) _ (State.memOk_mk ?_))
    refine State.foldl_memOk (fun _ _ hs1 => memOk_ite (State.setCapture_memOk hs1 ..) hs1) _
      (State.cuePulse_memOk (State.memOk_mk ?_) ..)
    exact State.foldl_memOk (fun _ _ hs1 => State.trace_memOk hs1 ..) _ (State.memOk_mk hs)

theorem State.pulse_memOk (from_ : Option Nat) (line : Nat) (by_ : TraceRec) : (s.pulse from_ line by_).memOk := State.pulseN_memOk hs ..

theorem State.pulseSrc_memOk (from_ : Option Nat) (src : Nat) (by_ : TraceRec) : (s.pulseSrc from_ src by_).memOk :=
  State.foldl_memOk (fun _ _ hs1 => State.pulse_memOk hs1 ..) _ hs

theorem State.ringWrite_memOk (p : Partition) (r : FaultRec) : (s.ringWrite p r).memOk :=
  State.pulseSrc_memOk (memOk_ite
    (State.raiseVec_memOk (State.putNat_memOk (State.modPart_memOk (State.putBytes_memOk hs ..) ..) ..) ..)
      (State.putNat_memOk (State.modPart_memOk (State.putBytes_memOk hs ..) ..) ..)) ..

theorem State.record_memOk (part : Nat) (r : FaultRec) : (s.record part r).memOk := by
  unfold State.record
  split
  · exact hs
  · exact memOk_ite (State.putNat_memOk (State.modPart_memOk (State.ringDrop_memOk hs ..) ..) ..) (State.ringWrite_memOk hs ..)

theorem State.flushRecs_memOk (part : Nat) (l : List PendRec) : (State.flushRecs part l s).2.memOk := by
  induction l generalizing s with
  | nil => exact hs
  | cons r rest ih =>
    rw [State.flushRecs]
    split
    · exact hs
    · exact snd_ite (ih (State.ringWrite_memOk hs ..)) (ih hs)

theorem State.recordRoom_memOk (part : Nat) : (s.recordRoom part).memOk := State.memOk_mk (State.flushRecs_memOk hs ..)

theorem State.recordMiss_memOk (part : Nat) (r : FaultRec) (who : AgentId) : (s.recordMiss part r who).2.memOk :=
  State.recordRoom_memOk (State.memOk_mk hs) ..

theorem State.freeze_memOk (b : Block) : (s.freeze b).memOk := State.memOk_mk hs

theorem State.thaw_memOk (b : Block) : (s.thaw b).memOk := by
  unfold State.thaw
  refine memOk_ite hs ?_
  refine State.memOk_mk ?_
  refine State.foldl_memOk (fun _ _ hs1 => ?_) _ hs
  split
  · exact State.modGroups_memOk hs1 ..
  · exact hs1

theorem State.hold_memOk (blk grp : Nat) (slot : Bool) (cause : Nat) (value : Word) (brk : Bool) :
    (s.hold blk grp slot cause value brk).memOk := by
  unfold State.hold
  split
  · exact hs
  · split
    · exact hs
    · refine memOk_ite hs ?_
      dsimp only
      split
      · exact State.freeze_memOk (State.pulseSrc_memOk (State.trace_memOk (State.modGrp_memOk hs ..) ..) ..) ..
      · exact State.pulseSrc_memOk (State.trace_memOk (State.modGrp_memOk hs ..) ..) ..

theorem State.unhold_memOk (blk grp : Nat) (slot : Bool) (flags : Nat) : (s.unhold blk grp slot flags).memOk := by
  unfold State.unhold
  split
  · exact hs
  · split
    · exact hs
    · dsimp only
      split
      · exact State.thaw_memOk (State.modGrp_memOk (State.pulseSrc_memOk (State.trace_memOk hs ..) ..) ..) ..
      · exact State.modGrp_memOk (State.pulseSrc_memOk (State.trace_memOk hs ..) ..) ..

theorem State.endHoldsOf_memOk (g : Group) (flags : Nat) (ps : List (Bool × Option Path)) : (s.endHoldsOf g flags ps).memOk := by
  unfold State.endHoldsOf
  refine State.foldl_memOk (fun _ _ hs1 => ?_) _ hs
  split
  · exact memOk_ite (State.pulseSrc_memOk (State.trace_memOk hs1 ..) ..) hs1
  · exact hs1

theorem State.endHolds_memOk (id flags : Nat) : (s.endHolds id flags).memOk :=
  State.foldl_memOk (fun _ _ hs1 => State.endHoldsOf_memOk hs1 ..) _ hs

theorem State.countIdle_memOk (dt : Nat) : (s.countIdle dt).memOk := State.memOk_mk hs

theorem State.countEvents_memOk : s.countEvents.memOk := by
  unfold State.countEvents
  dsimp only
  split
  · exact hs
  · exact State.memOk_mk hs

theorem State.countIssue_memOk (p : Path) (act : Mask) : (s.countIssue p act).memOk := by
  unfold State.countIssue
  split
  · exact hs
  · exact memOk_ite hs (State.memOk_mk hs)

/-! ### Ops -/

theorem State.freeWaiter_memOk (w : Waiter) : (s.freeWaiter w).memOk :=
  State.memOk_mk (memOk_ite (State.regWord_memOk hs ..) (State.memOk_mk hs))

theorem State.freeWaiters_memOk (q : Waiter → Bool) : (s.freeWaiters q).memOk := by
  unfold State.freeWaiters
  refine State.foldl_memOk (fun _ _ hs1 => ?_) _ hs
  split
  · exact State.freeWaiter_memOk hs1 ..
  · exact hs1

theorem State.account_memOk (pid job own charge more less : Nat) : (s.account pid job own charge more less).memOk := State.memOk_mk hs

theorem State.charge_memOk (pid job own e : Nat) : (s.charge pid job own e).memOk := State.account_memOk (State.memOk_mk hs) ..

theorem State.voidReserved_memOk (blk grp : Nat) : (s.voidReserved blk grp).memOk := State.memOk_mk hs

theorem State.stopBlock_memOk (id : Nat) (r : FaultRec) : (s.stopBlock id r).memOk := by
  unfold State.stopBlock
  split
  · exact hs
  · exact memOk_ite hs (State.thaw_memOk
      (State.modBlk_memOk (State.modGroups_memOk
        (State.endHolds_memOk (State.memOk_mk
          (State.foldl_memOk (fun _ _ hs1 => State.voidReserved_memOk hs1 ..) _ (State.freeWaiters_memOk hs ..))) ..) ..) ..) ..)

theorem State.haltLaunches_memOk (ls : List Nat) : (s.haltLaunches ls).memOk :=
  State.memOk_mk (State.foldl_memOk (fun _ _ hs1 => State.account_memOk hs1 ..) _ hs)

theorem State.killBlock_memOk (id : Nat) (r : FaultRec) : (s.killBlock id r).memOk := by
  unfold State.killBlock
  split
  · exact hs
  · exact memOk_ite (State.stopBlock_memOk hs ..)
      (State.haltLaunches_memOk (State.foldl_memOk (fun _ _ hs1 => State.stopBlock_memOk hs1 ..) _ (State.stopBlock_memOk hs ..)) ..)

theorem State.acquireMe_memOk (p : Path) : (s.acquireMe p).memOk := State.acquireFor_memOk hs ..

theorem State.setGrp_memOk (f : Group → Group) : (s.setGrp f).memOk := State.memOk_mk hs

theorem State.next_memOk (b : Bool) : (s.next b).memOk := State.setGrp_memOk hs ..

theorem State.locateGlb_memOk (p : Path) (lan : Bool) (need : Need) (va : Nat) : (s.locateGlb p lan need va).2.memOk := by
  unfold State.locateGlb
  split
  · next t heq =>
      have ht := snd_of_eq heq (State.translate_memOk hs ..)
      exact ht
  · next t heq =>
      have ht := snd_of_eq heq (State.translate_memOk hs ..)
      exact ht
  · next t heq =>
      have ht := snd_of_eq heq (State.translate_memOk hs ..)
      exact ht
  · next t heq =>
      have ht := snd_of_eq heq (State.translate_memOk hs ..)
      exact snd_ite ht (snd_ite (State.dropFrom_memOk ht ..) ht)

theorem State.readHome_memOk (me : Writer) (h : Home) : (s.readHome me h).2.memOk := by
  unfold State.readHome
  split
  · refine snd_ite ?_ ?_
    · split
      · exact hs
      · exact State.dropCopy_memOk (State.drainFor_memOk hs ..) ..
    · split
      · exact hs
      · exact State.loadWord_memOk hs ..
  · exact hs
  · split
    · exact hs
    · exact State.drainFor_memOk hs ..

theorem State.leaveHandler_memOk (blk grp : Nat) (st : GroupSt) : (s.leaveHandler blk grp st).memOk := by
  unfold State.leaveHandler
  dsimp only
  split
  · refine State.thaw_memOk ?_ ..
    refine State.modGrp_memOk ?_ ..
    refine State.memOk_mk ?_
    refine State.renew_memOk ?_ ..
    refine State.freeWaiters_memOk ?_ ..
    split
    · exact State.endHoldsOf_memOk hs ..
    · exact hs
  · refine State.modGrp_memOk ?_ ..
    refine State.memOk_mk ?_
    refine State.renew_memOk ?_ ..
    refine State.freeWaiters_memOk ?_ ..
    split
    · exact State.endHoldsOf_memOk hs ..
    · exact hs

theorem State.handlerFault_memOk (b : Bool) (p : Path) (k : Face) (cause : BitVec 8) (faddr : Word) :
    (s.handlerFault b p k cause faddr).memOk :=
  memOk_ite (State.leaveHandler_memOk (State.record_memOk hs ..) ..) (State.killBlock_memOk hs ..)

theorem State.takeTrap_memOk (k : Face) (cause : BitVec 8) (faddr tcode : Word) (T : Mask) (again : Bool) :
    (s.takeTrap k cause faddr tcode T again).memOk := by
  unfold State.takeTrap
  split
  · exact hs
  · refine memOk_ite (State.handlerFault_memOk hs ..) ?_
    refine memOk_ite (State.killBlock_memOk hs ..) ?_
    dsimp only
    split
    · exact State.killBlock_memOk hs ..
    · exact State.memOk_mk hs

theorem State.trap_memOk (i : Instr) (cause : BitVec 8) (faddr : Word) (T : Mask) : (s.trap i cause faddr T).memOk :=
  State.takeTrap_memOk hs ..

theorem State.trapHere_memOk (i : Instr) (cause : BitVec 8) : (s.trapHere i cause).memOk := by
  unfold State.trapHere
  split
  · exact hs
  · exact State.trap_memOk hs ..

theorem State.missAll_memOk (b : Bool) (p : Path) (fetch : Bool) (l : List (Nat × Nat × Mask × Bool)) :
    (State.missAll b p fetch l s).2.memOk := by
  induction l generalizing s with
  | nil => exact hs
  | cons x r ih => exact ih (State.recordMiss_memOk hs ..)

theorem State.replay_memOk (b : Bool) (redo : Redo) (miss : List (Nat × Nat × Mask × Bool)) (fetch : Bool) :
    (s.replay b redo miss fetch).memOk := by
  unfold State.replay
  split
  · exact hs
  · exact State.setGrp_memOk (State.missAll_memOk hs ..) ..

theorem State.readEntry_memOk (p : Path) (va : Nat) : (s.readEntry p va).2.memOk := by
  unfold State.readEntry
  refine snd_ite hs ?_
  split
  · next t heq =>
      have ht := snd_of_eq heq (State.locateGlb_memOk hs ..)
      exact ht
  · next t heq =>
      have ht := snd_of_eq heq (State.locateGlb_memOk hs ..)
      exact ht
  · next t heq =>
      have ht := snd_of_eq heq (State.locateGlb_memOk hs ..)
      exact State.readHome_memOk ht ..

theorem State.readEntries_memOk (p : Path) (dead : Dead) (l : List Raise) : (State.readEntries p dead l s).2.memOk := by
  induction l generalizing s with
  | nil => exact hs
  | cons r rs ih => exact ih (snd_ite hs (State.readEntry_memOk hs ..))

theorem State.dispatch_memOk (p : Path) (dead : Dead) (rs : List Raise) : (s.dispatch p dead rs).2.memOk := State.readEntries_memOk hs ..

theorem State.raiseClasses_memOk (b : Bool) (k : Face) (act : Mask) (dead : Dead) (rs : List Raise)
    (stop : Option (Mask × BitVec 8 × Word)) :
    (s.raiseClasses b k act dead rs stop).memOk := by
  unfold State.raiseClasses
  split
  · exact State.next_memOk hs ..
  · exact State.takeTrap_memOk hs ..
  · split
    · exact hs
    · split
      · next t heq =>
          have ht := snd_of_eq heq (State.dispatch_memOk hs ..)
          exact State.replay_memOk (memOk_ite ht (State.setGrp_memOk ht ..)) ..
      · next t heq =>
          have ht := snd_of_eq heq (State.dispatch_memOk hs ..)
          dsimp only
          split
          · split
            · exact State.memOk_mk (memOk_ite (State.setGrp_memOk ht ..) ht)
            · exact State.takeTrap_memOk (memOk_ite (State.setGrp_memOk ht ..) ht) ..
          · refine memOk_ite (State.handlerFault_memOk (memOk_ite (State.setGrp_memOk ht ..) ht) ..) ?_
            refine memOk_ite (State.killBlock_memOk (memOk_ite (State.setGrp_memOk ht ..) ht) ..) ?_
            split
            · exact State.memOk_mk (memOk_ite (State.setGrp_memOk ht ..) ht)
            · exact State.killBlock_memOk (memOk_ite (State.setGrp_memOk ht ..) ht) ..

theorem State.useUnit_memOk (u : FUnit) : (s.useUnit u).memOk := State.memOk_mk hs

theorem State.worked_memOk (blk core n : Nat) : (s.worked blk core n).memOk := by
  unfold State.worked
  split
  · exact State.memOk_mk hs
  · exact hs

theorem State.issued_memOk (i : Instr) (sc : Sched) (gd : Guard) (ix : BitVec 3) (b : Bool) (p : Path) :
    (s.issued i sc gd ix b p).state.memOk := by
  have hg (f f' : Group → Group) : ((s.setGrp f).setGrp f').memOk := State.setGrp_memOk (State.setGrp_memOk hs ..) ..
  unfold State.issued
  exact State.setGrp_memOk (memOk_ite (State.worked_memOk (State.useUnit_memOk (State.countIssue_memOk (hg ..) ..) ..) ..) (hg ..)) ..

theorem issueAs_memOk {i : Instr} {sc : Sched} {gd : Guard} {ix : BitVec 3} {body : Bool → Path → Mask → State → State}
    (hk : ∀ b p act t, t.memOk → (body b p act t).memOk) : (issueAs i sc gd ix s body).memOk := by
  have hg := State.setGrp_memOk hs fun g => g.settle s.now
  have hf : ∀ (p : Path) (c : BitVec 8), (State.trapHere (if p.first then s.setGrp fun g => g.settle s.now else
      (s.setGrp fun g => g.settle s.now).setGrp fun g => g.lowerCtr sc.cnt) i c).memOk := fun p c =>
    State.trapHere_memOk (memOk_ite hg (State.setGrp_memOk hg ..)) ..
  unfold issueAs
  split
  · exact hs
  · dsimp only
    split
    · exact hf ..
    · refine memOk_ite (hf ..) ?_
      split
      · exact State.setGrp_memOk hg ..
      · exact hk _ _ _ _ (State.issued_memOk hs ..)

theorem issue_memOk {i : Instr} {c : Ctl} {body : Bool → Path → Mask → State → State} (hk : ∀ a b c t, t.memOk → (body a b c t).memOk) :
    (issue i c s body).memOk := issueAs_memOk hs (fun _ _ _ _ hs1 => hk _ _ _ _ hs1) ..

theorem issueU_memOk {i : Instr} {c : UCtl} {body : Bool → Path → Mask → State → State} (hk : ∀ a b c t, t.memOk → (body a b c t).memOk) :
    (issueU i c s body).memOk := issueAs_memOk hs (fun _ _ _ _ hs1 => hk _ _ _ _ hs1) ..

theorem State.changed_memOk (b : Bool) : (s.changed b).memOk := State.setGrp_memOk hs ..

theorem State.loaded_memOk (b : Bool) (sector : Nat) : (s.loaded b sector).memOk := State.setGrp_memOk hs ..

theorem State.retire_memOk (b : Bool) (sc : Sched) (lat : Lat) (act : Mask) (ws : List RegWrite) : (s.retire b sc lat act ws).memOk :=
  State.setGrp_memOk (memOk_ite hs (State.changed_memOk hs ..)) ..

theorem State.retirePart_memOk (b : Bool) (sc : Sched) (lat : Lat) (act : Mask) (ws : List RegWrite) :
    (s.retirePart b sc lat act ws).memOk := memOk_ite hs (State.setGrp_memOk (memOk_ite hs (State.changed_memOk hs ..)) ..)

theorem State.trapPath_memOk (i : Instr) (sc : Sched) (cause : BitVec 8) (faddr : Word) (T : Mask) :
    (s.trapPath i sc cause faddr T).memOk := State.trap_memOk (State.setGrp_memOk hs ..) ..

theorem State.spend_memOk (sc : Sched) : (s.spend sc).memOk := State.setGrp_memOk hs ..

theorem State.finish_memOk (b : Bool) (sc : Sched) (lat : Lat) (act : Mask) (ws : List RegWrite) : (s.finish b sc lat act ws).memOk :=
  State.next_memOk (State.retire_memOk hs ..) ..

theorem State.free_memOk : s.free.2.memOk := State.memOk_mk hs

end

end Sys2Proof.Machine
end

section
/-! Generic opcodes, waits and accesses keep the canonical form of memory. -/
namespace Sys2Proof.Machine

section
variable {s : State} (hs : s.memOk)
include hs

/-! ### Flags -/


/-! ### Float -/


/-! ### Convert -/

theorem execCvt_nextOk (c : Ctl) (dst src : Ty) (sat : Bool) (r : Rnd) (d : Reg) (a : Src) : NextOk (execCvt c dst src sat r d a s) :=
  issue_memOk hs (fun _ _ _ _ hs1 => State.finish_memOk hs1 ..) ..

theorem execCvtpk_nextOk (c : Ctl) (ty : QTy) (d : Reg) (a : Vec) (b : Src) : NextOk (execCvtpk c ty d a b s) :=
  issue_memOk hs (fun _ _ _ _ hs1 => State.finish_memOk hs1 ..) ..

theorem execCvtxp_nextOk (c : Ctl) (ty : QTy) (d : Vec) (a b : Src) : NextOk (execCvtxp c ty d a b s) :=
  issue_memOk hs (fun _ _ _ _ hs1 => State.finish_memOk hs1 ..) ..

theorem tagOp_memOk (i : Instr) (c : Ctl) (d : Reg) (a : Src) (forge : Path → Bool) (f : Val → Val) : (tagOp i c d a forge f s).memOk :=
  issue_memOk hs (fun _ _ _ _ hs1 => memOk_ite (State.trapPath_memOk hs1 ..) (State.finish_memOk hs1 ..)) ..

theorem execBox_nextOk (c : Ctl) (f : BoxForm) (d : Reg) (a : Src) : NextOk (execBox c f d a s) := tagOp_memOk hs ..

theorem execUnbox_nextOk (c : Ctl) (d : Reg) (a : Src) : NextOk (execUnbox c d a s) := tagOp_memOk hs ..

theorem execTagof_nextOk (c : Ctl) (d : Reg) (a : Src) : NextOk (execTagof c d a s) := tagOp_memOk hs ..

theorem execTagset_nextOk (c : Ctl) (t : Tag) (d : Reg) (a : Src) : NextOk (execTagset c t d a s) := tagOp_memOk hs ..

theorem execTagchk_nextOk (c : Ctl) (d : Pred) (a : Src) (mask : BitVec 16) : NextOk (execTagchk c d a mask s) :=
  issue_memOk hs (fun _ _ _ _ hs1 => State.finish_memOk hs1 ..) ..

/-! ### Generic -/

theorem State.condOf_memOk (core aspace va : Nat) : (s.condOf core aspace va).2.memOk := by
  unfold State.condOf
  split
  · next t heq =>
      have ht := snd_of_eq heq (State.translate_memOk hs ..)
      exact ht
  · next t heq =>
      have ht := snd_of_eq heq (State.translate_memOk hs ..)
      exact ht
  · next t heq =>
      have ht := snd_of_eq heq (State.translate_memOk hs ..)
      exact ht
  · next t heq =>
      have ht := snd_of_eq heq (State.translate_memOk hs ..)
      exact ht

theorem State.scanRefs_memOk (dead : Dead) (l : Nat) (r : RefScan) (vs : List Nat) : (s.scanRefs dead l r vs).2.memOk := by
  induction vs generalizing s r with
  | nil => exact hs
  | cons va rest ih =>
    have hc : (if dead.at l va then (Cond.malformed, s) else s.condOf s.grp.core s.myAspace va).2.memOk := snd_ite hs
      (State.condOf_memOk hs ..)
    rw [State.scanRefs]
    split
    all_goals next heq => exact ih (snd_of_eq heq hc) ..

theorem State.scanAll_memOk (op : GOp) (dead : Dead) (l : List (Nat × Val × Val × Val)) (r : RefScan) :
    (State.scanAll op dead l r s).2.memOk := by
  induction l generalizing s r with
  | nil => exact hs
  | cons e rest ih =>
    rw [State.scanAll]
    dsimp only
    exact snd_ite (ih (State.scanRefs_memOk hs ..) ..) (ih hs ..)

theorem typeSplit_memOk (i : Instr) (sc : Sched) (op : GOp) (b : Bool) (p : Path) (act : Mask) (ops : List (Nat × Val × Val × Val))
    (fam : Nat × Val × Val × Val → Option Fam) :
    (typeSplit i sc op b p act ops fam s).memOk := by
  unfold typeSplit
  dsimp only
  split
  · next t heq =>
      have ht := snd_of_eq heq (State.dispatch_memOk hs ..)
      exact State.replay_memOk ht ..
  · next t heq =>
      have ht := snd_of_eq heq (State.dispatch_memOk hs ..)
      split
      · exact State.takeTrap_memOk (State.spend_memOk ht ..) ..
      · split
        · exact State.spend_memOk (State.memOk_mk ht) ..
        · exact State.trapPath_memOk ht ..

theorem genRun_memOk (i : Instr) (c : Ctl) (op : GOp) (r : Rnd) (d : GDst) (b : Bool) (p : Path) (act : Mask)
    (ops : List (Nat × Val × Val × Val)) (f : Option Fam) :
    (genRun i c op r d b p act ops f s).memOk := by
  unfold genRun
  dsimp only
  split
  · exact State.replay_memOk (State.scanAll_memOk hs ..) ..
  · split <;> exact State.raiseClasses_memOk (State.retire_memOk (State.scanAll_memOk hs ..) ..) ..

theorem generic_memOk (i : Instr) (c : Ctl) (op : GOp) (r : Rnd) (d : GDst) (a : Src) (b : Option GSrc) (k : Option Src) :
    (generic i c op r d a b k s).memOk := by
  unfold generic
  refine issue_memOk hs (fun _ _ _ _ hs1 => ?_) ..
  dsimp only
  split
  · exact genRun_memOk hs1 ..
  · exact memOk_ite (genRun_memOk hs1 ..) (typeSplit_memOk hs1 ..)

theorem generic2_memOk (i : Instr) (c : Ctl) (op : GOp) (r : Rnd) (d : Reg) (a : Src) (b : GSrc) : (generic2 i c op r d a b s).memOk :=
  generic_memOk hs ..

theorem generic1_memOk (i : Instr) (c : Ctl) (op : GOp) (d : Reg) (a : Src) : (generic1 i c op d a s).memOk := generic_memOk hs ..

theorem genericP_memOk (i : Instr) (c : Ctl) (op : GOp) (d : Pred) (a : Src) (b : GSrc) : (genericP i c op d a b s).memOk :=
  generic_memOk hs ..

theorem execAdd_nextOk (c : Ctl) (r : Rnd) (d : Reg) (a : Src) (b : GSrc) : NextOk (execAdd c r d a b s) := generic2_memOk hs ..

theorem execSub_nextOk (c : Ctl) (r : Rnd) (d : Reg) (a : Src) (b : GSrc) : NextOk (execSub c r d a b s) := generic2_memOk hs ..

theorem execMul_nextOk (c : Ctl) (r : Rnd) (d : Reg) (a : Src) (b : GSrc) : NextOk (execMul c r d a b s) := generic2_memOk hs ..

theorem execDiv_nextOk (c : Ctl) (r : Rnd) (d : Reg) (a : Src) (b : GSrc) : NextOk (execDiv c r d a b s) := generic2_memOk hs ..

theorem execFldiv_nextOk (c : Ctl) (d : Reg) (a : Src) (b : GSrc) : NextOk (execFldiv c d a b s) := generic2_memOk hs ..

theorem execMod_nextOk (c : Ctl) (d : Reg) (a : Src) (b : GSrc) : NextOk (execMod c d a b s) := generic2_memOk hs ..

theorem execNeg_nextOk (c : Ctl) (d : Reg) (a : Src) : NextOk (execNeg c d a s) := generic1_memOk hs ..

theorem execAbs_nextOk (c : Ctl) (d : Reg) (a : Src) : NextOk (execAbs c d a s) := generic1_memOk hs ..

theorem execMin_nextOk (c : Ctl) (d : Reg) (a : Src) (b : GSrc) : NextOk (execMin c d a b s) := generic2_memOk hs ..

theorem execMax_nextOk (c : Ctl) (d : Reg) (a : Src) (b : GSrc) : NextOk (execMax c d a b s) := generic2_memOk hs ..

theorem execFma_nextOk (c : Ctl) (r : Rnd) (d : Reg) (a : Src) (b : GSrc) (k : Src) : NextOk (execFma c r d a b k s) :=
  generic_memOk hs ..

theorem execEq_nextOk (c : Ctl) (d : Pred) (a : Src) (b : GSrc) : NextOk (execEq c d a b s) := genericP_memOk hs ..

theorem execNe_nextOk (c : Ctl) (d : Pred) (a : Src) (b : GSrc) : NextOk (execNe c d a b s) := genericP_memOk hs ..

theorem execLt_nextOk (c : Ctl) (d : Pred) (a : Src) (b : GSrc) : NextOk (execLt c d a b s) := genericP_memOk hs ..

theorem execLe_nextOk (c : Ctl) (d : Pred) (a : Src) (b : GSrc) : NextOk (execLe c d a b s) := genericP_memOk hs ..

theorem execTruth_nextOk (c : Ctl) (d : Pred) (a : Src) : NextOk (execTruth c d a s) := generic_memOk hs ..

theorem execHash_nextOk (c : Ctl) (d : Reg) (a : Src) : NextOk (execHash c d a s) := generic1_memOk hs ..

theorem execAnd_nextOk (c : Ctl) (d : Reg) (a : Src) (b : GSrc) : NextOk (execAnd c d a b s) := generic2_memOk hs ..

theorem execOr_nextOk (c : Ctl) (d : Reg) (a : Src) (b : GSrc) : NextOk (execOr c d a b s) := generic2_memOk hs ..

theorem execXor_nextOk (c : Ctl) (d : Reg) (a : Src) (b : GSrc) : NextOk (execXor c d a b s) := generic2_memOk hs ..

theorem execShl_nextOk (c : Ctl) (d : Reg) (a : Src) (b : GSrc) : NextOk (execShl c d a b s) := generic2_memOk hs ..

theorem execShr_nextOk (c : Ctl) (d : Reg) (a : Src) (b : GSrc) : NextOk (execShr c d a b s) := generic2_memOk hs ..

/-! ### Kick -/

theorem State.modQueue_memOk (q : Nat) (f : Queue → Queue) : (s.modQueue q f).memOk := State.memOk_mk hs

theorem State.firmPut_memOk (aspace va n x : Nat) : (s.firmPut aspace va n x).memOk := by
  unfold State.firmPut
  split
  · exact State.putNat_memOk hs ..
  · exact hs

theorem State.showQueue_memOk (q : Nat) : (s.showQueue q).memOk := by
  unfold State.showQueue
  split
  · exact hs
  · exact State.firmPut_memOk (State.firmPut_memOk (State.firmPut_memOk (State.firmPut_memOk (State.modQueue_memOk hs ..) ..) ..) ..) ..

theorem State.modPacket_memOk (q i : Nat) (f : Packet → Packet) : (s.modPacket q i f).memOk := State.modQueue_memOk hs ..

theorem State.stopQueue_memOk (q err : Nat) : (s.stopQueue q err).memOk := by
  unfold State.stopQueue
  split
  · exact hs
  · exact State.pulseSrc_memOk (State.showQueue_memOk (State.modQueue_memOk hs ..) ..) ..

theorem State.kick_memOk (q : Nat) (w : Word) : (s.kick q w).memOk := by
  unfold State.kick
  split
  · exact hs
  · exact memOk_ite hs (memOk_ite (State.stopQueue_memOk hs ..) (State.showQueue_memOk (State.modQueue_memOk hs ..) ..))

/-! ### Waits -/

theorem State.putBar_memOk (blk grp : Nat) (b : Bool) (w : BarWait) : (s.putBar blk grp b w).memOk := by
  unfold State.putBar
  split
  · exact State.modGrp_memOk hs ..
  · split
    · exact hs
    · exact memOk_ite (State.acquireFor_memOk (State.modGrp_memOk hs ..) ..) (State.modGrp_memOk hs ..)

theorem State.decideBars_memOk (f : BarLane → Option Nat) : (s.decideBars f).memOk := by
  unfold State.decideBars
  refine State.foldl_memOk (fun _ _ hs1 => ?_) _ hs
  dsimp only
  split
  · split
    · refine memOk_ite ?_ ?_
      · refine State.putBar_memOk ?_ ..
        split
        · split
          · exact memOk_ite (State.putBar_memOk hs1 ..) hs1
          · exact hs1
        · exact hs1
      · split
        · split
          · exact memOk_ite (State.putBar_memOk hs1 ..) hs1
          · exact hs1
        · exact hs1
    · split
      · split
        · exact memOk_ite (State.putBar_memOk hs1 ..) hs1
        · exact hs1
      · exact hs1
  · split
    · split
      · exact memOk_ite (State.putBar_memOk hs1 ..) hs1
      · exact hs1
    · exact hs1

theorem State.testBars_memOk (w : Nat) : (s.testBars w).memOk := State.decideBars_memOk hs ..

theorem State.testWritten_memOk : s.testWritten.memOk :=
  State.foldl_memOk (fun _ _ hs1 => State.testBars_memOk hs1 ..) _ (State.memOk_mk hs)

theorem State.abandonBars_memOk (a : Nat) : (s.abandonBars a).memOk := State.decideBars_memOk hs ..

theorem State.bankWrite_memOk (by_ : Option Writer) (b : Bank) (w : Nat) (x : Val) : (s.bankWrite by_ b w x).memOk := by
  unfold State.bankWrite
  split
  · exact State.testBars_memOk (State.putBank_memOk hs ..) ..
  · exact State.putBank_memOk hs ..

theorem State.drainObj_memOk (me : Option Writer) (a : Nat) : (s.drainObj me a).memOk :=
  State.drainFor_memOk (State.drainFor_memOk hs ..) ..

theorem State.putObj_memOk (by_ : Option Writer) (a : Nat) (x y : Val) : (s.putObj by_ a x y).memOk :=
  State.testBars_memOk (State.putBank_memOk (State.putBank_memOk hs ..) ..) ..

theorem State.barUpdate_memOk (by_ : Option Writer) (a : Nat) (arr : Bool) (add sub : Nat) : (s.barUpdate by_ a arr add sub).2.memOk := by
  unfold State.barUpdate
  split
  · exact hs
  · exact snd_ite hs (memOk_ite hs (State.putObj_memOk hs ..))

theorem State.barInit_memOk (by_ : Option Writer) (a arrivals bytes : Nat) : (s.barInit by_ a arrivals bytes).memOk :=
  State.putObj_memOk (State.abandonBars_memOk hs ..) ..

theorem State.modStream_memOk (id : Nat) (f : Stream → Stream) : (s.modStream id f).memOk := State.modBlk_memOk hs ..

theorem State.arrivedAt_memOk (me : Writer) (obj : Nat) : (s.arrivedAt me obj).memOk := by
  unfold State.arrivedAt
  split
  · exact hs
  · exact memOk_ite hs (memOk_ite hs (State.modStream_memOk hs ..))

theorem State.spoilSlot_memOk (id slot : Nat) : (s.spoilSlot id slot).memOk := State.memOk_mk (State.modStream_memOk hs ..)

theorem State.lateWrite_memOk (me : Writer) (sp word : Nat) (bytes : BitVec 8) : (s.lateWrite me sp word bytes).memOk := by
  unfold State.lateWrite
  split
  · exact hs
  · exact memOk_ite hs (State.foldl_memOk (fun _ _ hs1 => State.spoilSlot_memOk hs1 ..) _ (State.modStream_memOk hs ..))

/-! ### Access -/

theorem State.locate_memOk (p : Path) (sp : Space) (need : Need) (va : Nat) : (s.locate p sp need va).2.memOk := by
  unfold State.locate
  dsimp only
  split
  · exact hs
  · exact hs
  · exact hs
  · exact State.locateGlb_memOk hs ..
  · exact State.locateGlb_memOk hs ..

theorem State.settleOwn_memOk (me : Writer) (h : Home) : (s.settleOwn me h).memOk := by
  unfold State.settleOwn
  split
  · exact State.drainFor_memOk hs ..
  · exact hs
  · exact State.drainFor_memOk hs ..

theorem State.lateWrites_memOk (me : Writer) (h : Home) (n : Nat) : (s.lateWrites me h n).memOk :=
  State.foldl_memOk (fun _ _ hs1 => State.lateWrite_memOk hs1 ..) _ hs

theorem State.storeHome_memOk (me : Writer) (h : Home) (n : Nat) (x : Val) : (s.storeHome me h n x).memOk := by
  unfold State.storeHome
  dsimp only
  split
  · refine memOk_ite ?_ (State.memOk_mk (State.lateWrites_memOk hs ..))
    split
    · exact memOk_ite (State.kick_memOk (State.lateWrites_memOk hs ..) ..) (State.lateWrites_memOk hs ..)
    · exact State.regMem_memOk (State.drainFor_memOk (State.lateWrites_memOk hs ..) ..) ..
  · exact State.lateWrites_memOk hs ..
  · exact memOk_ite (State.memOk_mk (State.lateWrites_memOk hs ..))
      (State.bankWrite_memOk (State.drainFor_memOk (State.lateWrites_memOk hs ..) ..) ..)

theorem State.atHome_memOk (me : Writer) (h : Home) : (s.atHome me h).2.memOk := by
  unfold State.atHome
  split
  · exact State.takeOwn_memOk (memOk_ite (State.ownLine_memOk (State.drainFor_memOk hs ..) ..) (State.drainFor_memOk hs ..)) ..
  · exact hs
  · exact State.drainFor_memOk hs ..

theorem State.putHome_memOk (me : Writer) (h : Home) (n : Nat) (x : Val) : (s.putHome me h n x).memOk := by
  unfold State.putHome
  dsimp only
  split
  · exact State.regWord_memOk (memOk_ite (State.askOwn_memOk (State.lateWrites_memOk hs ..) ..) (State.lateWrites_memOk hs ..)) ..
  · exact State.lateWrites_memOk hs ..
  · exact State.bankWrite_memOk (State.lateWrites_memOk hs ..) ..

theorem State.keepHeader_memOk (e : HdrEntry) : (s.keepHeader e).memOk := memOk_ite hs (State.memOk_mk hs)

theorem State.header_memOk (p : Path) (va pa size : Nat) : (s.header p va pa size).2.2.memOk := by
  unfold State.header
  dsimp only
  split
  · exact hs
  · exact memOk_ite (State.passWords_memOk (State.loadWord_memOk hs ..) ..)
      (State.keepHeader_memOk (State.passWords_memOk (State.loadWord_memOk hs ..) ..) ..)

theorem State.bar_memOk (p : Path) (dead : Dead) (l : Nat) (acq : Bool) (v : Val) : (s.bar p dead l acq v).2.2.memOk := by
  unfold State.bar
  refine snd2_ite hs ?_
  refine snd2_ite hs ?_
  split
  · next t heq =>
      have ht := snd_of_eq heq (State.condOf_memOk hs ..)
      exact ht
  · next t heq =>
      have ht := snd_of_eq heq (State.condOf_memOk hs ..)
      exact ht
  · next t heq =>
      have ht := snd_of_eq heq (State.condOf_memOk hs ..)
      exact ht
  · next t heq =>
      have ht := snd_of_eq heq (State.condOf_memOk hs ..)
      exact ht
  · next t heq =>
      have ht := snd_of_eq heq (State.condOf_memOk hs ..)
      refine snd2_ite (State.dropFrom_memOk ht ..) ?_
      refine snd2_ite (State.header_memOk ht ..) ?_
      refine snd2_ite (memOk_ite (State.acquireMe_memOk (State.header_memOk ht ..) ..)
        (State.renew_memOk (State.header_memOk ht ..) ..)) ?_
      split
      · next t heq =>
          have ht := snd_of_eq heq (State.condOf_memOk
            (memOk_ite (State.acquireMe_memOk (State.header_memOk ht ..) ..) (State.renew_memOk (State.header_memOk ht ..) ..)) ..)
          exact ht
      · next t heq =>
          have ht := snd_of_eq heq (State.condOf_memOk
            (memOk_ite (State.acquireMe_memOk (State.header_memOk ht ..) ..) (State.renew_memOk (State.header_memOk ht ..) ..)) ..)
          exact ht
      · next t heq =>
          have ht := snd_of_eq heq (State.condOf_memOk
            (memOk_ite (State.acquireMe_memOk (State.header_memOk ht ..) ..) (State.renew_memOk (State.header_memOk ht ..) ..)) ..)
          exact ht
      · next t heq =>
          have ht := snd_of_eq heq (State.condOf_memOk
            (memOk_ite (State.acquireMe_memOk (State.header_memOk ht ..) ..) (State.renew_memOk (State.header_memOk ht ..) ..)) ..)
          exact ht

theorem State.formLane_memOk (p : Path) (k : MemOp) (dead : Dead) (acq : Bool) (l : Nat) : (s.formLane p k dead acq l).2.2.memOk := by
  unfold State.formLane
  refine snd2_ite ?_ (snd2_ite hs hs)
  refine snd2_ite hs ?_
  split
  · next t heq =>
      have ht := snd2_of_eq heq (State.bar_memOk hs ..)
      exact ht
  · next t heq =>
      have ht := snd2_of_eq heq (State.bar_memOk hs ..)
      exact ht
  · next t heq =>
      have ht := snd2_of_eq heq (State.bar_memOk hs ..)
      exact ht
  · next t heq =>
      have ht := snd2_of_eq heq (State.bar_memOk hs ..)
      exact ht
  · next t heq =>
      have ht := snd2_of_eq heq (State.bar_memOk hs ..)
      exact ht

theorem State.formAll_memOk (p : Path) (k : MemOp) (dead : Dead) (l : List Nat) (acq : Bool) :
    (State.formAll p k dead l acq s).2.2.memOk := by
  induction l generalizing s acq with
  | nil => exact hs
  | cons x r ih => exact ih (State.formLane_memOk hs ..) ..

theorem State.locateLane_memOk (p : Path) (k : MemOp) (dead : Dead) (l va : Nat) : (s.locateLane p k dead l va).2.memOk := by
  unfold State.locateLane
  dsimp only
  split
  · exact snd_ite hs (State.locate_memOk hs ..)
  · split <;> exact snd_ite (snd_ite hs (State.locate_memOk hs ..)) (State.locate_memOk (snd_ite hs (State.locate_memOk hs ..)) ..)

theorem State.locateAll_memOk (p : Path) (k : MemOp) (dead : Dead) (l : List (Nat × Nat)) : (State.locateAll p k dead l s).2.memOk := by
  induction l generalizing s with
  | nil => exact hs
  | cons x r ih => exact ih (State.locateLane_memOk hs ..)

theorem State.accessed_memOk (me : Writer) (k : MemOp) (h : Home) : (s.accessed me k h).memOk := State.passWords_memOk hs ..

theorem State.runLanes_memOk {me : Writer} {k : MemOp} (hk : ∀ me l va h t, t.memOk → (k.one me l va h t).2.memOk) (held : Mask)
    (ls : List Lane) (r : Ran) : (State.runLanes me k held ls r s).2.memOk := by
  induction ls generalizing s r with
  | nil => exact hs
  | cons x xs ih =>
    rw [State.runLanes]
    refine snd_ite hs ?_
    split
    · exact ih hs ..
    · exact ih hs ..
    · next h _ =>
      have ho := hk me x.l x.va h s hs
      refine snd_ite (ih hs ..) (snd_ite (ih hs ..) ?_)
      split
      · next heq => exact ih (State.accessed_memOk (snd_of_eq heq ho) ..) ..
      · next heq => exact ih (snd_of_eq heq ho) ..

theorem State.perform_memOk {me : Writer} {k : MemOp} (hk : ∀ me l va h t, t.memOk → (k.one me l va h t).2.memOk)
    (stops : List (Nat × BitVec 8 × Nat)) (ls : List Lane) : (State.perform me k stops ls s).2.memOk :=
  snd_ite (State.runLanes_memOk hs hk ..) (snd_ite (State.runLanes_memOk hs hk ..) (State.runLanes_memOk hs hk ..))

theorem State.healWord_memOk (p : Path) (b : Bool) (sp : Space) (va : Nat) (old new : Val) : (s.healWord p b sp va old new).memOk := by
  unfold State.healWord
  split
  · next t heq =>
      have ht := snd_of_eq heq (State.locate_memOk hs ..)
      exact memOk_ite ht (memOk_ite (State.changed_memOk (State.putHome_memOk (State.atHome_memOk ht ..) ..) ..)
        (State.atHome_memOk ht ..))
  · next t heq =>
      have ht := snd_of_eq heq (State.locate_memOk hs ..)
      exact ht

theorem State.barVals_memOk (p : Path) (b : Bool) (k : MemOp) (dead : Dead) (o : LaneOut) (l got : List Val) (acq : Bool) :
    (State.barVals p b k dead o l got acq s).2.2.memOk := by
  induction l generalizing s got acq with
  | nil => exact hs
  | cons v r ih =>
    have hb := State.bar_memOk hs p dead o.lane acq v
    rw [State.barVals]
    split
    · next heq => exact ih (memOk_ite (State.healWord_memOk (snd2_of_eq heq hb) ..) (snd2_of_eq heq hb)) ..
    all_goals next heq => exact snd2_of_eq heq hb

theorem State.sweepBar_memOk (p : Path) (b : Bool) (k : MemOp) (dead : Dead) (l : List LaneOut) (acq : Bool) (w : Swept) :
    (State.sweepBar p b k dead l acq w s).2.memOk := by
  induction l generalizing s acq w with
  | nil => exact hs
  | cons o r ih =>
    have hb := State.barVals_memOk hs p b k dead o o.vals [] acq
    rw [State.sweepBar]
    refine snd_ite (ih hs ..) ?_
    split
    all_goals next heq => exact ih (snd2_of_eq heq hb) ..

theorem State.before_memOk (p : Path) (o : Ord) : (s.before p o).memOk := by
  unfold State.before
  split
  · exact hs
  · exact hs
  · exact State.drainGroup_memOk hs ..
  · exact State.drainGroup_memOk hs ..
  · exact State.acquireMe_memOk (State.drainGroup_memOk hs ..) ..

theorem State.after_memOk (p : Path) (o : Ord) : (s.after p o).memOk := by
  unfold State.after
  split
  · exact hs
  · exact hs
  · exact State.acquireMe_memOk hs ..
  · exact State.acquireMe_memOk hs ..
  · exact State.acquireMe_memOk (State.drainGroup_memOk hs ..) ..

theorem State.memory_memOk {i : Instr} {sc : Sched} {b : Bool} {p : Path} {act : Mask} {k : MemOp}
    (hk : ∀ me l va h t, t.memOk → (k.one me l va h t).2.memOk) : (s.memory i sc b p act k).memOk := by
  have hb : (if act ≠ 0 ∧ p.redo.isNone then s.before p k.ord else s).memOk := memOk_ite (State.before_memOk hs ..) hs
  generalize hu : (if act ≠ 0 ∧ p.redo.isNone then s.before p k.ord else s) = u at hb
  unfold State.memory
  rw [hu]
  refine memOk_ite (State.replay_memOk (State.formAll_memOk hb ..) ..) ?_
  dsimp only
  split
  · exact State.trapPath_memOk (State.formAll_memOk hb ..) ..
  · split
    · exact State.trapPath_memOk (State.formAll_memOk hb ..) ..
    · have hr (fs : List (Nat × Nat)) (gone : List (Nat × BitVec 8 × Nat)) (t : State) (ht : t.memOk) :=
        State.perform_memOk (State.locateAll_memOk ht p k p.dead fs) hk (me := s.me p) gone (State.locateAll p k p.dead fs t).1
      have hw (fs gone t) (ht : State.memOk t) (os acq w) := State.sweepBar_memOk (hr fs gone t ht) p b k p.dead os acq w
      split
      · exact State.replay_memOk (State.retirePart_memOk (hw _ _ _ (State.formAll_memOk hb ..) ..) ..) ..
      · have hf (l q) := State.formAll_memOk hb p k p.dead l q
        exact State.raiseClasses_memOk
          (State.retire_memOk (memOk_ite (State.after_memOk (hw _ _ _ (hf ..) ..) ..) (hw _ _ _ (hf ..) ..)) ..) ..

end

end Sys2Proof.Machine
end

section
/-! Memory instructions, barriers, control and fetch keep the canonical form of memory. -/
namespace Sys2Proof.Machine

section
variable {s : State} (hs : s.memOk)
include hs

/-! ### MemInstr -/

theorem ldOne_memOk (ty : Ty) (b : Bool) (me : Writer) (l va : Nat) (h : Home) : (ldOne ty b me l va h s).2.memOk := by
  unfold ldOne
  dsimp only
  split <;> exact State.loaded_memOk (State.readHome_memOk hs ..) ..

theorem execLd_nextOk (c : Ctl) (ty : Ty) (sp : Space) (o : Ord) (heal obj : Bool) (d : Reg) (a : Src) (off : BitVec 24) :
    NextOk (execLd c ty sp o heal obj d a off s) :=
  issue_memOk hs (fun _ _ _ _ hs1 => State.memory_memOk hs1 (fun _ _ _ _ _ hs2 => ldOne_memOk hs2 ..) ..) ..

theorem stOne_memOk (n : Nat) (b user : Bool) (x : Nat → Val) (me : Writer) (l va : Nat) (h : Home) :
    (stOne n b user x me l va h s).2.memOk := by
  unfold stOne
  dsimp only
  split
  · exact hs
  · exact snd_ite hs (State.changed_memOk (State.storeHome_memOk hs ..) ..)

theorem execSt_nextOk (c : Ctl) (ty : Ty) (sp : Space) (o : Ord) (obj : Bool) (a v : Src) (off : BitVec 24) :
    NextOk (execSt c ty sp o obj a v off s) :=
  issue_memOk hs (fun _ _ _ _ hs1 => State.memory_memOk hs1 (fun _ _ _ _ _ hs2 => stOne_memOk hs2 ..) ..) ..

theorem atomOne_memOk (op : AtomOp) (ty : Ty) (returns : Bool) (b user : Bool) (y z : Nat → Val) (me : Writer) (l va : Nat) (h : Home) :
    (atomOne op ty returns b user y z me l va h s).2.memOk := by
  unfold atomOne
  refine snd_ite hs ?_
  dsimp only
  split
  · exact State.loaded_memOk (State.atHome_memOk hs ..) ..
  · split
    · exact State.loaded_memOk (State.atHome_memOk hs ..) ..
    · exact snd_ite (State.loaded_memOk (State.atHome_memOk hs ..) ..)
        (snd_ite (State.loaded_memOk (State.atHome_memOk hs ..) ..)
          (State.changed_memOk (State.putHome_memOk (State.loaded_memOk (State.atHome_memOk hs ..) ..) ..) ..))

theorem execAtom_nextOk (c : Ctl) (op : AtomOp) (ty : Ty) (sp : Space) (o : Ord) (obj : Bool) (d : Reg) (a v : Src) (k : AtomC)
    (off : BitVec 24) :
    NextOk (execAtom c op ty sp o obj d a v k off s) :=
  issue_memOk hs (fun _ _ _ _ hs1 => State.memory_memOk hs1 (fun _ _ _ _ _ hs2 => atomOne_memOk hs2 ..) ..) ..

theorem execRed_nextOk (c : Ctl) (op : AtomOp) (ty : Ty) (sp : Space) (o : Ord) (obj : Bool) (a v : Src) (off : BitVec 24) :
    NextOk (execRed c op ty sp o obj a v off s) := by
  refine issue_memOk hs (fun _ _ _ _ hs1 => State.memory_memOk hs1 (fun _ _ _ _ _ hs2 => ?_) ..) ..
  dsimp only [redOp]
  exact atomOne_memOk hs2 ..

theorem caswOne_memOk (b user : Bool) (x0 x1 y0 y1 : Nat → Val) (me : Writer) (l va : Nat) (h : Home) :
    (caswOne b user x0 x1 y0 y1 me l va h s).2.memOk := by
  unfold caswOne
  refine snd_ite hs ?_
  dsimp only
  split
  · exact State.loaded_memOk (State.atHome_memOk (State.atHome_memOk hs ..) ..) ..
  · refine snd_ite (State.loaded_memOk (State.atHome_memOk (State.atHome_memOk hs ..) ..) ..) ?_
    split
    · exact State.loaded_memOk (State.atHome_memOk (State.atHome_memOk hs ..) ..) ..
    · exact snd_ite (State.loaded_memOk (State.atHome_memOk (State.atHome_memOk hs ..) ..) ..)
        (snd_ite (State.loaded_memOk (State.atHome_memOk (State.atHome_memOk hs ..) ..) ..)
          (State.changed_memOk (State.putHome_memOk
            (State.putHome_memOk (State.loaded_memOk (State.atHome_memOk (State.atHome_memOk hs ..) ..) ..) ..) ..) ..))

theorem execCasw_nextOk (c : Ctl) (sp : Space) (o : Ord) (obj : Bool) (pen : Option Pred) (d : Vec) (a : Src) (x y : Vec)
    (off : BitVec 24) :
    NextOk (execCasw c sp o obj pen d a x y off s) :=
  issue_memOk hs (fun _ _ _ _ hs1 => State.memory_memOk hs1 (fun _ _ _ _ _ hs2 => caswOne_memOk hs2 ..) ..) ..

theorem execFence_nextOk (c : Ctl) (o : Ord) : NextOk (execFence c o s) := by
  unfold execFence
  refine issue_memOk hs (fun _ _ _ _ hs1 => ?_) ..
  refine State.next_memOk ?_ ..
  refine memOk_ite (State.spend_memOk hs1 ..) ?_
  split
  · exact State.spend_memOk hs1 ..
  · exact State.acquireMe_memOk (State.spend_memOk hs1 ..) ..
  · exact State.drainGroup_memOk (State.spend_memOk hs1 ..) ..
  · exact State.acquireMe_memOk (State.drainGroup_memOk (State.spend_memOk hs1 ..) ..) ..
  · exact State.acquireMe_memOk (State.drainGroup_memOk (State.spend_memOk hs1 ..) ..) ..

theorem State.prefetch_memOk (p : Path) (l2 : Bool) (va : Nat) : (s.prefetch p l2 va).memOk := by
  unfold State.prefetch
  refine memOk_ite hs ?_
  split
  · next t heq =>
      have ht := snd_of_eq heq (State.translate_memOk hs ..)
      exact memOk_ite ht (memOk_ite (State.dropFrom_memOk ht ..) (State.fillSector_memOk (State.fillSector_memOk ht ..) ..))
  · next t heq =>
      have ht := snd_of_eq heq (State.translate_memOk hs ..)
      exact ht

theorem execPref_nextOk (c : Ctl) (l2 : Bool) (a : Src) (off : BitVec 24) : NextOk (execPref c l2 a off s) :=
  issue_memOk hs (fun _ _ _ _ hs1 => State.next_memOk
    (State.foldl_memOk (fun _ _ hs2 => memOk_ite (State.prefetch_memOk hs2 ..) hs2) _ (State.spend_memOk hs1 ..)) ..) ..

theorem execStoreRegistration_nextOk (k : Nat) : NextOk (execStoreRegistration k s) := by
  unfold execStoreRegistration
  split
  · exact hs
  · exact State.foldl_memOk (fun _ _ hs1 => State.regStore_memOk hs1 ..) _ (State.memOk_mk hs)

/-! ### Barriers -/

theorem State.lateObj_memOk (me : Writer) (a : Nat) : (s.lateObj me a).memOk := State.lateWrite_memOk (State.lateWrite_memOk hs ..) ..

theorem State.barLanes_memOk (b : Bool) (me : Writer) (arr : Bool) (bytes : Nat → Nat) (l : List (Nat × Nat)) :
    (State.barLanes b me arr bytes l s).2.memOk := by
  induction l generalizing s with
  | nil => exact hs
  | cons x r ih =>
    have hu (a n) := State.barUpdate_memOk (State.drainObj_memOk hs (some me) a) (some me) a arr n 0
    have hp (c : Prop) [Decidable c] (a n w) := State.passWords_memOk
      (memOk_ite (c := c) (hu a n) (State.lateObj_memOk (State.changed_memOk (hu a n) b) me a)) me 2 w 2
    exact ih (memOk_ite (State.arrivedAt_memOk (hp ..) ..) (hp ..))

theorem execBarinit_nextOk (c : Ctl) (cls : Bool) (a x y : Src) (off : BitVec 24) : NextOk (execBarinit c cls a x y off s) := by
  unfold execBarinit
  refine issue_memOk hs (fun _ _ _ _ hs1 => ?_) ..
  dsimp only
  split
  · exact State.trapPath_memOk hs1 ..
  · exact memOk_ite (State.trapPath_memOk hs1 ..)
      (State.next_memOk (State.spend_memOk
        (State.foldl_memOk (fun _ _ hs2 => memOk_ite (State.passWords_memOk (State.barInit_memOk (State.drainObj_memOk hs2 ..) ..) ..)
          (State.lateObj_memOk (State.changed_memOk
            (State.passWords_memOk (State.barInit_memOk (State.drainObj_memOk hs2 ..) ..) ..) ..) ..)) _ hs1) ..) ..)

theorem barUpdates_memOk (i : Instr) (c : Ctl) (cls : Bool) (arr : Bool) (d : Reg) (a x : Src) (off : BitVec 24) :
    (barUpdates i c cls arr d a x off s).memOk := by
  unfold barUpdates
  refine issue_memOk hs (fun _ _ _ _ hs1 => ?_) ..
  dsimp only
  split
  · exact State.trapPath_memOk hs1 ..
  · exact memOk_ite (State.trapPath_memOk hs1 ..)
      (State.finish_memOk (State.barLanes_memOk (memOk_ite (State.drainGroup_memOk hs1 ..) hs1) ..) ..)

theorem execBararr_nextOk (c : Ctl) (cls : Bool) (d : Reg) (a x : Src) (off : BitVec 24) : NextOk (execBararr c cls d a x off s) :=
  barUpdates_memOk hs ..

theorem execBartx_nextOk (c : Ctl) (cls : Bool) (d : Reg) (a x : Src) (off : BitVec 24) : NextOk (execBartx c cls d a x off s) :=
  barUpdates_memOk hs ..

theorem State.loadedObjs_memOk (b : Bool) (p : Path) (ts : List (Nat × Option BarLane)) : (s.loadedObjs b p ts).memOk := by
  unfold State.loadedObjs
  refine State.foldl_memOk (fun _ _ hs1 => ?_) _ hs
  split
  · exact State.passWords_memOk (State.loaded_memOk (State.drainObj_memOk hs1 ..) ..) ..
  · exact hs1

theorem execBwait_nextOk (c : Ctl) (cls : Bool) (texp : BitVec 5) (d : Reg) (a q : Src) : NextOk (execBwait c cls texp d a q s) :=
  issue_memOk hs (fun _ _ _ _ hs1 => memOk_ite
    (State.next_memOk (memOk_ite (State.acquireMe_memOk (State.retire_memOk (State.loadedObjs_memOk hs1 ..) ..) ..)
      (State.retire_memOk (State.loadedObjs_memOk hs1 ..) ..)) ..) (State.setGrp_memOk (State.loadedObjs_memOk hs1 ..) ..)) ..

theorem execBtest_nextOk (c : Ctl) (cls : Bool) (d : Reg) (a q : Src) (r : Pred) : NextOk (execBtest c cls d a q r s) :=
  issue_memOk hs (fun _ _ _ _ hs1 => State.next_memOk
    (memOk_ite (State.acquireMe_memOk (State.retire_memOk (State.loadedObjs_memOk hs1 ..) ..) ..)
      (State.retire_memOk (State.loadedObjs_memOk hs1 ..) ..)) ..) ..

theorem State.retest_memOk (blk grp : Nat) (slot : Bool) : (s.retest blk grp slot).memOk := by
  unfold State.retest
  split
  · exact hs
  · split
    · exact State.putBar_memOk hs ..
    · exact hs

theorem execWaitRetest_nextOk (blk grp : Nat) (slot : Bool) : NextOk (execWaitRetest blk grp slot s) := State.retest_memOk hs ..

/-! ### Control -/

theorem State.jump_memOk (b : Bool) (t : BitVec 56) : (s.jump b t).memOk := State.setGrp_memOk hs ..
omit hs in

theorem State.splitOr_memOk {base : State} (hs : s.memOk) (hb : base.memOk) (i : Instr) (sc : Sched) (b : Bool) (p : Path) (j : BitVec 56)
    (cs : List Child) (T : Mask) : (s.splitOr base i sc b p j cs T).memOk := by
  unfold State.splitOr
  split
  · exact State.memOk_mk hs
  · exact State.trapPath_memOk hb ..

theorem indirect_memOk {i : Instr} {sc : Sched} {ix : BitVec 3} {a : Reg} {link : State → Path → Mask → List RegWrite}
    {split : State → State → Bool → Path → Mask → List (BitVec 56 × Mask) → State} {b : Bool} {p : Path} {act : Mask}
    (hk : ∀ t u b p act l, t.memOk → u.memOk → (split t u b p act l).memOk) : (indirect i sc ix a link split b p act s).memOk := by
  have hr (sc lat act ws) := State.retire_memOk hs b sc lat act ws
  unfold indirect
  dsimp only
  split
  · exact State.trapPath_memOk hs ..
  · generalize targetSets p act _ = l
    obtain _ | ⟨⟨t, m⟩, _ | ⟨y, r⟩⟩ := l
    · exact State.next_memOk (hr ..) ..
    · exact memOk_ite (State.next_memOk (hr ..) ..) (State.jump_memOk (hr ..) ..)
    · exact hk _ _ _ _ _ _ hs (hr ..)

theorem execBra_nextOk (c : Ctl) (t j : BitVec 24) : NextOk (execBra c t j s) :=
  issue_memOk hs (fun _ _ _ _ hs1 => memOk_ite (State.next_memOk (State.spend_memOk hs1 ..) ..)
    (memOk_ite (State.jump_memOk (State.spend_memOk hs1 ..) ..) (State.splitOr_memOk (State.spend_memOk hs1 ..) hs1 ..))) ..

theorem execBrx_nextOk (c : Ctl) (a : Reg) (j : BitVec 24) : NextOk (execBrx c a j s) :=
  issue_memOk hs (fun _ _ _ _ hs1 => indirect_memOk hs1 (fun _ _ _ _ _ _ ht hu => State.splitOr_memOk hu ht ..) ..) ..

theorem execCall_nextOk (c : Ctl) (d : Vec) (t : BitVec 24) : NextOk (execCall c d t s) :=
  issue_memOk hs (fun _ _ _ _ hs1 => memOk_ite (State.next_memOk (State.retire_memOk hs1 ..) ..)
    (memOk_ite (State.jump_memOk (State.retire_memOk hs1 ..) ..) (State.splitOr_memOk (State.retire_memOk hs1 ..) hs1 ..))) ..

theorem execCallx_nextOk (c : Ctl) (d : Vec) (a : Reg) : NextOk (execCallx c d a s) :=
  issue_memOk hs (fun _ _ _ _ hs1 => indirect_memOk hs1 (fun _ _ _ _ _ _ ht hu => State.splitOr_memOk hu ht ..) ..) ..

theorem execRet_nextOk (c : UCtl) (a : Reg) : NextOk (execRet c a s) := by
  unfold execRet
  refine issueU_memOk hs (fun _ _ _ _ hs1 => ?_) ..
  refine indirect_memOk hs1 (fun _ _ _ _ _ _ ht hu => ?_) ..
  split
  · exact State.memOk_mk hu
  · exact State.trapPath_memOk ht ..

theorem State.afterExit_memOk : s.afterExit.memOk := memOk_ite (State.voidReserved_memOk hs ..) hs

theorem execExit_nextOk (c : Ctl) : NextOk (execExit c s) :=
  issue_memOk hs (fun _ _ _ _ hs1 => memOk_ite (State.next_memOk (State.spend_memOk hs1 ..) ..)
    (memOk_ite (State.leaveHandler_memOk (State.spend_memOk hs1 ..) ..)
      (State.afterExit_memOk (State.setGrp_memOk (State.spend_memOk hs1 ..) ..)))) ..

theorem execTrap_nextOk (c : Ctl) (code : BitVec 32) : NextOk (execTrap c code s) :=
  issue_memOk hs (fun _ _ _ _ hs1 => memOk_ite (State.next_memOk (State.spend_memOk hs1 ..) ..)
    (State.takeTrap_memOk (State.spend_memOk hs1 ..) ..)) ..

theorem execTret_nextOk (c : UCtl) : NextOk (execTret c s) := by
  unfold execTret
  refine issueU_memOk hs (fun _ _ _ _ hs1 => ?_) ..
  dsimp only
  split
  · exact State.memOk_mk (State.spend_memOk hs1 ..)
  · exact State.trap_memOk (State.spend_memOk hs1 ..) ..

theorem execYield_nextOk (c : UCtl) : NextOk (execYield c s) :=
  issueU_memOk hs (fun _ _ _ _ hs1 => State.next_memOk (State.setGrp_memOk (State.spend_memOk hs1 ..) ..) ..) ..

theorem execBrk_nextOk (c : Ctl) (code : BitVec 32) : NextOk (execBrk c code s) :=
  issue_memOk hs (fun _ _ _ _ hs1 => memOk_ite (State.next_memOk (State.spend_memOk hs1 ..) ..)
    (State.hold_memOk (State.spend_memOk hs1 ..) ..)) ..

theorem execNop_nextOk (c : Ctl) : NextOk (execNop c s) :=
  issue_memOk hs (fun _ _ _ _ hs1 => State.next_memOk (State.spend_memOk hs1 ..) ..) ..

/-! ### Fetch -/

theorem State.loadAhead_memOk (a : Ahead) : (s.loadAhead a).memOk := by
  unfold State.loadAhead
  split
  · exact hs
  · dsimp only
    split
    · exact memOk_ite hs (State.memOk_mk hs)
    · exact hs

theorem State.fetchHalf_memOk (core w : Nat) : (s.fetchHalf core w).2.memOk := by
  unfold State.fetchHalf
  split
  · exact hs
  · exact State.memOk_mk hs

theorem State.fetchWord_memOk (core pa : Nat) : (s.fetchWord core pa).2.memOk := State.fetchHalf_memOk (State.fetchHalf_memOk hs ..) ..

theorem State.countCands_memOk (dt : Nat) : (s.countCands dt).memOk := State.memOk_mk hs

theorem State.acknowledge_memOk (ns : List Nat) : (s.acknowledge ns).memOk := memOk_ite hs (State.memOk_mk hs)

theorem State.tick_memOk : s.tick.memOk :=
  State.countEvents_memOk (State.countIdle_memOk
    (State.countCands_memOk (State.foldl_memOk (fun _ _ hs1 => State.loadAhead_memOk hs1 ..) _
      (State.acknowledge_memOk (State.orderStores_memOk (State.memOk_mk hs) ..) ..)) ..) ..) ..

theorem State.focus_memOk (blk grp : Nat) : (s.focus blk grp).memOk := by
  unfold State.focus
  refine memOk_ite hs ?_
  split
  · exact State.memOk_mk hs
  · exact hs

theorem State.fetchAt_memOk (core aspace va : Nat) (user : Bool) : (s.fetchAt core aspace va user).2.memOk := by
  unfold State.fetchAt
  split
  · next t heq =>
      have ht := snd_of_eq heq (State.translate_memOk hs ..)
      exact ht
  · next t heq =>
      have ht := snd_of_eq heq (State.translate_memOk hs ..)
      exact ht
  · next t heq =>
      have ht := snd_of_eq heq (State.translate_memOk hs ..)
      exact ht
  · next t heq =>
      have ht := snd_of_eq heq (State.translate_memOk hs ..)
      exact snd_ite ht (snd_ite (State.dropFrom_memOk ht ..) (State.fetchWord_memOk ht ..))

theorem State.fetchFault_memOk (p : Path) (cause : BitVec 8) (m : Mask) : (s.fetchFault p cause m).memOk :=
  State.takeTrap_memOk (memOk_ite hs (State.setGrp_memOk hs ..)) ..

theorem State.fetchPath_memOk (b : Bool) (p : Path) : FetchOk (s.fetchPath b p) := by
  unfold State.fetchPath
  split
  · exact hs
  · split
    · exact State.raiseClasses_memOk hs ..
    · split
      · exact State.fetchFault_memOk hs ..
      · split
        · next t heq =>
            have ht := snd_of_eq heq (State.fetchAt_memOk hs ..)
            exact State.replay_memOk ht ..
        · next t heq =>
            have ht := snd_of_eq heq (State.fetchAt_memOk hs ..)
            exact State.fetchFault_memOk ht ..
        · next t heq =>
            have ht := snd_of_eq heq (State.fetchAt_memOk hs ..)
            dsimp only
            split
            · exact State.setGrp_memOk ht ..
            · exact State.takeTrap_memOk (memOk_ite (State.setGrp_memOk ht ..) (State.setGrp_memOk (State.setGrp_memOk ht ..) ..)) ..

theorem State.streamFault_memOk (id : Nat) (cause : BitVec 8) (faddr : Nat) (write fetch : Bool) :
    (s.streamFault id cause faddr write fetch).memOk := by
  unfold State.streamFault
  split
  · exact hs
  · split
    · exact hs
    · exact State.killBlock_memOk hs ..

theorem State.streamMiss_memOk (id : Nat) (fetch : Bool) (pages : List (Nat × Bool)) : (s.streamMiss id fetch pages).memOk := by
  unfold State.streamMiss
  split
  · exact hs
  · split
    · exact hs
    · exact State.modBlk_memOk (foldl_snd (fun acc pg h => by exact State.recordMiss_memOk h ..) _ (by exact hs)) ..

theorem State.fetchStream_memOk (id : Nat) : FetchOk (s.fetchStream id) := by
  unfold State.fetchStream
  split
  · exact hs
  · split
    · exact hs
    · dsimp only
      split
      · exact State.streamFault_memOk hs ..
      · split
        · next t heq =>
            have ht := snd_of_eq heq (State.fetchAt_memOk hs ..)
            exact State.streamMiss_memOk ht ..
        · next t heq =>
            have ht := snd_of_eq heq (State.fetchAt_memOk hs ..)
            exact State.streamFault_memOk ht ..
        · next t heq =>
            have ht := snd_of_eq heq (State.fetchAt_memOk hs ..)
            split
            · exact ht
            · exact State.streamFault_memOk ht ..

theorem State.fetchWho_memOk : FetchOk (s.fetchWho) := by
  unfold State.fetchWho
  split
  · exact hs
  · split
    · split
      · exact State.hold_memOk (memOk_ite (State.memOk_mk hs) hs) ..
      · exact State.fetchPath_memOk hs ..
    · exact hs
  · exact State.fetchStream_memOk hs ..

theorem State.turnLoss_memOk (core : Nat) : (s.turnLoss core).memOk :=
  State.foldl_memOk (fun _ _ hs1 => State.evictLine_memOk hs1 ..) _ (memOk_ite (State.evict_memOk hs ..) hs)

theorem State.select_memOk : s.select.memOk := by
  unfold State.select
  split
  · exact State.memOk_mk hs
  · exact State.turnLoss_memOk (State.memOk_mk (State.focus_memOk hs ..)) ..
  · dsimp only
    split
    · exact State.turnLoss_memOk (State.memOk_mk hs) ..
    · exact State.memOk_mk hs

theorem State.fetch_memOk : FetchOk (s.fetch) := by
  unfold State.fetch
  split
  · exact fetchOk_ite (State.memOk_mk hs) (State.fetchWho_memOk (State.select_memOk hs))
  · exact State.fetchWho_memOk (State.select_memOk hs)

/-! ### Debug -/

theorem execSessionOpen_nextOk (k : SessionSpec) : NextOk (execSessionOpen k s) :=
  memOk_ite (State.refuse_memOk hs ..) (State.memOk_mk hs)

theorem execDebugStopRequest_nextOk (launch blk grp lane : Nat) : NextOk (execDebugStopRequest launch blk grp lane s) := by
  unfold execDebugStopRequest
  split
  · exact hs
  · exact memOk_ite hs (State.modGrp_memOk hs ..)

theorem execPcBreakpoint_nextOk (blk grp : Nat) (slot : Bool) : NextOk (execPcBreakpoint blk grp slot s) := by
  unfold execPcBreakpoint
  split
  · exact memOk_ite hs (memOk_ite (State.hold_memOk hs ..) hs)
  · exact hs

theorem execDebugRelease_nextOk (blk grp : Nat) (slot : Bool) : NextOk (execDebugRelease blk grp slot s) := State.unhold_memOk hs ..

theorem execTriggerPulse_nextOk (line : BitVec 6) : NextOk (execTriggerPulse line s) := State.pulse_memOk hs ..

theorem execTriggerPinIn_nextOk (pin : Fin 4) : NextOk (execTriggerPinIn pin s) :=
  State.foldl_memOk (fun _ _ hs1 => State.pulse_memOk hs1 ..) _ hs

theorem execCueWrite_nextOk (die : Nat) (w : Word) : NextOk (execCueWrite die w s) := State.memOk_mk (State.setCue_memOk hs ..)

theorem execCueAPulse_nextOk (die : Nat) : NextOk (execCueAPulse die s) := State.cueA_memOk hs ..

theorem execCueBPulse_nextOk (die : Nat) (_sameClockAsA : Bool) : NextOk (execCueBPulse die _sameClockAsA s) :=
  memOk_ite hs (memOk_ite (State.pulseSrc_memOk (State.cueB_memOk hs ..) ..) (State.cueB_memOk hs ..))

theorem State.reportQueue_memOk (part : Nat) : (s.reportQueue part).memOk := by
  unfold State.reportQueue
  split
  · exact State.emit_memOk hs ..
  · exact State.refuse_memOk hs ..

theorem State.beforeWrite_memOk (r : CtlReg) (w : Word) : (s.beforeWrite r w).memOk := by
  unfold State.beforeWrite
  split
  · exact memOk_ite (State.drainAcross_memOk hs ..) hs
  all_goals exact hs

theorem execRegisterWrite_nextOk (r : CtlReg) (w : Word) : NextOk (execRegisterWrite r w s) := by
  unfold execRegisterWrite
  refine memOk_ite hs ?_
  dsimp only
  split
  · exact State.reportQueue_memOk (State.beforeWrite_memOk hs ..) ..
  all_goals exact State.memOk_mk (State.beforeWrite_memOk hs ..)

/-! ### Handles -/

theorem State.setHentry_memOk (pid n : Nat) (e : HEntry) : (s.setHentry pid n e).memOk := State.modPart_memOk hs ..

theorem sealWords_memOk (b : Bool) (me : Writer) (l va : Nat) (h : Home) (ks : List Nat) (ws : List Word) :
    (sealWords b me l va h ks ws s).2.memOk := by
  induction ks generalizing s ws with
  | nil => exact hs
  | cons k ks ih =>
    have hr (h n) := State.loaded_memOk (State.readHome_memOk hs me h) b n
    rw [sealWords]
    dsimp only
    split
    · exact hr ..
    · exact ih (hr ..) ..

theorem sealOne_memOk (b : Bool) (pid aspace : Nat) (me : Writer) (l va : Nat) (h : Home) :
    (sealOne b pid aspace me l va h s).2.memOk := by
  unfold sealOne
  split
  · next t heq =>
      have ht := snd_of_eq heq (sealWords_memOk hs ..)
      exact ht
  · next t heq =>
      have ht := snd_of_eq heq (sealWords_memOk hs ..)
      split
      · exact ht
      · split
        · exact ht
        · exact State.changed_memOk (State.setHentry_memOk ht ..) ..

theorem execSeal_nextOk (c : Ctl) (sp : Space) (o : Ord) (d : Reg) (a : Src) (off : BitVec 24) : NextOk (execSeal c sp o d a off s) :=
  issue_memOk hs (fun _ _ _ _ hs1 => State.memory_memOk hs1 (fun _ _ _ _ _ hs2 => sealOne_memOk hs2 ..) ..) ..

theorem State.unsealLanes_memOk (pid aspace : Nat) (l : List (Nat × Val)) (done : List Nat) :
    (State.unsealLanes pid aspace l done s).2.memOk := by
  induction l generalizing s done with
  | nil => exact hs
  | cons x r ih =>
    rw [State.unsealLanes]
    split
    · exact hs
    · exact ih (State.setHentry_memOk hs ..) ..

theorem execUnseal_nextOk (c : Ctl) (a : Src) : NextOk (execUnseal c a s) :=
  issue_memOk hs (fun _ _ _ _ hs1 => memOk_ite
    (State.trapPath_memOk (memOk_ite (State.unsealLanes_memOk hs1 ..) (State.changed_memOk (State.unsealLanes_memOk hs1 ..) ..)) ..)
      (State.next_memOk (State.spend_memOk
        (memOk_ite (State.unsealLanes_memOk hs1 ..) (State.changed_memOk (State.unsealLanes_memOk hs1 ..) ..)) ..) ..)) ..

theorem execHinfo_nextOk (c : Ctl) (f : HField) (d : Reg) (a : Src) : NextOk (execHinfo c f d a s) :=
  issue_memOk hs (fun _ _ _ _ hs1 => memOk_ite (State.trapPath_memOk hs1 ..) (State.finish_memOk hs1 ..)) ..

/-! ### Promises -/

theorem State.find_memOk (me : Option Writer) (pid n c : Nat) (prev : Option Nat) (seen : List Nat) :
    (State.find me pid n c prev seen s).2.memOk := by
  induction n generalizing s c prev seen with
  | zero => exact hs
  | succ n ih =>
    have hd := State.drainFor_memOk hs me c
    unfold State.find
    refine snd_ite hd (snd_ite (State.foldl_memOk (fun _ _ hs1 => State.regWord_memOk hs1 ..) _ hd) (snd_ite hd ?_))
    refine snd_ite (State.dropFrom_memOk hd ..) (ih ?_ ..)
    split
    · exact State.regWord_memOk hd ..
    · exact hd

theorem State.findRoot_memOk (me : Option Writer) (pid c : Nat) : (s.findRoot me pid c).2.memOk := State.find_memOk hs ..

theorem State.asPath_memOk {blk grp : Nat} {b : Bool} {f : State → State} (hk : ∀ t, t.memOk → (f t).memOk) :
    (s.asPath blk grp b f).memOk :=
  State.memOk_mk (memOk_ite (State.focus_memOk (hk _ (State.memOk_mk (State.focus_memOk hs ..))) ..)
    (hk _ (State.memOk_mk (State.focus_memOk hs ..))))

theorem State.promValues_memOk (k : Face) (c : Ctl) (b : Bool) (p : Path) (act : Mask) (dead : Dead) (num : Nat) (ws0 : List RegWrite)
    (os : List LaneOut) (ups : List Raise) :
    (s.promValues k c b p act dead num ws0 os ups).memOk := by
  unfold State.promValues
  dsimp only
  split
  · exact State.replay_memOk (State.retirePart_memOk (State.sweepBar_memOk hs ..) ..) ..
  · exact State.raiseClasses_memOk (State.retire_memOk (State.sweepBar_memOk hs ..) ..) ..

theorem State.promDone_memOk (k : Face) (c : Ctl) (b : Bool) (p : Path) (act : Mask) (num : Nat) (q : Option Pred)
    (st : List (Nat × Nat × Val × Nat)) :
    (s.promDone k c b p act num q st).memOk := State.promValues_memOk (memOk_ite (State.acquireMe_memOk hs ..) hs) ..

theorem State.putProm_memOk (blk grp : Nat) (b : Bool) (w : PromWait) : (s.putProm blk grp b w).memOk := by
  unfold State.putProm
  split
  · exact State.modGrp_memOk hs ..
  · refine State.asPath_memOk hs (fun _ hs1 => ?_)
    dsimp only
    split
    · exact hs1
    · exact State.promDone_memOk (State.setGrp_memOk hs1 ..) ..

theorem State.wakeEntry_memOk (st : Nat) (v : Val) (e : Waiter) : (State.wakeEntry st v s e).memOk := by
  unfold State.wakeEntry
  split
  · exact hs
  · split
    · exact State.putProm_memOk hs ..
    · exact hs

theorem State.wakeAll_memOk (root st : Nat) (v : Val) : (s.wakeAll root st v).memOk :=
  State.foldl_memOk (fun _ _ hs1 => State.wakeEntry_memOk hs1 ..) _ (State.memOk_mk hs)

theorem State.abandon_memOk (w : Nat) : (s.abandon w).memOk := memOk_ite (State.wakeAll_memOk hs ..) hs

theorem State.register_memOk (b : Bool) (root : Nat) (m : Mask) : SomeOk (s.register b root m) := by
  unfold State.register
  dsimp only
  split
  · exact trivial
  · exact State.regWord_memOk (State.memOk_mk hs) ..

theorem State.registerAll_memOk (b : Bool) (va : Nat → Nat) (l : List (Nat × List Nat)) : (State.registerAll b va l s).2.memOk := by
  induction l generalizing s with
  | nil => exact hs
  | cons x t ih =>
    rw [State.registerAll]
    split
    · next heq => exact ih (some_of_eq heq (State.register_memOk hs ..))
    · exact ih (State.setGrp_memOk hs ..)

theorem State.putCell_memOk (me : Writer) (w : Nat) (x : Val) : (s.putCell me w x).memOk :=
  State.regWord_memOk (State.lateWrite_memOk hs ..) ..

theorem pinitOne_memOk (b user : Bool) (me : Writer) (l va : Nat) (h : Home) : (pinitOne b user me l va h s).2.memOk := by
  unfold pinitOne
  split
  · exact hs
  · dsimp only
    split
    · exact State.atHome_memOk hs ..
    · exact State.putCell_memOk
        (memOk_ite (State.abandon_memOk (State.atHome_memOk hs ..) ..)
          (State.changed_memOk (State.abandon_memOk (State.atHome_memOk hs ..) ..) ..)) ..

theorem execPinit_nextOk (c : Ctl) (a : Src) (off : BitVec 24) : NextOk (execPinit c a off s) :=
  issue_memOk hs (fun _ _ _ _ hs1 => State.memory_memOk hs1 (fun _ _ _ _ _ hs2 => pinitOne_memOk hs2 ..) ..) ..

theorem State.fillRoot_memOk (me : Writer) (r : Nat) (v : Val) : (s.fillRoot me r v).memOk :=
  State.wakeAll_memOk (State.putCell_memOk hs ..) ..

theorem pfillOne_memOk (b : Bool) (x : Nat → Val) (me : Writer) (l va : Nat) (h : Home) : (pfillOne b x me l va h s).2.memOk := by
  unfold pfillOne
  split
  · exact hs
  · split
    · next t heq =>
        have ht := snd_of_eq heq (State.findRoot_memOk hs ..)
        exact ht
    · next t heq =>
        have ht := snd_of_eq heq (State.findRoot_memOk hs ..)
        exact ht
    · next t heq =>
        have ht := snd_of_eq heq (State.findRoot_memOk hs ..)
        exact snd_ite (State.changed_memOk (State.fillRoot_memOk ht ..) ..) (snd_ite ht ht)

theorem execPfill_nextOk (c : Ctl) (a x : Src) (off : BitVec 24) : NextOk (execPfill c a x off s) :=
  issue_memOk hs (fun _ _ _ _ hs1 => State.memory_memOk hs1 (fun _ _ _ _ _ hs2 => pfillOne_memOk hs2 ..) ..) ..

theorem State.union_memOk (me : Writer) (ra rb : Nat) : (s.union me ra rb).memOk :=
  State.putCell_memOk (State.putCell_memOk (State.memOk_mk hs) ..) ..

theorem peqOne_memOk (b : Bool) (p : Path) (y : Nat → Val) (me : Writer) (l va : Nat) (h : Home) :
    (peqOne b p y me l va h s).2.memOk := by
  have hl := State.locate_memOk hs p .glb .write (y l).pay.toNat
  unfold peqOne
  dsimp only
  split
  · next t heq =>
    have ht := snd_of_eq heq hl
    split
    · exact ht
    · exact ht
    · next wa wb _ _ =>
      have hu := State.findRoot_memOk (State.findRoot_memOk ht (some me) t.pid wa) (some me) (t.findRoot (some me) t.pid wa).2.pid wb
      generalize (t.findRoot (some me) t.pid wa).2.findRoot (some me) (t.findRoot (some me) t.pid wa).2.pid wb = u at hu ⊢
      have hf (r x) := State.changed_memOk (State.fillRoot_memOk hu me r x) b
      split
      · exact hu
      · exact hu
      · exact hu
      · exact hu
      · exact snd_ite hu (snd_ite (State.changed_memOk (State.union_memOk hu ..) ..) (snd_ite (hf ..) (snd_ite (hf ..) (snd_ite hu hu))))
  all_goals next heq => exact snd_of_eq heq hl

theorem execPeq_nextOk (c : Ctl) (d : Reg) (a y : Src) (q : Pred) : NextOk (execPeq c d a y q s) :=
  issue_memOk hs (fun _ _ _ _ hs1 => State.memory_memOk hs1 (fun _ _ _ _ _ hs2 => peqOne_memOk hs2 ..) ..) ..

theorem prootOne_memOk (me : Writer) (l va : Nat) (h : Home) : (prootOne me l va h s).2.memOk := by
  unfold prootOne
  split
  · exact hs
  · split
    · next t heq =>
        have ht := snd_of_eq heq (State.findRoot_memOk hs ..)
        exact ht
    · next t heq =>
        have ht := snd_of_eq heq (State.findRoot_memOk hs ..)
        exact ht
    · next t heq =>
        have ht := snd_of_eq heq (State.findRoot_memOk hs ..)
        exact ht

theorem execProot_nextOk (c : Ctl) (d : Reg) (a : Src) : NextOk (execProot c d a s) :=
  issue_memOk hs (fun _ _ _ _ hs1 => State.memory_memOk hs1 (fun _ _ _ _ _ hs2 => prootOne_memOk hs2 ..) ..) ..

theorem State.cellAt_memOk (p : Path) (dead : Dead) (l : Nat) (x : Val) : (s.cellAt p dead l x).2.memOk := by
  unfold State.cellAt
  refine snd_ite hs ?_
  split
  · next t heq =>
      have ht := snd_of_eq heq (snd_ite hs (State.locate_memOk hs ..))
      exact ht
  · next t heq =>
      have ht := snd_of_eq heq (snd_ite hs (State.locate_memOk hs ..))
      exact ht
  · next t heq =>
      have ht := snd_of_eq heq (snd_ite hs (State.locate_memOk hs ..))
      exact ht
  · next t heq =>
      have ht := snd_of_eq heq (snd_ite hs (State.locate_memOk hs ..))
      split
      · exact ht
      · split
        · next t heq =>
            have ht := snd_of_eq heq (State.findRoot_memOk ht ..)
            exact ht
        · next t heq =>
            have ht := snd_of_eq heq (State.findRoot_memOk ht ..)
            exact ht
        · next t heq =>
            have ht := snd_of_eq heq (State.findRoot_memOk ht ..)
            exact ht

theorem State.cellsAt_memOk (p : Path) (dead : Dead) (l : List (Nat × Val)) : (State.cellsAt p dead l s).2.memOk := by
  induction l generalizing s with
  | nil => exact hs
  | cons x r ih => exact ih (State.cellAt_memOk hs ..)

theorem promRead_memOk (i : Instr) (c : Ctl) (d : Vec) (a : Src) (q : Option Pred) (wait : Option (BitVec 5)) :
    (promRead i c d a q wait s).memOk := by
  unfold promRead
  refine issue_memOk hs (fun _ _ _ _ hs1 => ?_) ..
  dsimp only
  split
  · exact State.promValues_memOk hs1 ..
  · split
    · exact State.replay_memOk (State.cellsAt_memOk hs1 ..) ..
    · split
      · exact State.promDone_memOk (State.cellsAt_memOk hs1 ..) ..
      · exact State.promDone_memOk (State.cellsAt_memOk hs1 ..) ..
      · exact State.promDone_memOk (State.cellsAt_memOk hs1 ..) ..
      · split
        · exact State.promDone_memOk (State.registerAll_memOk (State.cellsAt_memOk hs1 ..) ..) ..
        · exact State.setGrp_memOk (State.registerAll_memOk (State.cellsAt_memOk hs1 ..) ..) ..

theorem execPwait_nextOk (c : Ctl) (texp : BitVec 5) (d : Vec) (a : Src) : NextOk (execPwait c texp d a s) := promRead_memOk hs ..

theorem execPget_nextOk (c : Ctl) (d : Vec) (a : Src) (q : Pred) : NextOk (execPget c d a q s) := promRead_memOk hs ..

theorem State.timeout_memOk (blk grp : Nat) (slot : Bool) : (s.timeout blk grp slot).memOk := by
  unfold State.timeout
  split
  · exact hs
  · split
    · exact memOk_ite (State.putBar_memOk hs ..) hs
    · exact memOk_ite (State.putProm_memOk (State.freeWaiters_memOk hs ..) ..) hs
    · exact hs

theorem execWaitTimeout_nextOk (blk grp : Nat) (slot : Bool) : NextOk (execWaitTimeout blk grp slot s) := State.timeout_memOk hs ..

end

end Sys2Proof.Machine
end

section
/-! Tiles, nodes and engines keep the canonical form of memory. -/
namespace Sys2Proof.Machine

section
variable {s : State} (hs : s.memOk)
include hs

/-! ### Tiles -/

theorem State.streamAt_memOk (id : Nat) (pc : BitVec 56) : (s.streamAt id pc).memOk := State.modStream_memOk hs ..

theorem onStream_memOk {f : Block → Stream → Nat → State → State} (hk : ∀ a b c t, t.memOk → (f a b c t).memOk) :
    (onStream s f).memOk := by
  unfold onStream
  split
  · exact hk _ _ _ _ hs
  · exact hs

theorem State.streamNext_memOk (b : Block) (t : Stream) (f : Stream → Stream) : (s.streamNext b t f).memOk :=
  State.streamAt_memOk (State.modStream_memOk hs ..) ..

theorem State.streamBad_memOk (b : Block) (cause : BitVec 8) : (s.streamBad b cause).memOk := State.streamFault_memOk hs ..

theorem State.setTile_memOk (core : Nat) (t : Tile) : (s.setTile core t).memOk := State.memOk_mk hs

theorem State.touch_memOk (core aspace va : Nat) : (s.touch core aspace va).memOk := by
  unfold State.touch
  split
  · next t heq =>
      have ht := snd_of_eq heq (State.translate_memOk hs ..)
      exact State.dropFrom_memOk ht ..
  · next t heq =>
      have ht := snd_of_eq heq (State.translate_memOk hs ..)
      exact ht
  · next t heq =>
      have ht := snd_of_eq heq (State.translate_memOk hs ..)
      exact ht
  · next t heq =>
      have ht := snd_of_eq heq (State.translate_memOk hs ..)
      exact ht

theorem State.touchAll_memOk (core aspace space : Nat) (as : List Nat) : (s.touchAll core aspace space as).memOk :=
  memOk_ite hs (State.foldl_memOk (fun _ _ hs1 => State.touch_memOk hs1 ..) _ hs)

theorem State.withReads_memOk {b : Block} {core : Nat} {rec_ : List Word} {ps : List (Nat × List Nat)}
    {f : List (List Byte) → State → State} (hk : ∀ a t, t.memOk → (f a t).memOk) :
    (s.withReads b core rec_ ps f).memOk := by
  unfold State.withReads
  dsimp only
  split
  · exact State.streamMiss_memOk (State.modStream_memOk (State.foldl_memOk (fun _ _ hs1 => State.touchAll_memOk hs1 ..) _ hs) ..) ..
  · exact State.streamFault_memOk (State.foldl_memOk (fun _ _ hs1 => State.touchAll_memOk hs1 ..) _ hs) ..
  · exact hk _ _ (State.modStream_memOk (State.foldl_memOk (fun _ _ hs1 => State.touchAll_memOk hs1 ..) _ hs) ..)

theorem execTclaim_nextOk (acc : Bool) (first count : BitVec 10) : NextOk (execTclaim acc first count s) :=
  onStream_memOk hs (fun _ _ _ _ hs1 => memOk_ite (State.streamBad_memOk hs1 ..) (State.streamNext_memOk hs1 ..))

theorem execTrel_nextOk (acc : Bool) (first count : BitVec 10) : NextOk (execTrel acc first count s) :=
  onStream_memOk hs (fun _ _ _ _ hs1 => memOk_ite (State.streamBad_memOk hs1 ..) (memOk_ite hs1 (State.streamNext_memOk hs1 ..)))

theorem execTloop_nextOk (count : BitVec 24) : NextOk (execTloop count s) :=
  onStream_memOk hs (fun _ _ _ _ hs1 => memOk_ite (State.streamBad_memOk hs1 ..) (State.streamNext_memOk hs1 ..))

theorem execTendl_nextOk : NextOk (execTendl s) := by
  unfold execTendl
  refine onStream_memOk hs (fun _ _ _ _ hs1 => ?_)
  dsimp only
  split
  · exact State.streamBad_memOk hs1 ..
  · exact memOk_ite (State.streamAt_memOk (State.modStream_memOk hs1 ..) ..) (State.streamNext_memOk hs1 ..)

theorem execTstop_nextOk : NextOk (execTstop s) := onStream_memOk hs (fun _ _ _ _ hs1 => memOk_ite hs1 (State.modStream_memOk hs1 ..))

theorem State.tbwt_memOk {b : Block} {t : Stream} {core n : Nat} {self : Bool} {done : State → State}
    (hk : ∀ t, t.memOk → (done t).memOk) :
    (s.tbwt b t core n self done).memOk := by
  unfold State.tbwt
  split
  · exact State.streamBad_memOk hs ..
  · split
    · exact State.streamBad_memOk hs ..
    · exact memOk_ite (hk _ (State.modStream_memOk hs ..)) (memOk_ite (State.modStream_memOk hs ..) (State.streamBad_memOk hs ..))

theorem execTbwt_nextOk (n : Fin 16) (self : Bool) : NextOk (execTbwt n self s) :=
  onStream_memOk hs (fun _ _ _ _ hs1 => State.tbwt_memOk hs1 (fun _ hs2 => State.streamNext_memOk hs2 ..))

theorem execTarr_nextOk (n : Fin 16) : NextOk (execTarr n s) := by
  unfold execTarr
  refine onStream_memOk hs (fun _ _ _ _ hs1 => ?_)
  dsimp only
  split
  · exact State.streamBad_memOk hs1 ..
  · exact memOk_ite (State.streamBad_memOk (State.barUpdate_memOk hs1 ..) ..) (State.streamNext_memOk (State.barUpdate_memOk hs1 ..) ..)

theorem State.loadSlot_memOk (b : Block) (t : Stream) (core slot : Nat) (ps : List (Nat × List Nat)) (d : TileData) :
    (s.loadSlot b t core slot ps d).memOk :=
  memOk_ite (State.spoilSlot_memOk (State.streamNext_memOk hs ..) ..) (State.streamNext_memOk hs ..)

theorem State.tload_memOk (b : Block) (t : Stream) (core slot hw : Nat) (st : TStep) (roleB : Bool) :
    (s.tload b t core slot hw st roleB).memOk := by
  unfold State.tload
  split
  · exact State.streamFault_memOk hs ..
  · exact memOk_ite (State.streamBad_memOk hs ..)
      (State.withReads_memOk hs
        (fun _ _ hs1 => memOk_ite (State.streamBad_memOk hs1 ..)
          (State.withReads_memOk hs1 (fun _ _ hs2 => State.loadSlot_memOk hs2 ..))))

theorem execTload_nextOk (slot : Fin 48) (hw : BitVec 10) (st : TStep) (roleB : Bool) (w : Option TWait) :
    NextOk (execTload slot hw st roleB w s) := by
  unfold execTload
  refine onStream_memOk hs (fun _ _ _ _ hs1 => ?_)
  refine memOk_ite (State.streamBad_memOk hs1 ..) ?_
  dsimp only
  split
  · exact memOk_ite (State.tload_memOk hs1 ..) (State.tbwt_memOk hs1 (fun _ hs2 => State.tload_memOk (State.modStream_memOk hs2 ..) ..))
  · exact State.tload_memOk hs1 ..

theorem State.accVals_memOk (v : Option (List (BitVec 32))) : (s.accVals v).2.memOk := by
  unfold State.accVals
  split
  · exact hs
  · exact State.memOk_mk hs

theorem execTmma_nextOk (acc : Fin 8) (x y : Fin 48) : NextOk (execTmma acc x y s) := by
  unfold execTmma
  refine onStream_memOk hs (fun _ _ _ _ hs1 => ?_)
  dsimp only
  split
  · exact memOk_ite (State.streamBad_memOk hs1 ..)
      (memOk_ite (State.modStream_memOk hs1 ..)
        (State.streamNext_memOk (State.setTile_memOk (State.accVals_memOk (State.worked_memOk hs1 ..) ..) ..) ..))
  · exact State.streamBad_memOk hs1 ..

theorem execTzero_nextOk (acc : Fin 8) : NextOk (execTzero acc s) :=
  onStream_memOk hs (fun _ _ _ _ hs1 => memOk_ite (State.streamBad_memOk hs1 ..) (memOk_ite hs1 (State.streamNext_memOk hs1 ..)))

theorem State.tmmaDone_memOk (core : Nat) : (s.tmmaDone core).memOk := by
  unfold State.tmmaDone
  refine memOk_ite hs ?_
  refine memOk_ite (State.setTile_memOk (State.modStream_memOk hs ..) ..) ?_
  refine memOk_ite (State.setTile_memOk (State.worked_memOk (State.modStream_memOk hs ..) ..) ..) ?_
  dsimp only
  split
  · exact State.record_memOk (State.modStream_memOk (State.setTile_memOk (State.modStream_memOk (State.accVals_memOk hs ..) ..) ..) ..) ..
  · exact State.modStream_memOk (State.setTile_memOk (State.modStream_memOk (State.accVals_memOk hs ..) ..) ..) ..

theorem execTmmaCompletion_nextOk (core : Nat) : NextOk (execTmmaCompletion core s) := State.tmmaDone_memOk hs ..

theorem State.settleWord_memOk (h : Home) : (s.settleWord h).memOk := by
  unfold State.settleWord
  split
  · exact State.drainFor_memOk hs ..
  · exact hs
  · exact hs

theorem State.land_memOk (h : Home) (x : Val) : (s.land h x).memOk := by
  unfold State.land
  split
  · split
    · exact memOk_ite (State.kick_memOk hs ..) hs
    · exact State.regWord_memOk (State.abandon_memOk (State.drainFor_memOk hs ..) ..) ..
  · exact hs
  · exact State.bankWrite_memOk hs ..

theorem State.landRaw_memOk (h : Home) (x : Word) : (s.landRaw h x).memOk := State.land_memOk hs ..

theorem State.landWord_memOk (who : Lander) (h : Home) (whole : Bool) (x : Val) (bytes : BitVec 8) :
    RightOk (s.landWord who h whole x bytes) :=
  rightOk_ite trivial (rightOk_ite trivial
    (rightOk_ite trivial (rightOk_ite (State.settleWord_memOk hs ..)
      (rightOk_ite (rightOk_ite (State.land_memOk (State.settleWord_memOk hs ..) ..)
        (rightOk_ite trivial (State.land_memOk (State.settleWord_memOk hs ..) ..)))
          (State.land_memOk (State.settleWord_memOk hs ..) ..)))))

theorem State.storeWords_memOk (b : Block) (core space : Nat) (l : List ((Nat × Word) × Nat)) (r : Stored) :
    (State.storeWords b core space l r s).2.memOk := by
  induction l generalizing s r with
  | nil => exact hs
  | cons x rest ih =>
    rw [State.storeWords]
    refine snd_ite (ih hs ..) ?_
    split
    · exact ih hs ..
    · exact ih hs ..
    · split
      · exact ih hs ..
      · next heq => exact ih (right_of_eq heq (State.landWord_memOk hs ..)) ..

theorem execTstore_nextOk (acc : Fin 8) (hw : BitVec 10) (st : TStep) : NextOk (execTstore acc hw st s) := by
  unfold execTstore
  refine onStream_memOk hs (fun _ _ _ _ hs1 => ?_)
  dsimp only
  split
  · exact State.streamBad_memOk hs1 ..
  · refine memOk_ite hs1 ?_
    split
    · exact State.streamFault_memOk hs1 ..
    · refine memOk_ite (State.streamBad_memOk hs1 ..) ?_
      split
      · exact State.streamFault_memOk
          (State.touchAll_memOk (State.storeWords_memOk (State.modStream_memOk (State.accVals_memOk hs1 ..) ..) ..) ..) ..
      · exact State.streamMiss_memOk
          (State.modStream_memOk (State.touchAll_memOk
            (State.storeWords_memOk (State.modStream_memOk (State.accVals_memOk hs1 ..) ..) ..) ..) ..) ..
      · exact State.streamNext_memOk
          (State.touchAll_memOk (State.storeWords_memOk (State.modStream_memOk (State.accVals_memOk hs1 ..) ..) ..) ..) ..

theorem execTchk_nextOk (off : BitVec 19) : NextOk (execTchk off s) := by
  unfold execTchk
  refine onStream_memOk hs (fun _ _ _ _ hs1 => ?_)
  refine memOk_ite hs1 ?_
  split
  · exact State.streamNext_memOk (State.landRaw_memOk hs1 ..) ..
  · exact State.streamFault_memOk hs1 ..
  · exact State.streamFault_memOk hs1 ..

/-! ### Nodes -/

theorem State.touchDie_memOk (die aspace va : Nat) : (s.touchDie die aspace va).memOk := by
  unfold State.touchDie
  split
  · next t heq =>
      have ht := snd_of_eq heq (State.walkDie_memOk hs ..)
      exact State.dropFrom_memOk ht ..
  · next t heq =>
      have ht := snd_of_eq heq (State.walkDie_memOk hs ..)
      exact ht
  · next t heq =>
      have ht := snd_of_eq heq (State.walkDie_memOk hs ..)
      exact ht
  · next t heq =>
      have ht := snd_of_eq heq (State.walkDie_memOk hs ..)
      exact ht

theorem State.touchDies_memOk (die aspace : Nat) (as : List Nat) : (s.touchDies die aspace as).memOk :=
  State.foldl_memOk (fun _ _ hs1 => State.touchDie_memOk hs1 ..) _ hs

theorem State.ready_memOk (who : AgentId) (q : Nat → Bool) : (s.ready who q).2.memOk := snd_ite hs (State.memOk_mk hs)

theorem State.missFor_memOk (who : AgentId) (part : Nat) (r : FaultRec) : (s.missFor who part r).memOk :=
  memOk_ite hs (State.recordMiss_memOk hs ..)

theorem State.modNode_memOk (id : Nat) (f : Node → Node) : (s.modNode id f).memOk := State.memOk_mk hs

theorem State.emitHeld_memOk (id n : Nat) : (State.emitHeld id n s).memOk := by
  induction n generalizing s with
  | zero => exact hs
  | succ n ih =>
    rw [State.emitHeld]
    split
    · exact hs
    · split
      · exact hs
      · exact memOk_ite hs (ih (State.memOk_mk (State.modNode_memOk hs ..)))

theorem State.settleNode_memOk (id : Nat) : (s.settleNode id).memOk := State.emitHeld_memOk (State.modNode_memOk hs ..) ..

theorem State.onNode_memOk (id : Nat) (f : Node → Node) : (s.onNode id f).memOk := State.settleNode_memOk (State.modNode_memOk hs ..) ..

theorem State.landAll_memOk (who : Lander) (l : List (Nat × Home × Val)) : (State.landAll who l s).2.memOk := by
  induction l generalizing s with
  | nil => exact hs
  | cons x r ih =>
    rw [State.landAll]
    refine snd_ite hs ?_
    split
    · exact hs
    · next heq => exact ih (right_of_eq heq (State.landWord_memOk hs ..))

theorem State.writeRecord_memOk (die : Nat) (n : Node) (k pc : Nat) (e : Emit) : (s.writeRecord die n k pc e).2.memOk := by
  unfold State.writeRecord
  dsimp only
  split
  · next t heq =>
      have ht := snd_of_eq heq (State.ready_memOk hs ..)
      exact ht
  · next t heq =>
      have ht := snd_of_eq heq (State.ready_memOk hs ..)
      exact ht
  · next t heq =>
      have ht := snd_of_eq heq (State.ready_memOk hs ..)
      split
      · exact State.missFor_memOk (State.touchDies_memOk ht ..) ..
      · exact State.touchDies_memOk ht ..
      · split
        · next t heq =>
            have ht := snd_of_eq heq (State.landAll_memOk (State.touchDies_memOk ht ..) ..)
            exact ht
        · next t heq =>
            have ht := snd_of_eq heq (State.landAll_memOk (State.touchDies_memOk ht ..) ..)
            exact ht

theorem execMatchTemplateCommit_nextOk (node slot : Nat) : NextOk (execMatchTemplateCommit node slot s) := by
  unfold execMatchTemplateCommit
  split
  · exact hs
  · split
    · refine memOk_ite hs ?_
      dsimp only
      split
      · next t heq =>
          have ht := snd_of_eq heq (State.writeRecord_memOk hs ..)
          exact ht
      · next t heq =>
          have ht := snd_of_eq heq (State.writeRecord_memOk hs ..)
          exact State.onNode_memOk (State.memOk_mk ht) ..
      · next t heq =>
          have ht := snd_of_eq heq (State.writeRecord_memOk hs ..)
          exact State.onNode_memOk (State.memOk_mk (State.record_memOk ht ..)) ..
    · exact hs

/-! ### Engines -/

theorem State.modCmd_memOk (id : Nat) (f : Cmd → Cmd) : (s.modCmd id f).memOk := State.memOk_mk hs

theorem State.cmdTouch_memOk (c : Cmd) (l : Loc) : (s.cmdTouch c l).memOk := by
  unfold State.cmdTouch
  split
  · exact memOk_ite (State.touchDie_memOk hs ..) (State.touch_memOk hs ..)
  all_goals exact hs

theorem State.keepOnce_memOk (c : Cmd) (l : Loc) (ws : List (Nat × Val)) : (s.keepOnce c l ws).memOk := by
  unfold State.keepOnce
  dsimp only
  split
  · exact hs
  · exact State.modCmd_memOk hs ..

theorem State.cmdFail_memOk (c : Cmd) (cause : BitVec 8) (va : Nat) (write : Bool) : (s.cmdFail c cause va write).memOk :=
  State.modCmd_memOk hs ..

theorem State.cmdMiss_memOk (c : Cmd) (va : Nat) (write : Bool) : (s.cmdMiss c va write).memOk := State.missFor_memOk hs ..

theorem State.endCmd_memOk (c : Cmd) (fault : Option (BitVec 8 × Nat)) : (s.endCmd c fault).memOk := by
  unfold State.endCmd
  dsimp only
  split
  · exact State.modGrp_memOk (State.memOk_mk hs) ..
  · exact State.memOk_mk hs

theorem State.countLanded_memOk (c : Cmd) (x : Range) (n : Nat) : (s.countLanded c x n).memOk := by
  unfold State.countLanded
  split
  · exact hs
  · exact memOk_ite (State.cmdFail_memOk (State.barUpdate_memOk hs ..) ..) (State.barUpdate_memOk hs ..)

theorem State.unmatchedBytes_memOk (f : Flit) (aspace : Nat) : (s.unmatchedBytes f aspace).memOk :=
  memOk_ite hs (State.record_memOk (State.memOk_mk hs) ..)

theorem State.countFlit_memOk (f : Flit) (aspace n : Nat) : (s.countFlit f aspace n).memOk := by
  unfold State.countFlit
  refine memOk_ite hs ?_
  split
  · exact State.unmatchedBytes_memOk hs ..
  · exact memOk_ite (State.emitHeld_memOk (State.memOk_mk hs) ..) (State.memOk_mk hs)

theorem State.landFlit_memOk (f : Flit) (l : List (Nat × Nat × Home)) : (State.landFlit f l s).2.2.memOk := by
  induction l generalizing s with
  | nil => exact hs
  | cons x r ih =>
    rw [State.landFlit]
    dsimp only
    split
    · exact hs
    · next heq => exact ih (right_of_eq heq (State.landWord_memOk hs ..))

theorem State.logSecurity_memOk (e : SecEntry) : (s.logSecurity e).memOk := State.memOk_mk hs

theorem State.spanArrive_memOk (f : Flit) : (s.spanArrive f).2.memOk := by
  unfold State.spanArrive
  refine snd_ite hs ?_
  refine snd_ite hs ?_
  split
  · exact State.logSecurity_memOk hs ..
  · dsimp only
    split
    · next t heq =>
        have ht := snd_of_eq heq (State.ready_memOk hs ..)
        exact ht
    · next t heq =>
        have ht := snd_of_eq heq (State.ready_memOk hs ..)
        exact State.logSecurity_memOk ht ..
    · next t heq =>
        have ht := snd_of_eq heq (State.ready_memOk hs ..)
        split
        · exact State.missFor_memOk (State.touchDies_memOk ht ..) ..
        · exact snd_ite (State.logSecurity_memOk (State.touchDies_memOk ht ..) ..)
            (State.countFlit_memOk (State.landFlit_memOk (State.touchDies_memOk ht ..) ..) ..)

theorem execSpanFlitReceive_nextOk (f : Flit) : NextOk (execSpanFlitReceive f s) := by
  unfold execSpanFlitReceive
  refine memOk_ite hs ?_
  split
  · next t heq =>
      have ht := snd_of_eq heq (State.spanArrive_memOk hs ..)
      exact ht
  · next t heq =>
      have ht := snd_of_eq heq (State.spanArrive_memOk hs ..)
      exact State.emit_memOk ht ..
  · next t heq =>
      have ht := snd_of_eq heq (State.spanArrive_memOk hs ..)
      exact State.emit_memOk ht ..

theorem State.sendFlit_memOk (f : SentFlit) : (s.sendFlit f).memOk := by
  unfold State.sendFlit
  dsimp only
  split
  · exact hs
  · exact State.memOk_mk (State.emit_memOk hs ..)

theorem State.sendFlits_memOk : s.sendFlits.memOk := State.foldl_memOk (fun _ _ hs1 => State.sendFlit_memOk hs1 ..) _ hs

theorem execSpanPortDown_nextOk (die port : Nat) : NextOk (execSpanPortDown die port s) :=
  memOk_ite hs (State.sendFlits_memOk (State.memOk_mk hs))

theorem State.sendPiece_memOk {c : Cmd} {x : Range} {peer : Nat} {mtag : BitVec 32} {bs : List Byte} {done : State → State}
    (hk : ∀ t, t.memOk → (done t).memOk) :
    (s.sendPiece c x peer mtag bs done).memOk := by
  unfold State.sendPiece
  refine memOk_ite (memOk_ite hs (hk _ (State.sendFlit_memOk (State.memOk_mk hs) ..))) ?_
  split
  · exact State.cmdFail_memOk (State.logSecurity_memOk hs ..) ..
  · split
    · next t heq =>
        have ht := snd_of_eq heq (State.spanArrive_memOk hs ..)
        exact ht
    · next t heq =>
        have ht := snd_of_eq heq (State.spanArrive_memOk hs ..)
        exact hk _ ht
    · next t heq =>
        have ht := snd_of_eq heq (State.spanArrive_memOk hs ..)
        exact State.cmdFail_memOk ht ..

theorem State.movePiece_memOk (c : Cmd) (x : Range) (src : Loc) (rest : List Range) : (s.movePiece c x src rest).memOk := by
  unfold State.movePiece
  dsimp only
  split
  · exact State.cmdMiss_memOk (State.cmdTouch_memOk (State.cmdTouch_memOk hs ..) ..) ..
  · exact State.cmdFail_memOk (State.cmdTouch_memOk (State.cmdTouch_memOk hs ..) ..) ..
  · split
    · split
      · exact State.cmdFail_memOk (State.keepOnce_memOk (State.cmdTouch_memOk (State.cmdTouch_memOk hs ..) ..) ..) ..
      · exact State.sendPiece_memOk (State.keepOnce_memOk (State.cmdTouch_memOk (State.cmdTouch_memOk hs ..) ..) ..)
          (fun _ hs1 => State.modCmd_memOk hs1 ..)
    · split
      · exact State.cmdMiss_memOk
          (State.cmdTouch_memOk (State.keepOnce_memOk (State.cmdTouch_memOk (State.cmdTouch_memOk hs ..) ..) ..) ..) ..
      · exact State.cmdFail_memOk
          (State.cmdTouch_memOk (State.keepOnce_memOk (State.cmdTouch_memOk (State.cmdTouch_memOk hs ..) ..) ..) ..) ..
      · refine memOk_ite (State.cmdFail_memOk
          (State.cmdTouch_memOk (State.keepOnce_memOk (State.cmdTouch_memOk (State.cmdTouch_memOk hs ..) ..) ..) ..) ..) ?_
        split
        · exact State.cmdFail_memOk
            (memOk_ite (State.memOk_mk
              (State.cmdTouch_memOk (State.keepOnce_memOk (State.cmdTouch_memOk (State.cmdTouch_memOk hs ..) ..) ..) ..))
                (State.cmdTouch_memOk (State.keepOnce_memOk (State.cmdTouch_memOk (State.cmdTouch_memOk hs ..) ..) ..) ..)) ..
        · next t heq =>
            have ht := right_of_eq heq
              (State.landWord_memOk (memOk_ite
                (State.memOk_mk (State.cmdTouch_memOk
                  (State.keepOnce_memOk (State.cmdTouch_memOk (State.cmdTouch_memOk hs ..) ..) ..) ..))
                    (State.cmdTouch_memOk (State.keepOnce_memOk (State.cmdTouch_memOk (State.cmdTouch_memOk hs ..) ..) ..) ..)) ..)
            exact State.countLanded_memOk (State.modCmd_memOk ht ..) ..

theorem execEngineLanding_nextOk (cmd k : Nat) : NextOk (execEngineLanding cmd k s) := by
  unfold execEngineLanding
  split
  · exact hs
  · refine memOk_ite hs ?_
    split
    · exact hs
    · refine memOk_ite hs ?_
      split
      · next t heq =>
          have ht := snd_of_eq heq (State.ready_memOk hs ..)
          exact ht
      · next t heq =>
          have ht := snd_of_eq heq (State.ready_memOk hs ..)
          exact State.cmdFail_memOk ht ..
      · next t heq =>
          have ht := snd_of_eq heq (State.ready_memOk hs ..)
          split
          · exact State.movePiece_memOk ht ..
          · exact ht
          · split
            · exact State.cmdMiss_memOk ht ..
            · exact State.cmdFail_memOk ht ..
            · exact memOk_ite (State.cmdFail_memOk (State.keepOnce_memOk ht ..) ..)
                (State.movePiece_memOk (State.modCmd_memOk (State.keepOnce_memOk ht ..) ..) ..)

theorem execEngineCommandComplete_nextOk (cmd : Nat) : NextOk (execEngineCommandComplete cmd s) := by
  unfold execEngineCommandComplete
  split
  · exact hs
  · exact memOk_ite (State.endCmd_memOk hs ..) hs

theorem execEngineCommandFailure_nextOk (cmd : Nat) (fwdAtPeer : Bool) : NextOk (execEngineCommandFailure cmd fwdAtPeer s) := by
  unfold execEngineCommandFailure
  split
  · exact hs
  · dsimp only
    split
    · exact hs
    · split
      · exact State.stopQueue_memOk (State.modPacket_memOk (State.endCmd_memOk (State.record_memOk hs ..) ..) ..) ..
      · exact State.endCmd_memOk (State.record_memOk hs ..) ..

theorem State.issueCmd_memOk (p : Path) (token : Option Nat) (l : Nat) (k : Ask) : (s.issueCmd p token l k).memOk :=
  memOk_ite hs (State.setGrp_memOk (State.memOk_mk hs) ..)

theorem copyIssue_memOk (i : Instr) (c : Ctl) (token : Option (Fin 8)) (plan : State → Bool → Path → Nat → (BitVec 8 × Word) ⊕ Ask) :
    (copyIssue i c token plan s).memOk := by
  unfold copyIssue
  refine issue_memOk hs (fun _ _ _ _ hs1 => ?_) ..
  dsimp only
  split
  · exact State.trapPath_memOk hs1 ..
  · refine State.next_memOk ?_ ..
    refine State.spend_memOk ?_ ..
    refine State.foldl_memOk (fun _ _ hs2 => ?_) _ (memOk_ite hs1 (State.changed_memOk (State.drainGroup_memOk hs1 ..) ..))
    split
    · exact hs2
    · exact State.issueCmd_memOk hs2 ..

theorem execCpy_nextOk (c : Ctl) (ss ds : Space) (k : Comp) (a x n : Src) (doff : BitVec 24) : NextOk (execCpy c ss ds k a x n doff s) :=
  copyIssue_memOk hs ..

theorem execCpym_nextOk (c : Ctl) (ss : Space) (k : Comp) (a x : Src) (geo : Vec) (doff : BitVec 24) :
    NextOk (execCpym c ss k a x geo doff s) := copyIssue_memOk hs ..

theorem execCpyg_nextOk (c : Ctl) (ss ds : Space) (isp : ISpace) (k : Comp) (a x : Src) (geo : Vec) (doff : BitVec 24) :
    NextOk (execCpyg c ss ds isp k a x geo doff s) := copyIssue_memOk hs ..

theorem execCpyr_nextOk (c : Ctl) (ss : Space) (tk : Option (Fin 8)) (peer a x n : Src) (doff : BitVec 24) :
    NextOk (execCpyr c ss tk peer a x n doff s) := copyIssue_memOk hs ..

theorem State.template_memOk (p : Path) (dead : Dead) (sp : Space) (l va n : Nat) : (s.template p dead sp l va n).2.memOk := by
  unfold State.template
  refine foldr_snd (fun a r hr => ?_) _ hs
  dsimp only
  split
  · exact State.settleOwn_memOk hr ..
  all_goals exact hr

theorem State.templates_memOk (p : Path) (dead : Dead) (sp : Space) (l : List (Nat × Option Node × Nat)) :
    (State.templates p dead sp l s).2.memOk := by
  induction l generalizing s with
  | nil => exact hs
  | cons x r ih =>
    obtain ⟨l, n, va⟩ := x
    cases n with
    | none => exact ih hs
    | some n => exact ih (State.template_memOk hs ..)

theorem State.install_memOk (b : Block) (die tag : Nat) (node : Option Node) (exp : Nat) (ws : List (Nat × Val)) :
    (s.install b die tag node exp ws).2.memOk := by
  unfold State.install
  dsimp only
  split
  · exact hs
  · exact snd_ite hs (snd_ite hs (snd_ite hs (State.memOk_mk hs)))

theorem State.installAll_memOk (b : Block) (die : Nat) (l : List (Nat × Nat × Option Node × Nat × List (Nat × Val))) :
    (State.installAll b die l s).2.memOk := by
  induction l generalizing s with
  | nil => exact hs
  | cons x r ih => exact ih (State.install_memOk hs ..)

theorem execNmatch_nextOk (c : Ctl) (ss : Space) (d : Reg) (a x t : Src) : NextOk (execNmatch c ss d a x t s) := by
  unfold execNmatch
  refine issue_memOk hs (fun _ _ _ _ hs1 => ?_) ..
  dsimp only
  split
  · exact hs1
  · split
    · exact State.trapPath_memOk hs1 ..
    · split
      · refine State.replay_memOk ?_ ..
        split
        · exact State.touchAll_memOk (State.templates_memOk hs1 ..) ..
        all_goals exact State.templates_memOk hs1 ..
      · refine State.trapPath_memOk ?_ ..
        split
        · exact State.touchAll_memOk (State.templates_memOk hs1 ..) ..
        all_goals exact State.templates_memOk hs1 ..
      · refine State.finish_memOk ?_ ..
        refine memOk_ite ?_ ?_
        · refine State.installAll_memOk ?_ ..
          split
          · exact State.touchAll_memOk (State.templates_memOk hs1 ..) ..
          all_goals exact State.templates_memOk hs1 ..
        · refine State.changed_memOk ?_ ..
          refine State.installAll_memOk ?_ ..
          split
          · exact State.touchAll_memOk (State.templates_memOk hs1 ..) ..
          all_goals exact State.templates_memOk hs1 ..

theorem State.removeAll_memOk (pid : Nat) (l : List (Nat × Nat)) : (State.removeAll pid l s).2.memOk := by
  induction l generalizing s with
  | nil => exact hs
  | cons x r ih =>
    rw [State.removeAll]
    split
    · exact ih (State.memOk_mk hs)
    · exact ih hs

theorem execNunmatch_nextOk (c : Ctl) (d : Reg) (a : Src) : NextOk (execNunmatch c d a s) :=
  issue_memOk hs (fun _ _ _ _ hs1 => memOk_ite (State.trapPath_memOk hs1 ..)
    (State.finish_memOk (memOk_ite (State.removeAll_memOk hs1 ..) (State.changed_memOk (State.removeAll_memOk hs1 ..) ..)) ..)) ..

end

end Sys2Proof.Machine
end

section
/-! Stages, regions and packets keep the canonical form of memory. -/
namespace Sys2Proof.Machine

section
variable {s : State} (hs : s.memOk)
include hs

/-! ### Stages -/

theorem outsideRegion_memOk {i : Instr} {sc : Sched} {p : Path} {f : State → State} (hk : ∀ t, t.memOk → (f t).memOk) :
    (outsideRegion i sc s p f).memOk := memOk_ite (State.trapPath_memOk hs ..) (hk _ hs)

theorem numLanes_memOk {i : Instr} {sc : Sched} {p : Path} {act : Mask} {ok : Nat → Bool} {f : State → State}
    (hk : ∀ t, t.memOk → (f t).memOk) :
    (numLanes i sc s p act ok f).memOk := memOk_ite (hk _ hs) (State.trapPath_memOk hs ..)

theorem State.endActed_memOk (i : Instr) (c : Ctl) (b : Bool) (p : Path) (act : Mask) (d : Reg) (q : Option Pred) (r : Acted) :
    (s.endActed i c b p act d q r).memOk := by
  unfold State.endActed
  exact State.raiseClasses_memOk (State.retire_memOk (memOk_ite (State.changed_memOk hs ..) hs) ..) ..

theorem State.rallocLanes_memOk (blk : Block) (grp : Nat) (me : Writer) (l : List (Nat × Nat × Nat)) :
    (State.rallocLanes blk grp me l s).2.memOk := by
  induction l generalizing s with
  | nil => exact hs
  | cons x r ih =>
    obtain ⟨l, id, d⟩ := x
    have hn := State.settleNode_memOk hs id
    rw [State.rallocLanes]
    dsimp only
    split
    · exact ih hs
    · refine snd_ite (snd_ite hs (ih hs)) ?_
      split
      · exact ih hn
      · exact snd_ite (ih hn) (ih (State.modNode_memOk (memOk_ite (State.acquireFor_memOk hn ..) hn) ..))

theorem execRalloc_nextOk (c : Ctl) (d : Reg) (a : Src) (q : Pred) : NextOk (execRalloc c d a q s) := by
  unfold execRalloc
  refine issue_memOk hs (fun _ _ _ _ hs1 => ?_) ..
  refine outsideRegion_memOk hs1 (fun _ hs2 => ?_)
  refine numLanes_memOk hs2 (fun _ hs3 => ?_)
  dsimp only
  split
  · exact hs3
  · exact State.endActed_memOk (State.rallocLanes_memOk hs3 ..) ..

theorem execRcommit_nextOk (c : Ctl) (a : Src) : NextOk (execRcommit c a s) := by
  unfold execRcommit
  refine issue_memOk hs (fun _ _ _ _ hs1 => ?_) ..
  refine outsideRegion_memOk hs1 (fun _ hs2 => ?_)
  refine memOk_ite (State.trapPath_memOk hs2 ..) ?_
  refine State.next_memOk ?_ ..
  refine State.spend_memOk ?_ ..
  refine memOk_ite ?_ ?_
  · refine State.foldl_memOk (fun _ _ hs3 => ?_) _ (State.drainGroup_memOk hs2 ..)
    split
    · exact State.onNode_memOk hs3 ..
    · exact hs3
  · refine State.changed_memOk ?_ ..
    refine State.foldl_memOk (fun _ _ hs3 => ?_) _ (State.drainGroup_memOk hs2 ..)
    split
    · exact State.onNode_memOk hs3 ..
    · exact hs3

theorem State.slotsDone_memOk (blk id first : Nat) (ls : List Nat) : (s.slotsDone blk id first ls).memOk := State.onNode_memOk hs ..

theorem execRdone_nextOk (c : Ctl) : NextOk (execRdone c s) := by
  unfold execRdone
  refine issue_memOk hs (fun _ _ _ _ hs1 => ?_) ..
  refine outsideRegion_memOk hs1 (fun _ hs2 => ?_)
  dsimp only
  split
  · exact State.next_memOk (State.spend_memOk
      (memOk_ite (State.changed_memOk (State.slotsDone_memOk (State.drainGroup_memOk hs2 ..) ..) ..)
        (State.drainGroup_memOk hs2 ..)) ..) ..
  · exact State.trapPath_memOk hs2 ..

theorem State.rflushLanes_memOk (blk : Block) (l : List (Nat × Nat)) : (State.rflushLanes blk l s).2.memOk := by
  induction l generalizing s with
  | nil => exact hs
  | cons x r ih =>
    have hn := State.settleNode_memOk hs x.2
    refine ih ?_
    split
    · exact hn
    · exact snd_ite hn (State.modNode_memOk hn ..)

theorem execRflush_nextOk (c : Ctl) (d : Reg) (a : Src) : NextOk (execRflush c d a s) := by
  unfold execRflush
  refine issue_memOk hs (fun _ _ _ _ hs1 => ?_) ..
  refine numLanes_memOk hs1 (fun _ hs2 => ?_)
  dsimp only
  split
  · exact hs2
  · exact State.finish_memOk (memOk_ite (State.changed_memOk (State.rflushLanes_memOk hs2 ..) ..) (State.rflushLanes_memOk hs2 ..)) ..

theorem State.rcardLanes_memOk (blk : Block) (token : Option (Nat × Nat × Nat)) (l : List (Nat × Nat × Nat × Nat × Nat)) :
    (State.rcardLanes blk token l s).2.memOk := by
  induction l generalizing s with
  | nil => exact hs
  | cons x r ih =>
    obtain ⟨l, id, base, n, d⟩ := x
    rw [State.rcardLanes]
    dsimp only
    split
    · exact ih hs
    · exact snd_ite (snd_ite hs (ih hs)) (snd_ite (ih hs) (ih (State.memOk_mk hs)))

theorem execRcard_nextOk (c : Ctl) (tk : Option (Fin 8)) (d : Reg) (a x n : Src) : NextOk (execRcard c tk d a x n s) := by
  unfold execRcard
  refine issue_memOk hs (fun _ _ _ _ hs1 => ?_) ..
  refine outsideRegion_memOk hs1 (fun _ hs2 => ?_)
  refine numLanes_memOk hs2 (fun _ hs3 => ?_)
  dsimp only
  split
  · exact hs3
  · split
    · exact State.trapPath_memOk hs3 ..
    · refine State.endActed_memOk ?_ ..
      split
      · exact memOk_ite (State.setGrp_memOk (State.rcardLanes_memOk (memOk_ite hs3 (State.drainGroup_memOk hs3 ..)) ..) ..)
          (State.rcardLanes_memOk (memOk_ite hs3 (State.drainGroup_memOk hs3 ..)) ..)
      · exact State.rcardLanes_memOk (memOk_ite hs3 (State.drainGroup_memOk hs3 ..)) ..

theorem State.endToken_memOk (blk grp t : Nat) (fault : Option (BitVec 8 × Word)) : (s.endToken blk grp t fault).memOk :=
  State.modGrp_memOk hs ..

theorem execCardComplete_nextOk (card : Nat) : NextOk (execCardComplete card s) := by
  unfold execCardComplete
  split
  · exact hs
  · refine memOk_ite hs ?_
    dsimp only
    split
    · exact State.endToken_memOk (State.memOk_mk hs) ..
    · exact State.memOk_mk hs

theorem execNodeTimerExpiry_nextOk (node : Nat) : NextOk (execNodeTimerExpiry node s) := by
  unfold execNodeTimerExpiry
  dsimp only
  split
  · exact State.settleNode_memOk hs ..
  · exact memOk_ite (State.modNode_memOk (State.settleNode_memOk hs ..) ..) (State.settleNode_memOk hs ..)

/-! ### Regions -/

theorem State.withJob_memOk (pid job : Nat) : (s.withJob pid job).memOk := memOk_ite hs (State.memOk_mk hs)

theorem State.modJob_memOk (pid job : Nat) (f : Job → Job) : (s.modJob pid job f).memOk := State.memOk_mk hs

/-! ### Packets -/

theorem State.setVf_memOk (id : Nat) (st : TdispSt) : (s.setVf id st).memOk := State.memOk_mk hs

theorem State.vfError_memOk (v : Vf) : (s.vfError v).memOk :=
  State.foldl_memOk (fun _ _ hs1 => State.killBlock_memOk hs1 ..) _
    (State.foldl_memOk (fun _ _ hs1 => State.stopQueue_memOk hs1 ..) _ (State.setVf_memOk hs ..))

theorem State.byFunction_memOk {fn pid tenant what : Nat} {go : State → State} (hk : ∀ t, t.memOk → (go t).memOk) :
    (s.byFunction fn pid tenant what go).memOk := by
  unfold State.byFunction
  refine memOk_ite (hk _ hs) ?_
  split
  · exact State.refuse_memOk hs ..
  · exact memOk_ite (State.refuse_memOk hs ..) (memOk_ite (State.refuse_memOk (State.vfError_memOk hs ..) ..) (hk _ hs))

theorem execQueueBind_nextOk (ask : BindAsk) (aspace qcb : Nat) : NextOk (execQueueBind ask aspace qcb s) := by
  unfold execQueueBind
  dsimp only
  split
  · exact State.refuse_memOk (State.vfError_memOk hs ..) ..
  · split
    · exact State.refuse_memOk hs ..
    · exact State.byFunction_memOk hs
        (fun _ hs1 => memOk_ite (State.refuse_memOk hs1 ..)
          (memOk_ite (State.stopQueue_memOk hs1 ..) (State.showQueue_memOk (State.withJob_memOk (State.memOk_mk hs1) ..) ..)))
  · exact State.refuse_memOk hs ..

theorem execQueueKick_nextOk (bell : Bell) (w : Word) : NextOk (execQueueKick bell w s) := by
  unfold execQueueKick
  split
  · exact State.kick_memOk hs ..
  · exact hs

theorem State.checkQueue_memOk (q : Nat) : (s.checkQueue q).memOk := by
  unfold State.checkQueue
  split
  · exact hs
  · refine memOk_ite hs ?_
    dsimp only
    split
    · exact memOk_ite (State.vfError_memOk (memOk_ite (State.stopQueue_memOk hs ..) hs) ..) (memOk_ite (State.stopQueue_memOk hs ..) hs)
    · exact memOk_ite (State.stopQueue_memOk hs ..) hs

theorem execQueueCheck_nextOk (q : Nat) : NextOk (execQueueCheck q s) := State.checkQueue_memOk hs ..

theorem State.packetFail_memOk (k : Queue) (i : Nat) (cause : BitVec 8) (va : Nat) (write : Bool) :
    (s.packetFail k i cause va write).memOk := State.stopQueue_memOk (State.modPacket_memOk (State.record_memOk hs ..) ..) ..

theorem State.packetReads_memOk {k : Queue} {i va n : Nat} {f : List Val → State → State} (hk : ∀ a t, t.memOk → (f a t).memOk) :
    (s.packetReads k i va n f).memOk := by
  unfold State.packetReads
  dsimp only
  split
  · next t heq =>
      have ht := snd_of_eq heq (State.ready_memOk hs ..)
      exact ht
  · next t heq =>
      have ht := snd_of_eq heq (State.ready_memOk hs ..)
      exact State.packetFail_memOk ht ..
  · next t heq =>
      have ht := snd_of_eq heq (State.ready_memOk hs ..)
      split
      · exact State.missFor_memOk (State.touchDies_memOk ht ..) ..
      · exact State.packetFail_memOk (State.touchDies_memOk ht ..) ..
      · exact hk _ _ (State.touchDies_memOk ht ..)

theorem State.packetHome_memOk {k : Queue} {i va : Nat} {need : Need} {f : Home → State → State} (hk : ∀ a t, t.memOk → (f a t).memOk) :
    (s.packetHome k i va need f).memOk := by
  unfold State.packetHome
  dsimp only
  split
  · next t heq =>
      have ht := snd_of_eq heq (State.ready_memOk hs ..)
      exact ht
  · next t heq =>
      have ht := snd_of_eq heq (State.ready_memOk hs ..)
      exact State.packetFail_memOk ht ..
  · next t heq =>
      have ht := snd_of_eq heq (State.ready_memOk hs ..)
      split
      · exact State.missFor_memOk (State.touchDie_memOk ht ..) ..
      · exact State.packetFail_memOk (State.touchDie_memOk ht ..) ..
      · exact hk _ _ (State.touchDie_memOk ht ..)

theorem State.takeLanes_memOk (die : Nat) : (s.takeLanes die).memOk := memOk_ite hs (State.memOk_mk hs)

theorem State.startPacket_memOk {k : Queue} {i : Nat} {sel : List Word → Bool} {f : Queue → Packet → State → State}
    (hk : ∀ a b t, t.memOk → (f a b t).memOk) :
    (s.startPacket k i sel f).memOk := by
  unfold State.startPacket
  refine memOk_ite hs ?_
  refine State.packetReads_memOk hs (fun _ _ hs1 => ?_)
  refine memOk_ite (State.stopQueue_memOk (State.takeLanes_memOk hs1 ..) ..) ?_
  refine memOk_ite (State.takeLanes_memOk hs1 ..) ?_
  dsimp only
  split
  · exact hk _ _ _ (State.showQueue_memOk (State.modQueue_memOk (State.takeLanes_memOk hs1 ..) ..) ..)
  · exact State.showQueue_memOk (State.modQueue_memOk (State.takeLanes_memOk hs1 ..) ..) ..

theorem onPacket_memOk {q i : Nat} {sel : List Word → Bool} {f : Queue → Packet → State → State}
    (hk : ∀ a b t, t.memOk → (f a b t).memOk) :
    (onPacket q i sel f s).memOk := by
  unfold onPacket
  split
  · exact hs
  · split
    · exact memOk_ite (hk _ _ _ hs) hs
    · exact State.startPacket_memOk hs (fun _ _ _ hs1 => hk _ _ _ hs1)

theorem State.effected_memOk (k : Queue) (i : Nat) : (s.effected k i).memOk := State.modPacket_memOk hs ..

theorem execSignalStore_nextOk (q i : Nat) : NextOk (execSignalStore q i s) := by
  unfold execSignalStore
  refine onPacket_memOk hs (fun _ _ _ hs1 => ?_)
  refine State.packetHome_memOk hs1 (fun _ _ hs2 => ?_)
  split
  · exact State.packetFail_memOk hs2 ..
  · exact State.effected_memOk (State.land_memOk hs2 ..) ..

theorem State.devAdd_memOk (h : Home) (x : Word) : RightOk (s.devAdd h x) := by
  unfold State.devAdd
  refine rightOk_ite trivial ?_
  dsimp only
  split
  · exact trivial
  · refine rightOk_ite ?_ ?_
    · split
      · exact State.drainFor_memOk hs ..
      · exact hs
      · exact hs
    · split
      · exact trivial
      · refine State.land_memOk ?_ ..
        split
        · exact State.drainFor_memOk hs ..
        · exact hs
        · exact hs

theorem execSignalAdd_nextOk (q i : Nat) : NextOk (execSignalAdd q i s) := by
  unfold execSignalAdd
  refine onPacket_memOk hs (fun _ _ _ hs1 => ?_)
  refine State.packetHome_memOk hs1 (fun _ _ hs2 => ?_)
  split
  · exact State.packetFail_memOk hs2 ..
  · next t heq =>
      have ht := right_of_eq heq (State.devAdd_memOk hs2 ..)
      exact State.effected_memOk ht ..

theorem execSignalPfill_nextOk (q i : Nat) : NextOk (execSignalPfill q i s) := by
  unfold execSignalPfill
  refine onPacket_memOk hs (fun _ _ _ hs1 => ?_)
  refine State.packetHome_memOk hs1 (fun _ _ hs2 => ?_)
  split
  · exact State.packetFail_memOk hs2 ..
  · split
    · next t heq =>
        have ht := snd_of_eq heq (State.findRoot_memOk hs2 ..)
        exact State.packetFail_memOk ht ..
    · next t heq =>
        have ht := snd_of_eq heq (State.findRoot_memOk hs2 ..)
        exact State.packetFail_memOk ht ..
    · next t heq =>
        have ht := snd_of_eq heq (State.findRoot_memOk hs2 ..)
        exact memOk_ite (State.effected_memOk (State.wakeAll_memOk (State.regWord_memOk ht ..) ..) ..)
          (memOk_ite (State.effected_memOk ht ..) (State.packetFail_memOk ht ..))

theorem execSignalTlbi_nextOk (q i : Nat) : NextOk (execSignalTlbi q i s) :=
  onPacket_memOk hs (fun _ _ _ hs1 => State.effected_memOk (State.tlbi_memOk hs1 ..) ..)

theorem State.packetRecord_memOk (k : Queue) (p : Packet) (id base total : Nat) : (s.packetRecord k p id base total).memOk := by
  unfold State.packetRecord
  split
  · exact State.stopQueue_memOk (State.modPacket_memOk hs ..) ..
  · dsimp only
    split
    · split
      · split
        · next t heq =>
            have ht := snd_of_eq heq (State.writeRecord_memOk hs ..)
            exact State.modPacket_memOk ht ..
        · next t heq =>
            have ht := snd_of_eq heq (State.writeRecord_memOk hs ..)
            exact memOk_ite (State.effected_memOk (State.modPacket_memOk (State.onNode_memOk ht ..) ..) ..)
              (State.modPacket_memOk (State.onNode_memOk ht ..) ..)
        · next t heq =>
            have ht := snd_of_eq heq (State.writeRecord_memOk hs ..)
            exact State.packetFail_memOk (State.onNode_memOk ht ..) ..
      · exact hs
    · refine State.packetReads_memOk hs (fun _ _ hs1 => ?_)
      split
      · exact State.settleNode_memOk hs1 ..
      · refine memOk_ite (State.settleNode_memOk hs1 ..) ?_
        split
        · next t heq =>
            have ht := snd_of_eq heq (State.writeRecord_memOk (State.modNode_memOk (State.settleNode_memOk hs1 ..) ..) ..)
            exact State.modPacket_memOk ht ..
        · next t heq =>
            have ht := snd_of_eq heq (State.writeRecord_memOk (State.modNode_memOk (State.settleNode_memOk hs1 ..) ..) ..)
            exact memOk_ite (State.effected_memOk (State.modPacket_memOk (State.onNode_memOk ht ..) ..) ..)
              (State.modPacket_memOk (State.onNode_memOk ht ..) ..)
        · next t heq =>
            have ht := snd_of_eq heq (State.writeRecord_memOk (State.modNode_memOk (State.settleNode_memOk hs1 ..) ..) ..)
            exact State.packetFail_memOk (State.onNode_memOk ht ..) ..

theorem execSignalCommit_nextOk (q i : Nat) : NextOk (execSignalCommit q i s) :=
  onPacket_memOk hs (fun _ _ _ hs1 => State.packetRecord_memOk hs1 ..)

theorem execCard_nextOk (q i : Nat) : NextOk (execCard q i s) := onPacket_memOk hs (fun _ _ _ hs1 => State.packetRecord_memOk hs1 ..)

theorem State.waitvRead_memOk (k : Queue) (p : Packet) : (s.waitvRead k p).memOk :=
  State.packetHome_memOk hs (fun _ _ hs1 => memOk_ite (State.effected_memOk hs1 ..) (State.modPacket_memOk hs1 ..))

theorem execWaitv_nextOk (q i : Nat) : NextOk (execWaitv q i s) :=
  onPacket_memOk hs (fun _ _ _ hs1 => memOk_ite (State.waitvRead_memOk hs1 ..) hs1)

theorem execWaitvPoll_nextOk (q i : Nat) : NextOk (execWaitvPoll q i s) := by
  unfold execWaitvPoll
  split
  · exact hs
  · split
    · exact memOk_ite (State.waitvRead_memOk hs ..) hs
    · exact hs

theorem execRcbset_nextOk (q i : Nat) : NextOk (execRcbset q i s) := by
  unfold execRcbset
  refine onPacket_memOk hs (fun _ _ _ hs1 => ?_)
  refine State.packetReads_memOk hs1 (fun _ _ hs2 => ?_)
  split
  · exact memOk_ite (State.effected_memOk (State.memOk_mk hs2) ..) (State.stopQueue_memOk (State.modPacket_memOk hs2 ..) ..)
  · exact State.stopQueue_memOk (State.modPacket_memOk hs2 ..) ..

theorem execCopy_nextOk (q i : Nat) : NextOk (execCopy q i s) :=
  onPacket_memOk hs (fun _ _ _ hs1 => memOk_ite hs1
    (memOk_ite (State.effected_memOk hs1 ..) (State.modPacket_memOk (State.memOk_mk hs1) ..)))

theorem execMarker_nextOk (q i : Nat) : NextOk (execMarker q i s) :=
  onPacket_memOk hs (fun _ _ _ hs1 => State.effected_memOk (State.pulseSrc_memOk (memOk_ite (State.trace_memOk hs1 ..) hs1) ..) ..)

theorem execLaunch_nextOk (q i : Nat) : NextOk (execLaunch q i s) := by
  unfold execLaunch
  refine onPacket_memOk hs (fun _ _ _ hs1 => ?_)
  refine memOk_ite hs1 ?_
  refine State.packetReads_memOk hs1 (fun _ _ hs2 => ?_)
  dsimp only
  split
  · exact State.stopQueue_memOk (State.modPacket_memOk hs2 ..) ..
  · split
    · exact State.stopQueue_memOk (State.modPacket_memOk hs2 ..) ..
    · exact State.withJob_memOk (State.memOk_mk hs2) ..

theorem execGraphBind_nextOk (q i : Nat) : NextOk (execGraphBind q i s) := by
  unfold execGraphBind
  refine onPacket_memOk hs (fun _ _ _ hs1 => ?_)
  refine State.packetReads_memOk hs1 (fun _ _ hs2 => ?_)
  refine State.packetHome_memOk hs2 (fun _ _ hs3 => ?_)
  refine memOk_ite ?_ ?_
  · dsimp only
    split
    · exact State.packetFail_memOk hs3 ..
    · next t heq =>
        have ht := right_of_eq heq (State.landWord_memOk hs3 ..)
        exact State.effected_memOk ht ..
  · refine memOk_ite ?_ ?_
    · dsimp only
      split
      · exact State.packetFail_memOk hs3 ..
      · next t heq =>
          have ht := right_of_eq heq (State.landWord_memOk hs3 ..)
          exact State.effected_memOk ht ..
    · split
      · dsimp only
        split
        · split
          · exact State.packetFail_memOk hs3 ..
          · next t heq =>
              have ht := right_of_eq heq (State.landWord_memOk hs3 ..)
              exact State.effected_memOk ht ..
        · refine memOk_ite ?_ ?_
          · split
            · exact State.packetFail_memOk hs3 ..
            · next t heq =>
                have ht := right_of_eq heq (State.landWord_memOk hs3 ..)
                exact State.effected_memOk ht ..
          · split
            · exact State.packetFail_memOk (State.settleNode_memOk (State.withJob_memOk (State.memOk_mk hs3) ..) ..) ..
            · next t heq =>
                have ht := right_of_eq heq
                  (State.landWord_memOk (State.settleNode_memOk (State.withJob_memOk (State.memOk_mk hs3) ..) ..) ..)
                exact State.effected_memOk ht ..
      · dsimp only
        split
        · exact State.packetFail_memOk hs3 ..
        · next t heq =>
            have ht := right_of_eq heq (State.landWord_memOk hs3 ..)
            exact State.effected_memOk ht ..

theorem execGraphUnbind_nextOk (q i : Nat) : NextOk (execGraphUnbind q i s) := by
  unfold execGraphUnbind
  refine onPacket_memOk hs (fun _ _ _ hs1 => ?_)
  dsimp only
  split
  · refine State.packetHome_memOk hs1 (fun _ _ hs2 => ?_)
    split
    · exact State.packetFail_memOk hs2 ..
    · next t heq =>
        have ht := right_of_eq heq (State.landWord_memOk hs2 ..)
        exact State.effected_memOk ht ..
  · refine memOk_ite (State.modNode_memOk hs1 ..) ?_
    refine State.packetHome_memOk (State.modNode_memOk hs1 ..) (fun _ _ hs2 => ?_)
    split
    · exact State.packetFail_memOk hs2 ..
    · next t heq =>
        have ht := right_of_eq heq (State.landWord_memOk (State.memOk_mk hs2) ..)
        exact State.effected_memOk ht ..

theorem execPacketComplete_nextOk (q i : Nat) : NextOk (execPacketComplete q i s) := by
  unfold execPacketComplete
  split
  · exact hs
  · split
    · exact hs
    · refine memOk_ite hs ?_
      refine memOk_ite (memOk_ite
        (State.raiseVec_memOk (State.showQueue_memOk (State.modQueue_memOk (State.modPacket_memOk (State.memOk_mk hs) ..) ..) ..) ..)
          (State.showQueue_memOk (State.modQueue_memOk (State.modPacket_memOk (State.memOk_mk hs) ..) ..) ..)) ?_
      refine State.packetHome_memOk hs (fun _ _ hs1 => ?_)
      dsimp only
      split
      · exact State.packetFail_memOk hs1 ..
      · next t heq =>
          have ht := right_of_eq heq (State.devAdd_memOk hs1 ..)
          exact memOk_ite (State.raiseVec_memOk
            (State.showQueue_memOk (State.modQueue_memOk (State.modPacket_memOk (State.memOk_mk ht) ..) ..) ..) ..)
              (State.showQueue_memOk (State.modQueue_memOk (State.modPacket_memOk (State.memOk_mk ht) ..) ..) ..)

/-! ### Setup -/


end

end Sys2Proof.Machine
end

section
/-! Placing, pre-emption and faults keep the canonical form of memory. -/
namespace Sys2Proof.Machine

section
variable {s : State} (hs : s.memOk)
include hs

/-! ### Scheduling -/

theorem State.withWindow_memOk (pid : Nat) (e : Eff) (die : Nat) : SomeOk (s.withWindow pid e die) := by
  unfold State.withWindow
  refine someOk_ite hs ?_
  dsimp only
  split
  · next heq =>
    split at heq
    · exact absurd heq nofun
    · obtain rfl := Option.some.inj heq
      exact State.memOk_mk hs
  · split
    · exact trivial
    · exact State.memOk_mk (State.memOk_mk hs)

theorem State.initSpd_memOk (b : Block) : (s.initSpd b).memOk :=
  State.foldl_memOk (fun _ _ hs1 => State.memOk_mk
    (State.acquire_memOk (State.foldl_memOk (fun _ _ hs2 => memOk_ite hs2 (State.setSpd_memOk (State.setSpd_memOk hs2 ..) ..)) _
      (State.clearSpd_memOk hs1 ..)) ..)) _ hs

theorem State.startBlock_memOk (b : Block) (p : Place) (depth : List Nat) : SomeOk (s.startBlock b p depth) := by
  unfold State.startBlock
  refine someOk_ite trivial ?_
  split
  · exact trivial
  · next t heq =>
      have ht := some_of_eq heq (State.withWindow_memOk hs ..)
      exact State.modPart_memOk (State.memOk_mk (State.initSpd_memOk ht ..)) ..

theorem State.modLaunch_memOk (id : Nat) (f : Launch → Launch) : (s.modLaunch id f).memOk := State.memOk_mk hs

theorem execBlockAdmission_nextOk (launch : Nat) : NextOk (execBlockAdmission launch s) := by
  unfold execBlockAdmission
  split
  · exact hs
  · exact memOk_ite hs (memOk_ite (State.modLaunch_memOk hs ..) (State.account_memOk (State.modLaunch_memOk hs ..) ..))

theorem execBlockPlacement_nextOk (launch : Nat) (weights : List (Nat × Nat)) : NextOk (execBlockPlacement launch weights s) := by
  unfold execBlockPlacement
  split
  · exact hs
  · refine memOk_ite hs ?_
    split
    · exact hs
    · dsimp only
      split
      · exact hs
      · next t heq =>
          have ht := some_of_eq heq (State.startBlock_memOk (State.memOk_mk hs) ..)
          exact State.modLaunch_memOk ht ..

theorem State.launchNode_memOk (n : Node) (core count recbase first : Nat) (card : Option Nat) (depth : List Nat) :
    SomeOk (s.launchNode n core count recbase first card depth) := by
  unfold State.launchNode
  refine someOk_ite trivial (someOk_map (State.startBlock_memOk (State.memOk_mk hs) ..) fun _ ht => ?_)
  exact State.modNode_memOk (State.account_memOk ht ..) ..

theorem State.refuseNode_memOk (n : Node) (core : Nat) : (s.refuseNode n core).memOk := memOk_ite (State.modNode_memOk hs ..) hs

theorem execNodeLaunch_nextOk (node core : Nat) : NextOk (execNodeLaunch node core s) := by
  unfold execNodeLaunch
  dsimp only
  split
  · exact State.settleNode_memOk hs ..
  · refine memOk_ite (State.settleNode_memOk hs ..) ?_
    split
    · exact State.refuseNode_memOk (State.settleNode_memOk hs ..) ..
    · next t heq =>
        have ht := some_of_eq heq (State.launchNode_memOk (State.settleNode_memOk hs ..) ..)
        exact State.modNode_memOk ht ..

theorem execCardLaunch_nextOk (node core : Nat) : NextOk (execCardLaunch node core s) := by
  unfold execCardLaunch
  split
  · refine memOk_ite hs ?_
    dsimp only
    split
    · exact State.refuseNode_memOk hs ..
    · next t heq =>
        have ht := some_of_eq heq (State.launchNode_memOk hs ..)
        exact State.memOk_mk ht
  · exact hs

theorem State.nowIdle_memOk (cores : List Nat) : (s.nowIdle cores).memOk :=
  State.foldl_memOk (fun _ _ hs1 => memOk_ite (State.memOk_mk hs1) hs1) _ hs

theorem State.dropGroups_memOk (q : Group → Bool) : (s.dropGroups q).memOk := State.memOk_mk hs

theorem State.releaseSlots_memOk (b : Block) : (s.releaseSlots b).memOk := by
  unfold State.releaseSlots
  split
  · exact State.slotsDone_memOk hs ..
  · exact hs
  · exact hs

theorem execGroupResourceRelease_nextOk (blk grp : Nat) : NextOk (execGroupResourceRelease blk grp s) := by
  unfold execGroupResourceRelease
  split
  · exact memOk_ite hs (State.nowIdle_memOk (State.dropGroups_memOk (State.releaseSlots_memOk hs ..) ..) ..)
  · exact hs

theorem State.freeBlock_memOk (b : Block) : (s.freeBlock b).memOk := by
  unfold State.freeBlock
  refine State.nowIdle_memOk ?_ ..
  split
  · exact State.modLaunch_memOk
      (State.modJob_memOk (State.account_memOk
        (State.memOk_mk (State.dropGroups_memOk (State.freeWaiters_memOk (State.releaseSlots_memOk hs ..) ..) ..)) ..) ..) ..
  · exact State.modJob_memOk
      (State.account_memOk (State.memOk_mk
        (State.dropGroups_memOk (State.freeWaiters_memOk (State.releaseSlots_memOk hs ..) ..) ..)) ..) ..

theorem execBlockEnd_nextOk (blk : Nat) : NextOk (execBlockEnd blk s) := by
  unfold execBlockEnd
  split
  · exact hs
  · refine memOk_ite hs ?_
    split
    · exact State.freeBlock_memOk (State.record_memOk (State.drainBlock_memOk hs ..) ..) ..
    · exact memOk_ite hs (State.freeBlock_memOk hs ..)

theorem State.startWindow_memOk : s.startWindow.memOk := memOk_ite hs (State.memOk_mk hs)

theorem execEnergyWindowStart_nextOk : NextOk (execEnergyWindowStart s) := State.startWindow_memOk hs

theorem execDemotionExpiry_nextOk (blk grp : Nat) (slot : Bool) : NextOk (execDemotionExpiry blk grp slot s) := State.modGrp_memOk hs ..

theorem State.gateCore_memOk (core : Nat) : (s.gateCore core).memOk := memOk_ite (State.memOk_mk hs) hs

theorem State.gateTile_memOk (core : Nat) : (s.gateTile core).memOk := memOk_ite hs (State.setTile_memOk hs ..)

theorem State.gateIdle_memOk : s.gateIdle.memOk :=
  State.foldl_memOk (fun _ _ hs1 => State.gateTile_memOk hs1 ..) _
    (memOk_ite (State.foldl_memOk (fun _ _ hs1 => State.gateCore_memOk hs1 ..) _ hs) hs)

theorem execCorePowerGate_nextOk (core : Nat) : NextOk (execCorePowerGate core s) := State.gateCore_memOk hs ..

theorem execTileEnginePowerGate_nextOk (core : Nat) : NextOk (execTileEnginePowerGate core s) := State.gateTile_memOk hs ..

theorem execCoreWake_nextOk (core : Nat) : NextOk (execCoreWake core s) := by
  unfold execCoreWake
  split
  · exact hs
  · exact memOk_ite hs (State.memOk_mk hs)

theorem State.withhold_memOk : s.withhold.memOk := by
  unfold State.withhold
  split
  · exact hs
  · exact State.memOk_mk hs

theorem execThermalThrottle_nextOk (die : Nat) (on : Bool) : NextOk (execThermalThrottle die on s) :=
  memOk_ite (State.withhold_memOk (State.memOk_mk hs)) (memOk_ite (State.memOk_mk (State.memOk_mk hs)) (State.memOk_mk hs))

theorem execThermalShutdown_nextOk (die : Nat) : NextOk (execThermalShutdown die s) :=
  State.emit_memOk (State.memOk_mk (State.foldl_memOk (fun _ _ hs1 => State.killBlock_memOk hs1 ..) _ (State.free_memOk hs ..))) ..

/-! ### System -/

theorem execCwait_nextOk (c : UCtl) (ld st cp sy : BitVec 6) : NextOk (execCwait c ld st cp sy s) := by
  unfold execCwait
  refine issueU_memOk hs (fun _ _ _ _ hs1 => ?_) ..
  refine memOk_ite (State.next_memOk (State.spend_memOk (State.memOk_mk hs1) ..) ..) ?_
  split <;> exact State.setGrp_memOk (State.memOk_mk hs1) ..

theorem execTwait_nextOk (c : UCtl) (mask : BitVec 8) : NextOk (execTwait c mask s) := by
  unfold execTwait
  refine issueU_memOk hs (fun _ _ _ _ hs1 => ?_) ..
  refine memOk_ite ?_ (State.setGrp_memOk hs1 ..)
  dsimp only
  split
  · exact State.trap_memOk (State.setGrp_memOk (State.acquireMe_memOk (State.spend_memOk hs1 ..) ..) ..) ..
  · exact State.next_memOk (State.acquireMe_memOk (State.spend_memOk hs1 ..) ..) ..

theorem execIdem_nextOk (c : UCtl) : NextOk (execIdem c s) :=
  issueU_memOk hs (fun _ _ _ _ hs1 => memOk_ite (State.next_memOk (State.setGrp_memOk (State.spend_memOk hs1 ..) ..) ..)
    (State.trap_memOk (State.spend_memOk hs1 ..) ..)) ..

theorem execIdend_nextOk (c : UCtl) : NextOk (execIdend c s) :=
  issueU_memOk hs (fun _ _ _ _ hs1 => memOk_ite (State.next_memOk (State.setGrp_memOk (State.spend_memOk hs1 ..) ..) ..)
    (State.trap_memOk (State.spend_memOk hs1 ..) ..)) ..

theorem execMfs_nextOk (c : Ctl) (d : Reg) (r : SysReg) : NextOk (execMfs c d r s) :=
  issue_memOk hs (fun _ _ _ _ hs1 => State.finish_memOk hs1 ..) ..

theorem execMts_nextOk (c : Ctl) (a : Reg) (r : SysReg) : NextOk (execMts c a r s) := by
  unfold execMts
  refine issue_memOk hs (fun _ _ _ _ hs1 => ?_) ..
  dsimp only
  split
  · exact State.next_memOk (State.spend_memOk hs1 ..) ..
  · refine memOk_ite (State.trapPath_memOk hs1 ..) ?_
    split
    · exact State.trapPath_memOk hs1 ..
    · exact State.next_memOk (State.spend_memOk
        (memOk_ite (State.setGrp_memOk hs1 ..) (State.changed_memOk (State.setGrp_memOk hs1 ..) ..)) ..) ..

theorem execTlbiAll_nextOk (c : Ctl) : NextOk (execTlbiAll c s) := by
  unfold execTlbiAll
  refine issue_memOk hs (fun _ _ _ _ hs1 => ?_) ..
  refine State.next_memOk ?_ ..
  refine memOk_ite (State.spend_memOk hs1 ..) ?_
  split
  · exact State.tlbi_memOk (State.spend_memOk hs1 ..) ..
  · exact State.spend_memOk hs1 ..

theorem execTlbiPage_nextOk (c : Ctl) (a : Reg) : NextOk (execTlbiPage c a s) := by
  unfold execTlbiPage
  refine issue_memOk hs (fun _ _ _ _ hs1 => ?_) ..
  refine State.next_memOk ?_ ..
  split
  · exact State.tlbi_memOk (State.spend_memOk hs1 ..) ..
  · exact State.spend_memOk hs1 ..

theorem execTrig_nextOk (c : Ctl) (line : BitVec 6) : NextOk (execTrig c line s) :=
  issue_memOk hs (fun _ _ _ _ hs1 => State.next_memOk
    (memOk_ite (State.spend_memOk hs1 ..) (State.pulse_memOk (State.spend_memOk hs1 ..) ..)) ..) ..

theorem execMark_nextOk (c : Ctl) (a : Reg) (cls : BitVec 8) : NextOk (execMark c a cls s) := by
  unfold execMark
  refine issue_memOk hs (fun _ _ _ _ hs1 => ?_) ..
  refine State.next_memOk ?_ ..
  split
  · exact memOk_ite (State.trace_memOk (State.spend_memOk hs1 ..) ..) (State.spend_memOk hs1 ..)
  · exact State.spend_memOk hs1 ..

/-! ### Preempt -/

theorem State.finishSave_memOk (id : Nat) : (s.finishSave id).memOk := by
  unfold State.finishSave
  split
  · exact hs
  · exact memOk_ite hs (State.nowIdle_memOk (State.modBlk_memOk (State.drainBlock_memOk hs ..) ..) ..)

theorem State.noEarly_memOk (id : Nat) : (s.noEarly id).memOk := State.memOk_mk hs

theorem State.preempt_memOk (forced : Bool) (id : Nat) : (s.preempt forced id).memOk := by
  unfold State.preempt
  split
  · exact hs
  · exact memOk_ite hs (State.finishSave_memOk
      (State.modBlk_memOk (State.modGroups_memOk (State.memOk_mk (State.noEarly_memOk (State.freeWaiters_memOk hs ..) ..)) ..) ..) ..)

theorem execPreemption_nextOk (blk : Nat) : NextOk (execPreemption blk s) := State.preempt_memOk hs ..

theorem State.putImage_memOk (die aspace va : Nat) (l : List Word) : (s.putImage die aspace va l).memOk := by
  induction l generalizing s va with
  | nil => exact hs
  | cons x r ih =>
    rw [State.putImage]
    refine ih ?_ _
    split
    · exact State.landRaw_memOk hs ..
    · exact hs
    · exact hs

theorem State.getImage_memOk (die aspace va n : Nat) : (s.getImage die aspace va n).2.memOk := State.memOk_mk hs

theorem State.saveFields_memOk (b : Block) (g : Group) (full : Bool) : (s.saveFields b g full).memOk :=
  State.modGrp_memOk (State.putImage_memOk (State.putImage_memOk hs ..) ..) ..

theorem execForcedFullSave_nextOk (blk grp : Nat) : NextOk (execForcedFullSave blk grp s) := by
  unfold execForcedFullSave
  split
  · refine memOk_ite hs ?_
    refine State.finishSave_memOk ?_ ..
    refine State.modGrp_memOk ?_ ..
    refine State.putImage_memOk ?_ ..
    refine State.putImage_memOk ?_ ..
    split
    · exact State.drainGroup_memOk hs ..
    · exact State.saveFields_memOk (State.drainGroup_memOk hs ..) ..
  · exact hs

theorem execCooperativeSave_nextOk (blk grp : Nat) : NextOk (execCooperativeSave blk grp s) := by
  unfold execCooperativeSave
  split
  · exact nextOk_ite hs (nextOk_ite (execForcedFullSave_nextOk (State.modGrp_memOk hs ..) ..)
      (State.modGrp_memOk (State.saveFields_memOk (State.drainGroup_memOk hs ..) ..) ..))
  · exact hs

theorem State.overBudget_memOk (blk grp : Nat) : (s.overBudget blk grp).memOk := by
  unfold State.overBudget
  split
  · exact hs
  · dsimp only
    split
    · exact hs
    · exact memOk_ite hs (State.leaveHandler_memOk hs ..)

theorem execSaveBudgetExpiry_nextOk (blk grp : Nat) : NextOk (execSaveBudgetExpiry blk grp s) := State.overBudget_memOk hs ..

theorem State.settlePath_memOk (blk grp : Nat) (b : Bool) : (s.settlePath blk grp b).memOk := by
  unfold State.settlePath
  split
  · exact hs
  · split
    · exact memOk_ite hs (State.modGrp_memOk (State.memOk_mk hs) ..)
    · exact hs

theorem State.settleStream_memOk (id : Nat) : (s.settleStream id).memOk := by
  unfold State.settleStream
  split
  · exact hs
  · split
    · exact memOk_ite hs (State.modStream_memOk (State.memOk_mk hs) ..)
    · exact hs

theorem State.goOn_memOk (blk grp : Nat) : (s.goOn blk grp).memOk := by
  unfold State.goOn
  dsimp only
  split
  · refine memOk_ite ?_ ?_
    · refine State.modGrp_memOk ?_ ..
      split
      · exact memOk_ite (State.modGrp_memOk hs ..) (State.settlePath_memOk hs ..)
      · exact hs
    · refine State.settlePath_memOk ?_ ..
      split
      · exact memOk_ite (State.modGrp_memOk hs ..) (State.settlePath_memOk hs ..)
      · exact hs
  · split
    · exact memOk_ite (State.modGrp_memOk hs ..) (State.settlePath_memOk hs ..)
    · exact hs

theorem State.loadGroup_memOk (b : Block) (g : Group) (all : Bool) : (s.loadGroup b g all).memOk :=
  State.goOn_memOk (State.modGrp_memOk (State.getImage_memOk hs (g.core / 72) b.aspace (g.saveAt.getD g.savebase).toNat _) ..) ..

theorem execSvdone_nextOk (c : UCtl) : NextOk (execSvdone c s) := by
  unfold execSvdone
  refine issueU_memOk hs (fun _ _ _ _ hs1 => ?_) ..
  refine memOk_ite (State.trap_memOk (State.spend_memOk hs1 ..) ..) ?_
  refine memOk_ite (State.setGrp_memOk (State.spend_memOk hs1 ..) ..) ?_
  refine memOk_ite (State.finishSave_memOk (State.leaveHandler_memOk (State.drainGroup_memOk (State.spend_memOk hs1 ..) ..) ..) ..) ?_
  dsimp only
  split
  · exact State.loadGroup_memOk (State.leaveHandler_memOk (State.drainGroup_memOk (State.spend_memOk hs1 ..) ..) ..) ..
  · exact State.leaveHandler_memOk (State.drainGroup_memOk (State.spend_memOk hs1 ..) ..) ..

theorem State.movePointer_memOk (b : Block) (n : Nat) : (s.movePointer b n).memOk := by
  unfold State.movePointer
  split
  · exact State.modLaunch_memOk hs ..
  · exact State.modNode_memOk hs ..

theorem State.giveSpd_memOk (b : Block) : (s.giveSpd b).memOk :=
  State.foldl_memOk (fun _ _ hs1 => State.memOk_mk (State.clearSpd_memOk hs1 ..)) _ hs

theorem execResume_nextOk (blk : Nat) (cores : List Nat) : NextOk (execResume blk cores s) := by
  unfold execResume
  split
  · exact hs
  · refine memOk_ite hs ?_
    split
    · next t heq =>
        have ht := some_of_eq heq (State.withWindow_memOk hs ..)
        refine State.foldl_memOk (fun _ _ hs1 => ?_) _
          (State.modPart_memOk (State.movePointer_memOk
            (State.foldl_memOk (fun _ _ hs1 => State.memOk_mk (State.acquire_memOk hs1 ..)) _
              (State.noEarly_memOk (memOk_ite (State.giveSpd_memOk (State.modBlk_memOk (State.memOk_mk ht) ..) ..)
                (State.initSpd_memOk (State.modBlk_memOk (State.memOk_mk ht) ..) ..)) ..)) ..) ..)
        refine State.foldl_memOk (fun _ _ hs2 => ?_) _ hs1
        dsimp only
        split
        · exact State.modGrp_memOk hs2 ..
        · exact memOk_ite (State.modGrp_memOk (State.modGrp_memOk hs2 ..) ..)
            (memOk_ite (State.loadGroup_memOk (State.getImage_memOk (State.modGrp_memOk hs2 ..) ..) ..)
              (State.modGrp_memOk (State.getImage_memOk (State.modGrp_memOk hs2 ..) ..) ..))
    · exact hs

theorem execDiscard_nextOk (blk : Nat) : NextOk (execDiscard blk s) := by
  unfold execDiscard
  split
  · exact hs
  · exact memOk_ite hs (State.nowIdle_memOk
      (State.thaw_memOk (State.modBlk_memOk
        (State.modGroups_memOk (State.memOk_mk (State.endHolds_memOk (State.drainBlock_memOk hs ..) ..)) ..) ..) ..) ..)

theorem State.forceSaves_memOk (id : Nat) : (s.forceSaves id).memOk :=
  State.foldl_memOk (fun _ _ hs1 => memOk_ite (State.leaveHandler_memOk hs1 ..) (memOk_ite (State.modGrp_memOk hs1 ..) hs1)) _ hs

theorem State.scrub_memOk (core : Nat) : (s.scrub core).memOk :=
  State.memOk_mk (State.foldl_memOk (fun _ _ hs1 => State.evictLine_memOk hs1 ..) _ (State.clearSpd_memOk hs ..))

theorem execCoreRetirement_nextOk (core : Nat) (canSave : Bool) : NextOk (execCoreRetirement core canSave s) :=
  memOk_ite hs (memOk_ite (memOk_ite hs (State.memOk_mk (State.scrub_memOk hs ..)))
    (memOk_ite (State.foldl_memOk (fun _ _ hs1 => State.forceSaves_memOk (State.preempt_memOk hs1 ..) ..) _ (State.memOk_mk hs))
      (State.clearSpd_memOk (State.foldl_memOk (fun _ _ hs1 => State.killBlock_memOk hs1 ..) _
        (State.foldl_memOk (fun _ _ hs1 => State.stopBlock_memOk hs1 ..) _ (State.memOk_mk (State.memOk_mk hs)))) ..)))

theorem execClusterReclaim_nextOk (core : Nat) : NextOk (execClusterReclaim core s) := by
  unfold execClusterReclaim
  split
  · exact hs
  · exact State.foldl_memOk (fun _ _ hs1 => State.preempt_memOk hs1 ..) _ hs

theorem execTenantSwitch_nextOk (tenant : Nat) (cores : List Nat) : NextOk (execTenantSwitch tenant cores s) :=
  memOk_ite (State.memOk_mk (State.foldl_memOk (fun _ _ hs1 => memOk_ite (State.scrub_memOk hs1 ..) hs1) _ hs))
    (State.foldl_memOk (fun _ _ hs1 => State.preempt_memOk hs1 ..) _ (State.memOk_mk hs))

/-! ### Faults -/

theorem execTranslationMiss_nextOk (who : AgentId) (aspace va : Nat) (write fetch : Bool) :
    NextOk (execTranslationMiss who aspace va write fetch s) := by
  unfold execTranslationMiss
  refine memOk_ite hs ?_
  split
  · split
    · split
      · exact memOk_ite hs (State.replay_memOk (State.focus_memOk hs ..) ..)
      · exact hs
    · exact hs
  · split
    · split
      · exact memOk_ite hs (State.streamMiss_memOk hs ..)
      · exact hs
    · exact hs
  · split
    · exact memOk_ite hs (State.cmdMiss_memOk hs ..)
    · exact hs
  · split
    · exact memOk_ite hs (State.missFor_memOk hs ..)
    · exact hs
  · split
    · exact memOk_ite hs (State.missFor_memOk hs ..)
    · exact hs

theorem execMappingStep_nextOk (part rec_ : Nat) : NextOk (execMappingStep part rec_ s) := by
  unfold execMappingStep
  split
  · exact memOk_ite hs (memOk_ite (State.raiseVec_memOk hs ..) (State.foldl_memOk (fun _ _ hs1 => State.putNat_memOk hs1 ..) _ hs))
  · exact hs

theorem State.observe_memOk (who : AgentId) : (s.observe who).memOk := State.memOk_mk hs

theorem execResolveObserved_nextOk (who : AgentId) : NextOk (execResolveObserved who s) := by
  unfold execResolveObserved
  dsimp only
  split
  · exact State.settlePath_memOk (State.observe_memOk hs ..) ..
  · exact State.settleStream_memOk (State.observe_memOk hs ..) ..
  all_goals exact State.observe_memOk hs ..

theorem execFaultRecordWrite_nextOk (part : Nat) : NextOk (execFaultRecordWrite part s) := State.recordRoom_memOk hs ..

theorem execKill_nextOk (blk : Nat) (cause : BitVec 8) : NextOk (execKill blk cause s) := by
  unfold execKill
  split
  · exact State.killBlock_memOk hs ..
  · exact hs

theorem execInstructionCompletion_nextOk (blk grp k : Nat) : NextOk (execInstructionCompletion blk grp k s) := State.modGrp_memOk hs ..

end

end Sys2Proof.Machine
end

section
/-! Firmware, hosts, objects and typed instructions keep the canonical form of memory. -/
namespace Sys2Proof.Machine

section
variable {s : State} (hs : s.memOk)
include hs

/-! ### Firmware -/

theorem execPowerOn_nextOk (k : PowerSpec) : NextOk (execPowerOn k s) := memOk_ite (State.emit_memOk hs ..) (State.memOk_mk rfl)

theorem execBootRomCheck_nextOk : NextOk (execBootRomCheck s) := memOk_ite hs (State.memOk_mk hs)

theorem execRecoveryImage_nextOk (image sig : List Byte) (version : Nat) : NextOk (execRecoveryImage image sig version s) :=
  memOk_ite (State.refuse_memOk hs ..) (memOk_ite (State.memOk_mk hs) (State.refuse_memOk hs ..))

theorem execAttestationRequest_nextOk (nonce : List Byte) : NextOk (execAttestationRequest nonce s) :=
  memOk_ite (State.refuse_memOk hs ..) (State.emit_memOk hs ..)

theorem execTdispLock_nextOk (vf : Nat) : NextOk (execTdispLock vf s) := by
  unfold execTdispLock
  split
  · exact memOk_ite (State.setVf_memOk hs ..) (State.refuse_memOk hs ..)
  · exact State.refuse_memOk hs ..

theorem execStartInterface_nextOk (vf : Nat) : NextOk (execStartInterface vf s) := by
  unfold execStartInterface
  split
  · exact memOk_ite (State.setVf_memOk hs ..) (State.refuse_memOk hs ..)
  · exact State.refuse_memOk hs ..

theorem execStopInterface_nextOk (vf : Nat) : NextOk (execStopInterface vf s) := by
  unfold execStopInterface
  split
  · exact memOk_ite hs (State.setVf_memOk (State.foldl_memOk (fun _ _ hs1 => State.scrub_memOk hs1 ..) _ hs) ..)
  · exact State.refuse_memOk hs ..

theorem State.setEnds_memOk (open_ : Bool) (es : List (Nat × Nat)) : (s.setEnds open_ es).memOk :=
  State.memOk_mk (memOk_ite hs (State.drainAcross_memOk hs ..))

theorem execPartitionSetup_nextOk (k : PartSpec) : NextOk (execPartitionSetup k s) :=
  memOk_ite (State.refuse_memOk hs ..)
    (State.memOk_mk (State.putNat_memOk
      (State.putNat_memOk (State.putNat_memOk
        (State.putNat_memOk (State.putNat_memOk
          (State.putNat_memOk (State.setEnds_memOk (State.setEnds_memOk (State.setEnds_memOk hs ..) ..) ..) ..) ..) ..) ..) ..) ..))

theorem execAddressSpaceCreate_nextOk (id part root : Nat) : NextOk (execAddressSpaceCreate id part root s) :=
  memOk_ite (State.refuse_memOk hs ..) (State.memOk_mk hs)

theorem execAddressSpaceDestroy_nextOk (id : Nat) : NextOk (execAddressSpaceDestroy id s) := by
  unfold execAddressSpaceDestroy
  split
  · exact State.refuse_memOk hs ..
  · exact State.modPart_memOk (State.memOk_mk (State.tlbi_memOk hs ..)) ..

theorem execTenantRcbInstall_nextOk (part : Nat) (aspace addr target : Nat) : NextOk
    (execTenantRcbInstall part aspace addr target s) := by
  unfold execTenantRcbInstall
  split
  · split
    · exact State.refuse_memOk hs ..
    · refine memOk_ite (State.refuse_memOk hs ..) ?_
      refine memOk_ite (State.memOk_mk hs) ?_
      split
      · exact State.memOk_mk (State.memOk_mk hs)
      · exact State.memOk_mk hs
  · exact State.refuse_memOk hs ..

theorem State.moveRing_memOk (p q a : Nat) : (s.moveRing p q a).memOk := State.putNat_memOk hs ..

theorem State.rewrite_memOk (k : Partition) (p q : Nat) : (s.rewrite k p q).memOk := by
  have ht (own l) := State.foldl_memOk (fun _ (r : Nat) ht => State.moveTables_memOk own p q 4 (movePA p q r) ht) l hs
  exact State.memOk_mk (State.moveRing_memOk (State.moveRing_memOk (State.moveLinks_memOk (ht ..) ..) ..) ..)

theorem State.stopPart_memOk (pid : Nat) (on : Bool) : (s.stopPart pid on).memOk :=
  memOk_ite (State.foldl_memOk (fun _ _ hs1 => State.preempt_memOk hs1 ..) _ (State.memOk_mk (State.modPart_memOk hs ..)))
    (State.memOk_mk (State.modPart_memOk hs ..))

theorem State.endReloc_memOk (part : Nat) : (s.endReloc part).memOk := State.memOk_mk hs

theorem State.setReloc_memOk (r : Reloc) : (s.setReloc r).memOk := State.memOk_mk hs

theorem execRelocation_nextOk (st : RelocStep) (part p q : Nat) : NextOk (execRelocation st part p q s) := by
  unfold execRelocation
  split
  · exact State.refuse_memOk hs ..
  · dsimp only
    split
    · exact memOk_ite (State.refuse_memOk hs ..) (State.setReloc_memOk (State.copyDie_memOk (State.setEnds_memOk hs ..) ..) ..)
    · exact memOk_ite (State.setReloc_memOk (State.stopPart_memOk hs ..) ..) (State.refuse_memOk hs ..)
    · exact memOk_ite (State.refuse_memOk hs ..)
        (memOk_ite (State.foldl_memOk (fun _ _ hs1 => State.preempt_memOk hs1 ..) _ hs)
          (State.setReloc_memOk (State.copyDie_memOk (State.drain_memOk hs ..) ..) ..))
    · exact memOk_ite (State.setReloc_memOk (State.rewrite_memOk hs ..) ..) (State.refuse_memOk hs ..)
    · exact memOk_ite (State.refuse_memOk hs ..)
        (State.endReloc_memOk (State.stopPart_memOk
          (State.setEnds_memOk (State.setEnds_memOk (State.setEnds_memOk (State.setEnds_memOk (State.memOk_mk hs) ..) ..) ..) ..) ..) ..)

theorem State.giveCounts_memOk (die : Nat) (c : HeldCounts) : (s.giveCounts die c).memOk := State.memOk_mk hs

theorem State.giveEvent_memOk (part n : Nat) (h : Held) : (s.giveEvent part n h).memOk := State.memOk_mk hs

theorem State.putWin_memOk (part : Nat) (h : HeldWin) : (s.putWin part h).memOk := by
  unfold State.putWin
  dsimp only
  split
  · exact hs
  · exact State.memOk_mk hs

theorem State.giveRings_memOk (part : Nat) (r : Nat × Nat × Nat × Nat) : (s.giveRings part r).memOk := by
  unfold State.giveRings
  split
  · exact hs
  · exact State.putNat_memOk (State.putNat_memOk (State.putNat_memOk (State.putNat_memOk (State.modPart_memOk hs ..) ..) ..) ..) ..

theorem State.giveHeld_memOk (part : Nat) (queues : List Nat) (h : Held) : (s.giveHeld part queues h).memOk :=
  State.foldl_memOk (fun _ _ hs1 => State.putWin_memOk hs1 ..) _ (State.giveRings_memOk (State.modPart_memOk (State.memOk_mk hs) ..) ..)

theorem execLiveMigrationRound_nextOk (part : Nat) (r : MigReq) : NextOk (execLiveMigrationRound part r s) := by
  unfold execLiveMigrationRound
  refine memOk_ite (State.refuse_memOk hs ..) ?_
  split
  · exact memOk_ite (State.memOk_mk hs) (State.refuse_memOk hs ..)
  · exact memOk_ite (State.stopPart_memOk (State.memOk_mk hs) ..) (State.refuse_memOk hs ..)
  · split
    · exact State.refuse_memOk hs ..
    · exact memOk_ite (State.memOk_mk hs)
        (memOk_ite (State.foldl_memOk (fun _ _ hs1 => State.preempt_memOk hs1 ..) _ hs) (State.emit_memOk hs ..))

theorem execMigrationPackageImport_nextOk (part dev : Nat) (package sig : List Byte) (k : SessionSpec) :
    NextOk (execMigrationPackageImport part dev package sig k s) :=
  memOk_ite (State.refuse_memOk hs ..)
    (State.foldl_memOk (fun _ _ hs1 => State.giveEvent_memOk hs1 ..) _
      (State.foldl_memOk (fun _ _ hs1 => State.giveCounts_memOk hs1 ..) _ (State.giveHeld_memOk hs ..)))

theorem State.losePart_memOk (pid : Nat) : (s.losePart pid).memOk :=
  State.memOk_mk (State.nowIdle_memOk (State.dropGroups_memOk hs ..) ..)

theorem State.lockToward_memOk (die : Nat) : (s.lockToward die).memOk := State.memOk_mk hs

theorem State.backOut_memOk (r : Reloc) : (s.backOut r).memOk := by
  unfold State.backOut
  split
  · exact State.endReloc_memOk hs ..
  · exact State.endReloc_memOk
      (memOk_ite (memOk_ite (State.rewrite_memOk hs ..) hs) (State.stopPart_memOk (memOk_ite (State.rewrite_memOk hs ..) hs) ..)) ..

theorem execDieLoss_nextOk (die : Nat) : NextOk (execDieLoss die s) :=
  memOk_ite hs (State.memOk_mk
    (State.lockToward_memOk (State.foldl_memOk (fun _ _ hs1 => State.backOut_memOk hs1 ..) _
      (State.foldl_memOk (fun _ _ hs1 => State.losePart_memOk hs1 ..) _ hs)) ..))

theorem execHbmFailure_nextOk (die base size : Nat) : NextOk (execHbmFailure die base size s) := State.memOk_mk hs

theorem execLinkLaneRetrain_nextOk (die f : Nat) : NextOk (execLinkLaneRetrain die f s) := memOk_ite hs (State.memOk_mk hs)

theorem execSpanLaneLoss_nextOk (die port : Nat) : NextOk (execSpanLaneLoss die port s) := memOk_ite hs (State.memOk_mk hs)

/-! ### GroupOps -/

theorem execVote_nextOk (c : Ctl) (f : VoteForm) : NextOk (execVote c f s) :=
  issue_memOk hs (fun _ _ _ _ hs1 => State.finish_memOk hs1 ..) ..

theorem execShfl_nextOk (c : Ctl) (m : ShflMode) (d : Reg) (a : Src) (x : ShflB) (pv : Option Pred) : NextOk (execShfl c m d a x pv s) :=
  issue_memOk hs (fun _ _ _ _ hs1 => State.finish_memOk hs1 ..) ..

theorem execGred_nextOk (c : Ctl) (op : RedOp) (ty : Ty) (d : Reg) (a : Src) : NextOk (execGred c op ty d a s) :=
  issue_memOk hs (fun _ _ _ _ hs1 => State.finish_memOk hs1 ..) ..

theorem execGscan_nextOk (c : Ctl) (op : RedOp) (excl : Bool) (ty : Ty) (d : Reg) (a : Src) : NextOk (execGscan c op excl ty d a s) :=
  issue_memOk hs (fun _ _ _ _ hs1 => State.finish_memOk hs1 ..) ..

theorem execMtch_nextOk (c : Ctl) (payOnly : Bool) (d : Reg) (a : Src) : NextOk (execMtch c payOnly d a s) :=
  issue_memOk hs (fun _ _ _ _ hs1 => State.finish_memOk hs1 ..) ..

theorem execElect_nextOk (c : Ctl) (d : Pred) : NextOk (execElect c d s) :=
  issue_memOk hs (fun _ _ _ _ hs1 => State.finish_memOk hs1 ..) ..

/-! ### Hosts -/

theorem execHostGrant_nextOk (core line : Nat) (exclusive : Bool) : NextOk (execHostGrant core line exclusive s) :=
  memOk_ite (State.drain_memOk (memOk_ite (State.setLine_memOk (State.memOk_mk hs) ..) (State.memOk_mk hs)) ..)
    (memOk_ite (State.setLine_memOk (State.memOk_mk hs) ..) (State.memOk_mk hs))

theorem execHostSnoopSnpData_nextOk (core line : Nat) : NextOk (execHostSnoopSnpData core line s) := State.snoopData_memOk hs ..

theorem execHostSnoopSnpInv_nextOk (core line : Nat) : NextOk (execHostSnoopSnpInv core line s) := State.snoopInv_memOk hs ..

theorem execHostSnoopSnpCur_nextOk (core line : Nat) : NextOk (execHostSnoopSnpCur core line s) := memOk_ite hs (State.emit_memOk hs ..)

theorem State.recall_memOk (w : Nat) : (s.recall w).memOk := by
  unfold State.recall
  split
  · exact hs
  · exact State.memOk_mk hs

theorem State.hostReads_memOk (w : Nat) : (s.hostReads w).memOk :=
  memOk_ite (State.foldl_memOk (fun _ _ hs1 => State.snoopData_memOk hs1 ..) _ hs) (State.recall_memOk hs ..)

theorem State.hostWrites_memOk (w : Nat) : (s.hostWrites w).memOk :=
  memOk_ite (State.foldl_memOk (fun _ _ hs1 => State.snoopInv_memOk hs1 ..) _ hs) (State.memOk_mk (State.recall_memOk hs ..))

theorem execHostMemRead_nextOk (at_ : HostAt) (len : HostLen) : NextOk (execHostMemRead at_ len s) :=
  memOk_ite (State.refuse_memOk hs ..)
    (memOk_ite hs (State.emit_memOk (State.memOk_mk (State.foldl_memOk (fun _ _ hs1 => State.hostReads_memOk hs1 ..) _ hs)) ..))

theorem State.hostWord_memOk (a : Nat) (bs : List Byte) : (s.hostWord a bs).memOk :=
  State.land_memOk (State.drainFor_memOk (State.hostWrites_memOk hs ..) ..) ..

theorem execHostMemWrite_nextOk (at_ : HostAt) (bytes : List Byte) : NextOk (execHostMemWrite at_ bytes s) :=
  memOk_ite (State.refuse_memOk hs ..) (memOk_ite hs (State.foldl_memOk (fun _ _ hs1 => State.hostWord_memOk hs1 ..) _ hs))

theorem execFirewallDrop_nextOk (die f addr : Nat) : NextOk (execFirewallDrop die f addr s) := memOk_ite hs (State.countDrop_memOk hs ..)

/-! ### Objects -/

theorem execNalloc_nextOk (c : Ctl) (z : NSize) (d : Reg) (q : Pred) : NextOk (execNalloc c z d q s) :=
  issue_memOk hs (fun _ _ _ _ hs1 => memOk_ite (State.trapPath_memOk hs1 ..)
    (State.finish_memOk (memOk_ite hs1 (State.setGrp_memOk hs1 ..)) ..)) ..

theorem State.readHeader_memOk (p : Path) (va : Nat) (h : Home) : (s.readHeader p va h).2.memOk := by
  unfold State.readHeader
  split
  · exact snd_ite (State.readHome_memOk hs ..) (State.header_memOk hs ..)
  · exact State.readHome_memOk hs ..
  · exact State.readHome_memOk hs ..

theorem hdrOne_memOk (b : Bool) (p : Path) (_me : Writer) (l va : Nat) (h : Home) : (hdrOne b p _me l va h s).2.memOk := by
  unfold hdrOne
  refine snd_ite (State.loaded_memOk (State.readHeader_memOk hs ..) ..) ?_
  split <;> exact State.loaded_memOk (State.readHeader_memOk hs ..) ..

theorem execHdrld_nextOk (c : Ctl) (o : Ord) (obj : Bool) (pen : Option Pred) (d : Reg) (a : Src) (off : BitVec 24) :
    NextOk (execHdrld c o obj pen d a off s) :=
  issue_memOk hs (fun _ _ _ _ hs1 => State.memory_memOk hs1 (fun me _ _ _ _ hs2 => hdrOne_memOk hs2 _ _ me ..) ..) ..

theorem fwdcasOne_memOk (b : Bool) (x y : Nat → Val) (me : Writer) (l va : Nat) (h : Home) : (fwdcasOne b x y me l va h s).2.memOk := by
  unfold fwdcasOne
  refine snd_ite hs ?_
  dsimp only
  split
  · exact State.loaded_memOk (State.atHome_memOk hs ..) ..
  · exact snd_ite (State.changed_memOk (State.putHome_memOk (State.loaded_memOk (State.atHome_memOk hs ..) ..) ..) ..)
      (State.loaded_memOk (State.atHome_memOk hs ..) ..)

theorem execFwdcas_nextOk (c : Ctl) (o : Ord) (pen : Option Pred) (d : Reg) (a x y : Src) (off : BitVec 24) :
    NextOk (execFwdcas c o pen d a x y off s) :=
  issue_memOk hs (fun _ _ _ _ hs1 => State.memory_memOk hs1 (fun _ _ _ _ _ hs2 => fwdcasOne_memOk hs2 ..) ..) ..

theorem State.refScan_memOk (dead : Dead) (l : List (Nat × Val)) (r : List (Nat × Bool) × List (Nat × Nat × Mask × Bool)) :
    (State.refScan dead l r s).2.memOk := by
  induction l generalizing s r with
  | nil => exact hs
  | cons x xs ih =>
    obtain ⟨l, x⟩ := x
    obtain ⟨bits, miss⟩ := r
    have hc : (if dead.at l (refVA x) then (Cond.malformed, s) else s.condOf s.grp.core s.myAspace (refVA x)).2.memOk :=
      snd_ite hs (State.condOf_memOk hs ..)
    rw [State.refScan]
    refine snd_ite (ih hs _) ?_
    split
    all_goals next heq => exact ih (snd_of_eq heq hc) _

theorem execRefchk_nextOk (c : Ctl) (d : Pred) (a : Src) : NextOk (execRefchk c d a s) := by
  unfold execRefchk
  refine issue_memOk hs (fun _ _ _ _ hs1 => ?_) ..
  dsimp only
  split
  · exact State.finish_memOk (State.refScan_memOk hs1 ..) ..
  · exact State.replay_memOk (State.retirePart_memOk (State.refScan_memOk hs1 ..) ..) ..

/-! ### Typed -/

theorem typedV_memOk (i : Instr) (c : Ctl) (lat : Lat) (d : Reg) (f : State → Bool → Nat → Val) : (typedV i c lat d f s).memOk :=
  issue_memOk hs (fun _ _ _ _ hs1 => State.finish_memOk hs1 ..) ..

theorem typedP_memOk (i : Instr) (c : Ctl) (lat : Lat) (d : Pred) (f : State → Bool → Nat → Bool) : (typedP i c lat d f s).memOk :=
  issue_memOk hs (fun _ _ _ _ hs1 => State.finish_memOk hs1 ..) ..

theorem int2_memOk (i : Instr) (c : Ctl) (lat : Lat) (t : ITy) (sat : Bool) (d : Reg) (a : Src) (b : TSrc) (f : Int → Int → Int) :
    (int2 i c lat t sat d a b f s).memOk := typedV_memOk hs ..

theorem bits2_memOk (i : Instr) (c : Ctl) (t : BTy) (d : Reg) (a : Src) (b : TSrc) (f : Nat → Nat → Nat) :
    (bits2 i c t d a b f s).memOk :=
  typedV_memOk hs ..

theorem bits1_memOk (i : Instr) (c : Ctl) (t : BTy) (d : Reg) (a : Src) (f : Nat → Nat) : (bits1 i c t d a f s).memOk :=
  typedV_memOk hs ..

theorem float2_memOk (i : Instr) (c : Ctl) (lat : Lat) (t : PTy) (d : Reg) (a : Src) (b : TSrc) (f : Nat → Nat → Nat) :
    (float2 i c lat t d a b f s).memOk := typedV_memOk hs ..

theorem float1_memOk (i : Instr) (c : Ctl) (lat : Lat) (t : PTy) (d : Reg) (a : Src) (f : Nat → Nat) : (float1 i c lat t d a f s).memOk :=
  typedV_memOk hs ..

theorem execIadd_nextOk (c : Ctl) (ty : ITy) (sat : Bool) (d : Reg) (a : Src) (b : TSrc) : NextOk (execIadd c ty sat d a b s) :=
  int2_memOk hs ..

theorem execIsub_nextOk (c : Ctl) (ty : ITy) (sat : Bool) (d : Reg) (a : Src) (b : TSrc) : NextOk (execIsub c ty sat d a b s) :=
  int2_memOk hs ..

theorem execImul_nextOk (c : Ctl) (ty : ITy) (sat : Bool) (d : Reg) (a : Src) (b : TSrc) : NextOk (execImul c ty sat d a b s) :=
  int2_memOk hs ..

theorem execImulh_nextOk (c : Ctl) (ty : ITy) (d : Reg) (a : Src) (b : TSrc) : NextOk (execImulh c ty d a b s) := int2_memOk hs ..

theorem execImad_nextOk (c : Ctl) (ty : ITy) (sat : Bool) (d : Reg) (a : Src) (b : TSrc) (k : Src) : NextOk
    (execImad c ty sat d a b k s) :=
  typedV_memOk hs ..

theorem execIdiv_nextOk (c : Ctl) (ty : ITy) (d : Reg) (a : Src) (b : TSrc) : NextOk (execIdiv c ty d a b s) := int2_memOk hs ..

theorem execIrem_nextOk (c : Ctl) (ty : ITy) (d : Reg) (a : Src) (b : TSrc) : NextOk (execIrem c ty d a b s) := int2_memOk hs ..

theorem execImin_nextOk (c : Ctl) (ty : ITy) (d : Reg) (a : Src) (b : TSrc) : NextOk (execImin c ty d a b s) := int2_memOk hs ..

theorem execImax_nextOk (c : Ctl) (ty : ITy) (d : Reg) (a : Src) (b : TSrc) : NextOk (execImax c ty d a b s) := int2_memOk hs ..

theorem execIabs_nextOk (c : Ctl) (ty : STy) (sat : Bool) (d : Reg) (a : Src) : NextOk (execIabs c ty sat d a s) := typedV_memOk hs ..

theorem execIneg_nextOk (c : Ctl) (ty : STy) (sat : Bool) (d : Reg) (a : Src) : NextOk (execIneg c ty sat d a s) := typedV_memOk hs ..

theorem execIcmp_nextOk (c : Ctl) (ty : ITy) (cond : ICond) (d : Pred) (a : Src) (b : TSrc) : NextOk (execIcmp c ty cond d a b s) :=
  typedP_memOk hs ..

theorem execBand_nextOk (c : Ctl) (ty : BTy) (d : Reg) (a : Src) (b : TSrc) : NextOk (execBand c ty d a b s) := bits2_memOk hs ..

theorem execBor_nextOk (c : Ctl) (ty : BTy) (d : Reg) (a : Src) (b : TSrc) : NextOk (execBor c ty d a b s) := bits2_memOk hs ..

theorem execBxor_nextOk (c : Ctl) (ty : BTy) (d : Reg) (a : Src) (b : TSrc) : NextOk (execBxor c ty d a b s) := bits2_memOk hs ..

theorem execBnot_nextOk (c : Ctl) (ty : BTy) (d : Reg) (a : Src) : NextOk (execBnot c ty d a s) := bits1_memOk hs ..

theorem execBshl_nextOk (c : Ctl) (ty : BTy) (d : Reg) (a : Src) (b : TSrc) : NextOk (execBshl c ty d a b s) := bits2_memOk hs ..

theorem execBshr_nextOk (c : Ctl) (ty : BTy) (d : Reg) (a : Src) (b : TSrc) : NextOk (execBshr c ty d a b s) := bits2_memOk hs ..

theorem execBsar_nextOk (c : Ctl) (ty : BTy) (d : Reg) (a : Src) (b : TSrc) : NextOk (execBsar c ty d a b s) := bits2_memOk hs ..

theorem execBrol_nextOk (c : Ctl) (ty : BTy) (d : Reg) (a : Src) (b : TSrc) : NextOk (execBrol c ty d a b s) := bits2_memOk hs ..

theorem execPopc_nextOk (c : Ctl) (ty : BTy) (d : Reg) (a : Src) : NextOk (execPopc c ty d a s) := bits1_memOk hs ..

theorem execClz_nextOk (c : Ctl) (ty : BTy) (d : Reg) (a : Src) : NextOk (execClz c ty d a s) := bits1_memOk hs ..

theorem execCtz_nextOk (c : Ctl) (ty : BTy) (d : Reg) (a : Src) : NextOk (execCtz c ty d a s) := bits1_memOk hs ..

theorem execBrev_nextOk (c : Ctl) (ty : BTy) (d : Reg) (a : Src) : NextOk (execBrev c ty d a s) := bits1_memOk hs ..

theorem execBfx_nextOk (c : Ctl) (ty : ITy) (d : Reg) (a : Src) (b : TSrc) : NextOk (execBfx c ty d a b s) := typedV_memOk hs ..

theorem execBfi_nextOk (c : Ctl) (ty : BTy) (d : Reg) (a : Src) (b : TSrc) (k : Src) : NextOk (execBfi c ty d a b k s) :=
  typedV_memOk hs ..

theorem execSel_nextOk (c : Ctl) (d : Reg) (a : Src) (b : GSrc) (p : Pred) : NextOk (execSel c d a b p s) := typedV_memOk hs ..

theorem execMov_nextOk (c : Ctl) (d : Reg) (a : Src) : NextOk (execMov c d a s) := typedV_memOk hs ..

theorem execMovi_nextOk (c : Ctl) (d : Reg) (i : MovImm) : NextOk (execMovi c d i s) := typedV_memOk hs ..

theorem execLea_nextOk (c : Ctl) (sh : BitVec 3) (d : Reg) (a : Src) (b : TSrc) : NextOk (execLea c sh d a b s) := typedV_memOk hs ..

theorem execPlop_nextOk (c : Ctl) (lut : BitVec 8) (d a b k : Pred) : NextOk (execPlop c lut d a b k s) := typedP_memOk hs ..

theorem execPbool_nextOk (c : Ctl) (d : Reg) (a : Pred) : NextOk (execPbool c d a s) := typedV_memOk hs ..

theorem execFadd_nextOk (c : Ctl) (ty : PTy) (r : Rnd) (d : Reg) (a : Src) (b : TSrc) : NextOk (execFadd c ty r d a b s) :=
  float2_memOk hs ..

theorem execFsub_nextOk (c : Ctl) (ty : PTy) (r : Rnd) (d : Reg) (a : Src) (b : TSrc) : NextOk (execFsub c ty r d a b s) :=
  float2_memOk hs ..

theorem execFmul_nextOk (c : Ctl) (ty : PTy) (r : Rnd) (d : Reg) (a : Src) (b : TSrc) : NextOk (execFmul c ty r d a b s) :=
  float2_memOk hs ..

theorem execFfma_nextOk (c : Ctl) (ty : PTy) (r : Rnd) (d : Reg) (a : Src) (b : TSrc) (k : Src) : NextOk (execFfma c ty r d a b k s) :=
  typedV_memOk hs ..

theorem execFdiv_nextOk (c : Ctl) (ty : FTy) (r : Rnd) (d : Reg) (a : Src) (b : TSrc) : NextOk (execFdiv c ty r d a b s) :=
  float2_memOk hs ..

theorem execFsqrt_nextOk (c : Ctl) (ty : FTy) (r : Rnd) (d : Reg) (a : Src) : NextOk (execFsqrt c ty r d a s) := float1_memOk hs ..

theorem execFrcp_nextOk (c : Ctl) (ty : FTy) (r : Rnd) (d : Reg) (a : Src) : NextOk (execFrcp c ty r d a s) := float1_memOk hs ..

theorem execFrsq_nextOk (c : Ctl) (ty : FTy) (r : Rnd) (d : Reg) (a : Src) : NextOk (execFrsq c ty r d a s) := float1_memOk hs ..

theorem execFmin_nextOk (c : Ctl) (ty : PTy) (d : Reg) (a : Src) (b : TSrc) : NextOk (execFmin c ty d a b s) := float2_memOk hs ..

theorem execFmax_nextOk (c : Ctl) (ty : PTy) (d : Reg) (a : Src) (b : TSrc) : NextOk (execFmax c ty d a b s) := float2_memOk hs ..

theorem execFabs_nextOk (c : Ctl) (ty : PTy) (d : Reg) (a : Src) : NextOk (execFabs c ty d a s) := float1_memOk hs ..

theorem execFneg_nextOk (c : Ctl) (ty : PTy) (d : Reg) (a : Src) : NextOk (execFneg c ty d a s) := float1_memOk hs ..

theorem execFcmp_nextOk (c : Ctl) (ty : FTy) (cond : FCond) (d : Pred) (a : Src) (b : TSrc) : NextOk (execFcmp c ty cond d a b s) :=
  typedP_memOk hs ..

theorem execFexp2_nextOk (c : Ctl) (ty : TTy) (d : Reg) (a : Src) : NextOk (execFexp2 c ty d a s) := float1_memOk hs ..

theorem execFlog2_nextOk (c : Ctl) (ty : TTy) (d : Reg) (a : Src) : NextOk (execFlog2 c ty d a s) := float1_memOk hs ..

theorem execFsin_nextOk (c : Ctl) (ty : TTy) (d : Reg) (a : Src) : NextOk (execFsin c ty d a s) := float1_memOk hs ..

theorem execFcos_nextOk (c : Ctl) (ty : TTy) (d : Reg) (a : Src) : NextOk (execFcos c ty d a s) := float1_memOk hs ..

theorem execFtanh_nextOk (c : Ctl) (ty : TTy) (d : Reg) (a : Src) : NextOk (execFtanh c ty d a s) := float1_memOk hs ..

theorem execFrnd_nextOk (c : Ctl) (ty : FTy) (r : Rnd) (d : Reg) (a : Src) : NextOk (execFrnd c ty r d a s) := float1_memOk hs ..

theorem execFclass_nextOk (c : Ctl) (ty : FTy) (d : Reg) (a : Src) : NextOk (execFclass c ty d a s) := typedV_memOk hs ..

theorem execFscale_nextOk (c : Ctl) (ty : FTy) (r : Rnd) (d : Reg) (a : Src) (b : TSrc) : NextOk (execFscale c ty r d a b s) :=
  typedV_memOk hs ..

end

end Sys2Proof.Machine
end

section
/-! A step keeps the canonical form of memory. -/
namespace Sys2Proof.Machine

section
variable {s : State} (hs : s.memOk)
include hs

/-! ### Dispatch -/

theorem exec_nextOk (i : Instr) : NextOk (exec i s) := by
  unfold exec
  split
  · exact execNop_nextOk hs ..
  · exact execBra_nextOk hs ..
  · exact execBrx_nextOk hs ..
  · exact execCall_nextOk hs ..
  · exact execCallx_nextOk hs ..
  · exact execRet_nextOk hs ..
  · exact execExit_nextOk hs ..
  · exact execTrap_nextOk hs ..
  · exact execTret_nextOk hs ..
  · exact execYield_nextOk hs ..
  · exact execBrk_nextOk hs ..
  · exact execCwait_nextOk hs ..
  · exact execTwait_nextOk hs ..
  · exact execMfs_nextOk hs ..
  · exact execMts_nextOk hs ..
  · exact execIdem_nextOk hs ..
  · exact execIdend_nextOk hs ..
  · exact execSvdone_nextOk hs ..
  · exact execTlbiAll_nextOk hs ..
  · exact execTlbiPage_nextOk hs ..
  · exact execTrig_nextOk hs ..
  · exact execMark_nextOk hs ..
  · exact execAdd_nextOk hs ..
  · exact execSub_nextOk hs ..
  · exact execMul_nextOk hs ..
  · exact execDiv_nextOk hs ..
  · exact execFldiv_nextOk hs ..
  · exact execMod_nextOk hs ..
  · exact execNeg_nextOk hs ..
  · exact execAbs_nextOk hs ..
  · exact execMin_nextOk hs ..
  · exact execMax_nextOk hs ..
  · exact execFma_nextOk hs ..
  · exact execEq_nextOk hs ..
  · exact execNe_nextOk hs ..
  · exact execLt_nextOk hs ..
  · exact execLe_nextOk hs ..
  · exact execTruth_nextOk hs ..
  · exact execHash_nextOk hs ..
  · exact execAnd_nextOk hs ..
  · exact execOr_nextOk hs ..
  · exact execXor_nextOk hs ..
  · exact execShl_nextOk hs ..
  · exact execShr_nextOk hs ..
  · exact execDemotionExpiry_nextOk hs ..
  · exact execIadd_nextOk hs ..
  · exact execIsub_nextOk hs ..
  · exact execImul_nextOk hs ..
  · exact execImulh_nextOk hs ..
  · exact execImad_nextOk hs ..
  · exact execIdiv_nextOk hs ..
  · exact execIrem_nextOk hs ..
  · exact execImin_nextOk hs ..
  · exact execImax_nextOk hs ..
  · exact execIabs_nextOk hs ..
  · exact execIneg_nextOk hs ..
  · exact execIcmp_nextOk hs ..
  · exact execBand_nextOk hs ..
  · exact execBor_nextOk hs ..
  · exact execBxor_nextOk hs ..
  · exact execBnot_nextOk hs ..
  · exact execBshl_nextOk hs ..
  · exact execBshr_nextOk hs ..
  · exact execBsar_nextOk hs ..
  · exact execBrol_nextOk hs ..
  · exact execPopc_nextOk hs ..
  · exact execClz_nextOk hs ..
  · exact execCtz_nextOk hs ..
  · exact execBrev_nextOk hs ..
  · exact execBfx_nextOk hs ..
  · exact execBfi_nextOk hs ..
  · exact execSel_nextOk hs ..
  · exact execMov_nextOk hs ..
  · exact execMovi_nextOk hs ..
  · exact execLea_nextOk hs ..
  · exact execPlop_nextOk hs ..
  · exact execPbool_nextOk hs ..
  · exact execFadd_nextOk hs ..
  · exact execFsub_nextOk hs ..
  · exact execFmul_nextOk hs ..
  · exact execFfma_nextOk hs ..
  · exact execFdiv_nextOk hs ..
  · exact execFsqrt_nextOk hs ..
  · exact execFrcp_nextOk hs ..
  · exact execFrsq_nextOk hs ..
  · exact execFmin_nextOk hs ..
  · exact execFmax_nextOk hs ..
  · exact execFabs_nextOk hs ..
  · exact execFneg_nextOk hs ..
  · exact execFcmp_nextOk hs ..
  · exact execFexp2_nextOk hs ..
  · exact execFlog2_nextOk hs ..
  · exact execFsin_nextOk hs ..
  · exact execFcos_nextOk hs ..
  · exact execFtanh_nextOk hs ..
  · exact execFrnd_nextOk hs ..
  · exact execFclass_nextOk hs ..
  · exact execFscale_nextOk hs ..
  · exact execCvt_nextOk hs ..
  · exact execCvtpk_nextOk hs ..
  · exact execCvtxp_nextOk hs ..
  · exact execBox_nextOk hs ..
  · exact execUnbox_nextOk hs ..
  · exact execTagof_nextOk hs ..
  · exact execTagset_nextOk hs ..
  · exact execTagchk_nextOk hs ..
  · exact execLd_nextOk hs ..
  · exact execSt_nextOk hs ..
  · exact execAtom_nextOk hs ..
  · exact execRed_nextOk hs ..
  · exact execCasw_nextOk hs ..
  · exact execFence_nextOk hs ..
  · exact execPref_nextOk hs ..
  · exact execStoreRegistration_nextOk hs ..
  · exact execNalloc_nextOk hs ..
  · exact execHdrld_nextOk hs ..
  · exact execFwdcas_nextOk hs ..
  · exact execRefchk_nextOk hs ..
  · exact execBarinit_nextOk hs ..
  · exact execBararr_nextOk hs ..
  · exact execBartx_nextOk hs ..
  · exact execBwait_nextOk hs ..
  · exact execBtest_nextOk hs ..
  · exact execWaitTimeout_nextOk hs ..
  · exact execWaitRetest_nextOk hs ..
  · exact execPinit_nextOk hs ..
  · exact execPfill_nextOk hs ..
  · exact execPeq_nextOk hs ..
  · exact execPwait_nextOk hs ..
  · exact execPget_nextOk hs ..
  · exact execProot_nextOk hs ..
  · exact execVote_nextOk hs ..
  · exact execShfl_nextOk hs ..
  · exact execGred_nextOk hs ..
  · exact execGscan_nextOk hs ..
  · exact execMtch_nextOk hs ..
  · exact execElect_nextOk hs ..
  · exact execSeal_nextOk hs ..
  · exact execUnseal_nextOk hs ..
  · exact execHinfo_nextOk hs ..
  · exact execTclaim_nextOk hs ..
  · exact execTrel_nextOk hs ..
  · exact execTload_nextOk hs ..
  · exact execTmma_nextOk hs ..
  · exact execTstore_nextOk hs ..
  · exact execTzero_nextOk hs ..
  · exact execTarr_nextOk hs ..
  · exact execTbwt_nextOk hs ..
  · exact execTloop_nextOk hs ..
  · exact execTendl_nextOk hs ..
  · exact execTstop_nextOk hs ..
  · exact execTchk_nextOk hs ..
  · exact execCpy_nextOk hs ..
  · exact execCpym_nextOk hs ..
  · exact execCpyg_nextOk hs ..
  · exact execCpyr_nextOk hs ..
  · exact execNmatch_nextOk hs ..
  · exact execNunmatch_nextOk hs ..
  · exact execEngineLanding_nextOk hs ..
  · exact execEngineCommandComplete_nextOk hs ..
  · exact execEngineCommandFailure_nextOk hs ..
  · exact execSpanFlitReceive_nextOk hs ..
  · exact execMatchTemplateCommit_nextOk hs ..
  · exact execSpanPortDown_nextOk hs ..
  · exact execRalloc_nextOk hs ..
  · exact execRcommit_nextOk hs ..
  · exact execRdone_nextOk hs ..
  · exact execRflush_nextOk hs ..
  · exact execRcard_nextOk hs ..
  · exact execNodeLaunch_nextOk hs ..
  · exact execNodeTimerExpiry_nextOk hs ..
  · exact execCardLaunch_nextOk hs ..
  · exact execCardComplete_nextOk hs ..
  · exact execQueueBind_nextOk hs ..
  · exact execQueueKick_nextOk hs ..
  · exact execQueueCheck_nextOk hs ..
  · exact execSignalStore_nextOk hs ..
  · exact execSignalAdd_nextOk hs ..
  · exact execSignalPfill_nextOk hs ..
  · exact execSignalCommit_nextOk hs ..
  · exact execSignalTlbi_nextOk hs ..
  · exact execWaitv_nextOk hs ..
  · exact execWaitvPoll_nextOk hs ..
  · exact execRcbset_nextOk hs ..
  · exact execCopy_nextOk hs ..
  · exact execLaunch_nextOk hs ..
  · exact execGraphBind_nextOk hs ..
  · exact execGraphUnbind_nextOk hs ..
  · exact execCard_nextOk hs ..
  · exact execMarker_nextOk hs ..
  · exact execPacketComplete_nextOk hs ..
  · exact execBlockAdmission_nextOk hs ..
  · exact execBlockPlacement_nextOk hs ..
  · exact execEnergyWindowStart_nextOk hs ..
  · exact execGroupResourceRelease_nextOk hs ..
  · exact execBlockEnd_nextOk hs ..
  · exact execCorePowerGate_nextOk hs ..
  · exact execTileEnginePowerGate_nextOk hs ..
  · exact execCoreWake_nextOk hs ..
  · exact execThermalThrottle_nextOk hs ..
  · exact execThermalShutdown_nextOk hs ..
  · exact execPowerOn_nextOk hs ..
  · exact execTranslationMiss_nextOk hs ..
  · exact execMappingStep_nextOk hs ..
  · exact execResolveObserved_nextOk hs ..
  · exact execFaultRecordWrite_nextOk hs ..
  · exact execKill_nextOk hs ..
  · exact execPreemption_nextOk hs ..
  · exact execCooperativeSave_nextOk hs ..
  · exact execSaveBudgetExpiry_nextOk hs ..
  · exact execForcedFullSave_nextOk hs ..
  · exact execDiscard_nextOk hs ..
  · exact execResume_nextOk hs ..
  · exact execCoreRetirement_nextOk hs ..
  · exact execClusterReclaim_nextOk hs ..
  · exact execTenantSwitch_nextOk hs ..
  · exact execHostGrant_nextOk hs ..
  · exact execHostSnoopSnpData_nextOk hs ..
  · exact execHostSnoopSnpInv_nextOk hs ..
  · exact execHostSnoopSnpCur_nextOk hs ..
  · exact execHostMemRead_nextOk hs ..
  · exact execHostMemWrite_nextOk hs ..
  · exact execFirewallDrop_nextOk hs ..
  · exact execRelocation_nextOk hs ..
  · exact execLiveMigrationRound_nextOk hs ..
  · exact execBootRomCheck_nextOk hs ..
  · exact execRecoveryImage_nextOk hs ..
  · exact execAttestationRequest_nextOk hs ..
  · exact execTdispLock_nextOk hs ..
  · exact execStopInterface_nextOk hs ..
  · exact execDieLoss_nextOk hs ..
  · exact execHbmFailure_nextOk hs ..
  · exact execLinkLaneRetrain_nextOk hs ..
  · exact execSpanLaneLoss_nextOk hs ..
  · exact execSessionOpen_nextOk hs ..
  · exact execDebugStopRequest_nextOk hs ..
  · exact execPcBreakpoint_nextOk hs ..
  · exact execDebugRelease_nextOk hs ..
  · exact execTriggerPulse_nextOk hs ..
  · exact execTriggerPinIn_nextOk hs ..
  · exact execCueWrite_nextOk hs ..
  · exact execCueAPulse_nextOk hs ..
  · exact execCueBPulse_nextOk hs ..
  · exact execRegisterWrite_nextOk hs ..
  · exact execInstructionCompletion_nextOk hs ..
  · exact execTmmaCompletion_nextOk hs ..
  · exact execStartInterface_nextOk hs ..
  · exact execAddressSpaceCreate_nextOk hs ..
  · exact execAddressSpaceDestroy_nextOk hs ..
  · exact execPartitionSetup_nextOk hs ..
  · exact execTenantRcbInstall_nextOk hs ..
  · exact execMigrationPackageImport_nextOk hs ..

/-! ### Timers -/

theorem State.meterCore_memOk (core e : Nat) : (s.meterCore core e).memOk := by
  unfold State.meterCore
  refine State.memOk_mk ?_
  split
  · exact State.charge_memOk (State.foldl_memOk (fun _ _ hs1 => State.charge_memOk hs1 ..) _ hs) ..
  · exact State.foldl_memOk (fun _ _ hs1 => State.charge_memOk hs1 ..) _ hs

theorem State.meterLinks_memOk : s.meterLinks.memOk := by
  unfold State.meterLinks
  split
  · split
    · exact State.charge_memOk hs ..
    · exact hs
  · exact hs

theorem State.meter_memOk : s.meter.memOk :=
  memOk_ite hs (memOk_ite (State.withhold_memOk
    (State.meterLinks_memOk (State.foldl_memOk (fun _ _ hs1 => State.meterCore_memOk hs1 ..) _ hs)) ..)
      (State.meterLinks_memOk (State.foldl_memOk (fun _ _ hs1 => State.meterCore_memOk hs1 ..) _ hs)))

theorem State.endJobs_memOk : s.endJobs.memOk := State.memOk_mk hs

theorem State.overSlots_memOk {f : State → Nat → Nat → Bool → State} (hk : ∀ t b c d, t.memOk → (f t b c d).memOk) :
    (s.overSlots f).memOk := State.foldl_memOk (fun _ _ hs1 => hk _ _ _ _ (hk _ _ _ _ hs1)) _ hs

theorem State.endDemotions_memOk : s.endDemotions.memOk := State.memOk_mk hs

theorem State.endTmmas_memOk : s.endTmmas.memOk :=
  State.foldl_memOk (fun _ _ hs1 => State.tmmaDone_memOk (State.tmmaDone_memOk hs1 ..) ..) _ hs

theorem State.timers_memOk : s.timers.memOk := by
  have h1 := State.startWindow_memOk (State.testWritten_memOk hs)
  have h2 := State.gateIdle_memOk (State.endTmmas_memOk (State.endDemotions_memOk (State.meter_memOk h1)))
  have h3 := State.overSlots_memOk h2 fun _ b g z ht => State.timeout_memOk ht b g z
  have h4 (c : Prop) [Decidable c] := memOk_ite (c := c) (State.overSlots_memOk h3 fun _ b g z ht => State.retest_memOk ht b g z) h3
  have h5 (c : Prop) [Decidable c] (l) := State.foldl_memOk (fun _ (g : Group) ht => State.overBudget_memOk ht g.blk g.grp) l (h4 c)
  exact State.sendFlits_memOk
    (State.endJobs_memOk (memOk_ite (State.foldl_memOk (fun _ _ ht => State.checkQueue_memOk ht ..) _ (h5 ..)) (h5 ..)))

/-! ### Step -/

theorem step_nextOk : NextOk (step s) := by
  have hf := State.fetch_memOk (State.timers_memOk (State.tick_memOk hs))
  unfold step
  split
  · next heq =>
    rw [heq] at hf
    exact hf
  · next heq =>
    rw [heq] at hf
    exact exec_nextOk hf _

end

end Sys2Proof.Machine
end

namespace Sys2Proof.Machine.Claim

/-- Settles O58: the rule of every event and of every instruction is made of parts that keep the memory canonical
(`step_nextOk`). -/
theorem stepKeepsMemoryCanonical : Obligations.StepKeepsMemoryCanonical := by
  unfold Obligations.StepKeepsMemoryCanonical
  intro s t hs e
  exact (step_nextOk hs).next e

end Sys2Proof.Machine.Claim
